-- ==== Sys2Proof/Word.lean ====
section
/-! DEFINITION. The word types of the VRA-9200 and the plainest operations on them (00 R4, R5). -/

namespace Sys2Proof

/-- One byte of memory. -/
abbrev Byte := BitVec 8
/-- One lane word of a vector register, a tile word or a g register (04 R76, R78). -/
abbrev W32 := BitVec 32
/-- A pair, an a register, an instruction word (04 R77, R81; 13 R296). -/
abbrev W64 := BitVec 64

/-- The lanes of a mask in ascending order: bit `j` is lane `j` (03 R65). -/
def lanesOf (m : W32) : List Nat := (List.range 32).filter fun j => m.getLsbD j

/-- The mask of a list of lanes. -/
def maskOf (l : List Nat) : W32 := l.foldl (fun m j => m ||| BitVec.twoPow 32 j) 0#32

end Sys2Proof
end

