-- ==== Sys2Proof/Config.lean ====
section
/-! DEFINITION. What an implementation fixes and the manual leaves open: the free values.
None of these constants has a body, so no proof can see a value of one. -/

namespace Sys2Proof.Config

/-- A value the manual calls unpredictable or leaves unstated (00 R12; DESIGN CHOICE, log 2). The first argument is the
state's counter of free values, the second tells the places of one step apart. -/
opaque freeWord : Nat → Nat → BitVec 64

/-- What the device's random source gives (08 R184: tag keys; 12 R292: identity key): DESIGN CHOICE, log 2. -/
opaque random : Nat → BitVec 128

/-- The bytes of the adapter's flash that hold the firmware image (12 R292); an input of the device: DESIGN CHOICE, log 2. -/
opaque flash : List (BitVec 8)

/-- The fused hash of the firmware's public key and the fused minimum version (12 R292): DESIGN CHOICE, log 2. -/
opaque fusedKeyHash : List (BitVec 8)
opaque fusedMinSvn : Nat

/-- ML-DSA-44 verification (12 R292, FIPS 204, not restated in the manual): public key, message, signature. Log 3. -/
opaque mldsaVerify : List (BitVec 8) → List (BitVec 8) → List (BitVec 8) → Bool

/-- The ML-DSA-44 signature under the device identity key (12 R292): key, message. Log 3. -/
opaque mldsaSign : BitVec 128 → List (BitVec 8) → List (BitVec 8)

/-- Which drives answered and which peer ports trained at bring-up (01 R29, 12 R295): DRVMASK and PEERMASK. Log 2. -/
opaque drvMask : BitVec 8
opaque peerMask : BitVec 12

end Sys2Proof.Config
end

