-- ==== Sys2Proof/Syntax.lean ====
section
/-! DEFINITION. The instructions and events of the VRA-9200: one constructor of `Instr` per row of the
opcode table. Instructions keep the fields of their encoding format (13 R296, R301, R308 to R310) at the
widths the encoding gives them; events (95) carry the numbers that name what they happen to. -/

namespace Sys2Proof

/-- Predicate and control of a SIMT word, or the slot control of a slot word (13 R296; 05 R94). -/
structure Hdr where
  pneg : Bool
  pn : BitVec 3
  ctl : BitVec 16
  deriving DecidableEq, Repr

/-- REG (13 R301). -/
structure Reg where
  d : BitVec 8
  a : BitVec 8
  b : BitVec 8
  m : BitVec 8
  x : BitVec 2
  deriving DecidableEq, Repr

/-- FOUR (13 R301). -/
structure Four where
  d : BitVec 8
  a : BitVec 8
  b : BitVec 8
  c : BitVec 8
  x : BitVec 2
  deriving DecidableEq, Repr

/-- IMM (13 R301). -/
structure Imm where
  d : BitVec 8
  a : BitVec 8
  m : BitVec 8
  i : BitVec 8
  xa : Bool
  deriving DecidableEq, Repr

/-- CVTF (13 R301, 15 R359). -/
structure Cvtf where
  d : BitVec 8
  a : BitVec 8
  st : BitVec 5
  ftz : Bool
  dt : BitVec 5
  sat : Bool
  rnd : BitVec 2
  xa : Bool
  deriving DecidableEq, Repr

/-- WIDE (13 R301, 17 R408). -/
structure Wide where
  d : BitVec 8
  imm : BitVec 16
  sh : BitVec 2
  deriving DecidableEq, Repr

/-- LIT, with the literal word (13 R300, R301). -/
structure Lit where
  d : BitVec 8
  lit : BitVec 64
  deriving DecidableEq, Repr

/-- MEM (13 R301, R304). -/
structure Mem where
  d : BitVec 8
  a : BitVec 8
  ord : BitVec 3
  scope : BitVec 3
  vec : BitVec 2
  tok : BitVec 3
  ofs : BitVec 5
  x : BitVec 2
  deriving DecidableEq, Repr

/-- ATOMF (13 R301, R305). -/
structure Atomf where
  d : BitVec 8
  a : BitVec 8
  b : BitVec 8
  ord : BitVec 3
  scope : BitVec 3
  tok : BitVec 3
  nr : Bool
  deriving DecidableEq, Repr

/-- ASY (13 R301, R306). -/
structure Asy where
  d : BitVec 8
  a : BitVec 8
  b : BitVec 8
  tok : BitVec 3
  sub : BitVec 5
  x : BitVec 2
  deriving DecidableEq, Repr

/-- SYS (13 R301, R307). -/
structure SysF where
  d : BitVec 8
  a : BitVec 8
  ctx : BitVec 2
  imm : BitVec 8
  xa : Bool
  deriving DecidableEq, Repr

/-- BR (13 R308). -/
structure Br where
  prio : BitVec 16
  off : BitVec 18
  deriving DecidableEq, Repr

/-- FAR, even word and literal (13 R308). -/
structure Far where
  prio : BitVec 16
  off : BitVec 34
  deriving DecidableEq, Repr

/-- TRADE (13 R309). -/
structure Trade where
  d : BitVec 8
  a : BitVec 8
  tile : BitVec 10
  win : Bool
  agent : BitVec 7
  deriving DecidableEq, Repr

/-- MMAF (13 R310, 17 R404). -/
structure Mmaf where
  ba : BitVec 6
  ta : BitVec 10
  fa : BitVec 3
  fb : BitVec 3
  tc : BitVec 10
  xc : Bool
  xa : Bool
  deriving DecidableEq, Repr

/-- TVEC (13 R310). -/
structure Tvec where
  as : BitVec 6
  ta : BitVec 10
  sub : BitVec 6
  td : BitVec 10
  xd : Bool
  xa : Bool
  deriving DecidableEq, Repr

/-- TMEM (13 R310, 18 R446). -/
structure Tmem where
  ao : BitVec 6
  h : BitVec 4
  tok : BitVec 3
  row0 : BitVec 5
  rl : BitVec 4
  tt : BitVec 10
  xt : Bool
  deriving DecidableEq, Repr

/-- SCTL (13 R310). -/
structure Sctl where
  ar : BitVec 6
  h : BitVec 4
  lvl : BitVec 3
  cond : BitVec 3
  entry : BitVec 8
  deriving DecidableEq, Repr

/-- Where an ECC error is found (07 R161): a 64-byte chunk of device memory, of a group's scratchpad, of a tile, of a line in an
L1 (by its number in memory), of the snapshot that a ticket entry holds (08 R190). -/
inductive ErrLoc where
  | mem (chunk : Nat)
  | scratch (gid chunk : Nat)
  | tile (core tile chunk : Nat)
  | l1 (core chunk : Nat)
  | ticket (entry chunk : Nat)
  deriving DecidableEq, Repr

/-- Who waits for a page (10 R235 step 7). -/
inductive Waiter where
  | warp (core slot : Nat)
  | ctx (core ctx : Nat)
  | group (gid : Nat)
  | ticket (slice entry : Nat)
  | ldt (core id : Nat)
  | copy (core id : Nat)
  | hostRead (id : Nat)
  | engine (part : Nat)
  | ring (part ring : Nat)
  | slice (id : Nat)
  | grid (id : Nat)
  /-- an agent, by its number, of a group that is saved -/
  | away (gid agent : Nat)
  deriving DecidableEq, Repr

/-- The PCIe AtomicOps of 12 R271. -/
inductive HostAtom where
  | fetchAdd | swap | cas
  deriving DecidableEq, Repr

/-- What a peer asks for (12 R286): a load of bytes, a store, an atomic of 15 R336 by its code. -/
inductive PeerOp where
  | load (n : Nat)
  | store (bytes : List (BitVec 8))
  | atom (code : Nat) (bytes : List (BitVec 8))
  deriving DecidableEq, Repr

/-- One constructor per row of the opcode table. In an instruction `v` holds the low bits of OPC that select
the variant (13 R314). -/
inductive Instr where
  -- memory atomics (15 R335, R339)
  | atom (h : Hdr) (v : BitVec 5) (f : Atomf)
  | atomAddFloat (h : Hdr) (v : Bool) (f : Atomf)
  | atoms (h : Hdr) (v : BitVec 5) (f : Atomf)
  | atomsAddFloat (h : Hdr) (v : Bool) (f : Atomf)
  | bar (h : Hdr) (f : SysF)
  | bfe (h : Hdr) (f : Reg)
  | bfi (h : Hdr) (v : Bool) (f : Four)
  | bkpt (h : Hdr) (f : SysF)
  | bra (h : Hdr) (f : Br)
  | braFar (h : Hdr) (f : Far)
  | brev (h : Hdr) (f : Reg)
  | brx (h : Hdr) (f : SysF)
  | call (h : Hdr) (f : Br)
  | callFar (h : Hdr) (f : Far)
  | callx (h : Hdr) (f : SysF)
  | cbar (h : Hdr) (f : SysF)
  | clz (h : Hdr) (f : Reg)
  | coll (h : Hdr) (f : Asy)
  | cpy (h : Hdr) (f : Asy)
  | cvt (h : Hdr) (f : Cvtf)
  | eret (h : Hdr) (f : SysF)
  | exit (h : Hdr) (f : SysF)
  | fact (h : Hdr) (v : BitVec 3) (f : Reg)
  | fadd (h : Hdr) (v : BitVec 2) (f : Reg)
  | fcmp (h : Hdr) (f : Reg)
  | fcmpFtz (h : Hdr) (f : Reg)
  | fence (h : Hdr) (f : Mem)
  | ffma (h : Hdr) (v : BitVec 5) (f : Four)
  | flushr (h : Hdr) (f : Asy)
  | fmex (h : Hdr) (f : Reg)
  | fmul (h : Hdr) (v : Bool) (f : Reg)
  | give (h : Hdr) (f : Trade)
  | giveFree (h : Hdr) (f : Trade)
  | grow (h : Hdr) (f : SysF)
  | hrel (h : Hdr) (f : Sctl)
  | iabs (h : Hdr) (f : Reg)
  | iadd (h : Hdr) (f : Reg)
  | iaddImm (h : Hdr) (f : Imm)
  | icmp (h : Hdr) (f : Reg)
  | icmpImm (h : Hdr) (f : Imm)
  | imad (h : Hdr) (v : BitVec 3) (f : Four)
  | imul (h : Hdr) (f : Reg)
  | imulImm (h : Hdr) (f : Imm)
  | invr (h : Hdr) (f : Asy)
  | ishl (h : Hdr) (f : Reg)
  | ishlImm (h : Hdr) (f : Imm)
  | ishr (h : Hdr) (f : Reg)
  | ishrImm (h : Hdr) (f : Imm)
  | ld (h : Hdr) (v : BitVec 3) (f : Mem)
  | lds (h : Hdr) (v : BitVec 3) (f : Mem)
  | ldsCl (h : Hdr) (v : BitVec 3) (f : Mem)
  | ldt (h : Hdr) (f : Asy)
  | ldtTry (h : Hdr) (f : Asy)
  | lngo (h : Hdr) (f : Sctl)
  | lnset (h : Hdr) (f : Sctl)
  | lop (h : Hdr) (f : Reg)
  | lopImm (h : Hdr) (f : Imm)
  | match_ (h : Hdr) (f : Asy)
  | mbarv (h : Hdr) (f : Asy)
  | mbinit (h : Hdr) (f : Asy)
  | mbwait (h : Hdr) (f : Asy)
  | mma (h : Hdr) (f : Mmaf)
  | mmaSp (h : Hdr) (f : Mmaf)
  | mmal (h : Hdr) (f : Mmaf)
  | mmalSp (h : Hdr) (f : Mmaf)
  | mov (h : Hdr) (f : Reg)
  | movToG (h : Hdr) (f : Reg)
  | movi (h : Hdr) (f : Wide)
  | moviToG (h : Hdr) (f : Wide)
  | movl (h : Hdr) (f : Lit)
  | movlToG (h : Hdr) (f : Lit)
  | nop (h : Hdr) (f : SysF)
  | plop (h : Hdr) (f : Reg)
  | popc (h : Hdr) (f : Reg)
  | pref (h : Hdr) (f : Mem)
  | qswz (h : Hdr) (f : Imm)
  | rdsr (h : Hdr) (f : SysF)
  | rdsrToG (h : Hdr) (f : SysF)
  | redeem (h : Hdr) (f : Asy)
  | redeemS (h : Hdr) (f : Asy)
  | redux (h : Hdr) (f : Asy)
  | ret (h : Hdr) (f : SysF)
  | ringpop (h : Hdr) (f : Asy)
  | ringpub (h : Hdr) (f : Asy)
  | ringres (h : Hdr) (f : Asy)
  | sbr (h : Hdr) (f : Sctl)
  | seal (h : Hdr) (f : Asy)
  | unseal (h : Hdr) (f : Asy)
  | sel (h : Hdr) (f : Reg)
  | sfn (h : Hdr) (v : BitVec 3) (f : Reg)
  | shfl (h : Hdr) (f : Asy)
  | shrink (h : Hdr) (f : SysF)
  | sqrun (h : Hdr) (f : SysF)
  | sqstop (h : Hdr) (f : SysF)
  | sqwait (h : Hdr) (f : SysF)
  | st (h : Hdr) (v : BitVec 2) (f : Mem)
  | stNt (h : Hdr) (v : BitVec 2) (f : Mem)
  | sts (h : Hdr) (v : BitVec 2) (f : Mem)
  | stsCl (h : Hdr) (v : BitVec 2) (f : Mem)
  | syield (h : Hdr) (f : SysF)
  | take (h : Hdr) (f : Trade)
  | takeNew (h : Hdr) (f : Trade)
  | tstat (h : Hdr) (f : Trade)
  | tcpy (h : Hdr) (f : Asy)
  | tcvt (h : Hdr) (f : Tvec)
  | tfmas (h : Hdr) (f : Tvec)
  | tmax (h : Hdr) (f : Tvec)
  | tzero (h : Hdr) (f : Tvec)
  | tld (h : Hdr) (f : Tmem)
  | tst (h : Hdr) (f : Tmem)
  | tgld (h : Hdr) (f : Tmem)
  | tgst (h : Hdr) (f : Tmem)
  | tkdrop (h : Hdr) (f : Asy)
  | trap (h : Hdr) (f : SysF)
  | txp (h : Hdr) (f : Tvec)
  | vote (h : Hdr) (f : Asy)
  | waitk (h : Hdr) (f : SysF)
  | wrsr (h : Hdr) (f : SysF)
  | xlt (h : Hdr) (f : Sctl)
  -- one bundle: header and slots M, V, L, X, C (05 R92)
  | bundle (hd m v l x c : BitVec 64)
  -- events (95)
  | branchIntoLiteral
  | memoryErrorDetected (loc : ErrLoc) (double : Bool)
  | fixedResultLands (core : Nat)
  | variableResultDone (core id : Nat)
  | warpStarvation (core slot : Nat)
  | contextQuantumYield (core : Nat)
  | dispatcherTakeRecord (part ring : Nat)
  | placeCluster (part ring : Nat)
  | gridClassify (grid : Nat)
  | groupRetire (gid : Nat)
  | completionAction (grid : Nat)
  | ringWaitServed (id : Nat)
  | growGrant (core : Nat)
  | takeNewGrant (core : Nat)
  | takeComplete (core agent : Nat)
  | tileFreed (core tile : Nat)
  | barComplete (gid : Nat)
  | cbarComplete (cluster : Nat)
  | timedCopyStart (core id : Nat)
  | copyComplete (core id : Nat)
  | copyPageFault (core id : Nat)
  | wcEntryDrain (core line : Nat)
  | l1Evict (core line : Nat)
  | promotion (core : Nat)
  | clusterForward (src dst : Nat)
  | fdResolve (core line : Nat)
  | sealComplete (part reg : Nat)
  | unsealComplete (part reg : Nat)
  | ticketAllocate (core id : Nat)
  | ldtQuotaGrant (slice part : Nat)
  | ticketFetchComplete (slice entry : Nat)
  | ticketSliceRequest (core agent : Nat)
  | ticketLeaseEnd (slice entry : Nat)
  | pageWalk (core part : Nat) (va : BitVec 64)
  | pagerRequest (part : Nat) (va : BitVec 64) (who : Waiter)
  | pageInStart (pager key : Nat)
  | nvmeCompletion (drive cid : Nat) (status : BitVec 16)
  | stqSubmitWaiting (drive : Nat)
  | pageInInstall (pager key : Nat)
  | pageInTimeout (pager key : Nat)
  | sweepStep (part : Nat)
  | evictWriteComplete (pager key : Nat)
  | shootdown (part : Nat) (va : BitVec 64)
  | shootdownComplete (part : Nat)
  | contextUnfreeze (core ctx : Nat)
  | warpUnpark (core slot : Nat)
  | codeFillComplete (core ctx : Nat)
  | groupSwapOut (gid : Nat)
  | priorityPreempt (part ring : Nat)
  | groupRestore (gid : Nat)
  | fltrespResume (part : Nat) (fid : BitVec 32)
  | fltrespAbort (part : Nat) (fid : BitVec 32)
  | fltack (part n : Nat)
  | tlbinv (part : Nat) (val : BitVec 64)
  | tkcfgWrite (part : Nat) (val : BitVec 64)
  | tkstatWrite (part : Nat) (val : BitVec 64)
  | tkquotaWrite (part : Nat) (val : BitVec 64)
  | lringWrite (part ring : Nat) (val : BitVec 64)
  | hrcmdReserve (part chan : Nat) (lo : BitVec 64)
  | hrcmdPublish (part chan : Nat) (lo slot : BitVec 64)
  | hrcmdTake (part chan : Nat) (lo : BitVec 64)
  | partsuspSuspend (part dst : Nat)
  | partsuspResume (part : Nat)
  | pctlCreate (part : Nat)
  | pctlReset (part : Nat)
  | pctlDestroy (part : Nat)
  | pcoreWrite (part : Nat) (hi : Bool) (val : BitVec 64)
  | devreset (val : BitVec 64)
  | stqcfgFlush (drive : Nat)
  | attctlReport
  | moncfgSnap (unit : Nat)
  | moncfgClr (unit : Nat)
  | alarmlogWrite (val : BitVec 64)
  | registerWrite (fn : Nat) (off : Nat) (val : BitVec 64)
  | hostBar2Read (part : Nat) (va : BitVec 64) (n : Nat)
  | hostBar2Write (part : Nat) (va : BitVec 64) (bytes : List (BitVec 8))
  | hostAtomicop (part : Nat) (va : BitVec 64) (op : HostAtom) (n : Nat) (cmp val : BitVec 128)
  | hostReadTimeout (id : Nat)
  | peerAccess (port issuer : Nat) (ftag : BitVec 16) (off : BitVec 64) (op : PeerOp)
  | flitRetry (port : Nat)
  | linkDown (port : Nat)
  | bridgeRetry (bridge : Nat)
  | collStep (id chunk : Nat) (peers : List (List (BitVec 8)))
  | collComplete (id : Nat) (status : BitVec 8)
  | collTimeout (id : Nat)
  | driveDma (drive : Nat) (write : Bool) (pa : Nat) (bytes : List (BitVec 8))
  | powerThrottle (watts : BitVec 12) (step : BitVec 4)
  | thermalTrip (die : Nat)
  | tamperAlarm (sensor : BitVec 4)
  | tamperLevel2 (sensor : BitVec 4)
  | fatalDeviceError (cause : BitVec 8)
  | bringUp
  | illegalOpcode (w : BitVec 64)
  | instructionFetchFault
  | modulePowerRemoval
  deriving DecidableEq, Repr

end Sys2Proof
end

