-- ==== Sys2Proof/Machine/State.lean ====
section
/-! DEFINITION. The state of the VRA-9200 as plain data, the reasons a step can stop, and the state after reset.
Every table keyed by numbers is a list of (key, value) pairs; a missing key reads as the named default. -/

namespace Sys2Proof.Machine

/-- Why the machine stops. -/
inductive Fault where
  /-- Raised by `step` when the device has halted (12 R281, R293) and no reset or management event is due. Safe: the manual
  says that every agent stops. -/
  | halted
  /-- Raised by `step` and by every event when the module has no power (12 R293, R295). Safe. -/
  | powerOff
  /-- Raised by an instruction's meaning in a state in which no warp or context issues it; no step reaches it. Safe. -/
  | noIssuer
  deriving DecidableEq, Repr

/-- Why an instruction is not run. -/
inductive Refusal where
  /-- Raised by the dispatcher for an instruction without a meaning. Safe. -/
  | notModelled (mnemonic : String)
  deriving DecidableEq, Repr

/-- Who issues the instruction being executed (01 R17): a warp slot or a sequencer context of a core. -/
inductive Issuer where
  | none
  | warp (core slot : Nat)
  | ctx (core ctx : Nat)
  deriving DecidableEq, Repr

/-- A frontier entry (03 R60). -/
structure Entry where
  pc : BitVec 48 := 0
  prio : BitVec 16 := 0
  mask : W32 := 0
  depth : Nat := 0
  deriving DecidableEq, Repr

/-- An on-chip call frame (03 R66, R69): its depth, its mask, the return word of each lane. -/
structure Frame where
  depth : Nat
  mask : W32
  rets : List (Nat × W64)
  deriving DecidableEq, Repr

/-- Window of a warp (04 R80). -/
structure Win where
  valid : Bool := false
  pending : Bool := false
  tile : BitVec 10 := 0
  deriving DecidableEq, Repr

/-- Visible and hidden part of a handle (05 R108); `pte` is the physical address of the leaf entry. -/
structure Handle where
  v : Bool := false
  w : Bool := false
  rd : Bool := false
  size : BitVec 3 := 0
  vpn : BitVec 36 := 0
  frame : Nat := 0
  cp : BitVec 2 := 0
  dirtyDone : Bool := false
  pte : Nat := 0
  /-- G of the leaf (10 R227) -/
  g : Bool := false
  deriving DecidableEq, Repr

/-- One level of a loop nest (05 R102). -/
structure Level where
  stride : List (BitVec 32) := [0, 0, 0, 0]
  trip : BitVec 32 := 0
  cnt : BitVec 32 := 0
  start : BitVec 8 := 0
  pv : BitVec 4 := 0
  lstate : BitVec 2 := 0
  areg : List (BitVec 6) := [0, 0, 0, 0]
  deriving DecidableEq, Repr

/-- A result on its way to its destination (02 R51, 05 R96). -/
inductive Write where
  /-- lanes of one row of a tile: a vector register or a tile row -/
  | row (tile row : Nat) (vals : List (Nat × W32))
  /-- a uniform register of a warp -/
  | g (n : Nat) (v : W32)
  /-- lanes of a predicate -/
  | pred (n : Nat) (vals : List (Nat × Bool))
  /-- an a register of a context -/
  | a (n : Nat) (v : W64)
  /-- a handle register of a context -/
  | hnd (n : Nat) (v : Handle)
  /-- a whole tile, row by row -/
  | tile (n : Nat) (words : List W32)
  /-- bytes of a group's scratchpad, with the 64-byte chunks that they poison (07 R161) -/
  | scratch (gid ofs : Nat) (bytes : List Byte) (bad : List Nat)
  /-- one level of a context's shadow loop-nest table (16 R395) -/
  | lnset (level : Nat) (l : Level)
  /-- V of a handle register becomes 0 (16 R380) -/
  | hrel (n : Nat)
  /-- lanes of a special register -/
  | sr (n : Nat) (vals : List (Nat × W64))
  deriving DecidableEq, Repr

/-- A fixed-latency result in flight: who issued it, the cycle in which it lands, its issue number, what it writes. -/
structure Pend where
  agent : Issuer
  due : Nat
  seq : Nat
  w : Write
  deriving DecidableEq, Repr

/-- Why a warp waits with its pc at the waiting instruction (02 R48, R52; 04 R88; 08 R188; 10 R243). -/
inductive Wait where
  | none
  | page                            -- a page-in (10 R243)
  | grow (n : Nat)                  -- GROW (02 R48)
  | take (tile : Nat) (win : Bool) (act : W32)  -- TAKE, with its active real lanes (04 R88)
  | takeNew (win : Bool) (d : Nat)  -- TAKE.new (04 R87)
  | rank (gid : Nat)                -- an arrival on the phase gate of a saved group (17 R402)
  | bar                             -- BAR (15 R340)
  | cbar                            -- CBAR (15 R351)
  | mbwait (ofs ph : Nat)           -- MBWAIT (09 R219)
  | sqwait (ctx d : Nat)            -- SQWAIT (05 R123)
  | ticket (id : Nat)               -- REDEEM and TKDROP (08 R188)
  | waitk (mask : BitVec 8)         -- WAITK (18 R452)
  deriving DecidableEq, Repr

/-- A warp (02 R47, 03, 04). -/
structure Warp where
  gid : Nat := 0
  index : Nat := 0
  real : W32 := 0
  helper : W32 := 0
  allot : List Nat := []
  frontier : List Entry := []
  g : List (Nat × W32) := []
  preds : List (Nat × W32) := []
  w0 : Win := {}
  w1 : Win := {}
  trapcode : W32 := 0
  trapinfo : List (Nat × W64) := []
  trappc : W64 := 0
  hmode : Bool := false
  held : Entry := {}
  tokens : List (Nat × Nat) := []
  pmask : List Nat := []
  frames : List Frame := []
  spilled : List Nat := []
  exited : W32 := 0
  nextIssue : Nat := 0
  parkS : Bool := false
  waitCount : Nat := 0
  placed : Nat := 0
  wait : Wait := .none
  /-- lanes whose next strong write carries a release of FENCE, with its scope (09 R204) -/
  carried : List (Nat × Nat) := []
  /-- the cycle in which the wait began -/
  since : Nat := 0
  /-- SYIELD: ranks as the youngest warp of its priority until it next issues (18 R438) -/
  young : Bool := false
  deriving DecidableEq, Repr

/-- States of a context (05 R122). -/
inductive CState where
  | stopped | running | frozen | trapped
  deriving DecidableEq, Repr

/-- The reuse-A latch (05 R118): format, sparse or dense, the words of the operand. -/
structure Latch where
  fmt : BitVec 4
  sparse : Bool
  words : List W32
  deriving DecidableEq, Repr

/-- Why a context stalls before a bundle (05 R55). -/
inductive CWait where
  | none
  | page                   -- a code fill from a page that is not resident (05 R100)
  | take (tile : Nat)
  | takeNew (d : Nat)
  | ready                               -- its take could be made in an earlier cycle (18 R440)
  | ticket (id : Nat) (had : List Nat)  -- a request at its slice, and those answered before it (08 R188)
  | answered (ids : List Nat)           -- the claims have come; the bundle may issue (08 R188)
  | waitk (mask : BitVec 8) -- WAITK of the last bundle (18 R452)
  deriving DecidableEq, Repr

/-- A sequencer context (05). -/
structure Ctx where
  bound : Bool := false
  gid : Nat := 0
  a : List (Nat × W64) := []
  h : List (Nat × Handle) := []
  tokens : List (Nat × Nat) := []
  state : CState := .stopped
  trapcode : BitVec 8 := 0
  xretry : Bool := false
  pos : BitVec 32 := 0
  hist : List (Nat × W64) := []
  cur : List (Nat × Level) := []
  shadow : List (Nat × Level) := []
  latch : Option Latch := none
  /-- latched results; `due` holds the remaining cycles (05 R113) -/
  snapshot : List Pend := []
  kept : Option (W64 × Nat) := none
  quantum : Nat := 0
  pmask : List Nat := []
  wait : CWait := .none
  nextIssue : Nat := 0
  sqstop : Bool := false
  carried : Option Nat := none
  /-- the cycle in which a TAKE or TAKE.new began to wait, or 0 -/
  since : Nat := 0
  /-- the last bundle ended an iteration of a running level 0 (05 R106) -/
  edge : Bool := false
  /-- its group is parked or being saved, and it has reached a point of R106 (11 R257, R259) -/
  atPoint : Bool := false
  /-- cycles for which it has been ready without issuing (02 R56) -/
  waitCount : Nat := 0
  deriving DecidableEq, Repr

/-- One byte of an L1 line (07 R156): its value, its dirty bit, the core's release number when it was written (09 R208) and the grid that
wrote it (02 R45). -/
structure LByte where
  val : Byte
  dirty : Bool
  epoch : BitVec 32
  grid : Nat
  deriving DecidableEq, Repr

/-- An L1 line: its valid bytes by offset and the origin of its forwarded-dirty bytes (09 R210). -/
structure Line where
  bytes : List (Nat × LByte) := []
  fd : Option Nat := none
  deriving DecidableEq, Repr

/-- A translation held in a TLB (10 R226): bytes `va` to `va + len - 1` at `pa`; `pte` is the leaf entry's address. -/
structure TlbE where
  part : Nat
  va : Nat
  len : Nat
  pa : Nat
  pte : Nat
  leaf : W64
  deriving DecidableEq, Repr

/-- Owner states of a tile (04 R84). -/
inductive TState where
  | free | seq | warp | offered | held
  deriving DecidableEq, Repr

/-- The owner field of a tile and the group that the core records with it (04 R84). A tile set free with writes still
pending is `dying` until PEND is 0 (04 R87). -/
structure Owner where
  st : TState := .free
  owner : Nat := 0x7F
  dst : Nat := 0x7F
  allot : Bool := false
  gid : Nat := 0
  dying : Bool := false
  /-- of an offered tile: the issue number of its GIVE (04 R90) -/
  seq : Nat := 0
  deriving DecidableEq, Repr

/-- What an outstanding access to global memory or to scratchpad does when it is performed (09 R202). -/
inductive AccKind where
  | load | store | rmw (op : Nat) (size : Nat) (flt : Bool) (ret : Bool)
  deriving DecidableEq, Repr

/-- One lane of an access: address, bytes (of a store, or of the operands of an atomic), the destination registers. -/
structure LaneAcc where
  lane : Nat
  pa : Nat
  bytes : List Byte
  deriving DecidableEq, Repr

/-- Where the loaded bytes of a lane go: rows of tiles, or g registers (lowest lane only); sign extension of short elements. -/
structure LoadDst where
  uniform : Bool
  first : Nat
  rows : List (Nat × Nat)
  esize : Nat
  bytes : Nat
  signed : Bool
  zeroLanes : List Nat
  deriving DecidableEq, Repr

/-- An access that is performed at the home slices after its issue (09 R202). -/
structure Access where
  kind : AccKind
  ord : Nat
  scope : Nat
  /-- the scope of the release that it performs, its own or one of an earlier FENCE, or 0; whether a lazy one tags its words
  (09 R207, R208, R212) -/
  rel : Nat
  tag : Bool
  lanes : List LaneAcc
  dst : LoadDst
  part : Nat
  /-- group of the issuer -/
  gid : Nat
  /-- on scratchpads: the address is 2^32 times the group's name plus the offset -/
  scratch : Bool
  /-- 64-byte chunks that its store data poisons, by address (07 R161) -/
  bad : List Nat
  /-- what lanes under another cache policy have loaded at the issue (09 R202) -/
  got : List (Nat × List Byte) := []
  deriving DecidableEq, Repr

/-- States of a ticket entry (08 R189). -/
inductive TkState where
  | free | waitpage | fetching | full | poisoned | claimed
  deriving DecidableEq, Repr

/-- What the translation of an LDT's segment gives its entry (08 R179): the slice, the first state, the physical address, the
bytes of the snapshot with the offsets of poisoned ones, the cause. -/
structure Seg where
  slice : Nat
  st : TkState
  pa : Nat
  cause : BitVec 8
  deriving DecidableEq, Repr

/-- What a variable-latency operation still has to do (02 R50, 07 R162). -/
inductive VarBody where
  /-- results known at issue -/
  | results (ws : List Write)
  /-- an access still to be performed -/
  | access (a : Access)
  /-- nothing but the fall of the token -/
  | quiet
  /-- LDT before its entry is allocated (08 R179, R181), with what its translation gave if it waits for its quota -/
  | ldt (va : W64) (size : Nat) (d : Nat) (try_ : Bool) (seg : Option Seg)
  /-- TGST still to be performed: physical address, bytes, poisoned chunks, scope of the release that it carries or 0 -/
  | tgst (pa : Nat) (bytes : List Byte) (bad : List Nat) (rel : Nat)
  /-- TGLD still to be performed: tile, first row, physical address, length -/
  | tgld (tile row pa len : Nat)
  /-- FLUSHR and INVR of a range -/
  | flush (va len : Nat) (inv : Bool)
  /-- SEAL and UNSEAL of a register: their events end them -/
  | seal (reg : Nat)
  /-- a ring operation served by the home slice (17 R422) -/
  | ring
  deriving DecidableEq, Repr

/-- An outstanding variable-latency operation. -/
structure VarOp where
  id : Nat
  agent : Issuer
  tok : Nat
  issued : Nat
  seq : Nat
  /-- destination registers: true for a g (or a) register -/
  regs : List (Bool × Nat)
  /-- tiles with a pending write of it (04 R86) -/
  tiles : List Nat
  /-- registers written meanwhile: their final value is free (02 R51) -/
  clash : List (Bool × Nat)
  body : VarBody
  /-- its latency is one of a load (12 R290) -/
  load : Bool
  deriving DecidableEq, Repr

/-- A copy that runs or waits for its time (07 R163 to R168). -/
structure Copy where
  id : Nat
  agent : Issuer
  gid : Nat
  tok : Nat
  desc : BitVec 256
  tensor : Option (BitVec 512)
  hnd : Option Handle
  scope : Nat
  started : Bool
  startedAt : Nat
  parked : Bool
  waiting : Bool
  /-- its progress: bytes of a CPY, pieces of a TCPY; what a DIR 0 TCPY has read -/
  done : Nat
  got : List Byte := []
  /-- ranges of its scratchpad destination that its context has written meanwhile: free (05 R96) -/
  clash : List (Nat × Nat) := []
  deriving DecidableEq, Repr

/-- A core (01 R17). -/
structure Core where
  tiles : List (Nat × W32) := []
  owners : List (Nat × Owner) := []
  queue : List (Issuer × Nat) := []
  l1 : List (Nat × Line) := []
  split : Nat := 524288
  /-- entries of the write-combining buffer: line, bytes by offset with the grid that wrote each (02 R45) -/
  wc : List (Nat × List (Nat × Byte × Nat)) := []
  relNo : BitVec 32 := 0
  tlb : List TlbE := []
  copies : List Copy := []
  dict : List (Nat × Nat) := []
  /-- words of the index streams of kernels on the core as they were first fetched, by the key of `dict` (05 R100; DEDUCED, log 50) -/
  stream : List (Nat × Nat) := []
  curCtx : Nat := 0
  mmaFree : Nat := 0
  f64Free : List (Nat × Nat) := []
  pend : List Pend := []
  vars : List VarOp := []
  deriving DecidableEq, Repr

/-- Class of a grid (02 R45). -/
inductive GClass where
  | balanced | compute | memory
  deriving DecidableEq, Repr

/-- A grid: the taken record (02 R39) and what the dispatcher counts of it. -/
structure Grid where
  part : Nat := 0
  ring : Nat := 0
  record : BitVec 1024 := 0
  entry : W64 := 0
  khdr : List W64 := []
  /-- positions of the sequencer entry table (05 R101), read at the launch -/
  entries : List Nat := []
  nextCluster : Nat := 0
  retired : Nat := 0
  firstPlaced : Option Nat := none
  macs : Nat := 0
  bytes : Nat := 0
  cls : GClass := .balanced
  classified : Bool := false
  aborted : Bool := false
  status : BitVec 8 := 0
  counted : Bool := false
  done : Bool := false
  /-- the slot that its completion action has reserved; whether the action waits for room (02 R41) -/
  slot : Option (BitVec 64) := none
  acting : Bool := false
  deriving DecidableEq, Repr

/-- A cluster that has been placed (02 R34, R43). -/
structure Cluster where
  grid : Nat := 0
  number : Nat := 0
  groups : List Nat := []
  placed : Nat := 0
  deriving DecidableEq, Repr

/-- Residence of a group (02 R58, 10 R244, 11 R259). -/
inductive GPhase where
  | resident | saving (reason : Nat) | saved (reason : Nat) | gone
  deriving DecidableEq, Repr

/-- What a parked FID lets continue (11 R257). -/
inductive Resume where
  | warp (slot : Nat) (skip : Bool)
  | ctx (k : Nat)
  | copy (id : Nat)
  | nothing
  deriving DecidableEq, Repr

/-- A reservation or take that waits at the slice of a ring (17 R422); `id` is that of the warp's outstanding operation. -/
structure RingWait where
  id : Nat
  part : Nat
  hdr : W64
  /-- true: RINGRES, false: RINGPOP -/
  res : Bool
  agent : Issuer
  deriving DecidableEq, Repr

/-- A group (02 R34, R57). -/
structure Group where
  grid : Nat := 0
  number : Nat := 0
  cluster : Nat := 0
  rank : Nat := 0
  core : Nat := 0
  slots : List Nat := []
  ctxs : List Nat := []
  base : Nat := 0
  size : Nat := 0
  scratch : List (Nat × Byte) := []
  bar : List Nat := []
  cbar : Bool := false
  phase : GPhase := .resident
  fids : List (BitVec 32 × Resume × Bool) := []
  /-- leaf addresses of the pages awaited at the save (10 R245) -/
  awaits : List Nat := []
  ready : Bool := false
  savedTiles : List (Nat × Owner × Nat) := []
  /-- LDTs withdrawn at the save, to be issued again (08 R194), and the saved copies with what their records leave out (07 R177) -/
  ldts : List VarOp := []
  copies : List Copy := []
  /-- ring reservations and takes withdrawn at the save while they waited, to be issued again (17 R424) -/
  rings : List VarOp := []
  ringReqs : List RingWait := []
  /-- contexts saved while a WAITK waits, with its mask (18 R452) -/
  waitks : List (Nat × BitVec 8) := []
  /-- depths of the frames that a warp slot held on chip at the save (03 R75), and the lanes of a context's latched rows (05 R124) -/
  depths : List (Nat × List Nat) := []
  rowMasks : List (Nat × List (List Nat)) := []
  /-- warp slots saved while a TAKE or TAKE.new waits, with that wait (04 R91); contexts frozen at the save, with the address of the XLT -/
  takes : List (Nat × Wait) := []
  xltVas : List (Nat × W64) := []
  deriving DecidableEq, Repr

/-- Last claim of a ticket entry (08 R187). -/
inductive TkClaim where
  | none | redeemed | dropped | lapsed | reclaimed
  deriving DecidableEq, Repr

/-- An entry of a ticket table (08 R185, R189). -/
structure Ticket where
  st : TkState := .free
  gen : BitVec 8 := 1
  part : Nat := 0
  size : Nat := 0
  va : W64 := 0
  pa : Nat := 0
  data : List Byte := []
  poisoned : List Nat := []
  cause : BitVec 8 := 0
  waiters : List Nat := []
  last : TkClaim := .none
  clock : Nat := 0
  reader : Issuer := .none
  readerGid : Nat := 0
  deriving DecidableEq, Repr

/-- Where a warp's REDEEM delivers (08 R186): tile and row of each register, or an offset of its group's scratchpad. -/
inductive TkDst where
  | none
  | rows (l : List (Nat × Nat))
  | scratch (gid ofs : Nat)
  deriving DecidableEq, Repr

/-- A REDEEM or TKDROP on its way to a slice (08 R188): the lanes that a trap would name, the destination and the token of a
warp's; whether the slice has it; the claimed data. -/
structure TkReq where
  agent : Issuer
  ticket : W64
  drop : Bool
  act : W32
  dst : TkDst
  tok : Nat
  sent : Bool
  data : Option (List Byte)
  deriving DecidableEq, Repr

/-- An LDT that waits for its quota (08 R181). -/
structure LdtWait where
  slice : Nat
  part : Nat
  core : Nat
  id : Nat
  deriving DecidableEq, Repr

/-- A page-in or an eviction (10 R233, R235, R238). -/
structure InFlight where
  part : Nat
  va : W64
  evict : Bool
  stage : Nat
  leaf : W64
  oldPte : W64
  size : Nat
  frame : Nat
  record : Nat
  waiters : List Waiter
  left : Nat
  deadline : Nat
  /-- false after a partition reset: it runs to completion and installs nothing (12 R280) -/
  ok : Bool
  /-- number of the pager area (10 R241) -/
  area : Nat
  since : Nat
  /-- its name in the commands, and the entries of an evicted page as they stood (10 R236, R239) -/
  id : Nat := 0
  olds : List W64 := []
  deriving DecidableEq, Repr

/-- An NVMe command of a storage queue engine (10 R240 to R242). -/
structure Cmd where
  cid : Nat
  op : Nat
  slba : Nat
  nlb : Nat
  prp1 : Nat
  prp2 : Nat
  pager : Nat
  key : Nat
  flight : Nat := 0
  deriving DecidableEq, Repr

/-- A drive and its queue engine (10 R241, R242; 12 R279). -/
structure Drive where
  sqb : W64 := 0
  cqb : W64 := 0
  cfg : W64 := 0
  bar : List (Nat × Byte) := []
  out : List Cmd := []
  waiting : List Cmd := []
  tail : Nat := 0
  head : Nat := 0
  phase : Bool := true
  nextCid : Nat := 0
  flushing : Bool := false
  deriving DecidableEq, Repr

/-- A shootdown in progress (10 R228). -/
structure Shoot where
  part : Nat
  va : W64
  inv : Bool
  /-- its actions have been taken, and it waits for the accesses to the old frames -/
  done : Bool := false
  deriving DecidableEq, Repr

/-- A collective (12 R287 to R289). -/
structure Coll where
  id : Nat
  core : Nat
  agent : Issuer
  tok : Nat
  part : Nat
  desc : BitVec 256
  running : Bool
  /-- cycle of the last progress -/
  issued : Nat
  /-- chunks that are done -/
  chunks : List Nat
  /-- a store to its buffers since its issue: DST is unpredictable (15 R355) -/
  raced : Bool := false
  /-- by chunk, the bytes of SRC that have been read and how many of DST have been written (12 R289) -/
  work : List (Nat × List Byte × Nat) := []
  /-- the status with which it ends while its end waits for a page or for room, and how much of DST has become unpredictable -/
  ends : Option Nat := none
  freed : Nat := 0
  deriving DecidableEq, Repr

/-- A read of the host, or of a peer by its fabric ID, held for a page (12 R271, R286). -/
structure HostRead where
  id : Nat
  part : Nat
  va : W64
  n : Nat
  since : Nat
  peer : Option Nat := none
  deriving DecidableEq, Repr

/-- A capture unit (12 R290). -/
structure Mon where
  cfg : W64 := 0
  live : List (Nat × Nat) := []
  snap : List (Nat × Nat) := []
  deriving DecidableEq, Repr

/-- A command channel of the host (12 R274): SLOT, DONE, STATUS, the slot of the command that runs, and the low quadword written last. -/
structure Chan where
  slot : W64 := 0
  arg : W64 := 0
  done : Bool := true
  status : BitVec 8 := 0
  lo : W64 := 0
  /-- the command that runs, with its OP, and the page that it waits for -/
  cmd : W64 := 0
  page : Option Nat := none
  deriving DecidableEq, Repr

/-- A bounced write (07 R171): leaf-entry key of its page, offset in the page, bytes. -/
structure Bounced where
  key : Nat
  ofs : Nat
  bytes : List Byte
  deriving DecidableEq, Repr

/-- A partition: its block of the management page and its register page (12 R272, R277). -/
structure Part where
  state : BitVec 2 := 0
  busy : Bool := false
  op : BitVec 3 := 0
  result : BitVec 8 := 0
  pcore : BitVec 96 := 0
  cores : List Nat := []
  pframe : W64 := 0
  pgrant : W64 := 0
  quota : Nat := 64
  ptroot : W64 := 0
  tlbinv : W64 := 0
  traph : W64 := 0
  fltring : W64 := 0
  fltstat : BitVec 32 := 0
  lease : BitVec 5 := 20
  lapsed : BitVec 32 := 0
  pagercfg : W64 := 0
  reslist : W64 := 0
  ffr4k : W64 := 0
  ffr64k : W64 := 0
  ffr2m : W64 := 0
  bounce : W64 := 0
  intcfg : W64 := 0
  lring : List (Nat × W64) := []
  seals : List (Nat × W64) := []
  chans : List (Nat × Chan) := []
  fid : BitVec 32 := 1
  tagKey : BitVec 128 := 0
  bounced : List Bounced := []
  hand : Nat := 0
  sweeping : Bool := false
  /-- the pager's note of each resident storage-backed page: leaf address, first address, size (10 R237) -/
  resident : List (Nat × (Nat × Nat)) := []
  lentTo : Option Nat := none
  /-- record being placed on each launch ring, by ring number, and the cycle since which it is held back -/
  placing : List (Nat × Nat) := []
  held : List (Nat × Nat) := []
  /-- launch rings that wait for a page, grids whose completion action waits, and the launch ring that is served next (02 R41, R42) -/
  blocked : List Nat := []
  actWaits : List Nat := []
  nextRing : Nat := 0
  /-- page-ins that have failed a launch ring, or the action of grid g as 4 + g: first address, size (10 R236) -/
  ringFails : List (Nat × Nat × Nat) := []
  /-- freed frames that wait for room in their ring: size, frame (10 R234) -/
  backs : List (Nat × Nat) := []
  /-- slots taken whose bytes are still to be read, by ring number (02 R38) -/
  taken : List (Nat × Nat) := []
  deriving DecidableEq, Repr

/-- Registers of the management page and of the device (12). -/
structure Mgmt where
  drvMask : BitVec 8 := 0
  peerMask : BitVec 12 := 0
  fatal : Bool := false
  keyGone : Bool := false
  fwOk : Bool := false
  fcause : BitVec 8 := 0
  suspBusy : Bool := false
  suspOp : BitVec 2 := 0
  suspTo : BitVec 4 := 0
  suspPart : BitVec 4 := 0
  fabid : BitVec 4 := 0
  fabroute : W64 := 0
  pwrlim : BitVec 12 := 3000
  watts : BitVec 12 := 0
  throttle : BitVec 4 := 0
  alarm : W64 := 0
  mgtint : BitVec 6 := 0
  nonce : List (Nat × W64) := []
  haddr : W64 := 0
  attBusy : Bool := false
  attstat : BitVec 8 := 0
  fwDigest : List Byte := []
  fwSvn : W64 := 0
  idKey : BitVec 128 := 0
  randoms : Nat := 0
  power : Bool := true
  hostLink : Bool := false
  peersDown : List Nat := []
  corrected : Nat := 0
  deriving DecidableEq, Repr

/-- What leaves the device (12 R275, R271, R286, R240). -/
inductive Out where
  | msix (fn : Nat) (vec : Nat)
  | hostWrite (addr : Nat) (bytes : List Byte)
  | hostReadDone (id : Nat) (bytes : Option (List Byte))
  | hostAtomicDone (bytes : Option (List Byte))
  /-- accesses through the peer aperture carry the partition's fabric tag and the issuer's fabric ID (12 R286) -/
  | peerWrite (dev ofs : Nat) (ftag : BitVec 16) (issuer : BitVec 4) (bytes : List Byte)
  /-- loads and atomics of agents through the host and peer apertures: address, bytes, code of the operation -/
  | hostLoad (addr n : Nat)
  | peerLoad (dev ofs : Nat) (ftag : BitVec 16) (issuer : BitVec 4) (n : Nat)
  | hostAtom (addr code : Nat) (bytes : List Byte)
  | peerAtom (dev ofs : Nat) (ftag : BitVec 16) (issuer : BitVec 4) (code : Nat) (bytes : List Byte)
  | peerReply (issuer : Nat) (bytes : Option (List Byte))
  /-- a doorbell of a drive: its offset in the controller's registers, the value -/
  | doorbell (drive ofs v : Nat)
  | admin (drive ofs : Nat) (bytes : List Byte)
  | collSend (id : Nat) (chunk : Nat) (bytes : List Byte)
  deriving DecidableEq, Repr

/-- The machine. -/
structure State where
  /-- cycles since device reset: sr.devtime (07 R167) -/
  now : Nat
  /-- device memory: sorted by address, no zero byte listed; an unlisted byte reads zero (12 R295; DESIGN CHOICE before bring-up, log 11) -/
  mem : List Host.Cell
  /-- poisoned 64-byte chunks (07 R161) -/
  poison : List ErrLoc
  /-- release tags of aligned 8-byte words (09 R208): word number to pairs of core and release number -/
  tags : List (Nat × List (Nat × BitVec 32))
  cores : List (Nat × Core)
  /-- warps by 64 * core + slot -/
  warps : List (Nat × Warp)
  /-- contexts by 4 * core + number -/
  ctxs : List (Nat × Ctx)
  groups : List (Nat × Group)
  clusters : List (Nat × Cluster)
  grids : List (Nat × Grid)
  parts : List (Nat × Part)
  /-- shared TLBs by die (10 R226) -/
  stlbs : List (Nat × List TlbE)
  /-- ticket entries by 1024 * slice + entry (08 R181) -/
  tickets : List (Nat × Ticket)
  tkreqs : List (Nat × TkReq)
  ldtWaits : List LdtWait
  ringWaits : List RingWait
  /-- page-ins and evictions by pager and leaf address (10 R233), and requests that wait for room: pager, partition, address, waiter, the
  cycle of the miss (12 R290) -/
  inflight : List ((Nat × Nat) × InFlight)
  pagerQueue : List (Nat × Nat × W64 × Waiter × Nat)
  drives : List (Nat × Drive)
  shoots : List Shoot
  colls : List Coll
  hostReads : List HostRead
  /-- accesses of the host, of peers and of collectives that wait for a page or for room in the bounce region, in order, each with the
  pages whose page-in has failed since: partition, first address, size (10 R236, 12 R271) -/
  deferred : List (Instr × List (Nat × Nat × Nat))
  /-- the model's own: the failed pages of the access that is being tried again; none otherwise (DESIGN CHOICE, log 1) -/
  refuse : List (Nat × Nat × Nat)
  /-- fault records that wait for a slot of their ring (10 R231): partition, record -/
  recWaits : List (Nat × BitVec 512)
  mons : List (Nat × Mon)
  /-- BAR4 of the functions: quadwords of the MSI-X tables by 128 * function + quadword, and pending bits by function (12 R270) -/
  msix : List (Nat × W64)
  pba : List (Nat × W64)
  mgmt : Mgmt
  out : List Out
  /-- the model's own: the events that stand to happen (DESIGN CHOICE, log 1) -/
  agenda : List Instr
  /-- the model's own: which event happens next, where the manual leaves the order open (DESIGN CHOICE, log 1) -/
  choices : List Nat
  /-- the model's own: the issuer that moves next (DESIGN CHOICE, log 1) -/
  turn : Issuer
  /-- the model's own: the issuer of the instruction being executed (DESIGN CHOICE, log 1) -/
  cur : Issuer
  /-- the model's own: counter of free values (DESIGN CHOICE, log 2) -/
  freeCtr : Nat
  /-- the model's own: names of operations, groups and grids, and issue order (DESIGN CHOICE, log 1) -/
  nextId : Nat
  /-- the model's own: units that have issued in this cycle (DESIGN CHOICE, log 1) -/
  issued : List Nat
  deriving DecidableEq, Repr

/-- The canonical form of a byte memory: addresses strictly rising and no entry that equals what an unlisted address
reads as. -/
def Memory.wf : List Host.Cell → Bool
  | [] => true
  | [(_, v)] => v != 0
  | (a, v) :: (b, w) :: t => v != 0 && a < b && Memory.wf ((b, w) :: t)

/-- The machine right after reset: power applied, every block reset (12 R295 step 1); bring-up stands to happen. Values that no
rule states: DESIGN CHOICE, log 12. -/
def State.reset : State where
  now := 0
  mem := []
  poison := []
  tags := []
  cores := []
  warps := []
  ctxs := []
  groups := []
  clusters := []
  grids := []
  parts := []
  stlbs := []
  tickets := []
  tkreqs := []
  ldtWaits := []
  ringWaits := []
  inflight := []
  pagerQueue := []
  drives := []
  shoots := []
  colls := []
  hostReads := []
  deferred := []
  refuse := []
  recWaits := []
  mons := []
  msix := []
  pba := []
  mgmt := {}
  out := []
  agenda := [.bringUp]
  choices := []
  turn := .none
  cur := .none
  freeCtr := 0
  nextId := 1
  issued := []

end Sys2Proof.Machine
end

