-- ==== Sys2Proof/Machine/Maps.lean ====
section
/-! DEFINITION. Tables keyed by numbers, and the accessors of the state's tables. A table that omits entries equal to a
default uses `mset`, one that keeps every record uses `mput`. -/

namespace Sys2Proof.Machine

variable {α : Type}

/-- The value at a key, or the default. -/
def mget (d : α) : List (Nat × α) → Nat → α
  | [], _ => d
  | (k, v) :: t, n => if k = n then v else mget d t n

/-- The value at a key, if there is one. -/
def mget? : List (Nat × α) → Nat → Option α
  | [], _ => none
  | (k, v) :: t, n => if k = n then some v else mget? t n

/-- Replace the value at a key, keeping the keys in rising order. -/
def mput : List (Nat × α) → Nat → α → List (Nat × α)
  | [], n, x => [(n, x)]
  | (k, v) :: t, n, x => if k = n then (n, x) :: t else if n < k then (n, x) :: (k, v) :: t else (k, v) :: mput t n x

/-- Remove a key. -/
def mdel : List (Nat × α) → Nat → List (Nat × α)
  | [], _ => []
  | (k, v) :: t, n => if k = n then mdel t n else (k, v) :: mdel t n

/-- Replace the value at a key; an entry equal to the default is not listed. -/
def mset [DecidableEq α] (d : α) (m : List (Nat × α)) (n : Nat) (x : α) : List (Nat × α) :=
  if x = d then mdel m n else mput m n x

/-- The `i`-th element of a list of words, zero past its end. -/
def nth (d : α) : List α → Nat → α
  | [], _ => d
  | x :: _, 0 => x
  | _ :: t, n + 1 => nth d t n

def setNth : List α → Nat → α → List α
  | [], _, _ => []
  | _ :: t, 0, y => y :: t
  | x :: t, n + 1, y => x :: setNth t n y

/-- Update the entries of a table, keeping its keys. -/
def mmap (f : Nat → α → α) (m : List (Nat × α)) : List (Nat × α) := m.map fun kv => (kv.1, f kv.1 kv.2)

def State.core (s : State) (c : Nat) : Core := mget {} s.cores c
def State.setCore (s : State) (c : Nat) (k : Core) : State := { s with cores := mput s.cores c k }
def State.modCore (s : State) (c : Nat) (f : Core → Core) : State := s.setCore c (f (s.core c))

/-- Key of a warp slot and of a context in their tables. -/
def wkey (c w : Nat) : Nat := 64 * c + w
def ckey (c k : Nat) : Nat := 4 * c + k

def State.warp (s : State) (c w : Nat) : Warp := mget {} s.warps (wkey c w)
def State.warp? (s : State) (c w : Nat) : Option Warp := mget? s.warps (wkey c w)
def State.setWarp (s : State) (c w : Nat) (x : Warp) : State := { s with warps := mput s.warps (wkey c w) x }
def State.modWarp (s : State) (c w : Nat) (f : Warp → Warp) : State :=
  match s.warp? c w with
  | some x => s.setWarp c w (f x)
  | none => s
def State.delWarp (s : State) (c w : Nat) : State := { s with warps := mdel s.warps (wkey c w) }

def State.ctx (s : State) (c k : Nat) : Ctx := mget {} s.ctxs (ckey c k)
def State.setCtx (s : State) (c k : Nat) (x : Ctx) : State := { s with ctxs := mput s.ctxs (ckey c k) x }
def State.modCtx (s : State) (c k : Nat) (f : Ctx → Ctx) : State := s.setCtx c k (f (s.ctx c k))
def State.delCtx (s : State) (c k : Nat) : State := { s with ctxs := mdel s.ctxs (ckey c k) }

def State.group (s : State) (n : Nat) : Group := mget {} s.groups n
def State.setGroup (s : State) (n : Nat) (x : Group) : State := { s with groups := mput s.groups n x }
def State.modGroup (s : State) (n : Nat) (f : Group → Group) : State :=
  match mget? s.groups n with
  | some x => s.setGroup n (f x)
  | none => s
def State.cluster (s : State) (n : Nat) : Cluster := mget {} s.clusters n
def State.grid (s : State) (n : Nat) : Grid := mget {} s.grids n
def State.setGrid (s : State) (n : Nat) (x : Grid) : State := { s with grids := mput s.grids n x }
def State.modGrid (s : State) (n : Nat) (f : Grid → Grid) : State :=
  match mget? s.grids n with
  | some x => s.setGrid n (f x)
  | none => s
def State.part (s : State) (p : Nat) : Part := mget {} s.parts p
def State.setPart (s : State) (p : Nat) (x : Part) : State := { s with parts := mput s.parts p x }
def State.modPart (s : State) (p : Nat) (f : Part → Part) : State := s.setPart p (f (s.part p))
def State.drive (s : State) (d : Nat) : Drive := mget {} s.drives d
def State.setDrive (s : State) (d : Nat) (x : Drive) : State := { s with drives := mput s.drives d x }
def State.modDrive (s : State) (d : Nat) (f : Drive → Drive) : State := s.setDrive d (f (s.drive d))
def State.ticket (s : State) (i : Nat) : Ticket := mget {} s.tickets i
def State.setTicket (s : State) (i : Nat) (x : Ticket) : State := { s with tickets := mput s.tickets i x }
def State.modMgmt (s : State) (f : Mgmt → Mgmt) : State := { s with mgmt := f s.mgmt }

/-- An event joins the end of the agenda. -/
def State.push (s : State) (e : Instr) : State := { s with agenda := s.agenda ++ [e] }
/-- Something leaves the device. -/
def State.emit (s : State) (o : Out) : State := { s with out := s.out ++ [o] }
/-- A quadword of the functions' MSI-X tables. Entries are laid out as PCI Express lays them out and are masked at reset, as it has them
(PRESUMED, log 59). -/
def State.msixWord (s : State) (k : Nat) : W64 := mget (if k % 2 == 1 then 0x100000000#64 else 0) s.msix k
/-- An entry is masked. -/
def State.masked (s : State) (fn vec : Nat) : Bool := (s.msixWord (128 * fn + 2 * vec + 1)).getLsbD 32
/-- A vector of a function is signalled: a masked entry of its MSI-X table leaves its pending bit set (12 R270, R275). -/
def State.signal (s : State) (fn vec : Nat) : State :=
  if s.masked fn vec then
    { s with pba := mset 0 s.pba fn (mget 0 s.pba fn ||| BitVec.twoPow 64 vec) }
  else s.emit (.msix fn vec)
/-- A number no operation, group or grid has had. -/
def State.fresh (s : State) : Nat := s.nextId
def State.bump (s : State) : State := { s with nextId := s.nextId + 1 }
/-- sr.devtime (07 R167). -/
def State.devtime (s : State) : W64 := BitVec.ofNat 64 s.now
/-- A step that reads free values advances their counter (DESIGN CHOICE, log 2). -/
def State.useFree (s : State) : State := { s with freeCtr := s.freeCtr + 1 }
/-- The free value of this step at a place. -/
def State.free (s : State) (tag : Nat) : W64 := Config.freeWord s.freeCtr tag

end Sys2Proof.Machine
end

