-- ==== Sys2Proof/Machine/Bits.lean ====
section
/-! DEFINITION. Byte order, bit fields and sign extension (00 R4, R8): one place for each. -/

namespace Sys2Proof.Machine

/-- The number that bytes hold, least significant first (00 R4). -/
def leNat : List Byte → Nat
  | [] => 0
  | b :: t => b.toNat + 256 * leNat t

/-- `n` bytes of a number, least significant first. -/
def leBytes : Nat → Nat → List Byte
  | 0, _ => []
  | n + 1, x => BitVec.ofNat 8 (x % 256) :: leBytes n (x / 256)

/-- Bits [hi:lo] of a number (00 R8). -/
def bitsN (x hi lo : Nat) : Nat := x / 2 ^ lo % 2 ^ (hi + 1 - lo)

/-- Bit `i` of a number. -/
def bitN (x i : Nat) : Bool := x / 2 ^ i % 2 == 1

/-- Sign extension of an `n`-bit value (00 R8). -/
def sextN (x n : Nat) : Int :=
  let y := x % 2 ^ n
  if y < 2 ^ (n - 1) then (y : Int) else (y : Int) - (2 : Int) ^ n

/-- The low `n` bits of an exact result (06 R129). -/
def wrapN (n : Nat) (x : Int) : Nat := (x % (2 : Int) ^ n).toNat

/-- The nearest number of a range (06 R129). -/
def clampI (x lo hi : Int) : Int := if x < lo then lo else if hi < x then hi else x

def lo32 (x : W64) : W32 := x.extractLsb' 0 32
def hi32 (x : W64) : W32 := x.extractLsb' 32 32
def pair (lo hi : W32) : W64 := hi ++ lo

/-- Bytes of words in ascending order. -/
def wordBytes (ws : List W32) : List Byte := ws.flatMap fun w => leBytes 4 w.toNat

/-- Words of bytes, four at a time. -/
def bytesWords : Nat → List Byte → List W32
  | 0, _ => []
  | n + 1, bs => BitVec.ofNat 32 (leNat (bs.take 4)) :: bytesWords n (bs.drop 4)

/-- The addresses `a` to `a + n - 1`. -/
def span (a n : Nat) : List Nat := (List.range n).map (a + ·)

/-- Pair each address from `a` up with its byte. -/
def cellsAt (a : Nat) : List Byte → List (Nat × Byte)
  | [] => []
  | b :: t => (a, b) :: cellsAt (a + 1) t

/-- The smallest number of a list, with the default for an empty one. -/
def minOf (d : Nat) : List Nat → Nat
  | [] => d
  | x :: t => t.foldl min x

def sumOf (l : List Nat) : Nat := l.foldl (· + ·) 0

/-- Ceiling of a quotient. -/
def cdiv (a b : Nat) : Nat := (a + b - 1) / b

/-- Position of the first element that satisfies a test. -/
def findIdx (p : α → Bool) : List α → Option Nat
  | [] => none
  | x :: t => if p x then some 0 else (findIdx p t).map (· + 1)

/-- Insert a number once. -/
def insertNat (x : Nat) (l : List Nat) : List Nat := if l.contains x then l else l ++ [x]

def listUnion (a b : List Nat) : List Nat := b.foldl (fun l x => insertNat x l) a

end Sys2Proof.Machine
end

