-- ==== Sys2Proof/Machine/Flags.lean ====
section
/-! DEFINITION. What an instruction computes into a predicate: comparisons and truth tables (13 R302; 16 R384, R370), and the
ranges of saturation (06 R129). The machine has no flag register; predicates hold its conditions. -/

namespace Sys2Proof.Machine

/-- The integer relation of a CMP code 0 to 5 (13 R302). -/
def cmpInt (cmp : Nat) (a b : Int) : Bool :=
  match cmp with
  | 0 => a == b
  | 1 => a != b
  | 2 => a < b
  | 3 => a ≤ b
  | 4 => b < a
  | _ => b ≤ a

/-- LUT bit 2a + b (13 R302). -/
def lutBit (lut : BitVec 4) (a b : Bool) : Bool :=
  lut.getLsbD ((if a then 2 else 0) + (if b then 1 else 0))

/-- The LUT applied to every bit of two words (16 R396). -/
def lutWord (w : Nat) (lut : BitVec 4) (a b : BitVec w) : BitVec w :=
  (if lut.getLsbD 0 then ~~~a &&& ~~~b else 0) ||| (if lut.getLsbD 1 then ~~~a &&& b else 0) |||
  (if lut.getLsbD 2 then a &&& ~~~b else 0) ||| (if lut.getLsbD 3 then a &&& b else 0)

/-- Width of an integer or bit type (13 R303). -/
def intWidth (t : Nat) : Nat :=
  match t with
  | 0 | 4 => 8
  | 1 | 5 => 16
  | 3 | 7 | 9 => 64
  | _ => 32
/-- Signed types. -/
def intSigned (t : Nat) : Bool := t ≤ 3
/-- The range of a type (06 R129). -/
def typeMin (t : Nat) : Int := if intSigned t then -(2 : Int) ^ (intWidth t - 1) else 0
def typeMax (t : Nat) : Int := if intSigned t then (2 : Int) ^ (intWidth t - 1) - 1 else (2 : Int) ^ intWidth t - 1

/-- The number that the low bits of an operand hold under a type. -/
def intVal (t : Nat) (x : W64) : Int :=
  if intSigned t then sextN x.toNat (intWidth t) else ((x.toNat % 2 ^ intWidth t : Nat) : Int)

/-- An exact result, clamped under .sat and otherwise wrapped to the type's width (06 R129). -/
def intResult (t : Nat) (sat : Bool) (e : Int) : W64 :=
  BitVec.ofNat 64 (wrapN (intWidth t) (if sat then clampI e (typeMin t) (typeMax t) else e))

end Sys2Proof.Machine
end

