-- ==== Sys2Proof/Machine/Float.lean ====
section
/-! DEFINITION. Number formats, rounding, floating arithmetic and conversions (06 R125 to R145). Values are exact until the one
rounding at the end. -/

namespace Sys2Proof.Machine

/-- An exact value: `num neg m e` is ±m · 2^e, a signed zero when `m = 0`. NaR of L6 is read as `nan` (06 R134). -/
inductive FV where
  | nan
  | inf (neg : Bool)
  | num (neg : Bool) (m : Nat) (e : Int)
  deriving DecidableEq, Repr

/-- A floating format: exponent bits, fraction bits (06 R125). E4M3 has no infinities. -/
structure Fmt where
  eb : Nat
  mb : Nat
  e4m3 : Bool := false
  deriving DecidableEq, Repr

def fF64 : Fmt := { eb := 11, mb := 52 }
def fF32 : Fmt := { eb := 8, mb := 23 }
def fF16 : Fmt := { eb := 5, mb := 10 }
def fBF16 : Fmt := { eb := 8, mb := 7 }
def fE5M2 : Fmt := { eb := 5, mb := 2 }
def fE4M3 : Fmt := { eb := 4, mb := 3, e4m3 := true }

def Fmt.bias (f : Fmt) : Int := (2 : Int) ^ (f.eb - 1) - 1
def Fmt.bits (f : Fmt) : Nat := f.eb + f.mb + 1
/-- Magnitude code of infinity, of the largest finite value, and the canonical NaN (06 R125). -/
def Fmt.infMag (f : Fmt) : Nat := (2 ^ f.eb - 1) * 2 ^ f.mb
def Fmt.maxMag (f : Fmt) : Nat := if f.e4m3 then 0x7E else f.infMag - 1
def Fmt.nan (f : Fmt) : Nat := if f.e4m3 then 0x7F else f.infMag + 2 ^ (f.mb - 1)

/-- The exact value of a pattern; with `ftz` a subnormal reads as a zero of its sign (R125, R126, R131). -/
def Fmt.dec (f : Fmt) (ftz : Bool) (x : Nat) : FV :=
  let neg := bitN x (f.eb + f.mb)
  let e := bitsN x (f.eb + f.mb - 1) f.mb
  let m := x % 2 ^ f.mb
  if f.e4m3 && x % 128 == 0x7F then .nan
  else if !f.e4m3 && e == 2 ^ f.eb - 1 then (if m == 0 then .inf neg else .nan)
  else if e == 0 then .num neg (if ftz then 0 else m) (1 - f.bias - f.mb)
  else .num neg (2 ^ f.mb + m) (e - f.bias - f.mb)

def bitLen (m : Nat) : Nat := if m = 0 then 0 else Nat.log2 m + 1

/-- `m · 2^e` in units of `2^q`, rounded in a mode of R130. -/
def roundUnits (neg : Bool) (rnd : Nat) (m : Nat) (e q : Int) : Nat :=
  if q ≤ e then m * 2 ^ (e - q).toNat
  else
    let d := (q - e).toNat
    let u := m / 2 ^ d
    let r := m % 2 ^ d
    let up := match rnd with
      | 0 => 2 ^ d < 2 * r || (2 * r == 2 ^ d && u % 2 == 1)
      | 1 => false
      | 2 => neg && r != 0
      | _ => !neg && r != 0
    if up then u + 1 else u

/-- The quantum of a format at a value, and the magnitude code of the rounded value with the exponent unbounded above. -/
def Fmt.roundMag (f : Fmt) (neg : Bool) (rnd : Nat) (m : Nat) (e : Int) : Nat :=
  if m = 0 then 0
  else
    let top := e + bitLen m - 1
    let q := max top (1 - f.bias) - f.mb
    ((q + f.mb + f.bias - 1) * (2 : Int) ^ f.mb).toNat + roundUnits neg rnd m e q

/-- A sign and a magnitude code. -/
def Fmt.mk' (f : Fmt) (neg : Bool) (mag : Nat) : Nat := (if neg then 2 ^ (f.eb + f.mb) else 0) + mag

/-- A subnormal code is written as a zero of its sign (R131). -/
def Fmt.flush (f : Fmt) (ftz : Bool) (mag : Nat) : Nat := if ftz && mag < 2 ^ f.mb then 0 else mag

/-- Round an exact value to a format (R130, R132, R137, R138): overflow as the mode directs, or to the largest finite value
under .sat. -/
def Fmt.round (f : Fmt) (rnd : Nat) (sat ftz : Bool) : FV → Nat
  | .nan => f.nan
  | .inf neg => if sat then f.mk' neg f.maxMag else if f.e4m3 then f.nan else f.mk' neg f.infMag
  | .num neg m e =>
    let mag := f.roundMag neg rnd m e
    if mag ≤ f.maxMag then f.mk' neg (f.flush ftz mag)
    else if sat then f.mk' neg f.maxMag
    else if f.e4m3 then f.nan
    else if rnd == 0 || (rnd == 2 && neg) || (rnd == 3 && !neg) then f.mk' neg f.infMag
    else f.mk' neg f.maxMag

def FV.negate : FV → FV
  | .nan => .nan
  | .inf n => .inf (!n)
  | .num n m e => .num (!n) m e

def FV.isNaN : FV → Bool
  | .nan => true
  | _ => false

/-- Signed multiple of a common power of two. -/
def scaled (neg : Bool) (m : Nat) (e q : Int) : Int :=
  let x : Int := (m * 2 ^ (e - q).toNat : Nat)
  if neg then -x else x

/-- The exact sum; an exact zero of operands of opposite signs is +0, or −0 under .rm (16 R369). -/
def FV.add (rnd : Nat) : FV → FV → FV
  | .nan, _ => .nan
  | _, .nan => .nan
  | .inf a, .inf b => if a == b then .inf a else .nan
  | .inf a, .num _ _ _ => .inf a
  | .num _ _ _, .inf b => .inf b
  | .num na ma ea, .num nb mb eb =>
    if ma == 0 && mb == 0 then .num (if na == nb then na else rnd == 2) 0 0
    else if ma == 0 then .num nb mb eb
    else if mb == 0 then .num na ma ea
    else
      let q := min ea eb
      let x := scaled na ma ea q + scaled nb mb eb q
      if x == 0 then .num (rnd == 2) 0 0 else .num (x < 0) x.natAbs q

/-- The exact product; infinity times zero is a NaN (R141). -/
def FV.mul : FV → FV → FV
  | .nan, _ => .nan
  | _, .nan => .nan
  | .inf a, .inf b => .inf (a != b)
  | .inf a, .num b m _ => if m == 0 then .nan else .inf (a != b)
  | .num a m _, .inf b => if m == 0 then .nan else .inf (a != b)
  | .num na ma ea, .num nb mb eb => .num (na != nb) (ma * mb) (ea + eb)

/-- Order of finite values and infinities; −0 equals +0. -/
def FV.lt : FV → FV → Bool
  | .nan, _ => false
  | _, .nan => false
  | .inf a, .inf b => a && !b
  | .inf a, .num _ _ _ => a
  | .num _ _ _, .inf b => !b
  | .num na ma ea, .num nb mb eb =>
    let q := min ea eb
    scaled na ma ea q < scaled nb mb eb q

def FV.eq : FV → FV → Bool
  | .nan, _ => false
  | _, .nan => false
  | .inf a, .inf b => a == b
  | .num na ma ea, .num nb mb eb =>
    let q := min ea eb
    scaled na ma ea q == scaled nb mb eb q
  | _, _ => false

def FV.neg : FV → Bool
  | .nan => false
  | .inf n => n
  | .num n _ _ => n

/-- FCMP (16 R370). -/
def cmpFloat (cmp : Nat) (a b : FV) : Bool :=
  match cmp with
  | 0 => a.eq b
  | 1 => !a.eq b
  | 2 => a.lt b
  | 3 => a.lt b || a.eq b
  | 4 => b.lt a
  | 5 => b.lt a || a.eq b
  | 6 => !a.isNaN && !b.isNaN
  | _ => a.isNaN || b.isNaN

/-- FMEX (16 R375): one NaN gives the other operand, and −0 is less than +0. -/
def FV.least (a b : FV) : FV :=
  if a.isNaN then b else if b.isNaN then a
  else if a.lt b then a else if b.lt a then b else if a.neg then a else b
def FV.greatest (a b : FV) : FV :=
  if a.isNaN then b else if b.isNaN then a
  else if b.lt a then a else if a.lt b then b else if a.neg then b else a

/-- add_f32_rne (R145). -/
def addF32 (a b : Nat) : Nat := fF32.round 0 false false (FV.add 0 (fF32.dec false a) (fF32.dec false b))

/-! ### L6 (R127, R128, R139, R140) -/

def l6t (q : Nat) : Nat := match q with | 0 => 0x8000 | 1 => 0x9838 | 2 => 0xB505 | _ => 0xD745

def l6Dec (x : Nat) : FV :=
  let m := x % 32
  let neg := bitN x 5
  if m == 0 then (if neg then .nan else .num false 0 0)
  else .num neg (l6t ((m + 16) % 4)) (((m : Int) - 16).fdiv 4 - 15)

/-- to_l6 (R139). -/
def toL6 (sat : Bool) : FV → Nat
  | .nan => 0x20
  | .inf neg => if sat then (if neg then 0x3F else 0x1F) else 0x20
  | .num neg m e =>
    if m = 0 then 0
    else
      let top : Int := e + bitLen m - 1
      let f := m * 256 / 2 ^ (bitLen m - 1) - 256
      let q : Int := if f < 24 then 0 else if f < 76 then 1 else if f < 139 then 2 else if f < 214 then 3 else 4
      let c := 16 + 4 * top + q
      let s := if neg then 0x20 else 0
      if c < 1 then 0 else if 31 < c then (if sat then s + 31 else 0x20) else s + c.toNat

/-- fold_l6 (R148). -/
def foldL6 (code : Nat) (x : Int) : Nat :=
  if code % 32 == 0 then code % 64
  else
    let m : Int := (code % 32 : Nat) + 4 * x
    let s := if bitN code 5 then 0x20 else 0
    if 31 < m then s + 31 else if m < 1 then 0 else s + m.toNat

/-- An L6 product, formed in the logarithm: codes add, and the tabulated magnitude of the sum weighs (R142). -/
def l6Mul (a b : Nat) : FV :=
  if a % 64 == 0x20 || b % 64 == 0x20 then .nan
  else if a % 32 == 0 || b % 32 == 0 then .num false 0 0
  else
    let cc : Int := (a % 32 + b % 32 : Nat) - 32
    .num (bitN a 5 != bitN b 5) (l6t (cc.emod 4).toNat) (cc.fdiv 4 - 15)

/-! ### Types of CVT (13 R303, R134 to R140) -/

def fmtOf (t : Nat) : Fmt :=
  match t with
  | 10 | 17 => fF16
  | 11 | 18 => fBF16
  | 13 => fF64
  | 14 => fE4M3
  | 15 => fE5M2
  | _ => fF32
/-- Types of R131. -/
def ftzType (t : Nat) : Bool := t == 10 || t == 11 || t == 12 || t == 17 || t == 18

/-- The exact value of an element of a type (R134). -/
def elemVal (t : Nat) (ftz : Bool) (x : W64) : FV :=
  if t ≤ 7 then let i := intVal t x; .num (i < 0) i.natAbs 0
  else if t == 16 then l6Dec x.toNat
  else (fmtOf t).dec (ftz && ftzType t) (x.toNat % 2 ^ (fmtOf t).bits)

/-- To an integer type: rounded, clamped; a NaN gives 0 (R135). -/
def toInt (t rnd : Nat) : FV → W64
  | .nan => 0
  | .inf neg => BitVec.ofInt 64 (if neg then typeMin t else typeMax t)
  | .num neg m e =>
    let u : Int := (roundUnits neg rnd m e 0 : Nat)
    BitVec.ofInt 64 (clampI (if neg then -u else u) (typeMin t) (typeMax t))

/-- The bits of an integer result: sign- or zero-extended to its registers (15 R360). -/
def extInt (t : Nat) (x : W64) : W64 :=
  BitVec.ofInt 64 (intVal t x)

/-- CVT of one element (15 R361). -/
def cvtElem (st dt rnd : Nat) (sat ftz : Bool) (x : W64) : W64 :=
  if st ≤ 7 && dt ≤ 7 then extInt dt (intResult dt sat (intVal st x))
  else if st == dt && st == 16 then BitVec.ofNat 64 (x.toNat % 64)
  else
    let v := elemVal st ftz x
    if dt ≤ 7 then extInt dt (toInt dt rnd v)
    else if dt == 16 then BitVec.ofNat 64 (toL6 sat v)
    else if st == dt && !v.isNaN then
      (match v with
        | .inf _ => BitVec.ofNat 64 (x.toNat % 2 ^ (fmtOf dt).bits)
        | _ => BitVec.ofNat 64 ((fmtOf dt).round rnd false (ftz && ftzType dt) v))
    else BitVec.ofNat 64 ((fmtOf dt).round rnd sat (ftz && ftzType dt) v)

/-! ### Matrix unit (R141 to R145) -/

/-- The sum of a group's products (R143): NaN, then infinities, then the exact sum; `E` truncates each finite product to a
multiple of 2^E (R144). -/
def groupSum (ps : List FV) (E : Option Int) : FV :=
  if ps.any FV.isNaN then .nan
  else
    let infs := ps.filterMap fun p => match p with | .inf n => some n | _ => none
    if infs.contains true && infs.contains false then .nan
    else match infs.head? with
      | some n => .inf n
      | none =>
        let nums := ps.filterMap fun p => match p with
          | .num n m e => if m = 0 then none else
              (match E with
                | none => some (n, m, e)
                | some q => if q ≤ e then some (n, m, e) else some (n, m / 2 ^ (q - e).toNat, q))
          | _ => none
        match nums with
        | [] => .num false 0 0
        | _ =>
          let q := nums.foldl (fun q x => min q x.2.2) ((nums.head?.map (·.2.2)).getD 0)
          let x := nums.foldl (fun acc x => acc + scaled x.1 x.2.1 x.2.2 q) 0
          if x == 0 then .num false 0 0 else .num (x < 0) x.natAbs q

/-- ⌊log₂|p|⌋ of a finite nonzero product. -/
def FV.top : FV → Option Int
  | .num _ m e => if m = 0 then none else some (e + bitLen m - 1)
  | _ => none

/-- The truncation of R144. -/
def groupTrunc (ps : List FV) : Option Int :=
  match ps.filterMap FV.top with
  | [] => none
  | x :: t => some (t.foldl max x - 30)

def chunks (k : Nat) : Nat → List α → List (List α)
  | 0, _ => []
  | n + 1, l => l.take k :: chunks k n (l.drop k)

/-- Codes 0 to 5 of SFMT: E4M3, E5M2, F16, BF16, F32, L6 (07 R169). -/
def sfmtDec (c : Nat) (x : Nat) : FV :=
  match c with
  | 0 => fE4M3.dec false (x % 256)
  | 1 => fE5M2.dec false (x % 256)
  | 2 => fF16.dec false (x % 65536)
  | 3 => fBF16.dec false (x % 65536)
  | 4 => fF32.dec false x
  | _ => l6Dec (x % 64)
def sfmtSize (c : Nat) : Nat := match c with | 2 | 3 => 2 | 4 => 4 | _ => 1

/-- One element of C (R142 to R145): groups of 64 for FP8, of 8 with truncation for BF16, F16 and F32, one exact group with
scales for L6. -/
def mmaElem (fmt : Nat) (scale : Int) (c : Nat) (ps : List FV) : Nat :=
  if fmt == 5 then
    let g := match groupSum ps none with
      | .num n m e => FV.num n m (e + scale)
      | x => x
    addF32 c (fF32.round 0 false false g)
  else if fmt ≤ 1 then
    (chunks 64 (ps.length / 64) ps).foldl (fun c g => addF32 c (fF32.round 0 false false (groupSum g none))) c
  else
    (chunks 8 (ps.length / 8) ps).foldl (fun c g => addF32 c (fF32.round 0 false false (groupSum g (groupTrunc g)))) c

end Sys2Proof.Machine
end

