-- ==== Sys2Proof/WellFormed.lean ====
section
/-! DEFINITION. The checks that depend only on the instruction word (13 R299, R460): a term that fails one
names no instruction that executes; the machine traps it with ILLEGAL_OPERAND (or ILLEGAL_SLOT where the place
is wrong). `wfWarp` is the check in a SIMT warp, `wfSlot` the check in a bundle slot. -/

namespace Sys2Proof

/-- Slots of a bundle (05 R92). -/
inductive Slot where
  | m | v | l | x | c
  deriving DecidableEq, Repr

/-- Type code of a MOD byte, its SF bit and its VAR field (13 R302). -/
def modType (m : BitVec 8) : Nat := (m.extractLsb' 3 5).toNat
def modSF (m : BitVec 8) : Bool := m.getLsbD 2
def modVar (m : BitVec 8) : Nat := (m.extractLsb' 0 2).toNat
def modLow3 (m : BitVec 8) : Nat := (m.extractLsb' 0 3).toNat
def modLut (m : BitVec 8) : BitVec 4 := m.extractLsb' 4 4

/-- Types that occupy a register pair (13 R303): .s64 .n64 .b64 .f64. -/
def wideType (t : Nat) : Bool := [3, 7, 9, 13].contains t
/-- Registers of one operand of a type. -/
def regsOf (t : Nat) : Nat := if wideType t then 2 else 1

/-- A run of `k` v registers from `n`: aligned, within v0-v191 or one window (13 R298). -/
def vRun (n k : Nat) : Bool :=
  n % min k 4 == 0 && (n + k ≤ 192 || (192 ≤ n && n + k ≤ 224) || (224 ≤ n && n + k ≤ 256))
/-- A run of `k` g (or a) registers from `n` (13 R298). -/
def gRun (n k : Nat) : Bool := n % min k 4 == 0 && n + k ≤ 64
/-- A run of v or g registers as the X bit selects. -/
def rRun (g : Bool) (n : BitVec 8) (k : Nat) : Bool := if g then gRun n.toNat k else vRun n.toNat k

def xA (x : BitVec 2) : Bool := x.getLsbD 0
def xB (x : BitVec 2) : Bool := x.getLsbD 1

/-- The integer and bit types of IADD, ISHL and ISHR (16 R383, R388). -/
def tyAll6 : List Nat := [2, 6, 8, 3, 7, 9]
/-- The signed and unsigned 32- and 64-bit types (16 R384). -/
def tyInt4 : List Nat := [2, 6, 3, 7]
def tyBits : List Nat := [8, 9]
/-- The types of the floating lane operations (16 R368). -/
def tyFloat : List Nat := [10, 11, 12, 13, 17, 18]
/-- The types that accept .ftz (06 R131). -/
def tyFtz : List Nat := [10, 11, 12, 17, 18]

/-- Operand runs of a REG word whose D, A and B are of `kd`, `ka`, `kb` registers. -/
def regRuns (f : Reg) (kd ka kb : Nat) : Bool :=
  vRun f.d.toNat kd && rRun (xA f.x) f.a ka && rRun (xB f.x) f.b kb
/-- A REG word whose B is unused: B and X[1] zero. -/
def regRuns1 (f : Reg) (kd ka : Nat) : Bool :=
  vRun f.d.toNat kd && rRun (xA f.x) f.a ka && f.b == 0 && !xB f.x

/-- VEC of an element size in bytes (13 R304). -/
def vecOk (es : Nat) (vec : BitVec 2) : Bool :=
  match es with
  | 4 => vec.toNat ≤ 2
  | 8 => vec.toNat ≤ 1
  | _ => vec == 0
/-- Element size of a load code (16 R389) and of a store code (18 R435). -/
def ldSize (v : BitVec 3) : Nat := match v.toNat with | 0 | 1 => 1 | 2 | 3 => 2 | 4 => 4 | _ => 8
def stSize (v : BitVec 2) : Nat := 2 ^ v.toNat
/-- Access size of a MEM word (13 R304). -/
def memBytes (es : Nat) (f : Mem) : Nat := es * 2 ^ f.vec.toNat
/-- Registers of a MEM access. -/
def memRegs (es : Nat) (f : Mem) : Nat := max 1 (memBytes es f / 4)
/-- Ordering and scope of a MEM word (09 R196): nonzero orderings need a scope. -/
def ordScopeOk (ords : List Nat) (maxScope : Nat) (ord scope : BitVec 3) : Bool :=
  ords.contains ord.toNat && scope.toNat ≤ maxScope && (ord == 0 || scope != 0)
def memOk (es : Nat) (f : Mem) (areg : Nat) (ords : List Nat) (maxScope : Nat) : Bool :=
  vecOk es f.vec && ordScopeOk ords maxScope f.ord f.scope &&
  rRun (xB f.x) f.d (memRegs es f) && rRun (xA f.x) f.a areg

/-- Operation and operand size of an ATOM code (15 R335): `op = v / 4`, `tc = v % 4`. -/
def atomOp (v : BitVec 5) : Nat := v.toNat / 4
def atomTc (v : BitVec 5) : Nat := v.toNat % 4
def atomSize (v : BitVec 5) : Nat :=
  if atomOp v < 3 then (if atomTc v < 2 then 4 else 8)
  else match atomTc v with | 0 => 4 | 1 => 8 | _ => 16
/-- Codes that the map assigns (13 R315). -/
def atomAssigned (v : BitVec 5) (b128 : Bool) : Bool :=
  if atomOp v < 3 then true
  else if atomOp v < 7 then atomTc v < 2
  else atomTc v < (if b128 then 3 else 2)
def atomfOk (f : Atomf) (sz : Nat) (cas : Bool) (areg maxScope : Nat) : Bool :=
  (if f.nr then f.d == 0 && !cas && (f.ord == 0 || f.ord == 2)
   else vRun f.d.toNat (sz / 4) && f.ord.toNat ≤ 3) &&
  f.scope.toNat ≤ maxScope && (f.ord == 0 || f.scope != 0) &&
  vRun f.a.toNat areg && vRun f.b.toNat (if cas then 2 * sz / 4 else sz / 4)

def subHi (f : Asy) (k : Nat) : Bool := f.sub.toNat < 2 ^ k

/-- The special registers of 04 R80, and those of 64 bits. -/
def srNums : List Nat := [0, 1, 2, 3, 4, 5, 6, 7, 8, 9, 10, 11, 12, 0x10, 0x11, 0x20, 0x21, 0x22]
def srWide (n : Nat) : Bool := [0x10, 0x11, 0x21, 0x22].contains n
def srRegs (n : Nat) : Nat := if srWide n then 2 else 1

/-- SYS words without operands (13 R307). -/
def sysNone (f : SysF) : Bool := f.d == 0 && f.a == 0 && f.ctx == 0 && f.imm == 0 && !f.xa
def sysImm (f : SysF) : Bool := f.d == 0 && f.a == 0 && f.ctx == 0 && !f.xa
def countOk (f : SysF) : Bool := 1 ≤ f.imm.toNat && f.imm.toNat ≤ 6

/-- The number of an accumulator tile (04 R82). -/
def accTile (t : Nat) : Bool := 256 ≤ t && t ≤ 767
/-- The tile named by TILE, or by A when TILE is 0x3FF (13 R309). -/
def tradeTile (f : Trade) : Bool := if f.tile == 0x3FF then f.a.toNat < 64 else f.a == 0 && accTile f.tile.toNat

/-- CVT's types (15 R360). -/
def cvtOk (f : Cvtf) : Bool :=
  let s := f.st.toNat
  let d := f.dt.toNat
  let x2 := fun t : Nat => t == 17 || t == 18
  let legal := fun t : Nat => t ≤ 18 && t != 8 && t != 9
  let isInt := fun t : Nat => t ≤ 7
  legal s && legal d && (!x2 s || d == 12) && (!x2 d || s == 12) &&
  (f.rnd == 0 || !(d == 14 || d == 15 || d == 16 || (isInt s && isInt d))) &&
  (!f.ftz || tyFtz.contains s || tyFtz.contains d) &&
  vRun f.d.toNat (if x2 s then 2 else regsOf d) && rRun f.xa f.a (if x2 d then 2 else regsOf s)

/-- Modifiers of the 16-bit and 32-bit unary functions FACT and SFN (16 R366, 18 R429). -/
def unaryFloatOk (f : Reg) : Bool :=
  tyFtz.contains (modType f.m) && modVar f.m == 0 && regRuns1 f 1 1
/-- A rounding floating lane operation in REG (16 R368). -/
def floatRegOk (f : Reg) : Bool :=
  let t := modType f.m
  tyFloat.contains t && (!modSF f.m || tyFtz.contains t) && regRuns f (regsOf t) (regsOf t) (regsOf t)
/-- FFMA's type from OPC[4:3] (13 R314). -/
def ffmaType (v : BitVec 5) : Nat := match (v.extractLsb' 3 2).toNat with | 0 => 12 | 1 => 13 | 2 => 17 | _ => 18
def ffmaFtz (v : BitVec 5) : Bool := v.getLsbD 2
/-- IMAD's type from OPC[1:0] (16 R385). -/
def imadType (v : BitVec 3) : Nat := match (v.extractLsb' 0 2).toNat with | 0 => 2 | 1 => 6 | 2 => 3 | _ => 7
/-- IMUL's VAR and .sat (16 R386). -/
def imulModOk (m : BitVec 8) : Bool :=
  let t := modType m
  tyInt4.contains t && modVar m != 3 && (!modSF m || modVar m == 0) && !(modVar m == 2 && wideType t)
def imulDRegs (m : BitVec 8) : Nat := if modVar m == 2 then 2 else regsOf (modType m)
/-- IADD's modifiers (16 R383). -/
def iaddModOk (m : BitVec 8) : Bool :=
  tyAll6.contains (modType m) && modVar m ≤ 1 && (!modSF m || tyInt4.contains (modType m))
def shiftModOk (m : BitVec 8) : Bool := tyAll6.contains (modType m) && !modSF m && modVar m == 0
def icmpModOk (m : BitVec 8) : Bool := tyInt4.contains (modType m) && modLow3 m ≤ 5
def lopWide (m : BitVec 8) : Bool := m.getLsbD 3
def lopRegs (m : BitVec 8) : Nat := if lopWide m then 2 else 1

/-- OPC variants that the opcode map assigns (13 R314, R315). -/
def Instr.assigned : Instr → Bool
  | .atom _ v _ => atomAssigned v true
  | .atoms _ v _ => atomAssigned v false
  | .fact _ v _ => v.toNat ≤ 4
  | .sfn _ v _ => v.toNat ≤ 6
  | .ld _ v _ | .lds _ v _ | .ldsCl _ v _ => v.toNat ≤ 5
  | _ => true

/-- Word checks of an instruction in a SIMT warp; `false` for an operation a warp may not issue. -/
def Instr.wfWarp : Instr → Bool
  | .atom _ v f => atomAssigned v true && atomfOk f (atomSize v) (atomOp v == 7) 2 6
  | .atomAddFloat _ _ f => atomfOk f 4 false 2 6
  | .atoms _ v f => atomAssigned v false && atomfOk f (atomSize v) (atomOp v == 7) 1 3
  | .atomsAddFloat _ _ f => atomfOk f 4 false 1 3
  | .bar _ f | .bkpt _ f | .cbar _ f | .exit _ f | .nop _ f | .ret _ f | .syield _ f => sysNone f
  | .eret h f => sysNone f && h.pn == 7 && !h.pneg
  | .bfe _ f => tyInt4.contains (modType f.m) && !modSF f.m && modVar f.m == 0 &&
      regRuns f (regsOf (modType f.m)) (regsOf (modType f.m)) 1
  | .bfi _ w f => let k := if w then 2 else 1
      vRun f.d.toNat k && rRun (xA f.x) f.a k && rRun (xB f.x) f.b k && vRun f.c.toNat 1
  | .bra _ _ | .braFar _ _ | .call _ _ | .callFar _ _ => true
  | .brev _ f => tyBits.contains (modType f.m) && !modSF f.m && modVar f.m == 0 &&
      regRuns1 f (regsOf (modType f.m)) (regsOf (modType f.m))
  | .clz _ f | .popc _ f => tyBits.contains (modType f.m) && !modSF f.m && modVar f.m == 0 &&
      regRuns1 f 1 (regsOf (modType f.m))
  | .brx _ f | .callx _ f => f.d == 0 && f.ctx == 0 && f.imm == 0 && rRun f.xa f.a 2
  | .coll _ f | .cpy _ f | .tcpy _ f =>
      xA f.x && !xB f.x && f.d == 0 && f.b == 0 && f.sub == 0 && f.a.toNat % 8 == 0 && f.a.toNat + 8 ≤ 64
  | .cvt _ f => cvtOk f
  | .fact _ v f => v.toNat ≤ 4 && unaryFloatOk f
  | .sfn _ v f => v.toNat ≤ 6 && unaryFloatOk f
  | .fadd _ _ f | .fmul _ _ f => floatRegOk f
  | .fmex _ f => floatRegOk f && modVar f.m ≤ 1
  | .fcmp _ f => let t := modType f.m
      [10, 11, 12, 13].contains t && f.d.toNat ≤ 7 && rRun (xA f.x) f.a (regsOf t) && rRun (xB f.x) f.b (regsOf t)
  | .fcmpFtz _ f => let t := modType f.m
      [10, 11, 12].contains t && f.d.toNat ≤ 7 && rRun (xA f.x) f.a 1 && rRun (xB f.x) f.b 1
  | .fence _ f => f.d == 0 && f.a == 0 && f.vec == 0 && f.tok == 0 && f.ofs == 0 && f.x == 0 &&
      ordScopeOk [0, 1, 2, 3, 4] 6 f.ord f.scope
  | .ffma _ v f => let t := ffmaType v
      let k := regsOf t
      !(ffmaFtz v && t == 13) && vRun f.d.toNat k && rRun (xA f.x) f.a k && rRun (xB f.x) f.b k && vRun f.c.toNat k
  | .flushr _ f | .invr _ f => f.d == 0 && f.sub == 0 && rRun (xA f.x) f.a 2 && rRun (xB f.x) f.b 1
  | .give _ f => f.d == 0 && f.a == 0 && f.tile == 0 && f.agent.toNat ≤ 0x43
  | .giveFree _ f => f.d == 0 && f.a == 0 && f.tile == 0 && f.agent == 0
  | .grow _ f | .shrink _ f => sysImm f && countOk f
  | .iabs _ f => (modType f.m == 2 || modType f.m == 3) && modVar f.m == 0 &&
      regRuns1 f (regsOf (modType f.m)) (regsOf (modType f.m))
  | .iadd _ f => iaddModOk f.m && regRuns f (regsOf (modType f.m)) (regsOf (modType f.m)) (regsOf (modType f.m))
  | .iaddImm _ f => iaddModOk f.m && vRun f.d.toNat (regsOf (modType f.m)) && rRun f.xa f.a (regsOf (modType f.m))
  | .icmp _ f => icmpModOk f.m && f.d.toNat ≤ 7 && rRun (xA f.x) f.a (regsOf (modType f.m)) &&
      rRun (xB f.x) f.b (regsOf (modType f.m))
  | .icmpImm _ f => icmpModOk f.m && f.d.toNat ≤ 7 && rRun f.xa f.a (regsOf (modType f.m))
  | .imad _ v f => let k := regsOf (imadType v)
      vRun f.d.toNat k && rRun (xA f.x) f.a k && rRun (xB f.x) f.b k && vRun f.c.toNat k
  | .imul _ f => imulModOk f.m && regRuns f (imulDRegs f.m) (regsOf (modType f.m)) (regsOf (modType f.m))
  | .imulImm _ f => imulModOk f.m && vRun f.d.toNat (imulDRegs f.m) && rRun f.xa f.a (regsOf (modType f.m))
  | .ishl _ f | .ishr _ f => shiftModOk f.m && regRuns f (regsOf (modType f.m)) (regsOf (modType f.m)) 1
  | .ishlImm _ f | .ishrImm _ f => shiftModOk f.m && vRun f.d.toNat (regsOf (modType f.m)) &&
      rRun f.xa f.a (regsOf (modType f.m))
  | .ld _ v f => v.toNat ≤ 5 && memOk (ldSize v) f 2 [0, 1] 6
  | .lds _ v f | .ldsCl _ v f => v.toNat ≤ 5 && memOk (ldSize v) f 1 [0, 1] 3
  | .ldt _ f | .ldtTry _ f => gRun f.d.toNat 2 && rRun (xA f.x) f.a 2 && !xB f.x && f.b == 0 && f.sub.toNat ≤ 2
  | .lop _ f => modLow3 f.m == 0 && regRuns f (lopRegs f.m) (lopRegs f.m) (lopRegs f.m)
  | .lopImm _ f => modLow3 f.m == 0 && vRun f.d.toNat (lopRegs f.m) && rRun f.xa f.a (lopRegs f.m)
  | .match_ _ f => f.b == 0 && f.x == 0 && subHi f 1 && vRun f.d.toNat 1 && vRun f.a.toNat (if f.sub == 0 then 1 else 2)
  | .mbinit _ f => f.d == 0 && f.sub == 0 && rRun (xA f.x) f.a 1 && rRun (xB f.x) f.b 1
  | .mbarv _ f => f.d == 0 && subHi f 3 && rRun (xA f.x) f.a 1 && rRun (xB f.x) f.b 1
  | .mbwait _ f => f.d == 0 && f.b == 0 && !xB f.x && f.tok == 0 && subHi f 2 && rRun (xA f.x) f.a 1
  | .mov _ f => let t := modType f.m
      tyBits.contains t && !modSF f.m && modVar f.m == 0 && regRuns1 f (regsOf t) (regsOf t)
  | .movToG _ f => let t := modType f.m
      tyBits.contains t && !modSF f.m && modVar f.m == 0 && gRun f.d.toNat (regsOf t) && rRun (xA f.x) f.a (regsOf t) &&
      f.b == 0 && !xB f.x
  | .movi _ _ => true
  | .moviToG _ f => gRun f.d.toNat 1
  | .movl _ f => vRun f.d.toNat 2
  | .movlToG _ f => gRun f.d.toNat 2
  | .plop _ f => f.d.toNat ≤ 7 && f.a.toNat ≤ 7 && f.b.toNat ≤ 7 && f.m.extractLsb' 0 4 == 0 && f.x == 0
  | .pref _ f => f.d == 0 && f.ord == 0 && f.vec == 0 && f.tok == 0 && !xB f.x && (f.scope == 0 || f.scope == 4) &&
      rRun (xA f.x) f.a 2
  | .qswz _ f => f.m == 0 && !f.xa
  | .rdsr _ f => srNums.contains f.imm.toNat && f.a == 0 && f.ctx == 0 && !f.xa && vRun f.d.toNat (srRegs f.imm.toNat)
  | .rdsrToG _ f => srNums.contains f.imm.toNat && f.a == 0 && f.ctx == 0 && !f.xa && gRun f.d.toNat (srRegs f.imm.toNat)
  | .redeem _ f => f.x == 1 && gRun f.a.toNat 2 && f.b == 0 && f.sub == 0
  | .redeemS _ f => f.x == 1 && gRun f.a.toNat 2 && gRun f.d.toNat 1 && f.b == 0 && f.sub == 0
  | .redux _ f => f.x == 0 && f.b == 0 && gRun f.d.toNat 1 && subHi f 4 && (f.sub.extractLsb' 0 3).toNat ≤ 5 &&
      !(f.sub.getLsbD 3 && (f.sub.extractLsb' 0 3).toNat ≥ 3)
  | .ringpop _ f | .ringres _ f => f.sub == 0 && gRun f.d.toNat 2 && rRun (xA f.x) f.a 2 && f.b == 0 && !xB f.x
  | .ringpub _ f => f.sub == 0 && f.d == 0 && rRun (xA f.x) f.a 2 && rRun (xB f.x) f.b 2
  | .seal _ f => f.d == 0 && subHi f 4 && rRun (xA f.x) f.a 2 && rRun (xB f.x) f.b 1
  | .unseal _ f => f.d == 0 && f.a == 0 && f.b == 0 && f.x == 0 && subHi f 4
  | .sel _ f => let t := modType f.m
      [2, 3, 6, 7, 8, 9, 12, 13, 17, 18].contains t && regRuns f (regsOf t) (regsOf t) (regsOf t)
  | .shfl _ f => !xA f.x && rRun (xB f.x) f.b 1 && subHi f 2
  | .sqrun _ f => gRun f.d.toNat 1 && f.a == 0 && !f.xa
  | .sqstop _ f => f.d == 0 && f.a == 0 && f.imm == 0 && !f.xa
  | .sqwait _ f => gRun f.d.toNat 2 && f.a == 0 && f.imm == 0 && !f.xa
  | .st _ v f => memOk (stSize v) f 2 [0, 2] 6
  | .stNt _ v f => memOk (stSize v) f 2 [0] 0
  | .sts _ v f | .stsCl _ v f => memOk (stSize v) f 1 [0, 2] 3
  | .take _ f => f.d == 0 && f.agent == 0 && tradeTile f
  | .takeNew _ f => gRun f.d.toNat 1 && f.a == 0 && f.tile == 0 && f.agent == 0
  | .tstat _ f => gRun f.d.toNat 1 && !f.win && f.agent == 0 && tradeTile f
  | .tkdrop _ f => f.x == 1 && gRun f.a.toNat 2 && f.d == 0 && f.b == 0 && f.sub == 0 && f.tok == 0
  | .trap _ f => sysImm f
  | .vote _ f => f.b == 0 && f.x == 0 && f.a.toNat ≤ 7 && f.sub.toNat ≤ 2 &&
      (if f.sub == 2 then gRun f.d.toNat 1 else f.d.toNat ≤ 7)
  | .waitk _ f => sysImm f
  | .wrsr _ f => f.d == 0 && f.ctx == 0 && [0x20, 0x21, 0x22].contains f.imm.toNat && rRun f.xa f.a (srRegs f.imm.toNat)
  | _ => false

/-- Formats of MMA (13 R310, 05 R114): codes 0-5, equal unless both are FP8. -/
def mmaFmtOk (f : Mmaf) : Bool :=
  f.fa.toNat ≤ 5 && f.fb.toNat ≤ 5 && (f.fa == f.fb || (f.fa.toNat ≤ 1 && f.fb.toNat ≤ 1))
/-- A 10-bit tile field with its X bit (13 R310): a number, or an a register with bits [9:6] zero. -/
def xTile (x : Bool) (t : BitVec 10) : Bool := if x then t.toNat < 64 else accTile t.toNat
/-- A tile field whose range is checked only when it is read (17 R405). -/
def xTileLoose (x : Bool) (t : BitVec 10) : Bool := !x || t.toNat < 64

/-- Slots in which an operation may stand (05 R95, 13 R314). -/
def Instr.slots : Instr → List Slot
  | .mma _ _ | .mmaSp _ _ | .mmal _ _ | .mmalSp _ _ => [.m]
  | .tfmas _ _ | .tmax _ _ | .tcvt _ _ | .tzero _ _ => [.v]
  | .tld _ _ | .tst _ _ | .tgld _ _ | .tgst _ _ | .cpy _ _ | .tcpy _ _ | .redeem _ _ | .redeemS _ _ => [.l]
  | .txp _ _ => [.x]
  | .sbr _ _ | .lnset _ _ | .lngo _ _ | .xlt _ _ | .hrel _ _ | .iadd _ _ | .iaddImm _ _ | .ishl _ _ | .ishlImm _ _
  | .lop _ _ | .lopImm _ _ | .give _ _ | .giveFree _ _ | .take _ _ | .takeNew _ _ | .tstat _ _ | .tkdrop _ _
  | .waitk _ _ | .fence _ _ | .sqstop _ _ | .syield _ _ => [.c]
  | _ => []

/-- Word checks of an operation in a slot (05 R94, 13 R312): predicate p7, X zero, a registers below 64. -/
def Instr.wfSlot : Instr → Bool
  | .mma _ f => mmaFmtOk f && xTileLoose f.xa f.ta && xTile f.xc f.tc
  | .mmaSp _ f => mmaFmtOk f && xTileLoose f.xa f.ta && (f.xa || f.ta.toNat % 2 == 0) && xTile f.xc f.tc
  | .mmal _ f => !f.fb.getLsbD 0 && xTileLoose f.xa f.ta && xTile f.xc f.tc
  | .mmalSp _ f => !f.fb.getLsbD 0 && xTileLoose f.xa f.ta && (f.xa || f.ta.toNat % 2 == 0) && xTile f.xc f.tc
  | .tfmas _ f | .tmax _ f => f.sub == 0 && xTile f.xa f.ta && xTile f.xd f.td
  | .tcvt _ f => f.as == 0 && (f.sub.extractLsb' 0 3).toNat ≤ 5 && xTile f.xa f.ta && xTile f.xd f.td &&
      (32 * (f.sub.extractLsb' 3 2).toNat + 32) *
        (match (f.sub.extractLsb' 0 3).toNat with | 2 | 3 => 2 | 4 => 4 | _ => 1) ≤ 128
  | .tzero _ f => f.as == 0 && f.ta == 0 && !f.xa && f.sub == 0 && xTile f.xd f.td
  | .tld _ f | .tst _ f => f.h == 0 && f.tok == 0 && f.rl.toNat ≤ 5 && f.row0.toNat + 2 ^ f.rl.toNat ≤ 32 && xTile f.xt f.tt
  | .tgld _ f | .tgst _ f => f.rl.toNat ≤ 5 && f.row0.toNat + 2 ^ f.rl.toNat ≤ 32 && xTile f.xt f.tt
  | .txp _ f => f.as == 0 && f.sub == 0 && xTile f.xa f.ta && xTile f.xd f.td
  | .cpy _ f | .tcpy _ f => f.x == 0 && f.d == 0 && f.b == 0 && f.sub == 0 && f.a.toNat % 4 == 0 && f.a.toNat + 4 ≤ 64
  | .redeem _ f => f.x == 0 && f.b == 0 && gRun f.d.toNat 1 && gRun f.a.toNat 1
  | .redeemS _ f => f.x == 0 && f.b == 0 && f.sub == 0 && gRun f.d.toNat 1 && gRun f.a.toNat 1
  | .sbr _ f => f.h == 0 && f.lvl == 0 && f.cond.toNat ≤ 4
  | .lnset _ f => f.h == 0 && f.cond == 0 && f.entry == 0 && f.ar.toNat % 4 == 0 && f.lvl.toNat ≤ 5
  | .lngo _ f => f.ar == 0 && f.h == 0 && f.lvl == 0 && f.cond == 0 && f.entry == 0
  | .xlt _ f => f.lvl == 0 && f.cond == 0 && f.entry == 0
  | .hrel _ f => f.ar == 0 && f.lvl == 0 && f.cond == 0 && f.entry == 0
  | .iadd _ f => iaddModOk f.m && wideType (modType f.m) && f.x == 0 && gRun f.d.toNat 1 && gRun f.a.toNat 1 && gRun f.b.toNat 1
  | .iaddImm _ f => iaddModOk f.m && wideType (modType f.m) && !f.xa && gRun f.d.toNat 1 && gRun f.a.toNat 1
  | .ishl _ f => shiftModOk f.m && wideType (modType f.m) && f.x == 0 && gRun f.d.toNat 1 && gRun f.a.toNat 1 && gRun f.b.toNat 1
  | .ishlImm _ f => shiftModOk f.m && wideType (modType f.m) && !f.xa && gRun f.d.toNat 1 && gRun f.a.toNat 1
  | .lop _ f => modLow3 f.m == 0 && lopWide f.m && f.x == 0 && gRun f.d.toNat 1 && gRun f.a.toNat 1 && gRun f.b.toNat 1
  | .lopImm _ f => modLow3 f.m == 0 && lopWide f.m && !f.xa && gRun f.d.toNat 1 && gRun f.a.toNat 1
  | .give _ f => f.d == 0 && !f.win && f.agent.toNat ≤ 0x43 && tradeTile f
  | .giveFree _ f => f.d == 0 && !f.win && f.agent == 0 && tradeTile f
  | .take _ f => f.d == 0 && !f.win && f.agent == 0 && tradeTile f
  | .takeNew _ f => gRun f.d.toNat 1 && f.a == 0 && f.tile == 0 && !f.win && f.agent == 0
  | .tstat _ f => gRun f.d.toNat 1 && !f.win && f.agent == 0 && tradeTile f
  | .tkdrop _ f => f.x == 0 && gRun f.a.toNat 1 && f.d == 0 && f.b == 0 && f.sub == 0 && f.tok == 0
  | .waitk _ f => sysImm f
  | .fence _ f => f.d == 0 && f.a == 0 && f.vec == 0 && f.tok == 0 && f.ofs == 0 && f.x == 0 && f.ord.toNat ≤ 4 && f.scope == 0
  | .sqstop _ f | .syield _ f => sysNone f
  | _ => false

/-- Predicate and control of an instruction word; an event has none. -/
def Instr.hdr? : Instr → Option Hdr
  | .atom h _ _ | .atomAddFloat h _ _ | .atoms h _ _ | .atomsAddFloat h _ _ | .bar h _ | .bfe h _ | .bfi h _ _
  | .bkpt h _ | .bra h _ | .braFar h _ | .brev h _ | .brx h _ | .call h _ | .callFar h _ | .callx h _ | .cbar h _
  | .clz h _ | .coll h _ | .cpy h _ | .cvt h _ | .eret h _ | .exit h _ | .fact h _ _ | .fadd h _ _ | .fcmp h _
  | .fcmpFtz h _ | .fence h _ | .ffma h _ _ | .flushr h _ | .fmex h _ | .fmul h _ _ | .give h _ | .giveFree h _
  | .grow h _ | .hrel h _ | .iabs h _ | .iadd h _ | .iaddImm h _ | .icmp h _ | .icmpImm h _ | .imad h _ _ | .imul h _
  | .imulImm h _ | .invr h _ | .ishl h _ | .ishlImm h _ | .ishr h _ | .ishrImm h _ | .ld h _ _ | .lds h _ _
  | .ldsCl h _ _ | .ldt h _ | .ldtTry h _ | .lngo h _ | .lnset h _ | .lop h _ | .lopImm h _ | .match_ h _ | .mbarv h _
  | .mbinit h _ | .mbwait h _ | .mma h _ | .mmaSp h _ | .mmal h _ | .mmalSp h _ | .mov h _ | .movToG h _ | .movi h _
  | .moviToG h _ | .movl h _ | .movlToG h _ | .nop h _ | .plop h _ | .popc h _ | .pref h _ | .qswz h _ | .rdsr h _
  | .rdsrToG h _ | .redeem h _ | .redeemS h _ | .redux h _ | .ret h _ | .ringpop h _ | .ringpub h _ | .ringres h _
  | .sbr h _ | .seal h _ | .unseal h _ | .sel h _ | .sfn h _ _ | .shfl h _ | .shrink h _ | .sqrun h _ | .sqstop h _
  | .sqwait h _ | .st h _ _ | .stNt h _ _ | .sts h _ _ | .stsCl h _ _ | .syield h _ | .take h _ | .takeNew h _
  | .tstat h _ | .tcpy h _ | .tcvt h _ | .tfmas h _ | .tmax h _ | .tzero h _ | .tld h _ | .tst h _ | .tgld h _
  | .tgst h _ | .tkdrop h _ | .trap h _ | .txp h _ | .vote h _ | .waitk h _ | .wrsr h _ | .xlt h _ => some h
  | _ => none

/-- Two-word instructions (13 R300). -/
def Instr.long : Instr → Bool
  | .movl _ _ | .movlToG _ _ | .braFar _ _ | .callFar _ _ => true
  | _ => false

/-- Well formed: a word of an assigned code whose fields pass the checks of a warp or of a slot of its own; an event is well
formed as it stands. -/
def Instr.wf (i : Instr) : Bool :=
  match i.hdr? with
  | none => true
  | some h => i.assigned && (i.wfWarp || (i.wfSlot && h.pn == 7 && !h.pneg))

end Sys2Proof
end

