-- ==== Sys2Proof/Decode.lean ====
section
/-! DEFINITION. Decoding and encoding of instruction words and bundles (13 R296 to R315). -/

namespace Sys2Proof

/-- Why a word is not an instruction (13 R299): each is ILLEGAL_OPCODE. -/
inductive DecodeErr where
  | unassigned     -- a code that the opcode map does not list (13 R315)
  | reservedBit    -- a bit that the format marks zero is set
  | literalBit     -- bits [63:34] of a FAR literal (13 R308)
  deriving DecidableEq, Repr

abbrev Decoded := Except DecodeErr Instr

def opcOf (w : W64) : Nat := (w.extractLsb' 54 10).toNat
def hdrOf (w : W64) : Hdr := ⟨w.getLsbD 53, w.extractLsb' 50 3, w.extractLsb' 0 16⟩

def regOf (w : W64) : Reg := ⟨w.extractLsb' 42 8, w.extractLsb' 34 8, w.extractLsb' 26 8, w.extractLsb' 18 8, w.extractLsb' 16 2⟩
def fourOf (w : W64) : Four := ⟨w.extractLsb' 42 8, w.extractLsb' 34 8, w.extractLsb' 26 8, w.extractLsb' 18 8, w.extractLsb' 16 2⟩
def immOf (w : W64) : Imm := ⟨w.extractLsb' 42 8, w.extractLsb' 34 8, w.extractLsb' 26 8, w.extractLsb' 18 8, w.getLsbD 16⟩
def cvtfOf (w : W64) : Cvtf :=
  ⟨w.extractLsb' 42 8, w.extractLsb' 34 8, w.extractLsb' 29 5, w.getLsbD 28, w.extractLsb' 21 5, w.getLsbD 20,
   w.extractLsb' 18 2, w.getLsbD 16⟩
def wideOf (w : W64) : Wide := ⟨w.extractLsb' 42 8, w.extractLsb' 26 16, w.extractLsb' 18 2⟩
def memOf (w : W64) : Mem :=
  ⟨w.extractLsb' 42 8, w.extractLsb' 34 8, w.extractLsb' 31 3, w.extractLsb' 28 3, w.extractLsb' 26 2, w.extractLsb' 23 3,
   w.extractLsb' 18 5, w.extractLsb' 16 2⟩
def atomfOf (w : W64) : Atomf :=
  ⟨w.extractLsb' 42 8, w.extractLsb' 34 8, w.extractLsb' 26 8, w.extractLsb' 23 3, w.extractLsb' 20 3, w.extractLsb' 17 3,
   w.getLsbD 16⟩
def asyOf (w : W64) : Asy :=
  ⟨w.extractLsb' 42 8, w.extractLsb' 34 8, w.extractLsb' 26 8, w.extractLsb' 23 3, w.extractLsb' 18 5, w.extractLsb' 16 2⟩
def sysOf (w : W64) : SysF := ⟨w.extractLsb' 42 8, w.extractLsb' 34 8, w.extractLsb' 26 2, w.extractLsb' 18 8, w.getLsbD 16⟩
def brOf (w : W64) : Br := ⟨w.extractLsb' 34 16, w.extractLsb' 16 18⟩
def tradeOf (w : W64) : Trade :=
  ⟨w.extractLsb' 42 8, w.extractLsb' 34 8, w.extractLsb' 24 10, w.getLsbD 23, w.extractLsb' 16 7⟩
def mmafOf (w : W64) : Mmaf :=
  ⟨w.extractLsb' 44 6, w.extractLsb' 34 10, w.extractLsb' 31 3, w.extractLsb' 28 3, w.extractLsb' 18 10, w.getLsbD 17, w.getLsbD 16⟩
def tvecOf (w : W64) : Tvec :=
  ⟨w.extractLsb' 44 6, w.extractLsb' 34 10, w.extractLsb' 28 6, w.extractLsb' 18 10, w.getLsbD 17, w.getLsbD 16⟩
def tmemOf (w : W64) : Tmem :=
  ⟨w.extractLsb' 44 6, w.extractLsb' 40 4, w.extractLsb' 37 3, w.extractLsb' 32 5, w.extractLsb' 28 4, w.extractLsb' 18 10,
   w.getLsbD 16⟩
def sctlOf (w : W64) : Sctl :=
  ⟨w.extractLsb' 44 6, w.extractLsb' 40 4, w.extractLsb' 37 3, w.extractLsb' 34 3, w.extractLsb' 26 8⟩

/-- A word all of whose reserved bits are zero decodes, another is refused by name. -/
def ifZero (z : Bool) (i : Instr) : Decoded := if z then .ok i else .error .reservedBit

/-- Group 000, integer (13 R313, R314). -/
def decodeInt (opc : Nat) (w : W64) : Decoded :=
  let h := hdrOf w
  let x1 := !w.getLsbD 17
  match opc with
  | 0x001 => .ok (.iadd h (regOf w))
  | 0x002 => ifZero x1 (.iaddImm h (immOf w))
  | 0x003 => .ok (.imul h (regOf w))
  | 0x004 => ifZero x1 (.imulImm h (immOf w))
  | 0x005 => .ok (.iabs h (regOf w))
  | 0x006 => .ok (.ishl h (regOf w))
  | 0x007 => ifZero x1 (.ishlImm h (immOf w))
  | 0x008 => .ok (.ishr h (regOf w))
  | 0x009 => ifZero x1 (.ishrImm h (immOf w))
  | 0x00A => .ok (.icmp h (regOf w))
  | 0x00B => ifZero x1 (.icmpImm h (immOf w))
  | 0x00C => .ok (.lop h (regOf w))
  | 0x00D => ifZero x1 (.lopImm h (immOf w))
  | 0x00E => .ok (.bfe h (regOf w))
  | 0x010 => .ok (.brev h (regOf w))
  | 0x011 => .ok (.clz h (regOf w))
  | 0x012 => .ok (.popc h (regOf w))
  | 0x014 => .ok (.bfi h false (fourOf w))
  | 0x015 => .ok (.bfi h true (fourOf w))
  | _ => if opc / 8 = 3 then .ok (.imad h (w.extractLsb' 54 3) (fourOf w)) else .error .unassigned

/-- Group 001, float. -/
def decodeFloat (opc : Nat) (w : W64) : Decoded :=
  let h := hdrOf w
  if opc / 32 = 5 then .ok (.ffma h (w.extractLsb' 54 5) (fourOf w))
  else if opc / 4 = 0x20 then .ok (.fadd h (w.extractLsb' 54 2) (regOf w))
  else match opc with
  | 0x084 => .ok (.fmul h false (regOf w))
  | 0x085 => .ok (.fmul h true (regOf w))
  | 0x086 => .ok (.fmex h (regOf w))
  | 0x087 => .ok (.fcmp h (regOf w))
  | 0x088 => .ok (.fcmpFtz h (regOf w))
  | _ => .error .unassigned

/-- Group 010, conversion and special functions. -/
def decodeConv (opc : Nat) (w : W64) : Decoded :=
  let h := hdrOf w
  if opc = 0x100 then ifZero (w.extractLsb' 26 2 == 0 && !w.getLsbD 17) (.cvt h (cvtfOf w))
  else if opc / 8 = 0x22 ∧ opc % 8 ≤ 6 then .ok (.sfn h (w.extractLsb' 54 3) (regOf w))
  else if opc / 8 = 0x23 ∧ opc % 8 ≤ 4 then .ok (.fact h (w.extractLsb' 54 3) (regOf w))
  else .error .unassigned

/-- SYS words: bits [33:28] and X[1] zero (13 R301). -/
def sysZero (w : W64) : Bool := w.extractLsb' 28 6 == 0 && !w.getLsbD 17
/-- WIDE words: bits [25:20] and X zero. -/
def wideZero (w : W64) : Bool := w.extractLsb' 20 6 == 0 && w.extractLsb' 16 2 == 0
/-- LIT words: bits [41:16] zero. -/
def litZero (w : W64) : Bool := w.extractLsb' 16 26 == 0

/-- Group 011, lane, predicate and move. -/
def decodeMove (opc : Nat) (w lit : W64) : Decoded :=
  let h := hdrOf w
  match opc with
  | 0x180 => .ok (.mov h (regOf w))
  | 0x181 => .ok (.movToG h (regOf w))
  | 0x182 => ifZero (wideZero w) (.movi h (wideOf w))
  | 0x183 => ifZero (wideZero w) (.moviToG h (wideOf w))
  | 0x184 => ifZero (litZero w) (.movl h ⟨w.extractLsb' 42 8, lit⟩)
  | 0x185 => ifZero (litZero w) (.movlToG h ⟨w.extractLsb' 42 8, lit⟩)
  | 0x186 => .ok (.sel h (regOf w))
  | 0x188 => .ok (.shfl h (asyOf w))
  | 0x18A => ifZero (!w.getLsbD 17) (.qswz h (immOf w))
  | 0x18B => .ok (.vote h (asyOf w))
  | 0x18C => .ok (.match_ h (asyOf w))
  | 0x18D => .ok (.redux h (asyOf w))
  | 0x190 => .ok (.plop h (regOf w))
  | 0x191 => ifZero (sysZero w) (.rdsr h (sysOf w))
  | 0x192 => ifZero (sysZero w) (.rdsrToG h (sysOf w))
  | 0x193 => ifZero (sysZero w) (.wrsr h (sysOf w))
  | _ => .error .unassigned

/-- Group 100, memory. -/
def decodeMem (opc : Nat) (w : W64) : Decoded :=
  let h := hdrOf w
  let k := opc % 8
  match opc / 8 with
  | 0x40 => if k ≤ 5 then .ok (.ld h (w.extractLsb' 54 3) (memOf w)) else .error .unassigned
  | 0x41 => if k ≤ 3 then .ok (.st h (w.extractLsb' 54 2) (memOf w)) else .ok (.stNt h (w.extractLsb' 54 2) (memOf w))
  | 0x42 => if k ≤ 5 then .ok (.lds h (w.extractLsb' 54 3) (memOf w)) else .error .unassigned
  | 0x43 => if k ≤ 5 then .ok (.ldsCl h (w.extractLsb' 54 3) (memOf w)) else .error .unassigned
  | 0x44 => if k ≤ 3 then .ok (.sts h (w.extractLsb' 54 2) (memOf w)) else .ok (.stsCl h (w.extractLsb' 54 2) (memOf w))
  | 0x45 => match k with
    | 0 => .ok (.pref h (memOf w))
    | 1 => .ok (.fence h (memOf w))
    | 2 => .ok (.flushr h (asyOf w))
    | 3 => .ok (.invr h (asyOf w))
    | 4 => .ok (.seal h (asyOf w))
    | 5 => .ok (.unseal h (asyOf w))
    | 6 => .ok (.ldt h (asyOf w))
    | _ => .ok (.ldtTry h (asyOf w))
  | 0x46 | 0x47 | 0x48 | 0x49 =>
    let v : BitVec 5 := BitVec.ofNat 5 (opc - 0x230)
    if atomAssigned v true && opc ≤ 0x24E then .ok (.atom h v (atomfOf w)) else .error .unassigned
  | 0x4A => match k with
    | 0 => .ok (.atomAddFloat h false (atomfOf w))
    | 1 => .ok (.atomAddFloat h true (atomfOf w))
    | 2 => .ok (.atomsAddFloat h false (atomfOf w))
    | 3 => .ok (.atomsAddFloat h true (atomfOf w))
    | _ => .error .unassigned
  | 0x4C | 0x4D | 0x4E | 0x4F =>
    let v : BitVec 5 := BitVec.ofNat 5 (opc - 0x260)
    if atomAssigned v false then .ok (.atoms h v (atomfOf w)) else .error .unassigned
  | _ => .error .unassigned

/-- Group 101, async, synchronisation and tiles. -/
def decodeAsync (opc : Nat) (w : W64) : Decoded :=
  let h := hdrOf w
  match opc with
  | 0x280 => .ok (.cpy h (asyOf w))
  | 0x281 => .ok (.tcpy h (asyOf w))
  | 0x282 => .ok (.redeem h (asyOf w))
  | 0x283 => .ok (.redeemS h (asyOf w))
  | 0x284 => .ok (.tkdrop h (asyOf w))
  | 0x285 => ifZero (sysZero w) (.waitk h (sysOf w))
  | 0x286 => ifZero (sysZero w) (.bar h (sysOf w))
  | 0x287 => ifZero (sysZero w) (.cbar h (sysOf w))
  | 0x288 => .ok (.mbinit h (asyOf w))
  | 0x289 => .ok (.mbarv h (asyOf w))
  | 0x28A => .ok (.mbwait h (asyOf w))
  | 0x28B => .ok (.give h (tradeOf w))
  | 0x28C => .ok (.giveFree h (tradeOf w))
  | 0x28D => .ok (.take h (tradeOf w))
  | 0x28E => .ok (.takeNew h (tradeOf w))
  | 0x28F => .ok (.tstat h (tradeOf w))
  | 0x290 => ifZero (sysZero w) (.grow h (sysOf w))
  | 0x291 => ifZero (sysZero w) (.shrink h (sysOf w))
  | 0x292 => .ok (.coll h (asyOf w))
  | 0x293 => .ok (.ringres h (asyOf w))
  | 0x294 => .ok (.ringpub h (asyOf w))
  | 0x295 => .ok (.ringpop h (asyOf w))
  | _ => .error .unassigned

/-- FAR words: the even word's bits [33:16] and the literal's bits [63:34] are zero (13 R308). -/
def farOf (w lit : W64) (mk : Far → Instr) : Decoded :=
  if w.extractLsb' 16 18 != 0 then .error .reservedBit
  else if lit.extractLsb' 34 30 != 0 then .error .literalBit
  else .ok (mk ⟨w.extractLsb' 34 16, lit.extractLsb' 0 34⟩)

/-- Group 110, control and system. -/
def decodeControl (opc : Nat) (w lit : W64) : Decoded :=
  let h := hdrOf w
  let sys := fun (mk : Hdr → SysF → Instr) => ifZero (sysZero w) (mk h (sysOf w))
  match opc with
  | 0x300 => sys .nop
  | 0x301 => .ok (.bra h (brOf w))
  | 0x302 => farOf w lit (.braFar h)
  | 0x303 => sys .brx
  | 0x304 => .ok (.call h (brOf w))
  | 0x305 => farOf w lit (.callFar h)
  | 0x306 => sys .callx
  | 0x307 => sys .ret
  | 0x308 => sys .exit
  | 0x309 => sys .eret
  | 0x30A => sys .trap
  | 0x30B => sys .bkpt
  | 0x30C => sys .sqrun
  | 0x30D => sys .sqstop
  | 0x30E => sys .sqwait
  | 0x30F => sys .syield
  | _ => .error .unassigned

/-- Group 111, sequencer only. -/
def decodeSeq (opc : Nat) (w : W64) : Decoded :=
  let h := hdrOf w
  let sctl := fun (mk : Hdr → Sctl → Instr) => ifZero (w.extractLsb' 16 10 == 0) (mk h (sctlOf w))
  let tmem := fun (mk : Hdr → Tmem → Instr) => ifZero (!w.getLsbD 17) (mk h (tmemOf w))
  match opc with
  | 0x380 => .ok (.mma h (mmafOf w))
  | 0x381 => .ok (.mmaSp h (mmafOf w))
  | 0x382 => .ok (.mmal h (mmafOf w))
  | 0x383 => .ok (.mmalSp h (mmafOf w))
  | 0x388 => .ok (.tfmas h (tvecOf w))
  | 0x389 => .ok (.tmax h (tvecOf w))
  | 0x38A => .ok (.tcvt h (tvecOf w))
  | 0x38B => .ok (.tzero h (tvecOf w))
  | 0x390 => tmem .tld
  | 0x391 => tmem .tst
  | 0x392 => tmem .tgld
  | 0x393 => tmem .tgst
  | 0x398 => .ok (.txp h (tvecOf w))
  | 0x3A0 => sctl .sbr
  | 0x3A1 => sctl .lnset
  | 0x3A2 => sctl .lngo
  | 0x3A3 => sctl .xlt
  | 0x3A4 => sctl .hrel
  | _ => .error .unassigned

/-- The instruction of a word and the word after it (13 R300: only long-literal codes read the second). -/
def decode (w lit : W64) : Decoded :=
  let opc := opcOf w
  match opc / 128 with
  | 0 => decodeInt opc w
  | 1 => decodeFloat opc w
  | 2 => decodeConv opc w
  | 3 => decodeMove opc w lit
  | 4 => decodeMem opc w
  | 5 => decodeAsync opc w
  | 6 => decodeControl opc w lit
  | _ => decodeSeq opc w

/-- The long-literal codes (13 R300). -/
def longOpc (w : W64) : Bool := [0x184, 0x185, 0x302, 0x305].contains (opcOf w)

/-- A bundle from its six words (05 R92). Every word is kept: its checks are made at issue. -/
def decodeBundle (ws : List W64) : Option Instr :=
  match ws with
  | [hd, m, v, l, x, c] => some (.bundle hd m v l x c)
  | _ => none

/-- The decoder on a number that holds the instruction's words, the first lowest; 384 bits are a bundle. -/
def decodeTableWord (nbits w : Nat) : Option Instr :=
  let word := fun k : Nat => BitVec.ofNat 64 (w >>> (64 * k))
  if nbits > 128 then decodeBundle ((List.range 6).map word)
  else match decode (word 0) (word 1) with
    | .ok i => some i
    | .error _ => none

/-- A word from its opcode, header and the 34 bits between predicate and control. -/
def mkWord (opc : BitVec 10) (h : Hdr) (body : BitVec 34) : W64 :=
  opc ++ BitVec.ofBool h.pneg ++ h.pn ++ body ++ h.ctl

def Reg.bits (f : Reg) : BitVec 34 := f.d ++ f.a ++ f.b ++ f.m ++ f.x
def Four.bits (f : Four) : BitVec 34 := f.d ++ f.a ++ f.b ++ f.c ++ f.x
def Imm.bits (f : Imm) : BitVec 34 := f.d ++ f.a ++ f.m ++ f.i ++ 0#1 ++ BitVec.ofBool f.xa
def Cvtf.bits (f : Cvtf) : BitVec 34 :=
  f.d ++ f.a ++ f.st ++ BitVec.ofBool f.ftz ++ 0#2 ++ f.dt ++ BitVec.ofBool f.sat ++ f.rnd ++ 0#1 ++ BitVec.ofBool f.xa
def Wide.bits (f : Wide) : BitVec 34 := f.d ++ f.imm ++ 0#6 ++ f.sh ++ 0#2
def Lit.bits (f : Lit) : BitVec 34 := f.d ++ 0#26
def Mem.bits (f : Mem) : BitVec 34 := f.d ++ f.a ++ f.ord ++ f.scope ++ f.vec ++ f.tok ++ f.ofs ++ f.x
def Atomf.bits (f : Atomf) : BitVec 34 := f.d ++ f.a ++ f.b ++ f.ord ++ f.scope ++ f.tok ++ BitVec.ofBool f.nr
def Asy.bits (f : Asy) : BitVec 34 := f.d ++ f.a ++ f.b ++ f.tok ++ f.sub ++ f.x
def SysF.bits (f : SysF) : BitVec 34 := f.d ++ f.a ++ 0#6 ++ f.ctx ++ f.imm ++ 0#1 ++ BitVec.ofBool f.xa
def Br.bits (f : Br) : BitVec 34 := f.prio ++ f.off
def Far.bits (f : Far) : BitVec 34 := f.prio ++ 0#18
def Far.lit (f : Far) : W64 := 0#30 ++ f.off
def Trade.bits (f : Trade) : BitVec 34 := f.d ++ f.a ++ f.tile ++ BitVec.ofBool f.win ++ f.agent
def Mmaf.bits (f : Mmaf) : BitVec 34 :=
  f.ba ++ f.ta ++ f.fa ++ f.fb ++ f.tc ++ BitVec.ofBool f.xc ++ BitVec.ofBool f.xa
def Tvec.bits (f : Tvec) : BitVec 34 :=
  f.as ++ f.ta ++ f.sub ++ f.td ++ BitVec.ofBool f.xd ++ BitVec.ofBool f.xa
def Tmem.bits (f : Tmem) : BitVec 34 :=
  f.ao ++ f.h ++ f.tok ++ f.row0 ++ f.rl ++ f.tt ++ 0#1 ++ BitVec.ofBool f.xt
def Sctl.bits (f : Sctl) : BitVec 34 := f.ar ++ f.h ++ f.lvl ++ f.cond ++ f.entry ++ 0#10

/-- The words of an instruction, first word first; an event has none (13 R296 to R314, 05 R92). -/
def encode : Instr → List W64
  | .atom h v f => [mkWord (0x230#10 + v.setWidth 10) h f.bits]
  | .atomAddFloat h v f => [mkWord (if v then 0x251#10 else 0x250#10) h f.bits]
  | .atoms h v f => [mkWord (0x260#10 + v.setWidth 10) h f.bits]
  | .atomsAddFloat h v f => [mkWord (if v then 0x253#10 else 0x252#10) h f.bits]
  | .bar h f => [mkWord 0x286#10 h f.bits]
  | .bfe h f => [mkWord 0x00E#10 h f.bits]
  | .bfi h v f => [mkWord (if v then 0x015#10 else 0x014#10) h f.bits]
  | .bkpt h f => [mkWord 0x30B#10 h f.bits]
  | .bra h f => [mkWord 0x301#10 h f.bits]
  | .braFar h f => [mkWord 0x302#10 h f.bits, f.lit]
  | .brev h f => [mkWord 0x010#10 h f.bits]
  | .brx h f => [mkWord 0x303#10 h f.bits]
  | .call h f => [mkWord 0x304#10 h f.bits]
  | .callFar h f => [mkWord 0x305#10 h f.bits, f.lit]
  | .callx h f => [mkWord 0x306#10 h f.bits]
  | .cbar h f => [mkWord 0x287#10 h f.bits]
  | .clz h f => [mkWord 0x011#10 h f.bits]
  | .coll h f => [mkWord 0x292#10 h f.bits]
  | .cpy h f => [mkWord 0x280#10 h f.bits]
  | .cvt h f => [mkWord 0x100#10 h f.bits]
  | .eret h f => [mkWord 0x309#10 h f.bits]
  | .exit h f => [mkWord 0x308#10 h f.bits]
  | .fact h v f => [mkWord (0x23#7 ++ v) h f.bits]
  | .fadd h v f => [mkWord (0x20#8 ++ v) h f.bits]
  | .fcmp h f => [mkWord 0x087#10 h f.bits]
  | .fcmpFtz h f => [mkWord 0x088#10 h f.bits]
  | .fence h f => [mkWord 0x229#10 h f.bits]
  | .ffma h v f => [mkWord (0x5#5 ++ v) h f.bits]
  | .flushr h f => [mkWord 0x22A#10 h f.bits]
  | .fmex h f => [mkWord 0x086#10 h f.bits]
  | .fmul h v f => [mkWord (if v then 0x085#10 else 0x084#10) h f.bits]
  | .give h f => [mkWord 0x28B#10 h f.bits]
  | .giveFree h f => [mkWord 0x28C#10 h f.bits]
  | .grow h f => [mkWord 0x290#10 h f.bits]
  | .hrel h f => [mkWord 0x3A4#10 h f.bits]
  | .iabs h f => [mkWord 0x005#10 h f.bits]
  | .iadd h f => [mkWord 0x001#10 h f.bits]
  | .iaddImm h f => [mkWord 0x002#10 h f.bits]
  | .icmp h f => [mkWord 0x00A#10 h f.bits]
  | .icmpImm h f => [mkWord 0x00B#10 h f.bits]
  | .imad h v f => [mkWord (0x3#7 ++ v) h f.bits]
  | .imul h f => [mkWord 0x003#10 h f.bits]
  | .imulImm h f => [mkWord 0x004#10 h f.bits]
  | .invr h f => [mkWord 0x22B#10 h f.bits]
  | .ishl h f => [mkWord 0x006#10 h f.bits]
  | .ishlImm h f => [mkWord 0x007#10 h f.bits]
  | .ishr h f => [mkWord 0x008#10 h f.bits]
  | .ishrImm h f => [mkWord 0x009#10 h f.bits]
  | .ld h v f => [mkWord (0x40#7 ++ v) h f.bits]
  | .lds h v f => [mkWord (0x42#7 ++ v) h f.bits]
  | .ldsCl h v f => [mkWord (0x43#7 ++ v) h f.bits]
  | .ldt h f => [mkWord 0x22E#10 h f.bits]
  | .ldtTry h f => [mkWord 0x22F#10 h f.bits]
  | .lngo h f => [mkWord 0x3A2#10 h f.bits]
  | .lnset h f => [mkWord 0x3A1#10 h f.bits]
  | .lop h f => [mkWord 0x00C#10 h f.bits]
  | .lopImm h f => [mkWord 0x00D#10 h f.bits]
  | .match_ h f => [mkWord 0x18C#10 h f.bits]
  | .mbarv h f => [mkWord 0x289#10 h f.bits]
  | .mbinit h f => [mkWord 0x288#10 h f.bits]
  | .mbwait h f => [mkWord 0x28A#10 h f.bits]
  | .mma h f => [mkWord 0x380#10 h f.bits]
  | .mmaSp h f => [mkWord 0x381#10 h f.bits]
  | .mmal h f => [mkWord 0x382#10 h f.bits]
  | .mmalSp h f => [mkWord 0x383#10 h f.bits]
  | .mov h f => [mkWord 0x180#10 h f.bits]
  | .movToG h f => [mkWord 0x181#10 h f.bits]
  | .movi h f => [mkWord 0x182#10 h f.bits]
  | .moviToG h f => [mkWord 0x183#10 h f.bits]
  | .movl h f => [mkWord 0x184#10 h f.bits, f.lit]
  | .movlToG h f => [mkWord 0x185#10 h f.bits, f.lit]
  | .nop h f => [mkWord 0x300#10 h f.bits]
  | .plop h f => [mkWord 0x190#10 h f.bits]
  | .popc h f => [mkWord 0x012#10 h f.bits]
  | .pref h f => [mkWord 0x228#10 h f.bits]
  | .qswz h f => [mkWord 0x18A#10 h f.bits]
  | .rdsr h f => [mkWord 0x191#10 h f.bits]
  | .rdsrToG h f => [mkWord 0x192#10 h f.bits]
  | .redeem h f => [mkWord 0x282#10 h f.bits]
  | .redeemS h f => [mkWord 0x283#10 h f.bits]
  | .redux h f => [mkWord 0x18D#10 h f.bits]
  | .ret h f => [mkWord 0x307#10 h f.bits]
  | .ringpop h f => [mkWord 0x295#10 h f.bits]
  | .ringpub h f => [mkWord 0x294#10 h f.bits]
  | .ringres h f => [mkWord 0x293#10 h f.bits]
  | .sbr h f => [mkWord 0x3A0#10 h f.bits]
  | .seal h f => [mkWord 0x22C#10 h f.bits]
  | .unseal h f => [mkWord 0x22D#10 h f.bits]
  | .sel h f => [mkWord 0x186#10 h f.bits]
  | .sfn h v f => [mkWord (0x22#7 ++ v) h f.bits]
  | .shfl h f => [mkWord 0x188#10 h f.bits]
  | .shrink h f => [mkWord 0x291#10 h f.bits]
  | .sqrun h f => [mkWord 0x30C#10 h f.bits]
  | .sqstop h f => [mkWord 0x30D#10 h f.bits]
  | .sqwait h f => [mkWord 0x30E#10 h f.bits]
  | .st h v f => [mkWord (0x82#8 ++ v) h f.bits]
  | .stNt h v f => [mkWord (0x83#8 ++ v) h f.bits]
  | .sts h v f => [mkWord (0x88#8 ++ v) h f.bits]
  | .stsCl h v f => [mkWord (0x89#8 ++ v) h f.bits]
  | .syield h f => [mkWord 0x30F#10 h f.bits]
  | .take h f => [mkWord 0x28D#10 h f.bits]
  | .takeNew h f => [mkWord 0x28E#10 h f.bits]
  | .tstat h f => [mkWord 0x28F#10 h f.bits]
  | .tcpy h f => [mkWord 0x281#10 h f.bits]
  | .tcvt h f => [mkWord 0x38A#10 h f.bits]
  | .tfmas h f => [mkWord 0x388#10 h f.bits]
  | .tmax h f => [mkWord 0x389#10 h f.bits]
  | .tzero h f => [mkWord 0x38B#10 h f.bits]
  | .tld h f => [mkWord 0x390#10 h f.bits]
  | .tst h f => [mkWord 0x391#10 h f.bits]
  | .tgld h f => [mkWord 0x392#10 h f.bits]
  | .tgst h f => [mkWord 0x393#10 h f.bits]
  | .tkdrop h f => [mkWord 0x284#10 h f.bits]
  | .trap h f => [mkWord 0x30A#10 h f.bits]
  | .txp h f => [mkWord 0x398#10 h f.bits]
  | .vote h f => [mkWord 0x18B#10 h f.bits]
  | .waitk h f => [mkWord 0x285#10 h f.bits]
  | .wrsr h f => [mkWord 0x193#10 h f.bits]
  | .xlt h f => [mkWord 0x3A3#10 h f.bits]
  | .bundle hd m v l x c => [hd, m, v, l, x, c]
  | _ => []

end Sys2Proof
end

