-- ==== Sys2Proof/Machine/Mem.lean ====
section
/-! DEFINITION. Device memory at physical addresses, poison, release tags, home slices and the apertures
(01 R19 to R23, 07 R161, 09 R208, 12 R268). Every change of device memory goes through `memWrite`. -/

namespace Sys2Proof.Machine

/-- End of device memory (01 R19). -/
def memEnd : Nat := 0xC000000000

/-- What claims a physical address (12 R268). -/
inductive Region where
  | mem
  | host (o : Nat)
  | regs (part ofs : Nat)
  | peer (dev ofs : Nat)
  | hole
  deriving DecidableEq, Repr

def regionOf (pa : Nat) : Region :=
  if pa < memEnd then .mem
  else if 0x100000000000 ≤ pa && pa < 0x180000000000 then .host (pa - 0x100000000000)
  else if 0x180000000000 ≤ pa && pa < 0x180000100000 then
    .regs ((pa - 0x180000000000) / 0x10000) ((pa - 0x180000000000) % 0x10000)
  else if 0x200000000000 ≤ pa && pa < 0x400000000000 then
    .peer ((pa - 0x200000000000) / 2 ^ 41) ((pa - 0x200000000000) % 2 ^ 41)
  else .hole

/-- The home slice of a physical address (01 R20). -/
def homeSlice (pa : Nat) : Nat :=
  bitsN pa 14 9 ^^^ bitsN pa 20 15 ^^^ bitsN pa 26 21 ^^^ bitsN pa 32 27 ^^^ bitsN pa 38 33 ^^^ bitsN pa 44 39

/-- The stack that holds an address and the address within it (01 R21). -/
def stackOf (pa : Nat) : Nat := pa / 4096 % 12
def stackAddr (pa : Nat) : Nat := pa / 4096 / 12 * 4096 + pa % 4096

/-- One byte of device memory; an unlisted byte reads zero (12 R295 step 4). -/
def State.rd8 (s : State) (a : Nat) : Byte := mget 0 s.mem a

def State.rdBytes (s : State) (a n : Nat) : List Byte := (span a n).map s.rd8
def State.rdNat (s : State) (a n : Nat) : Nat := leNat (s.rdBytes a n)
def State.rd64 (s : State) (a : Nat) : W64 := BitVec.ofNat 64 (s.rdNat a 8)

/-- Write bytes at physical addresses, keeping the memory canonical. -/
def writeCells (m : List Host.Cell) (cells : List (Nat × Byte)) : List Host.Cell :=
  cells.foldl (fun m c => mset 0 m c.1 c.2) m

/-- 64-byte chunks that a write covers whole: it clears their poison (07 R161). -/
def coveredChunks (cells : List (Nat × Byte)) : List Nat :=
  (cells.map fun c => c.1 / 64).eraseDups.filter fun k => (span (64 * k) 64).all fun a => cells.any fun c => c.1 == a

/-- A write performed at the home slices. A write that is no read-modify-write empties the release tags of its words
(09 R208). -/
def State.memWrite (s : State) (cells : List (Nat × Byte)) (rmw : Bool := false) : State :=
  let cov := coveredChunks cells
  { s with
    mem := writeCells s.mem cells
    poison := s.poison.filter fun p => match p with | .mem k => !cov.contains k | _ => true
    tags := if rmw then s.tags else cells.foldl (fun t c => mdel t (c.1 / 8)) s.tags }

def State.wrBytes (s : State) (a : Nat) (bs : List Byte) : State := s.memWrite (cellsAt a bs)
def State.wr64 (s : State) (a : Nat) (v : W64) : State := s.wrBytes a (leBytes 8 v.toNat)

/-- Poison arrives at places (07 R161). -/
def State.addPoison (s : State) (l : List ErrLoc) : State := { s with poison := s.poison ++ l.filter fun p => !s.poison.contains p }
/-- Poison leaves places. -/
def State.delPoison (s : State) (p : ErrLoc → Bool) : State := { s with poison := s.poison.filter fun l => !p l }

/-- A byte of device memory lies in a poisoned chunk (07 R161). -/
def State.poisoned (s : State) (a : Nat) : Bool := s.poison.contains (.mem (a / 64))

/-- An atomic OR or AND of an 8-byte word at its home slice, as the walkers and pagers do (10 R225, R237). -/
def State.rmw64 (s : State) (a : Nat) (f : W64 → W64) : State :=
  s.memWrite (cellsAt a (leBytes 8 (f (s.rd64 a)).toNat)) true

end Sys2Proof.Machine
end

