-- ==== Sys2Proof/Machine/Xlat.lean ====
section
/-! DEFINITION. The page walk, permissions, the TLBs and the classes of faults (10 R220 to R230; 12 R269). -/

namespace Sys2Proof.Machine

/-- What an access needs at the leaf (10 R225). -/
inductive Need where
  | r | w | x | rw
  deriving DecidableEq, Repr

/-- ACCESS of a fault record (10 R232). -/
def Need.access : Need → Nat
  | .r => 0 | .w => 1 | .x => 2 | .rw => 3

/-- Classes 2 and 3 of R229, with what a record says of them. -/
structure XFault where
  cls : Nat
  code : Nat
  cause : Nat
  level : Nat := 0xFF
  entry : W64 := 0
  deriving DecidableEq, Repr

/-- A walker's own access at a physical address without memory (01 R23): class 3, MEMORY_ERROR; the record names the address. -/
def holeFault (pa : Nat) : XFault := ⟨3, 0x60, 8, 0xFF, BitVec.ofNat 64 pa⟩
/-- The address that a record of a fault names: the accessed one, or the physical one of a walker's own access. -/
def XFault.recVa (f : XFault) (va : W64) : W64 := if f.code == 0x60 && f.cause == 8 then f.entry else va
/-- The entry value that a record of a fault names. -/
def XFault.recInfo (f : XFault) : Nat := if f.code == 0x60 && f.cause == 8 then 0 else f.entry.toNat

/-- Outcome of a walk (10 R229). -/
inductive Walk where
  /-- leaf: first address and length of the page, its physical base, the leaf entry's address and value, its level -/
  | ok (va len pa pte : Nat) (leaf : W64) (level : Nat)
  /-- class 1: leaf address that keys the page, first address and length of the page, the locator, its level -/
  | page (key va len : Nat) (loc : W64) (level : Nat)
  | bad (f : XFault)
  deriving DecidableEq, Repr

/-- The frame range of a partition in bytes: base and end (12 R277). -/
def Part.base (p : Part) : Nat := bitsN p.pframe.toNat 18 0 * 2097152
def Part.limit (p : Part) : Nat := bitsN p.pframe.toNat 50 32 * 2097152
def Part.inFrame (p : Part) (a len : Nat) : Bool := p.base ≤ a && a + len ≤ p.limit

/-- Device memory of the frame range and the apertures that PGRANT opens (12 R269). -/
def grantedFrame (n : Nat) (p : Part) (pa len : Nat) : Bool :=
  match regionOf pa, regionOf (pa + len - 1) with
  | .mem, .mem => p.inFrame pa len
  | .host _, .host _ => p.pgrant.getLsbD 63
  | .regs i _, .regs j _ => i == n && j == n
  | .peer i _, .peer j _ => i == j && bitN p.pgrant.toNat i
  | _, _ => false

/-- Bounce region in use (12 R273). -/
def Part.bounceOn (p : Part) : Bool := p.bounce.getLsbD 63 && 9 ≤ bitsN p.bounce.toNat 7 0

/-- Bytes that a leaf of a level covers (10 R221). -/
def leafBytes (level : Nat) : Nat := 4096 * 512 ^ level

/-- Reserved bits of a valid entry that are set, or a pointer with more than V, LEAF and FRAME (10 R222). -/
def pteReserved (e : W64) : Bool :=
  bitsN e.toNat 63 60 != 0 || bitsN e.toNat 53 46 != 0 || bitsN e.toNat 11 10 != 0 || bitsN e.toNat 2 1 != 0
def ptrExtra (e : W64) : Bool := bitsN e.toNat 63 46 != 0 || bitsN e.toNat 11 1 != 0
/-- Reserved bits of a locator that are set (10 R223). -/
def locReserved (e : W64) : Bool :=
  bitsN e.toNat 63 60 != 0 || bitsN e.toNat 9 8 != 0 || bitsN e.toNat 2 1 != 0

def pteFrame (e : W64) : Nat := bitsN e.toNat 45 12 * 4096
def locDrive (e : W64) : Nat := bitsN e.toNat 52 50
def locLba (e : W64) : Nat := bitsN e.toNat 49 10

/-- Partition to which a drive is granted (10 R241; DEDUCED, log 49). -/
def Drive.part (d : Drive) : Nat := bitsN d.cfg.toNat 59 56

/-- Fields that the entries of a contiguous group share (10 R224); DOD, which the pager writes, is left out with D. -/
def contFields (e : W64) : W64 :=
  if e.getLsbD 0 then e &&& 0xFFFFC00000000CFF#64 else e &&& 0xFFDC0000000003FF#64
/-- The group of a CONT entry at an address obeys R224: equal fields, consecutive frames from an aligned one, or consecutive blocks. -/
def groupSound (s : State) (len addr : Nat) (e : W64) : Bool :=
  let i := addr % 128 / 8
  (List.range 16).all fun j =>
    let x := s.rd64 (addr / 128 * 128 + 8 * j)
    contFields x == contFields e &&
    (if e.getLsbD 0 then pteFrame x + i * len == pteFrame e + j * len && (pteFrame x - j * len) % (16 * len) == 0
     else locLba x + i == locLba e + j)
/-- The frame that a valid leaf gives its page. A contiguous group that breaks R224 gives unpredictable translations: a free frame, which
is checked against the frame range as any. -/
def leafFrame (s : State) (len va addr : Nat) (e : W64) : Nat :=
  if e.getLsbD 55 && !groupSound s len addr e then bitsN (s.free (800000000 + va / len)).toNat 33 0 * 4096 / len * len else pteFrame e

/-- The outcome at a leaf or locator entry of a level. -/
def walkLeaf (s : State) (n level va addr : Nat) (e : W64) : Walk :=
  let p := s.part n
  let len := leafBytes level
  let first := va / len * len
  if e.getLsbD 0 then
    if pteReserved e || level == 3 || pteFrame e % len != 0 then .bad ⟨3, 0x22, 3, level, e⟩
    else
      let frame := leafFrame s len va addr e
      if !grantedFrame n p frame len || (frame != pteFrame e && !p.inFrame frame len) then .bad ⟨3, 0x60, 4, level, e⟩
      else .ok first len frame addr e level
  else if !e.getLsbD 54 then .bad ⟨2, 0x22, 0, level, e⟩
  else
    let cont := e.getLsbD 55
    let key := if cont then addr / 128 * 128 else addr
    let glen := if cont then 16 * len else len
    if locReserved e || !e.getLsbD 3 || !(level == 0 || (level == 1 && !cont)) then .bad ⟨3, 0x22, 3, level, e⟩
    else if (s.drive (locDrive e)).part != n then .bad ⟨3, 0x23, 5, level, e⟩
    else if !p.bounceOn then .bad ⟨3, 0x60, 4, level, e⟩
    else .page key (va / glen * glen) glen e level

/-- The walk below a table of a level; `up` and `ptr` are the level and the value of the entry that points to the table
(10 R221, R232). -/
def walkFrom (s : State) (n va : Nat) : Nat → Nat → Nat → W64 → Walk
  | level, table, up, ptr =>
    if !(s.part n).inFrame table 4096 then .bad ⟨3, 0x60, 4, up, ptr⟩
    else if memEnd < table + 4096 then .bad (holeFault (table + 8 * bitsN va (20 + 9 * level) (12 + 9 * level)))
    else
      let addr := table + 8 * bitsN va (20 + 9 * level) (12 + 9 * level)
      let e := s.rd64 addr
      match level with
      | 0 => if e.getLsbD 0 && !e.getLsbD 3 then .bad ⟨3, 0x22, 3, 0, e⟩ else walkLeaf s n 0 va addr e
      | l + 1 =>
        if e.getLsbD 0 && !e.getLsbD 3 then
          if ptrExtra e then .bad ⟨3, 0x22, 3, l + 1, e⟩ else walkFrom s n va l (pteFrame e) (l + 1) e
        else walkLeaf s n (l + 1) va addr e

/-- A page walk of partition `n` at a canonical address (10 R220, R221). -/
def walk (s : State) (n va : Nat) : Walk :=
  let root := (s.part n).ptroot
  if !root.getLsbD 0 then .bad ⟨3, 0x60, 4, 0xFF, 0⟩ else walkFrom s n va 3 (pteFrame root) 0xFF 0

/-- Permission at the leaf (10 R225). -/
def permits (leaf : W64) : Need → Bool
  | .r => leaf.getLsbD 4
  | .w => leaf.getLsbD 5
  | .x => leaf.getLsbD 6
  | .rw => leaf.getLsbD 4 && leaf.getLsbD 5
def Need.writes : Need → Bool
  | .w | .rw => true
  | _ => false

/-- Cache policy and traffic class of a leaf (10 R222; 07 R155: apertures are uncached). -/
def leafCp (leaf : W64) : Nat := match regionOf (pteFrame leaf) with | .mem => bitsN leaf.toNat 57 56 | _ => 3

/-- Die of a core (01 R15). -/
def dieOf (core : Nat) : Nat := core / 48

def TlbE.hit (n va : Nat) (t : TlbE) : Bool := t.part == n && t.va ≤ va && va < t.va + t.len

/-- Put a translation into the TLB of a core and the shared TLB of its die; a full TLB loses its oldest entry
(10 R226; DESIGN CHOICE, log 20). -/
def State.fillTlb (s : State) (c : Nat) (t : TlbE) : State :=
  let keep := fun (cap : Nat) (l : List TlbE) => (t :: l.filter fun u => !(u.part == t.part && u.va == t.va)).take cap
  let s := s.modCore c fun k => { k with tlb := keep 256 k.tlb }
  { s with stlbs := mput s.stlbs (dieOf c) (keep 16384 (mget [] s.stlbs (dieOf c))) }

/-- Change the copies of a leaf that the TLBs hold. -/
def State.mapTlbs (s : State) (f : TlbE → Option TlbE) : State :=
  { s with
    cores := mmap (fun _ k => { k with tlb := k.tlb.filterMap f }) s.cores
    stlbs := mmap (fun _ l => l.filterMap f) s.stlbs }

/-- Set bits of the leaf entry by the walker's atomic OR, here and in the TLBs (10 R225). -/
def State.orPte (s : State) (pte : Nat) (bits : W64) : State :=
  let s := s.rmw64 pte (· ||| bits)
  s.mapTlbs fun t => if t.pte == pte then some { t with leaf := t.leaf ||| bits } else some t

/-- Outcome of a translation. -/
inductive Xl where
  | ok (pa : Nat) (leaf : W64) (t : TlbE)
  | page (key va len : Nat) (loc : W64)
  | bad (f : XFault)
  deriving DecidableEq, Repr

def leafA : W64 := BitVec.twoPow 64 8
def leafD : W64 := BitVec.twoPow 64 9

/-- The translation that the core's TLB or the shared TLB of its die holds (10 R226). -/
def State.tlbFind (s : State) (c n va : Nat) : Option TlbE :=
  match (s.core c).tlb.find? (TlbE.hit n va) with
  | some t => some t
  | none => (mget [] s.stlbs (dieOf c)).find? (TlbE.hit n va)

/-- Permission and dirty bit at a translation that has been found: a write through a leaf with D = 0 sets D by an OR that
succeeds only if the entry still has V = 1 and the same frame (10 R225). -/
def xlGrant (s : State) (va : Nat) (need : Need) (t : TlbE) (level : Nat) : Xl × State :=
  if !permits t.leaf need then (.bad ⟨2, 0x23, 1, level, t.leaf⟩, s)
  else
    let s' := if need.writes && !t.leaf.getLsbD 9 then s.orPte t.pte leafD else s
    (.ok (t.pa + (va - t.va)) (if need.writes then t.leaf ||| leafD else t.leaf) t, s')

def levelOf (len : Nat) : Nat := if len == 4096 then 0 else if len == 2097152 then 1 else 2

/-- A walk whose leaf fills the TLBs, with A set (10 R225). -/
def xlWalk (s : State) (c n va : Nat) (need : Need) : Xl × State :=
  match walk s n va with
  | .bad f => (.bad f, s)
  | .page key v len loc _ => (.page key v len loc, s)
  | .ok v len pa pte leaf level =>
    if !permits leaf need then (.bad ⟨2, 0x23, 1, level, leaf⟩, s)
    else
      let s := if leaf.getLsbD 8 then s else s.orPte pte leafA
      let t : TlbE := ⟨n, v, len, pa, pte, leaf ||| leafA⟩
      xlGrant (s.fillTlb c t) va need t level

/-- Translate an address of partition `n` for core `c` (10 R220 to R226). The write-through-a-clean-entry check walks again
where the leaf has changed. -/
def xlate (s : State) (c n va : Nat) (need : Need) : Xl × State :=
  match s.tlbFind c n va with
  | none => xlWalk s c n va need
  | some t =>
    let e := s.rd64 t.pte
    if need.writes && permits t.leaf need && !t.leaf.getLsbD 9 && !(e.getLsbD 0 && pteFrame e == pteFrame t.leaf) then
      let s := s.mapTlbs fun u => if u.pte == t.pte then none else some u
      xlWalk s c n va need
    else xlGrant (s.fillTlb c t) va need t (levelOf t.len)

/-- Translation by a unit without a core TLB (dispatcher, host link, pager: 12 R271). -/
def xlateUnit (s : State) (n va : Nat) (need : Need) : Xl × State :=
  if va ≥ 2 ^ 48 then (.bad ⟨2, 0x22, 2, 0xFF, 0⟩, s)
  else
    match walk s n va with
    | .bad f => (.bad f, s)
    | .page key v len loc _ => (.page key v len loc, s)
    | .ok v len pa pte leaf level =>
      if !permits leaf need then (.bad ⟨2, 0x23, 1, level, leaf⟩, s)
      else
        let bits := if need.writes then leafA ||| leafD else leafA
        let s := if leaf &&& bits == bits then s else s.orPte pte bits
        (.ok (pa + (va - v)) leaf ⟨n, v, len, pa, pte, leaf⟩, s)

/-- Physical bases of the 4 KiB pages of a range that are mapped now; used by the range operations (07 R173, R176). -/
def rangePages (s : State) (n va len : Nat) : List Nat :=
  if len = 0 then [] else
  (List.range ((va + len - 1) / 4096 + 1 - va / 4096)).filterMap fun i =>
    let a := (va / 4096 + i) * 4096
    match walk s n a with
    | .ok v _ pa _ _ _ => some ((pa + (a - v)) / 4096)
    | _ => none

/-- Range of a seal register in bytes (07 R172). -/
def sealBase (r : W64) : Nat := bitsN r.toNat 47 16 * 65536
def sealLen (r : W64) : Nat := bitsN r.toNat 15 0 * 65536
def sealState (r : W64) : Nat := bitsN r.toNat 63 62
def sealWord (st base count : Nat) : W64 := BitVec.ofNat 64 (st * 2 ^ 62 + base / 65536 % 2 ^ 32 * 65536 + count % 65536)
def Part.seal (p : Part) (i : Nat) : W64 := mget 0 p.seals i

/-- A store to these bytes meets a range that is SEALING, SEALED or UNSEALING (07 R173, R175). -/
def Part.sealedAt (p : Part) (va len : Nat) : Bool :=
  (List.range 16).any fun i =>
    let r := p.seal i
    sealState r != 0 && va < sealBase r + sealLen r && sealBase r < va + len

/-- Pages whose clean bytes an acquire keeps: those of SEALED ranges (07 R157, R174). -/
def sealedPages (s : State) (n : Nat) : List Nat :=
  (List.range 16).flatMap fun i =>
    let r := (s.part n).seal i
    if sealState r == 2 then rangePages s n (sealBase r) (sealLen r) else []

end Sys2Proof.Machine
end

