-- ==== Sys2Proof/Machine/Cache.lean ====
section
/-! DEFINITION. The L1s, the write-combining buffers, release tags, promotion and forwarding
(07 R155 to R159; 09 R207 to R215). -/

namespace Sys2Proof.Machine

/-- Dirty bytes of an L1 at addresses that satisfy a test, with their addresses. -/
def dirtyCells (l1 : List (Nat × Line)) (p : Nat → Bool) : List (Nat × Byte) :=
  l1.flatMap fun kl => kl.2.bytes.filterMap fun ob =>
    if ob.2.dirty && p (128 * kl.1 + ob.1) then some (128 * kl.1 + ob.1, ob.2.val) else none

/-- Mark bytes clean. -/
def cleanBytes (l1 : List (Nat × Line)) (p : Nat → Bool) : List (Nat × Line) :=
  mmap (fun k l => { l with bytes := mmap (fun o b => if p (128 * k + o) then { b with dirty := false } else b) l.bytes }) l1

/-- Drop bytes; a line without bytes is gone. -/
def dropBytes (l1 : List (Nat × Line)) (p : Nat → LByte → Bool) : List (Nat × Line) :=
  (l1.map fun kl => (kl.1, { kl.2 with bytes := kl.2.bytes.filter fun ob => !p (128 * kl.1 + ob.1) ob.2 })).filter
    fun kl => !kl.2.bytes.isEmpty || kl.2.fd.isSome

/-- Poison that written-back bytes of a core's L1 carry to the home slices (07 R161). -/
def State.l1Carry (s : State) (c : Nat) (cells : List (Nat × Byte)) : List ErrLoc :=
  s.poison.filterMap fun p => match p with
    | .l1 d k => if d == c && cells.any fun ab => ab.1 / 64 == k then some (.mem k) else none
    | _ => none

/-- The dispatcher counts bytes that a grid moves between the L1s and the home slices (02 R45). -/
def State.countBytes (s : State) (grid n : Nat) : State :=
  s.modGrid grid fun g => if g.classified then g else { g with bytes := g.bytes + n }

/-- Dirty bytes that leave an L1 count for the grids that wrote them. -/
def State.countBack (s : State) (c : Nat) (p : Nat → Bool) : State :=
  let gs := (s.core c).l1.flatMap fun kl => kl.2.bytes.filterMap fun ob =>
    if ob.2.dirty && p (128 * kl.1 + ob.1) then some ob.2.grid else none
  gs.eraseDups.foldl (fun s g => s.countBytes g (gs.filter (· == g)).length) s

/-- A core writes back its dirty bytes at addresses that satisfy a test (07 R156). -/
def State.writeBack (s : State) (c : Nat) (p : Nat → Bool) : State :=
  let cells := dirtyCells (s.core c).l1 p
  (((s.countBack c p).memWrite cells).addPoison (s.l1Carry c cells)).modCore c fun k => { k with l1 := cleanBytes k.l1 p }

/-- Poison of the chunks of a line leaves a core's L1 where no byte that satisfies a test stands in the chunk (07 R161). -/
def State.l1Fresh (s : State) (c ln : Nat) (keep : LByte → Bool) : State :=
  if s.poison.isEmpty then s else
  let line : Line := mget {} (s.core c).l1 ln
  s.delPoison fun p => match p with
    | .l1 d k => d == c && k / 2 == ln && !(line.bytes.any fun ob => ob.1 / 64 == k % 2 && keep ob.2)
    | _ => false

/-- A byte that a core's L1 holds lies in a poisoned chunk of its line. -/
def State.l1Poisoned (s : State) (c a : Nat) : Bool := s.poison.contains (.l1 c (a / 64))

/-- Resolve the FD lines of a core that satisfy a test: each origin writes back its dirty bytes of the line (09 R210). -/
def State.resolveFd (s : State) (c : Nat) (p : Nat → Bool) : State :=
  let lines := (s.core c).l1.filterMap fun kl => if p kl.1 then kl.2.fd.map fun r => (kl.1, r) else none
  let s := lines.foldl (fun s lr => s.writeBack lr.2 fun a => a / 128 == lr.1) s
  s.modCore c fun k => { k with l1 := mmap (fun ln l => if p ln then { l with fd := none } else l) k.l1 }

/-- The bytes of a write-combining entry count for the grids that wrote them when the entry drains (02 R45). -/
def State.countWc (s : State) (bytes : List (Nat × Byte × Nat)) : State :=
  (bytes.map (·.2.2)).eraseDups.foldl (fun s g => s.countBytes g (bytes.filter fun ob => ob.2.2 == g).length) s

/-- Drain write-combining entries of a core whose line satisfies a test (07 R159). -/
def State.wcDrain (s : State) (c : Nat) (p : Nat → Bool) : State :=
  let es := (s.core c).wc.filter fun e => p e.1
  let s := es.foldl (fun s e => (s.countWc e.2).memWrite (e.2.map fun ob => (128 * e.1 + ob.1, ob.2.1))) s
  s.modCore c fun k => { k with wc := k.wc.filter fun e => !p e.1 }

/-- R158: before an access at the home slice, the core's L1 writes back its dirty bytes of the access and drops those bytes,
and the write-combining entries that it touches drain. FD lines that it touches are resolved first, which may happen at any time (09
R210): what another core's release has forwarded is then at the home slice, before anything newer (09 R198, R199; DEDUCED, log 52). -/
def State.homePrep (s : State) (c : Nat) (pas : List Nat) : State :=
  let line := fun (ln : Nat) => pas.any fun a => a / 128 == ln
  let s := ((s.wcDrain c line).resolveFd c line).writeBack c fun a => pas.contains a
  s.modCore c fun k => { k with l1 := dropBytes k.l1 fun a _ => pas.contains a }

/-- An L1 never holds more lines than its share of the array has room for: the first line leaves (07 R156; DESIGN CHOICE, log 21). -/
def State.l1Evict (s : State) (c ln : Nat) : State :=
  let s := s.resolveFd c fun l => l == ln
  let s := s.writeBack c fun a => a / 128 == ln
  s.modCore c fun k => { k with l1 := mdel k.l1 ln }

def Core.l1Cap (k : Core) : Nat := (2097152 - k.split) / 128

def State.l1Fit (s : State) (c keep : Nat) : State :=
  let k := s.core c
  if k.l1.length ≤ k.l1Cap then s
  else match k.l1.find? (fun kl => kl.1 != keep) with
    | some kl => s.l1Evict c kl.1
    | none => s

/-- The bytes of a line after a fetch: a dirty byte keeps its value, every other comes from the home slice (R156). A poisoned
chunk of the home slice is not cached. -/
def State.mergeLine (s : State) (ln : Nat) (old : List (Nat × LByte)) : List (Nat × LByte) :=
  (List.range 128).filterMap fun o =>
    match mget? old o with
    | some b => if b.dirty then some (o, b) else if s.poisoned (128 * ln + o) then none else some (o, ⟨s.rd8 (128 * ln + o), false, 0, 0⟩)
    | none => if s.poisoned (128 * ln + o) then none else some (o, ⟨s.rd8 (128 * ln + o), false, 0, 0⟩)

/-- A fetch of a whole line by a core. An FD line is resolved first, so that the home slice has its forwarded bytes (09 R210). -/
def State.l1Fetch (s : State) (c ln : Nat) : State :=
  let s := (s.resolveFd c fun l => l == ln).l1Fresh c ln (·.dirty)
  let line : Line := mget {} (s.core c).l1 ln
  (s.modCore c fun k => { k with l1 := mput k.l1 ln { line with bytes := s.mergeLine ln line.bytes } }).l1Fit c ln

/-- The lines of a load come into the L1 (07 R156): where a byte that it needs is not valid, the whole line is fetched and merged before
any byte of the line is read. -/
def State.l1Touch (s : State) (c : Nat) (pas : List Nat) : State :=
  ((pas.map (· / 128)).eraseDups).foldl (fun s ln =>
    let s := s.wcDrain c fun l => l == ln
    let line : Line := mget {} (s.core c).l1 ln
    if pas.any fun a => a / 128 == ln && (mget? line.bytes (a % 128)).isNone then s.l1Fetch c ln else s) s

/-- A byte of a line that has come in; `none`: the byte is poisoned. -/
def State.l1Byte (s : State) (c a : Nat) : Option Byte :=
  match mget? (mget {} (s.core c).l1 (a / 128)).bytes (a % 128) with
  | some b => if s.l1Poisoned c a then none else some b.val
  | none => none

/-- Store bytes into the L1: valid and dirty, allocated without a fetch (07 R156). A write-combining entry of the line drains
first, so that older non-temporal bytes stay older (03 R73), and an FD line is resolved first, so that its origin's older bytes are (09
R198; DEDUCED, log 52). A chunk that is stored whole loses its poison (07 R161). -/
def State.l1Store (s : State) (c grid : Nat) (cells : List (Nat × Byte)) : State :=
  let cov := if s.poison.isEmpty then [] else coveredChunks cells
  let s := s.delPoison fun p => match p with | .l1 d k => d == c && cov.contains k | _ => false
  cells.foldl (fun s ab =>
    let ln := ab.1 / 128
    let s := ((s.wcDrain c fun l => l == ln).resolveFd c fun l => l == ln).l1Fresh c ln fun _ => true
    (s.modCore c fun k =>
      let line : Line := mget {} k.l1 ln
      { k with l1 := mput k.l1 ln { line with bytes := mput line.bytes (ab.1 % 128) ⟨ab.2, true, k.relNo, grid⟩ } }).l1Fit c ln) s

/-- ST.nt of a grid writes into the write-combining buffer (07 R159). A full entry drains; a 33rd entry makes the oldest drain. An FD line
is resolved before its bytes are dropped, as in `homePrep`. -/
def State.wcStore (s : State) (c grid : Nat) (cells : List (Nat × Byte)) : State :=
  cells.foldl (fun s ab =>
    let ln := ab.1 / 128
    let s := (s.resolveFd c fun l => l == ln).modCore c fun k => { k with l1 := dropBytes k.l1 fun a _ => a == ab.1 }
    let k := s.core c
    let s := if (mget? k.wc ln).isNone && k.wc.length ≥ 32 then s.wcDrain c fun l => some l == k.wc.head?.map (·.1) else s
    let old : List (Nat × Byte × Nat) := mget [] (s.core c).wc ln
    let e := mput old (ab.1 % 128) (ab.2, grid)
    let s := s.modCore c fun k =>
      { k with wc := if (mget? k.wc ln).isSome then k.wc.map (fun x => if x.1 = ln then (ln, e) else x) else k.wc ++ [(ln, e)] }
    if e.length == 128 then s.wcDrain c fun l => l == ln else s) s

/-- Eager release of a core: every FD line is resolved and every dirty byte written back (09 R207). The core's own bytes, which are
newer than those of an origin that reached it, come later in coherence order (09 R198). -/
def State.drainCore (s : State) (c : Nat) : State := (s.resolveFd c fun _ => true).writeBack c fun _ => true

/-- Release numbers are compared around the 32-bit counter (09 R208). -/
def epochLe (e n : BitVec 32) : Bool := !(n - e).msb

/-- Promotion of a core for a release: it writes back at least every dirty byte written before that release (09 R209);
this model writes back all its dirty bytes, which the rule allows. -/
def State.promote (s : State) (c : Nat) : State := s.writeBack c fun _ => true

/-- Forwarding within a cluster (09 R210): the bytes that are dirty in `r`, of the lines that hold a dirty byte written before
release `n` (`none`: of all), arrive in `c` valid and clean, and their line has FD set. -/
def State.forward (s : State) (r c : Nat) (n : Option (BitVec 32)) : State :=
  let lines := (s.core r).l1.filter fun kl => kl.2.bytes.any fun ob =>
    ob.2.dirty && (match n with | none => true | some n => epochLe ob.2.epoch n)
  lines.foldl (fun s kl =>
    let sent := kl.2.bytes.filter fun ob => ob.2.dirty
    let old : Line := mget {} (s.core c).l1 kl.1
    let s := match old.fd with
      | some r' => if r' == r then s else s.resolveFd c fun l => l == kl.1
      | none => s
    let s := (s.l1Fresh c kl.1 fun _ => true).modCore c fun k =>
      let line : Line := mget {} k.l1 kl.1
      let bytes := sent.foldl (fun bs ob =>
        match mget? bs ob.1 with
        | some b => if b.dirty then bs else mput bs ob.1 ⟨ob.2.val, false, 0, 0⟩
        | none => mput bs ob.1 ⟨ob.2.val, false, 0, 0⟩) line.bytes
      { k with l1 := mput k.l1 kl.1 ⟨bytes, some r⟩ }
    let s := s.l1Fit c kl.1
    s.addPoison ((List.range 2).filterMap fun i =>
      if s.l1Poisoned r (128 * kl.1 + 64 * i) && sent.any fun ob => ob.1 / 64 == i then some (.l1 c (2 * kl.1 + i)) else none)) s

/-- Cores of the cluster of a group (01 R24). -/
def clusterCores (s : State) (gid : Nat) : List Nat :=
  ((s.cluster (s.group gid).cluster).groups.filterMap fun g =>
    match mget? s.groups g with | some x => some x.core | none => none)

def State.tag (s : State) (a : Nat) : List (Nat × BitVec 32) := mget [] s.tags (a / 8)

/-- An acquire at device scope or wider reads tagged words: every tagged core but `c` is promoted, and the promoted pairs go
(09 R209). At cluster scope, the cores of the reader's cluster forward instead (09 R210). `c = 96` is the host adapter,
a core of no cluster (09 R214). -/
def State.acquireTags (s : State) (c scope : Nat) (cluster : List Nat) (pas : List Nat) : State :=
  let words := (pas.map (· / 8)).eraseDups
  words.foldl (fun s w =>
    let pairs := (mget [] s.tags w).filter fun p => p.1 != c && (4 ≤ scope || (scope == 3 && cluster.contains p.1))
    let s := pairs.foldl (fun s p => if 4 ≤ scope then s.promote p.1 else s.forward p.1 c (some p.2)) s
    { s with tags := mset [] s.tags w ((mget [] s.tags w).filter fun p => !pairs.contains p) }) s

/-- Cores that a strong relaxed read records in its pending mask (09 R209). -/
def tagCores (s : State) (pas : List Nat) : List Nat :=
  ((pas.map (· / 8)).eraseDups.flatMap fun w => (mget [] s.tags w).map (·.1)).eraseDups

/-- R157: an acquire at cluster scope or wider drops the core's valid clean bytes outside the sealed ranges; dirty bytes and
FD lines stay. -/
def State.dropClean (s : State) (c n : Nat) : State :=
  let keep := sealedPages s n
  let shrink := fun (kl : Nat × Line) =>
    if kl.2.fd.isSome || keep.contains (kl.1 / 32) then kl
    else (kl.1, { kl.2 with bytes := kl.2.bytes.filter fun ob => ob.2.dirty })
  let live := fun (kl : Nat × Line) => !kl.2.bytes.isEmpty || kl.2.fd.isSome
  s.modCore c fun k => { k with l1 := (k.l1.map shrink).filter live }

/-- Promotions or forwards of a pending mask by FENCE.acq, which clears it (09 R209, R210). -/
def State.acquireMask (s : State) (c scope : Nat) (cluster mask : List Nat) : State :=
  mask.foldl (fun s r =>
    if 4 ≤ scope then s.promote r
    else if scope == 3 && r != c && cluster.contains r then s.forward r c none else s) s

/-- The drop of an acquire at cluster scope or wider (R157), made before the bytes that it has forwarded arrive. FD lines of earlier
forwards are resolved first, which may happen at any time (09 R210): what their origins have performed since is then read at
the home slice, as 09 R199 asks (DEDUCED, log 52). -/
def State.acquireDrop (s : State) (c n scope : Nat) : State :=
  if 3 ≤ scope then (s.resolveFd c fun _ => true).dropClean c n else s

/-- The next release number of a core (09 R208). -/
def State.bumpRel (s : State) (c : Nat) : State := s.modCore c fun k => { k with relNo := k.relNo + 1 }

/-- A lazy release tags the words it writes: a write replaces the tag, an RMW adds its pair (09 R208). -/
def State.tagWords (s : State) (c : Nat) (pas : List Nat) (rmw : Bool) : State :=
  let n := (s.core c).relNo
  let words := (pas.map (· / 8)).eraseDups
  { s with tags := words.foldl (fun t w =>
      mput t w (if rmw then ((mget [] t w).filter fun p => p.1 != c) ++ [(c, n)] else [(c, n)])) s.tags }

/-- Cores a device has. -/
def allCores : List Nat := List.range 96

/-- R228, second and third action, for the frames of a page: every L1 writes back its dirty bytes, resolves its FD lines and
drops its lines there, and every write-combining entry that touches it drains. `p` tests a 4 KiB frame number. -/
def State.flushFrames (s : State) (p : Nat → Bool) : State :=
  let s := s.cores.foldl (fun s ck =>
    ((s.wcDrain ck.1 fun l => p (l / 32)).resolveFd ck.1 fun l => p (l / 32)).writeBack ck.1 fun a => p (a / 4096)) s
  { s with cores := mmap (fun _ k => { k with l1 := k.l1.filter fun kl => !p (kl.1 / 32) }) s.cores }

/-- Flush of a range in one core: FLUSHR keeps the lines clean, INVR drops them (07 R176). `p` tests a line. -/
def State.flushLines (s : State) (c : Nat) (p : Nat → Bool) (drop : Bool) : State :=
  let s := ((s.wcDrain c p).resolveFd c p).writeBack c fun a => p (a / 128)
  if drop then s.modCore c fun k => { k with l1 := k.l1.filter fun kl => !p kl.1 } else s

end Sys2Proof.Machine
end

