-- ==== Sys2Proof/Machine/RegPages.lean ====
section
/-! DEFINITION. What the register page of a partition and the management page read (12 R272 to R277; 01 R29; 08 R192; 10 R220,
R227, R231, R234, R241; 11 R251, R261). -/

namespace Sys2Proof.Machine

/-- DEVSHAPE (01 R29). -/
def devshape (s : State) : W64 :=
  BitVec.ofNat 64 (s.mgmt.peerMask.toNat * 2 ^ 48 + s.mgmt.drvMask.toNat * 2 ^ 40 + 0x40080C4060)

/-- Entries of a partition that are not FREE, over all slices (08 R192). -/
def ticketsHeld (s : State) (n : Nat) : Nat := (s.tickets.filter fun t => t.2.part == n && t.2.st != .free).length

def Chan.read (c : Chan) (hi : Bool) : W64 :=
  if hi then c.slot else BitVec.ofNat 64 ((if c.done then 2 ^ 63 else 0) + c.status.toNat)

/-- A quadword of a partition's register page (12 R272). -/
def partReg (s : State) (n ofs : Nat) : W64 :=
  let p := s.part n
  match ofs with
  | 0x00 => devshape s
  | 0x08 => BitVec.ofNat 64 n
  | 0x10 => p.ptroot
  | 0x18 => p.tlbinv
  | 0x20 => p.traph
  | 0x28 => p.fltring
  | 0x38 => p.fltstat.setWidth 64
  | 0x48 => p.lease.setWidth 64
  | 0x50 => BitVec.ofNat 64 p.quota
  | 0x58 => BitVec.ofNat 64 (ticketsHeld s n * 2 ^ 32 + p.lapsed.toNat)
  | 0x60 => p.pagercfg
  | 0x68 => p.reslist
  | 0x70 => p.ffr4k
  | 0x78 => p.ffr64k
  | 0x80 => p.ffr2m
  | 0x88 => p.bounce
  | 0x90 => p.intcfg
  | _ =>
    if 0xA0 ≤ ofs && ofs ≤ 0xB8 then mget 0 p.lring ((ofs - 0xA0) / 8)
    else if 0x100 ≤ ofs && ofs ≤ 0x178 then p.seal ((ofs - 0x100) / 8)
    else if 0x240 ≤ ofs && ofs ≤ 0x27F then (mget {} p.chans ((ofs - 0x240) / 16)).read (ofs % 16 == 8)
    else 0

/-- PCTL (12 R277). -/
def pctlRead (p : Part) : W64 :=
  BitVec.ofNat 64 ((if p.busy then 2 ^ 63 else 0) + p.op.toNat * 2 ^ 60 + p.state.toNat * 2 ^ 48 + p.result.toNat)

/-- MIN, MAX, COUNT and HIST are kept at keys 0, 1, 2 and 16 + b (12 R290). -/
def monReg (m : Mon) (ofs : Nat) : W64 :=
  match ofs with
  | 0x00 => m.cfg
  | 0x08 => BitVec.ofNat 64 (mget 0 m.snap 0 + 2 ^ 32 * mget 0 m.snap 1)
  | 0x10 => BitVec.ofNat 64 (mget 0 m.snap 2)
  | _ => if 0x40 ≤ ofs && ofs ≤ 0x78 then
      BitVec.ofNat 64 (mget 0 m.snap (16 + (ofs - 0x40) / 4) + 2 ^ 32 * mget 0 m.snap (17 + (ofs - 0x40) / 4))
    else 0

/-- A quadword of the management page (12 R276). -/
def mgmtReg (s : State) (ofs : Nat) : W64 :=
  let m := s.mgmt
  match ofs with
  | 0x00 => devshape s
  | 0x08 => BitVec.ofNat 64 ((if m.fatal then 2 ^ 63 else 0) + (if m.keyGone then 2 ^ 62 else 0) +
      (if m.fwOk then 2 ^ 61 else 0) + m.fcause.toNat * 256)
  | 0x18 => BitVec.ofNat 64 ((if m.suspBusy then 2 ^ 63 else 0) + m.suspOp.toNat * 2 ^ 61 + m.suspTo.toNat * 16 +
      m.suspPart.toNat)
  | 0x20 => m.fabid.setWidth 64
  | 0x28 => m.fabroute
  | 0x30 => m.pwrlim.setWidth 64
  | 0x38 => BitVec.ofNat 64 (m.throttle.toNat + m.watts.toNat * 65536)
  | 0x40 => m.alarm
  | 0x48 => m.mgtint.setWidth 64
  | 0x120 => m.haddr
  | 0x128 => if m.attBusy then BitVec.twoPow 64 63 else 0
  | 0x130 => m.attstat.setWidth 64
  | _ =>
    if 0x100 ≤ ofs && ofs < 0x120 then mget 0 m.nonce ((ofs - 0x100) / 8)
    else if 0x800 ≤ ofs && ofs < 0x900 then
      let d := s.drive ((ofs - 0x800) / 0x20)
      match ofs % 0x20 with
      | 0x00 => d.sqb
      | 0x08 => d.cqb
      | 0x10 => if d.flushing then d.cfg ||| BitVec.twoPow 64 62 else d.cfg
      | _ => 0
    else if 0x1000 ≤ ofs && ofs < 0x2000 then
      let p := s.part ((ofs - 0x1000) / 0x100)
      match ofs % 0x100 with
      | 0x00 => pctlRead p
      | 0x08 => p.pcore.extractLsb' 0 64
      | 0x10 => (p.pcore.extractLsb' 64 32).setWidth 64
      | 0x18 => p.pframe
      | 0x20 => p.pgrant
      | 0x30 => BitVec.ofNat 64 p.quota
      | _ => 0
    else if 0x4000 ≤ ofs && ofs < 0x8000 then monReg (mget {} s.mons ((ofs - 0x4000) / 0x100)) (ofs % 0x100)
    else if 0x10000 ≤ ofs && ofs < 0x30000 then
      BitVec.ofNat 64 (leNat ((List.range 8).map fun i => mget 0 (s.drive ((ofs - 0x10000) / 0x4000)).bar (ofs % 0x4000 + i)))
    else 0

/-- A byte of a register page read through the register aperture (12 R269). -/
def partRegByte (s : State) (n ofs : Nat) : Byte := (partReg s n (ofs / 8 * 8)).extractLsb' (ofs % 8 * 8) 8

/-- A byte that a load finds at a physical address (07 R155, 12 R268, R269). What the host and the peers hold is outside the
device: a free value (DESIGN CHOICE, log 5). -/
def loadByte (s : State) (tag pa : Nat) : Byte :=
  match regionOf pa with
  | .mem => s.rd8 pa
  | .regs n o => partRegByte s n o
  | _ => (s.free (50000 + tag)).extractLsb' 0 8

/-- The port that reaches a device, if there is a route to it (12 R284). -/
def State.route (s : State) (d : Nat) : Option Nat :=
  let port := bitsN s.mgmt.fabroute.toNat (4 * d + 3) (4 * d)
  if 12 ≤ port || !s.mgmt.peerMask.getLsbD port || d == s.mgmt.fabid.toNat then none else some port
/-- A peer-aperture access fails: no route, a link that is down, or a target that refuses it, which is the target's: a free value
(12 R284 to R286; DESIGN CHOICE, log 5). -/
def State.peerFails (s : State) (pa : Nat) : Bool :=
  match regionOf pa with
  | .peer d _ => (match s.route d with
    | none => true
    | some port => s.mgmt.peersDown.contains port || (s.free 97000).getLsbD 0)
  | _ => false
/-- What the issuer of such an access takes. -/
def peerFault : XFault := ⟨3, 0x60, 4, 0xFF, 0⟩

/-! ### Collectives: the descriptor (12 R287) -/

def cF (d : BitVec 256) (hi lo : Nat) : Nat := bitsN d.toNat hi lo
def cSrc (d : BitVec 256) : Nat := cF d 63 0
def cDst (d : BitVec 256) : Nat := cF d 127 64
def cCount (d : BitVec 256) : Nat := cF d 159 128
def cOp (d : BitVec 256) : Nat := cF d 177 176
def cRed (d : BitVec 256) : Bool := d.getLsbD 178
def cFmt (d : BitVec 256) : Nat := cF d 180 179
def cNdev (d : BitVec 256) : Nat := cF d 185 181
def cRoot (d : BitVec 256) : Nat := cF d 189 186
def cStat (d : BitVec 256) : Nat := cF d 255 192
/-- Bytes of an element, elements of a chunk, bytes of SRC and of DST. -/
def cSize (d : BitVec 256) : Nat := match cFmt d with | 0 => 4 | 1 => 2 | _ => 1
def cLen (d : BitVec 256) : Nat := if cOp d == 3 then cCount d else cCount d / cNdev d
def cSrcBytes (d : BitVec 256) : Nat := cSize d * if cOp d == 2 then cLen d else cCount d
def cDstBytes (d : BitVec 256) : Nat := cSize d * if cOp d == 1 then cLen d else cCount d

/-- A store to SRC or DST of a collective between its issue and the fall of its token makes DST unpredictable (15 R355). -/
def State.collTouch (s : State) (n va len : Nat) : State :=
  let meets := fun (a k : Nat) => va < a + k && a < va + len
  let mark := fun (x : Coll) =>
    if x.part == n && (meets (cSrc x.desc) (cSrcBytes x.desc) || meets (cDst x.desc) (cDstBytes x.desc)) then { x with raced := true } else x
  if s.colls.isEmpty then s else { s with colls := s.colls.map mark }

/-- A store at physical addresses, whoever makes it and under whatever virtual address (15 R355). -/
def State.collTouchPa (s : State) (pas : List Nat) : State :=
  let page := fun (n a len : Nat) => match walk s n a with
    | .ok v _ pa _ _ _ => pas.any fun p => pa + (a - v) ≤ p && p < pa + (a - v) + len
    | _ => false
  let meets := fun (n a len : Nat) => (List.range ((a + len - 1) / 4096 + 1 - a / 4096)).any fun i =>
    let lo := max a ((a / 4096 + i) * 4096)
    page n lo (min (a + len) ((a / 4096 + i + 1) * 4096) - lo)
  let mark := fun (x : Coll) =>
    if meets x.part (cSrc x.desc) (cSrcBytes x.desc) || meets x.part (cDst x.desc) (cDstBytes x.desc) then { x with raced := true } else x
  if s.colls.isEmpty then s else { s with colls := s.colls.map mark }

/-- What an access through the peer aperture carries: the fabric tag of its partition (12 R286). -/
def State.ftagOf (s : State) (n : Nat) : BitVec 16 := (s.part n).pgrant.extractLsb' 32 16
/-- A load of a range that lies in the host or the peer aperture leaves the device (12 R268, R286). -/
def State.outLoad (s : State) (n pa len : Nat) : State :=
  match regionOf pa with
  | .host o => s.emit (.hostLoad o len)
  | .peer d o => s.emit (.peerLoad d o (s.ftagOf n) s.mgmt.fabid len)
  | _ => s

/-! ### Capture monitors (12 R290, R291) -/

/-- A unit takes one value. MIN of the first value after a clear is that value (DEDUCED, log 6). -/
def Mon.take (m : Mon) (v : Nat) : Mon :=
  let sat := fun (x : Nat) => min x (2 ^ 32 - 1)
  let n := mget 0 m.live 2
  let bin := if v < 2 then 0 else min 15 (Nat.log2 v)
  let l := mput m.live 0 (if n == 0 then sat v else min (mget 0 m.live 0) (sat v))
  let l := mput l 1 (max (mget 0 m.live 1) (sat v))
  let l := mput l 2 ((n + 1) % 2 ^ 64)
  { m with live := mput l (16 + bin) (sat (mget 0 m.live (16 + bin) + 1)) }

/-- A monitored value of an event at a core or slice `unit` of a die, of partition `n`. -/
def State.monitor (s : State) (die event n unit v : Nat) : State :=
  { s with mons := mmap (fun u m =>
      let c := m.cfg.toNat
      if u / 32 == die && m.cfg.getLsbD 63 && bitsN c 60 56 == event && event ≤ 5 &&
          (m.cfg.getLsbD 51 || bitsN c 55 52 == n) && (!m.cfg.getLsbD 50 || bitsN c 47 40 == unit) then m.take v else m) s.mons }

end Sys2Proof.Machine
end

