-- ==== Sys2Proof/Machine/RingOps.lean ====
section
/-! DEFINITION. The operations on reorder rings that a header's home slice performs (02 R35 to R37; 17 R421, R422). -/

namespace Sys2Proof.Machine

/-- A ring header (02 R35). -/
structure RingHdr where
  slotBase : Nat
  log2n : Nat
  log2sz : Nat
  kind : Nat
  notify : Nat
  resv : Nat
  head : Nat
  stateBase : Nat
  vector : Nat
  rsvd : Bool
  deriving DecidableEq, Repr

/-- The fields of the 512 bits of a header. -/
def ringHdr (x : Nat) : RingHdr where
  slotBase := bitsN x 63 0
  log2n := bitsN x 68 64
  log2sz := bitsN x 75 72
  kind := bitsN x 81 80
  notify := bitsN x 83 82
  resv := bitsN x 255 192
  head := bitsN x 319 256
  stateBase := bitsN x 383 320
  vector := bitsN x 394 384
  rsvd := bitsN x 511 395 != 0 || bitsN x 191 84 != 0 || bitsN x 79 76 != 0 || bitsN x 71 69 != 0

/-- A header that R36 accepts. Free-frame rings have 8-byte slots by R234, other rings 2^4 to 2^12 bytes (DEDUCED, log 22). -/
def RingHdr.ok (h : RingHdr) (ffr : Bool := false) : Bool :=
  !h.rsvd && 1 ≤ h.log2n && h.log2n ≤ 16 &&
  (if ffr then h.log2sz == 3 else 4 ≤ h.log2sz && h.log2sz ≤ 12) &&
  h.slotBase % 2 ^ h.log2sz == 0 && h.kind ≤ 2 && h.notify ≤ 2 &&
  (h.notify != 1 || h.kind == 1) && (h.notify != 2 || h.vector < 64) &&
  h.head ≤ h.resv && h.resv - h.head ≤ 2 ^ h.log2n

/-- The size of the ring in slots, the place of a slot and of its state byte. -/
def RingHdr.size (h : RingHdr) : Nat := 2 ^ h.log2n
def RingHdr.slotVa (h : RingHdr) (k : Nat) : Nat := h.slotBase + k % h.size * 2 ^ h.log2sz
def RingHdr.stateVa (h : RingHdr) (k : Nat) : Nat := h.stateBase + k % h.size

/-- Why a ring operation did not act. -/
inductive RingErr where
  | format
  | full
  | empty
  | bad (f : XFault) (va : Nat)
  | page (key va len : Nat) (loc : W64)
  deriving DecidableEq, Repr

/-- The physical address of a ring's byte, accessed as the slice accesses it. A header or state array outside device memory has no home
slice: it is refused with RING_FORMAT (17 R422 for a state array; DESIGN CHOICE for a header, log 57). -/
def ringXl (s : State) (n va : Nat) (need : Need) : Except RingErr Nat × State :=
  match xlateUnit s n va need with
  | (.ok pa _ _, s) => (if regionOf pa = .mem then .ok pa else .error .format, s)
  | (.page k v l loc, s) => (.error (.page k v l loc), s)
  | (.bad f, s) => (.error (.bad f va), s)

/-- A free-frame ring of the partition: its slots have 8 bytes (10 R234; DEDUCED, log 22). -/
def isFfr (s : State) (n hdr : Nat) : Bool :=
  let p := s.part n
  [p.ffr4k, p.ffr64k, p.ffr2m].any fun r => r.toNat == hdr && r != 0

/-- The header at a virtual address, with its physical address (an RMW access: 17 R422 step 4). -/
def ringOpen (s : State) (n hdr : Nat) : Except RingErr (RingHdr × Nat) × State :=
  match ringXl s n hdr .rw with
  | (.error e, s) => (.error e, s)
  | (.ok pa, s) =>
    let h := ringHdr (s.rdNat pa 64)
    (if h.ok (isFfr s n hdr) then .ok (h, pa) else .error .format, s)

/-- The dispatcher is told, or MSI-X is signalled, when the slot at HEAD has become published (02 R35, R37; 12 R275). -/
def ringNotify (s : State) (n hdr : Nat) (h : RingHdr) : State :=
  if h.notify == 1 then
    (List.range 4).foldl (fun s i =>
      let l := mget 0 (s.part n).lring i
      if l.getLsbD 0 && bitsN l.toNat 47 6 * 64 == hdr then s.push (.dispatcherTakeRecord n i) else s) s
  else if h.notify == 2 then s.signal (1 + n) h.vector
  else s

/-- Waiting operations of a ring are looked at again in the order in which they came (17 R422). -/
def ringWake (s : State) (n hdr : Nat) : State :=
  (s.ringWaits.filter fun w => w.part == n && w.hdr.toNat == hdr).foldl (fun s w => s.push (.ringWaitServed w.id)) s

/-- State byte of a slot: its physical address and value. -/
def ringState (s : State) (n : Nat) (h : RingHdr) (k : Nat) : Except RingErr (Nat × Nat) × State :=
  match ringXl s n (h.stateVa k) .rw with
  | (.error e, s) => (.error e, s)
  | (.ok pa, s) => (.ok (pa, (s.rd8 pa).toNat), s)

/-- Reservation (02 R36). The state array is translated before the ring is found full: a bad one is refused, not waited on (17 R422). -/
def ringReserve (s : State) (n hdr : Nat) : Except RingErr (Nat × RingHdr) × State :=
  match ringOpen s n hdr with
  | (.error e, s) => (.error e, s)
  | (.ok (h, pa), s) =>
    match ringState s n h h.resv with
    | (.error e, s) => (.error e, s)
    | (.ok (spa, _), s) =>
      if h.resv - h.head == h.size then (.error .full, s)
      else
        let s := ((s.collTouchPa [spa, pa + 24]).memWrite [(spa, 1)] true).memWrite (cellsAt (pa + 24) (leBytes 8 (h.resv + 1))) true
        (.ok (h.resv, h), s)

/-- Publication of a reserved slot (02 R36). -/
def ringPublish (s : State) (n hdr slot : Nat) : Except RingErr RingHdr × State :=
  match ringOpen s n hdr with
  | (.error e, s) => (.error e, s)
  | (.ok (h, _), s) =>
    if !(h.head ≤ slot && slot < h.resv) then (.error .format, s)
    else match ringState s n h slot with
      | (.error e, s) => (.error e, s)
      | (.ok (spa, v), s) =>
        if v != 1 then (.error .format, s)
        else
          let s := (s.collTouchPa [spa]).memWrite [(spa, 2)] true
          let s := if slot == h.head then ringNotify s n hdr h else s
          (.ok h, ringWake s n hdr)

/-- Taking slot HEAD (02 R36). `notify`: a published slot left at HEAD notifies (R35). -/
def ringTake (s : State) (n hdr : Nat) : Except RingErr (Nat × RingHdr) × State :=
  match ringOpen s n hdr with
  | (.error e, s) => (.error e, s)
  | (.ok (h, pa), s) =>
    match ringState s n h h.head with
    | (.error e, s) => (.error e, s)
    | (.ok (spa, v), s) =>
      if h.head == h.resv || v != 2 then (.error .empty, s)
      else
        let s := ((s.collTouchPa [spa, pa + 32]).memWrite [(spa, 0)] true).memWrite (cellsAt (pa + 32) (leBytes 8 (h.head + 1))) true
        let s := match ringState s n h (h.head + 1) with
          | (.ok (_, 2), s) => if h.head + 1 < h.resv then ringNotify s n hdr h else s
          | (_, _) => s
        (.ok (h.head, h), ringWake s n hdr)

/-- Number of published slots from HEAD on; the free-frame rings are judged by it (10 R234, R237). -/
def ringPublished (s : State) (n hdr : Nat) : Nat :=
  match (ringOpen s n hdr).1 with
  | .error _ => 0
  | .ok (h, _) => ((List.range (h.resv - h.head)).filter fun i =>
      match (ringState s n h (h.head + i)).1 with | .ok (_, 2) => true | _ => false).length

end Sys2Proof.Machine
end

