-- ==== Sys2Proof/Machine/Uses.lean ====
section
/-! DEFINITION. The registers that a SIMT instruction reads and writes, for those whose effect reaches beyond registers
(02 R51 with 00 R12; 13 R296, R304 to R309), the tokens that they raise (02 R50) and what they order (03 R73, 09 R207). -/

namespace Sys2Proof.Machine

/-- v registers of an operand run. -/
def runRegs (n k : Nat) : List Nat := (List.range k).map (n + ·)
def runRegsX (g : Bool) (n k : Nat) : List Nat := if g then [] else runRegs n k

/-- Registers read (v, g; trappc for ERET) and registers written. -/
structure Uses where
  v : List Nat := []
  g : List Nat := []
  trappc : Bool := false
  dv : List Nat := []
  dg : List Nat := []
  deriving DecidableEq, Repr

/-- Two operands, each of v or of g registers. -/
def Uses.ab (ga : Bool) (a ka : Nat) (gb : Bool := false) (b : Nat := 0) (kb : Nat := 0) : Uses where
  v := runRegsX ga a ka ++ runRegsX gb b kb
  g := runRegsX (!ga) a ka ++ runRegsX (!gb) b kb

/-- A MEM access: address and data (13 R304). -/
def Uses.mem (es areg : Nat) (load : Bool) (f : Mem) : Uses :=
  let u := Uses.ab (xA f.x) f.a.toNat areg
  let k := memRegs es f
  let v := runRegsX (xB f.x) f.d.toNat k
  let g := runRegsX (!xB f.x) f.d.toNat k
  if load then { u with dv := v, dg := g } else { u with v := u.v ++ v, g := u.g ++ g }

/-- An atomic (13 R305). -/
def Uses.atom (code size areg : Nat) (f : Atomf) : Uses where
  v := runRegs f.a.toNat areg ++ runRegs f.b.toNat (if code / 4 == 7 then 2 * size / 4 else size / 4)
  dv := if f.nr then [] else runRegs f.d.toNat (size / 4)

/-- What an instruction uses whose effect reaches beyond registers (memory, control flow, tiles, tickets, asynchronous
operations, a check of a value that it reads); none for the others. -/
def instrUses (i : Instr) : Option Uses :=
  match i with
  | .atom _ v f => some (.atom v.toNat (atomSize v) 2 f)
  | .atomAddFloat _ _ f => some (.atom 32 4 2 f)
  | .atoms _ v f => some (.atom v.toNat (atomSize v) 1 f)
  | .atomsAddFloat _ _ f => some (.atom 32 4 1 f)
  | .ld _ v f => some (.mem (ldSize v) 2 true f)
  | .lds _ v f | .ldsCl _ v f => some (.mem (ldSize v) 1 true f)
  | .st _ v f | .stNt _ v f => some (.mem (stSize v) 2 false f)
  | .sts _ v f | .stsCl _ v f => some (.mem (stSize v) 1 false f)
  | .bar _ _ | .bkpt _ _ | .bra _ _ | .braFar _ _ | .call _ _ | .callFar _ _ | .cbar _ _ | .exit _ _ | .fence _ _ | .give _ _
  | .giveFree _ _ | .grow _ _ | .ret _ _ | .shrink _ _ | .sqstop _ _ | .syield _ _ | .trap _ _ | .unseal _ _ | .waitk _ _ => some {}
  | .brx _ f | .callx _ f => some (.ab f.xa f.a.toNat 2)
  | .coll _ f | .cpy _ f | .tcpy _ f => some { g := runRegs f.a.toNat 8 }
  | .eret _ _ => some { trappc := true }
  | .flushr _ f | .invr _ f | .seal _ f => some (.ab (xA f.x) f.a.toNat 2 (xB f.x) f.b.toNat 1)
  | .ldt _ f | .ldtTry _ f | .ringpop _ f | .ringres _ f => some { Uses.ab (xA f.x) f.a.toNat 2 with dg := runRegs f.d.toNat 2 }
  | .mbinit _ f | .mbarv _ f => some (.ab (xA f.x) f.a.toNat 1 (xB f.x) f.b.toNat 1)
  | .mbwait _ f => some (.ab (xA f.x) f.a.toNat 1)
  | .redeem _ f => some { g := runRegs f.a.toNat 2, dv := [f.d.toNat] }
  | .redeemS _ f => some { g := runRegs f.a.toNat 2 ++ [f.d.toNat] }
  | .ringpub _ f => some (.ab (xA f.x) f.a.toNat 2 (xB f.x) f.b.toNat 2)
  | .sqrun _ f => some { dg := [f.d.toNat] }
  | .takeNew _ f => some { dg := [f.d.toNat] }
  | .sqwait _ f => some { dg := runRegs f.d.toNat 2 }
  | .take _ f => some { g := if f.tile == 0x3FF then [f.a.toNat] else [] }
  | .tstat _ f => some { g := if f.tile == 0x3FF then [f.a.toNat] else [], dg := [f.d.toNat] }
  | .tkdrop _ f => some { g := runRegs f.a.toNat 2 }
  | _ => none

/-- The token that a warp's instruction raises (02 R50). -/
def instrTok (i : Instr) : Option Nat :=
  match i with
  | .atom _ _ f | .atomAddFloat _ _ f | .atoms _ _ f | .atomsAddFloat _ _ f => some f.tok.toNat
  | .ld _ _ f | .lds _ _ f | .ldsCl _ _ f | .st _ _ f | .stNt _ _ f | .sts _ _ f | .stsCl _ _ f => some f.tok.toNat
  | .coll _ f | .cpy _ f | .flushr _ f | .invr _ f | .ldt _ f | .ldtTry _ f | .match_ _ f | .mbarv _ f | .mbinit _ f
  | .redeem _ f | .redeemS _ f | .redux _ f | .ringpop _ f | .ringpub _ f | .ringres _ f | .seal _ f | .unseal _ f
  | .shfl _ f | .tcpy _ f | .vote _ f => some f.tok.toNat
  | _ => none

/-- An access to global memory or to scratchpad. -/
def isAccess (i : Instr) : Bool :=
  match i with
  | .atom _ _ _ | .atomAddFloat _ _ _ | .atoms _ _ _ | .atomsAddFloat _ _ _ | .ld _ _ _ | .lds _ _ _ | .ldsCl _ _ _ | .st _ _ _
  | .stNt _ _ _ | .sts _ _ _ | .stsCl _ _ _ => true
  | _ => false
/-- An access to scratchpad. -/
def isScratch (i : Instr) : Bool :=
  match i with
  | .atoms _ _ _ | .atomsAddFloat _ _ _ | .lds _ _ _ | .ldsCl _ _ _ | .sts _ _ _ | .stsCl _ _ _ => true
  | _ => false
/-- A memory request of the core's tracker (01 R17). -/
def isRequest (i : Instr) : Bool :=
  match i with
  | .coll _ _ | .cpy _ _ | .flushr _ _ | .invr _ _ | .ldt _ _ | .ldtTry _ _ | .redeem _ _ | .redeemS _ _ | .ringpop _ _
  | .ringpub _ _ | .ringres _ _ | .tcpy _ _ => true
  | _ => isAccess i && !isScratch i

/-- A release, or another instruction before which every earlier access of its agent is performed (09 R207, R212, R213).
`carried`: it takes up the release of an earlier FENCE. -/
def isRelease (i : Instr) (carried : Bool) : Bool :=
  match i with
  | .bar _ _ | .cbar _ _ | .coll _ _ | .cpy _ _ | .tcpy _ _ | .flushr _ _ | .invr _ _ | .ldt _ _ | .ldtTry _ _
  | .mbarv _ _ | .ringpub _ _ | .sqrun _ _ => true
  | .fence _ f => f.ord != 0
  | .st _ _ f | .sts _ _ f | .stsCl _ _ f => f.ord == 2 || (carried && (f.ord != 0 || f.scope != 0))
  | .atom _ _ f | .atomAddFloat _ _ f | .atoms _ _ f | .atomsAddFloat _ _ f => f.ord == 2 || f.ord == 3 || carried
  | _ => false

end Sys2Proof.Machine
end

