-- ==== Sys2Proof/Machine/Ops.lean ====
section
/-! DEFINITION. The operations every instruction shares: launch-record fields, the frontier, registers and results in
flight, fault records, freeing and aborting, taking a trap and returning from it, and the issue of a SIMT instruction
(02, 03, 04, 10 R230 to R232, 11 R247 to R258). -/

namespace Sys2Proof.Machine

/-! ### Launch records (02 R39) and kernel headers (14 R329) -/

def Grid.fld (g : Grid) (hi lo : Nat) : Nat := bitsN g.record.toNat hi lo
def Grid.kobj (g : Grid) : Nat := g.fld 63 0
def Grid.gx (g : Grid) : Nat := g.fld 95 64
def Grid.gy (g : Grid) : Nat := g.fld 111 96
def Grid.gz (g : Grid) : Nat := g.fld 127 112
def Grid.threads (g : Grid) : Nat := g.fld 143 128
def Grid.clusterSize (g : Grid) : Nat := g.fld 151 144
def Grid.seqctx (g : Grid) : Nat := g.fld 159 152
def Grid.tileInit (g : Grid) : Nat := g.fld 167 160
def Grid.tileMax (g : Grid) : Nat := g.fld 175 168
def Grid.frontier (g : Grid) : Nat := g.fld 183 176
def Grid.callDepth (g : Grid) : Nat := g.fld 191 184
def Grid.scratch (g : Grid) : Nat := g.fld 223 192
def Grid.prio (g : Grid) : Nat := g.fld 225 224
def Grid.tclass (g : Grid) : Nat := g.fld 227 226
def Grid.coRes (g : Grid) : Bool := bitN g.record.toNat 228
def Grid.cmplKind (g : Grid) : Nat := g.fld 230 229
def Grid.cmplScope (g : Grid) : Nat := g.fld 239 232
def Grid.args (g : Grid) : Nat := g.fld 319 256
def Grid.save (g : Grid) : Nat := g.fld 383 320
def Grid.spill (g : Grid) : Nat := g.fld 447 384
def Grid.cmplAddr (g : Grid) : Nat := g.fld 511 448
def Grid.cmplVal (g : Grid) : Nat := g.fld 575 512
def Grid.nWarps (g : Grid) : Nat := cdiv g.threads 32
def Grid.nGroups (g : Grid) : Nat := g.gx * g.gy * g.gz
def Grid.nClusters (g : Grid) : Nat := g.nGroups / g.clusterSize

/-- Fields of the kernel header, eight words (14 R329). -/
def Grid.kfld (g : Grid) (hi lo : Nat) : Nat :=
  bitsN ((g.khdr.reverse.foldl (fun x w => x * 2 ^ 64 + w.toNat) 0)) hi lo
def Grid.kEntry (g : Grid) : Nat := g.kfld 63 0
def Grid.stream (g : Grid) : Nat := g.kfld 127 64
def Grid.streamLen (g : Grid) : Nat := g.kfld 159 128
def Grid.dictSize (g : Grid) : Nat := g.kfld 175 160
def Grid.nEntry (g : Grid) : Nat := g.kfld 191 176
def Grid.dictBase (g : Grid) : Nat := g.kfld 255 192
def Grid.entTab (g : Grid) : Nat := g.kfld 319 256

/-- A group stands still: it is parked (11 R257), or it is being saved (11 R259). -/
def groupHeld (s : State) (gid : Nat) : Bool :=
  let g := s.group gid
  (match g.phase with | .resident => false | _ => true) || g.fids.any fun f => !f.2.2

def State.gridOf (s : State) (gid : Nat) : Grid := s.grid (s.group gid).grid
def State.partOf (s : State) (gid : Nat) : Nat := (s.gridOf gid).part

/-- Bytes that an agent of a group moves count for its grid (02 R45). -/
def State.moved (s : State) (gid n : Nat) : State := s.countBytes (s.group gid).grid n

/-! ### The frontier (03 R60 to R63) -/

/-- The order of R61. -/
def Entry.before (a b : Entry) : Bool :=
  b.depth < a.depth || (a.depth == b.depth && (a.prio.toNat < b.prio.toNat ||
    (a.prio == b.prio && a.pc.toNat < b.pc.toNat)))

/-- Add an entry, merging it with one of the same PC and depth: union of masks, lowest priority (R63). -/
def addEntry : List Entry → Entry → List Entry
  | [], e => [e]
  | x :: t, e =>
    if x.pc == e.pc && x.depth == e.depth then
      { x with mask := x.mask ||| e.mask, prio := if e.prio.toNat < x.prio.toNat then e.prio else x.prio } :: t
    else x :: addEntry t e

def mergeEntries (l : List Entry) : List Entry := l.foldl addEntry []

/-- Insert in the order of R61, before entries that tie. -/
def insertEntry (e : Entry) : List Entry → List Entry
  | [] => [e]
  | x :: t => if x.before e then x :: insertEntry e t else e :: x :: t

def sortEntries (l : List Entry) : List Entry := l.foldr insertEntry []

/-- In handler mode only entries within held.MASK issue and merge (11 R253). -/
def Warp.eligible (w : Warp) (e : Entry) : Bool := !w.hmode || e.mask &&& ~~~w.held.mask == 0

/-- The first entry (R61). -/
def Warp.first (w : Warp) : Option Entry := (sortEntries (w.frontier.filter w.eligible)).head?

/-- The frontier without the first entry and with entries that its issue made, merged (R63). -/
def Warp.replaceFirst (w : Warp) (new : List Entry) : List Entry :=
  match w.first with
  | none => w.frontier
  | some e =>
    let mine := (w.frontier.filter w.eligible).filter fun x => x != e
    let others := w.frontier.filter fun x => !w.eligible x
    sortEntries (mergeEntries (mine ++ new.filter fun x => x.mask != 0) ++ others)

/-- next_pc (R62): eight bytes on, sixteen for a long-literal pair. -/
def nextPc (pc : BitVec 48) (long : Bool) : BitVec 48 := pc + if long then 16 else 8

/-- The first entry advances to next_pc and merges (R62, R63). -/
def Warp.advance (w : Warp) (long : Bool) : Warp :=
  match w.first with
  | none => w
  | some e => { w with frontier := w.replaceFirst [{ e with pc := nextPc e.pc long }] }

/-! ### Registers of a warp -/

/-- Storage of a v register: tile and row (04 R76). -/
def Warp.loc (w : Warp) (n : Nat) : Option (Nat × Nat) :=
  if n < 192 then
    match w.allot[n / 32]? with
    | some t => some (t, n % 32)
    | none => none
  else if n < 224 then (if w.w0.valid then some (w.w0.tile.toNat, n - 192) else none)
  else (if w.w1.valid then some (w.w1.tile.toNat, n - 224) else none)

/-- Word of a tile. -/
def tileKey (tile row lane : Nat) : Nat := 1024 * tile + 32 * row + lane
def Core.tileWord (k : Core) (tile row lane : Nat) : W32 := mget 0 k.tiles (tileKey tile row lane)
def Core.setWord (k : Core) (tile row lane : Nat) (v : W32) : Core :=
  { k with tiles := mset 0 k.tiles (tileKey tile row lane) v }

/-- A result that will write this row of a tile is in flight. -/
def Write.hitsRow (t r : Nat) : Write → Bool
  | .row t' r' _ => t == t' && r == r'
  | .tile t' _ => t == t'
  | _ => false

def Core.rowPending (k : Core) (t r : Nat) : Bool := k.pend.any fun p => p.w.hitsRow t r
def Core.gPending (k : Core) (a : Issuer) (n : Nat) : Bool :=
  k.pend.any fun p => p.agent == a && (match p.w with | .g m _ => m == n | _ => false)
def Core.predPending (k : Core) (a : Issuer) (n : Nat) : Bool :=
  k.pend.any fun p => p.agent == a && (match p.w with | .pred m _ => m == n | _ => false)
def Core.srPending (k : Core) (a : Issuer) (n : Nat) : Bool :=
  k.pend.any fun p => p.agent == a && (match p.w with | .sr m _ => m == n | _ => false)

/-- What an issue is about: core, slot, warp, first entry, active lanes (R62). -/
structure View where
  c : Nat
  w : Nat
  wp : Warp
  e : Entry
  act : W32
  /-- the guard predicate is read before its write has landed: `act` is a free value (02 R51) -/
  early : Bool := false

def View.gid (v : View) : Nat := v.wp.gid
/-- Active real lanes (15 R334). -/
def View.real (v : View) : W32 := v.act &&& v.wp.real
def View.lanes (v : View) : List Nat := lanesOf v.act
def View.realLanes (v : View) : List Nat := lanesOf v.real
def View.me (v : View) : Issuer := .warp v.c v.w
/-- The lowest active real lane (16 R362). -/
def View.lane0 (v : View) : Option Nat := v.realLanes.head?

/-- Lane `j` of v register `n`. A register whose fixed-latency write has not landed reads a free value (02 R51); an
unallocated register, which only a helper lane can read without a trap, reads zero, and a frontier register, for which the same
holds (02 R47, 03 R65), is the row of its tile, apart from the frontier (DESIGN CHOICE, log 8). `op` tells operands apart. -/
def readV (s : State) (v : View) (op n j : Nat) : W32 :=
  match v.wp.loc n with
  | none => 0
  | some (t, r) =>
    let k := s.core v.c
    if k.rowPending t r then lo32 (s.free (op * 65536 + n * 32 + j)) else k.tileWord t r j

/-- A g register (04 R78). -/
def readG (s : State) (v : View) (op n : Nat) : W32 :=
  if (s.core v.c).gPending v.me n then lo32 (s.free (op * 65536 + 16384 + n)) else mget 0 v.wp.g n

/-- Operand A or B: a v register, or a g register when its X bit is set (13 R296). -/
def readR (s : State) (v : View) (op : Nat) (g : Bool) (n j : Nat) : W32 :=
  if g then readG s v op n else readV s v op n j

/-- A register pair, low half first (04 R77). -/
def readR64 (s : State) (v : View) (op : Nat) (g : Bool) (n j : Nat) : W64 :=
  pair (readR s v op g n j) (readR s v op g (n + 1) j)

/-- Mask of a predicate; p7 is true in every lane (04 R79). -/
def predMask (s : State) (c w : Nat) (wp : Warp) (n : Nat) : W32 :=
  if n == 7 then BitVec.allOnes 32
  else if (s.core c).predPending (.warp c w) n then lo32 (s.free (20000 + n)) else mget 0 wp.preds n

/-- First frontier register and the register after the last (02 R47). -/
def Grid.frontierRegs (g : Grid) : Nat × Nat := (32 * g.tileInit - cdiv g.frontier 8, 32 * g.tileInit)

/-! ### Traps: what a check finds (11 R248 to R250) -/

/-- A trap that a check raises: its place in R250, its code, the value of sr.trapinfo, the cause a record names. -/
structure Trap where
  rank : Nat
  code : Nat
  info : W64
  cause : Nat := 8
  deriving DecidableEq, Repr

/-- Places in the order of R250. -/
def rkOperand : Nat := 700
def rkEntry : Nat := 710
def rkCodePtr : Nat := 720
def rkNotOwned : Nat := 800
def rkNotOffered : Nat := 810
def rkGrow : Nat := 820
def rkFrontier : Nat := 900
def rkSpill : Nat := 1000
def rkCanon : Nat := 1100
def rkAlign : Nat := 1110
def rkBounds : Nat := 1120
def rkRevoked : Nat := 1200
def rkXPage : Nat := 1300
def rkXPerm : Nat := 1310
def rkSealed : Nat := 1320
def rkAperture : Nat := 1330
def rkRing : Nat := 1400
def rkTicket : Nat := 1410
def rkOverrun : Nat := 1450
def rkTrap : Nat := 1500

def trapOperand : Trap := ⟨rkOperand, 0x08, 0, 8⟩

/-- The check of one v register: frontier registers are ILLEGAL_OPERAND, others must be in the allotment or in a valid window
(02 R47, 04 R85). -/
def checkV (s : State) (wp : Warp) (n : Nat) : Option Trap :=
  let fr := (s.gridOf wp.gid).frontierRegs
  if fr.1 ≤ n && n < fr.2 then some trapOperand
  else if (wp.loc n).isNone then some ⟨rkNotOwned, 0x10, BitVec.ofNat 64 (0x10000 + n), 8⟩
  else none

/-- The trap that comes first (R250); of equal places the first listed. -/
def firstTrap : List Trap → Option Trap
  | [] => none
  | t :: l => match firstTrap l with
    | none => some t
    | some u => if u.rank < t.rank then some u else some t

/-- The first trap of a list of v registers. -/
def checkVs (s : State) (wp : Warp) (ns : List Nat) : Option Trap := firstTrap (ns.filterMap (checkV s wp))

/-- The trap taken among those of the lanes, with its trapping lanes (R248): the lanes that raise it from the same check. -/
def pickTrap (l : List (Nat × Trap)) : Option (Trap × List (Nat × W64)) :=
  match firstTrap (l.map (·.2)) with
  | none => none
  | some t => some (t, (l.filter fun x => x.2.rank == t.rank && x.2.code == t.code).map fun x => (x.1, x.2.info))

/-! ### Fault records (10 R231, R232) -/

/-- What a fault record says (10 R232). -/
structure FRec where
  source : Nat
  cls : Nat
  code : Nat
  cause : Nat
  va : W64
  level : Nat := 0xFF
  info : Nat := 0
  access : Nat := 0
  agent : Nat := 0x7F
  core : Nat := 0xFFFF
  group : Nat := 0xFFFFFFFF
  kobj : Nat := 0

/-- The 512 bits of a record. -/
def FRec.bits (r : FRec) (fid : BitVec 32) (time : W64) : BitVec 512 :=
  BitVec.ofNat 512 (r.va.toNat + r.info % 2 ^ 56 * 2 ^ 64 + r.cause % 256 * 2 ^ 120 + r.kobj % 2 ^ 64 * 2 ^ 128 +
    r.group % 2 ^ 32 * 2 ^ 192 + r.code % 256 * 2 ^ 224 + r.cls % 256 * 2 ^ 232 + r.source % 256 * 2 ^ 240 +
    r.access % 256 * 2 ^ 248 + r.core % 2 ^ 16 * 2 ^ 256 + r.agent % 256 * 2 ^ 272 + r.level % 256 * 2 ^ 280 +
    fid.toNat * 2 ^ 288 + time.toNat * 2 ^ 320)

/-- A virtual address of resident device memory that is not storage-backed (10 R231, R234). -/
def residentPlain (s : State) (n va : Nat) : Bool :=
  va < 2 ^ 48 &&
  match walk s n va with
  | .ok _ _ pa _ leaf _ => !leaf.getLsbD 54 && (match regionOf pa with | .mem => true | _ => false)
  | _ => false

/-- Every 4 KiB page of a range is such memory. -/
def plainRange (s : State) (n va len : Nat) : Bool :=
  (List.range ((va + len - 1) / 4096 + 1 - va / 4096)).all fun i => residentPlain s n ((va / 4096 + i) * 4096)

/-- The state array and the slots of a ring lie in such memory. -/
def ringPlain (s : State) (n : Nat) (h : RingHdr) : Bool :=
  plainRange s n h.stateBase (2 ^ h.log2n) && plainRange s n h.slotBase (2 ^ (h.log2n + h.log2sz))

/-- The fault ring can take records: its header obeys R36 and R231 and lies, with its state array and slots, in resident
pages that are not storage-backed. -/
def fltRingOk (s : State) (n : Nat) : Bool :=
  let hdr := (s.part n).fltring.toNat
  residentPlain s n hdr &&
  match (ringOpen s n hdr).1 with
  | .error _ => false
  | .ok (h, _) => h.kind == 2 && h.notify == 2 && h.log2sz == 6 && ringPlain s n h

/-- Write a record into the fault ring: a reservation, the bytes, a publication. `none`: the ring is full or refuses. -/
def putRecord (s : State) (n : Nat) (r : BitVec 512) : Option State :=
  let hdr := (s.part n).fltring.toNat
  match ringReserve s n hdr with
  | (.error _, _) => none
  | (.ok (k, h), s) =>
    match xlateUnit s n (h.slotVa k) .w with
    | (.ok pa _ _, s) =>
      match ringPublish (s.wrBytes pa (leBytes 64 r.toNat)) n hdr k with
      | (.ok _, s) => some s
      | (.error _, _) => none
    | _ => none

def countDrop (s : State) (n : Nat) : State := s.modPart n fun p => { p with fltstat := p.fltstat + 1 }

/-- FAULT_RECORD_POST of a record that parks nothing: dropped and counted when the ring cannot take it (10 R231). -/
def postRecord (s : State) (n : Nat) (r : FRec) : State :=
  if !fltRingOk s n then countDrop s n
  else match putRecord s n (r.bits 0 s.devtime) with
    | some s => s
    | none => countDrop s n

/-- The FID counter after a use: 2³² − 1 returns to 1 (10 R232). -/
def nextFid (f : BitVec 32) : BitVec 32 := if f == BitVec.allOnes 32 then 1 else f + 1

/-- FAULT_RECORD_POST of a record that parks a group: its fresh FID, or `none` when the record is dropped because the ring
is not usable; a record that finds the ring full waits for a slot (10 R231). -/
def postParking (s : State) (n : Nat) (r : FRec) : Option (BitVec 32) × State :=
  if !fltRingOk s n then (none, countDrop s n)
  else
    let fid := (s.part n).fid
    let s := s.modPart n fun p => { p with fid := nextFid fid }
    let b := r.bits fid s.devtime
    match putRecord s n b with
    | some s => (some fid, s)
    | none => (some fid, { s with recWaits := s.recWaits ++ [(n, b)] })

/-! ### Results in flight -/

/-- Pending writes to a tile (04 R86): results in flight, variable operations that write it, snapshots of frozen contexts. The rows of
one operation are one pending write: 08 R188 says so of REDEEM and 19 R455 shows it for MOV.b64; for the others it is this
model's choice (DESIGN CHOICE, log 53). -/
def State.pendTo (s : State) (c tile : Nat) : Nat :=
  let hits := fun w => match w with | Write.row t _ _ => t == tile | Write.tile t _ => t == tile | _ => false
  let count := fun (l : List Pend) => ((l.filter fun p => hits p.w).map (·.seq)).eraseDups.length
  count (s.core c).pend + ((s.core c).vars.filter fun v => v.tiles.contains tile).length +
  sumOf ((List.range 4).map fun k => count (s.ctx c k).snapshot)

def Core.owner (k : Core) (t : Nat) : Owner := mget {} k.owners t
def Core.setOwner (k : Core) (t : Nat) (o : Owner) : Core := { k with owners := mset {} k.owners t o }

/-- Agent number (04 R83). -/
def agentNo : Issuer → Nat
  | .warp _ w => w
  | .ctx _ k => 0x40 + k
  | .none => 0x7F
def coreOf : Issuer → Nat
  | .warp c _ => c
  | .ctx c _ => c
  | .none => 0

/-- An agent owns a traded tile (04 R85). A tile that GIVE.free has given stays its owner's until it is FREE (04 R87). -/
def Core.owns (k : Core) (a : Issuer) (t : Nat) : Bool :=
  let o := k.owner t
  o.owner == agentNo a &&
    (match a with | .warp _ _ => o.st == .warp | .ctx _ _ => o.st == .seq | .none => false)

/-- The words of a tile become zero. -/
def Core.clearTile (k : Core) (t : Nat) : Core := { k with tiles := k.tiles.filter fun kv => kv.1 / 1024 != t }

/-- Write bytes of a group's scratchpad; a chunk covered whole loses its poison (07 R161). -/
def State.scrWrite (s : State) (gid o : Nat) (bs : List Byte) : State :=
  let cov := coveredChunks (cellsAt o bs)
  let s := s.modGroup gid fun g => { g with scratch := (cellsAt o bs).foldl (fun m ab => mset 0 m ab.1 ab.2) g.scratch }
  { s with poison := s.poison.filter fun p => match p with | .scratch g k => !(g == gid && cov.contains k) | _ => true }

/-- A write of all sixteen words of a chunk of a tile clears its poison (07 R161). Chunk `2 r + h` is half `h` of row `r`. -/
def State.tileClean (s : State) (c t r : Nat) (lanes : List Nat) : State :=
  let half := fun (h : Nat) => (List.range 16).all fun i => lanes.contains (16 * h + i)
  { s with poison := s.poison.filter fun p => match p with
      | .tile c' t' k => !(c' == c && t' == t && k / 2 == r && half (k % 2))
      | _ => true }

/-- A tile that is cleared has no poison (07 R161). -/
def State.cleanTile (s : State) (c t : Nat) : State := s.delPoison fun p => match p with | .tile c' t' _ => c' == c && t' == t | _ => false

/-- Where a result lands. -/
def State.land (s : State) (a : Issuer) (w : Write) : State :=
  let c := coreOf a
  match w with
  | .row t r vals =>
    (s.modCore c fun k => vals.foldl (fun k jv => k.setWord t r jv.1 jv.2) k).tileClean c t r (vals.map (·.1))
  | .tile t words =>
    let s := s.modCore c fun k =>
      ((List.range 1024).zip words).foldl (fun k iw => { k with tiles := mset 0 k.tiles (1024 * t + iw.1) iw.2 }) k
    { s with poison := s.poison.filter fun p => match p with | .tile c' t' _ => !(c' == c && t' == t) | _ => true }
  | .g n v => match a with
    | .warp c w => s.modWarp c w fun x => { x with g := mset 0 x.g n v }
    | _ => s
  | .pred n vals => match a with
    | .warp c w => if n == 7 then s else s.modWarp c w fun x =>
        let m := vals.foldl (fun m jb => if jb.2 then m ||| BitVec.twoPow 32 jb.1 else m &&& ~~~BitVec.twoPow 32 jb.1)
          (mget 0 x.preds n)
        { x with preds := mset 0 x.preds n m }
    | _ => s
  | .sr n vals => match a with
    | .warp c w => s.modWarp c w fun x =>
        if n == 0x20 then { x with trapcode := ((vals.head?.map (·.2)).map lo32).getD x.trapcode }
        else if n == 0x22 then { x with trappc := (vals.head?.map (·.2)).getD x.trappc }
        else { x with trapinfo := vals.foldl (fun m jv => mset 0 m jv.1 jv.2) x.trapinfo }
    | _ => s
  | .a n v => match a with
    | .ctx c k => s.modCtx c k fun x => { x with a := mset 0 x.a n v }
    | _ => s
  | .hnd n v => match a with
    | .ctx c k => s.modCtx c k fun x => { x with h := mset {} x.h n v }
    | _ => s
  | .lnset l x => match a with
    | .ctx c k => s.modCtx c k fun y => { y with shadow := mput y.shadow l x }
    | _ => s
  | .hrel n => match a with
    | .ctx c k => s.modCtx c k fun x => { x with h := mset {} x.h n { mget {} x.h n with v := false } }
    | _ => s
  | .scratch gid o bs bad =>
    let s := s.scrWrite gid o bs
    if bad.isEmpty then s else { s with poison := s.poison ++ bad.map fun k => ErrLoc.scratch gid k }

/-- The name of a 16-byte unit of a group's scratchpad among destinations. -/
def scrUnit (gid u : Nat) : Nat := 2 ^ 40 * (gid + 1) + u

/-- The units of a range. -/
def scrUnits (gid o len : Nat) : List (Bool × Nat) :=
  (List.range ((o + len + 15) / 16 - o / 16)).map fun i => (false, scrUnit gid (o / 16 + i))

/-- Destinations that a write names: true for g, a, predicate, special and handle registers, false for rows of tiles and for units of
scratchpad. -/
def Write.regsOf (s : State) (a : Issuer) : Write → List (Bool × Nat)
  | .g n _ => [(true, n)]
  | .a n _ => [(true, n)]
  | .hnd n _ => [(true, 64 + n)]
  | .pred n _ => [(true, 256 + n)]
  | .sr n _ => [(true, 512 + n)]
  | .row t r _ => match a with
    | .warp c w => (((List.range 256).find? fun n => (s.warp c w).loc n == some (t, r)).map fun n => (false, n)).toList
    | _ => [(false, 1024 * t + r)]
  | .tile t _ => (List.range 32).map fun r => (false, 1024 * t + r)
  | .lnset l _ => [(true, 128 + l)]
  | .hrel n => [(true, 64 + n)]
  | .scratch gid o bs _ => scrUnits gid o bs.length

/-- The same write with free values (02 R51, 05 R96); of scratchpad bytes, those of the units that `clash` names. -/
def Write.freed (s : State) (tag : Nat) (clash : List (Bool × Nat)) : Write → Write
  | .row t r vals => .row t r (vals.map fun jv => (jv.1, lo32 (s.free (tag + jv.1))))
  | .g n _ => .g n (lo32 (s.free tag))
  | .pred n vals => .pred n (vals.map fun jv => (jv.1, (s.free (tag + jv.1)).getLsbD 0))
  | .a n _ => .a n (s.free tag)
  | .hnd n h => .hnd n { h with v := (s.free tag).getLsbD 0 && h.v }
  | .tile t ws => .tile t ((List.range ws.length).map fun i => lo32 (s.free (tag + i)))
  | .scratch gi o bs bad => .scratch gi o (((List.range bs.length).zip bs).map fun ib =>
      if clash.contains (false, scrUnit gi ((o + ib.1) / 16)) then (s.free (tag + ib.1)).extractLsb' 0 8 else ib.2) bad
  | .sr n vals => .sr n (vals.map fun jv => (jv.1, s.free (tag + jv.1)))
  | .lnset l x => .lnset l { x with trip := lo32 (s.free tag) }
  | .hrel n => .hrel n

/-- Registers that an agent's outstanding variable operations write. -/
def Core.varRegs (k : Core) (a : Issuer) : List (Bool × Nat) :=
  (k.vars.filter fun v => v.agent == a).flatMap (·.regs)

/-- A register written while a variable result for it is outstanding ends free: the operation is marked (02 R51, 05 R96). -/
def State.markClash (s : State) (a : Issuer) (rs : List (Bool × Nat)) : State :=
  let mark := fun (v : VarOp) =>
    if v.agent == a && v.regs.any rs.contains then { v with clash := v.clash ++ rs.filter v.regs.contains } else v
  s.modCore (coreOf a) fun k => { k with vars := k.vars.map mark }

/-- Issue a fixed-latency result under an issue number: it is written at `due` (02 R51, 05 R96). -/
def State.laterAt (s : State) (a : Issuer) (due seq : Nat) (w : Write) : State :=
  let c := coreOf a
  let vr := (s.core c).varRegs a
  let rs := (w.regsOf s a).filter vr.contains
  let w' := if rs.isEmpty then w else w.freed s (40000 + 64 * (s.core c).pend.length) rs
  let s := if rs.isEmpty then s else s.markClash a rs
  s.modCore c fun k => { k with pend := k.pend ++ [⟨a, due, seq, w'⟩] }
def State.later (s : State) (a : Issuer) (due : Nat) (w : Write) : State := (s.laterAt a due s.nextId w).bump

/-- The results of one instruction: they share an issue number, so that the rows of a tile among them are one pending write
(04 R86; DESIGN CHOICE, log 53). -/
def State.laterAll (s : State) (a : Issuer) (due : Nat) (ws : List Write) : State :=
  (ws.foldl (fun x w => x.laterAt a due s.nextId w) s).bump

/-- Token counts (02 R50). -/
def Warp.tok (w : Warp) (t : Nat) : Nat := mget 0 w.tokens t
def Warp.addTok (w : Warp) (t : Nat) : Warp := { w with tokens := mset 0 w.tokens t (w.tok t + 1) }
def Warp.subTok (w : Warp) (t : Nat) : Warp := { w with tokens := mset 0 w.tokens t (w.tok t - 1) }
def Ctx.tok (w : Ctx) (t : Nat) : Nat := mget 0 w.tokens t
def Ctx.addTok (w : Ctx) (t : Nat) : Ctx := { w with tokens := mset 0 w.tokens t (w.tok t + 1) }
def Ctx.subTok (w : Ctx) (t : Nat) : Ctx := { w with tokens := mset 0 w.tokens t (w.tok t - 1) }
def State.addTok (s : State) (a : Issuer) (t : Nat) : State :=
  match a with
  | .warp c w => s.modWarp c w (·.addTok t)
  | .ctx c k => s.modCtx c k (·.addTok t)
  | .none => s
/-- A token falls; a warp whose WAITK is satisfied moves on (18 R452). -/
def Warp.wakeK (w : Warp) : Warp :=
  match w.wait with
  | .waitk m => if (List.range 8).all fun i => !m.getLsbD i || w.tok i == 0 then { w.advance false with wait := .none } else w
  | _ => w
def State.subTok (s : State) (a : Issuer) (t : Nat) : State :=
  match a with
  | .warp c w => s.modWarp c w fun x => (x.subTok t).wakeK
  | .ctx c k => s.modCtx c k (·.subTok t)
  | .none => s

/-- Registers and tiles that a list of writes names. -/
def writeRegs (s : State) (a : Issuer) (ws : List Write) : List (Bool × Nat) := ws.flatMap (Write.regsOf s a)
def writeTiles (ws : List Write) : List Nat := ws.filterMap fun w => match w with
  | .row t _ _ => some t
  | .tile t _ => some t
  | _ => none

/-- Issue a variable-latency operation: its token rises, its end stands to happen (02 R50). -/
def State.issueVar (s : State) (a : Issuer) (tok : Nat) (regs : List (Bool × Nat)) (tiles : List Nat) (body : VarBody)
    (done : Bool := true) (load : Bool := false) : State :=
  let c := coreOf a
  let id := s.nextId
  let clash := regs.filter ((s.core c).varRegs a).contains
  let s := if clash.isEmpty then s else s.markClash a clash
  let pendClash := regs.filter fun r => (s.core c).pend.any fun p => p.agent == a && (p.w.regsOf s a).contains r
  let s := (s.addTok a tok).modCore c fun k => { k with vars := k.vars ++
    [{ id := id, agent := a, tok := tok, issued := s.now, seq := id, regs := regs, tiles := tiles,
       clash := clash ++ pendClash, body := body, load := load }] }
  let s := s.bump
  if done then s.push (.variableResultDone c id) else s

/-! ### Freeing and aborting (02 R57, 10 R230, 04 R87) -/

/-- Agents of a group. -/
def State.agentsOf (s : State) (gid : Nat) : List Issuer :=
  let g := s.group gid
  g.slots.map (Issuer.warp g.core) ++ g.ctxs.map (Issuer.ctx g.core)

/-- A scratchpad store that an agent issued before an issue number has not landed. -/
def State.storesBefore (s : State) (a : Issuer) (seq : Nat) : Bool :=
  let old := fun (p : Pend) => p.agent == a && p.seq < seq && (match p.w with | .scratch _ _ _ _ => true | _ => false)
  (s.core (coreOf a)).pend.any old || (match a with | .ctx c k => (s.ctx c k).snapshot.any old | _ => false)

/-- The REDEEMs and TKDROPs of agents are withdrawn from their slices without changing an entry (08 R194). -/
def State.withdraw (s : State) (mine : List Issuer) : State :=
  let ids := (s.tkreqs.filter fun r => mine.contains r.2.agent).map (·.1)
  { s with
    tkreqs := s.tkreqs.filter fun r => !mine.contains r.2.agent
    tickets := mmap (fun _ t => { t with waiters := t.waiters.filter fun i => !ids.contains i }) s.tickets }

/-- Records that wait for a slot of the fault ring although their group is parked no longer are dropped and counted (10 R231). -/
def State.dropRecs (s : State) (n : Nat) (fids : List (BitVec 32)) : State :=
  let out := fun (x : Nat × BitVec 512) => x.1 == n && fids.contains (x.2.extractLsb' 288 32)
  let k := (s.recWaits.filter out).length
  if k == 0 then s
  else { s.modPart n fun p => { p with fltstat := p.fltstat + BitVec.ofNat 32 k } with recWaits := s.recWaits.filter fun x => !out x }

/-- An agent leaves its core's queue for tiles. -/
def State.leaveQueue (s : State) (a : Issuer) : State :=
  s.modCore (coreOf a) fun k => { k with queue := k.queue.filter fun q => q.1 != a }

/-- A traded tile becomes FREE once PEND is 0 (04 R87). -/
def State.freeTile (s : State) (c t : Nat) : State :=
  if s.pendTo c t = 0 then s.modCore c fun k => k.setOwner t {}
  else s.modCore c fun k => k.setOwner t { k.owner t with dying := true }

/-- The core frees a group's warp slots, tiles, contexts, scratchpad, queue entries and operations (02 R57). Results in
flight to traded tiles still land; those to registers go with the warp. -/
def State.freeGroup (s : State) (gid : Nat) : State :=
  let g := s.group gid
  let c := g.core
  let mine := s.agentsOf gid
  let resident := match g.phase with | .saved _ => false | .gone => false | _ => true
  let snaps := g.ctxs.flatMap fun k => (s.ctx c k).snapshot.map fun x => { x with due := s.now + x.due }
  let keepP := fun (p : Pend) => !mine.contains p.agent || (match p.w with
    | .row t _ _ => 256 ≤ t
    | .tile t _ => 256 ≤ t
    | _ => false)
  let traded := ((s.core c).owners.filter fun o => 256 ≤ o.1 && o.2.gid == gid && o.2.st != .free).map (·.1)
  let allot := if resident then g.slots.flatMap fun w => (s.warp c w).allot else []
  let s := if resident then
      s.modCore c fun k => { k with
        pend := (k.pend ++ snaps).filter keepP
        vars := k.vars.filter fun v => !mine.contains v.agent
        queue := k.queue.filter fun q => !mine.contains q.1
        copies := k.copies.filter fun x => x.gid != gid }
    else s
  let s := traded.foldl (fun s t => s.freeTile c t) s
  let s := allot.foldl (fun s t => s.modCore c fun k => k.setOwner t {}) s
  let s := if resident then g.ctxs.foldl (fun s k => s.delCtx c k) (g.slots.foldl (fun s w => s.delWarp c w) s) else s
  let s := (if resident then s.withdraw mine else s).dropRecs (s.partOf gid) (g.fids.map (·.1))
  let s := { s with
    ldtWaits := s.ldtWaits.filter fun x => ((s.core x.core).vars.any fun v => v.id == x.id)
    ringWaits := if resident then s.ringWaits.filter fun r => !mine.contains r.agent else s.ringWaits
    colls := if resident then s.colls.filter fun x => !mine.contains x.agent else s.colls
    groups := mput s.groups gid { g with phase := .gone, scratch := [], fids := [], bar := [], cbar := false, ready := false } }
  let alone := s.groups.all fun x => x.2.core != c || x.2.phase == .gone || (match x.2.phase with | .saved _ => true | _ => false)
  let s := if alone then s.modCore c fun k => { k with split := 524288 } else s
  ((s.push (.growGrant c)).push (.takeNewGrant c))

/-- The launch rings of a partition that have a record to place, in the order of their turn (02 R42). -/
def Part.turn (p : Part) : List Nat :=
  ((List.range 4).map fun i => (p.nextRing + i) % 4).filter fun r => (mget? p.placing r).isSome
/-- Rings of a partition whose clusters may now find room. -/
def State.retryPlacement (s : State) (n : Nat) : State :=
  (s.part n).turn.foldl (fun s r => s.push (.placeCluster n r)) s

/-- GRID_ABORT (10 R230): every group of the grid is freed and the completion action reports ABORTED. `act`: a partition
reset performs no completion action (12 R280). -/
def State.abortGrid (s : State) (g : Nat) (act : Bool := true) : State :=
  match mget? s.grids g with
  | none => s
  | some gr =>
    if gr.aborted || gr.done then s
    else
      let gids := (s.groups.filter fun x => x.2.grid == g && x.2.phase != .gone).map (·.1)
      let s := gids.foldl (fun s gid => s.freeGroup gid) s
      let s := s.modGrid g fun x => { x with aborted := true, status := 4 }
      let s := if act then s.push (.completionAction g) else s
      s.retryPlacement gr.part

/-- A class-3 outcome: the grid is aborted and a record is posted (10 R230). -/
def State.fatalGrid (s : State) (gid : Nat) (r : FRec) : State :=
  let g := (s.group gid).grid
  let n := (s.grid g).part
  (postRecord s n r).abortGrid g

/-- The fields of a record about an agent of a group. -/
def agentRec (s : State) (gid : Nat) (a : Issuer) (cls code cause : Nat) (va : W64) : FRec where
  source := match a with | .ctx _ _ => 1 | _ => 0
  cls := cls
  code := code
  cause := cause
  va := va
  agent := agentNo a
  core := (s.group gid).core
  group := (s.group gid).number
  kobj := (s.gridOf gid).kobj

/-! ### Taking a trap and returning from it (11 R252 to R258) -/

/-- A record parks the group, or the grid is aborted where the record is dropped (10 R231, 11 R257). -/
def State.parkGroup (s : State) (gid : Nat) (r : FRec) (res : Resume) : State :=
  match postParking s (s.partOf gid) r with
  | (none, s) => s.abortGrid (s.group gid).grid
  | (some fid, s) => s.modGroup gid fun g => { g with fids := g.fids ++ [(fid, res, false)] }

/-- Codes whose RESUME continues at the next instruction (11 R249). -/
def skipCode (code : Nat) : Bool := code == 0x33 || code == 0x40 || code == 0x41

/-- The trap registers (R252): code and pc uniform, info in the trapping lanes and zero elsewhere. -/
def Warp.setTrap (w : Warp) (e : Entry) (code : Nat) (infos : List (Nat × W64)) : Warp :=
  { w with trapcode := BitVec.ofNat 32 code, trappc := e.pc.setWidth 64,
           trapinfo := infos.foldl (fun m ji => mset 0 m ji.1 ji.2) [] }

/-- Of two results of one cycle the later issued stands. -/
def Pend.before (p q : Pend) : Bool := p.due < q.due || (p.due == q.due && p.seq < q.seq)
def insertPend (p : Pend) : List Pend → List Pend
  | [] => [p]
  | q :: t => if p.before q then p :: q :: t else q :: insertPend p t

/-- Every earlier instruction of a warp that traps takes its full effect (R247): its writes of special registers land before the
trap registers are set, and no instruction of it issues before its other results in flight have landed. -/
def State.landBeforeTrap (s : State) (c w : Nat) : State :=
  let mine := fun (p : Pend) => p.agent == Issuer.warp c w
  let isSr := fun (p : Pend) => match p.w with | .sr _ _ => true | _ => false
  let ps := ((s.core c).pend.filter fun p => mine p && isSr p).foldr insertPend []
  let last := ((s.core c).pend.filter mine).foldl (fun m p => max m p.due) 0
  let s := ps.foldl (fun s p => s.land p.agent p.w) (s.modCore c fun k => { k with pend := k.pend.filter fun p => !(mine p && isSr p) })
  s.modWarp c w fun x => { x with nextIssue := max x.nextIssue last }

/-- The entry into the handler (R252): the first entry is held, and its lanes stand at the handler. -/
def Warp.enterHandler (w : Warp) (e : Entry) (traph : W64) : Warp :=
  { w with
    held := e
    hmode := true
    frontier := sortEntries ((w.frontier.filter fun x => x != e) ++
      [{ pc := BitVec.ofNat 48 (bitsN traph.toNat 47 3 * 8), prio := traph.extractLsb' 48 16, mask := e.mask, depth := e.depth }]) }

/-- TAKING A TRAP in a warp (11 R252, R256, R257): in handler mode the grid is aborted; with TRAPH.EN the handler is entered;
without a handler the group parks with a record. `infos` are the trapping lanes in rising order with their details. -/
def takeTrap (s : State) (c w : Nat) (code cause : Nat) (infos : List (Nat × W64)) (level : Nat := 0xFF) (einfo : Nat := 0)
    (access : Nat := 0) : State :=
  let s := s.landBeforeTrap c w
  let wp := s.warp c w
  match wp.first with
  | none => s
  | some e =>
    let gid := wp.gid
    let n := s.partOf gid
    let va := (infos.head?.map (·.2)).getD 0
    let traph := (s.part n).traph
    let rec0 := { agentRec s gid (.warp c w) 2 code cause va with level := level, info := einfo, access := access }
    if wp.hmode then s.fatalGrid gid { rec0 with cls := 3, cause := 8 }
    else
      let s1 := s.setWarp c w { (wp.setTrap e code infos) with wait := .none, waitCount := 0 }
      if traph.getLsbD 0 then s1.modWarp c w fun x => x.enterHandler e traph
      else s1.parkGroup gid rec0 (.warp w (skipCode code))

/-- A context trap (11 R258): TRAPPED; a walk's PAGE_FAULT or PERMISSION also parks the group. -/
def takeCtxTrap (s : State) (c k : Nat) (code : Nat) (walkF : Option XFault) (va : W64) (xretry : Bool := false) : State :=
  let gid := (s.ctx c k).gid
  let s := (s.withdraw [.ctx c k]).leaveQueue (.ctx c k)
  let s := s.modCtx c k fun x => { x with state := .trapped, trapcode := BitVec.ofNat 8 code, xretry := xretry, quantum := 0,
                                          wait := .none }
  match walkF with
  | some f => s.parkGroup gid { agentRec s gid (.ctx c k) 2 code f.cause va with level := f.level, info := f.entry.toNat }
      (.ctx k)
  | none => s.push (.groupRetire gid)

/-! ### The issue of a SIMT instruction -/

/-- How the first entry moves when an instruction has been performed. -/
inductive Adv where
  | next     -- to next_pc (03 R62)
  | moved    -- the instruction has updated the frontier
  | hold     -- a blocking instruction: the pc stays until it completes
  deriving DecidableEq, Repr

/-- What a meaning answers. -/
inductive Res where
  | ok (s : State) (a : Adv)
  | trap (s : State) (code cause : Nat) (infos : List (Nat × W64)) (level einfo access : Nat)
  | page (s : State) (va : W64)
  | fatal (s : State) (f : XFault) (va : W64) (access : Nat)

/-- The trap of a check, for lanes that all raise it. -/
def Res.of (s : State) (t : Trap) (lanes : List Nat) : Res := .trap s t.code t.cause (lanes.map fun j => (j, t.info)) 0xFF 0 0

def ctlG (h : Hdr) : Nat := (h.ctl.extractLsb' 12 3).toNat
def ctlS (h : Hdr) : Bool := h.ctl.getLsbD 15
def ctlY (h : Hdr) : Bool := h.ctl.getLsbD 11
def ctlMU (h : Hdr) : Bool := h.ctl.getLsbD 10
def ctlWait (h : Hdr) : BitVec 8 := h.ctl.extractLsb' 0 8

/-- What follows when a warp's frontier may have become empty (03 R60, 02 R57, 15 R341, R352). -/
def State.afterMove (s : State) (c w : Nat) : State :=
  match s.warp? c w with
  | none => s
  | some wp =>
    if wp.frontier.isEmpty then
      ((s.push (.barComplete wp.gid)).push (.cbarComplete (s.group wp.gid).cluster)).push (.groupRetire wp.gid)
    else s

/-- The control field (02 R49): gap and Y set the earliest next issue, S parks the warp until its variable results are in. -/
def Warp.applyCtl (w : Warp) (h : Hdr) (now : Nat) : Warp :=
  { w with nextIssue := now + 1 + max (ctlG h) (if ctlY h then 1 else 0), parkS := ctlS h, waitCount := 0 }

/-- The end of an issue: the entry moves (03 R62, R63) and the control field acts (02 R49). -/
def finishIssue (c w : Nat) (h : Hdr) (long : Bool) (a : Adv) (s : State) : State :=
  let s := s.modWarp c w fun x =>
    let x := match a with | .next => x.advance long | _ => x
    x.applyCtl h s.now
  (s.afterMove c w).useFree

/-- What becomes of an issue: effect, trap, page wait (10 R243) or abort (10 R230). -/
def endIssue (c w : Nat) (h : Hdr) (long : Bool) : Res → State
  | .ok s a => finishIssue c w h long a s
  | .trap s code cause infos level einfo access => (takeTrap s c w code cause infos level einfo access).useFree
  | .page s va =>
    let s := s.modWarp c w fun x => { x with wait := .page }
    (s.push (.pagerRequest (s.partOf (s.warp c w).gid) va (.warp c w))).useFree
  | .fatal s f va access =>
    let gid := (s.warp c w).gid
    (s.fatalGrid gid { agentRec s gid (.warp c w) 3 f.code f.cause (f.recVa va) with
      level := f.level, info := f.recInfo, access := access }).useFree

/-- Operations of group 111 (13 R313). -/
def seqOnly : Instr → Bool
  | .mma _ _ | .mmaSp _ _ | .mmal _ _ | .mmalSp _ _ | .tfmas _ _ | .tmax _ _ | .tcvt _ _ | .tzero _ _
  | .tld _ _ | .tst _ _ | .tgld _ _ | .tgst _ _ | .txp _ _ | .sbr _ _ | .lnset _ _ | .lngo _ _ | .xlt _ _ | .hrel _ _ => true
  | _ => false

/-- Lanes in which a predicate field passes (13 R297). -/
def predLanes (s : State) (c w : Nat) (wp : Warp) (h : Hdr) : W32 :=
  let m := predMask s c w wp h.pn.toNat
  if h.pneg then ~~~m else m

/-- The view of an issue. -/
def viewOf (s : State) (c w : Nat) (wp : Warp) (e : Entry) (h : Hdr) : View :=
  { c := c, w := w, wp := wp, e := e, act := e.mask &&& predLanes s c w wp h
    early := h.pn != 7 && (s.core c).predPending (.warp c w) h.pn.toNat }

/-- The traps that depend only on the word (13 R299, R460), in the order of R250. -/
def wordTrap (h : Hdr) (i : Instr) : Option Nat :=
  if ctlMU h then some 0x03
  else if !i.assigned then some 0x01
  else if seqOnly i then some 0x02
  else if !i.wfWarp then some 0x08
  else none

abbrev Out3 := Host.Outcome State Fault Refusal

/-- A check of v registers, made for an instruction whose lanes act; helper lanes raise no trap (13 R460, 02 R33). Where helper lanes
alone are active the instruction goes on: it reads and writes a frontier register's tile row, and an unallocated register reads zero
and is not written (DESIGN CHOICE, log 8). Where the guard predicate is read too early, whether a real lane acts is a free value, and no
trap may depend on it (00 R12). -/
def guardV (regs : List Nat) (body : View → State → Res) (v : View) (s : State) : Res :=
  if v.real == 0 || v.early then body v s
  else match checkVs s v.wp regs with
    | some t => Res.of s t v.realLanes
    | none => body v s

/-- A per-lane result written to `k` v registers from `d` after `lat` cycles. -/
def rowWrites (v : View) (d k : Nat) (f : Nat → List W32) : List Write :=
  (List.range k).filterMap fun i =>
    match v.wp.loc (d + i) with
    | none => none
    | some (t, r) => some (.row t r (v.lanes.map fun j => (j, nth 0 (f j) i)))

/-- The guard predicate, or a register that an instruction reads, has a fixed-latency write that has not landed (02 R51). -/
def earlyRead (s : State) (v : View) (u : Uses) : Bool :=
  let k := s.core v.c
  v.early || (u.trappc && k.srPending v.me 0x22) || u.g.any (k.gPending v.me) ||
  u.v.any fun n => match v.wp.loc n with | some (t, r) => k.rowPending t r | none => false
/-- An early read by an instruction whose effect reaches beyond registers. -/
def earlyUses (s : State) (v : View) (i : Instr) : Option Uses :=
  match instrUses i with
  | none => none
  | some u => if earlyRead s v u then some u else none

/-- AN INSTRUCTION THAT READS TOO EARLY (02 R51, 00 R12): its destination registers get free values, nothing else is written, no trap
depends on the values that it has read, and the warp goes on. -/
def earlyBody (u : Uses) (i : Instr) (v : View) (s : State) : Res :=
  guardV (u.v ++ u.dv) (fun v s =>
    if v.act == 0 then .ok s .next
    else
      let ws := (u.dv.flatMap fun d => rowWrites v d 1 fun j => [lo32 (s.free (700000 + 64 * d + j))]) ++
        (if v.real == 0 then [] else u.dg.map fun d => Write.g d (lo32 (s.free (720000 + d))))
      match instrTok i with
      | some t => .ok (s.issueVar v.me t (writeRegs s v.me ws) (writeTiles ws) (.results ws)) .next
      | none => .ok (s.laterAll v.me (s.now + 4) ws) .next) v s

/-- What would act on the warp or the grid is suppressed where helper lanes alone are active (02 R33, 11 R247): a trap, a page wait, an
abort. The manual does not say what becomes of an instruction that cannot do its work then, a BRX, CALL or RET that overflows or whose
frame fails, or an ERET: the model lets its lanes go on to next_pc without effect (DESIGN CHOICE, log 57). -/
def helperOnly (v : View) (s : State) (r : Res) : Res :=
  if v.real != 0 then r
  else match r with
    | .ok s a => .ok s a
    | _ => .ok s .next

/-- THE ISSUE OF A SIMT INSTRUCTION by the warp that `cur` names: word traps, the meaning, the end. A warp that issues no longer
ranks as the youngest (18 R438). -/
def runWarp (h : Hdr) (i : Instr) (body : View → State → Res) (s : State) : Out3 :=
  match s.cur with
  | .warp c w =>
    match s.warp? c w with
    | none => .fault .noIssuer
    | some wp0 =>
      match wp0.first with
      | none => .fault .noIssuer
      | some e =>
        let wp := { wp0 with young := false }
        let s := s.setWarp c w wp
        match wordTrap h i with
        | some code => .next (takeTrap s c w code 8 ((lanesOf e.mask).map fun j => (j, 0))).useFree
        | none =>
          let v := viewOf s c w wp e h
          .next (endIssue c w h i.long (helperOnly v s (match earlyUses s v i with | some u => earlyBody u i v s | none => body v s)))
  | _ => .fault .noIssuer

/-- The meaning of an instruction that acts once for the warp: nothing without an active real lane (15 R334). -/
def onceWarp (body : View → State → Res) (v : View) (s : State) : Res :=
  if v.real == 0 then .ok s .next else body v s

/-- A fixed-latency operation on v registers. -/
def vecOp (srcs : List Nat) (d k lat : Nat) (f : State → View → Nat → List W32) : View → State → Res :=
  guardV (srcs ++ runRegs d k) fun v s =>
    if v.act == 0 then .ok s .next
    else .ok (s.laterAll v.me (s.now + lat) (rowWrites v d k (f s v))) .next

/-- A fixed-latency operation that writes a predicate in the active lanes; p7 discards (04 R79). -/
def predOp (srcs : List Nat) (p lat : Nat) (f : State → View → Nat → Bool) : View → State → Res :=
  guardV srcs fun v s =>
    if v.act == 0 || p == 7 then .ok s .next
    else .ok (s.later v.me (s.now + lat) (.pred p (v.lanes.map fun j => (j, f s v j)))) .next

/-- A fixed-latency operation that writes `k` g registers from the lowest active real lane (04 R78). -/
def gOp (srcs : List Nat) (d k lat : Nat) (f : State → View → Nat → List W32) : View → State → Res :=
  guardV srcs fun v s =>
    match v.lane0 with
    | none => .ok s .next
    | some j => .ok (s.laterAll v.me (s.now + lat) ((List.range k).map fun i => Write.g (d + i) (nth 0 (f s v j) i))) .next

/-! ### The return from a trap (11 R254) -/

/-- ERET (11 R254, 16 R363). -/
def eretBody (v : View) (s : State) : Res :=
  let wp := v.wp
  let bad := Res.of s trapOperand (lanesOf v.e.mask)
  if !wp.hmode then bad
  else if v.e.mask != wp.held.mask &&& ~~~wp.exited || v.e.depth != wp.held.depth then bad
  else
    let pc := if (s.core v.c).srPending v.me 0x22 then s.free 30000 else wp.trappc
    if pc.extractLsb' 0 3 != 0 then .trap s 0x20 8 ((lanesOf v.e.mask).map fun j => (j, pc)) 0xFF 0 0
    else
      let e' : Entry := { v.e with pc := pc.extractLsb' 0 48, prio := wp.held.prio }
      let w1 := { wp with frontier := wp.replaceFirst [], hmode := false, held := {} }
      let w2 := { w1 with frontier := sortEntries (mergeEntries (w1.frontier ++ [e'])) }
      .ok (s.setWarp v.c v.w w2) .moved

end Sys2Proof.Machine
end

