-- ==== Sys2Proof/Machine/IntAlu.lean ====
section
/-! DEFINITION. The integer lane operations (15 R342, R343, R347, R353; 16 R381 to R388, R396; 17 R412). Each function of
values stands alone, so that a slot uses the same one (13 R312). -/

namespace Sys2Proof.Machine

/-- An operand of a type: one register zero-extended, or a pair (04 R77). -/
def readT (s : State) (v : View) (op : Nat) (g : Bool) (n : BitVec 8) (wide : Bool) (j : Nat) : W64 :=
  if wide then readR64 s v op g n.toNat j else (readR s v op g n.toNat j).setWidth 64

/-- The registers of a result: one, or a pair. -/
def words (wide : Bool) (x : W64) : List W32 := if wide then [lo32 x, hi32 x] else [lo32 x]
def kOf (wide : Bool) : Nat := if wide then 2 else 1

/-- IMM8 at a type: sign-extended for .s and .b types, zero-extended for .n types (16 R382). -/
def immVal (t : Nat) (i : BitVec 8) : W64 := if t == 6 || t == 7 then i.setWidth 64 else i.signExtend 64

/-- IADD (R383). -/
def iaddVal (m : BitVec 8) (a b : W64) : W64 :=
  let t := modType m
  intResult t (modSF m) (if m.getLsbD 0 then intVal t a - intVal t b else intVal t a + intVal t b)
/-- ISHL and ISHR (R388). -/
def ishlVal (t n : Nat) (a : W64) : W64 := BitVec.ofNat 64 ((a.toNat * 2 ^ n) % 2 ^ intWidth t)
def ishrVal (t n : Nat) (a : W64) : W64 := BitVec.ofNat 64 (wrapN (intWidth t) (intVal t a / (2 : Int) ^ n))
/-- LOP (R396). -/
def lopVal (m : BitVec 8) (a b : W64) : W64 := lutWord 64 (modLut m) a b
/-- IMUL (R386). -/
def imulVal (m : BitVec 8) (a b : W64) : W64 :=
  let t := modType m
  let p := intVal t a * intVal t b
  match modVar m with
  | 0 => intResult t (modSF m) p
  | 1 => BitVec.ofNat 64 (wrapN (intWidth t) (p / (2 : Int) ^ intWidth t))
  | _ => BitVec.ofNat 64 (wrapN 64 p)
def imulWide (m : BitVec 8) : Bool := wideType (modType m) || modVar m == 2
def imulLat (m : BitVec 8) : Nat := if imulWide m then 8 else 6
/-- BFE (R342). -/
def bfeVal (t : Nat) (a : W64) (b : W32) : W64 :=
  let w := intWidth t
  let pos := min (b.toNat % 256) w
  let len := min (b.toNat / 256 % 256) (w - pos)
  let f := a.toNat / 2 ^ pos % 2 ^ len
  if intSigned t && 0 < len then BitVec.ofNat 64 (wrapN w (sextN f len)) else BitVec.ofNat 64 f
/-- BFI (R343). -/
def bfiVal (w : Nat) (a b : W64) (c : W32) : W64 :=
  let pos := c.toNat % 256
  let len := min (c.toNat / 256 % 256) (w - pos)
  let mask : W64 := BitVec.ofNat 64 ((2 ^ len - 1) * 2 ^ pos)
  (b &&& ~~~mask) ||| (BitVec.ofNat 64 (a.toNat * 2 ^ pos) &&& mask)
/-- BREV (R347), CLZ (R353), POPC (R412). -/
def brevVal (w : Nat) (a : W64) : W64 :=
  BitVec.ofNat 64 ((List.range w).foldl (fun x i => x + (if a.getLsbD (w - 1 - i) then 2 ^ i else 0)) 0)
def clzVal (w : Nat) (a : W64) : W64 :=
  BitVec.ofNat 64 (((List.range w).find? fun i => a.getLsbD (w - 1 - i)).getD w)
def popcVal (w : Nat) (a : W64) : W64 := BitVec.ofNat 64 ((List.range w).filter fun i => a.getLsbD i).length
/-- IABS (R381). -/
def iabsVal (m : BitVec 8) (a : W64) : W64 :=
  let t := modType m
  intResult t (modSF m) (intVal t a).natAbs

/-- A REG operation on A and B of one type (R382). -/
def regOp2 (f : Reg) (wd ws : Bool) (lat : Nat) (g : W64 → W64 → W64) : View → State → Res :=
  vecOp (runRegsX (xA f.x) f.a.toNat (kOf ws) ++ runRegsX (xB f.x) f.b.toNat (kOf ws)) f.d.toNat (kOf wd) lat
    fun s v j => words wd (g (readT s v 0 (xA f.x) f.a ws j) (readT s v 1 (xB f.x) f.b ws j))
/-- A REG operation on A and one 32-bit register B. -/
def regOpC (f : Reg) (w : Bool) (lat : Nat) (g : W64 → W32 → W64) : View → State → Res :=
  vecOp (runRegsX (xA f.x) f.a.toNat (kOf w) ++ runRegsX (xB f.x) f.b.toNat 1) f.d.toNat (kOf w) lat
    fun s v j => words w (g (readT s v 0 (xA f.x) f.a w j) (readR s v 1 (xB f.x) f.b.toNat j))
/-- A REG operation on A alone. -/
def regOp1 (f : Reg) (wd ws : Bool) (lat : Nat) (g : W64 → W64) : View → State → Res :=
  vecOp (runRegsX (xA f.x) f.a.toNat (kOf ws)) f.d.toNat (kOf wd) lat
    fun s v j => words wd (g (readT s v 0 (xA f.x) f.a ws j))
/-- An IMM operation. -/
def immOp (f : Imm) (wd ws : Bool) (lat : Nat) (g : W64 → W64) : View → State → Res :=
  vecOp (runRegsX f.xa f.a.toNat (kOf ws)) f.d.toNat (kOf wd) lat
    fun s v j => words wd (g (readT s v 0 f.xa f.a ws j))

def wT (m : BitVec 8) : Bool := wideType (modType m)

def iaddBody (f : Reg) := regOp2 f (wT f.m) (wT f.m) 4 (iaddVal f.m)
def iaddImmBody (f : Imm) := immOp f (wT f.m) (wT f.m) 4 fun a => iaddVal f.m a (immVal (modType f.m) f.i)
def ishlBody (f : Reg) := regOpC f (wT f.m) 4 fun a b => ishlVal (modType f.m) (b.toNat % 256) a
def ishlImmBody (f : Imm) := immOp f (wT f.m) (wT f.m) 4 (ishlVal (modType f.m) f.i.toNat)
def ishrBody (f : Reg) := regOpC f (wT f.m) 4 fun a b => ishrVal (modType f.m) (b.toNat % 256) a
def ishrImmBody (f : Imm) := immOp f (wT f.m) (wT f.m) 4 (ishrVal (modType f.m) f.i.toNat)
def lopBody (f : Reg) := regOp2 f (lopWide f.m) (lopWide f.m) 4 (lopVal f.m)
def lopImmBody (f : Imm) := immOp f (lopWide f.m) (lopWide f.m) 4 fun a => lopVal f.m a (f.i.signExtend 64)
def imulBody (f : Reg) := regOp2 f (imulWide f.m) (wT f.m) (imulLat f.m) (imulVal f.m)
def imulImmBody (f : Imm) := immOp f (imulWide f.m) (wT f.m) (imulLat f.m) fun a => imulVal f.m a (immVal (modType f.m) f.i)

/-- IMAD (R385). -/
def imadBody (v5 : BitVec 3) (f : Four) : View → State → Res :=
  let t := imadType v5
  let w := wideType t
  vecOp (runRegsX (xA f.x) f.a.toNat (kOf w) ++ runRegsX (xB f.x) f.b.toNat (kOf w) ++ runRegs f.c.toNat (kOf w))
    f.d.toNat (kOf w) (if w then 8 else 6) fun s v j =>
      words w (intResult t (v5.getLsbD 2) (intVal t (readT s v 0 (xA f.x) f.a w j) * intVal t (readT s v 1 (xB f.x) f.b w j) +
        intVal t (readT s v 2 false f.c w j)))

/-- ICMP (R384). -/
def icmpBody (f : Reg) : View → State → Res :=
  let t := modType f.m
  let w := wideType t
  predOp (runRegsX (xA f.x) f.a.toNat (kOf w) ++ runRegsX (xB f.x) f.b.toNat (kOf w)) f.d.toNat 4 fun s v j =>
    cmpInt (modLow3 f.m) (intVal t (readT s v 0 (xA f.x) f.a w j)) (intVal t (readT s v 1 (xB f.x) f.b w j))
def icmpImmBody (f : Imm) : View → State → Res :=
  let t := modType f.m
  let w := wideType t
  predOp (runRegsX f.xa f.a.toNat (kOf w)) f.d.toNat 4 fun s v j =>
    cmpInt (modLow3 f.m) (intVal t (readT s v 0 f.xa f.a w j)) (intVal t (immVal t f.i))

def bfiBody (w : Bool) (f : Four) : View → State → Res :=
  vecOp (runRegsX (xA f.x) f.a.toNat (kOf w) ++ runRegsX (xB f.x) f.b.toNat (kOf w) ++ [f.c.toNat]) f.d.toNat (kOf w) 4
    fun s v j => words w (bfiVal (if w then 64 else 32) (readT s v 0 (xA f.x) f.a w j) (readT s v 1 (xB f.x) f.b w j)
      (readV s v 2 f.c.toNat j))

def execImul (h : Hdr) (f : Reg) (s : State) : Out3 := runWarp h (.imul h f) (imulBody f) s
def execImulImm (h : Hdr) (f : Imm) (s : State) : Out3 := runWarp h (.imulImm h f) (imulImmBody f) s
def execIabs (h : Hdr) (f : Reg) (s : State) : Out3 :=
  runWarp h (.iabs h f) (regOp1 f (wT f.m) (wT f.m) 4 (iabsVal f.m)) s
def execIshr (h : Hdr) (f : Reg) (s : State) : Out3 := runWarp h (.ishr h f) (ishrBody f) s
def execIshrImm (h : Hdr) (f : Imm) (s : State) : Out3 := runWarp h (.ishrImm h f) (ishrImmBody f) s
def execIcmp (h : Hdr) (f : Reg) (s : State) : Out3 := runWarp h (.icmp h f) (icmpBody f) s
def execIcmpImm (h : Hdr) (f : Imm) (s : State) : Out3 := runWarp h (.icmpImm h f) (icmpImmBody f) s
def execImad (h : Hdr) (v : BitVec 3) (f : Four) (s : State) : Out3 := runWarp h (.imad h v f) (imadBody v f) s
def execBfe (h : Hdr) (f : Reg) (s : State) : Out3 :=
  runWarp h (.bfe h f) (regOpC f (wT f.m) 4 fun a b => bfeVal (modType f.m) a b) s
def execBfi (h : Hdr) (v : Bool) (f : Four) (s : State) : Out3 := runWarp h (.bfi h v f) (bfiBody v f) s
def execBrev (h : Hdr) (f : Reg) (s : State) : Out3 :=
  runWarp h (.brev h f) (regOp1 f (wT f.m) (wT f.m) 4 (brevVal (intWidth (modType f.m)))) s
def execClz (h : Hdr) (f : Reg) (s : State) : Out3 :=
  runWarp h (.clz h f) (regOp1 f false (wT f.m) 4 (clzVal (intWidth (modType f.m)))) s
def execPopc (h : Hdr) (f : Reg) (s : State) : Out3 :=
  runWarp h (.popc h f) (regOp1 f false (wT f.m) 4 (popcVal (intWidth (modType f.m)))) s

end Sys2Proof.Machine
end

