-- ==== Sys2Proof/Machine/Operands.lean ====
section
/-! DEFINITION. The address operands of memory instructions and the checks of their lanes (13 R304 to R306; 07 R152, R153;
11 R248, R250; 02 R33). -/

namespace Sys2Proof.Machine

/-- What the checks of one lane's access find: its physical address and leaf, a trap with the level and entry a record names,
a class-3 fault, or a page that is not resident. -/
inductive LX where
  | ok (pa : Nat) (leaf : W64)
  | trap (t : Trap) (level : Nat) (entry : W64)
  | fatal (f : XFault) (va : W64)
  | page (va : W64)
  deriving DecidableEq, Repr

/-- Effective address of a lane of a global MEM access (R304); `es` is the element size. -/
def memEa (s : State) (v : View) (f : Mem) (n j : Nat) : W64 :=
  readR64 s v 0 (xA f.x) f.a.toNat j + BitVec.ofInt 64 (f.ofs.toInt * n)
/-- Effective address of a lane of a scratchpad MEM access (R304). -/
def memEa32 (s : State) (v : View) (f : Mem) (n j : Nat) : W32 :=
  readR s v 0 (xA f.x) f.a.toNat j + BitVec.ofInt 32 (f.ofs.toInt * n)

/-- A translation outcome as a lane outcome (10 R229). -/
def xlLane (va : W64) : Xl → LX
  | .ok pa leaf _ => .ok pa leaf
  | .page _ _ _ _ => .page va
  | .bad f => if f.cls == 2 then .trap ⟨if f.code == 0x22 then rkXPage else rkXPerm, f.code, va, f.cause⟩ f.level f.entry
      else .fatal f va

/-- The checks of one lane of a global access, and its translation (R250 steps 11 and 13). A sealed range traps before a write
sets D; it comes after PAGE_FAULT and PERMISSION. -/
def laneGlobal (s : State) (c n : Nat) (need : Need) (len align : Nat) (va : W64) : LX × State :=
  if 2 ^ 48 ≤ va.toNat then (.trap ⟨rkCanon, 0x22, va, 2⟩ 0xFF 0, s)
  else if va.toNat % align != 0 then (.trap ⟨rkAlign, 0x20, va, 8⟩ 0xFF 0, s)
  else
    let (x, s') := xlate s c n va.toNat need
    let r := xlLane va x
    if need.writes && (s.part n).sealedAt va.toNat len then
      (match r with
        | .trap t l e => (.trap t l e, s)
        | _ => (.trap ⟨rkSealed, 0x24, va, 8⟩ 0xFF 0, s))
    else match r with
      | .ok pa _ => if s'.peerFails pa then (.fatal peerFault va, s')
          else (r, s')
      | _ => (r, s')

/-- The group that a cluster scratchpad address names (07 R152, R153; 01 R25): a rank of the issuer's cluster. -/
def clusterTarget (s : State) (gid : Nat) (a : W32) : Option Nat :=
  let g := s.group gid
  let rank := bitsN a.toNat 27 24
  if a.toNat ≥ 2 ^ 28 || rank ≥ (s.grid g.grid).clusterSize then none
  else match (s.cluster g.cluster).groups[rank]? with
    | none => none
    | some t => if (s.group t).phase == .gone then none else some t

/-- The checks of one lane of a scratchpad access: its group and offset, as one number (07 R153). -/
def laneScratch (s : State) (gid : Nat) (cl : Bool) (len align : Nat) (a : W32) : LX :=
  let info : W64 := a.setWidth 64
  let bad := LX.trap ⟨rkBounds, 0x21, info, 8⟩ 0xFF 0
  let tgt := if cl then clusterTarget s gid a else some gid
  let o := if cl then a.toNat % 2 ^ 24 else a.toNat
  if o % align != 0 then .trap ⟨rkAlign, 0x20, info, 8⟩ 0xFF 0
  else match tgt with
    | none => bad
    | some t => if o + len ≤ (s.gridOf t).scratch then .ok (t * 2 ^ 32 + o) 0 else bad

/-- Check lanes one after another. -/
def laneFold (f : State → Nat → LX × State) : List Nat → State → List (Nat × LX) × State
  | [], s => ([], s)
  | j :: t, s =>
    let (x, s) := f s j
    let (l, s) := laneFold f t s
    ((j, x) :: l, s)

/-- What comes first among the lanes (11 R248): a trap, then a class-3 outcome, then a page; helper lanes count for nothing and
their failed accesses are left out (02 R33). `s0` is the state before the instruction. -/
def sortOut (s0 : State) (real : W32) (access : Nat) (xs : List (Nat × LX)) : Except Res (List (Nat × Nat × W64)) :=
  let mine := xs.filter fun x => real.getLsbD x.1
  match pickTrap (mine.filterMap fun x => match x.2 with | .trap t _ _ => some (x.1, t) | _ => none) with
  | some (t, infos) =>
    let le := (mine.filterMap fun x => match x.2 with
      | .trap u l e => if u.rank == t.rank && u.code == t.code then some (l, e) else none
      | _ => none).head?.getD (0xFF, 0)
    .error (.trap s0 t.code t.cause infos le.1 le.2.toNat access)
  | none =>
    match (mine.filterMap fun x => match x.2 with | .fatal f va => some (f, va) | _ => none).head? with
    | some (f, va) => .error (.fatal s0 f va access)
    | none =>
      match (mine.filterMap fun x => match x.2 with | .page va => some va | _ => none).head? with
      | some va => .error (.page s0 va)
      | none => .ok (xs.filterMap fun x => match x.2 with | .ok pa leaf => some (x.1, pa, leaf) | _ => none)

/-- Data registers of a store or atomic, as bytes (13 R304, R305). -/
def dataBytes (s : State) (v : View) (op : Nat) (g : Bool) (n k len j : Nat) : List Byte :=
  ((List.range k).flatMap fun i => leBytes 4 (readR s v (op + i) g (n + i) j).toNat).take len

end Sys2Proof.Machine
end

