-- ==== Sys2Proof/Machine/Keccak.lean ====
section
/-! DEFINITION. Keccak and the functions built on it: SHA3-256 (12 R292), and KMAC128 of NIST SP 800-185, the check tag of a
ticket (08 R184). -/

namespace Sys2Proof.Machine

/-- Round constants, by the linear-feedback shift register of FIPS 202. -/
def lfsrStep (r : Nat) : Nat := if r ≥ 128 then (r * 2 % 256) ^^^ 0x71 else r * 2
def lfsrAt : Nat → Nat → Nat
  | 0, r => r
  | n + 1, r => lfsrAt n (lfsrStep r)
def keccakRC (i : Nat) : W64 :=
  (List.range 7).foldl (fun c j => if lfsrAt (7 * i + j) 1 % 2 == 1 then c ^^^ BitVec.twoPow 64 (2 ^ j - 1) else c) 0

/-- Rotation offset of lane (x, y). -/
def keccakRho : List Nat :=
  [0, 1, 62, 28, 27, 36, 44, 6, 55, 20, 3, 10, 43, 25, 39, 41, 45, 15, 21, 8, 18, 2, 61, 56, 14]

/-- Lane x + 5 y of a state. -/
def lane (a : List W64) (x y : Nat) : W64 := nth 0 a (x % 5 + 5 * (y % 5))

/-- One round: θ, ρ, π, χ, ι. -/
def keccakRound (rc : W64) (a : List W64) : List W64 :=
  let col := (List.range 5).map fun x => lane a x 0 ^^^ lane a x 1 ^^^ lane a x 2 ^^^ lane a x 3 ^^^ lane a x 4
  let th := (List.range 5).map fun x => nth 0 col ((x + 4) % 5) ^^^ (nth 0 col ((x + 1) % 5)).rotateLeft 1
  let t := (List.range 25).map fun i => nth 0 a i ^^^ nth 0 th (i % 5)
  -- lane (x, y) of the result of π is lane ((x + 3 y) mod 5, x) rotated
  let b := (List.range 25).map fun i =>
    let x := i % 5
    let y := i / 5
    let j := (x + 3 * y) % 5 + 5 * x
    (nth 0 t j).rotateLeft (nth 0 keccakRho j)
  let c := (List.range 25).map fun i =>
    let x := i % 5
    let y := i / 5
    lane b x y ^^^ (~~~lane b (x + 1) y &&& lane b (x + 2) y)
  setNth c 0 (nth 0 c 0 ^^^ rc)

def keccakF (a : List W64) : List W64 := (List.range 24).foldl (fun a i => keccakRound (keccakRC i) a) a

/-- Absorb one block of bytes. -/
def absorb (a : List W64) (block : List Byte) : List W64 :=
  keccakF ((List.range 25).map fun i => nth 0 a i ^^^ BitVec.ofNat 64 (leNat ((block.drop (8 * i)).take 8)))

def absorbAll (rate : Nat) : Nat → List Byte → List W64 → List W64
  | 0, _, a => a
  | n + 1, bs, a => absorbAll rate n (bs.drop rate) (absorb a (bs.take rate))

/-- Pad with a domain byte and pad10*1 to whole blocks. -/
def keccakPad (rate dom : Nat) (m : List Byte) : List Byte :=
  let q := rate - m.length % rate
  if q == 1 then m ++ [BitVec.ofNat 8 (dom + 128)]
  else m ++ [BitVec.ofNat 8 dom] ++ List.replicate (q - 2) 0 ++ [128]

/-- The first `n` bytes of the sponge's output, `n` at most the rate. -/
def sponge (rate dom n : Nat) (m : List Byte) : List Byte :=
  let p := keccakPad rate dom m
  let a := absorbAll rate (p.length / rate) p (List.replicate 25 0)
  (a.flatMap fun w => leBytes 8 w.toNat).take n

def sha3_256 (m : List Byte) : List Byte := sponge 136 6 32 m

/-- left_encode and right_encode of SP 800-185 for numbers below 65536, encode_string, bytepad. -/
def beBytes (x : Nat) : List Byte := if x < 256 then [BitVec.ofNat 8 x] else [BitVec.ofNat 8 (x / 256), BitVec.ofNat 8 x]
def leftEncode (x : Nat) : List Byte := let b := beBytes x; BitVec.ofNat 8 b.length :: b
def rightEncode (x : Nat) : List Byte := let b := beBytes x; b ++ [BitVec.ofNat 8 b.length]
def encodeString (s : List Byte) : List Byte := leftEncode (8 * s.length) ++ s
def bytepad (x : List Byte) (w : Nat) : List Byte :=
  let z := leftEncode w ++ x
  z ++ List.replicate ((w - z.length % w) % w) 0

/-- KMAC128(key, input, 8 n, custom). -/
def kmac128 (key input : List Byte) (n : Nat) (custom : List Byte) : List Byte :=
  let name : List Byte := [0x4B, 0x4D, 0x41, 0x43]
  sponge 168 4 n (bytepad (encodeString name ++ encodeString custom) 168 ++ bytepad (encodeString key) 168 ++ input ++
    rightEncode (8 * n))

/-- The ASCII text VRA TICKET. -/
def ticketText : List Byte := [0x56, 0x52, 0x41, 0x20, 0x54, 0x49, 0x43, 0x4B, 0x45, 0x54]

/-- The check tag of a ticket's upper half under a tag key (08 R184). -/
def ticketTag (key : BitVec 128) (hi : W32) : W32 :=
  BitVec.ofNat 32 (leNat (kmac128 (leBytes 16 key.toNat) (leBytes 4 hi.toNat) 4 ticketText))

end Sys2Proof.Machine
end

