-- ==== Sys2Proof/Machine/TicketOps.lean ====
section
/-! DEFINITION. The ticket tables of the slices: the allocation of an entry and the ticket's value (08 R179 to R185). The
snapshot is read when its entry is FETCHING, at the allocation or at the install of the page, which R180 leaves open between the issue
and the fill (DESIGN CHOICE, log 18). -/

namespace Sys2Proof.Machine

def State.setBody (s : State) (c id : Nat) (b : VarBody) : State :=
  s.modCore c fun k => { k with vars := k.vars.map fun v => if v.id == id then { v with body := b } else v }

/-- The group of an issuer. -/
def State.gidOf (s : State) : Issuer → Nat
  | .warp c w => (s.warp c w).gid
  | .ctx c k => (s.ctx c k).gid
  | .none => 0

/-- Key of an entry in the tables of all slices (R181). -/
def tkKey (slice entry : Nat) : Nat := 1024 * slice + entry

/-- Entries of a partition in a slice that are not FREE (R181). -/
def ticketsAt (s : State) (slice n : Nat) : Nat :=
  (s.tickets.filter fun t => t.1 / 1024 == slice && t.2.part == n && t.2.st != .free).length

/-- The FREE entries of a slice. -/
def freeTickets (s : State) (slice : Nat) : List Nat :=
  (List.range 1024).filter fun e => (s.ticket (tkKey slice e)).st == .free

/-- Bits [63:32] of a ticket (R183). -/
def ticketHi (slice entry : Nat) (gen : BitVec 8) (part size : Nat) : W32 :=
  BitVec.ofNat 32 (slice * 2 ^ 26 + entry * 2 ^ 16 + gen.toNat * 256 + part * 16 + size * 4)

/-- The ticket of an entry, with the tag of its partition's key (R184). -/
def ticketVal (s : State) (slice entry : Nat) (gen : BitVec 8) (part size : Nat) : W64 :=
  let hi := ticketHi slice entry gen part size
  pair (ticketTag (s.part part).tagKey hi) hi

/-- Tagged cores join the agent's pending mask (09 R209). -/
def State.addMask (s : State) (a : Issuer) (cs : List Nat) : State :=
  if cs.isEmpty then s else
  match a with
  | .warp c w => s.modWarp c w fun x => { x with pmask := listUnion x.pmask cs }
  | .ctx c k => s.modCtx c k fun x => { x with pmask := listUnion x.pmask cs }
  | .none => s

/-- The bytes of a segment at the home slice, and the offsets of poisoned ones (R180). -/
def segBytes (s : State) (pa len : Nat) : List Byte × List Nat :=
  (s.rdBytes pa len, (List.range len).filter fun i => s.poisoned (pa + i))

/-- The pager that serves a locator, and the entry in flight of a page (10 R233). -/
def pagerOf (loc : W64) : Nat := locDrive loc / 4
def State.flight (s : State) (k : Nat × Nat) : Option InFlight := (s.inflight.find? fun x => x.1 == k).map (·.2)
def State.setFlight (s : State) (k : Nat × Nat) (x : InFlight) : State :=
  if (s.flight k).isSome then { s with inflight := s.inflight.map fun y => if y.1 == k then (k, x) else y }
  else { s with inflight := s.inflight ++ [(k, x)] }
def State.joinFlight (s : State) (k : Nat × Nat) (w : Waiter) : State :=
  { s with inflight := s.inflight.map fun y =>
      if y.1 == k && !y.2.waiters.contains w then (k, { y.2 with waiters := y.2.waiters ++ [w] }) else y }

/-- The results of an LDT: its ticket in D:D+1; the token falls when it is written (R178). -/
def ldtResult (s : State) (c : Nat) (v : VarOp) (d : Nat) (t : W64) : State :=
  (s.setBody c v.id (.results [.g d (lo32 t), .g (d + 1) (hi32 t)])).push (.variableResultDone c v.id)

/-- The one read of a segment at its home slice: the entry's snapshot. It is a read by the issuer at device scope, which records the cores
that tag its words (R180; 09 R209). -/
def tkRead (s : State) (key : Nat) : State :=
  let t := s.ticket key
  let len := 128 * 2 ^ t.size
  let (bs, bad) := segBytes s t.pa len
  let s := s.setTicket key { t with st := .fetching, data := bs, poisoned := bad }
  let s := if s.gidOf t.reader == t.readerGid then s.addMask t.reader (tagCores s (span t.pa len)) else s
  s.push (.ticketFetchComplete (key / 1024) (key % 1024))

/-- Take a FREE entry; which one is unpredictable (R181; DESIGN CHOICE, log 18). -/
def ldtPlace (s : State) (c : Nat) (v : VarOp) (n : Nat) (va : W64) (size d : Nat) (seg : Seg) : State :=
  let free := freeTickets s seg.slice
  match free[(s.free (70000 + v.id)).toNat % free.length]? with
  | none => s
  | some e =>
    let key := tkKey seg.slice e
    let old := s.ticket key
    let t : Ticket := { st := seg.st, gen := old.gen, part := n, size := size, va := va, pa := seg.pa, cause := seg.cause,
                        clock := s.now, reader := v.agent, readerGid := s.gidOf v.agent }
    let s := s.setTicket key t
    let s := if seg.st == .fetching then tkRead s key else s
    ldtResult s c v d (ticketVal s seg.slice e old.gen n size)

/-- The LDTs of a partition that wait at a slice before one does (R181). -/
def ldtAhead (s : State) (slice n id : Nat) : Nat :=
  ((s.ldtWaits.takeWhile fun x => x.id != id).filter fun x => x.slice == slice && x.part == n).length

/-- The entry found or refused by the quota of the partition at the slice: LDT.try writes the null ticket; an LDT waits, and takes no
entry before those that wait there already (R181). A slice that has no FREE entry, since a QUOTA has been lowered below what its
partition holds, has them wait as well (DESIGN CHOICE, log 18). -/
def ldtAt (s : State) (c : Nat) (v : VarOp) (n : Nat) (va : W64) (size d : Nat) (try_ : Bool) (seg : Seg) : State :=
  if ticketsAt s seg.slice n + (if try_ then 0 else ldtAhead s seg.slice n v.id) < (s.part n).quota && freeTickets s seg.slice != [] then
    ldtPlace { s with ldtWaits := s.ldtWaits.filter fun x => x.id != v.id } c v n va size d seg
  else if try_ then ldtResult s c v d 0
  else
    let s := s.setBody c v.id (.ldt va size d false (if seg.st == .waitpage then none else some seg))
    if s.ldtWaits.any fun x => x.id == v.id then
      { s with ldtWaits := s.ldtWaits.map fun x => if x.id == v.id then { x with slice := seg.slice } else x }
    else { s with ldtWaits := s.ldtWaits ++ [⟨seg.slice, n, c, v.id⟩] }

/-- The physical address that a partition's mapping gives an address, whatever its permissions. -/
def mappedAt (s : State) (c n va : Nat) : Option Nat :=
  match s.tlbFind c n va with
  | some t => some (t.pa + (va - t.va))
  | none => match walk s n va with
    | .ok v _ pa _ _ _ => some (pa + (va - v))
    | _ => none

/-- An LDT asks for its page; it waits at no slice meanwhile. -/
def ldtAsk (s : State) (c n : Nat) (v : VarOp) (va : W64) : State :=
  { s with ldtWaits := s.ldtWaits.filter fun x => x.id != v.id }.push (.pagerRequest n va (.ldt c v.id))

/-- TICKET_ALLOCATE (R179): the core's own bytes of the segment are written back and dropped, the segment is translated through the issuing
core's TLB, and an entry is taken. A page that is not resident is asked for, and the entry is taken at the slice of the
frame that the pager takes for it. -/
def ldtAllocate (s : State) (c : Nat) (v : VarOp) : State :=
  match v.body with
  | .ldt va size d try_ (some seg) => ldtAt s c v (s.partOf (s.gidOf v.agent)) va size d try_ seg
  | .ldt va size d try_ none =>
    let gid := s.gidOf v.agent
    let n := s.partOf gid
    let len := 128 * 2 ^ size
    let at_ := fun (s : State) (seg : Seg) => ldtAt s c v n va size d try_ seg
    let bad := fun (cause : Nat) => (⟨homeSlice va.toNat, .poisoned, 0, BitVec.ofNat 8 cause⟩ : Seg)
    let s := match mappedAt s c n va.toNat with
      | some pa => if pa < memEnd then s.homePrep c (span pa len) else s
      | none => s
    (match xlate s c n va.toNat .r with
    | (.ok pa _ _, s) =>
      if pa < memEnd then at_ s ⟨homeSlice pa, .fetching, pa, 0⟩ else at_ s (bad 0x60)
    | (.bad f, s) =>
      if f.cls == 2 then at_ s (bad f.code)
      else s.fatalGrid gid { agentRec s gid v.agent 3 f.code f.cause (f.recVa va) with level := f.level, info := f.recInfo }
    | (.page key v0 _ loc, s) =>
      let k := (pagerOf loc, key)
      match s.flight k with
      | some x =>
        if !x.evict && 1 ≤ x.stage then
          let pa := x.frame + (va.toNat - v0)
          let s' := at_ s ⟨homeSlice pa, .waitpage, pa, 0⟩
          -- a new WAITPAGE entry joins the page's waiters
          s'.tickets.foldl (fun s t =>
            if t.2.st == .waitpage && t.2.pa == pa && t.2.part == n then s.joinFlight k (.ticket (t.1 / 1024) (t.1 % 1024)) else s) s'
        else ldtAsk s c n v va
      | none => ldtAsk s c n v va)
  | _ => s

end Sys2Proof.Machine
end

