-- ==== Sys2Proof/Machine/Global.lean ====
section
/-! DEFINITION. Accesses to global memory and scratchpads: where they are performed (09 R202), LD, ST, ST.nt, LDS, STS, ATOM,
ATOMS, PREF, FENCE, FLUSHR and INVR (15 R335 to R339; 16 R371, R372, R374, R387, R389 to R392; 17 R413; 18 R435 to R437).
An access that is performed at a home slice or in another core's scratchpad happens at VARIABLE_RESULT_DONE, or earlier where
the issue order of the warp or an ordering needs it (03 R73; DESIGN CHOICE, log 7). -/

namespace Sys2Proof.Machine

/-! ### Performing an access -/

/-- The bytes of a lane's access. -/
def LaneAcc.span (l : LaneAcc) (n : Nat) : List Nat := Sys2Proof.Machine.span l.pa n

/-- A grid whose agent consumes a poisoned byte is aborted, and a record names the physical address (07 R161). -/
def State.poisonAbort (s : State) (gid : Nat) (a : Issuer) (pa : Nat) : State :=
  s.fatalGrid gid { agentRec s gid a 3 0x60 8 (BitVec.ofNat 64 pa) with source := 8 }

/-- The eager part of a release (09 R207): scopes 4 to 6. -/
def State.eager (s : State) (c scope : Nat) : State :=
  if scope < 4 then s
  else
    let s := s.drainCore c
    if scope == 6 then s.wcDrain c fun _ => true else s

/-- A write of bytes at a physical address, wherever it lies: the register aperture discards it, host and peer apertures let it
out of the device (12 R268, R269, R286). `n` is the partition. -/
def State.homeWrite (s : State) (n pa : Nat) (bs : List Byte) (rmw : Bool) : State :=
  let s := s.collTouchPa (span pa bs.length)
  match regionOf pa with
  | .mem => s.memWrite (cellsAt pa bs) rmw
  | .host o => s.emit (.hostWrite o bs)
  | .peer d o => s.emit (.peerWrite d o (s.ftagOf n) s.mgmt.fabid bs)
  | _ => s

/-- The `combine` of R336 by code: 4 op + tc, 32 for .add.f32, 33 for .add.bf16x2. `none`: nothing is written. -/
def atomCombine (code size : Nat) (old src : List Byte) : Option (List Byte) :=
  let w := 8 * size
  let o := leNat old
  let x := leNat src
  let signed := code % 4 == 0 || code % 4 == 2
  let le := if signed then sextN o w ≤ sextN x w else o ≤ x
  let half := fun (sh : Nat) => fBF16.round 0 false false
    (FV.add 0 (fBF16.dec false (o / 2 ^ sh % 65536)) (fBF16.dec false (x / 2 ^ sh % 65536)))
  if code == 32 then some (leBytes 4 (addF32 o x))
  else if code == 33 then some (leBytes 4 (half 0 + 65536 * half 16))
  else match code / 4 with
    | 0 => some (leBytes size ((o + x) % 2 ^ w))
    | 1 => some (if le then old else src)
    | 2 => some (if le then src else old)
    | 3 => some (leBytes size (o &&& x))
    | 4 => some (leBytes size (o ||| x))
    | 5 => some (leBytes size (o ^^^ x))
    | 6 => some src
    | _ => if old == src.take size then some (src.drop size) else none

/-- What a performed access leaves: the state, the bytes of each lane, a poisoned byte it met. -/
structure Done where
  s : State
  data : List (Nat × List Byte)
  bad : Option Nat

/-- A lane whose traps and poison count: helper lanes read zero instead (02 R33). -/
def realLane (s : State) (a : Issuer) (j : Nat) : Bool := 
  match a with | .warp c w => 32 ≤ j || (s.warp c w).real.getLsbD j | _ => true

/-- An access that reaches a peer acts at fabric scope or wider (09 R214, 15 R337). -/
def Access.reach (x : Access) (scope : Nat) : Nat :=
  if scope != 0 && x.lanes.any fun l => match regionOf l.pa with | .peer _ _ => true | _ => false then max scope 5 else scope

def Access.acquires (x : Access) : Bool := x.ord == 1 || x.ord == 3

/-- The acquire or the pending mask of a read at the home slices, made before it reads (09 R209, R210, R157). -/
def acquireRead (s : State) (a : Issuer) (x : Access) (scope : Nat) (pas : List Nat) : State :=
  let c := coreOf a
  if x.acquires then
    let sc := x.reach scope
    (s.acquireDrop c x.part sc).acquireTags c sc (clusterCores s x.gid) pas
  else if scope == 0 then s else s.addMask a (tagCores s pas)

/-- A load at the home slices (09 R202, R209, R157). -/
def homeLoad (s : State) (a : Issuer) (x : Access) (size : Nat) : Done :=
  let c := coreOf a
  let pas := (x.lanes.flatMap fun l => l.span size).filter fun p => p < memEnd
  let s := acquireRead (s.homePrep c pas) a x x.scope pas
  let s := x.lanes.foldl (fun s l => s.outLoad x.part l.pa size) s
  let bad := fun (l : LaneAcc) => (l.span size).find? fun p => p < memEnd && s.poisoned p
  let data := x.lanes.map fun l => (l.lane, (List.range size).map fun i =>
    if (bad l).isSome then 0 else loadByte s (32 * l.lane + i) (l.pa + i))
  ⟨s, data, (x.lanes.filter fun l => realLane s a l.lane).findSome? bad⟩

/-- A store at the home slices (09 R202, R207, R208). -/
def homeStore (s : State) (a : Issuer) (x : Access) : Done :=
  let c := coreOf a
  let pas := (x.lanes.flatMap fun l => l.span l.bytes.length).filter fun p => p < memEnd
  let s := (s.eager c (x.reach x.rel)).homePrep c pas
  let s := (x.lanes.foldl (fun s l => s.homeWrite x.part l.pa l.bytes false) s).addPoison (x.bad.map ErrLoc.mem)
  ⟨if x.tag && !pas.isEmpty then (s.tagWords c pas false).bumpRel c else s, [], none⟩

/-- One lane's read-modify-write at its home slice (15 R336). -/
def rmwLane (n code size : Nat) (d : Done) (l : LaneAcc) : Done :=
  if d.bad.isSome then d
  else match regionOf l.pa with
    | .host o => ⟨d.s.emit (.hostAtom o code l.bytes), d.data ++ [(l.lane, (List.range size).map fun i =>
        loadByte d.s (32 * l.lane + i) (l.pa + i))], none⟩
    | .peer p o => ⟨d.s.emit (.peerAtom p o (d.s.ftagOf n) d.s.mgmt.fabid code l.bytes), d.data ++ [(l.lane, (List.range size).map fun i =>
        loadByte d.s (32 * l.lane + i) (l.pa + i))], none⟩
    | _ =>
      match (l.span size).find? d.s.poisoned with
      | some pa => { d with bad := some pa }
      | none =>
        let old := d.s.rdBytes l.pa size
        match atomCombine code size old l.bytes with
        | some new => ⟨(d.s.collTouchPa (span l.pa size)).memWrite (cellsAt l.pa new) true, d.data ++ [(l.lane, old)], none⟩
        | none => ⟨d.s, d.data ++ [(l.lane, old)], none⟩

/-- Lanes whose read-modify-write has written: a .cas that writes nothing is a read (15 R337). -/
def wroteLanes (x : Access) (code : Nat) (data : List (Nat × List Byte)) : List LaneAcc :=
  x.lanes.filter fun l => match data.find? (fun y => y.1 == l.lane) with
    | some y => (atomCombine code y.2.length y.2 l.bytes).isSome
    | none => false

/-- ATOM at the home slices, lane after lane (15 R336, R337). Scope 0 acts as device scope (R335). -/
def homeRmw (s : State) (a : Issuer) (x : Access) (code size : Nat) : Done :=
  let c := coreOf a
  let scope := if x.scope == 0 then 4 else x.scope
  let pas := (x.lanes.flatMap fun l => l.span size).filter fun p => p < memEnd
  let s := acquireRead ((s.eager c (x.reach x.rel)).homePrep c pas) a x scope pas
  let d := x.lanes.foldl (rmwLane x.part code size) ⟨s, [], none⟩
  let wrote := (wroteLanes x code d.data).flatMap fun l => (l.span size).filter fun p => p < memEnd
  let s := d.s.addPoison ((x.bad.filter fun k => wrote.any fun p => p / 64 == k).map ErrLoc.mem)
  { d with s := if x.tag && !wrote.isEmpty then (s.tagWords c wrote true).bumpRel c else s }

/-- Bytes of scratchpad at a group and offset. -/
def State.scrByte (s : State) (x : Nat) : Byte := mget 0 (s.group (x / 2 ^ 32)).scratch (x % 2 ^ 32)
def State.scrPoisoned (s : State) (x : Nat) : Bool := s.poison.contains (.scratch (x / 2 ^ 32) (x % 2 ^ 32 / 64))

/-- An access to scratchpads, lane after lane (09 R202, 15 R339). -/
def scratchLane (a : Issuer) (kind : AccKind) (size : Nat) (d : Done) (l : LaneAcc) : Done :=
  if d.bad.isSome then d
  else match kind with
    | .store => { d with s := d.s.scrWrite (l.pa / 2 ^ 32) (l.pa % 2 ^ 32) l.bytes }
    | .load | .rmw _ _ _ _ =>
      match (l.span size).find? d.s.scrPoisoned with
      | some pa => if realLane d.s a l.lane then { d with bad := some (pa % 2 ^ 32) }
          else { d with data := d.data ++ [(l.lane, List.replicate size 0)] }
      | none =>
        let old := (l.span size).map d.s.scrByte
        let new := match kind with | .rmw code _ _ _ => atomCombine code size old l.bytes | _ => none
        match new with
        | some bs => ⟨d.s.scrWrite (l.pa / 2 ^ 32) (l.pa % 2 ^ 32) bs, d.data ++ [(l.lane, old)], none⟩
        | none => ⟨d.s, d.data ++ [(l.lane, old)], none⟩

/-- Accesses to scratchpads; a release at cluster scope is performed eagerly (09 R207). -/
def scratchAccess (s : State) (a : Issuer) (x : Access) (size : Nat) : Done :=
  let c := coreOf a
  let s := if x.rel == 3 then s.eager c 4 else s
  let s := if x.acquires then s.acquireDrop c x.part x.scope else s
  let d := x.lanes.foldl (scratchLane a x.kind size) ⟨s, [], none⟩
  { d with s := d.s.addPoison (x.bad.map fun k => .scratch (64 * k / 2 ^ 32) (64 * k % 2 ^ 32 / 64)) }

/-- The words that loaded bytes make: short elements extend to 32 bits (13 R304). -/
def loadWords (d : LoadDst) (bs : List Byte) : List W32 :=
  if d.esize < 4 then
    let x := leNat bs
    [if d.signed then BitVec.ofInt 32 (sextN x (8 * d.esize)) else BitVec.ofNat 32 x]
  else bytesWords (d.bytes / 4) bs

/-- The results of a load: rows of tiles, or g registers from the one lane that loaded; helper lanes whose access failed read
zero (02 R33). -/
def loadWrites (d : LoadDst) (data : List (Nat × List Byte)) : List Write :=
  let all := (data.map fun x => (x.1, loadWords d x.2)) ++ d.zeroLanes.map fun j => (j, [])
  if d.uniform then
    match all.head? with
    | none => []
    | some x => (List.range (max 1 (d.bytes / 4))).map fun i => .g (d.first + i) (nth 0 x.2 i)
  else
    (List.range d.rows.length).filterMap fun i => (d.rows[i]?).map fun tr =>
      .row tr.1 tr.2 (all.map fun x => (x.1, nth 0 x.2 i))

/-- Every group that a scratchpad access reaches is resident (16 R392, 18 R436). -/
def Access.ready (s : State) (x : Access) : Bool :=
  !x.scratch || x.lanes.all fun l => match (s.group (l.pa / 2 ^ 32)).phase with
    | .resident => true
    | .saving _ => true
    | .saved _ => false
    | .gone => true

/-- Perform an access: its results, or the poisoned byte it met. -/
def runAccess (s : State) (a : Issuer) (x : Access) : Done :=
  match x.scratch, x.kind with
  | true, .rmw _ size _ _ => scratchAccess s a x size
  | true, _ => scratchAccess s a x x.dst.bytes
  | false, .load => homeLoad s a x x.dst.bytes
  | false, .store => homeStore s a x
  | false, .rmw code size _ _ => homeRmw s a x code size

def Access.results (x : Access) (data : List (Nat × List Byte)) : List Write :=
  match x.kind with
  | .load => loadWrites x.dst (x.got ++ data)
  | .rmw _ _ _ ret => if ret then loadWrites x.dst data else []
  | .store => []

/-- Lanes of an agent no longer carry the release of an earlier FENCE: their first strong write has taken it up (16 R372). -/
def State.uncarry (s : State) (a : Issuer) (lanes : List Nat) : State :=
  match a with
  | .warp c w => s.modWarp c w fun x => { x with carried := x.carried.filter fun y => !lanes.contains y.1 }
  | _ => s

/-- A performed .cas takes up the release that its lanes carry where it has written (15 R337, 16 R372). -/
def casTakes (s : State) (a : Issuer) (x : Access) (data : List (Nat × List Byte)) : State :=
  match x.kind with
  | .rmw code _ _ _ => if code / 4 == 7 then s.uncarry a ((wroteLanes x code data).map (·.lane)) else s
  | _ => s

/-! ### Outstanding accesses -/

/-- Addresses that an outstanding operation touches; the space they lie in. -/
def VarBody.touches : VarBody → Bool × List Nat
  | .access x => (x.scratch, x.lanes.flatMap fun l => l.span (max l.bytes.length x.dst.bytes))
  | .tgst pa bs _ _ => (false, span pa bs.length)
  | .tgld _ _ pa len => (false, span pa len)
  | _ => (false, [])

/-- FLUSHR or INVR of a range of a partition in a core; other cores' dirty bytes and write-combining entries of the range are performed
as well, which any core may do at any time (07 R156, R159, R176; DESIGN CHOICE, log 7). -/
def State.flushRange (s : State) (c n va len : Nat) (inv : Bool) : State :=
  let last := va + len - 1
  let lines := (List.range (last / 128 + 1 - va / 128)).map fun i => (va / 128 + i) * 128
  let pas := lines.filterMap fun l => match walk s n l with
    | .ok v _ pa _ _ _ => some ((pa + (l - v)) / 128)
    | _ => none
  let hit := fun (ln : Nat) => pas.contains ln
  let s := s.flushLines c hit inv
  s.cores.foldl (fun s ck => if ck.1 == c then s else (s.wcDrain ck.1 hit).writeBack ck.1 fun a => hit (a / 128)) s

/-- A scratchpad access may be performed: no earlier one of its agent that waits shares a byte (03 R73). -/
def Core.scratchFirst (k : Core) (v : VarOp) : Bool :=
  !v.body.touches.1 || !(k.vars.any fun u => u.agent == v.agent && u.seq < v.seq && u.body.touches.1 &&
    u.body.touches.2.any v.body.touches.2.contains)

/-- Perform an outstanding operation now; its results wait for their landing. -/
def State.performOne (s : State) (c id : Nat) : State :=
  match (s.core c).vars.find? (fun v => v.id == id) with
  | none => s
  | some v =>
    match v.body with
    | .access x =>
      if !x.ready s || !(s.core c).scratchFirst v then s
      else
        let s := if x.scratch then s else s.moved x.gid (v.body.touches.2.length)
        let d := runAccess s v.agent x
        match d.bad with
        | some pa => d.s.poisonAbort x.gid v.agent pa
        | none => (casTakes d.s v.agent x d.data).setBody c id (.results (x.results d.data))
    | .tgst pa bs bad rel =>
      let pas := span pa bs.length
      let far := match regionOf pa with | .peer _ _ => true | _ => false
      let s := (s.moved (s.gidOf v.agent) bs.length).eager c (if far && rel != 0 then max rel 5 else rel)
      let s := (s.homePrep c pas).homeWrite (s.partOf (s.gidOf v.agent)) pa bs false
      let s := if rel == 0 || memEnd ≤ pa then s else (s.tagWords c pas false).bumpRel c
      (s.addPoison (bad.map ErrLoc.mem)).setBody c id .quiet
    | .tgld t row pa len =>
      let pas := span pa len
      let s := ((s.moved (s.gidOf v.agent) len).homePrep c pas).outLoad (s.partOf (s.gidOf v.agent)) pa len
      (match if memEnd ≤ pa then none else pas.find? s.poisoned with
      | some pa => s.poisonAbort (s.gidOf v.agent) v.agent pa
      | none =>
        let s := if memEnd ≤ pa then s else s.addMask v.agent (tagCores s pas)
        let bs := (List.range len).map fun i => loadByte s i (pa + i)
        let ws := (List.range (len / 128)).map fun i =>
          Write.row t (row + i) ((List.range 32).zip (bytesWords 32 ((bs.drop (128 * i)).take 128)))
        s.setBody c id (.results ws))
    | .ldt _ _ _ _ _ => ldtAllocate s c v
    | .flush va len inv => (s.flushRange c (s.partOf (s.gidOf v.agent)) va len inv).setBody c id .quiet
    | _ => s

/-- Perform an outstanding operation, after the earlier scratchpad accesses of its agent if it is one (03 R73). -/
def State.performVar (s : State) (c id : Nat) : State :=
  match (s.core c).vars.find? (fun v => v.id == id) with
  | none => s
  | some v =>
    let old := if v.body.touches.1 then (s.core c).vars.filter fun u => u.agent == v.agent && u.seq < v.seq && u.body.touches.1 else []
    (old.foldl (fun s u => s.performOne c u.id) s).performOne c id

/-- Perform an agent's outstanding accesses that satisfy a test. -/
def State.settleIf (s : State) (a : Issuer) (p : VarOp → Bool) : State :=
  let c := coreOf a
  ((s.core c).vars.filter fun v => v.agent == a && p v).foldl (fun s v => s.performVar c v.id) s

def VarOp.acquires (v : VarOp) : Bool := match v.body with | .access x => x.ord == 1 || x.ord == 3 | _ => false
/-- A reservation or take that waits at its ring (17 R422). -/
def VarOp.isRing (v : VarOp) : Bool := match v.body with | .ring => true | _ => false
def VarOp.isLdt (v : VarOp) : Bool := match v.body with | .ldt _ _ _ _ _ => true | _ => false

/-- An address of the host aperture (12 R268). -/
def isHost (pa : Nat) : Bool := match regionOf pa with | .host _ => true | _ => false

/-- Before a new access: earlier acquires, earlier accesses to a common byte, the snapshots of earlier LDTs, and earlier accesses to the
host aperture before one to it (03 R73, 09 R204, R215, 16 R393). -/
def State.settle (s : State) (a : Issuer) (scratch : Bool) (pas : List Nat) : State :=
  let host := !scratch && pas.any isHost
  s.settleIf a fun v => v.acquires || v.isLdt ||
    (v.body.touches.1 == scratch && v.body.touches.2.any fun p => pas.contains p || (host && isHost p))

/-- Before a release: every earlier access (09 R207). -/
def State.settleAll (s : State) (a : Issuer) : State := s.settleIf a fun _ => true

/-- Land the results of an operation and let its token fall (07 R162). A register written meanwhile ends free (02 R51). -/
def State.finishVar (s : State) (c : Nat) (v : VarOp) (ws : List Write) : State :=
  let s := ((List.range ws.length).zip ws).foldl (fun s iw =>
    let w := iw.2
    let free := (w.regsOf s v.agent).any v.clash.contains
    s.land v.agent (if free then w.freed s (60000 + 64 * iw.1) v.clash else w)) s
  let s := s.modCore c fun k => { k with vars := k.vars.filter fun u => u.id != v.id }
  let s := s.subTok v.agent v.tok
  -- a TAKE may have waited for this access of its giver (04 R90)
  let s := (s.core c).owners.foldl (fun s o =>
    if o.2.st == .offered && o.2.owner == agentNo v.agent then s.push (.takeComplete c o.2.dst) else s) s
  let s := if v.body.touches.1 then ((s.core c).vars.filter fun u => u.agent == v.agent && u.body.touches.1).foldl
    (fun s u => s.push (.variableResultDone c u.id)) s else s
  -- the group may now retire or be saved, and tiles may now be free of pending writes
  let s := v.tiles.eraseDups.foldl (fun s t => (s.push (.tileFreed c t)).push (.takeComplete c (agentNo v.agent))) s
  s.push (.groupRetire (s.gidOf v.agent))

/-- VARIABLE_RESULT_DONE: the operation is performed, its results land and its token falls (07 R162). -/
def varDone (s : State) (c id : Nat) : State :=
  match (s.core c).vars.find? (fun v => v.id == id) with
  | none => s
  | some v0 =>
    let s := s.performVar c id
    match (s.core c).vars.find? (fun v => v.id == id) with
    | none => s
    | some v =>
      let s' := if v0.load then s.monitor (dieOf c) 0 (s.partOf (s.gidOf v.agent)) c (s.now - v.issued) else s
      match v.body with
      | .results ws => s'.finishVar c { v with body := v0.body } ws
      | .quiet => s'.finishVar c { v with body := v0.body } []
      | _ => s

/-! ### What holds an access back -/

/-- Virtual ranges that a warp's next instruction would write in global memory (03 R73): of its active real lanes, or the frames that
a call may spill. -/
def writeRanges (s : State) (v : View) (i : Instr) : List (Nat × Nat) :=
  let lanes := fun (n : Nat) (f : Nat → W64) => v.realLanes.map fun j => ((f j).toNat, n)
  match i with
  | .st _ v2 f | .stNt _ v2 f => let n := memBytes (stSize v2) f; lanes n (memEa s v f n)
  | .atom _ v5 f => lanes (atomSize v5) fun j => readR64 s v 0 false f.a.toNat j
  | .atomAddFloat _ _ f => lanes 4 fun j => readR64 s v 0 false f.a.toNat j
  | .call _ _ | .callFar _ _ | .callx _ _ => [((s.gridOf v.gid).spill + (v.c * 64 + v.w) * 163840, 163840)]
  | _ => []

/-- The next instruction would write bytes of the segment of an earlier LDT of the warp that has no entry yet: it is held back, since it
may not reach the snapshot (03 R73, 08 R180, 16 R393; DEDUCED, log 18). -/
def beforeLdt (s : State) (v : View) (i : Instr) : Bool :=
  let n := s.partOf v.gid
  let segs := (s.core v.c).vars.filterMap fun u => match u.agent == v.me, u.body with
    | true, .ldt va size _ _ _ => some (va.toNat, 128 * 2 ^ size)
    | _, _ => none
  let meets := fun (a k b l : Nat) => a < b + l && b < a + k
  !segs.isEmpty && (writeRanges s v i).any fun r => segs.any fun g => meets r.1 r.2 g.1 g.2 ||
    (match mappedAt s v.c n r.1, mappedAt s v.c n g.1 with | some p, some q => meets p r.2 q g.2 | _, _ => false)

/-- An agent has an outstanding access that cannot be performed yet, since it reaches a saved group (16 R392, 18 R436), with a
property. -/
def State.stuck (s : State) (a : Issuer) (p : Access → Bool) : Bool :=
  (s.core (coreOf a)).vars.any fun u => u.agent == a && (match u.body with | .access x => !x.ready s && p x | _ => false)

/-- The core's request tracker is full (01 R17, 00 R2): every outstanding variable-latency operation and every started copy counts as
one request (DESIGN CHOICE, log 54). -/
def Core.trackerFull (k : Core) : Bool := 2048 ≤ k.vars.length + (k.copies.filter (·.started)).length

/-! ### Issue of an access -/

/-- Lanes that carry a release of FENCE, and the scope they carry (09 R204). -/
def View.carried (v : View) : Option Nat :=
  let l := v.wp.carried.filter fun x => v.real.getLsbD x.1
  if l.isEmpty then none else some (l.foldl (fun m x => max m x.2) 0)

/-- The scope of the release that a write performs, and whether it tags its words: its own release, or the one that its lanes carry if it
is strong, which then is at the FENCE's scope or at the write's own if that is wider (09 R204, R207, R208, R212; 16 R372). -/
def relOf (v : View) (ord scope : Nat) (strong : Bool) : Nat × Bool :=
  let own := if ord == 2 || ord == 3 then scope else 0
  let sc := if strong then v.carried.getD 0 else 0
  (if sc == 0 then own else max scope sc, own == 2 || own == 3 || sc == 2 || sc == 3)
/-- A write that certainly writes takes up what its lanes carry at its issue. -/
def dropCarried (v : View) (strong : Bool) (s : State) : State := if strong then s.uncarry v.me v.realLanes else s

/-- 64-byte chunks that stored registers poison: those with poisoned words of a tile (07 R161). -/
def storeBad (s : State) (v : View) (g : Bool) (n k : Nat) (lanes : List LaneAcc) : List Nat :=
  if g || s.poison.isEmpty then []
  else (lanes.filter fun l => (runRegs n k).any fun r => match v.wp.loc r with
    | some (t, row) => s.poison.contains (.tile v.c t (2 * row + l.lane / 16))
    | none => false).flatMap fun l => ((l.span l.bytes.length).map (· / 64)).eraseDups

/-- An access of a warp's instruction. -/
def mkAccess (s : State) (v : View) (kind : AccKind) (ord scope : Nat) (rel : Nat × Bool) (lanes : List LaneAcc) (dst : LoadDst)
    (scratch : Bool) (bad : List Nat := []) : Access where
  kind := kind
  ord := ord
  scope := scope
  rel := rel.1
  tag := rel.2
  bad := bad
  lanes := lanes
  dst := dst
  part := s.partOf v.gid
  gid := v.gid
  scratch := scratch

/-- Issue an access that is performed later. -/
def issueAccess (v : View) (tok : Nat) (x : Access) (s : State) : State :=
  let ws := x.results []
  s.issueVar v.me tok (if x.dst.uniform then (List.range (max 1 (x.dst.bytes / 4))).map fun i => (true, x.dst.first + i)
    else writeRegs s v.me ws) (writeTiles ws) (.access x) true (x.kind == .load)

/-- The destination of a load (13 R304). -/
def loadDst (v : View) (g : Bool) (d es bytes : Nat) (signed : Bool) (zero : List Nat) : LoadDst where
  uniform := g
  first := d
  rows := if g then [] else (List.range (max 1 (bytes / 4))).filterMap fun i => v.wp.loc (d + i)
  esize := es
  bytes := bytes
  signed := signed
  zeroLanes := zero

/-- Load bytes through the L1, lane after lane: the lane's lines come in, then its bytes are read (07 R156). A poisoned byte gives zeros in
a lane that is not real (02 R33). -/
def l1LoadLanes (c size : Nat) (real : W32) : List (Nat × Nat) → State → List (Nat × List Byte) × Option Nat × State
  | [], s => ([], none, s)
  | (j, pa) :: t, s =>
    let s := s.l1Touch c (span pa size)
    let bs := (span pa size).map fun a => (s.l1Byte c a).getD 0
    let bad := (span pa size).find? fun a => (s.l1Byte c a).isNone
    let (l, bad', s) := l1LoadLanes c size real t s
    ((j, if bad.isSome then List.replicate size 0 else bs) :: l, (if bad.isSome && real.getLsbD j then bad else bad'), s)

/-- Lines of which a load fetches bytes. -/
def l1Misses (s : State) (c : Nat) (pas : List Nat) : Nat :=
  let l1 := (s.core c).l1
  ((pas.filter fun a => (mget? (mget {} l1 (a / 128)).bytes (a % 128)).isNone).map (· / 128)).eraseDups.length

/-- Lanes that load: all active lanes, or the lowest active real lane for a g destination (16 R390). -/
def loadLanes (v : View) (g : Bool) : List Nat := if g then v.lane0.toList else v.lanes

/-- A lane of a plain, warp- or core-scope access under a policy that the L1 serves (09 R202, 07 R155, R156). -/
def viaL1 (f : Mem) (o : Nat × Nat × W64) : Bool := f.ord == 0 && f.scope.toNat ≤ 2 && leafCp o.2.2 % 2 == 0

/-- LD (16 R389 to R391). Each lane is performed where its page's policy has it: lanes that the L1 serves now, the others later. -/
def ldBody (v3 : BitVec 3) (f : Mem) : View → State → Res :=
  let es := ldSize v3
  let n := memBytes es f
  let g := xB f.x
  guardV (runRegsX (xA f.x) f.a.toNat 2 ++ runRegsX g f.d.toNat (memRegs es f)) fun v s =>
    let lanes := loadLanes v g
    let part := s.partOf v.gid
    let (xs, s') := laneFold (fun s j => laneGlobal s v.c part .r n n (memEa s v f n j)) lanes s
    match sortOut s v.real 0 xs with
    | .error r => r
    | .ok oks =>
      let zero := lanes.filter fun j => oks.all fun o => o.1 != j
      let dst := loadDst v g f.d.toNat es n (v3 == 0 || v3 == 2) zero
      let pas := oks.flatMap fun o => span o.2.1 n
      let s' := s'.settle v.me false pas
      if lanes.isEmpty then .ok s' .next
      else
        let near := oks.filter (viaL1 f)
        let far := oks.filter fun o => !viaL1 f o
        let npas := near.flatMap fun o => span o.2.1 n
        let (data, bad, s2) := l1LoadLanes v.c n v.wp.real (near.map fun o => (o.1, o.2.1)) (s'.moved v.gid (128 * l1Misses s' v.c npas))
        let s2 := if f.scope == 0 then s2 else s2.addMask v.me (tagCores s2 npas)
        match bad with
        | some pa => .ok (s2.poisonAbort v.gid v.me pa) .next
        | none =>
          if far.isEmpty then
            let ws := loadWrites dst data
            .ok (s2.issueVar v.me f.tok.toNat (writeRegs s2 v.me ws) (writeTiles ws) (.results ws) true true) .next
          else
            -- policy 1 loads write back the dirty bytes of their line (07 R156)
            let s2 := s2.writeBack v.c fun a => far.any fun o => leafCp o.2.2 == 1 && a / 128 == o.2.1 / 128
            .ok (issueAccess v f.tok.toNat { mkAccess s v .load f.ord.toNat f.scope.toNat (0, false)
              (far.map fun o => ⟨o.1, o.2.1, []⟩) dst false with got := data } s2) .next
def execLd (h : Hdr) (v : BitVec 3) (f : Mem) (s : State) : Out3 := runWarp h (.ld h v f) (ldBody v f) s

/-- Destination of an access that returns nothing. -/
def noDst (bytes : Nat) : LoadDst := ⟨true, 0, [], 4, bytes, false, []⟩

/-- What a lane's store does at its issue: ST.nt of device memory writes into the write-combining buffer, a plain one that the L1 serves
into the L1; any other goes to its home slice (09 R202; 07 R155, R156, R159). -/
def storesNow (nt : Bool) (rel : Nat) (f : Mem) (o : Nat × Nat × W64) : Bool :=
  if nt then o.2.1 < memEnd else rel == 0 && f.scope.toNat ≤ 2 && leafCp o.2.2 % 2 == 0

/-- The lanes of a store that are performed at its issue, in the L1 or in the write-combining buffer. -/
def storeNow (nt : Bool) (v : View) (lanes : List LaneAcc) (bad : List Nat) (s : State) : State :=
  let cells := lanes.flatMap fun l => cellsAt l.pa l.bytes
  let grid := (s.group v.gid).grid
  if nt then
    let s := s.wcStore v.c grid cells
    if bad.isEmpty then s else (s.wcDrain v.c fun ln => bad.any fun b => b / 2 == ln).addPoison (bad.map ErrLoc.mem)
  else (s.l1Store v.c grid cells).addPoison (bad.map (ErrLoc.l1 v.c))

/-- ST and ST.nt (18 R435 to R437): real lanes only; the highest lane's byte stays (03 R74). -/
def stBody (nt : Bool) (v2 : BitVec 2) (f : Mem) : View → State → Res :=
  let es := stSize v2
  let n := memBytes es f
  let k := memRegs es f
  guardV (runRegsX (xA f.x) f.a.toNat 2 ++ runRegsX (xB f.x) f.d.toNat k) fun v s =>
    if v.real == 0 then .ok s .next
    else
      let part := s.partOf v.gid
      let (xs, s') := laneFold (fun s j => laneGlobal s v.c part .w n n (memEa s v f n j)) v.realLanes s
      match sortOut s v.real 1 xs with
      | .error r => r
      | .ok oks =>
        let strong := f.ord != 0 || f.scope != 0
        let rel := relOf v f.ord.toNat f.scope.toNat strong
        let lanesOf_ := fun (l : List (Nat × Nat × W64)) => l.map fun o =>
          (⟨o.1, o.2.1, dataBytes s v 4 (xB f.x) f.d.toNat k n o.1⟩ : LaneAcc)
        let near := lanesOf_ (oks.filter (storesNow nt rel.1 f))
        let far := lanesOf_ (oks.filter fun o => !storesNow nt rel.1 f o)
        let bad := storeBad s v (xB f.x) f.d.toNat k
        let pas := oks.flatMap fun o => span o.2.1 n
        let s' := if rel.1 != 0 then s'.settleAll v.me else s'.settle v.me false pas
        let s' := (dropCarried v strong s').collTouchPa pas
        let s' := storeNow nt v near (bad near) s'
        if far.isEmpty then .ok (s'.issueVar v.me f.tok.toNat [] [] .quiet) .next
        else .ok (issueAccess v f.tok.toNat
          (mkAccess s v .store f.ord.toNat f.scope.toNat rel far (noDst 0) false (bad far)) s') .next
def execSt (h : Hdr) (v : BitVec 2) (f : Mem) (s : State) : Out3 := runWarp h (.st h v f) (stBody false v f) s
def execStNt (h : Hdr) (v : BitVec 2) (f : Mem) (s : State) : Out3 := runWarp h (.stNt h v f) (stBody true v f) s

/-! ### Scratchpad -/

/-- An access to the issuer's own scratchpad is performed at its issue, one to another rank's later (09 R202). -/
def issueScratch (v : View) (tok : Nat) (x : Access) (size : Nat) (s : State) : Res :=
  if x.lanes.all fun l => l.pa / 2 ^ 32 == v.gid then
    let d := scratchAccess s v.me x size
    match d.bad with
    | some pa => .ok (d.s.poisonAbort v.gid v.me pa) .next
    | none =>
      let ws := x.results d.data
      let s := casTakes d.s v.me x d.data
      .ok (s.issueVar v.me tok (writeRegs s v.me ws) (writeTiles ws) (.results ws) true (x.kind == .load)) .next
  else .ok (issueAccess v tok x s) .next

/-- LDS (16 R392). -/
def ldsBody (cl : Bool) (v3 : BitVec 3) (f : Mem) : View → State → Res :=
  let es := ldSize v3
  let n := memBytes es f
  let g := xB f.x
  guardV (runRegsX (xA f.x) f.a.toNat 1 ++ runRegsX g f.d.toNat (memRegs es f)) fun v s =>
    let lanes := loadLanes v g
    let xs := lanes.map fun j => (j, laneScratch s v.gid cl n n (memEa32 s v f n j))
    match sortOut s v.real 0 xs with
    | .error r => r
    | .ok oks =>
      if lanes.isEmpty then .ok s .next
      else
        let zero := lanes.filter fun j => oks.all fun o => o.1 != j
        let s' := s.settle v.me true (oks.flatMap fun o => span o.2.1 n)
        issueScratch v f.tok.toNat (mkAccess s v .load f.ord.toNat f.scope.toNat (0, false) (oks.map fun o => ⟨o.1, o.2.1, []⟩)
          (loadDst v g f.d.toNat es n (v3 == 0 || v3 == 2) zero) true) n s'
def execLds (h : Hdr) (v : BitVec 3) (f : Mem) (s : State) : Out3 := runWarp h (.lds h v f) (ldsBody false v f) s
def execLdsCl (h : Hdr) (v : BitVec 3) (f : Mem) (s : State) : Out3 := runWarp h (.ldsCl h v f) (ldsBody true v f) s

/-- STS (18 R435 to R437). -/
def stsBody (cl : Bool) (v2 : BitVec 2) (f : Mem) : View → State → Res :=
  let es := stSize v2
  let n := memBytes es f
  let k := memRegs es f
  guardV (runRegsX (xA f.x) f.a.toNat 1 ++ runRegsX (xB f.x) f.d.toNat k) fun v s =>
    if v.real == 0 then .ok s .next
    else
      let xs := v.realLanes.map fun j => (j, laneScratch s v.gid cl n n (memEa32 s v f n j))
      match sortOut s v.real 1 xs with
      | .error r => r
      | .ok oks =>
        let strong := f.ord != 0 || f.scope != 0
        let rel := relOf v f.ord.toNat f.scope.toNat strong
        let lanes := oks.map fun o => (⟨o.1, o.2.1, dataBytes s v 4 (xB f.x) f.d.toNat k n o.1⟩ : LaneAcc)
        let s' := if rel.1 != 0 then s.settleAll v.me else s.settle v.me true (oks.flatMap fun o => span o.2.1 n)
        issueScratch v f.tok.toNat (mkAccess s v .store f.ord.toNat f.scope.toNat rel lanes (noDst 0) true
          (storeBad s v (xB f.x) f.d.toNat k lanes)) n (dropCarried v strong s')
def execSts (h : Hdr) (v : BitVec 2) (f : Mem) (s : State) : Out3 := runWarp h (.sts h v f) (stsBody false v f) s
def execStsCl (h : Hdr) (v : BitVec 2) (f : Mem) (s : State) : Out3 := runWarp h (.stsCl h v f) (stsBody true v f) s

/-! ### Atomics -/

/-- An aperture that ATOM cannot reach (15 R338): the register aperture, or the host aperture but for integer .add, .exch and
.cas. -/
def atomAperture (code : Nat) (va : W64) : LX → LX
  | .ok pa leaf => match regionOf pa with
    | .regs _ _ => .trap ⟨rkAperture, 0x60, va, 8⟩ 0xFF 0
    | .host _ => if code / 4 == 0 || code / 4 == 6 || code / 4 == 7 then .ok pa leaf
        else .trap ⟨rkAperture, 0x60, va, 8⟩ 0xFF 0
    | _ => .ok pa leaf
  | x => x

/-- ATOM (15 R335 to R338), by the code of `atomCombine`. -/
def atomBody (code size : Nat) (f : Atomf) : View → State → Res :=
  let cas := code / 4 == 7
  let kb := if cas then 2 * size / 4 else size / 4
  guardV (runRegs f.a.toNat 2 ++ runRegs f.b.toNat kb ++ (if f.nr then [] else runRegs f.d.toNat (size / 4))) fun v s =>
    if v.real == 0 then .ok s .next
    else
      let part := s.partOf v.gid
      let (xs, s') := laneFold (fun s j =>
        let va := readR64 s v 0 false f.a.toNat j
        let (x, s) := laneGlobal s v.c part .rw size size va
        (atomAperture code va x, s)) v.realLanes s
      match sortOut s v.real 3 xs with
      | .error r => r
      | .ok oks =>
        let scope := if f.scope == 0 then 4 else f.scope.toNat
        let rel := relOf v f.ord.toNat scope true
        let lanes := oks.map fun o => (⟨o.1, o.2.1, dataBytes s v 4 false f.b.toNat kb (4 * kb) o.1⟩ : LaneAcc)
        let s' := if rel.1 != 0 then s'.settleAll v.me
          else s'.settle v.me false (oks.flatMap fun o => span o.2.1 size)
        let dst := if f.nr then noDst 0 else loadDst v false f.d.toNat size size false []
        .ok (issueAccess v f.tok.toNat (mkAccess s v (.rmw code size false (!f.nr)) f.ord.toNat scope rel lanes dst false
          (storeBad s v false f.b.toNat kb lanes)) (dropCarried v (!cas) s')) .next
def execAtom (h : Hdr) (v : BitVec 5) (f : Atomf) (s : State) : Out3 :=
  runWarp h (.atom h v f) (atomBody v.toNat (atomSize v) f) s
def execAtomAddFloat (h : Hdr) (v : Bool) (f : Atomf) (s : State) : Out3 :=
  runWarp h (.atomAddFloat h v f) (atomBody (if v then 33 else 32) 4 f) s

/-- ATOMS (15 R339): in the issuing group's own scratchpad. -/
def atomsBody (code size : Nat) (f : Atomf) : View → State → Res :=
  let cas := code / 4 == 7
  let kb := if cas then 2 * size / 4 else size / 4
  guardV ([f.a.toNat] ++ runRegs f.b.toNat kb ++ (if f.nr then [] else runRegs f.d.toNat (size / 4))) fun v s =>
    if v.real == 0 then .ok s .next
    else
      let xs := v.realLanes.map fun j => (j, laneScratch s v.gid false size size (readV s v 0 f.a.toNat j))
      match sortOut s v.real 3 xs with
      | .error r => r
      | .ok oks =>
        let scope := if f.scope == 0 then 2 else f.scope.toNat
        let rel := relOf v f.ord.toNat scope true
        let lanes := oks.map fun o => (⟨o.1, o.2.1, dataBytes s v 4 false f.b.toNat kb (4 * kb) o.1⟩ : LaneAcc)
        let s' := if rel.1 != 0 then s.settleAll v.me
          else s.settle v.me true (oks.flatMap fun o => span o.2.1 size)
        let dst := if f.nr then noDst 0 else loadDst v false f.d.toNat size size false []
        issueScratch v f.tok.toNat (mkAccess s v (.rmw code size false (!f.nr)) f.ord.toNat scope rel lanes dst true
          (storeBad s v false f.b.toNat kb lanes)) size (dropCarried v (!cas) s')
def execAtoms (h : Hdr) (v : BitVec 5) (f : Atomf) (s : State) : Out3 :=
  runWarp h (.atoms h v f) (atomsBody v.toNat (atomSize v) f) s
def execAtomsAddFloat (h : Hdr) (v : Bool) (f : Atomf) (s : State) : Out3 :=
  runWarp h (.atomsAddFloat h v f) (atomsBody (if v then 33 else 32) 4 f) s

/-! ### PREF, FENCE, FLUSHR, INVR -/

/-- PREF (17 R413) may fetch lines or do nothing, raises no trap for its address and changes no value: here it does nothing. -/
def execPref (h : Hdr) (f : Mem) (s : State) : Out3 :=
  runWarp h (.pref h f) (guardV (runRegsX (xA f.x) f.a.toNat 2) fun _ s => .ok s .next) s

/-- The pending mask of an agent (09 R209). -/
def State.pendMask (s : State) : Issuer → List Nat
  | .warp c w => (s.warp c w).pmask
  | .ctx c k => (s.ctx c k).pmask
  | .none => []
def State.setMask (s : State) (a : Issuer) (m : List Nat) : State :=
  match a with
  | .warp c w => s.modWarp c w fun x => { x with pmask := m }
  | .ctx c k => s.modCtx c k fun x => { x with pmask := m }
  | .none => s

/-- An acquire of an agent at a scope with its pending mask, as FENCE.acq performs it (09 R209, R210, R212). -/
def acquireAt (s : State) (a : Issuer) (gid scope : Nat) : State :=
  let c := coreOf a
  let cl := clusterCores s gid
  let mask := s.pendMask a
  let s := (s.acquireDrop c (s.partOf gid) scope).acquireMask c scope cl mask
  s.setMask a (if 4 ≤ scope then [] else if scope == 3 then mask.filter fun r => !cl.contains r else mask)

/-- FENCE of an agent of a group (16 R371, R372; 09 R212): its earlier accesses are performed, then it releases, then it acquires with
the pending mask that they have left. -/
def fenceEffect (s : State) (a : Issuer) (gid ord scope : Nat) : State :=
  let s := s.settleAll a
  let s := if ord == 2 || ord == 3 || ord == 4 then s.eager (coreOf a) scope else s
  if ord == 1 || ord == 3 || ord == 4 then acquireAt s a gid scope else s

/-- A release fence at core or cluster scope is carried by the next strong write of each lane. -/
def carries (ord scope : Nat) : Bool := (ord == 2 || ord == 3 || ord == 4) && scope < 4

/-- FENCE of a warp acts once when a lane is active, helper lanes included; every active real lane carries the release. -/
def fenceBody (f : Mem) (v : View) (s : State) : Res :=
  let ord := f.ord.toNat
  let scope := f.scope.toNat
  if v.act == 0 || ord == 0 then .ok s .next
  else
    let s := fenceEffect s v.me v.gid ord scope
    let take := fun (l : List (Nat × Nat)) => l.filter (fun y => !v.real.getLsbD y.1) ++
      v.realLanes.map fun j => (j, max scope (((l.find? fun y => y.1 == j).map (·.2)).getD 0))
    .ok (if carries ord scope then s.modWarp v.c v.w fun x => { x with carried := take x.carried } else s) .next

/-- FLUSHR and INVR (16 R374, R387). -/
def flushBody (inv : Bool) (f : Asy) : View → State → Res :=
  onceWarp (guardV (runRegsX (xA f.x) f.a.toNat 2 ++ runRegsX (xB f.x) f.b.toNat 1) fun v s =>
    let j := v.lane0.getD 0
    let base := readR64 s v 0 (xA f.x) f.a.toNat j
    let len := (readR s v 2 (xB f.x) f.b.toNat j).toNat + 1
    if 2 ^ 48 < base.toNat + len || 2 ^ 48 ≤ base.toNat then Res.of s ⟨rkCanon, 0x22, base, 2⟩ v.realLanes
    else
      let s := s.settleAll v.me
      .ok (s.issueVar v.me f.tok.toNat [] [] (.flush base.toNat len inv)) .next)
def execFlushr (h : Hdr) (f : Asy) (s : State) : Out3 := runWarp h (.flushr h f) (flushBody false f) s
def execInvr (h : Hdr) (f : Asy) (s : State) : Out3 := runWarp h (.invr h f) (flushBody true f) s

/-! ### Events of the caches -/

/-- The meaning of an event: nothing happens in a device that has halted, and there is none without power. -/
def runEvent (f : State → State) (s : State) : Out3 :=
  if !s.mgmt.power then .fault .powerOff
  else if s.mgmt.fatal then .next s
  else .next (f s).useFree

/-- The meaning of a write to the management page: it answers in a device that has halted too (12 R281). -/
def runMgmt (f : State → State) (s : State) : Out3 :=
  if !s.mgmt.power then .fault .powerOff else .next (f s).useFree

def execVariableResultDone (core id : Nat) (s : State) : Out3 := runEvent (fun s => varDone s core id) s
/-- An entry of the write-combining buffer may drain at any time (07 R159). -/
def execWcEntryDrain (core line : Nat) (s : State) : Out3 := runEvent (fun s => s.wcDrain core fun l => l == line) s
/-- Which line leaves an L1, and when, is not architectural (07 R156). -/
def execL1Evict (core line : Nat) (s : State) : Out3 := runEvent (fun s => s.l1Evict core line) s
/-- A slice may promote a tagged core at any time: it writes back its dirty bytes, and its pairs go (09 R208, R209). -/
def execPromotion (core : Nat) (s : State) : Out3 :=
  runEvent (fun s =>
    let s := s.promote core
    { s with tags := (s.tags.map fun t => (t.1, t.2.filter fun p => p.1 != core)).filter fun t => !t.2.isEmpty }) s
/-- Dirty bytes of one core arrive clean in another of its cluster (09 R210). -/
def execClusterForward (src dst : Nat) (s : State) : Out3 :=
  runEvent (fun s =>
    let together := s.clusters.any fun c =>
      let cs := c.2.groups.filterMap fun g => match mget? s.groups g with
        | some x => if x.phase == .gone then none else some x.core
        | none => none
      cs.contains src && cs.contains dst
    if src == dst || !together then s else s.forward src dst none) s
/-- An FD line is resolved (09 R210). -/
def execFdResolve (core line : Nat) (s : State) : Out3 := runEvent (fun s => s.resolveFd core fun l => l == line) s

end Sys2Proof.Machine
end

