-- ==== Sys2Proof/Machine/Control.lean ====
section
/-! DEFINITION. Control flow and traps of a warp: branches, calls, returns, EXIT, ERET, TRAP, BKPT, NOP
(03 R59 to R71; 15 R344 to R346, R348 to R350; 16 R363 to R365; 17 R410, R420; 18 R449). -/

namespace Sys2Proof.Machine

/-! ### The frontier update of a redirecting instruction (03 R62 to R64) -/

/-- The entry of the lanes that do not move: next_pc, the old priority and depth. -/
def View.rest (v : View) (long : Bool) : Entry := { v.e with pc := nextPc v.e.pc long, mask := v.e.mask &&& ~~~v.act }

/-- The frontier after the active lanes have moved to entries, or FRONTIER_OVERFLOW with the count of entries (R64). -/
def moveTo (s : State) (v : View) (long : Bool) (moved : List Entry) : Except Res (List Entry) :=
  let f := v.wp.replaceFirst (moved ++ [v.rest long])
  if (s.gridOf v.gid).frontier < f.length then
    .error (Res.of s ⟨rkFrontier, 0x13, BitVec.ofNat 64 f.length, 8⟩ v.realLanes)
  else .ok f

def setFrontier (v : View) (f : List Entry) (s : State) : State := s.modWarp v.c v.w fun x => { x with frontier := f }

/-- A direct target (13 R308): (PC + 8 · sext(OFF)) mod 2⁴⁸. -/
def brTarget (pc : BitVec 48) (off : Int) : BitVec 48 := pc + BitVec.ofInt 48 (8 * off)

/-- BRA and BRA.far (15 R345, R346). -/
def braBody (long : Bool) (prio : BitVec 16) (off : Int) (v : View) (s : State) : Res :=
  if v.act == 0 then .ok s .next
  else match moveTo s v long [{ pc := brTarget v.e.pc off, prio := prio, mask := v.act, depth := v.e.depth }] with
    | .error r => r
    | .ok f => .ok (setFrontier v f s) .moved
def execBra (h : Hdr) (f : Br) (s : State) : Out3 := runWarp h (.bra h f) (braBody false f.prio f.off.toInt) s
def execBraFar (h : Hdr) (f : Far) (s : State) : Out3 := runWarp h (.braFar h f) (braBody true f.prio f.off.toInt) s

/-- ADDR and PRIO of a code pointer (R59). -/
def ptrPc (p : W64) : BitVec 48 := BitVec.ofNat 48 (bitsN p.toNat 47 3 * 8)
def ptrPrio (p : W64) : BitVec 16 := p.extractLsb' 48 16
def codePtr (pc : BitVec 48) (prio : BitVec 16) : W64 := prio ++ pc

/-- The code pointers of the active lanes, or MISALIGNED in the real lanes whose pointer has a low bit set (R59, R348). -/
def pointers (s : State) (v : View) (f : SysF) : Except Res (List (Nat × W64)) :=
  let ps := v.lanes.map fun j => (j, readR64 s v 0 f.xa f.a.toNat j)
  let bad := ps.filter fun p => v.real.getLsbD p.1 && p.2.extractLsb' 0 3 != 0
  if bad.isEmpty then .ok ps else .error (.trap s 0x20 8 bad 0xFF 0 0)

/-- One entry for each lane; entries of one PC and depth merge (R63). -/
def laneEntries (depth : Nat) (ps : List (Nat × W64)) : List Entry :=
  ps.map fun p => { pc := ptrPc p.2, prio := ptrPrio p.2, mask := BitVec.twoPow 32 p.1, depth := depth }

/-- BRX (15 R348). -/
def brxBody (f : SysF) : View → State → Res :=
  guardV (runRegsX f.xa f.a.toNat 2) fun v s =>
    if v.act == 0 then .ok s .next
    else match pointers s v f with
      | .error r => r
      | .ok ps => match moveTo s v false (laneEntries v.e.depth ps) with
        | .error r => r
        | .ok fr => .ok (setFrontier v fr s) .moved
def execBrx (h : Hdr) (f : SysF) (s : State) : Out3 := runWarp h (.brx h f) (brxBody f) s

/-! ### Frames (03 R66 to R70) -/

/-- The address of frame `k` of a warp slot in memory (R68). -/
def frameAddr (s : State) (v : View) (k : Nat) : Nat :=
  (s.gridOf v.gid).spill + (v.c * 64 + v.w) * 163840 + (k - 1) * 320

/-- The 320 bytes of a frame (R69). -/
def Frame.bytes (f : Frame) : List Byte :=
  ((List.range 32).flatMap fun j => leBytes 8 (if f.mask.getLsbD j then (mget 0 f.rets j).toNat else 0)) ++
  leBytes 4 f.mask.toNat ++ List.replicate 60 0
def frameOf (depth : Nat) (bs : List Byte) (exited : W32) : Frame :=
  let m := BitVec.ofNat 32 (leNat ((bs.drop 0x100).take 4)) &&& ~~~exited
  { depth := depth, mask := m, rets := (lanesOf m).map fun j => (j, BitVec.ofNat 64 (leNat ((bs.drop (8 * j)).take 8))) }

/-- The pieces of a frame's access: 64 bytes each, since a frame may lie across two pages. -/
def framePieces (s : State) (v : View) (need : Need) (a : Nat) : List (Nat × LX) × State :=
  laneFold (fun s i =>
    let va := BitVec.ofNat 64 (a + 64 * i)
    laneGlobal s v.c (s.partOf v.gid) need 64 64 va) (List.range 5) s

/-- The fate of a frame's access (R70): class 2 is STACK_SPILL_FAULT with the frame's address, bit 0 set for a fill; class 1
waits; class 3 aborts. Its record names cause 8 (R257; DEDUCED, log 32). A frame in a sealed range takes SEALED_STORE as any store (07 R173; DEDUCED, log 9).
A frame address at or above 2⁴⁸ ends as class 2 (DESIGN CHOICE, log 57). -/
def frameFate (s0 : State) (v : View) (fill : Bool) (a : Nat) (xs : List (Nat × LX)) : Except Res (List (Nat × W64)) :=
  match xs.findSome? fun x => match x.2 with | .trap t l e => some (t, l, e) | _ => none with
  | some (t, l, e) =>
    let code := if t.code == 0x24 then 0x24 else 0x42
    let info := BitVec.ofNat 64 (a + if fill then 1 else 0)
    .error (.trap s0 code 8 (v.realLanes.map fun j => (j, info)) l e.toNat
      (if fill then 0 else 1))
  | none => match xs.findSome? fun x => match x.2 with | .fatal f va => some (f, va) | _ => none with
    | some (f, va) => .error (.fatal s0 f va (if fill then 0 else 1))
    | none => match xs.findSome? fun x => match x.2 with | .page va => some va | _ => none with
      | some va => .error (.page s0 va)
      | none => .ok (xs.filterMap fun x => match x.2 with | .ok pa leaf => some (pa, leaf) | _ => none)

/-- A plain store, or a plain load, of the pieces (R69): through the L1, or at the home slices under policies 1 and 3. -/
def storePieces (c gid : Nat) (bs : List Byte) (ps : List (Nat × W64)) (s : State) : State :=
  ((List.range ps.length).zip ps).foldl (fun s ip =>
    let piece := (bs.drop (64 * ip.1)).take 64
    let pa := ip.2.1
    if leafCp ip.2.2 % 2 == 0 then (s.collTouchPa (span pa 64)).l1Store c (s.group gid).grid (cellsAt pa piece)
    else ((s.moved gid 64).homePrep c (span pa 64)).homeWrite (s.partOf gid) pa piece false) s
def loadPieces (a : Issuer) (gid : Nat) : List (Nat × W64) → State → List Byte × Option Nat × State
  | [], s => ([], none, s)
  | (pa, leaf) :: t, s =>
    let c := coreOf a
    let (bs, bad, s) :=
      if leafCp leaf % 2 == 0 then
        let (l, bad, s) := l1LoadLanes c 64 (BitVec.allOnes 32) [(0, pa)] (s.moved gid (128 * l1Misses s c (span pa 64)))
        ((l.flatMap (·.2)), bad, s)
      else
        let s := if leafCp leaf == 1 then s.writeBack c fun b => b / 128 == pa / 128 else s
        let x : Access := ⟨.load, 0, 0, 0, false, [⟨32, pa, []⟩], noDst 64, s.partOf gid, gid, false, [], []⟩
        let d := homeLoad (s.moved gid 64) a x 64
        (d.data.flatMap (·.2), d.bad, d.s)
    let (bs', bad', s) := loadPieces a gid t s
    (bs ++ bs', if bad.isSome then bad else bad', s)

/-- Write the shallowest on-chip frame to memory (R68). -/
def spillFrame (s0 : State) (v : View) (s : State) : Except Res State :=
  let wp := s.warp v.c v.w
  match wp.frames.foldl (fun m f => match m with
      | none => some f
      | some g => if f.depth < g.depth then some f else some g) (none : Option Frame) with
  | none => .ok s
  | some f =>
    if (s.gridOf v.gid).spill == 0 then .error (Res.of s0 ⟨rkSpill, 0x42, 0, 8⟩ v.realLanes)
    else
      let a := frameAddr s v f.depth
      let (xs, s) := framePieces s v .w a
      match frameFate s0 v false a xs with
      | .error r => .error r
      | .ok ps =>
        let s := s.settle v.me false (ps.flatMap fun p => span p.1 64)
        let s := storePieces v.c v.gid f.bytes ps s
        .ok (s.modWarp v.c v.w fun x => { x with
          frames := x.frames.filter fun g => g.depth != f.depth
          spilled := insertNat f.depth x.spilled })

/-- Read a frame back from memory; exited lanes leave its mask, and a frame left empty is gone (R68, 16 R365). A poisoned byte that helper
lanes alone meet aborts nothing (02 R33). -/
def fillFrame (s0 : State) (v : View) (k : Nat) (s : State) : Except Res State :=
  let a := frameAddr s v k
  let (xs, s) := framePieces s v .r a
  match frameFate s0 v true a xs with
  | .error r => .error r
  | .ok ps =>
    let s := s.settle v.me false (ps.flatMap fun p => span p.1 64)
    let (bs, bad, s) := loadPieces v.me v.gid ps s
    match bad with
    | some pa => .error (if v.real == 0 then .ok s0 .next else .ok (s.poisonAbort v.gid v.me pa) .moved)
    | none =>
      .ok (s.modWarp v.c v.w fun x =>
        let f := frameOf k bs x.exited
        let rest := x.spilled.filter fun d => d != k
        { x with frames := if f.mask == 0 then x.frames else x.frames ++ [f], spilled := rest })

/-- CALL to entries one level deeper (15 R349, R350): the frontier, the depth, then the spill. Frames in memory from the new depth on are
of lanes that have all exited, and are no more. -/
def callTo (long : Bool) (moved : List Entry) (v : View) (s : State) : Res :=
  let g := s.gridOf v.gid
  let d := v.e.depth + 1
  match moveTo s v long moved with
  | .error r => r
  | .ok f =>
    if g.callDepth + 512 < d then Res.of s ⟨rkSpill, 0x42, 0, 8⟩ v.realLanes
    else
      let spilled := if g.callDepth ≤ v.wp.frames.length then spillFrame s v s else .ok s
      match spilled with
      | .error r => r
      | .ok s =>
        let ret := codePtr (nextPc v.e.pc long) v.e.prio
        let fr : Frame := { depth := d, mask := v.act, rets := v.lanes.map fun j => (j, ret) }
        .ok (setFrontier v f (s.modWarp v.c v.w fun x => { x with
          frames := x.frames ++ [fr], spilled := x.spilled.filter fun k => k < d })) .moved

def callBody (long : Bool) (prio : BitVec 16) (off : Int) (v : View) (s : State) : Res :=
  if v.act == 0 then .ok s .next
  else callTo long [{ pc := brTarget v.e.pc off, prio := prio, mask := v.act, depth := v.e.depth + 1 }] v s
def callxBody (f : SysF) : View → State → Res :=
  guardV (runRegsX f.xa f.a.toNat 2) fun v s =>
    if v.act == 0 then .ok s .next
    else match pointers s v f with
      | .error r => r
      | .ok ps => callTo false (laneEntries (v.e.depth + 1) ps) v s
def execCall (h : Hdr) (f : Br) (s : State) : Out3 := runWarp h (.call h f) (callBody false f.prio f.off.toInt) s
def execCallFar (h : Hdr) (f : Far) (s : State) : Out3 := runWarp h (.callFar h f) (callBody true f.prio f.off.toInt) s
def execCallx (h : Hdr) (f : SysF) (s : State) : Out3 := runWarp h (.callx h f) (callxBody f) s

/-! ### EXIT and RET -/

/-- Lanes leave their on-chip frames; an empty frame is popped (R67). -/
def clearLanes (m : W32) (fs : List Frame) : List Frame :=
  (fs.map fun f => { f with mask := f.mask &&& ~~~m, rets := f.rets.filter fun r => !m.getLsbD r.1 }).filter
    fun f => f.mask != 0

/-- The lanes of a warp that exit (16 R364, R365); handler mode ends with its last lane (11 R254). -/
def Warp.exitLanes (w : Warp) (m : W32) (f : List Entry) : Warp :=
  let x := { w with exited := w.exited ||| m, frames := clearLanes m w.frames, frontier := f }
  if x.hmode && x.held.mask &&& ~~~x.exited == 0 then
    { x with hmode := false, held := {}, frontier := sortEntries (mergeEntries x.frontier) }
  else x

def exitBody (v : View) (s : State) : Res :=
  if v.act == 0 then .ok s .next
  else
    let f := v.wp.replaceFirst [v.rest false]
    .ok (s.modWarp v.c v.w fun x => x.exitLanes v.act f) .moved
def execExit (h : Hdr) (f : SysF) (s : State) : Out3 := runWarp h (.exit h f) exitBody s

/-- RET at depth 1 or more, its frame on chip (R67, R68). -/
def retFrom (s0 : State) (v : View) (s : State) : Res :=
  let wp := s.warp v.c v.w
  let d := v.e.depth
  let callDepth := (s.gridOf v.gid).callDepth
  match wp.frames.find? fun f => f.depth == d with
  | none => .ok s .next
  | some fr =>
    let ps := v.lanes.map fun j => (j, mget 0 fr.rets j)
    let bad := ps.filter fun p => v.real.getLsbD p.1 && p.2.extractLsb' 0 3 != 0
    if !bad.isEmpty then .trap s0 0x20 8 bad 0xFF 0 0
    else
      let f := v.wp.replaceFirst (laneEntries (d - 1) ps ++ [v.rest false])
      let left := fr.mask &&& ~~~v.act
      let fr' := { fr with mask := left, rets := fr.rets.filter fun r => !v.act.getLsbD r.1 }
      let keep := fun (fs : List Frame) =>
        if left == 0 then fs.filter (fun g => g.depth != d) else fs.map (fun g => if g.depth == d then fr' else g)
      let s := s.modWarp v.c v.w fun x => { x with frames := keep x.frames }
      let filled := if left == 0 && callDepth < d && wp.spilled.contains (d - callDepth)
        then fillFrame s0 v (d - callDepth) s else .ok s
      match filled with
      | .error r => r
      | .ok s => .ok (setFrontier v f s) .moved

/-- RET (17 R420). -/
def retBody (v : View) (s : State) : Res :=
  let d := v.e.depth
  if v.act == 0 then .ok s .next
  else if v.wp.hmode && d == v.wp.held.depth then Res.of s trapOperand v.realLanes
  else if d == 0 then exitBody v s
  else
    let filled := if v.wp.spilled.contains d && v.wp.frames.all (fun f => f.depth != d) then fillFrame s v d s else .ok s
    match filled with
    | .error r => r
    | .ok s' => retFrom s v s'
def execRet (h : Hdr) (f : SysF) (s : State) : Out3 := runWarp h (.ret h f) retBody s

/-! ### NOP, ERET, TRAP, BKPT -/

def execNop (h : Hdr) (f : SysF) (s : State) : Out3 := runWarp h (.nop h f) (fun _ s => .ok s .next) s
def execEret (h : Hdr) (f : SysF) (s : State) : Out3 := runWarp h (.eret h f) eretBody s
def execTrap (h : Hdr) (f : SysF) (s : State) : Out3 :=
  runWarp h (.trap h f) (onceWarp fun v s => Res.of s ⟨rkTrap, 0x40, f.imm.setWidth 64, 8⟩ v.realLanes) s
def execBkpt (h : Hdr) (f : SysF) (s : State) : Out3 :=
  runWarp h (.bkpt h f) (onceWarp fun v s => Res.of s ⟨rkTrap, 0x41, 0, 8⟩ v.realLanes) s

/-! ### What comes to issue and is no instruction -/

/-- A trap of the first entry's lanes before anything of the word executes (03 R71, 13 R299). -/
def entryTrap (code cause : Nat) (info : W64) (level einfo access : Nat) (s : State) : Out3 :=
  match s.cur with
  | .warp c w =>
    match s.warp? c w with
    | none => .fault .noIssuer
    | some wp => match wp.first with
      | none => .fault .noIssuer
      | some e => .next (takeTrap s c w code cause ((lanesOf e.mask).map fun j => (j, info)) level einfo access).useFree
  | _ => .fault .noIssuer

/-- BRANCH_INTO_LITERAL (R71). -/
def execBranchIntoLiteral (s : State) : Out3 := entryTrap 0x06 8 0 0xFF 0 2 s
/-- ILLEGAL_OPCODE: a word that the decoder refuses, after the must-understand bit (13 R299, R460; 11 R250). -/
def execIllegalOpcode (w : BitVec 64) (s : State) : Out3 :=
  entryTrap (if w.getLsbD 10 then 0x03 else 0x01) 8 0 0xFF 0 2 s

/-- The translations of a warp's fetch, and whether the pc stands on the literal of a pair: where its bit 3 is set the even word is read
first, which needs RD (13 R300, R71); an instruction needs X (10 R225). -/
def fetchXl (s : State) (c n pc : Nat) : Xl × Bool × State :=
  if pc / 8 % 2 == 0 then let (x, s) := xlate s c n pc .x; (x, false, s)
  else match xlate s c n (pc - 8) .r with
    | (.ok pa leaf t, s) =>
      if pa < memEnd && longOpc (s.rd64 pa) then (.ok pa leaf t, true, s)
      else let (x, s) := xlate s c n pc .x; (x, false, s)
    | (x, s) => (x, false, s)
/-- A fetch from this address brings no word: it lies in no memory of the device, or its chunk is poisoned. -/
def noWord (s : State) (pa : Nat) : Bool := memEnd ≤ pa || (span (pa / 16 * 16) 16).any s.poisoned

/-- INSTRUCTION_FETCH_FAULT (R71; 10 R229): the outcome of the fetch at the first entry's PC: a trap, an abort, a page-in. A
target in an aperture takes MEMORY_ERROR. -/
def execInstructionFetchFault (s : State) : Out3 :=
  match s.cur with
  | .warp c w =>
    match s.warp? c w with
    | none => .fault .noIssuer
    | some wp => match wp.first with
      | none => .fault .noIssuer
      | some e =>
        let va := e.pc.setWidth 64
        let n := s.partOf wp.gid
        let trap : Nat → Nat → Nat → Nat → Out3 := fun code cause level einfo => Host.Outcome.next (takeTrap s c w code cause
          ((lanesOf e.mask).map fun j => (j, va)) level einfo 2).useFree
        let end_ : Res → Out3 := fun r => Host.Outcome.next (match r with
          | .page s va =>
            ((s.modWarp c w fun x => { x with wait := .page }).push (.pagerRequest n va (.warp c w))).useFree
          | .fatal s f va access => (s.fatalGrid wp.gid { agentRec s wp.gid (.warp c w) 3 f.code f.cause (f.recVa va) with
              level := f.level, info := f.recInfo, access := access }).useFree
          | _ => s.useFree)
        match (fetchXl s c n va.toNat).1 with
        | .bad f => if f.cls == 2 then trap f.code f.cause f.level f.entry.toNat else end_ (.fatal s f va 2)
        | .page _ _ _ _ => end_ (.page s va)
        | .ok pa _ _ =>
          if memEnd ≤ pa then trap 0x60 8 0xFF 0
          else match (span (pa / 16 * 16) 16).find? s.poisoned with
            | some p => .next (s.poisonAbort wp.gid (.warp c w) p).useFree
            | none => .next s.useFree
  | _ => .fault .noIssuer

end Sys2Proof.Machine
end

