-- ==== Sys2Proof/Machine/CopyOps.lean ====
section
/-! DEFINITION. Copies: the descriptor's checks, the bytes a CPY or TCPY reads and writes, bounced writes
(06 R146 to R151; 07 R163 to R171; 18 R442, R443). -/

namespace Sys2Proof.Machine

/-! ### Descriptor and tensor record (R163, R169) -/

/-- Fields of a copy descriptor. -/
def dF (d : BitVec 256) (hi lo : Nat) : Nat := bitsN d.toNat hi lo
def dSrc (d : BitVec 256) : Nat := dF d 63 0
def dDst (d : BitVec 256) : Nat := dF d 127 64
def dLen (d : BitVec 256) : Nat := dF d 159 128
def dGate (d : BitVec 256) : Nat := dF d 180 160
def dGatev (d : BitVec 256) : Bool := d.getLsbD 181
def dDir (d : BitVec 256) : Nat := dF d 185 184
def dHnd (d : BitVec 256) : Bool := d.getLsbD 186
def dHsel (d : BitVec 256) : Nat := dF d 191 188
def dTime (d : BitVec 256) : Nat := dF d 255 192
/-- Reserved fields of a descriptor. -/
def dRsvd (d : BitVec 256) : Bool := d.getLsbD 187 || dF d 183 182 != 0

/-- Fields of a tensor record. -/
def tF (t : BitVec 512) (hi lo : Nat) : Nat := bitsN t.toNat hi lo
def tTfmt (t : BitVec 512) : Nat := tF t 223 220
def tSfmt (t : BitVec 512) : Nat := tF t 219 216
def tElems (t : BitVec 512) : Nat := tF t 215 200
def tLines (t : BitVec 512) : Nat := tF t 199 192
def tAuxPitch (t : BitVec 512) : Nat := tF t 191 160
def tPitch (t : BitVec 512) : Nat := tF t 159 128
def tAux (t : BitVec 512) : Nat := tF t 127 64
def tBase (t : BitVec 512) : Nat := tF t 63 0
/-- The target is a sparse block. -/
def tSparse (t : BitVec 512) : Bool := 8 ≤ tSfmt t

/-- Pairs that R146, R151 and R170 allow. -/
def tPair (dir sf tf : Nat) : Bool :=
  if dir == 1 then (sf ≤ 5 && sf == tf) || (sf == 6 && tf == 5)
  else (sf ≤ 5 && sf == tf) || (sf == 6 && [0, 3, 5].contains tf) || (sf == 7 && [0, 2, 3].contains tf) ||
    (sf == 8 && tf == 0) || (sf == 9 && tf == 3) || (sf == 10 && tf == 5)

/-- The checks of a record (R169, R170). -/
def tOk (dir : Nat) (t : BitVec 512) : Bool :=
  let sf := tSfmt t
  let cap := 128 / sfmtSize (tTfmt t)
  tF t 511 224 == 0 && tPair dir sf (tTfmt t) && tElems t ≤ (if tSparse t then 2 * cap else cap) &&
  (!(sf == 6 || sf == 7) || tElems t % 32 == 0) && (!tSparse t || tElems t % 4 == 0) &&
  1 ≤ tLines t && tLines t ≤ 32 && tAuxPitch t % 4 == 0 && tPitch t % 16 == 0 &&
  (if sf ≤ 5 then tAux t == 0 else tAux t % 4 == 0) && tBase t % 16 == 0

/-- Bytes of a line in the main array and in the auxiliary one (18 R443). -/
def tMain (t : BitVec 512) : Nat :=
  match tSfmt t with
  | 6 => 24 * (tElems t / 32)
  | 7 => tElems t / 2
  | 8 | 9 | 10 => tElems t / 2 * sfmtSize (tTfmt t)
  | _ => tElems t * sfmtSize (tTfmt t)
def tAuxBytes (t : BitVec 512) : Nat :=
  match tSfmt t with
  | 6 => tElems t / 32
  | 7 => 2 * (tElems t / 32)
  | 8 | 9 | 10 => (tElems t + 7) / 8
  | _ => 0

/-- The global ranges of a tensor copy: address and length of each line's arrays. -/
def tRanges (t : BitVec 512) : List (Nat × Nat) :=
  ((List.range (tLines t)).flatMap fun l =>
    [(tBase t + l * tPitch t, tMain t), (tAux t + l * tAuxPitch t, tAuxBytes t)]).filter fun r => r.2 != 0

/-! ### The copy's ends -/

/-- Bytes in the scratchpad block of a TCPY. -/
def tBlock (dir : Nat) (t : BitVec 512) : Nat := if dir == 0 && tSparse t then 5120 else 4096

/-- Copies that have been issued and have not ended, those saved with their groups too (R177). -/
def liveCopies (s : State) : List Copy :=
  (s.cores.flatMap fun ck => ck.2.copies) ++ s.groups.flatMap fun g => match g.2.phase with | .saved _ => g.2.copies | _ => []

/-- Weight of a copy's arrival (R168, 18 R442). -/
def copyWeight (d : BitVec 256) (t : Option (BitVec 512)) : Nat :=
  match t with
  | none => dLen d
  | some t => if dDir d == 0 then tBlock 0 t else sumOf ((tRanges t).map (·.2))

/-- The global ranges of a copy. -/
def copyGlobals (d : BitVec 256) (t : Option (BitVec 512)) : List (Nat × Nat) :=
  match t with
  | some t => tRanges t
  | none => if dDir d == 0 then [(dSrc d, dLen d)] else if dDir d == 1 then [(dDst d, dLen d)] else []

/-- The group of a copy's destination (R163). -/
def copyDstGroup (s : State) (gid : Nat) (d : BitVec 256) : Option Nat :=
  if dDir d == 2 then clusterTarget s gid (BitVec.ofNat 32 (dDst d)) else some gid

/-- Bytes of a page of a handle (05 R108). -/
def handleBytes (h : Handle) : Nat :=
  match h.size.toNat with | 0 => 4096 | 1 => 65536 | 2 => 2097152 | 3 => 33554432 | _ => 1073741824
def handleVa (h : Handle) : Nat := h.vpn.toNat * 4096

/-- The checks of R110, in its order: the handle, the page, a write. -/
def handleTrap (h : Handle) (n : Nat) (ranges : List (Nat × Nat)) (write : Bool) : Option Trap :=
  if !h.v then some ⟨rkRevoked, 0x25, BitVec.ofNat 64 (handleVa h + n), 8⟩
  else if ranges.any fun r => handleBytes h < r.1 + r.2 then some trapOperand
  else if write && !h.w then
    some ⟨rkXPerm, 0x23, BitVec.ofNat 64 (handleVa h + (ranges.head?.map (·.1)).getD 0), 1⟩
  else none

/-- A local scratchpad range of a group (R153). -/
def scrRange (s : State) (gid o len : Nat) : Option Trap :=
  if (s.gridOf gid).scratch < o + len then some ⟨rkBounds, 0x21, BitVec.ofNat 64 o, 8⟩ else none
/-- An unaligned end of a copy. -/
def copyAlign (a info align : Nat) : List Trap := if a % align != 0 then [⟨rkAlign, 0x20, BitVec.ofNat 64 info, 8⟩] else []
/-- A scratchpad end of a copy: alignment, then bounds. -/
def copyScr (s : State) (gid : Nat) (cl : Bool) (a len align : Nat) : List Trap :=
  let bd := if cl then
      (match clusterTarget s gid (BitVec.ofNat 32 a) with
      | some g => (scrRange s g (a % 2 ^ 24) len).toList.map fun t => { t with info := BitVec.ofNat 64 (a % 2 ^ 32) }
      | none => [⟨rkBounds, 0x21, BitVec.ofNat 64 (a % 2 ^ 32), 8⟩])
    else (scrRange s gid (a % 2 ^ 32) len).toList
  copyAlign a (a % 2 ^ 32) align ++ bd

/-- The traps of a copy at issue (R164, R170; 18 R442, R443), from which R250 takes the first. `hnd` is the handle register's
content for a context. HND = 1 with DIR = 2, which has no global endpoint, is accepted from a context, and HSEL is ignored
(DESIGN CHOICE, log 23). -/
def copyTraps (s : State) (gid : Nat) (ctx : Bool) (tensor : Bool) (d : BitVec 256) (hnd : Handle) (rec_ : Option (BitVec 512)) :
    List Trap :=
  let dir := dDir d
  let op := fun (b : Bool) => if b then [trapOperand] else []
  let n := s.partOf gid
  let useH := dHnd d && dir != 2
  let fields := op (dRsvd d || dir == 3 || (tensor && dir == 2) || (dHnd d && !ctx) ||
    (!tensor && !(16 ≤ dLen d && dLen d ≤ 2 ^ 24 && dLen d % 16 == 0)) ||
    (dir != 0 && dir != 3 && dSrc d ≥ 2 ^ 32 && !(tensor && dir == 2)) || (dir != 1 && dir != 3 && dDst d ≥ 2 ^ 32) ||
    (tensor && dir == 0 && dSrc d != 0) || (tensor && dir == 1 && dDst d != 0))
  let gate := if dGatev d then
      copyAlign (dGate d) (dGate d) 8 ++
      (match copyDstGroup s gid d with
        | some g => (scrRange s g (dGate d) 8).toList
        | none => [])
    else []
  let block := if dir == 0 then dDst d else dSrc d
  let ends := if tensor then
      copyAlign (dLen d) (dLen d) 64 ++ (scrRange s gid (dLen d) 64).toList ++
      (match rec_ with
      | some t => op (!tOk dir t) ++ copyScr s gid false block (tBlock dir t) 128
      | none => copyAlign block (block % 2 ^ 32) 128)
    else
      (if dir == 0 then copyAlign (dSrc d) (dSrc d) 16 ++ copyScr s gid false (dDst d) (dLen d) 16
      else if dir == 1 then copyScr s gid false (dSrc d) (dLen d) 16 ++ copyAlign (dDst d) (dDst d) 16
      else copyScr s gid true (dSrc d) (dLen d) 16 ++ copyScr s gid true (dDst d) (dLen d) 16)
  let gl := if tensor then (match rec_ with | some t => if tOk dir t then tRanges t else [] | none => [])
    else copyGlobals d none
  let base := if useH then handleVa hnd else 0
  let glob := if useH then (handleTrap hnd (dHsel d) gl (dir == 1)).toList
    else (gl.filter fun r => 2 ^ 48 < r.1 + r.2).map fun r => (⟨rkCanon, 0x22, BitVec.ofNat 64 r.1, 2⟩ : Trap)
  let sealed := if dir == 1 then
      (gl.filter fun r => (s.part n).sealedAt (base + r.1) r.2).map fun r => (⟨rkSealed, 0x24, BitVec.ofNat 64 (base + r.1), 8⟩ : Trap)
    else []
  fields ++ ends ++ gate ++ glob ++ sealed

/-- The tensor record of a TCPY, read at issue (R169); none outside the allotment or unaligned. -/
def tensorRec (s : State) (gid : Nat) (d : BitVec 256) : Option (BitVec 512) :=
  let o := dLen d
  if o % 64 == 0 && o + 64 ≤ (s.gridOf gid).scratch then
    some (BitVec.ofNat 512 (leNat ((span o 64).map fun i => mget 0 (s.group gid).scratch i)))
  else none

/-! ### Conversion (06 R146 to R151) -/

/-- Element `e` of a stored line in the target format (R148, R149). A zero of s4 has the sign of its scale (DESIGN CHOICE, log 24). -/
def tElem (t : BitVec 512) (main aux : List Byte) (e : Nat) : Nat :=
  let sf := tSfmt t
  let tf := tTfmt t
  let sz := sfmtSize tf
  let by_ := fun (l : List Byte) (i n : Nat) => leNat ((l.drop i).take n)
  let dt := match tf with | 0 => 14 | 2 => 10 | _ => 11
  if sf == 6 then
    let b := e / 32
    let i := e % 32
    let code := by_ main (24 * b + 3 * (i / 4)) 3 / 2 ^ (6 * (i % 4)) % 64
    let x := foldL6 code (sextN (by_ aux b 1) 8)
    if tf == 5 then x else (fmtOf dt).round 0 false false (l6Dec x)
  else if sf == 7 then
    let byte := by_ main (e / 2) 1
    let v := sextN (if e % 2 == 0 then byte % 16 else byte / 16) 4
    (fmtOf dt).round 0 true false (FV.mul (.num (v < 0) v.natAbs 0) (fF16.dec false (by_ aux (2 * (e / 32)) 2)))
  else
    let x := by_ main (sz * e) sz
    if tf == 5 then x % 64 else x

/-- A dense line of 128 bytes, padded with canonical zero (R170). -/
def tDenseLine (t : BitVec 512) (main aux : List Byte) : List Byte :=
  let sz := sfmtSize (tTfmt t)
  (List.range (128 / sz)).flatMap fun e => leBytes sz (if e < tElems t then tElem t main aux e else 0)

/-- A pair of a 2:4 pack in ascending order: values and indices (R150). -/
def tPairOf (t : BitVec 512) (main aux : List Byte) (g : Nat) : Nat × Nat × Nat × Nat :=
  let sz := sfmtSize (tTfmt t)
  if tElems t ≤ 4 * g then (0, 0, 0, 1)
  else
    let val := fun (j : Nat) => let x := leNat ((main.drop (sz * j)).take sz); if tTfmt t == 5 then x % 64 else x
    let idx := fun (j : Nat) => leNat ((aux.drop (j / 4)).take 1) / 4 ^ (j % 4) % 4
    let a := 2 * g
    let b := 2 * g + 1
    if idx b < idx a then (val b, val a, idx b, idx a) else (val a, val b, idx a, idx b)

/-- A sparse line: 128 bytes of values and 32 bytes of indices (05 R116). The bytes of the index field that the format ignores
are free (DESIGN CHOICE, log 24). -/
def tSparseLine (s : State) (t : BitVec 512) (l : Nat) (main aux : List Byte) : List Byte × List Byte :=
  let sz := sfmtSize (tTfmt t)
  let ps := (List.range (64 / sz)).map fun g => tPairOf t main aux g
  let idx := leBytes (32 / sz) (ps.reverse.foldl (fun x p => x * 16 + p.2.2.1 + 4 * p.2.2.2) 0)
  (ps.flatMap fun p => leBytes sz p.1 ++ leBytes sz p.2.1,
   idx ++ (List.range (32 - 32 / sz)).map fun i => (s.free (80000 + 32 * l + i)).extractLsb' 0 8)

/-- The scratchpad block of a DIR 0 tensor copy from the lines' bytes. -/
def tTarget (s : State) (t : BitVec 512) (lines : List (List Byte × List Byte)) : List Byte :=
  if tSparse t then
    let ls := (List.range 32).map fun l =>
      let x := nth ([], []) lines l
      tSparseLine s (if l < tLines t then t else t &&& ~~~(0xFFFF#512 <<< 200)) l x.1 x.2
    ls.flatMap (·.1) ++ ls.flatMap (·.2)
  else (List.range 32).flatMap fun l =>
    let x := nth ([], []) lines l
    if l < tLines t then tDenseLine t x.1 x.2 else List.replicate 128 0

/-- The bytes of one line of a DIR 1 tensor copy (R151). -/
def tOutLine (t : BitVec 512) (row : List Byte) : List Byte :=
  match tSfmt t with
  | 6 => (List.range (tElems t / 4)).flatMap fun h =>
      leBytes 3 (((List.range 4).map fun i => leNat ((row.drop (4 * h + i)).take 1) % 64 * 2 ^ (6 * i)).foldl (· + ·) 0)
  | 5 => (row.take (tElems t)).map fun b => b &&& 0x3F
  | _ => row.take (tMain t)

/-! ### Global bytes -/

/-- What a global piece of a copy meets. -/
inductive PX where
  | ok (pa : Nat)
  | page (key va : Nat) (loc : W64)
  | bad (f : XFault) (va : Nat)
  deriving DecidableEq, Repr

/-- Where a piece within one 4 KiB page lies: through the handle's frame, or translated (R164, 05 R110). -/
def copyXl (s : State) (c n : Nat) (hnd : Option Handle) (need : Need) (a : Nat) : PX × State :=
  let reach := fun (pa : Nat) (s : State) => if s.peerFails pa then PX.bad peerFault a else .ok pa
  match hnd with
  | some h => (reach (h.frame + a) s, s)
  | none => match xlate s c n a need with
    | (.ok pa _ _, s) => (reach pa s, s)
    | (.page key _ _ loc, s) => (.page key a loc, s)
    | (.bad f, s) => (.bad f a, s)

/-- Pieces of a range that lie in one 4 KiB page each: address, offset in the range, length. -/
def pieces : Nat → Nat → Nat → Nat → List (Nat × Nat × Nat)
  | 0, _, _, _ => []
  | k + 1, a, o, len =>
    if len == 0 then [] else
    let n := min len (4096 - a % 4096)
    (a, o, n) :: pieces k (a + n) (o + n) (len - n)
def piecesOf (a len : Nat) : List (Nat × Nat × Nat) := pieces (len / 4096 + 2) a 0 len

/-- The bytes at a physical piece, read at the home slices after the core has written back its own; what releases have forwarded to it is
written back first (R165, R166; DEDUCED, log 52). -/
def copyRead (s : State) (c n pa len : Nat) : List Byte × Option Nat × State :=
  let line := fun (ln : Nat) => (span pa len).any fun a => a / 128 == ln
  let s := (((s.wcDrain c line).resolveFd c line).writeBack c fun a => pa ≤ a && a < pa + len).outLoad n pa len
  ((List.range len).map fun i => loadByte s i (pa + i), (span pa len).find? s.poisoned, s)
/-- Bytes written at the home slices after the core's lines there have left its L1 (R165). -/
def copyWrite (s : State) (c n pa : Nat) (bs : List Byte) : State :=
  let hit := fun (ln : Nat) => pa / 128 ≤ ln && ln ≤ (pa + bs.length - 1) / 128
  (s.flushLines c hit true).homeWrite n pa bs false

/-- Room of a partition's bounce region for held bytes (R171, 12 R273). -/
def bounceRoom (p : Part) : Nat := (bitsN p.bounce.toNat 7 0 - 8) * 2097152
def bounceHeld (p : Part) : Nat := sumOf (p.bounced.map fun b => b.bytes.length)

/-- A write that lands on a storage-backed page that is not resident is held, and its page-in is started (R171). `none`: the
region is full and the writer waits. `first` is the first address of the page. -/
def bounceWrite (s : State) (n key first va : Nat) (bs : List Byte) : Option State :=
  if bounceRoom (s.part n) < bounceHeld (s.part n) + bs.length then none
  else
    let s := (s.collTouch n va bs.length).modPart n fun p => { p with bounced := p.bounced ++ [⟨key, va - first, bs⟩] }
    some (s.push (.pagerRequest n (BitVec.ofNat 64 va) (.engine n)))

/-- First address of the page, or of the contiguous group, that holds an address. -/
def pageFirst (s : State) (n va : Nat) : Nat :=
  match walk s n va with
  | .page _ v _ _ _ => v
  | .ok v _ _ _ _ _ => v
  | .bad _ => va

end Sys2Proof.Machine
end

