-- ==== Sys2Proof/Machine/Trade.lean ====
section
/-! DEFINITION. Tiles and their owners: GIVE, TAKE, TSTAT, GROW, SHRINK and the events that complete them
(02 R47, R48; 04 R82 to R91; 16 R377 to R379; 18 R431, R439 to R441). -/

namespace Sys2Proof.Machine

/-! ### The owner field (R84) -/

def TState.code : TState → Nat
  | .free => 0 | .seq => 1 | .warp => 2 | .offered => 3 | .held => 4

/-- The 32 bits of an owner field with a count of pending writes. -/
def Owner.word (o : Owner) (pend : Nat) : W32 :=
  BitVec.ofNat 32 (o.st.code * 2 ^ 29 + o.owner % 128 * 2 ^ 22 + o.dst % 128 * 2 ^ 15 + (if o.allot then 16384 else 0) + min pend 255)

/-- What TSTAT reads (18 R441): a tile of another group reads as HELD with no agent. -/
def tstatWord (s : State) (c gid t : Nat) : W32 :=
  let o := (s.core c).owner t
  if o.st != .free && o.gid != gid then 0x9FFF8000#32 else o.word (s.pendTo c t)

/-- An agent number names an agent of the group other than the giver (04 R83, R87). -/
def agentInGroup (s : State) (gid : Nat) (me : Issuer) (ag : Nat) : Bool :=
  ag != agentNo me && (s.agentsOf gid).any fun a => agentNo a == ag

/-! ### The trade (R87) -/

/-- Tiles become FREE, or an offer or a wait may be served. -/
def State.tileNews (s : State) (c t : Nat) : State :=
  (s.core c).owners.foldl (fun s o => if o.1 == t && o.2.st == .offered then s.push (.takeComplete c o.2.dst) else s)
    (((s.push (.tileFreed c t)).push (.takeNewGrant c)).push (.growGrant c))

/-- A TAKE that waits for a tile given to another agent, or freed, traps at that moment (R88). -/
def State.trapTakers (s : State) (c t : Nat) (except_ : Nat) : State :=
  let ws := s.warps.filterMap fun kw => match kw.2.wait with
    | .take t' _ act => if kw.1 / 64 == c && t' == t && kw.1 % 64 != except_ then some (kw.1 % 64, act) else none
    | _ => none
  -- helper lanes alone raise no trap (02 R33): the warp then goes on without the tile
  let s := ws.foldl (fun s wa =>
    if wa.2 == 0 then s.modWarp c wa.1 fun x => { x.advance false with wait := .none, nextIssue := max x.nextIssue (s.now + 1) }
    else takeTrap s c wa.1 0x11 8 ((lanesOf wa.2).map fun j => (j, BitVec.ofNat 64 t))) s
  let ks := s.ctxs.filterMap fun kx => match kx.2.wait with
    | .take t' => if kx.1 / 4 == c && t' == t && 0x40 + kx.1 % 4 != except_ then some (kx.1 % 4) else none
    | _ => none
  ks.foldl (fun s k => takeCtxTrap s c k 0x11 none 0) s

/-- GIVE of an owned tile: a release at core scope (R90); the tile is OFFERED at once. One that GIVE.free has given before becomes FREE
all the same once nothing is pending (DESIGN CHOICE, log 56). -/
def giveTile (s : State) (a : Issuer) (t dst : Nat) : State :=
  let c := coreOf a
  let s := s.settleAll a
  let s := s.modCore c fun k => k.setOwner t { k.owner t with st := .offered, owner := agentNo a, dst := dst, seq := s.nextId }
  (s.trapTakers c t dst).push (.takeComplete c dst)

/-- GIVE.free of an owned tile: FREE once nothing is pending (R87). -/
def freeOwned (s : State) (a : Issuer) (t : Nat) : State :=
  let c := coreOf a
  (((s.freeTile c t).trapTakers c t 0x7F).push (.takeNewGrant c)).push (.growGrant c)

/-- What a TAKE finds: nothing to take (a trap), something to wait for, or a tile that it takes now. -/
inductive TakeView where
  | bad | wait | now
  deriving DecidableEq, Repr

/-- A load, store or atomic that the giver issued before its GIVE has not been performed (R90; 16 R378). Copies, TGLD and TGST are not
covered. -/
def giverBusy (s : State) (c : Nat) (o : Owner) : Bool :=
  let a : Issuer := if o.owner < 64 then .warp c o.owner else .ctx c (o.owner - 64)
  s.storesBefore a o.seq ||
    (s.core c).vars.any fun u => u.agent == a && u.seq < o.seq && (match u.body with | .access _ => true | _ => false)

def takeView (s : State) (a : Issuer) (gid t : Nat) : TakeView :=
  let c := coreOf a
  let o := (s.core c).owner t
  if o.gid != gid then .bad
  else match o.st with
    | .free | .held => .bad
    | .seq | .warp => if o.owner == agentNo a then .bad else .wait
    | .offered => if o.dst != agentNo a then .bad
        else if s.pendTo c t == 0 && !giverBusy s c o && !o.dying then .now else .wait

/-- The taker owns the tile; the giver's pending window, if any, becomes empty (R87). -/
def takeTile (s : State) (a : Issuer) (t : Nat) : State :=
  let c := coreOf a
  let o := (s.core c).owner t
  let empty := fun (w : Win) => if w.pending && w.tile.toNat == t then ({} : Win) else w
  let s := if o.owner < 64 then s.modWarp c o.owner fun x => { x with w0 := empty x.w0, w1 := empty x.w1 } else s
  let st := match a with | .ctx _ _ => TState.seq | _ => TState.warp
  s.modCore c fun k => k.setOwner t { o with st := st, owner := agentNo a, dst := 0x7F, seq := 0 }

/-- Map a tile in a window. -/
def mapWin (c w : Nat) (win : Bool) (t : Nat) (s : State) : State :=
  let x : Win := { valid := true, tile := BitVec.ofNat 10 t }
  s.modWarp c w fun y => if win then { y with w1 := x } else { y with w0 := x }

/-- The lowest-numbered FREE accumulator tile without pending writes (R87). -/
def freeAcc (s : State) (c : Nat) : Option Nat :=
  ((List.range 512).map (256 + ·)).find? fun t => ((s.core c).owner t).st == .free && s.pendTo c t == 0
/-- Free general tiles, in ascending order. -/
def freeGeneral (s : State) (c : Nat) : List Nat :=
  (List.range 256).filter fun t => ((s.core c).owner t).st == .free && s.pendTo c t == 0

/-- TAKE.new takes a tile for an agent: cleared, owned (R87). -/
def newTile (s : State) (a : Issuer) (gid t : Nat) : State :=
  let st := match a with | .ctx _ _ => TState.seq | _ => TState.warp
  (s.cleanTile (coreOf a) t).modCore (coreOf a) fun k => (k.clearTile t).setOwner t { st := st, owner := agentNo a, gid := gid }

/-- A blocking instruction of a warp completes: the warp moves past it. -/
def State.unblock (s : State) (c w : Nat) : State :=
  s.modWarp c w fun x => { x.advance false with wait := .none, nextIssue := max x.nextIssue (s.now + 1) }

/-- A warp that begins to wait at an instruction. -/
def blockOn (v : View) (wt : Wait) (s : State) : State :=
  s.modWarp v.c v.w fun x => { x with wait := wt, since := s.now }

/-- An instruction of the trade acts once when a lane is active, helper lanes included. -/
def onceAny (body : View → State → Res) (v : View) (s : State) : Res := if v.act == 0 then .ok s .next else body v s

def View.win (v : View) (win : Bool) : Win := if win then v.wp.w1 else v.wp.w0
def notOwned (s : State) (v : View) (info : Nat) : Res := Res.of s ⟨rkNotOwned, 0x10, BitVec.ofNat 64 info, 8⟩ v.realLanes
def notOffered (s : State) (v : View) (t : Nat) : Res := Res.of s ⟨rkNotOffered, 0x11, BitVec.ofNat 64 t, 8⟩ v.realLanes
def illegalOperand (s : State) (v : View) : Res := Res.of s trapOperand v.realLanes

/-- sr.trapinfo of a GIVE through a window that maps nothing (16 R378). -/
def winInfo (win : Bool) (w : Win) : Nat := if w.pending then w.tile.toNat else 0x10000 + if win then 224 else 192

/-- GIVE and GIVE.free of a warp (16 R378). -/
def giveBody (free : Bool) (f : Trade) : View → State → Res :=
  onceAny fun v s =>
    let win := v.win f.win
    if !free && !agentInGroup s v.gid v.me f.agent.toNat then illegalOperand s v
    else if !win.valid then notOwned s v (winInfo f.win win)
    else
      let t := win.tile.toNat
      let w' : Win := if free then {} else { win with valid := false, pending := true }
      let s := s.modWarp v.c v.w fun x => if f.win then { x with w1 := w' } else { x with w0 := w' }
      .ok (if free then freeOwned s v.me t else giveTile s v.me t f.agent.toNat) .next

/-- The tile that TILE or A names (13 R309). -/
def tradeNum (s : State) (v : View) (f : Trade) : Nat :=
  if f.tile == 0x3FF then bitsN (readG s v 0 f.a.toNat).toNat 9 0 else f.tile.toNat
def accNum (t : Nat) : Bool := 256 ≤ t && t ≤ 767

/-- TAKE of a warp (18 R440): it waits at its instruction, and TAKE_COMPLETE ends it. -/
def takeBody (f : Trade) : View → State → Res :=
  onceAny fun v s =>
    let t := tradeNum s v f
    let win := v.win f.win
    if !accNum t || win.valid || win.pending then illegalOperand s v
    else match takeView s v.me v.gid t with
      | .bad => notOffered s v t
      | _ => .ok ((blockOn v (.take t f.win v.real) s).push (.takeComplete v.c v.w)) .hold
def takeNewBody (f : Trade) : View → State → Res :=
  onceAny fun v s =>
    let win := v.win f.win
    if win.valid || win.pending then illegalOperand s v
    else
      let s := s.modCore v.c fun k => { k with queue := k.queue ++ [(v.me, 0)] }
      .ok ((blockOn v (.takeNew f.win f.d.toNat) s).push (.takeNewGrant v.c)) .hold
/-- TSTAT of a warp (18 R441). -/
def tstatBody (f : Trade) : View → State → Res :=
  onceAny fun v s =>
    let t := tradeNum s v f
    if !accNum t then illegalOperand s v
    else .ok (s.later v.me (s.now + 4) (.g f.d.toNat (tstatWord s v.c v.gid t))) .next

/-- The issuer of an agent number on a core. -/
def agentOf (c ag : Nat) : Issuer := if ag < 64 then .warp c ag else if ag < 0x44 then .ctx c (ag - 0x40) else .none

/-- A context's wait for a tile is over: its bundle issues the take itself, in the following cycle (18 R440). -/
def ctxTakes (s : State) (c k : Nat) : State :=
  s.modCtx c k fun x => { x with wait := .ready, nextIssue := max x.nextIssue (s.now + 1) }

/-- TAKE_COMPLETE: an acquire at core scope (04 R90). -/
def takeComplete (s : State) (c ag : Nat) : State :=
  match agentOf c ag with
  | .warp _ w =>
    (match s.warp? c w with
    | some x => match x.wait with
      | .take t win _ =>
        if takeView s (.warp c w) x.gid t == .now then
          let s := s.monitor (dieOf c) 3 (s.partOf x.gid) c (s.now - x.since)
          (mapWin c w win t (takeTile s (.warp c w) t)).unblock c w
        else s
      | _ => s
    | none => s)
  | .ctx _ k =>
    (match (s.ctx c k).wait with
    | .take t => if takeView s (.ctx c k) (s.ctx c k).gid t == .now then ctxTakes s c k else s
    | _ => s)
  | .none => s
def execTakeComplete (core agent : Nat) (s : State) : Out3 := runEvent (fun s => takeComplete s core agent) s

/-- TAKE_NEW_GRANT: the head of the core's queue takes the lowest free tile (R87). A context's bundle takes it itself. -/
def takeNewGrant (s : State) (c : Nat) : State :=
  match (s.core c).queue with
  | (a, 0) :: rest =>
    (match freeAcc s c with
    | none => s
    | some t => match a with
      | .warp _ w => match s.warp? c w with
        | some x => match x.wait with
          | .takeNew win d =>
            let s := s.monitor (dieOf c) 3 (s.partOf x.gid) c (s.now - x.since)
            let s := s.modCore c fun k => { k with queue := rest }
            let s := (mapWin c w win t (newTile s a x.gid t)).modWarp c w fun y => { y with g := mset 0 y.g d (BitVec.ofNat 32 t) }
            ((s.unblock c w).push (.takeNewGrant c)).push (.growGrant c)
          | _ => s
        | none => s
      | .ctx _ k => match (s.ctx c k).wait with
        | .takeNew _ => ctxTakes s c k
        | _ => s
      | .none => s)
  | _ => s
def execTakeNewGrant (core : Nat) (s : State) : Out3 := runEvent (fun s => takeNewGrant s core) s

/-- TILE_FREED: a freed tile's last pending write has landed, and a TAKE that has come to wait on it meanwhile traps (R87, R88). -/
def execTileFreed (core tile : Nat) (s : State) : Out3 :=
  runEvent (fun s =>
    if ((s.core core).owner tile).dying && s.pendTo core tile == 0 then
      (((s.freeTile core tile).trapTakers core tile 0x7F).push (.takeNewGrant core)).push (.growGrant core)
    else s) s

/-! ### GROW and SHRINK (02 R48) -/

/-- A general tile of a warp's allotment. -/
def allotTile (c w gid : Nat) (s : State) (t : Nat) : State :=
  (s.cleanTile c t).modCore c fun k => (k.clearTile t).setOwner t { st := .warp, owner := w, allot := true, gid := gid }

/-- GROW (16 R379). -/
def growBody (n : Nat) : View → State → Res :=
  onceAny fun v s =>
    if (s.gridOf v.gid).tileMax < n then Res.of s ⟨rkGrow, 0x12, BitVec.ofNat 64 n, 8⟩ v.realLanes
    else if n ≤ v.wp.allot.length then .ok s .next
    else
      let s := s.modCore v.c fun k => { k with queue := k.queue ++ [(v.me, n)] }
      .ok ((blockOn v (.grow n) s).push (.growGrant v.c)) .hold
def execGrow (h : Hdr) (f : SysF) (s : State) : Out3 := runWarp h (.grow h f) (growBody f.imm.toNat) s

/-- GROW_GRANT: in full, at the head of the queue, when enough general tiles are free (R48). -/
def growGrant (s : State) (c : Nat) : State :=
  match (s.core c).queue with
  | (.warp _ w, n + 1) :: rest =>
    (match s.warp? c w with
    | none => s
    | some x =>
      let need := n + 1 - x.allot.length
      let free := freeGeneral s c
      if free.length < need then s
      else
        let ts := free.take need
        let s := s.modCore c fun k => { k with queue := rest }
        let s := ts.foldl (allotTile c w x.gid) s
        let s := s.modWarp c w fun y => { y with allot := y.allot ++ ts }
        ((s.unblock c w).push (.growGrant c)).push (.takeNewGrant c))
  | _ => s
def execGrowGrant (core : Nat) (s : State) : Out3 := runEvent (fun s => growGrant s core) s

/-- SHRINK (18 R431): tiles leave at once, each FREE once nothing is pending. -/
def shrinkBody (n : Nat) : View → State → Res :=
  onceAny fun v s =>
    if n < (s.gridOf v.gid).tileInit then illegalOperand s v
    else if v.wp.allot.length ≤ n then .ok s .next
    else
      let out := v.wp.allot.drop n
      let s := s.modWarp v.c v.w fun x => { x with allot := x.allot.take n }
      let s := out.foldl (fun s t => s.freeTile v.c t) s
      .ok ((s.push (.growGrant v.c)).push (.takeNewGrant v.c)) .next
def execShrink (h : Hdr) (f : SysF) (s : State) : Out3 := runWarp h (.shrink h f) (shrinkBody f.imm.toNat) s

end Sys2Proof.Machine
end

