-- ==== Sys2Proof/Machine/Sync.lean ====
section
/-! DEFINITION. Barriers and phase gates: BAR, CBAR, MBINIT, MBARV, MBWAIT (09 R213, R217 to R219; 15 R340, R341, R351, R352;
17 R399 to R403). -/

namespace Sys2Proof.Machine

/-! ### BAR (15 R341) -/

/-- An arrival: a release at core scope (09 R213). -/
def barBody (v : View) (s : State) : Res :=
  if v.act == 0 then .ok s .next
  else
    let s := (s.settleAll v.me).modGroup v.gid fun g => { g with bar := insertNat v.w g.bar }
    .ok ((blockOn v .bar s).push (.barComplete v.gid)) .hold
def execBar (h : Hdr) (f : SysF) (s : State) : Out3 := runWarp h (.bar h f) barBody s

/-- BAR_COMPLETE: every warp of the group that has not finished has arrived. -/
def barComplete (s : State) (gid : Nat) : State :=
  let g := s.group gid
  let live := g.slots.filter fun w => !(s.warp g.core w).frontier.isEmpty
  if g.phase == .resident && !g.bar.isEmpty && live.all g.bar.contains then
    let s := g.bar.foldl (fun s w => if (s.warp g.core w).wait == .bar then s.unblock g.core w else s) s
    s.modGroup gid fun g => { g with bar := [] }
  else s
def execBarComplete (gid : Nat) (s : State) : Out3 := runEvent (fun s => barComplete s gid) s

/-! ### CBAR (15 R352) -/

/-- Each warp's CBAR is a release performed eagerly, as at device scope. -/
def cbarBody (v : View) (s : State) : Res :=
  if v.act == 0 then .ok s .next
  else
    let s := (s.settleAll v.me).eager v.c 4
    .ok ((blockOn v .cbar s).push (.cbarComplete (s.group v.gid).cluster)) .hold
def execCbar (h : Hdr) (f : SysF) (s : State) : Out3 := runWarp h (.cbar h f) cbarBody s

/-- A group has arrived: each of its warps that has not finished waits at CBAR; a saved group keeps its arrival. -/
def cbarArrived (s : State) (gid : Nat) : Bool :=
  let g := s.group gid
  match g.phase with
  | .gone => true
  | .saved _ => g.cbar
  | _ => g.slots.all fun w => (s.warp g.core w).frontier.isEmpty || (s.warp g.core w).wait == .cbar

/-- CBAR_COMPLETE: every group has arrived or retired; an acquire at cluster scope on every core (09 R213). A saved group that had
arrived resumes past CBAR at its restore. -/
def cbarComplete (s : State) (cl : Nat) : State :=
  let k := s.cluster cl
  let waiting := k.groups.flatMap fun gid =>
    let g := s.group gid
    match g.phase with
    | .gone | .saved _ => []
    | _ => (g.slots.filter fun w => (s.warp g.core w).wait == .cbar).map fun w => (g.core, w)
  let savedOne := k.groups.any fun gid => (s.group gid).cbar
  if k.groups.all (cbarArrived s) && (!waiting.isEmpty || savedOne) then
    let s := waiting.foldl (fun s cw => s.unblock cw.1 cw.2) s
    let s := k.groups.foldl (fun s gid =>
      let s := s.modGroup gid fun g => { g with cbar := false }
      if (s.group gid).phase == .gone then s else s.acquireDrop (s.group gid).core (s.partOf gid) 3) s
    s
  else s
def execCbarComplete (cluster : Nat) (s : State) : Out3 := runEvent (fun s => cbarComplete s cluster) s

/-! ### Phase gates (09 R217 to R219) -/

/-- A phase gate's fields (R217). -/
structure Gate where
  phase : Nat
  rsvd : Nat
  expect : Nat
  cur : Nat
  nxt : Nat
  deriving DecidableEq, Repr

def gateOf (x : Nat) : Gate := ⟨bitsN x 63 62, bitsN x 61 60, bitsN x 59 40, bitsN x 39 20, bitsN x 19 0⟩
def Gate.bits (g : Gate) : Nat := g.phase * 2 ^ 62 + g.rsvd * 2 ^ 60 + g.expect * 2 ^ 40 + g.cur * 2 ^ 20 + g.nxt

/-- The phases that complete after an arrival: at most two (R218). -/
def Gate.turn (g : Gate) : Gate :=
  if g.cur == g.expect then { g with phase := (g.phase + 1) % 4, cur := g.nxt, nxt := 0 } else g

/-- arrive(mb, ph, w) (R218); `none`: an overrun, and the object is unchanged. -/
def arrive (g : Gate) (ph w : Nat) : Option Gate :=
  let d := (ph + 4 - g.phase) % 4
  if 2 ≤ d then none
  else if d == 0 then (if g.expect < g.cur + w then none else some ({ g with cur := g.cur + w } : Gate).turn.turn)
  else if g.expect < g.nxt + w then none
  else some ({ g with nxt := g.nxt + w } : Gate).turn.turn

/-- MBWAIT returns (R219). -/
def gatePast (g : Gate) (ph : Nat) : Bool := let d := (g.phase + 4 - ph) % 4; d == 1 || d == 2

def State.gate (s : State) (gid o : Nat) : Gate :=
  gateOf (leNat ((span o 8).map fun i => mget 0 (s.group gid).scratch i))

/-- Write a gate and wake the warps of its group whose wait has ended: an acquire, for which the core drops its clean bytes
(17 R403). The acquire is at cluster scope, for local arrivals too (DESIGN CHOICE, log 62). -/
def State.setGate (s : State) (gid o : Nat) (g : Gate) : State :=
  let s := s.scrWrite gid o (leBytes 8 g.bits)
  let gr := s.group gid
  let done := gr.slots.filter fun w => match (s.warp gr.core w).wait with
    | .mbwait o' ph => o' == o && gatePast g ph
    | _ => false
  let s := if done.isEmpty then s else s.acquireDrop gr.core (s.partOf gid) 3
  done.foldl (fun s w => s.unblock gr.core w) s

/-- The checks of the address of a gate (R400 checks 2 and 3). -/
def gateAddr (s : State) (gid : Nat) (cl : Bool) (a : W32) : LX := laneScratch s gid cl 8 8 a

/-- The trap of a phase-gate instruction, which acts once for the warp: every active real lane is a trapping lane (R248, R334;
DEDUCED, log 31); with helper lanes alone the trap is not taken. -/
def trapOnce (s : State) (v : View) (t : Trap) : Res := if v.realLanes.isEmpty then .ok s .next else Res.of s t v.realLanes

/-- A check of the value of B stands with the checks of operands, before the ownership of A (R400 check 1, 11 R250): it is made once B
itself passes. -/
def guardB (as bs : List Nat) (bad : View → State → Bool) (body : View → State → Res) (v : View) (s : State) : Res :=
  if v.real == 0 then body v s
  else match checkVs s v.wp (as ++ bs) with
    | some t => if t.rank != rkOperand && (checkVs s v.wp bs).isNone && bad v s then Res.of s trapOperand v.realLanes
        else Res.of s t v.realLanes
    | none => if bad v s then Res.of s trapOperand v.realLanes else body v s

/-- EXPECT and the weight lie in 1 to 2^20 - 1 (R399, R400). -/
def gateVal (f : Asy) (v : View) (s : State) : Nat := (readR s v 1 (xB f.x) f.b.toNat (v.lane0.getD 0)).toNat
def gateBad (f : Asy) (v : View) (s : State) : Bool := gateVal f v s == 0 || 2 ^ 20 ≤ gateVal f v s

/-- A warp of the group waits on the object, or a copy that has not ended is to arrive on it: an MBINIT then leaves its fields unpredictable
(R401). -/
def gateWaited (s : State) (gid o : Nat) : Bool :=
  ((s.group gid).slots.any fun w => match (s.warp (s.group gid).core w).wait with | .mbwait o' _ => o' == o | _ => false) ||
  (liveCopies s).any fun x => dGatev x.desc && dGate x.desc == o && copyDstGroup s x.gid x.desc == some gid
/-- What MBINIT writes. -/
def gateInit (s : State) (gid o e : Nat) : Gate :=
  let free := fun (i : Nat) => (s.free (91000 + i)).toNat
  if gateWaited s gid o then ⟨free 0 % 4, 0, free 1 % 2 ^ 20, free 2 % 2 ^ 20, free 3 % 2 ^ 20⟩ else ⟨0, 0, e, 0, 0⟩

/-- MBINIT (R401). -/
def mbinitBody (f : Asy) : View → State → Res :=
  onceWarp (guardB (runRegsX (xA f.x) f.a.toNat 1) (runRegsX (xB f.x) f.b.toNat 1) (gateBad f) fun v s =>
    match gateAddr s v.gid false (readR s v 0 (xA f.x) f.a.toNat (v.lane0.getD 0)) with
      | .ok x _ =>
        let s := s.settle v.me true (span x 8)
        let s := s.setGate v.gid (x % 2 ^ 32) (gateInit s v.gid (x % 2 ^ 32) (gateVal f v s))
        .ok (s.issueVar v.me f.tok.toNat [] [] .quiet) .next
      | .trap t _ _ => trapOnce s v t
      | _ => .ok s .next)
def execMbinit (h : Hdr) (f : Asy) (s : State) : Out3 := runWarp h (.mbinit h f) (mbinitBody f) s

/-- MBARV (R402): a release at core scope, eager for another rank; performed while the warp is held. An arrival on a saved rank
waits at its instruction until that group is restored. Its token would rise and fall in this one cycle: it stands as it did. -/
def mbarvBody (f : Asy) : View → State → Res :=
  onceWarp (guardB (runRegsX (xA f.x) f.a.toNat 1) (runRegsX (xB f.x) f.b.toNat 1) (gateBad f) fun v s =>
    let w := gateVal f v s
    let cl := f.sub.getLsbD 2
    match gateAddr s v.gid cl (readR s v 0 (xA f.x) f.a.toNat (v.lane0.getD 0)) with
      | .ok x _ =>
        let gid := x / 2 ^ 32
        let o := x % 2 ^ 32
        (match (s.group gid).phase with
        | .saved _ => .ok (blockOn v (.rank gid) s) .hold
        | _ =>
          let g := s.gate gid o
          if g.rsvd != 0 then trapOnce s v trapOperand
          else match arrive g (bitsN f.sub.toNat 1 0) w with
            | none => trapOnce s v ⟨rkRing, 0x14, BitVec.ofNat 64 o, 8⟩
            | some g' =>
              let s := s.settleAll v.me
              let s := if gid == v.gid then s else s.eager v.c 4
              .ok (s.setGate gid o g') .next)
      | .trap t _ _ => trapOnce s v t
      | _ => .ok s .next)
def execMbarv (h : Hdr) (f : Asy) (s : State) : Out3 := runWarp h (.mbarv h f) (mbarvBody f) s

/-- MBWAIT (R403): evaluated at issue and at each completion; address from the lowest active lane. It acquires at cluster scope whatever has
arrived (DESIGN CHOICE, log 62). -/
def mbwaitBody (f : Asy) : View → State → Res :=
  guardV (runRegsX (xA f.x) f.a.toNat 1) fun v s =>
    match v.lanes.head? with
    | none => .ok s .next
    | some j =>
      match gateAddr s v.gid false (readR s v 0 (xA f.x) f.a.toNat j) with
      | .ok x _ =>
        let o := x % 2 ^ 32
        let g := s.gate v.gid o
        let ph := bitsN f.sub.toNat 1 0
        if g.rsvd != 0 then trapOnce s v trapOperand
        else if gatePast g ph then .ok (s.acquireDrop v.c (s.partOf v.gid) 3) .next
        else .ok (blockOn v (.mbwait o ph) s) .hold
      | .trap t _ _ => trapOnce s v t
      | _ => .ok s .next
def execMbwait (h : Hdr) (f : Asy) (s : State) : Out3 := runWarp h (.mbwait h f) (mbwaitBody f) s

end Sys2Proof.Machine
end

