-- ==== Sys2Proof/Machine/Copy.lean ====
section
/-! DEFINITION. CPY and TCPY of warps, the copy engine's events, and what contexts' copies share with them
(07 R163 to R171; 09 R218; 15 R356 to R358; 18 R442). A copy reads and writes its bytes when it completes, which R165 and R166
leave open. -/

namespace Sys2Proof.Machine

/-! ### Issue -/

/-- The copies that wait for their time on a core (R167). -/
def Core.timed (k : Core) : Nat := (k.copies.filter fun x => !x.started).length

/-- The release at a copy's issue (R166). -/
def copyRelease (s : State) (a : Issuer) (scope : Nat) : State :=
  let s := s.settleAll a
  if scope < 3 then s else s.eager (coreOf a) (max 4 scope)

/-- The leaf entries of a handle's page, those of a contiguous group all. -/
def handlePtes (h : Handle) : List Nat :=
  if h.size == 1 || h.size == 3 then (List.range 16).map fun i => h.pte / 128 * 128 + 8 * i else [h.pte]
/-- The page's dirty bit, set before the first write through a handle (05 R110); the entries of a contiguous group all. -/
def State.handleDirty (s : State) (h : Handle) : State :=
  (handlePtes h).foldl (fun s a => if (s.rd64 a).getLsbD 0 then s.orPte a leafD else s) s
/-- The first write through a handle whose page an eviction has taken out of the tables: it fails its OR and waits with the page's waiters
(10 R225, R238). The address that it walks. -/
def State.handleLost (s : State) (h : Handle) : Option W64 :=
  let out := fun (f : (Nat × Nat) × InFlight) => f.2.evict && (handlePtes h).contains f.1.2 && !(s.rd64 f.1.2).getLsbD 0
  if h.dirtyDone then none else (s.inflight.find? out).map fun _ => BitVec.ofNat 64 (handleVa h)

def State.modCopy (s : State) (c id : Nat) (f : Copy → Copy) : State :=
  s.modCore c fun k => { k with copies := k.copies.map fun x => if x.id == id then f x else x }

/-- The scratchpad destination of a copy: group, offset, length. -/
def copyDst (s : State) (x : Copy) : Option (Nat × Nat × Nat) :=
  let d := x.desc
  if dDir d == 0 then some (x.gid, dDst d % 2 ^ 32, match x.tensor with | some t => tBlock 0 t | none => dLen d)
  else if dDir d == 2 then (clusterTarget s x.gid (BitVec.ofNat 32 (dDst d))).map fun g => (g, dDst d % 2 ^ 24, dLen d)
  else none

/-- Ranges of the destinations of an agent's outstanding copies that it writes as well: free there (05 R96). -/
def overCopies (s : State) (a : Issuer) (skip gid o len : Nat) : List (Nat × Nat) × State :=
  let hit := fun (x : Copy) => match copyDst s x with
    | some (g, b, n) =>
      let lo := max b o
      let hi := min (b + n) (o + len)
      if x.agent == a && x.id != skip && g == gid && lo < hi then some (lo, hi - lo) else none
    | none => none
  let rs := (s.core (coreOf a)).copies.filterMap hit
  (rs, if rs.isEmpty then s else s.modCore (coreOf a) fun k =>
    { k with copies := k.copies.map fun x => { x with clash := x.clash ++ (hit x).toList } })

/-- A copy of a context to where another outstanding result of the context goes: both end free there (05 R96). -/
def State.copyClash (s : State) (c id : Nat) : State :=
  match (s.core c).copies.find? fun x => x.id == id with
  | some x => (match x.agent, copyDst s x with
    | .ctx _ _, some (g, o, n) =>
      let (rs, s) := overCopies s x.agent id g o n
      let pend := ((s.core c).pend.filter fun p => p.agent == x.agent).flatMap fun p => p.w.regsOf s x.agent
      let us := (scrUnits g o n).filter fun u => ((s.core c).varRegs x.agent ++ pend).contains u
      let mine := us.map fun u => (16 * (u.2 % 2 ^ 40), 16)
      (s.markClash x.agent us).modCopy c id fun y => { y with clash := y.clash ++ rs ++ mine }
    | _, _ => s)
  | none => s

/-- Issue a copy that has passed its checks: it starts, or enters the time-sorted buffer (15 R357). A write through a handle sets the
page's dirty bit now, so that an eviction which begins while the copy runs writes the page back (05 R110). -/
def copyIssue (s : State) (a : Issuer) (gid tok scope : Nat) (d : BitVec 256) (t : Option (BitVec 512)) (hnd : Option Handle) :
    State :=
  let c := coreOf a
  let id := s.fresh
  let s := (copyRelease s a scope).addTok a tok
  let s := match hnd with | some h => if dDir d == 1 then s.handleDirty h else s | none => s
  let now := dTime d == 0 || dTime d ≤ s.now
  let x : Copy := { id := id, agent := a, gid := gid, tok := tok, desc := d, tensor := t, hnd := hnd, scope := scope, started := now,
                    startedAt := s.now, parked := false, waiting := false, done := 0 }
  let s := (s.modCore c fun k => { k with copies := k.copies ++ [x] }).bump
  let s := s.copyClash c id
  if now then s.push (.copyComplete c id) else s

/-- The descriptor in g registers, low bits first. -/
def descG (s : State) (v : View) (n : Nat) : BitVec 256 :=
  BitVec.ofNat 256 ((List.range 8).foldl (fun x i => x + (readG s v 0 (n + i)).toNat * 2 ^ (32 * i)) 0)

/-- CPY and TCPY of a warp: at core scope (15 R358). A full buffer holds the instruction (R167). -/
def copyBody (tensor : Bool) (f : Asy) : View → State → Res :=
  onceWarp fun v s =>
    let d := descG s v f.a.toNat
    let t := if tensor then tensorRec (s.settleAll v.me) v.gid d else none
    match firstTrap (copyTraps s v.gid false tensor d {} t) with
    | some tr => Res.of s tr v.realLanes
    | none =>
      if dTime d != 0 && s.now < dTime d && 64 ≤ (s.core v.c).timed then .ok s .hold
      else .ok (copyIssue s v.me v.gid f.tok.toNat 2 d t none) .next

/-! ### The copy's work -/

/-- How far a copy came; the state holds its progress. -/
inductive CX where
  | done (s : State)
  | wait (s : State) (va : Nat)
  | fault (s : State) (f : XFault) (va : Nat)
  | poison (s : State) (pa : Nat)

/-- The base that turns offsets into addresses where the copy uses a handle. -/
def Copy.va (x : Copy) (a : Nat) : Nat := match x.hnd with | some h => handleVa h + a | none => a

/-- Write a piece of a copy's global destination: in memory, or into the bounce region (R171). -/
def copyPut (s : State) (c n : Nat) (x : Copy) (a : Nat) (bs : List Byte) : CX :=
  match copyXl s c n x.hnd .w a with
  | (.ok pa, s) => .done (copyWrite s c n pa bs)
  | (.page key va _, s) =>
    match bounceWrite s n key (pageFirst s n va) va bs with
    | some s => .done s
    | none => .wait s va
  | (.bad f va, s) => .fault s f va

/-- Read a piece of a copy's global source. The read is strong: tagged cores join the agent's pending mask (09 R209). -/
def copyGet (s : State) (c n : Nat) (x : Copy) (a len : Nat) : CX × List Byte :=
  match copyXl s c n x.hnd .r a with
  | (.ok pa, s) =>
    let (bs, bad, s) := copyRead s c n pa len
    let s := if pa < memEnd then s.addMask x.agent (tagCores s (span pa len)) else s
    (match bad with | some p => .poison s p | none => .done s, bs)
  | (.page _ va _, s) => (.wait s va, [])
  | (.bad f va, s) => (.fault s f va, [])

/-- A scratchpad range of a group, or its first poisoned byte. -/
def scrGet (s : State) (gid o len : Nat) : Except Nat (List Byte) :=
  match (span (gid * 2 ^ 32 + o) len).find? s.scrPoisoned with
  | some p => .error (p % 2 ^ 32)
  | none => .ok ((span o len).map fun i => mget 0 (s.group gid).scratch i)

/-- Write bytes of a copy's scratchpad destination; those that its context has written meanwhile are free (05 R96). -/
def copyScrPut (s : State) (c : Nat) (x : Copy) (gid o : Nat) (bs : List Byte) : State :=
  let clash := (((s.core c).copies.find? fun y => y.id == x.id).map (·.clash)).getD []
  s.scrWrite gid o (if clash.isEmpty then bs else ((List.range bs.length).zip bs).map fun ib =>
    if clash.any fun r => r.1 ≤ o + ib.1 && o + ib.1 < r.1 + r.2 then (s.free (92000 + ib.1)).extractLsb' 0 8 else ib.2)

/-- Pieces of a plain copy (R164, R165): each is written once, and the copy's progress stands after it. -/
def plainRun (c n : Nat) (x : Copy) (put : Bool) : List (Nat × Nat × Nat) → State → CX
  | [], s => .done s
  | (a, o, len) :: t, s =>
    let on := fun (s : State) => s.modCopy c x.id fun y => { y with done := o + len }
    if put then
      match scrGet s x.gid (dSrc x.desc % 2 ^ 32 + o) len with
      | .error p => .poison s p
      | .ok bs => match copyPut s c n x a bs with
        | .done s => plainRun c n x put t (on s)
        | r => r
    else
      match copyGet s c n x a len with
      | (.done s, bs) => plainRun c n x put t (on (copyScrPut s c x x.gid (dDst x.desc % 2 ^ 32 + o) bs))
      | (r, _) => r

/-- Pieces of the source of a DIR 0 tensor copy, line after line, main array and auxiliary one. -/
def tensorPieces (t : BitVec 512) : List (Nat × Nat × Nat) :=
  (List.range (tLines t)).flatMap fun l =>
    piecesOf (tBase t + l * tPitch t) (tMain t) ++ piecesOf (tAux t + l * tAuxPitch t) (tAuxBytes t)

/-- Read pieces of a tensor copy; what has been read stands in the copy. -/
def tensorGets (c n : Nat) (x : Copy) : List (Nat × Nat × Nat) → State → CX
  | [], s => .done s
  | (a, _, len) :: t, s =>
    match copyGet s c n x a len with
    | (.done s, bs) => tensorGets c n x t (s.modCopy c x.id fun y => { y with done := y.done + 1, got := y.got ++ bs })
    | (r, _) => r

/-- The bytes of the lines that have been read. -/
def tensorLines (t : BitVec 512) (got : List Byte) : List (List Byte × List Byte) :=
  let w := tMain t + tAuxBytes t
  (List.range (tLines t)).map fun l => ((got.drop (l * w)).take (tMain t), (got.drop (l * w + tMain t)).take (tAuxBytes t))

/-- The bytes of a DIR 1 tensor copy by address. -/
def tensorPuts (t : BitVec 512) (block : List Byte) : List (Nat × List Byte) :=
  (List.range (tLines t)).flatMap fun l =>
    let row := (block.drop (128 * l)).take 128
    let out := tOutLine t row
    let main := (piecesOf (tBase t + l * tPitch t) (tMain t)).map fun p => (p.1, (out.drop p.2.1).take p.2.2)
    let aux := (piecesOf (tAux t + l * tAuxPitch t) (tAuxBytes t)).map fun p => (p.1, List.replicate p.2.2 0)
    main ++ aux

/-- Write byte ranges to a global destination, piece after piece. -/
def copyPuts (c n : Nat) (x : Copy) : List (Nat × List Byte) → State → CX
  | [], s => .done s
  | (a, bs) :: t, s =>
    match copyPut s c n x a bs with
    | .done s => copyPuts c n x t (s.modCopy c x.id fun y => { y with done := y.done + 1 })
    | r => r

/-- Tensor copies of both directions, from the piece at which they stand (R164, R170). -/
def tensorRun (s : State) (c n : Nat) (x : Copy) (t : BitVec 512) : CX :=
  if dDir x.desc == 0 then
    match tensorGets c n x ((tensorPieces t).drop x.done) s with
    | .done s =>
      let got := (((s.core c).copies.find? fun y => y.id == x.id).map (·.got)).getD []
      .done (copyScrPut s c x x.gid (dDst x.desc % 2 ^ 32) (tTarget s t (tensorLines t got)))
    | r => r
  else
    match scrGet s x.gid (dSrc x.desc % 2 ^ 32) 4096 with
    | .error p => .poison s p
    | .ok block => copyPuts c n x ((tensorPuts t block).drop x.done) s

/-- A copy between scratchpads of a cluster; overlapping ranges leave free bytes (R165). -/
def clusterRun (s : State) (c : Nat) (x : Copy) : CX :=
  let d := x.desc
  let len := dLen d
  match clusterTarget s x.gid (BitVec.ofNat 32 (dSrc d)), clusterTarget s x.gid (BitVec.ofNat 32 (dDst d)) with
  | some g, some g' =>
    let so := dSrc d % 2 ^ 24
    let o := dDst d % 2 ^ 24
    (match scrGet s g so len with
    | .error p => .poison s p
    | .ok bs =>
      let bs := if g == g' && so < o + len && o < so + len then (List.range len).map fun i => (s.free (90000 + i)).extractLsb' 0 8
        else bs
      .done (copyScrPut s c x g' o bs))
  | _, _ => .done s

/-- The whole work of a copy from where it stands. -/
def copyRun (s : State) (c n : Nat) (x : Copy) : CX :=
  match x.tensor with
  | some t => tensorRun s c n x t
  | none =>
    let d := x.desc
    let go := fun (put : Bool) (a : Nat) =>
      plainRun c n x put ((piecesOf a (dLen d)).filter fun p => x.done < p.2.1 + p.2.2) s
    if dDir d == 0 then go false (dSrc d) else if dDir d == 1 then go true (dDst d) else clusterRun s c x

/-! ### Completion -/

/-- A record about a copy. -/
def copyRec (s : State) (x : Copy) (cls code cause : Nat) (va : W64) : FRec :=
  { agentRec s x.gid x.agent cls code cause va with source := 2 }

/-- The arrival of a finished copy on its phase gate (R168); one that overruns, or meets reserved bits, is discarded, and the
destination group parks (09 R218). -/
def copyArrive (s : State) (x : Copy) : State :=
  if !dGatev x.desc then s
  else match copyDstGroup s x.gid x.desc with
    | none => s
    | some g =>
      let o := dGate x.desc
      let gt := s.gate g o
      let bad := fun (code : Nat) => s.parkGroup g { copyRec s x 2 code 8 (BitVec.ofNat 64 o) with
        group := (s.group g).number, kobj := (s.gridOf g).kobj } .nothing
      if gt.rsvd != 0 then bad 0x08
      else match arrive gt gt.phase (copyWeight x.desc x.tensor) with
        | some gt' => s.setGate g o gt'
        | none => bad 0x14

/-- A copy has written every byte: it arrives, its token falls as an acquire, and its group may retire (R162, R166, R168). -/
def copyFinish (s : State) (c : Nat) (x : Copy) : State :=
  let s := copyArrive s x
  let s := s.modCore c fun k => { k with copies := k.copies.filter fun y => y.id != x.id }
  let s := s.monitor (dieOf c) 4 (s.partOf x.gid) c (s.now - x.startedAt)
  let s := s.moved x.gid (copyWeight x.desc x.tensor)
  let s := (acquireAt s x.agent x.gid x.scope).subTok x.agent x.tok
  s.push (.groupRetire x.gid)

/-- Groups whose scratchpad a copy touches are resident, and the scratchpad stores that its issuer made before it have landed
(R166). -/
def copyReady (s : State) (x : Copy) : Bool :=
  let live := fun (g : Option Nat) => match g with
    | some g => match (s.group g).phase with | .saved _ => false | _ => true
    | none => true
  if s.storesBefore x.agent x.id then false
  else if dDir x.desc == 2 then
    live (clusterTarget s x.gid (BitVec.ofNat 32 (dSrc x.desc))) && live (clusterTarget s x.gid (BitVec.ofNat 32 (dDst x.desc)))
  else true

/-- COPY_COMPLETE: a started copy that is not parked runs as far as it can. -/
def copyComplete (s : State) (c id : Nat) : State :=
  match (s.core c).copies.find? fun x => x.id == id with
  | none => s
  | some x =>
    if !x.started || x.parked || !copyReady s x then s
    else
      let n := s.partOf x.gid
      match copyRun s c n x with
      | .done s => copyFinish s c x
      | .wait s va =>
        (s.modCopy c id fun y => { y with waiting := true }).push (.pagerRequest n (BitVec.ofNat 64 va) (.copy c id))
      | .poison s pa => s.poisonAbort x.gid x.agent pa
      | .fault s f va =>
        if f.cls == 2 then s.push (.copyPageFault c id)
        else s.fatalGrid x.gid { copyRec s x 3 f.code f.cause (f.recVa (BitVec.ofNat 64 (x.va va))) with level := f.level, info := f.recInfo }
def execCopyComplete (core id : Nat) (s : State) : Out3 := runEvent (fun s => copyComplete s core id) s

/-- COPY_PAGE_FAULT: a class-2 fault of a running copy parks its group at the faulting page (R164). -/
def copyPageFault (s : State) (c id : Nat) : State :=
  match (s.core c).copies.find? fun x => x.id == id with
  | none => s
  | some x =>
    if !x.started || x.parked || !copyReady s x then s
    else match copyRun s c (s.partOf x.gid) x with
      | .fault s' f va =>
        if f.cls == 2 then
          let s' := s'.modCopy c id fun y => { y with parked := true }
          s'.parkGroup x.gid { copyRec s' x 2 f.code f.cause (BitVec.ofNat 64 va) with
            level := f.level, info := f.entry.toNat, access := if dDir x.desc == 1 then 1 else 0 } (.copy id)
        else s.push (.copyComplete c id)
      | _ => s.push (.copyComplete c id)
def execCopyPageFault (core id : Nat) (s : State) : Out3 := runEvent (fun s => copyPageFault s core id) s

/-- TIMED_COPY_START: a copy leaves the time-sorted buffer in the first cycle that has reached its TIME (R167) and finds room in the
request tracker (01 R17). -/
def timedStart (s : State) (c id : Nat) : State :=
  match (s.core c).copies.find? fun x => x.id == id with
  | none => s
  | some x =>
    if x.started || s.now < dTime x.desc || (s.core c).trackerFull then s
    else (s.modCopy c id fun y => { y with started := true, startedAt := s.now }).push (.copyComplete c id)
def execTimedCopyStart (core id : Nat) (s : State) : Out3 := runEvent (fun s => timedStart s core id) s

end Sys2Proof.Machine
end

