-- ==== Sys2Proof/Machine/FloatAlu.lean ====
section
/-! DEFINITION. The floating lane operations FADD, FMUL, FFMA, FMEX and FCMP (16 R368 to R376), and CVT (15 R359 to R361). -/

namespace Sys2Proof.Machine

/-- A function of exact values at a type: each 16-bit element of a packed pair on its own, one rounding (R130, R131, R133,
R368). -/
def floatElem (t rnd : Nat) (ftz : Bool) (g : List FV → FV) (xs : List W64) (sh : Nat) : Nat :=
  let fm := fmtOf t
  let z := ftz && ftzType t
  fm.round rnd false z (g (xs.map fun x => fm.dec z (bitsN x.toNat (sh + fm.bits - 1) sh)))
def floatOp (t rnd : Nat) (ftz : Bool) (g : List FV → FV) (xs : List W64) : W64 :=
  BitVec.ofNat 64 (floatElem t rnd ftz g xs 0 + if t == 17 || t == 18 then 65536 * floatElem t rnd ftz g xs 16 else 0)

def negIf (n : Bool) (x : FV) : FV := if n then x.negate else x

/-- FADD (R369), FMUL (R376), FMEX (R375), FFMA (R373) as functions of their operands' bits. -/
def faddVal (v : BitVec 2) (m : BitVec 8) (a b : W64) : W64 :=
  floatOp (modType m) (modVar m) (modSF m) (fun xs => match xs with
    | [x, y] => FV.add (modVar m) (negIf (v.getLsbD 1) x) (negIf (v.getLsbD 0) y)
    | _ => .nan) [a, b]
def fmulVal (neg : Bool) (m : BitVec 8) (a b : W64) : W64 :=
  floatOp (modType m) (modVar m) (modSF m) (fun xs => match xs with
    | [x, y] => negIf neg (FV.mul x y)
    | _ => .nan) [a, b]
def fmexVal (m : BitVec 8) (a b : W64) : W64 :=
  floatOp (modType m) 0 (modSF m) (fun xs => match xs with
    | [x, y] => if modVar m == 0 then FV.least x y else FV.greatest x y
    | _ => .nan) [a, b]
def ffmaVal (v : BitVec 5) (a b c : W64) : W64 :=
  let rnd := (v.extractLsb' 0 2).toNat
  floatOp (ffmaType v) rnd (ffmaFtz v) (fun xs => match xs with
    | [x, y, z] => FV.add rnd (FV.mul x y) z
    | _ => .nan) [a, b, c]
/-- FCMP (R370). -/
def fcmpVal (m : BitVec 8) (ftz : Bool) (a b : W64) : Bool :=
  let fm := fmtOf (modType m)
  let rd := fun (x : W64) => fm.dec ftz (x.toNat % 2 ^ fm.bits)
  cmpFloat (modLow3 m) (rd a) (rd b)

/-- The fixed latency of a floating lane operation (R317). -/
def floatLat (t : Nat) : Nat := if t == 13 then 10 else 4

/-- A .f64 instruction occupies its quarter's datapath for four cycles (R318). -/
def useF64 (t : Nat) (body : View → State → Res) (v : View) (s : State) : Res :=
  match body v s with
  | .ok s a => .ok (if t == 13 then s.modCore v.c fun k => { k with f64Free := mput k.f64Free (v.w / 16) (s.now + 4) } else s) a
  | r => r

def floatReg (f : Reg) (g : W64 → W64 → W64) : View → State → Res :=
  let t := modType f.m
  useF64 t (regOp2 f (wideType t) (wideType t) (floatLat t) g)

def fcmpBody (ftz : Bool) (f : Reg) : View → State → Res :=
  let t := modType f.m
  let w := wideType t
  useF64 t (predOp (runRegsX (xA f.x) f.a.toNat (kOf w) ++ runRegsX (xB f.x) f.b.toNat (kOf w)) f.d.toNat (floatLat t)
    fun s v j => fcmpVal f.m ftz (readT s v 0 (xA f.x) f.a w j) (readT s v 1 (xB f.x) f.b w j))

def ffmaBody (v5 : BitVec 5) (f : Four) : View → State → Res :=
  let t := ffmaType v5
  let w := wideType t
  useF64 t (vecOp (runRegsX (xA f.x) f.a.toNat (kOf w) ++ runRegsX (xB f.x) f.b.toNat (kOf w) ++ runRegs f.c.toNat (kOf w))
    f.d.toNat (kOf w) (floatLat t) fun s v j =>
      words w (ffmaVal v5 (readT s v 0 (xA f.x) f.a w j) (readT s v 1 (xB f.x) f.b w j) (readT s v 2 false f.c w j)))

/-- CVT (R360, R361): a packed pair is read from, or written to, two F32 registers, the low element first. -/
def cvtVal (f : Cvtf) (lo hi : W32) : List W32 :=
  let st := f.st.toNat
  let dt := f.dt.toNat
  let rnd := f.rnd.toNat
  let one := fun (t u : Nat) (x : W64) => cvtElem t u rnd f.sat f.ftz x
  let half := fun (t : Nat) => if t == 17 then 10 else 11
  if st == 17 || st == 18 then
    [lo32 (one (half st) 12 ((lo.extractLsb' 0 16).setWidth 64)), lo32 (one (half st) 12 ((lo.extractLsb' 16 16).setWidth 64))]
  else if dt == 17 || dt == 18 then
    [lo32 ((one 12 (half dt) (lo.setWidth 64)) ||| (one 12 (half dt) (hi.setWidth 64) <<< 16))]
  else words (wideType dt) (one st dt (if wideType st then pair lo hi else lo.setWidth 64))
def cvtBody (f : Cvtf) : View → State → Res :=
  let x2 := fun (t : Nat) => t == 17 || t == 18
  let ks := if x2 f.dt.toNat then 2 else regsOf f.st.toNat
  let kd := if x2 f.st.toNat then 2 else regsOf f.dt.toNat
  vecOp (runRegsX f.xa f.a.toNat ks) f.d.toNat kd 6 fun s v j =>
    cvtVal f (readR s v 0 f.xa f.a.toNat j) (if ks == 2 then readR s v 1 f.xa (f.a.toNat + 1) j else 0)

def execFadd (h : Hdr) (v : BitVec 2) (f : Reg) (s : State) : Out3 :=
  runWarp h (.fadd h v f) (floatReg f (faddVal v f.m)) s
def execFmul (h : Hdr) (v : Bool) (f : Reg) (s : State) : Out3 :=
  runWarp h (.fmul h v f) (floatReg f (fmulVal v f.m)) s
def execFmex (h : Hdr) (f : Reg) (s : State) : Out3 := runWarp h (.fmex h f) (floatReg f (fmexVal f.m)) s
def execFcmp (h : Hdr) (f : Reg) (s : State) : Out3 := runWarp h (.fcmp h f) (fcmpBody false f) s
def execFcmpFtz (h : Hdr) (f : Reg) (s : State) : Out3 := runWarp h (.fcmpFtz h f) (fcmpBody true f) s
def execFfma (h : Hdr) (v : BitVec 5) (f : Four) (s : State) : Out3 := runWarp h (.ffma h v f) (ffmaBody v f) s
def execCvt (h : Hdr) (f : Cvtf) (s : State) : Out3 := runWarp h (.cvt h f) (cvtBody f) s

end Sys2Proof.Machine
end

