-- ==== Sys2Proof/Machine/Ticket.lean ====
section
/-! DEFINITION. Fetch tickets: LDT, REDEEM, TKDROP in a warp, the slices that answer them, leases and quotas
(08 R178 to R194; 16 R393; 17 R416, R417; 18 R448). A context's REDEEM and TKDROP ask the same slices before their bundle
issues. -/

namespace Sys2Proof.Machine

/-! ### LDT -/

/-- LDT and LDT.try (R178): the checks at issue, then variable latency. -/
def ldtBody (try_ : Bool) (f : Asy) : View → State → Res :=
  onceWarp (guardV (runRegsX (xA f.x) f.a.toNat 2) fun v s =>
    let va := readR64 s v 0 (xA f.x) f.a.toNat (v.lane0.getD 0)
    let size := bitsN f.sub.toNat 1 0
    if 2 ^ 48 ≤ va.toNat then Res.of s ⟨rkCanon, 0x22, va, 2⟩ v.realLanes
    else if va.toNat % (128 * 2 ^ size) != 0 then Res.of s ⟨rkAlign, 0x20, va, 8⟩ v.realLanes
    else if (s.part (s.partOf v.gid)).quota == 0 then Res.of s ⟨rkXPerm, 0x23, va, 8⟩ v.realLanes
    else
      let s := s.settleAll v.me
      let id := s.fresh
      let d := f.d.toNat
      let s := s.issueVar v.me f.tok.toNat [(true, d), (true, d + 1)] [] (.ldt va size d try_ none) false
      .ok (s.push (.ticketAllocate v.c id)) .next)
def execLdt (h : Hdr) (f : Asy) (s : State) : Out3 := runWarp h (.ldt h f) (ldtBody false f) s
def execLdtTry (h : Hdr) (f : Asy) (s : State) : Out3 := runWarp h (.ldtTry h f) (ldtBody true f) s

/-- TICKET_ALLOCATE of an outstanding LDT. -/
def execTicketAllocate (core id : Nat) (s : State) : Out3 :=
  runEvent (fun s =>
    match (s.core core).vars.find? fun v => v.id == id with
    | some v => if s.ldtWaits.any fun x => x.id == id then s else ldtAllocate s core v
    | none => s) s

/-- LDT_QUOTA_GRANT: the first waiting LDT of a partition at a slice takes an entry when the quota allows (R181). -/
def ldtGrant (s : State) (slice n : Nat) : State :=
  match s.ldtWaits.find? fun x => x.slice == slice && x.part == n with
  | none => s
  | some x =>
    if (s.part n).quota ≤ ticketsAt s slice n || freeTickets s slice == [] then s
    else match (s.core x.core).vars.find? fun v => v.id == x.id with
      | none => { s with ldtWaits := s.ldtWaits.filter fun y => y.id != x.id }
      | some v => (ldtAllocate s x.core v).push (.ldtQuotaGrant slice n)
def execLdtQuotaGrant (slice part : Nat) (s : State) : Out3 := runEvent (fun s => ldtGrant s slice part) s

/-! ### Answers -/

def State.tkreq (s : State) (id : Nat) : Option TkReq := mget? s.tkreqs id
def State.delReq (s : State) (id : Nat) : State := { s with tkreqs := mdel s.tkreqs id }

/-- The slice refuses: a precise trap at the instruction, or at the bundle (R188). -/
def tkTrap (s : State) (id code : Nat) (info : W64) : State :=
  match s.tkreq id with
  | none => s
  | some r =>
    let s := s.delReq id
    match r.agent with
    | .warp c w => takeTrap s c w code 8 ((lanesOf r.act).map fun j => (j, info))
    | .ctx c k => takeCtxTrap s c k code none info
    | .none => s

/-- Bytes as the 32 lane words of a row. -/
def rowOf (bs : List Byte) : List (Nat × W32) := (List.range 32).zip (bytesWords 32 bs)

/-- What a claimed REDEEM of a warp writes (R186): every lane of each register, or its scratchpad. -/
def tkWrites (d : TkDst) (data : List Byte) : List Write :=
  match d with
  | .none => []
  | .rows l => ((List.range l.length).zip l).map fun x => .row x.2.1 x.2.2 (rowOf ((data.drop (128 * x.1)).take 128))
  | .scratch gid o => [.scratch gid o data []]

/-- The slice answers with a claim, and with the data unless the request drops (R188). A warp moves on and its token rises until
the data is written; a context's bundle may issue in the cycle after. -/
def tkAnswer (s : State) (id : Nat) (data : List Byte) (bad : Option Nat) : State :=
  match s.tkreq id with
  | none => s
  | some r =>
    match bad, r.drop with
    | some pa, false => (s.delReq id).poisonAbort (s.gidOf r.agent) r.agent pa
    | _, _ =>
      let s := if r.drop then s else s.moved (s.gidOf r.agent) data.length
      match r.agent with
      | .warp c w =>
        let s := (s.delReq id).unblock c w
        if r.drop then s
        else
          let ws := tkWrites r.dst data
          s.issueVar r.agent r.tok (writeRegs s r.agent ws) (writeTiles ws) (.results ws)
      | .ctx c k =>
        let s := { s with tkreqs := mput s.tkreqs id { r with data := some data } }
        s.modCtx c k fun x => match x.wait with
          | .ticket i had => if i == id then { x with wait := .answered (had ++ [id]), nextIssue := max x.nextIssue (s.now + 1) } else x
          | _ => x
      | .none => s

/-! ### The table entry (R189) -/

/-- next(g) (R185). -/
def nextGen (g : BitVec 8) : BitVec 8 := if g == 255 then 1 else g + 1

/-- An entry of a slice is FREE: the LDTs that wait there are looked at again. -/
def State.slotFreed (s : State) (slice n : Nat) : State :=
  (n :: ((s.ldtWaits.filter fun x => x.slice == slice && x.part != n).map (·.part)).eraseDups).foldl
    (fun s p => s.push (.ldtQuotaGrant slice p)) s

/-- A claim: the generation advances, waiters receive TICKET_STALE, the kind is recorded; FREE, or CLAIMED while a read runs. -/
def tkClaim (s : State) (key : Nat) (kind : TkClaim) (st : TkState) : State :=
  let t := s.ticket key
  let s := s.setTicket key { t with st := st, gen := nextGen t.gen, last := kind, waiters := [], data := if st == .free then [] else t.data }
  let s := t.waiters.foldl (fun s id => match s.tkreq id with
    | some r => tkTrap s id 0x31 r.ticket
    | none => s) s
  if st == .free then s.slotFreed (key / 1024) t.part else s

/-- A FULL entry is claimed: the cycles since its clock started are captured (12 R290). -/
def claimWatch (s : State) (key : Nat) : State :=
  let t := s.ticket key
  if t.st == .full then s.monitor (key / 1024 / 32) 2 t.part (key / 1024) (s.now - t.clock) else s

/-- A REDEEM or TKDROP claims a FULL or POISONED entry. -/
def tkTake (s : State) (key id : Nat) : State :=
  match s.tkreq id with
  | none => s
  | some r =>
    let t := s.ticket key
    let s := s.setTicket key { t with waiters := t.waiters.filter fun x => x != id }
    if t.st == .poisoned && !r.drop then
      tkTrap (tkClaim s key .redeemed .free) id 0x33 (BitVec.ofNat 64 (t.va.toNat % 2 ^ 48 + t.cause.toNat * 2 ^ 48))
    else
      let s := tkClaim (claimWatch s key) key (if r.drop then .dropped else .redeemed) .free
      tkAnswer s id t.data ((t.poisoned.head?).map (t.pa + ·))

/-- An entry becomes FULL or POISONED: its lease clock starts and its first waiter claims it. -/
def tkSettle (s : State) (key : Nat) (st : TkState) (cause : BitVec 8) : State :=
  let t := s.ticket key
  let s := s.setTicket key { t with st := st, cause := cause, clock := s.now }
  match t.waiters with
  | [] => s
  | id :: _ => tkTake s key id

/-- TICKET_FETCH_COMPLETE: a FETCHING entry is FULL; a CLAIMED one is FREE once its read ends. -/
def tkFetched (s : State) (slice entry : Nat) : State :=
  let key := tkKey slice entry
  let t := s.ticket key
  match t.st with
  | .fetching => tkSettle s key .full 0
  | .claimed => (s.setTicket key { t with st := .free, data := [] }).slotFreed slice t.part
  | _ => s
def execTicketFetchComplete (slice entry : Nat) (s : State) : Out3 := runEvent (fun s => tkFetched s slice entry) s

/-- A WAITPAGE entry's page has been installed: it is read from the frame (R180, R189). -/
def tkPage (s : State) (slice entry : Nat) : State :=
  let key := tkKey slice entry
  let t := s.ticket key
  match t.st with
  | .waitpage =>
    tkRead s key
  | .claimed => s.push (.ticketFetchComplete slice entry)
  | _ => s
/-- A WAITPAGE entry's page-in has failed. -/
def tkPageFail (s : State) (slice entry : Nat) : State :=
  let key := tkKey slice entry
  match (s.ticket key).st with
  | .waitpage => tkSettle s key .poisoned 0x60
  | .claimed => tkFetched s slice entry
  | _ => s

/-- The checks of a slice, steps 1 to 6 (R187): a refusal, or the entry. -/
def sliceCheck (s : State) (n : Nat) (t : W64) : Except Nat Nat :=
  let x := t.toNat
  let size := bitsN x 35 34
  let key := tkKey (bitsN x 63 58) (bitsN x 57 48)
  let e := s.ticket key
  let gen := t.extractLsb' 40 8
  let lapsed := e.last == .lapsed && e.gen == nextGen gen
  if t == 0 then .error 0x30
  else if size == 3 || bitsN x 33 32 != 0 then .error 0x30
  else if bitsN x 39 36 != n then .error 0x30
  else if lo32 t != ticketTag (s.part n).tagKey (hi32 t) then .error 0x30
  else if e.st == .free || e.part != n || e.size != size || e.gen != gen then .error (if lapsed then 0x32 else 0x31)
  else .ok key

/-- TICKET_LEASE_END: an entry may be reclaimed 2^LEASE cycles after its clock started (R191). Where TKCFG has been written meanwhile, the
LEASE that stands now counts (DESIGN CHOICE, log 18). -/
def leaseEnd (s : State) (slice entry : Nat) : State :=
  let key := tkKey slice entry
  let t := s.ticket key
  let p := s.part t.part
  if (t.st == .full || t.st == .poisoned) && t.clock + 2 ^ p.lease.toNat ≤ s.now then
    let s := tkClaim (claimWatch s key) key .lapsed .free
    let s := s.modPart t.part fun p => { p with lapsed := p.lapsed + 1 }
    if p.lapsed == 0 then s.signal (1 + t.part) (bitsN p.intcfg.toNat 5 0) else s
  else s
/-- An entry whose window has passed has lapsed (R191). -/
def lapseOver (s : State) (key : Nat) : State :=
  let t := s.ticket key
  if t.clock + 2 ^ (s.part t.part).lease.toNat + 1024 < s.now then leaseEnd s (key / 1024) (key % 1024) else s

/-- TICKET_SLICE_REQUEST: a REDEEM or TKDROP reaches its slice. -/
def sliceRequest (s : State) (id : Nat) (r : TkReq) : State :=
  let s := { s with tkreqs := mput s.tkreqs id { r with sent := true } }
  let n := s.partOf (s.gidOf r.agent)
  let s := lapseOver s (tkKey (bitsN r.ticket.toNat 63 58) (bitsN r.ticket.toNat 57 48))
  if r.drop && r.ticket == 0 then tkAnswer s id [] none
  else match sliceCheck s n r.ticket with
    | .error code => tkTrap s id code r.ticket
    | .ok key =>
      let t := s.ticket key
      match t.st with
      | .full | .poisoned => tkTake s key id
      | _ =>
        if r.drop then tkAnswer (tkClaim s key .dropped .claimed) id [] none
        else
          let s := s.setTicket key { t with waiters := t.waiters ++ [id] }
          -- a REDEEM on a WAITPAGE entry waits on the pager (10 R243, R244)
          if t.st == .waitpage then s.push (.groupSwapOut (s.gidOf r.agent)) else s
def execTicketSliceRequest (core agent : Nat) (s : State) : Out3 :=
  runEvent (fun s =>
    match s.tkreqs.find? fun x => x.2.agent == agentOf core agent && !x.2.sent with
    | some x => sliceRequest s x.1 x.2
    | none => s) s

def execTicketLeaseEnd (slice entry : Nat) (s : State) : Out3 := runEvent (fun s => leaseEnd s slice entry) s

/-! ### REDEEM and TKDROP of a warp -/

/-- A warp asks the slice and waits at its instruction (R188). -/
def tkAsk (v : View) (t : W64) (drop : Bool) (dst : TkDst) (tok : Nat) (s : State) : Res :=
  let id := s.fresh
  let r : TkReq := { agent := v.me, ticket := t, drop := drop, act := v.real, dst := dst, tok := tok, sent := false, data := none }
  let s := { s.bump with tkreqs := mput s.tkreqs id r }
  .ok ((blockOn v (.ticket id) s).push (.ticketSliceRequest v.c v.w)) .hold

/-- REDEEM (R186, 13 R298): the registers D to D + c − 1 lie in v0 to v191 or in one window, D aligned to c; c is of the ticket. -/
def redeemRun (d c : Nat) : Bool :=
  d % c == 0 && d + c ≤ 256 && !(d ≤ 191 && 192 < d + c) && !(d ≤ 223 && 224 < d + c)
def redeemBody (f : Asy) : View → State → Res :=
  onceWarp fun v s =>
    let t := pair (readG s v 0 f.a.toNat) (readG s v 0 (f.a.toNat + 1))
    let size := bitsN t.toNat 35 34
    let c := 2 ^ size
    let d := f.d.toNat
    if size == 3 then tkAsk v t false .none f.tok.toNat s
    else if !redeemRun d c then Res.of s trapOperand v.realLanes
    else match checkVs s v.wp (runRegs d c) with
      | some tr => Res.of s tr v.realLanes
      | none => tkAsk v t false (.rows ((runRegs d c).filterMap v.wp.loc)) f.tok.toNat s
/-- REDEEM.S (R186). -/
def redeemSBody (f : Asy) : View → State → Res :=
  onceWarp fun v s =>
    let t := pair (readG s v 0 f.a.toNat) (readG s v 0 (f.a.toNat + 1))
    let size := bitsN t.toNat 35 34
    let o := (readG s v 1 f.d.toNat).toNat
    if o % 128 != 0 then Res.of s ⟨rkAlign, 0x20, BitVec.ofNat 64 o, 8⟩ v.realLanes
    else if size != 3 && (s.gridOf v.gid).scratch < o + 128 * 2 ^ size then
      Res.of s ⟨rkBounds, 0x21, BitVec.ofNat 64 o, 8⟩ v.realLanes
    else tkAsk v t false (if size == 3 then .none else .scratch v.gid o) f.tok.toNat s
def tkdropBody (f : Asy) : View → State → Res :=
  onceWarp fun v s => tkAsk v (pair (readG s v 0 f.a.toNat) (readG s v 0 (f.a.toNat + 1))) true .none 0 s

/-! ### Registers (R192) -/

/-- TKCFG: a write of a LEASE outside 10 to 30 is ignored. -/
def tkcfgSet (s : State) (n : Nat) (v : W64) : State :=
  let l := bitsN v.toNat 4 0
  if 10 ≤ l && l ≤ 30 then s.modPart n fun p => { p with lease := BitVec.ofNat 5 l } else s
def execTkcfgWrite (part : Nat) (val : W64) (s : State) : Out3 := runEvent (fun s => tkcfgSet s part val) s
/-- TKSTAT: any write clears LAPSED. -/
def execTkstatWrite (part : Nat) (_ : W64) (s : State) : Out3 :=
  runEvent (fun s => s.modPart part fun p => { p with lapsed := 0 }) s
/-- The QUOTA values of all sixteen partition blocks. -/
def quotaSum (s : State) : Nat := sumOf ((List.range 16).map fun n => (s.part n).quota)
/-- A management write of QUOTA: above 1,024, or with a sum above 1,024, it is ignored. -/
def quotaSet (s : State) (n : Nat) (v : W64) : State :=
  let q := bitsN v.toNat 10 0
  let sum := quotaSum s - (s.part n).quota + q
  if n < 16 && q ≤ 1024 && sum ≤ 1024 then
    let s := s.modPart n fun p => { p with quota := q }
    ((s.ldtWaits.filter fun x => x.part == n).map (·.slice)).eraseDups.foldl (fun s sl => s.push (.ldtQuotaGrant sl n)) s
  else s
def execTkquotaWrite (part : Nat) (val : W64) (s : State) : Out3 := runMgmt (fun s => quotaSet s part val) s

end Sys2Proof.Machine
end

