-- ==== Sys2Proof/Machine/Slots.lean ====
section
/-! DEFINITION. What the slots of a bundle do: the operations of the matrix, tile-vector, load-store, transposer and control
slots, with the checks that each makes at issue (05 R92 to R120; 06 R141 to R145; 16 R380, R394, R395; 17 R404 to R406;
18 R426, R440 to R450, R454). -/

namespace Sys2Proof.Machine

/-- The view of a slot: core, context, group, scope code of the bundle's memory operations (R93). -/
structure SV where
  c : Nat
  k : Nat
  gid : Nat
  scope : Nat

def SV.me (v : SV) : Issuer := .ctx v.c v.k

/-! ### Reading registers, tiles and scratchpad (R96) -/

/-- The write of an a register has not landed. -/
def aEarly (s : State) (v : SV) (n : Nat) : Bool :=
  (s.core v.c).pend.any fun p => p.agent == v.me && (match p.w with | .a m _ => m == n | _ => false)
/-- An a register; one whose write has not landed reads a free value. `op` tells places apart. -/
def readA (s : State) (v : SV) (op n : Nat) : W64 :=
  if aEarly s v n then s.free (200000 + 64 * op + n) else mget 0 (s.ctx v.c v.k).a n

/-- The write of a handle has not landed. An operation that uses it early has no effect but on its destinations (`slotEarly`). -/
def hEarly (s : State) (v : SV) (n : Nat) : Bool :=
  (s.core v.c).pend.any fun p => p.agent == v.me && (match p.w with | .hnd m _ => m == n | .hrel m => m == n | _ => false)
def readH (s : State) (v : SV) (n : Nat) : Handle := mget {} (s.ctx v.c v.k).h n

/-- A tile field names an a register whose write has not landed. -/
def tileEarly (s : State) (v : SV) (x : Bool) (t : BitVec 10) : Bool := x && aEarly s v (t.toNat % 64)

/-- The tile number of a field with its X bit (13 R310). -/
def slotTile (s : State) (v : SV) (op : Nat) (x : Bool) (t : BitVec 10) : Nat :=
  if x then bitsN (readA s v op (t.toNat % 64)).toNat 9 0 else t.toNat

/-- A row of a tile; a row whose write has not landed reads free values. -/
def tileRow (s : State) (c op t r : Nat) : List W32 :=
  if (s.core c).rowPending t r then (List.range 32).map fun j => lo32 (s.free (300000 + 65536 * op + 32 * r + j))
  else (List.range 32).map fun j => (s.core c).tileWord t r j
def tileRows (s : State) (c op t : Nat) : List W32 := (List.range 32).flatMap (tileRow s c op t)

/-- Results in flight on a core, those latched by a freeze included (R113). -/
def State.flights (s : State) (c : Nat) : List Pend := (s.core c).pend ++ (List.range 4).flatMap fun k => (s.ctx c k).snapshot

/-- A scratchpad byte for a TLD: this context's earlier TSTs are seen, another's that has not landed is free (R96, 18 R447). -/
def scrSeen (s : State) (v : SV) (o : Nat) : Byte :=
  (s.flights v.c).foldl (fun b p => match p.w with
    | .scratch g a bs _ => if g == v.gid && a ≤ o && o < a + bs.length then
        (if p.agent == v.me then nth 0 bs (o - a) else (s.free (600000 + o)).extractLsb' 0 8) else b
    | _ => b) (mget 0 (s.group v.gid).scratch o)

/-! ### Checks -/

/-- Range and ownership of a tile (04 R82, R85). -/
def tileChecks (s : State) (v : SV) (t : Nat) : List Trap :=
  if !accNum t then [trapOperand]
  else if !(s.core v.c).owns v.me t then [⟨rkNotOwned, 0x10, BitVec.ofNat 64 t, 8⟩] else []

/-- The checks of a tile field; a number that is read too early raises no trap (00 R12). -/
def fieldChecks (s : State) (v : SV) (op : Nat) (x : Bool) (t : BitVec 10) : List Trap :=
  if tileEarly s v x t then [] else tileChecks s v (slotTile s v op x t)

/-- Alignment, then bounds, of a range of the group's scratchpad. -/
def scrChecks (s : State) (v : SV) (o len align : Nat) : List Trap :=
  (if o % align != 0 then [⟨rkAlign, 0x20, BitVec.ofNat 64 o, 8⟩] else []) ++ (scrRange s v.gid o len).toList

/-! ### The M slot (17 R404 to R406) -/

/-- A matrix operation: formats of A and B, sparse or dense, scales. -/
structure MmaOp where
  f : Mmaf
  fa : Nat
  fb : Nat
  sparse : Bool
  scaled : Bool
  keep : Bool

def mmaOf (h : Hdr) (sparse scaled : Bool) (f : Mmaf) : MmaOp where
  f := f
  fa := if scaled then 5 else f.fa.toNat
  fb := if scaled then 5 else f.fb.toNat
  sparse := sparse
  scaled := scaled
  keep := h.ctl.getLsbD 15

/-- Result latency and occupancy (R107). -/
def mmaLat (fmt : Nat) : Nat := if fmt == 5 then 10 else if fmt == 4 then 14 else 12
def mmaOcc (fmt : Nat) : Nat := if fmt == 5 then 1 else if fmt == 4 then 4 else 2
/-- K (R114). -/
def mmaK (o : MmaOp) : Nat := 128 / sfmtSize o.fa * if o.sparse then 2 else 1
/-- Bytes of B (R117). -/
def mmaB (o : MmaOp) : Nat := if o.sparse then 5120 else 4096

def mmaTraps (s : State) (v : SV) (o : MmaOp) : List Trap :=
  let x := s.ctx v.c v.k
  let b := (readA s v 2 o.f.ba.toNat).toNat % 2 ^ 32
  let a := match x.latch with
    | some l => if l.fmt.toNat != o.fa || l.sparse != o.sparse then [trapOperand] else []
    | none =>
      let t := slotTile s v 1 o.f.xa o.f.ta
      if tileEarly s v o.f.xa o.f.ta then []
      else if o.sparse then (if t % 2 == 1 then [trapOperand] else tileChecks s v t ++ tileChecks s v (t + 1)) else tileChecks s v t
  fieldChecks s v 0 o.f.xc o.f.tc ++ a ++ if aEarly s v o.f.ba.toNat then [] else scrChecks s v b (mmaB o) 128

/-- The A operand: the latch, or the tiles (R118); free where the tile's number is read too early. -/
def mmaA (s : State) (v : SV) (o : MmaOp) : List W32 :=
  match (s.ctx v.c v.k).latch with
  | some l => l.words
  | none =>
    let t := slotTile s v 1 o.f.xa o.f.ta
    if tileEarly s v o.f.xa o.f.ta then (List.range (if o.sparse then 2048 else 1024)).map fun i => lo32 (s.free (500000 + i))
    else tileRows s v.c 1 t ++ if o.sparse then tileRows s v.c 2 (t + 1) else []

/-- Elements of a size in a byte string. -/
def elemsOf (size : Nat) (bs : List Byte) : List Nat :=
  (List.range (bs.length / size)).map fun i => leNat ((bs.drop (size * i)).take size)

/-- Row `i` of A in K order (R115, R116). -/
def mmaRow (o : MmaOp) (a : List W32) (i : Nat) : List Nat :=
  elemsOf (sfmtSize o.fa) (wordBytes ((a.drop (32 * i)).take 32) ++
    if o.sparse then wordBytes ((a.drop (1024 + 32 * i)).take 32) else [])

/-- The product of two elements (R141; L6 in the logarithm, R142). -/
def mmaMul (o : MmaOp) (x y : Nat) : FV := if o.fa == 5 then l6Mul x y else FV.mul (sfmtDec o.fa x) (sfmtDec o.fb y)

/-- The product sequence of an element (R141): column `n` of the block `b`, sparse columns with their indices (R116). -/
def mmaProducts (o : MmaOp) (row : List Nat) (b : List Byte) (n : Nat) : List FV :=
  let col := elemsOf (sfmtSize o.fb) ((b.drop (128 * n)).take 128)
  if o.sparse then
    let idx := leNat ((b.drop (4096 + 32 * n)).take 32)
    ((List.range col.length).zip col).map fun jv => mmaMul o (nth 0 row (4 * (jv.1 / 2) + idx / 4 ^ jv.1 % 4)) jv.2
  else (row.zip col).map fun xy => mmaMul o xy.1 xy.2

/-- All of C, row by row (R406). -/
def mmaResult (o : MmaOp) (scale : Int) (a : List W32) (b : List Byte) (c : List W32) : List W32 :=
  (List.range 32).flatMap fun i =>
    let row := mmaRow o a i
    (List.range 32).map fun n =>
      BitVec.ofNat 32 (mmaElem o.fa scale (nth 0 c (32 * i + n)).toNat (mmaProducts o row b n))

/-- Results on their way to scratchpad bytes that an MMA reads as B: all of C is free (R107, R406). -/
def mmaUnsettled (s : State) (v : SV) (o : MmaOp) : Bool :=
  let b := (readA s v 2 o.f.ba.toNat).toNat % 2 ^ 32
  !aEarly s v o.f.ba.toNat && (s.flights v.c).any fun p => match p.w with
    | .scratch g a bs _ => g == v.gid && a < b + mmaB o && b < a + bs.length
    | _ => false

/-- The first poisoned chunk that an MMA consumes (R405, 07 R161), as an offset. -/
def mmaPoison (s : State) (v : SV) (o : MmaOp) : Option Nat :=
  let tiles := (if tileEarly s v o.f.xc o.f.tc then [] else [slotTile s v 0 o.f.xc o.f.tc]) ++
    (if (s.ctx v.c v.k).latch.isSome || tileEarly s v o.f.xa o.f.ta then [] else
    let t := slotTile s v 1 o.f.xa o.f.ta
    if o.sparse then [t, t + 1] else [t])
  let b := (readA s v 2 o.f.ba.toNat).toNat % 2 ^ 32
  s.poison.findSome? fun p => match p with
    | .tile c t k => if c == v.c && tiles.contains t then some (4096 * t + 64 * k) else none
    | .scratch g k => if g == v.gid && !aEarly s v o.f.ba.toNat && 64 * k < b + mmaB o && b < 64 * k + 64 then some (64 * k) else none
    | _ => none

/-- MMA and MMAL (R406). `s0` is the state in which all slots read. -/
def mmaEffect (s0 : State) (v : SV) (o : MmaOp) (s : State) : State :=
  let a := mmaA s0 v o
  let b := (readA s0 v 2 o.f.ba.toNat).toNat % 2 ^ 32
  let tc := slotTile s0 v 0 o.f.xc o.f.tc
  let sa := 8 * o.f.fa.toNat + o.f.fb.toNat
  let scale := if o.scaled then sextN (readA s0 v 3 sa).toNat 8 + sextN (readA s0 v 4 (sa + 1)).toNat 8 else 0
  let bs := (List.range (mmaB o)).map fun i =>
    if aEarly s0 v o.f.ba.toNat then (s0.free (600000 + i)).extractLsb' 0 8 else mget 0 (s0.group v.gid).scratch (b + i)
  let s := if tileEarly s0 v o.f.xc o.f.tc then s
    else s.later v.me (s.now + mmaLat o.fa) (.tile tc (
      if mmaUnsettled s0 v o then (List.range 1024).map fun i => lo32 (s0.free (560000 + i))
      else mmaResult o scale a bs (tileRows s0 v.c 0 tc)))
  let s := s.modCore v.c fun k => { k with mmaFree := s.now + mmaOcc o.fa }
  let s := s.modGrid (s.group v.gid).grid fun g =>
    if g.classified then g else { g with macs := g.macs + 1024 * mmaK { o with sparse := false } }
  s.modCtx v.c v.k fun x => { x with latch := if o.keep then some ⟨BitVec.ofNat 4 o.fa, o.sparse, a⟩ else none }

/-! ### The V and X slots (18 R444, R445, R450; 05 R120) -/

/-- 32 rows of a tile as one pending write. -/
def writeRows (v : SV) (t lat : Nat) (row : Nat → List (Nat × W32)) (s : State) : State :=
  s.laterAll v.me (s.now + lat) ((List.range 32).map fun i => .row t i (row i))
def fullRow (ws : List W32) : List (Nat × W32) := (List.range 32).zip ws

def tvecTraps (s : State) (v : SV) (src : Bool) (f : Tvec) : List Trap :=
  fieldChecks s v 5 f.xd f.td ++ if src then fieldChecks s v 6 f.xa f.ta else []
/-- Rows of the source; free where the tile's number is read too early. -/
def tvecRow (s : State) (v : SV) (op : Nat) (f : Tvec) (i : Nat) : List W32 :=
  if tileEarly s v f.xa f.ta then (List.range 32).map fun j => lo32 (s.free (510000 + 32 * i + j))
  else tileRow s v.c op (slotTile s v 6 f.xa f.ta) i
/-- The rows of the destination; none where its number is read too early. -/
def tvecWrite (s0 : State) (v : SV) (f : Tvec) (lat : Nat) (row : Nat → List (Nat × W32)) (s : State) : State :=
  if tileEarly s0 v f.xd f.td then s else writeRows v (slotTile s0 v 5 f.xd f.td) lat row s
/-- One function of each word of the source. -/
def tvecEffect (s0 : State) (v : SV) (f : Tvec) (g : Nat → Nat) (s : State) : State :=
  tvecWrite s0 v f 4 (fun i => fullRow ((tvecRow s0 v 3 f i).map fun w => BitVec.ofNat 32 (g w.toNat))) s

def dec32 (x : Nat) : FV := fF32.dec false x
def enc32 (x : FV) : Nat := fF32.round 0 false false x
def tfmasVal (s u x : Nat) : Nat := enc32 (FV.add 0 (FV.mul (dec32 x) (dec32 s)) (dec32 u))
def tmaxVal (s x : Nat) : Nat := enc32 (FV.greatest (dec32 x) (dec32 s))
/-- Type code (13 R303) of a code of SFMT. -/
def sfmtType (c : Nat) : Nat := match c with | 0 => 14 | 1 => 15 | 2 => 10 | 3 => 11 | 4 => 12 | _ => 16
def tcvtVal (fmt : Nat) (sat : Bool) (x : Nat) : Nat := (cvtElem 12 (sfmtType fmt) 0 sat false (BitVec.ofNat 64 x)).toNat

def tfmasEffect (s0 : State) (v : SV) (f : Tvec) : State → State :=
  let a := (readA s0 v 7 f.as.toNat).toNat
  tvecEffect s0 v f (tfmasVal (a % 2 ^ 32) (a / 2 ^ 32))
def tmaxEffect (s0 : State) (v : SV) (f : Tvec) : State → State :=
  tvecEffect s0 v f (tmaxVal ((readA s0 v 7 f.as.toNat).toNat % 2 ^ 32))
def tzeroEffect (s0 : State) (v : SV) (f : Tvec) : State → State :=
  tvecWrite s0 v f 4 fun _ => fullRow (List.replicate 32 0)
/-- TCVT writes a quarter, half or whole of each row (R445). -/
def tcvtEffect (s0 : State) (v : SV) (f : Tvec) : State → State :=
  let fmt := bitsN f.sub.toNat 2 0
  let size := sfmtSize fmt
  let h := bitsN f.sub.toNat 4 3
  tvecWrite s0 v f 4 fun i =>
    let bs := (tvecRow s0 v 3 f i).flatMap fun w => leBytes size (tcvtVal fmt (f.sub.getLsbD 5) w.toNat)
    ((List.range (8 * size)).map fun j => 8 * size * h + j).zip (bytesWords (8 * size) bs)
/-- TXP. -/
def txpEffect (s0 : State) (v : SV) (f : Tvec) : State → State :=
  let src := (List.range 32).flatMap (tvecRow s0 v 4 f)
  tvecWrite s0 v f 6 fun j => fullRow ((List.range 32).map fun i => nth 0 src (32 * i + j))

/-! ### The L slot (18 R446, R447; 15 R356; 17 R416) -/

def tmemRows (f : Tmem) : Nat := 2 ^ f.rl.toNat
def tmemOfs (s : State) (v : SV) (f : Tmem) : Nat := (readA s v 8 f.ao.toNat).toNat
def tmemTile (s : State) (v : SV) (f : Tmem) : Nat := slotTile s v 9 f.xt f.tt

def scrMemTraps (s : State) (v : SV) (f : Tmem) : List Trap :=
  fieldChecks s v 9 f.xt f.tt ++
  if aEarly s v f.ao.toNat then [] else scrChecks s v (tmemOfs s v f % 2 ^ 32) (128 * tmemRows f) 128
/-- TGLD and TGST: the first in the order of R446: range and ownership, alignment, the checks of R110, seals. -/
def glbMemTraps (s : State) (v : SV) (write : Bool) (f : Tmem) : List Trap :=
  let h := readH s v f.h.toNat
  let o := tmemOfs s v f
  let len := 128 * tmemRows f
  (fieldChecks s v 9 f.xt f.tt ++
  if aEarly s v f.ao.toNat || hEarly s v f.h.toNat then [] else
  copyAlign o (handleVa h + o) 128 ++ (handleTrap h f.h.toNat [(o, len)] write).toList ++
  (if write && (s.part (s.partOf v.gid)).sealedAt (handleVa h + o) len then
    [(⟨rkSealed, 0x24, BitVec.ofNat 64 (handleVa h + o), 8⟩ : Trap)] else [])).take 1

/-- The scratchpad byte of a poisoned chunk that a TLD loads. -/
def tldPoison (s : State) (v : SV) (f : Tmem) : Option Nat :=
  let o := tmemOfs s v f % 2 ^ 32
  if aEarly s v f.ao.toNat then none else
  s.poison.findSome? fun p => match p with
    | .scratch g k => if g == v.gid && 64 * k < o + 128 * tmemRows f && o < 64 * k + 64 then some (64 * k) else none
    | _ => none
/-- A byte that a slot reads at a place it has read too early. -/
def earlyByte (s : State) (i : Nat) : Byte := (s.free (520000 + i)).extractLsb' 0 8
def tldEffect (s0 : State) (v : SV) (f : Tmem) (s : State) : State :=
  let o := tmemOfs s0 v f % 2 ^ 32
  let byte := fun (i : Nat) => if aEarly s0 v f.ao.toNat then earlyByte s0 i else scrSeen s0 v (o + i)
  if tileEarly s0 v f.xt f.tt then s else
  s.laterAll v.me (s.now + 8) ((List.range (tmemRows f)).map fun i =>
    .row (tmemTile s0 v f) (f.row0.toNat + i) (fullRow (bytesWords 32 ((span (128 * i) 128).map byte))))

/-- The bytes of a tile's rows, and their poisoned chunks counted from the first; free where its number is read too early. -/
def tileBytes (s : State) (v : SV) (f : Tmem) : List Byte × List Nat :=
  let t := tmemTile s v f
  if tileEarly s v f.xt f.tt then ((List.range (128 * tmemRows f)).map (earlyByte s), []) else
  ((List.range (tmemRows f)).flatMap fun i => wordBytes (tileRow s v.c 5 t (f.row0.toNat + i)),
   (List.range (2 * tmemRows f)).filter fun k => s.poison.contains (.tile v.c t (2 * f.row0.toNat + k)))
/-- TST; over the destination of a copy of its context that still runs it leaves free bytes, now and when the copy writes (R96). -/
def tstEffect (s0 : State) (v : SV) (f : Tmem) (s : State) : State :=
  let o := tmemOfs s0 v f % 2 ^ 32
  let (bs, bad) := tileBytes s0 v f
  if aEarly s0 v f.ao.toNat then s else
  let (rs, s) := overCopies s v.me 0 v.gid o bs.length
  let bs := if rs.isEmpty then bs else ((List.range bs.length).zip bs).map fun ib =>
    if rs.any fun r => r.1 ≤ o + ib.1 && o + ib.1 < r.1 + r.2 then earlyByte s0 ib.1 else ib.2
  s.later v.me (s.now + 8) (.scratch v.gid o bs (bad.map (o / 64 + ·)))

/-- A tile access through a handle to a peer that fails aborts the grid (12 R286). -/
def tilePeer (s0 : State) (v : SV) (f : Tmem) (access : Nat) (go : State → State) (s : State) : State :=
  let h := readH s0 v f.h.toNat
  if s0.peerFails (h.frame + tmemOfs s0 v f) then
    s.fatalGrid v.gid { agentRec s v.gid v.me 3 peerFault.code peerFault.cause (BitVec.ofNat 64 (handleVa h + tmemOfs s0 v f)) with
      access := access }
  else go (if access == 1 then s.collTouch (s.partOf v.gid) (handleVa h + tmemOfs s0 v f) (128 * tmemRows f) else s)
/-- The address of TGLD or TGST is read too early: no access is made (00 R12), the rows of a TGLD get free values. -/
def glbEarly (s : State) (v : SV) (f : Tmem) : Bool := aEarly s v f.ao.toNat || hEarly s v f.h.toNat
/-- TGLD: performed at the home slices (09 R202). -/
def tgldEffect (s0 : State) (v : SV) (f : Tmem) (s : State) : State :=
  if tileEarly s0 v f.xt f.tt then s.issueVar v.me f.tok.toNat [] [] .quiet
  else if glbEarly s0 v f then
    let t := tmemTile s0 v f
    let ws := (List.range (tmemRows f)).map fun i =>
      Write.row t (f.row0.toNat + i) (fullRow ((List.range 32).map fun j => lo32 (s0.free (530000 + 32 * i + j))))
    s.issueVar v.me f.tok.toNat (writeRegs s v.me ws) [t] (.results ws)
  else tilePeer s0 v f 0 (fun s =>
  let pa := (readH s0 v f.h.toNat).frame + tmemOfs s0 v f
  let t := tmemTile s0 v f
  let len := 128 * tmemRows f
  let s := s.settle v.me false (span pa len)
  s.issueVar v.me f.tok.toNat ((List.range (tmemRows f)).map fun i => (false, 1024 * t + f.row0.toNat + i)) [t]
    (.tgld t f.row0.toNat pa len) true true) s
/-- The first write through a handle has set the page's dirty bit (R108, R110). -/
def State.handleDone (s : State) (v : SV) (h : Nat) : State :=
  s.modCtx v.c v.k fun x => { x with h := mset {} x.h h { mget {} x.h h with dirtyDone := true } }
/-- TGST: the page's dirty bit first (R110); it carries the release of an earlier FENCE (09 R204). -/
def tgstEffect (s0 : State) (v : SV) (f : Tmem) (s : State) : State :=
  if glbEarly s0 v f then s.issueVar v.me f.tok.toNat [] [] .quiet else tilePeer s0 v f 1 (fun s =>
  let h := readH s0 v f.h.toNat
  let pa := h.frame + tmemOfs s0 v f
  let (bs, bad) := tileBytes s0 v f
  let s := s.handleDirty h
  let s := s.handleDone v f.h.toNat
  -- at the bundle's scope if that is wider than the fence's (16 R372)
  let rel := ((s.ctx v.c v.k).carried.map fun c => max c v.scope).getD 0
  let s := if rel == 0 then s.settle v.me false (span pa bs.length) else s.settleAll v.me
  let s := s.modCtx v.c v.k fun x => { x with carried := none }
  s.issueVar v.me f.tok.toNat [] [] (.tgst pa bs (bad.map (pa / 64 + ·)) rel)) s

/-- The descriptor in a registers, low bits first. -/
def descA (s : State) (v : SV) (n : Nat) : BitVec 256 :=
  BitVec.ofNat 256 ((List.range 4).foldl (fun x i => x + (readA s v 10 (n + i)).toNat * 2 ^ (64 * i)) 0)
/-- The tensor record of a TCPY, which the context's own earlier TSTs may have written. -/
def slotRec (s : State) (v : SV) (d : BitVec 256) : Option (BitVec 512) :=
  let o := dLen d
  if o % 64 == 0 && o + 64 ≤ (s.gridOf v.gid).scratch then
    some (BitVec.ofNat 512 (leNat ((span o 64).map (scrSeen s v))))
  else none
/-- A copy's descriptor, its handle, or bytes of its record that another agent is storing, are read too early. -/
def slotCopyEarly (s : State) (v : SV) (tensor : Bool) (f : Asy) : Bool :=
  let d := descA s v f.a.toNat
  (List.range 4).any (fun i => aEarly s v (f.a.toNat + i)) || (dHnd d && dDir d != 2 && hEarly s v (dHsel d)) ||
  (tensor && (s.flights v.c).any fun p => p.agent != v.me && (match p.w with
    | .scratch g a bs _ => g == v.gid && a < dLen d + 64 && dLen d < a + bs.length
    | _ => false))
def slotCopy (s : State) (v : SV) (tensor : Bool) (f : Asy) : BitVec 256 × Option (BitVec 512) × Handle :=
  let d := descA s v f.a.toNat
  (d, if tensor then slotRec s v d else none, readH s v (dHsel d))
def slotCopyTraps (s : State) (v : SV) (tensor : Bool) (f : Asy) : List Trap :=
  let x := slotCopy s v tensor f
  if slotCopyEarly s v tensor f then [] else
  copyTraps s v.gid true tensor x.1 x.2.2 x.2.1
/-- A copy that must wait for room in the time-sorted buffer (07 R167). -/
def copyFull (s : State) (v : SV) (tensor : Bool) (f : Asy) : Bool :=
  let d := descA s v f.a.toNat
  !slotCopyEarly s v tensor f && dTime d != 0 && s.now < dTime d && 64 ≤ (s.core v.c).timed
def slotCopyEffect (s0 : State) (v : SV) (tensor : Bool) (f : Asy) (s : State) : State :=
  let x := slotCopy s0 v tensor f
  if slotCopyEarly s0 v tensor f then s.issueVar v.me f.tok.toNat [] [] .quiet else
  let hnd := if dHnd x.1 && dDir x.1 != 2 then some x.2.2 else none
  let s := if hnd.isSome && dDir x.1 == 1 then s.handleDone v (dHsel x.1) else s
  copyIssue s v.me v.gid f.tok.toNat v.scope x.1 x.2.1 hnd

/-- REDEEM in the L slot (08 R186). -/
def redeemTicket (s : State) (v : SV) (f : Asy) : W64 := readA s v 11 f.a.toNat
def redeemEarly (s : State) (v : SV) (f : Asy) : Bool := aEarly s v f.a.toNat || aEarly s v f.d.toNat
/-- Tile range and ownership do not depend on the ticket; the rows and the bytes that its SIZE gives are checked for a SIZE that
exists. -/
def slotRedeemTraps (s : State) (v : SV) (scr : Bool) (f : Asy) : List Trap :=
  let size := bitsN (redeemTicket s v f).toNat 35 34
  let d := (readA s v 12 f.d.toNat).toNat
  if aEarly s v f.d.toNat || (scr && redeemEarly s v f) then []
  else if scr then
    (if d % 2 ^ 32 % 128 != 0 then [⟨rkAlign, 0x20, BitVec.ofNat 64 (d % 2 ^ 32), 8⟩] else []) ++
    (if size == 3 then [] else (scrRange s v.gid (d % 2 ^ 32) (128 * 2 ^ size)).toList)
  else (if size != 3 && !aEarly s v f.a.toNat && 32 < f.sub.toNat + 2 ^ size then [trapOperand] else []) ++ tileChecks s v (bitsN d 9 0)
def slotRedeemEffect (s0 : State) (v : SV) (scr : Bool) (f : Asy) (data : List Byte) (s : State) : State :=
  let d := (readA s0 v 12 f.d.toNat).toNat
  let ws := if redeemEarly s0 v f then
      (if scr || aEarly s0 v f.d.toNat then []
      else [.row (bitsN d 9 0) f.sub.toNat (fullRow ((List.range 32).map fun j => lo32 (s0.free (540000 + j))))])
    else if scr then [Write.scratch v.gid (d % 2 ^ 32) data []]
    else (List.range (data.length / 128)).map fun i =>
      .row (bitsN d 9 0) (f.sub.toNat + i) (rowOf ((data.drop (128 * i)).take 128))
  let (rs, s) := if scr && !ws.isEmpty then overCopies s v.me 0 v.gid (d % 2 ^ 32) data.length else ([], s)
  let s := s.issueVar v.me f.tok.toNat (writeRegs s v.me ws) (if ws.isEmpty || scr then [] else [bitsN d 9 0]) (.results ws)
  if rs.isEmpty then s else s.markClash v.me (rs.flatMap fun r => scrUnits v.gid r.1 r.2)

/-! ### The C slot -/

/-- What the C slot does after END processing (R97), and waits that follow the bundle. -/
inductive CCtl where
  | none
  | jump (pos : Nat)
  | lngo
  | stop
  | yield
  | freeze (va : W64) (h : Nat)
  | waitk (mask : BitVec 8)
  deriving DecidableEq, Repr

/-- COND of SBR (18 R426). -/
def sbrTaken (c : Nat) (a : W64) : Bool :=
  match c with
  | 0 => true
  | 1 => a == 0
  | 2 => a != 0
  | 3 => a.msb
  | _ => !a.msb

def entryTraps (s : State) (v : SV) (e : Nat) : List Trap :=
  if (s.gridOf v.gid).nEntry ≤ e then [⟨rkEntry, 0x07, BitVec.ofNat 64 e, 8⟩] else []
/-- What the entry table holds now, if its page can be read. -/
def entryNow (s : State) (g : Grid) (e : Nat) : Option Nat :=
  match walk s g.part (g.entTab + 8 * e) with
  | .ok v _ pa _ _ _ => some (s.rdNat (pa + (g.entTab + 8 * e - v)) 4)
  | _ => none
/-- The position that an entry holds (R101). Where software has written the table of the loaded kernel, it is a free value (R100, 00 R13;
DEDUCED, log 50). -/
def entryPos (s : State) (gid e : Nat) : Nat :=
  let g := s.gridOf gid
  let p := nth 0 g.entries e
  if e < g.entries.length && (entryNow s g e).any (· != p) then (s.free (751000 + e)).toNat % 2 ^ 32 else p

/-- A level from the bits of its record (R102). -/
def levelOfBits (x : Nat) : Level where
  stride := [BitVec.ofNat 32 (bitsN x 159 128), BitVec.ofNat 32 (bitsN x 191 160), BitVec.ofNat 32 (bitsN x 223 192),
    BitVec.ofNat 32 (bitsN x 255 224)]
  trip := BitVec.ofNat 32 (bitsN x 127 96)
  cnt := BitVec.ofNat 32 (bitsN x 95 64)
  start := BitVec.ofNat 8 (bitsN x 63 56)
  pv := BitVec.ofNat 4 (bitsN x 55 52)
  lstate := BitVec.ofNat 2 (bitsN x 51 50)
  areg := [BitVec.ofNat 6 (bitsN x 29 24), BitVec.ofNat 6 (bitsN x 35 30), BitVec.ofNat 6 (bitsN x 41 36),
    BitVec.ofNat 6 (bitsN x 47 42)]
/-- The bits of a level's record, as a save area holds it. -/
def Level.bits (l : Level) : Nat :=
  let st := fun (i : Nat) => (nth 0 l.stride i).toNat
  let ar := fun (i : Nat) => (nth 0 l.areg i).toNat
  st 3 * 2 ^ 224 + st 2 * 2 ^ 192 + st 1 * 2 ^ 160 + st 0 * 2 ^ 128 + l.trip.toNat * 2 ^ 96 + l.cnt.toNat * 2 ^ 64 +
  l.start.toNat * 2 ^ 56 + l.pv.toNat * 2 ^ 52 + l.lstate.toNat * 2 ^ 50 + ar 3 * 2 ^ 42 + ar 2 * 2 ^ 36 + ar 1 * 2 ^ 30 +
  ar 0 * 2 ^ 24

/-- The record that LNSET reads (16 R395). -/
def lnsetBits (s : State) (v : SV) (f : Sctl) : Nat :=
  (List.range 4).foldl (fun x i => x + (readA s v 13 (f.ar.toNat + i)).toNat * 2 ^ (64 * i)) 0
def lnsetTraps (s : State) (v : SV) (f : Sctl) : List Trap :=
  let x := lnsetBits s v f
  if (List.range 4).any fun i => aEarly s v (f.ar.toNat + i) then []
  else if bitsN x 49 48 != 0 || bitsN x 23 0 != 0 then [trapOperand]
  else if bitsN x 127 96 != 0 then entryTraps s v (bitsN x 63 56) else []
def lnsetEffect (s0 : State) (v : SV) (f : Sctl) (s : State) : State :=
  s.later v.me (s.now + 1) (.lnset f.lvl.toNat { levelOfBits (lnsetBits s0 v f) with cnt := 0, lstate := 0 })

/-- The handle of a translation (R108, R109): contiguous groups count as 64 KiB and 32 MiB. -/
def handleFrom (s : State) (n : Nat) (t : TlbE) : Handle :=
  let glen := 16 * t.len
  let whole := t.leaf.getLsbD 55 && t.len < 2 ^ 30 && grantedFrame n (s.part n) (t.pa / glen * glen) glen
  let len := if whole then glen else t.len
  { v := true
    w := t.leaf.getLsbD 5
    rd := true
    size := if t.len == 4096 then (if whole then 1 else 0) else if t.len == 2097152 then (if whole then 3 else 2) else 4
    vpn := BitVec.ofNat 36 (t.va / len * len / 4096)
    frame := t.pa / len * len
    g := t.leaf.getLsbD 7
    cp := BitVec.ofNat 2 (leafCp t.leaf)
    dirtyDone := false
    pte := t.pte }

/-- The core TLB's translation of an XLT's address (18 R454). -/
def xltHit (s : State) (v : SV) (f : Sctl) : Option TlbE :=
  (s.core v.c).tlb.find? (TlbE.hit (s.partOf v.gid) (readA s v 14 f.ar.toNat).toNat)
/-- PERMISSION on a hit of the core TLB is a precise trap of the bundle, as every trap that is found at issue: the context is TRAPPED and its
group is not parked; R230 and R258 speak of faults of a walk (DESIGN CHOICE, log 36). -/
def xltTraps (s : State) (v : SV) (f : Sctl) : List Trap :=
  let va := readA s v 14 f.ar.toNat
  if aEarly s v f.ar.toNat then []
  else if 2 ^ 48 ≤ va.toNat then [⟨rkCanon, 0x22, va, 2⟩]
  else match xltHit s v f with
    | some t => if t.leaf.getLsbD 4 then [] else [⟨rkXPerm, 0x23, va, 1⟩]
    | none => []
def xltEffect (s0 : State) (v : SV) (f : Sctl) (s : State) : State × CCtl :=
  if aEarly s0 v f.ar.toNat then (s.later v.me (s.now + 6) (.hnd f.h.toNat { readH s0 v f.h.toNat with v := false }), .none)
  else match xltHit s0 v f with
  | some t => (s.later v.me (s.now + 6) (.hnd f.h.toNat (handleFrom s (s.partOf v.gid) t)), .none)
  | none => (s, .freeze (readA s0 v 14 f.ar.toNat) f.h.toNat)

/-- The tile that TILE or A names in a slot (13 R309, R312). -/
def slotTradeTile (s : State) (v : SV) (f : Trade) : Nat :=
  if f.tile == 0x3FF then bitsN (readA s v 15 f.a.toNat).toNat 9 0 else f.tile.toNat
/-- The tile of the trade is read too early. -/
def tradeEarly (s : State) (v : SV) (f : Trade) : Bool := f.tile == 0x3FF && aEarly s v f.a.toNat
def slotGiveTraps (s : State) (v : SV) (free : Bool) (f : Trade) : List Trap :=
  (if !free && !agentInGroup s v.gid v.me f.agent.toNat then [trapOperand] else []) ++
  if tradeEarly s v f then [] else tileChecks s v (slotTradeTile s v f)
def slotTakeTraps (s : State) (v : SV) (f : Trade) : List Trap :=
  let t := slotTradeTile s v f
  if tradeEarly s v f then []
  else if !accNum t then [trapOperand]
  else if takeView s v.me v.gid t == .bad then [⟨rkNotOffered, 0x11, BitVec.ofNat 64 t, 8⟩] else []
def slotTstatTraps (s : State) (v : SV) (f : Trade) : List Trap :=
  if tradeEarly s v f || accNum (slotTradeTile s v f) then [] else [trapOperand]

/-- FENCE in a slot (16 R371, R372): the bundle's scope. The context goes on when its scratchpad stores have landed. -/
def slotFenceEffect (v : SV) (f : Mem) (s : State) : State :=
  let ord := f.ord.toNat
  if ord == 0 then s
  else
    let s := fenceEffect s v.me v.gid ord v.scope
    let due := (s.core v.c).pend.foldl (fun m p => if p.agent == v.me then max m p.due else m) 0
    s.modCtx v.c v.k fun x => { x with
      carried := if carries ord v.scope then some (max v.scope (x.carried.getD 0)) else x.carried
      nextIssue := max x.nextIssue due }

/-! ### All slots -/

/-- A slot reads too early what says where it acts: it has no effect but on its destinations (R96, 00 R12). -/
def slotEarly (s : State) (v : SV) (i : Instr) : Bool :=
  match i with
  | .redeem _ f | .redeemS _ f => redeemEarly s v f
  | .tkdrop _ f => aEarly s v f.a.toNat
  | .give _ f | .giveFree _ f | .take _ f | .tstat _ f => tradeEarly s v f
  | .sbr _ f => aEarly s v f.ar.toNat
  | _ => false

/-- The checks of a slot's operation beyond its word (R96). -/
def slotTraps (s : State) (v : SV) (i : Instr) : List Trap :=
  match i with
  | .mma h f => mmaTraps s v (mmaOf h false false f)
  | .mmaSp h f => mmaTraps s v (mmaOf h true false f)
  | .mmal h f => mmaTraps s v (mmaOf h false true f)
  | .mmalSp h f => mmaTraps s v (mmaOf h true true f)
  | .tfmas _ f | .tmax _ f | .tcvt _ f | .txp _ f => tvecTraps s v true f
  | .tzero _ f => tvecTraps s v false f
  | .tld _ f | .tst _ f => scrMemTraps s v f
  | .tgld _ f => glbMemTraps s v false f
  | .tgst _ f => glbMemTraps s v true f
  | .cpy _ f => slotCopyTraps s v false f
  | .tcpy _ f => slotCopyTraps s v true f
  | .redeem _ f => slotRedeemTraps s v false f
  | .redeemS _ f => slotRedeemTraps s v true f
  | .sbr _ f => entryTraps s v f.entry.toNat
  | .lnset _ f => lnsetTraps s v f
  | .xlt _ f => xltTraps s v f
  | .give _ f => slotGiveTraps s v false f
  | .giveFree _ f => slotGiveTraps s v true f
  | .take _ f => slotTakeTraps s v f
  | .tstat _ f => slotTstatTraps s v f
  | _ => []

/-- The poisoned byte that a slot consumes at issue. -/
def slotPoison (s : State) (v : SV) (i : Instr) : Option Nat :=
  match i with
  | .mma h f => mmaPoison s v (mmaOf h false false f)
  | .mmaSp h f => mmaPoison s v (mmaOf h true false f)
  | .mmal h f => mmaPoison s v (mmaOf h false true f)
  | .mmalSp h f => mmaPoison s v (mmaOf h true true f)
  | .tld _ f => tldPoison s v f
  | _ => none

/-- The token that a slot's operation raises (02 R50). -/
def slotTok (i : Instr) : Option Nat :=
  match i with
  | .tgld _ f | .tgst _ f => some f.tok.toNat
  | .cpy _ f | .tcpy _ f | .redeem _ f | .redeemS _ f => some f.tok.toNat
  | _ => none

/-- Stalls of an operation before its bundle issues, but for takes and tickets (R55). -/
def slotStall (s : State) (v : SV) (i : Instr) : Bool :=
  (match slotTok i with | some t => 63 ≤ (s.ctx v.c v.k).tok t || (s.core v.c).trackerFull | none => false) ||
  match i with
  | .mma _ _ | .mmaSp _ _ | .mmal _ _ | .mmalSp _ _ => s.now < (s.core v.c).mmaFree
  | .cpy _ f => copyFull s v false f
  | .tcpy _ f => copyFull s v true f
  | _ => false

/-- The effect of a slot in M, V, L or X. `data` is the data of a claimed REDEEM. -/
def slotEffect (s0 : State) (v : SV) (data : List Byte) (i : Instr) (s : State) : State :=
  match i with
  | .mma h f => mmaEffect s0 v (mmaOf h false false f) s
  | .mmaSp h f => mmaEffect s0 v (mmaOf h true false f) s
  | .mmal h f => mmaEffect s0 v (mmaOf h false true f) s
  | .mmalSp h f => mmaEffect s0 v (mmaOf h true true f) s
  | .tfmas _ f => tfmasEffect s0 v f s
  | .tmax _ f => tmaxEffect s0 v f s
  | .tcvt _ f => tcvtEffect s0 v f s
  | .tzero _ f => tzeroEffect s0 v f s
  | .txp _ f => txpEffect s0 v f s
  | .tld _ f => tldEffect s0 v f s
  | .tst _ f => tstEffect s0 v f s
  | .tgld _ f => tgldEffect s0 v f s
  | .tgst _ f => tgstEffect s0 v f s
  | .cpy _ f => slotCopyEffect s0 v false f s
  | .tcpy _ f => slotCopyEffect s0 v true f s
  | .redeem _ f => slotRedeemEffect s0 v false f data s
  | .redeemS _ f => slotRedeemEffect s0 v true f data s
  | _ => s

/-- Operands of a C-slot integer operation. -/
def cAlu (s : State) (v : SV) (i : Instr) : Option (Nat × W64) :=
  let a := fun (n : BitVec 8) => readA s v 16 n.toNat
  let b := fun (n : BitVec 8) => readA s v 17 n.toNat
  match i with
  | .iadd _ f => some (f.d.toNat, iaddVal f.m (a f.a) (b f.b))
  | .iaddImm _ f => some (f.d.toNat, iaddVal f.m (a f.a) (immVal (modType f.m) f.i))
  | .ishl _ f => some (f.d.toNat, ishlVal (modType f.m) ((b f.b).toNat % 256) (a f.a))
  | .ishlImm _ f => some (f.d.toNat, ishlVal (modType f.m) f.i.toNat (a f.a))
  | .lop _ f => some (f.d.toNat, lopVal f.m (a f.a) (b f.b))
  | .lopImm _ f => some (f.d.toNat, lopVal f.m (a f.a) (f.i.signExtend 64))
  | .tstat _ f => some (f.d.toNat, if tradeEarly s v f then s.free 550000
      else (tstatWord s v.c v.gid (slotTradeTile s v f)).setWidth 64)
  | _ => none

/-- The wait of a context's TAKE or TAKE.new is captured (12 R290). -/
def State.takeWaited (s : State) (v : SV) : State :=
  let x := s.ctx v.c v.k
  (s.monitor (dieOf v.c) 3 (s.partOf v.gid) v.c (if x.since == 0 then 0 else s.now - x.since)).modCtx v.c v.k fun x => { x with since := 0 }

/-- The effect of the C slot: the state, the a register that it writes at `t` + 1, the control effect. -/
def cEffect (s0 : State) (v : SV) (i : Instr) (s : State) : State × Option (Nat × W64) × CCtl :=
  if slotEarly s0 v i then (s, cAlu s0 v i, .none) else
  match i with
  | .sbr _ f => (s, none, if sbrTaken f.cond.toNat (readA s0 v 18 f.ar.toNat) then .jump (entryPos s0 v.gid f.entry.toNat) else .none)
  | .lnset _ f => (lnsetEffect s0 v f s, none, .none)
  | .lngo _ _ => (s, none, .lngo)
  | .xlt _ f => let r := xltEffect s0 v f s; (r.1, none, r.2)
  | .hrel _ f => (s.later v.me (s.now + 1) (.hrel f.h.toNat), none, .none)
  | .give _ f => (giveTile s v.me (slotTradeTile s0 v f) f.agent.toNat, none, .none)
  | .giveFree _ f => (freeOwned s v.me (slotTradeTile s0 v f), none, .none)
  | .take _ f => (takeTile (s.takeWaited v) v.me (slotTradeTile s0 v f), none, .none)
  | .takeNew _ f =>
    (match freeAcc s0 v.c with
    | some t =>
      let s := newTile ((s.takeWaited v).leaveQueue v.me) v.me v.gid t
      ((s.push (.takeNewGrant v.c)).push (.growGrant v.c), some (f.d.toNat, BitVec.ofNat 64 t), .none)
    | none => (s, none, .none))
  | .waitk _ f => (s, none, .waitk f.imm)
  | .fence _ f => (slotFenceEffect v f s, none, .none)
  | .sqstop _ _ => (s, none, .stop)
  | .syield _ _ => (s, none, .yield)
  | _ => (s, cAlu s0 v i, .none)

end Sys2Proof.Machine
end

