-- ==== Sys2Proof/Machine/Fetch.lean ====
section
/-! DEFINITION. What a warp or a context issues next: the fetch of instruction words, of index streams and dictionary entries
(03 R71; 05 R99 to R101; 13 R300; 10 R225). -/

namespace Sys2Proof.Machine

/-! ### Warps -/

/-- The instruction that a warp's first entry brings to issue, and the state after the fetch's translation. The even word of a pair
is read first where the pc names the odd one (13 R300). A fetch without a word is INSTRUCTION_FETCH_FAULT. -/
def fetchWarp (s : State) (c w : Nat) : Instr × State :=
  match (s.warp c w).first with
  | none => (.instructionFetchFault, s)
  | some e =>
    let n := s.partOf (s.warp c w).gid
    match fetchXl s c n e.pc.toNat with
    | (.ok pa _ _, literal, s') =>
      if noWord s pa then (.instructionFetchFault, s)
      else if literal then (.branchIntoLiteral, s')
      else
        let x := s.rd64 pa
        if e.pc.getLsbD 3 && longOpc x then (.illegalOpcode x, s')
        else match decode x (if longOpc x then s.rd64 (pa + 8) else 0) with
          | .ok i => (i, s')
          | .error _ => (.illegalOpcode x, s')
    | _ => (.instructionFetchFault, s)

/-! ### Contexts -/

/-- Outcome of a code read of R100. A trap names its walk's fault, if a walk has decided it (11 R258). -/
inductive CodeX where
  | ok (bs : List Byte) (s : State)
  | trap (code : Nat) (f : Option XFault) (va : Nat)
  | page (va : Nat)
  | fatal (f : XFault) (va : Nat)
  | poison (pa : Nat)

/-- Pieces of a code read, each within one 4 KiB page. -/
def codePieces (c n : Nat) : List (Nat × Nat × Nat) → State → CodeX
  | [], s => .ok [] s
  | (a, _, len) :: t, s =>
    if 2 ^ 48 ≤ a then .trap 0x22 none a
    else match xlate s c n a .r with
      | (.ok pa _ _, s) =>
        if memEnd ≤ pa then .trap 0x60 none a
        else match (span pa len).find? s.poisoned with
          | some p => .poison p
          | none => match codePieces c n t s with
            | .ok bs s' => .ok (s.rdBytes pa len ++ bs) s'
            | x => x
      | (.page _ va _ _, _) => .page va
      | (.bad f, _) =>
        if f.cls == 2 then .trap f.code (if (s.core c).tlb.any (TlbE.hit n a) then none else some f) a else .fatal f a
def codeRead (s : State) (c n va len : Nat) : CodeX := codePieces c n (piecesOf va len) s

/-- Key of a dictionary entry in a core's store (R100): the address of its bytes and the partition. -/
def dictKey (n va : Nat) : Nat := 16 * va + n

/-- A free bundle: six words. -/
def freeBundle (s : State) : Nat := (List.range 6).foldl (fun x i => x + (s.free (750000 + i)).toNat * 2 ^ (64 * i)) 0
/-- Words of the index stream as a fetch has them: those that the core has fetched before. Where software has written them since, the fetch
has free values (R100, 00 R13; DEDUCED, log 50). -/
def streamWords (s : State) (c key bits w : Nat) : Nat × State :=
  match mget? (s.core c).stream key with
  | some w' => (if w' == w then w else freeBundle s % 2 ^ bits, s)
  | none => (w, s.modCore c fun k => { k with stream := (key, w) :: k.stream })
/-- The bundle of a dictionary entry in the core's store; free where software has written the entry since it was filled. -/
def dictWords (s : State) (c n va ws : Nat) : Nat :=
  match codeRead s c n va 48 with
  | .ok bs _ => if leNat bs == ws then ws else freeBundle s
  | _ => ws

/-- What a context's fetch comes to: six words, a dictionary entry to be filled, a position or index that traps, or another
outcome of a code read. -/
inductive CtxFetch where
  | bundle (x : Nat) (next : Nat) (s : State)
  | miss (va : Nat) (s : State)
  | index
  | bad (x : CodeX)

/-- The bundle at a context's position (R99). -/
def ctxFetch (s : State) (c k : Nat) : CtxFetch :=
  let x := s.ctx c k
  let g := s.gridOf x.gid
  let p := x.pos.toNat
  if g.streamLen ≤ p then .index
  else match codeRead s c g.part (g.stream + 2 * p) 2 with
    | .ok bs s0 =>
      let (i, s1) := streamWords s0 c (dictKey g.part (g.stream + 2 * p)) 16 (leNat bs)
      if i == 0xFFFF then
        if g.streamLen < p + 25 then .index
        else match codeRead s1 c g.part (g.stream + 2 * p + 2) 48 with
          | .ok ws s2 =>
            let (b, s3) := streamWords s2 c (dictKey g.part (g.stream + 2 * p + 2)) 384 (leNat ws)
            .bundle b (p + 25) s3
          | e => .bad e
      else if g.dictSize ≤ i || 0x1000 ≤ i then .index
      else
        let va := g.dictBase + 48 * i
        (match mget? (s1.core c).dict (dictKey g.part va) with
        | some ws => .bundle (dictWords s1 c g.part va ws) (p + 1) s1
        | none => .miss va s1)
    | e => .bad e

/-- The position after the bundle at a context's position (R99). -/
def nextPos (s : State) (c k : Nat) : Nat :=
  match ctxFetch s c k with
  | .bundle _ n _ => n
  | _ => (s.ctx c k).pos.toNat + 1

/-- The word of a bundle: 0 the header, 1 to 5 the slots. -/
def bundleWord (x i : Nat) : W64 := BitVec.ofNat 64 (x / 2 ^ (64 * i))

/-- The slot of an index (R92). -/
def slotAt (i : Nat) : Slot := match i with | 0 => .m | 1 => .v | 2 => .l | 3 => .x | _ => .c

/-- A bundle whose header is zero and that holds one enabled operation, legal in its slot, is that operation's. -/
def soleOp (x : Nat) : Option Instr :=
  if bundleWord x 0 != 0 then none
  else match (List.range 5).filter fun i => bundleWord x (i + 1) != 0 with
    | [i] =>
      let w := bundleWord x (i + 1)
      if !w.getLsbD 14 then none
      else (match decode w 0 with
        | .ok op => if op.slots.contains (slotAt i) && !op.long then some op else none
        | .error _ => none)
    | _ => none

/-- What a context brings to issue, and the state after the fetch. A fetch that has no bundle is CODE_FILL_COMPLETE, which fills
the entry or ends as R100 says. -/
def fetchCtx (s : State) (c k : Nat) : Instr × State :=
  match ctxFetch s c k with
  | .bundle x _ s' =>
    (match soleOp x with
    | some op => (op, s')
    | none => (.bundle (bundleWord x 0) (bundleWord x 1) (bundleWord x 2) (bundleWord x 3) (bundleWord x 4) (bundleWord x 5), s'))
  | _ => (.codeFillComplete c k, s)

/-- CODE_FILL_COMPLETE (R100): the entry joins the core's store of 4,096, whose oldest leaves; or the fetch traps at the bundle,
waits for a page or aborts the grid. -/
def codeFill (s : State) (c k : Nat) : State :=
  let x := s.ctx c k
  if x.state != .running || !x.bound then s
  else
    let n := s.partOf x.gid
    let s := s.modCtx c k fun x => { x with quantum := 0 }
    let bad := fun (e : CodeX) => match e with
      | .ok _ s => s
      | .trap code f va => takeCtxTrap s c k code f (BitVec.ofNat 64 va)
      | .page va => (s.modCtx c k fun x => { x with wait := .page }).push (.pagerRequest n (BitVec.ofNat 64 va) (.ctx c k))
      | .fatal f va => s.fatalGrid x.gid { agentRec s x.gid (.ctx c k) 3 f.code f.cause (f.recVa (BitVec.ofNat 64 va)) with
          level := f.level, info := f.recInfo }
      | .poison pa => s.poisonAbort x.gid (.ctx c k) pa
    match ctxFetch s c k with
    | .bundle _ _ _ => s
    | .index => takeCtxTrap s c k 0x05 none (x.pos.setWidth 64)
    | .bad e => bad e
    | .miss va s1 =>
      match codeRead s1 c n va 48 with
      | .ok bs s2 => s2.modCore c fun q => { q with dict := ((dictKey n va, leNat bs) :: q.dict).take 4096 }
      | e => bad e
def execCodeFillComplete (core ctx : Nat) (s : State) : Out3 := runEvent (fun s => codeFill s core ctx) s

end Sys2Proof.Machine
end

