-- ==== Sys2Proof/Machine/Bundle.lean ====
section
/-! DEFINITION. The issue of a bundle, loop nests, freezes, the instructions that start, stop and await contexts, and the
instructions that warps and slots share (05 R92 to R105, R113, R122, R123; 18 R426, R432 to R434, R438, R452; 16 R371). -/

namespace Sys2Proof.Machine

/-! ### Header, history and slots -/

def hdScope (hd : W64) : Nat := bitsN hd.toNat 63 61
def hdDelta (hd : W64) (i : Nat) : Bool := hd.getLsbD (56 + i)
def hdLast (hd : W64) (i : Nat) : Bool := hd.getLsbD (51 + i)
def hdFirst (hd : W64) (i : Nat) : Bool := hd.getLsbD (46 + i)
def hdEnd (hd : W64) : Nat := bitsN hd.toNat 39 36
def hdInc (hd : W64) (i : Nat) : Int := sextN (hd.toNat / 2 ^ (7 * i)) 7

/-- A header that traps (R93). -/
def hdrBad (hd : W64) : Bool :=
  6 ≤ hdScope hd || bitsN hd.toNat 45 40 != 0 || 7 ≤ hdEnd hd || hd.getLsbD 35 ||
  (List.range 5).any fun i => !hdDelta hd i && hdInc hd i != 0

/-- The scope code of a bundle's memory operations (R93). -/
def bundleScope (hd : W64) : Nat := if hdScope hd == 0 then 2 else hdScope hd + 1

/-- A word whose format has a step field (13 R311). -/
def stepField (w : W64) : Bool :=
  match decode w 0 with
  | .ok i => (match i with
    | .mma _ _ | .mmaSp _ _ | .mmal _ _ | .mmalSp _ _ | .tfmas _ _ | .tmax _ _ | .tcvt _ _ | .tzero _ _ | .txp _ _
    | .tld _ _ | .tst _ _ | .tgld _ _ | .tgst _ _ | .iaddImm _ _ | .ishlImm _ _ | .lopImm _ _ => true
    | _ => false)
  | .error _ => false

/-- The history word with its step field moved (R98). -/
def stepWord (w : W64) (inc : Int) : W64 :=
  let st := BitVec.ofInt 8 ((w.extractLsb' 18 8).toNat + inc)
  w.extractLsb' 26 38 ++ st ++ w.extractLsb' 0 18

/-- Levels that this bundle starts (R104). -/
def startLevels (s : State) (x : Ctx) : List (Nat × Level) :=
  (List.range 6).map fun i =>
    let l : Level := mget {} x.cur i
    (i, if l.trip != 0 && l.lstate == 0 && entryPos s x.gid l.start.toNat == x.pos.toNat then { l with lstate := 1 } else l)

/-- The home level: the lowest that is running (R105). -/
def homeLevel (ls : List (Nat × Level)) : Option Level := (ls.find? fun l => l.2.lstate == 1).map (·.2)

/-- A slot takes effect under its FIRST and LAST bits (R105). -/
def slotActs (hd : W64) (home : Option Level) (i : Nat) : Bool :=
  match home with
  | none => true
  | some l => (!hdFirst hd i || l.cnt == 0) && (!hdLast hd i || l.cnt == l.trip - 1)

/-- What a slot comes to before its own checks: skipped or empty, a trap code, or an operation with the word that it issues. -/
inductive SlotPlan where
  | off
  | trap (code : Nat) (wait : BitVec 8)
  | op (i : Instr) (w : W64)

/-- The checks of a slot's word (R94, R95, R98; 13 R299, R312) in the order of R250. -/
def planSlot (x : Ctx) (hd : W64) (i : Nat) (word : W64) : SlotPlan :=
  let wait := word.extractLsb' 0 8
  let delta := hdDelta hd i
  let hist := mget? x.hist i
  let w := match delta, hist with
    | true, some h => stepWord h (hdInc hd i)
    | _, _ => word
  let bundleBad := if delta then
      word != 0 || (match hist with | none => true | some h => !stepField h && hdInc hd i != 0)
    else !w.getLsbD 14 && w.extractLsb' 16 48 != 0
  if bundleBad then .trap 0x04 wait
  else if (w.getLsbD 15 && i != 0) || w.extractLsb' 8 6 != 0 then .trap 0x03 wait
  else if !w.getLsbD 14 then .off
  else match decode w 0 with
    | .error _ => .trap 0x01 wait
    | .ok op =>
      if !op.slots.contains (slotAt i) then .trap 0x02 wait
      else
        let h := hdrOf w
        if h.pn != 7 || h.pneg || !op.wfSlot then .trap 0x08 wait else .op op w

/-! ### Loop nests (R102 to R104) -/

/-- a registers as END processing changes them: the C slot's result first (R104). -/
structure ARegs where
  a : List (Nat × W64)
  cw : Option (Nat × W64)

def ARegs.add (r : ARegs) (n : Nat) (d : Int) : ARegs :=
  let put := fun (x : W64) => x + BitVec.ofInt 64 d
  match r.cw with
  | some (m, v) => if m == n then { r with cw := some (m, put v) } else { r with a := mset 0 r.a n (put (mget 0 r.a n)) }
  | none => { r with a := mset 0 r.a n (put (mget 0 r.a n)) }

/-- The strides of a level, `k` times. -/
def applyStrides (l : Level) (k : Int) (r : ARegs) : ARegs :=
  (List.range 4).foldl (fun r i =>
    if l.pv.getLsbD i then r.add (nth 0 l.areg i).toNat (k * (nth 0 l.stride i).toInt) else r) r

/-- end_iteration (R104): the tables, the registers, and the entry of a back edge. -/
def endIteration (ls : List (Nat × Level)) (e : Nat) (r : ARegs) : List (Nat × Level) × ARegs × Option Nat :=
  let l : Level := mget {} ls e
  if l.trip == 0 || l.lstate != 1 then (ls, r, none)
  else
    let r := applyStrides l 1 r
    let l := { l with cnt := l.cnt + 1 }
    let inner := (List.range e).filter fun m => (mget ({} : Level) ls m).trip != 0
    let r := inner.foldl (fun r m => let x : Level := mget {} ls m; applyStrides x (-(x.cnt.toNat : Int)) r) r
    let ls := inner.foldl (fun t m => mput t m { mget ({} : Level) t m with cnt := 0, lstate := 0 }) ls
    if l.cnt.toNat < l.trip.toNat then (mput ls e l, r, some l.start.toNat) else (mput ls e { l with lstate := 2 }, r, none)

/-- LNGO (R103, 16 R394): the tables change places, every level of both idle. -/
def idleTable (t : List (Nat × Level)) : List (Nat × Level) := mmap (fun _ l => { l with cnt := 0, lstate := 0 }) t

/-! ### Freezes (R113) -/

/-- The context freezes: its results in flight are latched with their remaining cycles. A result of the first frozen cycle itself
lands in it. The translation ends in the first frozen cycle at the earliest. An MMA of the context keeps its occupancy cycles: the
rule's "releases the matrix unit" is read as "issues no further MMA" (DESIGN CHOICE, log 55). -/
def freezeCtx (s : State) (c k : Nat) (va : W64) (h : Nat) : State :=
  let mine := fun (p : Pend) => p.agent == Issuer.ctx c k && s.now + 1 < p.due
  let kept := ((s.core c).pend.filter mine).map fun p => { p with due := p.due - (s.now + 1) }
  let s := s.modCore c fun q => { q with pend := q.pend.filter fun p => !mine p }
  s.modCtx c k fun x => { x with state := .frozen, snapshot := kept, kept := some (va, h), quantum := 0, wait := .none,
                                 nextIssue := s.now + 1 }

/-- The latched results resume at their distance. -/
def thawResults (s : State) (c k : Nat) : State :=
  let snap := (s.ctx c k).snapshot.map fun p => { p with due := s.now + p.due }
  (s.modCore c fun q => { q with pend := q.pend ++ snap }).modCtx c k fun x => { x with snapshot := [] }

/-- CONTEXT_UNFREEZE: the translation ends (R113, R109). A context of a group that stands still stays frozen (R106). A fault is
reported once the latched results have landed. -/
def unfreeze (s : State) (c k : Nat) : State :=
  let x := s.ctx c k
  match x.state, x.kept with
  | .frozen, some (va, h) =>
    if groupHeld s x.gid || s.now < x.nextIssue then s else
    let n := s.partOf x.gid
    let last := s.now + x.snapshot.foldl (fun m p => max m p.due) 0
    let ended := fun (s : State) =>
      (thawResults s c k).modCtx c k fun x => { x with state := .stopped, sqstop := false, kept := none }
    (match xlate s c n va.toNat .r with
    | (.ok _ _ t, s) =>
      if x.sqstop then (ended s).push (.groupRetire x.gid)
      else
        let s := (thawResults s c k).modCtx c k fun x => { x with state := .running, kept := none, nextIssue := s.now }
        s.later (.ctx c k) (s.now + 5) (.hnd h (handleFrom s n t))
    | (.page _ pv _ _, s) =>
      (s.modCtx c k fun x => { x with wait := .page }).push (.pagerRequest n (BitVec.ofNat 64 (max pv va.toNat)) (.ctx c k))
    | (.bad f, s) =>
      if f.cls == 3 then s.fatalGrid x.gid { agentRec s x.gid (.ctx c k) 3 f.code f.cause (f.recVa va) with
        level := f.level, info := f.recInfo }
      else if !x.snapshot.isEmpty then (thawResults s c k).modCtx c k fun x => { x with nextIssue := last }
      else if x.sqstop then (ended s).push (.groupRetire x.gid)
      else takeCtxTrap s c k f.code (some f) va true)
  | _, _ => s
def execContextUnfreeze (core ctx : Nat) (s : State) : Out3 := runEvent (fun s => unfreeze s core ctx) s

/-- A RESUME re-issues the kept XLT alone (R113), as a C-slot operation with every other slot empty. It walks afresh (10 R230), so it
freezes its context as an XLT does that misses. -/
def retryXlt (s : State) (c k : Nat) : State :=
  let s1 := s.modCtx c k fun x => { x with xretry := false }
  match (s.ctx c k).kept with
  | none => s1
  | some (va, h) => freezeCtx s1 c k va h

/-! ### The issue -/

/-- Every token of a mask is zero. -/
def Ctx.idle (x : Ctx) (m : BitVec 8) : Bool := (List.range 8).all fun i => !m.getLsbD i || x.tok i == 0

/-- The plans of the five slots; a slot that R105 skips is off. -/
def planAll (s : State) (x : Ctx) (hd : W64) (ws : List W64) : List SlotPlan :=
  let home := homeLevel (startLevels s x)
  (List.range 5).map fun i => if slotActs hd home i then planSlot x hd i (nth 0 ws i) else .off

def SlotPlan.wait : SlotPlan → BitVec 8
  | .off => 0
  | .trap _ m => m
  | .op _ w => w.extractLsb' 0 8

/-- The first trap among the slots (R96): of one slot, the first in the order of R250. -/
def plansTrap (s : State) (v : SV) (ps : List SlotPlan) : Option Nat :=
  ps.findSome? fun p => match p with
    | .off => none
    | .trap code _ => some code
    | .op i _ => (firstTrap (slotTraps s v i)).map (·.code)

def SlotPlan.op? : SlotPlan → Option Instr
  | .op i _ => some i
  | _ => none

/-- Stalls that need no request (R55): the context's state of waiting, its masks, tokens, the matrix unit, a full buffer. -/
def bundleStalls (s : State) (v : SV) (x : Ctx) (ps : List SlotPlan) : Bool :=
  (match x.wait with
    | .none | .ready | .answered _ => false
    | .waitk m => !x.idle m
    | _ => true) ||
  ps.any (fun p => !x.idle p.wait) || (ps.filterMap SlotPlan.op?).any (slotStall s v)

/-- Tickets that a bundle's operations ask for: REDEEM in L, TKDROP in C (08 R188). Of a bundle that holds both, the REDEEM asks first, and
the TKDROP asks after its claim (DESIGN CHOICE, log 18). -/
def bundleTickets (s : State) (v : SV) (ops : List Instr) : List (W64 × Bool) :=
  ops.filterMap fun i => if slotEarly s v i then none else match i with
    | .redeem _ f | .redeemS _ f => some (redeemTicket s v f, false)
    | .tkdrop _ f => some (readA s v 11 f.a.toNat, true)
    | _ => none

/-- A stall is no issue: the sequencer may still issue in this cycle (R55). -/
def State.unissue (s : State) (c : Nat) : State := { s with issued := s.issued.filter fun u => u != 5 * c + 4 }

/-- A context asks a slice and stalls (08 R188). -/
def ctxAsk (s : State) (v : SV) (t : W64) (drop : Bool) (had : List Nat) : State :=
  let id := s.fresh
  let r : TkReq := { agent := v.me, ticket := t, drop := drop, act := 0, dst := .none, tok := 0, sent := false, data := none }
  let s := { s.bump with tkreqs := mput s.tkreqs id r }
  ((s.modCtx v.c v.k fun x => { x with wait := .ticket id had, quantum := 0 }).push (.ticketSliceRequest v.c (0x40 + v.k))).unissue v.c

/-- A bundle's take stalls it until the take can be made; the bundle issues in the following cycle (18 R440). -/
def takeStall (s : State) (v : SV) (ops : List Instr) : Option State :=
  let free := match (s.ctx v.c v.k).wait with | .ready | .answered _ => none | _ => some (ctxTakes s v.c v.k)
  ops.findSome? fun i => if slotEarly s v i then none else match i with
    | .take _ f =>
      let t := slotTradeTile s v f
      if takeView s v.me v.gid t == .now then free
      else some ((s.modCtx v.c v.k fun x =>
          { x with wait := .take t, since := if x.since == 0 then s.now else x.since, quantum := 0 }).push
        (.takeComplete v.c (0x40 + v.k)))
    | .takeNew _ f =>
      if (s.core v.c).queue.head? == some (v.me, 0) && (freeAcc s v.c).isSome then free
      else
        let s := if (s.core v.c).queue.any fun q => q.1 == v.me then s
          else s.modCore v.c fun k => { k with queue := k.queue ++ [(v.me, 0)] }
        some ((s.modCtx v.c v.k fun x =>
          { x with wait := .takeNew f.d.toNat, since := if x.since == 0 then s.now else x.since, quantum := 0 }).push (.takeNewGrant v.c))
    | _ => none

/-- A bundle whose first write through a handle fails its OR waits for the end of the eviction; the shootdown will have revoked the handle
(R111; 10 R225, R238). -/
def lostWrite (s : State) (v : SV) (ops : List Instr) : Option W64 :=
  let copy := fun (tensor : Bool) (f : Asy) =>
    let d := descA s v f.a.toNat
    if !slotCopyEarly s v tensor f && dHnd d && dDir d == 1 then s.handleLost (readH s v (dHsel d)) else none
  ops.findSome? fun i => match i with
    | .tgst _ f => if glbEarly s v f then none else s.handleLost (readH s v f.h.toNat)
    | .cpy _ f => copy false f
    | .tcpy _ f => copy true f
    | _ => none

/-- The count of bundles since the last stall or switch (R55): the context becomes the core's current one. -/
def countBundle (s : State) (c k : Nat) : State :=
  let old := (s.core c).curCtx
  let s := if old == k then s else (s.modCtx c old fun x => { x with quantum := 0 }).modCtx c k fun x => { x with quantum := 0 }
  (s.modCore c fun q => { q with curCtx := k }).modCtx c k fun x =>
    { x with quantum := x.quantum + 1, waitCount := 0, atPoint := false }

/-- The effect of a bundle that issues (R96, R97). -/
def issueBundle (s0 : State) (v : SV) (hd : W64) (ps : List SlotPlan) (had : List Nat) : State :=
  let x0 := s0.ctx v.c v.k
  let nxt := nextPos s0 v.c v.k
  let data := (had.head?.bind fun id => (s0.tkreq id).bind (·.data)).getD []
  let s := had.foldl (fun s id => s.delReq id) s0
  let s := (ps.take 4).foldl (fun s p => match p with | .op i _ => slotEffect s0 v data i s | _ => s) s
  let (s, cw, ctl) := match ps[4]? with
    | some (.op i _) => cEffect s0 v i s
    | _ => (s, none, CCtl.none)
  let ls := startLevels s0 x0
  let (ls, r, back) := if hdEnd hd == 0 then (ls, (ARegs.mk (s.ctx v.c v.k).a cw), none)
    else endIteration ls (hdEnd hd - 1) ⟨(s.ctx v.c v.k).a, cw⟩
  let hist := ((List.range 5).zip ps).foldl (fun t ip => match ip.2 with | .op _ w => mput t ip.1 w | _ => t) x0.hist
  let after := match back with | some e => entryPos s0 v.gid e | none => nxt
  let pos := match ctl with | .jump p => p | .lngo => nxt | _ => after
  let s := s.modCtx v.c v.k fun x => { x with
    a := r.a, hist := hist, wait := .none, pos := BitVec.ofNat 32 pos, nextIssue := max x.nextIssue (s.now + 1)
    edge := hdEnd hd == 1 && (mget {} (startLevels s0 x0) 0).lstate == 1
    cur := if ctl == .lngo then idleTable x.shadow else ls
    shadow := if ctl == .lngo then idleTable ls else x.shadow }
  let s := match r.cw with | some (n, a) => s.later v.me (s.now + 1) (.a n a) | none => s
  let s := countBundle s v.c v.k
  match ctl with
  | .stop => (s.modCtx v.c v.k fun x => { x with state := .stopped }).push (.groupRetire v.gid)
  | .yield => s.modCtx v.c v.k fun x => { x with quantum := 4096 }
  | .freeze va h => freezeCtx s v.c v.k va h
  | .waitk m => s.modCtx v.c v.k fun x => { x with wait := if x.idle m then .none else .waitk m }
  | _ => s

/-- A bundle comes to issue in a running context: it stalls, traps, asks for its ticket or tile, or issues as one unit. -/
def bundleStep (s : State) (c k : Nat) (hd : W64) (ws : List W64) : State :=
  let x := s.ctx c k
  let v : SV := ⟨c, k, x.gid, bundleScope hd⟩
  if hdrBad hd then takeCtxTrap s c k 0x04 none 0
  else
    let ps := planAll s x hd ws
    if bundleStalls s v x ps then (s.modCtx c k fun x => { x with quantum := 0 }).unissue c
    else match plansTrap s v ps with
      | some code => takeCtxTrap s c k code none 0
      | none =>
        let ops := ps.filterMap SlotPlan.op?
        match lostWrite s v ops, takeStall s v ops with
        | some va, _ => ((s.modCtx c k fun x => { x with wait := .page, quantum := 0 }).push
            (.pagerRequest (s.partOf x.gid) va (.ctx c k))).unissue c
        | none, some s => s.unissue c
        | none, none =>
          let had := match x.wait with | .answered l => l | _ => []
          match (bundleTickets s v ops)[had.length]? with
          | some (t, drop) => ctxAsk s v t drop had
          | none => match ops.findSome? (slotPoison s v) with
            | some pa => s.poisonAbort x.gid v.me pa
            | none => issueBundle s v hd ps had

/-- THE ISSUE OF A BUNDLE by the context that `cur` names. -/
def runBundle (hd : W64) (ws : List W64) (s : State) : Out3 :=
  match s.cur with
  | .ctx c k =>
    let x := s.ctx c k
    if x.bound && x.state == .running then .next (bundleStep s c k hd ws).useFree else .fault .noIssuer
  | _ => .fault .noIssuer

def execBundle (hd m v l x c : BitVec 64) (s : State) : Out3 := runBundle hd [m, v, l, x, c] s

/-- The index of the slot that may hold an operation. -/
def slotIndex (i : Instr) : Nat :=
  match i.slots with
  | .m :: _ => 0
  | .v :: _ => 1
  | .l :: _ => 2
  | .x :: _ => 3
  | _ => 4

/-- A bundle of one operation: header zero, every other slot empty. -/
def soleWords (i : Instr) : List W64 :=
  (List.range 5).map fun j => if j == slotIndex i then ((encode i).head?).getD 0 else 0

/-- An operation that warps and slots share, or one that only slots hold: a context issues it as a bundle of its own; a warp issues
it as an instruction (13 R312, R313). -/
def runEither (h : Hdr) (i : Instr) (body : View → State → Res) (s : State) : Out3 :=
  match s.cur with
  | .ctx _ _ => runBundle 0 (soleWords i) s
  | _ => runWarp h i body s

/-- An operation of group 111: in a warp, ILLEGAL_SLOT stands before any effect. -/
def runSlot (h : Hdr) (i : Instr) (s : State) : Out3 := runEither h i (fun _ s => .ok s .next) s

/-! ### Operations of group 111 -/

def execMma (h : Hdr) (f : Mmaf) (s : State) : Out3 := runSlot h (.mma h f) s
def execMmaSp (h : Hdr) (f : Mmaf) (s : State) : Out3 := runSlot h (.mmaSp h f) s
def execMmal (h : Hdr) (f : Mmaf) (s : State) : Out3 := runSlot h (.mmal h f) s
def execMmalSp (h : Hdr) (f : Mmaf) (s : State) : Out3 := runSlot h (.mmalSp h f) s
def execTfmas (h : Hdr) (f : Tvec) (s : State) : Out3 := runSlot h (.tfmas h f) s
def execTmax (h : Hdr) (f : Tvec) (s : State) : Out3 := runSlot h (.tmax h f) s
def execTcvt (h : Hdr) (f : Tvec) (s : State) : Out3 := runSlot h (.tcvt h f) s
def execTzero (h : Hdr) (f : Tvec) (s : State) : Out3 := runSlot h (.tzero h f) s
def execTld (h : Hdr) (f : Tmem) (s : State) : Out3 := runSlot h (.tld h f) s
def execTst (h : Hdr) (f : Tmem) (s : State) : Out3 := runSlot h (.tst h f) s
def execTgld (h : Hdr) (f : Tmem) (s : State) : Out3 := runSlot h (.tgld h f) s
def execTgst (h : Hdr) (f : Tmem) (s : State) : Out3 := runSlot h (.tgst h f) s
def execTxp (h : Hdr) (f : Tvec) (s : State) : Out3 := runSlot h (.txp h f) s
def execSbr (h : Hdr) (f : Sctl) (s : State) : Out3 := runSlot h (.sbr h f) s
def execLnset (h : Hdr) (f : Sctl) (s : State) : Out3 := runSlot h (.lnset h f) s
def execLngo (h : Hdr) (f : Sctl) (s : State) : Out3 := runSlot h (.lngo h f) s
def execXlt (h : Hdr) (f : Sctl) (s : State) : Out3 := runSlot h (.xlt h f) s
def execHrel (h : Hdr) (f : Sctl) (s : State) : Out3 := runSlot h (.hrel h f) s

/-! ### Operations that warps and slots share -/

def execIadd (h : Hdr) (f : Reg) (s : State) : Out3 := runEither h (.iadd h f) (iaddBody f) s
def execIaddImm (h : Hdr) (f : Imm) (s : State) : Out3 := runEither h (.iaddImm h f) (iaddImmBody f) s
def execIshl (h : Hdr) (f : Reg) (s : State) : Out3 := runEither h (.ishl h f) (ishlBody f) s
def execIshlImm (h : Hdr) (f : Imm) (s : State) : Out3 := runEither h (.ishlImm h f) (ishlImmBody f) s
def execLop (h : Hdr) (f : Reg) (s : State) : Out3 := runEither h (.lop h f) (lopBody f) s
def execLopImm (h : Hdr) (f : Imm) (s : State) : Out3 := runEither h (.lopImm h f) (lopImmBody f) s
def execGive (h : Hdr) (f : Trade) (s : State) : Out3 := runEither h (.give h f) (giveBody false f) s
def execGiveFree (h : Hdr) (f : Trade) (s : State) : Out3 := runEither h (.giveFree h f) (giveBody true f) s
def execTake (h : Hdr) (f : Trade) (s : State) : Out3 := runEither h (.take h f) (takeBody f) s
def execTakeNew (h : Hdr) (f : Trade) (s : State) : Out3 := runEither h (.takeNew h f) (takeNewBody f) s
def execTstat (h : Hdr) (f : Trade) (s : State) : Out3 := runEither h (.tstat h f) (tstatBody f) s
def execTkdrop (h : Hdr) (f : Asy) (s : State) : Out3 := runEither h (.tkdrop h f) (tkdropBody f) s
def execRedeem (h : Hdr) (f : Asy) (s : State) : Out3 := runEither h (.redeem h f) (redeemBody f) s
def execRedeemS (h : Hdr) (f : Asy) (s : State) : Out3 := runEither h (.redeemS h f) (redeemSBody f) s
def execCpy (h : Hdr) (f : Asy) (s : State) : Out3 := runEither h (.cpy h f) (copyBody false f) s
def execTcpy (h : Hdr) (f : Asy) (s : State) : Out3 := runEither h (.tcpy h f) (copyBody true f) s
def execFence (h : Hdr) (f : Mem) (s : State) : Out3 := runEither h (.fence h f) (fenceBody f) s

/-- WAITK of a warp (18 R452): it moves on when every token of its mask is zero. -/
def waitkBody (m : BitVec 8) (v : View) (s : State) : Res :=
  if v.act == 0 || (List.range 8).all (fun i => !m.getLsbD i || v.wp.tok i == 0) then .ok s .next
  else .ok (blockOn v (.waitk m) s) .hold
def execWaitk (h : Hdr) (f : SysF) (s : State) : Out3 := runEither h (.waitk h f) (waitkBody f.imm) s

/-- SYIELD of a warp (18 R438). -/
def syieldBody (v : View) (s : State) : Res :=
  .ok (if v.act == 0 then s else s.modWarp v.c v.w fun x => { x with young := true }) .next
def execSyield (h : Hdr) (f : SysF) (s : State) : Out3 := runEither h (.syield h f) syieldBody s

/-! ### SQRUN, SQSTOP, SQWAIT (18 R432 to R434) -/

/-- The physical context of a group context index (R121). -/
def ctxOf (s : State) (gid i : Nat) : Option Nat := (s.group gid).ctxs[i]?

/-- A context starts at an entry (R433). -/
def startCtx (s : State) (c k e : Nat) : State :=
  s.modCtx c k fun x => { x with
    pos := BitVec.ofNat 32 (entryPos s x.gid e), hist := [], cur := idleTable x.cur, latch := none, trapcode := 0, quantum := 0
    xretry := false, kept := none, wait := .none, sqstop := false, state := .running, nextIssue := s.now + 1, edge := false }

/-- A context is stopped by a warp (R122, R434). -/
def stopCtx (s : State) (c k : Nat) : State :=
  let x := s.ctx c k
  match x.state with
  | .stopped => s
  | .running =>
    let s := (s.withdraw [.ctx c k]).leaveQueue (.ctx c k)
    (s.modCtx c k fun x => { x with state := .stopped, wait := .none, quantum := 0 }).push (.groupRetire x.gid)
  | .frozen => s.modCtx c k fun x => { x with sqstop := true }
  | .trapped => (s.modCtx c k fun x => { x with state := .stopped, trapcode := 0, xretry := false, kept := none }).push
      (.groupRetire x.gid)

def sqrunBody (f : SysF) : View → State → Res :=
  onceWarp fun v s =>
    match ctxOf s v.gid f.ctx.toNat with
    | none => illegalOperand s v
    | some k =>
      let st := (s.ctx v.c k).state
      if st == .running || st == .frozen then illegalOperand s v
      else if (s.gridOf v.gid).nEntry ≤ f.imm.toNat then
        Res.of s ⟨rkEntry, 0x07, BitVec.ofNat 64 f.imm.toNat, 8⟩ v.realLanes
      else
        let s := startCtx (s.settleAll v.me) v.c k f.imm.toNat
        .ok (s.later v.me (s.now + 4) (.g f.d.toNat (BitVec.ofNat 32 (0x40 + k)))) .next
def execSqrun (h : Hdr) (f : SysF) (s : State) : Out3 := runWarp h (.sqrun h f) (sqrunBody f) s

def sqstopBody (f : SysF) : View → State → Res :=
  onceWarp fun v s =>
    match ctxOf s v.gid f.ctx.toNat with
    | none => illegalOperand s v
    | some k => .ok (stopCtx s v.c k) .next
def execSqstop (h : Hdr) (f : SysF) (s : State) : Out3 := runEither h (.sqstop h f) (sqstopBody f) s

def CState.code : CState → Nat
  | .stopped => 0 | .running => 1 | .frozen => 2 | .trapped => 3
/-- The context status word (R123). -/
def ctxStatus (x : Ctx) : W64 :=
  BitVec.ofNat 64 ((if x.state == .trapped then x.trapcode.toNat else 0) * 2 ^ 40 + x.state.code * 2 ^ 37 +
    (if x.xretry then 2 ^ 32 else 0) + x.pos.toNat)
/-- SQWAIT may return (R123). -/
def ctxQuiet (s : State) (c k : Nat) : Bool :=
  let x := s.ctx c k
  (x.state == .stopped || x.state == .trapped) && x.snapshot.isEmpty &&
  !((s.core c).pend.any fun p => p.agent == .ctx c k) && x.tokens.all fun t => t.2 == 0

/-- SQWAIT (R434): until the context is quiet the warp waits at the instruction, which issues again. -/
def sqwaitBody (f : SysF) : View → State → Res :=
  onceAny fun v s =>
    match ctxOf s v.gid f.ctx.toNat with
    | none => illegalOperand s v
    | some k =>
      if ctxQuiet s v.c k then
        let st := ctxStatus (s.ctx v.c k)
        let d := f.d.toNat
        .ok (s.modWarp v.c v.w fun x => { x with wait := .none, g := mset 0 (mset 0 x.g d (lo32 st)) (d + 1) (hi32 st) }) .next
      else .ok (blockOn v (.sqwait k f.d.toNat) s) .hold
def execSqwait (h : Hdr) (f : SysF) (s : State) : Out3 := runWarp h (.sqwait h f) (sqwaitBody f) s

end Sys2Proof.Machine
end

