-- ==== Sys2Proof/Machine/Rings.lean ====
section
/-! DEFINITION. RINGRES, RINGPUB and RINGPOP, and the waiting operations of a ring (02 R35 to R37; 17 R421 to R424). -/

namespace Sys2Proof.Machine

/-- sr.trapinfo of RING_FORMAT is the header's address (11 R249). -/
def ringTrap (s0 : State) (v : View) (hdr : W64) : Res := Res.of s0 ⟨rkRing, 0x50, hdr, 8⟩ v.realLanes

/-- What the slice answers to an operation that it refuses or that meets a page-in. A state array that does not translate to
writable memory is refused (R422). -/
def ringRefuse (s0 : State) (v : View) (hdr : W64) : RingErr → Res
  | .page _ va _ _ => .page s0 (BitVec.ofNat 64 va)
  | _ => ringTrap s0 v hdr

/-- The issue checks of a header (R422, checks 2 to 5), and the slice's answer. -/
def ringIssue (f : Asy) (g : View → W64 → State → State → Res) : View → State → Res :=
  onceWarp (guardV (runRegsX (xA f.x) f.a.toNat 2) fun v s =>
    let hdr := readR64 s v 0 (xA f.x) f.a.toNat (v.lane0.getD 0)
    let (x, s1) := laneGlobal s v.c (s.partOf v.gid) .rw 64 64 hdr
    match x with
    | .trap t l e => .trap s t.code t.cause (v.realLanes.map fun j => (j, t.info)) l e.toNat 3
    | .fatal xf va => .fatal s xf va 3
    | .page va => .page s va
    | .ok pa _ => g v hdr s ((s1.settle v.me false (span pa 64)).homePrep v.c (span pa 64)))

/-- The registers D:D+1 of an operation. -/
def ringRegs (f : Asy) : List (Bool × Nat) := [(true, f.d.toNat), (true, f.d.toNat + 1)]
/-- The slot number written to D:D+1. -/
def slotWrites (d : Nat) (k : W64) : List Write := [.g d (lo32 k), .g (d + 1) (hi32 k)]

/-- An operation of this kind waits already: waiting ones are served first (R422). -/
def State.ringBusy (s : State) (n hdr : Nat) (res : Bool) : Bool :=
  s.ringWaits.any fun w => w.part == n && w.hdr.toNat == hdr && w.res == res

/-- The operation waits at the slice with its token raised. -/
def ringHold (f : Asy) (v : View) (hdr : W64) (res : Bool) (s : State) : Res :=
  let id := s.fresh
  let s := s.issueVar v.me f.tok.toNat (ringRegs f) [] .ring false
  .ok { s with ringWaits := s.ringWaits ++ [{ id := id, part := s.partOf v.gid, hdr := hdr, res := res, agent := v.me }] } .next

/-- A reservation or take that is served at once (R421). -/
def ringDone (f : Asy) (v : View) (k : Nat) (s : State) : Res :=
  let ws := slotWrites f.d.toNat (BitVec.ofNat 64 k)
  .ok (s.issueVar v.me f.tok.toNat (ringRegs f) [] (.results ws)) .next

/-- RINGRES (R421): relaxed at device scope. -/
def ringresBody (f : Asy) : View → State → Res :=
  ringIssue f fun v hdr s0 s =>
    let n := s.partOf v.gid
    match ringReserve s n hdr.toNat with
    | (.error .full, _) => ringHold f v hdr true s
    | (.error e, _) => ringRefuse s0 v hdr e
    | (.ok (k, _), s') => if s.ringBusy n hdr.toNat true then ringHold f v hdr true s else ringDone f v k s'
def execRingres (h : Hdr) (f : Asy) (s : State) : Out3 := runWarp h (.ringres h f) (ringresBody f) s

/-- A header that RINGPOP refuses: KIND 1 or 2 (02 R36). -/
def popKind (s : State) (n hdr : Nat) : Bool :=
  match (ringOpen s n hdr).1 with | .ok (h, _) => h.kind == 0 | .error _ => true

/-- RINGPOP (R421): an acquire at device scope. -/
def ringpopBody (f : Asy) : View → State → Res :=
  ringIssue f fun v hdr s0 s =>
    let n := s.partOf v.gid
    if !popKind s n hdr.toNat then ringTrap s0 v hdr
    else match ringTake s n hdr.toNat with
    | (.error .empty, _) => ringHold f v hdr false s
    | (.error e, _) => ringRefuse s0 v hdr e
    | (.ok (k, _), s') => if s.ringBusy n hdr.toNat false then ringHold f v hdr false s
        else ringDone f v k (s'.acquireDrop v.c n 4)
def execRingpop (h : Hdr) (f : Asy) (s : State) : Out3 := runWarp h (.ringpop h f) (ringpopBody f) s

/-- RINGPUB (R421): a release at device scope, performed eagerly before the publication. -/
def ringpubBody (f : Asy) : View → State → Res :=
  guardV (runRegsX (xB f.x) f.b.toNat 2) (ringIssue f fun v hdr s0 s =>
    let k := readR64 s v 2 (xB f.x) f.b.toNat (v.lane0.getD 0)
    let s := (s.settleAll v.me).eager v.c 4
    match ringPublish s (s.partOf v.gid) hdr.toNat k.toNat with
    | (.error e, _) => ringRefuse s0 v hdr e
    | (.ok _, s') => .ok (s'.issueVar v.me f.tok.toNat [] [] .quiet) .next)
def execRingpub (h : Hdr) (f : Asy) (s : State) : Out3 := runWarp h (.ringpub h f) (ringpubBody f) s

/-- A waiting operation ends with a slot number, or with all ones where its header has become bad (R422). -/
def ringEnd (s : State) (w : RingWait) (k : W64) : State :=
  let c := coreOf w.agent
  let s := { s with ringWaits := s.ringWaits.filter fun x => x.id != w.id }
  match (s.core c).vars.find? (fun v => v.id == w.id) with
  | none => s
  | some v =>
    let d := minOf 0 (v.regs.map (·.2))
    ringWake (s.finishVar c v (slotWrites d k)) w.part w.hdr.toNat

/-- A waiting operation whose header would be refused now (R422). -/
def ringBad (s : State) (w : RingWait) : State :=
  let r : FRec := { agentRec s (s.gidOf w.agent) w.agent 2 0x50 8 w.hdr with source := 0 }
  ringEnd (postRecord s w.part r) w (BitVec.allOnes 64)

/-- RING_WAIT_SERVED: the first of a ring's waiting reservations, or takes, is looked at again. -/
def ringServe (s : State) (id : Nat) : State :=
  match s.ringWaits.find? (fun w => w.id == id) with
  | none => s
  | some w =>
    let first := (s.ringWaits.find? fun x => x.part == w.part && x.hdr == w.hdr && x.res == w.res).map (·.id)
    if first != some id then s
    else if w.res then
      match ringReserve s w.part w.hdr.toNat with
      | (.ok (k, _), s') => ringEnd s' w (BitVec.ofNat 64 k)
      | (.error .full, _) => s
      | (.error (.page _ va _ _), _) => s.push (.pagerRequest w.part (BitVec.ofNat 64 va) (.slice id))
      | (.error _, _) => ringBad s w
    else if !popKind s w.part w.hdr.toNat then ringBad s w
    else
      match ringTake s w.part w.hdr.toNat with
      | (.ok (k, _), s') => ringEnd (s'.acquireDrop (coreOf w.agent) w.part 4) w (BitVec.ofNat 64 k)
      | (.error .empty, _) => s
      | (.error (.page _ va _ _), _) => s.push (.pagerRequest w.part (BitVec.ofNat 64 va) (.slice id))
      | (.error _, _) => ringBad s w
def execRingWaitServed (id : Nat) (s : State) : Out3 := runEvent (fun s => ringServe s id) s

end Sys2Proof.Machine
end

