-- ==== Sys2Proof/Machine/Sched.lean ====
section
/-! DEFINITION. Which warp of a quarter and which context of a core issues, and what a core's cycle does to waiting counts
(02 R49, R50, R52 to R56; 05 R55, R106; 12 R294; 13 R318). -/

namespace Sys2Proof.Machine

/-! ### Readiness -/

/-- A cycle in which the power limit withholds SIMT issue and M slots (12 R294). Which of sixteen cycles are withheld is the
model's choice (DESIGN CHOICE, log 25). -/
def withheld (s : State) : Bool := s.now % 16 < s.mgmt.throttle.toNat

/-- An instruction of a quarter's .f64 datapath (13 R318). -/
def instrF64 (i : Instr) : Bool :=
  match i with
  | .fadd _ _ f | .fmul _ _ f => modType f.m == 13
  | .fmex _ f | .fcmp _ f | .fcmpFtz _ f => modType f.m == 13
  | .ffma _ v _ => ffmaType v == 13
  | _ => false

/-- A copy of a warp would enter a full buffer (07 R167). -/
def warpCopyFull (s : State) (c w : Nat) (x : Warp) (e : Entry) (h : Hdr) (f : Asy) : Bool :=
  let v := viewOf s c w x e h
  let d := descG s v f.a.toNat
  v.real != 0 && dTime d != 0 && s.now < dTime d && 64 ≤ (s.core c).timed

/-- The next instruction of a warp waits for an access that cannot be performed yet: a release for every one, an access for an
acquire, a scratchpad access for one that reaches its own scratchpad as well, a write of an LDT's segment for the LDT's entry (03 R73, 09 R207,
R213; DEDUCED, log 7 and 18). -/
def heldBack (s : State) (c w : Nat) (x : Warp) (e : Entry) (h : Hdr) (i : Instr) : Bool :=
  let v := viewOf s c w x e h
  v.act != 0 &&
  ((isRelease i v.carried.isSome && s.stuck v.me fun _ => true) ||
    (isAccess i && s.stuck v.me (·.acquires)) ||
    (isScratch i && s.stuck v.me fun y => y.lanes.any fun l => l.pa / 2 ^ 32 == x.gid) || beforeLdt s v i)

/-- The next instruction of a warp would not stall (02 R52). -/
def nextOk (s : State) (c w : Nat) (x : Warp) (e : Entry) : Bool :=
  let i := (fetchWarp s c w).1
  match i.hdr? with
  | none => true
  | some h =>
    ((List.range 8).all fun t => !(ctlWait h).getLsbD t || x.tok t == 0) &&
    (match instrTok i with | some t => x.tok t < 63 | none => true) &&
    (!instrF64 i || mget 0 (s.core c).f64Free (w / 16) ≤ s.now) &&
    !(isRequest i && (s.core c).trackerFull) && !heldBack s c w x e h i &&
    !(match i with | .cpy _ f | .tcpy _ f => warpCopyFull s c w x e h f | _ => false)

/-- S: no variable-latency result is outstanding to a register (02 R49). -/
def parkOver (s : State) (c w : Nat) : Bool :=
  !((s.core c).vars.any fun v => v.agent == .warp c w && v.regs.any fun r => r.2 < 2 ^ 40)

/-- A warp is ready (02 R52). SQWAIT issues again once its context is quiet. -/
def warpReady (s : State) (c w : Nat) : Bool :=
  match s.warp? c w with
  | none => false
  | some x =>
    match x.first with
    | none => false
    | some e =>
      !groupHeld s x.gid && decide (x.nextIssue ≤ s.now) &&
      (match x.wait with | .none => true | .sqwait k _ => ctxQuiet s c k | _ => false) &&
      (!x.parkS || parkOver s c w) && nextOk s c w x e

/-- A boundary of R106 at which a context stops for a save or a park, or a point at which it has stopped. -/
def ctxAtPoint (x : Ctx) : Bool := x.atPoint || x.edge || x.cur.all fun l => l.2.lstate != 1

/-- The words of the bundle that a context's position names. -/
def ctxWords (s : State) (c k : Nat) : Option (List W64) :=
  match ctxFetch s c k with
  | .bundle x _ _ => some ((List.range 6).map (bundleWord x))
  | _ => none

/-- The bundle of these words would stall (02 R55). -/
def wordsStall (s : State) (c k : Nat) (ws : List W64) : Bool :=
  let x := s.ctx c k
  let hd := nth 0 ws 0
  !hdrBad hd && bundleStalls s ⟨c, k, x.gid, bundleScope hd⟩ x (planAll s x hd (ws.drop 1))
/-- The bundle of these words holds an M-slot operation. -/
def wordsMatrix (s : State) (c k : Nat) (ws : List W64) : Bool :=
  let hd := nth 0 ws 0
  match (planAll s (s.ctx c k) hd (ws.drop 1)).head? with
  | some (.op _ _) => true
  | _ => false

/-- A context is ready. One whose fetch has no bundle comes to issue what the fetch ends in. -/
def ctxReady (s : State) (c k : Nat) : Bool :=
  let x := s.ctx c k
  x.bound && x.state == .running && decide (x.nextIssue ≤ s.now) &&
  !(groupHeld s x.gid && ctxAtPoint x && (match x.wait with | .answered _ => false | _ => true)) &&
  (match x.wait with
    | .none | .ready | .answered _ => true
    | .waitk m => x.idle m
    | _ => false) &&
  (match ctxWords s c k with
    | none => true
    | some ws => !wordsStall s c k ws)

/-- A context stands stalled before a bundle with no fixed-latency result of its own pending (R106). -/
def ctxStalled (s : State) (c k : Nat) : Bool :=
  let x := s.ctx c k
  x.bound && x.state == .running && decide (x.nextIssue ≤ s.now) &&
  !((s.core c).pend.any fun p => p.agent == .ctx c k) &&
  (match x.wait with
    | .answered _ => false
    | .none | .ready => (match ctxWords s c k with | none => false | some ws => wordsStall s c k ws)
    | _ => true)

/-- A context of a group that stands still is noted when it has reached a point of R106; the note goes when the group runs on
(11 R257, R259). -/
def notePoints (s : State) : State :=
  s.ctxs.foldl (fun t kx =>
    let note := groupHeld s kx.2.gid && kx.2.bound && (kx.2.atPoint || ctxAtPoint kx.2 || ctxStalled s (kx.1 / 4) (kx.1 % 4))
    if note == kx.2.atPoint then t else t.modCtx (kx.1 / 4) (kx.1 % 4) fun x => { x with atPoint := note }) s

/-- A ready context may issue in this cycle (12 R294). -/
def ctxMay (s : State) (c k : Nat) : Bool :=
  ctxReady s c k && !(withheld s && (match ctxWords s c k with | some ws => wordsMatrix s c k ws | none => false))

/-! ### Arbitration -/

def prioOf (s : State) (gid : Nat) : Nat := (s.gridOf gid).prio

/-- A warp that comes before another of its quarter (R53). Of two that have waited equally long, for 256 cycles or more, the lower slot
comes first (DESIGN CHOICE, log 55). -/
def warpBefore (s : State) (c a b : Nat) : Bool :=
  let x := s.warp c a
  let y := s.warp c b
  let px := prioOf s x.gid
  let py := prioOf s y.gid
  if 256 ≤ x.waitCount || 256 ≤ y.waitCount then x.waitCount > y.waitCount || (x.waitCount == y.waitCount && a < b)
  else px < py || (px == py && ((!x.young && y.young) || (x.young == y.young &&
    (x.placed < y.placed || (x.placed == y.placed && a < b)))))

def best (before : Nat → Nat → Bool) : List Nat → Option Nat
  | [] => none
  | x :: t => match best before t with
    | none => some x
    | some y => if before y x then some y else some x

/-- The warp that a quarter issues (R53). -/
def pickWarp (s : State) (c q : Nat) : Option Nat :=
  best (warpBefore s c) ((List.range 16).filterMap fun i => if warpReady s c (16 * q + i) then some (16 * q + i) else none)

/-- Context numbers from the one after the current, modulo 4 (R55). -/
def ctxOrder (cur : Nat) : List Nat := (List.range 4).map fun i => (cur + 1 + i) % 4

/-- The context that yields stands aside for the next ready one (R55). -/
def yieldTo (s : State) (c : Nat) : Option Nat :=
  let cur := (s.core c).curCtx
  if ctxReady s c cur && 4096 ≤ (s.ctx c cur).quantum then (ctxOrder cur).find? fun k => k != cur && ctxMay s c k else none

/-- A context that has been ready for 3 · 4,096 cycles comes before every choice of R55, the longest-waiting first: else R56's bound
would not hold where contexts of higher priority stall by turns (DESIGN CHOICE, log 55). -/
def overdueCtx (s : State) (c : Nat) : Option Nat :=
  best (fun a b => (s.ctx c b).waitCount < (s.ctx c a).waitCount)
    ((List.range 4).filter fun k => 12288 ≤ (s.ctx c k).waitCount && ctxMay s c k)

/-- The context that a sequencer issues from (R55). -/
def pickCtx (s : State) (c : Nat) : Option Nat :=
  let cur := (s.core c).curCtx
  if (overdueCtx s c).isSome then overdueCtx s c
  else if ctxMay s c cur then some cur
  else if ctxReady s c cur then none
  else
    let ready := (ctxOrder cur).filter (ctxMay s c)
    match ready with
    | [] => none
    | k :: _ =>
      let top := minOf (prioOf s (s.ctx c k).gid) (ready.map fun j => prioOf s (s.ctx c j).gid)
      ready.find? fun j => prioOf s (s.ctx c j).gid == top

/-! ### Events of the arbitration -/

/-- WARP_STARVATION: the warp of its quarter that has been ready longest, for 256 cycles or more, issues next (R53). -/
def starve (s : State) (c w : Nat) : State :=
  if 256 ≤ (s.warp c w).waitCount && pickWarp s c (w / 16) == some w && !s.issued.contains (5 * c + w / 16) && !withheld s then
    { s with turn := .warp c w }
  else s
def execWarpStarvation (core slot : Nat) (s : State) : Out3 := runEvent (fun s => starve s core slot) s

/-- CONTEXT_QUANTUM_YIELD (R55): the next ready context becomes the current one; the counts begin again. -/
def quantumYield (s : State) (c : Nat) : State :=
  match yieldTo s c with
  | none => s
  | some k =>
    let cur := (s.core c).curCtx
    let s := (s.modCtx c cur fun x => { x with quantum := 0 }).modCtx c k fun x => { x with quantum := 0 }
    s.modCore c fun q => { q with curCtx := k }
def execContextQuantumYield (core : Nat) (s : State) : Out3 := runEvent (fun s => quantumYield s core) s

/-! ### Results of fixed latency (02 R51, 05 R96) -/

/-- What a landing may let go on: tiles without pending writes, takes of an agent's tiles, its copies, its group's end. -/
def afterLanding (s : State) (c : Nat) (ps : List Pend) : State :=
  let tiles := (writeTiles (ps.map (·.w))).eraseDups
  let agents := (ps.map (·.agent)).eraseDups
  let s := tiles.foldl (fun s t => if ((s.core c).owner t).st == .free then s else s.tileNews c t) s
  agents.foldl (fun s a =>
    let s := (s.core c).owners.foldl (fun s o =>
      if o.2.st == .offered && o.2.owner == agentNo a then s.push (.takeComplete c o.2.dst) else s) s
    let s := (s.core c).copies.foldl (fun s x => if x.started && x.agent == a then s.push (.copyComplete c x.id) else s) s
    match a with
    | .ctx _ k => if (s.ctx c k).state == .running then s else s.push (.groupRetire (s.ctx c k).gid)
    | _ => s) s

/-- FIXED_RESULT_LANDS: the results that are due land in the order of their cycles and issue numbers. -/
def landDue (s : State) (c : Nat) : State :=
  let ps := ((s.core c).pend.filter fun p => p.due ≤ s.now).foldr insertPend []
  if ps.isEmpty then s
  else
    let s := s.modCore c fun k => { k with pend := k.pend.filter fun p => s.now < p.due }
    let s := ps.foldl (fun s p => s.land p.agent p.w) s
    afterLanding s c ps
def execFixedResultLands (core : Nat) (s : State) : Out3 := runEvent (fun s => landDue s core) s

/-! ### The end of a cycle -/

/-- Waiting counts (R53): a warp that stayed ready counts one more cycle, unless issue was withheld (R54). -/
def countWaits (s : State) : State :=
  s.warps.foldl (fun t kw =>
    let c := kw.1 / 64
    let w := kw.1 % 64
    let n := if warpReady s c w then kw.2.waitCount + (if withheld s then 0 else 1) else 0
    if n == kw.2.waitCount then t else t.modWarp c w fun x => { x with waitCount := n }) s

/-- Cycles for which contexts stay ready; one whose matrix operation is withheld does not count (R56). -/
def countCtxWaits (s : State) : State :=
  s.ctxs.foldl (fun t kx =>
    let c := kx.1 / 4
    let k := kx.1 % 4
    let n := if ctxReady s c k then kx.2.waitCount + (if ctxMay s c k then 1 else 0) else 0
    if n == kx.2.waitCount then t else t.modCtx c k fun x => { x with waitCount := n }) s

/-- A stall resets a context's count of bundles (R55). A context that has issued in this cycle, or whose group stands still for a save,
has not stalled. -/
def resetQuanta (s : State) : State :=
  s.ctxs.foldl (fun t kx =>
    if kx.2.quantum == 0 || s.now < kx.2.nextIssue || groupHeld s kx.2.gid || ctxReady s (kx.1 / 4) (kx.1 % 4) then t
    else t.modCtx (kx.1 / 4) (kx.1 % 4) fun x => { x with quantum := 0 }) s

end Sys2Proof.Machine
end

