-- ==== Sys2Proof/Machine/SaveArea.lean ====
section
/-! DEFINITION. The layout of the save area, and reads and writes of partition memory by units that are no agents
(11 R263 to R266; 05 R108, R111; 12 R271, R282). -/

namespace Sys2Proof.Machine

/-! ### Memory as the dispatcher, the pagers and the host link see it -/

/-- What an access of a unit comes to. -/
inductive UX where
  | ok
  | page (va : Nat)
  | bad (f : XFault) (va : Nat)
  | poison (pa : Nat)
  deriving DecidableEq, Repr

/-- Translate a range page by page: physical pieces with their offsets, or the first outcome that is none; a page of a peer that cannot be
reached is a class-3 fault (12 R284 to R286). -/
def unitPieces (n : Nat) (need : Need) : List (Nat × Nat × Nat) → State → UX × List (Nat × Nat × Nat) × State
  | [], s => (.ok, [], s)
  | (a, o, len) :: t, s =>
    match xlateUnit s n a need with
    | (.ok pa _ _, s) =>
      if s.peerFails pa then (.bad peerFault a, [], s) else
      let (x, l, s) := unitPieces n need t s
      (x, (pa, o, len) :: l, s)
    | (.page _ _ _ _, s) => (.page a, [], s)
    | (.bad f, s) => (.bad f a, [], s)

/-- Read a range of a partition's memory at the home slices. -/
def unitRead (s : State) (n va len : Nat) : UX × List Byte × State :=
  match unitPieces n .r (piecesOf va len) s with
  | (.ok, ps, s) =>
    (match (ps.flatMap fun p => span p.1 p.2.2).find? fun a => a < memEnd && s.poisoned a with
    | some a => (.poison a, [], s)
    | none =>
      let s := ps.foldl (fun s p => s.outLoad n p.1 p.2.2) s
      (.ok, ps.flatMap fun p => (List.range p.2.2).map fun i => loadByte s (p.2.1 + i) (p.1 + i), s))
  | (x, _, s) => (x, [], s)

/-- Write bytes of a partition's memory at the home slices; nothing is written unless every page translates. -/
def unitWrite (s : State) (n va : Nat) (bs : List Byte) : UX × State :=
  match unitPieces n .w (piecesOf va bs.length) s with
  | (.ok, ps, s) => (.ok, ps.foldl (fun s p => s.homeWrite n p.1 ((bs.drop p.2.1).take p.2.2) false) s)
  | (x, _, s) => (x, s)

/-! ### Layout (R263) -/

def wBase (i : Nat) : Nat := 0x2000 + 0x8000 * i
def cBase (g : Grid) (i : Nat) : Nat := 0x2000 + 0x8000 * g.nWarps + 0x20000 * i
def sBase (g : Grid) : Nat := 0x2000 + 0x8000 * g.nWarps + 0x20000 * g.seqctx
def gSize (g : Grid) : Nat := sBase g + cdiv g.scratch 4096 * 4096
/-- The virtual address of a group's area. -/
def areaVa (s : State) (gid : Nat) : Nat := (s.gridOf gid).save + (s.group gid).number * gSize (s.gridOf gid)

/-! ### Handles (05 R108) -/

def Handle.bits (h : Handle) : W64 :=
  BitVec.ofNat 64 ((if h.v then 2 ^ 63 else 0) + (if h.w then 2 ^ 62 else 0) + (if h.rd then 2 ^ 61 else 0) +
    h.size.toNat * 2 ^ 58 + h.vpn.toNat * 4096)
/-- The visible part that bits hold; the hidden part comes from a translation. -/
def handleOf (x : Nat) : Handle :=
  { v := bitN x 63, w := bitN x 62, rd := bitN x 61, size := BitVec.ofNat 3 (bitsN x 60 58), vpn := BitVec.ofNat 36 (bitsN x 47 12) }
/-- A valid handle maps a byte of a range of virtual addresses. -/
def Handle.meets (h : Handle) (va len : Nat) : Bool := h.v && handleVa h < va + len && va < handleVa h + handleBytes h

/-- R111: handles of a partition's contexts that satisfy a test lose V, those in flight to a register included. -/
def revokeLive (s : State) (n : Nat) (hit : Handle → Bool) : State :=
  let off := fun (h : Handle) => if hit h then { h with v := false } else h
  let offW := fun (p : Pend) => match p.w with | .hnd k h => { p with w := Write.hnd k (off h) } | _ => p
  let mine := fun (gid : Nat) => s.partOf gid == n
  { s with
    ctxs := mmap (fun _ x => if x.bound && mine x.gid then
      { x with h := mmap (fun _ h => off h) x.h, snapshot := x.snapshot.map offW } else x) s.ctxs
    cores := mmap (fun _ k => { k with pend := k.pend.map fun p => if mine (s.gidOf p.agent) then offW p else p }) s.cores }

/-- R111: handles in save areas, registers and snapshot entries, lose V in memory. -/
def revokeSaved (s : State) (n : Nat) (hit : Handle → Bool) : State :=
  s.groups.foldl (fun s kg =>
    match kg.2.phase with
    | .saved _ =>
      if s.partOf kg.1 != n then s
      else
        let g := s.gridOf kg.1
        (List.range g.seqctx).foldl (fun s i =>
          let base := areaVa s kg.1 + cBase g i
          let clear := fun (s : State) (a : Nat) => match unitRead s n a 8 with
            | (.ok, bs, s1) => if hit (handleOf (leNat bs)) then
                (unitWrite s1 n a (leBytes 8 (leNat bs % 2 ^ 63))).2 else s
            | _ => s
          let s := (List.range 16).foldl (fun s k => clear s (base + 0x200 + 8 * k)) s
          (List.range 48).foldl (fun s k => match unitRead s n (base + 0x500 + 16 * k) 8 with
            | (.ok, bs, _) => if bitN (leNat bs) 63 && bitsN (leNat bs) 62 60 == 3 then clear s (base + 0x508 + 16 * k) else s
            | _ => s) s) s
    | _ => s) s

end Sys2Proof.Machine
end

