-- ==== Sys2Proof/Machine/Seal.lean ====
section
/-! DEFINITION. Sealed ranges: SEAL, UNSEAL and the events that complete them (07 R172 to R175; 09 R216; 18 R427). -/

namespace Sys2Proof.Machine

def State.setSeal (s : State) (n i : Nat) (r : W64) : State := s.modPart n fun p => { p with seals := mset 0 p.seals i r }

/-- SEAL (R427): the checks in order, then SEALING. -/
def sealBody (f : Asy) : View → State → Res :=
  onceWarp (guardV (runRegsX (xA f.x) f.a.toNat 2 ++ runRegsX (xB f.x) f.b.toNat 1) fun v s =>
    let j := v.lane0.getD 0
    let base := (readR64 s v 0 (xA f.x) f.a.toNat j).toNat
    let count := bitsN (readR s v 2 (xB f.x) f.b.toNat j).toNat 15 0
    let i := bitsN f.sub.toNat 3 0
    let n := s.partOf v.gid
    if 2 ^ 48 ≤ base || 2 ^ 48 < base + 65536 * count then Res.of s trapOperand v.realLanes
    else if base % 65536 != 0 && count != 0 then Res.of s ⟨rkAlign, 0x20, BitVec.ofNat 64 base, 8⟩ v.realLanes
    else if count == 0 || sealState ((s.part n).seal i) != 0 then Res.of s trapOperand v.realLanes
    else
      let s := s.setSeal n i (sealWord 1 base count)
      let s := s.issueVar v.me f.tok.toNat [] [] (.seal i) false
      .ok (s.push (.sealComplete n i)) .next)
def execSeal (h : Hdr) (f : Asy) (s : State) : Out3 := runWarp h (.seal h f) (sealBody f) s

/-- UNSEAL (R427). -/
def unsealBody (f : Asy) : View → State → Res :=
  onceWarp fun v s =>
    let i := bitsN f.sub.toNat 3 0
    let n := s.partOf v.gid
    let r := (s.part n).seal i
    if sealState r != 2 then Res.of s trapOperand v.realLanes
    else
      let s := s.setSeal n i (sealWord 3 (sealBase r) (bitsN r.toNat 15 0))
      let s := s.issueVar v.me f.tok.toNat [] [] (.seal i) false
      .ok (s.push (.unsealComplete n i)) .next
def execUnseal (h : Hdr) (f : Asy) (s : State) : Out3 := runWarp h (.unseal h f) (unsealBody f) s

/-- The operation on a seal register that ends now: its token falls. -/
def sealToken (s : State) (n i : Nat) : State :=
  let ops := s.cores.flatMap fun ck => (ck.2.vars.filter fun v => v.body == .seal i && s.partOf (s.gidOf v.agent) == n).map fun v => (ck.1, v)
  match ops.head? with
  | none => s
  | some (c, v) => s.finishVar c v []

/-- Perform every outstanding access of a core that touches bytes of a range of 4 KiB frames. -/
def State.settleFrames (s : State) (p : Nat → Bool) : State :=
  s.cores.foldl (fun s ck =>
    ((s.core ck.1).vars.filter fun v => !v.body.touches.1 && v.body.touches.2.any fun a => p (a / 4096)).foldl
      (fun s v => s.performVar ck.1 v.id) s) s

/-- A copy to global memory that has been issued writes in a range of a partition: at its addresses, or at others of the same pages. -/
def copyHits (s : State) (n base len : Nat) (x : Copy) : Bool :=
  dDir x.desc == 1 && s.partOf x.gid == n && (copyGlobals x.desc x.tensor).any fun r =>
    let a := match x.hnd with | some h => handleVa h + r.1 | none => r.1
    (a < base + len && base < a + r.2) || (let ps := rangePages s n base len; (rangePages s n a r.2).any ps.contains)

/-- Every copy to a range of a partition has ended, those saved with their groups too (R173 step 2). -/
def sealQuiet (s : State) (n i : Nat) : Bool :=
  let r := (s.part n).seal i
  !(liveCopies s).any (copyHits s n (sealBase r) (sealLen r))

/-- Cores that a partition's groups may run on: its own, and those lent to it. -/
def sealCores (s : State) (n : Nat) : List Nat :=
  (s.part n).cores ++ s.parts.flatMap fun p => if p.2.lentTo == some n then p.2.cores else []

/-- SEAL_COMPLETE, steps 2 and 3 (R173, R216): every core of the partition, those lent to it included, writes back the range and drops
its clean bytes there, issued stores and copies are performed, and the register is SEALED. -/
def sealComplete (s : State) (n i : Nat) : State :=
  let r := (s.part n).seal i
  if sealState r != 1 || !sealQuiet s n i then s
  else
    let pages := rangePages s n (sealBase r) (sealLen r)
    let hit := fun (f : Nat) => pages.contains f
    let s := s.settleFrames hit
    let s := (sealCores s n).foldl (fun s c => s.flushLines c (fun l => hit (l / 32)) true) s
    let s := s.setSeal n i (sealWord 2 (sealBase r) (bitsN r.toNat 15 0))
    sealToken s n i
def execSealComplete (part reg : Nat) (s : State) : Out3 := runEvent (fun s => sealComplete s part reg) s

/-- UNSEAL_COMPLETE (R175): every L1 of the device drops its lines in the range, and the register is IDLE. -/
def unsealComplete (s : State) (n i : Nat) : State :=
  let r := (s.part n).seal i
  if sealState r != 3 then s
  else
    let pages := rangePages s n (sealBase r) (sealLen r)
    let s := s.cores.foldl (fun s ck => s.flushLines ck.1 (fun l => pages.contains (l / 32)) true) s
    let s := s.setSeal n i 0
    sealToken s n i
def execUnsealComplete (part reg : Nat) (s : State) : Out3 := runEvent (fun s => unsealComplete s part reg) s

end Sys2Proof.Machine
end

