-- ==== Sys2Proof/Machine/Paging.lean ====
section
/-! DEFINITION. Walks, the pagers, the storage queue engines, eviction and shootdowns
(01 R26; 07 R171; 08 R180, R189; 10 R225 to R246; 12 R271, R280). -/

namespace Sys2Proof.Machine

/-! ### Held reads of the host (12 R271) -/

/-- A record of a unit that is no agent. -/
def unitRec (src access : Nat) (f : XFault) (va : Nat) : FRec :=
  { source := src, cls := f.cls, code := f.code, cause := f.cause, va := f.recVa (BitVec.ofNat 64 va), level := f.level,
    info := f.recInfo, access := access }
/-- A record of consumed poison: it names the physical address (07 R161). -/
def poisonRec (src pa : Nat) : FRec := { source := src, cls := 3, code := 0x60, cause := 8, va := BitVec.ofNat 64 pa }

/-- The answer to a read of the host or of a peer. -/
def hostReply (r : HostRead) (bs : Option (List Byte)) : Out :=
  match r.peer with
  | none => .hostReadDone r.id bs
  | some p => .peerReply p bs
/-- A host read: performed at the home slices as an acquire at system scope (09 R214), held for a page, or aborted. -/
def hostReadRun (s : State) (r : HostRead) : State :=
  let done := fun (s : State) (bs : Option (List Byte)) =>
    { s with hostReads := s.hostReads.filter fun x => x.id != r.id }.emit (hostReply r bs)
  match unitPieces r.part .r (piecesOf r.va.toNat r.n) s with
  | (.ok, ps, s) =>
    let pas := (ps.flatMap fun p => span p.1 p.2.2).filter fun a => a < memEnd
    let s := s.acquireTags 96 6 [] pas
    (match pas.find? s.poisoned with
    | some a => done (postRecord s r.part (poisonRec 8 a)) none
    | none => done s (some (ps.flatMap fun p => (List.range p.2.2).map fun i => loadByte s (p.2.1 + i) (p.1 + i))))
  | (.page va, _, s) =>
    let s := if s.hostReads.any fun x => x.id == r.id then s else { s with hostReads := s.hostReads ++ [r] }
    s.push (.pagerRequest r.part (BitVec.ofNat 64 va) (.hostRead r.id))
  | (.bad f va, _, s) => done (postRecord s r.part (unitRec (if r.peer.isSome then 6 else 5) 0 f va)) none
  | (.poison _, _, s) => s

/-! ### Waiters (10 R235 step 7) -/

def keyPair (pager key : Nat) : Nat × Nat := (pager, key)

/-- A waiter goes on: it walks again. A group that is saved, and accesses of units that wait, look at their pages by themselves. -/
def wakeWaiter (s : State) (w : Waiter) : State :=
  match w with
  | .warp c k => s.push (.warpUnpark c k)
  | .ctx c k =>
    let s := s.modCtx c k fun x => if x.wait == .page then { x with wait := .none } else x
    if (s.ctx c k).state == .frozen then s.push (.contextUnfreeze c k) else s
  | .group _ | .engine _ | .away _ _ => s
  | .ticket sl e => tkPage s sl e
  | .ldt c id => s.push (.ticketAllocate c id)
  | .copy c id => (s.modCopy c id fun y => { y with waiting := false }).push (.copyComplete c id)
  | .hostRead id => match s.hostReads.find? fun r => r.id == id with
    | some r => hostReadRun s r
    | none => s
  | .ring n r => (s.modPart n fun p => { p with blocked := p.blocked.filter fun x => x != r }).push (.dispatcherTakeRecord n r)
  | .slice id => s.push (.ringWaitServed id)
  | .grid g => s.push (.completionAction g)

/-- WARP_UNPARK: a warp that waits on the pager issues its instruction again (R243). -/
def execWarpUnpark (core slot : Nat) (s : State) : Out3 :=
  runEvent (fun s => s.modWarp core slot fun x => if x.wait == .page then { x with wait := .none } else x) s

/-- The group that a waiter belongs to. -/
def waiterGroup (s : State) (w : Waiter) : Option Nat :=
  match w with
  | .warp c k => (s.warp? c k).map (·.gid)
  | .ctx c k => if (s.ctx c k).bound then some (s.ctx c k).gid else none
  | .group g | .away g _ => some g
  | .copy c id => ((s.core c).copies.find? fun x => x.id == id).map (·.gid)
  | .slice id => (s.ringWaits.find? fun x => x.id == id).map fun x => s.gidOf x.agent
  | _ => none
/-- The issuer that a record names for a waiter. -/
def waiterAgent (s : State) (w : Waiter) : Issuer :=
  match w with
  | .warp c k => .warp c k
  | .ctx c k => .ctx c k
  | .away g a => agentOf (s.group g).core a
  | .copy c id => (((s.core c).copies.find? fun x => x.id == id).map (·.agent)).getD .none
  | .slice id => ((s.ringWaits.find? fun x => x.id == id).map (·.agent)).getD .none
  | _ => .none

/-! ### Requests (R233) -/

/-- Entries in flight of a pager. -/
def State.pagerLoad (s : State) (pager : Nat) : Nat := (s.inflight.filter fun x => x.1.1 == pager).length
/-- The lowest free pager area of a pager (R241). -/
def freeArea (s : State) (pager : Nat) : Nat :=
  ((List.range 512).find? fun a => s.inflight.all fun x => x.1.1 != pager || x.2.area != a).getD 0

/-- The locator of a page's first block, which `key` holds for a contiguous group. A group that breaks R224 is served from a free block of
the drive (00 R13). -/
def firstLoc (s : State) (key : Nat) (loc : W64) (len : Nat) : W64 :=
  if len != 65536 then loc
  else if groupSound s 4096 key (s.rd64 key) then s.rd64 key
  else (loc &&& 0xFFFC0000000003FF#64) ||| BitVec.ofNat 64 (locLba (s.free (2 ^ 50 + key)) * 1024)

/-- A request comes to its pager: it joins the page's entry, allocates one, or waits for room behind those that wait already. `first`:
the request is the first of those; `since`: the cycle of the miss (12 R290). A page that no longer needs a page-in lets the waiter walk
again. -/
def pagerEnter (s : State) (n : Nat) (va : W64) (w : Waiter) (since : Nat) (first : Bool) : State :=
  if 2 ^ 48 ≤ va.toNat then wakeWaiter s w
  else match walk s n va.toNat with
    | .page key v len loc _ =>
      let pager := pagerOf loc
      let k := keyPair pager key
      let s := match w, waiterGroup s w with
        | .group _, _ => s
        | _, some g => s.push (.groupSwapOut g)
        | _, none => s
      if (s.flight k).isSome then s.joinFlight k w
      else if 512 ≤ s.pagerLoad pager || (!first && s.pagerQueue.any fun q => q.1 == pager) then
        if s.pagerQueue.any fun q => (q.1, q.2.1, q.2.2.1, q.2.2.2.1) == (pager, n, va, w) then s
        else { s with pagerQueue := s.pagerQueue ++ [(pager, n, va, w, since)] }
      else
        let x : InFlight := { part := n, va := BitVec.ofNat 64 v, evict := false, stage := 0, leaf := firstLoc s key loc len, oldPte := 0,
                              size := len, frame := 0, record := 0, waiters := [w], left := 0, deadline := 0, ok := true, area := freeArea s pager, since := since,
                              id := s.fresh }
        (s.bump.setFlight k x).push (.pageInStart pager key)
    | _ => wakeWaiter s w
/-- PAGER_REQUEST (R233). -/
def pagerRequest (s : State) (n : Nat) (va : W64) (w : Waiter) : State := pagerEnter s n va w s.now false
def execPagerRequest (part : Nat) (va : BitVec 64) (who : Waiter) (s : State) : Out3 :=
  runEvent (fun s => pagerRequest s part va who) s

/-- Requests that wait for room in a pager come in, in the order of their arrival (01 R26). -/
def admitQueue (pager : Nat) (l : List (Nat × Nat × W64 × Waiter × Nat)) (s : State) : State :=
  l.foldl (fun s q =>
    if q.1 != pager || 512 ≤ s.pagerLoad pager then s
    else pagerEnter { s with pagerQueue := s.pagerQueue.erase q } q.2.1 q.2.2.1 q.2.2.2.1 q.2.2.2.2 true) s
/-- An entry leaves the table. -/
def State.dropFlight (s : State) (k : Nat × Nat) : State :=
  admitQueue k.1 s.pagerQueue { s with inflight := s.inflight.filter fun x => x.1 != k }

/-- The waiters of an entry that ends without its page walk again; those of them that look at their pages by themselves have it asked for
again (R238 step 6). -/
def askAgain (s : State) (x : InFlight) : State :=
  x.waiters.foldl (fun s w => match w with
    | .engine _ | .group _ | .away _ _ => s.push (.pagerRequest x.part x.va w)
    | _ => wakeWaiter s w) s
/-- The end of an entry of a partition that has been reset: it installs nothing, and what has joined it since walks again (12 R280). -/
def flightLost (s : State) (k : Nat × Nat) (x : InFlight) : State := askAgain (s.dropFlight k) x

/-- PAGE_WALK: a walk of a core of a partition fills its TLBs, or asks the pager for the page (R225, R226). -/
def pageWalk (s : State) (c n : Nat) (va : W64) : State :=
  if 2 ^ 48 ≤ va.toNat || !(s.part n).cores.contains c then s
  else match walk s n va.toNat with
    | .ok _ _ _ _ _ _ => (xlWalk s c n va.toNat .r).2
    | .page _ _ _ _ _ => pagerRequest s n va (.engine n)
    | .bad _ => s
def execPageWalk (core part : Nat) (va : BitVec 64) (s : State) : Out3 := runEvent (fun s => pageWalk s core part va) s

/-! ### Free frames and the resident list (R234) -/

/-- The ring of a page size. -/
def ffrOf (p : Part) (size : Nat) : Nat := (if size == 4096 then p.ffr4k else if size == 65536 then p.ffr64k else p.ffr2m).toNat
def ffrLow (p : Part) : Nat := bitsN p.pagercfg.toNat 39 24
def ffrHigh (p : Part) : Nat := bitsN p.pagercfg.toNat 55 40

/-- A header, state byte or slot of a free-frame ring that does not lie in a resident page that is not storage-backed. -/
def ffrFault (s : State) (n va : Nat) : Option XFault :=
  if residentPlain s n va then none
  else if 2 ^ 48 ≤ va then some ⟨2, 0x22, 2, 0xFF, 0⟩
  else match walk s n va with
    | .bad f => some f
    | .page _ _ _ loc level => some ⟨2, 0x22, 8, level, loc⟩
    | .ok _ _ _ _ leaf level => some ⟨2, 0x22, 8, level, leaf⟩

/-- The first page of a range of a ring that is no such page. -/
def ffrRange (s : State) (n va len : Nat) : Option XFault :=
  (List.range ((va + len - 1) / 4096 + 1 - va / 4096)).findSome? fun i => ffrFault s n ((va / 4096 + i) * 4096)

/-- An access of a pager's own that fails posts a record (R230); one that would need a page-in is refused as R234 refuses a ring's
(DEDUCED, log 58). -/
def pagerFail (s : State) (n access : Nat) : UX → State
  | .ok => s
  | .page va => postRecord s n (unitRec 4 access ⟨2, 0x22, 8, 0xFF, 0⟩ va)
  | .bad f va => postRecord s n (unitRec 4 access f va)
  | .poison pa => postRecord s n (poisonRec 8 pa)

/-- A physical address that a unit uses itself (01 R23). -/
def physOk (a len : Nat) : Bool := a + len ≤ memEnd
def physWrite (s : State) (n a : Nat) (bs : List Byte) : State :=
  if physOk a bs.length then s.wrBytes a bs else postRecord s n (unitRec 4 1 (holeFault a) a)

/-- What a take of a frame comes to. -/
inductive FX where
  | frame (a : Nat) (s : State)
  | empty
  | bad (r : FRec) (s : State)

/-- Take a frame of a size for a page; the checks of R234. -/
def takeFrame (s : State) (n size va : Nat) : FX :=
  let hdr := ffrOf (s.part n) size
  let fault := fun (f : XFault) => FX.bad { unitRec 4 0 f hdr with cls := 3 } s
  match ffrFault s n hdr with
  | some f => fault f
  | none =>
    match (ringOpen s n hdr).1 with
    | .error _ => fault ⟨3, 0x50, 8, 0xFF, 0⟩
    | .ok (h, _) =>
      if h.kind != 0 then fault ⟨3, 0x50, 8, 0xFF, 0⟩
      else match ffrRange s n h.stateBase h.size, ffrRange s n h.slotBase (h.size * 8) with
        | some f, _ => fault f
        | none, some f => fault f
        | none, none =>
          match ringTake s n hdr with
          | (.ok (k, h), s1) =>
            (match unitRead s1 n (h.slotVa k) 8 with
            | (.ok, bs, s2) =>
              let a := leNat bs
              if a % size == 0 && a + size ≤ memEnd && (s.part n).inFrame a size then .frame a s2
              else .bad (unitRec 4 0 ⟨3, 0x60, 4, 0xFF, 0⟩ va) s2
            | (_, _, s2) => .bad (unitRec 4 0 ⟨3, 0x60, 8, 0xFF, 0⟩ hdr) s2)
          | _ => .empty

/-- A freed frame goes back to its ring (R234); it waits where the ring is full. -/
def giveFrame (s : State) (n size a : Nat) : State :=
  let hdr := ffrOf (s.part n) size
  match ringReserve s n hdr with
  | (.ok (k, h), s1) =>
    let (x, s2) := unitWrite s1 n (h.slotVa k) (leBytes 8 a)
    let s2 := pagerFail s2 n 1 x
    (match ringPublish s2 n hdr k with
    | (.ok _, s3) => s3
    | (.error _, _) => s2)
  | (.error .full, _) => s.modPart n fun p => { p with backs := p.backs ++ [(size, a)] }
  | (.error .format, _) | (.error .empty, _) => postRecord s n { unitRec 4 3 ⟨3, 0x50, 8, 0xFF, 0⟩ hdr with cls := 3 }
  | (.error (.bad f va), _) => pagerFail s n 3 (.bad f va)
  | (.error (.page _ va _ _), _) => pagerFail s n 3 (.page va)
/-- Frames that wait for room in their rings are given back again. -/
def serveBacks (s : State) (n : Nat) : State :=
  let l := (s.part n).backs
  if l.isEmpty then s else l.foldl (fun s b => giveFrame s n b.1 b.2) (s.modPart n fun p => { p with backs := [] })

def resBase (p : Part) : Nat := bitsN p.reslist.toNat 47 4 * 16
def resCount (p : Part) : Nat := 2 ^ (bitsN p.reslist.toNat 3 0 + 8)
/-- A record of the resident list: the entry's address with its valid bit, the locator word. -/
def resRead (s : State) (n i : Nat) : Except UX (W64 × W64) :=
  match unitRead s n (resBase (s.part n) + 16 * i) 16 with
  | (.ok, bs, _) => .ok (BitVec.ofNat 64 (leNat (bs.take 8)), BitVec.ofNat 64 (leNat (bs.drop 8)))
  | (x, _, _) => .error x
def resWrite (s : State) (n i : Nat) (a b : W64) : State :=
  let (x, s) := unitWrite s n (resBase (s.part n) + 16 * i) (leBytes 8 a.toNat ++ leBytes 8 b.toNat)
  pagerFail s n 1 x
/-- The first record that is free and not claimed, or the access to the list that fails before it is found. -/
def freeRecord (s : State) (n : Nat) : Option (Except UX Nat) :=
  (List.range (resCount (s.part n))).findSome? fun i => match resRead s n i with
    | .error x => some (.error x)
    | .ok r => if !r.1.getLsbD 0 && s.inflight.all fun x => x.2.part != n || x.2.evict || decide (x.2.stage < 2) || x.2.record != i
        then some (.ok i) else none

/-! ### Storage queue engines (R240 to R242) -/

def Drive.qsize (d : Drive) : Nat := bitsN d.cfg.toNat 11 0
def Drive.lbash (d : Drive) : Nat := bitsN d.cfg.toNat 47 44
/-- EN, with an LBA size that counts (R241). -/
def Drive.on (d : Drive) : Bool := d.cfg.getLsbD 63 && (d.lbash == 9 || d.lbash == 12)
/-- The transfer limit in bytes. -/
def Drive.limit (d : Drive) : Nat :=
  let m := bitsN d.cfg.toNat 55 48
  if m == 0 then 2097152 else 2 ^ m * 4096

/-- The 64 bytes of a submission entry (R240: NVM Express; PRESUMED, log 26). -/
def Cmd.bytes (c : Cmd) : List Byte :=
  leBytes 4 (c.op + c.cid % 65536 * 65536) ++ leBytes 4 1 ++ List.replicate 16 0 ++ leBytes 8 c.prp1 ++ leBytes 8 c.prp2 ++
  leBytes 8 c.slba ++ leBytes 4 c.nlb ++ List.replicate 12 0

/-- The offset of a doorbell of the pager's queue pair in the drive's registers, with the stride of CAP (R240; PRESUMED, log 26). -/
def Drive.doorbell (d : Drive) (cq : Bool) : Nat :=
  0x1000 + (2 * bitsN d.cfg.toNat 31 16 + if cq then 1 else 0) * (4 * 2 ^ ((mget 0 d.bar 4).toNat % 16))

/-- Submit the waiting commands that there is room for, then ring the doorbell once. The timeout of a page-in runs from the
submission of its last command (R242). -/
def submitWaiting (s : State) (d : Nat) : State :=
  let x := s.drive d
  if !x.on then s
  else
    let go := x.waiting.take (x.qsize - x.out.length)
    if go.isEmpty then s
    else
      let put := fun (st : State × Nat) (c : Cmd) =>
        (physWrite st.1 x.part (x.sqb.toNat + 64 * st.2) c.bytes, (st.2 + 1) % (x.qsize + 1))
      let (s, tail) := go.foldl put (s, x.tail)
      let rest := x.waiting.drop go.length
      let s := s.setDrive d { x with out := x.out ++ go, waiting := rest, tail := tail }
      let names := fun (f : (Nat × Nat) × InFlight) (l : List Cmd) => l.any fun c => c.op != 0 && c.flight == f.2.id
      let last := fun (f : (Nat × Nat) × InFlight) => !f.2.evict && f.2.stage == 2 && f.2.deadline == 0 && names f go && !names f rest
      let due := s.now + 2 ^ 31
      let s := { s with inflight := s.inflight.map fun f => if last f then (f.1, { f.2 with deadline := due }) else f }
      s.emit (.doorbell d (x.doorbell false) tail)
def execStqSubmitWaiting (drive : Nat) (s : State) : Out3 := runEvent (fun s => submitWaiting s drive) s

/-- The commands of a whole page: each covers at most the transfer limit. PRP lists stand in the pager area of the entry (R241). -/
def pageCommands (s : State) (k : Nat × Nat) (x : InFlight) (op : Nat) : State × List Cmd :=
  let d := s.drive (locDrive x.leaf)
  let area := bitsN (s.part x.part).bounce.toNat 45 21 * 2097152 + (512 * k.1 + x.area) * 16384
  let step := min x.size d.limit
  let scale := 2 ^ (12 - d.lbash)
  let list := (List.range (x.size / 4096)).flatMap fun i => leBytes 8 (x.frame + 4096 * i)
  let s := if 8192 < step then physWrite s x.part area list else s
  (s, (List.range (cdiv x.size step)).map fun i =>
    let o := i * step
    let len := min step (x.size - o)
    { cid := (d.nextCid + i) % 65536, op := op, slba := locLba x.leaf * scale + o / 2 ^ d.lbash, nlb := len / 2 ^ d.lbash - 1,
      prp1 := x.frame + o,
      prp2 := if len ≤ 4096 then 0 else if len ≤ 8192 then x.frame + o + 4096 else area + 8 * (o / 4096 + 1),
      pager := k.1, key := k.2, flight := x.id })

/-- The pager hands the commands of a page to the engine. -/
def startCommands (s : State) (k : Nat × Nat) (x : InFlight) (op : Nat) : State :=
  let dn := locDrive x.leaf
  let (s, cs) := pageCommands s k x op
  let s := s.modDrive dn fun d => { d with waiting := d.waiting ++ cs, nextCid := (d.nextCid + cs.length) % 65536 }
  submitWaiting (s.setFlight k { x with stage := 2, left := cs.length, deadline := 0 }) dn

/-- STQCFG.FLUSH: one Flush, which counts toward the engine's limit (R240, R242). -/
def stqFlush (s : State) (d : Nat) : State :=
  let x := s.drive d
  if !x.on || x.flushing then s
  else
    let c : Cmd := { cid := x.nextCid, op := 0, slba := 0, nlb := 0, prp1 := 0, prp2 := 0, pager := 2, key := 0 }
    submitWaiting (s.setDrive d { x with waiting := x.waiting ++ [c], nextCid := (x.nextCid + 1) % 65536, flushing := true }) d
def execStqcfgFlush (drive : Nat) (s : State) : Out3 := runMgmt (fun s => if s.mgmt.fatal then s else stqFlush s drive) s

/-! ### Failure of a page-in (R236) -/

/-- The grids of the waiters that are aborted, each with its first waiter. -/
def failGrids (s : State) (ws : List Waiter) : List (Nat × Waiter) :=
  ws.foldl (fun l w =>
    let g := match w with | .grid g => some g | _ => (waiterGroup s w).map fun gid => (s.group gid).grid
    match g with
    | some g => if l.any fun y => y.1 == g then l else l ++ [(g, w)]
    | none => l) []

/-- A waiter that is no agent of a grid learns of the failure (R236). An LDT whose entry would lie at the slice of a frame that the page-in
has not taken becomes POISONED at home_slice of its virtual address (08 R179; DESIGN CHOICE, log 18). -/
def failWaiter (s : State) (x : InFlight) (w : Waiter) : State :=
  match w with
  | .ticket sl e => tkPageFail s sl e
  | .hostRead id => (s.hostReads.filter fun r => r.id == id).foldl (fun s r => s.emit (hostReply r none))
      { s with hostReads := s.hostReads.filter fun r => r.id != id }
  | .ldt c id =>
    (match (s.core c).vars.find? fun v => v.id == id with
    | some v => match v.body with
      | .ldt va size d t _ =>
        (s.setBody c id (.ldt va size d t (some ⟨homeSlice va.toNat, .poisoned, 0, 0x60⟩))).push (.ticketAllocate c id)
      | _ => s
    | none => s)
  | .ring n r =>
    (s.modPart n fun p => { p with
      blocked := p.blocked.filter fun y => y != r, ringFails := p.ringFails ++ [(r, x.va.toNat, x.size)] }).push (.dispatcherTakeRecord n r)
  | .engine n =>
    -- accesses of units that wait learn of it when they are tried again
    let page := (n, x.va.toNat, x.size)
    let waits := fun (c : Chan) => match c.page with
      | some a => !c.done && x.va.toNat ≤ a && a < x.va.toNat + x.size
      | none => false
    let s := { s with deferred := s.deferred.map fun d => (d.1, if d.2.contains page then d.2 else d.2 ++ [page]) }
    let s := if (s.part n).chans.any fun c => waits c.2 then postRecord s n (unitRec 5 3 ⟨3, 0x60, 6, 0xFF, 0⟩ x.va.toNat) else s
    s.modPart n fun p => { p with
      chans := mmap (fun _ c => if waits c then { c with done := true, status := 4, page := none } else c) p.chans }
  | _ => s

/-- Commands of an entry that are not submitted yet are not submitted any more. -/
def unsubmitted (s : State) (x : InFlight) : State :=
  s.modDrive (locDrive x.leaf) fun d => { d with waiting := d.waiting.filter fun c => c.op == 0 || c.flight != x.id }
/-- A page has been installed or has failed: no saved group waits for it any more (R245). -/
def notAwaited (s : State) (key : Nat) : State :=
  { s with groups := mmap (fun _ g => { g with awaits := g.awaits.filter fun a => a != key }) s.groups }

/-- PAGE_IN_FAIL: the frame goes back, the bounced bytes are discarded, the waiters are dealt with. -/
def pageInFail (s : State) (k : Nat × Nat) (x : InFlight) (status : Nat) : State :=
  if !x.ok then flightLost s k x
  else
    let s := s.dropFlight k
    let s := if 1 ≤ x.stage then giveFrame s x.part x.size x.frame else s
    let s := s.modPart x.part fun p => { p with bounced := p.bounced.filter fun b => b.key != k.2 }
    let s := notAwaited (unsubmitted s x) k.2
    let grids := failGrids s x.waiters
    let base : FRec := { source := 4, cls := 3, code := 0x60, cause := 6, va := x.va, info := status % 65536 }
    let s := if grids.isEmpty then postRecord s x.part base
      else grids.foldl (fun s gw =>
        let a := waiterAgent s gw.2
        let r := match waiterGroup s gw.2 with
          | some gid => { agentRec s gid a 3 0x60 6 x.va with
              source := match gw.2, a with | .copy _ _, _ => 2 | _, .ctx _ _ => 1 | _, _ => 0, info := status % 65536 }
          | none => { base with source := 3, kobj := (s.grid gw.1).kobj }
        let s := (postRecord s x.part r).abortGrid gw.1
        -- a completion action is not performed (02 R41)
        match gw.2 with
        | .grid g => (s.modPart x.part fun p => { p with ringFails := p.ringFails ++ [(4 + g, x.va.toNat, x.size)] }).push (.completionAction g)
        | _ => s) s
    x.waiters.foldl (fun s w => failWaiter s x w) s

/-! ### Page-ins (R235) -/

/-- Steps 1 to 3: a frame, a record, the Read commands. -/
def pageInStart (s : State) (k : Nat × Nat) : State :=
  match s.flight k with
  | none => s
  | some x =>
    if x.evict || 2 ≤ x.stage then s
    else
      let sweep := fun (s : State) => s.modPart x.part fun p => { p with sweeping := true }
      let record := fun (s : State) (x : InFlight) =>
        match freeRecord s x.part with
        | none => sweep s
        | some (.error e) => pageInFail (pagerFail s x.part 0 e) k x (s.free 95000).toNat
        | some (.ok r) =>
          let x := { x with record := r }
          if !(s.drive (locDrive x.leaf)).on then pageInFail (s.setFlight k x) k x 0xFFFE
          else startCommands s k x 2
      if x.stage == 1 then record s x
      else match takeFrame s x.part x.size x.va.toNat with
        | .empty => sweep s
        | .bad r s => pageInFail (postRecord s x.part r) k x (s.free 95000).toNat
        | .frame a s =>
          let x := { x with stage := 1, frame := a }
          let s := s.setFlight k x
          -- LDTs learn the slice of their segment from the frame (08 R179)
          let s := x.waiters.foldl (fun s w => match w with | .ldt c id => s.push (.ticketAllocate c id) | _ => s) s
          record s x
def execPageInStart (pager key : Nat) (s : State) : Out3 := runEvent (fun s => pageInStart s (keyPair pager key)) s

/-- Entry addresses of a page: 16 for a contiguous group. -/
def leafCount (size : Nat) : Nat := if size == 65536 then 16 else 1
def leafPtes (key size : Nat) : List Nat := (List.range (leafCount size)).map fun i => key + 8 * i

/-- A leaf entry made of a locator (R235 step 6). -/
def installedPte (loc : W64) (frame : Nat) (dirty : Bool) : W64 :=
  (loc &&& 0x0FC00000000000F8#64) ||| BitVec.ofNat 64 frame ||| 0x101#64 ||| (if dirty then 0x200#64 else 0)

/-- PAGE_IN_INSTALL, steps 5 to 7. -/
def pageInInstall (s : State) (k : Nat × Nat) : State :=
  match s.flight k with
  | none => s
  | some x =>
    if x.evict || x.stage != 2 || x.left != 0 then s
    else if !x.ok then flightLost s k x
    else
      let held := (s.part x.part).bounced.filter fun b => b.key == k.2
      let s := held.foldl (fun s b => s.wrBytes (x.frame + b.ofs) b.bytes) s
      let s := s.modPart x.part fun p => { p with bounced := p.bounced.filter fun b => b.key != k.2 }
      let s := (List.range (leafCount x.size)).foldl (fun s i =>
        s.wr64 (k.2 + 8 * i) (installedPte (s.rd64 (k.2 + 8 * i)) (x.frame + 4096 * i) (!held.isEmpty))) s
      let s := resWrite s x.part x.record (BitVec.ofNat 64 (k.2 + 1)) x.leaf
      let s := s.modPart x.part fun p => { p with resident := mput p.resident k.2 (x.va.toNat, x.size) }
      let s := notAwaited ((s.dropFlight k).monitor k.1 1 x.part 255 (s.now - x.since)) k.2
      x.waiters.foldl wakeWaiter s
def execPageInInstall (pager key : Nat) (s : State) : Out3 := runEvent (fun s => pageInInstall s (keyPair pager key)) s

/-- PAGE_IN_TIMEOUT (R236). -/
def pageInTimeout (s : State) (k : Nat × Nat) : State :=
  match s.flight k with
  | some x => if !x.evict && x.stage == 2 && x.deadline != 0 && x.deadline ≤ s.now then pageInFail s k x 0xFFFF else s
  | none => s
def execPageInTimeout (pager key : Nat) (s : State) : Out3 := runEvent (fun s => pageInTimeout s (keyPair pager key)) s

/-! ### Shootdowns (R228) -/

/-- Translations that satisfy a test leave every TLB; the bytes of their frames leave every L1 and every write-combining buffer once every
access translated to them has been performed; an LDT that waits at a slice for the quota is translated again. -/
def shootPages (s : State) (hit : TlbE → Bool) (in_ : Nat → Bool) : State :=
  let s := s.mapTlbs fun t => if hit t then none else some t
  let old := fun (v : VarOp) => match v.body with | .ldt _ _ _ _ (some g) => in_ (g.pa / 4096) | _ => false
  let again := fun (v : VarOp) => if old v then
    (match v.body with | .ldt va size d t _ => { v with body := VarBody.ldt va size d t none } | _ => v) else v
  let ids := s.cores.flatMap fun ck => (ck.2.vars.filter old).map fun v => (ck.1, v.id)
  let s := { s with
    cores := mmap (fun _ k => { k with vars := k.vars.map again }) s.cores
    ldtWaits := s.ldtWaits.filter fun x => !ids.contains (x.core, x.id) }
  let s := ids.foldl (fun s i => s.push (.ticketAllocate i.1 i.2)) s
  (s.settleFrames in_).flushFrames in_

/-- The range that a TLBINV value names: first address and length (R227). -/
def invRange (v : W64) : Nat × Nat :=
  if v.getLsbD 62 then (0, 2 ^ 48) else (bitsN v.toNat 47 12 * 4096, 2 ^ bitsN v.toNat 53 48 * 4096)
/-- A TLBINV keeps global translations (R227). -/
def invKeeps (v : W64) : Bool := v.getLsbD 62 && v.getLsbD 61

/-- The places of an entry below a table: virtual address and level. -/
def treeVas (s : State) (pte : Nat) : Nat → Nat → Nat → List (Nat × Nat)
  | level, table, va =>
    let here := if table ≤ pte && pte < table + 4096 then [(va + (pte - table) / 8 * 2 ^ (12 + 9 * level), level)] else []
    match level with
    | 0 => here
    | l + 1 => here ++ (List.range 512).flatMap fun i =>
        let e := s.rd64 (table + 8 * i)
        if e.getLsbD 0 && !e.getLsbD 3 then treeVas s pte l (pteFrame e) (va + i * 2 ^ (12 + 9 * (l + 1))) else []
/-- The places of an entry in the tables of a partition. -/
def pageVas (s : State) (n pte : Nat) : List (Nat × Nat) :=
  let root := (s.part n).ptroot
  if root.getLsbD 0 then treeVas s pte 3 (pteFrame root) 0 else []
/-- A group of the partition is saved. -/
def anySaved (s : State) (n : Nat) : Bool :=
  s.groups.any fun g => s.partOf g.1 == n && (match g.2.phase with | .saved _ => true | _ => false)

/-- Handles that a shootdown revokes (R111): those that map the page or the range, by their addresses or their frames; a TLBINV that keeps
global translations keeps theirs. -/
def shootHandle (s : State) (x : Shoot) (h : Handle) : Bool :=
  if x.inv then
    let val := (s.part x.part).tlbinv
    let r := invRange val
    h.meets r.1 r.2 && !(invKeeps val && h.g)
  else s.inflight.any fun f => f.2.evict && f.2.part == x.part && f.2.va == x.va &&
    (h.meets x.va.toNat f.2.size || (h.v && h.frame != 0 && h.frame < f.2.frame + f.2.size && f.2.frame < h.frame + handleBytes h))
/-- The same for a handle in a save area, which holds no hidden part: G is that of the page's entry, and a page may have several
addresses. -/
def shootSaved (s : State) (x : Shoot) (h : Handle) : Bool :=
  if x.inv then
    let g := match walk s x.part (handleVa h) with | .ok _ _ _ _ leaf _ => leaf.getLsbD 7 | _ => false
    shootHandle s x { h with g := g }
  else s.inflight.any fun f => f.2.evict && f.2.part == x.part && f.2.va == x.va &&
    (h.meets x.va.toNat f.2.size || (pageVas s x.part f.1.2).any fun a => h.meets a.1 f.2.size)

/-- The actions of a shootdown of R228. A TLBINV has every L1 give up its bytes of the partition, and every access to its
frames and to the apertures performed, whichever frames the range stood for (DESIGN CHOICE, log 58). -/
def shootActs (s : State) (x : Shoot) : State :=
  let n := x.part
  let s := if x.inv then
      let val := (s.part n).tlbinv
      let r := invRange val
      let hit := fun (t : TlbE) => t.part == n && t.va < r.1 + r.2 && r.1 < t.va + t.len && !(invKeeps val && t.leaf.getLsbD 7)
      shootPages s hit fun f => (s.part n).inFrame (f * 4096) 4096 || memEnd ≤ f * 4096
    else match s.inflight.find? fun f => f.2.evict && f.2.part == n && f.2.va == x.va with
      | none => s
      | some (k, f) =>
        let ptes := leafPtes k.2 f.size
        let hit := fun (t : TlbE) => t.part == n && (ptes.contains t.pte || (t.va < x.va.toNat + f.size && x.va.toNat < t.va + t.len))
        shootPages s hit fun p => f.frame / 4096 ≤ p && p * 4096 < f.frame + f.size
  let s1 := revokeLive s n (shootHandle s x)
  if anySaved s n then revokeSaved s1 n (shootSaved s x) else s1

/-- SHOOTDOWN: the actions of R228 on the page of an eviction, or on the range of the TLBINV in progress. -/
def shootdown (s : State) (n : Nat) (va : W64) : State :=
  let mine := fun (x : Shoot) => x.part == n && !x.done && (if x.inv then va == BitVec.allOnes 64 else va == x.va)
  match s.shoots.find? mine with
  | none => s
  | some x =>
    let s := shootActs s x
    { s with shoots := s.shoots.map fun y => if y == x then { y with done := true } else y }
def execShootdown (part : Nat) (va : BitVec 64) (s : State) : Out3 := runEvent (fun s => shootdown s part va) s

/-- The actions of a shootdown have been taken, and every access through a revoked handle has been performed: copies too, those that are saved
with their groups among them (R228, R111). -/
def shootQuiet (s : State) (x : Shoot) : Bool :=
  x.done && (liveCopies s).all fun y => match y.hnd with
    | some h => s.partOf y.gid != x.part || !shootHandle s x h
    | none => true

/-- An evicted page's frame is free once it has been written back, or at once where it was clean. -/
def evictGo (s : State) (k : Nat × Nat) (x : InFlight) : State :=
  if !x.oldPte.getLsbD 9 then (s.setFlight k { x with stage := 2, left := 0 }).push (.evictWriteComplete k.1 k.2)
  else startCommands s k x 1

/-- EVICT_WRITE_FAIL (R239): the entries as they stood, with D = 1 and A = 0. The record's code is stated nowhere: free. -/
def evictFail (s : State) (k : Nat × Nat) (x : InFlight) (status : Nat) : State :=
  if !x.ok then flightLost s k x
  else
    let s := s.dropFlight k
    let s := ((List.range x.olds.length).zip x.olds).foldl (fun s e => s.wr64 (k.2 + 8 * e.1) ((e.2 ||| 0x200#64) &&& ~~~0x100#64)) s
    -- bytes that were bounced meanwhile belong to the page, which is resident again
    let s := ((s.part x.part).bounced.filter fun b => b.key == k.2).foldl (fun s b => s.wrBytes (x.frame + b.ofs) b.bytes) s
    let s := s.modPart x.part fun p => { p with bounced := p.bounced.filter fun b => b.key != k.2 }
    let s := notAwaited (unsubmitted s x) k.2
    let s := postRecord s x.part { source := 4, cls := 2, code := (s.free 95001).toNat, cause := 7, va := x.va, info := status % 65536 }
    x.waiters.foldl wakeWaiter s

/-- SHOOTDOWN_COMPLETE: BUSY falls, and evictions go on to their write-backs (R238 step 4). -/
def shootdownComplete (s : State) (n : Nat) : State :=
  let mine := s.shoots.filter fun x => x.part == n && shootQuiet s x
  if mine.isEmpty then s
  else
    let s := { s with shoots := s.shoots.filter fun x => !mine.contains x }
    let s := if mine.any (·.inv) then s.modPart n fun p => { p with tlbinv := p.tlbinv &&& ~~~BitVec.twoPow 64 63 } else s
    s.inflight.foldl (fun s f =>
      if f.2.part == n && f.2.evict && f.2.stage == 0 && mine.any fun m => !m.inv && m.va == f.2.va then
        if f.2.oldPte.getLsbD 9 && !(s.drive (locDrive f.2.leaf)).on then evictFail s f.1 f.2 0xFFFE else evictGo s f.1 f.2
      else s) s
def execShootdownComplete (part : Nat) (s : State) : Out3 := runEvent (fun s => shootdownComplete s part) s

/-- TLBINV: a write while BUSY, and a range out of bounds or unaligned, is ignored (R227). -/
def tlbinvWrite (s : State) (n : Nat) (v : W64) : State :=
  let old := (s.part n).tlbinv
  let lg := bitsN v.toNat 53 48
  if old.getLsbD 63 then s
  else if !v.getLsbD 62 && (36 < lg || bitsN v.toNat 47 12 % 2 ^ lg != 0) then s
  else
    let val := v &&& 0x603FFFFFFFFFF000#64
    let s := s.modPart n fun p => { p with tlbinv := val ||| BitVec.twoPow 64 63 }
    let s := { s with shoots := s.shoots ++ [({ part := n, va := 0, inv := true } : Shoot)] }
    (s.push (.shootdown n (BitVec.allOnes 64))).push (.shootdownComplete n)
def execTlbinv (part : Nat) (val : BitVec 64) (s : State) : Out3 := runEvent (fun s => tlbinvWrite s part val) s

/-! ### The sweep (R237, R238) -/

/-- Page sizes whose ring is served: it can be opened. -/
def sweepSizes (s : State) (n : Nat) : List Nat :=
  [4096, 65536, 2097152].filter fun z => match (ringOpen s n (ffrOf (s.part n) z)).1 with | .ok _ => true | .error _ => false
/-- A page-in of the partition waits for a record. -/
def recordsShort (s : State) (n : Nat) : Bool := s.inflight.any fun x => x.2.part == n && !x.2.evict && x.2.stage == 1
/-- A page-in of the partition waits for a frame of a size. -/
def framesShort (s : State) (n z : Nat) : Bool :=
  s.inflight.any fun x => x.2.part == n && !x.2.evict && x.2.stage == 0 && x.2.size == z
/-- The sweep starts, goes on or stops. -/
def sweepRuns (s : State) (n : Nat) : Bool :=
  let p := s.part n
  let cnt := fun (z : Nat) => ringPublished s n (ffrOf p z)
  if (sweepSizes s n).any (fun z => cnt z < ffrLow p || framesShort s n z) || recordsShort s n then true
  else p.sweeping && !(sweepSizes s n).all fun z => ffrHigh p ≤ cnt z

/-- EVICT_PAGE, steps 1 to 3: the entries become locators, with DOD where the page was dirty. -/
def evictPage (s : State) (n i pteA : Nat) (pte loc : W64) (va size : Nat) : State :=
  let pager := pagerOf loc
  let k := keyPair pager pteA
  let cnt := leafCount size
  let dirty := (List.range cnt).any fun j => (s.rd64 (pteA + 8 * j)).getLsbD 9
  let x : InFlight := { part := n, va := BitVec.ofNat 64 va, evict := true, stage := 0, leaf := loc,
                        oldPte := if dirty then pte ||| 0x200 else pte, size := size, frame := pteFrame pte, record := i, waiters := [],
                        left := 0, deadline := 0, ok := true, area := freeArea s pager, since := s.now, id := s.fresh,
                        olds := (leafPtes pteA size).map s.rd64 }
  let word := fun (j : Nat) => (if dirty then loc ||| BitVec.twoPow 64 53 else loc) + BitVec.ofNat 64 (j * 1024)
  let s := s.bump.setFlight k x
  let s := (List.range cnt).foldl (fun s j => s.wr64 (pteA + 8 * j) (word j)) s
  let s := { s with shoots := s.shoots ++ [({ part := n, va := BitVec.ofNat 64 va, inv := false } : Shoot)] }
  (s.push (.shootdown n (BitVec.ofNat 64 va))).push (.shootdownComplete n)

/-- Address and size of a page of the resident list. One that the pager did not install itself is found in the tables; where it stands
nowhere, its size is that of CONT (DEDUCED, log 27). -/
def pagePlace (s : State) (n pteA : Nat) (pte : W64) : Nat × Nat :=
  let size := fun (level : Nat) => if level == 1 then 2097152 else if pte.getLsbD 55 then 65536 else 4096
  match mget? (s.part n).resident pteA with
  | some p => p
  | none => match (pageVas s n pteA).head? with
    | some a => (a.1, size a.2)
    | none => (0, size 0)

/-- SWEEP_STEP: the hand looks at one record. -/
def sweepStep (s : State) (n : Nat) : State :=
  if !sweepRuns s n then s.modPart n fun p => { p with sweeping := false }
  else
    let p := s.part n
    let i := p.hand % resCount p
    let s := s.modPart n fun p => { p with sweeping := true, hand := (i + 1) % resCount p }
    match resRead s n i with
    | .error e => pagerFail s n 0 e
    | .ok (a, loc) =>
      let pteA := a.toNat / 8 * 8
      let pte := s.rd64 pteA
      if !a.getLsbD 0 then s
      else if !physOk pteA 8 then postRecord s n (unitRec 4 0 (holeFault pteA) pteA)
      else if !pte.getLsbD 0 then s
      else
        let (va, size) := pagePlace s n pteA pte
        let ptes := leafPtes pteA size
        let short := ringPublished s n (ffrOf p size) < max 1 (ffrHigh p) || framesShort s n size
        let k := keyPair (pagerOf loc) pteA
        if !short && !recordsShort s n then s
        else if (s.flight k).isSome then s
        else if ptes.any fun a => (s.rd64 a).getLsbD 8 then
          (ptes.foldl (fun s a => s.rmw64 a fun e => e &&& ~~~0x100#64) s).mapTlbs fun t => if ptes.contains (t.pte / 8 * 8) then none else some t
        else if 512 ≤ s.pagerLoad k.1 then s
        else evictPage s n i pteA pte loc va size
def execSweepStep (part : Nat) (s : State) : Out3 := runEvent (fun s => sweepStep s part) s

/-- EVICT_WRITE_COMPLETE, steps 5 and 6. -/
def evictDone (s : State) (k : Nat × Nat) : State :=
  match s.flight k with
  | none => s
  | some x =>
    if !x.evict || x.stage != 2 || x.left != 0 then s
    else if !x.ok then flightLost s k x
    else
      let s := giveFrame s x.part x.size x.frame
      let s := resWrite s x.part x.record 0 0
      let s := s.modPart x.part fun p => { p with resident := mdel p.resident k.2 }
      askAgain (s.dropFlight k) x
def execEvictWriteComplete (pager key : Nat) (s : State) : Out3 := runEvent (fun s => evictDone s (keyPair pager key)) s

/-! ### Completions -/

/-- A drive writes device memory: within the frame range of its partition; elsewhere the access is refused (12 R279, 01 R23). -/
def driveWrite (s : State) (d pa : Nat) (bs : List Byte) : State :=
  let n := (s.drive d).part
  if physOk pa bs.length && (s.part n).inFrame pa bs.length then s.wrBytes pa bs else postRecord s n (unitRec 8 1 peerFault pa)

/-- A completion entry (R240: NVM Express; PRESUMED, log 26). `status` is the status field without the phase tag. -/
def Drive.cqe (d : Drive) (cid : Nat) (status : BitVec 16) : List Byte :=
  List.replicate 8 0 ++ leBytes 2 d.tail ++ leBytes 2 (bitsN d.cfg.toNat 31 16) ++ leBytes 2 cid ++
  leBytes 2 (status.toNat % 2 ^ 15 * 2 + if d.phase then 1 else 0)

/-- The engine consumes the completion of a command and moves its head; a success has type and code zero (R240). -/
def nvmeTake (s : State) (d cid status : Nat) : State :=
  let x := s.drive d
  let head := (x.head + 1) % (x.qsize + 1)
  let x := { x with head := head, phase := if head == 0 then !x.phase else x.phase }
  let done := fun (x : Drive) => ((s.setDrive d x).emit (.doorbell d (x.doorbell true) head)).push (.stqSubmitWaiting d)
  match x.out.find? fun c => c.cid == cid with
  | none => done x
  | some c =>
    let s := done { x with out := x.out.erase c, flushing := x.flushing && c.op != 0 }
    let k := keyPair c.pager c.key
    if c.op == 0 then s
    else match s.flight k with
      | none => s
      | some f =>
        if f.id != c.flight || f.stage != 2 then s
        else if bitsN status 10 0 != 0 then (if f.evict then evictFail s k f status else pageInFail s k f status)
        else
          let s := s.setFlight k { f with left := f.left - 1 }
          if f.left != 1 then s
          else if f.evict then s.push (.evictWriteComplete k.1 k.2) else s.push (.pageInInstall k.1 k.2)
/-- The engine polls the entry at the head of its completion queue by the phase tag (R240). -/
def pollCq (s : State) (d : Nat) : State :=
  let x := s.drive d
  let a := x.cqb.toNat + 16 * x.head
  let e := s.rdBytes a 16
  let st := leNat (e.drop 14)
  if !x.on then s
  else if !physOk a 16 then postRecord s x.part (unitRec 4 0 (holeFault a) a)
  else if bitN st 0 != x.phase then s
  else nvmeTake s d (leNat ((e.drop 12).take 2)) (st / 2)

/-- NVME_COMPLETION: the drive writes the entry of a command's completion behind the ones that the engine has consumed, and the engine
polls it. -/
def nvmeDone (s : State) (d cid : Nat) (status : BitVec 16) : State :=
  let x := s.drive d
  pollCq (driveWrite s d (x.cqb.toNat + 16 * x.head) (x.cqe cid status)) d
def execNvmeCompletion (drive cid : Nat) (status : BitVec 16) (s : State) : Out3 :=
  runEvent (fun s => nvmeDone s drive cid status) s

end Sys2Proof.Machine
end

