-- ==== Sys2Proof/Machine/Dispatcher.lean ====
section
/-! DEFINITION. The dispatcher: launch records, their checks, placement, classes, retirement and completion actions
(02 R32 to R47, R57; 03 R60; 07 R153, R154; 11 R258, R267; 14 R329). -/

namespace Sys2Proof.Machine

/-! ### The checks of a record (02 R40) -/

/-- Step 1: a check on the record alone fails. -/
def Grid.badRecord (g : Grid) : Bool :=
  g.fld 1023 576 != 0 || g.fld 255 240 != 0 || g.fld 231 231 != 0 ||
  1310720 < g.scratch || g.scratch % 1024 != 0 || g.save % 4096 != 0 || g.spill % 64 != 0 ||
  g.callDepth == 0 || 16 < g.callDepth || g.frontier == 0 || 64 < g.frontier ||
  g.tileInit == 0 || 6 < g.tileInit || g.tileMax < g.tileInit || 6 < g.tileMax ||
  4 < g.seqctx || g.clusterSize == 0 || 16 < g.clusterSize || g.threads == 0 || 1024 < g.threads ||
  g.gx == 0 || g.gy == 0 || g.gz == 0 || 2 ^ 32 < g.nGroups || g.gx % g.clusterSize != 0 ||
  g.cmplKind == 3 || (g.cmplKind != 0 && !(4 ≤ g.cmplScope && g.cmplScope ≤ 6))

/-- Step 2: the kernel header (14 R329). -/
def Grid.badKernel (g : Grid) : Bool :=
  g.kfld 511 496 != 0x574B || g.kfld 495 448 != 0 || g.kfld 391 385 != 0 || bitN (g.kfld 384 384) 0 ||
  g.kEntry % 8 != 0 || 2 ^ 48 ≤ g.kEntry || 4 < g.kfld 343 336 || g.kfld 335 328 == 0 || 16 < g.kfld 335 328 ||
  g.kfld 327 320 == 0 || 64 < g.kfld 327 320 || 256 < g.nEntry || 4096 < g.dictSize

/-- Step 3: the record against the header. -/
def Grid.badFit (g : Grid) : Bool := g.frontier < g.kfld 327 320 || g.callDepth < g.kfld 335 328 || g.seqctx < g.kfld 343 336

/-! ### Cores and their resources (02 R43) -/

/-- Cores on which the dispatcher may place groups of a partition: its own granted ones, and those lent to it (11 R261). -/
def servingCores (s : State) (n : Nat) : List Nat :=
  let own := if (s.part n).state == 1 then (s.part n).cores.filter fun c => (s.part n).pcore.getLsbD c else []
  let lent := s.parts.flatMap fun p =>
    if p.2.state == 2 && p.2.lentTo == some n && p.1 != n && !(s.mgmt.suspBusy && s.mgmt.suspPart.toNat == p.1)
    then p.2.cores.filter fun c => p.2.pcore.getLsbD c else []
  own ++ lent

def groupOn (s : State) (c : Nat) : List (Nat × Group) :=
  s.groups.filter fun g => g.2.core == c && (match g.2.phase with | .resident => true | .saving _ => true | _ => false)

/-- A cluster of a grid with a lower PRIO is held back in the partition. -/
def lowerHeld (s : State) (n p : Nat) : Bool :=
  (s.part n).held.any fun h => match mget? (s.part n).placing h.1 with
    | some gr => (s.grid gr).prio < p
    | none => false
/-- Pages still awaited: their leaf entries are not valid. -/
def stillAwaited (s : State) (g : Group) : List Nat := g.awaits.filter fun k => !(s.rd64 k).getLsbD 0
/-- A saved group is, or has just become, ready for restore (10 R245, 11 R260); after a suspension the resume makes it so (11 R261). -/
def becomesReady (s : State) (gid : Nat) (g : Group) : Bool :=
  match g.phase with
  | .saved 1 => g.ready || (stillAwaited s g).isEmpty
  | .saved 2 => g.ready || ((stillAwaited s g).isEmpty && !lowerHeld s (s.partOf gid) (s.gridOf gid).prio)
  | .saved _ => g.ready
  | _ => false
/-- What a cycle adds to the readiness of the saved groups: a page once installed is awaited no more, and a group once ready stays so. -/
def latchReady (s : State) : State :=
  let go := fun (gid : Nat) (g : Group) => match g.phase with
    | .saved _ => { g with awaits := stillAwaited s g, ready := becomesReady s gid g }
    | _ => g
  { s with groups := mmap go s.groups }

/-- A saved group that is ready for restore holds its core (R43, R58). -/
def coreHeld (s : State) (c : Nat) : Bool := s.groups.any fun g => g.2.core == c && becomesReady s g.1 g.2

/-- Warps of a group in a quarter. -/
def warpsIn (g : Grid) (q : Nat) : Nat := ((List.range g.nWarps).filter fun i => i % 4 == q).length
/-- Free warp slots of a quarter, in ascending order. -/
def freeSlots (s : State) (c q : Nat) : List Nat :=
  ((List.range 16).map (16 * q + ·)).filter fun w => (s.warp? c w).isNone
def freeCtxs (s : State) (c : Nat) : List Nat := (List.range 4).filter fun k => !(s.ctx c k).bound

/-- The lowest 1 KiB-aligned free range within a region (07 R154). -/
def scratchFit (s : State) (c size region : Nat) : Option Nat :=
  let used := (groupOn s c).map fun g => (g.2.base, g.2.size)
  if region < size then none
  else ((List.range ((region - size) / 1024 + 1)).map (1024 * ·)).find? fun b =>
    used.all fun u => u.2 == 0 || size == 0 || b + size ≤ u.1 || u.1 + u.2 ≤ b
/-- A range and the split that gives it: the current one, or the smallest larger step. -/
def scratchPlace (s : State) (c size : Nat) : Option (Nat × Nat) :=
  ([524288, 786432, 1048576, 1310720].filter fun r => (s.core c).split ≤ r).findSome? fun r =>
    (scratchFit s c size r).map fun b => (b, r)

/-- The core has room for a group. -/
def coreFits (s : State) (c : Nat) (g : Grid) : Bool :=
  ((List.range 4).all fun q => warpsIn g q ≤ (freeSlots s c q).length) &&
  g.nWarps * g.tileInit ≤ (freeGeneral s c).length && g.seqctx ≤ (freeCtxs s c).length && (scratchPlace s c g.scratch).isSome
/-- The core can take a group (R43). -/
def canTake (s : State) (c : Nat) (g : Grid) : Bool := !coreHeld s c && coreFits s c g

/-! ### The choice of cores (R46) -/

/-- The score of a core for a class. -/
def coreScore (s : State) (c : Nat) (cls : GClass) : Int :=
  let of := fun (k : GClass) => (((groupOn s c).filter fun g => (s.grid g.2.grid).cls == k).length : Int)
  match cls with
  | .memory => of .compute - of .memory
  | .compute => of .memory - of .compute
  | .balanced => -(of .compute + of .memory)

/-- The best core of a list, the lowest number on a tie. -/
def bestCore (s : State) (cls : GClass) : List Nat → Option Nat
  | [] => none
  | c :: t => match bestCore s cls t with
    | none => some c
    | some d => if coreScore s d cls > coreScore s c cls || (coreScore s d cls == coreScore s c cls && d < c) then some d else some c

/-- Ranks in ascending order on one die, each on a core of its own. -/
def pickRanks (s : State) (cls : GClass) : Nat → List Nat → Option (List Nat)
  | 0, _ => some []
  | k + 1, cs => match bestCore s cls cs with
    | none => none
    | some c => (pickRanks s cls k (cs.filter fun d => d != c)).map (c :: ·)

/-- The split with the low ranks on a die. -/
def pickSplit (s : State) (g : Grid) (cs : List Nat) (die : Nat) : Option (List Nat) :=
  let lo := cdiv g.clusterSize 2
  match pickRanks s g.cls lo (cs.filter fun c => dieOf c == die), pickRanks s g.cls (g.clusterSize - lo) (cs.filter fun c => dieOf c != die) with
  | some a, some b => some (a ++ b)
  | _, _ => none

/-- The cores of a cluster, by rank (R46). -/
def chooseCores (s : State) (n : Nat) (g : Grid) : Option (List Nat) :=
  let cs := (servingCores s n).filter fun c => canTake s c g
  if g.clusterSize == 1 then (bestCore s g.cls cs).map fun c => [c]
  else
    let top := fun (d : Nat) => (bestCore s g.cls (cs.filter fun c => dieOf c == d)).map fun c => coreScore s c g.cls
    let first := match top 0, top 1 with
      | some a, some b => if b > a then 1 else 0
      | none, some _ => 1
      | _, none => 0
    match pickSplit s g cs first with
    | some l => some l
    | none => pickSplit s g cs (1 - first)

/-! ### Placement (R43, R47; 03 R60; 04 R78 to R81) -/

/-- Lanes of warp `i` of a group of `t` threads that hold a thread, and its helper lanes (R32). -/
def realMask (t i : Nat) : W32 := (List.range 32).foldl (fun m j => if 32 * i + j < t then m ||| BitVec.twoPow 32 j else m) 0
def helperMask (t i : Nat) : W32 :=
  (List.range 32).foldl (fun m j => if t ≤ 32 * i + j && 32 * i + j / 4 * 4 < t then m ||| BitVec.twoPow 32 j else m) 0

/-- The slots that a group's warps take, in the order of the warps. -/
def slotsFor (s : State) (c : Nat) (g : Grid) : List Nat :=
  (List.range g.nWarps).map fun i => nth 0 (freeSlots s c (i % 4)) (i / 4)

/-- The L1 gives up lines until it fits its share (07 R154). -/
def shrinkL1 (s : State) (c : Nat) : State :=
  let k := s.core c
  ((k.l1.take (k.l1.length - k.l1Cap)).map (·.1)).foldl (fun s ln => s.l1Evict c ln) s

/-- One warp of a placed group. -/
def placeWarp (c gid : Nat) (g : Grid) (s : State) (iw : Nat × Nat) : State :=
  let ts := (freeGeneral s c).take g.tileInit
  let s := ts.foldl (allotTile c iw.2 gid) s
  let real := realMask g.threads iw.1
  let help := helperMask g.threads iw.1
  let e : Entry := { pc := BitVec.ofNat 48 g.kEntry, prio := 0, mask := real ||| help, depth := 0 }
  s.setWarp c iw.2 { gid := gid, index := iw.1, real := real, helper := help, allot := ts, frontier := [e], placed := s.now,
                     nextIssue := s.now }

/-- Code of kernels without a resident group leaves the core's store (05 R100). -/
def keepDict (s : State) (c : Nat) : State :=
  let live := (groupOn s c).map fun g => s.gridOf g.1
  let within := fun (base len : Grid → Nat) (e : Nat × Nat) => live.any fun g =>
    g.part == e.1 % 16 && decide (base g ≤ e.1 / 16) && decide (e.1 / 16 < base g + len g)
  s.modCore c fun k => { k with
    dict := k.dict.filter (within (·.dictBase) fun g => 48 * g.dictSize)
    stream := k.stream.filter (within (·.stream) fun g => 2 * g.streamLen) }

/-- A group of a cluster on a core. -/
def placeGroup (gr number cl rank c : Nat) (s : State) : State :=
  let g := s.grid gr
  let gid := s.fresh
  let slots := slotsFor s c g
  let ctxs := (freeCtxs s c).take g.seqctx
  let (base, split) := (scratchPlace s c g.scratch).getD (0, 524288)
  -- the launch has published its memory: the core drops what it may hold from before (09 R213)
  let s := (keepDict s.bump c).acquireDrop c g.part 3
  let x : Group := { grid := gr, number := number, cluster := cl, rank := rank, core := c, slots := slots, ctxs := ctxs, base := base, size := g.scratch }
  let s := { s with groups := mput s.groups gid x }
  let s := shrinkL1 (s.modCore c fun k => { k with split := max k.split split }) c
  let s := ((List.range slots.length).zip slots).foldl (placeWarp c gid g) s
  ctxs.foldl (fun s k => s.setCtx c k { bound := true, gid := gid }) s

/-- The next cluster of a grid on chosen cores. -/
def placeClusterOn (gr : Nat) (cores : List Nat) (s : State) : State :=
  let g := s.grid gr
  let cl := s.fresh
  let first := s.fresh + 1
  let s := s.bump
  let x : Cluster := { grid := gr, number := g.nextCluster, groups := (List.range cores.length).map (first + ·), placed := s.now }
  let s := { s with clusters := mput s.clusters cl x }
  let s := ((List.range cores.length).zip cores).foldl (fun s rc =>
    placeGroup gr (g.nextCluster * g.clusterSize + rc.1) cl rc.1 rc.2 s) s
  s.modGrid gr fun g => { g with nextCluster := g.nextCluster + 1, firstPlaced := some (g.firstPlaced.getD s.now) }

/-- Clusters placed one after the other, or none of them (R44). -/
def placeMany (n gr : Nat) : Nat → State → Option State
  | 0, s => some s
  | k + 1, s => match chooseCores s n (s.grid gr) with
    | none => none
    | some cs => placeMany n gr k (placeClusterOn gr cs s)

/-! ### NO_FIT (R40 step 4) -/

/-- Groups of a grid that one empty core holds. -/
def emptyCap (g : Grid) : Nat :=
  let q := cdiv g.nWarps 4
  min (min (16 / max 1 q) (256 / max 1 (g.nWarps * g.tileInit)))
    (min (if g.seqctx == 0 then 64 else 4 / g.seqctx) (if g.scratch == 0 then 64 else 1310720 / g.scratch))

/-- The machine with no group on any core. -/
def emptyCores (s : State) : State :=
  { s with groups := [], warps := [], ctxs := [], cores := mmap (fun _ k => { k with owners := [], split := 524288, l1 := [], wc := [], queue := [] }) s.cores }

/-- A bound: a cluster, or a co-resident grid, that could not be placed by the numbers of groups that empty cores hold. -/
def fitsByCount (s : State) (n : Nat) (g : Grid) : Bool :=
  let cs := servingCores s n
  let c0 := (cs.filter fun c => dieOf c == 0).length
  let c1 := cs.length - c0
  let cap := emptyCap g
  let lo := cdiv g.clusterSize 2
  let hi := g.clusterSize - lo
  let k := if g.coRes then g.nClusters else 1
  let cap := if g.coRes then cap else 1
  if cap == 0 then false
  else if g.clusterSize == 1 then k ≤ cap * (c0 + c1)
  else
    -- `x` clusters with their low ranks on die 0, the others on die 1
    let aOk := lo ≤ c0 && hi ≤ c1
    let bOk := lo ≤ c1 && hi ≤ c0
    let xMax := if !aOk then 0 else if lo == hi then k else min k (cap * c0 - k * hi)
    let xMin := if !bOk then k else if lo == hi then 0 else k * lo - cap * c1
    (aOk || bOk) && k * hi ≤ cap * c0 && k * hi ≤ cap * c1 && xMin ≤ xMax

/-- A cluster, or a co-resident grid, would be placed on the partition's cores with all of them empty. -/
def wouldFit (s : State) (n : Nat) (g : Grid) : Bool :=
  let t := emptyCores s
  fitsByCount s n g &&
  (placeMany n s.fresh (if g.coRes then g.nClusters else 1) { t.bump with grids := mput t.grids s.fresh g }).isSome

/-! ### Taking a record (02 R37 to R40) -/

/-- The launch ring's header address. -/
def lringHdr (l : W64) : Nat := bitsN l.toNat 47 6 * 64

/-- A record about the dispatcher's own accesses. -/
def dispFault (s : State) (n : Nat) (f : XFault) (va : Nat) (access : Nat := 0) : State := postRecord s n (unitRec 3 access f va)
/-- RING_FORMAT about a ring of the dispatcher. -/
def dispRing (s : State) (n hdr : Nat) : State :=
  postRecord s n { source := 3, cls := 2, code := 0x50, cause := 8, va := BitVec.ofNat 64 hdr }

/-- The dispatcher waits for a page of a ring's record, and only that ring's later records with it; `lost` are pages whose page-in
has failed, and they end the wait (10 R236). -/
def ringPage (lost : List (Nat × Nat × Nat)) (s : State) (n r va : Nat) (fail : State) : State :=
  if lost.any fun f => f.2.1 ≤ va && va < f.2.1 + f.2.2 then fail
  else (s.modPart n fun p => { p with blocked := insertNat r p.blocked }).push (.pagerRequest n (BitVec.ofNat 64 va) (.ring n r))
/-- A page-in that has failed, as a fault of the dispatcher's access (R229, 10 R236). -/
def lostPage : XFault := ⟨3, 0x60, 6, 0xFF, 0⟩

/-- LIVE changes by an atomic at device scope (11 R267). `none`: the atomic faults. -/
def liveAdd (s : State) (n kobj : Nat) (up : Bool) : Option State :=
  match xlateUnit s n (kobj + 0x2C) .rw with
  | (.ok pa _ _, s) =>
    let x := s.rdNat pa 4
    some ((s.collTouchPa (span pa 4)).memWrite (cellsAt pa (leBytes 4 ((if up then x + 1 else x + (2 ^ 32 - 1)) % 2 ^ 32))) true)
  | _ => none

/-- A launch that fails: nothing is placed, the completion action reports the status, the dispatcher moves on (R40). -/
def failLaunch (s : State) (n r : Nat) (g : Grid) (status : BitVec 8) : State :=
  let id := s.fresh
  let s := s.bump
  let s := { s with grids := mput s.grids id { g with part := n, ring := r, status := status } }
  (s.push (.completionAction id)).push (.dispatcherTakeRecord n r)

/-- A record that has been read: the checks of R40, then placement. -/
def launch (lost : List (Nat × Nat × Nat)) (s : State) (n r : Nat) (bits : Nat) : State :=
  let done := fun (s : State) => s.modPart n fun p => { p with taken := mdel p.taken r }
  let g : Grid := { part := n, ring := r, record := BitVec.ofNat 1024 bits }
  if g.badRecord then failLaunch (done s) n r g 1
  else if g.kobj % 64 != 0 then failLaunch (done s) n r g 2
  else match unitRead s n g.kobj 64 with
    | (.page va, _, _) => ringPage lost s n r va (failLaunch (done s) n r g 2)
    | (.bad _ _, _, _) => failLaunch (done s) n r g 2
    | (.poison a, _, _) => failLaunch (postRecord (done s) n (poisonRec 8 a)) n r g 2
    | (.ok, bs, s) =>
      let g := { g with khdr := (List.range 8).map fun i => BitVec.ofNat 64 (leNat ((bs.drop (8 * i)).take 8)) }
      let g := { g with entry := BitVec.ofNat 64 g.kEntry }
      if g.badKernel then failLaunch (done s) n r g 2
      else
        let ents := (List.range g.nEntry).map fun e => match unitRead s n (g.entTab + 8 * e) 8 with
          | (.ok, bs, _) => leNat (bs.take 4)
          | _ => 0
        match liveAdd s n g.kobj true with
        | none => failLaunch (done s) n r g 2
        | some s =>
          let g := { g with counted := true, entries := ents }
          if g.badFit then failLaunch (done s) n r g 1
          else if !wouldFit s n g then failLaunch (done s) n r g 3
          else
            let id := s.fresh
            let s := (done s).bump
            let s := { s with grids := mput s.grids id g }
            (s.modPart n fun p => { p with placing := mput p.placing r id }).push (.placeCluster n r)

/-- Read the slot that has been taken (R38). A slot that has been written after its publication is read as it stands when it is taken, or
when the wait for its page ends (DESIGN CHOICE, log 60). -/
def readSlot (lost : List (Nat × Nat × Nat)) (s : State) (n r va : Nat) : State :=
  let next := fun (s : State) => (s.modPart n fun p => { p with taken := mdel p.taken r }).push (.dispatcherTakeRecord n r)
  match unitRead s n va 128 with
  | (.ok, bs, s) => launch lost s n r (leNat bs)
  | (.page a, _, _) => ringPage lost s n r a (next (dispFault s n lostPage va))
  | (.bad f _, _, _) => next (dispFault s n f va)
  | (.poison _, _, _) => next (postRecord s n { source := 3, cls := 3, code := 0x60, cause := 8, va := BitVec.ofNat 64 va })

/-- The ring waits for a page, or behind the completion action of one of its grids (R38, R41). -/
def ringBlocked (s : State) (n r : Nat) : Bool :=
  (s.part n).blocked.contains r || (s.part n).actWaits.any fun gr => (s.grid gr).ring == r

/-- DISPATCHER_TAKE_RECORD: a notification or an examination of a launch ring (R37). A ring header or a state array that does not
translate is reported as the slot's bytes are, with ACCESS 3, and nothing is taken; its page, where it is storage-backed, is waited
for (R38 gives outcomes for the slot's bytes only: DESIGN CHOICE, log 57). -/
def takeRecord (s0 : State) (n r : Nat) : State :=
  let p := s0.part n
  let l := mget 0 p.lring r
  let hdr := lringHdr l
  let lost := p.ringFails.filter fun f => f.1 == r
  let s := s0.modPart n fun p => { p with ringFails := p.ringFails.filter fun f => f.1 != r }
  if p.state != 1 || (mget? p.placing r).isSome || ringBlocked s0 n r then s0
  else match mget? p.taken r with
    | some va => readSlot lost s n r va
    | none =>
      if !l.getLsbD 0 then s
      else match ringOpen s n hdr with
        | (.error (.page _ va _ _), _) => ringPage lost s n r va (dispFault s n lostPage va 3)
        | (.error (.bad f va), _) => dispFault s n f va 3
        | (.error _, _) => dispRing s n hdr
        | (.ok (h, _), _) =>
          if h.kind != 1 || h.notify != 1 || h.log2sz != 7 then dispRing s n hdr
          else match ringTake s n hdr with
            | (.ok (k, h), s) =>
              let va := h.slotVa k
              readSlot lost (s.modPart n fun p => { p with taken := mput p.taken r va }) n r va
            | (.error (.page _ va _ _), _) => ringPage lost s n r va (dispFault s n lostPage va 3)
            | (.error (.bad f va), _) => dispFault s n f va 3
            | (.error _, _) => s
def execDispatcherTakeRecord (part ring : Nat) (s : State) : Out3 := runEvent (fun s => takeRecord s part ring) s

/-! ### PLACE_CLUSTER (R42 to R44) -/

/-- Groups of a held-back record that are placed at once (R44). -/
def todoOf (g : Grid) : Nat := if g.coRes then g.nClusters - g.nextCluster else 1
/-- The ring has a cluster that can be placed now. -/
def canPlace (s : State) (n r : Nat) : Bool :=
  match mget? (s.part n).placing r with
  | some gr => !(s.grid gr).aborted && (s.grid gr).nextCluster < (s.grid gr).nClusters && (placeMany n gr (todoOf (s.grid gr)) s).isSome
  | none => false

/-- The rings are served in turn, one cluster at a time (R42; a cluster as the unit of a turn: DESIGN CHOICE, log 55): a ring waits
while one before it in the turn can place. -/
def placeCluster (s : State) (n r : Nat) : State :=
  match mget? (s.part n).placing r with
  | none => s
  | some gr =>
    let g := s.grid gr
    let finish := fun (s : State) =>
      (s.modPart n fun p => { p with placing := mdel p.placing r, held := mdel p.held r }).push (.dispatcherTakeRecord n r)
    if g.aborted || g.nClusters ≤ g.nextCluster then finish s
    else if (s.part n).state != 1 then s
    else match ((s.part n).turn.takeWhile (· != r)).find? (canPlace s n) with
    | some q => (s.push (.placeCluster n q)).push (.placeCluster n r)
    | none =>
      match placeMany n gr (todoOf g) s with
      | some s => (s.modPart n fun p => { p with held := mdel p.held r, nextRing := (r + 1) % 4 }).retryPlacement n
      | none => s.modPart n fun p => { p with held := mput p.held r (mget s.now p.held r) }
def execPlaceCluster (part ring : Nat) (s : State) : Out3 := runEvent (fun s => placeCluster s part ring) s

/-- GRID_CLASSIFY (R45). -/
def gridClassify (s : State) (gr : Nat) : State :=
  s.modGrid gr fun g =>
    match g.firstPlaced with
    | some t =>
      if g.classified || s.now < t + 2 ^ 20 then g
      else
        let c : GClass := if g.bytes * 1024 < g.macs then .compute else if g.macs < g.bytes * 128 then .memory else .balanced
        { g with classified := true, cls := c }
    | none => g
def execGridClassify (grid : Nat) (s : State) : Out3 := runEvent (fun s => gridClassify s grid) s

/-! ### GROUP_RETIRE (R57) -/

/-- An operation that must be performed before its group retires. -/
def VarOp.lasting (v : VarOp) : Bool :=
  match v.body with
  | .access x => (match x.kind with | .load => false | _ => true)
  | .tgst _ _ _ _ | .flush _ _ _ | .ring => true
  | _ => false

def groupDone (s : State) (gid : Nat) : Bool :=
  let g := s.group gid
  let mine := s.agentsOf gid
  g.phase == .resident && !(g.fids.any fun f => !f.2.2) && g.slots.all (fun w => (s.warp g.core w).frontier.isEmpty) &&
  g.ctxs.all (fun k => (s.ctx g.core k).state == .stopped || (s.ctx g.core k).state == .trapped) &&
  (s.core g.core).vars.all (fun v => !mine.contains v.agent || !v.lasting) &&
  (s.core g.core).copies.all (fun x => x.gid != gid) && s.colls.all fun x => !mine.contains x.agent

def groupRetire (s : State) (gid : Nat) : State :=
  match mget? s.groups gid with
  | none => s
  | some g =>
    if !groupDone s gid then s
    else
      let gr := s.grid g.grid
      let n := gr.part
      let s := g.ctxs.foldl (fun s k =>
        let x := s.ctx g.core k
        if x.state == .trapped then
          -- no rule gives it an address: a free value (log 39)
          postRecord s n (agentRec s gid (.ctx g.core k) 2 x.trapcode.toNat 8 (s.free (93000 + k)))
        else s) s
      let s := (s.freeGroup gid).modGrid g.grid fun x => { x with retired := x.retired + 1 }
      let s := s.push (.cbarComplete g.cluster)
      let s := if (s.grid g.grid).retired == gr.nGroups then s.push (.completionAction g.grid) else s
      s.parts.foldl (fun s p => s.retryPlacement p.1) s
def execGroupRetire (gid : Nat) (s : State) : Out3 := runEvent (fun s => groupRetire s gid) s

/-! ### COMPLETION_ACTION (R41) -/

/-- The action's scope: a record refused for its scope acts at system scope (R40). -/
def actScope (g : Grid) : Nat := if 4 ≤ g.cmplScope && g.cmplScope ≤ 6 then g.cmplScope else 6

/-- The release of a completion action drains the dirty bytes of every core that ran a group of the grid. -/
def gridRelease (s : State) (gr scope : Nat) : State :=
  ((s.groups.filter fun x => x.2.grid == gr).map (·.2.core)).eraseDups.foldl (fun s c => s.eager c scope) s

/-- The grid is done: its LIVE count falls, and the records of its ring that waited behind its action go on (R37, R41). -/
def gridDone (s : State) (gr : Nat) : State :=
  let g := s.grid gr
  let s := s.modGrid gr fun x => { x with done := true, acting := false, slot := none }
  let s := if g.counted then (liveAdd s g.part g.kobj false).getD s else s
  if !(s.part g.part).actWaits.contains gr then s
  else (s.modPart g.part fun p => { p with actWaits := p.actWaits.filter fun x => x != gr }).push (.dispatcherTakeRecord g.part g.ring)

/-- The action waits, and its ring's later records with it. -/
def actWait (s : State) (gr : Nat) (page : Option Nat) : State :=
  let g := s.grid gr
  let s1 := s.modPart g.part fun p => { p with actWaits := insertNat gr p.actWaits }
  match page with
  | some va =>
    let lost := fun (f : Nat × Nat × Nat) => f.1 == 4 + gr && f.2.1 ≤ va && va < f.2.1 + f.2.2
    -- its page-in has failed, and the record has been posted (10 R236); a slot that has been reserved is published as it stands
    if (s.part g.part).ringFails.any lost then
      let s := s.modPart g.part fun p => { p with ringFails := p.ringFails.filter fun f => f.1 != 4 + gr }
      gridDone (match g.slot with | some k => (ringPublish s g.part g.cmplAddr k.toNat).2 | none => s) gr
    else s1.push (.pagerRequest g.part (BitVec.ofNat 64 va) (.grid gr))
  | none => s1.modGrid gr fun x => { x with acting := true }

/-- The store of a completion action. -/
def actStore (s : State) (gr : Nat) (g : Grid) : State :=
  let a := g.cmplAddr
  if a % 8 != 0 then gridDone (dispFault s g.part ⟨2, 0x20, 8, 0xFF, 0⟩ a 1) gr
  else
    let v := g.cmplVal / 256 * 256 + g.status.toNat
    match unitWrite (gridRelease s gr (actScope g)) g.part a (leBytes 8 v) with
    | (.ok, s) => gridDone s gr
    | (.page va, _) => actWait s gr (some va)
    | (.bad f va, s) => gridDone (dispFault s g.part f va 1) gr
    | (.poison _, s) => gridDone s gr

/-- The publication of a completion action: the slot is reserved, filled, published. A fault on the slot's bytes publishes them
unchanged. -/
def actRing (s : State) (gr : Nat) (g : Grid) : State :=
  let hdr := g.cmplAddr
  let fail := fun (s : State) (e : RingErr) => match e with
    | .page _ va _ _ => actWait s gr (some va)
    | .full => actWait s gr none
    | .bad f va => gridDone (dispFault s g.part f va 3) gr
    | _ => gridDone (dispRing s g.part hdr) gr
  if hdr % 64 != 0 then gridDone (dispFault s g.part ⟨2, 0x20, 8, 0xFF, 0⟩ hdr 3) gr
  else match ringOpen s g.part hdr with
  | (.error e, s) => fail s e
  | (.ok (h, _), _) =>
    if h.kind != 0 || h.log2sz < 4 then gridDone (dispRing s g.part hdr) gr
    else
      let res := match g.slot with
        | some k => (Except.ok (k.toNat, h), s)
        | none => ringReserve s g.part hdr
      match res with
      | (.error e, s) => fail s e
      | (.ok (k, h), s) =>
        let s := s.modGrid gr fun x => { x with slot := some (BitVec.ofNat 64 k) }
        let bytes := leBytes 8 g.cmplVal ++ leBytes 8 (g.status.toNat + bitsN s.devtime.toNat 55 0 * 256)
        let pub := fun (s : State) => gridDone ((ringPublish s g.part hdr k).2) gr
        match unitWrite (gridRelease s gr (actScope g)) g.part (h.slotVa k) bytes with
        | (.ok, s) => pub s
        | (.page va, _) => actWait s gr (some va)
        | (.bad f va, s) => pub (dispFault s g.part f va 1)
        | (.poison _, s) => pub s

/-- COMPLETION_ACTION: after the last retirement, or a failure. -/
def completionAction (s : State) (gr : Nat) : State :=
  match mget? s.grids gr with
  | none => s
  | some g =>
    if g.done || !(g.aborted || g.status != 0 || g.retired == g.nGroups) then s
    else if g.cmplKind == 1 then actStore s gr g
    else if g.cmplKind == 2 then actRing s gr g
    else gridDone s gr
def execCompletionAction (grid : Nat) (s : State) : Out3 := runEvent (fun s => completionAction s grid) s

/-! ### MEMORY_ERROR_DETECTED (07 R161) -/

/-- The partition, the die and the unit of an error's place. -/
def errPlace (s : State) : ErrLoc → Nat × Nat × Nat
  | .mem k => (((s.parts.find? fun p => p.2.state != 0 && p.2.inFrame (64 * k) 64).map (·.1)).getD 16,
      homeSlice (64 * k) / 32, homeSlice (64 * k))
  | .scratch g _ => (s.partOf g, dieOf (s.group g).core, (s.group g).core)
  | .tile c t _ => (s.partOf ((s.core c).owner t).gid, dieOf c, c)
  | .l1 c k => (((s.parts.find? fun p => p.2.state != 0 && p.2.inFrame (64 * k) 64).map (·.1)).getD 16, dieOf c, c)
  | .ticket e _ => ((s.ticket e).part, e / 1024 / 32, e / 1024)

/-- An error in the data of a ticket entry: the bytes of its chunk (08 R190). -/
def ticketError (s : State) (e k : Nat) : State :=
  s.setTicket e { s.ticket e with poisoned :=
    (s.ticket e).poisoned ++ (List.range 64).filterMap fun i => if 64 * k + i < (s.ticket e).data.length then some (64 * k + i) else none }

/-- A single-bit error is corrected and counted; a double-bit error poisons its chunk. -/
def memoryError (s : State) (loc : ErrLoc) (double : Bool) : State :=
  if double then
    match loc with
    | .ticket e k => ticketError s e k
    | _ => if s.poison.contains loc then s else { s with poison := s.poison ++ [loc] }
  else
    let p := errPlace s loc
    (s.modMgmt fun m => { m with corrected := m.corrected + 1 }).monitor p.2.1 5 p.1 p.2.2 1
def execMemoryErrorDetected (loc : ErrLoc) (double : Bool) (s : State) : Out3 := runEvent (fun s => memoryError s loc double) s

end Sys2Proof.Machine
end

