-- ==== Sys2Proof/Machine/LaneMove.lean ====
section
/-! DEFINITION. Moves, selection, exchange and combination across lanes, predicates and special registers
(16 R397, R398; 17 R407 to R415, R418, R419; 18 R428, R430, R451, R453). -/

namespace Sys2Proof.Machine

/-! ### Moves -/

def movBody (f : Reg) : View → State → Res := regOp1 f (wT f.m) (wT f.m) 4 id
/-- OPC 0x181: the lowest active real lane's value to a g register (R407). -/
def movToGBody (f : Reg) : View → State → Res :=
  gOp (runRegsX (xA f.x) f.a.toNat (kOf (wT f.m))) f.d.toNat (kOf (wT f.m)) 4
    fun s v j => words (wT f.m) (readT s v 0 (xA f.x) f.a (wT f.m) j)

/-- MOVI (R408): `old` is D read at issue. -/
def moviVal (f : Wide) (old : W32) : W32 :=
  match f.sh.toNat with
  | 0 => f.imm.setWidth 32
  | 1 => f.imm.signExtend 32
  | 2 => f.imm ++ 0#16
  | _ => f.imm ++ old.extractLsb' 0 16

/-- A write to g registers that any active lane makes, helper lanes included (R408, R409). -/
def gOnce (d lat : Nat) (f : State → View → List W32) (v : View) (s : State) : Res :=
  if v.act == 0 then .ok s .next
  else
    let ws := f s v
    .ok (s.laterAll v.me (s.now + lat) ((List.range ws.length).map fun i => Write.g (d + i) (nth 0 ws i))) .next

def execMov (h : Hdr) (f : Reg) (s : State) : Out3 := runWarp h (.mov h f) (movBody f) s
def execMovToG (h : Hdr) (f : Reg) (s : State) : Out3 := runWarp h (.movToG h f) (movToGBody f) s
def execMovi (h : Hdr) (f : Wide) (s : State) : Out3 :=
  runWarp h (.movi h f) (vecOp [] f.d.toNat 1 4 fun s v j => [moviVal f (readV s v 0 f.d.toNat j)]) s
def execMoviToG (h : Hdr) (f : Wide) (s : State) : Out3 :=
  runWarp h (.moviToG h f) (gOnce f.d.toNat 4 fun s v => [moviVal f (readG s v 0 f.d.toNat)]) s
def execMovl (h : Hdr) (f : Lit) (s : State) : Out3 :=
  runWarp h (.movl h f) (vecOp [] f.d.toNat 2 4 fun _ _ _ => [lo32 f.lit, hi32 f.lit]) s
def execMovlToG (h : Hdr) (f : Lit) (s : State) : Out3 :=
  runWarp h (.movlToG h f) (gOnce f.d.toNat 4 fun _ _ => [lo32 f.lit, hi32 f.lit]) s

/-- SEL (R428). -/
def selBody (f : Reg) : View → State → Res :=
  let w := wT f.m
  vecOp (runRegsX (xA f.x) f.a.toNat (kOf w) ++ runRegsX (xB f.x) f.b.toNat (kOf w)) f.d.toNat (kOf w) 4 fun s v j =>
    words w (if (predMask s v.c v.w v.wp (modLow3 f.m)).getLsbD j then readT s v 0 (xA f.x) f.a w j
      else readT s v 1 (xB f.x) f.b w j)
def execSel (h : Hdr) (f : Reg) (s : State) : Out3 := runWarp h (.sel h f) (selBody f) s

/-! ### Exchanges across lanes (03 R72) -/

/-- A source lane's register as it stands at issue; an absent lane supplies zero (R72). -/
def laneV (s : State) (v : View) (op n j : Nat) : W32 :=
  if (v.wp.real ||| v.wp.helper).getLsbD j then readV s v op n j else 0

/-- QSWZ's source lane (R414). -/
def quadLane (sel : BitVec 8) (j : Nat) : Nat := 4 * (j / 4) + bitsN sel.toNat (2 * (j % 4) + 1) (2 * (j % 4))
def execQswz (h : Hdr) (f : Imm) (s : State) : Out3 :=
  runWarp h (.qswz h f) (vecOp [f.a.toNat] f.d.toNat 1 4 fun s v j => [laneV s v 0 f.a.toNat (quadLane f.i j)]) s

/-- SHFL's source lane (R430). -/
def shflLane (mode : Nat) (b : W32) (j : Nat) : Nat :=
  match mode with
  | 0 => b.toNat % 32
  | 1 => if b.toNat ≤ j then j - b.toNat else j
  | 2 => if j + b.toNat ≤ 31 then j + b.toNat else j
  | _ => (BitVec.ofNat 5 j ^^^ b.extractLsb' 0 5).toNat

/-- A variable-latency operation whose results are known at issue. -/
def varResults (v : View) (tok : Nat) (ws : List Write) (s : State) : Res :=
  .ok (s.issueVar v.me tok (writeRegs s v.me ws) (writeTiles ws) (.results ws)) .next

def shflBody (f : Asy) : View → State → Res :=
  guardV ([f.a.toNat] ++ runRegsX (xB f.x) f.b.toNat 1 ++ [f.d.toNat]) fun v s =>
    varResults v f.tok.toNat (rowWrites v f.d.toNat 1 fun j =>
      [laneV s v 0 f.a.toNat (shflLane (bitsN f.sub.toNat 1 0) (readR s v 1 (xB f.x) f.b.toNat j) j)]) s
def execShfl (h : Hdr) (f : Asy) (s : State) : Out3 := runWarp h (.shfl h f) (shflBody f) s

/-- MATCH (R398). -/
def matchMask (s : State) (v : View) (wide : Bool) (a : BitVec 8) (j : Nat) : W32 :=
  if v.real.getLsbD j then
    maskOf (v.realLanes.filter fun k => readT s v 0 false a wide k == readT s v 0 false a wide j)
  else 0
def execMatch (h : Hdr) (f : Asy) (s : State) : Out3 :=
  let wide := f.sub.getLsbD 0
  runWarp h (.match_ h f) (guardV (runRegs f.a.toNat (kOf wide) ++ [f.d.toNat]) fun v s =>
    varResults v f.tok.toNat (rowWrites v f.d.toNat 1 fun j => [matchMask s v wide f.a j]) s) s

/-- VOTE (R451). -/
def voteBody (f : Asy) : View → State → Res :=
  onceWarp fun v s =>
    let m := predMask s v.c v.w v.wp f.a.toNat &&& v.real
    let w := match f.sub.toNat with
      | 0 => if f.d.toNat == 7 then [] else [Write.pred f.d.toNat (v.lanes.map fun j => (j, m == v.real))]
      | 1 => if f.d.toNat == 7 then [] else [Write.pred f.d.toNat (v.lanes.map fun j => (j, m != 0))]
      | _ => [Write.g f.d.toNat m]
    varResults v f.tok.toNat w s
def execVote (h : Hdr) (f : Asy) (s : State) : Out3 := runWarp h (.vote h f) (voteBody f) s

/-- REDUX (R418, R419). -/
def reduxVal (op : Nat) (signed : Bool) (xs : List W32) : W32 :=
  let le := fun (a b : W32) => if signed then a.toInt ≤ b.toInt else a.toNat ≤ b.toNat
  match xs with
  | [] => 0
  | x :: t => t.foldl (fun a b => match op with
    | 0 => a + b
    | 1 => if le a b then a else b
    | 2 => if le a b then b else a
    | 3 => a &&& b
    | 4 => a ||| b
    | _ => a ^^^ b) x
def execRedux (h : Hdr) (f : Asy) (s : State) : Out3 :=
  runWarp h (.redux h f) (onceWarp (guardV [f.a.toNat] fun v s =>
    varResults v f.tok.toNat [.g f.d.toNat (reduxVal (bitsN f.sub.toNat 2 0) (f.sub.getLsbD 3)
      (v.realLanes.map fun j => readV s v 0 f.a.toNat j))] s)) s

/-- PLOP (R411). -/
def execPlop (h : Hdr) (f : Reg) (s : State) : Out3 :=
  runWarp h (.plop h f) (predOp [] f.d.toNat 4 fun s v j =>
    lutBit (modLut f.m) ((predMask s v.c v.w v.wp f.a.toNat).getLsbD j) ((predMask s v.c v.w v.wp f.b.toNat).getLsbD j)) s

/-! ### Special registers (04 R80) -/

/-- sr.wmap (R80). -/
def wmapOf (w : Warp) : W32 :=
  BitVec.ofBool w.w1.valid ++ BitVec.ofBool w.w1.pending ++ 0#4 ++ w.w1.tile ++
  BitVec.ofBool w.w0.valid ++ BitVec.ofBool w.w0.pending ++ 0#4 ++ w.w0.tile

/-- Value of a special register in a lane (R80). A trap register with a WRSR in flight reads a free value (02 R51). -/
def srVal (s : State) (v : View) (n j : Nat) : W64 :=
  let g := s.group v.gid
  let gr := s.grid g.grid
  let num := g.number
  if (s.core v.c).srPending v.me n then s.free (31000 + j) else
  match n with
  | 0x00 => BitVec.ofNat 64 j
  | 0x01 => BitVec.ofNat 64 v.w
  | 0x02 => BitVec.ofNat 64 v.wp.index
  | 0x03 => BitVec.ofNat 64 v.c
  | 0x04 => BitVec.ofNat 64 g.rank
  | 0x05 => BitVec.ofNat 64 num
  | 0x06 => BitVec.ofNat 64 (num % gr.gx)
  | 0x07 => BitVec.ofNat 64 (num / gr.gx % gr.gy)
  | 0x08 => BitVec.ofNat 64 (num / (gr.gx * gr.gy))
  | 0x09 => if v.wp.helper.getLsbD j then 1 else 0
  | 0x0A => BitVec.ofNat 64 v.wp.allot.length
  | 0x0B => (wmapOf v.wp).setWidth 64
  | 0x0C => BitVec.ofNat 64 gr.part
  | 0x10 => BitVec.ofNat 64 gr.args
  | 0x11 => s.devtime
  | 0x20 => v.wp.trapcode.setWidth 64
  | 0x21 => mget 0 v.wp.trapinfo j
  | _ => v.wp.trappc

def execRdsr (h : Hdr) (f : SysF) (s : State) : Out3 :=
  let n := f.imm.toNat
  runWarp h (.rdsr h f) (vecOp [] f.d.toNat (srRegs n) 4 fun s v j => words (srWide n) (srVal s v n j)) s
def execRdsrToG (h : Hdr) (f : SysF) (s : State) : Out3 :=
  let n := f.imm.toNat
  runWarp h (.rdsrToG h f) (gOp [] f.d.toNat (srRegs n) 4 fun s v j => words (srWide n) (srVal s v n j)) s

/-- WRSR (18 R453, 11 R255). -/
def wrsrBody (f : SysF) : View → State → Res :=
  let n := f.imm.toNat
  guardV (runRegsX f.xa f.a.toNat (srRegs n)) fun v s =>
    let val := fun j => readT s v 0 f.xa f.a (srWide n) j
    let ws := if n == 0x21 then v.lanes.map fun j => (j, val j) else v.lane0.toList.map fun j => (j, val j)
    if ws.isEmpty then .ok s .next else .ok (s.later v.me (s.now + 4) (.sr n ws)) .next
def execWrsr (h : Hdr) (f : SysF) (s : State) : Out3 := runWarp h (.wrsr h f) (wrsrBody f) s

end Sys2Proof.Machine
end

