-- ==== Sys2Proof/Machine/SaveImage.lean ====
section
/-! DEFINITION. The bytes of a saved group: header, traded tiles, copies, warp areas, context areas, scratchpad
(03 R65; 04 R91; 05 R102, R108, R113, R124; 07 R177; 11 R263 to R266). Fields of a byte image are read back by the same
offsets. -/

namespace Sys2Proof.Machine

/-! ### Pieces of an image -/

/-- Bytes at an offset. -/
abbrev Piece := Nat × List Byte

/-- The number that `len` bytes of an image hold at an offset. -/
def fieldAt (img : List Byte) (o len : Nat) : Nat := leNat ((img.drop o).take len)
/-- Bytes `a` to `b − 1` of an image are zero. -/
def zeroAt (img : List Byte) (a b : Nat) : Bool := ((img.drop a).take (b - a)).all fun x => x == 0

/-! ### Warps (R265) -/

/-- The 128 bits of a frontier entry (03 R65). -/
def Entry.bits (e : Entry) : Nat :=
  e.depth % 2 ^ 16 * 2 ^ 112 + e.prio.toNat * 2 ^ 96 + e.mask.toNat * 2 ^ 64 + e.pc.toNat
def entryOf (x : Nat) : Entry :=
  { pc := BitVec.ofNat 48 x, prio := BitVec.ofNat 16 (bitsN x 111 96), mask := BitVec.ofNat 32 (bitsN x 95 64), depth := bitsN x 127 112 }

/-- Bytes of the frontier registers, unused entries zero. -/
def frontierBytes (g : Grid) (l : List Entry) : List Byte :=
  let n := 8 * cdiv g.frontier 8
  (sortEntries l).flatMap (fun e => leBytes 16 e.bits) ++ List.replicate (16 * (n - l.length)) 0

/-- Byte of ALLOT at which the frontier registers begin. -/
def frontierAt (g : Grid) : Nat := 128 * g.frontierRegs.1

def predByte (w : Warp) (j : Nat) : Byte :=
  BitVec.ofNat 8 ((List.range 7).foldl (fun x i => x + if (mget (0 : W32) w.preds i).getLsbD j then 2 ^ i else 0) 0)
def predsOf (bs : List Byte) : List (Nat × W32) :=
  (List.range 7).foldl (fun m i =>
    mset 0 m i ((List.range 32).foldl (fun x j => if (nth 0 bs j).getLsbD i then x ||| BitVec.twoPow 32 j else x) 0)) []

/-- WSTATE. -/
def wstate (slot : Nat) (w : Warp) : Nat :=
  let wt := match w.wait with
    | .grow n => 2 ^ 48 + n % 8 * 2 ^ 45
    | .takeNew win _ => 2 ^ 44 + if win then 2 ^ 43 else 0
    | _ => 0
  slot * 2 ^ 58 + w.allot.length % 8 * 2 ^ 55 + w.frames.length % 32 * 2 ^ 50 + (if w.hmode then 2 ^ 49 else 0) + wt + (wmapOf w).toNat

/-- Masks of cores as 96 bits. -/
def coreMask (l : List Nat) : Nat := l.eraseDups.foldl (fun x c => x + 2 ^ c) 0
def coresOf (x : Nat) : List Nat := (List.range 96).filter (bitN x)

/-- Frames, oldest first. -/
def insertFrame (f : Frame) : List Frame → List Frame
  | [] => [f]
  | g :: t => if f.depth < g.depth then f :: g :: t else g :: insertFrame f t
def frameBytes (f : Frame) : List Byte :=
  ((List.range 32).flatMap fun j => leBytes 8 (if f.mask.getLsbD j then (mget (0 : W64) f.rets j).toNat else 0)) ++
  leBytes 4 f.mask.toNat ++ List.replicate 60 0

/-- The pieces of a warp area. -/
def warpPieces (g : Grid) (k : Core) (slot : Nat) (w : Warp) : List Piece :=
  let tiles := ((List.range w.allot.length).zip w.allot).map fun it =>
    (0x1000 * it.1, wordBytes ((List.range 1024).map fun i => k.tileWord it.2 (i / 32) (i % 32)))
  tiles ++ [
    (frontierAt g, frontierBytes g w.frontier),
    (0x6000, wordBytes ((List.range 64).map fun i => mget 0 w.g i)),
    (0x6100, (List.range 32).map (predByte w)),
    (0x6120, leBytes 8 (wstate slot w)),
    (0x6128, (List.range 8).map fun i => BitVec.ofNat 8 (w.tok i)),
    (0x6130, leBytes 4 w.trapcode.toNat),
    (0x6138, leBytes 8 w.trappc.toNat),
    (0x6140, leBytes 16 (if w.hmode then w.held.bits else 0)),
    (0x6150, (List.range 32).flatMap fun j => leBytes 8 (mget (0 : W64) w.trapinfo j).toNat),
    (0x6250, leBytes 16 (coreMask w.pmask)),
    (0x6400, (w.frames.foldr insertFrame []).flatMap frameBytes)]

/-! ### Contexts (R266) -/

/-- A snapshot entry: kind, destination, first row, rows, remaining cycles, value, data. -/
structure Snap where
  kind : Nat
  dest : Nat
  row0 : Nat := 0
  rows : Nat := 0
  seq : Nat := 0
  remain : Nat
  value : W64 := 0
  data : List Byte := []

/-- The bytes of a row, lanes that the result leaves alone as the tile holds them; the group notes which those are (05 R124). -/
def rowBytes (k : Core) (t r : Nat) (vals : List (Nat × W32)) : List Byte :=
  wordBytes ((List.range 32).map fun j => (mget? vals j).getD (k.tileWord t r j))

/-- Latched results as snapshot entries: rows of one result that follow one another are one entry. -/
def snapOf (k : Core) (l : List Snap) (p : Pend) : List Snap :=
  match p.w with
  | .tile t ws => l ++ [{ kind := 0, dest := t, remain := p.due, data := wordBytes ws }]
  | .row t r vals =>
    (match l.getLast? with
    | some e =>
      if e.kind == 1 && e.seq == p.seq && e.dest == t && e.row0 + e.rows == r then
        l.dropLast ++ [{ e with rows := e.rows + 1, data := e.data ++ rowBytes k t r vals }]
      else l ++ [{ kind := 1, dest := t, row0 := r, rows := 1, seq := p.seq, remain := p.due, data := rowBytes k t r vals }]
    | none => l ++ [{ kind := 1, dest := t, row0 := r, rows := 1, seq := p.seq, remain := p.due, data := rowBytes k t r vals }])
  | .a n v => l ++ [{ kind := 2, dest := n, remain := p.due, value := v }]
  | .hnd n h => l ++ [{ kind := 3, dest := n, remain := p.due, value := h.bits }]
  | _ => l
/-- The XLT of a frozen context is a handle result of five remaining cycles that names its page. -/
def frozenXlt (x : Ctx) : List Snap :=
  match x.state, x.kept with
  | .frozen, some (va, h) =>
    [{ kind := 3, dest := h, remain := 5, value := BitVec.ofNat 64 (2 ^ 63 + 2 ^ 61 + bitsN va.toNat 47 12 * 4096) }]
  | _, _ => []
def ctxSnaps (k : Core) (x : Ctx) : List Snap := x.snapshot.foldl (snapOf k) [] ++ frozenXlt x

/-- The data blocks that entries before the `i`-th use. -/
def blocksBefore (l : List Snap) (i : Nat) : Nat := ((l.take i).filter fun e => e.kind ≤ 1).length
def snapPieces (l : List Snap) : List Piece :=
  (List.range (min 48 l.length)).flatMap fun i => match l[i]? with
    | none => []
    | some e =>
      let d := blocksBefore l i
      let w := 2 ^ 63 + e.kind * 2 ^ 60 + e.dest * 2 ^ 50 + e.row0 * 2 ^ 45 + e.rows * 2 ^ 39 +
        (if e.kind ≤ 1 then d * 2 ^ 34 else 0) + e.remain % 16 * 2 ^ 29
      (0x500 + 16 * i, leBytes 8 w ++ leBytes 8 e.value.toNat) :: if e.kind ≤ 1 then [(0x4000 + 4096 * d, e.data)] else []

/-- The status word of a context as it is saved: a frozen context that a warp has stopped is saved as stopped. -/
def savedState (x : Ctx) : CState := if x.state == .frozen && x.sqstop then .stopped else x.state

def ctxStatusOf (x : Ctx) : Nat :=
  let st := match savedState x with | .stopped => 0 | .running => 1 | .frozen => 2 | .trapped => 3
  (if x.state == .trapped then x.trapcode.toNat else 0) * 2 ^ 40 + st * 2 ^ 37 + (if x.xretry then 2 ^ 32 else 0) + x.pos.toNat

/-- The pieces of a context area. -/
def ctxPieces (k : Core) (x : Ctx) : List Piece :=
  let level := fun (t : List (Nat × Level)) => (List.range 6).flatMap fun l => leBytes 32 (mget ({} : Level) t l).bits
  let xltr := match x.xretry, x.kept with
    | true, some (va, h) => leBytes 8 va.toNat ++ leBytes 8 (h % 16)
    | _, _ => List.replicate 16 0
  let x' := if savedState x == .frozen then x else { x with kept := none }
  snapPieces (ctxSnaps k x') ++ [
    (0x000, (List.range 64).flatMap fun i => leBytes 8 (mget (0 : W64) x.a i).toNat),
    (0x200, (List.range 16).flatMap fun i => leBytes 8 (mget ({} : Handle) x.h i).bits.toNat),
    (0x280, (List.range 8).map fun i => BitVec.ofNat 8 (x.tok i)),
    (0x288, leBytes 8 (ctxStatusOf x)),
    (0x290, leBytes 4 (min 4096 x.quantum)),
    (0x298, leBytes 16 (coreMask x.pmask)),
    (0x2A8, (List.range 5).flatMap fun i => leBytes 8 ((mget? x.hist i).getD 0).toNat),
    (0x2D0, xltr),
    (0x300, level x.cur),
    (0x3C0, level x.shadow),
    (0x480, leBytes 8 (match x.latch with
      | some l => 2 ^ 63 + (if l.sparse then 2 ^ 62 else 0) + l.fmt.toNat * 2 ^ 56
      | none => 0)),
    (0x2000, match x.latch with | some l => wordBytes l.words | none => [])]

/-! ### Header, traded tiles, copies (R264) -/

/-- Traded tiles of a group, in rising order; one that is given free and waits for its last result is among them. -/
def tradedOf (s : State) (gid : Nat) : List (Nat × Owner) :=
  (s.core (s.group gid).core).owners.filter fun o => 256 ≤ o.1 && o.2.gid == gid && o.2.st != .free
/-- The agent that waits in a TAKE of a tile, or 0x7F. Of several the word names the lowest warp slot, else the lowest context; the others
enter their TAKE again all the same (DESIGN CHOICE, log 29). -/
def takerOf (s : State) (gid t : Nat) : Nat :=
  let g := s.group gid
  match g.slots.find? fun w => match (s.warp g.core w).wait with | .take t' _ _ => t' == t | _ => false with
  | some w => w
  | none => match g.ctxs.find? fun k => (s.ctx g.core k).wait == .take t with
    | some k => 0x40 + k
    | none => 0x7F
def tradedWord (s : State) (gid : Nat) (dst : Nat × Owner) : Nat :=
  (dst.2.word (s.pendTo (s.group gid).core dst.1)).toNat * 2 ^ 32 + takerOf s gid dst.1 * 2 ^ 24 + dst.1

/-- Copies that are saved: timed ones and parked ones (07 R177). -/
def savedCopies (s : State) (gid : Nat) : List Copy :=
  (s.core (s.group gid).core).copies.filter fun x => x.gid == gid && (!x.started || x.parked)
/-- Lengths of the pieces that a copy writes in global memory, in order. -/
def putLens (x : Copy) : List Nat :=
  match x.tensor with
  | some t => if dDir x.desc == 1 then (tensorPieces t).map (·.2.2) else []
  | none => []
/-- Bytes that a copy has written: a DIR 0 TCPY writes all of its block at its end. -/
def copyWritten (x : Copy) : Nat := if x.tensor.isSome then sumOf ((putLens x).take x.done) else x.done
/-- The progress that a number of written bytes stands for; what a DIR 0 TCPY had read it has still. -/
def copyProgress (x : Copy) (n : Nat) : Nat :=
  if x.tensor.isNone then n
  else if dDir x.desc == 1 then ((List.range ((putLens x).length + 1)).filter fun k => sumOf ((putLens x).take k) ≤ n).length - 1
  else x.done
def copyBytes (x : Copy) : List Byte :=
  leBytes 32 x.desc.toNat ++ [BitVec.ofNat 8 (agentNo x.agent), BitVec.ofNat 8 x.tok, if x.tensor.isSome then 1 else 0,
    if x.started then 1 else 0, 0, 0, 0, 0] ++ leBytes 8 (copyWritten x)

/-- A mask of the positions in a list that satisfy a test. -/
def posMask (l : List Nat) (p : Nat → Bool) : Nat :=
  ((List.range l.length).zip l).foldl (fun x iw => x + if p iw.2 then 2 ^ iw.1 else 0) 0

/-- A group has arrived at a pending CBAR: every warp that has not finished waits there. -/
def atCbar (s : State) (gid : Nat) : Bool :=
  let g := s.group gid
  g.slots.any (fun w => (s.warp g.core w).wait == .cbar) &&
  g.slots.all fun w => (s.warp g.core w).frontier.isEmpty || (s.warp g.core w).wait == .cbar

def headerBits (s : State) (gid reason : Nat) : Nat :=
  let g := s.group gid
  let gr := s.gridOf gid
  g.core + coreMask g.ctxs * 2 ^ 20 + gr.nWarps * 2 ^ 24 + reason * 2 ^ 32 + (if atCbar s gid then 2 ^ 40 else 0) +
  (savedCopies s gid).length * 2 ^ 41 + (tradedOf s gid).length * 2 ^ 48 + posMask g.slots g.bar.contains * 2 ^ 64 +
  g.number * 2 ^ 96 + gr.kobj * 2 ^ 128 + s.now % 2 ^ 64 * 2 ^ 192

/-- The pieces of a group's area. -/
def savePieces (s : State) (gid reason : Nat) : List Piece :=
  let g := s.group gid
  let gr := s.gridOf gid
  let k := s.core g.core
  let shift := fun (o : Nat) (l : List Piece) => l.map fun p => (o + p.1, p.2)
  [(0, leBytes 32 (headerBits s gid reason)),
   (0x40, (tradedOf s gid).flatMap fun t => leBytes 8 (tradedWord s gid t)),
   (0x1100, (savedCopies s gid).flatMap copyBytes)] ++
  ((List.range g.slots.length).zip g.slots).flatMap (fun iw => shift (wBase iw.1) (warpPieces gr k iw.2 (s.warp g.core iw.2))) ++
  ((List.range g.ctxs.length).zip g.ctxs).flatMap (fun ik => shift (cBase gr ik.1) (ctxPieces k (s.ctx g.core ik.2))) ++
  [(sBase gr, (List.range gr.scratch).map fun i => mget 0 g.scratch i)]

/-! ### Reading an area back -/

/-- The owner field of a word (04 R84). -/
def ownerOf (x gid : Nat) : Owner :=
  { st := match bitsN x 31 29 with | 0 => .free | 1 => .seq | 2 => .warp | 3 => .offered | _ => .held,
    owner := bitsN x 28 22, dst := bitsN x 21 15, allot := bitN x 14, gid := gid }

def winOf (x : Nat) : Win := { valid := bitN x 15, pending := bitN x 14, tile := BitVec.ofNat 10 x }

/-- The entries of a frontier's bytes. -/
def entriesOf (n : Nat) (bs : List Byte) : List Entry :=
  ((List.range n).map fun i => fieldAt bs (16 * i) 16).filterMap fun x => if x == 0 then none else some (entryOf x)

/-- A frontier that obeys R60 and R65: the layout, the order, disjoint masks within the warp's lanes, no two entries of one PC and one
DEPTH, the unused entries zero. In handler mode an entry within held.MASK, which is the handler's, may have the PC and the DEPTH of one
outside (11 R253). -/
def frontierOk (g : Grid) (hmode : Bool) (held lanes : W32) (bs : List Byte) : Bool :=
  let n := 8 * cdiv g.frontier 8
  let es := entriesOf n bs
  let inside := fun (e : Entry) => hmode && e.mask &&& ~~~held == 0
  es.length ≤ g.frontier && zeroAt bs (16 * es.length) (16 * n) &&
  es.all (fun e => e.pc.extractLsb' 0 3 == 0 && e.mask != 0 && e.mask &&& ~~~lanes == 0 && e.depth ≤ g.callDepth + 512) &&
  ((List.range es.length).all fun i => fieldAt bs (16 * i + 6) 2 == 0) &&
  es.Pairwise fun a b => Entry.before b a = false ∧ a.mask &&& b.mask = 0 ∧
    (inside a ≠ inside b ∨ a.pc ≠ b.pc ∨ a.depth ≠ b.depth)

/-- The checks of a warp area (R263). -/
def warpAreaOk (g : Grid) (slot i : Nat) (lanes : W32) (img : List Byte) : Bool :=
  let ws := fieldAt img 0x6120 8
  let wm := bitsN ws 31 0
  let win := fun (x : Nat) => bitsN x 13 10 == 0 && !(bitN x 15 && bitN x 14) && (if bitN x 15 || bitN x 14 then accNum (bitsN x 9 0) else bitsN x 9 0 == 0)
  let held := fieldAt img 0x6140 16
  let heldOk := bitsN held 2 0 == 0 && bitsN held 63 48 == 0 && bitsN held 127 112 ≤ g.callDepth + 512 &&
    BitVec.ofNat 32 (bitsN held 95 64) &&& ~~~lanes == 0 && bitsN held 95 64 != 0
  let frame := fun (k : Nat) => zeroAt img (0x6400 + 320 * k + 0x104) (0x6400 + 320 * k + 320) &&
    BitVec.ofNat 32 (fieldAt img (0x6400 + 320 * k + 0x100) 4) &&& ~~~lanes == 0
  let alloc := bitsN ws 57 55
  bitsN ws 63 58 == slot && slot / 16 == i % 4 && g.tileInit ≤ alloc && alloc ≤ g.tileMax && bitsN ws 54 50 ≤ g.callDepth &&
  bitsN ws 42 32 == 0 && (if bitN ws 48 then decide (1 ≤ bitsN ws 47 45) && !bitN ws 44 else bitsN ws 47 45 == 0) &&
  bitsN ws 47 45 ≤ g.tileMax && (bitN ws 44 || !bitN ws 43) &&
  win wm && win (wm / 2 ^ 16) && frontierOk g (bitN ws 49) (BitVec.ofNat 32 (bitsN held 95 64)) lanes ((img.drop (frontierAt g)).take (128 * cdiv g.frontier 8)) &&
  ((img.drop 0x6100).take 32).all (fun b => !b.getLsbD 7) && ((img.drop 0x6128).take 8).all (fun b => b.toNat ≤ 63) &&
  zeroAt img (0x1000 * alloc) 0x6000 && zeroAt img 0x6134 0x6138 && zeroAt img 0x625C 0x6400 &&
  (if bitN ws 49 then heldOk else zeroAt img 0x6140 0x6150) && (List.range (bitsN ws 54 50)).all frame && zeroAt img (0x6400 + 320 * bitsN ws 54 50) 0x8000

/-- The frames of a warp area stand at the depths that were noted at the save (03 R75); without a note at the deepest ones that the
frontier implies. -/
def framesOf (noted : List Nat) (deepest n : Nat) (img : List Byte) : List Frame :=
  (List.range n).map fun i =>
    let bs := (img.drop (0x6400 + 320 * i)).take 320
    let m := BitVec.ofNat 32 (fieldAt bs 0x100 4)
    { depth := if noted.length == n then nth 0 noted i else deepest + 1 + i - n, mask := m, rets := (lanesOf m).map fun j => (j, BitVec.ofNat 64 (fieldAt bs (8 * j) 8)) }

/-- The warp of an area; its allotment tiles, and what it waits in. -/
def warpOf (s : State) (g : Grid) (gid i slot : Nat) (ts : List Nat) (real help : W32) (img : List Byte) : Warp :=
  let ws := fieldAt img 0x6120 8
  let es := entriesOf (8 * cdiv g.frontier 8) ((img.drop (frontierAt g)).take (128 * cdiv g.frontier 8))
  let live := es.foldl (fun m e => m ||| e.mask) 0
  let deepest := es.foldl (fun d e => max d e.depth) 0
  let n := bitsN ws 54 50
  let frames := framesOf (mget [] (s.group gid).depths slot) deepest n img
  { gid := gid, index := i, real := real, helper := help, allot := ts, frontier := es
    g := (List.range 64).foldl (fun m i => mset 0 m i (BitVec.ofNat 32 (fieldAt img (0x6000 + 4 * i) 4))) []
    preds := predsOf ((img.drop 0x6100).take 32)
    w0 := winOf (bitsN ws 15 0), w1 := winOf (bitsN ws 31 16)
    trapcode := BitVec.ofNat 32 (fieldAt img 0x6130 4)
    trapinfo := (List.range 32).foldl (fun m j => mset 0 m j (BitVec.ofNat 64 (fieldAt img (0x6150 + 8 * j) 8))) []
    trappc := BitVec.ofNat 64 (fieldAt img 0x6138 8)
    hmode := bitN ws 49, held := entryOf (fieldAt img 0x6140 16)
    tokens := (List.range 8).foldl (fun m t => mset 0 m t (nth 0 (img.drop 0x6128) t).toNat) []
    pmask := coresOf (fieldAt img 0x6250 12)
    frames := frames
    spilled := ((List.range deepest).map (· + 1)).filter fun d => frames.all fun f => f.depth != d
    exited := (real ||| help) &&& ~~~live
    nextIssue := s.now, placed := (s.cluster (s.group gid).cluster).placed, since := s.now }

/-- The checks of a context area of a kernel with `n` entries. A level in use starts at one of them (05 R101, R102). -/
def ctxAreaOk (n : Nat) (img : List Byte) : Bool :=
  let st := fieldAt img 0x288 8
  let latch := fieldAt img 0x480 8
  let level := fun (o : Nat) (shadow : Bool) => (List.range 6).all fun l =>
    let x := fieldAt img (o + 32 * l) 32
    bitsN x 49 48 == 0 && bitsN x 23 0 == 0 && bitsN x 51 50 != 3 && (!shadow || bitsN x 95 64 == 0) && (bitsN x 127 96 == 0 || decide (bitsN x 63 56 < n))
  let handle := fun (x : Nat) => bitsN x 57 48 == 0 && bitsN x 11 0 == 0 && bitsN x 60 58 ≤ 4 && (!bitN x 63 || bitN x 61) &&
    handleVa (handleOf x) % handleBytes (handleOf x) == 0
  let snap := fun (i : Nat) =>
    let w := fieldAt img (0x500 + 16 * i) 8
    let kind := bitsN w 62 60
    let dest := bitsN w 59 50
    bitsN w 28 0 == 0 && (!bitN w 63 || (kind ≤ 3 && 1 ≤ bitsN w 33 29 && bitsN w 33 29 ≤ 14 &&
      (if kind ≤ 1 then accNum dest else decide (dest < if kind == 2 then 64 else 16)) &&
      (kind != 1 || (1 ≤ bitsN w 44 39 && bitsN w 49 45 + bitsN w 44 39 ≤ 32)) && (2 ≤ kind || bitsN w 38 34 ≤ 27) &&
      (kind != 3 || handle (fieldAt img (0x508 + 16 * i) 8))))
  ((img.drop 0x280).take 8).all (fun b => b.toNat ≤ 63) && bitsN st 63 48 == 0 && bitsN st 36 33 == 0 && bitsN st 39 37 ≤ 3 &&
  (bitsN st 39 37 == 3 || (bitsN st 47 40 == 0 && !bitN st 32)) && fieldAt img 0x290 4 ≤ 4096 &&
  level 0x300 false && level 0x3C0 true && (List.range 16).all (fun i => handle (fieldAt img (0x200 + 8 * i) 8)) &&
  bitsN latch 61 60 == 0 && bitsN latch 55 0 == 0 && bitsN latch 59 56 ≤ 5 && (List.range 48).all snap &&
  zeroAt img 0x294 0x298 && zeroAt img 0x2A4 0x2A8 && zeroAt img 0x2E0 0x300 && zeroAt img 0x488 0x500 &&
  zeroAt img 0x800 0x2000 && bitsN (fieldAt img 0x2D8 8) 63 4 == 0 && (bitN st 32 || zeroAt img 0x2D0 0x2E0)

/-- Lanes that the latched rows of a context write, in their order. -/
def rowLanes (l : List Pend) : List (List Nat) :=
  l.filterMap fun p => match p.w with | .row _ _ vals => some (vals.map (·.1)) | _ => none
/-- Restored rows write the lanes noted at the save. -/
def narrowRows : List (List Nat) → List Pend → List Pend
  | _, [] => []
  | ls, p :: t => match p.w with
    | .row tl r vals => (match ls with
      | lanes :: ls => { p with w := Write.row tl r (vals.filter fun v => lanes.contains v.1) } :: narrowRows ls t
      | [] => p :: narrowRows [] t)
    | _ => p :: narrowRows ls t

/-- The results that a snapshot entry holds; `due` keeps the remaining cycles. -/
def snapWrites (a : Issuer) (seq : Nat) (img : List Byte) (i : Nat) : List Pend :=
  let w := fieldAt img (0x500 + 16 * i) 8
  let v := fieldAt img (0x508 + 16 * i) 8
  let dest := bitsN w 59 50
  let data := (img.drop (0x4000 + 4096 * bitsN w 38 34)).take 4096
  let p := fun (x : Write) => ({ agent := a, due := bitsN w 33 29, seq := seq + i, w := x } : Pend)
  if !bitN w 63 then []
  else match bitsN w 62 60 with
    | 0 => [p (.tile dest (bytesWords 1024 data))]
    | 1 => (List.range (bitsN w 44 39)).map fun r =>
        p (.row dest (bitsN w 49 45 + r) ((List.range 32).zip (bytesWords 32 ((data.drop (128 * r)).take 128))))
    | 2 => [p (.a dest (BitVec.ofNat 64 v))]
    | _ => [p (.hnd dest (handleOf v))]

/-- The context of an area: its handles are still to be translated; results that land, or stay latched in a freeze. -/
def ctxAreaOf (s : State) (gid k core : Nat) (img : List Byte) : Ctx :=
  let st := fieldAt img 0x288 8
  let state : CState := match bitsN st 39 37 with | 0 => .stopped | 1 => .running | 2 => .frozen | _ => .trapped
  let levels := fun (o : Nat) => (List.range 6).map fun l => (l, levelOfBits (fieldAt img (o + 32 * l) 32))
  let read := (List.range 48).flatMap (snapWrites (.ctx core k) s.nextId img)
  let noted := mget [] (s.group gid).rowMasks k
  let snaps := if noted.length == (rowLanes read).length then narrowRows noted read else read
  let last := snaps.getLast?
  -- the entry holds the page; the address in it is the one noted at the save
  let full := fun (x : Handle) => match mget? (s.group gid).xltVas k with
    | some va => if va.toNat / 4096 * 4096 == handleVa x then va else BitVec.ofNat 64 (handleVa x)
    | none => BitVec.ofNat 64 (handleVa x)
  let xlt := match state, last with
    | .frozen, some p => (match p.w with | .hnd h x => some (full x, h) | _ => none)
    | _, _ => none
  let kept := if bitN st 32 then some (BitVec.ofNat 64 (fieldAt img 0x2D0 8), fieldAt img 0x2D8 8 % 16) else xlt
  let latch := fieldAt img 0x480 8
  { bound := true, gid := gid
    a := (List.range 64).foldl (fun m i => mset 0 m i (BitVec.ofNat 64 (fieldAt img (8 * i) 8))) []
    h := (List.range 16).foldl (fun m i => mset {} m i (handleOf (fieldAt img (0x200 + 8 * i) 8))) []
    tokens := (List.range 8).foldl (fun m t => mset 0 m t (nth 0 (img.drop 0x280) t).toNat) []
    state := state, trapcode := BitVec.ofNat 8 (bitsN st 47 40), xretry := bitN st 32, pos := BitVec.ofNat 32 st
    hist := (List.range 5).filterMap fun i =>
      let w := fieldAt img (0x2A8 + 8 * i) 8
      if w == 0 then none else some (i, BitVec.ofNat 64 w)
    cur := levels 0x300, shadow := levels 0x3C0
    latch := if bitN latch 63 then
        (let n := if bitN latch 62 then 2048 else 1024
         some ⟨BitVec.ofNat 4 (bitsN latch 59 56), bitN latch 62, bytesWords n (img.drop 0x2000)⟩) else none
    snapshot := if xlt.isSome then snaps.dropLast else snaps
    kept := kept, quantum := fieldAt img 0x290 4, pmask := coresOf (fieldAt img 0x298 12)
    nextIssue := s.now, edge := state == .running }

/-- The checks of the header, its tiles and its copies (R263). -/
def headerOk (s : State) (gid : Nat) (img : List Byte) : Bool :=
  let g := s.group gid
  let gr := s.gridOf gid
  let x := fieldAt img 0 32
  let nt := bitsN x 57 48
  let nc := bitsN x 47 41
  let tile := fun (i : Nat) =>
    let w := fieldAt img (0x40 + 8 * i) 8
    let o := (s.core g.core).owner (bitsN w 9 0)
    let agent := fun (a : Nat) => g.slots.contains a || (0x40 ≤ a && g.ctxs.contains (a - 0x40))
    let st := bitsN w 63 61
    let owner := bitsN w 60 54
    bitsN w 23 10 == 0 && accNum (bitsN w 9 0) && o.st == .held && o.gid == gid && st ≤ 3 && 1 ≤ st && agent owner &&
    (st == 3 || (if st == 1 then decide (0x40 ≤ owner) else decide (owner < 0x40))) &&
    (if st == 3 then agent (bitsN w 53 47) else bitsN w 53 47 == 0x7F) && bitsN w 45 40 == 0 && !bitN w 46 &&
    (bitsN w 31 24 == 0x7F || agent (bitsN w 31 24))
  let copy := fun (i : Nat) =>
    let b := fun (o : Nat) => fieldAt img (0x1100 + 48 * i + o) 1
    let d := BitVec.ofNat 256 (fieldAt img (0x1100 + 48 * i) 32)
    b 0x21 < 8 && b 0x22 ≤ 1 && b 0x23 ≤ 1 && !dRsvd d && dDir d ≤ 2 && (b 0x22 == 0 || dDir d ≤ 1) &&
    (b 0x22 == 1 || (16 ≤ dLen d && dLen d ≤ 2 ^ 24 && dLen d % 16 == 0 && fieldAt img (0x1100 + 48 * i + 0x28) 8 ≤ dLen d)) && zeroAt img (0x1100 + 48 * i + 0x24) (0x1100 + 48 * i + 0x28) &&
    (g.slots.contains (b 0x20) || (0x40 ≤ b 0x20 && g.ctxs.contains (b 0x20 - 0x40)))
  bitsN x 15 0 == g.core && bitsN x 19 16 == 0 && bitsN x 23 20 == coreMask g.ctxs && bitsN x 31 24 == gr.nWarps &&
  1 ≤ bitsN x 39 32 && bitsN x 39 32 ≤ 3 && nc ≤ 64 && nt ≤ 512 && bitsN x 63 58 == 0 && bitsN x 95 64 < 2 ^ gr.nWarps &&
  bitsN x 127 96 == g.number && bitsN x 191 128 == gr.kobj && zeroAt img 0x20 0x40 && zeroAt img (0x40 + 8 * nt) 0x1100 &&
  zeroAt img (0x1100 + 48 * nc) 0x2000 && (List.range nt).all tile && (List.range nc).all copy

end Sys2Proof.Machine
end

