-- ==== Sys2Proof/Machine/Save.lean ====
section
/-! DEFINITION. Swapping out, pre-emption for priority, suspension and restore (03 R75; 04 R91; 05 R106, R112, R113, R124;
07 R177; 08 R194; 10 R243 to R246; 11 R257 to R266). -/

namespace Sys2Proof.Machine

/-! ### When a group may be saved (05 R106; 07 R177; 11 R259) -/

/-- A context stands where it may be saved. A REDEEM of its bundle that has claimed its entry lands its data first (08 R194). -/
def ctxSavable (s : State) (c k : Nat) : Bool :=
  let x := s.ctx c k
  match x.state with
  | .running => (match x.wait with | .answered _ => false | _ => true) &&
      s.tkreqs.all (fun r => r.2.agent != .ctx c k || r.2.drop || r.2.data.isNone) && (ctxAtPoint x || ctxStalled s c k)
  | _ => true

/-- Nothing that must land before a save is outstanding (R259; 04 R91, DEDUCED, log 28). -/
def saveQuiet (s : State) (gid : Nat) : Bool :=
  let g := s.group gid
  let k := s.core g.core
  let mine := s.agentsOf gid
  let warps := g.slots.map (Issuer.warp g.core)
  k.pend.all (fun p => !warps.contains p.agent) && k.vars.all (fun v => !mine.contains v.agent || v.isLdt || v.isRing) &&
  k.copies.all (fun x => x.gid != gid || !x.started || x.parked) && s.colls.all (fun x => !mine.contains x.agent) &&
  g.ctxs.all (ctxSavable s g.core)

/-! ### Saving -/

/-- Results that no snapshot entry can hold land at the save (DESIGN CHOICE, log 29). -/
def Write.latches : Write → Bool
  | .tile _ _ | .row _ _ _ | .a _ _ | .hnd _ _ => true
  | _ => false

/-- A context's results in flight are latched with their remaining cycles (R259; 05 R113), counted from the first cycle that the save takes
from the context: the one after, where it has issued in this cycle. A result that lands by then lands now. -/
def latchCtx (s : State) (c k : Nat) : State :=
  let me := Issuer.ctx c k
  let first := if s.now < (s.ctx c k).nextIssue then s.now + 1 else s.now
  let mine := ((s.core c).pend.filter fun p => p.agent == me).foldr insertPend []
  let s := s.modCore c fun q => { q with pend := q.pend.filter fun p => p.agent != me }
  let all := (s.ctx c k).snapshot ++ mine.map fun p => { p with due := p.due - first }
  let stays := fun (p : Pend) => p.w.latches && p.due != 0
  let s := (all.filter fun p => !stays p).foldl (fun s p => s.land p.agent p.w) s
  s.modCtx c k fun x => { x with snapshot := all.filter stays }

/-- A group whose agents carry a release of FENCE performs it before it is saved (DESIGN CHOICE, log 29). -/
def drainCarried (s : State) (gid : Nat) : State :=
  let g := s.group gid
  if g.slots.any (fun w => !(s.warp g.core w).carried.isEmpty) || g.ctxs.any (fun k => (s.ctx g.core k).carried.isSome)
  then s.eager g.core 4 else s

/-- Write pieces at a base; the first access that fails ends it. -/
def writePieces (n base : Nat) : List Piece → State → UX × State
  | [], s => (.ok, s)
  | p :: t, s =>
    match unitWrite s n (base + p.1) p.2 with
    | (.ok, s) => writePieces n base t s
    | r => r

/-- A waiter of a page is an agent of the group, or a ticket entry for which a REDEEM of the group waits. -/
def waitsFor (s : State) (gid : Nat) (w : Waiter) : Bool :=
  match w with
  | .ticket sl e => (s.ticket (tkKey sl e)).waiters.any fun id => s.tkreqs.any fun r => r.1 == id && s.gidOf r.2.agent == gid
  | _ => waiterGroup s w == some gid
/-- Leaf addresses of the pages that a group's agents wait for (R245), those whose requests have not come to their pager too; a page that
is being evicted is awaited as well. -/
def awaited (s : State) (gid : Nat) : List Nat :=
  let flights := s.inflight.filterMap fun x => if x.2.waiters.any (waitsFor s gid) then some x.1.2 else none
  let asked := fun (n : Nat) (va : W64) (w : Waiter) =>
    if waitsFor s gid w then (match walk s n va.toNat with | .page key _ _ _ _ => some key | _ => none) else none
  let queued := s.pagerQueue.filterMap fun q => asked q.2.1 q.2.2.1 q.2.2.2.1
  let coming := s.agenda.filterMap fun e => match e with | .pagerRequest n va w => asked n va w | _ => none
  (flights ++ queued ++ coming).eraseDups

/-- Requests of a group's agents become requests of agents away: they leave their slots. -/
def regroup (s : State) (gid : Nat) : State :=
  let dst := fun (w : Waiter) => match w with
    | .warp _ k => if waiterGroup s w == some gid then Waiter.away gid k else w
    | .ctx _ k => if waiterGroup s w == some gid then Waiter.away gid (0x40 + k) else w
    | _ => w
  let ev := fun (e : Instr) => match e with | .pagerRequest n va w => Instr.pagerRequest n va (dst w) | _ => e
  { s with
    inflight := s.inflight.map fun x => (x.1, { x.2 with waiters := (x.2.waiters.map dst).eraseDups })
    pagerQueue := s.pagerQueue.map fun q => (q.1, q.2.1, q.2.2.1, dst q.2.2.2.1, q.2.2.2.2)
    agenda := s.agenda.map ev }

/-- The resources of a saved group are freed; its traded tiles are HELD under their numbers (04 R91). -/
def vacate (s : State) (gid : Nat) : State :=
  let g := s.group gid
  let c := g.core
  let mine := s.agentsOf gid
  let traded := (tradedOf s gid).map (·.1)
  let allot := g.slots.flatMap fun w => (s.warp c w).allot
  let s := (regroup s gid).withdraw mine
  let s := s.modCore c fun k => { k with
    pend := k.pend.filter fun p => !mine.contains p.agent
    vars := k.vars.filter fun v => !mine.contains v.agent
    queue := k.queue.filter fun q => !mine.contains q.1
    copies := k.copies.filter fun x => x.gid != gid }
  let s := traded.foldl (fun s t => s.modCore c fun k => k.setOwner t { st := .held, gid := gid }) s
  let s := allot.foldl (fun s t => s.modCore c fun k => k.setOwner t {}) s
  let s := g.ctxs.foldl (fun s k => s.delCtx c k) (g.slots.foldl (fun s w => s.delWarp c w) s)
  let s := { s with
    ldtWaits := s.ldtWaits.filter fun x => (s.core x.core).vars.any fun v => v.id == x.id
    ringWaits := s.ringWaits.filter fun r => !mine.contains r.agent }
  let alone := s.groups.all fun x => x.1 == gid || x.2.core != c || x.2.phase == .gone ||
    (match x.2.phase with | .saved _ => true | _ => false)
  let s := if alone then s.modCore c fun k => { k with split := 524288 } else s
  ((s.push (.growGrant c)).push (.takeNewGrant c)).retryPlacement (s.partOf gid)

/-- Poison of a group's tiles and scratchpad travels to its area (07 R161): offsets of the poisoned chunks. -/
def poisonedAt (s : State) (gid : Nat) : List Nat :=
  let g := s.group gid
  let pos := fun (t : Nat) => ((List.range g.slots.length).zip g.slots).findSome? fun iw =>
    ((s.warp g.core iw.2).allot.idxOf? t).map fun i => wBase iw.1 + 0x1000 * i
  s.poison.filterMap fun p => match p with
    | .tile c t k => if c == g.core then (pos t).map (· + 64 * k) else none
    | .scratch x k => if x == gid then some (sBase (s.gridOf gid) + 64 * k) else none
    | _ => none
def carryPoison (s : State) (gid : Nat) (base : Nat) (l : List Nat) : State :=
  let n := s.partOf gid
  let s := l.foldl (fun s o => match (xlateUnit s n (base + o) .r).1 with
    | .ok pa _ _ => s.addPoison [.mem (pa / 64)]
    | _ => s) s
  s.delPoison fun p => match p with | .scratch x _ => x == gid | _ => false

/-- A save area that cannot be accessed aborts the grid (R246). -/
def saveFail (s : State) (gid : Nat) (r : FRec) : State :=
  let g := s.group gid
  let r := { r with source := 3, cls := 3, kobj := (s.grid g.grid).kobj, group := g.number, core := g.core }
  (postRecord s (s.partOf gid) r).abortGrid g.grid

/-- The state of a quiet group goes to its area, and its resources are freed. -/
def saveGroup (s0 : State) (gid reason : Nat) : State :=
  let g := s0.group gid
  let n := s0.partOf gid
  let s := drainCarried (g.ctxs.foldl (fun s k => latchCtx s g.core k) s0) gid
  let base := areaVa s gid
  let pieces := (0, List.replicate (gSize (s.gridOf gid)) (0 : Byte)) :: savePieces s gid reason
  match writePieces n base pieces s with
  | (.page va, _) => s0.push (.pagerRequest n (BitVec.ofNat 64 va) (.group gid))
  | (.bad f va, _) => saveFail s0 gid (unitRec 3 1 f va)
  | (.poison pa, _) => saveFail s0 gid (poisonRec 3 pa)
  | (.ok, s1) =>
    let aw := awaited s gid
    let mine := s.agentsOf gid
    -- a waiting LDT is saved as not yet issued (08 R194)
    let ldts := ((s.core g.core).vars.filter fun v => mine.contains v.agent && v.isLdt).map fun v => match v.body with
      | .ldt va size d tr _ => { v with body := VarBody.ldt va size d tr none }
      | _ => v
    -- so is a reservation or take that waits at its ring (17 R424)
    let rings := (s.core g.core).vars.filter fun v => mine.contains v.agent && v.isRing
    let reqs := s.ringWaits.filter fun r => mine.contains r.agent
    let waitks := g.ctxs.filterMap fun k => match (s.ctx g.core k).wait with | .waitk m => some (k, m) | _ => none
    let held := (tradedOf s gid).map fun t => (t.1, t.2, takerOf s gid t.1)
    let depths := g.slots.map fun w => (w, ((s.warp g.core w).frames.foldr insertFrame []).map (·.depth))
    let masks := g.ctxs.map fun k => (k, rowLanes (s.ctx g.core k).snapshot)
    let takes := g.slots.filterMap fun w => match (s.warp g.core w).wait with
      | .take t win act => some (w, Wait.take t win act)
      | .takeNew win d => some (w, Wait.takeNew win d)
      | _ => none
    let xlts := g.ctxs.filterMap fun k => match (s.ctx g.core k).state, (s.ctx g.core k).kept with
      | .frozen, some (va, _) => some (k, va)
      | _, _ => none
    let copies := savedCopies s gid
    let arrived := atCbar s gid
    let s2 := (vacate (carryPoison s1 gid base (poisonedAt s gid)) gid).modGroup gid fun x => { x with
      phase := .saved reason, awaits := aw, ready := false, savedTiles := held, ldts := ldts, copies := copies, rings := rings, ringReqs := reqs,
      waitks := waitks, depths := depths, rowMasks := masks, takes := takes, xltVas := xlts, cbar := arrived, scratch := [] }
    s2.push (.cbarComplete g.cluster)

/-! ### Swapping out (10 R244) -/

/-- An agent of the group waits on the pager. -/
def waitsOnPager (s : State) (gid : Nat) : Bool :=
  let g := s.group gid
  g.slots.any (fun w => (s.warp g.core w).wait == .page) ||
  g.ctxs.any (fun k => (s.ctx g.core k).state == .frozen || (s.ctx g.core k).wait == .page) ||
  s.tkreqs.any fun r => s.gidOf r.2.agent == gid && s.tickets.any fun t => t.2.st == .waitpage && t.2.waiters.contains r.1

/-- The cores on which the held-back cluster of a grid would be placed: all clusters of a CORES = 1 grid at once (R43, R44, R46). -/
def placePlan (s : State) (n gr : Nat) : Option (List Nat) :=
  let g := s.grid gr
  if g.coRes then
    (placeMany n gr (g.nClusters - g.nextCluster) s).map fun t =>
      (t.groups.filter fun x => x.2.grid == gr && (mget? s.groups x.1).isNone).map (·.2.core)
  else chooseCores s n g

/-- A held-back cluster of the partition would be placed with a rank on the group's core if the group were gone. -/
def wouldHelp (s : State) (gid : Nat) : Bool :=
  let n := s.partOf gid
  let t := s.freeGroup gid
  (s.part n).held.any fun h => match mget? (s.part n).placing h.1 with
    | some gr => (match placePlan t n gr with | some cs => cs.contains (s.group gid).core | none => false)
    | none => false

/-- No group of a core is being saved. -/
def noneSaving (s : State) (c : Nat) : Bool :=
  s.groups.all fun g => g.2.core != c || (match g.2.phase with | .saving _ => false | _ => true)

/-- GROUP_SWAP_OUT: a swap begins where R244 allows it; a save that has begun ends once the group is quiet. -/
def groupSwapOut (s : State) (gid : Nat) : State :=
  match mget? s.groups gid with
  | none => s
  | some g =>
    match g.phase with
    | .resident =>
      if waitsOnPager s gid && !(s.gridOf gid).coRes && noneSaving s g.core && wouldHelp s gid then
        (s.modGroup gid fun x => { x with phase := .saving 1 }).push (.groupSwapOut gid)
      else s
    | .saving r => if saveQuiet s gid then saveGroup s gid r else s
    | _ => s
def execGroupSwapOut (gid : Nat) (s : State) : Out3 := runEvent (fun s => groupSwapOut s gid) s

/-- A resident group begins to be saved. -/
def beginSave (reason : Nat) (s : State) (gid : Nat) : State :=
  match (s.group gid).phase with
  | .resident => (s.modGroup gid fun x => { x with phase := .saving reason }).push (.groupSwapOut gid)
  | .saving _ => s.modGroup gid fun x => { x with phase := .saving reason }
  | .saved _ => if reason == 2 then s else s.modGroup gid fun x => { x with phase := .saved reason, ready := false }
  | .gone => s

/-! ### Pre-emption for priority (R260) -/

/-- Groups of a cluster that are not gone. -/
def liveGroups (s : State) (cl : Nat) : List Nat :=
  (s.cluster cl).groups.filter fun g => (s.group g).phase != .gone
/-- Insert a cluster before the first that it precedes. -/
def insertCluster (before : (Nat × Cluster) → (Nat × Cluster) → Bool) (x : Nat × Cluster) : List (Nat × Cluster) → List (Nat × Cluster)
  | [] => [x]
  | y :: t => if before x y then x :: y :: t else y :: insertCluster before x t
/-- Clusters of a partition that may be saved for a priority: the highest PRIO number first, then the most recently placed. -/
def preemptable (s : State) (n p : Nat) : List Nat :=
  let ok := fun (cl : Nat × Cluster) =>
    let g := s.grid cl.2.grid
    g.part == n && p < g.prio && !g.coRes && !g.aborted && !(liveGroups s cl.1).isEmpty &&
    (liveGroups s cl.1).any fun x => (s.group x).phase == .resident
  let before := fun (a b : Nat × Cluster) =>
    let pa := (s.grid a.2.grid).prio
    let pb := (s.grid b.2.grid).prio
    pb < pa || (pa == pb && (b.2.placed < a.2.placed || (b.2.placed == a.2.placed && b.1 < a.1)))
  ((s.clusters.filter ok).foldr (insertCluster before) []).map (·.1)
/-- The state with clusters saved: their resident groups leave their cores. -/
def without (s : State) (cls : List Nat) : State :=
  cls.foldl (fun s cl => ((liveGroups s cl).filter fun g => (s.group g).phase == .resident).foldl (fun s g => s.freeGroup g) s) s

/-- PRIORITY_PREEMPT of the cluster held back at the head of a launch ring. -/
def priorityPreempt (s : State) (n r : Nat) : State :=
  match mget? (s.part n).placing r, mget? (s.part n).held r with
  | some gr, some since =>
    if s.now < since + 4096 || (s.part n).state != 1 then s
    else
      let cand := preemptable s n (s.grid gr).prio
      -- groups that are being saved leave their cores without more
      let base := (s.groups.filter fun g => match g.2.phase with | .saving _ => true | _ => false).foldl (fun t g => t.freeGroup g.1) s
      let plan := (List.range (cand.length + 1)).findSome? fun m =>
        (placePlan (without base (cand.take m)) n gr).map fun cs => (m, cs)
      match plan with
      | none => s
      | some (m, cs) =>
        let take := (cand.take m).filter fun cl => (liveGroups s cl).any fun g => cs.contains (s.group g).core
        (take.flatMap (liveGroups s)).foldl (beginSave 2) s
  | _, _ => s
def execPriorityPreempt (part ring : Nat) (s : State) : Out3 := runEvent (fun s => priorityPreempt s part ring) s

/-! ### Readiness and restore (10 R245; 11 R260) -/

/-- The group's slots, contexts and scratchpad are free on its core. -/
def restoreRoom (s : State) (g : Group) (gr : Grid) : Bool :=
  g.slots.all (fun w => (s.warp? g.core w).isNone) && g.ctxs.all (fun k => !(s.ctx g.core k).bound) &&
  (scratchPlace s g.core gr.scratch).isSome

/-- Handles are translated again (05 R112): the handle, a page that is awaited, or a class-3 fault. -/
inductive HX where
  | ok (h : Handle)
  | page (va : Nat)
  | fatal (f : XFault) (va : Nat)
def rehandle (s : State) (c n : Nat) (h : Handle) : HX × State :=
  if !h.v then (.ok h, s)
  else match xlate s c n (handleVa h) .r with
    | (.ok _ _ t, s) => (.ok (handleFrom s n t), s)
    | (.page _ va _ _, s) => (.page va, s)
    | (.bad f, s) => (if f.cls == 3 then .fatal f (handleVa h) else .ok { h with v := false }, s)

/-- A restore in progress: the state, or what stops it. -/
inductive RX where
  | ok (s : State)
  | page (va : Nat)
  | fatal (f : XFault) (va : Nat)

/-- A write of a snapshot with its handle translated again. -/
def rehandleWrite (c n : Nat) (p : Pend) (s : State) : HX × State :=
  match p.w with
  | .hnd _ h => rehandle s c n h
  | _ => (.ok {}, s)

/-- The handles of a context, registers and snapshot. -/
def rehandleCtx (c n k : Nat) (s : State) : RX :=
  let regs := (s.ctx c k).h.foldl (fun (r : RX) kh => match r with
    | .ok s => (match rehandle s c n kh.2 with
      | (.ok h, s) => .ok (s.modCtx c k fun x => { x with h := mset {} x.h kh.1 h })
      | (.page va, _) => .page va
      | (.fatal f va, _) => .fatal f va)
    | r => r) (.ok s)
  (s.ctx c k).snapshot.foldl (fun (r : RX) p => match r, p.w with
    | .ok s, .hnd m _ => (match rehandleWrite c n p s with
      | (.ok h, s) => .ok (s.modCtx c k fun x => { x with
          snapshot := x.snapshot.map fun q => if q.seq == p.seq then { q with w := Write.hnd m h } else q })
      | (.page va, _) => .page va
      | (.fatal f va, _) => .fatal f va)
    | r, _ => r) regs

/-- One warp comes back to its slot; a waiting GROW or TAKE.new rejoins the tail of the queue (02 R48; 04 R91). The g register of a TAKE.new
is the one noted at the save; one that the image alone names is fetched again (00 R13). -/
def restoreWarp (c gid : Nat) (gr : Grid) (img : List Byte) (s : State) (iw : Nat × Nat) : State :=
  let a := (img.drop (wBase iw.1)).take 0x8000
  let ws := fieldAt a 0x6120 8
  let w := iw.2
  let ts := (freeGeneral s c).take (bitsN ws 57 55)
  let x := warpOf s gr gid iw.1 w ts (realMask gr.threads iw.1) (helperMask gr.threads iw.1) a
  let s := (ts.foldl (allotTile c w gid) s).setWarp c w { x with nextIssue := s.now + 1 }
  let s := ((List.range ts.length).zip ts).foldl (fun s it =>
    s.modCore c fun k => ((List.range 1024).zip (bytesWords 1024 ((a.drop (0x1000 * it.1)).take 4096))).foldl
      (fun k jv => k.setWord it.2 (jv.1 / 32) (jv.1 % 32) jv.2) k) s
  let queue := fun (s : State) (n : Nat) (wt : Wait) =>
    (s.modCore c fun k => { k with queue := k.queue ++ [(Issuer.warp c w, n)] }).modWarp c w fun x => { x with wait := wt }
  if bitN ws 48 then queue s (bitsN ws 47 45) (.grow (bitsN ws 47 45))
  else if bitN ws 44 then
    match mget? (s.group gid).takes w, (fetchWarp s c w).1 with
    | some (.takeNew _ d), _ => queue s 0 (.takeNew (bitN ws 43) d)
    | _, .takeNew _ f => queue s 0 (.takeNew (bitN ws 43) f.d.toNat)
    | _, _ => s
  else s

/-- One context comes back: latched results land at their distance from the first cycle after the restore (05 R124). -/
def restoreCtx (c gid n : Nat) (gr : Grid) (img : List Byte) (r : RX) (ik : Nat × Nat) : RX :=
  match r with
  | .ok s =>
    let k := ik.2
    let x := ctxAreaOf s gid k c ((img.drop (cBase gr ik.1)).take 0x20000)
    let s := { s.setCtx c k { x with nextIssue := s.now + 1, snapshot := x.snapshot } with nextId := s.nextId + 64 }
    (match rehandleCtx c n k s with
    | .ok s =>
      let y := s.ctx c k
      let wk := ((s.group gid).waitks.find? fun q => q.1 == k).map (·.2)
      let s := s.modCtx c k fun z => { z with wait := match wk with | some m => .waitk m | none => .none }
      if y.state == .frozen then .ok (s.push (.contextUnfreeze c k))
      else
        let snap := y.snapshot.map fun p => { p with due := s.now + 1 + p.due }
        .ok ((s.modCore c fun q => { q with pend := q.pend ++ snap }).modCtx c k fun z => { z with snapshot := [] })
    | e => e)
  | e => e

/-- The copies of a group come back (07 R177). The record has no place for a TCPY's tensor record, for the scope of the bundle and for a
handle's frame: these come from what the group keeps (DESIGN CHOICE, log 29). A handle is translated again (05 R112), and D is set before
a write through it (05 R110); one whose page is no longer there keeps its frame, which no shootdown frees before the copy has ended. -/
def restoreCopy (c gid : Nat) (img : List Byte) (s : State) (i : Nat) : State :=
  let o := 0x1100 + 48 * i
  let d := BitVec.ofNat 256 (fieldAt img o 32)
  let a := agentOf c (fieldAt img (o + 0x20) 1)
  let parked := fieldAt img (o + 0x23) 1 == 1
  let old := (s.group gid).copies[i]?
  let (hnd, s) : Option Handle × State := match old.bind (·.hnd) with
    | none => (none, s)
    | some h => match rehandle s c (s.partOf gid) h with
      | (.ok h', s') => (some (if h'.v then h' else h), s')
      | _ => (some h, s)
  let s := match hnd with | some h => if dDir d == 1 then s.handleDirty h else s | none => s
  let x : Copy := { id := (old.map (·.id)).getD s.fresh, agent := a, gid := gid, tok := fieldAt img (o + 0x21) 1, desc := d,
                    tensor := if fieldAt img (o + 0x22) 1 == 1 then (old.bind (·.tensor)).or (tensorRec s gid d) else none, hnd := hnd
                    scope := (old.map (·.scope)).getD 2, got := (old.map (·.got)).getD [], clash := (old.map (·.clash)).getD []
                    started := parked, startedAt := s.now, parked := parked, waiting := false, done := (old.map (·.done)).getD 0 }
  let x := { x with done := copyProgress x (fieldAt img (o + 0x28) 8) }
  (s.modCore c fun k => { k with copies := k.copies ++ [x] }).bump

/-- The waiting TAKEs of a tile are entered again (04 R91): each warp or context waits for the tile as before. A warp that the image alone
names has its TAKE fetched again (00 R13). -/
def reenterTake (c gid : Nat) (s : State) (word : Nat) : State :=
  let t := bitsN word 9 0
  let noted := (s.group gid).takes.filter fun kw => match kw.2 with | .take t' _ _ => t' == t | _ => false
  let s := noted.foldl (fun s kw =>
    (s.modWarp c kw.1 fun x => { x with wait := kw.2, since := s.now }).push (.takeComplete c kw.1)) s
  let s : State := match agentOf c (bitsN word 31 24) with
    | .warp _ w =>
      if noted.any fun kw => kw.1 == w then s
      else (match (fetchWarp s c w).1, (s.warp c w).first with
      | .take h f, some e => let v := viewOf s c w (s.warp c w) e h; blockOn v (.take t f.win v.real) s
      | _, _ => s)
    | .ctx _ k => if (s.ctx c k).state == .running then s.modCtx c k fun x => { x with wait := .take t, since := s.now } else s
    | .none => s
  s.push (.takeComplete c (bitsN word 31 24))

/-- The owner field of a traded tile comes back. That GIVE.free has given it, and the number of its GIVE, the group has noted (04 R87, R90). -/
def restoreTile (gid : Nat) (k : Core) (noted : List (Nat × Owner × Nat)) (word : Nat) : Core :=
  let o := ownerOf (bitsN word 63 32) gid
  k.setOwner (bitsN word 9 0) (match noted.find? fun x => x.1 == bitsN word 9 0 with
    | some (_, old, _) => if old.st == o.st then { o with dying := old.dying, seq := old.seq } else o
    | none => o)

/-- A waiting reservation or take issues again (17 R424): the checks of R422 are made against the ring as it stands. Its warp may have gone
on, so a trap ends the operation and is taken where the warp stands; a warp with no real lane to take it, or that has finished, is told
as an operation that waits is (DESIGN CHOICE, log 29). -/
def ringAgain (gid : Nat) (s : State) (r : RingWait) : State :=
  match r.agent with
  | .warp c w =>
    let n := r.part
    let x := s.warp c w
    let lanes := match x.first with | some e => lanesOf (e.mask &&& x.real) | none => []
    let trap := fun (s : State) (code cause level einfo : Nat) =>
      if lanes.isEmpty then ringBad s r
      else
        let s := { s with ringWaits := s.ringWaits.filter fun y => y.id != r.id }
        let s := match (s.core c).vars.find? fun v => v.id == r.id with | some v => s.finishVar c v [] | none => s
        takeTrap s c w code cause (lanes.map fun j => (j, r.hdr)) level einfo 3
    match laneGlobal s c n .rw 64 64 r.hdr with
    | (.trap t l e, _) => trap s t.code t.cause l e.toNat
    | (.fatal f va, s) => s.fatalGrid gid { agentRec s gid r.agent 3 f.code f.cause (f.recVa va) with
        level := f.level, info := f.recInfo, access := 3 }
    | (.page va, s) => s.push (.pagerRequest n va (.slice r.id))
    | (.ok pa _, s) =>
      let s := s.homePrep c (span pa 64)
      let bad := if r.res then (match (ringReserve s n r.hdr.toNat).1 with | .error .format | .error (.bad _ _) => true | _ => false)
        else !popKind s n r.hdr.toNat || (match (ringTake s n r.hdr.toNat).1 with | .error .format | .error (.bad _ _) => true | _ => false)
      if bad then trap s 0x50 8 0xFF 0 else s.push (.ringWaitServed r.id)
  | _ => s

/-- Agents that waited for a rank of the group go on, and what waited for its scratchpad is looked at again. -/
def wakeRank (s : State) (gid : Nat) : State :=
  let go := fun (x : Warp) => if x.wait == Wait.rank gid then { x with wait := Wait.none } else x
  let s := { s with warps := mmap (fun _ x => go x) s.warps }
  s.cores.foldl (fun s ck =>
    let s := (ck.2.vars.filter fun v => v.body.touches.1).foldl (fun s v => s.push (.variableResultDone ck.1 v.id)) s
    (ck.2.copies.filter fun x => x.started && !x.parked).foldl (fun s x => s.push (.copyComplete ck.1 x.id)) s) s

/-- The checks of an image (R263). -/
def imageOk (s : State) (gid : Nat) (img : List Byte) : Bool :=
  let g := s.group gid
  let gr := s.gridOf gid
  headerOk s gid img &&
  ((List.range g.slots.length).zip g.slots).all (fun iw =>
    warpAreaOk gr iw.2 iw.1 (realMask gr.threads iw.1 ||| helperMask gr.threads iw.1) ((img.drop (wBase iw.1)).take 0x8000)) &&
  (List.range g.ctxs.length).all fun i => ctxAreaOk gr.nEntry ((img.drop (cBase gr i)).take 0x20000)

/-- Warps that had arrived at BAR wait there again; those of a group that had arrived at CBAR too, or are past it. -/
def restoreBars (s : State) (gid : Nat) (hdr : Nat) : State :=
  let g := s.group gid
  let arrived := ((List.range g.slots.length).zip g.slots).filterMap fun iw => if bitN (bitsN hdr 95 64) iw.1 then some iw.2 else none
  let s := arrived.foldl (fun s w => s.modWarp g.core w fun x => { x with wait := .bar }) s
  let s := s.modGroup gid fun x => { x with bar := arrived }
  if !bitN hdr 40 then s
  else
    let live := g.slots.filter fun w => !(s.warp g.core w).frontier.isEmpty
    let s := if g.cbar then live.foldl (fun s w => s.modWarp g.core w fun x => { x with wait := .cbar }) s
      else live.foldl (fun s w => s.unblock g.core w) s
    s.modGroup gid fun x => { x with cbar := false }

/-- A core's translations of a partition, and those that its die shares, are dropped. -/
def freshWalks (s : State) (c n : Nat) : State :=
  let mine := fun (l : List TlbE) => l.filter fun t => t.part != n
  { s.modCore c fun k => { k with tlb := mine k.tlb } with stlbs := s.stlbs.map fun d => if d.1 == dieOf c then (d.1, mine d.2) else d }

/-- The group runs on once its last FID has been resumed: each record's warp or context continues at the point of R249 or R258, no earlier
than the results in flight at its trap have landed (R247); a parked copy goes on (R257, R258; 07 R164). -/
def runOn (s : State) (gid : Nat) : State :=
  let g := s.group gid
  let here := match g.phase with | .saved _ | .gone => false | _ => true
  if !here || g.fids.isEmpty || g.fids.any (fun f => !f.2.2) then s
  else
    let c := g.core
    -- what is tried again walks afresh (10 R230)
    let s := freshWalks s c (s.partOf gid)
    let s := s.modGroup gid fun x => { x with fids := [] }
    g.fids.foldl (fun s f => match f.2.1 with
      | .warp w skip => s.modWarp c w fun x => { (if skip then x.advance false else x) with nextIssue := max x.nextIssue (s.now + 1) }
      | .ctx k =>
        if (s.ctx c k).state != .trapped then s
        else
          let s := s.modCtx c k fun x => { x with state := .running, trapcode := 0, nextIssue := max x.nextIssue (s.now + 1) }
          if (s.ctx c k).xretry then retryXlt s c k else s
      | .copy id => (s.modCopy c id fun y => { y with parked := false }).push (.copyComplete c id)
      | .nothing => s) s

/-- The state of a group read back from its image. -/
def restoreFrom (s : State) (gid : Nat) (img : List Byte) : RX :=
  let g := s.group gid
  let gr := s.gridOf gid
  let c := g.core
  let hdr := fieldAt img 0 32
  let (base, split) := (scratchPlace s c gr.scratch).getD (0, 524288)
  let scr := ((List.range gr.scratch).zip (img.drop (sBase gr))).filter fun x => x.2 != 0
  let s := shrinkL1 (s.modCore c fun k => { k with split := max k.split split }) c
  let s := s.modGroup gid fun x => { x with
    phase := .resident, base := base, scratch := scr, awaits := [], ready := false, savedTiles := [], ldts := [], rings := [], ringReqs := [] }
  let words := (List.range (bitsN hdr 57 48)).map fun i => fieldAt img (0x40 + 8 * i) 8
  let s := words.foldl (fun s w => s.modCore c fun k => restoreTile gid k g.savedTiles w) s
  let s := ((List.range g.slots.length).zip g.slots).foldl (restoreWarp c gid gr img) s
  match ((List.range g.ctxs.length).zip g.ctxs).foldl (restoreCtx c gid gr.part gr img) (.ok s) with
  | .ok s =>
    let s := restoreBars s gid hdr
    let s := (words.filter fun w => bitsN w 31 24 != 0x7F).foldl (reenterTake c gid) s
    let s := words.foldl (fun s w => s.push (.tileFreed c (bitsN w 9 0))) s
    let s := (List.range (bitsN hdr 47 41)).foldl (restoreCopy c gid img) s
    let s := g.ldts.foldl (fun s v =>
      (s.modCore c fun k => { k with vars := k.vars ++ [v] }).push (.ticketAllocate c v.id)) s
    let s := s.modCore c fun k => { k with vars := k.vars ++ g.rings }
    let s := { s with ringWaits := s.ringWaits ++ g.ringReqs }
    let s := (wakeRank (s.modGroup gid fun x => { x with
      copies := [], waitks := [], depths := [], rowMasks := [], takes := [], xltVas := [] }) gid)
    let s := g.ringReqs.foldl (ringAgain gid) (runOn s gid)
    .ok (((((s.push (.growGrant c)).push (.takeNewGrant c)).push (.barComplete gid)).push (.cbarComplete g.cluster)).push (.groupRetire gid))
  | e => e

/-- The copies of an image, and what comes back beside them, find room in the time-sorted buffer and the request tracker of the core (01 R17;
07 R167; that the restore waits for it: DESIGN CHOICE, log 29). -/
def copyRoom (s : State) (g : Group) (img : List Byte) : Bool :=
  let k := s.core g.core
  let nc := bitsN (fieldAt img 0 32) 47 41
  let parked := ((List.range nc).filter fun i => fieldAt img (0x1100 + 48 * i + 0x23) 1 == 1).length
  k.timed + (nc - parked) ≤ 64 &&
  k.vars.length + (k.copies.filter (·.started)).length + parked + g.ldts.length + g.rings.length ≤ 2048
/-- The allotment tiles that an image asks for. -/
def imageTiles (g : Group) (img : List Byte) : Nat :=
  sumOf ((List.range g.slots.length).map fun i => bitsN (fieldAt img (wBase i + 0x6120) 8) 57 55)

/-- GROUP_RESTORE: a saved group that is ready comes back once its core has the room. -/
def groupRestore (s : State) (gid : Nat) : State :=
  match mget? s.groups gid with
  | none => s
  | some g =>
    let gr := s.gridOf gid
    let n := gr.part
    if !becomesReady s gid g then s
    else
      let s := s.modGroup gid fun x => { x with ready := true, awaits := [] }
      if (s.part n).state != 1 || !noneSaving s g.core || !restoreRoom s g gr then s
      else match unitRead s n (areaVa s gid) (gSize gr) with
        | (.page va, _, _) => s.push (.pagerRequest n (BitVec.ofNat 64 va) (.group gid))
        | (.bad f va, _, _) => saveFail s gid (unitRec 3 0 f va)
        | (.poison pa, _, _) => saveFail s gid (poisonRec 3 pa)
        | (.ok, img, s1) =>
          if !imageOk s1 gid img then saveFail s1 gid { source := 3, cls := 3, code := 0x08, cause := 8, va := BitVec.ofNat 64 (areaVa s gid) }
          else if (freeGeneral s1 g.core).length < imageTiles g img || !copyRoom s1 g img then s1
          else match restoreFrom s1 gid img with
            | .ok s2 => s2
            | .page va => s1.push (.pagerRequest n (BitVec.ofNat 64 va) (.group gid))
            | .fatal f va => s1.fatalGrid gid { unitRec 1 0 f va with kobj := gr.kobj, group := g.number, core := g.core }
def execGroupRestore (gid : Nat) (s : State) : Out3 := runEvent (fun s => groupRestore s gid) s

/-! ### Suspension (R261) -/

/-- The management vector is signalled (12 R275, R276). -/
def mgtSignal (s : State) : State := s.signal 0 s.mgmt.mgtint.toNat

/-- Groups of a partition that are not gone. -/
def partGroups (s : State) (n : Nat) : List Nat := (s.groups.filter fun g => s.partOf g.1 == n && g.2.phase != .gone).map (·.1)
/-- The TLBs of cores become empty (10 R226). -/
def emptyTlbs (s : State) (cs : List Nat) : State := cs.foldl (fun s c => s.modCore c fun k => { k with tlb := [] }) s

/-- A suspension ends once every group of the partition is saved. -/
def suspendServe (s : State) : State :=
  let n := s.mgmt.suspPart.toNat
  if !s.mgmt.suspBusy || s.mgmt.suspOp != 1 then s
  else if (partGroups s n).any fun g => (match (s.group g).phase with | .saved _ => false | _ => true) then s
  else
    let t := s.mgmt.suspTo.toNat
    let s := emptyTlbs s (s.part n).cores
    let s := s.modPart n fun p => { p with lentTo := if t == n then none else some t }
    (mgtSignal (s.modMgmt fun m => { m with suspBusy := false, suspOp := 0 })).retryPlacement t
/-- PARTSUSP, suspend: it starts on an active partition; a write while BUSY is ignored. -/
def suspend (s : State) (n dst : Nat) : State :=
  if s.mgmt.suspBusy || 16 ≤ n || (s.part n).state != 1 then s
  else
    let s := s.modMgmt fun m => { m with suspBusy := true, suspOp := 1, suspPart := BitVec.ofNat 4 n, suspTo := BitVec.ofNat 4 dst }
    let s := s.modPart n fun p => { p with state := 2, lentTo := none }
    suspendServe ((partGroups s n).foldl (beginSave 3) s)
def execPartsuspSuspend (part dst : Nat) (s : State) : Out3 := runMgmt (fun s => suspend s part dst) s

/-- A resume ends once every group of the other partition on the lent cores has retired. -/
def resumeServe (s : State) : State :=
  let n := s.mgmt.suspPart.toNat
  if !s.mgmt.suspBusy || s.mgmt.suspOp != 2 then s
  else
    let cs := (s.part n).cores
    let guests := s.groups.any fun g => g.2.phase != .gone && cs.contains g.2.core && s.partOf g.1 != n
    if guests then s
    else
      let s := (emptyTlbs s cs).modPart n fun p => { p with state := 1, lentTo := none }
      let s := (partGroups s n).foldl (fun s g => (s.modGroup g fun x => match x.phase with
        | .saved 3 => { x with ready := true }
        | _ => x).push (.groupRestore g)) s
      let s := mgtSignal (s.modMgmt fun m => { m with suspBusy := false, suspOp := 0 })
      let s := (List.range 4).foldl (fun s r => s.push (.dispatcherTakeRecord n r)) s
      s.retryPlacement n
/-- PARTSUSP, resume: it starts on a suspended partition; a write while BUSY is ignored. -/
def resumePart (s : State) (n : Nat) : State :=
  if s.mgmt.suspBusy || 16 ≤ n || (s.part n).state != 2 then s
  else resumeServe (s.modMgmt fun m => { m with suspBusy := true, suspOp := 2, suspPart := BitVec.ofNat 4 n })
def execPartsuspResume (part : Nat) (s : State) : Out3 := runMgmt (fun s => resumePart s part) s

end Sys2Proof.Machine
end

