-- ==== Sys2Proof/Machine/HostRegs.lean ====
section
/-! DEFINITION. Writes to the registers of the partitions and of the device, and the operations that they start
(02 R36 to R38; 08 R184, R192, R193; 10 R220, R226, R227, R231, R234, R241, R246; 11 R251, R257, R258, R261; 12 R272 to R281,
R284, R290 to R294). -/

namespace Sys2Proof.Machine

/-! ### The fault ring (10 R231) -/

/-- The FID of a record. -/
def recFid (b : BitVec 512) : BitVec 32 := b.extractLsb' 288 32
/-- The group that is parked under a FID of a partition. -/
def fidGroup (s : State) (n : Nat) (fid : BitVec 32) : Option Nat :=
  (s.groups.find? fun g => s.partOf g.1 == n && g.2.phase != .gone && g.2.fids.any fun f => f.1 == fid && !f.2.2).map (·.1)

/-- Records that wait for a slot are produced in order while there is room; without a usable ring they are dropped, and their
groups' grids are aborted. -/
def serveRecs (n : Nat) : List (Nat × BitVec 512) → State → State
  | [], s => s
  | r :: t, s =>
    if r.1 != n then serveRecs n t s
    else
      let drop := fun (s : State) => { s with recWaits := s.recWaits.erase r }
      if !fltRingOk s n then
        let s := countDrop (drop s) n
        serveRecs n t (match fidGroup s n (recFid r.2) with
          | some g => s.abortGrid (s.group g).grid
          | none => s)
      else match putRecord s n r.2 with
        | some s => serveRecs n t (drop s)
        | none => s

/-- Take up to `k` published slots from HEAD. -/
def ackMany (n hdr : Nat) : Nat → State → State
  | 0, s => s
  | k + 1, s => match ringTake s n hdr with
    | (.ok _, s) => ackMany n hdr k s
    | (.error _, s) => s
/-- FLTACK. Without a usable ring nothing is taken, and the records that wait are dropped. -/
def fltack (s : State) (n k : Nat) : State :=
  let s := if fltRingOk s n then ackMany n (s.part n).fltring.toNat (min k 65536) s else s
  serveRecs n s.recWaits s
def execFltack (part n : Nat) (s : State) : Out3 := runEvent (fun s => fltack s part n) s

/-- RESUME of a FID (11 R257). -/
def fltResume (s : State) (n : Nat) (fid : BitVec 32) : State :=
  match fidGroup s n fid with
  | none => s
  | some g => runOn ((s.dropRecs n [fid]).modGroup g fun x => { x with fids := x.fids.map fun f => if f.1 == fid then (f.1, f.2.1, true) else f }) g
def execFltrespResume (part : Nat) (fid : BitVec 32) (s : State) : Out3 := runEvent (fun s => fltResume s part fid) s
/-- ABORT of a FID (10 R230; 11 R257). -/
def fltAbort (s : State) (n : Nat) (fid : BitVec 32) : State :=
  match fidGroup s n fid with
  | none => s
  | some g => s.abortGrid (s.group g).grid
def execFltrespAbort (part : Nat) (fid : BitVec 32) (s : State) : Out3 := runEvent (fun s => fltAbort s part fid) s

/-! ### Launch rings and command channels (12 R273, R274) -/

/-- LRING: the dispatcher examines the slot at HEAD once where EN is written (02 R37). -/
def lringWrite (s : State) (n r : Nat) (v : W64) : State :=
  if 4 ≤ r then s
  else
    let v := v &&& 0x0000FFFFFFFFFFC1#64
    let s := s.modPart n fun p => { p with lring := mset 0 p.lring r v }
    if v.getLsbD 0 then s.push (.dispatcherTakeRecord n r) else s
def execLringWrite (part ring : Nat) (val : W64) (s : State) : Out3 := runEvent (fun s => lringWrite s part ring val) s

def State.setChan (s : State) (n ch : Nat) (f : Chan → Chan) : State :=
  s.modPart n fun p => { p with chans := mset {} p.chans ch (f (mget {} p.chans ch)) }
/-- The command of a channel completes. -/
def chanDone (s : State) (n ch status : Nat) (slot : Option Nat) : State :=
  let value := fun (c : Chan) => match slot with | some k => BitVec.ofNat 64 k | none => c.slot
  s.setChan n ch fun c => { c with done := true, status := BitVec.ofNat 8 status, slot := value c, page := none }
/-- The command of a channel waits, for a page or behind earlier writes. HRRES.SLOT stands until it ends. -/
def chanWait (s : State) (n ch : Nat) (cmd slot : W64) (page : Option Nat) : State :=
  s.setChan n ch fun c => { c with done := false, cmd := cmd, arg := slot, page := page }
/-- What a ring operation that did not act comes to. A header that does not translate, or whose page is not resident, ends it with status
4 and a record; a page of the state array is asked for, and the command goes on once it is there. -/
def chanErr (s : State) (n ch hdr : Nat) (cmd slot : W64) : RingErr → State
  | .page _ va len loc =>
    if va ≤ hdr && hdr < va + len then
      let level := match walk s n hdr with | .page _ _ _ _ l => l | _ => 0xFF
      chanDone (postRecord s n (unitRec 5 3 ⟨2, 0x22, 8, level, loc⟩ hdr)) n ch 4 none
    else (chanWait s n ch cmd slot (some va)).push (.pagerRequest n (BitVec.ofNat 64 va) (.engine n))
  | .bad f va => if va == hdr then chanDone (postRecord s n (unitRec 5 3 f va)) n ch 4 none else chanDone s n ch 1 none
  | .full => chanDone s n ch 2 none
  | .empty => chanDone s n ch 3 none
  | .format => chanDone s n ch 1 none

/-- The partition of a request that goes through an adapter function. -/
def hostPart : Instr → Option Nat
  | .hostBar2Read n _ _ => some n
  | .hostBar2Write n _ _ => some n
  | .hostAtomicop n _ _ _ _ _ => some n
  | _ => none
/-- An earlier request through the same function still waits, or a read of it is held (09 R199, R214). -/
def State.hostBehind (s : State) (n : Nat) : Bool :=
  s.deferred.any (fun i => hostPart i.1 == some n) || s.hostReads.any fun r => r.part == n && r.peer.isNone

/-- A command of a channel as the lower quadword holds it: OP 1 reserves, 2 publishes, 3 takes. A publish is a release at system scope: it
comes after every earlier request of the function. -/
def hrcmd (s : State) (n ch : Nat) (cmd slot : W64) : State :=
  let hdr := bitsN cmd.toNat 47 0
  let op := bitsN cmd.toNat 63 62
  if bitsN cmd.toNat 61 48 != 0 || hdr % 64 != 0 then chanDone s n ch 1 none
  else if op == 1 then
    match ringReserve s n hdr with
    | (.ok (k, _), s) => chanDone s n ch 0 (some k)
    | (.error e, s) => chanErr s n ch hdr cmd slot e
  else if op == 2 && s.hostBehind n then chanWait s n ch cmd slot none
  else if op == 2 then
    match ringPublish s n hdr slot.toNat with
    | (.ok _, s) => chanDone s n ch 0 none
    | (.error e, s) => chanErr s n ch hdr cmd slot e
  else
    match (ringOpen s n hdr).1 with
    | .ok (h, _) =>
      if h.kind != 0 then chanDone s n ch 1 none
      else (match ringTake s n hdr with
        | (.ok (k, _), s) => chanDone s n ch 0 (some k)
        | (.error e, s) => chanErr s n ch hdr cmd slot e)
    | .error e => chanErr s n ch hdr cmd slot e
/-- The upper quadword starts the command of the lower one; OP 0 is ignored. A second command before DONE breaks an obligation of the driver
(00 R13): the channel's SLOT and STATUS are then free values, and neither command acts any more (DESIGN CHOICE, log 50). -/
def hrcmdStart (s : State) (n ch : Nat) (cmd slot : W64) : State :=
  if 4 ≤ ch || (s.part n).state == 0 || bitsN cmd.toNat 63 62 == 0 then s
  else if !(mget ({} : Chan) (s.part n).chans ch).done then
    s.setChan n ch fun c => { c with done := true, slot := s.free 97200, status := (s.free 97201).extractLsb' 0 8, page := none }
  else hrcmd s n ch cmd slot
/-- The lower quadword with an OP. -/
def withOp (op : Nat) (lo : W64) : W64 := lo &&& 0x3FFFFFFFFFFFFFFF#64 ||| BitVec.ofNat 64 (op * 2 ^ 62)
/-- Both quadwords are written. -/
def hrcmdBoth (s : State) (n ch : Nat) (cmd slot : W64) : State :=
  if 4 ≤ ch || (s.part n).state == 0 then s else hrcmdStart (s.setChan n ch fun c => { c with lo := cmd }) n ch cmd slot
def execHrcmdReserve (part chan : Nat) (lo : W64) (s : State) : Out3 := runEvent (fun s => hrcmdBoth s part chan (withOp 1 lo) 0) s
def execHrcmdPublish (part chan : Nat) (lo slot : W64) (s : State) : Out3 :=
  runEvent (fun s => hrcmdBoth s part chan (withOp 2 lo) slot) s
def execHrcmdTake (part chan : Nat) (lo : W64) (s : State) : Out3 := runEvent (fun s => hrcmdBoth s part chan (withOp 3 lo) 0) s
/-- Commands that wait are tried again. -/
def serveChans (s : State) (n : Nat) : State :=
  (s.part n).chans.foldl (fun s c => if c.2.done then s else hrcmd s n c.1 c.2.cmd c.2.arg) s

/-! ### Partitions (12 R277 to R280) -/

/-- Cores that a mask grants. -/
def maskCores (m : BitVec 96) : List Nat := (List.range 96).filter fun c => m.getLsbD c
/-- A core is held by another partition. -/
def heldElsewhere (s : State) (n c : Nat) : Bool := s.parts.any fun p => p.1 != n && p.2.cores.contains c
/-- Two frame ranges overlap. -/
def framesMeet (a b : Part) : Bool := a.base < b.limit && b.base < a.limit

/-- Every byte of a frame range becomes zero. -/
def clearFrames (s : State) (p : Part) : State :=
  let in_ := fun (a : Nat) => p.base ≤ a && a < p.limit
  { s with
    mem := s.mem.filter fun c => !in_ c.1
    poison := s.poison.filter fun x => match x with | .mem k => !in_ (64 * k) | _ => true
    tags := s.tags.filter fun t => !in_ (8 * t.1) }

/-- The register page at its reset values. What a partition reset keeps stands when `keep` holds (R280). Frames that had been freed before and
wait for room in their rings are kept too (DESIGN CHOICE, log 43). -/
def resetPage (p : Part) (keep : Bool) : Part :=
  let q : Part := { state := p.state, busy := p.busy, op := p.op, result := p.result, pcore := p.pcore, cores := p.cores,
                    pframe := p.pframe, pgrant := p.pgrant, quota := p.quota, tagKey := p.tagKey, lentTo := p.lentTo }
  if keep then { q with ptroot := p.ptroot, pagercfg := p.pagercfg, reslist := p.reslist, ffr4k := p.ffr4k, ffr64k := p.ffr64k,
                        ffr2m := p.ffr2m, bounce := p.bounce, intcfg := p.intcfg, hand := p.hand, resident := p.resident,
                        backs := p.backs }
  else q

/-- A tag key is drawn (08 R184). -/
def drawKey (s : State) (n : Nat) : State :=
  (s.modPart n fun p => { p with tagKey := Config.random s.mgmt.randoms }).modMgmt fun m => { m with randoms := m.randoms + 1 }

/-- PCTL: BUSY falls and the management vector is signalled. -/
def pctlDone (s : State) (n result : Nat) : State :=
  mgtSignal (s.modPart n fun p => { p with busy := false, result := BitVec.ofNat 8 result })

/-- Create (R278). -/
def pctlCreate (s : State) (n : Nat) : State :=
  let p := s.part n
  if 16 ≤ n || p.busy then s
  else
    let s := s.modPart n fun p => { p with op := 1 }
    if p.state != 0 then pctlDone s n 3
    else if s.parts.any fun q => q.1 != n && q.2.state != 0 && framesMeet p q.2 then pctlDone s n 1
    else if (maskCores p.pcore).any (heldElsewhere s n) then pctlDone s n 2
    else
      let s := drawKey (clearFrames s p) n
      let s := s.modPart n fun p => { resetPage p false with state := 1, cores := maskCores p.pcore }
      pctlDone (emptyTlbs s (maskCores p.pcore)) n 0
def execPctlCreate (part : Nat) (s : State) : Out3 := runMgmt (fun s => pctlCreate s part) s

/-- What a partition reset does at once (R280; 08 R193). Requests of other partitions that wait for room in a pager keep their order
(01 R26). -/
def resetPart (s : State) (n : Nat) : State :=
  let grids := (s.grids.filter fun g => g.2.part == n && !g.2.done).map (·.1)
  let s := grids.foldl (fun s g => s.abortGrid g false) s
  let s := { s with grids := mmap (fun _ g => if g.part == n then { g with done := true, acting := false } else g) s.grids }
  let free := fun (t : Ticket) => if t.part == n && t.st != .free then
      { t with st := TkState.free, gen := nextGen t.gen, last := TkClaim.reclaimed, waiters := [], data := [] } else t
  let s := (s.tickets.filter fun t => t.2.part == n).foldl (fun s t => claimWatch s t.1) s
  let s := { s with tickets := mmap (fun _ t => free t) s.tickets }
  let lose := fun (x : (Nat × Nat) × InFlight) => if x.2.part == n then (x.1, { x.2 with ok := false, waiters := [] }) else x
  -- write-backs run to completion, those that wait for their shootdown too
  let live := s.inflight.filter fun x => x.2.part != n || x.2.stage == 2 || x.2.evict
  let s := { s with
    ldtWaits := s.ldtWaits.filter fun x => x.part != n
    ringWaits := s.ringWaits.filter fun x => x.part != n
    recWaits := s.recWaits.filter fun x => x.1 != n
    shoots := s.shoots.filter fun x => x.part != n || !x.inv
    pagerQueue := s.pagerQueue.filter fun q => q.2.1 != n
    inflight := live.map lose }
  let s := [0, 1].foldl (fun s pager => admitQueue pager s.pagerQueue s) s
  let s := s.ldtWaits.foldl (fun s x => s.push (.ldtQuotaGrant x.slice x.part)) s
  let s := (s.hostReads.filter fun r => r.part == n).foldl (fun s r => s.emit (hostReply r none)) s
  let s := { s with hostReads := s.hostReads.filter fun r => r.part != n }
  drawKey (s.modPart n fun p => resetPage p true) n

/-- The cores of a partition write back and leave it (R278; 09 R209; 10 R226). -/
def leaveCores (s : State) (n : Nat) (cs : List Nat) : State :=
  let s := cs.foldl (fun s c => ((s.drainCore c).wcDrain c fun _ => true).modCore c fun k => { k with l1 := [], tlb := [], dict := [], stream := [] }) s
  s.modPart n fun p => { p with cores := p.cores.filter fun c => !cs.contains c }

/-- Page-ins and write-backs in flight of a partition. -/
def flightsOf (s : State) (n : Nat) : Bool := s.inflight.any fun x => x.2.part == n
/-- A reset ends: its vectors are signalled. -/
def resetEnds (s : State) (n : Nat) : State :=
  (pctlDone s n 0).signal (1 + n) (bitsN (s.part n).intcfg.toNat 13 8)

/-- The partition is absent: its cores are released. -/
def absent (s : State) (n : Nat) : State :=
  let s := leaveCores s n (s.part n).cores
  let s := s.mapTlbs fun t => if t.part == n then none else some t
  -- its function is no more, and its MSI-X table with it
  let s := { s with msix := s.msix.filter fun q => q.1 / 128 != 1 + n, pba := mdel s.pba (1 + n) }
  s.modPart n fun p => { resetPage p false with state := 0, pcore := 0, cores := [], lentTo := none }
/-- BUSY falls once what was in flight at a reset or a destroy has ended (R280); a destroyed partition is absent then. -/
def pctlServe (s : State) (n : Nat) : State :=
  let p := s.part n
  if !p.busy || flightsOf s n then s
  else if p.op == 2 then resetEnds s n
  else if p.op == 3 then absent (resetEnds s n) n
  else s
/-- Reset and destroy start on a partition that is not absent; a write while BUSY is ignored (R277). -/
def pctlStart (s : State) (n : Nat) (op : BitVec 3) : State :=
  let p := s.part n
  if 16 ≤ n || p.busy then s
  else
    let s := s.modPart n fun p => { p with op := op }
    if p.state == 0 then pctlDone s n 3
    else pctlServe (resetPart (s.modPart n fun p => { p with busy := true }) n) n
/-- Reset (R280). -/
def pctlReset (s : State) (n : Nat) : State := pctlStart s n 2
def execPctlReset (part : Nat) (s : State) : Out3 := runMgmt (fun s => pctlReset s part) s
/-- Destroy: a reset, then every core is released (R278). -/
def pctlDestroy (s : State) (n : Nat) : State := pctlStart s n 3
def execPctlDestroy (part : Nat) (s : State) : Out3 := runMgmt (fun s => pctlDestroy s part) s

/-- A saved or parked group of a partition on a core that leaves it aborts its grid, one that waits on the pager in place too (10 R246).
No rule names the record's VA: a free value (log 39). -/
def evictGroups (s : State) (n c : Nat) : State :=
  let hit := fun (g : Nat × Group) => g.2.core == c && s.partOf g.1 == n &&
    (match g.2.phase with | .saved _ => true | .gone => false | _ => (g.2.fids.any fun f => !f.2.2) || waitsOnPager s g.1)
  ((s.groups.filter hit).map (·.1)).foldl (fun s g =>
    if (s.group g).phase == .gone then s
    else saveFail s g { source := 3, cls := 3, code := 0x43, cause := 8, va := s.free (93000 + g) }) s

/-- Cores that PCORE grants no more take nothing new; saved and parked groups on them abort their grids, whenever they come to be so, and each
leaves when its groups have retired (R278; 10 R246). -/
def serveCores (s : State) (n : Nat) : State :=
  let p := s.part n
  let out := if p.state == 0 then [] else p.cores.filter fun c => !(maskCores p.pcore).contains c
  let s := out.foldl (fun s c => evictGroups s n c) s
  let gone := out.filter fun c => !(s.groups.any fun g => g.2.core == c && g.2.phase != .gone)
  if gone.isEmpty then s else (leaveCores s n gone).retryPlacement n
/-- PCORE: added cores join, removed cores leave (R278). -/
def pcoreWrite (s : State) (n : Nat) (hi : Bool) (v : W64) : State :=
  if 16 ≤ n then s
  else
    let p := s.part n
    let want : BitVec 96 := if hi then v.extractLsb' 0 32 ++ p.pcore.extractLsb' 0 64 else p.pcore.extractLsb' 64 32 ++ v
    if p.state == 0 then s.modPart n fun p => { p with pcore := want }
    else
      let ok := maskCores want |>.filter fun c => p.cores.contains c || !heldElsewhere s n c
      let add := ok.filter fun c => !p.cores.contains c
      let mask := ok.foldl (fun m c => m ||| BitVec.twoPow 96 c) 0
      let s := (emptyTlbs s add).modPart n fun p => { p with pcore := mask, cores := listUnion p.cores add }
      (serveCores s n).retryPlacement n
def execPcoreWrite (part : Nat) (hi : Bool) (val : W64) (s : State) : Out3 := runMgmt (fun s => pcoreWrite s part hi val) s

/-! ### The device (12 R281, R290 to R293) -/

/-- DEVRESET: every block resets, and bring-up stands to happen. FATAL with FCAUSE 4 and KEYGONE stay; what has left the device has
left it. Reads and atomics of the host that are held or wait get no completion (DESIGN CHOICE, log 46). -/
def devreset (s : State) (v : W64) : State :=
  if v.extractLsb' 0 8 != 0xD5 then s
  else
    let m := s.mgmt
    let tamper := m.fatal && m.fcause == 4
    let m' : Mgmt := { power := true, fatal := tamper, fcause := if tamper then 4 else 0, keyGone := m.keyGone, randoms := m.randoms,
                       idKey := m.idKey }
    { State.reset with mgmt := m', out := s.out, choices := s.choices, freeCtr := s.freeCtr, nextId := s.nextId }
def execDevreset (val : W64) (s : State) : Out3 := runMgmt (fun s => devreset s val) s

/-- Bytes of the management page. -/
def mgmtBytes (s : State) (o n : Nat) : List Byte := (List.range (n / 8)).flatMap fun i => leBytes 8 (mgmtReg s (o + 8 * i)).toNat
/-- The 128 bytes of a report (R292). -/
def reportBody (s : State) : List Byte :=
  let m := s.mgmt
  (List.range 4).flatMap (fun i => leBytes 8 (mget (0 : W64) m.nonce i).toNat) ++
  (List.range 32).map (fun i => nth 0 m.fwDigest i) ++ leBytes 8 m.fwSvn.toNat ++
  leBytes 8 (devshape s).toNat ++ sha3_256 (mgmtBytes s 0x800 0x100 ++ mgmtBytes s 0x1000 0x1000) ++ leBytes 8 s.devtime.toNat ++
  [BitVec.ofNat 8 m.fabid.toNat, 0, 0, 0, 0, 0, 0, 0]
/-- The 2,420 bytes of a signature. -/
def sigBytes (key : BitVec 128) (body : List Byte) : List Byte := (List.range 2420).map fun i => nth 0 (Config.mldsaSign key body) i
/-- ATTCTL: a report, or nothing with the key store erased. Whether the host takes the write is the host's: a free value (DESIGN CHOICE, log 2). -/
def attReport (s : State) : State :=
  let stat := fun (s : State) (x : BitVec 8) => mgtSignal (s.modMgmt fun m => { m with attBusy := false, attstat := x })
  if s.mgmt.keyGone then stat s 1
  else
    let body := reportBody s
    let s' := s.emit (.hostWrite s.mgmt.haddr.toNat (body ++ sigBytes s.mgmt.idKey body))
    stat s' (if (s.free 96000).getLsbD 0 then 2 else 0)
def execAttctlReport (s : State) : Out3 := runMgmt attReport s

def State.modMon (s : State) (u : Nat) (f : Mon → Mon) : State := { s with mons := mput s.mons u (f (mget {} s.mons u)) }
/-- MONCFG.SNAP. -/
def execMoncfgSnap (unit : Nat) (s : State) : Out3 := runMgmt (fun s => s.modMon unit fun m => { m with snap := m.live }) s
/-- MONCFG.CLR. -/
def execMoncfgClr (unit : Nat) (s : State) : Out3 := runMgmt (fun s => s.modMon unit fun m => { m with live := [] }) s
/-- ALARMLOG: any write clears it (R293). -/
def execAlarmlogWrite (_ : W64) (s : State) : Out3 := runMgmt (fun s => s.modMgmt fun m => { m with alarm := 0 }) s

/-! ### REGISTER_WRITE -/

/-- The bits of a register that are not reserved. -/
def maskReg (v : W64) (fields : List (Nat × Nat)) : W64 :=
  BitVec.ofNat 64 (fields.foldl (fun x f => x + bitsN v.toNat f.1 f.2 * 2 ^ f.2) 0)

/-- HRCMD: the lower quadword is kept, the upper one starts the command. -/
def hrcmdWrite (s : State) (n o : Nat) (v : W64) : State :=
  let ch := o / 16
  if o % 16 == 0 then s.setChan n ch fun c => { c with lo := v }
  else hrcmdStart s n ch (mget ({} : Chan) (s.part n).chans ch).lo v

/-- A quadword written to a partition's register page (R272). -/
def partWrite (s : State) (n o : Nat) (v : W64) : State :=
  if (s.part n).state == 0 then s
  else match o with
    | 0x10 => s.modPart n fun p => { p with ptroot := maskReg v [(45, 12), (0, 0)] }
    | 0x18 => tlbinvWrite s n v
    | 0x20 => s.modPart n fun p => { p with traph := maskReg v [(63, 3), (0, 0)] }
    | 0x28 => let s := s.modPart n fun p => { p with fltring := v }
              serveRecs n s.recWaits s
    | 0x30 => fltack s n v.toNat
    | 0x40 => (match bitsN v.toNat 63 62 with
              | 1 => fltResume s n (lo32 v)
              | 2 => fltAbort s n (lo32 v)
              | _ => s)
    | 0x48 => tkcfgSet s n v
    | 0x58 => s.modPart n fun p => { p with lapsed := 0 }
    | 0x60 => s.modPart n fun p => { p with pagercfg := maskReg v [(55, 24)] }
    | 0x68 => s.modPart n fun p => { p with reslist := maskReg v [(47, 0)] }
    | 0x70 => s.modPart n fun p => { p with ffr4k := v }
    | 0x78 => s.modPart n fun p => { p with ffr64k := v }
    | 0x80 => s.modPart n fun p => { p with ffr2m := v }
    | 0x88 => s.modPart n fun p => { p with bounce := maskReg v [(63, 63), (45, 21), (7, 0)] }
    | 0x90 => s.modPart n fun p => { p with intcfg := maskReg v [(13, 8), (5, 0)] }
    | _ =>
      if 0xA0 ≤ o && o ≤ 0xB8 then lringWrite s n ((o - 0xA0) / 8) v
      else if 0x200 ≤ o && o < 0x240 then hrcmdWrite s n (o - 0x200) v
      else s

/-- PARTSUSP (11 R261). -/
def suspWrite (s : State) (v : W64) : State :=
  match bitsN v.toNat 62 61 with
    | 1 => suspend s (bitsN v.toNat 3 0) (bitsN v.toNat 7 4)
    | 2 => resumePart s (bitsN v.toNat 3 0)
    | _ => s

/-- A partition block (R277). PFRAME and PGRANT may be written only while STATE is 0. -/
def blockWrite (s : State) (n o : Nat) (v : W64) : State :=
  match o with
  | 0x00 => (match bitsN v.toNat 62 60 with
      | 1 => pctlCreate s n
      | 2 => pctlReset s n
      | 3 => pctlDestroy s n
      | _ => s)
  | 0x08 => pcoreWrite s n false v
  | 0x10 => pcoreWrite s n true v
  | 0x18 => if (s.part n).state == 0 then s.modPart n fun p => { p with pframe := maskReg v [(50, 32), (18, 0)] } else s
  | 0x20 => if (s.part n).state == 0 then s.modPart n fun p => { p with pgrant := maskReg v [(63, 63), (54, 32), (17, 0)] } else s
  | 0x30 => quotaSet s n v
  | _ => s

/-- The storage registers of a drive (10 R241). The engine begins at the start of its queues when EN rises: its pointers and its phase are
those of reset, and commands outstanding on the old queues are forgotten, while waiting ones stand (DESIGN CHOICE, log 61). -/
def stqWrite (s : State) (d o : Nat) (v : W64) : State :=
  match o with
  | 0x00 => s.modDrive d fun x => { x with sqb := maskReg v [(63, 12)] }
  | 0x08 => s.modDrive d fun x => { x with cqb := maskReg v [(63, 12)] }
  | 0x10 =>
    let cfg := maskReg v [(63, 63), (59, 44), (31, 16), (11, 0)]
    let rises := v.getLsbD 63 && !(s.drive d).cfg.getLsbD 63
    let s := s.modDrive d fun x => { x with cfg := cfg }
    let s := if rises then s.modDrive d fun x => { x with tail := 0, head := 0, phase := true, out := [],
                                                              flushing := x.waiting.any fun c => c.op == 0 } else s
    if s.mgmt.fatal then s else if v.getLsbD 62 then stqFlush s d else submitWaiting s d
  | _ => s

/-- MONCFG: the snapshot is taken before the live values are cleared. -/
def monWrite (s : State) (u : Nat) (v : W64) : State :=
  let s := if v.getLsbD 62 then s.modMon u fun m => { m with snap := m.live } else s
  let s := if v.getLsbD 61 then s.modMon u fun m => { m with live := [] } else s
  s.modMon u fun m => { m with cfg := maskReg v [(63, 63), (60, 50), (47, 40)] }

/-- A quadword written to the management page (R276), which answers in a device that has halted too (R281). -/
def mgmtWrite (s : State) (o : Nat) (v : W64) : State :=
  match o with
  | 0x10 => devreset s v
  | 0x18 => suspWrite s v
  | 0x20 => s.modMgmt fun m => { m with fabid := v.extractLsb' 0 4 }
  | 0x28 => s.modMgmt fun m => { m with fabroute := v }
  | 0x30 => let w := bitsN v.toNat 11 0
            if 1000 ≤ w && w ≤ 3000 then s.modMgmt fun m => { m with pwrlim := BitVec.ofNat 12 w } else s
  | 0x40 => s.modMgmt fun m => { m with alarm := 0 }
  | 0x48 => s.modMgmt fun m => { m with mgtint := v.extractLsb' 0 6 }
  | 0x120 => s.modMgmt fun m => { m with haddr := maskReg v [(63, 3)] }
  | 0x128 => if bitsN v.toNat 1 0 == 1 && !s.mgmt.attBusy then attReport s else s
  | _ =>
    if 0x100 ≤ o && o < 0x120 then s.modMgmt fun m => { m with nonce := mset 0 m.nonce ((o - 0x100) / 8) v }
    else if 0x4000 ≤ o && o < 0x8000 then (if o % 0x100 == 0 then monWrite s ((o - 0x4000) / 0x100) v else s)
    else if 0x800 ≤ o && o < 0x900 then stqWrite s ((o - 0x800) / 0x20) (o % 0x20) v
    else if 0x1000 ≤ o && o < 0x2000 then blockWrite s ((o - 0x1000) / 0x100) (o % 0x100) v
    else if 0x10000 ≤ o && o < 0x30000 then
      let d := (o - 0x10000) / 0x4000
      let a := o % 0x4000
      (s.modDrive d fun x => { x with bar := (cellsAt a (leBytes 8 v.toNat)).foldl (fun m c => mset 0 m c.1 c.2) x.bar }).emit
        (.admin d a (leBytes 8 v.toNat))
    else s

/-- BAR4 of a function: 64 entries of 16 bytes of its MSI-X table from 0, its pending bits at 0x400, which are read-only (R270; layout
PRESUMED, log 59). -/
def bar4Reg (s : State) (fn o : Nat) : W64 :=
  if o < 0x400 then s.msixWord (128 * fn + o / 8) else if o / 8 == 0x80 then mget 0 s.pba fn else 0
/-- A vector that is unmasked while its pending bit is set is sent. -/
def bar4Write (s : State) (fn o : Nat) (v : W64) : State :=
  if 0x400 ≤ o then s
  else
    let k := 128 * fn + o / 8
    let vec := o / 16
    let s := { s with msix := mput s.msix k (if o / 8 % 2 == 1 then maskReg v [(32, 0)] else maskReg v [(63, 2)]) }
    if s.masked fn vec || !(mget (0 : W64) s.pba fn).getLsbD vec then s
    else { s with pba := mset 0 s.pba fn (mget 0 s.pba fn &&& ~~~BitVec.twoPow 64 vec) }.emit (.msix fn vec)

/-- REGISTER_WRITE: a quadword written through BAR0 of function 0 or of function 1 + p. A register whose write has an event of its own
behaves as that event. A partition's function answers while the partition exists (R270). Offsets from 0x100000 on stand for BAR4
(log 59). -/
def registerWrite (s : State) (fn o : Nat) (v : W64) : State :=
  if o % 8 != 0 then s
  else match fn with
    | 0 => if 0x100000 ≤ o then bar4Write s 0 (o - 0x100000) v else mgmtWrite s o v
    | p + 1 =>
      if 16 ≤ p || s.mgmt.fatal || (s.part p).state == 0 then s
      else if 0x100000 ≤ o then bar4Write s fn (o - 0x100000) v
      else partWrite s p o v
/-- What of a partition waits for something that may have come: frames for room in their rings, a reset or destroy for its end, leaving cores,
commands of its channels. -/
def partServe (s : State) (n : Nat) : State := serveChans (serveCores (pctlServe (serveBacks s n) n) n) n

def execRegisterWrite (fn : Nat) (off : Nat) (val : W64) (s : State) : Out3 := runMgmt (fun s => registerWrite s fn off val) s

end Sys2Proof.Machine
end

