-- ==== Sys2Proof/Machine/Coll.lean ====
section
/-! DEFINITION. COLL and the collective engine (12 R287 to R289; 15 R354, R355). The data of the other devices is an input: it comes
with the event of a step. -/

namespace Sys2Proof.Machine

/-! ### Writes of units that are no agents (07 R171, R173; 10 R230; 12 R271) -/

/-- What becomes of such a write: performed or bounced, waiting for room in the bounce region, refused with a record. -/
inductive DW where
  | done (s : State)
  | wait (s : State)
  | refused (s : State)

/-- The page-in of a page has failed the access that is being tried again. -/
def lostAt (s : State) (n a : Nat) : Bool := s.refuse.any fun r => r.1 == n && r.2.1 ≤ a && a < r.2.1 + r.2.2
/-- Where the pages of a write lie; a page whose page-in has failed since the access began to wait refuses it (10 R230, R236). -/
def devPlan (n : Nat) (need : Need) : List (Nat × Nat × Nat) → State → Except (XFault × Nat) (List (Nat × Nat × Nat × PX)) × State
  | [], s => (.ok [], s)
  | (a, o, len) :: t, s =>
    let (x, s) : PX × State := match xlateUnit s n a need with
      | (.ok pa _ _, s) => (if s.peerFails pa then PX.bad peerFault a else .ok pa, s)
      | (.page key _ _ loc, s) => (if lostAt s n a then PX.bad lostPage a else .page key a loc, s)
      | (.bad f, s) => (.bad f a, s)
    match x with
    | .bad f va => (.error (f, va), s)
    | _ => match devPlan n need t s with
      | (.error e, s) => (.error e, s)
      | (.ok l, s) => (.ok ((a, o, len, x) :: l), s)

def isPage (x : PX) : Bool := match x with | .page _ _ _ => true | _ => false
/-- One piece of a write. -/
def devPut (n : Nat) (bs : List Byte) (s : State) (p : Nat × Nat × Nat × PX) : State :=
  let part := (bs.drop p.2.1).take p.2.2.1
  match p.2.2.2 with
  | .ok pa => s.homeWrite n pa part false
  | .page key va _ => (bounceWrite s n key (pageFirst s n va) va part).getD s
  | .bad _ _ => s

/-- A write by a unit with a SOURCE number: all of it, or none. One that finds the bounce region full asks for its pages while it waits
(DESIGN CHOICE, log 63). `quiet`: no record tells of a refusal. -/
def devWrite (s : State) (n src va : Nat) (bs : List Byte) (quiet : Bool := false) : DW :=
  let refuse := fun (s : State) (f : XFault) (a : Nat) => DW.refused (if quiet then s else postRecord s n (unitRec src 1 f a))
  if (s.part n).sealedAt va bs.length then refuse s ⟨2, 0x24, 8, 0xFF, 0⟩ va
  else match devPlan n .w (piecesOf va bs.length) s with
    | (.error (f, a), s) => refuse s f a
    | (.ok plan, s) =>
      let held := plan.filter fun p => isPage p.2.2.2
      let need := sumOf (held.map fun p => p.2.2.1)
      if need != 0 && bounceRoom (s.part n) < bounceHeld (s.part n) + need then
        .wait (held.foldl (fun s p => s.push (.pagerRequest n (BitVec.ofNat 64 p.1) (.engine n))) s)
      else .done (plan.foldl (devPut n bs) s)

/-! ### Issue (R287, R354, R355) -/

/-- The operand checks of R287. -/
def collOk (s : State) (d : BitVec 256) : Bool :=
  let nd := cNdev d
  let me := s.mgmt.fabid.toNat
  cF d 191 190 == 0 && cFmt d != 3 && 2 ≤ nd && nd ≤ 16 && 1 ≤ cCount d && cCount d < 2 ^ 31 &&
  (cOp d == 3 || cCount d % nd == 0) && me < nd && cRoot d < nd && (s.route ((me + 1) % nd)).isSome

/-- The trap of a descriptor, in the order of R355. -/
def collTrap (s : State) (d : BitVec 256) : Option Trap :=
  let far := fun (a len : Nat) => 2 ^ 48 < a + len
  let align := fun (a : Nat) => (⟨rkAlign, 0x20, BitVec.ofNat 64 a, 8⟩ : Trap)
  let canon := fun (a : Nat) => (⟨rkCanon, 0x22, BitVec.ofNat 64 a, 2⟩ : Trap)
  if !collOk s d then some trapOperand
  else if far (cSrc d) (cSrcBytes d) then some (canon (cSrc d))
  else if far (cDst d) (cDstBytes d) then some (canon (cDst d))
  else if cSrc d % cSize d != 0 then some (align (cSrc d))
  else if cDst d % cSize d != 0 then some (align (cDst d))
  else if cStat d != 0 && 2 ^ 48 ≤ cStat d then some (canon (cStat d))
  else if cStat d % 8 != 0 then some (align (cStat d))
  else none

/-- Collectives that run; a further one waits with its token raised. -/
def State.collsRunning (s : State) : Nat := (s.colls.filter (·.running)).length
/-- A collective of this device uses a peer port: to its next or from its previous device. -/
def collUses (s : State) (x : Coll) (port : Nat) : Bool :=
  let nd := cNdev x.desc
  let me := s.mgmt.fabid.toNat
  s.route ((me + 1) % nd) == some port || s.route ((me + nd - 1) % nd) == some port
/-- It uses a port that is down: it ends with status 2 (R285). -/
def collDown (s : State) (x : Coll) : Bool := s.mgmt.peersDown.any (collUses s x)
/-- The first that waits starts when there is room. -/
def startColls (s : State) : State :=
  if 16 ≤ s.collsRunning then s
  else match s.colls.find? fun x => !x.running with
    | none => s
    | some x => { s with colls := s.colls.map fun y => if y.id == x.id then { y with running := true, issued := s.now } else y }

/-- COLL: an eager release at fabric scope, then the engine has it. -/
def collBody (f : Asy) : View → State → Res :=
  onceWarp fun v s =>
    let d := descG s v f.a.toNat
    match collTrap s d with
    | some tr => Res.of s tr v.realLanes
    | none =>
      let s := (((s.settleAll v.me).eager v.c 5).addTok v.me f.tok.toNat)
      let x : Coll := { id := s.fresh, core := v.c, agent := v.me, tok := f.tok.toNat, part := s.partOf v.gid, desc := d,
                        running := s.collsRunning < 16, issued := s.now, chunks := [] }
      .ok { s with colls := s.colls ++ [x] }.bump .next
def execColl (h : Hdr) (f : Asy) (s : State) : Out3 := runWarp h (.coll h f) (collBody f) s

/-! ### Computing a chunk (R288) -/

/-- The transfer format of a descriptor. -/
def collFmt (d : BitVec 256) : Fmt := match cFmt d with | 0 => fF32 | 1 => fBF16 | _ => fE4M3
/-- combine, on F32 patterns. -/
def collCombine (max_ : Bool) (a b : Nat) : Nat :=
  if !max_ then addF32 a b
  else
    let x := fF32.dec false a
    let y := fF32.dec false b
    if x.isNaN || y.isNaN then fF32.nan else if x.lt y then b else if y.lt x then a else if x.neg then b else a
/-- One hop: widen, combine, quant; F32 is not converted. -/
def collHop (d : BitVec 256) (p x : Nat) : Nat :=
  let f := collFmt d
  let widen := fun (v : Nat) => if cFmt d == 0 then v else fF32.round 0 false false (f.dec false v)
  let r := collCombine (cRed d) (widen p) (widen x)
  if cFmt d == 0 then r else f.round 0 false false (fF32.dec false r)

/-- Element `i` of the bytes of a device. -/
def collElem (d : BitVec 256) (bs : List Byte) (i : Nat) : Nat := leNat ((bs.drop (cSize d * i)).take (cSize d))
/-- Element `i` of chunk `c` after the hop to the `k`-th device from its first; the last device is `c`. -/
def collPartial (d : BitVec 256) (c i k : Nat) (xs : List (List Byte)) : Nat :=
  let dev := fun (h : Nat) => (c + 1 + h) % cNdev d
  (List.range k).foldl (fun p h => collHop d p (collElem d (nth [] xs (dev (h + 1))) i)) (collElem d (nth [] xs (dev 0)) i)
/-- The bytes of chunk `c` after `k` hops. -/
def collChunk (d : BitVec 256) (c k : Nat) (xs : List (List Byte)) : List Byte :=
  (List.range (cLen d)).flatMap fun i => leBytes (cSize d) (collPartial d c i k xs)

/-- Number of chunks. -/
def collChunks (d : BitVec 256) : Nat := if cOp d == 3 then 1 else cNdev d
/-- The device whose SRC a chunk of all-gather or broadcast carries. -/
def collFrom (d : BitVec 256) (c : Nat) : Nat := if cOp d == 3 then cRoot d else c
/-- Bytes of a chunk. -/
def collBytes (d : BitVec 256) : Nat := cSize d * cLen d
/-- Where this device reads of its SRC for a chunk, if it does. -/
def collSrcAt (d : BitVec 256) (me c : Nat) : Option Nat :=
  if cOp d ≤ 1 then some (cSrc d + c * collBytes d) else if collFrom d c == me then some (cSrc d) else none
/-- Where this device writes the result of a chunk, if it does. -/
def collDstAt (d : BitVec 256) (me c : Nat) : Option Nat :=
  match cOp d with
  | 1 => if c == me then some (cDst d) else none
  | 3 => some (cDst d)
  | _ => some (cDst d + c * collBytes d)

/-! ### The end (R289) -/

def State.modColl (s : State) (id : Nat) (f : Coll → Coll) : State :=
  { s with colls := s.colls.map fun z => if z.id == id then f z else z }

/-- DST comes to hold unpredictable values, page by page, where it can be written; pages that are not there hold them as every write of the
engine. True once all of it has. -/
def collScramble (id n : Nat) : List (Nat × Nat × Nat) → State → Bool × State
  | [], s => (true, s)
  | (a, o, len) :: t, s =>
    let on := fun (s : State) => s.modColl id fun z => { z with freed := o + len }
    match devWrite s n 7 a ((List.range len).map fun i => (s.free (2 ^ 20 + o + i)).extractLsb' 0 8) true with
    | .done s | .refused s => collScramble id n t (on s)
    | .wait s => (false, s)

/-- A collective ends: status word, acquire at fabric scope, fall of the token. -/
def collEnd (s : State) (x : Coll) (status : Nat) : State :=
  let word := leBytes 8 (status % 256 + s.now % 2 ^ 56 * 256)
  let me := Instr.collComplete x.id (BitVec.ofNat 8 status)
  let again := fun (s : State) =>
    let s := s.modColl x.id fun z => { z with ends := some status }
    if s.deferred.any fun i => i.1 == me then s else { s with deferred := s.deferred ++ [(me, s.refuse)] }
  let dst := (piecesOf (cDst x.desc) (cDstBytes x.desc)).filter fun p => x.freed < p.2.1 + p.2.2
  let (whole, s) := if status != 0 || x.raced then collScramble x.id x.part dst s else (true, s)
  let finish := fun (s : State) =>
    let gid := s.gidOf x.agent
    let s := { s with colls := s.colls.filter fun y => y.id != x.id }
    startColls (((acquireAt s x.agent gid 5).subTok x.agent x.tok).push (.groupRetire gid))
  if !whole then again s
  else if cStat x.desc == 0 then finish s
  else match devWrite s x.part 7 (cStat x.desc) word with
    | .done s => finish s
    | .refused s => finish s
    | .wait s => again s

/-- COLL_COMPLETE: status 0 once every byte of DST is written. A collective over a link that is down ends, one that still waits too. -/
def collComplete (s : State) (id : Nat) (status : BitVec 8) : State :=
  match s.colls.find? fun x => x.id == id with
  | none => s
  | some x =>
    if !(x.running || (status == 2 && collDown s x)) || 4 < status.toNat || (status == 0 && x.chunks.length != collChunks x.desc) ||
      (x.ends.getD status.toNat != status.toNat) then s
    else collEnd s x status.toNat
def execCollComplete (id : Nat) (status : BitVec 8) (s : State) : Out3 := runEvent (fun s => collComplete s id status) s

/-- COLL_TIMEOUT: no progress for 2³¹ cycles. -/
def collTimeout (s : State) (id : Nat) : State :=
  match s.colls.find? fun x => x.id == id with
  | none => s
  | some x => if x.running && x.ends.isNone && x.issued + 2 ^ 31 ≤ s.now then collEnd s x 2 else s
def execCollTimeout (id : Nat) (s : State) : Out3 := runEvent (fun s => collTimeout s id) s

/-! ### A step (R288, R289) -/

/-- The bytes of SRC that a chunk has read, and the number of bytes of DST that it has written. -/
def Coll.at (x : Coll) (chunk : Nat) : List Byte × Nat := mget ([], 0) x.work chunk
/-- Pieces of a chunk's SRC, page by page; what has been read stands in the collective. -/
def collReads (id n chunk : Nat) : List (Nat × Nat × Nat) → State → UX × State
  | [], s => (.ok, s)
  | (a, _, len) :: t, s =>
    match unitRead s n a len with
    | (.ok, bs, s) => collReads id n chunk t (s.modColl id fun z => { z with
        work := mput z.work chunk ((z.at chunk).1 ++ bs, (z.at chunk).2) })
    | (x, _, s) => (x, s)
/-- Pieces of a chunk's DST. The collective's own writes are no race. -/
def collWrites (id n chunk : Nat) (raced : Bool) (out : List Byte) : List (Nat × Nat × Nat) → State → DW
  | [], s => .done s
  | (a, o, len) :: t, s =>
    match devWrite s n 7 a ((out.drop o).take len) with
    | .done s => collWrites id n chunk raced out t (s.modColl id fun z => { z with
        raced := raced, work := mput z.work chunk ((z.at chunk).1, o + len) })
    | r => r

/-- COLL_STEP: one chunk, with the other devices' bytes of it. It reads and writes page by page, and goes on where it waited. -/
def collStep (s : State) (id chunk : Nat) (peers : List (List (BitVec 8))) : State :=
  match s.colls.find? fun x => x.id == id with
  | none => s
  | some x =>
    let d := x.desc
    let me := s.mgmt.fabid.toNat
    let again := fun (s : State) => { s with deferred := s.deferred ++ [(.collStep id chunk peers, s.refuse)] }
    let have_ := fun (i : Nat) => i == me || (nth [] peers i).length == collBytes d
    let needs := if cOp d ≤ 1 then (List.range (cNdev d)).all have_ else have_ (collFrom d chunk)
    if !x.running || x.ends.isSome || x.chunks.contains chunk || collChunks d ≤ chunk || !needs then s
    else if collDown s x then collEnd s x 2
    else
      let src := match collSrcAt d me chunk with
        | none => []
        | some a => (piecesOf a (collBytes d)).filter fun p => (x.at chunk).1.length < p.2.1 + p.2.2
      match collReads id x.part chunk src s with
      | (.page va, s) =>
        if lostAt s x.part va then collEnd (postRecord s x.part (unitRec 7 0 lostPage va)) x 4
        else again (s.push (.pagerRequest x.part (BitVec.ofNat 64 va) (.engine x.part)))
      | (.bad f va, s) => collEnd (postRecord s x.part (unitRec 7 0 f va)) x 4
      | (.poison pa, s) => s.poisonAbort (s.gidOf x.agent) x.agent pa
      | (.ok, s) =>
        let mine := ((s.colls.find? fun y => y.id == id).map fun y => (y.at chunk).1).getD []
        let xs := (List.range 16).map fun i => if i == me then mine else nth [] peers i
        let out := if cOp d ≤ 1 then collChunk d chunk (cNdev d - 1) xs else nth [] xs (collFrom d chunk)
        let sent := if cOp d ≤ 1 then collChunk d chunk ((me + 2 * cNdev d - chunk - 1) % cNdev d) xs else out
        let dst := match collDstAt d me chunk with
          | none => []
          | some a => (piecesOf a (collBytes d)).filter fun p => (x.at chunk).2 < p.2.1 + p.2.2
        match collWrites id x.part chunk x.raced out dst s with
        | .done s => (s.modColl id fun z => { z with chunks := z.chunks ++ [chunk], issued := s.now, work := mdel z.work chunk }).emit
            (.collSend id chunk sent)
        | .wait s => again s
        | .refused s => collEnd s x 4
def execCollStep (id chunk : Nat) (peers : List (List (BitVec 8))) (s : State) : Out3 :=
  runEvent (fun s => collStep s id chunk peers) s

end Sys2Proof.Machine
end

