-- ==== Sys2Proof/Machine/Device.lean ====
section
/-! DEFINITION. What the host, peers, drives, links, sensors and the power supply do to the device, and bring-up (01 R16; 09 R214;
12 R270, R271, R279, R281, R285, R286, R292 to R295). -/

namespace Sys2Proof.Machine

/-! ### The host's window (R270, R271; 09 R214) -/

/-- A request waits; pages that have failed it stay noted. -/
def State.defer (s : State) (i : Instr) : State := { s with deferred := s.deferred ++ [(i, s.refuse)] }
/-- The function of a partition answers. -/
def State.bar2 (s : State) (n : Nat) : Bool := n < 16 && !s.mgmt.fatal && (s.part n).state != 0

def hostRead (s : State) (n : Nat) (va : W64) (len : Nat) : State :=
  let r : HostRead := { id := s.nextId, part := n, va := va, n := len, since := s.now }
  if !s.bar2 n then s.bump.emit (.hostReadDone r.id none)
  else if s.hostBehind n then s.defer (.hostBar2Read n va len)
  else hostReadRun s.bump r
/-- HOST_BAR2_READ. In a device that has halted it completes with Completer Abort (R281). -/
def execHostBar2Read (part : Nat) (va : BitVec 64) (n : Nat) (s : State) : Out3 := runMgmt (fun s => hostRead s part va n) s

def hostWrite (s : State) (n : Nat) (va : W64) (bs : List Byte) : State :=
  if !s.bar2 n then s
  else if s.hostBehind n then s.defer (.hostBar2Write n va bs)
  else match devWrite s n 5 va.toNat bs with
    | .done s | .refused s => s
    | .wait s => s.defer (.hostBar2Write n va bs)
/-- HOST_BAR2_WRITE. -/
def execHostBar2Write (part : Nat) (va : BitVec 64) (bytes : List (BitVec 8)) (s : State) : Out3 :=
  runMgmt (fun s => hostWrite s part va bytes) s

/-- An atomic of a unit at an aligned address: the old bytes, or why it did not act. -/
inductive DA where
  | done (s : State) (old : List Byte)
  | refused (s : State)
  | page (s : State)

/-- A read-modify-write at the home slice by a unit with a SOURCE number, by the code of `atomCombine`: an acquire and a release at
system scope. The register aperture takes no atomic (15 R338). -/
def devAtomic (s : State) (n src va code size : Nat) (bs : List Byte) : DA :=
  let refuse := fun (s : State) (f : XFault) => DA.refused (postRecord s n (unitRec src 3 f va))
  if (s.part n).sealedAt va size then refuse s ⟨2, 0x24, 8, 0xFF, 0⟩
  else match xlateUnit s n va .rw with
    | (.page _ _ _ _, s) => if lostAt s n va then refuse s lostPage else .page (s.push (.pagerRequest n (BitVec.ofNat 64 va) (.engine n)))
    | (.bad f, s) => refuse s f
    | (.ok pa _ _, s) =>
      match regionOf pa with
      | .regs _ _ => refuse s ⟨3, 0x60, 8, 0xFF, 0⟩
      | _ =>
        if s.peerFails pa then refuse s peerFault
        else
          let s := if pa < memEnd then s.acquireTags 96 6 [] (span pa size) else s
          let d := rmwLane n code size ⟨s, [], none⟩ ⟨0, pa, bs⟩
          match d.bad, d.data.head? with
          | none, some x => .done d.s x.2
          | bad, _ => .refused (postRecord d.s n (poisonRec 8 (bad.getD pa)))

/-- The code of `atomCombine` of an AtomicOp. -/
def hostAtomCode : HostAtom → Nat | .fetchAdd => 0 | .swap => 24 | .cas => 28
/-- FetchAdd and Swap of 32 and 64 bits, CAS of 32, 64 and 128 bits. -/
def hostAtomOk (op : HostAtom) (va : W64) (n : Nat) : Bool :=
  (n == 4 || n == 8 || (n == 16 && op == .cas)) && va.toNat % n == 0
def hostAtomic (s : State) (n : Nat) (va : W64) (op : HostAtom) (len : Nat) (cmp val : BitVec 128) : State :=
  let me := Instr.hostAtomicop n va op len cmp val
  if !s.bar2 n || !hostAtomOk op va len then s.emit (.hostAtomicDone none)
  else if s.hostBehind n then s.defer me
  else
    let v := leBytes len val.toNat
    match devAtomic s n 5 va.toNat (hostAtomCode op) len (if op == .cas then leBytes len cmp.toNat ++ v else v) with
    | .done s old => s.emit (.hostAtomicDone (some old))
    | .refused s => s.emit (.hostAtomicDone none)
    | .page s => s.defer me
/-- HOST_ATOMICOP. -/
def execHostAtomicop (part : Nat) (va : BitVec 64) (op : HostAtom) (n : Nat) (cmp val : BitVec 128) (s : State) : Out3 :=
  runMgmt (fun s => hostAtomic s part va op n cmp val) s

/-- HOST_READ_TIMEOUT: a read held for 2²⁶ cycles completes with Completer Abort. -/
def readTimeout (s : State) (id : Nat) : State :=
  match s.hostReads.find? fun r => r.id == id with
  | none => s
  | some r =>
    if s.now < r.since + 2 ^ 26 then s
    else { s with hostReads := s.hostReads.filter fun x => x.id != id }.emit (hostReply r none)
def execHostReadTimeout (id : Nat) (s : State) : Out3 := runEvent (fun s => readTimeout s id) s

/-! ### Peers (R286) -/

/-- The fields of PGRANT that peers meet. -/
def Part.ftag (p : Part) : BitVec 16 := p.pgrant.extractLsb' 32 16
def Part.pvb (p : Part) : Nat := bitsN p.pgrant.toNat 54 48
/-- Active partitions with a fabric tag. -/
def tagParts (s : State) (t : BitVec 16) : List Nat := (s.parts.filter fun p => p.2.state == 1 && p.2.ftag == t).map (·.1)

def peerAccess (s : State) (port issuer : Nat) (ftag : BitVec 16) (off : W64) (op : PeerOp) : State :=
  let me := Instr.peerAccess port issuer ftag off op
  let refused := fun (s : State) => s.emit (.peerReply issuer none)
  if 12 ≤ port || !s.mgmt.peerMask.getLsbD port || s.mgmt.peersDown.contains port then s
  else match tagParts s ftag with
    | [n] =>
      let p := s.part n
      let va := (p.pvb * 2 ^ 41 + off.toNat % 2 ^ 41) % 2 ^ 48
      if 16 ≤ issuer || !bitN p.pgrant.toNat issuer then
        refused (postRecord s n (unitRec 6 (match op with | .load _ => 0 | .store _ => 1 | .atom _ _ => 3) peerFault va))
      else (match op with
        | .load len => hostReadRun s.bump { id := s.nextId, part := n, va := BitVec.ofNat 64 va, n := len, since := s.now,
                                            peer := some issuer }
        | .store bs => (match devWrite s n 6 va bs with
          | .done s => s.emit (.peerReply issuer (some []))
          | .refused s => refused s
          | .wait s => s.defer me)
        | .atom code bs =>
          let len := if code / 4 == 7 then bs.length / 2 else bs.length
          if !(len == 4 || len == 8 || len == 16) || va % len != 0 then refused s
          else match devAtomic s n 6 va code len bs with
            | .done s old => s.emit (.peerReply issuer (some old))
            | .refused s => refused s
            | .page s => s.defer me)
    | _ => refused s
/-- PEER_ACCESS: an access of another device. -/
def execPeerAccess (port issuer : Nat) (ftag : BitVec 16) (off : BitVec 64) (op : PeerOp) (s : State) : Out3 :=
  runEvent (fun s => peerAccess s port issuer ftag off op) s

/-- What waits for a page or for room is tried again, in order. -/
def retryOne (s0 : State) (x : Instr × List (Nat × Nat × Nat)) : State :=
  let s := { s0 with refuse := x.2 }
  match x.1 with
  | .hostBar2Read n va len => hostRead s n va len
  | .hostBar2Write n va bs => hostWrite s n va bs
  | .hostAtomicop n va op len cmp val => hostAtomic s n va op len cmp val
  | .peerAccess port issuer ftag off op => peerAccess s port issuer ftag off op
  | .collStep id chunk peers => collStep s id chunk peers
  | .collComplete id status => collComplete s id status
  | _ => s
def retryDeferred (s : State) : State := { s.deferred.foldl retryOne { s with deferred := [] } with refuse := [] }

/-! ### Fatal errors (R281) -/

/-- FATAL_DEVICE_ERROR: every agent stops; the management vector and the ERRVEC of every enabled function are signalled. -/
def fatalError (s : State) (cause : BitVec 8) : State :=
  let first := !s.mgmt.fatal
  let s := s.modMgmt fun m => { m with fatal := true, fcause := if !m.fatal || cause == 4 then cause else m.fcause }
  if !first then s
  else
    let s := mgtSignal { s with deferred := [], hostReads := [] }
    s.parts.foldl (fun s p => if p.2.state == 0 then s else s.signal (1 + p.1) (bitsN p.2.intcfg.toNat 13 8)) s
/-- The answer that a halt gives to a request that waits: Completer Abort. -/
def haltReply (s : State) (i : Instr) : State :=
  match i with
  | .hostBar2Read _ _ _ => s.bump.emit (.hostReadDone s.nextId none)
  | .hostAtomicop _ _ _ _ _ _ => s.emit (.hostAtomicDone none)
  | _ => s
/-- The reads and atomics of the host that a halt finds waiting complete with Completer Abort. -/
def fatalStop (s : State) (cause : BitVec 8) : State :=
  let s := s.hostReads.foldl (fun s r => s.emit (hostReply r none)) s
  fatalError (s.deferred.foldl (fun s i => haltReply s i.1) s) cause
def execFatalDeviceError (cause : BitVec 8) (s : State) : Out3 := runEvent (fun s => fatalStop s cause) s

/-- THERMAL_TRIP: a die at 115 °C (R294). -/
def execThermalTrip (_ : Nat) (s : State) : Out3 := runEvent (fun s => fatalStop s 3) s
/-- POWER_THROTTLE: PWRSTAT shows the step and the power; the step withholds issue (R294). -/
def execPowerThrottle (watts : BitVec 12) (step : BitVec 4) (s : State) : Out3 :=
  runEvent (fun s => s.modMgmt fun m => { m with throttle := step, watts := watts }) s

/-- TAMPER_ALARM: a level-1 alarm of one of the sensors 0 to 2 (R293): every one is signalled and recorded, in a device that has halted
too. -/
def tamperAlarm (s : State) (sensor : BitVec 4) : State :=
  if 3 ≤ sensor.toNat then s
  else
    let log := fun (a : W64) =>
      if bitsN a.toNat 3 0 == 1 then
        (if bitsN a.toNat 15 8 == 255 then a else a + 0x100)
      else BitVec.ofNat 64 (s.now % 2 ^ 48 * 65536 + sensor.toNat * 16 + 1)
    mgtSignal (s.modMgmt fun m => { m with alarm := log m.alarm })
def execTamperAlarm (sensor : BitVec 4) (s : State) : Out3 := runMgmt (fun s => tamperAlarm s sensor) s
/-- TAMPER_LEVEL_2: the key store is erased and the device halts (R293). Every alarm is signalled, one in a device that has halted too
(R275). -/
def tamperHalt (s : State) : State :=
  let s := if s.mgmt.fatal then mgtSignal s else s
  let s := s.modMgmt fun m => { m with keyGone := true, idKey := 0 }
  fatalStop { s with parts := mmap (fun _ p => { p with tagKey := 0 }) s.parts } 4
def execTamperLevel2 (_ : BitVec 4) (s : State) : Out3 := runMgmt tamperHalt s

/-! ### Links and drives (R279, R285; 01 R16) -/

/-- FLIT_RETRY: the sender resends the stored flit; it is delivered once and in order. -/
def execFlitRetry (_ : Nat) (s : State) : Out3 := runEvent id s
/-- BRIDGE_RETRY changes only the timing (01 R16). -/
def execBridgeRetry (_ : Nat) (s : State) : Out3 := runEvent id s

/-- LINK_DOWN: ports 0 to 11 lead to peers, 12 stands for the host link. -/
def linkDown (s : State) (port : Nat) : State :=
  if port == 12 then fatalStop s 2
  else if 12 < port || s.mgmt.peersDown.contains port then s
  else
    let hit := s.colls.filter fun x => collUses s x port && x.ends.isNone
    let s := s.modMgmt fun m => { m with peersDown := m.peersDown ++ [port] }
    hit.foldl (fun s x => collEnd s x 2) s
def execLinkDown (port : Nat) (s : State) : Out3 := runEvent (fun s => linkDown s port) s

/-- DRIVE_DMA: refused outside the frame range of the drive's partition. -/
def driveDma (s : State) (d : Nat) (write : Bool) (pa : Nat) (bs : List Byte) : State :=
  let n := (s.drive d).part
  if 8 ≤ d then s
  else if write then driveWrite s d pa bs
  else if physOk pa bs.length && (s.part n).inFrame pa bs.length then s
  else postRecord s n (unitRec 8 0 peerFault pa)
def execDriveDma (drive : Nat) (write : Bool) (pa : Nat) (bytes : List (BitVec 8)) (s : State) : Out3 :=
  runEvent (fun s => driveDma s drive write pa bytes) s

/-! ### Bring-up (R292, R295) and the loss of power -/

/-- Bytes of the flash image. -/
def flashBytes (o n : Nat) : List Byte := (Config.flash.drop o).take n
def flashNat (o n : Nat) : Nat := leNat (flashBytes o n)
/-- The verification of R292, in its order. -/
def firmwareOk : Bool :=
  let zero := fun (l : List Byte) => l.all fun b => b == 0
  let poff := flashNat 0x10 8
  let plen := flashNat 0x18 8
  0x1000 ≤ Config.flash.length && flashNat 0 4 == 0x01574656 && zero (flashBytes 4 4) && zero (flashBytes 0xED4 0x12C) &&
  sha3_256 (flashBytes 0x40 0x520) == Config.fusedKeyHash &&
  Config.mldsaVerify (flashBytes 0x40 0x520) (flashBytes 0 0x40) (flashBytes 0x560 0x974) &&
  Config.fusedMinSvn ≤ flashNat 8 8 && poff % 4096 == 0 && 0x1000 ≤ poff && 1 ≤ plen && plen ≤ 2 ^ 26 &&
  poff + plen ≤ Config.flash.length && sha3_256 (flashBytes poff plen) == flashBytes 0x20 0x20

/-- BRING_UP at power-on or after a device reset: firmware, memory, drives and ports, the host link. -/
def bringUp (s : State) : State :=
  if s.mgmt.power && s.mgmt.hostLink then s
  else
    let s := s.modMgmt fun m => { m with
      power := true, fwOk := firmwareOk, drvMask := Config.drvMask, peerMask := Config.peerMask, hostLink := true
      idKey := if m.randoms == 0 then Config.random 0 else m.idKey, randoms := max 1 m.randoms
      fwDigest := if firmwareOk then flashBytes 0x20 0x20 else []
      fwSvn := if firmwareOk then BitVec.ofNat 64 (flashNat 8 8) else 0 }
    let s := { s with mem := [], poison := [], tags := [] }
    if firmwareOk then s else fatalStop s 5
def execBringUp (s : State) : Out3 := .next (bringUp s).useFree

/-- MODULE_POWER_REMOVAL: every block loses its state, the registers of the security controller too; the key store keeps what it holds
(DEDUCED, log 46). Power comes back with BRING_UP. -/
def powerOff (s : State) : State :=
  { State.reset with
    mgmt := { power := false, idKey := s.mgmt.idKey, randoms := s.mgmt.randoms }
    out := s.out, choices := s.choices, freeCtr := s.freeCtr, nextId := s.nextId
    agenda := s.agenda.filter fun i => i == .bringUp }
def execModulePowerRemoval (s : State) : Out3 := .next (powerOff s).useFree

end Sys2Proof.Machine
end

