-- ==== Sys2Proof/Machine/Trans.lean ====
section
/-! DEFINITION. FACT and SFN (16 R366, R367; 18 R429). The manual fixes every result: the exact value of the function, rounded
once to F32. The values are computed in fixed point with 512 fraction bits, far beyond what the rounding of any F32 operand
needs, and odd in the last bit where they are not exact (DEDUCED, log 4). -/

namespace Sys2Proof.Machine

/-- Fraction bits of the fixed-point values. -/
def fxP : Nat := 512
def fxOne : Nat := 2 ^ fxP

/-- The integer square root, bit by bit. -/
def isqrt : Nat → Nat → Nat → Nat
  | 0, _, r => r
  | b + 1, n, r => isqrt b n (if (r + 2 ^ b) * (r + 2 ^ b) ≤ n then r + 2 ^ b else r)

/-- Σ sgn^k · z^(2k+1) / (2k+1), for atanh (`sgn` = 1) and atan (`sgn` = −1). -/
def oddSeries (sgn : Int) (z2 : Nat) : Nat → Int → Nat → Int → Int
  | 0, _, _, acc => acc
  | n + 1, s, p, acc =>
    let k := 2 * (200 - n) - 1
    oddSeries sgn z2 n (s * sgn) (p * z2 / fxOne) (acc + s * ((p / k : Nat) : Int))
def atanhFx (z : Nat) : Nat := (oddSeries 1 (z * z / fxOne) 200 1 z 0).toNat
def atanFx (z : Nat) : Nat := (oddSeries (-1) (z * z / fxOne) 200 1 z 0).toNat

/-- ln 2 = 2 atanh(1/3), π = 16 atan(1/5) − 4 atan(1/239), √(2/π). -/
def ln2Fx : Nat := 2 * atanhFx (fxOne / 3)
def piFx : Nat := 16 * atanFx (fxOne / 5) - 4 * atanFx (fxOne / 239)
def geluC : Nat := isqrt (fxP + 1) (2 * fxOne * fxOne * fxOne / piFx) 0

/-- e^y for 0 ≤ y < 1 by Taylor's series. -/
def expSeries (y : Nat) : Nat → Nat → Nat → Nat
  | 0, _, acc => acc
  | n + 1, term, acc =>
    let t := term * y / fxOne / (140 - n)
    expSeries y n t (acc + t)
/-- e^y = m · 2^n with 1 ≤ m < 2. -/
def expFx (y : Int) : Nat × Int :=
  let n := y.fdiv ln2Fx
  (expSeries (y - n * ln2Fx).toNat 140 fxOne fxOne, n)

/-- sin and cos of 0 ≤ y < π/2: alternating series from a first term of a degree. -/
def trigSeries (y2 : Nat) : Nat → Nat → Int → Int → Int → Int
  | 0, _, _, _, acc => acc
  | n + 1, d, s, t, acc =>
    let t' := t * (y2 : Int) / (fxOne : Int) / (((d + 1) * (d + 2) : Nat) : Int)
    trigSeries y2 n (d + 2) (-s) t' (acc - s * t')
def sinFx (y : Nat) : Nat := (trigSeries (y * y / fxOne) 80 1 1 y y).toNat
def cosFx (y : Nat) : Nat := (trigSeries (y * y / fxOne) 80 0 1 (fxOne : Int) (fxOne : Int)).toNat

/-- A value known to lie strictly between `m` and `m + 1` units. -/
def sticky (neg : Bool) (m : Nat) (e : Int) : FV := .num neg (2 * m + 1) (e - 1)

/-- ±m · 2^e in fixed point. -/
def toFx (m : Nat) (e : Int) : Nat := if 0 ≤ e + fxP then m * 2 ^ (e + fxP).toNat else m / 2 ^ (-(e + fxP)).toNat

/-- 1/x, √x and 1/√x of m · 2^e, m > 0. -/
def recipVal (neg : Bool) (m : Nat) (e : Int) : FV :=
  let n := 2 ^ 300
  if n % m = 0 then .num neg (n / m) (-e - 300) else sticky neg (n / m) (-e - 300)
def sqrtVal (m : Nat) (e : Int) : FV :=
  let m' := if e.emod 2 = 0 then m else 2 * m
  let e' := if e.emod 2 = 0 then e else e - 1
  let n := m' * 2 ^ 200
  let r := isqrt 120 n 0
  if r * r = n then .num false r (e' / 2 - 100) else sticky false r (e' / 2 - 100)
def rsqrtVal (m : Nat) (e : Int) : FV :=
  let m' := if e.emod 2 = 0 then m else 2 * m
  let e' := if e.emod 2 = 0 then e else e - 1
  let r := isqrt 160 (2 ^ 300 / m') 0
  if r * r * m' = 2 ^ 300 then .num false r (-(e' / 2) - 150) else sticky false r (-(e' / 2) - 150)

/-- 2^x for x = ±m · 2^e, m > 0. Beyond ±2⁹ the result overflows or rounds to zero. -/
def exp2Val (neg : Bool) (m : Nat) (e : Int) : FV :=
  if 9 ≤ e + bitLen m - 1 then .num false 1 (if neg then -1024 else 1024)
  else
    let y : Int := if neg then -(toFx m e : Int) else toFx m e
    let n := y.fdiv fxOne
    let f := (y - n * fxOne).toNat
    if f = 0 then .num false 1 n
    else sticky false (expSeries (f * ln2Fx / fxOne) 140 fxOne fxOne) (n - fxP)

/-- log₂ of m · 2^e, m > 0. -/
def log2Val (m : Nat) (e : Int) : FV :=
  let k := bitLen m - 1
  let n : Int := e + k
  if m = 2 ^ k then .num (n < 0) n.natAbs 0
  else
    let y := m * 2 ^ (fxP - k)
    let z := (y - fxOne) * fxOne / (y + fxOne)
    let x : Int := n * fxOne + ((2 * atanhFx z * fxOne / ln2Fx : Nat) : Int)
    sticky (x < 0) x.natAbs (-fxP)

/-- sin and cos of ±m · 2^e in radians, reduced with π to 512 bits (the largest F32 operand is below 2¹²⁸). -/
def trigVal (cos neg : Bool) (m : Nat) (e : Int) : FV :=
  let x := toFx m e
  let half := piFx / 2
  let q := 2 * x / piFx
  let y := x - (q * piFx / 2)
  let y := min y half
  let q := (if cos then q + 1 else q) % 4
  let v := if q % 2 = 0 then sinFx y else cosFx y
  sticky (decide (2 ≤ q) != (neg && !cos)) v (-fxP)

/-- 1 / (1 + e^(−y)) for fixed-point y, times ±m · 2^e. -/
def logistic (y : Int) (neg : Bool) (m : Nat) (e : Int) : FV :=
  let (a, n) := expFx (-y)
  if 0 ≤ n then
    let k := 2 * fxP + n.toNat
    sticky neg (m * (2 ^ (fxP + k) / (fxOne + a * 2 ^ n.toNat))) (e - k)
  else sticky neg (m * (fxOne * fxOne / (fxOne + a / 2 ^ (-n).toNat))) (e - fxP)

/-- Fixed-point ±m · 2^e, clamped to ±lim. -/
def clampFx (lim : Nat) (neg : Bool) (m : Nat) (e : Int) : Int :=
  let x : Int := if (bitLen lim : Int) < e + bitLen m then (lim * fxOne : Nat) else (min (toFx m e) (lim * fxOne) : Nat)
  if neg then -x else x

def tanhVal (neg : Bool) (m : Nat) (e : Int) : FV :=
  let (a, n) := expFx (2 * clampFx 512 false m e)
  let b := a * 2 ^ n.toNat
  sticky neg ((b - fxOne) * fxOne / (b + fxOne)) (-fxP)

def geluVal (neg : Bool) (m : Nat) (e : Int) : FV :=
  let x := clampFx 64 neg m e
  let x3 := x * x * x / ((fxOne * fxOne : Nat) : Int)
  let t := x + x3 * 44715 / 1000000
  logistic (2 * ((geluC : Int) * t / (fxOne : Int))) neg m e

/-- SFN on an exact value (R429). -/
def sfnVal (fn : Nat) : FV → FV
  | .nan => .nan
  | .inf n => match fn with
    | 0 => .num n 0 0
    | 1 => if n then .nan else .num false 0 0
    | 2 => if n then .nan else .inf false
    | 3 => if n then .num false 0 0 else .inf false
    | 4 => if n then .nan else .inf false
    | _ => .nan
  | .num n m e =>
    if m = 0 then match fn with
      | 0 => .inf n
      | 1 => .inf n
      | 2 => .num n 0 0
      | 3 => .num false 1 0
      | 4 => .inf true
      | 5 => .num n 0 0
      | _ => .num false 1 0
    else match fn with
      | 0 => recipVal n m e
      | 1 => if n then .nan else rsqrtVal m e
      | 2 => if n then .nan else sqrtVal m e
      | 3 => exp2Val n m e
      | 4 => if n then .nan else log2Val m e
      | 5 => trigVal false n m e
      | _ => trigVal true n m e

/-- FACT on an exact value (R367). -/
def factVal (fn : Nat) : FV → FV
  | .nan => .nan
  | .inf n => match fn with
    | 0 => if n then .num false 0 0 else .inf false
    | 1 | 2 => if n then .num true 0 0 else .inf false
    | 3 => .num false (if n then 0 else 1) 0
    | _ => .num n 1 0
  | .num n m e =>
    if m = 0 then match fn with
      | 0 => .num false 0 0
      | 3 => .num false 1 (-1)
      | _ => .num n 0 0
    else match fn with
      | 0 => if n then .num false 0 0 else .num false m e
      | 1 => geluVal n m e
      | 2 => logistic (clampFx 1024 n m e) n m e
      | 3 => logistic (clampFx 1024 n m e) false 1 0
      | _ => tanhVal n m e

/-- One element: read, computed and rounded to F32, rounded to the type, .ftz applied. -/
def unaryElem (t : Nat) (ftz : Bool) (g : FV → FV) (x : Nat) : Nat :=
  let fm := fmtOf t
  let r := fF32.round 0 false false (g (fm.dec ftz (x % 2 ^ fm.bits)))
  fm.round 0 false ftz (fF32.dec false r)
def unaryVal (m : BitVec 8) (g : FV → FV) (a : W64) : W64 :=
  let t := modType m
  let z := modSF m
  BitVec.ofNat 64 (unaryElem t z g a.toNat + if t == 17 || t == 18 then 65536 * unaryElem t z g (a.toNat / 65536) else 0)

def execSfn (h : Hdr) (v : BitVec 3) (f : Reg) (s : State) : Out3 :=
  runWarp h (.sfn h v f) (regOp1 f false false 12 (unaryVal f.m (sfnVal v.toNat))) s
def execFact (h : Hdr) (v : BitVec 3) (f : Reg) (s : State) : Out3 :=
  runWarp h (.fact h v f) (regOp1 f false false 10 (unaryVal f.m (factVal v.toNat))) s

end Sys2Proof.Machine
end

