-- ==== Sys2Proof/Machine/Dispatch.lean ====
section
/-! DEFINITION. One arm for each constructor: each calls the meaning of its instruction or event. -/

namespace Sys2Proof.Machine

/-- The meaning of an instruction or event. -/
def exec (i : Instr) (s : State) : Host.Outcome State Fault Refusal :=
  match i with
  | .atom h v f => Sys2Proof.Machine.execAtom h v f s
  | .atomAddFloat h v f => Sys2Proof.Machine.execAtomAddFloat h v f s
  | .atoms h v f => Sys2Proof.Machine.execAtoms h v f s
  | .atomsAddFloat h v f => Sys2Proof.Machine.execAtomsAddFloat h v f s
  | .bar h f => Sys2Proof.Machine.execBar h f s
  | .bfe h f => Sys2Proof.Machine.execBfe h f s
  | .bfi h v f => Sys2Proof.Machine.execBfi h v f s
  | .bkpt h f => Sys2Proof.Machine.execBkpt h f s
  | .bra h f => Sys2Proof.Machine.execBra h f s
  | .braFar h f => Sys2Proof.Machine.execBraFar h f s
  | .brev h f => Sys2Proof.Machine.execBrev h f s
  | .brx h f => Sys2Proof.Machine.execBrx h f s
  | .call h f => Sys2Proof.Machine.execCall h f s
  | .callFar h f => Sys2Proof.Machine.execCallFar h f s
  | .callx h f => Sys2Proof.Machine.execCallx h f s
  | .cbar h f => Sys2Proof.Machine.execCbar h f s
  | .clz h f => Sys2Proof.Machine.execClz h f s
  | .coll h f => Sys2Proof.Machine.execColl h f s
  | .cpy h f => Sys2Proof.Machine.execCpy h f s
  | .cvt h f => Sys2Proof.Machine.execCvt h f s
  | .eret h f => Sys2Proof.Machine.execEret h f s
  | .exit h f => Sys2Proof.Machine.execExit h f s
  | .fact h v f => Sys2Proof.Machine.execFact h v f s
  | .fadd h v f => Sys2Proof.Machine.execFadd h v f s
  | .fcmp h f => Sys2Proof.Machine.execFcmp h f s
  | .fcmpFtz h f => Sys2Proof.Machine.execFcmpFtz h f s
  | .fence h f => Sys2Proof.Machine.execFence h f s
  | .ffma h v f => Sys2Proof.Machine.execFfma h v f s
  | .flushr h f => Sys2Proof.Machine.execFlushr h f s
  | .fmex h f => Sys2Proof.Machine.execFmex h f s
  | .fmul h v f => Sys2Proof.Machine.execFmul h v f s
  | .give h f => Sys2Proof.Machine.execGive h f s
  | .giveFree h f => Sys2Proof.Machine.execGiveFree h f s
  | .grow h f => Sys2Proof.Machine.execGrow h f s
  | .hrel h f => Sys2Proof.Machine.execHrel h f s
  | .iabs h f => Sys2Proof.Machine.execIabs h f s
  | .iadd h f => Sys2Proof.Machine.execIadd h f s
  | .iaddImm h f => Sys2Proof.Machine.execIaddImm h f s
  | .icmp h f => Sys2Proof.Machine.execIcmp h f s
  | .icmpImm h f => Sys2Proof.Machine.execIcmpImm h f s
  | .imad h v f => Sys2Proof.Machine.execImad h v f s
  | .imul h f => Sys2Proof.Machine.execImul h f s
  | .imulImm h f => Sys2Proof.Machine.execImulImm h f s
  | .invr h f => Sys2Proof.Machine.execInvr h f s
  | .ishl h f => Sys2Proof.Machine.execIshl h f s
  | .ishlImm h f => Sys2Proof.Machine.execIshlImm h f s
  | .ishr h f => Sys2Proof.Machine.execIshr h f s
  | .ishrImm h f => Sys2Proof.Machine.execIshrImm h f s
  | .ld h v f => Sys2Proof.Machine.execLd h v f s
  | .lds h v f => Sys2Proof.Machine.execLds h v f s
  | .ldsCl h v f => Sys2Proof.Machine.execLdsCl h v f s
  | .ldt h f => Sys2Proof.Machine.execLdt h f s
  | .ldtTry h f => Sys2Proof.Machine.execLdtTry h f s
  | .lngo h f => Sys2Proof.Machine.execLngo h f s
  | .lnset h f => Sys2Proof.Machine.execLnset h f s
  | .lop h f => Sys2Proof.Machine.execLop h f s
  | .lopImm h f => Sys2Proof.Machine.execLopImm h f s
  | .match_ h f => Sys2Proof.Machine.execMatch h f s
  | .mbarv h f => Sys2Proof.Machine.execMbarv h f s
  | .mbinit h f => Sys2Proof.Machine.execMbinit h f s
  | .mbwait h f => Sys2Proof.Machine.execMbwait h f s
  | .mma h f => Sys2Proof.Machine.execMma h f s
  | .mmaSp h f => Sys2Proof.Machine.execMmaSp h f s
  | .mmal h f => Sys2Proof.Machine.execMmal h f s
  | .mmalSp h f => Sys2Proof.Machine.execMmalSp h f s
  | .mov h f => Sys2Proof.Machine.execMov h f s
  | .movToG h f => Sys2Proof.Machine.execMovToG h f s
  | .movi h f => Sys2Proof.Machine.execMovi h f s
  | .moviToG h f => Sys2Proof.Machine.execMoviToG h f s
  | .movl h f => Sys2Proof.Machine.execMovl h f s
  | .movlToG h f => Sys2Proof.Machine.execMovlToG h f s
  | .nop h f => Sys2Proof.Machine.execNop h f s
  | .plop h f => Sys2Proof.Machine.execPlop h f s
  | .popc h f => Sys2Proof.Machine.execPopc h f s
  | .pref h f => Sys2Proof.Machine.execPref h f s
  | .qswz h f => Sys2Proof.Machine.execQswz h f s
  | .rdsr h f => Sys2Proof.Machine.execRdsr h f s
  | .rdsrToG h f => Sys2Proof.Machine.execRdsrToG h f s
  | .redeem h f => Sys2Proof.Machine.execRedeem h f s
  | .redeemS h f => Sys2Proof.Machine.execRedeemS h f s
  | .redux h f => Sys2Proof.Machine.execRedux h f s
  | .ret h f => Sys2Proof.Machine.execRet h f s
  | .ringpop h f => Sys2Proof.Machine.execRingpop h f s
  | .ringpub h f => Sys2Proof.Machine.execRingpub h f s
  | .ringres h f => Sys2Proof.Machine.execRingres h f s
  | .sbr h f => Sys2Proof.Machine.execSbr h f s
  | .seal h f => Sys2Proof.Machine.execSeal h f s
  | .unseal h f => Sys2Proof.Machine.execUnseal h f s
  | .sel h f => Sys2Proof.Machine.execSel h f s
  | .sfn h v f => Sys2Proof.Machine.execSfn h v f s
  | .shfl h f => Sys2Proof.Machine.execShfl h f s
  | .shrink h f => Sys2Proof.Machine.execShrink h f s
  | .sqrun h f => Sys2Proof.Machine.execSqrun h f s
  | .sqstop h f => Sys2Proof.Machine.execSqstop h f s
  | .sqwait h f => Sys2Proof.Machine.execSqwait h f s
  | .st h v f => Sys2Proof.Machine.execSt h v f s
  | .stNt h v f => Sys2Proof.Machine.execStNt h v f s
  | .sts h v f => Sys2Proof.Machine.execSts h v f s
  | .stsCl h v f => Sys2Proof.Machine.execStsCl h v f s
  | .syield h f => Sys2Proof.Machine.execSyield h f s
  | .take h f => Sys2Proof.Machine.execTake h f s
  | .takeNew h f => Sys2Proof.Machine.execTakeNew h f s
  | .tstat h f => Sys2Proof.Machine.execTstat h f s
  | .tcpy h f => Sys2Proof.Machine.execTcpy h f s
  | .tcvt h f => Sys2Proof.Machine.execTcvt h f s
  | .tfmas h f => Sys2Proof.Machine.execTfmas h f s
  | .tmax h f => Sys2Proof.Machine.execTmax h f s
  | .tzero h f => Sys2Proof.Machine.execTzero h f s
  | .tld h f => Sys2Proof.Machine.execTld h f s
  | .tst h f => Sys2Proof.Machine.execTst h f s
  | .tgld h f => Sys2Proof.Machine.execTgld h f s
  | .tgst h f => Sys2Proof.Machine.execTgst h f s
  | .tkdrop h f => Sys2Proof.Machine.execTkdrop h f s
  | .trap h f => Sys2Proof.Machine.execTrap h f s
  | .txp h f => Sys2Proof.Machine.execTxp h f s
  | .vote h f => Sys2Proof.Machine.execVote h f s
  | .waitk h f => Sys2Proof.Machine.execWaitk h f s
  | .wrsr h f => Sys2Proof.Machine.execWrsr h f s
  | .xlt h f => Sys2Proof.Machine.execXlt h f s
  | .bundle hd m v l x c => Sys2Proof.Machine.execBundle hd m v l x c s
  | .branchIntoLiteral => Sys2Proof.Machine.execBranchIntoLiteral s
  | .memoryErrorDetected loc double => Sys2Proof.Machine.execMemoryErrorDetected loc double s
  | .fixedResultLands core => Sys2Proof.Machine.execFixedResultLands core s
  | .variableResultDone core id => Sys2Proof.Machine.execVariableResultDone core id s
  | .warpStarvation core slot => Sys2Proof.Machine.execWarpStarvation core slot s
  | .contextQuantumYield core => Sys2Proof.Machine.execContextQuantumYield core s
  | .dispatcherTakeRecord part ring => Sys2Proof.Machine.execDispatcherTakeRecord part ring s
  | .placeCluster part ring => Sys2Proof.Machine.execPlaceCluster part ring s
  | .gridClassify grid => Sys2Proof.Machine.execGridClassify grid s
  | .groupRetire gid => Sys2Proof.Machine.execGroupRetire gid s
  | .completionAction grid => Sys2Proof.Machine.execCompletionAction grid s
  | .ringWaitServed id => Sys2Proof.Machine.execRingWaitServed id s
  | .growGrant core => Sys2Proof.Machine.execGrowGrant core s
  | .takeNewGrant core => Sys2Proof.Machine.execTakeNewGrant core s
  | .takeComplete core agent => Sys2Proof.Machine.execTakeComplete core agent s
  | .tileFreed core tile => Sys2Proof.Machine.execTileFreed core tile s
  | .barComplete gid => Sys2Proof.Machine.execBarComplete gid s
  | .cbarComplete cluster => Sys2Proof.Machine.execCbarComplete cluster s
  | .timedCopyStart core id => Sys2Proof.Machine.execTimedCopyStart core id s
  | .copyComplete core id => Sys2Proof.Machine.execCopyComplete core id s
  | .copyPageFault core id => Sys2Proof.Machine.execCopyPageFault core id s
  | .wcEntryDrain core line => Sys2Proof.Machine.execWcEntryDrain core line s
  | .l1Evict core line => Sys2Proof.Machine.execL1Evict core line s
  | .promotion core => Sys2Proof.Machine.execPromotion core s
  | .clusterForward src dst => Sys2Proof.Machine.execClusterForward src dst s
  | .fdResolve core line => Sys2Proof.Machine.execFdResolve core line s
  | .sealComplete part reg => Sys2Proof.Machine.execSealComplete part reg s
  | .unsealComplete part reg => Sys2Proof.Machine.execUnsealComplete part reg s
  | .ticketAllocate core id => Sys2Proof.Machine.execTicketAllocate core id s
  | .ldtQuotaGrant slice part => Sys2Proof.Machine.execLdtQuotaGrant slice part s
  | .ticketFetchComplete slice entry => Sys2Proof.Machine.execTicketFetchComplete slice entry s
  | .ticketSliceRequest core agent => Sys2Proof.Machine.execTicketSliceRequest core agent s
  | .ticketLeaseEnd slice entry => Sys2Proof.Machine.execTicketLeaseEnd slice entry s
  | .pageWalk core part va => Sys2Proof.Machine.execPageWalk core part va s
  | .pagerRequest part va who => Sys2Proof.Machine.execPagerRequest part va who s
  | .pageInStart pager key => Sys2Proof.Machine.execPageInStart pager key s
  | .nvmeCompletion drive cid status => Sys2Proof.Machine.execNvmeCompletion drive cid status s
  | .stqSubmitWaiting drive => Sys2Proof.Machine.execStqSubmitWaiting drive s
  | .pageInInstall pager key => Sys2Proof.Machine.execPageInInstall pager key s
  | .pageInTimeout pager key => Sys2Proof.Machine.execPageInTimeout pager key s
  | .sweepStep part => Sys2Proof.Machine.execSweepStep part s
  | .evictWriteComplete pager key => Sys2Proof.Machine.execEvictWriteComplete pager key s
  | .shootdown part va => Sys2Proof.Machine.execShootdown part va s
  | .shootdownComplete part => Sys2Proof.Machine.execShootdownComplete part s
  | .contextUnfreeze core ctx => Sys2Proof.Machine.execContextUnfreeze core ctx s
  | .warpUnpark core slot => Sys2Proof.Machine.execWarpUnpark core slot s
  | .codeFillComplete core ctx => Sys2Proof.Machine.execCodeFillComplete core ctx s
  | .groupSwapOut gid => Sys2Proof.Machine.execGroupSwapOut gid s
  | .priorityPreempt part ring => Sys2Proof.Machine.execPriorityPreempt part ring s
  | .groupRestore gid => Sys2Proof.Machine.execGroupRestore gid s
  | .fltrespResume part fid => Sys2Proof.Machine.execFltrespResume part fid s
  | .fltrespAbort part fid => Sys2Proof.Machine.execFltrespAbort part fid s
  | .fltack part n => Sys2Proof.Machine.execFltack part n s
  | .tlbinv part val => Sys2Proof.Machine.execTlbinv part val s
  | .tkcfgWrite part val => Sys2Proof.Machine.execTkcfgWrite part val s
  | .tkstatWrite part val => Sys2Proof.Machine.execTkstatWrite part val s
  | .tkquotaWrite part val => Sys2Proof.Machine.execTkquotaWrite part val s
  | .lringWrite part ring val => Sys2Proof.Machine.execLringWrite part ring val s
  | .hrcmdReserve part chan lo => Sys2Proof.Machine.execHrcmdReserve part chan lo s
  | .hrcmdPublish part chan lo slot => Sys2Proof.Machine.execHrcmdPublish part chan lo slot s
  | .hrcmdTake part chan lo => Sys2Proof.Machine.execHrcmdTake part chan lo s
  | .partsuspSuspend part dst => Sys2Proof.Machine.execPartsuspSuspend part dst s
  | .partsuspResume part => Sys2Proof.Machine.execPartsuspResume part s
  | .pctlCreate part => Sys2Proof.Machine.execPctlCreate part s
  | .pctlReset part => Sys2Proof.Machine.execPctlReset part s
  | .pctlDestroy part => Sys2Proof.Machine.execPctlDestroy part s
  | .pcoreWrite part hi val => Sys2Proof.Machine.execPcoreWrite part hi val s
  | .devreset val => Sys2Proof.Machine.execDevreset val s
  | .stqcfgFlush drive => Sys2Proof.Machine.execStqcfgFlush drive s
  | .attctlReport => Sys2Proof.Machine.execAttctlReport s
  | .moncfgSnap unit => Sys2Proof.Machine.execMoncfgSnap unit s
  | .moncfgClr unit => Sys2Proof.Machine.execMoncfgClr unit s
  | .alarmlogWrite val => Sys2Proof.Machine.execAlarmlogWrite val s
  | .registerWrite fn off val => Sys2Proof.Machine.execRegisterWrite fn off val s
  | .hostBar2Read part va n => Sys2Proof.Machine.execHostBar2Read part va n s
  | .hostBar2Write part va bytes => Sys2Proof.Machine.execHostBar2Write part va bytes s
  | .hostAtomicop part va op n cmp val => Sys2Proof.Machine.execHostAtomicop part va op n cmp val s
  | .hostReadTimeout id => Sys2Proof.Machine.execHostReadTimeout id s
  | .peerAccess port issuer ftag off op => Sys2Proof.Machine.execPeerAccess port issuer ftag off op s
  | .flitRetry port => Sys2Proof.Machine.execFlitRetry port s
  | .linkDown port => Sys2Proof.Machine.execLinkDown port s
  | .bridgeRetry bridge => Sys2Proof.Machine.execBridgeRetry bridge s
  | .collStep id chunk peers => Sys2Proof.Machine.execCollStep id chunk peers s
  | .collComplete id status => Sys2Proof.Machine.execCollComplete id status s
  | .collTimeout id => Sys2Proof.Machine.execCollTimeout id s
  | .driveDma drive write pa bytes => Sys2Proof.Machine.execDriveDma drive write pa bytes s
  | .powerThrottle watts step => Sys2Proof.Machine.execPowerThrottle watts step s
  | .thermalTrip die => Sys2Proof.Machine.execThermalTrip die s
  | .tamperAlarm sensor => Sys2Proof.Machine.execTamperAlarm sensor s
  | .tamperLevel2 sensor => Sys2Proof.Machine.execTamperLevel2 sensor s
  | .fatalDeviceError cause => Sys2Proof.Machine.execFatalDeviceError cause s
  | .bringUp => Sys2Proof.Machine.execBringUp s
  | .illegalOpcode w => Sys2Proof.Machine.execIllegalOpcode w s
  | .instructionFetchFault => Sys2Proof.Machine.execInstructionFetchFault s
  | .modulePowerRemoval => Sys2Proof.Machine.execModulePowerRemoval s

end Sys2Proof.Machine
end

