-- ==== Sys2Proof/Machine/Moves.lean ====
section
/-! DEFINITION. What happens next: an event of the agenda, an issue of a quarter or of a sequencer, or the end of a cycle
(02 R52 to R56; 05 R55; 07 R167; 08 R191; 10 R236; 12 R271, R289, R294; DESIGN CHOICE, log 1). -/

namespace Sys2Proof.Machine

/-- One move of the machine. -/
inductive Move where
  | run (i : Instr) (s : State)
  | tick (s : State)
  | stop (f : Fault)

/-! ### The end of a cycle -/

/-- Events that a state makes happen without an agent: what is due, and what waits for room. -/
def dueEvents (s : State) : List Instr :=
  let thaws := s.ctxs.filterMap fun kx =>
    if kx.2.bound && kx.2.state == .frozen && kx.2.wait == .none && !groupHeld s kx.2.gid then
      some (Instr.contextUnfreeze (kx.1 / 4) (kx.1 % 4)) else none
  let starving := s.warps.filterMap fun kw =>
    if kw.2.waitCount == 256 then some (Instr.warpStarvation (kw.1 / 64) (kw.1 % 64)) else none
  let leases := s.tickets.filterMap fun t =>
    if (t.2.st == .full || t.2.st == .poisoned) &&
        (let due := t.2.clock + 2 ^ (s.part t.2.part).lease.toNat
         due ≤ s.now && (s.free (98000 + t.1)).getLsbD 0) then
      some (Instr.ticketLeaseEnd (t.1 / 1024) (t.1 % 1024)) else none
  let reads := s.hostReads.filterMap fun r => if r.since + 2 ^ 26 ≤ s.now then some (Instr.hostReadTimeout r.id) else none
  let flights := s.inflight.flatMap fun f =>
    if f.2.evict then []
    else if f.2.stage < 2 then [Instr.pageInStart f.1.1 f.1.2]
    else if f.2.deadline != 0 && f.2.deadline ≤ s.now then [Instr.pageInTimeout f.1.1 f.1.2] else []
  let colls := s.colls.filterMap fun x =>
    if x.ends.isSome then none
    else if collDown s x then some (Instr.collComplete x.id 2)
    else if x.running && x.issued + 2 ^ 31 ≤ s.now then some (Instr.collTimeout x.id) else none
  let grids := s.grids.flatMap fun g =>
    (match g.2.firstPlaced with
      | some t => if !g.2.classified && t + 2 ^ 20 ≤ s.now then [Instr.gridClassify g.1] else []
      | none => []) ++ (if g.2.acting && !g.2.done then [Instr.completionAction g.1] else [])
  let groups := s.groups.flatMap fun g => match g.2.phase with
    | .saving _ => [Instr.groupSwapOut g.1]
    | .saved _ => if becomesReady s g.1 g.2 then [Instr.groupRestore g.1] else []
    | _ => []
  let shoots := ((s.shoots.filter (shootQuiet s)).map (·.part)).eraseDups.map Instr.shootdownComplete
  thaws ++ starving ++ leases ++ reads ++ flights ++ colls ++ grids ++ groups ++ shoots

/-- The same for one partition. -/
def dueOfPart (s : State) (n : Nat) (p : Part) : List Instr :=
  let rings := p.turn.flatMap fun r => match mget? p.held r with
    | some t => Instr.placeCluster n r :: (if t + 4096 ≤ s.now then [Instr.priorityPreempt n r] else [])
    | none => []
  let seals := (p.seals.filter fun r => sealState r.2 == 1 && sealQuiet s n r.1).map fun r => Instr.sealComplete n r.1
  rings ++ seals ++ (if s.recWaits.any fun r => r.1 == n then [Instr.fltack n 0] else []) ++ (if sweepRuns s n then [Instr.sweepStep n] else [])

/-- A cycle ends: waiting counts, the time, what is due, and what waited for room. -/
def tick (s : State) : State :=
  let s := { notePoints (resetQuanta (countCtxWaits (countWaits s))) with now := s.now + 1, issued := [] }
  let s := s.parts.foldl (fun s p => partServe s p.1) (latchReady (startColls (retryDeferred s)))
  let s := resumeServe (suspendServe s)
  let due := dueEvents s ++ s.parts.flatMap fun p => dueOfPart s p.1 p.2
  ({ s with agenda := s.agenda ++ due }).useFree

/-! ### Issue -/

/-- A warp issues: its quarter has issued in this cycle. -/
def warpTurn (s : State) (c w : Nat) : Move :=
  let (i, s) := fetchWarp { s with cur := .warp c w, turn := .none, issued := insertNat (5 * c + w / 16) s.issued } c w
  .run i s
/-- A context comes to issue. A fetch without a bundle is no issue. -/
def ctxTurn (s : State) (c k : Nat) : Move :=
  match fetchCtx { s with cur := .ctx c k, turn := .none } c k with
  | (.codeFillComplete c k, s) => .run (.codeFillComplete c k) { s with cur := .none }
  | (i, s) => .run i { s with issued := insertNat (5 * c + 4) s.issued }

/-- Quarters and sequencers that hold an agent, by 5 · core + quarter, with 4 for the sequencer. -/
def unitsOf (s : State) : List Nat :=
  (s.warps.map fun kw => 5 * (kw.1 / 64) + kw.1 % 64 / 16).eraseDups ++ (s.ctxs.map fun kx => 5 * (kx.1 / 4) + 4).eraseDups

/-- What a unit does in this cycle. -/
def unitMove (s : State) (u : Nat) : Option Move :=
  let c := u / 5
  if s.issued.contains u then none
  else if u % 5 < 4 then
    (if withheld s then none else (pickWarp s c (u % 5)).map fun w => warpTurn s c w)
  else match yieldTo s c with
    | some _ => some (.run (.contextQuantumYield c) { s with cur := .none })
    | none => (pickCtx s c).map fun k => ctxTurn s c k

/-- The first unit that issues, or the end of the cycle. -/
def arbitrate (s : State) : Move :=
  match (unitsOf s).findSome? (unitMove s) with
  | some m => m
  | none => .tick (tick s)

/-- The `k`-th event of the agenda. -/
def agendaMove (s : State) (k : Nat) : Option Move :=
  (s.agenda[k]?).map fun e => .run e { s with agenda := s.agenda.eraseIdx k, cur := .none }

/-- Events before issues; where the manual leaves their order open, `choices` names the one that comes next, and a number past the
agenda lets an issue come first. -/
def freeMove (s : State) : Move :=
  if s.agenda.isEmpty then arbitrate s
  else match s.choices with
    | [] => (agendaMove s 0).getD (arbitrate s)
    | n :: t => (agendaMove { s with choices := t } n).getD (arbitrate { s with choices := t })

/-- A core with a result that is due. -/
def landingCore (s : State) : Option Nat := (s.cores.find? fun ck => ck.2.pend.any fun p => p.due ≤ s.now).map (·.1)

/-- The first copy of a core in the order of issue that starts in this cycle (07 R167). -/
def startingCopy (s : State) : Option Instr :=
  s.cores.findSome? fun ck =>
    if ck.2.trackerFull then none
    else (ck.2.copies.find? fun x => !x.started && dTime x.desc ≤ s.now).map fun x => .timedCopyStart ck.1 x.id

/-- A ticket whose lease window ends in this cycle (08 R191). -/
def endingLease (s : State) : Option Instr :=
  (s.tickets.find? fun t => (t.2.st == .full || t.2.st == .poisoned) &&
    t.2.clock + 2 ^ (s.part t.2.part).lease.toNat + 1024 ≤ s.now).map fun t => .ticketLeaseEnd (t.1 / 1024) (t.1 % 1024)

/-- What happens next. Results that are due land before anything else of their cycle; then copies start whose time has come, and leases
end whose window has passed. -/
def nextMove (s : State) : Move :=
  if !s.mgmt.power then (agendaMove s 0).getD (.stop .powerOff)
  else if s.mgmt.fatal then (agendaMove s 0).getD (.stop .halted)
  else match landingCore s with
    | some c => .run (.fixedResultLands c) { s with cur := .none }
    | none =>
    match (startingCopy s).or (endingLease s) with
    | some i => .run i { s with cur := .none }
    | none =>
      match s.turn with
      | .warp c w => if (s.warp c w).first.isSome then warpTurn s c w else freeMove { s with turn := .none }
      | .ctx c k => if (s.ctx c k).bound then ctxTurn s c k else freeMove { s with turn := .none }
      | .none => freeMove s

/-! ### Placing an instruction where the next step fetches it (DESIGN CHOICE, log 1) -/

/-- The launch record of the placed instruction's grid: one group of 32 threads with six tiles, a frontier of eight entries, four
frames, 4 KiB of scratchpad and one context. -/
def placedRecord : BitVec 1024 :=
  BitVec.ofNat 1024 (2 ^ 64 + 2 ^ 96 + 2 ^ 112 + 32 * 2 ^ 128 + 2 ^ 144 + 2 ^ 152 + 6 * 2 ^ 160 + 6 * 2 ^ 168 + 8 * 2 ^ 176 +
    4 * 2 ^ 184 + 4096 * 2 ^ 192)
/-- Its kernel header: an index stream of 25 entries at 0x800, one of which the entry table at 0xC00 names. -/
def placedHeader : List W64 := [0, 0x800, 0x0001000000000019, 0, 0xC00, 0, 0, 0]
/-- The partition: frames from 0, tables from 0x1000, core 0, a trap handler at 0x100. -/
def placedPart : Part := { state := 1, pcore := 1, cores := [0], pframe := BitVec.ofNat 64 (2 ^ 32), ptroot := 0x1001, traph := 0x101 }
/-- Its tables: one readable, writable, executable page at virtual address 0 in frame 0x5000, accessed and dirty. -/
def placedTables (s : State) : State :=
  (((s.wr64 0x1000 0x2001).wr64 0x2000 0x3001).wr64 0x3000 0x4001).wr64 0x4000 0x5379

/-- The state with bytes at the placed page and an agent that fetches them. -/
def placeAgent (s : State) (ctx : Bool) (ofs : Nat) (bytes : List Byte) : State :=
  let g := s.nextId
  let s := placedTables (s.modMgmt fun m => { m with power := true, fatal := false, throttle := 0 })
  let s := (s.wrBytes (0x5000 + ofs) bytes).setPart 0 placedPart
  let s := { s with agenda := [], choices := [], issued := [], stlbs := [], nextId := g + 1,
                    cores := mmap (fun _ k => { k with pend := k.pend.filter fun p => s.now < p.due }) s.cores }
  let s := (s.setGrid g { part := 0, record := placedRecord, khdr := placedHeader, entries := [0], nextCluster := 1 }).setCore 0
    { owners := (List.range 6).map fun i => (i, { st := .warp, owner := 0, allot := true, gid := g }) }
  let s := { s with clusters := mput s.clusters g { grid := g, number := 0, groups := [g], placed := 0 } }
  let s := s.setGroup g { grid := g, cluster := g, slots := [0], ctxs := [0], size := 4096 }
  let s := s.setWarp 0 0 { gid := g, real := BitVec.allOnes 32, allot := List.range 6, frontier := [{ mask := BitVec.allOnes 32 }] }
  let s := s.setCtx 0 0 { bound := true, gid := g, state := if ctx then .running else .stopped }
  { s with turn := if ctx then .ctx 0 0 else .warp 0 0 }

/-- A word of an instruction, or of a bundle of 384 bits. An operation of a slot stands enabled in its slot of a bundle; a word that
no decoder takes is fetched by the warp. -/
def placeWord (s : State) (nbits w : Nat) : State :=
  let stream := fun (b : List Byte) => placeAgent s true 0x800 (leBytes 2 0xFFFF ++ b)
  if 128 < nbits then stream (leBytes 48 w)
  else
    let warp := placeAgent s false 0 (leBytes 16 w)
    match decode (BitVec.ofNat 64 w) (BitVec.ofNat 64 (w / 2 ^ 64)) with
    | .ok i => if seqOnly i then
        stream (List.replicate (8 * (slotIndex i + 1)) 0 ++ leBytes 8 (w % 2 ^ 64 ||| 0x4000) ++ List.replicate (8 * (4 - slotIndex i)) 0)
      else warp
    | .error _ => warp

end Sys2Proof.Machine
end

