-- ==== Sys2Proof/Laws/Encode.lean ====
section
/-! SUPPORT. What the fields of an encoded word read as, format by format. -/

set_option linter.unusedSimpArgs false

namespace Sys2Proof

theorem lsb_append {n m : Nat} (x : BitVec n) (y : BitVec m) (i : Nat) :
    (x ++ y).getLsbD i = if i < m then y.getLsbD i else x.getLsbD (i - m) := BitVec.getLsbD_append

theorem lsb_ofBool (b : Bool) : (BitVec.ofBool b).getLsbD 0 = b := by cases b <;> rfl

theorem ext_hi {v w k n : Nat} (x : BitVec v) (y : BitVec w) (h : w ≤ k) :
    (x ++ y).extractLsb' k n = x.extractLsb' (k - w) n := BitVec.extractLsb'_append_eq_of_le h
theorem ext_lo {v w k n : Nat} (x : BitVec v) (y : BitVec w) (h : k + n ≤ w) :
    (x ++ y).extractLsb' k n = y.extractLsb' k n := BitVec.extractLsb'_append_eq_of_add_le h

theorem ext_mkWord (o : BitVec 10) (h : Hdr) (b : BitVec 34) (k n : Nat) : (mkWord o h b).extractLsb' k n =
    @BitVec.extractLsb' (10+1+3+34+16) k n (o ++ BitVec.ofBool h.pneg ++ h.pn ++ b ++ h.ctl) := rfl
theorem lsb_mkWord (o : BitVec 10) (h : Hdr) (b : BitVec 34) (k : Nat) : (mkWord o h b).getLsbD k =
    @BitVec.getLsbD (10+1+3+34+16) (o ++ BitVec.ofBool h.pneg ++ h.pn ++ b ++ h.ctl) k := rfl

/-- The code of a word. -/
theorem code_mkWord (o : BitVec 10) (h : Hdr) (b : BitVec 34) (n : Nat) :
    (mkWord o h b).extractLsb' 54 n = o.extractLsb' 0 n := by
  rw [ext_mkWord, ext_hi _ _ (by omega), ext_hi _ _ (by omega), ext_hi _ _ (by omega), ext_hi _ _ (by omega)]

@[simp] theorem opcOf_mkWord (o : BitVec 10) (h : Hdr) (b : BitVec 34) : opcOf (mkWord o h b) = o.toNat := by
  unfold opcOf
  rw [code_mkWord, BitVec.extractLsb'_eq_self]

@[simp] theorem hdrOf_mkWord (o : BitVec 10) (h : Hdr) (b : BitVec 34) : hdrOf (mkWord o h b) = h := by
  simp (disch := omega) only [hdrOf, ext_mkWord, lsb_mkWord, ext_hi, ext_lo, BitVec.extractLsb'_eq_self, lsb_append, lsb_ofBool,
    Nat.reduceSub, Nat.reduceLT, reduceIte]

/-- Bits between the header's two parts. -/
theorem body_mkWord (o : BitVec 10) (h : Hdr) (b : BitVec 34) (k n : Nat) (hk : 16 ≤ k) (hn : k + n ≤ 50) :
    (mkWord o h b).extractLsb' k n = b.extractLsb' (k - 16) n := by
  rw [ext_mkWord, ext_hi _ _ hk, ext_lo _ _ (by omega)]

theorem bodyBit_mkWord (o : BitVec 10) (h : Hdr) (b : BitVec 34) (k : Nat) (hk : 16 ≤ k) (hn : k < 50) :
    (mkWord o h b).getLsbD k = b.getLsbD (k - 16) := by
  rw [lsb_mkWord, lsb_append, if_neg (by omega), lsb_append, if_pos (by omega)]

theorem Reg.ext_bits (f : Reg) (k n : Nat) : f.bits.extractLsb' k n =
    @BitVec.extractLsb' (8+8+8+8+2) k n (f.d ++ f.a ++ f.b ++ f.m ++ f.x) := rfl
theorem Reg.lsb_bits (f : Reg) (k : Nat) : f.bits.getLsbD k =
    @BitVec.getLsbD (8+8+8+8+2) (f.d ++ f.a ++ f.b ++ f.m ++ f.x) k := rfl
@[simp] theorem regOf_mkWord (o : BitVec 10) (h : Hdr) (f : Reg) : regOf (mkWord o h f.bits) = f := by
  simp (disch := omega) only [regOf, body_mkWord, bodyBit_mkWord, Reg.ext_bits, Reg.lsb_bits, ext_hi, ext_lo,
    BitVec.extractLsb'_eq_self, lsb_append, lsb_ofBool, Nat.reduceSub, Nat.reduceLT, reduceIte]

theorem Four.ext_bits (f : Four) (k n : Nat) : f.bits.extractLsb' k n =
    @BitVec.extractLsb' (8+8+8+8+2) k n (f.d ++ f.a ++ f.b ++ f.c ++ f.x) := rfl
theorem Four.lsb_bits (f : Four) (k : Nat) : f.bits.getLsbD k =
    @BitVec.getLsbD (8+8+8+8+2) (f.d ++ f.a ++ f.b ++ f.c ++ f.x) k := rfl
@[simp] theorem fourOf_mkWord (o : BitVec 10) (h : Hdr) (f : Four) : fourOf (mkWord o h f.bits) = f := by
  simp (disch := omega) only [fourOf, body_mkWord, bodyBit_mkWord, Four.ext_bits, Four.lsb_bits, ext_hi, ext_lo,
    BitVec.extractLsb'_eq_self, lsb_append, lsb_ofBool, Nat.reduceSub, Nat.reduceLT, reduceIte]

theorem Imm.ext_bits (f : Imm) (k n : Nat) : f.bits.extractLsb' k n =
    @BitVec.extractLsb' (8+8+8+8+1+1) k n (f.d ++ f.a ++ f.m ++ f.i ++ 0#1 ++ BitVec.ofBool f.xa) := rfl
theorem Imm.lsb_bits (f : Imm) (k : Nat) : f.bits.getLsbD k =
    @BitVec.getLsbD (8+8+8+8+1+1) (f.d ++ f.a ++ f.m ++ f.i ++ 0#1 ++ BitVec.ofBool f.xa) k := rfl
@[simp] theorem immOf_mkWord (o : BitVec 10) (h : Hdr) (f : Imm) : immOf (mkWord o h f.bits) = f := by
  simp (disch := omega) only [immOf, body_mkWord, bodyBit_mkWord, Imm.ext_bits, Imm.lsb_bits, ext_hi, ext_lo,
    BitVec.extractLsb'_eq_self, lsb_append, lsb_ofBool, Nat.reduceSub, Nat.reduceLT, reduceIte]

theorem Cvtf.ext_bits (f : Cvtf) (k n : Nat) : f.bits.extractLsb' k n =
    @BitVec.extractLsb' (8+8+5+1+2+5+1+2+1+1) k n (f.d ++ f.a ++ f.st ++ BitVec.ofBool f.ftz ++ 0#2 ++ f.dt ++ BitVec.ofBool f.sat ++ f.rnd ++ 0#1 ++ BitVec.ofBool f.xa) := rfl
theorem Cvtf.lsb_bits (f : Cvtf) (k : Nat) : f.bits.getLsbD k =
    @BitVec.getLsbD (8+8+5+1+2+5+1+2+1+1) (f.d ++ f.a ++ f.st ++ BitVec.ofBool f.ftz ++ 0#2 ++ f.dt ++ BitVec.ofBool f.sat ++ f.rnd ++ 0#1 ++ BitVec.ofBool f.xa) k := rfl
@[simp] theorem cvtfOf_mkWord (o : BitVec 10) (h : Hdr) (f : Cvtf) : cvtfOf (mkWord o h f.bits) = f := by
  simp (disch := omega) only [cvtfOf, body_mkWord, bodyBit_mkWord, Cvtf.ext_bits, Cvtf.lsb_bits, ext_hi, ext_lo,
    BitVec.extractLsb'_eq_self, lsb_append, lsb_ofBool, Nat.reduceSub, Nat.reduceLT, reduceIte]

theorem Wide.ext_bits (f : Wide) (k n : Nat) : f.bits.extractLsb' k n =
    @BitVec.extractLsb' (8+16+6+2+2) k n (f.d ++ f.imm ++ 0#6 ++ f.sh ++ 0#2) := rfl
theorem Wide.lsb_bits (f : Wide) (k : Nat) : f.bits.getLsbD k =
    @BitVec.getLsbD (8+16+6+2+2) (f.d ++ f.imm ++ 0#6 ++ f.sh ++ 0#2) k := rfl
@[simp] theorem wideOf_mkWord (o : BitVec 10) (h : Hdr) (f : Wide) : wideOf (mkWord o h f.bits) = f := by
  simp (disch := omega) only [wideOf, body_mkWord, bodyBit_mkWord, Wide.ext_bits, Wide.lsb_bits, ext_hi, ext_lo,
    BitVec.extractLsb'_eq_self, lsb_append, lsb_ofBool, Nat.reduceSub, Nat.reduceLT, reduceIte]

theorem Mem.ext_bits (f : Mem) (k n : Nat) : f.bits.extractLsb' k n =
    @BitVec.extractLsb' (8+8+3+3+2+3+5+2) k n (f.d ++ f.a ++ f.ord ++ f.scope ++ f.vec ++ f.tok ++ f.ofs ++ f.x) := rfl
theorem Mem.lsb_bits (f : Mem) (k : Nat) : f.bits.getLsbD k =
    @BitVec.getLsbD (8+8+3+3+2+3+5+2) (f.d ++ f.a ++ f.ord ++ f.scope ++ f.vec ++ f.tok ++ f.ofs ++ f.x) k := rfl
@[simp] theorem memOf_mkWord (o : BitVec 10) (h : Hdr) (f : Mem) : memOf (mkWord o h f.bits) = f := by
  simp (disch := omega) only [memOf, body_mkWord, bodyBit_mkWord, Mem.ext_bits, Mem.lsb_bits, ext_hi, ext_lo,
    BitVec.extractLsb'_eq_self, lsb_append, lsb_ofBool, Nat.reduceSub, Nat.reduceLT, reduceIte]

theorem Atomf.ext_bits (f : Atomf) (k n : Nat) : f.bits.extractLsb' k n =
    @BitVec.extractLsb' (8+8+8+3+3+3+1) k n (f.d ++ f.a ++ f.b ++ f.ord ++ f.scope ++ f.tok ++ BitVec.ofBool f.nr) := rfl
theorem Atomf.lsb_bits (f : Atomf) (k : Nat) : f.bits.getLsbD k =
    @BitVec.getLsbD (8+8+8+3+3+3+1) (f.d ++ f.a ++ f.b ++ f.ord ++ f.scope ++ f.tok ++ BitVec.ofBool f.nr) k := rfl
@[simp] theorem atomfOf_mkWord (o : BitVec 10) (h : Hdr) (f : Atomf) : atomfOf (mkWord o h f.bits) = f := by
  simp (disch := omega) only [atomfOf, body_mkWord, bodyBit_mkWord, Atomf.ext_bits, Atomf.lsb_bits, ext_hi, ext_lo,
    BitVec.extractLsb'_eq_self, lsb_append, lsb_ofBool, Nat.reduceSub, Nat.reduceLT, reduceIte]

theorem Asy.ext_bits (f : Asy) (k n : Nat) : f.bits.extractLsb' k n =
    @BitVec.extractLsb' (8+8+8+3+5+2) k n (f.d ++ f.a ++ f.b ++ f.tok ++ f.sub ++ f.x) := rfl
theorem Asy.lsb_bits (f : Asy) (k : Nat) : f.bits.getLsbD k =
    @BitVec.getLsbD (8+8+8+3+5+2) (f.d ++ f.a ++ f.b ++ f.tok ++ f.sub ++ f.x) k := rfl
@[simp] theorem asyOf_mkWord (o : BitVec 10) (h : Hdr) (f : Asy) : asyOf (mkWord o h f.bits) = f := by
  simp (disch := omega) only [asyOf, body_mkWord, bodyBit_mkWord, Asy.ext_bits, Asy.lsb_bits, ext_hi, ext_lo,
    BitVec.extractLsb'_eq_self, lsb_append, lsb_ofBool, Nat.reduceSub, Nat.reduceLT, reduceIte]

theorem SysF.ext_bits (f : SysF) (k n : Nat) : f.bits.extractLsb' k n =
    @BitVec.extractLsb' (8+8+6+2+8+1+1) k n (f.d ++ f.a ++ 0#6 ++ f.ctx ++ f.imm ++ 0#1 ++ BitVec.ofBool f.xa) := rfl
theorem SysF.lsb_bits (f : SysF) (k : Nat) : f.bits.getLsbD k =
    @BitVec.getLsbD (8+8+6+2+8+1+1) (f.d ++ f.a ++ 0#6 ++ f.ctx ++ f.imm ++ 0#1 ++ BitVec.ofBool f.xa) k := rfl
@[simp] theorem sysOf_mkWord (o : BitVec 10) (h : Hdr) (f : SysF) : sysOf (mkWord o h f.bits) = f := by
  simp (disch := omega) only [sysOf, body_mkWord, bodyBit_mkWord, SysF.ext_bits, SysF.lsb_bits, ext_hi, ext_lo,
    BitVec.extractLsb'_eq_self, lsb_append, lsb_ofBool, Nat.reduceSub, Nat.reduceLT, reduceIte]

theorem Br.ext_bits (f : Br) (k n : Nat) : f.bits.extractLsb' k n =
    @BitVec.extractLsb' (16+18) k n (f.prio ++ f.off) := rfl
theorem Br.lsb_bits (f : Br) (k : Nat) : f.bits.getLsbD k =
    @BitVec.getLsbD (16+18) (f.prio ++ f.off) k := rfl
@[simp] theorem brOf_mkWord (o : BitVec 10) (h : Hdr) (f : Br) : brOf (mkWord o h f.bits) = f := by
  simp (disch := omega) only [brOf, body_mkWord, bodyBit_mkWord, Br.ext_bits, Br.lsb_bits, ext_hi, ext_lo,
    BitVec.extractLsb'_eq_self, lsb_append, lsb_ofBool, Nat.reduceSub, Nat.reduceLT, reduceIte]

theorem Trade.ext_bits (f : Trade) (k n : Nat) : f.bits.extractLsb' k n =
    @BitVec.extractLsb' (8+8+10+1+7) k n (f.d ++ f.a ++ f.tile ++ BitVec.ofBool f.win ++ f.agent) := rfl
theorem Trade.lsb_bits (f : Trade) (k : Nat) : f.bits.getLsbD k =
    @BitVec.getLsbD (8+8+10+1+7) (f.d ++ f.a ++ f.tile ++ BitVec.ofBool f.win ++ f.agent) k := rfl
@[simp] theorem tradeOf_mkWord (o : BitVec 10) (h : Hdr) (f : Trade) : tradeOf (mkWord o h f.bits) = f := by
  simp (disch := omega) only [tradeOf, body_mkWord, bodyBit_mkWord, Trade.ext_bits, Trade.lsb_bits, ext_hi, ext_lo,
    BitVec.extractLsb'_eq_self, lsb_append, lsb_ofBool, Nat.reduceSub, Nat.reduceLT, reduceIte]

theorem Mmaf.ext_bits (f : Mmaf) (k n : Nat) : f.bits.extractLsb' k n =
    @BitVec.extractLsb' (6+10+3+3+10+1+1) k n (f.ba ++ f.ta ++ f.fa ++ f.fb ++ f.tc ++ BitVec.ofBool f.xc ++ BitVec.ofBool f.xa) := rfl
theorem Mmaf.lsb_bits (f : Mmaf) (k : Nat) : f.bits.getLsbD k =
    @BitVec.getLsbD (6+10+3+3+10+1+1) (f.ba ++ f.ta ++ f.fa ++ f.fb ++ f.tc ++ BitVec.ofBool f.xc ++ BitVec.ofBool f.xa) k := rfl
@[simp] theorem mmafOf_mkWord (o : BitVec 10) (h : Hdr) (f : Mmaf) : mmafOf (mkWord o h f.bits) = f := by
  simp (disch := omega) only [mmafOf, body_mkWord, bodyBit_mkWord, Mmaf.ext_bits, Mmaf.lsb_bits, ext_hi, ext_lo,
    BitVec.extractLsb'_eq_self, lsb_append, lsb_ofBool, Nat.reduceSub, Nat.reduceLT, reduceIte]

theorem Tvec.ext_bits (f : Tvec) (k n : Nat) : f.bits.extractLsb' k n =
    @BitVec.extractLsb' (6+10+6+10+1+1) k n (f.as ++ f.ta ++ f.sub ++ f.td ++ BitVec.ofBool f.xd ++ BitVec.ofBool f.xa) := rfl
theorem Tvec.lsb_bits (f : Tvec) (k : Nat) : f.bits.getLsbD k =
    @BitVec.getLsbD (6+10+6+10+1+1) (f.as ++ f.ta ++ f.sub ++ f.td ++ BitVec.ofBool f.xd ++ BitVec.ofBool f.xa) k := rfl
@[simp] theorem tvecOf_mkWord (o : BitVec 10) (h : Hdr) (f : Tvec) : tvecOf (mkWord o h f.bits) = f := by
  simp (disch := omega) only [tvecOf, body_mkWord, bodyBit_mkWord, Tvec.ext_bits, Tvec.lsb_bits, ext_hi, ext_lo,
    BitVec.extractLsb'_eq_self, lsb_append, lsb_ofBool, Nat.reduceSub, Nat.reduceLT, reduceIte]

theorem Tmem.ext_bits (f : Tmem) (k n : Nat) : f.bits.extractLsb' k n =
    @BitVec.extractLsb' (6+4+3+5+4+10+1+1) k n (f.ao ++ f.h ++ f.tok ++ f.row0 ++ f.rl ++ f.tt ++ 0#1 ++ BitVec.ofBool f.xt) := rfl
theorem Tmem.lsb_bits (f : Tmem) (k : Nat) : f.bits.getLsbD k =
    @BitVec.getLsbD (6+4+3+5+4+10+1+1) (f.ao ++ f.h ++ f.tok ++ f.row0 ++ f.rl ++ f.tt ++ 0#1 ++ BitVec.ofBool f.xt) k := rfl
@[simp] theorem tmemOf_mkWord (o : BitVec 10) (h : Hdr) (f : Tmem) : tmemOf (mkWord o h f.bits) = f := by
  simp (disch := omega) only [tmemOf, body_mkWord, bodyBit_mkWord, Tmem.ext_bits, Tmem.lsb_bits, ext_hi, ext_lo,
    BitVec.extractLsb'_eq_self, lsb_append, lsb_ofBool, Nat.reduceSub, Nat.reduceLT, reduceIte]

theorem Sctl.ext_bits (f : Sctl) (k n : Nat) : f.bits.extractLsb' k n =
    @BitVec.extractLsb' (6+4+3+3+8+10) k n (f.ar ++ f.h ++ f.lvl ++ f.cond ++ f.entry ++ 0#10) := rfl
theorem Sctl.lsb_bits (f : Sctl) (k : Nat) : f.bits.getLsbD k =
    @BitVec.getLsbD (6+4+3+3+8+10) (f.ar ++ f.h ++ f.lvl ++ f.cond ++ f.entry ++ 0#10) k := rfl
@[simp] theorem sctlOf_mkWord (o : BitVec 10) (h : Hdr) (f : Sctl) : sctlOf (mkWord o h f.bits) = f := by
  simp (disch := omega) only [sctlOf, body_mkWord, bodyBit_mkWord, Sctl.ext_bits, Sctl.lsb_bits, ext_hi, ext_lo,
    BitVec.extractLsb'_eq_self, lsb_append, lsb_ofBool, Nat.reduceSub, Nat.reduceLT, reduceIte]

end Sys2Proof
end

