-- ==== Sys2Proof/Laws/PerInstr.lean ====
section
/-! SUPPORT. A statement about every instruction as syntax: its first word carries its predicate and control where the
decoder reads them; an event has no word. -/

namespace Sys2Proof

/-- The first word of an encoding is read back with the instruction's header; what has no header and is no bundle has no
words. -/
def Laws.HeaderKept.Statement (i : Instr) : Prop :=
  match i.hdr? with
  | some h => (encode i).head?.map hdrOf = some h
  | none => (encode i).length = 0 ∨ (encode i).length = 6

theorem Laws.HeaderKept.atom (h : Hdr) (v : BitVec 5) (f : Atomf) : Laws.HeaderKept.Statement (.atom h v f) := congrArg some (hdrOf_mkWord ..)
theorem Laws.HeaderKept.atomAddFloat (h : Hdr) (v : Bool) (f : Atomf) : Laws.HeaderKept.Statement (.atomAddFloat h v f) := congrArg some (hdrOf_mkWord ..)
theorem Laws.HeaderKept.atoms (h : Hdr) (v : BitVec 5) (f : Atomf) : Laws.HeaderKept.Statement (.atoms h v f) := congrArg some (hdrOf_mkWord ..)
theorem Laws.HeaderKept.atomsAddFloat (h : Hdr) (v : Bool) (f : Atomf) : Laws.HeaderKept.Statement (.atomsAddFloat h v f) := congrArg some (hdrOf_mkWord ..)
theorem Laws.HeaderKept.bar (h : Hdr) (f : SysF) : Laws.HeaderKept.Statement (.bar h f) := congrArg some (hdrOf_mkWord ..)
theorem Laws.HeaderKept.bfe (h : Hdr) (f : Reg) : Laws.HeaderKept.Statement (.bfe h f) := congrArg some (hdrOf_mkWord ..)
theorem Laws.HeaderKept.bfi (h : Hdr) (v : Bool) (f : Four) : Laws.HeaderKept.Statement (.bfi h v f) := congrArg some (hdrOf_mkWord ..)
theorem Laws.HeaderKept.bkpt (h : Hdr) (f : SysF) : Laws.HeaderKept.Statement (.bkpt h f) := congrArg some (hdrOf_mkWord ..)
theorem Laws.HeaderKept.bra (h : Hdr) (f : Br) : Laws.HeaderKept.Statement (.bra h f) := congrArg some (hdrOf_mkWord ..)
theorem Laws.HeaderKept.braFar (h : Hdr) (f : Far) : Laws.HeaderKept.Statement (.braFar h f) := congrArg some (hdrOf_mkWord ..)
theorem Laws.HeaderKept.brev (h : Hdr) (f : Reg) : Laws.HeaderKept.Statement (.brev h f) := congrArg some (hdrOf_mkWord ..)
theorem Laws.HeaderKept.brx (h : Hdr) (f : SysF) : Laws.HeaderKept.Statement (.brx h f) := congrArg some (hdrOf_mkWord ..)
theorem Laws.HeaderKept.call (h : Hdr) (f : Br) : Laws.HeaderKept.Statement (.call h f) := congrArg some (hdrOf_mkWord ..)
theorem Laws.HeaderKept.callFar (h : Hdr) (f : Far) : Laws.HeaderKept.Statement (.callFar h f) := congrArg some (hdrOf_mkWord ..)
theorem Laws.HeaderKept.callx (h : Hdr) (f : SysF) : Laws.HeaderKept.Statement (.callx h f) := congrArg some (hdrOf_mkWord ..)
theorem Laws.HeaderKept.cbar (h : Hdr) (f : SysF) : Laws.HeaderKept.Statement (.cbar h f) := congrArg some (hdrOf_mkWord ..)
theorem Laws.HeaderKept.clz (h : Hdr) (f : Reg) : Laws.HeaderKept.Statement (.clz h f) := congrArg some (hdrOf_mkWord ..)
theorem Laws.HeaderKept.coll (h : Hdr) (f : Asy) : Laws.HeaderKept.Statement (.coll h f) := congrArg some (hdrOf_mkWord ..)
theorem Laws.HeaderKept.cpy (h : Hdr) (f : Asy) : Laws.HeaderKept.Statement (.cpy h f) := congrArg some (hdrOf_mkWord ..)
theorem Laws.HeaderKept.cvt (h : Hdr) (f : Cvtf) : Laws.HeaderKept.Statement (.cvt h f) := congrArg some (hdrOf_mkWord ..)
theorem Laws.HeaderKept.eret (h : Hdr) (f : SysF) : Laws.HeaderKept.Statement (.eret h f) := congrArg some (hdrOf_mkWord ..)
theorem Laws.HeaderKept.exit (h : Hdr) (f : SysF) : Laws.HeaderKept.Statement (.exit h f) := congrArg some (hdrOf_mkWord ..)
theorem Laws.HeaderKept.fact (h : Hdr) (v : BitVec 3) (f : Reg) : Laws.HeaderKept.Statement (.fact h v f) := congrArg some (hdrOf_mkWord ..)
theorem Laws.HeaderKept.fadd (h : Hdr) (v : BitVec 2) (f : Reg) : Laws.HeaderKept.Statement (.fadd h v f) := congrArg some (hdrOf_mkWord ..)
theorem Laws.HeaderKept.fcmp (h : Hdr) (f : Reg) : Laws.HeaderKept.Statement (.fcmp h f) := congrArg some (hdrOf_mkWord ..)
theorem Laws.HeaderKept.fcmpFtz (h : Hdr) (f : Reg) : Laws.HeaderKept.Statement (.fcmpFtz h f) := congrArg some (hdrOf_mkWord ..)
theorem Laws.HeaderKept.fence (h : Hdr) (f : Mem) : Laws.HeaderKept.Statement (.fence h f) := congrArg some (hdrOf_mkWord ..)
theorem Laws.HeaderKept.ffma (h : Hdr) (v : BitVec 5) (f : Four) : Laws.HeaderKept.Statement (.ffma h v f) := congrArg some (hdrOf_mkWord ..)
theorem Laws.HeaderKept.flushr (h : Hdr) (f : Asy) : Laws.HeaderKept.Statement (.flushr h f) := congrArg some (hdrOf_mkWord ..)
theorem Laws.HeaderKept.fmex (h : Hdr) (f : Reg) : Laws.HeaderKept.Statement (.fmex h f) := congrArg some (hdrOf_mkWord ..)
theorem Laws.HeaderKept.fmul (h : Hdr) (v : Bool) (f : Reg) : Laws.HeaderKept.Statement (.fmul h v f) := congrArg some (hdrOf_mkWord ..)
theorem Laws.HeaderKept.give (h : Hdr) (f : Trade) : Laws.HeaderKept.Statement (.give h f) := congrArg some (hdrOf_mkWord ..)
theorem Laws.HeaderKept.giveFree (h : Hdr) (f : Trade) : Laws.HeaderKept.Statement (.giveFree h f) := congrArg some (hdrOf_mkWord ..)
theorem Laws.HeaderKept.grow (h : Hdr) (f : SysF) : Laws.HeaderKept.Statement (.grow h f) := congrArg some (hdrOf_mkWord ..)
theorem Laws.HeaderKept.hrel (h : Hdr) (f : Sctl) : Laws.HeaderKept.Statement (.hrel h f) := congrArg some (hdrOf_mkWord ..)
theorem Laws.HeaderKept.iabs (h : Hdr) (f : Reg) : Laws.HeaderKept.Statement (.iabs h f) := congrArg some (hdrOf_mkWord ..)
theorem Laws.HeaderKept.iadd (h : Hdr) (f : Reg) : Laws.HeaderKept.Statement (.iadd h f) := congrArg some (hdrOf_mkWord ..)
theorem Laws.HeaderKept.iaddImm (h : Hdr) (f : Imm) : Laws.HeaderKept.Statement (.iaddImm h f) := congrArg some (hdrOf_mkWord ..)
theorem Laws.HeaderKept.icmp (h : Hdr) (f : Reg) : Laws.HeaderKept.Statement (.icmp h f) := congrArg some (hdrOf_mkWord ..)
theorem Laws.HeaderKept.icmpImm (h : Hdr) (f : Imm) : Laws.HeaderKept.Statement (.icmpImm h f) := congrArg some (hdrOf_mkWord ..)
theorem Laws.HeaderKept.imad (h : Hdr) (v : BitVec 3) (f : Four) : Laws.HeaderKept.Statement (.imad h v f) := congrArg some (hdrOf_mkWord ..)
theorem Laws.HeaderKept.imul (h : Hdr) (f : Reg) : Laws.HeaderKept.Statement (.imul h f) := congrArg some (hdrOf_mkWord ..)
theorem Laws.HeaderKept.imulImm (h : Hdr) (f : Imm) : Laws.HeaderKept.Statement (.imulImm h f) := congrArg some (hdrOf_mkWord ..)
theorem Laws.HeaderKept.invr (h : Hdr) (f : Asy) : Laws.HeaderKept.Statement (.invr h f) := congrArg some (hdrOf_mkWord ..)
theorem Laws.HeaderKept.ishl (h : Hdr) (f : Reg) : Laws.HeaderKept.Statement (.ishl h f) := congrArg some (hdrOf_mkWord ..)
theorem Laws.HeaderKept.ishlImm (h : Hdr) (f : Imm) : Laws.HeaderKept.Statement (.ishlImm h f) := congrArg some (hdrOf_mkWord ..)
theorem Laws.HeaderKept.ishr (h : Hdr) (f : Reg) : Laws.HeaderKept.Statement (.ishr h f) := congrArg some (hdrOf_mkWord ..)
theorem Laws.HeaderKept.ishrImm (h : Hdr) (f : Imm) : Laws.HeaderKept.Statement (.ishrImm h f) := congrArg some (hdrOf_mkWord ..)
theorem Laws.HeaderKept.ld (h : Hdr) (v : BitVec 3) (f : Mem) : Laws.HeaderKept.Statement (.ld h v f) := congrArg some (hdrOf_mkWord ..)
theorem Laws.HeaderKept.lds (h : Hdr) (v : BitVec 3) (f : Mem) : Laws.HeaderKept.Statement (.lds h v f) := congrArg some (hdrOf_mkWord ..)
theorem Laws.HeaderKept.ldsCl (h : Hdr) (v : BitVec 3) (f : Mem) : Laws.HeaderKept.Statement (.ldsCl h v f) := congrArg some (hdrOf_mkWord ..)
theorem Laws.HeaderKept.ldt (h : Hdr) (f : Asy) : Laws.HeaderKept.Statement (.ldt h f) := congrArg some (hdrOf_mkWord ..)
theorem Laws.HeaderKept.ldtTry (h : Hdr) (f : Asy) : Laws.HeaderKept.Statement (.ldtTry h f) := congrArg some (hdrOf_mkWord ..)
theorem Laws.HeaderKept.lngo (h : Hdr) (f : Sctl) : Laws.HeaderKept.Statement (.lngo h f) := congrArg some (hdrOf_mkWord ..)
theorem Laws.HeaderKept.lnset (h : Hdr) (f : Sctl) : Laws.HeaderKept.Statement (.lnset h f) := congrArg some (hdrOf_mkWord ..)
theorem Laws.HeaderKept.lop (h : Hdr) (f : Reg) : Laws.HeaderKept.Statement (.lop h f) := congrArg some (hdrOf_mkWord ..)
theorem Laws.HeaderKept.lopImm (h : Hdr) (f : Imm) : Laws.HeaderKept.Statement (.lopImm h f) := congrArg some (hdrOf_mkWord ..)
theorem Laws.HeaderKept.match_ (h : Hdr) (f : Asy) : Laws.HeaderKept.Statement (.match_ h f) := congrArg some (hdrOf_mkWord ..)
theorem Laws.HeaderKept.mbarv (h : Hdr) (f : Asy) : Laws.HeaderKept.Statement (.mbarv h f) := congrArg some (hdrOf_mkWord ..)
theorem Laws.HeaderKept.mbinit (h : Hdr) (f : Asy) : Laws.HeaderKept.Statement (.mbinit h f) := congrArg some (hdrOf_mkWord ..)
theorem Laws.HeaderKept.mbwait (h : Hdr) (f : Asy) : Laws.HeaderKept.Statement (.mbwait h f) := congrArg some (hdrOf_mkWord ..)
theorem Laws.HeaderKept.mma (h : Hdr) (f : Mmaf) : Laws.HeaderKept.Statement (.mma h f) := congrArg some (hdrOf_mkWord ..)
theorem Laws.HeaderKept.mmaSp (h : Hdr) (f : Mmaf) : Laws.HeaderKept.Statement (.mmaSp h f) := congrArg some (hdrOf_mkWord ..)
theorem Laws.HeaderKept.mmal (h : Hdr) (f : Mmaf) : Laws.HeaderKept.Statement (.mmal h f) := congrArg some (hdrOf_mkWord ..)
theorem Laws.HeaderKept.mmalSp (h : Hdr) (f : Mmaf) : Laws.HeaderKept.Statement (.mmalSp h f) := congrArg some (hdrOf_mkWord ..)
theorem Laws.HeaderKept.mov (h : Hdr) (f : Reg) : Laws.HeaderKept.Statement (.mov h f) := congrArg some (hdrOf_mkWord ..)
theorem Laws.HeaderKept.movToG (h : Hdr) (f : Reg) : Laws.HeaderKept.Statement (.movToG h f) := congrArg some (hdrOf_mkWord ..)
theorem Laws.HeaderKept.movi (h : Hdr) (f : Wide) : Laws.HeaderKept.Statement (.movi h f) := congrArg some (hdrOf_mkWord ..)
theorem Laws.HeaderKept.moviToG (h : Hdr) (f : Wide) : Laws.HeaderKept.Statement (.moviToG h f) := congrArg some (hdrOf_mkWord ..)
theorem Laws.HeaderKept.movl (h : Hdr) (f : Lit) : Laws.HeaderKept.Statement (.movl h f) := congrArg some (hdrOf_mkWord ..)
theorem Laws.HeaderKept.movlToG (h : Hdr) (f : Lit) : Laws.HeaderKept.Statement (.movlToG h f) := congrArg some (hdrOf_mkWord ..)
theorem Laws.HeaderKept.nop (h : Hdr) (f : SysF) : Laws.HeaderKept.Statement (.nop h f) := congrArg some (hdrOf_mkWord ..)
theorem Laws.HeaderKept.plop (h : Hdr) (f : Reg) : Laws.HeaderKept.Statement (.plop h f) := congrArg some (hdrOf_mkWord ..)
theorem Laws.HeaderKept.popc (h : Hdr) (f : Reg) : Laws.HeaderKept.Statement (.popc h f) := congrArg some (hdrOf_mkWord ..)
theorem Laws.HeaderKept.pref (h : Hdr) (f : Mem) : Laws.HeaderKept.Statement (.pref h f) := congrArg some (hdrOf_mkWord ..)
theorem Laws.HeaderKept.qswz (h : Hdr) (f : Imm) : Laws.HeaderKept.Statement (.qswz h f) := congrArg some (hdrOf_mkWord ..)
theorem Laws.HeaderKept.rdsr (h : Hdr) (f : SysF) : Laws.HeaderKept.Statement (.rdsr h f) := congrArg some (hdrOf_mkWord ..)
theorem Laws.HeaderKept.rdsrToG (h : Hdr) (f : SysF) : Laws.HeaderKept.Statement (.rdsrToG h f) := congrArg some (hdrOf_mkWord ..)
theorem Laws.HeaderKept.redeem (h : Hdr) (f : Asy) : Laws.HeaderKept.Statement (.redeem h f) := congrArg some (hdrOf_mkWord ..)
theorem Laws.HeaderKept.redeemS (h : Hdr) (f : Asy) : Laws.HeaderKept.Statement (.redeemS h f) := congrArg some (hdrOf_mkWord ..)
theorem Laws.HeaderKept.redux (h : Hdr) (f : Asy) : Laws.HeaderKept.Statement (.redux h f) := congrArg some (hdrOf_mkWord ..)
theorem Laws.HeaderKept.ret (h : Hdr) (f : SysF) : Laws.HeaderKept.Statement (.ret h f) := congrArg some (hdrOf_mkWord ..)
theorem Laws.HeaderKept.ringpop (h : Hdr) (f : Asy) : Laws.HeaderKept.Statement (.ringpop h f) := congrArg some (hdrOf_mkWord ..)
theorem Laws.HeaderKept.ringpub (h : Hdr) (f : Asy) : Laws.HeaderKept.Statement (.ringpub h f) := congrArg some (hdrOf_mkWord ..)
theorem Laws.HeaderKept.ringres (h : Hdr) (f : Asy) : Laws.HeaderKept.Statement (.ringres h f) := congrArg some (hdrOf_mkWord ..)
theorem Laws.HeaderKept.sbr (h : Hdr) (f : Sctl) : Laws.HeaderKept.Statement (.sbr h f) := congrArg some (hdrOf_mkWord ..)
theorem Laws.HeaderKept.seal (h : Hdr) (f : Asy) : Laws.HeaderKept.Statement (.seal h f) := congrArg some (hdrOf_mkWord ..)
theorem Laws.HeaderKept.unseal (h : Hdr) (f : Asy) : Laws.HeaderKept.Statement (.unseal h f) := congrArg some (hdrOf_mkWord ..)
theorem Laws.HeaderKept.sel (h : Hdr) (f : Reg) : Laws.HeaderKept.Statement (.sel h f) := congrArg some (hdrOf_mkWord ..)
theorem Laws.HeaderKept.sfn (h : Hdr) (v : BitVec 3) (f : Reg) : Laws.HeaderKept.Statement (.sfn h v f) := congrArg some (hdrOf_mkWord ..)
theorem Laws.HeaderKept.shfl (h : Hdr) (f : Asy) : Laws.HeaderKept.Statement (.shfl h f) := congrArg some (hdrOf_mkWord ..)
theorem Laws.HeaderKept.shrink (h : Hdr) (f : SysF) : Laws.HeaderKept.Statement (.shrink h f) := congrArg some (hdrOf_mkWord ..)
theorem Laws.HeaderKept.sqrun (h : Hdr) (f : SysF) : Laws.HeaderKept.Statement (.sqrun h f) := congrArg some (hdrOf_mkWord ..)
theorem Laws.HeaderKept.sqstop (h : Hdr) (f : SysF) : Laws.HeaderKept.Statement (.sqstop h f) := congrArg some (hdrOf_mkWord ..)
theorem Laws.HeaderKept.sqwait (h : Hdr) (f : SysF) : Laws.HeaderKept.Statement (.sqwait h f) := congrArg some (hdrOf_mkWord ..)
theorem Laws.HeaderKept.st (h : Hdr) (v : BitVec 2) (f : Mem) : Laws.HeaderKept.Statement (.st h v f) := congrArg some (hdrOf_mkWord ..)
theorem Laws.HeaderKept.stNt (h : Hdr) (v : BitVec 2) (f : Mem) : Laws.HeaderKept.Statement (.stNt h v f) := congrArg some (hdrOf_mkWord ..)
theorem Laws.HeaderKept.sts (h : Hdr) (v : BitVec 2) (f : Mem) : Laws.HeaderKept.Statement (.sts h v f) := congrArg some (hdrOf_mkWord ..)
theorem Laws.HeaderKept.stsCl (h : Hdr) (v : BitVec 2) (f : Mem) : Laws.HeaderKept.Statement (.stsCl h v f) := congrArg some (hdrOf_mkWord ..)
theorem Laws.HeaderKept.syield (h : Hdr) (f : SysF) : Laws.HeaderKept.Statement (.syield h f) := congrArg some (hdrOf_mkWord ..)
theorem Laws.HeaderKept.take (h : Hdr) (f : Trade) : Laws.HeaderKept.Statement (.take h f) := congrArg some (hdrOf_mkWord ..)
theorem Laws.HeaderKept.takeNew (h : Hdr) (f : Trade) : Laws.HeaderKept.Statement (.takeNew h f) := congrArg some (hdrOf_mkWord ..)
theorem Laws.HeaderKept.tstat (h : Hdr) (f : Trade) : Laws.HeaderKept.Statement (.tstat h f) := congrArg some (hdrOf_mkWord ..)
theorem Laws.HeaderKept.tcpy (h : Hdr) (f : Asy) : Laws.HeaderKept.Statement (.tcpy h f) := congrArg some (hdrOf_mkWord ..)
theorem Laws.HeaderKept.tcvt (h : Hdr) (f : Tvec) : Laws.HeaderKept.Statement (.tcvt h f) := congrArg some (hdrOf_mkWord ..)
theorem Laws.HeaderKept.tfmas (h : Hdr) (f : Tvec) : Laws.HeaderKept.Statement (.tfmas h f) := congrArg some (hdrOf_mkWord ..)
theorem Laws.HeaderKept.tmax (h : Hdr) (f : Tvec) : Laws.HeaderKept.Statement (.tmax h f) := congrArg some (hdrOf_mkWord ..)
theorem Laws.HeaderKept.tzero (h : Hdr) (f : Tvec) : Laws.HeaderKept.Statement (.tzero h f) := congrArg some (hdrOf_mkWord ..)
theorem Laws.HeaderKept.tld (h : Hdr) (f : Tmem) : Laws.HeaderKept.Statement (.tld h f) := congrArg some (hdrOf_mkWord ..)
theorem Laws.HeaderKept.tst (h : Hdr) (f : Tmem) : Laws.HeaderKept.Statement (.tst h f) := congrArg some (hdrOf_mkWord ..)
theorem Laws.HeaderKept.tgld (h : Hdr) (f : Tmem) : Laws.HeaderKept.Statement (.tgld h f) := congrArg some (hdrOf_mkWord ..)
theorem Laws.HeaderKept.tgst (h : Hdr) (f : Tmem) : Laws.HeaderKept.Statement (.tgst h f) := congrArg some (hdrOf_mkWord ..)
theorem Laws.HeaderKept.tkdrop (h : Hdr) (f : Asy) : Laws.HeaderKept.Statement (.tkdrop h f) := congrArg some (hdrOf_mkWord ..)
theorem Laws.HeaderKept.trap (h : Hdr) (f : SysF) : Laws.HeaderKept.Statement (.trap h f) := congrArg some (hdrOf_mkWord ..)
theorem Laws.HeaderKept.txp (h : Hdr) (f : Tvec) : Laws.HeaderKept.Statement (.txp h f) := congrArg some (hdrOf_mkWord ..)
theorem Laws.HeaderKept.vote (h : Hdr) (f : Asy) : Laws.HeaderKept.Statement (.vote h f) := congrArg some (hdrOf_mkWord ..)
theorem Laws.HeaderKept.waitk (h : Hdr) (f : SysF) : Laws.HeaderKept.Statement (.waitk h f) := congrArg some (hdrOf_mkWord ..)
theorem Laws.HeaderKept.wrsr (h : Hdr) (f : SysF) : Laws.HeaderKept.Statement (.wrsr h f) := congrArg some (hdrOf_mkWord ..)
theorem Laws.HeaderKept.xlt (h : Hdr) (f : Sctl) : Laws.HeaderKept.Statement (.xlt h f) := congrArg some (hdrOf_mkWord ..)
theorem Laws.HeaderKept.bundle (hd m v l x c : BitVec 64) : Laws.HeaderKept.Statement (.bundle hd m v l x c) := .inr rfl
theorem Laws.HeaderKept.branchIntoLiteral : Laws.HeaderKept.Statement .branchIntoLiteral := .inl rfl
theorem Laws.HeaderKept.memoryErrorDetected (loc : ErrLoc) (double : Bool) : Laws.HeaderKept.Statement (.memoryErrorDetected loc double) := .inl rfl
theorem Laws.HeaderKept.fixedResultLands (core : Nat) : Laws.HeaderKept.Statement (.fixedResultLands core) := .inl rfl
theorem Laws.HeaderKept.variableResultDone (core id : Nat) : Laws.HeaderKept.Statement (.variableResultDone core id) := .inl rfl
theorem Laws.HeaderKept.warpStarvation (core slot : Nat) : Laws.HeaderKept.Statement (.warpStarvation core slot) := .inl rfl
theorem Laws.HeaderKept.contextQuantumYield (core : Nat) : Laws.HeaderKept.Statement (.contextQuantumYield core) := .inl rfl
theorem Laws.HeaderKept.dispatcherTakeRecord (part ring : Nat) : Laws.HeaderKept.Statement (.dispatcherTakeRecord part ring) := .inl rfl
theorem Laws.HeaderKept.placeCluster (part ring : Nat) : Laws.HeaderKept.Statement (.placeCluster part ring) := .inl rfl
theorem Laws.HeaderKept.gridClassify (grid : Nat) : Laws.HeaderKept.Statement (.gridClassify grid) := .inl rfl
theorem Laws.HeaderKept.groupRetire (gid : Nat) : Laws.HeaderKept.Statement (.groupRetire gid) := .inl rfl
theorem Laws.HeaderKept.completionAction (grid : Nat) : Laws.HeaderKept.Statement (.completionAction grid) := .inl rfl
theorem Laws.HeaderKept.ringWaitServed (id : Nat) : Laws.HeaderKept.Statement (.ringWaitServed id) := .inl rfl
theorem Laws.HeaderKept.growGrant (core : Nat) : Laws.HeaderKept.Statement (.growGrant core) := .inl rfl
theorem Laws.HeaderKept.takeNewGrant (core : Nat) : Laws.HeaderKept.Statement (.takeNewGrant core) := .inl rfl
theorem Laws.HeaderKept.takeComplete (core agent : Nat) : Laws.HeaderKept.Statement (.takeComplete core agent) := .inl rfl
theorem Laws.HeaderKept.tileFreed (core tile : Nat) : Laws.HeaderKept.Statement (.tileFreed core tile) := .inl rfl
theorem Laws.HeaderKept.barComplete (gid : Nat) : Laws.HeaderKept.Statement (.barComplete gid) := .inl rfl
theorem Laws.HeaderKept.cbarComplete (cluster : Nat) : Laws.HeaderKept.Statement (.cbarComplete cluster) := .inl rfl
theorem Laws.HeaderKept.timedCopyStart (core id : Nat) : Laws.HeaderKept.Statement (.timedCopyStart core id) := .inl rfl
theorem Laws.HeaderKept.copyComplete (core id : Nat) : Laws.HeaderKept.Statement (.copyComplete core id) := .inl rfl
theorem Laws.HeaderKept.copyPageFault (core id : Nat) : Laws.HeaderKept.Statement (.copyPageFault core id) := .inl rfl
theorem Laws.HeaderKept.wcEntryDrain (core line : Nat) : Laws.HeaderKept.Statement (.wcEntryDrain core line) := .inl rfl
theorem Laws.HeaderKept.l1Evict (core line : Nat) : Laws.HeaderKept.Statement (.l1Evict core line) := .inl rfl
theorem Laws.HeaderKept.promotion (core : Nat) : Laws.HeaderKept.Statement (.promotion core) := .inl rfl
theorem Laws.HeaderKept.clusterForward (src dst : Nat) : Laws.HeaderKept.Statement (.clusterForward src dst) := .inl rfl
theorem Laws.HeaderKept.fdResolve (core line : Nat) : Laws.HeaderKept.Statement (.fdResolve core line) := .inl rfl
theorem Laws.HeaderKept.sealComplete (part reg : Nat) : Laws.HeaderKept.Statement (.sealComplete part reg) := .inl rfl
theorem Laws.HeaderKept.unsealComplete (part reg : Nat) : Laws.HeaderKept.Statement (.unsealComplete part reg) := .inl rfl
theorem Laws.HeaderKept.ticketAllocate (core id : Nat) : Laws.HeaderKept.Statement (.ticketAllocate core id) := .inl rfl
theorem Laws.HeaderKept.ldtQuotaGrant (slice part : Nat) : Laws.HeaderKept.Statement (.ldtQuotaGrant slice part) := .inl rfl
theorem Laws.HeaderKept.ticketFetchComplete (slice entry : Nat) : Laws.HeaderKept.Statement (.ticketFetchComplete slice entry) := .inl rfl
theorem Laws.HeaderKept.ticketSliceRequest (core agent : Nat) : Laws.HeaderKept.Statement (.ticketSliceRequest core agent) := .inl rfl
theorem Laws.HeaderKept.ticketLeaseEnd (slice entry : Nat) : Laws.HeaderKept.Statement (.ticketLeaseEnd slice entry) := .inl rfl
theorem Laws.HeaderKept.pageWalk (core part : Nat) (va : BitVec 64) : Laws.HeaderKept.Statement (.pageWalk core part va) := .inl rfl
theorem Laws.HeaderKept.pagerRequest (part : Nat) (va : BitVec 64) (who : Waiter) : Laws.HeaderKept.Statement (.pagerRequest part va who) := .inl rfl
theorem Laws.HeaderKept.pageInStart (pager key : Nat) : Laws.HeaderKept.Statement (.pageInStart pager key) := .inl rfl
theorem Laws.HeaderKept.nvmeCompletion (drive cid : Nat) (status : BitVec 16) : Laws.HeaderKept.Statement (.nvmeCompletion drive cid status) := .inl rfl
theorem Laws.HeaderKept.stqSubmitWaiting (drive : Nat) : Laws.HeaderKept.Statement (.stqSubmitWaiting drive) := .inl rfl
theorem Laws.HeaderKept.pageInInstall (pager key : Nat) : Laws.HeaderKept.Statement (.pageInInstall pager key) := .inl rfl
theorem Laws.HeaderKept.pageInTimeout (pager key : Nat) : Laws.HeaderKept.Statement (.pageInTimeout pager key) := .inl rfl
theorem Laws.HeaderKept.sweepStep (part : Nat) : Laws.HeaderKept.Statement (.sweepStep part) := .inl rfl
theorem Laws.HeaderKept.evictWriteComplete (pager key : Nat) : Laws.HeaderKept.Statement (.evictWriteComplete pager key) := .inl rfl
theorem Laws.HeaderKept.shootdown (part : Nat) (va : BitVec 64) : Laws.HeaderKept.Statement (.shootdown part va) := .inl rfl
theorem Laws.HeaderKept.shootdownComplete (part : Nat) : Laws.HeaderKept.Statement (.shootdownComplete part) := .inl rfl
theorem Laws.HeaderKept.contextUnfreeze (core ctx : Nat) : Laws.HeaderKept.Statement (.contextUnfreeze core ctx) := .inl rfl
theorem Laws.HeaderKept.warpUnpark (core slot : Nat) : Laws.HeaderKept.Statement (.warpUnpark core slot) := .inl rfl
theorem Laws.HeaderKept.codeFillComplete (core ctx : Nat) : Laws.HeaderKept.Statement (.codeFillComplete core ctx) := .inl rfl
theorem Laws.HeaderKept.groupSwapOut (gid : Nat) : Laws.HeaderKept.Statement (.groupSwapOut gid) := .inl rfl
theorem Laws.HeaderKept.priorityPreempt (part ring : Nat) : Laws.HeaderKept.Statement (.priorityPreempt part ring) := .inl rfl
theorem Laws.HeaderKept.groupRestore (gid : Nat) : Laws.HeaderKept.Statement (.groupRestore gid) := .inl rfl
theorem Laws.HeaderKept.fltrespResume (part : Nat) (fid : BitVec 32) : Laws.HeaderKept.Statement (.fltrespResume part fid) := .inl rfl
theorem Laws.HeaderKept.fltrespAbort (part : Nat) (fid : BitVec 32) : Laws.HeaderKept.Statement (.fltrespAbort part fid) := .inl rfl
theorem Laws.HeaderKept.fltack (part n : Nat) : Laws.HeaderKept.Statement (.fltack part n) := .inl rfl
theorem Laws.HeaderKept.tlbinv (part : Nat) (val : BitVec 64) : Laws.HeaderKept.Statement (.tlbinv part val) := .inl rfl
theorem Laws.HeaderKept.tkcfgWrite (part : Nat) (val : BitVec 64) : Laws.HeaderKept.Statement (.tkcfgWrite part val) := .inl rfl
theorem Laws.HeaderKept.tkstatWrite (part : Nat) (val : BitVec 64) : Laws.HeaderKept.Statement (.tkstatWrite part val) := .inl rfl
theorem Laws.HeaderKept.tkquotaWrite (part : Nat) (val : BitVec 64) : Laws.HeaderKept.Statement (.tkquotaWrite part val) := .inl rfl
theorem Laws.HeaderKept.lringWrite (part ring : Nat) (val : BitVec 64) : Laws.HeaderKept.Statement (.lringWrite part ring val) := .inl rfl
theorem Laws.HeaderKept.hrcmdReserve (part chan : Nat) (lo : BitVec 64) : Laws.HeaderKept.Statement (.hrcmdReserve part chan lo) := .inl rfl
theorem Laws.HeaderKept.hrcmdPublish (part chan : Nat) (lo slot : BitVec 64) : Laws.HeaderKept.Statement (.hrcmdPublish part chan lo slot) := .inl rfl
theorem Laws.HeaderKept.hrcmdTake (part chan : Nat) (lo : BitVec 64) : Laws.HeaderKept.Statement (.hrcmdTake part chan lo) := .inl rfl
theorem Laws.HeaderKept.partsuspSuspend (part dst : Nat) : Laws.HeaderKept.Statement (.partsuspSuspend part dst) := .inl rfl
theorem Laws.HeaderKept.partsuspResume (part : Nat) : Laws.HeaderKept.Statement (.partsuspResume part) := .inl rfl
theorem Laws.HeaderKept.pctlCreate (part : Nat) : Laws.HeaderKept.Statement (.pctlCreate part) := .inl rfl
theorem Laws.HeaderKept.pctlReset (part : Nat) : Laws.HeaderKept.Statement (.pctlReset part) := .inl rfl
theorem Laws.HeaderKept.pctlDestroy (part : Nat) : Laws.HeaderKept.Statement (.pctlDestroy part) := .inl rfl
theorem Laws.HeaderKept.pcoreWrite (part : Nat) (hi : Bool) (val : BitVec 64) : Laws.HeaderKept.Statement (.pcoreWrite part hi val) := .inl rfl
theorem Laws.HeaderKept.devreset (val : BitVec 64) : Laws.HeaderKept.Statement (.devreset val) := .inl rfl
theorem Laws.HeaderKept.stqcfgFlush (drive : Nat) : Laws.HeaderKept.Statement (.stqcfgFlush drive) := .inl rfl
theorem Laws.HeaderKept.attctlReport : Laws.HeaderKept.Statement .attctlReport := .inl rfl
theorem Laws.HeaderKept.moncfgSnap (unit : Nat) : Laws.HeaderKept.Statement (.moncfgSnap unit) := .inl rfl
theorem Laws.HeaderKept.moncfgClr (unit : Nat) : Laws.HeaderKept.Statement (.moncfgClr unit) := .inl rfl
theorem Laws.HeaderKept.alarmlogWrite (val : BitVec 64) : Laws.HeaderKept.Statement (.alarmlogWrite val) := .inl rfl
theorem Laws.HeaderKept.registerWrite (fn : Nat) (off : Nat) (val : BitVec 64) : Laws.HeaderKept.Statement (.registerWrite fn off val) := .inl rfl
theorem Laws.HeaderKept.hostBar2Read (part : Nat) (va : BitVec 64) (n : Nat) : Laws.HeaderKept.Statement (.hostBar2Read part va n) := .inl rfl
theorem Laws.HeaderKept.hostBar2Write (part : Nat) (va : BitVec 64) (bytes : List (BitVec 8)) : Laws.HeaderKept.Statement (.hostBar2Write part va bytes) := .inl rfl
theorem Laws.HeaderKept.hostAtomicop (part : Nat) (va : BitVec 64) (op : HostAtom) (n : Nat) (cmp val : BitVec 128) : Laws.HeaderKept.Statement (.hostAtomicop part va op n cmp val) := .inl rfl
theorem Laws.HeaderKept.hostReadTimeout (id : Nat) : Laws.HeaderKept.Statement (.hostReadTimeout id) := .inl rfl
theorem Laws.HeaderKept.peerAccess (port issuer : Nat) (ftag : BitVec 16) (off : BitVec 64) (op : PeerOp) : Laws.HeaderKept.Statement (.peerAccess port issuer ftag off op) := .inl rfl
theorem Laws.HeaderKept.flitRetry (port : Nat) : Laws.HeaderKept.Statement (.flitRetry port) := .inl rfl
theorem Laws.HeaderKept.linkDown (port : Nat) : Laws.HeaderKept.Statement (.linkDown port) := .inl rfl
theorem Laws.HeaderKept.bridgeRetry (bridge : Nat) : Laws.HeaderKept.Statement (.bridgeRetry bridge) := .inl rfl
theorem Laws.HeaderKept.collStep (id chunk : Nat) (peers : List (List (BitVec 8))) : Laws.HeaderKept.Statement (.collStep id chunk peers) := .inl rfl
theorem Laws.HeaderKept.collComplete (id : Nat) (status : BitVec 8) : Laws.HeaderKept.Statement (.collComplete id status) := .inl rfl
theorem Laws.HeaderKept.collTimeout (id : Nat) : Laws.HeaderKept.Statement (.collTimeout id) := .inl rfl
theorem Laws.HeaderKept.driveDma (drive : Nat) (write : Bool) (pa : Nat) (bytes : List (BitVec 8)) : Laws.HeaderKept.Statement (.driveDma drive write pa bytes) := .inl rfl
theorem Laws.HeaderKept.powerThrottle (watts : BitVec 12) (step : BitVec 4) : Laws.HeaderKept.Statement (.powerThrottle watts step) := .inl rfl
theorem Laws.HeaderKept.thermalTrip (die : Nat) : Laws.HeaderKept.Statement (.thermalTrip die) := .inl rfl
theorem Laws.HeaderKept.tamperAlarm (sensor : BitVec 4) : Laws.HeaderKept.Statement (.tamperAlarm sensor) := .inl rfl
theorem Laws.HeaderKept.tamperLevel2 (sensor : BitVec 4) : Laws.HeaderKept.Statement (.tamperLevel2 sensor) := .inl rfl
theorem Laws.HeaderKept.fatalDeviceError (cause : BitVec 8) : Laws.HeaderKept.Statement (.fatalDeviceError cause) := .inl rfl
theorem Laws.HeaderKept.bringUp : Laws.HeaderKept.Statement .bringUp := .inl rfl
theorem Laws.HeaderKept.illegalOpcode (w : BitVec 64) : Laws.HeaderKept.Statement (.illegalOpcode w) := .inl rfl
theorem Laws.HeaderKept.instructionFetchFault : Laws.HeaderKept.Statement .instructionFetchFault := .inl rfl
theorem Laws.HeaderKept.modulePowerRemoval : Laws.HeaderKept.Statement .modulePowerRemoval := .inl rfl

end Sys2Proof
end

