-- ==== Sys2Proof/Safety.lean ====
section
/-! DEFINITION. The terms in which claims speak of the machine: answers, the issue of an instruction, frames, the invariant. -/

namespace Sys2Proof.Machine

/-- An outcome is a next state with a property. -/
def Answers (o : Out3) (P : State → Prop) : Prop := ∃ t, o = .next t ∧ P t

/-- A step is safe when it neither faults nor is refused. -/
def SafeStep (s : State) : Prop := Answers (step s) fun _ => True

/-- What every step keeps: device memory lists its nonzero bytes in rising order. -/
def State.Inv (s : State) : Prop := Memory.wf s.mem = true

/-- The state in which the instruction of an issue is performed: the warp no longer ranks as the youngest (18 R438). -/
def begun (c w : Nat) (wp : Warp) (s : State) : State := s.setWarp c w { wp with young := false }

/-- What the instruction sees: its warp, its entry, its active lanes (13 R297). -/
def seen (h : Hdr) (c w : Nat) (wp : Warp) (e : Entry) (s : State) : View :=
  viewOf (begun c w wp s) c w { wp with young := false } e h

/-- Warp slot `w` of core `c` issues instruction `i` with header `h` in state `s`: the warp `wp` stands there, `e` is its first
entry, no check of the word traps (03 R62, 13 R299), and the instruction reads no register that still waits for a fixed-latency result
(02 R51). -/
structure Issues (i : Instr) (h : Hdr) (c w : Nat) (wp : Warp) (e : Entry) (s : State) : Prop where
  hdr : i.hdr? = some h
  cur : s.cur = .warp c w
  warp : s.warp? c w = some wp
  first : wp.first = some e
  word : wordTrap h i = none
  early : earlyUses (begun c w wp s) (seen h c w wp e s) i = none

/-- The warp after an instruction that ends at next_pc: its entry has moved, the control field has acted (02 R49, 03 R62). -/
def movedOn (h : Hdr) (long : Bool) (now : Nat) (wp : Warp) : Warp :=
  ({ wp with young := false }.advance long).applyCtl h now

/-- Results of one instruction in flight: they share its issue number. -/
def flying (a : Issuer) (due n : Nat) (ws : List Write) : List Pend := ws.map fun w => ⟨a, due, n, w⟩

/-- No outstanding variable-latency operation of the agent writes a register that one of these results names: else that register
ends undefined (02 R51). -/
def NoClash (a : Issuer) (ws : List Write) (s : State) : Prop :=
  ∀ x ∈ ws, ∀ r ∈ x.regsOf s a, r ∉ (s.core (coreOf a)).varRegs a

/-- Nothing of core `c` differs but its results in flight and its .f64 datapaths, nothing of the other cores. -/
structure SameCores (c : Nat) (s t : State) : Prop where
  core : { t.core c with pend := (s.core c).pend, f64Free := (s.core c).f64Free } = s.core c
  others : ∀ k, k ≠ c → t.core k = s.core k

/-- No warp but warp `w` of core `c` differs, and that warp is `x`. -/
structure OneWarp (c w : Nat) (x : Warp) (s t : State) : Prop where
  warp : t.warp? c w = some x
  others : ∀ n, n ≠ wkey c w → mget? t.warps n = mget? s.warps n

/-- Nothing differs outside the tables of cores and warps and the model's own agenda and counters. -/
def SameRest (s t : State) : Prop :=
  { t with cores := s.cores, warps := s.warps, agenda := s.agenda, nextId := s.nextId, freeCtr := s.freeCtr } = s

/-- The outcome of a fixed-latency instruction of a warp: its results are in flight, its warp has moved on, and nothing else has
changed. -/
structure Flies (h : Hdr) (long : Bool) (c w : Nat) (wp : Warp) (lat : Nat) (ws : List Write) (s t : State) : Prop where
  pend : (t.core c).pend = (s.core c).pend ++ flying (.warp c w) (s.now + lat) s.nextId ws
  cores : SameCores c s t
  warps : OneWarp c w (movedOn h long s.now wp) s t
  rest : SameRest s t

/-- The outcome of an instruction of a warp that leaves the warp as `x` before its control field acts, and changes nothing else. -/
structure Redirects (h : Hdr) (c w : Nat) (x : Warp) (s t : State) : Prop where
  warps : OneWarp c w (x.applyCtl h s.now) s t
  rest : { t with warps := s.warps, agenda := s.agenda, freeCtr := s.freeCtr } = s

/-- An agent has no outstanding variable-latency operation. -/
def NoneOut (a : Issuer) (s : State) : Prop := ∀ x ∈ (s.core (coreOf a)).vars, x.agent ≠ a

/-- The end of an instruction that starts a variable-latency operation in state `u`: the operation stands in its core, its token
has risen (02 R50), the warp has moved on, and nothing else has changed. `done`: its completion stands to happen. -/
structure Starts (h : Hdr) (c w tok : Nat) (done : Bool) (body : VarBody) (u t : State) : Prop where
  op : ∃ x : VarOp, x.agent = .warp c w ∧ x.tok = tok ∧ x.issued = u.now ∧ x.body = body ∧
    (t.core c).vars = (u.core c).vars ++ [x] ∧ (done = true → .variableResultDone c x.id ∈ t.agenda)
  core : { t.core c with vars := (u.core c).vars } = u.core c
  others : ∀ k, k ≠ c → t.core k = u.core k
  warps : OneWarp c w (movedOn h false u.now ((u.warp c w).addTok tok)) u t
  rest : SameRest u t

/-- A warp waits at its instruction: its pc has not moved, its control field has acted, and nothing else of it has changed. -/
structure Holds (h : Hdr) (c w : Nat) (wt : Wait) (u t : State) : Prop where
  warps : OneWarp c w ({ u.warp c w with wait := wt, since := u.now }.applyCtl h u.now) u t
  rest : { t with warps := u.warps, agenda := u.agenda, freeCtr := u.freeCtr } = u

end Sys2Proof.Machine
end

