-- ==== Sys2Proof/Certificates/Slice0/Obligations.lean ====
section
/-! DEFINITION. The statements for the provers. Before each group stand the tables that say what the manual gives the instructions
of the group. -/

namespace Sys2Proof.Claims

open Sys2Proof.Machine

/-- A lane operation with results in v registers: its v sources, the first register and the count of its result, its latency, the
result's words in a lane. -/
structure LaneOp where
  srcs : List Nat
  d : Nat
  k : Nat
  lat : Nat
  val : Nat → List W32

/-- IMAD of three operands of a type (16 R385). -/
def imadOut (t : Nat) (sat : Bool) (a b c : W64) : W64 := intResult t sat (intVal t a * intVal t b + intVal t c)

/-- The integer lane operations (15 R342, R343, R347, R353; 16 R381 to R388, R396; 17 R412). -/
def intOp (s : State) (v : View) : Instr → Option LaneOp
  | .iadd _ f => some ⟨runRegsX (xA f.x) f.a.toNat (kOf (wT f.m)) ++ runRegsX (xB f.x) f.b.toNat (kOf (wT f.m)), f.d.toNat,
      kOf (wT f.m), 4, fun j => words (wT f.m) (iaddVal f.m (readT s v 0 (xA f.x) f.a (wT f.m) j) (readT s v 1 (xB f.x) f.b (wT f.m) j))⟩
  | .iaddImm _ f => some ⟨runRegsX f.xa f.a.toNat (kOf (wT f.m)), f.d.toNat, kOf (wT f.m), 4,
      fun j => words (wT f.m) (iaddVal f.m (readT s v 0 f.xa f.a (wT f.m) j) (immVal (modType f.m) f.i))⟩
  | .imul _ f => some ⟨runRegsX (xA f.x) f.a.toNat (kOf (wT f.m)) ++ runRegsX (xB f.x) f.b.toNat (kOf (wT f.m)), f.d.toNat,
      kOf (imulWide f.m), if imulWide f.m then 8 else 6,
      fun j => words (imulWide f.m) (imulVal f.m (readT s v 0 (xA f.x) f.a (wT f.m) j) (readT s v 1 (xB f.x) f.b (wT f.m) j))⟩
  | .imulImm _ f => some ⟨runRegsX f.xa f.a.toNat (kOf (wT f.m)), f.d.toNat, kOf (imulWide f.m), if imulWide f.m then 8 else 6,
      fun j => words (imulWide f.m) (imulVal f.m (readT s v 0 f.xa f.a (wT f.m) j) (immVal (modType f.m) f.i))⟩
  | .imad _ t f =>
      let w := wideType (imadType t)
      some ⟨runRegsX (xA f.x) f.a.toNat (kOf w) ++ runRegsX (xB f.x) f.b.toNat (kOf w) ++ runRegs f.c.toNat (kOf w), f.d.toNat,
        kOf w, if w then 8 else 6, fun j => words w (imadOut (imadType t) (t.getLsbD 2) (readT s v 0 (xA f.x) f.a w j)
          (readT s v 1 (xB f.x) f.b w j) (readT s v 2 false f.c w j))⟩
  | .iabs _ f => some ⟨runRegsX (xA f.x) f.a.toNat (kOf (wT f.m)), f.d.toNat, kOf (wT f.m), 4,
      fun j => words (wT f.m) (iabsVal f.m (readT s v 0 (xA f.x) f.a (wT f.m) j))⟩
  | .ishl _ f => some ⟨runRegsX (xA f.x) f.a.toNat (kOf (wT f.m)) ++ runRegsX (xB f.x) f.b.toNat 1, f.d.toNat, kOf (wT f.m), 4,
      fun j => words (wT f.m) (ishlVal (modType f.m) ((readR s v 1 (xB f.x) f.b.toNat j).toNat % 256)
        (readT s v 0 (xA f.x) f.a (wT f.m) j))⟩
  | .ishlImm _ f => some ⟨runRegsX f.xa f.a.toNat (kOf (wT f.m)), f.d.toNat, kOf (wT f.m), 4,
      fun j => words (wT f.m) (ishlVal (modType f.m) f.i.toNat (readT s v 0 f.xa f.a (wT f.m) j))⟩
  | .ishr _ f => some ⟨runRegsX (xA f.x) f.a.toNat (kOf (wT f.m)) ++ runRegsX (xB f.x) f.b.toNat 1, f.d.toNat, kOf (wT f.m), 4,
      fun j => words (wT f.m) (ishrVal (modType f.m) ((readR s v 1 (xB f.x) f.b.toNat j).toNat % 256)
        (readT s v 0 (xA f.x) f.a (wT f.m) j))⟩
  | .ishrImm _ f => some ⟨runRegsX f.xa f.a.toNat (kOf (wT f.m)), f.d.toNat, kOf (wT f.m), 4,
      fun j => words (wT f.m) (ishrVal (modType f.m) f.i.toNat (readT s v 0 f.xa f.a (wT f.m) j))⟩
  | .lop _ f => some ⟨runRegsX (xA f.x) f.a.toNat (kOf (lopWide f.m)) ++ runRegsX (xB f.x) f.b.toNat (kOf (lopWide f.m)), f.d.toNat,
      kOf (lopWide f.m), 4, fun j => words (lopWide f.m) (lopVal f.m (readT s v 0 (xA f.x) f.a (lopWide f.m) j)
        (readT s v 1 (xB f.x) f.b (lopWide f.m) j))⟩
  | .lopImm _ f => some ⟨runRegsX f.xa f.a.toNat (kOf (lopWide f.m)), f.d.toNat, kOf (lopWide f.m), 4,
      fun j => words (lopWide f.m) (lopVal f.m (readT s v 0 f.xa f.a (lopWide f.m) j) (f.i.signExtend 64))⟩
  | .bfe _ f => some ⟨runRegsX (xA f.x) f.a.toNat (kOf (wT f.m)) ++ runRegsX (xB f.x) f.b.toNat 1, f.d.toNat, kOf (wT f.m), 4,
      fun j => words (wT f.m) (bfeVal (modType f.m) (readT s v 0 (xA f.x) f.a (wT f.m) j) (readR s v 1 (xB f.x) f.b.toNat j))⟩
  | .bfi _ w f => some ⟨runRegsX (xA f.x) f.a.toNat (kOf w) ++ runRegsX (xB f.x) f.b.toNat (kOf w) ++ [f.c.toNat], f.d.toNat, kOf w, 4,
      fun j => words w (bfiVal (if w then 64 else 32) (readT s v 0 (xA f.x) f.a w j) (readT s v 1 (xB f.x) f.b w j)
        (readV s v 2 f.c.toNat j))⟩
  | .brev _ f => some ⟨runRegsX (xA f.x) f.a.toNat (kOf (wT f.m)), f.d.toNat, kOf (wT f.m), 4,
      fun j => words (wT f.m) (brevVal (intWidth (modType f.m)) (readT s v 0 (xA f.x) f.a (wT f.m) j))⟩
  | .clz _ f => some ⟨runRegsX (xA f.x) f.a.toNat (kOf (wT f.m)), f.d.toNat, 1, 4,
      fun j => [lo32 (clzVal (intWidth (modType f.m)) (readT s v 0 (xA f.x) f.a (wT f.m) j))]⟩
  | .popc _ f => some ⟨runRegsX (xA f.x) f.a.toNat (kOf (wT f.m)), f.d.toNat, 1, 4,
      fun j => [lo32 (popcVal (intWidth (modType f.m)) (readT s v 0 (xA f.x) f.a (wT f.m) j))]⟩
  | _ => none

/-- The floating lane operations, CVT, SFN and FACT (15 R359 to R361; 16 R366 to R369, R373, R375, R376; 18 R429). -/
def floatLaneOp (s : State) (v : View) : Instr → Option LaneOp
  | .fadd _ n f => some (two f (faddVal n f.m))
  | .fmul _ n f => some (two f (fmulVal n f.m))
  | .fmex _ f => some (two f (fmexVal f.m))
  | .ffma _ n f =>
      let w := wideType (ffmaType n)
      some ⟨runRegsX (xA f.x) f.a.toNat (kOf w) ++ runRegsX (xB f.x) f.b.toNat (kOf w) ++ runRegs f.c.toNat (kOf w), f.d.toNat,
        kOf w, floatLat (ffmaType n), fun j => words w (ffmaVal n (readT s v 0 (xA f.x) f.a w j) (readT s v 1 (xB f.x) f.b w j)
          (readT s v 2 false f.c w j))⟩
  | .cvt _ f =>
      let x2 := fun (t : Nat) => t == 17 || t == 18
      let ks := if x2 f.dt.toNat then 2 else regsOf f.st.toNat
      let kd := if x2 f.st.toNat then 2 else regsOf f.dt.toNat
      some ⟨runRegsX f.xa f.a.toNat ks, f.d.toNat, kd, 6, fun j =>
        cvtVal f (readR s v 0 f.xa f.a.toNat j) (if ks == 2 then readR s v 1 f.xa (f.a.toNat + 1) j else 0)⟩
  | .sfn _ n f => some ⟨runRegsX (xA f.x) f.a.toNat 1, f.d.toNat, 1, 12,
      fun j => [lo32 (unaryVal f.m (sfnVal n.toNat) (readT s v 0 (xA f.x) f.a false j))]⟩
  | .fact _ n f => some ⟨runRegsX (xA f.x) f.a.toNat 1, f.d.toNat, 1, 10,
      fun j => [lo32 (unaryVal f.m (factVal n.toNat) (readT s v 0 (xA f.x) f.a false j))]⟩
  | _ => none
where
  two (f : Reg) (g : W64 → W64 → W64) : LaneOp :=
    let w := wideType (modType f.m)
    ⟨runRegsX (xA f.x) f.a.toNat (kOf w) ++ runRegsX (xB f.x) f.b.toNat (kOf w), f.d.toNat, kOf w, floatLat (modType f.m),
      fun j => words w (g (readT s v 0 (xA f.x) f.a w j) (readT s v 1 (xB f.x) f.b w j))⟩

/-- Instructions that use the .f64 datapath of the warp's quarter (13 R318). -/
def isF64 : Instr → Bool
  | .fadd _ _ f | .fmul _ _ f => modType f.m == 13
  | .fmex _ f | .fcmp _ f | .fcmpFtz _ f => modType f.m == 13
  | .ffma _ n _ => ffmaType n == 13
  | _ => false
/-- The .f64 datapaths of a core after an instruction of warp slot `w` at cycle `now`: that of the warp's quarter is taken for four
cycles where the instruction is an .f64 operation (13 R318). -/
def f64After (i : Instr) (w now : Nat) (l : List (Nat × Nat)) : List (Nat × Nat) :=
  if isF64 i then mput l (w / 16) (now + 4) else l

/-- Moves, selection, exchange in a quad and special registers with results in v registers (16 R414; 17 R407 to R409, R415;
18 R428). -/
def moveOp (s : State) (v : View) : Instr → Option LaneOp
  | .mov _ f => some ⟨runRegsX (xA f.x) f.a.toNat (kOf (wT f.m)), f.d.toNat, kOf (wT f.m), 4,
      fun j => words (wT f.m) (readT s v 0 (xA f.x) f.a (wT f.m) j)⟩
  | .movi _ f => some ⟨[], f.d.toNat, 1, 4, fun j => [
      if f.sh = 0 then f.imm.setWidth 32 else if f.sh = 1 then f.imm.signExtend 32 else if f.sh = 2 then f.imm ++ 0#16
      else f.imm ++ (readV s v 0 f.d.toNat j).extractLsb' 0 16]⟩
  | .movl _ f => some ⟨[], f.d.toNat, 2, 4, fun _ => [f.lit.extractLsb' 0 32, f.lit.extractLsb' 32 32]⟩
  | .sel _ f => some ⟨runRegsX (xA f.x) f.a.toNat (kOf (wT f.m)) ++ runRegsX (xB f.x) f.b.toNat (kOf (wT f.m)), f.d.toNat,
      kOf (wT f.m), 4, fun j => words (wT f.m)
        (if (predMask s v.c v.w v.wp (modLow3 f.m)).getLsbD j then readT s v 0 (xA f.x) f.a (wT f.m) j
          else readT s v 1 (xB f.x) f.b (wT f.m) j)⟩
  | .qswz _ f => some ⟨[f.a.toNat], f.d.toNat, 1, 4, fun j => [laneV s v 0 f.a.toNat (quadLane f.i j)]⟩
  | .rdsr _ f => some ⟨[], f.d.toNat, srRegs f.imm.toNat, 4,
      fun j => words (srWide f.imm.toNat) (srVal s v f.imm.toNat j)⟩
  | _ => none

/-- The lane operations with results in v registers: integers, floating numbers, moves. -/
def laneOp (s : State) (v : View) (i : Instr) : Option LaneOp := (intOp s v i).or ((floatLaneOp s v i).or (moveOp s v i))

/-- Comparisons and truth tables with their result in a predicate (16 R370, R384; 17 R411): v sources, predicate, latency, value. -/
structure PredRow where
  srcs : List Nat
  p : Nat
  lat : Nat
  val : Nat → Bool

def predRow (s : State) (v : View) : Instr → Option PredRow
  | .icmp _ f => some ⟨runRegsX (xA f.x) f.a.toNat (kOf (wT f.m)) ++ runRegsX (xB f.x) f.b.toNat (kOf (wT f.m)), f.d.toNat, 4,
      fun j => cmpInt (modLow3 f.m) (intVal (modType f.m) (readT s v 0 (xA f.x) f.a (wT f.m) j))
        (intVal (modType f.m) (readT s v 1 (xB f.x) f.b (wT f.m) j))⟩
  | .icmpImm _ f => some ⟨runRegsX f.xa f.a.toNat (kOf (wT f.m)), f.d.toNat, 4,
      fun j => cmpInt (modLow3 f.m) (intVal (modType f.m) (readT s v 0 f.xa f.a (wT f.m) j))
        (intVal (modType f.m) (immVal (modType f.m) f.i))⟩
  | .fcmp _ f => some (float f false)
  | .fcmpFtz _ f => some (float f true)
  | .plop _ f => some ⟨[], f.d.toNat, 4, fun j =>
      (modLut f.m).getLsbD ((if (predMask s v.c v.w v.wp f.a.toNat).getLsbD j then 2 else 0) +
        (if (predMask s v.c v.w v.wp f.b.toNat).getLsbD j then 1 else 0))⟩
  | _ => none
where
  float (f : Reg) (ftz : Bool) : PredRow :=
    let w := wT f.m
    ⟨runRegsX (xA f.x) f.a.toNat (kOf w) ++ runRegsX (xB f.x) f.b.toNat (kOf w), f.d.toNat, floatLat (modType f.m),
      fun j => fcmpVal f.m ftz (readT s v 0 (xA f.x) f.a w j) (readT s v 1 (xB f.x) f.b w j)⟩

/-- The first active real lane, as a list of at most one (04 R78, 16 R362). -/
def oneLane (v : View) : List Nat := v.realLanes.take 1

/-- Fixed-latency instructions whose results go to g registers, or to a trap register (04 R78; 17 R407 to R409, R415; 18 R453):
v sources and results. -/
def scalarRow (s : State) (v : View) : Instr → Option (List Nat × List Write)
  | .movToG _ f => some (runRegsX (xA f.x) f.a.toNat (kOf (wT f.m)), (oneLane v).flatMap fun j =>
      if wT f.m then [.g f.d.toNat (lo32 (readT s v 0 (xA f.x) f.a true j)), .g (f.d.toNat + 1) (hi32 (readT s v 0 (xA f.x) f.a true j))]
      else [.g f.d.toNat (lo32 (readT s v 0 (xA f.x) f.a false j))])
  | .moviToG _ f => some ([], if v.act = 0 then [] else [.g f.d.toNat
      (if f.sh = 0 then f.imm.setWidth 32 else if f.sh = 1 then f.imm.signExtend 32 else if f.sh = 2 then f.imm ++ 0#16
        else f.imm ++ (readG s v 0 f.d.toNat).extractLsb' 0 16)])
  | .movlToG _ f => some ([], if v.act = 0 then [] else
      [.g f.d.toNat (f.lit.extractLsb' 0 32), .g (f.d.toNat + 1) (f.lit.extractLsb' 32 32)])
  | .rdsrToG _ f => some ([], (oneLane v).flatMap fun j =>
      let x := srVal s v f.imm.toNat j
      if srWide f.imm.toNat then [.g f.d.toNat (lo32 x), .g (f.d.toNat + 1) (hi32 x)] else [.g f.d.toNat (lo32 x)])
  | .wrsr _ f =>
      let val := fun j => readT s v 0 f.xa f.a (srWide f.imm.toNat) j
      some (runRegsX f.xa f.a.toNat (srRegs f.imm.toNat),
        let l := if f.imm = 0x21 then v.lanes else oneLane v
        if l = [] then [] else [.sr f.imm.toNat (l.map fun j => (j, val j))])
  | _ => none

/-! ### Numbers, read from their patterns without rounding -/

/-- Width of an integer or bit type, and the number that the low bits of a pattern hold under it (06 R129; 13 R303). -/
def typeBits (t : Nat) : Nat := if t ≤ 7 then 8 * 2 ^ (t % 4) else if t = 8 then 32 else 64
def numOf (t : Nat) (x : W64) : Int :=
  if t ≤ 3 then Int.bmod x.toNat (2 ^ typeBits t) else ((x.toNat % 2 ^ typeBits t : Nat) : Int)
/-- `r` holds an exact result under a type: its low bits, or under .sat the clamped value (06 R129). -/
def HoldsInt (t : Nat) (sat : Bool) (exact : Int) (r : W64) : Prop :=
  if sat then
    numOf t r = if t ≤ 3 then max (-(2 ^ (typeBits t - 1))) (min exact (2 ^ (typeBits t - 1) - 1)) else max 0 (min exact (2 ^ typeBits t - 1))
  else (numOf t r - exact) % 2 ^ typeBits t = 0

/-- The layout of a floating format (06 R125): exponent bits, fraction bits, bias, the code of the largest finite magnitude, the canonical
NaN. Type codes 10 .f16, 11 .bf16, 12 .f32, 13 .f64, 14 .e4m3, 15 .e5m2 (13 R303). -/
structure Layout where
  eb : Nat
  mb : Nat
  bias : Nat
  top : Nat
  nan : Nat

def layout (t : Nat) : Layout :=
  match t with
  | 10 => ⟨5, 10, 15, 0x7BFF, 0x7E00⟩
  | 11 => ⟨8, 7, 127, 0x7F7F, 0x7FC0⟩
  | 12 => ⟨8, 23, 127, 0x7F7FFFFF, 0x7FC00000⟩
  | 13 => ⟨11, 52, 1023, 0x7FEFFFFFFFFFFFFF, 0x7FF8000000000000⟩
  | 14 => ⟨4, 3, 7, 0x7E, 0x7F⟩
  | _ => ⟨5, 2, 15, 0x7B, 0x7E⟩

/-- The weight of a sign bit, and the power of two by which a format's smallest subnormal lies below one: bias + fraction bits - 1. -/
def Layout.sign (f : Layout) : Nat := 2 ^ (f.eb + f.mb)
def Layout.low (f : Layout) : Nat := f.bias + f.mb - 1
/-- A magnitude code in units of the smallest subnormal (06 R125). -/
def Layout.units (f : Layout) (c : Nat) : Nat :=
  if c / 2 ^ f.mb = 0 then c else (2 ^ f.mb + c % 2 ^ f.mb) * 2 ^ (c / 2 ^ f.mb - 1)

/-- What a pattern stands for: a NaN, an infinity, or a number, which is its units with a sign of its own where they are none. -/
inductive Num where
  | nan
  | inf (neg : Bool)
  | num (neg : Bool) (u : Nat)

/-- A pattern read under a type; under .ftz a subnormal reads as a zero of its sign (06 R125, R126, R131). -/
def readNum (t : Nat) (ftz : Bool) (x : Nat) : Num :=
  let f := layout t
  let c := x % f.sign
  let neg := x / f.sign % 2 == 1
  if c ≤ f.top then .num neg (if ftz && c < 2 ^ f.mb then 0 else f.units c)
  else if t ≠ 14 ∧ c = f.top + 1 then .inf neg else .nan
def Num.flip (b : Bool) : Num → Num
  | .inf n => .inf (n != b)
  | .num n u => .num (n != b) u
  | .nan => .nan

/-- An exact result: NaN, an infinity, a signed zero, or the nonzero quotient n / d of integers, in units of the target's smallest
subnormal. -/
inductive Exact where
  | nan
  | inf (neg : Bool)
  | zero (neg : Bool)
  | quot (n : Int) (d : Nat)

/-- An integer as an exact result: nonzero as it is, and zero with the sign given. -/
def Exact.of (neg : Bool) (n : Int) (d : Nat) : Exact := if n = 0 then .zero neg else .quot n d

/-- The finite code `r` (sign and magnitude) is the nonzero quotient n / d rounded in a mode of 06 R130: to nearest with ties to the even
code, toward zero, down, up. -/
def Rounds (f : Layout) (rnd : Nat) (n : Int) (d r : Nat) : Prop :=
  let val := fun (q : Nat) => (if q / f.sign % 2 = 1 then -((f.units (q % f.sign) : Nat) : Int) else ((f.units (q % f.sign) : Nat) : Int)) * d
  let finite := fun (q : Nat) => q < 2 * f.sign ∧ q % f.sign ≤ f.top
  finite r ∧ (r / f.sign % 2 = 1 ↔ n < 0) ∧
  match rnd with
  | 0 => ∀ q, finite q → (n - val r).natAbs ≤ (n - val q).natAbs ∧ ((n - val r).natAbs = (n - val q).natAbs → val q ≠ val r → r % 2 = 0)
  | 1 => (val r).natAbs ≤ n.natAbs ∧ ∀ q, finite q → (val q).natAbs ≤ n.natAbs → (val q).natAbs ≤ (val r).natAbs
  | 2 => val r ≤ n ∧ ∀ q, finite q → val q ≤ n → val q ≤ val r
  | _ => n ≤ val r ∧ ∀ q, finite q → n ≤ val q → val r ≤ val q

/-- The nonzero quotient n / d lies beyond the largest finite value: beyond every number that rounds to it (06 R130, R138). -/
def Overflows (f : Layout) (rnd : Nat) (n : Int) (d : Nat) : Prop :=
  let m := f.units f.top * d
  let ulp := 2 ^ (f.top / 2 ^ f.mb - 1) * d
  match rnd with
  | 0 => 2 * m + ulp < 2 * n.natAbs ∨ (2 * m + ulp = 2 * n.natAbs ∧ f.top % 2 = 1)
  | 1 => False
  | 2 => n < -(m : Int)
  | _ => (m : Int) < n

/-- A pattern is what a type holds of an exact result: a NaN canonical, infinities, signed zeros, a quotient rounded, where it overflows
infinity, or in .e4m3 the NaN; under .sat the largest finite value instead; under .ftz a zero for a subnormal (06 R130 to R132, R137,
R138). -/
def Yields (t rnd : Nat) (sat ftz : Bool) (x : Exact) (r : Nat) : Prop :=
  let f := layout t
  let sign := fun (neg : Bool) => if neg then f.sign else 0
  let past := fun (neg : Bool) => r = if sat then sign neg + f.top else if t = 14 then f.nan else sign neg + f.top + 1
  match x with
  | .nan => r = f.nan
  | .inf neg => past neg
  | .zero neg => r = sign neg
  | .quot n d => (Overflows f rnd n d → past (n < 0)) ∧
      (¬Overflows f rnd n d → ∃ q, Rounds f rnd n d q ∧ r = if ftz && q % f.sign < 2 ^ f.mb then q / f.sign * f.sign else q)

/-- The exact sum and product of two numbers of a format, and the product added to a third (16 R369, R373, R376): the sum of infinities of
both signs and the product of an infinity and a zero are NaN; a zero sum of numbers of both signs is +0, or -0 under .rm. -/
def signed (neg : Bool) (u : Nat) : Int := if neg then -(u : Int) else u
def sumOf (rnd : Nat) : Num → Num → Exact
  | .nan, _ => .nan
  | _, .nan => .nan
  | .inf a, .inf b => if a = b then .inf a else .nan
  | .inf a, .num _ _ => .inf a
  | .num _ _, .inf b => .inf b
  | .num a u, .num b w => .of (if a = b then a else rnd == 2) (signed a u + signed b w) 1
def productOf (low : Nat) : Num → Num → Exact
  | .nan, _ => .nan
  | _, .nan => .nan
  | .inf a, .inf b => .inf (a != b)
  | .inf a, .num b u => if u = 0 then .nan else .inf (a != b)
  | .num a u, .inf b => if u = 0 then .nan else .inf (a != b)
  | .num a u, .num b w => .of (a != b) (signed (a != b) (u * w)) (2 ^ low)
def fusedOf (low rnd : Nat) (x y z : Num) : Exact :=
  match productOf low x y, z with
  | .nan, _ => .nan
  | _, .nan => .nan
  | .inf a, .inf b => if a = b then .inf a else .nan
  | .inf a, .num _ _ => .inf a
  | _, .inf b => .inf b
  | .zero a, .num b u => .of (if a = b then a else rnd == 2) (signed b u) 1
  | .quot n d, .num b u => .of (rnd == 2) (n + signed b u * d) d

/-- The order of codes: a sign and a magnitude, −0 before +0; and with the zeros equal (16 R370, R375). -/
def codeKey (f : Layout) (x : Nat) : Int := if x / f.sign % 2 = 1 then -((x % f.sign : Nat) : Int) - 1 else ((x % f.sign : Nat) : Int)
def valueKey (f : Layout) (x : Nat) : Int := if x / f.sign % 2 = 1 then -((x % f.sign : Nat) : Int) else ((x % f.sign : Nat) : Int)
/-- An operand's pattern under .ftz (06 R131). -/
def flushed (f : Layout) (ftz : Bool) (x : Nat) : Nat :=
  if ftz && x % f.sign < 2 ^ f.mb then x / f.sign % 2 * f.sign else x % (2 * f.sign)
def isNaN (f : Layout) (x : Nat) : Bool := f.top + 1 < x % f.sign

end Sys2Proof.Claims

section

open Sys2Proof Sys2Proof.Machine Sys2Proof.Claims


/-- The lane operations on integers and floating numbers, CVT, SFN and FACT, and the moves, selections and reads of special registers
write D in the active lanes after their latency; an .f64 operation takes its quarter's datapath for four cycles, and nothing else
changes (13 R317, R318; 16 R368, R382; 17 R407, R414; 18 R428). -/
def Obligations.LaneOpsComplete : Prop :=
  ∀ (s : State) (i : Instr) (h : Hdr) (c w : Nat) (wp : Warp) (e : Entry) (o : LaneOp),
    Issues i h c w wp e s → laneOp (begun c w wp s) (seen h c w wp e s) i = some o →
    ((seen h c w wp e s).real = 0 ∨ checkVs (begun c w wp s) wp (o.srcs ++ runRegs o.d o.k) = none) →
    NoClash (.warp c w) (rowWrites (seen h c w wp e s) o.d o.k o.val) s →
    Answers (exec i s) fun t =>
      Flies h i.long c w wp o.lat (if (seen h c w wp e s).act = 0 then [] else rowWrites (seen h c w wp e s) o.d o.k o.val) s t ∧
      (t.core c).f64Free = f64After i w s.now (s.core c).f64Free

/-- ICMP, FCMP and PLOP write their predicate in the active lanes after their latency; p7 discards the result (04 R79). -/
def Obligations.PredicateOpsComplete : Prop :=
  ∀ (s : State) (i : Instr) (h : Hdr) (c w : Nat) (wp : Warp) (e : Entry) (o : PredRow),
    Issues i h c w wp e s → predRow (begun c w wp s) (seen h c w wp e s) i = some o →
    ((seen h c w wp e s).real = 0 ∨ checkVs (begun c w wp s) wp o.srcs = none) →
    NoClash (.warp c w) [.pred o.p ((seen h c w wp e s).lanes.map fun j => (j, o.val j))] s →
    Answers (exec i s) fun t =>
      Flies h false c w wp o.lat (if (seen h c w wp e s).act = 0 ∨ o.p = 7 then [] else
        [.pred o.p ((seen h c w wp e s).lanes.map fun j => (j, o.val j))]) s t ∧
      (t.core c).f64Free = f64After i w s.now (s.core c).f64Free

/-- MOV, MOVI, MOVL and RDSR to g registers, and WRSR, write from the lanes that 04 R78 and 18 R453 name. -/
def Obligations.ScalarOpsComplete : Prop :=
  ∀ (s : State) (i : Instr) (h : Hdr) (c w : Nat) (wp : Warp) (e : Entry) (srcs : List Nat) (ws : List Write),
    Issues i h c w wp e s → scalarRow (begun c w wp s) (seen h c w wp e s) i = some (srcs, ws) →
    ((seen h c w wp e s).real = 0 ∨ checkVs (begun c w wp s) wp srcs = none) →
    NoClash (.warp c w) ws s →
    Answers (exec i s) fun t => Flies h i.long c w wp 4 ws s t ∧ (t.core c).f64Free = (s.core c).f64Free



/-- IADD, IABS, IMUL.lo and IMAD hold their exact results: the low bits at the width of the type, or under .sat the clamped value
(16 R381, R383, R385, R386; 06 R129); IMUL gives the high half, or the 64-bit product of 32-bit operands; ICMP compares in the type's sign
(16 R384); ISHL and ISHR shift by any amount, past the width to zero or copies of the sign (16 R388). LOP applies its truth table to each
bit (16 R396; 13 R302); BFI, BFE, whose signed types extend the field's top bit, BREV, CLZ and POPC bit by bit (15 R342, R343, R347, R353;
17 R412). -/
def Obligations.IntegerValues : Prop :=
  (∀ (m : BitVec 8) (a b : W64), (modType m ∈ [2, 3, 6, 7] ∨ (modType m ∈ [8, 9] ∧ modSF m = false)) →
    HoldsInt (modType m) (modSF m) (if m.getLsbD 0 then numOf (modType m) a - numOf (modType m) b else
      numOf (modType m) a + numOf (modType m) b) (iaddVal m a b)) ∧
  (∀ (m : BitVec 8) (a b : W64), modType m ∈ [2, 3, 6, 7] → modVar m = 0 →
    HoldsInt (modType m) (modSF m) (numOf (modType m) a * numOf (modType m) b) (imulVal m a b)) ∧
  (∀ (t : Nat) (sat : Bool) (a b c : W64), t ∈ [2, 3, 6, 7] →
    HoldsInt t sat (numOf t a * numOf t b + numOf t c) (imadOut t sat a b c)) ∧
  (∀ (m : BitVec 8) (a : W64), modType m ∈ [2, 3] → HoldsInt (modType m) (modSF m) |numOf (modType m) a| (iabsVal m a)) ∧
  (∀ (t cmp : Nat) (a b : W64), t ∈ [2, 3, 6, 7] → cmp < 6 → (cmpInt cmp (intVal t a) (intVal t b) = true ↔
    match cmp with
    | 0 => numOf t a = numOf t b
    | 1 => numOf t a ≠ numOf t b
    | 2 => numOf t a < numOf t b
    | 3 => numOf t a ≤ numOf t b
    | 4 => numOf t b < numOf t a
    | _ => numOf t b ≤ numOf t a)) ∧
  (∀ (m : BitVec 8) (a b : W64), modSF m = false →
    (modVar m = 1 → modType m = 2 → lo32 (imulVal m a b) = hi32 ((lo32 a).signExtend 64 * (lo32 b).signExtend 64)) ∧
    (modVar m = 1 → modType m = 6 → lo32 (imulVal m a b) = hi32 ((lo32 a).setWidth 64 * (lo32 b).setWidth 64)) ∧
    (modVar m = 1 → modType m = 3 → imulVal m a b = (a.signExtend 128 * b.signExtend 128).extractLsb' 64 64) ∧
    (modVar m = 1 → modType m = 7 → imulVal m a b = (a.setWidth 128 * b.setWidth 128).extractLsb' 64 64) ∧
    (modVar m = 2 → modType m = 2 → imulVal m a b = (lo32 a).signExtend 64 * (lo32 b).signExtend 64) ∧
    (modVar m = 2 → modType m = 6 → imulVal m a b = (lo32 a).setWidth 64 * (lo32 b).setWidth 64)) ∧
  (∀ (t n : Nat) (a : W64),
    (t ∈ [2, 6, 8] → lo32 (ishlVal t n a) = lo32 a <<< n) ∧
    (t ∈ [3, 7, 9] → ishlVal t n a = a <<< n) ∧
    (t ∈ [6, 8] → lo32 (ishrVal t n a) = lo32 a >>> n) ∧
    (t = 2 → lo32 (ishrVal t n a) = (lo32 a).sshiftRight n) ∧
    (t ∈ [7, 9] → ishrVal t n a = a >>> n) ∧
    (t = 3 → ishrVal t n a = a.sshiftRight n)) ∧
  (∀ (m : BitVec 8) (a b : W64) (i : Nat), i < 64 →
    (lopVal m a b).getLsbD i = (modLut m).getLsbD ((if a.getLsbD i then 2 else 0) + (if b.getLsbD i then 1 else 0))) ∧
  (∀ (w : Nat) (a b : W64) (c : W32) (i : Nat), w = 32 ∨ w = 64 → i < w →
    (bfiVal w a b c).getLsbD i =
      if c.toNat % 256 ≤ i ∧ i < c.toNat % 256 + c.toNat / 256 % 256 then a.getLsbD (i - c.toNat % 256) else b.getLsbD i) ∧
  (∀ (w : Nat) (a : W64) (i : Nat), w = 32 ∨ w = 64 → i < w → (brevVal w a).getLsbD i = a.getLsbD (w - 1 - i)) ∧
  (∀ (w : Nat) (a : W64), w = 32 ∨ w = 64 → (clzVal w a).toNat ≤ w ∧
    (∀ i, i < (clzVal w a).toNat → a.getLsbD (w - 1 - i) = false) ∧
    ((clzVal w a).toNat < w → a.getLsbD (w - 1 - (clzVal w a).toNat) = true)) ∧
  (∀ (w : Nat) (a : W64), w = 32 ∨ w = 64 → (popcVal w a).toNat = ((List.range w).filter fun i => a.getLsbD i).length) ∧
  (∀ (t : Nat) (a : W64) (b : W32) (i : Nat), t ∈ [2, 3, 6, 7] → i < typeBits t →
    let pos := min (b.toNat % 256) (typeBits t)
    let len := min (b.toNat / 256 % 256) (typeBits t - pos)
    (bfeVal t a b).getLsbD i =
      if i < len then a.getLsbD (pos + i) else decide (t ≤ 3 ∧ 0 < len) && a.getLsbD (pos + len - 1))

/-- FADD, FMUL and FFMA of the types .f16, .bf16, .f32 and .f64 hold their exact results, rounded once in the mode (06 R130; 16 R369, R373,
R376), with the canonical NaN (06 R132), the signs of zeros, and under .ftz zeros for subnormal operands and results (06 R131). FMEX gives
an operand, -0 before +0, and the other one beside a NaN (16 R375); FCMP compares with equal zeros, and a NaN is unordered (16 R370). -/
def Obligations.FloatValues : Prop :=
  (∀ (m : BitVec 8) (a b : W64), modType m ∈ [10, 11, 12, 13] → (modType m = 13 → modSF m = false) →
    let t := modType m
    let z := modSF m
    let f := layout t
    let x := readNum t z a.toNat
    let y := readNum t z b.toNat
    let p := flushed f z a.toNat
    let q := flushed f z b.toNat
    (∀ v : BitVec 2, Yields t (modVar m) false z (sumOf (modVar m) (x.flip (v.getLsbD 1)) (y.flip (v.getLsbD 0)))
      (faddVal v m a b).toNat) ∧
    (∀ neg, Yields t (modVar m) false z (productOf f.low (x.flip neg) y) (fmulVal neg m a b).toNat) ∧
    (fmexVal m a b).toNat = (if isNaN f p then (if isNaN f q then f.nan else q) else if isNaN f q then p
      else if modVar m = 0 then (if codeKey f p ≤ codeKey f q then p else q) else (if codeKey f p ≤ codeKey f q then q else p))) ∧
  (∀ (v : BitVec 5) (a b c : W64), ffmaType v ∈ [12, 13] → (ffmaType v = 13 → ffmaFtz v = false) →
    let t := ffmaType v
    let z := ffmaFtz v
    let rnd := (v.extractLsb' 0 2).toNat
    Yields t rnd false z (fusedOf (layout t).low rnd (readNum t z a.toNat) (readNum t z b.toNat) (readNum t z c.toNat))
      (ffmaVal v a b c).toNat) ∧
  (∀ (m : BitVec 8) (z : Bool) (a b : W64), modType m ∈ [10, 11, 12, 13] → (modType m = 13 → z = false) →
    let f := layout (modType m)
    let p := flushed f z a.toNat
    let q := flushed f z b.toNat
    let nan := isNaN f p ∨ isNaN f q
    (fcmpVal m z a b = true ↔ match modLow3 m with
      | 0 => ¬nan ∧ valueKey f p = valueKey f q
      | 1 => nan ∨ valueKey f p ≠ valueKey f q
      | 2 => ¬nan ∧ valueKey f p < valueKey f q
      | 3 => ¬nan ∧ valueKey f p ≤ valueKey f q
      | 4 => ¬nan ∧ valueKey f q < valueKey f p
      | 5 => ¬nan ∧ valueKey f q ≤ valueKey f p
      | 6 => ¬nan
      | _ => nan))

/-- The two halves of a 32-bit word. -/
def Sys2Proof.Claims.halfOf (i : Nat) (x : W64) : W64 := (x.extractLsb' (16 * i) 16).setWidth 64
/-- Every operation on packed pairs, .f16x2 and .bf16x2, acts on bits [15:0] and on bits [31:16] alone: element i of the result is what the
operation of the element type, with the same rounding mode and .ftz, gives of element i of each operand (06 R133). -/
def Obligations.PackedHalves : Prop :=
  (∀ (m k : BitVec 8), (modType m = 17 ∧ modType k = 10 ∨ modType m = 18 ∧ modType k = 11) → modVar m = modVar k → modSF m = modSF k →
    ∀ (a b : W64) (i : Nat), i < 2 →
      (∀ v, halfOf i (faddVal v m a b) = faddVal v k (halfOf i a) (halfOf i b)) ∧
      (∀ neg, halfOf i (fmulVal neg m a b) = fmulVal neg k (halfOf i a) (halfOf i b)) ∧
      halfOf i (fmexVal m a b) = fmexVal k (halfOf i a) (halfOf i b) ∧
      (∀ fn, halfOf i (unaryVal m (sfnVal fn) a) = unaryVal k (sfnVal fn) (halfOf i a) ∧
        halfOf i (unaryVal m (factVal fn) a) = unaryVal k (factVal fn) (halfOf i a))) ∧
  (∀ (v : BitVec 5) (a b c : W64) (i : Nat), i < 2 → ffmaType v = 17 ∨ ffmaType v = 18 →
    let t := if ffmaType v = 17 then 10 else 11
    let rnd := (v.extractLsb' 0 2).toNat
    let z := ffmaFtz v
    Yields t rnd false z (fusedOf (layout t).low rnd (readNum t z (halfOf i a).toNat) (readNum t z (halfOf i b).toNat)
      (readNum t z (halfOf i c).toNat)) (halfOf i (ffmaVal v a b c)).toNat) ∧
  (∀ (f : Cvtf) (lo hi : W32), (f.st = 17 ∨ f.st = 18) ∧ f.dt = 12 ∨ f.st = 12 ∧ (f.dt = 17 ∨ f.dt = 18) →
    let one := fun (st dt : Nat) (x : W64) => cvtElem st dt f.rnd.toNat f.sat f.ftz x
    (f.dt = 12 → cvtVal f lo hi = [0, 1].map fun i => lo32 (one (if f.st = 17 then 10 else 11) 12 (halfOf i (lo.setWidth 64)))) ∧
    (f.st = 12 → ∃ r : W32, cvtVal f lo hi = [r] ∧
      halfOf 0 (r.setWidth 64) = one 12 (if f.dt = 17 then 10 else 11) (lo.setWidth 64) ∧
      halfOf 1 (r.setWidth 64) = one 12 (if f.dt = 17 then 10 else 11) (hi.setWidth 64))) ∧
  (∀ old src : List Byte, old.length = 4 → src.length = 4 → ∃ new, atomCombine 33 4 old src = some new ∧
    ∀ i, i < 2 → let half := fun (l : List Byte) => leNat ((l.drop (2 * i)).take 2)
      Yields 11 0 false false (sumOf 0 (readNum 11 false (half old)) (readNum 11 false (half src))) (half new))

/-- A number's units, one smallest subnormal of its own format each, as an exact result in the units of another format. -/
def Sys2Proof.Claims.rescaled (own target : Nat) : Num → Exact
  | .nan => .nan
  | .inf neg => .inf neg
  | .num neg u => .of neg (signed neg u * 2 ^ (target - own)) (2 ^ (own - target))
/-- The quotient n / d rounded to an integer in a mode of 06 R130. -/
def RoundsInt (rnd : Nat) (n : Int) (d : Nat) (z : Int) : Prop :=
  match rnd with
  | 0 => 2 * (n - z * d).natAbs ≤ d ∧ (2 * (n - z * d).natAbs = d → z % 2 = 0)
  | 1 => (z * d).natAbs ≤ n.natAbs ∧ n.natAbs < z.natAbs * d + d ∧ 0 ≤ z * n
  | 2 => z * d ≤ n ∧ n < z * d + d
  | _ => z * d - d < n ∧ n ≤ z * d
/-- The ends of an integer type's range (06 R129). -/
def Sys2Proof.Claims.lowest (t : Nat) : Int := if t ≤ 3 then -(2 ^ (typeBits t - 1)) else 0
def Sys2Proof.Claims.highest (t : Nat) : Int := if t ≤ 3 then 2 ^ (typeBits t - 1) - 1 else 2 ^ typeBits t - 1
def Sys2Proof.Claims.clamped (t : Nat) (z : Int) : Int := max (lowest t) (min z (highest t))
/-- The types whose subnormals .ftz flushes (06 R131). -/
def Sys2Proof.Claims.flushes (t : Nat) (ftz : Bool) : Bool := ftz && (t == 10 || t == 11 || t == 12)
/-- The fraction field of the significand 2^(q / 4) in a format: .f16, .bf16, .f32, .f64, .e4m3, .e5m2 (06 R140). -/
def Sys2Proof.Claims.rootFraction (t q : Nat) : Nat :=
  match t with
  | 10 => nth 0 [0, 194, 424, 698] q
  | 11 => nth 0 [0, 24, 53, 87] q
  | 12 => nth 0 [0, 0x1838, 0x3505, 0x5745] q * 2 ^ 8
  | 13 => nth 0 [0, 0x1838, 0x3505, 0x5745] q * 2 ^ 37
  | 14 => nth 0 [0, 2, 3, 5] q
  | _ => nth 0 [0, 1, 2, 3] q

/-- CVT of one element. Between floating formats, and from integers, the exact value is rounded once; .sat gives the largest finite value
for what lies beyond it, and to .e4m3 and .e5m2 the rounding is to nearest (06 R134, R137, R138). A type to itself returns its operand, a
NaN canonical (15 R361). To an integer the value is rounded in the mode and clamped, and a NaN gives 0 (06 R135); between integers the low
bits stay, or under .sat the value is clamped (06 R136); the result is extended to its registers (15 R360). To L6 the code nearest in the
logarithm, by the thresholds of 06 R139; from L6 the tabulated significands of 06 R140. -/
def Obligations.ConversionValues : Prop :=
  ∀ (st dt rnd : Nat) (sat ftz : Bool) (x : W64), rnd < 4 →
    let r := cvtElem st dt rnd sat ftz x
    let f := layout st
    let y := readNum st (flushes st ftz) x.toNat
    (st ∈ [10, 11, 12, 13, 14, 15] → dt ∈ [10, 11, 12, 13, 14, 15] → st ≠ dt → (14 ≤ dt → rnd = 0) →
      Yields dt rnd sat (flushes dt ftz) (rescaled f.low (layout dt).low y) r.toNat) ∧
    (st ∈ [10, 11, 12, 13, 14, 15] → dt = st →
      (y = .nan → r.toNat = f.nan) ∧ (y ≠ .nan → r.toNat = flushed f (flushes st ftz) x.toNat)) ∧
    (st ∈ [10, 11, 12, 13, 14, 15] → dt ≤ 7 →
      (y = .nan → r = 0) ∧ (∀ neg, y = .inf neg → r = BitVec.ofInt 64 (if neg then lowest dt else highest dt)) ∧
      (∀ neg u, y = .num neg u → ∃ z, RoundsInt rnd (signed neg u) (2 ^ f.low) z ∧ r = BitVec.ofInt 64 (clamped dt z))) ∧
    (st ≤ 7 → dt ≤ 7 → r = BitVec.ofInt 64 (numOf dt r) ∧
      (sat = true → numOf dt r = clamped dt (numOf st x)) ∧ (sat = false → (numOf dt r - numOf st x) % 2 ^ typeBits dt = 0)) ∧
    (st ≤ 7 → dt ∈ [10, 11, 12, 13, 14, 15] → (14 ≤ dt → rnd = 0) →
      Yields dt rnd sat (flushes dt ftz) (.of false (numOf st x * 2 ^ (layout dt).low) 1) r.toNat) ∧
    (st ≠ 16 → (st ≤ 7 ∨ st ∈ [10, 11, 12, 13, 14, 15]) → dt = 16 →
      let n := if st ≤ 7 then .num (numOf st x < 0) (numOf st x).natAbs else y
      let low := if st ≤ 7 then 0 else f.low
      (n = .nan → r = 0x20) ∧
      (∀ neg, n = .inf neg → r = if sat then (if neg then 0x3F else 0x1F) else 0x20) ∧
      (∀ neg, n = .num neg 0 → r = 0) ∧
      (∀ neg (u p : Nat), n = .num neg u → 2 ^ p ≤ u → u < 2 ^ (p + 1) →
        let e : Int := (p : Int) - low
        let g := 256 * u / 2 ^ p - 256
        let m := 16 + 4 * e + (if g < 24 then 0 else if g < 76 then 1 else if g < 139 then 2 else if g < 214 then 3 else 4)
        r = if m < 1 then 0 else if 31 < m then (if sat then (if neg then 0x3F else 0x1F) else 0x20)
          else BitVec.ofInt 64 (m + if neg then 32 else 0))) ∧
    (st = 16 → let code := x.toNat % 64
      (dt = 16 → r.toNat = code) ∧
      (dt ≤ 7 → code = 0x20 → r = 0) ∧
      (dt ∈ [10, 11, 12, 13, 14, 15] → (dt = 12 ∨ dt = 13 ∨ rnd = 0) →
        (code = 0 → r.toNat = 0) ∧ (code = 0x20 → r.toNat = (layout dt).nan) ∧
        (code % 32 ≠ 0 → let k : Int := (code % 32 : Nat) - 16
          (r.toNat : Int) = (if code < 32 then 0 else (layout dt).sign) + ((layout dt).bias + k.fdiv 4) * 2 ^ (layout dt).mb +
            rootFraction dt (k.emod 4).toNat)))

/-- SFN and FACT of .f32: the special values of their tables (18 R429; 16 R367), 1 / x rounded once, the square roots as the codes nearest to
them, powers of two of integers and logarithms of powers of two exact, relu exact; a NaN is canonical, and .ftz acts on operand and result
(06 R131). Of .f16 and .bf16: the F32 result of the widened operand, rounded once to the type. -/
def Obligations.FunctionValues : Prop :=
  (∀ (m : BitVec 8) (a : W64), modType m = 12 →
    let z := modSF m
    let f := layout 12
    let sign := fun (neg : Bool) => if neg then f.sign else 0
    let inf := 0x7F800000
    let sfn := fun (n : Nat) => (unaryVal m (sfnVal n) a).toNat
    let fact := fun (n : Nat) => (unaryVal m (factVal n) a).toNat
    (readNum 12 z a.toNat = .nan → ∀ n, sfn n = f.nan ∧ fact n = f.nan) ∧
    (∀ neg, readNum 12 z a.toNat = .num neg 0 →
      sfn 0 = sign neg + inf ∧ sfn 1 = sign neg + inf ∧ sfn 2 = sign neg ∧ sfn 3 = 0x3F800000 ∧ sfn 4 = f.sign + inf ∧ sfn 5 = sign neg ∧
      sfn 6 = 0x3F800000 ∧ fact 0 = 0 ∧ fact 1 = sign neg ∧ fact 2 = sign neg ∧ fact 3 = 0x3F000000 ∧ fact 4 = sign neg) ∧
    (readNum 12 z a.toNat = .inf false → sfn 0 = 0 ∧ sfn 1 = 0 ∧ sfn 2 = inf ∧ sfn 3 = inf ∧ sfn 4 = inf ∧ sfn 5 = f.nan ∧ sfn 6 = f.nan ∧
      fact 0 = inf ∧ fact 1 = inf ∧ fact 2 = inf ∧ fact 3 = 0x3F800000 ∧ fact 4 = 0x3F800000) ∧
    (readNum 12 z a.toNat = .inf true → sfn 0 = f.sign ∧ sfn 1 = f.nan ∧ sfn 2 = f.nan ∧ sfn 3 = 0 ∧ sfn 4 = f.nan ∧ sfn 5 = f.nan ∧
      sfn 6 = f.nan ∧ fact 0 = 0 ∧ fact 1 = f.sign ∧ fact 2 = f.sign ∧ fact 3 = 0 ∧ fact 4 = f.sign + 0x3F800000) ∧
    (∀ neg u, u ≠ 0 → readNum 12 z a.toNat = .num neg u →
      Yields 12 0 false z (.quot (signed neg (2 ^ 298)) u) (sfn 0) ∧
      (neg = true → sfn 1 = f.nan ∧ sfn 2 = f.nan ∧ sfn 4 = f.nan ∧ fact 0 = 0) ∧
      (neg = false → fact 0 = flushed f z a.toNat ∧
        ((f.units (sfn 1 - 1) + f.units (sfn 1)) ^ 2 * u ≤ 4 * 2 ^ 447 ∧ 4 * 2 ^ 447 ≤ (f.units (sfn 1) + f.units (sfn 1 + 1)) ^ 2 * u ∧
          sfn 1 < inf) ∧
        ((f.units (sfn 2 - 1) + f.units (sfn 2)) ^ 2 ≤ 4 * 2 ^ 149 * u ∧ 4 * 2 ^ 149 * u ≤ (f.units (sfn 2) + f.units (sfn 2 + 1)) ^ 2 ∧
          sfn 2 < inf) ∧
        ∀ p : Nat, u = 2 ^ p → Yields 12 0 false z (.of false (((p : Int) - 149) * 2 ^ 149) 1) (sfn 4)) ∧
      (∀ k : Nat, k < 256 → u = k * 2 ^ 149 →
        Yields 12 0 false z (if neg then .quot (2 ^ 149) (2 ^ k) else .quot (2 ^ (149 + k)) 1) (sfn 3)))) ∧
  (∀ (m : BitVec 8) (a : W64) (g : FV → FV), modType m = 10 ∨ modType m = 11 →
    let single := fF32.round 0 false false (g (elemVal (modType m) (modSF m) a))
    (unaryVal m g a).toNat =
      flushed (layout (modType m)) (modSF m) (cvtElem 12 (modType m) 0 false false (BitVec.ofNat 64 single)).toNat)

/-- The type of a storage format of the matrix unit (07 R169; 13 R303). -/
def Sys2Proof.Claims.elemType (c : Nat) : Nat := match c with | 0 => 14 | 1 => 15 | 2 => 10 | 3 => 11 | _ => 12
/-- The exact product of two elements, in the product of their units. -/
def Sys2Proof.Claims.productNum : Num → Num → Num
  | .nan, _ => .nan
  | _, .nan => .nan
  | .inf a, .inf b => .inf (a != b)
  | .inf a, .num b u => if u = 0 then .nan else .inf (a != b)
  | .num a u, .inf b => if u = 0 then .nan else .inf (a != b)
  | .num a u, .num b w => .num (a != b) (u * w)
/-- The sum of a group of products before its rounding to F32 (06 R143, R144): `cut` truncates each to 31 leading places of the largest. -/
def Sys2Proof.Claims.groupExact (ta tb : Nat) (cut : Bool) (l : List (Nat × Nat)) : Exact :=
  let ps := l.map fun xy => productNum (readNum ta false xy.1) (readNum tb false xy.2)
  let has := fun (b : Bool) => ps.any fun p => match p with | .inf n => n == b | _ => false
  if (ps.any fun p => match p with | .nan => true | _ => false) || (has true && has false) then .nan
  else if has true then .inf true else if has false then .inf false
  else
    let us := ps.map fun p => match p with | .num n u => (n, u) | _ => (false, 0)
    let places := if cut then us.foldl (fun m x => max m (Nat.log2 x.2)) 0 - 30 else 0
    let low := (layout ta).low + (layout tb).low
    .of false ((us.map fun x => signed x.1 (x.2 / 2 ^ places * 2 ^ places)).sum * 2 ^ (149 - low)) (2 ^ (low - 149))
/-- The sum of L6 products in its window, units of 2^-23, scaled (06 R142). -/
def Sys2Proof.Claims.l6Exact (scale : Int) (l : List (Nat × Nat)) : Exact :=
  let mag := fun (x y : Nat) =>
    let cc : Int := (x % 32 + y % 32 : Nat) - 32
    nth 0 [0x8000, 0x9838, 0xB505, 0xD745] (cc.emod 4).toNat * 2 ^ (cc.fdiv 4 + 8).toNat
  if l.any fun xy => xy.1 % 64 == 0x20 || xy.2 % 64 == 0x20 then .nan
  else .of false ((l.map fun xy => if xy.1 % 32 = 0 ∨ xy.2 % 32 = 0 then 0 else
      signed (xy.1 / 32 % 2 != xy.2 / 32 % 2) (mag xy.1 xy.2)).sum * 2 ^ (126 + scale).toNat) (2 ^ (-(126 + scale)).toNat)
/-- Group sums, each rounded once to F32 and added to C, one after the other (06 R145). -/
def Accumulates : List Exact → Nat → Nat → Prop
  | [], c, r => r = c
  | g :: gs, c, r => ∃ q c', Yields 12 0 false false g q ∧
      Yields 12 0 false false (sumOf 0 (readNum 12 false c) (readNum 12 false q)) c' ∧ Accumulates gs c' r

/-- An element of C after an MMA: FP8 products are summed exactly in groups of 64, those of BF16, F16 and F32 in groups of 8, truncated below
the leading places, and L6 products in one window with their scales; each group sum is rounded once to F32 and added to C (06 R141 to R145;
17 R406). -/
def Obligations.MatrixValues : Prop :=
  (∀ (o : MmaOp) (scale : Int) (c : Nat) (gs : List (List (Nat × Nat))), c < 2 ^ 32 →
    (o.fa ≤ 1 ∧ o.fb ≤ 1 ∧ (∀ g ∈ gs, g.length = 64) ∨ 2 ≤ o.fa ∧ o.fa ≤ 4 ∧ o.fb = o.fa ∧ ∀ g ∈ gs, g.length = 8) →
    Accumulates (gs.map (groupExact (elemType o.fa) (elemType o.fb) (decide (2 ≤ o.fa)))) c
      (mmaElem o.fa scale c (gs.flatten.map fun xy => mmaMul o xy.1 xy.2))) ∧
  (∀ (o : MmaOp) (scale : Int) (c : Nat) (l : List (Nat × Nat)), c < 2 ^ 32 → o.fa = 5 →
    Accumulates [l6Exact scale l] c (mmaElem o.fa scale c (l.map fun xy => mmaMul o xy.1 xy.2)))

/-- A v register for which no result is in flight reads the row of the tile that the allotment or a window maps (04 R76), and a g
register its word (04 R78). p7 is true in every lane (04 R79). -/
def Obligations.RegisterReads : Prop :=
  (∀ (s : State) (v : View) (op n j : Nat), n < 192 → ∀ t, v.wp.allot[n / 32]? = some t →
    (s.core v.c).rowPending t (n % 32) = false → readV s v op n j = (s.core v.c).tileWord t (n % 32) j) ∧
  (∀ (s : State) (v : View) (op n j : Nat), 192 ≤ n → n < 224 → v.wp.w0.valid = true →
    (s.core v.c).rowPending v.wp.w0.tile.toNat (n - 192) = false →
    readV s v op n j = (s.core v.c).tileWord v.wp.w0.tile.toNat (n - 192) j) ∧
  (∀ (s : State) (v : View) (op n j : Nat), 224 ≤ n → v.wp.w1.valid = true →
    (s.core v.c).rowPending v.wp.w1.tile.toNat (n - 224) = false →
    readV s v op n j = (s.core v.c).tileWord v.wp.w1.tile.toNat (n - 224) j) ∧
  (∀ (s : State) (v : View) (op n : Nat), (s.core v.c).gPending v.me n = false → readG s v op n = mget 0 v.wp.g n) ∧
  (∀ (s : State) (c w : Nat) (wp : Warp), predMask s c w wp 7 = BitVec.allOnes 32)

/-- The frontier of a warp whose active lanes move to `moved`, the others to next_pc (03 R62, R63). -/
def Sys2Proof.Claims.movedFrontier (v : View) (long : Bool) (moved : List Entry) : List Entry :=
  v.wp.replaceFirst (moved ++ [{ v.e with pc := v.e.pc + (if long then 16 else 8), mask := v.e.mask &&& ~~~v.act }])

/-- Where a branch moves the active lanes (15 R344 to R346, R348): the entry, or one entry for each lane's pointer. -/
def Sys2Proof.Claims.branchEntries (s : State) (v : View) : Instr → Option (List Entry)
  | .bra _ f => some [{ pc := v.e.pc + BitVec.ofInt 48 (8 * f.off.toInt), prio := f.prio, mask := v.act, depth := v.e.depth }]
  | .braFar _ f => some [{ pc := v.e.pc + BitVec.ofInt 48 (8 * f.off.toInt), prio := f.prio, mask := v.act, depth := v.e.depth }]
  | .brx _ f => some (v.lanes.map fun j =>
      let p := readR64 s v 0 f.xa f.a.toNat j
      { pc := BitVec.ofNat 48 (p.toNat % 2 ^ 48 / 8 * 8), prio := p.extractLsb' 48 16, mask := BitVec.twoPow 32 j, depth := v.e.depth })
  | _ => none
/-- The code pointers that an instruction reads, and the registers that hold them (03 R59). -/
def Sys2Proof.Claims.pointerRegs : Instr → List Nat
  | .brx _ f | .callx _ f => if f.xa then [] else [f.a.toNat, f.a.toNat + 1]
  | _ => []
def Sys2Proof.Claims.pointersAligned (s : State) (v : View) : Instr → Prop
  | .brx _ f | .callx _ f => ∀ j ∈ v.realLanes, (readR64 s v 0 f.xa f.a.toNat j).extractLsb' 0 3 = 0
  | _ => True

/-- BRA, BRA.far and BRX move the active lanes and nothing else. -/
def Obligations.BranchesComplete : Prop :=
  ∀ (s : State) (i : Instr) (h : Hdr) (c w : Nat) (wp : Warp) (e : Entry) (moved : List Entry),
    Issues i h c w wp e s →
    let v := seen h c w wp e s
    let u := begun c w wp s
    branchEntries u v i = some moved → v.act ≠ 0 → (v.real = 0 ∨ checkVs u wp (pointerRegs i) = none) → pointersAligned u v i →
    (movedFrontier v i.long moved).length ≤ (s.gridOf wp.gid).frontier →
    Answers (exec i s) (Redirects h c w { wp with young := false, frontier := movedFrontier v i.long moved } s)

/-- Where a call moves the active lanes: one level deeper (03 R66; 15 R349, R350). -/
def Sys2Proof.Claims.callEntries (s : State) (v : View) : Instr → Option (List Entry)
  | .call _ f => some [{ pc := v.e.pc + BitVec.ofInt 48 (8 * f.off.toInt), prio := f.prio, mask := v.act, depth := v.e.depth + 1 }]
  | .callFar _ f => some [{ pc := v.e.pc + BitVec.ofInt 48 (8 * f.off.toInt), prio := f.prio, mask := v.act, depth := v.e.depth + 1 }]
  | .callx _ f => some (v.lanes.map fun j =>
      let p := readR64 s v 0 f.xa f.a.toNat j
      { pc := BitVec.ofNat 48 (p.toNat % 2 ^ 48 / 8 * 8), prio := p.extractLsb' 48 16, mask := BitVec.twoPow 32 j,
        depth := v.e.depth + 1 })
  | _ => none

/-- The address of frame `k` of a warp slot in memory (03 R68). -/
def Sys2Proof.Claims.frameAt (s : State) (c w gid k : Nat) : Nat := (s.gridOf gid).spill + (c * 64 + w) * 163840 + (k - 1) * 320
/-- The translations of a frame's five pieces of 64 bytes: none fails, and the L1 serves their pages. -/
def FrameOk (s : State) (v : View) (need : Need) (a : Nat) (ps : List (Nat × W64)) (s1 : State) : Prop :=
  framePieces s v need a = ((List.range 5).zip (ps.map fun p => LX.ok p.1 p.2), s1) ∧ ps.length = 5 ∧ ∀ p ∈ ps, leafCp p.2 % 2 = 0

/-- CALL, CALL.far and CALLX: each active lane's return word holds next_pc and the old priority (03 R66, R67). Frames noted in memory from
the new depth on are of lanes that have all exited, and are forgotten (03 R68). With no room on the chip the shallowest frame is stored
first, through the L1 (03 R68, R69). More entries than FRONTIER are FRONTIER_OVERFLOW, of BRA and BRX too (03 R64); a depth above
CALLDEPTH + 512, or a spill with SPILL 0, is STACK_SPILL_FAULT (03 R66, R70; 15 R349). The layout of a frame in memory (03 R69). -/
def Obligations.CallsComplete : Prop :=
  (∀ (s : State) (i : Instr) (h : Hdr) (c w : Nat) (wp : Warp) (e : Entry) (moved : List Entry),
    Issues i h c w wp e s →
    let v := seen h c w wp e s
    let u := begun c w wp s
    callEntries u v i = some moved → v.act ≠ 0 → (v.real = 0 ∨ checkVs u wp (pointerRegs i) = none) → pointersAligned u v i →
    (movedFrontier v i.long moved).length ≤ (s.gridOf wp.gid).frontier →
    e.depth + 1 ≤ (s.gridOf wp.gid).callDepth + 512 → wp.frames.length < (s.gridOf wp.gid).callDepth →
    Answers (exec i s) (Redirects h c w { wp with
      young := false
      frontier := movedFrontier v i.long moved
      spilled := wp.spilled.filter fun k => k < e.depth + 1
      frames := wp.frames ++ [⟨e.depth + 1, v.act, v.lanes.map fun j => (j, e.prio ++ (e.pc + (if i.long then 16 else 8)))⟩] } s)) ∧
  (∀ (s s1 : State) (i : Instr) (h : Hdr) (c w : Nat) (wp : Warp) (e : Entry) (moved : List Entry) (fr : Frame) (ps : List (Nat × W64)),
    Issues i h c w wp e s →
    let v := seen h c w wp e s
    let u := begun c w wp s
    callEntries u v i = some moved → v.act ≠ 0 → (v.real = 0 ∨ checkVs u wp (pointerRegs i) = none) → pointersAligned u v i →
    (movedFrontier v i.long moved).length ≤ (s.gridOf wp.gid).frontier → e.depth + 1 ≤ (s.gridOf wp.gid).callDepth + 512 →
    (s.gridOf wp.gid).callDepth ≤ wp.frames.length → fr ∈ wp.frames → (∀ g ∈ wp.frames, g ≠ fr → fr.depth < g.depth) →
    (s.gridOf wp.gid).spill ≠ 0 → NoneOut (.warp c w) s → FrameOk u v .w (frameAt s c w wp.gid fr.depth) ps s1 →
    let z := ((List.range 5).zip ps).foldl (fun x p => (x.collTouchPa (span p.2.1 64)).l1Store c (s.group wp.gid).grid
      (cellsAt p.2.1 ((fr.bytes.drop (64 * p.1)).take 64))) s1
    Answers (exec i s) (Redirects h c w { wp with
      young := false
      frontier := movedFrontier v i.long moved
      spilled := (insertNat fr.depth wp.spilled).filter fun k => k < e.depth + 1
      frames := (wp.frames.filter fun g => g.depth != fr.depth) ++
        [⟨e.depth + 1, v.act, v.lanes.map fun j => (j, e.prio ++ (e.pc + (if i.long then 16 else 8)))⟩] } z)) ∧
  (∀ (s : State) (i : Instr) (h : Hdr) (c w : Nat) (wp : Warp) (e : Entry) (moved : List Entry),
    Issues i h c w wp e s →
    let v := seen h c w wp e s
    let u := begun c w wp s
    let n := (movedFrontier v i.long moved).length
    let traps := fun (code info : Nat) =>
      exec i s = .next (takeTrap u c w code 8 (v.realLanes.map fun j => (j, BitVec.ofNat 64 info))).useFree
    v.real ≠ 0 → checkVs u wp (pointerRegs i) = none → pointersAligned u v i →
    (branchEntries u v i = some moved ∨ callEntries u v i = some moved → (s.gridOf wp.gid).frontier < n → traps 0x13 n) ∧
    (callEntries u v i = some moved → n ≤ (s.gridOf wp.gid).frontier →
      ((s.gridOf wp.gid).callDepth + 512 < e.depth + 1 ∨
        wp.frames ≠ [] ∧ (s.gridOf wp.gid).callDepth ≤ wp.frames.length ∧ (s.gridOf wp.gid).spill = 0) → traps 0x42 0)) ∧
  (∀ f : Frame, f.bytes.length = 320 ∧ leNat ((f.bytes.drop 256).take 4) = f.mask.toNat ∧
    ∀ j, j < 32 → leNat ((f.bytes.drop (8 * j)).take 8) = if f.mask.getLsbD j then (mget 0 f.rets j).toNat else 0)

/-- A return from a frame on the chip: each active lane goes to its return word, at its priority, one level up; the frame loses the lanes
and is popped when it is empty (03 R67), and with it the frame CALLDEPTH levels up is read back where it is in memory, without the lanes that
have exited (03 R68, R69). EXIT, and RET at depth 0, end the active lanes: they leave the
frontier and the frames for good; in handler mode, which RET leaves to ERET at the held depth, the last held lane to end ends the
mode (16 R364, R365; 17 R420; 11 R254). -/
def Obligations.LanesEnd : Prop :=
  (∀ (s : State) (h : Hdr) (f : SysF) (c w : Nat) (wp : Warp) (e : Entry) (fr : Frame),
    Issues (.ret h f) h c w wp e s →
    let v := seen h c w wp e s
    v.act ≠ 0 → 0 < e.depth → ¬(wp.hmode = true ∧ e.depth = wp.held.depth) →
    wp.frames.find? (fun x => x.depth == e.depth) = some fr →
    (∀ j ∈ v.realLanes, (mget 0 fr.rets j).extractLsb' 0 3 = 0) →
    (fr.mask &&& ~~~v.act = 0 → (s.gridOf wp.gid).callDepth < e.depth → e.depth - (s.gridOf wp.gid).callDepth ∉ wp.spilled) →
    Answers (exec (.ret h f) s) (Redirects h c w { wp with
      young := false
      frontier := v.wp.replaceFirst ((v.lanes.map fun j =>
          let p := mget 0 fr.rets j
          { pc := BitVec.ofNat 48 (p.toNat % 2 ^ 48 / 8 * 8), prio := p.extractLsb' 48 16, mask := BitVec.twoPow 32 j,
            depth := e.depth - 1 }) ++ [{ e with pc := e.pc + 8, mask := e.mask &&& ~~~v.act }])
      frames := if fr.mask &&& ~~~v.act = 0 then wp.frames.filter fun x => x.depth != e.depth
        else wp.frames.map fun x => if x.depth == e.depth then
          { fr with mask := fr.mask &&& ~~~v.act, rets := fr.rets.filter fun r => !v.act.getLsbD r.1 } else x } s)) ∧
  (∀ (s s1 s2 : State) (h : Hdr) (f : SysF) (c w : Nat) (wp : Warp) (e : Entry) (fr : Frame) (ps : List (Nat × W64)) (bs : List Byte),
    Issues (.ret h f) h c w wp e s →
    let v := seen h c w wp e s
    let k := e.depth - (s.gridOf wp.gid).callDepth
    let kept := wp.frames.filter fun x => x.depth != e.depth
    let u := (begun c w wp s).modWarp c w fun x => { x with frames := kept }
    v.act ≠ 0 → 0 < e.depth → ¬(wp.hmode = true ∧ e.depth = wp.held.depth) →
    wp.frames.find? (fun x => x.depth == e.depth) = some fr → (∀ j ∈ v.realLanes, (mget 0 fr.rets j).extractLsb' 0 3 = 0) →
    fr.mask &&& ~~~v.act = 0 → (s.gridOf wp.gid).callDepth < e.depth → k ∈ wp.spilled → NoneOut (.warp c w) s →
    FrameOk u v .r (frameAt s c w wp.gid k) ps s1 → loadPieces (.warp c w) wp.gid ps s1 = (bs, none, s2) →
    let g := frameOf k bs wp.exited
    Answers (exec (.ret h f) s) (Redirects h c w { wp with
      young := false
      frontier := v.wp.replaceFirst ((v.lanes.map fun j =>
          let p := mget 0 fr.rets j
          { pc := BitVec.ofNat 48 (p.toNat % 2 ^ 48 / 8 * 8), prio := p.extractLsb' 48 16, mask := BitVec.twoPow 32 j,
            depth := e.depth - 1 }) ++ [{ e with pc := e.pc + 8, mask := e.mask &&& ~~~v.act }])
      frames := if g.mask = 0 then kept else kept ++ [g]
      spilled := wp.spilled.filter fun d => d != k } s2)) ∧
  (∀ (f : Frame) (exited : W32) (j : Nat), j < 32 → (f.mask &&& ~~~exited).getLsbD j = true →
    (frameOf f.depth f.bytes exited).mask = f.mask &&& ~~~exited ∧ (frameOf f.depth f.bytes exited).depth = f.depth ∧
    mget 0 (frameOf f.depth f.bytes exited).rets j = mget 0 f.rets j) ∧
  (∀ (s : State) (i : Instr) (h : Hdr) (f : SysF) (c w : Nat) (wp : Warp) (e : Entry),
    Issues i h c w wp e s → i = .exit h f ∨ (i = .ret h f ∧ e.depth = 0 ∧ ¬(wp.hmode = true ∧ wp.held.depth = 0)) →
    let v := seen h c w wp e s
    let x := { wp with
      young := false
      exited := wp.exited ||| v.act
      frames := (wp.frames.map fun x => { x with mask := x.mask &&& ~~~v.act, rets := x.rets.filter fun r => !v.act.getLsbD r.1 }).filter
        fun x => x.mask != 0
      frontier := wp.replaceFirst [{ e with pc := e.pc + 8, mask := e.mask &&& ~~~v.act }] }
    v.act ≠ 0 → Answers (exec i s) (Redirects h c w
      (if wp.hmode = true ∧ wp.held.mask &&& ~~~(wp.exited ||| v.act) = 0 then
        { x with hmode := false, held := {}, frontier := sortEntries (mergeEntries x.frontier) } else x) s))

/-- NOP, PREF, and any of these branches, calls and ends of lanes without an active lane, only move to next_pc (03 R62; 17 R410, R413). So
does an ERET that fails its conditions where helper lanes alone are active, which take no trap (02 R33; that they go on is DESIGN CHOICE,
log 57). -/
def Obligations.NoEffectComplete : Prop :=
  ∀ (s : State) (i : Instr) (h : Hdr) (c w : Nat) (wp : Warp) (e : Entry),
    Issues i h c w wp e s →
    (∃ f, i = .nop h f) ∨
    (∃ f, i = .pref h f ∧ ((seen h c w wp e s).real = 0 ∨ checkVs (begun c w wp s) wp (runRegsX (xA f.x) f.a.toNat 2) = none)) ∨
    ((seen h c w wp e s).act = 0 ∧ ((∃ f, i = .bra h f) ∨ (∃ f, i = .braFar h f) ∨ (∃ f, i = .brx h f) ∨ (∃ f, i = .call h f) ∨
      (∃ f, i = .callFar h f) ∨ (∃ f, i = .callx h f) ∨ (∃ f, i = .ret h f) ∨ (∃ f, i = .exit h f))) ∨
    ((seen h c w wp e s).real = 0 ∧ (∃ f, i = .eret h f) ∧
      (wp.hmode = false ∨ e.mask ≠ wp.held.mask &&& ~~~wp.exited ∨ e.depth ≠ wp.held.depth)) →
    Answers (exec i s) (Redirects h c w ({ wp with young := false }.advance i.long) s)

/-- The code and the detail of TRAP and BKPT (11 R249; 15 R344; 18 R449). -/
def Sys2Proof.Claims.trapOf : Instr → Option (Nat × W64)
  | .trap _ f => some (0x40, f.imm.setWidth 64)
  | .bkpt _ _ => some (0x41, 0)
  | _ => none

/-- No fixed-latency result of a warp is in flight. -/
def Landed (c w : Nat) (s : State) : Prop := ∀ p ∈ (s.core c).pend, p.agent ≠ .warp c w
/-- Nothing of any core differs. -/
def CoresRead (s t : State) : Prop := ∀ k, t.core k = s.core k

/-- TRAP and BKPT with an active real lane, once the warp's earlier results have landed, enter the handler: the trap registers hold the
code, the pc and the detail in the trapping lanes; the first entry is held, and its lanes stand at TRAPH, at TRAPH's priority and the
old depth; nothing else changes (11 R252). Without a handler, and with a fault ring that is usable, the group parks under a fresh FID
with the trap registers so set (11 R257); where the ring is not usable the grid is aborted (10 R231). A trap in handler mode aborts the
grid (11 R256; 10 R230). -/
def Obligations.TrapsTaken : Prop :=
  (∀ (s : State) (i : Instr) (h : Hdr) (c w : Nat) (wp : Warp) (e : Entry) (code : Nat) (info : W64),
    Issues i h c w wp e s → trapOf i = some (code, info) → (seen h c w wp e s).real ≠ 0 → wp.hmode = false → Landed c w s →
    let traph := (s.part (s.partOf wp.gid)).traph
    traph.getLsbD 0 = true →
    Answers (exec i s) fun t =>
      OneWarp c w { wp with
        young := false
        wait := .none
        waitCount := 0
        trapcode := BitVec.ofNat 32 code
        trappc := e.pc.setWidth 64
        trapinfo := (seen h c w wp e s).realLanes.foldl (fun m j => mset 0 m j info) []
        held := e
        hmode := true
        frontier := sortEntries ((wp.frontier.filter fun x => x != e) ++
          [{ pc := BitVec.ofNat 48 (traph.toNat % 2 ^ 48 / 8 * 8), prio := traph.extractLsb' 48 16, mask := e.mask, depth := e.depth }]) } s t ∧
      CoresRead s t ∧ { t with warps := s.warps, cores := s.cores, freeCtr := s.freeCtr } = s) ∧
  (∀ (s : State) (i : Instr) (h : Hdr) (c w : Nat) (wp : Warp) (e : Entry) (code : Nat) (info : W64) (g : Group),
    Issues i h c w wp e s → trapOf i = some (code, info) → (seen h c w wp e s).real ≠ 0 → wp.hmode = false →
    (s.part (s.partOf wp.gid)).traph.getLsbD 0 = false → mget? s.groups wp.gid = some g → Landed c w s →
    (fltRingOk s (s.partOf wp.gid) = false → ∀ gr, mget? s.grids g.grid = some gr → gr.aborted = false → gr.done = false →
      Answers (exec i s) fun t => (t.grid g.grid).aborted = true ∧ (t.grid g.grid).status = 4) ∧
    (fltRingOk s (s.partOf wp.gid) = true →
    Answers (exec i s) fun t =>
      (t.group wp.gid).fids = g.fids ++ [((s.part (s.partOf wp.gid)).fid, .warp w true, false)] ∧
      (t.part (s.partOf wp.gid)).fid = nextFid (s.part (s.partOf wp.gid)).fid ∧
      (t.warp c w).trapcode = BitVec.ofNat 32 code ∧ (t.warp c w).trappc = e.pc.setWidth 64 ∧ (t.warp c w).hmode = false ∧
      (t.warp c w).frontier = wp.frontier)) ∧
  (∀ (s : State) (i : Instr) (h : Hdr) (c w : Nat) (wp : Warp) (e : Entry) (code : Nat) (info : W64) (gr : Grid),
    Issues i h c w wp e s → trapOf i = some (code, info) → (seen h c w wp e s).real ≠ 0 → wp.hmode = true →
    mget? s.grids (s.group wp.gid).grid = some gr → gr.aborted = false → gr.done = false →
    Answers (exec i s) fun t => (t.grid (s.group wp.gid).grid).aborted = true ∧ (t.grid (s.group wp.gid).grid).status = 4)

/-- A trap raised in handler mode is not handled: the grid is aborted with status 4, ABORTED, and a record goes to the fault ring with
CLASS 3, the new trap's CODE and CAUSE 8 (11 R256); where the ring cannot take it, it is counted (10 R231). So TRAP and BKPT end there. -/
def Obligations.HandlerModeTraps : Prop :=
  (∀ (s : State) (c w code cause level info access : Nat) (infos : List (Nat × W64)) (wp : Warp) (e : Entry) (gr : Grid),
    s.warp? c w = some wp → wp.first = some e → wp.hmode = true → mget? s.grids (s.group wp.gid).grid = some gr →
    gr.aborted = false → gr.done = false → code < 256 →
    let u := s.landBeforeTrap c w
    let t := takeTrap s c w code cause infos level info access
    (t.grid (s.group wp.gid).grid).aborted = true ∧ (t.grid (s.group wp.gid).grid).status = 4 ∧
    (t.group wp.gid).phase = .gone ∧ .completionAction (s.group wp.gid).grid ∈ t.agenda ∧
    ∃ r : BitVec 512, r.extractLsb' 232 8 = 3 ∧ r.extractLsb' 224 8 = BitVec.ofNat 8 code ∧ r.extractLsb' 120 8 = 8 ∧
      (∀ x, fltRingOk u gr.part = true → putRecord u gr.part r = some x → t.mem = x.mem) ∧
      (fltRingOk u gr.part = false ∨ putRecord u gr.part r = none → t.mem = u.mem ∧
        (t.part gr.part).fltstat = (s.part gr.part).fltstat + 1)) ∧
  (∀ (s : State) (i : Instr) (h : Hdr) (c w : Nat) (wp : Warp) (e : Entry) (code : Nat) (info : W64),
    Issues i h c w wp e s → trapOf i = some (code, info) → (seen h c w wp e s).real ≠ 0 →
    exec i s = .next (takeTrap (begun c w wp s) c w code 8 ((seen h c w wp e s).realLanes.map fun j => (j, info))).useFree)

/-- ERET with exactly the held lanes at the held depth: they stand at sr.trappc with the held priority, and handler mode ends
(11 R254). ERET outside handler mode, or by other lanes than the held ones, is ILLEGAL_OPERAND where a real lane acts (11 R254; 16 R363;
02 R33). -/
def Obligations.EretRules : Prop :=
  (∀ (s : State) (h : Hdr) (f : SysF) (c w : Nat) (wp : Warp) (e : Entry),
    Issues (.eret h f) h c w wp e s → wp.hmode = true → e.mask = wp.held.mask &&& ~~~wp.exited → e.depth = wp.held.depth →
    wp.trappc.extractLsb' 0 3 = 0 →
    Answers (exec (.eret h f) s) (Redirects h c w { wp with
      young := false
      hmode := false
      held := {}
      frontier := sortEntries (mergeEntries (wp.replaceFirst [] ++
        [{ e with pc := wp.trappc.extractLsb' 0 48, prio := wp.held.prio }])) } s)) ∧
  (∀ (s : State) (h : Hdr) (f : SysF) (c w : Nat) (wp : Warp) (e : Entry),
    Issues (.eret h f) h c w wp e s → (seen h c w wp e s).real ≠ 0 →
    (wp.hmode = false ∨ e.mask ≠ wp.held.mask &&& ~~~wp.exited ∨ e.depth ≠ wp.held.depth) →
    exec (.eret h f) s = .next (takeTrap (begun c w wp s) c w 0x08 8 ((lanesOf e.mask).map fun j => (j, 0))).useFree)

/-- The entry that issues has no entry before it that may issue: the deepest first, then the lowest priority, then the lowest pc (03 R61);
its pc is the one fetched, an odd word after its even one, which is no literal (03 R71; 10 R225; 13 R300), and only its lanes act, where
their predicate passes (13 R297). In handler mode an entry may issue just where its lanes lie within held.MASK, and no other (11 R253); where
its warp is ready a first entry stands (03 R62). -/
def Obligations.FrontierOrder : Prop :=
  (∀ (w : Warp) (e : Entry), w.first = some e → e ∈ w.frontier ∧ w.eligible e = true ∧
    ∀ x ∈ w.frontier, w.eligible x = true →
      x.depth < e.depth ∨ (x.depth = e.depth ∧ (e.prio.toNat < x.prio.toNat ∨ (e.prio = x.prio ∧ e.pc.toNat ≤ x.pc.toNat)))) ∧
  (∀ (w : Warp) (x : Entry), (w.hmode = false → w.eligible x = true) ∧
    (w.hmode = true → (w.eligible x = true ↔ ∀ j, j < 32 → x.mask.getLsbD j = true → w.held.mask.getLsbD j = true))) ∧
  (∀ (s : State) (c w : Nat), warpReady s c w = true → ∃ x e, s.warp? c w = some x ∧ x.first = some e) ∧
  (∀ (s u : State) (c w pa : Nat) (leaf : W64) (tl : TlbE) (e : Entry) (i : Instr), (s.warp c w).first = some e →
    e.pc.getLsbD 3 = false → xlate s c (s.partOf (s.warp c w).gid) e.pc.toNat .x = (.ok pa leaf tl, u) → pa < memEnd →
    (span (pa / 16 * 16) 16).any s.poisoned = false →
    decode (s.rd64 pa) (if longOpc (s.rd64 pa) then s.rd64 (pa + 8) else 0) = .ok i → fetchWarp s c w = (i, u)) ∧
  (∀ (s u u0 : State) (c w pa pa0 : Nat) (leaf leaf0 : W64) (tl tl0 : TlbE) (e : Entry) (i : Instr), (s.warp c w).first = some e →
    e.pc.getLsbD 3 = true → xlate s c (s.partOf (s.warp c w).gid) (e.pc.toNat - 8) .r = (.ok pa0 leaf0 tl0, u0) → pa0 < memEnd →
    longOpc (u0.rd64 pa0) = false → xlate u0 c (s.partOf (s.warp c w).gid) e.pc.toNat .x = (.ok pa leaf tl, u) → pa < memEnd →
    (span (pa / 16 * 16) 16).any s.poisoned = false → longOpc (s.rd64 pa) = false → decode (s.rd64 pa) 0 = .ok i →
    fetchWarp s c w = (i, u)) ∧
  (∀ (s : State) (i : Instr) (h : Hdr) (c w : Nat) (wp : Warp) (e : Entry), Issues i h c w wp e s →
    (seen h c w wp e s).e = e ∧ ∀ j, j < 32 → (seen h c w wp e s).act.getLsbD j =
      (e.mask.getLsbD j && ((predMask (begun c w wp s) c w { wp with young := false } h.pn.toNat).getLsbD j != h.pneg)))

/-- Exchanges and combinations across lanes, whose results are known at their issue (03 R72; 16 R398; 17 R418, R419; 18 R430, R451):
v sources, token, results. -/
def Sys2Proof.Claims.crossRow (s : State) (v : View) : Instr → Option (List Nat × Nat × List Write)
  | .shfl _ f => some ([f.a.toNat] ++ runRegsX (xB f.x) f.b.toNat 1 ++ [f.d.toNat], f.tok.toNat,
      rowWrites v f.d.toNat 1 fun j => [laneV s v 0 f.a.toNat (shflLane (f.sub.toNat % 4) (readR s v 1 (xB f.x) f.b.toNat j) j)])
  | .match_ _ f => some (runRegs f.a.toNat (kOf (f.sub.getLsbD 0)) ++ [f.d.toNat], f.tok.toNat,
      rowWrites v f.d.toNat 1 fun j => [if v.real.getLsbD j then
        maskOf (v.realLanes.filter fun k => readT s v 0 false f.a (f.sub.getLsbD 0) k == readT s v 0 false f.a (f.sub.getLsbD 0) j)
        else 0])
  | .vote _ f =>
      let m := predMask s v.c v.w v.wp f.a.toNat &&& v.real
      some ([], f.tok.toNat,
        if f.sub = 0 then (if f.d = 7 then [] else [.pred f.d.toNat (v.lanes.map fun j => (j, m == v.real))])
        else if f.sub = 1 then (if f.d = 7 then [] else [.pred f.d.toNat (v.lanes.map fun j => (j, m != 0))])
        else [.g f.d.toNat m])
  | .redux _ f => some ([f.a.toNat], f.tok.toNat, [.g f.d.toNat (reduxVal (f.sub.toNat % 8) (f.sub.getLsbD 3)
      (v.realLanes.map fun j => readV s v 0 f.a.toNat j))])
  | _ => none

/-- SHFL, MATCH, VOTE and REDUX start their operation with the results that the lanes' registers give; SHFL and MATCH also where helper
lanes alone are active (02 R33; 16 R398; 18 R430), VOTE and REDUX only with a real lane (17 R418; 18 R451). -/
def Obligations.CrossLaneOpsComplete : Prop :=
  ∀ (s : State) (i : Instr) (h : Hdr) (c w : Nat) (wp : Warp) (e : Entry) (srcs : List Nat) (tok : Nat) (ws : List Write),
    Issues i h c w wp e s →
    let v := seen h c w wp e s
    let u := begun c w wp s
    crossRow u v i = some (srcs, tok, ws) → (v.real ≠ 0 ∨ v.act ≠ 0 ∧ ((∃ f, i = .shfl h f) ∨ ∃ f, i = .match_ h f)) →
    (v.real = 0 ∨ checkVs u wp srcs = none) → NoneOut (.warp c w) s →
    Answers (exec i s) (Starts h c w tok true (.results ws) u)

/-- The checks of the lanes of a global access, one after another, and the state that they leave (07 R152; 11 R248). -/
def Sys2Proof.Claims.globalChecks (need : Need) (n : Nat) (f : Mem) (v : View) (lanes : List Nat) (s : State) : List (Nat × LX) × State :=
  laneFold (fun x j => laneGlobal x v.c (s.partOf v.gid) need n n (memEa x v f n j)) lanes s

/-- The loads of an LD that pass their checks, its destination. -/
def Sys2Proof.Claims.ldDst (v : View) (t : BitVec 3) (f : Mem) (oks : List (Nat × Nat × W64)) : LoadDst :=
  loadDst v (xB f.x) f.d.toNat (ldSize t) (memBytes (ldSize t) f) (t == 0 || t == 2)
    ((loadLanes v (xB f.x)).filter fun j => oks.all fun o => o.1 != j)
def Sys2Proof.Claims.ldRegs (t : BitVec 3) (f : Mem) : List Nat :=
  runRegsX (xA f.x) f.a.toNat 2 ++ runRegsX (xB f.x) f.d.toNat (memRegs (ldSize t) f)

/-- A lane of an access that the L1 serves: weak, or relaxed at core scope, through a leaf with policy 0 or 2 (07 R155, R156; 09 R202). -/
def Sys2Proof.Claims.servedByL1 (f : Mem) (o : Nat × Nat × W64) : Bool := f.ord == 0 && f.scope.toNat ≤ 2 && leafCp o.2.2 % 2 == 0

/-- LD (16 R390; 09 R202): the L1 gives the lanes that it serves their bytes, after it has fetched their missing bytes (07 R156); they are
performed at the issue (DESIGN CHOICE, log 7), a fetch counts 128 bytes a line (DEDUCED, log 30), and a relaxed one notes the cores of the
tags that it reads (09 R209). With no other lane the bytes go to D. The other lanes are performed at the home slices: the access stands in
its core with its ordering, its scope and their physical addresses, beside the bytes that the L1 has given, and its core's dirty bytes of
the lines of policy 1 that it reads are written back before it (07 R156). -/
def Obligations.LoadsComplete : Prop :=
  ∀ (s : State) (h : Hdr) (t : BitVec 3) (f : Mem) (c w : Nat) (wp : Warp) (e : Entry) (xs : List (Nat × LX)) (s1 s2 : State)
    (oks : List (Nat × Nat × W64)) (data : List (Nat × List Byte)),
    Issues (.ld h t f) h c w wp e s →
    let v := seen h c w wp e s
    let u := begun c w wp s
    let n := memBytes (ldSize t) f
    loadLanes v (xB f.x) ≠ [] → (v.real = 0 ∨ checkVs u wp (ldRegs t f) = none) → NoneOut (.warp c w) s →
    globalChecks .r n f v (loadLanes v (xB f.x)) u = (xs, s1) → sortOut u v.real 0 xs = .ok oks →
    let near := oks.filter (servedByL1 f)
    let far := oks.filter fun o => !servedByL1 f o
    let npas := near.flatMap fun o => span o.2.1 n
    l1LoadLanes c n wp.real (near.map fun o => (o.1, o.2.1)) (s1.moved wp.gid (128 * l1Misses s1 c npas)) = (data, none, s2) →
    let u2 := if f.scope = 0 then s2 else s2.addMask (.warp c w) (tagCores s2 npas)
    (far = [] → Answers (exec (.ld h t f) s) (Starts h c w f.tok.toNat true (.results (loadWrites (ldDst v t f oks) data)) u2)) ∧
    (far ≠ [] → Answers (exec (.ld h t f) s) (Starts h c w f.tok.toNat true
      (.access { kind := .load, ord := f.ord.toNat, scope := f.scope.toNat, rel := 0, tag := false,
                 lanes := far.map fun o => ⟨o.1, o.2.1, []⟩, dst := ldDst v t f oks, part := s.partOf wp.gid, gid := wp.gid,
                 scratch := false, bad := [], got := data })
      (u2.writeBack c fun a => far.any fun o => leafCp o.2.2 == 1 && a / 128 == o.2.1 / 128)))

/-- What a store writes: for each lane that passes its checks, its physical address and the bytes of its data registers. -/
def Sys2Proof.Claims.storeLanes (s : State) (v : View) (t : BitVec 2) (f : Mem) (oks : List (Nat × Nat × W64)) : List LaneAcc :=
  oks.map fun o => ⟨o.1, o.2.1, dataBytes s v 4 (xB f.x) f.d.toNat (memRegs (stSize t) f) (memBytes (stSize t) f) o.1⟩
def Sys2Proof.Claims.stRegs (t : BitVec 2) (f : Mem) : List Nat :=
  runRegsX (xA f.x) f.a.toNat 2 ++ runRegsX (xB f.x) f.d.toNat (memRegs (stSize t) f)
/-- An instruction whose lanes carry no release of a FENCE. -/
def Sys2Proof.Claims.carriesNothing (v : View) : Prop := ∀ x ∈ v.wp.carried, v.real.getLsbD x.1 = false

/-- The scope of the release that a write itself makes, and whether it tags its words: a lazy one does (09 R207, R208). -/
def Sys2Proof.Claims.ownRelease (ord scope : Nat) : Nat := if ord = 2 ∨ ord = 3 then scope else 0
def Sys2Proof.Claims.ownTag (ord scope : Nat) : Bool := ownRelease ord scope == 2 || ownRelease ord scope == 3

/-- A lane of a store that is performed at its issue: of ST.nt, device memory; of ST, what the L1 serves (07 R155, R156, R159; 09 R202). -/
def Sys2Proof.Claims.storedNow (nt : Bool) (f : Mem) (o : Nat × Nat × W64) : Bool :=
  if nt then o.2.1 < memEnd else ownRelease f.ord.toNat f.scope.toNat == 0 && f.scope.toNat ≤ 2 && leafCp o.2.2 % 2 == 0

/-- ST and ST.nt (18 R435 to R437) write the bytes of their real lanes in ascending order of lane. A weak store, or a relaxed one of core
scope, through leaves with the policies 0 and 2 goes into the L1 (07 R156), ST.nt to device memory into the write-combining buffer (07 R159),
both at the issue (DESIGN CHOICE, log 7; that the grid's count of bytes rises when the buffer drains is DEDUCED, log 30). The other lanes
are performed at the home slices (09 R202): the access stands in its core with its ordering, its scope and their bytes. No place of the
device is poisoned, and the lanes carry no release of a FENCE. -/
def Obligations.StoresAllComplete : Prop :=
  ∀ (s : State) (h : Hdr) (t : BitVec 2) (f : Mem) (c w : Nat) (wp : Warp) (e : Entry) (xs : List (Nat × LX)) (s1 : State)
    (oks : List (Nat × Nat × W64)) (nt : Bool),
    let i : Instr := if nt then .stNt h t f else .st h t f
    Issues i h c w wp e s →
    let v := seen h c w wp e s
    let u := begun c w wp s
    let n := memBytes (stSize t) f
    v.real ≠ 0 → checkVs u wp (stRegs t f) = none → NoneOut (.warp c w) s → carriesNothing v → s.poison = [] →
    globalChecks .w n f v v.realLanes u = (xs, s1) → sortOut u v.real 1 xs = .ok oks →
    let u1 := s1.collTouchPa (oks.flatMap fun o => span o.2.1 n)
    let cells := (storeLanes u v t f (oks.filter (storedNow nt f))).flatMap fun l => cellsAt l.pa l.bytes
    let far := oks.filter fun o => !storedNow nt f o
    let z := if nt then u1.wcStore c (s.group wp.gid).grid cells else u1.l1Store c (s.group wp.gid).grid cells
    (far = [] → Answers (exec i s) (Starts h c w f.tok.toNat true .quiet z)) ∧
    (far ≠ [] → Answers (exec i s) (Starts h c w f.tok.toNat true
      (.access { kind := .store, ord := f.ord.toNat, scope := f.scope.toNat, rel := ownRelease f.ord.toNat f.scope.toNat,
                 tag := ownTag f.ord.toNat f.scope.toNat, lanes := storeLanes u v t f far, dst := noDst 0, part := s.partOf wp.gid,
                 gid := wp.gid, scratch := false, bad := [], got := [] }) z))

/-- Scratchpad addresses of lanes that pass their checks (07 R153). -/
def Sys2Proof.Claims.scratchChecks (s : State) (v : View) (cl : Bool) (n : Nat) (f : Mem) (lanes : List Nat) : List (Nat × LX) :=
  lanes.map fun j => (j, laneScratch s v.gid cl n n (memEa32 s v f n j))
/-- The lanes' numbers lie in the issuing group's own scratchpad. -/
def Sys2Proof.Claims.ownScratch (gid : Nat) (oks : List (Nat × Nat × W64)) : Prop := ∀ o ∈ oks, o.2.1 / 2 ^ 32 = gid

/-- LDS, and LDS.cl of the issuer's own rank, without an order: the bytes of the scratchpad at issue go to D (09 R202; 16 R392). STS, and
STS.cl to the issuer's own rank, weak ones: the scratchpad takes the bytes of the real lanes at issue (18 R435 to R437). LDS.cl and STS.cl
that reach another rank are performed later; they stand in their core (09 R202 gives the place; the moment is DESIGN CHOICE, log 7). No place of the device is poisoned where a store
issues. -/
def Obligations.ScratchAccessesComplete : Prop :=
  (∀ (s : State) (i : Instr) (h : Hdr) (t : BitVec 3) (f : Mem) (c w : Nat) (wp : Warp) (e : Entry) (oks : List (Nat × Nat × W64)),
    Issues i h c w wp e s → i = .lds h t f ∨ i = .ldsCl h t f →
    let v := seen h c w wp e s
    let u := begun c w wp s
    let n := memBytes (ldSize t) f
    loadLanes v (xB f.x) ≠ [] →
    (v.real = 0 ∨ checkVs u wp (runRegsX (xA f.x) f.a.toNat 1 ++ runRegsX (xB f.x) f.d.toNat (memRegs (ldSize t) f)) = none) →
    NoneOut (.warp c w) s → f.ord = 0 →
    sortOut u v.real 0 (scratchChecks u v (i == .ldsCl h t f) n f (loadLanes v (xB f.x))) = .ok oks → ownScratch wp.gid oks →
    (∀ o ∈ oks, ∀ a ∈ span o.2.1 n, u.scrPoisoned a = false) →
    Answers (exec i s) (Starts h c w f.tok.toNat true
      (.results (loadWrites (ldDst v t f oks) (oks.map fun o => (o.1, (span o.2.1 n).map u.scrByte)))) u)) ∧
  (∀ (s : State) (i : Instr) (h : Hdr) (t : BitVec 2) (f : Mem) (c w : Nat) (wp : Warp) (e : Entry) (oks : List (Nat × Nat × W64)),
    Issues i h c w wp e s → i = .sts h t f ∨ i = .stsCl h t f →
    let v := seen h c w wp e s
    let u := begun c w wp s
    let n := memBytes (stSize t) f
    v.real ≠ 0 →
    checkVs u wp (runRegsX (xA f.x) f.a.toNat 1 ++ runRegsX (xB f.x) f.d.toNat (memRegs (stSize t) f)) = none →
    NoneOut (.warp c w) s → f.ord = 0 → f.scope = 0 → carriesNothing v → s.poison = [] →
    sortOut u v.real 1 (scratchChecks u v (i == .stsCl h t f) n f v.realLanes) = .ok oks → ownScratch wp.gid oks →
    Answers (exec i s) (Starts h c w f.tok.toNat true (.results [])
      ((storeLanes u v t f oks).foldl (fun x l => x.scrWrite wp.gid (l.pa % 2 ^ 32) l.bytes) u))) ∧
  (∀ (s : State) (h : Hdr) (t : BitVec 3) (f : Mem) (c w : Nat) (wp : Warp) (e : Entry) (oks : List (Nat × Nat × W64)),
    Issues (.ldsCl h t f) h c w wp e s →
    let v := seen h c w wp e s
    let u := begun c w wp s
    let n := memBytes (ldSize t) f
    loadLanes v (xB f.x) ≠ [] →
    (v.real = 0 ∨ checkVs u wp (runRegsX (xA f.x) f.a.toNat 1 ++ runRegsX (xB f.x) f.d.toNat (memRegs (ldSize t) f)) = none) →
    NoneOut (.warp c w) s →
    sortOut u v.real 0 (scratchChecks u v true n f (loadLanes v (xB f.x))) = .ok oks → ¬ownScratch wp.gid oks →
    Answers (exec (.ldsCl h t f) s) (Starts h c w f.tok.toNat true
      (.access { kind := .load, ord := f.ord.toNat, scope := f.scope.toNat, rel := 0, tag := false,
                 lanes := oks.map fun o => ⟨o.1, o.2.1, []⟩, dst := ldDst v t f oks, part := s.partOf wp.gid, gid := wp.gid,
                 scratch := true, bad := [], got := [] }) u)) ∧
  (∀ (s : State) (h : Hdr) (t : BitVec 2) (f : Mem) (c w : Nat) (wp : Warp) (e : Entry) (oks : List (Nat × Nat × W64)),
    Issues (.stsCl h t f) h c w wp e s →
    let v := seen h c w wp e s
    let u := begun c w wp s
    let n := memBytes (stSize t) f
    v.real ≠ 0 →
    checkVs u wp (runRegsX (xA f.x) f.a.toNat 1 ++ runRegsX (xB f.x) f.d.toNat (memRegs (stSize t) f)) = none →
    NoneOut (.warp c w) s → wp.carried = [] → s.poison = [] →
    sortOut u v.real 1 (scratchChecks u v true n f v.realLanes) = .ok oks → ¬ownScratch wp.gid oks →
    Answers (exec (.stsCl h t f) s) (Starts h c w f.tok.toNat true
      (.access { kind := .store, ord := f.ord.toNat, scope := f.scope.toNat, rel := ownRelease f.ord.toNat f.scope.toNat,
                 tag := ownTag f.ord.toNat f.scope.toNat, lanes := storeLanes u v t f oks, dst := noDst 0, part := s.partOf wp.gid,
                 gid := wp.gid, scratch := true, bad := [], got := [] }) u))

/-- The operation code, operand size and fields of an atomic (15 R335, R339). -/
def Sys2Proof.Claims.atomicOf : Instr → Option (Nat × Nat × Atomf)
  | .atom _ t f => some (t.toNat, atomSize t, f)
  | .atomAddFloat _ b f => some (if b then 33 else 32, 4, f)
  | .atoms _ t f => some (t.toNat, atomSize t, f)
  | .atomsAddFloat _ b f => some (if b then 33 else 32, 4, f)
  | _ => none
/-- Registers of the operand B: two operands for .cas. -/
def Sys2Proof.Claims.atomicB (code size : Nat) : Nat := if code / 4 = 7 then 2 * size / 4 else size / 4
def Sys2Proof.Claims.atomicRegs (addr code size : Nat) (f : Atomf) : List Nat :=
  runRegs f.a.toNat addr ++ runRegs f.b.toNat (atomicB code size) ++ (if f.nr then [] else runRegs f.d.toNat (size / 4))
def Sys2Proof.Claims.atomicLanes (s : State) (v : View) (code size : Nat) (f : Atomf) (oks : List (Nat × Nat × W64)) : List LaneAcc :=
  oks.map fun o => ⟨o.1, o.2.1, dataBytes s v 4 false f.b.toNat (atomicB code size) (4 * atomicB code size) o.1⟩
def Sys2Proof.Claims.atomicDst (v : View) (size : Nat) (f : Atomf) : LoadDst :=
  if f.nr then noDst 0 else loadDst v false f.d.toNat size size false []

/-- ATOM starts a read-modify-write at the home slices (15 R335 to R338); without a scope it acts at device scope. It stands in its core
with its operation, its ordering, its scope and the operands of its lanes. ATOMS of core scope in the group's own scratchpad, without an
order, is performed lane after lane (15 R339), at its issue (DESIGN CHOICE, log 7), and its old values go to D unless it returns nothing.
No place of the device is poisoned, and the warp carries no release of a FENCE. -/
def Obligations.AtomicsComplete : Prop :=
  (∀ (s : State) (i : Instr) (h : Hdr) (c w : Nat) (wp : Warp) (e : Entry) (code size : Nat) (f : Atomf) (xs : List (Nat × LX))
    (s1 : State) (oks : List (Nat × Nat × W64)),
    Issues i h c w wp e s → (∃ t, i = .atom h t f) ∨ (∃ b, i = .atomAddFloat h b f) → atomicOf i = some (code, size, f) →
    let v := seen h c w wp e s
    let u := begun c w wp s
    let scope := if f.scope = 0 then 4 else f.scope.toNat
    v.real ≠ 0 → checkVs u wp (atomicRegs 2 code size f) = none → NoneOut (.warp c w) s → wp.carried = [] → s.poison = [] →
    laneFold (fun x j => (atomAperture code (readR64 x v 0 false f.a.toNat j)
        (laneGlobal x v.c (u.partOf v.gid) .rw size size (readR64 x v 0 false f.a.toNat j)).1,
      (laneGlobal x v.c (u.partOf v.gid) .rw size size (readR64 x v 0 false f.a.toNat j)).2)) v.realLanes u = (xs, s1) →
    sortOut u v.real 3 xs = .ok oks →
    Answers (exec i s) (Starts h c w f.tok.toNat true
      (.access { kind := .rmw code size false (!f.nr), ord := f.ord.toNat, scope := scope, rel := ownRelease f.ord.toNat scope,
                 tag := ownTag f.ord.toNat scope, lanes := atomicLanes u v code size f oks, dst := atomicDst v size f,
                 part := s.partOf wp.gid, gid := wp.gid, scratch := false, bad := [], got := [] }) s1)) ∧
  (∀ (s : State) (i : Instr) (h : Hdr) (c w : Nat) (wp : Warp) (e : Entry) (code size : Nat) (f : Atomf) (oks : List (Nat × Nat × W64))
    (d : Done),
    Issues i h c w wp e s → (∃ t, i = .atoms h t f) ∨ (∃ b, i = .atomsAddFloat h b f) → atomicOf i = some (code, size, f) →
    let v := seen h c w wp e s
    let u := begun c w wp s
    v.real ≠ 0 → checkVs u wp (atomicRegs 1 code size f) = none → NoneOut (.warp c w) s → wp.carried = [] →
    s.poison = [] → f.ord = 0 → f.scope.toNat ≤ 2 →
    sortOut u v.real 3 (v.realLanes.map fun j => (j, laneScratch u v.gid false size size (readV u v 0 f.a.toNat j))) = .ok oks →
    (atomicLanes u v code size f oks).foldl (scratchLane (.warp c w) (.rmw code size false (!f.nr)) size) ⟨u, [], none⟩ = d → d.bad = none →
    Answers (exec i s) (Starts h c w f.tok.toNat true
      (.results (if f.nr then [] else loadWrites (atomicDst v size f) d.data)) d.s))

/-- One lane's read-modify-write (15 R336): memory takes what the operation combines, and the old bytes come back. What the
operations combine: sums wrap, .min and .max order by the type's sign, .exch takes the operand, .cas writes its second operand only
where the old value equals the first. -/
def Obligations.AtomicUpdates : Prop :=
  (∀ (n code size : Nat) (s : State) (data : List (Nat × List Byte)) (l : LaneAcc),
    (∀ a ∈ l.span size, s.poisoned a = false) → regionOf l.pa = .mem →
    let old := s.rdBytes l.pa size
    (rmwLane n code size ⟨s, data, none⟩ l).data = data ++ [(l.lane, old)] ∧
    (∀ a, (a < l.pa ∨ l.pa + size ≤ a) → (∀ bs, atomCombine code size old l.bytes = some bs → bs.length = size) →
      (rmwLane n code size ⟨s, data, none⟩ l).s.rd8 a = s.rd8 a) ∧
    (atomCombine code size old l.bytes = none → (rmwLane n code size ⟨s, data, none⟩ l).s = s)) ∧
  (∀ (old src : List Byte), old.length = 4 → src.length = 4 →
    (∀ k, k < 4 → atomCombine k 4 old src = some (leBytes 4 ((leNat old + leNat src) % 2 ^ 32))) ∧
    (atomCombine 5 4 old src = some (if leNat old ≤ leNat src then old else src)) ∧
    (atomCombine 9 4 old src = some (if leNat old ≤ leNat src then src else old)) ∧
    (atomCombine 4 4 old src = some (if (BitVec.ofNat 32 (leNat old)).toInt ≤ (BitVec.ofNat 32 (leNat src)).toInt then old else src)) ∧
    (atomCombine 12 4 old src = some (leBytes 4 (leNat old &&& leNat src))) ∧
    (atomCombine 16 4 old src = some (leBytes 4 (leNat old ||| leNat src))) ∧
    (atomCombine 20 4 old src = some (leBytes 4 (leNat old ^^^ leNat src))) ∧
    (atomCombine 24 4 old src = some src) ∧
    (∀ new, atomCombine 28 4 old (src ++ new) = if old = src then some new else none))

/-- The registers that a memory instruction of a warp checks, and the outcomes of its lanes' checks (15 R338, R339; 16 R391, R392; 18 R437). -/
def Sys2Proof.Claims.memChecks (s : State) (v : View) : Instr → Option (List Nat × List (Nat × LX))
  | .ld _ t f => some (ldRegs t f, (globalChecks .r (memBytes (ldSize t) f) f v (loadLanes v (xB f.x)) s).1)
  | .st _ t f | .stNt _ t f => some (stRegs t f, (globalChecks .w (memBytes (stSize t) f) f v v.realLanes s).1)
  | .lds _ t f => some (runRegsX (xA f.x) f.a.toNat 1 ++ runRegsX (xB f.x) f.d.toNat (memRegs (ldSize t) f),
      scratchChecks s v false (memBytes (ldSize t) f) f (loadLanes v (xB f.x)))
  | .ldsCl _ t f => some (runRegsX (xA f.x) f.a.toNat 1 ++ runRegsX (xB f.x) f.d.toNat (memRegs (ldSize t) f),
      scratchChecks s v true (memBytes (ldSize t) f) f (loadLanes v (xB f.x)))
  | .sts _ t f => some (runRegsX (xA f.x) f.a.toNat 1 ++ runRegsX (xB f.x) f.d.toNat (memRegs (stSize t) f),
      scratchChecks s v false (memBytes (stSize t) f) f v.realLanes)
  | .stsCl _ t f => some (runRegsX (xA f.x) f.a.toNat 1 ++ runRegsX (xB f.x) f.d.toNat (memRegs (stSize t) f),
      scratchChecks s v true (memBytes (stSize t) f) f v.realLanes)
  | i => match i, atomicOf i with
    | .atom _ _ _, some (code, size, f) | .atomAddFloat _ _ _, some (code, size, f) => some (atomicRegs 2 code size f,
        (laneFold (fun x j => (atomAperture code (readR64 x v 0 false f.a.toNat j)
          (laneGlobal x v.c (s.partOf v.gid) .rw size size (readR64 x v 0 false f.a.toNat j)).1,
          (laneGlobal x v.c (s.partOf v.gid) .rw size size (readR64 x v 0 false f.a.toNat j)).2)) v.realLanes s).1)
    | _, some (code, size, f) => some (atomicRegs 1 code size f,
        v.realLanes.map fun j => (j, laneScratch s v.gid false size size (readV s v 0 f.a.toNat j)))
    | _, none => none
/-- The register of an address of a phase gate, its flag, and whether it may be another rank's (17 R399). -/
def Sys2Proof.Claims.gateOperand : Instr → Option (Bool × BitVec 8 × Bool)
  | .mbinit _ f | .mbwait _ f => some (xA f.x, f.a, false)
  | .mbarv _ f => some (xA f.x, f.a, f.sub.getLsbD 2)
  | _ => none
def Sys2Proof.Claims.gateValue : Instr → Option (Bool × BitVec 8)
  | .mbinit _ f | .mbarv _ f => some (xB f.x, f.b)
  | _ => none

/-- A context issues an operation as a bundle of its own that neither is refused as a word nor stalls (05 R93 to R96; 02 R55). -/
structure Sys2Proof.Claims.SlotAsks (i : Instr) (h : Hdr) (c k : Nat) (s : State) : Prop where
  hdr : i.hdr? = some h
  cur : s.cur = .ctx c k
  bound : (s.ctx c k).bound = true
  running : (s.ctx c k).state = .running
  awake : (s.ctx c k).wait = .none
  word : i.assigned = true ∧ i.wfSlot = true ∧ h.pn = 7 ∧ h.pneg = false
  ctl : h.ctl.getLsbD 14 = true ∧ h.ctl.extractLsb' 8 6 = 0 ∧ (h.ctl.getLsbD 15 = true → slotIndex i = 0)
  idle : (s.ctx c k).idle (ctlWait h) = true
  free : slotStall s ⟨c, k, (s.ctx c k).gid, 2⟩ i = false

/-- What traps. A word that fails a check of 13 R299 or R460: the whole entry, before it does anything. Registers: a frontier register is
ILLEGAL_OPERAND, one above the allotment or of no window TILE_NOT_OWNED (02 R47; 04 R85). The lanes of a memory instruction: the trap that
R250 puts first among them, in the real lanes that raise it, and nothing of the instruction is performed (11 R248, R250; 15 R338; 16 R391;
18 R437): MISALIGNED, PAGE_FAULT beyond 2^48 and for a missing page, PERMISSION, SEALED_STORE, SCRATCH_BOUNDS. Phase gates (17 R400; which
lanes trap is DEDUCED, log 31). The operations of the L slot on tiles (18 R446): the context is TRAPPED with the first in that order. -/
def Obligations.IssueTraps : Prop :=
  (∀ (s : State) (i : Instr) (h : Hdr) (c w : Nat) (wp : Warp) (e : Entry) (code : Nat),
    i.hdr? = some h → s.cur = .warp c w → s.warp? c w = some wp → wp.first = some e → wordTrap h i = some code →
    exec i s = .next (takeTrap (begun c w wp s) c w code 8 ((lanesOf e.mask).map fun j => (j, 0))).useFree) ∧
  (∀ (s : State) (wp : Warp) (ns : List Nat),
    let fr := (s.gridOf wp.gid).frontierRegs
    ((∃ n ∈ ns, fr.1 ≤ n ∧ n < fr.2) → ∃ t, checkVs s wp ns = some t ∧ t.code = 0x08) ∧
    ((∀ n ∈ ns, ¬(fr.1 ≤ n ∧ n < fr.2)) → (∃ n ∈ ns, wp.loc n = none) → ∃ t n, checkVs s wp ns = some t ∧ t.code = 0x10 ∧ n ∈ ns ∧
      wp.loc n = none ∧ t.info = BitVec.ofNat 64 (0x10000 + n)) ∧
    ((∀ n ∈ ns, ¬(fr.1 ≤ n ∧ n < fr.2) ∧ wp.loc n ≠ none) → checkVs s wp ns = none)) ∧
  (∀ (s : State) (i : Instr) (h : Hdr) (c w : Nat) (wp : Warp) (e : Entry) (regs : List Nat) (xs : List (Nat × LX)),
    Issues i h c w wp e s →
    let v := seen h c w wp e s
    let u := begun c w wp s
    memChecks u v i = some (regs, xs) → v.real ≠ 0 →
    (∀ t, checkVs u wp regs = some t →
      exec i s = .next (takeTrap u c w t.code t.cause (v.realLanes.map fun j => (j, t.info))).useFree) ∧
    (∀ j t l en, checkVs u wp regs = none → (j, .trap t l en) ∈ xs → v.real.getLsbD j = true →
      (∀ k t' l' e', (k, .trap t' l' e') ∈ xs → v.real.getLsbD k = true → t.rank < t'.rank ∨ (t.rank = t'.rank ∧ t.code = t'.code)) →
      ∃ infos cause level info access, exec i s = .next (takeTrap u c w t.code cause infos level info access).useFree ∧
        ∀ k, (∃ va, (k, va) ∈ infos) ↔ v.real.getLsbD k = true ∧ ∃ t' l' e', (k, .trap t' l' e') ∈ xs ∧ t'.code = t.code ∧
          t'.rank = t.rank)) ∧
  (∀ (s : State) (c n len align : Nat) (need : Need) (va : W64), 0 < align →
    let x := (laneGlobal s c n need len align va).1
    let traps := fun (code : Nat) => ∃ t l en, x = .trap t l en ∧ t.code = code ∧ t.info = va
    (2 ^ 48 ≤ va.toNat → traps 0x22) ∧
    (va.toNat < 2 ^ 48 → va.toNat % align ≠ 0 → traps 0x20) ∧
    (va.toNat < 2 ^ 48 → va.toNat % align = 0 →
      (∀ e, s.tlbFind c n va.toNat = some e → permits e.leaf need = false → traps 0x23) ∧
      (s.tlbFind c n va.toNat = none →
        (∀ f, walk s n va.toNat = .bad f → f.cls = 2 → traps f.code) ∧
        (∀ p len pa pte leaf level, walk s n va.toNat = .ok p len pa pte leaf level → permits leaf need = false → traps 0x23)) ∧
      (need.writes = true → (s.part n).sealedAt va.toNat len = true →
        ∀ pa leaf e s', xlate s c n va.toNat need = (.ok pa leaf e, s') → traps 0x24))) ∧
  (∀ (s : State) (gid len align : Nat) (cl : Bool) (a : W32),
    let o := if cl then a.toNat % 2 ^ 24 else a.toNat
    let x := laneScratch s gid cl len align a
    let traps := fun (code : Nat) => ∃ t l en, x = .trap t l en ∧ t.code = code ∧ t.info = a.setWidth 64
    let group := if cl then clusterTarget s gid a else some gid
    (o % align ≠ 0 → traps 0x20) ∧
    (o % align = 0 → (group = none ∨ ∃ g, group = some g ∧ (s.gridOf g).scratch < o + len) → traps 0x21) ∧
    (o % align = 0 → ∀ g, group = some g → o + len ≤ (s.gridOf g).scratch → x = .ok (g * 2 ^ 32 + o) 0) ∧
    ∀ k, (s.grid (s.group gid).grid).clusterSize ≤ a.toNat / 2 ^ 24 % 16 → clusterTarget s gid a ≠ some k) ∧
  (∀ (s : State) (i : Instr) (h : Hdr) (c w : Nat) (wp : Warp) (e : Entry) (x : Bool) (a : BitVec 8) (cl : Bool) (j : Nat) (t : Trap)
    (l : Nat) (en : W64),
    Issues i h c w wp e s → gateOperand i = some (x, a, cl) →
    let v := seen h c w wp e s
    let u := begun c w wp s
    v.real ≠ 0 → (if (gateValue i).isSome then v.realLanes.head? else v.lanes.head?) = some j →
    checkVs u wp (runRegsX x a.toNat 1 ++ (match gateValue i with | some (y, b) => runRegsX y b.toNat 1 | none => [])) = none →
    (∀ y b, gateValue i = some (y, b) → 0 < (readR u v 1 y b.toNat j).toNat ∧ (readR u v 1 y b.toNat j).toNat < 2 ^ 20) →
    laneScratch u wp.gid cl 8 8 (readR u v 0 x a.toNat j) = .trap t l en →
    exec i s = .next (takeTrap u c w t.code t.cause (v.realLanes.map fun k => (k, t.info))).useFree) ∧
  (∀ (s : State) (i : Instr) (h : Hdr) (c k : Nat), SlotAsks i h c k s →
    let v : SV := ⟨c, k, (s.ctx c k).gid, 2⟩
    ∀ t, firstTrap (slotTraps s v i) = some t → Answers (exec i s) fun r =>
      (r.ctx c k).state = .trapped ∧ (r.ctx c k).trapcode = BitVec.ofNat 8 t.code ∧ (r.ctx c k).pos = (s.ctx c k).pos ∧
      r.mem = s.mem ∧ r.warps = s.warps) ∧
  (∀ (s : State) (c k : Nat) (f : Tmem) (h : Hdr),
    let v : SV := ⟨c, k, (s.ctx c k).gid, 2⟩
    let tile := slotTile s v 9 f.xt f.tt
    let o := (readA s v 8 f.ao.toNat).toNat
    let len := 128 * 2 ^ f.rl.toNat
    let hn := readH s v f.h.toNat
    let first := fun (i : Instr) => (firstTrap (slotTraps s v i)).map (·.code)
    tileEarly s v f.xt f.tt = false → aEarly s v f.ao.toNat = false → hEarly s v f.h.toNat = false →
    (∀ i, i = .tld h f ∨ i = .tst h f ∨ i = .tgld h f ∨ i = .tgst h f →
      (¬(256 ≤ tile ∧ tile < 768) → first i = some 0x08) ∧
      (256 ≤ tile → tile < 768 → (s.core c).owns (.ctx c k) tile = false → first i = some 0x10)) ∧
    (256 ≤ tile → tile < 768 → (s.core c).owns (.ctx c k) tile = true →
      (∀ i, i = .tld h f ∨ i = .tst h f →
        (o % 2 ^ 32 % 128 ≠ 0 → first i = some 0x20) ∧
        (o % 2 ^ 32 % 128 = 0 → (s.gridOf v.gid).scratch < o % 2 ^ 32 + len → first i = some 0x21)) ∧
      (∀ i, i = .tgld h f ∨ i = .tgst h f →
        ((handleVa hn + o) % 128 ≠ 0 → first i = some 0x20) ∧
        ((handleVa hn + o) % 128 = 0 → ∀ t, handleTrap hn f.h.toNat [(o, len)] (i == .tgst h f) = some t → first i = some t.code)) ∧
      ((handleVa hn + o) % 128 = 0 → handleTrap hn f.h.toNat [(o, len)] true = none →
        (s.part (s.partOf v.gid)).sealedAt (handleVa hn + o) len = true → first (.tgst h f) = some 0x24)))

/-- FLUSHR and INVR start a write-back of the range that begins at A with B + 1 bytes, after the warp's earlier accesses (16 R374,
R387). FENCE (16 R371, R372; 09 R212) is performed once when a lane is active: one that releases at device scope or wider writes back its
core's dirty bytes, at a narrower scope it is carried by the next strong write of each active real lane; one that acquires at cluster
scope or wider drops its core's clean bytes, its FD lines resolved before (DEDUCED, log 52), and has the cores of its pending mask write
back, or forward at cluster scope. -/
def Obligations.FlushesAndFences : Prop :=
  (∀ (s : State) (i : Instr) (h : Hdr) (f : Asy) (inv : Bool) (c w : Nat) (wp : Warp) (e : Entry) (j : Nat),
    Issues i h c w wp e s → i = (if inv then .invr h f else .flushr h f) →
    let v := seen h c w wp e s
    let u := begun c w wp s
    v.realLanes.head? = some j → checkVs u wp (runRegsX (xA f.x) f.a.toNat 2 ++ runRegsX (xB f.x) f.b.toNat 1) = none →
    NoneOut (.warp c w) s →
    (readR64 u v 0 (xA f.x) f.a.toNat j).toNat < 2 ^ 48 →
    (readR64 u v 0 (xA f.x) f.a.toNat j).toNat + ((readR u v 2 (xB f.x) f.b.toNat j).toNat + 1) ≤ 2 ^ 48 →
    Answers (exec i s) (Starts h c w f.tok.toNat true
      (.flush (readR64 u v 0 (xA f.x) f.a.toNat j).toNat ((readR u v 2 (xB f.x) f.b.toNat j).toNat + 1) inv) u)) ∧
  (∀ (s : State) (h : Hdr) (f : Mem) (c w : Nat) (wp : Warp) (e : Entry),
    Issues (.fence h f) h c w wp e s →
    let v := seen h c w wp e s
    let u := begun c w wp s
    let releases := f.ord = 2 ∨ f.ord = 3 ∨ f.ord = 4
    let acquires := f.ord = 1 ∨ f.ord = 3 ∨ f.ord = 4
    let scope := f.scope.toNat
    let u1 := if releases then u.eager c scope else u
    let cl := clusterCores u wp.gid
    let u2 := if acquires then (u1.acquireDrop c (s.partOf wp.gid) scope).acquireMask c scope cl wp.pmask else u1
    v.act ≠ 0 → NoneOut (.warp c w) s → wp.carried = [] →
    Answers (exec (.fence h f) s) fun t => t.mem = u2.mem ∧ t.cores = u2.cores ∧ t.groups = s.groups ∧
      OneWarp c w (movedOn h false s.now { wp with
        carried := if releases ∧ scope < 4 then v.realLanes.map fun j => (j, scope) else []
        pmask := if ¬acquires then wp.pmask else if 4 ≤ scope then [] else if scope = 3 then wp.pmask.filter fun r => !cl.contains r
          else wp.pmask }) s t)

/-- No agent waits for a traded tile of a core. -/
def Sys2Proof.Claims.noTaker (s : State) (t : Nat) : Prop :=
  (∀ x ∈ s.warps, ∀ b act, x.2.wait ≠ .take t b act) ∧ (∀ x ∈ s.ctxs, x.2.wait ≠ .take t)
/-- An outcome of which only the owners of tiles, the warp and the model's agenda and counters differ. -/
structure Sys2Proof.Claims.TradeOnly (h : Hdr) (c w : Nat) (x : Warp) (s t : State) : Prop where
  core : { t.core c with owners := (s.core c).owners } = s.core c
  others : ∀ k, k ≠ c → t.core k = s.core k
  warps : OneWarp c w (({ x with young := false }.advance false).applyCtl h s.now) s t
  rest : SameRest s t

/-- GIVE offers the tile of a window at once; GIVE.free frees a tile without pending writes (04 R87; 16 R378). The window maps it no
more, and nothing else changes where no agent waits for the tile. TAKE of an offered tile without pending writes: the warp waits, and
TAKE_COMPLETE makes it the owner, maps the tile in its window and lets it go on (04 R87, R88; 18 R440). TAKE.new at the head of an empty
queue: TAKE_NEW_GRANT takes the lowest free accumulator tile, cleared, and D names it (04 R87). -/
def Obligations.Trades : Prop :=
  (∀ (s : State) (h : Hdr) (f : Trade) (c w : Nat) (wp : Warp) (e : Entry) (free : Bool),
    Issues (if free then .giveFree h f else .give h f) h c w wp e s →
    let u := begun c w wp s
    let win := if f.win then wp.w1 else wp.w0
    let t := win.tile.toNat
    (seen h c w wp e s).act ≠ 0 → win.valid = true → NoneOut (.warp c w) s → noTaker s t →
    (free = false → agentInGroup u wp.gid (.warp c w) f.agent.toNat = true → Answers (exec (.give h f) s) fun r =>
      ((r.core c).owner t).st = .offered ∧ ((r.core c).owner t).owner = w ∧ ((r.core c).owner t).dst = f.agent.toNat ∧
      .takeComplete c f.agent.toNat ∈ r.agenda ∧
      TradeOnly h c w (if f.win then { wp with w1 := { win with valid := false, pending := true } }
        else { wp with w0 := { win with valid := false, pending := true } }) s r) ∧
    (free = true → u.pendTo c t = 0 → Answers (exec (.giveFree h f) s) fun r =>
      (r.core c).owner t = {} ∧ TradeOnly h c w (if f.win then { wp with w1 := {} } else { wp with w0 := {} }) s r)) ∧
  (∀ (s : State) (h : Hdr) (f : Trade) (c w : Nat) (wp : Warp) (e : Entry),
    Issues (.take h f) h c w wp e s →
    let v := seen h c w wp e s
    let u := begun c w wp s
    let n := tradeNum u v f
    let win := if f.win then wp.w1 else wp.w0
    v.act ≠ 0 → w < 64 → 256 ≤ n → n ≤ 767 → win.valid = false → win.pending = false → takeView u (.warp c w) wp.gid n = .now →
    s.mgmt.power = true → s.mgmt.fatal = false →
    Answers (exec (.take h f) s) fun t => Holds h c w (.take n f.win v.real) u t ∧ .takeComplete c w ∈ t.agenda ∧
      Answers (exec (.takeComplete c w) t) fun r =>
        ((r.core c).owner n).st = .warp ∧ ((r.core c).owner n).owner = w ∧
        (if f.win then (r.warp c w).w1 else (r.warp c w).w0) = { valid := true, tile := BitVec.ofNat 10 n } ∧
        (r.warp c w).wait = .none ∧ (r.warp c w).frontier = ({ wp with young := false }.advance false).frontier) ∧
  (∀ (s : State) (h : Hdr) (f : Trade) (c w : Nat) (wp : Warp) (e : Entry) (n : Nat),
    Issues (.takeNew h f) h c w wp e s →
    let v := seen h c w wp e s
    let u := begun c w wp s
    let win := if f.win then wp.w1 else wp.w0
    v.act ≠ 0 → win.valid = false → win.pending = false → (s.core c).queue = [] → freeAcc u c = some n →
    s.mgmt.power = true → s.mgmt.fatal = false →
    Answers (exec (.takeNew h f) s) fun t => (t.core c).queue = [(.warp c w, 0)] ∧ (t.warp c w).wait = .takeNew f.win f.d.toNat ∧
      .takeNewGrant c ∈ t.agenda ∧
      Answers (exec (.takeNewGrant c) t) fun r =>
        ((r.core c).owner n).st = .warp ∧ ((r.core c).owner n).owner = w ∧ ((r.core c).owner n).gid = wp.gid ∧
        (∀ row lane, row < 32 → lane < 32 → (r.core c).tileWord n row lane = 0) ∧
        mget 0 (r.warp c w).g f.d.toNat = BitVec.ofNat 32 n ∧ (r.core c).queue = [] ∧
        (if f.win then (r.warp c w).w1 else (r.warp c w).w0) = { valid := true, tile := BitVec.ofNat 10 n } ∧
        (r.warp c w).frontier = ({ wp with young := false }.advance false).frontier)

/-- GROW to more tiles than the allotment has, at the head of an empty queue: when enough general tiles are free, GROW_GRANT adds the
lowest of them, cleared, and the warp goes on; GROW to no more tiles than it has only goes on (02 R48; 16 R379). SHRINK gives up the tiles
above the new count, of those without pending writes at once; SHRINK to no fewer tiles only goes on (18 R431). TSTAT reads the owner
field of a tile into D, and HELD for one of another group (18 R441), where helper lanes alone are active too (DEDUCED, log 34); its PEND
counts one for each operation with a write to the tile (DESIGN CHOICE, log 53). -/
def Obligations.AllotmentsComplete : Prop :=
  (∀ (s : State) (h : Hdr) (f : SysF) (c w : Nat) (wp : Warp) (e : Entry),
    Issues (.grow h f) h c w wp e s →
    let v := seen h c w wp e s
    let u := begun c w wp s
    let n := f.imm.toNat
    let ts := (freeGeneral u c).take (n - wp.allot.length)
    v.act ≠ 0 → n ≤ (s.gridOf wp.gid).tileMax →
    (n ≤ wp.allot.length → Answers (exec (.grow h f) s) (Redirects h c w ({ wp with young := false }.advance false) s)) ∧
    (wp.allot.length < n → (s.core c).queue = [] → n - wp.allot.length ≤ (freeGeneral u c).length → s.mgmt.power = true →
      s.mgmt.fatal = false → Answers (exec (.grow h f) s) fun t =>
        (t.core c).queue = [(.warp c w, n)] ∧ (t.warp c w).wait = .grow n ∧ (t.warp c w).frontier = wp.frontier ∧
        .growGrant c ∈ t.agenda ∧
        Answers (exec (.growGrant c) t) fun r =>
          (r.warp c w).allot = wp.allot ++ ts ∧ (r.warp c w).wait = .none ∧
          (r.warp c w).frontier = ({ wp with young := false }.advance false).frontier ∧ (r.core c).queue = [] ∧ r.mem = s.mem ∧
          ∀ x ∈ ts, ((r.core c).owner x).st = .warp ∧ ((r.core c).owner x).owner = w ∧ ((r.core c).owner x).allot = true ∧
            ((r.core c).owner x).gid = wp.gid ∧ ∀ row lane, row < 32 → lane < 32 → (r.core c).tileWord x row lane = 0)) ∧
  (∀ (s : State) (h : Hdr) (f : SysF) (c w : Nat) (wp : Warp) (e : Entry),
    Issues (.shrink h f) h c w wp e s → (seen h c w wp e s).act ≠ 0 → (s.gridOf wp.gid).tileInit ≤ f.imm.toNat →
    (wp.allot.length ≤ f.imm.toNat →
      Answers (exec (.shrink h f) s) (Redirects h c w ({ wp with young := false }.advance false) s)) ∧
    (f.imm.toNat < wp.allot.length →
      (∀ t ∈ wp.allot.drop f.imm.toNat, (begun c w wp s).pendTo c t = 0) →
      Answers (exec (.shrink h f) s) fun r => (∀ t ∈ wp.allot.drop f.imm.toNat, (r.core c).owner t = {}) ∧
        TradeOnly h c w { wp with allot := wp.allot.take f.imm.toNat } s r)) ∧
  (∀ (s : State) (h : Hdr) (f : Trade) (c w : Nat) (wp : Warp) (e : Entry),
    Issues (.tstat h f) h c w wp e s →
    let v := seen h c w wp e s
    let u := begun c w wp s
    let n := tradeNum u v f
    let o := (s.core c).owner n
    let ws : List Write := [.g f.d.toNat (if o.st ≠ .free ∧ o.gid ≠ wp.gid then 0x9FFF8000#32 else o.word (u.pendTo c n))]
    v.act ≠ 0 → 256 ≤ n → n ≤ 767 → NoClash (.warp c w) ws s →
    Answers (exec (.tstat h f) s) (Flies h false c w wp 4 ws s))

/-- BAR: the warp arrives and waits; when every unfinished warp of its group has arrived, BAR_COMPLETE lets all of them go on (15 R341).
CBAR: an eager release, then the warp waits; when every other group of the cluster has arrived or retired, and every other warp of its
group has finished or waits, CBAR_COMPLETE lets the warps of the cluster go on with an acquire at cluster scope: where no range is sealed
the core's L1 is empty (15 R352; 09 R213), the FD lines of the cores resolved before (DEDUCED, log 52). -/
def Obligations.BarriersComplete : Prop :=
  (∀ (s : State) (h : Hdr) (f : SysF) (c w : Nat) (wp : Warp) (e : Entry) (g : Group),
    Issues (.bar h f) h c w wp e s → (seen h c w wp e s).act ≠ 0 → NoneOut (.warp c w) s →
    mget? s.groups wp.gid = some g → g.core = c → s.mgmt.power = true → s.mgmt.fatal = false →
    Answers (exec (.bar h f) s) fun t => (t.warp c w).wait = .bar ∧ (t.warp c w).frontier = wp.frontier ∧
      (t.group wp.gid).bar = insertNat w g.bar ∧ .barComplete wp.gid ∈ t.agenda ∧ t.mem = s.mem ∧ t.cores = s.cores ∧
      (g.phase = .resident → (∀ k ∈ g.slots, k = w ∨ (s.warp c k).frontier = [] ∨ k ∈ g.bar) →
        Answers (exec (.barComplete wp.gid) t) fun r => (r.warp c w).wait = .none ∧ (r.group wp.gid).bar = [] ∧
          (r.warp c w).frontier = ({ wp with young := false }.advance false).frontier ∧ r.mem = s.mem ∧ r.cores = s.cores ∧
          ∀ k ∈ g.bar, k ≠ w → (s.warp c k).wait = .bar →
            (r.warp c k).wait = .none ∧ (r.warp c k).frontier = ((s.warp c k).advance false).frontier)) ∧
  (∀ (s : State) (h : Hdr) (f : SysF) (c w : Nat) (wp : Warp) (e : Entry) (g : Group),
    Issues (.cbar h f) h c w wp e s → (seen h c w wp e s).act ≠ 0 → NoneOut (.warp c w) s →
    mget? s.groups wp.gid = some g → g.core = c → s.mgmt.power = true → s.mgmt.fatal = false →
    Answers (exec (.cbar h f) s) fun t => (t.warp c w).wait = .cbar ∧ (t.warp c w).frontier = wp.frontier ∧
      t.mem = ((begun c w wp s).drainCore c).mem ∧ .cbarComplete g.cluster ∈ t.agenda ∧
      (g.phase = .resident → g.slots.Nodup → w ∈ g.slots →
        (∀ k ∈ g.slots, k = w ∨ (s.warp c k).frontier = [] ∨ (s.warp c k).wait = .cbar) →
        wp.gid ∈ (s.cluster g.cluster).groups → (s.cluster g.cluster).groups.Nodup →
        (∀ x ∈ (s.cluster g.cluster).groups, x ≠ wp.gid → cbarArrived s x = true ∧
          ∀ k ∈ (s.group x).slots, wkey (s.group x).core k ≠ wkey c w) →
        Answers (exec (.cbarComplete g.cluster) t) fun r => (r.warp c w).wait = .none ∧
          (r.warp c w).frontier = ({ wp with young := false }.advance false).frontier ∧
          (∀ x ∈ (s.cluster g.cluster).groups, (s.group x).phase = .resident → ∀ k ∈ (s.group x).slots,
            (s.warp (s.group x).core k).wait = .cbar → (r.warp (s.group x).core k).wait = .none) ∧
          ((s.part (s.partOf wp.gid)).seals = [] → (r.core c).l1 = [])))

/-- MBINIT writes its gate; while a warp waits on the object, or a copy is to arrive on it, its fields end free (17 R401). MBARV: the arrival counts at once, after the
warp's earlier accesses and an eager release where the gate is another rank's, and the token stands as it did; on the gate of a saved
group the warp waits (17 R402). MBWAIT goes on with an acquire where the phase has turned, and waits otherwise (17 R403); the acquire is at cluster scope for
local arrivals too (DESIGN CHOICE, log 62), and it resolves the core's FD lines (DEDUCED, log 52). An arrival
counts toward its phase or the next; a full phase turns; an arrival that would exceed EXPECT, or whose phase is neither, overruns
(09 R218). -/
def Obligations.GatesComplete : Prop :=
  (∀ (s : State) (h : Hdr) (f : Asy) (c w : Nat) (wp : Warp) (e : Entry) (j x : Nat),
    Issues (.mbinit h f) h c w wp e s →
    let v := seen h c w wp e s
    let u := begun c w wp s
    let n := (readR u v 1 (xB f.x) f.b.toNat j).toNat
    v.realLanes.head? = some j → checkVs u wp (runRegsX (xA f.x) f.a.toNat 1 ++ runRegsX (xB f.x) f.b.toNat 1) = none →
    NoneOut (.warp c w) s → 0 < n → n < 2 ^ 20 → laneScratch u wp.gid false 8 8 (readR u v 0 (xA f.x) f.a.toNat j) = .ok x 0 →
    (gateWaited u wp.gid (x % 2 ^ 32) = false → Answers (exec (.mbinit h f) s)
      (Starts h c w f.tok.toNat true .quiet (u.setGate wp.gid (x % 2 ^ 32) { phase := 0, rsvd := 0, expect := n, cur := 0, nxt := 0 }))) ∧
    (gateWaited u wp.gid (x % 2 ^ 32) = true → Answers (exec (.mbinit h f) s) fun t => ∃ g : Gate, g.rsvd = 0 ∧
      Starts h c w f.tok.toNat true .quiet (u.setGate wp.gid (x % 2 ^ 32) g) t)) ∧
  (∀ (s : State) (h : Hdr) (f : Asy) (c w : Nat) (wp : Warp) (e : Entry) (j x : Nat),
    Issues (.mbarv h f) h c w wp e s →
    let v := seen h c w wp e s
    let u := begun c w wp s
    let n := (readR u v 1 (xB f.x) f.b.toNat j).toNat
    let gid := x / 2 ^ 32
    let z := if gid = wp.gid then u else u.drainCore c
    v.realLanes.head? = some j → checkVs u wp (runRegsX (xA f.x) f.a.toNat 1 ++ runRegsX (xB f.x) f.b.toNat 1) = none →
    NoneOut (.warp c w) s → 0 < n → n < 2 ^ 20 →
    laneScratch u wp.gid (f.sub.getLsbD 2) 8 8 (readR u v 0 (xA f.x) f.a.toNat j) = .ok x 0 →
    ((∀ r, (s.group gid).phase ≠ .saved r) → (u.gate gid (x % 2 ^ 32)).rsvd = 0 →
      ∀ g', arrive (u.gate gid (x % 2 ^ 32)) (f.sub.toNat % 4) n = some g' → Answers (exec (.mbarv h f) s)
        (Redirects h c w (((z.setGate gid (x % 2 ^ 32) g').warp c w).advance false) (z.setGate gid (x % 2 ^ 32) g'))) ∧
    ((∃ r, (s.group gid).phase = .saved r) → Answers (exec (.mbarv h f) s) (Holds h c w (.rank gid) u))) ∧
  (∀ (s : State) (h : Hdr) (f : Asy) (c w : Nat) (wp : Warp) (e : Entry) (j x : Nat),
    Issues (.mbwait h f) h c w wp e s →
    let v := seen h c w wp e s
    let u := begun c w wp s
    let z := u.acquireDrop c (s.partOf wp.gid) 3
    v.lanes.head? = some j → (v.real = 0 ∨ checkVs u wp (runRegsX (xA f.x) f.a.toNat 1) = none) →
    laneScratch u wp.gid false 8 8 (readR u v 0 (xA f.x) f.a.toNat j) = .ok x 0 →
    (u.gate wp.gid (x % 2 ^ 32)).rsvd = 0 →
    (gatePast (u.gate wp.gid (x % 2 ^ 32)) (f.sub.toNat % 4) = true →
      Answers (exec (.mbwait h f) s) (Redirects h c w ({ wp with young := false }.advance false) z)) ∧
    (gatePast (u.gate wp.gid (x % 2 ^ 32)) (f.sub.toNat % 4) = false →
      Answers (exec (.mbwait h f) s) (Holds h c w (.mbwait (x % 2 ^ 32) (f.sub.toNat % 4)) u))) ∧
  (∀ (g : Gate) (ph n : Nat), g.phase < 4 → ph < 4 → g.cur < g.expect → g.nxt ≤ g.expect → 0 < n →
    (ph = g.phase → g.cur + n < g.expect → arrive g ph n = some { g with cur := g.cur + n }) ∧
    (ph = g.phase → g.cur + n = g.expect → g.nxt < g.expect →
      arrive g ph n = some { g with phase := (g.phase + 1) % 4, cur := g.nxt, nxt := 0 }) ∧
    (ph = g.phase → g.cur + n = g.expect → g.nxt = g.expect →
      arrive g ph n = some { g with phase := (g.phase + 2) % 4, cur := 0, nxt := 0 }) ∧
    (ph = g.phase → g.expect < g.cur + n → arrive g ph n = none) ∧
    (ph = (g.phase + 1) % 4 → g.nxt + n ≤ g.expect → arrive g ph n = some { g with nxt := g.nxt + n }) ∧
    (ph = (g.phase + 1) % 4 → g.expect < g.nxt + n → arrive g ph n = none) ∧
    (ph ≠ g.phase → ph ≠ (g.phase + 1) % 4 → arrive g ph n = none))

/-- A header read by its slice and the state byte of a slot: the fields of the header, the physical addresses of both, the byte, the state. -/
structure Sys2Proof.Claims.RingAt (s : State) (n hdr k : Nat) (r : RingHdr) (pa spa b : Nat) (u : State) : Prop where
  opened : ∃ s1, ringOpen s n hdr = (.ok (r, pa), s1) ∧ ringState s1 n r k = (.ok (spa, b), u) ∧
    r.resv = s1.rdNat (pa + 24) 8 ∧ r.head = s1.rdNat (pa + 32) 8 ∧ r.stateBase = s1.rdNat (pa + 40) 8

/-- What a slice does to a ring (02 R35, R36): a reservation answers RESV, raises it by one and sets the slot's state byte to 1, and finds
the ring full where 2^LOG2N slots stand reserved; a publication sets the state byte of a reserved slot to 2, and refuses another; a take
answers HEAD, raises it by one and sets the state byte to 0, where the slot is published, and finds the ring empty otherwise. A take looks
at the next slot's state byte, for which A and D of its leaf may be set (10 R225). RINGRES, RINGPUB and RINGPOP that their slice serves at
once (17 R421, R422): D:D+1 take the slot number; a take is an acquire, which resolves the core's FD lines (DEDUCED, log 52), a publication
comes after an eager release at device scope. -/
def Obligations.RingOpsComplete : Prop :=
  (∀ (s u : State) (n hdr k pa spa b : Nat) (r : RingHdr), RingAt s n hdr k r pa spa b u →
    let raised := fun (v at_ count : Nat) => writeCells (writeCells u.mem [(spa, BitVec.ofNat 8 v)]) (cellsAt (pa + at_) (leBytes 8 (count + 1)))
    (k = r.resv → r.resv - r.head < 2 ^ r.log2n → ∃ t, ringReserve s n hdr = (.ok (r.resv, r), t) ∧ t.mem = raised 1 24 r.resv) ∧
    (k = r.resv → r.resv - r.head = 2 ^ r.log2n → (ringReserve s n hdr).1 = .error .full) ∧
    (r.head ≤ k → k < r.resv → b = 1 → ∃ t, ringPublish s n hdr k = (.ok r, t) ∧ t.mem = writeCells u.mem [(spa, 2)]) ∧
    (¬(r.head ≤ k ∧ k < r.resv ∧ b = 1) → (ringPublish s n hdr k).1 = .error .format) ∧
    (k = r.head → r.head < r.resv → b = 2 → ∃ t, ringTake s n hdr = (.ok (r.head, r), t) ∧
      (t.mem = raised 0 32 r.head ∨ ∃ z pte bits, z.mem = raised 0 32 r.head ∧ t.mem = (State.orPte z pte bits).mem)) ∧
    (k = r.head → (r.head = r.resv ∨ b ≠ 2) → (ringTake s n hdr).1 = .error .empty)) ∧
  (∀ (s : State) (i : Instr) (h : Hdr) (f : Asy) (c w : Nat) (wp : Warp) (e : Entry) (j pa : Nat) (leaf : W64) (s1 : State),
    Issues i h c w wp e s →
    let v := seen h c w wp e s
    let u := begun c w wp s
    let n := s.partOf wp.gid
    let hdr := readR64 u v 0 (xA f.x) f.a.toNat j
    let u1 := s1.homePrep c (span pa 64)
    v.realLanes.head? = some j → checkVs u wp (runRegsX (xA f.x) f.a.toNat 2) = none → NoneOut (.warp c w) s →
    laneGlobal u c n .rw 64 64 hdr = (.ok pa leaf, s1) →
    (∀ (k : Nat) (r : RingHdr) (s2 : State), i = .ringres h f → ringReserve u1 n hdr.toNat = (.ok (k, r), s2) →
      u1.ringBusy n hdr.toNat true = false →
      Answers (exec i s) (Starts h c w f.tok.toNat true
        (.results [.g f.d.toNat (lo32 (BitVec.ofNat 64 k)), .g (f.d.toNat + 1) (hi32 (BitVec.ofNat 64 k))]) s2)) ∧
    (∀ (k : Nat) (r : RingHdr) (s2 : State), i = .ringpop h f → popKind u1 n hdr.toNat = true → ringTake u1 n hdr.toNat = (.ok (k, r), s2) →
      u1.ringBusy n hdr.toNat false = false →
      Answers (exec i s) (Starts h c w f.tok.toNat true
        (.results [.g f.d.toNat (lo32 (BitVec.ofNat 64 k)), .g (f.d.toNat + 1) (hi32 (BitVec.ofNat 64 k))]) (s2.acquireDrop c n 4))) ∧
    (∀ (r : RingHdr) (s2 : State), i = .ringpub h f → checkVs u wp (runRegsX (xB f.x) f.b.toNat 2) = none →
      ringPublish (u1.drainCore c) n hdr.toNat (readR64 u1 v 2 (xB f.x) f.b.toNat j).toNat = (.ok r, s2) →
      Answers (exec i s) (Starts h c w f.tok.toNat true .quiet s2)))

/-- A ticket that its slice accepts, of an entry that is FULL without a poisoned byte, whose lease window has not passed and for which no
one waits (08 R187, R189, R191). -/
structure Sys2Proof.Claims.FullTicket (s : State) (n : Nat) (t : W64) (key : Nat) : Prop where
  check : sliceCheck s n t = .ok key
  full : (s.ticket key).st = .full
  clean : (s.ticket key).poisoned = []
  alone : (s.ticket key).waiters = []
  lease : s.now ≤ (s.ticket key).clock + 2 ^ (s.part (s.ticket key).part).lease.toNat + 1024
/-- No request of an agent is on its way. -/
def Sys2Proof.Claims.noRequest (a : Issuer) (s : State) : Prop := (∀ x ∈ s.tkreqs, x.2.agent ≠ a) ∧ mget? s.tkreqs s.nextId = none

/-- LDT and LDT.try stand in their core until a slice gives them an entry (08 R178, R179). REDEEM, REDEEM.S and TKDROP of a FULL ticket: the
warp waits with its request, the slice claims the entry, which is FREE with the next generation, and the warp goes on; a REDEEM's data is
on its way to D or to the scratchpad (08 R186 to R189). -/
def Obligations.Tickets : Prop :=
  (∀ (s : State) (i : Instr) (h : Hdr) (f : Asy) (c w : Nat) (wp : Warp) (e : Entry) (j : Nat) (try_ : Bool),
    Issues i h c w wp e s → i = (if try_ then .ldtTry h f else .ldt h f) →
    let v := seen h c w wp e s
    let u := begun c w wp s
    let va := readR64 u v 0 (xA f.x) f.a.toNat j
    v.realLanes.head? = some j → checkVs u wp (runRegsX (xA f.x) f.a.toNat 2) = none → NoneOut (.warp c w) s →
    va.toNat < 2 ^ 48 → va.toNat % (128 * 2 ^ (f.sub.toNat % 4)) = 0 → (s.part (s.partOf wp.gid)).quota ≠ 0 →
    Answers (exec i s) fun t => Starts h c w f.tok.toNat false (.ldt va (f.sub.toNat % 4) f.d.toNat try_ none) u t ∧
      ∃ x ∈ (t.core c).vars, .ticketAllocate c x.id ∈ t.agenda ∧ x.regs = [(true, f.d.toNat), (true, f.d.toNat + 1)]) ∧
  (∀ (s : State) (i : Instr) (h : Hdr) (f : Asy) (c w : Nat) (wp : Warp) (e : Entry) (key : Nat),
    Issues i h c w wp e s →
    let v := seen h c w wp e s
    let u := begun c w wp s
    let tk := pair (readG u v 0 f.a.toNat) (readG u v 0 (f.a.toNat + 1))
    let size := tk.toNat / 2 ^ 34 % 4
    let o := (readG u v 1 f.d.toNat).toNat
    v.real ≠ 0 → w < 64 → FullTicket u (s.partOf wp.gid) tk key → noRequest (.warp c w) s → NoneOut (.warp c w) s →
    s.mgmt.power = true → s.mgmt.fatal = false →
    (i = .redeem h f ∧ redeemRun f.d.toNat (2 ^ size) = true ∧ checkVs u wp (runRegs f.d.toNat (2 ^ size)) = none ∨
      i = .redeemS h f ∧ o % 128 = 0 ∧ o + 128 * 2 ^ size ≤ (s.gridOf wp.gid).scratch ∨ i = .tkdrop h f) →
    Answers (exec i s) fun t => (t.warp c w).wait = .ticket s.nextId ∧ (t.warp c w).frontier = wp.frontier ∧ t.mem = s.mem ∧
      .ticketSliceRequest c w ∈ t.agenda ∧
      Answers (exec (.ticketSliceRequest c w) t) fun r =>
        (r.ticket key).st = .free ∧ (r.ticket key).gen = nextGen (s.ticket key).gen ∧ (r.warp c w).wait = .none ∧
        (r.warp c w).frontier = ({ wp with young := false }.advance false).frontier ∧ mget? r.tkreqs s.nextId = none ∧
        (i = .redeem h f → ∃ x ∈ (r.core c).vars, x.body = .results (tkWrites
          (.rows ((runRegs f.d.toNat (2 ^ size)).filterMap wp.loc)) (s.ticket key).data)) ∧
        (i = .redeemS h f → ∃ x ∈ (r.core c).vars, x.body = .results [.scratch wp.gid o (s.ticket key).data []]))

/-- SEAL and UNSEAL put their register in SEALING and UNSEALING; the token rises until the event that completes them (07 R172, R173,
R175; 18 R427). -/
def Obligations.SealsComplete : Prop :=
  ∀ (s : State) (h : Hdr) (f : Asy) (c w : Nat) (wp : Warp) (e : Entry) (j : Nat),
    let v := seen h c w wp e s
    let u := begun c w wp s
    let n := s.partOf wp.gid
    let k := f.sub.toNat % 16
    v.realLanes.head? = some j → NoneOut (.warp c w) s →
    (Issues (.seal h f) h c w wp e s →
      let base := (readR64 u v 0 (xA f.x) f.a.toNat j).toNat
      let count := (readR u v 2 (xB f.x) f.b.toNat j).toNat % 65536
      checkVs u wp (runRegsX (xA f.x) f.a.toNat 2 ++ runRegsX (xB f.x) f.b.toNat 1) = none →
      base % 65536 = 0 → base + 65536 * count ≤ 2 ^ 48 → base < 2 ^ 48 → 0 < count → sealState ((s.part n).seal k) = 0 →
      Answers (exec (.seal h f) s) fun t => Starts h c w f.tok.toNat false (.seal k) (u.setSeal n k (sealWord 1 base count)) t ∧
        .sealComplete n k ∈ t.agenda) ∧
    (Issues (.unseal h f) h c w wp e s → sealState ((s.part n).seal k) = 2 →
      Answers (exec (.unseal h f) s) fun t => Starts h c w f.tok.toNat false (.seal k)
          (u.setSeal n k (sealWord 3 (sealBase ((s.part n).seal k)) (((s.part n).seal k).toNat % 65536))) t ∧
        .unsealComplete n k ∈ t.agenda)

/-- Software has not written the table of the loaded kernel: an entry reads as it stood when it was loaded (05 R100). -/
def Sys2Proof.Claims.tableKept (s : State) (gid : Nat) : Prop :=
  ∀ n, n < (s.gridOf gid).entries.length → ∀ x, entryNow s (s.gridOf gid) n = some x → x = nth 0 (s.gridOf gid).entries n

/-- SQRUN starts a stopped or trapped context at an entry of its table and names it in D (05 R122; 18 R433); SQSTOP stops a running
one, flags a frozen one and clears a trapped one (18 R434); SQWAIT returns the status of a quiet one (05 R123). SYIELD ranks the warp as
the youngest (18 R438); WAITK goes on when every token of its mask is zero, and waits otherwise (18 R452). -/
def Obligations.ContextControlCompletes : Prop :=
  (∀ (s : State) (h : Hdr) (f : SysF) (c w : Nat) (wp : Warp) (e : Entry) (k : Nat),
    let v := seen h c w wp e s
    let u := begun c w wp s
    v.real ≠ 0 → (s.group wp.gid).ctxs[f.ctx.toNat]? = some k → NoneOut (.warp c w) s →
    (Issues (.sqrun h f) h c w wp e s → ((s.ctx c k).state = .stopped ∨ (s.ctx c k).state = .trapped) →
      f.imm.toNat < (s.gridOf wp.gid).nEntry → tableKept u wp.gid → tableKept u (s.ctx c k).gid → NoClash (.warp c w) [.g f.d.toNat (BitVec.ofNat 32 (0x40 + k))] s →
      Answers (exec (.sqrun h f) s) fun t =>
        t.ctx c k = { s.ctx c k with
          pos := BitVec.ofNat 32 (nth 0 (s.gridOf (s.ctx c k).gid).entries f.imm.toNat), hist := [], cur := idleTable (s.ctx c k).cur
          latch := none, trapcode := 0, quantum := 0, xretry := false, kept := none, wait := .none, sqstop := false
          state := .running, nextIssue := s.now + 1, edge := false } ∧
        (t.core c).pend = (s.core c).pend ++ [⟨.warp c w, s.now + 4, s.nextId, .g f.d.toNat (BitVec.ofNat 32 (0x40 + k))⟩] ∧
        OneWarp c w (movedOn h false s.now wp) s t ∧ t.mem = s.mem) ∧
    (Issues (.sqstop h f) h c w wp e s → Answers (exec (.sqstop h f) s) fun t =>
      ((s.ctx c k).state = .running → (t.ctx c k).state = .stopped ∧ (t.ctx c k).pos = (s.ctx c k).pos) ∧
      ((s.ctx c k).state = .frozen → t.ctx c k = { s.ctx c k with sqstop := true }) ∧
      ((s.ctx c k).state = .trapped → (t.ctx c k).state = .stopped ∧ (t.ctx c k).trapcode = 0) ∧
      ((s.ctx c k).state = .stopped → t.ctx c k = s.ctx c k) ∧ t.mem = s.mem) ∧
    (Issues (.sqwait h f) h c w wp e s → ctxQuiet u c k = true → Answers (exec (.sqwait h f) s)
      (Redirects h c w ({ wp with
        young := false
        wait := .none
        g := mset 0 (mset 0 wp.g f.d.toNat (lo32 (ctxStatus (s.ctx c k)))) (f.d.toNat + 1) (hi32 (ctxStatus (s.ctx c k))) }.advance false) s)) ∧
    (Issues (.sqwait h f) h c w wp e s → ctxQuiet u c k = false →
      Answers (exec (.sqwait h f) s) (Holds h c w (.sqwait k f.d.toNat) u))) ∧
  (∀ (s : State) (h : Hdr) (f : SysF) (c w : Nat) (wp : Warp) (e : Entry), (seen h c w wp e s).act ≠ 0 →
    (Issues (.syield h f) h c w wp e s → Answers (exec (.syield h f) s)
      (Redirects h c w ({ wp with young := true }.advance false) s)) ∧
    (Issues (.waitk h f) h c w wp e s → (∀ t, t < 8 → f.imm.getLsbD t = true → wp.tok t = 0) → Answers (exec (.waitk h f) s)
      (Redirects h c w ({ wp with young := false }.advance false) s)) ∧
    (Issues (.waitk h f) h c w wp e s → (∃ t, t < 8 ∧ f.imm.getLsbD t = true ∧ wp.tok t ≠ 0) →
      Answers (exec (.waitk h f) s) (Holds h c w (.waitk f.imm) (begun c w wp s))))

/-- CPY and TCPY whose descriptor passes its checks join the core's copies with their token raised; they start, or wait for their
time (15 R356 to R358; 07 R167). COLL joins the collectives after an eager release (15 R354, R355; 12 R287). -/
def Obligations.CopiesComplete : Prop :=
  (∀ (s : State) (i : Instr) (h : Hdr) (f : Asy) (c w : Nat) (wp : Warp) (e : Entry) (tensor : Bool),
    Issues i h c w wp e s → i = (if tensor then .tcpy h f else .cpy h f) →
    let v := seen h c w wp e s
    let u := begun c w wp s
    let d := descG u v f.a.toNat
    let t := if tensor then tensorRec u wp.gid d else none
    v.real ≠ 0 → NoneOut (.warp c w) s → firstTrap (copyTraps u wp.gid false tensor d {} t) = none →
    (dTime d = 0 ∨ dTime d ≤ s.now ∨ (s.core c).timed < 64) →
    Answers (exec i s) fun r => ∃ x : Copy, (r.core c).copies = (s.core c).copies ++ [x] ∧ x.agent = .warp c w ∧ x.gid = wp.gid ∧
      x.desc = d ∧ x.tensor = t ∧ x.tok = f.tok.toNat ∧ x.parked = false ∧ x.started = decide (dTime d = 0 ∨ dTime d ≤ s.now) ∧
      (x.started = true → .copyComplete c x.id ∈ r.agenda) ∧ r.mem = s.mem ∧
      OneWarp c w (movedOn h false s.now (wp.addTok f.tok.toNat)) s r) ∧
  (∀ (s : State) (h : Hdr) (f : Asy) (c w : Nat) (wp : Warp) (e : Entry),
    Issues (.coll h f) h c w wp e s →
    let v := seen h c w wp e s
    let u := begun c w wp s
    v.real ≠ 0 → NoneOut (.warp c w) s → collTrap u (descG u v f.a.toNat) = none →
    Answers (exec (.coll h f) s) fun r => ∃ x : Coll, r.colls = s.colls ++ [x] ∧ x.core = c ∧ x.agent = .warp c w ∧
      x.desc = descG u v f.a.toNat ∧ x.tok = f.tok.toNat ∧ x.part = s.partOf wp.gid ∧ x.chunks = [] ∧
      (x.running = true ↔ s.collsRunning < 16) ∧ r.mem = (u.drainCore c).mem ∧
      OneWarp c w (movedOn h false s.now (wp.addTok f.tok.toNat)) s r)

/-- The view of a context's bundle of one operation: its memory operations act at core scope (05 R93). -/
def Sys2Proof.Claims.slotView (s : State) (c k : Nat) : SV := ⟨c, k, (s.ctx c k).gid, 2⟩

/-- The a registers and the handles that say where an operation acts: tile numbers, addresses, the entry of a branch (13 R310; 05 R96). -/
def Sys2Proof.Claims.slotPlaces : Instr → List Nat × List Nat
  | .mma _ f | .mmaSp _ f | .mmal _ f | .mmalSp _ f => (tile f.xc f.tc ++ tile f.xa f.ta ++ [f.ba.toNat], [])
  | .tfmas _ f | .tmax _ f | .tcvt _ f | .txp _ f => (tile f.xd f.td ++ tile f.xa f.ta, [])
  | .tzero _ f => (tile f.xd f.td, [])
  | .tld _ f | .tst _ f => (tile f.xt f.tt ++ [f.ao.toNat], [])
  | .tgld _ f | .tgst _ f => (tile f.xt f.tt ++ [f.ao.toNat], [f.h.toNat])
  | .sbr _ f | .xlt _ f => ([f.ar.toNat], [])
  | _ => ([], [])
where
  tile (x : Bool) (t : BitVec 10) : List Nat := if x then [t.toNat % 64] else []

/-- Context `k` of core `c` issues operation `i` with header `h` as a bundle of its own, nothing stalls or traps it, and the registers that
say where it acts have landed (05 R93 to R96; 02 R55). -/
structure Sys2Proof.Claims.SlotIssues (i : Instr) (h : Hdr) (c k : Nat) (s : State) : Prop where
  hdr : i.hdr? = some h
  cur : s.cur = .ctx c k
  bound : (s.ctx c k).bound = true
  running : (s.ctx c k).state = .running
  awake : (s.ctx c k).wait = .none
  word : i.assigned = true ∧ i.wfSlot = true ∧ h.pn = 7 ∧ h.pneg = false
  ctl : h.ctl.getLsbD 14 = true ∧ h.ctl.extractLsb' 8 6 = 0 ∧ (h.ctl.getLsbD 15 = true → slotIndex i = 0)
  idle : (s.ctx c k).idle (ctlWait h) = true
  free : slotStall s (slotView s c k) i = false
  checks : slotTraps s (slotView s c k) i = []
  clean : slotPoison s (slotView s c k) i = none
  landed : (∀ n ∈ (slotPlaces i).1, aEarly s (slotView s c k) n = false) ∧ ∀ n ∈ (slotPlaces i).2, hEarly s (slotView s c k) n = false

/-- The context after a bundle of one operation that goes on at the next position (05 R97 to R99, R104; 02 R55). -/
def Sys2Proof.Claims.bundled (s : State) (c k : Nat) (i : Instr) : Ctx :=
  { s.ctx c k with
    hist := mput (s.ctx c k).hist (slotIndex i) ((encode i).head?.getD 0)
    wait := .none
    pos := BitVec.ofNat 32 (nextPos s c k)
    nextIssue := max (s.ctx c k).nextIssue (s.now + 1)
    edge := false
    cur := startLevels s (s.ctx c k)
    waitCount := 0
    atPoint := false
    quantum := if (s.core c).curCtx = k then (s.ctx c k).quantum + 1 else 1 }

/-- A context's bundle changes its context to `x`, makes it the current one of its core, and changes of other contexts only the count of
the one that was current; of the rest of the machine only the core's results and operations, the matrix unit, the grids' counts and the
model's agenda and counters may differ. -/
structure Sys2Proof.Claims.SlotFrame (c k : Nat) (x : Ctx) (u t : State) : Prop where
  ctx : t.ctx c k = x
  others : ∀ n, n ≠ ckey c k → mget {} t.ctxs n =
    if n = ckey c (u.core c).curCtx then { mget ({} : Ctx) u.ctxs n with quantum := 0 } else mget {} u.ctxs n
  core : { t.core c with
    pend := (u.core c).pend, vars := (u.core c).vars, curCtx := (u.core c).curCtx, mmaFree := (u.core c).mmaFree } = u.core c
  cur : (t.core c).curCtx = k
  cores : ∀ m, m ≠ c → t.core m = u.core m
  rest : { t with
    cores := u.cores, ctxs := u.ctxs, grids := u.grids, agenda := u.agenda, nextId := u.nextId, freeCtr := u.freeCtr } = u

/-- The results of one pending write of a context. -/
def Sys2Proof.Claims.slotPend (s : State) (c k lat : Nat) (ws : List Write) : List Pend := ws.map fun w => ⟨.ctx c k, s.now + lat, s.nextId, w⟩

/-- Formats, density and scales of the matrix operations (17 R404). -/
def Sys2Proof.Claims.matrixOf : Instr → Option (MmaOp × Mmaf)
  | .mma h f => some (mmaOf h false false f, f)
  | .mmaSp h f => some (mmaOf h true false f, f)
  | .mmal h f => some (mmaOf h false true f, f)
  | .mmalSp h f => some (mmaOf h true true f, f)
  | _ => none

/-- MMA and its forms replace the tile C after their latency by the sums of 06 R141, hold the matrix unit for their occupancy, count
toward the grid's class, and keep or drop the latched A operand (05 R107, R118; 17 R406). Where a result is still on its way to bytes of B
the words of C are free (05 R107; 17 R406). -/
def Obligations.MatrixOpsComplete : Prop :=
  ∀ (s : State) (i : Instr) (h : Hdr) (c k : Nat) (o : MmaOp) (f : Mmaf),
    SlotIssues i h c k s → matrixOf i = some (o, f) →
    let v := slotView s c k
    let tc := slotTile s v 0 f.xc f.tc
    let b := (readA s v 2 f.ba.toNat).toNat % 2 ^ 32
    let bytes := (List.range (mmaB o)).map fun n => mget (0 : Byte) (s.group v.gid).scratch (b + n)
    let scale := if o.scaled then sextN (readA s v 3 (8 * f.fa.toNat + f.fb.toNat)).toNat 8 +
      sextN (readA s v 4 (8 * f.fa.toNat + f.fb.toNat + 1)).toNat 8 else 0
    NoClash (.ctx c k) [.tile tc []] s →
    Answers (exec i s) fun t => ∃ words : List W32,
      words.length = 1024 ∧
      ((∀ p ∈ s.flights c, ∀ g a l bad, p.w = .scratch g a l bad → g ≠ v.gid ∨ b + mmaB o ≤ a ∨ a + l.length ≤ b) →
        ∀ r n, r < 32 → n < 32 → nth 0 words (32 * r + n) = BitVec.ofNat 32
        (mmaElem o.fa scale (nth 0 (tileRows s c 0 tc) (32 * r + n)).toNat (mmaProducts o (mmaRow o (mmaA s v o) r) bytes n))) ∧
      (t.core c).pend = (s.core c).pend ++ slotPend s c k (mmaLat o.fa) [.tile tc words] ∧
      (t.core c).mmaFree = s.now + mmaOcc o.fa ∧ (t.core c).vars = (s.core c).vars ∧
      t.grids = (s.modGrid (s.group v.gid).grid fun g =>
        if g.classified then g else { g with macs := g.macs + 1024 * (128 / sfmtSize o.fa) }).grids ∧
      SlotFrame c k { bundled s c k i with
        latch := if h.ctl.getLsbD 15 then some ⟨BitVec.ofNat 4 o.fa, o.sparse, mmaA s v o⟩ else none } s t

/-- Tile operations with one pending write of a fixed latency: the latency and the rows or bytes written (18 R444 to R447, R450;
05 R120). -/
def Sys2Proof.Claims.tileOp (s : State) (v : SV) : Instr → Option (Nat × List Write)
  | .tfmas _ f =>
      let a := readA s v 7 f.as.toNat
      some (4, rows s v f fun i => (src s v f 3 i).map fun x => BitVec.ofNat 32
        (enc32 (FV.add 0 (FV.mul (dec32 x.toNat) (dec32 (lo32 a).toNat)) (dec32 (hi32 a).toNat))))
  | .tmax _ f => some (4, rows s v f fun i => (src s v f 3 i).map fun x => BitVec.ofNat 32
      (enc32 (FV.greatest (dec32 x.toNat) (dec32 (lo32 (readA s v 7 f.as.toNat)).toNat))))
  | .tzero _ f => some (4, rows s v f fun _ => List.replicate 32 0)
  | .txp _ f => some (6, rows s v f fun j => (List.range 32).map fun i => nth 0 (src s v f 4 i) j)
  | .tcvt _ f =>
      let fmt := f.sub.toNat % 8
      let n := 8 * sfmtSize fmt
      some (4, (List.range 32).map fun i => .row (slotTile s v 5 f.xd f.td) i
        (((List.range n).map fun j => n * (f.sub.toNat / 8 % 4) + j).zip
          (bytesWords n ((src s v f 3 i).flatMap fun w => leBytes (sfmtSize fmt) (tcvtVal fmt (f.sub.getLsbD 5) w.toNat)))))
  | .tld _ f => some (8, (List.range (2 ^ f.rl.toNat)).map fun i =>
      .row (slotTile s v 9 f.xt f.tt) (f.row0.toNat + i) ((List.range 32).zip
        (bytesWords 32 ((span ((readA s v 8 f.ao.toNat).toNat % 2 ^ 32 + 128 * i) 128).map (scrSeen s v)))))
  | .tst _ f =>
      let o := (readA s v 8 f.ao.toNat).toNat % 2 ^ 32
      some (8, [.scratch v.gid o (tileBytes s v f).1 ((tileBytes s v f).2.map (o / 64 + ·))])
  | _ => none
where
  rows (s : State) (v : SV) (f : Tvec) (g : Nat → List W32) : List Write :=
    (List.range 32).map fun i => .row (slotTile s v 5 f.xd f.td) i ((List.range 32).zip (g i))
  src (s : State) (v : SV) (f : Tvec) (op i : Nat) : List W32 := tileRow s v.c op (slotTile s v 6 f.xa f.ta) i

/-- TFMAS, TMAX, TZERO, TXP, TCVT, TLD, and TST over no destination of a copy of its context that still runs (05 R96), make their one
pending write, and change nothing else. -/
def Obligations.TileOpsComplete : Prop :=
  ∀ (s : State) (i : Instr) (h : Hdr) (c k lat : Nat) (ws : List Write),
    SlotIssues i h c k s → tileOp s (slotView s c k) i = some (lat, ws) → NoClash (.ctx c k) ws s →
    (∀ f, i = .tst h f → (overCopies s (.ctx c k) 0 (s.ctx c k).gid ((readA s (slotView s c k) 8 f.ao.toNat).toNat % 2 ^ 32)
      (tileBytes s (slotView s c k) f).1.length).1 = []) →
    Answers (exec i s) fun t =>
      (t.core c).pend = (s.core c).pend ++ slotPend s c k lat ws ∧ (t.core c).mmaFree = (s.core c).mmaFree ∧
      (t.core c).vars = (s.core c).vars ∧ t.grids = s.grids ∧ t.agenda = s.agenda ∧ SlotFrame c k (bundled s c k i) s t

/-- TGLD and TGST stand in their core with their token raised until they are performed at the home slices (18 R446, R447); a TGST
sets its page's dirty bit first (05 R110), where no eviction has taken the page out of the tables. -/
def Obligations.TileGlobalComplete : Prop :=
  ∀ (s : State) (i : Instr) (h : Hdr) (f : Tmem) (c k : Nat), SlotIssues i h c k s → NoneOut (.ctx c k) s →
    (s.ctx c k).carried = none →
    let v := slotView s c k
    let n := s.partOf v.gid
    let o := (readA s v 8 f.ao.toNat).toNat
    let hn := readH s v f.h.toNat
    let pa := hn.frame + o
    let tile := slotTile s v 9 f.xt f.tt
    let len := 128 * 2 ^ f.rl.toNat
    s.peerFails pa = false →
    (i = .tgld h f → Answers (exec i s) fun t => ∃ x : VarOp,
      (t.core c).vars = (s.core c).vars ++ [x] ∧ x.agent = .ctx c k ∧ x.tok = f.tok.toNat ∧ x.issued = s.now ∧
      x.body = .tgld tile f.row0.toNat pa len ∧ .variableResultDone c x.id ∈ t.agenda ∧ (t.core c).pend = (s.core c).pend ∧
      SlotFrame c k ((bundled s c k i).addTok f.tok.toNat) s t) ∧
    (i = .tgst h f → s.handleLost hn = none → Answers (exec i s) fun t => ∃ x : VarOp,
      let u := (s.collTouch n (handleVa hn + o) len).handleDirty hn
      (t.core c).vars = (s.core c).vars ++ [x] ∧ x.agent = .ctx c k ∧ x.tok = f.tok.toNat ∧ x.issued = s.now ∧
      x.body = .tgst pa (tileBytes s v f).1 ((tileBytes s v f).2.map (pa / 64 + ·)) 0 ∧ .variableResultDone c x.id ∈ t.agenda ∧
      (t.core c).pend = (s.core c).pend ∧
      SlotFrame c k { (bundled s c k i).addTok f.tok.toNat with
        h := mset {} (s.ctx c k).h f.h.toNat { mget {} (s.ctx c k).h f.h.toNat with dirtyDone := true } } u t)

/-- Integer operations of the C slot on a registers (05 R95, R96; 13 R312). -/
def Sys2Proof.Claims.slotInt (s : State) (v : SV) : Instr → Option (Nat × W64)
  | .iadd _ f => some (f.d.toNat, iaddVal f.m (readA s v 16 f.a.toNat) (readA s v 17 f.b.toNat))
  | .iaddImm _ f => some (f.d.toNat, iaddVal f.m (readA s v 16 f.a.toNat) (immVal (modType f.m) f.i))
  | .ishl _ f => some (f.d.toNat, ishlVal (modType f.m) ((readA s v 17 f.b.toNat).toNat % 256) (readA s v 16 f.a.toNat))
  | .ishlImm _ f => some (f.d.toNat, ishlVal (modType f.m) f.i.toNat (readA s v 16 f.a.toNat))
  | .lop _ f => some (f.d.toNat, lopVal f.m (readA s v 16 f.a.toNat) (readA s v 17 f.b.toNat))
  | .lopImm _ f => some (f.d.toNat, lopVal f.m (readA s v 16 f.a.toNat) (f.i.signExtend 64))
  | _ => none

/-- A level of a loop nest as idle (05 R103). -/
def Sys2Proof.Claims.idled (t : List (Nat × Level)) : List (Nat × Level) := t.map fun l => (l.1, { l.2 with cnt := 0, lstate := 0 })

/-- The results of a control operation: latency and write (16 R380, R395; 18 R454; 05 R96). -/
def Sys2Proof.Claims.controlRow (s : State) (v : SV) : Instr → Option (Nat × Write)
  | .lnset _ f => some (1, .lnset f.lvl.toNat { levelOfBits (lnsetBits s v f) with cnt := 0, lstate := 0 })
  | .hrel _ f => some (1, .hrel f.h.toNat)
  | .xlt _ f => (xltHit s v f).map fun t => (6, .hnd f.h.toNat (handleFrom s (s.partOf v.gid) t))
  | i => (slotInt s v i).map fun r => (1, .a r.1 r.2)

/-- SBR goes to its entry's position or to the next (18 R426); LNGO exchanges the tables (16 R394); LNSET, HREL, a hit of XLT and the
integer operations have one result; a miss of XLT freezes the context, whose results in flight are latched with their remaining cycles
(05 R113; 18 R454). -/
def Obligations.SlotControlComplete : Prop :=
  ∀ (s : State) (i : Instr) (h : Hdr) (c k : Nat), SlotIssues i h c k s →
    let v := slotView s c k
    let x := s.ctx c k
    (∀ f, i = .sbr h f → tableKept s v.gid → Answers (exec i s) fun t =>
      let a := readA s v 18 f.ar.toNat
      let taken := f.cond = 0 ∨ (f.cond = 1 ∧ a = 0) ∨ (f.cond = 2 ∧ a ≠ 0) ∨ (f.cond = 3 ∧ a.toInt < 0) ∨ (f.cond = 4 ∧ 0 ≤ a.toInt)
      (taken → SlotFrame c k { bundled s c k i with pos := BitVec.ofNat 32 (nth 0 (s.gridOf v.gid).entries f.entry.toNat) } s t) ∧
      (¬taken → SlotFrame c k (bundled s c k i) s t) ∧ (t.core c).pend = (s.core c).pend) ∧
    (∀ f, i = .lngo h f → Answers (exec i s) fun t => (t.core c).pend = (s.core c).pend ∧
      SlotFrame c k { bundled s c k i with cur := idled x.shadow, shadow := idled (startLevels s x) } s t) ∧
    (∀ lat w, controlRow s v i = some (lat, w) → NoClash (.ctx c k) [w] s → Answers (exec i s) fun t =>
      (t.core c).pend = (s.core c).pend ++ slotPend s c k lat [w] ∧ SlotFrame c k (bundled s c k i) s t) ∧
    (∀ f, i = .xlt h f → xltHit s v f = none → Answers (exec i s) fun t =>
      let mine := fun (p : Pend) => p.agent == Issuer.ctx c k && s.now + 1 < p.due
      t.ctx c k = { bundled s c k i with
        state := .frozen, kept := some (readA s v 14 f.ar.toNat, f.h.toNat), quantum := 0, nextIssue := s.now + 1
        snapshot := ((s.core c).pend.filter mine).map fun p => { p with due := p.due - (s.now + 1) } } ∧
      (t.core c).pend = (s.core c).pend.filter (fun p => !mine p) ∧ (t.core c).vars = (s.core c).vars ∧ t.mem = s.mem ∧ t.warps = s.warps)

/-- The operations of a bundle's slots under its header. -/
def Sys2Proof.Claims.bundlePlan (s : State) (c k : Nat) (hd : W64) (ws : List W64) : List SlotPlan := planAll s (s.ctx c k) hd ws
/-- What the slots M, V, L and X do, one after the other, on the operands that the bundle reads first (05 R96). -/
def Sys2Proof.Claims.dataSlots (s : State) (v : SV) (ps : List SlotPlan) : State :=
  (ps.take 4).foldl (fun u p => match p with | .op i _ => slotEffect s v [] i u | _ => u) s

/-- A bundle with an empty C slot: its data slots take effect, its END ends an iteration, and the context goes on at the back edge's
entry or at the next position (05 R96, R97, R104). A bad header traps (05 R93) before the bundle is looked at for stalls; a stall changes
only the count (02 R55), and the traps of the slots are looked at when the bundle is ready to issue (both DEDUCED, log 35). -/
def Obligations.BundlesComplete : Prop :=
  ∀ (s : State) (hd m vw l xw cw : W64) (c k : Nat),
    s.cur = .ctx c k → (s.ctx c k).bound = true → (s.ctx c k).state = .running → (s.ctx c k).wait = .none →
    let i : Instr := .bundle hd m vw l xw cw
    let x := s.ctx c k
    let v : SV := ⟨c, k, x.gid, bundleScope hd⟩
    let ps := bundlePlan s c k hd [m, vw, l, xw, cw]
    let u := dataSlots s v ps
    let r := if hdEnd hd = 0 then (startLevels s x, ARegs.mk (u.ctx c k).a none, none)
      else endIteration (startLevels s x) (hdEnd hd - 1) ⟨(u.ctx c k).a, none⟩
    (hdrBad hd = true → Answers (exec i s) fun t =>
      (t.ctx c k).state = .trapped ∧ (t.ctx c k).trapcode = 4 ∧ (t.ctx c k).pos = x.pos ∧ t.mem = s.mem ∧ t.warps = s.warps) ∧
    (hdrBad hd = false → bundleStalls s v x ps = true → Answers (exec i s) fun t =>
      t.ctx c k = { x with quantum := 0 } ∧ t.mem = s.mem ∧ t.cores = s.cores ∧ t.warps = s.warps) ∧
    (hdrBad hd = false → bundleStalls s v x ps = false → plansTrap s v ps = none → takeStall s v (ps.filterMap SlotPlan.op?) = none →
      lostWrite s v (ps.filterMap SlotPlan.op?) = none → tableKept s x.gid → bundleTickets s v (ps.filterMap SlotPlan.op?) = [] → (ps.filterMap SlotPlan.op?).findSome? (slotPoison s v) = none →
      nth .off ps 4 = .off →
      Answers (exec i s) fun t => (t.core c).pend = (u.core c).pend ∧ (t.core c).vars = (u.core c).vars ∧ t.grids = u.grids ∧
        SlotFrame c k { u.ctx c k with
          a := r.2.1.a
          hist := ((List.range 5).zip ps).foldl (fun t ip => match ip.2 with | .op _ w => mput t ip.1 w | _ => t) x.hist
          wait := .none
          pos := BitVec.ofNat 32 (match r.2.2 with | some e => nth 0 (s.gridOf x.gid).entries e | none => nextPos s c k)
          nextIssue := max (u.ctx c k).nextIssue (u.now + 1)
          edge := hdEnd hd == 1 && (mget {} (startLevels s x) 0).lstate == 1
          cur := r.1
          waitCount := 0
          atPoint := false
          quantum := if (u.core c).curCtx = k then (u.ctx c k).quantum + 1 else 1 } u t)

/-- The device has power and has not halted (12 R281, R293). -/
structure Sys2Proof.Claims.Live (s : State) : Prop where
  power : s.mgmt.power = true
  awake : s.mgmt.fatal = false

/-- What comes to issue in a warp and is no instruction: an odd word of a pair, a word that no decoder takes, a fetch whose translation
ends in class 2: of the even word where the pc names an odd one, then of the pc, or in an aperture (03 R71; 13 R299, R300, R460; 10 R229). -/
def Sys2Proof.Claims.fetchTrap (s : State) (c : Nat) (wp : Warp) (e : Entry) : Instr → Option Nat
  | .branchIntoLiteral => some 0x06
  | .illegalOpcode w => some (if w.getLsbD 10 then 0x03 else 0x01)
  | .instructionFetchFault => match (fetchXl s c (s.partOf wp.gid) e.pc.toNat).1 with
      | .bad f => if f.cls = 2 then some f.code else none
      | .ok pa _ _ => if memEnd ≤ pa then some 0x60 else none
      | _ => none
  | _ => none

/-- A failed fetch of a warp whose earlier results have landed enters the trap handler at the pc; one whose page is not resident asks for
it, and the warp waits (10 R229, R243). A code fill brings a dictionary entry into the core's store of 4,096 (05 R100), from which the
oldest leaves (DESIGN CHOICE, log 38). A context whose translation
has ended runs on with its handle on the way, and its latched results land at their distance (05 R113). A yield passes the turn to the
next ready context (02 R55); a warp that has starved issues next (02 R53); a warp that waited for a page issues again (10 R243). -/
def Obligations.FetchEventsComplete : Prop :=
  (∀ (s : State) (i : Instr) (c w code : Nat) (wp : Warp) (e : Entry),
    s.cur = .warp c w → s.warp? c w = some wp → wp.first = some e → fetchTrap s c wp e i = some code → Landed c w s →
    wp.hmode = false → (s.part (s.partOf wp.gid)).traph.getLsbD 0 = true →
    Answers (exec i s) fun t => (t.warp c w).hmode = true ∧ (t.warp c w).held = e ∧
      (t.warp c w).trapcode = BitVec.ofNat 32 code ∧ (t.warp c w).trappc = e.pc.setWidth 64 ∧ t.mem = s.mem ∧ CoresRead s t) ∧
  (∀ (s : State) (c w key v len : Nat) (loc : W64) (wp : Warp) (e : Entry), s.cur = .warp c w → s.warp? c w = some wp →
    wp.first = some e → (fetchXl s c (s.partOf wp.gid) e.pc.toNat).1 = .page key v len loc →
    Answers (exec .instructionFetchFault s) fun t => t.warp c w = { wp with wait := .page } ∧
      .pagerRequest (s.partOf wp.gid) (e.pc.setWidth 64) (.warp c w) ∈ t.agenda ∧ t.mem = s.mem ∧ t.cores = s.cores) ∧
  (∀ (s s1 s2 : State) (c k va : Nat) (bs : List Byte), Live s → (s.ctx c k).bound = true → (s.ctx c k).state = .running →
    let u := s.modCtx c k fun x => { x with quantum := 0 }
    let n := s.partOf (s.ctx c k).gid
    ctxFetch u c k = .miss va s1 → codeRead s1 c n va 48 = .ok bs s2 →
    Answers (exec (.codeFillComplete c k) s) fun t =>
      (t.core c).dict = ((dictKey n va, leNat bs) :: (s2.core c).dict).take 4096 ∧ t.warps = s2.warps ∧ t.mem = s2.mem) ∧
  (∀ (s s1 : State) (c k h pa : Nat) (va leaf : W64) (e : TlbE), Live s → (s.ctx c k).state = .frozen → (s.ctx c k).sqstop = false →
    groupHeld s (s.ctx c k).gid = false → (s.ctx c k).nextIssue ≤ s.now → (s.ctx c k).kept = some (va, h) → NoneOut (.ctx c k) s → xlate s c (s.partOf (s.ctx c k).gid) va.toNat .r = (.ok pa leaf e, s1) →
    Answers (exec (.contextUnfreeze c k) s) fun t =>
      t.ctx c k = { s.ctx c k with state := .running, kept := none, nextIssue := s.now, snapshot := [] } ∧
      (t.core c).pend = (s.core c).pend ++ ((s.ctx c k).snapshot.map fun p => { p with due := s.now + p.due }) ++
        [⟨.ctx c k, s.now + 5, s.nextId, .hnd h (handleFrom s1 (s.partOf (s.ctx c k).gid) e)⟩]) ∧
  (∀ (s : State) (c k : Nat), Live s → yieldTo s c = some k → Answers (exec (.contextQuantumYield c) s) fun t =>
    (t.core c).curCtx = k ∧ (t.ctx c k).quantum = 0 ∧ (t.ctx c (s.core c).curCtx).quantum = 0 ∧ t.mem = s.mem) ∧
  (∀ (s : State) (c w : Nat), Live s → 256 ≤ (s.warp c w).waitCount → pickWarp s c (w / 16) = some w →
    s.issued.contains (5 * c + w / 16) = false → withheld s = false →
    Answers (exec (.warpStarvation c w) s) fun t => t = { s with turn := .warp c w, freeCtr := s.freeCtr + 1 }) ∧
  (∀ (s : State) (c w : Nat) (x : Warp), Live s → s.warp? c w = some x → x.wait = .page →
    Answers (exec (.warpUnpark c w) s) fun t => OneWarp c w { x with wait := .none } s t ∧
      { t with warps := s.warps, freeCtr := s.freeCtr } = s)

/-- The results of core `c` that are due. -/
def Sys2Proof.Claims.dueNow (s : State) (c : Nat) : List Pend := (s.core c).pend.filter fun p => p.due ≤ s.now

/-- A result has landed in `t`, where it was to go (02 R51; 04 R78 to R81; 05 R95, R96; 11 R252; 16 R380, R395): the lanes of a row, a whole
tile, a g register, the lanes of a predicate, TRAPCODE, TRAPPC or the lanes of TRAPINFO, an a register, a handle register or its V, a level
of the shadow table, bytes of scratchpad and their poison. `s` is the state before. -/
def LandsAt (s t : State) (a : Issuer) : Write → Prop
  | .row tile row vals => row < 32 → (vals.map (·.1)).Nodup → ∀ x ∈ vals, (t.core (coreOf a)).tileWord tile row x.1 = x.2
  | .tile tile words => words.length = 1024 → ∀ row lane, row < 32 → lane < 32 →
      (t.core (coreOf a)).tileWord tile row lane = nth 0 words (32 * row + lane)
  | .g n v => ∀ c w, a = .warp c w → (s.warp? c w).isSome = true → mget 0 (t.warp c w).g n = v
  | .pred n vals => ∀ c w, a = .warp c w → (s.warp? c w).isSome = true → n ≠ 7 → (vals.map (·.1)).Nodup → (∀ x ∈ vals, x.1 < 32) →
      (∀ x ∈ vals, (mget 0 (t.warp c w).preds n).getLsbD x.1 = x.2) ∧
      ∀ j, (∀ x ∈ vals, x.1 ≠ j) → (mget 0 (t.warp c w).preds n).getLsbD j = (mget 0 (s.warp c w).preds n).getLsbD j
  | .sr n vals => ∀ c w, a = .warp c w → (s.warp? c w).isSome = true →
      (∀ j x l, vals = (j, x) :: l → (n = 0x20 → (t.warp c w).trapcode = lo32 x) ∧ (n = 0x22 → (t.warp c w).trappc = x)) ∧
      (n = 0x21 → (vals.map (·.1)).Nodup → ∀ x ∈ vals, mget 0 (t.warp c w).trapinfo x.1 = x.2)
  | .a n v => ∀ c k, a = .ctx c k → mget 0 (t.ctx c k).a n = v
  | .hnd n v => ∀ c k, a = .ctx c k → mget {} (t.ctx c k).h n = v
  | .hrel n => ∀ c k, a = .ctx c k → mget {} (t.ctx c k).h n = { mget {} (s.ctx c k).h n with v := false }
  | .lnset n l => ∀ c k, a = .ctx c k → mget {} (t.ctx c k).shadow n = l
  | .scratch gid o bs bad => (mget? s.groups gid).isSome = true →
      (∀ i, i < bs.length → mget 0 (t.group gid).scratch (o + i) = nth 0 bs i) ∧ ∀ k ∈ bad, .scratch gid k ∈ t.poison
/-- The destination of a result, so that results of different destinations do not meet. -/
def Sys2Proof.Claims.placeOf : Write → Nat × Nat × Nat
  | .row t r _ => (0, t, r)
  | .tile t _ => (1, t, 0)
  | .g n _ => (2, n, 0)
  | .pred n _ => (3, n, 0)
  | .sr n _ => (4, n, 0)
  | .a n _ => (5, n, 0)
  | .hnd n _ => (6, n, 0)
  | .hrel n => (6, n, 0)
  | .lnset n _ => (7, n, 0)
  | .scratch g _ _ _ => (8, g, 0)
/-- The token of an operation has fallen. -/
def Sys2Proof.Claims.tokenFell (s t : State) (v : VarOp) : Prop :=
  (∀ c w, v.agent = .warp c w → (s.warp? c w).isSome = true → (t.warp c w).tok v.tok = (s.warp c w).tok v.tok - 1) ∧
  ∀ c k, v.agent = .ctx c k → (t.ctx c k).tok v.tok = (s.ctx c k).tok v.tok - 1

/-- Results that are due land: rows and whole tiles, g, predicate, trap, a and handle registers, levels of loop nests, scratchpad (02 R51;
05 R96); a finished operation lands its results in v, g and predicate registers, tiles and scratchpad, leaves its core, and its token falls
(02 R50; 07 R162); a tile that GIVE.free has given is free once it has no pending write (04 R87). A copy starts at its time, when the
request tracker has room (01 R17; that started copies count in it is DESIGN CHOICE, log 54); one that has run to its end leaves its core
with the fall of its token, and arrives on its gate; one that meets a class-2 fault parks its group (07 R162, R164, R167, R168). -/
def Obligations.ResultEventsComplete : Prop :=
  (∀ (s : State) (c : Nat) (p : Pend), Live s → dueNow s c = [p] → coreOf p.agent = c →
    Answers (exec (.fixedResultLands c) s) fun t => (t.core c).pend = (s.core c).pend.filter (fun p => s.now < p.due) ∧ t.mem = s.mem ∧
      LandsAt s t p.agent p.w) ∧
  (∀ (s : State) (c id : Nat) (v : VarOp) (ws : List Write), Live s → (s.core c).vars.find? (fun v => v.id == id) = some v →
    coreOf v.agent = c → v.agent ≠ .none → v.clash = [] → v.body = .results ws → (ws.map placeOf).Nodup → (∀ w ∈ ws, ∀ t l, w ≠ .tile t l) →
    (∀ w ∈ ws, ∀ t r vals, w = .row t r vals → r < 32 ∧ ∀ x ∈ vals, x.1 < 32) →
    Answers (exec (.variableResultDone c id) s) fun t => (∀ w ∈ ws, LandsAt s t v.agent w) ∧ tokenFell s t v ∧
      (t.core c).vars = (s.core c).vars.filter (fun u => u.id != id) ∧ t.mem = s.mem) ∧
  (∀ (s : State) (c tile : Nat), Live s → ((s.core c).owner tile).dying = true → s.pendTo c tile = 0 →
    Answers (exec (.tileFreed c tile) s) fun t => (t.core c).owner tile = {} ∧ .takeNewGrant c ∈ t.agenda) ∧
  (∀ (s : State) (c id : Nat) (x : Copy), Live s → (s.core c).copies.find? (fun x => x.id == id) = some x → x.started = false →
    dTime x.desc ≤ s.now → (s.core c).trackerFull = false → Answers (exec (.timedCopyStart c id) s) fun t =>
      { x with started := true, startedAt := s.now } ∈ (t.core c).copies ∧ .copyComplete c id ∈ t.agenda ∧ t.mem = s.mem) ∧
  (∀ (s s1 : State) (c id : Nat) (x : Copy), Live s → (s.core c).copies.find? (fun x => x.id == id) = some x → x.started = true →
    x.parked = false → copyReady s x = true → copyRun s c (s.partOf x.gid) x = .done s1 →
    let o := dGate x.desc
    let turn := fun (g : Nat) => arrive (s1.gate g o) (s1.gate g o).phase (copyWeight x.desc x.tensor)
    (dGatev x.desc = true → ∀ g, copyDstGroup s1 x.gid x.desc = some g → (s1.gate g o).rsvd = 0 ∧ (turn g).isSome = true) →
    Answers (exec (.copyComplete c id) s) fun t => (∀ y ∈ (t.core c).copies, y.id ≠ id) ∧ .groupRetire x.gid ∈ t.agenda ∧
      (∀ w, x.agent = .warp c w → (s1.warp? c w).isSome = true → (t.warp c w).tok x.tok = (s1.warp c w).tok x.tok - 1) ∧
      (∀ k, x.agent = .ctx c k → (t.ctx c k).tok x.tok = (s1.ctx c k).tok x.tok - 1) ∧
      ∀ g g', dGatev x.desc = true → copyDstGroup s1 x.gid x.desc = some g → (mget? s1.groups g).isSome = true → turn g = some g' →
        t.gate g o = g') ∧
  (∀ (s s1 : State) (c id va : Nat) (x : Copy) (f : XFault) (g : Group), Live s →
    (s.core c).copies.find? (fun x => x.id == id) = some x → x.started = true → x.parked = false → copyReady s x = true →
    copyRun s c (s.partOf x.gid) x = .fault s1 f va → f.cls = 2 → mget? s1.groups x.gid = some g →
    fltRingOk s1 (s1.partOf x.gid) = true →
    Answers (exec (.copyPageFault c id) s) fun t =>
      (t.group x.gid).fids = g.fids ++ [((s1.part (s1.partOf x.gid)).fid, .copy id, false)] ∧
      ∀ y ∈ (t.core c).copies, y.id = id → y.parked = true)

/-- The destination of a load holds its lanes' bytes: short elements extended to 32 bits by their type, others 32 bits a register from the
first (13 R304; 15 R335); lanes whose access failed hold zero (02 R33). -/
def Loaded (c w : Nat) (d : LoadDst) (data : List (Nat × List Byte)) (t : State) : Prop :=
  let word := fun (bs : List Byte) (i : Nat) =>
    if d.esize < 4 then (if d.signed then BitVec.ofInt 32 (Int.bmod (leNat bs) (2 ^ (8 * d.esize))) else BitVec.ofNat 32 (leNat bs))
    else BitVec.ofNat 32 (leNat ((bs.drop (4 * i)).take 4))
  let count := if d.esize < 4 then 1 else d.bytes / 4
  (d.uniform = false → d.rows.length = count → d.rows.Nodup → (∀ r ∈ d.rows, r.2 < 32) →
    ∀ i tile row, d.rows[i]? = some (tile, row) →
      (∀ x ∈ data, (t.core c).tileWord tile row x.1 = word x.2 i) ∧ ∀ j ∈ d.zeroLanes, (t.core c).tileWord tile row j = 0) ∧
  (d.uniform = true → ∀ x, data.head? = some x → ∀ i, i < count → mget 0 (t.warp c w).g (d.first + i) = word x.2 i)
/-- The lanes of a load are lanes, each once, its elements have a size, and no element is longer than its bytes. -/
structure Sys2Proof.Claims.LoadFits (d : LoadDst) (data : List (Nat × List Byte)) : Prop where
  lanes : (data.map (·.1) ++ d.zeroLanes).Nodup ∧ ∀ j ∈ data.map (·.1) ++ d.zeroLanes, j < 32
  size : (d.esize = 1 ∨ d.esize = 2) ∧ d.bytes = d.esize ∨ 4 ≤ d.esize ∧ d.bytes % 4 = 0 ∧ 0 < d.bytes
  bytes : ∀ x ∈ data, x.2.length = d.bytes

/-- Read-modify-writes of lanes one after another: the old bytes of each, and the memory (15 R336). -/
def Sys2Proof.Claims.rmwAll (code size : Nat) : List LaneAcc → List Host.Cell → List (Nat × List Byte) × List Host.Cell
  | [], m => ([], m)
  | l :: t, m =>
    let old := (span l.pa size).map (mget 0 m)
    let r := rmwAll code size t (match atomCombine code size old l.bytes with | some new => writeCells m (cellsAt l.pa new) | none => m)
    ((l.lane, old) :: r.1, r.2)

/-- An outstanding operation of a warp, the only one of its agent, in a core of a machine without poison. -/
structure Sys2Proof.Claims.Pending (c w id : Nat) (v : VarOp) (s : State) : Prop where
  live : Live s
  found : (s.core c).vars.find? (fun v => v.id == id) = some v
  agent : v.agent = .warp c w
  warp : (s.warp? c w).isSome = true
  clash : v.clash = []
  alone : ∀ u ∈ (s.core c).vars, u.agent = .warp c w → u = v
  sound : s.poison = []

/-- A started copy at the core's scope, without a gate, in a machine without poison (07 R163 to R165). -/
structure Sys2Proof.Claims.Copying (c id : Nat) (x : Copy) (s : State) : Prop where
  live : Live s
  found : (s.core c).copies.find? (fun x => x.id == id) = some x
  started : x.started = true
  parked : x.parked = false
  ready : copyReady s x = true
  plain : dGatev x.desc = false ∧ x.clash = [] ∧ x.scope = 2
  sound : s.poison = []
  group : (mget? s.groups x.gid).isSome = true

/-- What an operation that stands in its core does when it is performed, at the event that ends it (09 R202; that it is performed then is
DESIGN CHOICE, log 7). Before it, its core's own bytes and FD lines of the lines that it touches are at their home slices (07 R158; the FD
lines DEDUCED, log 52), and what its order asks for has happened (09 R207 to R210). LD: the bytes of memory come to D. ST: memory holds the
lanes' bytes, in ascending order of lane; a lazy release tags their words, another write empties their tags (09 R208). ATOM: lane after
lane (15 R336). LDS.cl and STS.cl of another rank read and write its scratchpad. TGLD and TGST: the rows of the tile, the bytes of memory
(18 R446, R447). FLUSHR and INVR: no L1 holds a dirty byte of the range's lines, and after INVR the core holds none of them (16 R374, R387;
07 R176; that other cores' bytes are written back as well is DESIGN CHOICE, log 7). CPY within one page: the destination holds the source's
bytes (07 R163 to R165). TCPY at its last piece: the block holds what the lines' bytes make, which for a format to itself are those bytes
and zero beyond them; the other way memory holds the piece's bytes, the line's own where the formats are one (07 R170). -/
def Obligations.AccessesPerformed : Prop :=
  (∀ (s : State) (c w id : Nat) (v : VarOp) (x : Access), Pending c w id v s → v.body = .access x → x.scratch = false →
    (∀ l ∈ x.lanes, l.pa < memEnd) → (∀ p ∈ v.body.touches.2, p < memEnd) →
    let size := x.dst.bytes
    let s0 := s.moved x.gid v.body.touches.2.length
    (x.kind = .load → (∀ l ∈ x.lanes, l.bytes = []) →
      let pas := x.lanes.flatMap fun l => span l.pa size
      let u := acquireRead (s0.homePrep c pas) v.agent x x.scope pas
      let data := x.got ++ x.lanes.map fun l => (l.lane, u.rdBytes l.pa size)
      LoadFits x.dst data → Answers (exec (.variableResultDone c id) s) fun t =>
        t.mem = u.mem ∧ Loaded c w x.dst data t ∧ ∀ y ∈ (t.core c).vars, y.id ≠ id) ∧
    (x.kind = .store →
      let pas := x.lanes.flatMap fun l => span l.pa l.bytes.length
      let u := (s0.eager c x.rel).homePrep c pas
      x.bad = [] → pas ≠ [] → Answers (exec (.variableResultDone c id) s) fun t =>
        t.mem = x.lanes.foldl (fun m l => writeCells m (cellsAt l.pa l.bytes)) u.mem ∧ (∀ y ∈ (t.core c).vars, y.id ≠ id) ∧
        (∀ p ∈ pas, mget [] t.tags (p / 8) = if x.tag then [(c, (u.core c).relNo)] else []) ∧
        (t.core c).relNo = if x.tag then (u.core c).relNo + 1 else (u.core c).relNo) ∧
    (∀ code n ret, x.kind = .rmw code n false ret → 0 < n →
      let pas := x.lanes.flatMap fun l => span l.pa n
      let u := acquireRead ((s0.eager c x.rel).homePrep c pas) v.agent x (if x.scope = 0 then 4 else x.scope) pas
      let r := rmwAll code n x.lanes u.mem
      x.bad = [] → (∀ p ∈ pas, p < memEnd) → Answers (exec (.variableResultDone c id) s) fun t =>
        t.mem = r.2 ∧ (ret = true → LoadFits x.dst r.1 → Loaded c w x.dst r.1 t) ∧ ∀ y ∈ (t.core c).vars, y.id ≠ id)) ∧
  (∀ (s : State) (c w id : Nat) (v : VarOp) (x : Access), Pending c w id v s → v.body = .access x → x.scratch = true → x.ready s = true →
    x.acquires = false → x.rel = 0 →
    (x.kind = .load →
      let data := x.lanes.map fun l => (l.lane, (span l.pa x.dst.bytes).map s.scrByte)
      x.got = [] → LoadFits x.dst data → Answers (exec (.variableResultDone c id) s) fun t =>
        Loaded c w x.dst data t ∧ t.groups = s.groups ∧ t.mem = s.mem) ∧
    (x.kind = .store → x.bad = [] → Answers (exec (.variableResultDone c id) s) fun t =>
      t.groups = (x.lanes.foldl (fun u l => u.scrWrite (l.pa / 2 ^ 32) (l.pa % 2 ^ 32) l.bytes) s).groups ∧ t.mem = s.mem)) ∧
  (∀ (s : State) (c k id tile row pa len : Nat) (v : VarOp), Live s → (s.core c).vars.find? (fun v => v.id == id) = some v →
    v.agent = .ctx c k → v.clash = [] → s.poison = [] → v.body = .tgld tile row pa len → pa + len ≤ memEnd → row + len / 128 ≤ 32 →
    let u := (s.moved (s.gidOf v.agent) len).homePrep c (span pa len)
    Answers (exec (.variableResultDone c id) s) fun t => t.mem = u.mem ∧ tokenFell s t v ∧
      ∀ i lane, i < len / 128 → lane < 32 →
        (t.core c).tileWord tile (row + i) lane = BitVec.ofNat 32 (u.rdNat (pa + 128 * i + 4 * lane) 4)) ∧
  (∀ (s : State) (c k id pa rel : Nat) (bs : List Byte) (v : VarOp), Live s → (s.core c).vars.find? (fun v => v.id == id) = some v →
    v.agent = .ctx c k → v.clash = [] → v.body = .tgst pa bs [] rel → pa + bs.length ≤ memEnd →
    let u := ((s.moved (s.gidOf v.agent) bs.length).eager c rel).homePrep c (span pa bs.length)
    Answers (exec (.variableResultDone c id) s) fun t => t.mem = writeCells u.mem (cellsAt pa bs) ∧ tokenFell s t v) ∧
  (∀ (s : State) (c w id va len : Nat) (inv : Bool) (v : VarOp), Pending c w id v s → v.body = .flush va len inv → 0 < len →
    Answers (exec (.variableResultDone c id) s) fun t => tokenFell s t v ∧
      ∀ n first pages pa pte leaf level, va / 128 ≤ n → n ≤ (va + len - 1) / 128 →
        walk s (s.partOf (s.gidOf v.agent)) (128 * n) = .ok first pages pa pte leaf level →
        let line := (pa + (128 * n - first)) / 128
        (∀ k, dirtyCells (t.core k).l1 (fun a => a / 128 == line) = []) ∧ (inv = true → mget? (t.core c).l1 line = none)) ∧
  (∀ (s : State) (c id : Nat) (x : Copy), Copying c id x s → x.tensor = none → x.done = 0 → 0 < dLen x.desc →
    let d := x.desc
    let scr := fun (z : State) (g o : Nat) => (span o (dLen d)).map fun a => mget 0 (z.group g).scratch a
    (∀ pa s1, dDir d = 0 → dSrc d % 4096 + dLen d ≤ 4096 → copyXl s c (s.partOf x.gid) x.hnd .r (dSrc d) = (.ok pa, s1) →
      pa + dLen d ≤ memEnd → Answers (exec (.copyComplete c id) s) fun t =>
        scr t x.gid (dDst d % 2 ^ 32) = t.rdBytes pa (dLen d) ∧ t.mem = (copyRead s1 c (s.partOf x.gid) pa (dLen d)).2.2.mem) ∧
    (∀ pa s1, dDir d = 1 → dDst d % 4096 + dLen d ≤ 4096 → copyXl s c (s.partOf x.gid) x.hnd .w (dDst d) = (.ok pa, s1) →
      pa + dLen d ≤ memEnd → Answers (exec (.copyComplete c id) s) fun t =>
        t.rdBytes pa (dLen d) = scr s x.gid (dSrc d % 2 ^ 32) ∧ t.groups = s.groups) ∧
    (∀ g g', dDir d = 2 → clusterTarget s x.gid (BitVec.ofNat 32 (dSrc d)) = some g →
      clusterTarget s x.gid (BitVec.ofNat 32 (dDst d)) = some g' → (mget? s.groups g').isSome = true →
      (g = g' → dSrc d % 2 ^ 24 + dLen d ≤ dDst d % 2 ^ 24 ∨ dDst d % 2 ^ 24 + dLen d ≤ dSrc d % 2 ^ 24) →
      Answers (exec (.copyComplete c id) s) fun t => scr t g' (dDst d % 2 ^ 24) = scr s g (dSrc d % 2 ^ 24) ∧ t.mem = s.mem)) ∧
  (∀ (s s1 : State) (c id a len pa : Nat) (x : Copy) (r : BitVec 512), Copying c id x s → x.tensor = some r →
    let block := (span (dSrc x.desc % 2 ^ 32) 4096).map fun o => mget 0 (s.group x.gid).scratch o
    (dDir x.desc = 0 → (∃ o, (tensorPieces r).drop x.done = [(a, o, len)]) →
      copyXl s c (s.partOf x.gid) x.hnd .r a = (.ok pa, s1) → 0 < len → pa + len ≤ memEnd →
      Answers (exec (.copyComplete c id) s) fun t =>
        ∀ i, i < (tTarget s r (tensorLines r (x.got ++ t.rdBytes pa len))).length →
          mget 0 (t.group x.gid).scratch (dDst x.desc % 2 ^ 32 + i) = nth 0 (tTarget s r (tensorLines r (x.got ++ t.rdBytes pa len))) i) ∧
    (∀ bs, dDir x.desc = 1 → (tensorPuts r block).drop x.done = [(a, bs)] →
      copyXl s c (s.partOf x.gid) x.hnd .w a = (.ok pa, s1) → 0 < bs.length → pa + bs.length ≤ memEnd →
      Answers (exec (.copyComplete c id) s) fun t => t.rdBytes pa bs.length = bs ∧ t.groups = s.groups)) ∧
  (∀ (t : BitVec 512) (row : List Byte), tSfmt t = tTfmt t → tTfmt t < 5 → tOutLine t row = row.take (tElems t * sfmtSize (tTfmt t))) ∧
  (∀ (s : State) (t : BitVec 512) (got : List Byte) (l i : Nat), tSfmt t = tTfmt t → tTfmt t < 5 → tLines t ≤ 32 →
    tElems t * sfmtSize (tTfmt t) ≤ 128 → got.length = tLines t * tMain t → l < 32 → i < 128 →
    nth 0 (tTarget s t (tensorLines t got)) (128 * l + i) =
      if l < tLines t ∧ i < tElems t * sfmtSize (tTfmt t) then nth 0 got (l * (tElems t * sfmtSize (tTfmt t)) + i) else 0)

/-- The grid of a launch record whose kernel header and entry table have been read (02 R39; 05 R101; 14 R329). -/
def Sys2Proof.Claims.readGrid (n r : Nat) (bits : Nat) (header : List Byte) (s : State) : Grid :=
  let g : Grid := { part := n, ring := r, record := BitVec.ofNat 1024 bits
                    khdr := (List.range 8).map fun i => BitVec.ofNat 64 (leNat ((header.drop (8 * i)).take 8)) }
  { g with
    entry := BitVec.ofNat 64 g.kEntry
    entries := (List.range g.nEntry).map fun e => match unitRead s n (g.entTab + 8 * e) 8 with
      | (.ok, bs, _) => leNat (bs.take 4)
      | _ => 0 }
/-- A launch of ring `r` has failed with a status: its grid stands with nothing placed, its completion action and the next record stand to
happen (02 R40). -/
def Failed (n r id : Nat) (grids : List (Nat × Grid)) (g : Grid) (status : BitVec 8) (t : State) : Prop :=
  t.grids = mput grids id { g with status := status } ∧ mget? (t.part n).taken r = none ∧ .completionAction id ∈ t.agenda ∧
  .dispatcherTakeRecord n r ∈ t.agenda

/-- The memory when a grid is done: that of `s`, with the LIVE count of its kernel, where the grid raised it, one lower (11 R267). -/
def Fallen (gr : Nat) (g : Grid) (s t : State) : Prop :=
  (g.counted = false → t.mem = s.mem) ∧
  ∀ u, g.counted = true → liveAdd (s.modGrid gr fun x => { x with done := true, acting := false, slot := none }) g.part g.kobj false = some u →
    t.mem = u.mem
/-- A record of a launch ring that has been taken is read and checked: status 1 for the record, 2 for the kernel header, 1 for the record
against the header, 3 where no empty cores would hold it; otherwise LIVE has risen and its clusters are placed (02 R38 to R40; 11 R267).
A ring places its next cluster, or all of a co-resident grid, when it has the turn and there is room, and is held back otherwise (02 R42
to R44; that a cluster is the unit of a turn is DESIGN CHOICE, log 55); a grid gets its class (02 R45); a group retires (02 R57); the
completion action of a grid stores its word or publishes its slot, and waits where the ring is full (02 R41). -/
def Obligations.DispatchEventsComplete : Prop :=
  (∀ (s s1 : State) (n r va : Nat) (bs : List Byte), Live s → (s.part n).state = 1 → mget? (s.part n).placing r = none →
    ringBlocked s n r = false → mget? (s.part n).taken r = some va →
    unitRead (s.modPart n fun p => { p with ringFails := p.ringFails.filter fun f => f.1 != r }) n va 128 = (.ok, bs, s1) →
    let g : Grid := { part := n, ring := r, record := BitVec.ofNat 1024 (leNat bs) }
    (g.badRecord = true → Answers (exec (.dispatcherTakeRecord n r) s) (Failed n r s1.nextId s1.grids g 1)) ∧
    (g.badRecord = false → g.kobj % 64 ≠ 0 → Answers (exec (.dispatcherTakeRecord n r) s) (Failed n r s1.nextId s1.grids g 2)) ∧
    (∀ hb s2, g.badRecord = false → g.kobj % 64 = 0 → unitRead s1 n g.kobj 64 = (.ok, hb, s2) →
      let g1 := readGrid n r (leNat bs) hb s2
      (g1.badKernel = true → Answers (exec (.dispatcherTakeRecord n r) s)
        (Failed n r s2.nextId s2.grids { g1 with entries := [] } 2)) ∧
      (∀ s3, g1.badKernel = false → liveAdd s2 n g.kobj true = some s3 →
        (g1.badFit = true → Answers (exec (.dispatcherTakeRecord n r) s)
          (Failed n r s3.nextId s3.grids { g1 with counted := true } 1)) ∧
        (g1.badFit = false → wouldFit s3 n { g1 with counted := true } = false → Answers (exec (.dispatcherTakeRecord n r) s)
          (Failed n r s3.nextId s3.grids { g1 with counted := true } 3)) ∧
        (g1.badFit = false → wouldFit s3 n { g1 with counted := true } = true → Answers (exec (.dispatcherTakeRecord n r) s) fun t =>
          mget? (t.part n).placing r = some s3.nextId ∧ mget? (t.part n).taken r = none ∧
          t.grid s3.nextId = { g1 with counted := true } ∧ .placeCluster n r ∈ t.agenda)))) ∧
  (∀ (s : State) (n r gr : Nat) (g : Grid), Live s → mget? (s.part n).placing r = some gr → mget? s.grids gr = some g →
    g.aborted = false →
    (g.nClusters ≤ g.nextCluster → Answers (exec (.placeCluster n r) s) fun t => mget? (t.part n).placing r = none ∧
      .dispatcherTakeRecord n r ∈ t.agenda ∧ t.groups = s.groups) ∧
    (r < 4 → g.nextCluster < g.nClusters → (s.part n).state = 1 → ((s.part n).turn.takeWhile (· != r)).find? (canPlace s n) = none →
      (∀ cs, g.coRes = false → chooseCores s n g = some cs → Answers (exec (.placeCluster n r) s) fun t =>
        (t.grid gr).nextCluster = g.nextCluster + 1 ∧
        (∃ cl, mget? t.clusters s.nextId = some cl ∧ cl.number = g.nextCluster ∧ cl.groups.length = cs.length) ∧
        .placeCluster n r ∈ t.agenda ∧ mget? (t.part n).held r = none ∧ (t.part n).nextRing = (r + 1) % 4) ∧
      (∀ u, g.coRes = true → placeMany n gr (g.nClusters - g.nextCluster) s = some u → Answers (exec (.placeCluster n r) s) fun t =>
        (t.grid gr).nextCluster = g.nClusters ∧ .placeCluster n r ∈ t.agenda ∧ mget? (t.part n).held r = none) ∧
      (g.coRes = false → chooseCores s n g = none → Answers (exec (.placeCluster n r) s) fun t =>
        mget? (t.part n).held r = some (mget s.now (s.part n).held r) ∧ t.groups = s.groups ∧ t.grids = s.grids))) ∧
  (∀ (s : State) (gr t0 : Nat) (g : Grid), Live s → mget? s.grids gr = some g → g.classified = false → g.firstPlaced = some t0 →
    t0 + 2 ^ 20 ≤ s.now → Answers (exec (.gridClassify gr) s) fun t => (t.grid gr).classified = true ∧
      (t.grid gr).cls = (if g.bytes * 1024 < g.macs then .compute else if g.macs < g.bytes * 128 then .memory else .balanced)) ∧
  (∀ (s : State) (gid : Nat) (g : Group) (gr : Grid), Live s → mget? s.groups gid = some g → mget? s.grids g.grid = some gr →
    groupDone s gid = true → (∀ k ∈ g.ctxs, (s.ctx g.core k).state ≠ .trapped) →
    Answers (exec (.groupRetire gid) s) fun t => (t.group gid).phase = .gone ∧ (t.grid g.grid).retired = gr.retired + 1 ∧
      (∀ w ∈ g.slots, t.warp? g.core w = none) ∧ (gr.retired + 1 = gr.nGroups → .completionAction g.grid ∈ t.agenda)) ∧
  (∀ (s : State) (gr : Nat) (g : Grid), Live s → mget? s.grids gr = some g → g.done = false →
    (g.aborted = true ∨ g.status ≠ 0 ∨ g.retired = g.nGroups) →
    (g.cmplKind = 0 → Answers (exec (.completionAction gr) s) fun t => (t.grid gr).done = true ∧ Fallen gr g s t ∧
      (gr ∈ (s.part g.part).actWaits → .dispatcherTakeRecord g.part g.ring ∈ t.agenda)) ∧
    (∀ s1, g.cmplKind = 1 → g.cmplAddr % 8 = 0 →
      unitWrite (gridRelease s gr (actScope g)) g.part g.cmplAddr (leBytes 8 (g.cmplVal / 256 * 256 + g.status.toNat)) = (.ok, s1) →
      Answers (exec (.completionAction gr) s) fun t => (t.grid gr).done = true ∧ Fallen gr g s1 t) ∧
    (∀ h pa s0, g.cmplKind = 2 → g.cmplAddr % 64 = 0 → g.slot = none → ringOpen s g.part g.cmplAddr = (.ok (h, pa), s0) → h.kind = 0 →
      4 ≤ h.log2sz →
      (∀ k h' s1 s2, ringReserve s g.part g.cmplAddr = (.ok (k, h'), s1) →
        unitWrite (gridRelease (s1.modGrid gr fun x => { x with slot := some (BitVec.ofNat 64 k) }) gr (actScope g)) g.part (h'.slotVa k)
          (leBytes 8 g.cmplVal ++ leBytes 8 (g.status.toNat + s.now % 2 ^ 56 * 256)) = (.ok, s2) →
        Answers (exec (.completionAction gr) s) fun t => (t.grid gr).done = true ∧
          Fallen gr g (ringPublish s2 g.part g.cmplAddr k).2 t) ∧
      (∀ s1, ringReserve s g.part g.cmplAddr = (.error .full, s1) → Answers (exec (.completionAction gr) s) fun t =>
        (t.grid gr).done = false ∧ (t.grid gr).acting = true ∧ gr ∈ (t.part g.part).actWaits ∧ t.mem = s1.mem)))

/-- A double-bit error poisons its place, in the data of a ticket entry its chunk there; a single-bit error is corrected and counted
(07 R161; 08 R190). An entry of the write-combining buffer drains (07 R159). A line leaves an L1 with its dirty bytes written back, after
those of the origin of its forwarded bytes (07 R156; 09 R210). A promoted core writes back its dirty bytes, and its tags go (09 R208,
R209). Dirty bytes of one core of a cluster arrive in another clean, where it has no dirty byte of its own (09 R210). -/
def Obligations.CacheEventsComplete : Prop :=
  (∀ (s : State) (loc : ErrLoc), Live s →
    ((∀ e k, loc ≠ .ticket e k) → Answers (exec (.memoryErrorDetected loc true) s) fun t => loc ∈ t.poison ∧
      (∀ p ∈ t.poison, p = loc ∨ p ∈ s.poison) ∧ t.mem = s.mem ∧ t.cores = s.cores) ∧
    (∀ e k, loc = .ticket e k → Answers (exec (.memoryErrorDetected loc true) s) fun t =>
      (∀ i, 64 * k ≤ i → i < 64 * k + 64 → i < (s.ticket e).data.length → i ∈ (t.ticket e).poisoned) ∧
      t.poison = s.poison ∧ t.mem = s.mem ∧ t.cores = s.cores) ∧
    Answers (exec (.memoryErrorDetected loc false) s) (fun t => t.mgmt = { s.mgmt with corrected := s.mgmt.corrected + 1 } ∧
      t.mem = s.mem ∧ t.poison = s.poison ∧ t.cores = s.cores)) ∧
  (∀ (s : State) (c line : Nat) (e : Nat × List (Nat × Byte × Nat)), Live s → (s.core c).wc.filter (fun e => e.1 == line) = [e] →
    Answers (exec (.wcEntryDrain c line) s) fun t => (t.core c).wc = (s.core c).wc.filter (fun e => !(e.1 == line)) ∧
      t.mem = writeCells s.mem (e.2.map fun b => (128 * line + b.1, b.2.1)) ∧ (t.core c).l1 = (s.core c).l1) ∧
  (∀ (s : State) (c line : Nat) (ln : Line), Live s → (s.core c).l1.filter (fun l => l.1 == line) = [(line, ln)] →
    (ln.fd = none → Answers (exec (.l1Evict c line) s) fun t => mget? (t.core c).l1 line = none ∧
      t.mem = writeCells s.mem (dirtyCells (s.core c).l1 fun a => a / 128 == line)) ∧
    (∀ r, ln.fd = some r → r ≠ c → Answers (exec (.l1Evict c line) s) fun t => mget? (t.core c).l1 line = none ∧
      t.mem = writeCells (writeCells s.mem (dirtyCells (s.core r).l1 fun a => a / 128 == line))
        (dirtyCells (s.core c).l1 fun a => a / 128 == line))) ∧
  (∀ (s : State) (c : Nat), Live s → Answers (exec (.promotion c) s) fun t =>
    t.mem = writeCells s.mem (dirtyCells (s.core c).l1 fun _ => true) ∧ dirtyCells (t.core c).l1 (fun _ => true) = [] ∧
    ∀ x ∈ t.tags, ∀ p ∈ x.2, p.1 ≠ c) ∧
  (∀ (s : State) (src dst line cl : Nat) (ln : Line) (k : Cluster) (g h : Nat) (x y : Group), Live s → src ≠ dst →
    (cl, k) ∈ s.clusters → g ∈ k.groups → h ∈ k.groups → mget? s.groups g = some x → mget? s.groups h = some y → x.phase ≠ .gone →
    y.phase ≠ .gone → x.core = src → y.core = dst → (s.core src).l1.filter (fun l => l.2.bytes.any fun b => b.2.dirty) = [(line, ln)] →
    (mget {} (s.core dst).l1 line).fd = none → (s.core dst).l1.length < (s.core dst).l1Cap → (ln.bytes.map (·.1)).Nodup →
    Answers (exec (.clusterForward src dst) s) fun t => t.mem = s.mem ∧ t.core src = s.core src ∧
      (mget {} (t.core dst).l1 line).fd = some src ∧
      ∀ b ∈ ln.bytes, b.2.dirty = true →
        mget? (mget {} (t.core dst).l1 line).bytes b.1 = (match mget? (mget {} (s.core dst).l1 line).bytes b.1 with
          | some y => if y.dirty then some y else some ⟨b.2.val, false, 0, 0⟩
          | none => some ⟨b.2.val, false, 0, 0⟩)) ∧
  (∀ (s : State) (c line r : Nat) (ln : Line), Live s → (s.core c).l1.filter (fun l => l.1 == line) = [(line, ln)] → ln.fd = some r →
    Answers (exec (.fdResolve c line) s) fun t => (mget {} (t.core c).l1 line).fd = none ∧
      t.mem = writeCells s.mem (dirtyCells (s.core r).l1 fun a => a / 128 == line))

/-- No access of any agent is outstanding. -/
def Sys2Proof.Claims.settled (s : State) : Prop := ∀ ck ∈ s.cores, ∀ v ∈ ck.2.vars, v.body.touches.2 = []

/-- A range with no access outstanding and no copy to it under way becomes SEALED, and an unsealed one IDLE (07 R173, R175; 09 R216). An
LDT takes a free entry of its slice behind those of its partition that wait there, its ticket goes to D, and an entry of resident memory
has its snapshot; a waiting one is granted its entry (08 R179 to R181). An entry's data has arrived, and its lease ends (08 R189, R191).
A waiting reservation of a ring is served (17 R422). That the snapshot is read at the allocation is DESIGN CHOICE, log 18. -/
def Obligations.SealAndTicketEventsComplete : Prop :=
  (∀ (s : State) (n k : Nat), Live s → settled s → sealState ((s.part n).seal k) = 1 → sealQuiet s n k = true →
    Answers (exec (.sealComplete n k) s) fun t => (t.part n).seal k =
      sealWord 2 (sealBase ((s.part n).seal k)) (((s.part n).seal k).toNat % 65536)) ∧
  (∀ (s : State) (n k : Nat), Live s → sealState ((s.part n).seal k) = 3 →
    Answers (exec (.unsealComplete n k) s) fun t => (t.part n).seal k = 0) ∧
  (∀ (s : State) (c id size d : Nat) (v : VarOp) (va : W64) (tr : Bool) (seg : Seg), Live s →
    (s.core c).vars.find? (fun v => v.id == id) = some v → v.body = .ldt va size d tr (some seg) →
    (∀ x ∈ s.ldtWaits, x.id ≠ id) → freeTickets s seg.slice ≠ [] →
    let n := s.partOf (s.gidOf v.agent)
    let ahead := (s.ldtWaits.filter fun x => x.slice == seg.slice && x.part == n).length
    ticketsAt s seg.slice n + (if tr then 0 else ahead) < (s.part n).quota →
    Answers (exec (.ticketAllocate c id) s) fun t => ∃ e, e < 1024 ∧ (s.ticket (tkKey seg.slice e)).st = .free ∧
      (t.ticket (tkKey seg.slice e)).st = seg.st ∧ (t.ticket (tkKey seg.slice e)).va = va ∧ (t.ticket (tkKey seg.slice e)).part = n ∧
      (t.ticket (tkKey seg.slice e)).gen = (s.ticket (tkKey seg.slice e)).gen ∧ .variableResultDone c id ∈ t.agenda ∧
      (seg.st = .fetching → (t.ticket (tkKey seg.slice e)).data = s.rdBytes seg.pa (128 * 2 ^ size) ∧
        .ticketFetchComplete seg.slice e ∈ t.agenda) ∧
      let tk := ticketVal s seg.slice e (s.ticket (tkKey seg.slice e)).gen n size
      { v with body := .results [.g d (lo32 tk), .g (d + 1) (hi32 tk)] } ∈ (t.core c).vars) ∧
  (∀ (s : State) (slice n size d : Nat) (x : LdtWait) (v : VarOp) (va : W64) (tr : Bool) (seg : Seg), Live s →
    s.ldtWaits.find? (fun x => x.slice == slice && x.part == n) = some x → ticketsAt s slice n < (s.part n).quota →
    (∀ y ∈ s.ldtWaits, y.id = x.id → y = x) →
    (s.core x.core).vars.find? (fun v => v.id == x.id) = some v → v.body = .ldt va size d tr (some seg) → seg.slice = slice →
    s.partOf (s.gidOf v.agent) = n → freeTickets s slice ≠ [] →
    Answers (exec (.ldtQuotaGrant slice n) s) fun t => t.ldtWaits = s.ldtWaits.filter (fun y => y.id != x.id) ∧
      .variableResultDone x.core x.id ∈ t.agenda ∧ .ldtQuotaGrant slice n ∈ t.agenda) ∧
  (∀ (s : State) (slice e : Nat), Live s →
    ((s.ticket (tkKey slice e)).st = .fetching → (s.ticket (tkKey slice e)).waiters = [] →
      Answers (exec (.ticketFetchComplete slice e) s) fun t =>
        t.ticket (tkKey slice e) = { s.ticket (tkKey slice e) with st := .full, cause := 0, clock := s.now }) ∧
    ((s.ticket (tkKey slice e)).st = .claimed → Answers (exec (.ticketFetchComplete slice e) s) fun t =>
      t.ticket (tkKey slice e) = { s.ticket (tkKey slice e) with st := .free, data := [] })) ∧
  (∀ (s : State) (slice e : Nat), Live s → let k := s.ticket (tkKey slice e)
    (k.st = .full ∨ k.st = .poisoned) → k.waiters = [] → k.clock + 2 ^ (s.part k.part).lease.toNat ≤ s.now →
    Answers (exec (.ticketLeaseEnd slice e) s) fun t => (t.ticket (tkKey slice e)).st = .free ∧
      (t.ticket (tkKey slice e)).gen = nextGen k.gen ∧ (t.ticket (tkKey slice e)).last = .lapsed ∧
      (t.part k.part).lapsed = (s.part k.part).lapsed + 1) ∧
  (∀ (s s1 : State) (c w id d k : Nat) (r : RingWait) (h : RingHdr) (v : VarOp), Live s →
    s.ringWaits.find? (fun x => x.id == id) = some r → r.res = true →
    (s.ringWaits.find? fun x => x.part == r.part && x.hdr == r.hdr && x.res == true).map (·.id) = some id → r.agent = .warp c w →
    ringReserve s r.part r.hdr.toNat = (.ok (k, h), s1) → (s1.core c).vars.find? (fun v => v.id == id) = some v →
    v.agent = .warp c w → v.clash = [] → v.regs = [(true, d), (true, d + 1)] → v.body = .ring → (s1.warp? c w).isSome = true →
    Answers (exec (.ringWaitServed id) s) fun t => t.ringWaits = s1.ringWaits.filter (fun x => x.id != id) ∧
      mget 0 (t.warp c w).g d = lo32 (BitVec.ofNat 64 k) ∧ mget 0 (t.warp c w).g (d + 1) = hi32 (BitVec.ofNat 64 k) ∧
      ∀ x ∈ (t.core c).vars, x.id ≠ id)
/-- A vector of a function is signalled: it is sent, or its pending bit is set where its entry of the MSI-X table is masked (12 R270,
R275; the table's layout and its masks are PRESUMED, log 59). -/
def Signalled (fn vec : Nat) (s t : State) : Prop :=
  (s.masked fn vec = false → t.out = s.out ++ [.msix fn vec]) ∧
  (s.masked fn vec = true → t.out = s.out ∧ (mget 0 t.pba fn).getLsbD vec = true)

/-- No request of a pager waits for room. -/
def NoneQueued (p : Nat) (s : State) : Prop := ∀ q ∈ s.pagerQueue, q.1 ≠ p

/-- A walk fills the TLB of its core (10 R225, R226). A request for a page joins the page's entry, allocates one, or waits behind those
that wait for room (01 R26; 10 R233). Once a page-in has its frame, it takes a record and its commands go to the drive (10 R235, R241).
The drive's completion of its last command is polled at the head of the completion queue, and the install stands to happen; a command goes
to the submission queue with one doorbell (10 R240; the entries' bytes are PRESUMED, log 26). The page is installed and its waiter goes on
(10 R235); a page-in that times out leaves the table, and the grid of the warp that waits for it is aborted (10 R236). That a contiguous group
which breaks 10 R224 is served from a free block is the model's (DESIGN CHOICE, log 50). -/
def Obligations.PagingEventsComplete : Prop :=
  (∀ (s : State) (c n v len pa pte level : Nat) (va leaf : W64), Live s → va.toNat < 2 ^ 48 → c ∈ (s.part n).cores →
    walk s n va.toNat = .ok v len pa pte leaf level → leaf.getLsbD 4 = true →
    Answers (exec (.pageWalk c n va) s) fun t => (t.core c).tlb.head? = some ⟨n, v, len, pa, pte, leaf ||| leafA⟩ ∧
      t.warps = s.warps ∧ t.parts = s.parts) ∧
  (∀ (s : State) (n key v len level : Nat) (va loc : W64) (w : Waiter), Live s → va.toNat < 2 ^ 48 →
    walk s n va.toNat = .page key v len loc level →
    let pager := pagerOf loc
    (s.flight (pager, key) = none → s.pagerLoad pager < 512 → NoneQueued pager s → Answers (exec (.pagerRequest n va w) s) fun t =>
      .pageInStart pager key ∈ t.agenda ∧ t.mem = s.mem ∧
      ∃ x, t.flight (pager, key) = some x ∧ x.part = n ∧ x.va = BitVec.ofNat 64 v ∧ x.size = len ∧ x.leaf = firstLoc s key loc len ∧
        x.waiters = [w] ∧ x.stage = 0 ∧ x.evict = false ∧ x.ok = true ∧ x.id = s.nextId) ∧
    (s.flight (pager, key) = none → (512 ≤ s.pagerLoad pager ∨ ¬ NoneQueued pager s) → Answers (exec (.pagerRequest n va w) s) fun t =>
      (∃ since, (pager, n, va, w, since) ∈ t.pagerQueue) ∧ t.inflight = s.inflight ∧ t.mem = s.mem) ∧
    (∀ x, s.flight (pager, key) = some x → Answers (exec (.pagerRequest n va w) s) fun t =>
      ∃ y, t.flight (pager, key) = some y ∧ w ∈ y.waiters ∧ (∀ u ∈ x.waiters, u ∈ y.waiters) ∧ t.mem = s.mem)) ∧
  (∀ (s : State) (p key r : Nat) (x : InFlight), Live s → s.flight (p, key) = some x → x.evict = false → x.stage = 1 →
    freeRecord s x.part = some (.ok r) → (s.drive (locDrive x.leaf)).on = true →
    Answers (exec (.pageInStart p key) s) fun t => ∃ y, t.flight (p, key) = some y ∧ y.stage = 2 ∧ y.record = r ∧ y.frame = x.frame ∧
      y.left = cdiv x.size (min x.size (s.drive (locDrive x.leaf)).limit) ∧
      (t.drive (locDrive x.leaf)).out.length + (t.drive (locDrive x.leaf)).waiting.length =
        (s.drive (locDrive x.leaf)).out.length + (s.drive (locDrive x.leaf)).waiting.length + y.left) ∧
  (∀ (s : State) (d cid : Nat) (status : BitVec 16) (c : Cmd) (x : InFlight), Live s → cid < 65536 → (s.drive d).on = true →
    let at_ := (s.drive d).cqb.toNat + 16 * (s.drive d).head
    let head := ((s.drive d).head + 1) % ((s.drive d).qsize + 1)
    at_ + 16 ≤ memEnd → (s.part (s.drive d).part).inFrame at_ 16 = true →
    (s.drive d).out.find? (fun c => c.cid == cid) = some c → c.op = 2 → status.toNat % 2048 = 0 → s.flight (c.pager, c.key) = some x →
    x.id = c.flight → x.stage = 2 → x.evict = false → x.left = 1 →
    Answers (exec (.nvmeCompletion d cid status) s) fun t => .pageInInstall c.pager c.key ∈ t.agenda ∧
      (t.drive d).out = (s.drive d).out.erase c ∧ (t.drive d).head = head ∧ t.flight (c.pager, c.key) = some { x with left := 0 } ∧
      t.out = s.out ++ [.doorbell d ((s.drive d).doorbell true) head] ∧
      t.mem = (s.wrBytes at_ ((s.drive d).cqe cid status)).mem) ∧
  (∀ (s : State) (d : Nat) (c : Cmd), Live s → (s.drive d).on = true → (s.drive d).waiting = [c] →
    (s.drive d).out.length < (s.drive d).qsize →
    let at_ := (s.drive d).sqb.toNat + 64 * (s.drive d).tail
    let tail := ((s.drive d).tail + 1) % ((s.drive d).qsize + 1)
    at_ + 64 ≤ memEnd →
    Answers (exec (.stqSubmitWaiting d) s) fun t => (t.drive d).out = (s.drive d).out ++ [c] ∧ (t.drive d).waiting = [] ∧
      (t.drive d).tail = tail ∧ t.mem = (s.wrBytes at_ c.bytes).mem ∧
      t.out = s.out ++ [.doorbell d ((s.drive d).doorbell false) tail]) ∧
  (∀ (s : State) (p key c w : Nat) (x : InFlight), Live s → s.flight (p, key) = some x → x.evict = false → x.stage = 2 → x.left = 0 →
    x.ok = true → x.size = 4096 → (∀ b ∈ (s.part x.part).bounced, b.key ≠ key) → x.waiters = [.warp c w] → NoneQueued p s →
    let u := (s.modPart x.part fun p => { p with bounced := p.bounced.filter fun b => b.key != key }).wr64 key
      (installedPte (s.rd64 key) x.frame false)
    Answers (exec (.pageInInstall p key) s) fun t =>
      t.mem = (resWrite u x.part x.record (BitVec.ofNat 64 (key + 1)) x.leaf).mem ∧ t.flight (p, key) = none ∧
      mget? (t.part x.part).resident key = some (x.va.toNat, 4096) ∧ .warpUnpark c w ∈ t.agenda) ∧
  (∀ (s : State) (p key : Nat) (x : InFlight), Live s → s.flight (p, key) = some x → x.evict = false → x.stage = 2 → x.deadline ≠ 0 →
    x.deadline ≤ s.now → NoneQueued p s →
    (x.waiters = [] → Answers (exec (.pageInTimeout p key) s) fun t => t.flight (p, key) = none) ∧
    (∀ c w wp gr, x.ok = true → x.waiters = [.warp c w] → s.warp? c w = some wp → mget? s.grids (s.group wp.gid).grid = some gr →
      gr.aborted = false → gr.done = false → Answers (exec (.pageInTimeout p key) s) fun t => t.flight (p, key) = none ∧
        (t.grid (s.group wp.gid).grid).aborted = true ∧ (t.grid (s.group wp.gid).grid).status = 4))

/-- The entry's copies in the TLBs of a core: none satisfies a test. -/
def NoTlb (hit : TlbE → Bool) (t : State) : Prop := ∀ c, ∀ e ∈ (t.core c).tlb, hit e = false

/-- The sweep clears the accessed bits of a page's entries and drops their copies (10 R237); an evicted page's entry of the table and
record leave, and units and saved groups that wait for the page ask for it (10 R238, R245). With no access outstanding, a shootdown of a TLBINV or of an
eviction empties the TLBs of its range or page, drops the L1 lines and revokes the handles of the range (05 R111; 10 R228; that a TLBINV
has every line of the partition leave is DESIGN CHOICE, log 58). TLBINV is busy until its shootdown is complete (10 R227), an eviction goes
on to its write-back (10 R238), and STQCFG.FLUSH starts one Flush (10 R242). -/
def Obligations.EvictionEventsComplete : Prop :=
  (∀ (s : State) (n : Nat) (a loc : W64), Live s → sweepRuns s n = true →
    let i := (s.part n).hand % resCount (s.part n)
    let u := s.modPart n fun p => { p with sweeping := true, hand := (i + 1) % resCount p }
    let leaf := a.toNat / 8 * 8
    let ptes := leafPtes leaf (pagePlace u n leaf (s.rd64 leaf)).2
    resRead u n i = .ok (a, loc) → a.getLsbD 0 = true → leaf + 8 ≤ memEnd → (s.rd64 leaf).getLsbD 0 = true →
    (∃ a ∈ ptes, (s.rd64 a).getLsbD 8 = true) → recordsShort u n = true → u.flight (pagerOf loc, leaf) = none →
    Answers (exec (.sweepStep n) s) fun t => (∀ a ∈ ptes, t.rd64 a = s.rd64 a &&& ~~~0x100#64) ∧
      NoTlb (fun e => ptes.contains (e.pte / 8 * 8)) t ∧ (t.part n).hand = (i + 1) % resCount (s.part n) ∧ (t.part n).sweeping = true) ∧
  (∀ (s : State) (p key : Nat) (x : InFlight), Live s → s.flight (p, key) = some x → x.evict = true → x.stage = 2 → x.left = 0 →
    x.ok = true → (∀ w ∈ x.waiters, (∃ n, w = .engine n) ∨ (∃ g, w = .group g) ∨ ∃ g a, w = .away g a) → NoneQueued p s →
    Answers (exec (.evictWriteComplete p key) s) fun t => t.flight (p, key) = none ∧ mget? (t.part x.part).resident key = none ∧
      ∀ w ∈ x.waiters, .pagerRequest x.part x.va w ∈ t.agenda) ∧
  (∀ (s : State) (n : Nat) (va : W64) (x : Shoot), Live s → settled s → (∀ g ∈ s.groups, ∀ r, g.2.phase ≠ .saved r) →
    s.shoots.find? (fun x => x.part == n && !x.done && (if x.inv then va == BitVec.allOnes 64 else va == x.va)) = some x →
    let ends := fun (t : State) => t.shoots = s.shoots.map fun y => if y == x then { y with done := true } else y
    (let val := (s.part n).tlbinv
     let r := invRange val
     x.inv = true → Answers (exec (.shootdown n va) s) fun t => ends t ∧
      NoTlb (fun e => e.part == n && e.va < r.1 + r.2 && r.1 < e.va + e.len && !(invKeeps val && e.leaf.getLsbD 7)) t ∧
      (∀ c, ∀ l ∈ (t.core c).l1, (s.part n).inFrame (l.1 / 32 * 4096) 4096 = false) ∧
      ∀ c k i, (t.ctx c k).bound = true → s.partOf (t.ctx c k).gid = n → (mget {} (t.ctx c k).h i).meets r.1 r.2 = true →
        invKeeps val = true ∧ (mget {} (t.ctx c k).h i).g = true) ∧
    (∀ k f, x.inv = false → s.inflight.find? (fun f => f.2.evict && f.2.part == n && f.2.va == x.va) = some (k, f) →
      Answers (exec (.shootdown n va) s) fun t => ends t ∧
        NoTlb (fun e => e.part == n && ((leafPtes k.2 f.size).contains e.pte || (e.va < x.va.toNat + f.size && x.va.toNat < e.va + e.len))) t ∧
        (∀ c, ∀ l ∈ (t.core c).l1, ¬ (f.frame / 4096 ≤ l.1 / 32 ∧ l.1 / 32 * 4096 < f.frame + f.size)) ∧
        ∀ c k i, (t.ctx c k).bound = true → s.partOf (t.ctx c k).gid = n → (mget {} (t.ctx c k).h i).meets x.va.toNat f.size = false)) ∧
  (∀ (s : State) (n : Nat), Live s → (∃ x ∈ s.shoots, x.part = n ∧ x.inv = true ∧ shootQuiet s x = true) →
    (∀ f ∈ s.inflight, f.2.part = n → f.2.evict = false) →
    Answers (exec (.shootdownComplete n) s) fun t => t.shoots = s.shoots.filter (fun x => !(x.part == n && shootQuiet s x)) ∧
      (t.part n).tlbinv = (s.part n).tlbinv &&& ~~~BitVec.twoPow 64 63 ∧ t.mem = s.mem) ∧
  (∀ (s : State) (x : Shoot) (k : Nat × Nat) (f : InFlight), Live s → s.shoots = [x] → x.inv = false → shootQuiet s x = true →
    s.inflight = [(k, f)] → f.part = x.part → f.evict = true → f.stage = 0 → f.va = x.va →
    (f.oldPte.getLsbD 9 = false → Answers (exec (.shootdownComplete x.part) s) fun t =>
      t.flight k = some { f with stage := 2, left := 0 } ∧ .evictWriteComplete k.1 k.2 ∈ t.agenda ∧ t.mem = s.mem) ∧
    (f.oldPte.getLsbD 9 = true → (s.drive (locDrive f.leaf)).on = true → Answers (exec (.shootdownComplete x.part) s) fun t =>
      ∃ y, t.flight k = some y ∧ y.stage = 2 ∧ y.left = cdiv f.size (min f.size (s.drive (locDrive f.leaf)).limit) ∧
        (t.drive (locDrive f.leaf)).out.length + (t.drive (locDrive f.leaf)).waiting.length =
          (s.drive (locDrive f.leaf)).out.length + (s.drive (locDrive f.leaf)).waiting.length + y.left)) ∧
  (∀ (s : State) (n : Nat) (v : W64), Live s → (s.part n).tlbinv.getLsbD 63 = false →
    (v.getLsbD 62 = true ∨ (v.toNat / 2 ^ 48 % 64 ≤ 36 ∧ v.toNat / 4096 % 2 ^ 36 % 2 ^ (v.toNat / 2 ^ 48 % 64) = 0)) →
    Answers (exec (.tlbinv n v) s) fun t => (t.part n).tlbinv = (v &&& 0x603FFFFFFFFFF000#64) ||| BitVec.twoPow 64 63 ∧
      t.agenda = s.agenda ++ [.shootdown n (BitVec.allOnes 64), .shootdownComplete n] ∧ t.shoots = s.shoots ++ [⟨n, 0, true, false⟩] ∧
      t.mem = s.mem) ∧
  (∀ (s : State) (d : Nat), Live s → (s.drive d).on = true → (s.drive d).flushing = false →
    Answers (exec (.stqcfgFlush d) s) fun t => (t.drive d).flushing = true ∧
      (t.drive d).nextCid = ((s.drive d).nextCid + 1) % 65536 ∧
      ∃ c : Cmd, c.op = 0 ∧ c.cid = (s.drive d).nextCid ∧ (c ∈ (t.drive d).out ∨ c ∈ (t.drive d).waiting))

/-- A swap begins, and ends when the group's state stands in its area (10 R244, R245; 11 R259, R263); a held-back cluster of a higher
priority makes one of a lower priority leave (11 R260); a saved group that is ready comes back (11 R260); PARTSUSP suspends and resumes a
partition, and a write while BUSY is ignored (11 R261; 12 R276). That what a group's agents carry of releases is performed before the save, and
that a restore waits for room for the group's copies, is DESIGN CHOICE (log 29); which of several equal clusters leaves is DESIGN CHOICE
(log 42). -/
def Obligations.SaveEventsComplete : Prop :=
  (∀ (s : State) (gid : Nat) (g : Group), Live s → mget? s.groups gid = some g →
    (g.phase = .resident → waitsOnPager s gid = true → (s.gridOf gid).coRes = false → noneSaving s g.core = true →
      wouldHelp s gid = true → Answers (exec (.groupSwapOut gid) s) fun t =>
        t = { s with groups := mput s.groups gid { g with phase := .saving 1 }, agenda := s.agenda ++ [.groupSwapOut gid],
                     freeCtr := s.freeCtr + 1 }) ∧
    (∀ r s1, g.phase = .saving r → saveQuiet s gid = true →
      let u := drainCarried (g.ctxs.foldl (fun s k => latchCtx s g.core k) s) gid
      writePieces (s.partOf gid) (areaVa u gid) ((0, List.replicate (gSize (u.gridOf gid)) (0 : Byte)) :: savePieces u gid r) u =
        (.ok, s1) →
      Answers (exec (.groupSwapOut gid) s) fun t => (t.group gid).phase = .saved r ∧ (t.group gid).ready = false ∧ t.mem = s1.mem ∧
        ∀ w ∈ g.slots, t.warp? g.core w = none)) ∧
  (∀ (s : State) (n r gr since cl gid : Nat) (rest cs : List Nat), Live s → mget? (s.part n).placing r = some gr →
    mget? (s.part n).held r = some since → since + 4096 ≤ s.now → (s.part n).state = 1 → placePlan s n gr = none →
    (∀ g ∈ s.groups, ∀ x, g.2.phase ≠ .saving x) → preemptable s n (s.grid gr).prio = cl :: rest → liveGroups s cl = [gid] →
    placePlan (without s [cl]) n gr = some cs → (s.group gid).core ∈ cs → (∃ x, mget? s.groups gid = some x) →
    Answers (exec (.priorityPreempt n r) s) fun t => (t.group gid).phase = .saving 2 ∧ .groupSwapOut gid ∈ t.agenda ∧ t.mem = s.mem) ∧
  (∀ (s s1 s2 : State) (gid : Nat) (g : Group) (img : List Byte), Live s → mget? s.groups gid = some g → becomesReady s gid g = true →
    let u := s.modGroup gid fun x => { x with ready := true, awaits := [] }
    (s.part (s.partOf gid)).state = 1 → noneSaving u g.core = true → restoreRoom u g (s.gridOf gid) = true →
    unitRead u (s.partOf gid) (areaVa u gid) (gSize (s.gridOf gid)) = (.ok, img, s1) → imageOk s1 gid img = true →
    imageTiles g img ≤ (freeGeneral s1 g.core).length → copyRoom s1 g img = true → restoreFrom s1 gid img = .ok s2 →
    Answers (exec (.groupRestore gid) s) fun t => t = s2.useFree ∧
      (g.fids = [] → g.ringReqs = [] → (t.group gid).phase = .resident)) ∧
  (∀ (s : State) (n dst : Nat), s.mgmt.power = true → n < 16 →
    let saved := ∀ g ∈ partGroups s n, ∃ r, (s.group g).phase = .saved r
    let ended := fun (t : State) (to_ : Nat) => t.mgmt.suspBusy = false ∧ Signalled 0 s.mgmt.mgtint.toNat s t ∧
      (∀ c ∈ (s.part n).cores, (t.core c).tlb = []) ∧ (t.part n).state = 2 ∧ (t.part n).lentTo = if to_ = n then none else some to_
    (s.mgmt.suspBusy = false → (s.part n).state = 1 → ¬saved → Answers (exec (.partsuspSuspend n dst) s) fun t => (t.part n).state = 2 ∧
      t.mgmt.suspBusy = true ∧ t.mgmt.suspOp = 1 ∧ t.mgmt.suspPart.toNat = n ∧
      ∀ g, (∃ x, mget? s.groups g = some x) → s.partOf g = n → (s.group g).phase = .resident → (t.group g).phase = .saving 3) ∧
    (s.mgmt.suspBusy = false → (s.part n).state = 1 → saved →
      Answers (exec (.partsuspSuspend n dst) s) fun t => ended t (dst % 16)) ∧
    (s.mgmt.suspBusy = true → s.mgmt.suspOp = 1 → s.mgmt.suspPart.toNat = n → (s.part n).state = 2 → saved →
      ended (suspendServe s) s.mgmt.suspTo.toNat) ∧
    (s.mgmt.suspBusy = true → Answers (exec (.partsuspSuspend n dst) s) (fun t => t = s.useFree) ∧
      Answers (exec (.partsuspResume n) s) fun t => t = s.useFree)) ∧
  (∀ (s : State) (n : Nat), s.mgmt.power = true → n < 16 →
    let guests := ∃ g ∈ s.groups, g.2.phase ≠ .gone ∧ g.2.core ∈ (s.part n).cores ∧ s.partOf g.1 ≠ n
    let ended := fun (t : State) => (t.part n).state = 1 ∧ t.mgmt.suspBusy = false ∧ Signalled 0 s.mgmt.mgtint.toNat s t ∧
      ∀ r, r < 4 → .dispatcherTakeRecord n r ∈ t.agenda
    (s.mgmt.suspBusy = false → (s.part n).state = 2 → guests → Answers (exec (.partsuspResume n) s) fun t => t.mgmt.suspBusy = true ∧
      t.mgmt.suspOp = 2 ∧ t.mgmt.suspPart.toNat = n ∧ t.parts = s.parts) ∧
    (s.mgmt.suspBusy = false → (s.part n).state = 2 → ¬guests → Answers (exec (.partsuspResume n) s) ended) ∧
    (s.mgmt.suspBusy = true → s.mgmt.suspOp = 2 → s.mgmt.suspPart.toNat = n → ¬guests → ended (resumeServe s)))

/-- The registers of a partition: FLTRESP and FLTACK (10 R231; 11 R257), TKCFG, TKSTAT and TKQUOTA (08 R191, R192), LRING (02 R37), HRCMD,
whose publication comes after the earlier requests of its function (12 R274), PCTL and PCORE (12 R278 to R280), one register written
through the window of its function (12 R272), and a vector that is unmasked while it is pending (12 R270; the layout of BAR4 is PRESUMED,
log 59). That a publish which waits leaves SLOT, and that a second command before DONE ends the first, is DESIGN CHOICE (log 50); that a
suspended partition can be reset and destroyed is DESIGN CHOICE (log 43). -/
def Obligations.PartitionRegistersComplete : Prop :=
  (∀ (s : State) (n gid : Nat) (fid : BitVec 32) (g : Group), Live s → fidGroup s n fid = some gid → mget? s.groups gid = some g →
    (∀ w skip x, g.phase = .resident → g.fids = [(fid, .warp w skip, false)] → s.warp? g.core w = some x →
      Answers (exec (.fltrespResume n fid) s) fun t => (t.group gid).fids = [] ∧
        t.warp g.core w = { (if skip then x.advance false else x) with nextIssue := max x.nextIssue (s.now + 1) } ∧ t.mem = s.mem ∧
        ∀ e ∈ (t.core g.core).tlb, e.part ≠ s.partOf gid) ∧
    (∀ gr, mget? s.grids g.grid = some gr → gr.aborted = false → gr.done = false →
      Answers (exec (.fltrespAbort n fid) s) fun t => (t.grid g.grid).aborted = true ∧ (t.grid g.grid).status = 4 ∧
        .completionAction g.grid ∈ t.agenda)) ∧
  (∀ (s : State) (n k : Nat), Live s →
    (fltRingOk s n = true → s.recWaits = [] → Answers (exec (.fltack n k) s) fun t =>
      t.mem = (ackMany n (s.part n).fltring.toNat (min k 65536) s).mem ∧ t.warps = s.warps) ∧
    (∀ b g gr, fltRingOk s n = false → s.recWaits = [(n, b)] → fidGroup s n (recFid b) = some g →
      mget? s.grids (s.group g).grid = some gr → gr.aborted = false → gr.done = false → Answers (exec (.fltack n k) s) fun t =>
        t.recWaits = [] ∧ (t.part n).fltstat = (s.part n).fltstat + 1 ∧ (t.grid (s.group g).grid).aborted = true)) ∧
  (∀ (s : State) (n : Nat) (v : W64), Live s →
    (10 ≤ v.toNat % 32 → v.toNat % 32 ≤ 30 → Answers (exec (.tkcfgWrite n v) s) fun t =>
      t.part n = { s.part n with lease := v.extractLsb' 0 5 }) ∧
    Answers (exec (.tkstatWrite n v) s) (fun t => t.part n = { s.part n with lapsed := 0 }) ∧
    (n < 16 → v.toNat % 2048 ≤ 1024 → quotaSum s - (s.part n).quota + v.toNat % 2048 ≤ 1024 →
      Answers (exec (.tkquotaWrite n v) s) fun t => t.part n = { s.part n with quota := v.toNat % 2048 }) ∧
    (∀ r, r < 4 → Answers (exec (.lringWrite n r v) s) fun t => mget 0 (t.part n).lring r = v &&& 0x0000FFFFFFFFFFC1#64 ∧
      (v.getLsbD 0 = true → .dispatcherTakeRecord n r ∈ t.agenda))) ∧
  (∀ (s : State) (n ch : Nat) (lo slot : W64), Live s → ch < 4 → (s.part n).state ≠ 0 → lo.toNat / 2 ^ 48 % 2 ^ 14 = 0 →
    let hdr := lo.toNat % 2 ^ 48
    let chan := fun (t : State) => mget {} (t.part n).chans ch
    let u := fun (op : Nat) => s.setChan n ch fun x => { x with lo := withOp op lo }
    let ends := fun (t : State) => (chan t).done = true ∧ (chan t).status = 0
    hdr % 64 = 0 → (chan s).done = true →
    (∀ k h s1, ringReserve (u 1) n hdr = (.ok (k, h), s1) → Answers (exec (.hrcmdReserve n ch lo) s) fun t =>
      ends t ∧ (chan t).slot = BitVec.ofNat 64 k ∧ t.mem = s1.mem) ∧
    (∀ h s1, s.hostBehind n = false → ringPublish (u 2) n hdr slot.toNat = (.ok h, s1) →
      Answers (exec (.hrcmdPublish n ch lo slot) s) fun t => ends t ∧ t.mem = s1.mem) ∧
    (s.hostBehind n = true → Answers (exec (.hrcmdPublish n ch lo slot) s) fun t =>
      (chan t).done = false ∧ (chan t).slot = (chan s).slot ∧ t.mem = s.mem) ∧
    (∀ h s0 k h' s1, ringOpen (u 3) n hdr = (.ok h, s0) → h.1.kind = 0 → ringTake (u 3) n hdr = (.ok (k, h'), s1) →
      Answers (exec (.hrcmdTake n ch lo) s) fun t => ends t ∧ (chan t).slot = BitVec.ofNat 64 k ∧ t.mem = s1.mem)) ∧
  (∀ (s : State) (n ch : Nat) (lo : W64), Live s → ch < 4 → (s.part n).state ≠ 0 → (mget {} (s.part n).chans ch).done = false →
    Answers (exec (.hrcmdReserve n ch lo) s) fun t => (mget {} (t.part n).chans ch).done = true ∧ t.mem = s.mem) ∧
  (∀ (s : State) (n : Nat), Live s → n < 16 → (s.part n).busy = false →
    ((s.part n).state = 0 → (∀ q ∈ s.parts, q.1 ≠ n → q.2.state ≠ 0 → framesMeet (s.part n) q.2 = false) →
      (∀ c ∈ maskCores (s.part n).pcore, heldElsewhere s n c = false) → Answers (exec (.pctlCreate n) s) fun t =>
        (t.part n).state = 1 ∧ (t.part n).result = 0 ∧ (t.part n).cores = maskCores (s.part n).pcore ∧ (t.part n).ptroot = 0 ∧
        Signalled 0 s.mgmt.mgtint.toNat s t ∧
        ∀ a, (s.part n).base ≤ a → a < (s.part n).limit → t.rd8 a = 0) ∧
    ((s.part n).state ≠ 0 → (∀ g ∈ s.grids, g.2.part = n → g.2.done = true) → flightsOf s n = false → (∀ q ∈ s.pagerQueue, q.2.1 = n) →
      Answers (exec (.pctlReset n) s) (fun t => (t.part n).state = (s.part n).state ∧ (t.part n).busy = false ∧ (t.part n).result = 0 ∧
        (t.part n).traph = 0 ∧ (t.part n).ptroot = (s.part n).ptroot ∧ t.mem = s.mem) ∧
      Answers (exec (.pctlDestroy n) s) fun t => (t.part n).state = 0 ∧ (t.part n).busy = false ∧ (t.part n).result = 0 ∧
        (t.part n).cores = []) ∧
    (∀ v, (s.part n).state = 0 → Answers (exec (.pcoreWrite n false v) s) fun t =>
      (t.part n).pcore.extractLsb' 0 64 = v ∧ (t.part n).pcore.extractLsb' 64 32 = (s.part n).pcore.extractLsb' 64 32 ∧ t.mem = s.mem) ∧
    (∀ v, (s.part n).state ≠ 0 → Answers (exec (.registerWrite (n + 1) 0x20 v) s) fun t =>
      t.part n = { s.part n with traph := v &&& ~~~6#64 } ∧ t.mem = s.mem ∧ t.cores = s.cores)) ∧
  (∀ (s : State) (vec : Nat) (v : W64), s.mgmt.power = true → vec < 64 → (mget (0 : W64) s.pba 0).getLsbD vec = true →
    v.getLsbD 32 = false → Answers (exec (.registerWrite 0 (0x100000 + 16 * vec + 8) v) s) fun t =>
      t.out = s.out ++ [.msix 0 vec] ∧ (mget (0 : W64) t.pba 0).getLsbD vec = false ∧ t.masked 0 vec = false)

/-- DEVRESET (12 R281), reports with 2,420 bytes of signature (12 R292), monitors (12 R290), the alarm log and the sensors, in a device that
has halted too (12 R293), the power limit (12 R294), fatal errors, which answer what waits (12 R281), links (01 R16; 12 R279, R285),
bring-up and the loss of power (12 R295). That the key store keeps its keys over a loss of power is DEDUCED, log 46. -/
def Obligations.DeviceEventsComplete : Prop :=
  (∀ (s : State) (v : W64), s.mgmt.power = true →
    let vec := s.mgmt.mgtint.toNat
    let sent := s.emit (.hostWrite s.mgmt.haddr.toNat (reportBody s ++ sigBytes s.mgmt.idKey (reportBody s)))
    (v.extractLsb' 0 8 = 0xD5#8 → Answers (exec (.devreset v) s) fun t => t.cores = [] ∧ t.warps = [] ∧ t.grids = [] ∧ t.parts = [] ∧
      t.mem = [] ∧ t.now = 0 ∧ t.agenda = [.bringUp] ∧ t.mgmt.keyGone = s.mgmt.keyGone) ∧
    (v.extractLsb' 0 8 ≠ 0xD5#8 → Answers (exec (.devreset v) s) fun t => t = s.useFree) ∧
    Answers (exec .attctlReport s) (fun t => t.mgmt.attBusy = false ∧
      (s.mgmt.keyGone = true → t.mgmt.attstat = 1 ∧ Signalled 0 vec s t) ∧
      (s.mgmt.keyGone = false → (t.mgmt.attstat = 0 ∨ t.mgmt.attstat = 2) ∧ Signalled 0 vec sent t)) ∧
    (reportBody s).length = 128 ∧ (∀ k b, (sigBytes k b).length = 2420) ∧
    (∀ u, Answers (exec (.moncfgSnap u) s) fun t => mget ({} : Mon) t.mons u =
      { mget ({} : Mon) s.mons u with snap := (mget ({} : Mon) s.mons u).live }) ∧
    (∀ u, Answers (exec (.moncfgClr u) s) fun t => mget ({} : Mon) t.mons u = { mget ({} : Mon) s.mons u with live := [] }) ∧
    Answers (exec (.alarmlogWrite v) s) (fun t => t.mgmt = { s.mgmt with alarm := 0 }) ∧
    (∀ sensor : BitVec 4, sensor.toNat < 3 → Answers (exec (.tamperAlarm sensor) s) fun t => Signalled 0 vec s t ∧
      (s.mgmt.alarm.toNat % 16 ≠ 1 → t.mgmt.alarm = BitVec.ofNat 64 (s.now % 2 ^ 48 * 65536 + sensor.toNat * 16 + 1)) ∧
      (s.mgmt.alarm.toNat % 16 = 1 → s.mgmt.alarm.toNat / 256 % 256 < 255 → t.mgmt.alarm = s.mgmt.alarm + 0x100) ∧
      (s.mgmt.alarm.toNat % 16 = 1 → s.mgmt.alarm.toNat / 256 % 256 = 255 → t.mgmt.alarm = s.mgmt.alarm)) ∧
    (∀ x, Answers (exec (.tamperLevel2 x) s) fun t => t.mgmt.fatal = true ∧ t.mgmt.fcause = 4 ∧ t.mgmt.keyGone = true ∧
      t.mgmt.idKey = 0 ∧ (∀ p ∈ t.parts, p.2.tagKey = 0) ∧ (s.masked 0 vec = false → .msix 0 vec ∈ t.out) ∧
      (s.masked 0 vec = true → (mget 0 t.pba 0).getLsbD vec = true))) ∧
  (∀ (s : State) (cause : BitVec 8) (die : Nat), Live s →
    let told := fun (t : State) (fn vec : Nat) => (s.masked fn vec = false → .msix fn vec ∈ t.out) ∧
      (s.masked fn vec = true → (mget 0 t.pba fn).getLsbD vec = true)
    Answers (exec (.fatalDeviceError cause) s) (fun t => t.mgmt.fatal = true ∧ t.mgmt.fcause = cause ∧ t.mem = s.mem ∧
      t.hostReads = [] ∧ t.deferred = [] ∧ (∀ r ∈ s.hostReads, r.peer = none → .hostReadDone r.id none ∈ t.out) ∧
      told t 0 s.mgmt.mgtint.toNat ∧ ∀ p ∈ s.parts, p.2.state ≠ 0 → told t (1 + p.1) (p.2.intcfg.toNat / 256 % 64)) ∧
    Answers (exec (.thermalTrip die) s) (fun t => t.mgmt.fatal = true ∧ t.mgmt.fcause = 3) ∧
    Answers (exec (.linkDown 12) s) fun t => t.mgmt.fatal = true ∧ t.mgmt.fcause = 2) ∧
  (∀ (s : State) (port bridge : Nat) (watts : BitVec 12) (step : BitVec 4), Live s →
    Answers (exec (.flitRetry port) s) (fun t => t = s.useFree) ∧ Answers (exec (.bridgeRetry bridge) s) (fun t => t = s.useFree) ∧
    (port < 12 → s.mgmt.peersDown.contains port = false → (∀ x ∈ s.colls, collUses s x port = false) →
      Answers (exec (.linkDown port) s) fun t =>
        t.mgmt = { s.mgmt with peersDown := s.mgmt.peersDown ++ [port] } ∧ t.mem = s.mem ∧ t.cores = s.cores) ∧
    Answers (exec (.powerThrottle watts step) s) fun t => t.mgmt = { s.mgmt with throttle := step, watts := watts } ∧
      t.mem = s.mem ∧ t.cores = s.cores) ∧
  (∀ s : State, (s.mgmt.power = false ∨ s.mgmt.hostLink = false) → Answers (exec .bringUp s) fun t => t.mgmt.power = true ∧
    t.mgmt.hostLink = true ∧ t.mgmt.fwOk = firmwareOk ∧ t.mem = [] ∧ t.poison = [] ∧
    (firmwareOk = false → t.mgmt.fatal = true) ∧ (s.mgmt.randoms ≠ 0 → t.mgmt.idKey = s.mgmt.idKey)) ∧
  (∀ s : State, Answers (exec .modulePowerRemoval s) fun t => t.mgmt.power = false ∧ t.mgmt.keyGone = false ∧ t.mem = [] ∧
    t.cores = [] ∧ t.parts = [] ∧ t.warps = [] ∧ t.mgmt.idKey = s.mgmt.idKey)

/-- A running collective whose chunk is to be stepped, none of it read or written yet (12 R288, R289). -/
structure Sys2Proof.Claims.Steps (id chunk : Nat) (x : Coll) (s : State) : Prop where
  live : Live s
  found : s.colls.find? (fun x => x.id == id) = some x
  running : x.running = true ∧ x.ends = none
  fresh : chunk ∉ x.chunks ∧ chunk < collChunks x.desc ∧ mget? x.work chunk = none
  linked : collDown s x = false
  ring : 2 ≤ cNdev x.desc ∧ cNdev x.desc ≤ 16 ∧ s.mgmt.fabid.toNat < cNdev x.desc
  bytes : cFmt x.desc ≠ 3 ∧ 0 < collBytes x.desc
/-- The chunk is done, and goes to the next device. -/
def Stepped (id chunk : Nat) (x : Coll) (s t : State) : Prop :=
  (∃ y ∈ t.colls, y.id = id ∧ y.chunks = x.chunks ++ [chunk] ∧ y.issued = s.now) ∧ ∃ sent, .collSend id chunk sent ∈ t.out
/-- The transfer type of a collective (12 R287). -/
def Sys2Proof.Claims.transferType (d : BitVec 256) : Nat := match cFmt d with | 0 => 12 | 1 => 11 | _ => 14
/-- One hop of 12 R288: the partial result and the next device's element, widened exactly to F32, are added, or the greater one stays, +0
before -0 and a NaN canonical; the result is rounded to the transfer type. -/
def Hops (d : BitVec 256) (p x r : Nat) : Prop :=
  let own := transferType d
  let widened := fun (v w : Nat) => if own = 12 then w = v else
    Yields 12 0 false false (rescaled (layout own).low (layout 12).low (readNum own false v)) w
  ∃ a b c, widened p a ∧ widened x b ∧
    (if cRed d = false then Yields 12 0 false false (sumOf 0 (readNum 12 false a) (readNum 12 false b)) c
      else c = if isNaN (layout 12) a || isNaN (layout 12) b then (layout 12).nan
        else if codeKey (layout 12) a ≤ codeKey (layout 12) b then b else a) ∧
    if own = 12 then r = c else Yields own 0 false false (rescaled (layout 12).low (layout own).low (readNum 12 false c)) r
/-- An element of a reducing collective: the hops from the first device's element over the others' (12 R288). -/
def Reduced (d : BitVec 256) (x : Nat → Nat) (r : Nat) : Prop :=
  ∃ p : Nat → Nat, p 0 = x 0 ∧ (∀ h, h + 1 < cNdev d → Hops d (p h) (x (h + 1)) (p (h + 1))) ∧ r = p (cNdev d - 1)

/-- What the host, peers and drives do to memory where nothing makes them wait: writes, reads, atomics of the host, its held reads that time
out, stores of peers, accesses of drives, the refused ones with a record (12 R270, R271, R279, R286). The collective engine: the
chunks that reduce, with the value of each element, and those that forward a device's bytes, each within a page, the end of a
collective, also for want of progress or of a link (12 R285, R287 to R289). -/
def Obligations.OutsideAccessesComplete : Prop :=
  (∀ (s s1 : State) (n : Nat) (va : W64) (bs : List Byte), s.mgmt.power = true → s.bar2 n = true → s.hostBehind n = false →
    devWrite s n 5 va.toNat bs = .done s1 →
    Answers (exec (.hostBar2Write n va bs) s) fun t => t.mem = s1.mem ∧ t.out = s1.out ∧ t.deferred = s1.deferred ∧ t.parts = s1.parts) ∧
  (∀ (s s1 : State) (n len : Nat) (va : W64) (ps : List (Nat × Nat × Nat)), s.mgmt.power = true → s.bar2 n = true →
    s.hostBehind n = false → unitPieces n .r (piecesOf va.toNat len) s.bump = (.ok, ps, s1) →
    let pas := (ps.flatMap fun p => span p.1 p.2.2).filter fun a => a < memEnd
    let u := s1.acquireTags 96 6 [] pas
    pas.find? u.poisoned = none →
    Answers (exec (.hostBar2Read n va len) s) fun t => t.mem = u.mem ∧ t.out = u.out ++ [.hostReadDone s.nextId
      (some (ps.flatMap fun p => (List.range p.2.2).map fun i => loadByte u (p.2.1 + i) (p.1 + i)))]) ∧
  (∀ (s : State) (n len : Nat) (va : W64) (op : HostAtom) (cmp val : BitVec 128), s.mgmt.power = true →
    (s.bar2 n = false ∨ hostAtomOk op va len = false → Answers (exec (.hostAtomicop n va op len cmp val) s) fun t =>
      t.mem = s.mem ∧ t.out = s.out ++ [.hostAtomicDone none]) ∧
    (∀ s1 old, s.bar2 n = true → hostAtomOk op va len = true → s.hostBehind n = false →
      devAtomic s n 5 va.toNat (hostAtomCode op) len
        (if op = .cas then leBytes len cmp.toNat ++ leBytes len val.toNat else leBytes len val.toNat) = .done s1 old →
      Answers (exec (.hostAtomicop n va op len cmp val) s) fun t => t.mem = s1.mem ∧ t.out = s1.out ++ [.hostAtomicDone (some old)])) ∧
  (∀ (s : State) (id : Nat) (r : HostRead), Live s → s.hostReads.find? (fun r => r.id == id) = some r → r.since + 2 ^ 26 ≤ s.now →
    r.peer = none → Answers (exec (.hostReadTimeout id) s) fun t => t.hostReads = s.hostReads.filter (fun x => x.id != id) ∧
      t.out = s.out ++ [.hostReadDone r.id none] ∧ t.mem = s.mem) ∧
  (∀ (s s1 : State) (port issuer n : Nat) (tag : BitVec 16) (ofs : W64) (bs : List Byte), Live s → port < 12 →
    s.mgmt.peerMask.getLsbD port = true → s.mgmt.peersDown.contains port = false → tagParts s tag = [n] → issuer < 16 →
    (s.part n).pgrant.getLsbD issuer = true →
    devWrite s n 6 (((s.part n).pvb * 2 ^ 41 + ofs.toNat % 2 ^ 41) % 2 ^ 48) bs = .done s1 →
    Answers (exec (.peerAccess port issuer tag ofs (.store bs)) s) fun t => t.mem = s1.mem ∧
      t.out = s1.out ++ [.peerReply issuer (some [])]) ∧
  (∀ (s : State) (d pa : Nat) (bs : List Byte), Live s → d < 8 →
    (pa + bs.length ≤ memEnd → (s.part (s.drive d).part).inFrame pa bs.length = true →
      Answers (exec (.driveDma d true pa bs) s) (fun t => t.mem = (s.wrBytes pa bs).mem) ∧
      Answers (exec (.driveDma d false pa bs) s) fun t => t = s.useFree) ∧
    (¬ (pa + bs.length ≤ memEnd ∧ (s.part (s.drive d).part).inFrame pa bs.length = true) → fltRingOk s (s.drive d).part = false →
      Answers (exec (.driveDma d true pa bs) s) fun t => t.mem = s.mem ∧
        (t.part (s.drive d).part).fltstat = (s.part (s.drive d).part).fltstat + 1)) ∧
  (∀ (s s1 : State) (id chunk : Nat) (peers : List (List Byte)) (x : Coll) (bs : List Byte), Steps id chunk x s → cOp x.desc ≤ 1 →
    let d := x.desc
    let me := s.mgmt.fabid.toNat
    let len := collBytes d
    let src := cSrc d + chunk * len
    let dst := if cOp d = 1 then cDst d else cDst d + chunk * len
    let u := s1.modColl id fun z => { z with work := mput z.work chunk ((z.at chunk).1 ++ bs, (z.at chunk).2) }
    (∀ i, i < cNdev d → i ≠ me → (nth [] peers i).length = len) → src % 4096 + len ≤ 4096 → dst % 4096 + len ≤ 4096 →
    unitRead s x.part src len = (.ok, bs, s1) →
    (cOp d = 1 → chunk ≠ me → Answers (exec (.collStep id chunk peers) s) fun t => t.mem = s1.mem ∧ Stepped id chunk x s t) ∧
    ((cOp d = 1 → chunk = me) → ∃ out : List Byte, out.length = len ∧
      (∀ i, i < cLen d → Reduced d (fun h => let dev := (chunk + 1 + h) % cNdev d
        collElem d (if dev = me then bs else nth [] peers dev) i) (collElem d out i)) ∧
      ∀ s2, devWrite u x.part 7 dst out = .done s2 → Answers (exec (.collStep id chunk peers) s) fun t =>
        t.mem = s2.mem ∧ Stepped id chunk x s t)) ∧
  (∀ (s : State) (id chunk : Nat) (peers : List (List Byte)) (x : Coll), Steps id chunk x s → 2 ≤ cOp x.desc →
    let d := x.desc
    let me := s.mgmt.fabid.toNat
    let len := collBytes d
    let from_ := if cOp d = 3 then cRoot d else chunk
    let dst := if cOp d = 3 then cDst d else cDst d + chunk * len
    dst % 4096 + len ≤ 4096 → from_ < 16 →
    (∀ s1 s2 bs, from_ = me → cSrc d % 4096 + len ≤ 4096 → unitRead s x.part (cSrc d) len = (.ok, bs, s1) →
      devWrite (s1.modColl id fun z => { z with work := mput z.work chunk ((z.at chunk).1 ++ bs, (z.at chunk).2) }) x.part 7 dst bs = .done s2 →
      Answers (exec (.collStep id chunk peers) s) fun t => t.mem = s2.mem ∧ Stepped id chunk x s t ∧
        t.out = s2.out ++ [.collSend id chunk bs]) ∧
    (∀ s2, from_ ≠ me → (nth [] peers from_).length = len → devWrite s x.part 7 dst (nth [] peers from_) = .done s2 →
      Answers (exec (.collStep id chunk peers) s) fun t => t.mem = s2.mem ∧ Stepped id chunk x s t)) ∧
  (∀ (s : State) (id c w : Nat) (x : Coll), Live s → s.colls.find? (fun x => x.id == id) = some x →
    cStat x.desc = 0 → x.agent = .warp c w → (s.warp? c w).isSome = true → x.ends = none →
    let ended := fun (t : State) => (∀ y ∈ t.colls, y.id ≠ id) ∧ (t.warp c w).tok x.tok = (s.warp c w).tok x.tok - 1 ∧
      .groupRetire (s.warp c w).gid ∈ t.agenda
    let freed := (collScramble id x.part ((piecesOf (cDst x.desc) (cDstBytes x.desc)).filter fun p => x.freed < p.2.1 + p.2.2) s).1 = true
    (x.running = true → x.chunks.length = collChunks x.desc → x.raced = false → Answers (exec (.collComplete id 0) s) ended) ∧
    (x.running = true → x.issued + 2 ^ 31 ≤ s.now → freed → Answers (exec (.collTimeout id) s) ended) ∧
    (collDown s x = true → freed → Answers (exec (.collComplete id 2) s) ended))
/-- After reset the registers hold the values of their tables (01 R29; 07 R172; 08 R192; 10 R220, R227, R231, R234, R241; 11 R251; 12 R273,
R274, R276, R277, R290, R294), every tile is free (04 R84), every ticket entry is FREE in generation 1 (08 R189), the next FID is 1
(10 R232), no agent stands anywhere, and bring-up stands to happen (12 R295). -/
def Obligations.ResetValues : Prop :=
  (∀ n ofs, ofs ∈ [0x10, 0x18, 0x20, 0x58, 0x60, 0x88, 0x90, 0xA0, 0xA8, 0xB0, 0xB8, 0x100, 0x138, 0x178] →
    partReg State.reset n ofs = 0) ∧
  (∀ n, partReg State.reset n 0x48 = 20 ∧ partReg State.reset n 0x50 = 64 ∧ partReg State.reset n 0x08 = BitVec.ofNat 64 n ∧
    ∀ ch, ch < 4 → partReg State.reset n (0x240 + 16 * ch) = BitVec.twoPow 64 63 ∧ partReg State.reset n (0x248 + 16 * ch) = 0) ∧
  (∀ ofs, ofs ∈ [0x08, 0x18, 0x20, 0x28, 0x40, 0x810, 0x1000, 0x1018, 0x1020, 0x1F00, 0x4000] → mgmtReg State.reset ofs = 0) ∧
  mgmtReg State.reset 0x00 = 0x00000040080C4060#64 ∧ mgmtReg State.reset 0x30 = 3000 ∧ mgmtReg State.reset 0x1030 = 64 ∧
  (∀ c tile, ((State.reset.core c).owner tile).word (State.reset.pendTo c tile) = 0x1FFF8000#32) ∧
  (∀ k, (State.reset.ticket k).st = .free ∧ (State.reset.ticket k).gen = 1) ∧ (∀ n, (State.reset.part n).fid = 1) ∧
  State.reset.warps = [] ∧ State.reset.ctxs = [] ∧ State.reset.groups = [] ∧ State.reset.now = 0 ∧ State.reset.agenda = [.bringUp]

/-- FABID keeps four bits, FABROUTE all; a device has a route where its field names a port that is present and it is not this device; without
one it is not reached (12 R284). A value that a capture unit takes updates MIN, MAX, COUNT and one bin, which saturate, and nothing but the
unit (12 R291). That MIN starts again after a clear is DEDUCED, log 6. -/
def Obligations.RoutesAndMonitors : Prop :=
  (∀ (s : State) (v : W64), s.mgmt.power = true →
    Answers (exec (.registerWrite 0 0x20 v) s) (fun t => mgmtReg t 0x20 = v &&& 0xF#64 ∧ t.mem = s.mem ∧ t.cores = s.cores) ∧
    Answers (exec (.registerWrite 0 0x28 v) s) fun t => mgmtReg t 0x28 = v ∧ t.mem = s.mem ∧ t.cores = s.cores) ∧
  mgmtReg State.reset 0x20 = 0 ∧ mgmtReg State.reset 0x28 = 0 ∧
  (∀ (s : State) (d : Nat), d < 16 → s.route d =
    if mgmtReg s 0x28 >>> (4 * d) &&& 0xF#64 < 12#64 ∧ s.mgmt.peerMask.getLsbD (mgmtReg s 0x28 >>> (4 * d) &&& 0xF#64).toNat = true ∧
      d ≠ s.mgmt.fabid.toNat then some (mgmtReg s 0x28 >>> (4 * d) &&& 0xF#64).toNat else none) ∧
  (∀ (s : State) (pa d o : Nat), regionOf pa = .peer d o → s.route d = none → s.peerFails pa = true) ∧
  (∀ (m : Mon) (v b : Nat), b < 16 →
    mget 0 (m.take v).live 2 = (mget 0 m.live 2 + 1) % 2 ^ 64 ∧
    mget 0 (m.take v).live 1 = max (mget 0 m.live 1) (min v (2 ^ 32 - 1)) ∧
    (mget 0 m.live 2 ≠ 0 → mget 0 (m.take v).live 0 = min (mget 0 m.live 0) (min v (2 ^ 32 - 1))) ∧
    (mget 0 m.live 2 = 0 → mget 0 (m.take v).live 0 = min v (2 ^ 32 - 1)) ∧
    mget 0 (m.take v).live (16 + b) =
      (if (b = 0 ∧ v < 2) ∨ (1 ≤ b ∧ b ≤ 14 ∧ 2 ^ b ≤ v ∧ v < 2 ^ (b + 1)) ∨ (b = 15 ∧ 2 ^ 15 ≤ v) then
        min (mget 0 m.live (16 + b) + 1) (2 ^ 32 - 1) else mget 0 m.live (16 + b))) ∧
  (∀ (s : State) (die event n unit v : Nat), { s.monitor die event n unit v with mons := s.mons } = s)

/-- The memory after reset has its canonical form. That device memory is a list of nonzero bytes is the model's choice. -/
def Obligations.InvariantAtReset : Prop := State.reset.Inv

/-- The state in which a warp, or a context, fetches: it is the issuer, and its quarter or sequencer has issued in this cycle. -/
def Sys2Proof.Claims.warpIssues (s : State) (c w : Nat) : State :=
  { s with cur := .warp c w, turn := .none, issued := insertNat (5 * c + w / 16) s.issued }
def Sys2Proof.Claims.ctxIssues (s : State) (c k : Nat) : State := { s with cur := .ctx c k, turn := .none }

/-- No result is due, no copy's time has come and no lease window ends in this cycle (02 R51; 07 R167; 08 R191). -/
structure Sys2Proof.Claims.Undisturbed (s : State) : Prop where
  live : Live s
  land : landingCore s = none
  due : (startingCopy s).or (endingLease s) = none

/-- A step runs what comes next: the instruction that the bytes at the first entry's pc decode to, where an odd word is no literal of a
pair (03 R62, R71; 13 R300; 10 R225), the bundle at a context's position or the one operation that stands in it (05 R92, R99), the first
event that stands to happen. Which unit has the turn is DESIGN CHOICE, log 1. -/
def Obligations.StepRunsDecoded : Prop :=
  (∀ (s t : State) (i : Instr), nextMove s = .run i t → step s = exec i t) ∧
  (∀ (s u : State) (c w pa : Nat) (leaf : W64) (tl : TlbE) (e : Entry) (i : Instr), Undisturbed s →
    s.turn = .warp c w → (s.warp c w).first = some e → pa < memEnd → (span (pa / 16 * 16) 16).any s.poisoned = false →
    let n := s.partOf (s.warp c w).gid
    let x := s.rd64 pa
    (e.pc.getLsbD 3 = false → xlate (warpIssues s c w) c n e.pc.toNat .x = (.ok pa leaf tl, u) →
      decode x (if longOpc x then s.rd64 (pa + 8) else 0) = .ok i → step s = exec i u) ∧
    (∀ pa0 leaf0 tl0 u0, e.pc.getLsbD 3 = true → xlate (warpIssues s c w) c n (e.pc.toNat - 8) .r = (.ok pa0 leaf0 tl0, u0) → pa0 < memEnd →
      longOpc (u0.rd64 pa0) = false → xlate u0 c n e.pc.toNat .x = (.ok pa leaf tl, u) → longOpc x = false → decode x 0 = .ok i →
      step s = exec i u) ∧
    (e.pc.getLsbD 3 = true → xlate (warpIssues s c w) c n (e.pc.toNat - 8) .r = (.ok pa leaf tl, u) → longOpc (u.rd64 pa) = true →
      step s = exec .branchIntoLiteral u)) ∧
  (∀ (s u : State) (c k x next : Nat), Undisturbed s → s.turn = .ctx c k → (s.ctx c k).bound = true →
    ctxFetch (ctxIssues s c k) c k = .bundle x next u →
    let u1 := { u with issued := insertNat (5 * c + 4) u.issued }
    (soleOp x = none → step s =
      exec (.bundle (bundleWord x 0) (bundleWord x 1) (bundleWord x 2) (bundleWord x 3) (bundleWord x 4) (bundleWord x 5)) u1) ∧
    (∀ i, soleOp x = some i → (∀ c k, i ≠ .codeFillComplete c k) → step s = exec i u1)) ∧
  (∀ (s : State) (e : Instr) (l : List Instr), Undisturbed s → s.turn = .none → s.choices = [] → s.agenda = e :: l →
    step s = exec e { s with agenda := l, cur := .none })

/-- Words whose fields the spec writes out: IADD, LD, ATOM, FFMA, CVT, BRA, SHFL, LDT, GIVE, MMA, TCVT, HREL (13 R302, R304, R311;
15 to 18). -/
def Obligations.SpecWordsDecode : Prop :=
  decodeTableWord 64 0x005C140408423001 = some (.iadd ⟨false, 7, 0x3001⟩ ⟨5, 1, 2, 0x10, 2⟩) ∧
  decodeTableWord 64 0x811C2008C0908000 = some (.ld ⟨false, 7, 0x8000⟩ 4 ⟨8, 2, 1, 4, 0, 1, 4, 0⟩) ∧
  decodeTableWord 64 0x8C1C200811300000 = some (.atom ⟨false, 7, 0⟩ 0 ⟨8, 2, 4, 2, 3, 0, false⟩) ∧
  decodeTableWord 64 0x281C2804080C3000 = some (.ffma ⟨false, 7, 0x3000⟩ 0 ⟨10, 1, 2, 3, 0⟩) ∧
  decodeTableWord 64 0x401C1C1981640000 = some (.cvt ⟨false, 7, 0⟩ ⟨7, 6, 12, false, 11, false, 1, false⟩) ∧
  decodeTableWord 64 0xC040000800030000 = some (.bra ⟨false, 0, 0⟩ ⟨2, 3⟩) ∧
  decodeTableWord 64 0x621C1C18080E0000 = some (.shfl ⟨false, 7, 0⟩ ⟨7, 6, 2, 0, 3, 2⟩) ∧
  decodeTableWord 64 0x8B9C102001050000 = some (.ldt ⟨false, 7, 0⟩ ⟨4, 8, 0, 2, 1, 1⟩) ∧
  decodeTableWord 64 0xA2DC000000400000 = some (.give ⟨false, 7, 0⟩ ⟨0, 0, 0, false, 0x40⟩) ∧
  decodeTableWord 64 0xE01C54B006404000 = some (.mma ⟨false, 7, 0x4000⟩ ⟨5, 300, 0, 0, 400, false, false⟩) ∧
  decodeTableWord 64 0xE29C064036684000 = some (.tcvt ⟨false, 7, 0x4000⟩ ⟨0, 400, 3, 410, false, false⟩) ∧
  decodeTableWord 64 0xE91C020000004000 = some (.hrel ⟨false, 7, 0x4000⟩ ⟨0, 2, 0, 0, 0⟩) ∧
  decodeTableWord 64 0 = none

/-- Decoding and encoding agree: the words of every assigned instruction decode to it, with every operand at every value of its field, and
the second word of an instruction of one word says nothing (13 R296, R300, R301, R308 to R310, R314; 05 R92). -/
def Obligations.EncodingRoundTrip : Prop :=
  (∀ (i : Instr) (w : W64), i.assigned = true → encode i = [w] → ∀ l, decode w l = .ok i) ∧
  (∀ (i : Instr) (w l : W64), i.assigned = true → encode i = [w, l] → decode w l = .ok i ∧ longOpc w = true) ∧
  (∀ hd m v l x c, decodeBundle (encode (.bundle hd m v l x c)) = some (.bundle hd m v l x c))

/-- The other direction: a word that decodes is the encoding of what it decodes to, so no bit of it is dropped and no reserved bit is
passed over (13 R299, R301, R308 to R310, R314, R315). -/
def Obligations.DecodedWordsEncode : Prop :=
  ∀ (w l : W64) (i : Instr), decode w l = .ok i → i.assigned = true ∧ encode i = if longOpc w then [w, l] else [w]

/-- Every step keeps the canonical form of device memory: its nonzero bytes, listed once in rising order of address. -/
def Obligations.InvariantKept : Prop := ∀ s t : State, s.Inv → step s = .next t → t.Inv
end
end

