-- ==== Sys2Proof/Laws/Maps.lean ====
section
/-! SUPPORT. Laws of the tables keyed by numbers. -/

namespace Sys2Proof.Machine

variable {α : Type}

@[simp] theorem mget_put_same (d : α) (m : List (Nat × α)) (n : Nat) (x : α) : mget d (mput m n x) n = x := by
  induction m with
  | nil => simp [mput, mget]
  | cons h t ih =>
    unfold mput
    split
    · simp [mget]
    · split
      · simp [mget]
      · next h1 _ => simp [mget, h1, ih]

theorem mget_put_ne (d : α) (m : List (Nat × α)) {n k : Nat} (x : α) (h : n ≠ k) : mget d (mput m n x) k = mget d m k := by
  induction m with
  | nil => simp [mput, mget, h]
  | cons a t ih =>
    unfold mput
    split
    · next he => subst he; simp [mget, h]
    · split
      · simp [mget, h]
      · by_cases hk : a.1 = k <;> simp [mget, hk, ih]

@[simp] theorem mget?_put_same (m : List (Nat × α)) (n : Nat) (x : α) : mget? (mput m n x) n = some x := by
  induction m with
  | nil => simp [mput, mget?]
  | cons h t ih =>
    unfold mput
    split
    · simp [mget?]
    · split
      · simp [mget?]
      · next h1 _ => simp [mget?, h1, ih]

theorem mget?_put_ne (m : List (Nat × α)) {n k : Nat} (x : α) (h : n ≠ k) : mget? (mput m n x) k = mget? m k := by
  induction m with
  | nil => simp [mput, mget?, h]
  | cons a t ih =>
    unfold mput
    split
    · next he => subst he; simp [mget?, h]
    · split
      · simp [mget?, h]
      · by_cases hk : a.1 = k <;> simp [mget?, hk, ih]

theorem mget_eq_of_mget? (d : α) {m : List (Nat × α)} {n : Nat} {x : α} (h : mget? m n = some x) : mget d m n = x := by
  induction m with
  | nil => simp [mget?] at h
  | cons a t ih =>
    by_cases hk : a.1 = n
    · simp_all [mget?, mget]
    · simp_all [mget?, mget]

@[simp] theorem mget_del_same (d : α) (m : List (Nat × α)) (n : Nat) : mget d (mdel m n) n = d := by
  induction m with
  | nil => simp [mdel, mget]
  | cons a t ih => by_cases hk : a.1 = n <;> simp [mdel, mget, hk, ih]

theorem mget_del_ne (d : α) (m : List (Nat × α)) {n k : Nat} (h : n ≠ k) : mget d (mdel m n) k = mget d m k := by
  induction m with
  | nil => simp [mdel, mget]
  | cons a t ih =>
    by_cases hn : a.1 = n
    · have hk : ¬ a.1 = k := fun e => h (hn ▸ e)
      simp [mdel, mget, hn, h, ih]
    · by_cases hk : a.1 = k
      · have hkn : ¬ k = n := fun e => h e.symm
        simp [mdel, mget, hk, hkn]
      · simp [mdel, mget, hn, hk, ih]

/-- Reading back what a table that omits defaults was given. -/
@[simp] theorem mget_set_same [DecidableEq α] (d : α) (m : List (Nat × α)) (n : Nat) (x : α) : mget d (mset d m n x) n = x := by
  unfold mset
  split
  · next h => simp [h]
  · simp

theorem mget_set_ne [DecidableEq α] (d : α) (m : List (Nat × α)) {n k : Nat} (x : α) (h : n ≠ k) :
    mget d (mset d m n x) k = mget d m k := by
  unfold mset
  split
  · exact mget_del_ne d m h
  · exact mget_put_ne d m x h

theorem mem_of_mem_del {m : List (Nat × α)} {n : Nat} {c : Nat × α} (h : c ∈ mdel m n) : c ∈ m := by
  induction m with
  | nil => simp [mdel] at h
  | cons a t ih =>
    unfold mdel at h
    split at h
    · exact List.mem_cons_of_mem _ (ih h)
    · rcases List.mem_cons.mp h with h | h
      · simp [h]
      · exact List.mem_cons_of_mem _ (ih h)

theorem mem_of_mem_put {m : List (Nat × α)} {n : Nat} {x : α} {c : Nat × α} (h : c ∈ mput m n x) : c = (n, x) ∨ c ∈ m := by
  induction m with
  | nil => simpa [mput] using h
  | cons a t ih =>
    unfold mput at h
    split at h
    · rcases List.mem_cons.mp h with h | h
      · exact .inl h
      · exact .inr (List.mem_cons_of_mem _ h)
    · split at h
      · rcases List.mem_cons.mp h with h | h
        · exact .inl h
        · exact .inr h
      · rcases List.mem_cons.mp h with h | h
        · exact .inr (by simp [h])
        · rcases ih h with h | h
          · exact .inl h
          · exact .inr (List.mem_cons_of_mem _ h)

end Sys2Proof.Machine
end

