-- ==== Sys2Proof/Laws/State.lean ====
section
/-! SUPPORT. What each update of the state does to each field. -/

namespace Sys2Proof.Machine

@[simp] theorem State.setCore_now (s : State) (c : Nat) (k : Core) : (s.setCore c k).now = s.now := rfl
@[simp] theorem State.setCore_mem (s : State) (c : Nat) (k : Core) : (s.setCore c k).mem = s.mem := rfl
@[simp] theorem State.setCore_poison (s : State) (c : Nat) (k : Core) : (s.setCore c k).poison = s.poison := rfl
@[simp] theorem State.setCore_tags (s : State) (c : Nat) (k : Core) : (s.setCore c k).tags = s.tags := rfl
@[simp] theorem State.setCore_cores (s : State) (c : Nat) (k : Core) : (s.setCore c k).cores = mput s.cores c k := rfl
@[simp] theorem State.setCore_warps (s : State) (c : Nat) (k : Core) : (s.setCore c k).warps = s.warps := rfl
@[simp] theorem State.setCore_ctxs (s : State) (c : Nat) (k : Core) : (s.setCore c k).ctxs = s.ctxs := rfl
@[simp] theorem State.setCore_groups (s : State) (c : Nat) (k : Core) : (s.setCore c k).groups = s.groups := rfl
@[simp] theorem State.setCore_clusters (s : State) (c : Nat) (k : Core) : (s.setCore c k).clusters = s.clusters := rfl
@[simp] theorem State.setCore_grids (s : State) (c : Nat) (k : Core) : (s.setCore c k).grids = s.grids := rfl
@[simp] theorem State.setCore_parts (s : State) (c : Nat) (k : Core) : (s.setCore c k).parts = s.parts := rfl
@[simp] theorem State.setCore_stlbs (s : State) (c : Nat) (k : Core) : (s.setCore c k).stlbs = s.stlbs := rfl
@[simp] theorem State.setCore_tickets (s : State) (c : Nat) (k : Core) : (s.setCore c k).tickets = s.tickets := rfl
@[simp] theorem State.setCore_tkreqs (s : State) (c : Nat) (k : Core) : (s.setCore c k).tkreqs = s.tkreqs := rfl
@[simp] theorem State.setCore_ldtWaits (s : State) (c : Nat) (k : Core) : (s.setCore c k).ldtWaits = s.ldtWaits := rfl
@[simp] theorem State.setCore_ringWaits (s : State) (c : Nat) (k : Core) : (s.setCore c k).ringWaits = s.ringWaits := rfl
@[simp] theorem State.setCore_inflight (s : State) (c : Nat) (k : Core) : (s.setCore c k).inflight = s.inflight := rfl
@[simp] theorem State.setCore_pagerQueue (s : State) (c : Nat) (k : Core) : (s.setCore c k).pagerQueue = s.pagerQueue := rfl
@[simp] theorem State.setCore_drives (s : State) (c : Nat) (k : Core) : (s.setCore c k).drives = s.drives := rfl
@[simp] theorem State.setCore_shoots (s : State) (c : Nat) (k : Core) : (s.setCore c k).shoots = s.shoots := rfl
@[simp] theorem State.setCore_colls (s : State) (c : Nat) (k : Core) : (s.setCore c k).colls = s.colls := rfl
@[simp] theorem State.setCore_hostReads (s : State) (c : Nat) (k : Core) : (s.setCore c k).hostReads = s.hostReads := rfl
@[simp] theorem State.setCore_deferred (s : State) (c : Nat) (k : Core) : (s.setCore c k).deferred = s.deferred := rfl
@[simp] theorem State.setCore_refuse (s : State) (c : Nat) (k : Core) : (s.setCore c k).refuse = s.refuse := rfl
@[simp] theorem State.setCore_recWaits (s : State) (c : Nat) (k : Core) : (s.setCore c k).recWaits = s.recWaits := rfl
@[simp] theorem State.setCore_mons (s : State) (c : Nat) (k : Core) : (s.setCore c k).mons = s.mons := rfl
@[simp] theorem State.setCore_msix (s : State) (c : Nat) (k : Core) : (s.setCore c k).msix = s.msix := rfl
@[simp] theorem State.setCore_pba (s : State) (c : Nat) (k : Core) : (s.setCore c k).pba = s.pba := rfl
@[simp] theorem State.setCore_mgmt (s : State) (c : Nat) (k : Core) : (s.setCore c k).mgmt = s.mgmt := rfl
@[simp] theorem State.setCore_out (s : State) (c : Nat) (k : Core) : (s.setCore c k).out = s.out := rfl
@[simp] theorem State.setCore_agenda (s : State) (c : Nat) (k : Core) : (s.setCore c k).agenda = s.agenda := rfl
@[simp] theorem State.setCore_choices (s : State) (c : Nat) (k : Core) : (s.setCore c k).choices = s.choices := rfl
@[simp] theorem State.setCore_turn (s : State) (c : Nat) (k : Core) : (s.setCore c k).turn = s.turn := rfl
@[simp] theorem State.setCore_cur (s : State) (c : Nat) (k : Core) : (s.setCore c k).cur = s.cur := rfl
@[simp] theorem State.setCore_freeCtr (s : State) (c : Nat) (k : Core) : (s.setCore c k).freeCtr = s.freeCtr := rfl
@[simp] theorem State.setCore_nextId (s : State) (c : Nat) (k : Core) : (s.setCore c k).nextId = s.nextId := rfl
@[simp] theorem State.setCore_issued (s : State) (c : Nat) (k : Core) : (s.setCore c k).issued = s.issued := rfl

@[simp] theorem State.setWarp_now (s : State) (c w : Nat) (x : Warp) : (s.setWarp c w x).now = s.now := rfl
@[simp] theorem State.setWarp_mem (s : State) (c w : Nat) (x : Warp) : (s.setWarp c w x).mem = s.mem := rfl
@[simp] theorem State.setWarp_poison (s : State) (c w : Nat) (x : Warp) : (s.setWarp c w x).poison = s.poison := rfl
@[simp] theorem State.setWarp_tags (s : State) (c w : Nat) (x : Warp) : (s.setWarp c w x).tags = s.tags := rfl
@[simp] theorem State.setWarp_cores (s : State) (c w : Nat) (x : Warp) : (s.setWarp c w x).cores = s.cores := rfl
@[simp] theorem State.setWarp_warps (s : State) (c w : Nat) (x : Warp) : (s.setWarp c w x).warps = mput s.warps (wkey c w) x := rfl
@[simp] theorem State.setWarp_ctxs (s : State) (c w : Nat) (x : Warp) : (s.setWarp c w x).ctxs = s.ctxs := rfl
@[simp] theorem State.setWarp_groups (s : State) (c w : Nat) (x : Warp) : (s.setWarp c w x).groups = s.groups := rfl
@[simp] theorem State.setWarp_clusters (s : State) (c w : Nat) (x : Warp) : (s.setWarp c w x).clusters = s.clusters := rfl
@[simp] theorem State.setWarp_grids (s : State) (c w : Nat) (x : Warp) : (s.setWarp c w x).grids = s.grids := rfl
@[simp] theorem State.setWarp_parts (s : State) (c w : Nat) (x : Warp) : (s.setWarp c w x).parts = s.parts := rfl
@[simp] theorem State.setWarp_stlbs (s : State) (c w : Nat) (x : Warp) : (s.setWarp c w x).stlbs = s.stlbs := rfl
@[simp] theorem State.setWarp_tickets (s : State) (c w : Nat) (x : Warp) : (s.setWarp c w x).tickets = s.tickets := rfl
@[simp] theorem State.setWarp_tkreqs (s : State) (c w : Nat) (x : Warp) : (s.setWarp c w x).tkreqs = s.tkreqs := rfl
@[simp] theorem State.setWarp_ldtWaits (s : State) (c w : Nat) (x : Warp) : (s.setWarp c w x).ldtWaits = s.ldtWaits := rfl
@[simp] theorem State.setWarp_ringWaits (s : State) (c w : Nat) (x : Warp) : (s.setWarp c w x).ringWaits = s.ringWaits := rfl
@[simp] theorem State.setWarp_inflight (s : State) (c w : Nat) (x : Warp) : (s.setWarp c w x).inflight = s.inflight := rfl
@[simp] theorem State.setWarp_pagerQueue (s : State) (c w : Nat) (x : Warp) : (s.setWarp c w x).pagerQueue = s.pagerQueue := rfl
@[simp] theorem State.setWarp_drives (s : State) (c w : Nat) (x : Warp) : (s.setWarp c w x).drives = s.drives := rfl
@[simp] theorem State.setWarp_shoots (s : State) (c w : Nat) (x : Warp) : (s.setWarp c w x).shoots = s.shoots := rfl
@[simp] theorem State.setWarp_colls (s : State) (c w : Nat) (x : Warp) : (s.setWarp c w x).colls = s.colls := rfl
@[simp] theorem State.setWarp_hostReads (s : State) (c w : Nat) (x : Warp) : (s.setWarp c w x).hostReads = s.hostReads := rfl
@[simp] theorem State.setWarp_deferred (s : State) (c w : Nat) (x : Warp) : (s.setWarp c w x).deferred = s.deferred := rfl
@[simp] theorem State.setWarp_refuse (s : State) (c w : Nat) (x : Warp) : (s.setWarp c w x).refuse = s.refuse := rfl
@[simp] theorem State.setWarp_recWaits (s : State) (c w : Nat) (x : Warp) : (s.setWarp c w x).recWaits = s.recWaits := rfl
@[simp] theorem State.setWarp_mons (s : State) (c w : Nat) (x : Warp) : (s.setWarp c w x).mons = s.mons := rfl
@[simp] theorem State.setWarp_msix (s : State) (c w : Nat) (x : Warp) : (s.setWarp c w x).msix = s.msix := rfl
@[simp] theorem State.setWarp_pba (s : State) (c w : Nat) (x : Warp) : (s.setWarp c w x).pba = s.pba := rfl
@[simp] theorem State.setWarp_mgmt (s : State) (c w : Nat) (x : Warp) : (s.setWarp c w x).mgmt = s.mgmt := rfl
@[simp] theorem State.setWarp_out (s : State) (c w : Nat) (x : Warp) : (s.setWarp c w x).out = s.out := rfl
@[simp] theorem State.setWarp_agenda (s : State) (c w : Nat) (x : Warp) : (s.setWarp c w x).agenda = s.agenda := rfl
@[simp] theorem State.setWarp_choices (s : State) (c w : Nat) (x : Warp) : (s.setWarp c w x).choices = s.choices := rfl
@[simp] theorem State.setWarp_turn (s : State) (c w : Nat) (x : Warp) : (s.setWarp c w x).turn = s.turn := rfl
@[simp] theorem State.setWarp_cur (s : State) (c w : Nat) (x : Warp) : (s.setWarp c w x).cur = s.cur := rfl
@[simp] theorem State.setWarp_freeCtr (s : State) (c w : Nat) (x : Warp) : (s.setWarp c w x).freeCtr = s.freeCtr := rfl
@[simp] theorem State.setWarp_nextId (s : State) (c w : Nat) (x : Warp) : (s.setWarp c w x).nextId = s.nextId := rfl
@[simp] theorem State.setWarp_issued (s : State) (c w : Nat) (x : Warp) : (s.setWarp c w x).issued = s.issued := rfl

@[simp] theorem State.delWarp_now (s : State) (c w : Nat) : (s.delWarp c w).now = s.now := rfl
@[simp] theorem State.delWarp_mem (s : State) (c w : Nat) : (s.delWarp c w).mem = s.mem := rfl
@[simp] theorem State.delWarp_poison (s : State) (c w : Nat) : (s.delWarp c w).poison = s.poison := rfl
@[simp] theorem State.delWarp_tags (s : State) (c w : Nat) : (s.delWarp c w).tags = s.tags := rfl
@[simp] theorem State.delWarp_cores (s : State) (c w : Nat) : (s.delWarp c w).cores = s.cores := rfl
@[simp] theorem State.delWarp_warps (s : State) (c w : Nat) : (s.delWarp c w).warps = mdel s.warps (wkey c w) := rfl
@[simp] theorem State.delWarp_ctxs (s : State) (c w : Nat) : (s.delWarp c w).ctxs = s.ctxs := rfl
@[simp] theorem State.delWarp_groups (s : State) (c w : Nat) : (s.delWarp c w).groups = s.groups := rfl
@[simp] theorem State.delWarp_clusters (s : State) (c w : Nat) : (s.delWarp c w).clusters = s.clusters := rfl
@[simp] theorem State.delWarp_grids (s : State) (c w : Nat) : (s.delWarp c w).grids = s.grids := rfl
@[simp] theorem State.delWarp_parts (s : State) (c w : Nat) : (s.delWarp c w).parts = s.parts := rfl
@[simp] theorem State.delWarp_stlbs (s : State) (c w : Nat) : (s.delWarp c w).stlbs = s.stlbs := rfl
@[simp] theorem State.delWarp_tickets (s : State) (c w : Nat) : (s.delWarp c w).tickets = s.tickets := rfl
@[simp] theorem State.delWarp_tkreqs (s : State) (c w : Nat) : (s.delWarp c w).tkreqs = s.tkreqs := rfl
@[simp] theorem State.delWarp_ldtWaits (s : State) (c w : Nat) : (s.delWarp c w).ldtWaits = s.ldtWaits := rfl
@[simp] theorem State.delWarp_ringWaits (s : State) (c w : Nat) : (s.delWarp c w).ringWaits = s.ringWaits := rfl
@[simp] theorem State.delWarp_inflight (s : State) (c w : Nat) : (s.delWarp c w).inflight = s.inflight := rfl
@[simp] theorem State.delWarp_pagerQueue (s : State) (c w : Nat) : (s.delWarp c w).pagerQueue = s.pagerQueue := rfl
@[simp] theorem State.delWarp_drives (s : State) (c w : Nat) : (s.delWarp c w).drives = s.drives := rfl
@[simp] theorem State.delWarp_shoots (s : State) (c w : Nat) : (s.delWarp c w).shoots = s.shoots := rfl
@[simp] theorem State.delWarp_colls (s : State) (c w : Nat) : (s.delWarp c w).colls = s.colls := rfl
@[simp] theorem State.delWarp_hostReads (s : State) (c w : Nat) : (s.delWarp c w).hostReads = s.hostReads := rfl
@[simp] theorem State.delWarp_deferred (s : State) (c w : Nat) : (s.delWarp c w).deferred = s.deferred := rfl
@[simp] theorem State.delWarp_refuse (s : State) (c w : Nat) : (s.delWarp c w).refuse = s.refuse := rfl
@[simp] theorem State.delWarp_recWaits (s : State) (c w : Nat) : (s.delWarp c w).recWaits = s.recWaits := rfl
@[simp] theorem State.delWarp_mons (s : State) (c w : Nat) : (s.delWarp c w).mons = s.mons := rfl
@[simp] theorem State.delWarp_msix (s : State) (c w : Nat) : (s.delWarp c w).msix = s.msix := rfl
@[simp] theorem State.delWarp_pba (s : State) (c w : Nat) : (s.delWarp c w).pba = s.pba := rfl
@[simp] theorem State.delWarp_mgmt (s : State) (c w : Nat) : (s.delWarp c w).mgmt = s.mgmt := rfl
@[simp] theorem State.delWarp_out (s : State) (c w : Nat) : (s.delWarp c w).out = s.out := rfl
@[simp] theorem State.delWarp_agenda (s : State) (c w : Nat) : (s.delWarp c w).agenda = s.agenda := rfl
@[simp] theorem State.delWarp_choices (s : State) (c w : Nat) : (s.delWarp c w).choices = s.choices := rfl
@[simp] theorem State.delWarp_turn (s : State) (c w : Nat) : (s.delWarp c w).turn = s.turn := rfl
@[simp] theorem State.delWarp_cur (s : State) (c w : Nat) : (s.delWarp c w).cur = s.cur := rfl
@[simp] theorem State.delWarp_freeCtr (s : State) (c w : Nat) : (s.delWarp c w).freeCtr = s.freeCtr := rfl
@[simp] theorem State.delWarp_nextId (s : State) (c w : Nat) : (s.delWarp c w).nextId = s.nextId := rfl
@[simp] theorem State.delWarp_issued (s : State) (c w : Nat) : (s.delWarp c w).issued = s.issued := rfl

@[simp] theorem State.setCtx_now (s : State) (c k : Nat) (x : Ctx) : (s.setCtx c k x).now = s.now := rfl
@[simp] theorem State.setCtx_mem (s : State) (c k : Nat) (x : Ctx) : (s.setCtx c k x).mem = s.mem := rfl
@[simp] theorem State.setCtx_poison (s : State) (c k : Nat) (x : Ctx) : (s.setCtx c k x).poison = s.poison := rfl
@[simp] theorem State.setCtx_tags (s : State) (c k : Nat) (x : Ctx) : (s.setCtx c k x).tags = s.tags := rfl
@[simp] theorem State.setCtx_cores (s : State) (c k : Nat) (x : Ctx) : (s.setCtx c k x).cores = s.cores := rfl
@[simp] theorem State.setCtx_warps (s : State) (c k : Nat) (x : Ctx) : (s.setCtx c k x).warps = s.warps := rfl
@[simp] theorem State.setCtx_ctxs (s : State) (c k : Nat) (x : Ctx) : (s.setCtx c k x).ctxs = mput s.ctxs (ckey c k) x := rfl
@[simp] theorem State.setCtx_groups (s : State) (c k : Nat) (x : Ctx) : (s.setCtx c k x).groups = s.groups := rfl
@[simp] theorem State.setCtx_clusters (s : State) (c k : Nat) (x : Ctx) : (s.setCtx c k x).clusters = s.clusters := rfl
@[simp] theorem State.setCtx_grids (s : State) (c k : Nat) (x : Ctx) : (s.setCtx c k x).grids = s.grids := rfl
@[simp] theorem State.setCtx_parts (s : State) (c k : Nat) (x : Ctx) : (s.setCtx c k x).parts = s.parts := rfl
@[simp] theorem State.setCtx_stlbs (s : State) (c k : Nat) (x : Ctx) : (s.setCtx c k x).stlbs = s.stlbs := rfl
@[simp] theorem State.setCtx_tickets (s : State) (c k : Nat) (x : Ctx) : (s.setCtx c k x).tickets = s.tickets := rfl
@[simp] theorem State.setCtx_tkreqs (s : State) (c k : Nat) (x : Ctx) : (s.setCtx c k x).tkreqs = s.tkreqs := rfl
@[simp] theorem State.setCtx_ldtWaits (s : State) (c k : Nat) (x : Ctx) : (s.setCtx c k x).ldtWaits = s.ldtWaits := rfl
@[simp] theorem State.setCtx_ringWaits (s : State) (c k : Nat) (x : Ctx) : (s.setCtx c k x).ringWaits = s.ringWaits := rfl
@[simp] theorem State.setCtx_inflight (s : State) (c k : Nat) (x : Ctx) : (s.setCtx c k x).inflight = s.inflight := rfl
@[simp] theorem State.setCtx_pagerQueue (s : State) (c k : Nat) (x : Ctx) : (s.setCtx c k x).pagerQueue = s.pagerQueue := rfl
@[simp] theorem State.setCtx_drives (s : State) (c k : Nat) (x : Ctx) : (s.setCtx c k x).drives = s.drives := rfl
@[simp] theorem State.setCtx_shoots (s : State) (c k : Nat) (x : Ctx) : (s.setCtx c k x).shoots = s.shoots := rfl
@[simp] theorem State.setCtx_colls (s : State) (c k : Nat) (x : Ctx) : (s.setCtx c k x).colls = s.colls := rfl
@[simp] theorem State.setCtx_hostReads (s : State) (c k : Nat) (x : Ctx) : (s.setCtx c k x).hostReads = s.hostReads := rfl
@[simp] theorem State.setCtx_deferred (s : State) (c k : Nat) (x : Ctx) : (s.setCtx c k x).deferred = s.deferred := rfl
@[simp] theorem State.setCtx_refuse (s : State) (c k : Nat) (x : Ctx) : (s.setCtx c k x).refuse = s.refuse := rfl
@[simp] theorem State.setCtx_recWaits (s : State) (c k : Nat) (x : Ctx) : (s.setCtx c k x).recWaits = s.recWaits := rfl
@[simp] theorem State.setCtx_mons (s : State) (c k : Nat) (x : Ctx) : (s.setCtx c k x).mons = s.mons := rfl
@[simp] theorem State.setCtx_msix (s : State) (c k : Nat) (x : Ctx) : (s.setCtx c k x).msix = s.msix := rfl
@[simp] theorem State.setCtx_pba (s : State) (c k : Nat) (x : Ctx) : (s.setCtx c k x).pba = s.pba := rfl
@[simp] theorem State.setCtx_mgmt (s : State) (c k : Nat) (x : Ctx) : (s.setCtx c k x).mgmt = s.mgmt := rfl
@[simp] theorem State.setCtx_out (s : State) (c k : Nat) (x : Ctx) : (s.setCtx c k x).out = s.out := rfl
@[simp] theorem State.setCtx_agenda (s : State) (c k : Nat) (x : Ctx) : (s.setCtx c k x).agenda = s.agenda := rfl
@[simp] theorem State.setCtx_choices (s : State) (c k : Nat) (x : Ctx) : (s.setCtx c k x).choices = s.choices := rfl
@[simp] theorem State.setCtx_turn (s : State) (c k : Nat) (x : Ctx) : (s.setCtx c k x).turn = s.turn := rfl
@[simp] theorem State.setCtx_cur (s : State) (c k : Nat) (x : Ctx) : (s.setCtx c k x).cur = s.cur := rfl
@[simp] theorem State.setCtx_freeCtr (s : State) (c k : Nat) (x : Ctx) : (s.setCtx c k x).freeCtr = s.freeCtr := rfl
@[simp] theorem State.setCtx_nextId (s : State) (c k : Nat) (x : Ctx) : (s.setCtx c k x).nextId = s.nextId := rfl
@[simp] theorem State.setCtx_issued (s : State) (c k : Nat) (x : Ctx) : (s.setCtx c k x).issued = s.issued := rfl

@[simp] theorem State.delCtx_now (s : State) (c k : Nat) : (s.delCtx c k).now = s.now := rfl
@[simp] theorem State.delCtx_mem (s : State) (c k : Nat) : (s.delCtx c k).mem = s.mem := rfl
@[simp] theorem State.delCtx_poison (s : State) (c k : Nat) : (s.delCtx c k).poison = s.poison := rfl
@[simp] theorem State.delCtx_tags (s : State) (c k : Nat) : (s.delCtx c k).tags = s.tags := rfl
@[simp] theorem State.delCtx_cores (s : State) (c k : Nat) : (s.delCtx c k).cores = s.cores := rfl
@[simp] theorem State.delCtx_warps (s : State) (c k : Nat) : (s.delCtx c k).warps = s.warps := rfl
@[simp] theorem State.delCtx_ctxs (s : State) (c k : Nat) : (s.delCtx c k).ctxs = mdel s.ctxs (ckey c k) := rfl
@[simp] theorem State.delCtx_groups (s : State) (c k : Nat) : (s.delCtx c k).groups = s.groups := rfl
@[simp] theorem State.delCtx_clusters (s : State) (c k : Nat) : (s.delCtx c k).clusters = s.clusters := rfl
@[simp] theorem State.delCtx_grids (s : State) (c k : Nat) : (s.delCtx c k).grids = s.grids := rfl
@[simp] theorem State.delCtx_parts (s : State) (c k : Nat) : (s.delCtx c k).parts = s.parts := rfl
@[simp] theorem State.delCtx_stlbs (s : State) (c k : Nat) : (s.delCtx c k).stlbs = s.stlbs := rfl
@[simp] theorem State.delCtx_tickets (s : State) (c k : Nat) : (s.delCtx c k).tickets = s.tickets := rfl
@[simp] theorem State.delCtx_tkreqs (s : State) (c k : Nat) : (s.delCtx c k).tkreqs = s.tkreqs := rfl
@[simp] theorem State.delCtx_ldtWaits (s : State) (c k : Nat) : (s.delCtx c k).ldtWaits = s.ldtWaits := rfl
@[simp] theorem State.delCtx_ringWaits (s : State) (c k : Nat) : (s.delCtx c k).ringWaits = s.ringWaits := rfl
@[simp] theorem State.delCtx_inflight (s : State) (c k : Nat) : (s.delCtx c k).inflight = s.inflight := rfl
@[simp] theorem State.delCtx_pagerQueue (s : State) (c k : Nat) : (s.delCtx c k).pagerQueue = s.pagerQueue := rfl
@[simp] theorem State.delCtx_drives (s : State) (c k : Nat) : (s.delCtx c k).drives = s.drives := rfl
@[simp] theorem State.delCtx_shoots (s : State) (c k : Nat) : (s.delCtx c k).shoots = s.shoots := rfl
@[simp] theorem State.delCtx_colls (s : State) (c k : Nat) : (s.delCtx c k).colls = s.colls := rfl
@[simp] theorem State.delCtx_hostReads (s : State) (c k : Nat) : (s.delCtx c k).hostReads = s.hostReads := rfl
@[simp] theorem State.delCtx_deferred (s : State) (c k : Nat) : (s.delCtx c k).deferred = s.deferred := rfl
@[simp] theorem State.delCtx_refuse (s : State) (c k : Nat) : (s.delCtx c k).refuse = s.refuse := rfl
@[simp] theorem State.delCtx_recWaits (s : State) (c k : Nat) : (s.delCtx c k).recWaits = s.recWaits := rfl
@[simp] theorem State.delCtx_mons (s : State) (c k : Nat) : (s.delCtx c k).mons = s.mons := rfl
@[simp] theorem State.delCtx_msix (s : State) (c k : Nat) : (s.delCtx c k).msix = s.msix := rfl
@[simp] theorem State.delCtx_pba (s : State) (c k : Nat) : (s.delCtx c k).pba = s.pba := rfl
@[simp] theorem State.delCtx_mgmt (s : State) (c k : Nat) : (s.delCtx c k).mgmt = s.mgmt := rfl
@[simp] theorem State.delCtx_out (s : State) (c k : Nat) : (s.delCtx c k).out = s.out := rfl
@[simp] theorem State.delCtx_agenda (s : State) (c k : Nat) : (s.delCtx c k).agenda = s.agenda := rfl
@[simp] theorem State.delCtx_choices (s : State) (c k : Nat) : (s.delCtx c k).choices = s.choices := rfl
@[simp] theorem State.delCtx_turn (s : State) (c k : Nat) : (s.delCtx c k).turn = s.turn := rfl
@[simp] theorem State.delCtx_cur (s : State) (c k : Nat) : (s.delCtx c k).cur = s.cur := rfl
@[simp] theorem State.delCtx_freeCtr (s : State) (c k : Nat) : (s.delCtx c k).freeCtr = s.freeCtr := rfl
@[simp] theorem State.delCtx_nextId (s : State) (c k : Nat) : (s.delCtx c k).nextId = s.nextId := rfl
@[simp] theorem State.delCtx_issued (s : State) (c k : Nat) : (s.delCtx c k).issued = s.issued := rfl

@[simp] theorem State.setGroup_now (s : State) (n : Nat) (x : Group) : (s.setGroup n x).now = s.now := rfl
@[simp] theorem State.setGroup_mem (s : State) (n : Nat) (x : Group) : (s.setGroup n x).mem = s.mem := rfl
@[simp] theorem State.setGroup_poison (s : State) (n : Nat) (x : Group) : (s.setGroup n x).poison = s.poison := rfl
@[simp] theorem State.setGroup_tags (s : State) (n : Nat) (x : Group) : (s.setGroup n x).tags = s.tags := rfl
@[simp] theorem State.setGroup_cores (s : State) (n : Nat) (x : Group) : (s.setGroup n x).cores = s.cores := rfl
@[simp] theorem State.setGroup_warps (s : State) (n : Nat) (x : Group) : (s.setGroup n x).warps = s.warps := rfl
@[simp] theorem State.setGroup_ctxs (s : State) (n : Nat) (x : Group) : (s.setGroup n x).ctxs = s.ctxs := rfl
@[simp] theorem State.setGroup_groups (s : State) (n : Nat) (x : Group) : (s.setGroup n x).groups = mput s.groups n x := rfl
@[simp] theorem State.setGroup_clusters (s : State) (n : Nat) (x : Group) : (s.setGroup n x).clusters = s.clusters := rfl
@[simp] theorem State.setGroup_grids (s : State) (n : Nat) (x : Group) : (s.setGroup n x).grids = s.grids := rfl
@[simp] theorem State.setGroup_parts (s : State) (n : Nat) (x : Group) : (s.setGroup n x).parts = s.parts := rfl
@[simp] theorem State.setGroup_stlbs (s : State) (n : Nat) (x : Group) : (s.setGroup n x).stlbs = s.stlbs := rfl
@[simp] theorem State.setGroup_tickets (s : State) (n : Nat) (x : Group) : (s.setGroup n x).tickets = s.tickets := rfl
@[simp] theorem State.setGroup_tkreqs (s : State) (n : Nat) (x : Group) : (s.setGroup n x).tkreqs = s.tkreqs := rfl
@[simp] theorem State.setGroup_ldtWaits (s : State) (n : Nat) (x : Group) : (s.setGroup n x).ldtWaits = s.ldtWaits := rfl
@[simp] theorem State.setGroup_ringWaits (s : State) (n : Nat) (x : Group) : (s.setGroup n x).ringWaits = s.ringWaits := rfl
@[simp] theorem State.setGroup_inflight (s : State) (n : Nat) (x : Group) : (s.setGroup n x).inflight = s.inflight := rfl
@[simp] theorem State.setGroup_pagerQueue (s : State) (n : Nat) (x : Group) : (s.setGroup n x).pagerQueue = s.pagerQueue := rfl
@[simp] theorem State.setGroup_drives (s : State) (n : Nat) (x : Group) : (s.setGroup n x).drives = s.drives := rfl
@[simp] theorem State.setGroup_shoots (s : State) (n : Nat) (x : Group) : (s.setGroup n x).shoots = s.shoots := rfl
@[simp] theorem State.setGroup_colls (s : State) (n : Nat) (x : Group) : (s.setGroup n x).colls = s.colls := rfl
@[simp] theorem State.setGroup_hostReads (s : State) (n : Nat) (x : Group) : (s.setGroup n x).hostReads = s.hostReads := rfl
@[simp] theorem State.setGroup_deferred (s : State) (n : Nat) (x : Group) : (s.setGroup n x).deferred = s.deferred := rfl
@[simp] theorem State.setGroup_refuse (s : State) (n : Nat) (x : Group) : (s.setGroup n x).refuse = s.refuse := rfl
@[simp] theorem State.setGroup_recWaits (s : State) (n : Nat) (x : Group) : (s.setGroup n x).recWaits = s.recWaits := rfl
@[simp] theorem State.setGroup_mons (s : State) (n : Nat) (x : Group) : (s.setGroup n x).mons = s.mons := rfl
@[simp] theorem State.setGroup_msix (s : State) (n : Nat) (x : Group) : (s.setGroup n x).msix = s.msix := rfl
@[simp] theorem State.setGroup_pba (s : State) (n : Nat) (x : Group) : (s.setGroup n x).pba = s.pba := rfl
@[simp] theorem State.setGroup_mgmt (s : State) (n : Nat) (x : Group) : (s.setGroup n x).mgmt = s.mgmt := rfl
@[simp] theorem State.setGroup_out (s : State) (n : Nat) (x : Group) : (s.setGroup n x).out = s.out := rfl
@[simp] theorem State.setGroup_agenda (s : State) (n : Nat) (x : Group) : (s.setGroup n x).agenda = s.agenda := rfl
@[simp] theorem State.setGroup_choices (s : State) (n : Nat) (x : Group) : (s.setGroup n x).choices = s.choices := rfl
@[simp] theorem State.setGroup_turn (s : State) (n : Nat) (x : Group) : (s.setGroup n x).turn = s.turn := rfl
@[simp] theorem State.setGroup_cur (s : State) (n : Nat) (x : Group) : (s.setGroup n x).cur = s.cur := rfl
@[simp] theorem State.setGroup_freeCtr (s : State) (n : Nat) (x : Group) : (s.setGroup n x).freeCtr = s.freeCtr := rfl
@[simp] theorem State.setGroup_nextId (s : State) (n : Nat) (x : Group) : (s.setGroup n x).nextId = s.nextId := rfl
@[simp] theorem State.setGroup_issued (s : State) (n : Nat) (x : Group) : (s.setGroup n x).issued = s.issued := rfl

@[simp] theorem State.setGrid_now (s : State) (n : Nat) (x : Grid) : (s.setGrid n x).now = s.now := rfl
@[simp] theorem State.setGrid_mem (s : State) (n : Nat) (x : Grid) : (s.setGrid n x).mem = s.mem := rfl
@[simp] theorem State.setGrid_poison (s : State) (n : Nat) (x : Grid) : (s.setGrid n x).poison = s.poison := rfl
@[simp] theorem State.setGrid_tags (s : State) (n : Nat) (x : Grid) : (s.setGrid n x).tags = s.tags := rfl
@[simp] theorem State.setGrid_cores (s : State) (n : Nat) (x : Grid) : (s.setGrid n x).cores = s.cores := rfl
@[simp] theorem State.setGrid_warps (s : State) (n : Nat) (x : Grid) : (s.setGrid n x).warps = s.warps := rfl
@[simp] theorem State.setGrid_ctxs (s : State) (n : Nat) (x : Grid) : (s.setGrid n x).ctxs = s.ctxs := rfl
@[simp] theorem State.setGrid_groups (s : State) (n : Nat) (x : Grid) : (s.setGrid n x).groups = s.groups := rfl
@[simp] theorem State.setGrid_clusters (s : State) (n : Nat) (x : Grid) : (s.setGrid n x).clusters = s.clusters := rfl
@[simp] theorem State.setGrid_grids (s : State) (n : Nat) (x : Grid) : (s.setGrid n x).grids = mput s.grids n x := rfl
@[simp] theorem State.setGrid_parts (s : State) (n : Nat) (x : Grid) : (s.setGrid n x).parts = s.parts := rfl
@[simp] theorem State.setGrid_stlbs (s : State) (n : Nat) (x : Grid) : (s.setGrid n x).stlbs = s.stlbs := rfl
@[simp] theorem State.setGrid_tickets (s : State) (n : Nat) (x : Grid) : (s.setGrid n x).tickets = s.tickets := rfl
@[simp] theorem State.setGrid_tkreqs (s : State) (n : Nat) (x : Grid) : (s.setGrid n x).tkreqs = s.tkreqs := rfl
@[simp] theorem State.setGrid_ldtWaits (s : State) (n : Nat) (x : Grid) : (s.setGrid n x).ldtWaits = s.ldtWaits := rfl
@[simp] theorem State.setGrid_ringWaits (s : State) (n : Nat) (x : Grid) : (s.setGrid n x).ringWaits = s.ringWaits := rfl
@[simp] theorem State.setGrid_inflight (s : State) (n : Nat) (x : Grid) : (s.setGrid n x).inflight = s.inflight := rfl
@[simp] theorem State.setGrid_pagerQueue (s : State) (n : Nat) (x : Grid) : (s.setGrid n x).pagerQueue = s.pagerQueue := rfl
@[simp] theorem State.setGrid_drives (s : State) (n : Nat) (x : Grid) : (s.setGrid n x).drives = s.drives := rfl
@[simp] theorem State.setGrid_shoots (s : State) (n : Nat) (x : Grid) : (s.setGrid n x).shoots = s.shoots := rfl
@[simp] theorem State.setGrid_colls (s : State) (n : Nat) (x : Grid) : (s.setGrid n x).colls = s.colls := rfl
@[simp] theorem State.setGrid_hostReads (s : State) (n : Nat) (x : Grid) : (s.setGrid n x).hostReads = s.hostReads := rfl
@[simp] theorem State.setGrid_deferred (s : State) (n : Nat) (x : Grid) : (s.setGrid n x).deferred = s.deferred := rfl
@[simp] theorem State.setGrid_refuse (s : State) (n : Nat) (x : Grid) : (s.setGrid n x).refuse = s.refuse := rfl
@[simp] theorem State.setGrid_recWaits (s : State) (n : Nat) (x : Grid) : (s.setGrid n x).recWaits = s.recWaits := rfl
@[simp] theorem State.setGrid_mons (s : State) (n : Nat) (x : Grid) : (s.setGrid n x).mons = s.mons := rfl
@[simp] theorem State.setGrid_msix (s : State) (n : Nat) (x : Grid) : (s.setGrid n x).msix = s.msix := rfl
@[simp] theorem State.setGrid_pba (s : State) (n : Nat) (x : Grid) : (s.setGrid n x).pba = s.pba := rfl
@[simp] theorem State.setGrid_mgmt (s : State) (n : Nat) (x : Grid) : (s.setGrid n x).mgmt = s.mgmt := rfl
@[simp] theorem State.setGrid_out (s : State) (n : Nat) (x : Grid) : (s.setGrid n x).out = s.out := rfl
@[simp] theorem State.setGrid_agenda (s : State) (n : Nat) (x : Grid) : (s.setGrid n x).agenda = s.agenda := rfl
@[simp] theorem State.setGrid_choices (s : State) (n : Nat) (x : Grid) : (s.setGrid n x).choices = s.choices := rfl
@[simp] theorem State.setGrid_turn (s : State) (n : Nat) (x : Grid) : (s.setGrid n x).turn = s.turn := rfl
@[simp] theorem State.setGrid_cur (s : State) (n : Nat) (x : Grid) : (s.setGrid n x).cur = s.cur := rfl
@[simp] theorem State.setGrid_freeCtr (s : State) (n : Nat) (x : Grid) : (s.setGrid n x).freeCtr = s.freeCtr := rfl
@[simp] theorem State.setGrid_nextId (s : State) (n : Nat) (x : Grid) : (s.setGrid n x).nextId = s.nextId := rfl
@[simp] theorem State.setGrid_issued (s : State) (n : Nat) (x : Grid) : (s.setGrid n x).issued = s.issued := rfl

@[simp] theorem State.setPart_now (s : State) (n : Nat) (x : Part) : (s.setPart n x).now = s.now := rfl
@[simp] theorem State.setPart_mem (s : State) (n : Nat) (x : Part) : (s.setPart n x).mem = s.mem := rfl
@[simp] theorem State.setPart_poison (s : State) (n : Nat) (x : Part) : (s.setPart n x).poison = s.poison := rfl
@[simp] theorem State.setPart_tags (s : State) (n : Nat) (x : Part) : (s.setPart n x).tags = s.tags := rfl
@[simp] theorem State.setPart_cores (s : State) (n : Nat) (x : Part) : (s.setPart n x).cores = s.cores := rfl
@[simp] theorem State.setPart_warps (s : State) (n : Nat) (x : Part) : (s.setPart n x).warps = s.warps := rfl
@[simp] theorem State.setPart_ctxs (s : State) (n : Nat) (x : Part) : (s.setPart n x).ctxs = s.ctxs := rfl
@[simp] theorem State.setPart_groups (s : State) (n : Nat) (x : Part) : (s.setPart n x).groups = s.groups := rfl
@[simp] theorem State.setPart_clusters (s : State) (n : Nat) (x : Part) : (s.setPart n x).clusters = s.clusters := rfl
@[simp] theorem State.setPart_grids (s : State) (n : Nat) (x : Part) : (s.setPart n x).grids = s.grids := rfl
@[simp] theorem State.setPart_parts (s : State) (n : Nat) (x : Part) : (s.setPart n x).parts = mput s.parts n x := rfl
@[simp] theorem State.setPart_stlbs (s : State) (n : Nat) (x : Part) : (s.setPart n x).stlbs = s.stlbs := rfl
@[simp] theorem State.setPart_tickets (s : State) (n : Nat) (x : Part) : (s.setPart n x).tickets = s.tickets := rfl
@[simp] theorem State.setPart_tkreqs (s : State) (n : Nat) (x : Part) : (s.setPart n x).tkreqs = s.tkreqs := rfl
@[simp] theorem State.setPart_ldtWaits (s : State) (n : Nat) (x : Part) : (s.setPart n x).ldtWaits = s.ldtWaits := rfl
@[simp] theorem State.setPart_ringWaits (s : State) (n : Nat) (x : Part) : (s.setPart n x).ringWaits = s.ringWaits := rfl
@[simp] theorem State.setPart_inflight (s : State) (n : Nat) (x : Part) : (s.setPart n x).inflight = s.inflight := rfl
@[simp] theorem State.setPart_pagerQueue (s : State) (n : Nat) (x : Part) : (s.setPart n x).pagerQueue = s.pagerQueue := rfl
@[simp] theorem State.setPart_drives (s : State) (n : Nat) (x : Part) : (s.setPart n x).drives = s.drives := rfl
@[simp] theorem State.setPart_shoots (s : State) (n : Nat) (x : Part) : (s.setPart n x).shoots = s.shoots := rfl
@[simp] theorem State.setPart_colls (s : State) (n : Nat) (x : Part) : (s.setPart n x).colls = s.colls := rfl
@[simp] theorem State.setPart_hostReads (s : State) (n : Nat) (x : Part) : (s.setPart n x).hostReads = s.hostReads := rfl
@[simp] theorem State.setPart_deferred (s : State) (n : Nat) (x : Part) : (s.setPart n x).deferred = s.deferred := rfl
@[simp] theorem State.setPart_refuse (s : State) (n : Nat) (x : Part) : (s.setPart n x).refuse = s.refuse := rfl
@[simp] theorem State.setPart_recWaits (s : State) (n : Nat) (x : Part) : (s.setPart n x).recWaits = s.recWaits := rfl
@[simp] theorem State.setPart_mons (s : State) (n : Nat) (x : Part) : (s.setPart n x).mons = s.mons := rfl
@[simp] theorem State.setPart_msix (s : State) (n : Nat) (x : Part) : (s.setPart n x).msix = s.msix := rfl
@[simp] theorem State.setPart_pba (s : State) (n : Nat) (x : Part) : (s.setPart n x).pba = s.pba := rfl
@[simp] theorem State.setPart_mgmt (s : State) (n : Nat) (x : Part) : (s.setPart n x).mgmt = s.mgmt := rfl
@[simp] theorem State.setPart_out (s : State) (n : Nat) (x : Part) : (s.setPart n x).out = s.out := rfl
@[simp] theorem State.setPart_agenda (s : State) (n : Nat) (x : Part) : (s.setPart n x).agenda = s.agenda := rfl
@[simp] theorem State.setPart_choices (s : State) (n : Nat) (x : Part) : (s.setPart n x).choices = s.choices := rfl
@[simp] theorem State.setPart_turn (s : State) (n : Nat) (x : Part) : (s.setPart n x).turn = s.turn := rfl
@[simp] theorem State.setPart_cur (s : State) (n : Nat) (x : Part) : (s.setPart n x).cur = s.cur := rfl
@[simp] theorem State.setPart_freeCtr (s : State) (n : Nat) (x : Part) : (s.setPart n x).freeCtr = s.freeCtr := rfl
@[simp] theorem State.setPart_nextId (s : State) (n : Nat) (x : Part) : (s.setPart n x).nextId = s.nextId := rfl
@[simp] theorem State.setPart_issued (s : State) (n : Nat) (x : Part) : (s.setPart n x).issued = s.issued := rfl

@[simp] theorem State.setDrive_now (s : State) (n : Nat) (x : Drive) : (s.setDrive n x).now = s.now := rfl
@[simp] theorem State.setDrive_mem (s : State) (n : Nat) (x : Drive) : (s.setDrive n x).mem = s.mem := rfl
@[simp] theorem State.setDrive_poison (s : State) (n : Nat) (x : Drive) : (s.setDrive n x).poison = s.poison := rfl
@[simp] theorem State.setDrive_tags (s : State) (n : Nat) (x : Drive) : (s.setDrive n x).tags = s.tags := rfl
@[simp] theorem State.setDrive_cores (s : State) (n : Nat) (x : Drive) : (s.setDrive n x).cores = s.cores := rfl
@[simp] theorem State.setDrive_warps (s : State) (n : Nat) (x : Drive) : (s.setDrive n x).warps = s.warps := rfl
@[simp] theorem State.setDrive_ctxs (s : State) (n : Nat) (x : Drive) : (s.setDrive n x).ctxs = s.ctxs := rfl
@[simp] theorem State.setDrive_groups (s : State) (n : Nat) (x : Drive) : (s.setDrive n x).groups = s.groups := rfl
@[simp] theorem State.setDrive_clusters (s : State) (n : Nat) (x : Drive) : (s.setDrive n x).clusters = s.clusters := rfl
@[simp] theorem State.setDrive_grids (s : State) (n : Nat) (x : Drive) : (s.setDrive n x).grids = s.grids := rfl
@[simp] theorem State.setDrive_parts (s : State) (n : Nat) (x : Drive) : (s.setDrive n x).parts = s.parts := rfl
@[simp] theorem State.setDrive_stlbs (s : State) (n : Nat) (x : Drive) : (s.setDrive n x).stlbs = s.stlbs := rfl
@[simp] theorem State.setDrive_tickets (s : State) (n : Nat) (x : Drive) : (s.setDrive n x).tickets = s.tickets := rfl
@[simp] theorem State.setDrive_tkreqs (s : State) (n : Nat) (x : Drive) : (s.setDrive n x).tkreqs = s.tkreqs := rfl
@[simp] theorem State.setDrive_ldtWaits (s : State) (n : Nat) (x : Drive) : (s.setDrive n x).ldtWaits = s.ldtWaits := rfl
@[simp] theorem State.setDrive_ringWaits (s : State) (n : Nat) (x : Drive) : (s.setDrive n x).ringWaits = s.ringWaits := rfl
@[simp] theorem State.setDrive_inflight (s : State) (n : Nat) (x : Drive) : (s.setDrive n x).inflight = s.inflight := rfl
@[simp] theorem State.setDrive_pagerQueue (s : State) (n : Nat) (x : Drive) : (s.setDrive n x).pagerQueue = s.pagerQueue := rfl
@[simp] theorem State.setDrive_drives (s : State) (n : Nat) (x : Drive) : (s.setDrive n x).drives = mput s.drives n x := rfl
@[simp] theorem State.setDrive_shoots (s : State) (n : Nat) (x : Drive) : (s.setDrive n x).shoots = s.shoots := rfl
@[simp] theorem State.setDrive_colls (s : State) (n : Nat) (x : Drive) : (s.setDrive n x).colls = s.colls := rfl
@[simp] theorem State.setDrive_hostReads (s : State) (n : Nat) (x : Drive) : (s.setDrive n x).hostReads = s.hostReads := rfl
@[simp] theorem State.setDrive_deferred (s : State) (n : Nat) (x : Drive) : (s.setDrive n x).deferred = s.deferred := rfl
@[simp] theorem State.setDrive_refuse (s : State) (n : Nat) (x : Drive) : (s.setDrive n x).refuse = s.refuse := rfl
@[simp] theorem State.setDrive_recWaits (s : State) (n : Nat) (x : Drive) : (s.setDrive n x).recWaits = s.recWaits := rfl
@[simp] theorem State.setDrive_mons (s : State) (n : Nat) (x : Drive) : (s.setDrive n x).mons = s.mons := rfl
@[simp] theorem State.setDrive_msix (s : State) (n : Nat) (x : Drive) : (s.setDrive n x).msix = s.msix := rfl
@[simp] theorem State.setDrive_pba (s : State) (n : Nat) (x : Drive) : (s.setDrive n x).pba = s.pba := rfl
@[simp] theorem State.setDrive_mgmt (s : State) (n : Nat) (x : Drive) : (s.setDrive n x).mgmt = s.mgmt := rfl
@[simp] theorem State.setDrive_out (s : State) (n : Nat) (x : Drive) : (s.setDrive n x).out = s.out := rfl
@[simp] theorem State.setDrive_agenda (s : State) (n : Nat) (x : Drive) : (s.setDrive n x).agenda = s.agenda := rfl
@[simp] theorem State.setDrive_choices (s : State) (n : Nat) (x : Drive) : (s.setDrive n x).choices = s.choices := rfl
@[simp] theorem State.setDrive_turn (s : State) (n : Nat) (x : Drive) : (s.setDrive n x).turn = s.turn := rfl
@[simp] theorem State.setDrive_cur (s : State) (n : Nat) (x : Drive) : (s.setDrive n x).cur = s.cur := rfl
@[simp] theorem State.setDrive_freeCtr (s : State) (n : Nat) (x : Drive) : (s.setDrive n x).freeCtr = s.freeCtr := rfl
@[simp] theorem State.setDrive_nextId (s : State) (n : Nat) (x : Drive) : (s.setDrive n x).nextId = s.nextId := rfl
@[simp] theorem State.setDrive_issued (s : State) (n : Nat) (x : Drive) : (s.setDrive n x).issued = s.issued := rfl

@[simp] theorem State.setTicket_now (s : State) (n : Nat) (x : Ticket) : (s.setTicket n x).now = s.now := rfl
@[simp] theorem State.setTicket_mem (s : State) (n : Nat) (x : Ticket) : (s.setTicket n x).mem = s.mem := rfl
@[simp] theorem State.setTicket_poison (s : State) (n : Nat) (x : Ticket) : (s.setTicket n x).poison = s.poison := rfl
@[simp] theorem State.setTicket_tags (s : State) (n : Nat) (x : Ticket) : (s.setTicket n x).tags = s.tags := rfl
@[simp] theorem State.setTicket_cores (s : State) (n : Nat) (x : Ticket) : (s.setTicket n x).cores = s.cores := rfl
@[simp] theorem State.setTicket_warps (s : State) (n : Nat) (x : Ticket) : (s.setTicket n x).warps = s.warps := rfl
@[simp] theorem State.setTicket_ctxs (s : State) (n : Nat) (x : Ticket) : (s.setTicket n x).ctxs = s.ctxs := rfl
@[simp] theorem State.setTicket_groups (s : State) (n : Nat) (x : Ticket) : (s.setTicket n x).groups = s.groups := rfl
@[simp] theorem State.setTicket_clusters (s : State) (n : Nat) (x : Ticket) : (s.setTicket n x).clusters = s.clusters := rfl
@[simp] theorem State.setTicket_grids (s : State) (n : Nat) (x : Ticket) : (s.setTicket n x).grids = s.grids := rfl
@[simp] theorem State.setTicket_parts (s : State) (n : Nat) (x : Ticket) : (s.setTicket n x).parts = s.parts := rfl
@[simp] theorem State.setTicket_stlbs (s : State) (n : Nat) (x : Ticket) : (s.setTicket n x).stlbs = s.stlbs := rfl
@[simp] theorem State.setTicket_tickets (s : State) (n : Nat) (x : Ticket) : (s.setTicket n x).tickets = mput s.tickets n x := rfl
@[simp] theorem State.setTicket_tkreqs (s : State) (n : Nat) (x : Ticket) : (s.setTicket n x).tkreqs = s.tkreqs := rfl
@[simp] theorem State.setTicket_ldtWaits (s : State) (n : Nat) (x : Ticket) : (s.setTicket n x).ldtWaits = s.ldtWaits := rfl
@[simp] theorem State.setTicket_ringWaits (s : State) (n : Nat) (x : Ticket) : (s.setTicket n x).ringWaits = s.ringWaits := rfl
@[simp] theorem State.setTicket_inflight (s : State) (n : Nat) (x : Ticket) : (s.setTicket n x).inflight = s.inflight := rfl
@[simp] theorem State.setTicket_pagerQueue (s : State) (n : Nat) (x : Ticket) : (s.setTicket n x).pagerQueue = s.pagerQueue := rfl
@[simp] theorem State.setTicket_drives (s : State) (n : Nat) (x : Ticket) : (s.setTicket n x).drives = s.drives := rfl
@[simp] theorem State.setTicket_shoots (s : State) (n : Nat) (x : Ticket) : (s.setTicket n x).shoots = s.shoots := rfl
@[simp] theorem State.setTicket_colls (s : State) (n : Nat) (x : Ticket) : (s.setTicket n x).colls = s.colls := rfl
@[simp] theorem State.setTicket_hostReads (s : State) (n : Nat) (x : Ticket) : (s.setTicket n x).hostReads = s.hostReads := rfl
@[simp] theorem State.setTicket_deferred (s : State) (n : Nat) (x : Ticket) : (s.setTicket n x).deferred = s.deferred := rfl
@[simp] theorem State.setTicket_refuse (s : State) (n : Nat) (x : Ticket) : (s.setTicket n x).refuse = s.refuse := rfl
@[simp] theorem State.setTicket_recWaits (s : State) (n : Nat) (x : Ticket) : (s.setTicket n x).recWaits = s.recWaits := rfl
@[simp] theorem State.setTicket_mons (s : State) (n : Nat) (x : Ticket) : (s.setTicket n x).mons = s.mons := rfl
@[simp] theorem State.setTicket_msix (s : State) (n : Nat) (x : Ticket) : (s.setTicket n x).msix = s.msix := rfl
@[simp] theorem State.setTicket_pba (s : State) (n : Nat) (x : Ticket) : (s.setTicket n x).pba = s.pba := rfl
@[simp] theorem State.setTicket_mgmt (s : State) (n : Nat) (x : Ticket) : (s.setTicket n x).mgmt = s.mgmt := rfl
@[simp] theorem State.setTicket_out (s : State) (n : Nat) (x : Ticket) : (s.setTicket n x).out = s.out := rfl
@[simp] theorem State.setTicket_agenda (s : State) (n : Nat) (x : Ticket) : (s.setTicket n x).agenda = s.agenda := rfl
@[simp] theorem State.setTicket_choices (s : State) (n : Nat) (x : Ticket) : (s.setTicket n x).choices = s.choices := rfl
@[simp] theorem State.setTicket_turn (s : State) (n : Nat) (x : Ticket) : (s.setTicket n x).turn = s.turn := rfl
@[simp] theorem State.setTicket_cur (s : State) (n : Nat) (x : Ticket) : (s.setTicket n x).cur = s.cur := rfl
@[simp] theorem State.setTicket_freeCtr (s : State) (n : Nat) (x : Ticket) : (s.setTicket n x).freeCtr = s.freeCtr := rfl
@[simp] theorem State.setTicket_nextId (s : State) (n : Nat) (x : Ticket) : (s.setTicket n x).nextId = s.nextId := rfl
@[simp] theorem State.setTicket_issued (s : State) (n : Nat) (x : Ticket) : (s.setTicket n x).issued = s.issued := rfl

@[simp] theorem State.modMgmt_now (s : State) (f : Mgmt → Mgmt) : (s.modMgmt f).now = s.now := rfl
@[simp] theorem State.modMgmt_mem (s : State) (f : Mgmt → Mgmt) : (s.modMgmt f).mem = s.mem := rfl
@[simp] theorem State.modMgmt_poison (s : State) (f : Mgmt → Mgmt) : (s.modMgmt f).poison = s.poison := rfl
@[simp] theorem State.modMgmt_tags (s : State) (f : Mgmt → Mgmt) : (s.modMgmt f).tags = s.tags := rfl
@[simp] theorem State.modMgmt_cores (s : State) (f : Mgmt → Mgmt) : (s.modMgmt f).cores = s.cores := rfl
@[simp] theorem State.modMgmt_warps (s : State) (f : Mgmt → Mgmt) : (s.modMgmt f).warps = s.warps := rfl
@[simp] theorem State.modMgmt_ctxs (s : State) (f : Mgmt → Mgmt) : (s.modMgmt f).ctxs = s.ctxs := rfl
@[simp] theorem State.modMgmt_groups (s : State) (f : Mgmt → Mgmt) : (s.modMgmt f).groups = s.groups := rfl
@[simp] theorem State.modMgmt_clusters (s : State) (f : Mgmt → Mgmt) : (s.modMgmt f).clusters = s.clusters := rfl
@[simp] theorem State.modMgmt_grids (s : State) (f : Mgmt → Mgmt) : (s.modMgmt f).grids = s.grids := rfl
@[simp] theorem State.modMgmt_parts (s : State) (f : Mgmt → Mgmt) : (s.modMgmt f).parts = s.parts := rfl
@[simp] theorem State.modMgmt_stlbs (s : State) (f : Mgmt → Mgmt) : (s.modMgmt f).stlbs = s.stlbs := rfl
@[simp] theorem State.modMgmt_tickets (s : State) (f : Mgmt → Mgmt) : (s.modMgmt f).tickets = s.tickets := rfl
@[simp] theorem State.modMgmt_tkreqs (s : State) (f : Mgmt → Mgmt) : (s.modMgmt f).tkreqs = s.tkreqs := rfl
@[simp] theorem State.modMgmt_ldtWaits (s : State) (f : Mgmt → Mgmt) : (s.modMgmt f).ldtWaits = s.ldtWaits := rfl
@[simp] theorem State.modMgmt_ringWaits (s : State) (f : Mgmt → Mgmt) : (s.modMgmt f).ringWaits = s.ringWaits := rfl
@[simp] theorem State.modMgmt_inflight (s : State) (f : Mgmt → Mgmt) : (s.modMgmt f).inflight = s.inflight := rfl
@[simp] theorem State.modMgmt_pagerQueue (s : State) (f : Mgmt → Mgmt) : (s.modMgmt f).pagerQueue = s.pagerQueue := rfl
@[simp] theorem State.modMgmt_drives (s : State) (f : Mgmt → Mgmt) : (s.modMgmt f).drives = s.drives := rfl
@[simp] theorem State.modMgmt_shoots (s : State) (f : Mgmt → Mgmt) : (s.modMgmt f).shoots = s.shoots := rfl
@[simp] theorem State.modMgmt_colls (s : State) (f : Mgmt → Mgmt) : (s.modMgmt f).colls = s.colls := rfl
@[simp] theorem State.modMgmt_hostReads (s : State) (f : Mgmt → Mgmt) : (s.modMgmt f).hostReads = s.hostReads := rfl
@[simp] theorem State.modMgmt_deferred (s : State) (f : Mgmt → Mgmt) : (s.modMgmt f).deferred = s.deferred := rfl
@[simp] theorem State.modMgmt_refuse (s : State) (f : Mgmt → Mgmt) : (s.modMgmt f).refuse = s.refuse := rfl
@[simp] theorem State.modMgmt_recWaits (s : State) (f : Mgmt → Mgmt) : (s.modMgmt f).recWaits = s.recWaits := rfl
@[simp] theorem State.modMgmt_mons (s : State) (f : Mgmt → Mgmt) : (s.modMgmt f).mons = s.mons := rfl
@[simp] theorem State.modMgmt_msix (s : State) (f : Mgmt → Mgmt) : (s.modMgmt f).msix = s.msix := rfl
@[simp] theorem State.modMgmt_pba (s : State) (f : Mgmt → Mgmt) : (s.modMgmt f).pba = s.pba := rfl
@[simp] theorem State.modMgmt_mgmt (s : State) (f : Mgmt → Mgmt) : (s.modMgmt f).mgmt = f s.mgmt := rfl
@[simp] theorem State.modMgmt_out (s : State) (f : Mgmt → Mgmt) : (s.modMgmt f).out = s.out := rfl
@[simp] theorem State.modMgmt_agenda (s : State) (f : Mgmt → Mgmt) : (s.modMgmt f).agenda = s.agenda := rfl
@[simp] theorem State.modMgmt_choices (s : State) (f : Mgmt → Mgmt) : (s.modMgmt f).choices = s.choices := rfl
@[simp] theorem State.modMgmt_turn (s : State) (f : Mgmt → Mgmt) : (s.modMgmt f).turn = s.turn := rfl
@[simp] theorem State.modMgmt_cur (s : State) (f : Mgmt → Mgmt) : (s.modMgmt f).cur = s.cur := rfl
@[simp] theorem State.modMgmt_freeCtr (s : State) (f : Mgmt → Mgmt) : (s.modMgmt f).freeCtr = s.freeCtr := rfl
@[simp] theorem State.modMgmt_nextId (s : State) (f : Mgmt → Mgmt) : (s.modMgmt f).nextId = s.nextId := rfl
@[simp] theorem State.modMgmt_issued (s : State) (f : Mgmt → Mgmt) : (s.modMgmt f).issued = s.issued := rfl

@[simp] theorem State.push_now (s : State) (e : Instr) : (s.push e).now = s.now := rfl
@[simp] theorem State.push_mem (s : State) (e : Instr) : (s.push e).mem = s.mem := rfl
@[simp] theorem State.push_poison (s : State) (e : Instr) : (s.push e).poison = s.poison := rfl
@[simp] theorem State.push_tags (s : State) (e : Instr) : (s.push e).tags = s.tags := rfl
@[simp] theorem State.push_cores (s : State) (e : Instr) : (s.push e).cores = s.cores := rfl
@[simp] theorem State.push_warps (s : State) (e : Instr) : (s.push e).warps = s.warps := rfl
@[simp] theorem State.push_ctxs (s : State) (e : Instr) : (s.push e).ctxs = s.ctxs := rfl
@[simp] theorem State.push_groups (s : State) (e : Instr) : (s.push e).groups = s.groups := rfl
@[simp] theorem State.push_clusters (s : State) (e : Instr) : (s.push e).clusters = s.clusters := rfl
@[simp] theorem State.push_grids (s : State) (e : Instr) : (s.push e).grids = s.grids := rfl
@[simp] theorem State.push_parts (s : State) (e : Instr) : (s.push e).parts = s.parts := rfl
@[simp] theorem State.push_stlbs (s : State) (e : Instr) : (s.push e).stlbs = s.stlbs := rfl
@[simp] theorem State.push_tickets (s : State) (e : Instr) : (s.push e).tickets = s.tickets := rfl
@[simp] theorem State.push_tkreqs (s : State) (e : Instr) : (s.push e).tkreqs = s.tkreqs := rfl
@[simp] theorem State.push_ldtWaits (s : State) (e : Instr) : (s.push e).ldtWaits = s.ldtWaits := rfl
@[simp] theorem State.push_ringWaits (s : State) (e : Instr) : (s.push e).ringWaits = s.ringWaits := rfl
@[simp] theorem State.push_inflight (s : State) (e : Instr) : (s.push e).inflight = s.inflight := rfl
@[simp] theorem State.push_pagerQueue (s : State) (e : Instr) : (s.push e).pagerQueue = s.pagerQueue := rfl
@[simp] theorem State.push_drives (s : State) (e : Instr) : (s.push e).drives = s.drives := rfl
@[simp] theorem State.push_shoots (s : State) (e : Instr) : (s.push e).shoots = s.shoots := rfl
@[simp] theorem State.push_colls (s : State) (e : Instr) : (s.push e).colls = s.colls := rfl
@[simp] theorem State.push_hostReads (s : State) (e : Instr) : (s.push e).hostReads = s.hostReads := rfl
@[simp] theorem State.push_deferred (s : State) (e : Instr) : (s.push e).deferred = s.deferred := rfl
@[simp] theorem State.push_refuse (s : State) (e : Instr) : (s.push e).refuse = s.refuse := rfl
@[simp] theorem State.push_recWaits (s : State) (e : Instr) : (s.push e).recWaits = s.recWaits := rfl
@[simp] theorem State.push_mons (s : State) (e : Instr) : (s.push e).mons = s.mons := rfl
@[simp] theorem State.push_msix (s : State) (e : Instr) : (s.push e).msix = s.msix := rfl
@[simp] theorem State.push_pba (s : State) (e : Instr) : (s.push e).pba = s.pba := rfl
@[simp] theorem State.push_mgmt (s : State) (e : Instr) : (s.push e).mgmt = s.mgmt := rfl
@[simp] theorem State.push_out (s : State) (e : Instr) : (s.push e).out = s.out := rfl
@[simp] theorem State.push_agenda (s : State) (e : Instr) : (s.push e).agenda = s.agenda ++ [e] := rfl
@[simp] theorem State.push_choices (s : State) (e : Instr) : (s.push e).choices = s.choices := rfl
@[simp] theorem State.push_turn (s : State) (e : Instr) : (s.push e).turn = s.turn := rfl
@[simp] theorem State.push_cur (s : State) (e : Instr) : (s.push e).cur = s.cur := rfl
@[simp] theorem State.push_freeCtr (s : State) (e : Instr) : (s.push e).freeCtr = s.freeCtr := rfl
@[simp] theorem State.push_nextId (s : State) (e : Instr) : (s.push e).nextId = s.nextId := rfl
@[simp] theorem State.push_issued (s : State) (e : Instr) : (s.push e).issued = s.issued := rfl

@[simp] theorem State.emit_now (s : State) (o : Out) : (s.emit o).now = s.now := rfl
@[simp] theorem State.emit_mem (s : State) (o : Out) : (s.emit o).mem = s.mem := rfl
@[simp] theorem State.emit_poison (s : State) (o : Out) : (s.emit o).poison = s.poison := rfl
@[simp] theorem State.emit_tags (s : State) (o : Out) : (s.emit o).tags = s.tags := rfl
@[simp] theorem State.emit_cores (s : State) (o : Out) : (s.emit o).cores = s.cores := rfl
@[simp] theorem State.emit_warps (s : State) (o : Out) : (s.emit o).warps = s.warps := rfl
@[simp] theorem State.emit_ctxs (s : State) (o : Out) : (s.emit o).ctxs = s.ctxs := rfl
@[simp] theorem State.emit_groups (s : State) (o : Out) : (s.emit o).groups = s.groups := rfl
@[simp] theorem State.emit_clusters (s : State) (o : Out) : (s.emit o).clusters = s.clusters := rfl
@[simp] theorem State.emit_grids (s : State) (o : Out) : (s.emit o).grids = s.grids := rfl
@[simp] theorem State.emit_parts (s : State) (o : Out) : (s.emit o).parts = s.parts := rfl
@[simp] theorem State.emit_stlbs (s : State) (o : Out) : (s.emit o).stlbs = s.stlbs := rfl
@[simp] theorem State.emit_tickets (s : State) (o : Out) : (s.emit o).tickets = s.tickets := rfl
@[simp] theorem State.emit_tkreqs (s : State) (o : Out) : (s.emit o).tkreqs = s.tkreqs := rfl
@[simp] theorem State.emit_ldtWaits (s : State) (o : Out) : (s.emit o).ldtWaits = s.ldtWaits := rfl
@[simp] theorem State.emit_ringWaits (s : State) (o : Out) : (s.emit o).ringWaits = s.ringWaits := rfl
@[simp] theorem State.emit_inflight (s : State) (o : Out) : (s.emit o).inflight = s.inflight := rfl
@[simp] theorem State.emit_pagerQueue (s : State) (o : Out) : (s.emit o).pagerQueue = s.pagerQueue := rfl
@[simp] theorem State.emit_drives (s : State) (o : Out) : (s.emit o).drives = s.drives := rfl
@[simp] theorem State.emit_shoots (s : State) (o : Out) : (s.emit o).shoots = s.shoots := rfl
@[simp] theorem State.emit_colls (s : State) (o : Out) : (s.emit o).colls = s.colls := rfl
@[simp] theorem State.emit_hostReads (s : State) (o : Out) : (s.emit o).hostReads = s.hostReads := rfl
@[simp] theorem State.emit_deferred (s : State) (o : Out) : (s.emit o).deferred = s.deferred := rfl
@[simp] theorem State.emit_refuse (s : State) (o : Out) : (s.emit o).refuse = s.refuse := rfl
@[simp] theorem State.emit_recWaits (s : State) (o : Out) : (s.emit o).recWaits = s.recWaits := rfl
@[simp] theorem State.emit_mons (s : State) (o : Out) : (s.emit o).mons = s.mons := rfl
@[simp] theorem State.emit_msix (s : State) (o : Out) : (s.emit o).msix = s.msix := rfl
@[simp] theorem State.emit_pba (s : State) (o : Out) : (s.emit o).pba = s.pba := rfl
@[simp] theorem State.emit_mgmt (s : State) (o : Out) : (s.emit o).mgmt = s.mgmt := rfl
@[simp] theorem State.emit_out (s : State) (o : Out) : (s.emit o).out = s.out ++ [o] := rfl
@[simp] theorem State.emit_agenda (s : State) (o : Out) : (s.emit o).agenda = s.agenda := rfl
@[simp] theorem State.emit_choices (s : State) (o : Out) : (s.emit o).choices = s.choices := rfl
@[simp] theorem State.emit_turn (s : State) (o : Out) : (s.emit o).turn = s.turn := rfl
@[simp] theorem State.emit_cur (s : State) (o : Out) : (s.emit o).cur = s.cur := rfl
@[simp] theorem State.emit_freeCtr (s : State) (o : Out) : (s.emit o).freeCtr = s.freeCtr := rfl
@[simp] theorem State.emit_nextId (s : State) (o : Out) : (s.emit o).nextId = s.nextId := rfl
@[simp] theorem State.emit_issued (s : State) (o : Out) : (s.emit o).issued = s.issued := rfl

@[simp] theorem State.bump_now (s : State) : (s.bump).now = s.now := rfl
@[simp] theorem State.bump_mem (s : State) : (s.bump).mem = s.mem := rfl
@[simp] theorem State.bump_poison (s : State) : (s.bump).poison = s.poison := rfl
@[simp] theorem State.bump_tags (s : State) : (s.bump).tags = s.tags := rfl
@[simp] theorem State.bump_cores (s : State) : (s.bump).cores = s.cores := rfl
@[simp] theorem State.bump_warps (s : State) : (s.bump).warps = s.warps := rfl
@[simp] theorem State.bump_ctxs (s : State) : (s.bump).ctxs = s.ctxs := rfl
@[simp] theorem State.bump_groups (s : State) : (s.bump).groups = s.groups := rfl
@[simp] theorem State.bump_clusters (s : State) : (s.bump).clusters = s.clusters := rfl
@[simp] theorem State.bump_grids (s : State) : (s.bump).grids = s.grids := rfl
@[simp] theorem State.bump_parts (s : State) : (s.bump).parts = s.parts := rfl
@[simp] theorem State.bump_stlbs (s : State) : (s.bump).stlbs = s.stlbs := rfl
@[simp] theorem State.bump_tickets (s : State) : (s.bump).tickets = s.tickets := rfl
@[simp] theorem State.bump_tkreqs (s : State) : (s.bump).tkreqs = s.tkreqs := rfl
@[simp] theorem State.bump_ldtWaits (s : State) : (s.bump).ldtWaits = s.ldtWaits := rfl
@[simp] theorem State.bump_ringWaits (s : State) : (s.bump).ringWaits = s.ringWaits := rfl
@[simp] theorem State.bump_inflight (s : State) : (s.bump).inflight = s.inflight := rfl
@[simp] theorem State.bump_pagerQueue (s : State) : (s.bump).pagerQueue = s.pagerQueue := rfl
@[simp] theorem State.bump_drives (s : State) : (s.bump).drives = s.drives := rfl
@[simp] theorem State.bump_shoots (s : State) : (s.bump).shoots = s.shoots := rfl
@[simp] theorem State.bump_colls (s : State) : (s.bump).colls = s.colls := rfl
@[simp] theorem State.bump_hostReads (s : State) : (s.bump).hostReads = s.hostReads := rfl
@[simp] theorem State.bump_deferred (s : State) : (s.bump).deferred = s.deferred := rfl
@[simp] theorem State.bump_refuse (s : State) : (s.bump).refuse = s.refuse := rfl
@[simp] theorem State.bump_recWaits (s : State) : (s.bump).recWaits = s.recWaits := rfl
@[simp] theorem State.bump_mons (s : State) : (s.bump).mons = s.mons := rfl
@[simp] theorem State.bump_msix (s : State) : (s.bump).msix = s.msix := rfl
@[simp] theorem State.bump_pba (s : State) : (s.bump).pba = s.pba := rfl
@[simp] theorem State.bump_mgmt (s : State) : (s.bump).mgmt = s.mgmt := rfl
@[simp] theorem State.bump_out (s : State) : (s.bump).out = s.out := rfl
@[simp] theorem State.bump_agenda (s : State) : (s.bump).agenda = s.agenda := rfl
@[simp] theorem State.bump_choices (s : State) : (s.bump).choices = s.choices := rfl
@[simp] theorem State.bump_turn (s : State) : (s.bump).turn = s.turn := rfl
@[simp] theorem State.bump_cur (s : State) : (s.bump).cur = s.cur := rfl
@[simp] theorem State.bump_freeCtr (s : State) : (s.bump).freeCtr = s.freeCtr := rfl
@[simp] theorem State.bump_nextId (s : State) : (s.bump).nextId = s.nextId + 1 := rfl
@[simp] theorem State.bump_issued (s : State) : (s.bump).issued = s.issued := rfl

@[simp] theorem State.useFree_now (s : State) : (s.useFree).now = s.now := rfl
@[simp] theorem State.useFree_mem (s : State) : (s.useFree).mem = s.mem := rfl
@[simp] theorem State.useFree_poison (s : State) : (s.useFree).poison = s.poison := rfl
@[simp] theorem State.useFree_tags (s : State) : (s.useFree).tags = s.tags := rfl
@[simp] theorem State.useFree_cores (s : State) : (s.useFree).cores = s.cores := rfl
@[simp] theorem State.useFree_warps (s : State) : (s.useFree).warps = s.warps := rfl
@[simp] theorem State.useFree_ctxs (s : State) : (s.useFree).ctxs = s.ctxs := rfl
@[simp] theorem State.useFree_groups (s : State) : (s.useFree).groups = s.groups := rfl
@[simp] theorem State.useFree_clusters (s : State) : (s.useFree).clusters = s.clusters := rfl
@[simp] theorem State.useFree_grids (s : State) : (s.useFree).grids = s.grids := rfl
@[simp] theorem State.useFree_parts (s : State) : (s.useFree).parts = s.parts := rfl
@[simp] theorem State.useFree_stlbs (s : State) : (s.useFree).stlbs = s.stlbs := rfl
@[simp] theorem State.useFree_tickets (s : State) : (s.useFree).tickets = s.tickets := rfl
@[simp] theorem State.useFree_tkreqs (s : State) : (s.useFree).tkreqs = s.tkreqs := rfl
@[simp] theorem State.useFree_ldtWaits (s : State) : (s.useFree).ldtWaits = s.ldtWaits := rfl
@[simp] theorem State.useFree_ringWaits (s : State) : (s.useFree).ringWaits = s.ringWaits := rfl
@[simp] theorem State.useFree_inflight (s : State) : (s.useFree).inflight = s.inflight := rfl
@[simp] theorem State.useFree_pagerQueue (s : State) : (s.useFree).pagerQueue = s.pagerQueue := rfl
@[simp] theorem State.useFree_drives (s : State) : (s.useFree).drives = s.drives := rfl
@[simp] theorem State.useFree_shoots (s : State) : (s.useFree).shoots = s.shoots := rfl
@[simp] theorem State.useFree_colls (s : State) : (s.useFree).colls = s.colls := rfl
@[simp] theorem State.useFree_hostReads (s : State) : (s.useFree).hostReads = s.hostReads := rfl
@[simp] theorem State.useFree_deferred (s : State) : (s.useFree).deferred = s.deferred := rfl
@[simp] theorem State.useFree_refuse (s : State) : (s.useFree).refuse = s.refuse := rfl
@[simp] theorem State.useFree_recWaits (s : State) : (s.useFree).recWaits = s.recWaits := rfl
@[simp] theorem State.useFree_mons (s : State) : (s.useFree).mons = s.mons := rfl
@[simp] theorem State.useFree_msix (s : State) : (s.useFree).msix = s.msix := rfl
@[simp] theorem State.useFree_pba (s : State) : (s.useFree).pba = s.pba := rfl
@[simp] theorem State.useFree_mgmt (s : State) : (s.useFree).mgmt = s.mgmt := rfl
@[simp] theorem State.useFree_out (s : State) : (s.useFree).out = s.out := rfl
@[simp] theorem State.useFree_agenda (s : State) : (s.useFree).agenda = s.agenda := rfl
@[simp] theorem State.useFree_choices (s : State) : (s.useFree).choices = s.choices := rfl
@[simp] theorem State.useFree_turn (s : State) : (s.useFree).turn = s.turn := rfl
@[simp] theorem State.useFree_cur (s : State) : (s.useFree).cur = s.cur := rfl
@[simp] theorem State.useFree_freeCtr (s : State) : (s.useFree).freeCtr = s.freeCtr + 1 := rfl
@[simp] theorem State.useFree_nextId (s : State) : (s.useFree).nextId = s.nextId := rfl
@[simp] theorem State.useFree_issued (s : State) : (s.useFree).issued = s.issued := rfl

@[simp] theorem State.modCore_now (s : State) (c : Nat) (f : Core → Core) : (s.modCore c f).now = s.now := rfl
@[simp] theorem State.modCore_mem (s : State) (c : Nat) (f : Core → Core) : (s.modCore c f).mem = s.mem := rfl
@[simp] theorem State.modCore_poison (s : State) (c : Nat) (f : Core → Core) : (s.modCore c f).poison = s.poison := rfl
@[simp] theorem State.modCore_tags (s : State) (c : Nat) (f : Core → Core) : (s.modCore c f).tags = s.tags := rfl
@[simp] theorem State.modCore_cores (s : State) (c : Nat) (f : Core → Core) : (s.modCore c f).cores = mput s.cores c (f (s.core c)) := rfl
@[simp] theorem State.modCore_warps (s : State) (c : Nat) (f : Core → Core) : (s.modCore c f).warps = s.warps := rfl
@[simp] theorem State.modCore_ctxs (s : State) (c : Nat) (f : Core → Core) : (s.modCore c f).ctxs = s.ctxs := rfl
@[simp] theorem State.modCore_groups (s : State) (c : Nat) (f : Core → Core) : (s.modCore c f).groups = s.groups := rfl
@[simp] theorem State.modCore_clusters (s : State) (c : Nat) (f : Core → Core) : (s.modCore c f).clusters = s.clusters := rfl
@[simp] theorem State.modCore_grids (s : State) (c : Nat) (f : Core → Core) : (s.modCore c f).grids = s.grids := rfl
@[simp] theorem State.modCore_parts (s : State) (c : Nat) (f : Core → Core) : (s.modCore c f).parts = s.parts := rfl
@[simp] theorem State.modCore_stlbs (s : State) (c : Nat) (f : Core → Core) : (s.modCore c f).stlbs = s.stlbs := rfl
@[simp] theorem State.modCore_tickets (s : State) (c : Nat) (f : Core → Core) : (s.modCore c f).tickets = s.tickets := rfl
@[simp] theorem State.modCore_tkreqs (s : State) (c : Nat) (f : Core → Core) : (s.modCore c f).tkreqs = s.tkreqs := rfl
@[simp] theorem State.modCore_ldtWaits (s : State) (c : Nat) (f : Core → Core) : (s.modCore c f).ldtWaits = s.ldtWaits := rfl
@[simp] theorem State.modCore_ringWaits (s : State) (c : Nat) (f : Core → Core) : (s.modCore c f).ringWaits = s.ringWaits := rfl
@[simp] theorem State.modCore_inflight (s : State) (c : Nat) (f : Core → Core) : (s.modCore c f).inflight = s.inflight := rfl
@[simp] theorem State.modCore_pagerQueue (s : State) (c : Nat) (f : Core → Core) : (s.modCore c f).pagerQueue = s.pagerQueue := rfl
@[simp] theorem State.modCore_drives (s : State) (c : Nat) (f : Core → Core) : (s.modCore c f).drives = s.drives := rfl
@[simp] theorem State.modCore_shoots (s : State) (c : Nat) (f : Core → Core) : (s.modCore c f).shoots = s.shoots := rfl
@[simp] theorem State.modCore_colls (s : State) (c : Nat) (f : Core → Core) : (s.modCore c f).colls = s.colls := rfl
@[simp] theorem State.modCore_hostReads (s : State) (c : Nat) (f : Core → Core) : (s.modCore c f).hostReads = s.hostReads := rfl
@[simp] theorem State.modCore_deferred (s : State) (c : Nat) (f : Core → Core) : (s.modCore c f).deferred = s.deferred := rfl
@[simp] theorem State.modCore_refuse (s : State) (c : Nat) (f : Core → Core) : (s.modCore c f).refuse = s.refuse := rfl
@[simp] theorem State.modCore_recWaits (s : State) (c : Nat) (f : Core → Core) : (s.modCore c f).recWaits = s.recWaits := rfl
@[simp] theorem State.modCore_mons (s : State) (c : Nat) (f : Core → Core) : (s.modCore c f).mons = s.mons := rfl
@[simp] theorem State.modCore_msix (s : State) (c : Nat) (f : Core → Core) : (s.modCore c f).msix = s.msix := rfl
@[simp] theorem State.modCore_pba (s : State) (c : Nat) (f : Core → Core) : (s.modCore c f).pba = s.pba := rfl
@[simp] theorem State.modCore_mgmt (s : State) (c : Nat) (f : Core → Core) : (s.modCore c f).mgmt = s.mgmt := rfl
@[simp] theorem State.modCore_out (s : State) (c : Nat) (f : Core → Core) : (s.modCore c f).out = s.out := rfl
@[simp] theorem State.modCore_agenda (s : State) (c : Nat) (f : Core → Core) : (s.modCore c f).agenda = s.agenda := rfl
@[simp] theorem State.modCore_choices (s : State) (c : Nat) (f : Core → Core) : (s.modCore c f).choices = s.choices := rfl
@[simp] theorem State.modCore_turn (s : State) (c : Nat) (f : Core → Core) : (s.modCore c f).turn = s.turn := rfl
@[simp] theorem State.modCore_cur (s : State) (c : Nat) (f : Core → Core) : (s.modCore c f).cur = s.cur := rfl
@[simp] theorem State.modCore_freeCtr (s : State) (c : Nat) (f : Core → Core) : (s.modCore c f).freeCtr = s.freeCtr := rfl
@[simp] theorem State.modCore_nextId (s : State) (c : Nat) (f : Core → Core) : (s.modCore c f).nextId = s.nextId := rfl
@[simp] theorem State.modCore_issued (s : State) (c : Nat) (f : Core → Core) : (s.modCore c f).issued = s.issued := rfl

@[simp] theorem State.modCtx_now (s : State) (c k : Nat) (f : Ctx → Ctx) : (s.modCtx c k f).now = s.now := rfl
@[simp] theorem State.modCtx_mem (s : State) (c k : Nat) (f : Ctx → Ctx) : (s.modCtx c k f).mem = s.mem := rfl
@[simp] theorem State.modCtx_poison (s : State) (c k : Nat) (f : Ctx → Ctx) : (s.modCtx c k f).poison = s.poison := rfl
@[simp] theorem State.modCtx_tags (s : State) (c k : Nat) (f : Ctx → Ctx) : (s.modCtx c k f).tags = s.tags := rfl
@[simp] theorem State.modCtx_cores (s : State) (c k : Nat) (f : Ctx → Ctx) : (s.modCtx c k f).cores = s.cores := rfl
@[simp] theorem State.modCtx_warps (s : State) (c k : Nat) (f : Ctx → Ctx) : (s.modCtx c k f).warps = s.warps := rfl
@[simp] theorem State.modCtx_ctxs (s : State) (c k : Nat) (f : Ctx → Ctx) : (s.modCtx c k f).ctxs = mput s.ctxs (ckey c k) (f (s.ctx c k)) := rfl
@[simp] theorem State.modCtx_groups (s : State) (c k : Nat) (f : Ctx → Ctx) : (s.modCtx c k f).groups = s.groups := rfl
@[simp] theorem State.modCtx_clusters (s : State) (c k : Nat) (f : Ctx → Ctx) : (s.modCtx c k f).clusters = s.clusters := rfl
@[simp] theorem State.modCtx_grids (s : State) (c k : Nat) (f : Ctx → Ctx) : (s.modCtx c k f).grids = s.grids := rfl
@[simp] theorem State.modCtx_parts (s : State) (c k : Nat) (f : Ctx → Ctx) : (s.modCtx c k f).parts = s.parts := rfl
@[simp] theorem State.modCtx_stlbs (s : State) (c k : Nat) (f : Ctx → Ctx) : (s.modCtx c k f).stlbs = s.stlbs := rfl
@[simp] theorem State.modCtx_tickets (s : State) (c k : Nat) (f : Ctx → Ctx) : (s.modCtx c k f).tickets = s.tickets := rfl
@[simp] theorem State.modCtx_tkreqs (s : State) (c k : Nat) (f : Ctx → Ctx) : (s.modCtx c k f).tkreqs = s.tkreqs := rfl
@[simp] theorem State.modCtx_ldtWaits (s : State) (c k : Nat) (f : Ctx → Ctx) : (s.modCtx c k f).ldtWaits = s.ldtWaits := rfl
@[simp] theorem State.modCtx_ringWaits (s : State) (c k : Nat) (f : Ctx → Ctx) : (s.modCtx c k f).ringWaits = s.ringWaits := rfl
@[simp] theorem State.modCtx_inflight (s : State) (c k : Nat) (f : Ctx → Ctx) : (s.modCtx c k f).inflight = s.inflight := rfl
@[simp] theorem State.modCtx_pagerQueue (s : State) (c k : Nat) (f : Ctx → Ctx) : (s.modCtx c k f).pagerQueue = s.pagerQueue := rfl
@[simp] theorem State.modCtx_drives (s : State) (c k : Nat) (f : Ctx → Ctx) : (s.modCtx c k f).drives = s.drives := rfl
@[simp] theorem State.modCtx_shoots (s : State) (c k : Nat) (f : Ctx → Ctx) : (s.modCtx c k f).shoots = s.shoots := rfl
@[simp] theorem State.modCtx_colls (s : State) (c k : Nat) (f : Ctx → Ctx) : (s.modCtx c k f).colls = s.colls := rfl
@[simp] theorem State.modCtx_hostReads (s : State) (c k : Nat) (f : Ctx → Ctx) : (s.modCtx c k f).hostReads = s.hostReads := rfl
@[simp] theorem State.modCtx_deferred (s : State) (c k : Nat) (f : Ctx → Ctx) : (s.modCtx c k f).deferred = s.deferred := rfl
@[simp] theorem State.modCtx_refuse (s : State) (c k : Nat) (f : Ctx → Ctx) : (s.modCtx c k f).refuse = s.refuse := rfl
@[simp] theorem State.modCtx_recWaits (s : State) (c k : Nat) (f : Ctx → Ctx) : (s.modCtx c k f).recWaits = s.recWaits := rfl
@[simp] theorem State.modCtx_mons (s : State) (c k : Nat) (f : Ctx → Ctx) : (s.modCtx c k f).mons = s.mons := rfl
@[simp] theorem State.modCtx_msix (s : State) (c k : Nat) (f : Ctx → Ctx) : (s.modCtx c k f).msix = s.msix := rfl
@[simp] theorem State.modCtx_pba (s : State) (c k : Nat) (f : Ctx → Ctx) : (s.modCtx c k f).pba = s.pba := rfl
@[simp] theorem State.modCtx_mgmt (s : State) (c k : Nat) (f : Ctx → Ctx) : (s.modCtx c k f).mgmt = s.mgmt := rfl
@[simp] theorem State.modCtx_out (s : State) (c k : Nat) (f : Ctx → Ctx) : (s.modCtx c k f).out = s.out := rfl
@[simp] theorem State.modCtx_agenda (s : State) (c k : Nat) (f : Ctx → Ctx) : (s.modCtx c k f).agenda = s.agenda := rfl
@[simp] theorem State.modCtx_choices (s : State) (c k : Nat) (f : Ctx → Ctx) : (s.modCtx c k f).choices = s.choices := rfl
@[simp] theorem State.modCtx_turn (s : State) (c k : Nat) (f : Ctx → Ctx) : (s.modCtx c k f).turn = s.turn := rfl
@[simp] theorem State.modCtx_cur (s : State) (c k : Nat) (f : Ctx → Ctx) : (s.modCtx c k f).cur = s.cur := rfl
@[simp] theorem State.modCtx_freeCtr (s : State) (c k : Nat) (f : Ctx → Ctx) : (s.modCtx c k f).freeCtr = s.freeCtr := rfl
@[simp] theorem State.modCtx_nextId (s : State) (c k : Nat) (f : Ctx → Ctx) : (s.modCtx c k f).nextId = s.nextId := rfl
@[simp] theorem State.modCtx_issued (s : State) (c k : Nat) (f : Ctx → Ctx) : (s.modCtx c k f).issued = s.issued := rfl

@[simp] theorem State.modPart_now (s : State) (n : Nat) (f : Part → Part) : (s.modPart n f).now = s.now := rfl
@[simp] theorem State.modPart_mem (s : State) (n : Nat) (f : Part → Part) : (s.modPart n f).mem = s.mem := rfl
@[simp] theorem State.modPart_poison (s : State) (n : Nat) (f : Part → Part) : (s.modPart n f).poison = s.poison := rfl
@[simp] theorem State.modPart_tags (s : State) (n : Nat) (f : Part → Part) : (s.modPart n f).tags = s.tags := rfl
@[simp] theorem State.modPart_cores (s : State) (n : Nat) (f : Part → Part) : (s.modPart n f).cores = s.cores := rfl
@[simp] theorem State.modPart_warps (s : State) (n : Nat) (f : Part → Part) : (s.modPart n f).warps = s.warps := rfl
@[simp] theorem State.modPart_ctxs (s : State) (n : Nat) (f : Part → Part) : (s.modPart n f).ctxs = s.ctxs := rfl
@[simp] theorem State.modPart_groups (s : State) (n : Nat) (f : Part → Part) : (s.modPart n f).groups = s.groups := rfl
@[simp] theorem State.modPart_clusters (s : State) (n : Nat) (f : Part → Part) : (s.modPart n f).clusters = s.clusters := rfl
@[simp] theorem State.modPart_grids (s : State) (n : Nat) (f : Part → Part) : (s.modPart n f).grids = s.grids := rfl
@[simp] theorem State.modPart_parts (s : State) (n : Nat) (f : Part → Part) : (s.modPart n f).parts = mput s.parts n (f (s.part n)) := rfl
@[simp] theorem State.modPart_stlbs (s : State) (n : Nat) (f : Part → Part) : (s.modPart n f).stlbs = s.stlbs := rfl
@[simp] theorem State.modPart_tickets (s : State) (n : Nat) (f : Part → Part) : (s.modPart n f).tickets = s.tickets := rfl
@[simp] theorem State.modPart_tkreqs (s : State) (n : Nat) (f : Part → Part) : (s.modPart n f).tkreqs = s.tkreqs := rfl
@[simp] theorem State.modPart_ldtWaits (s : State) (n : Nat) (f : Part → Part) : (s.modPart n f).ldtWaits = s.ldtWaits := rfl
@[simp] theorem State.modPart_ringWaits (s : State) (n : Nat) (f : Part → Part) : (s.modPart n f).ringWaits = s.ringWaits := rfl
@[simp] theorem State.modPart_inflight (s : State) (n : Nat) (f : Part → Part) : (s.modPart n f).inflight = s.inflight := rfl
@[simp] theorem State.modPart_pagerQueue (s : State) (n : Nat) (f : Part → Part) : (s.modPart n f).pagerQueue = s.pagerQueue := rfl
@[simp] theorem State.modPart_drives (s : State) (n : Nat) (f : Part → Part) : (s.modPart n f).drives = s.drives := rfl
@[simp] theorem State.modPart_shoots (s : State) (n : Nat) (f : Part → Part) : (s.modPart n f).shoots = s.shoots := rfl
@[simp] theorem State.modPart_colls (s : State) (n : Nat) (f : Part → Part) : (s.modPart n f).colls = s.colls := rfl
@[simp] theorem State.modPart_hostReads (s : State) (n : Nat) (f : Part → Part) : (s.modPart n f).hostReads = s.hostReads := rfl
@[simp] theorem State.modPart_deferred (s : State) (n : Nat) (f : Part → Part) : (s.modPart n f).deferred = s.deferred := rfl
@[simp] theorem State.modPart_refuse (s : State) (n : Nat) (f : Part → Part) : (s.modPart n f).refuse = s.refuse := rfl
@[simp] theorem State.modPart_recWaits (s : State) (n : Nat) (f : Part → Part) : (s.modPart n f).recWaits = s.recWaits := rfl
@[simp] theorem State.modPart_mons (s : State) (n : Nat) (f : Part → Part) : (s.modPart n f).mons = s.mons := rfl
@[simp] theorem State.modPart_msix (s : State) (n : Nat) (f : Part → Part) : (s.modPart n f).msix = s.msix := rfl
@[simp] theorem State.modPart_pba (s : State) (n : Nat) (f : Part → Part) : (s.modPart n f).pba = s.pba := rfl
@[simp] theorem State.modPart_mgmt (s : State) (n : Nat) (f : Part → Part) : (s.modPart n f).mgmt = s.mgmt := rfl
@[simp] theorem State.modPart_out (s : State) (n : Nat) (f : Part → Part) : (s.modPart n f).out = s.out := rfl
@[simp] theorem State.modPart_agenda (s : State) (n : Nat) (f : Part → Part) : (s.modPart n f).agenda = s.agenda := rfl
@[simp] theorem State.modPart_choices (s : State) (n : Nat) (f : Part → Part) : (s.modPart n f).choices = s.choices := rfl
@[simp] theorem State.modPart_turn (s : State) (n : Nat) (f : Part → Part) : (s.modPart n f).turn = s.turn := rfl
@[simp] theorem State.modPart_cur (s : State) (n : Nat) (f : Part → Part) : (s.modPart n f).cur = s.cur := rfl
@[simp] theorem State.modPart_freeCtr (s : State) (n : Nat) (f : Part → Part) : (s.modPart n f).freeCtr = s.freeCtr := rfl
@[simp] theorem State.modPart_nextId (s : State) (n : Nat) (f : Part → Part) : (s.modPart n f).nextId = s.nextId := rfl
@[simp] theorem State.modPart_issued (s : State) (n : Nat) (f : Part → Part) : (s.modPart n f).issued = s.issued := rfl

@[simp] theorem State.modDrive_now (s : State) (n : Nat) (f : Drive → Drive) : (s.modDrive n f).now = s.now := rfl
@[simp] theorem State.modDrive_mem (s : State) (n : Nat) (f : Drive → Drive) : (s.modDrive n f).mem = s.mem := rfl
@[simp] theorem State.modDrive_poison (s : State) (n : Nat) (f : Drive → Drive) : (s.modDrive n f).poison = s.poison := rfl
@[simp] theorem State.modDrive_tags (s : State) (n : Nat) (f : Drive → Drive) : (s.modDrive n f).tags = s.tags := rfl
@[simp] theorem State.modDrive_cores (s : State) (n : Nat) (f : Drive → Drive) : (s.modDrive n f).cores = s.cores := rfl
@[simp] theorem State.modDrive_warps (s : State) (n : Nat) (f : Drive → Drive) : (s.modDrive n f).warps = s.warps := rfl
@[simp] theorem State.modDrive_ctxs (s : State) (n : Nat) (f : Drive → Drive) : (s.modDrive n f).ctxs = s.ctxs := rfl
@[simp] theorem State.modDrive_groups (s : State) (n : Nat) (f : Drive → Drive) : (s.modDrive n f).groups = s.groups := rfl
@[simp] theorem State.modDrive_clusters (s : State) (n : Nat) (f : Drive → Drive) : (s.modDrive n f).clusters = s.clusters := rfl
@[simp] theorem State.modDrive_grids (s : State) (n : Nat) (f : Drive → Drive) : (s.modDrive n f).grids = s.grids := rfl
@[simp] theorem State.modDrive_parts (s : State) (n : Nat) (f : Drive → Drive) : (s.modDrive n f).parts = s.parts := rfl
@[simp] theorem State.modDrive_stlbs (s : State) (n : Nat) (f : Drive → Drive) : (s.modDrive n f).stlbs = s.stlbs := rfl
@[simp] theorem State.modDrive_tickets (s : State) (n : Nat) (f : Drive → Drive) : (s.modDrive n f).tickets = s.tickets := rfl
@[simp] theorem State.modDrive_tkreqs (s : State) (n : Nat) (f : Drive → Drive) : (s.modDrive n f).tkreqs = s.tkreqs := rfl
@[simp] theorem State.modDrive_ldtWaits (s : State) (n : Nat) (f : Drive → Drive) : (s.modDrive n f).ldtWaits = s.ldtWaits := rfl
@[simp] theorem State.modDrive_ringWaits (s : State) (n : Nat) (f : Drive → Drive) : (s.modDrive n f).ringWaits = s.ringWaits := rfl
@[simp] theorem State.modDrive_inflight (s : State) (n : Nat) (f : Drive → Drive) : (s.modDrive n f).inflight = s.inflight := rfl
@[simp] theorem State.modDrive_pagerQueue (s : State) (n : Nat) (f : Drive → Drive) : (s.modDrive n f).pagerQueue = s.pagerQueue := rfl
@[simp] theorem State.modDrive_drives (s : State) (n : Nat) (f : Drive → Drive) : (s.modDrive n f).drives = mput s.drives n (f (s.drive n)) := rfl
@[simp] theorem State.modDrive_shoots (s : State) (n : Nat) (f : Drive → Drive) : (s.modDrive n f).shoots = s.shoots := rfl
@[simp] theorem State.modDrive_colls (s : State) (n : Nat) (f : Drive → Drive) : (s.modDrive n f).colls = s.colls := rfl
@[simp] theorem State.modDrive_hostReads (s : State) (n : Nat) (f : Drive → Drive) : (s.modDrive n f).hostReads = s.hostReads := rfl
@[simp] theorem State.modDrive_deferred (s : State) (n : Nat) (f : Drive → Drive) : (s.modDrive n f).deferred = s.deferred := rfl
@[simp] theorem State.modDrive_refuse (s : State) (n : Nat) (f : Drive → Drive) : (s.modDrive n f).refuse = s.refuse := rfl
@[simp] theorem State.modDrive_recWaits (s : State) (n : Nat) (f : Drive → Drive) : (s.modDrive n f).recWaits = s.recWaits := rfl
@[simp] theorem State.modDrive_mons (s : State) (n : Nat) (f : Drive → Drive) : (s.modDrive n f).mons = s.mons := rfl
@[simp] theorem State.modDrive_msix (s : State) (n : Nat) (f : Drive → Drive) : (s.modDrive n f).msix = s.msix := rfl
@[simp] theorem State.modDrive_pba (s : State) (n : Nat) (f : Drive → Drive) : (s.modDrive n f).pba = s.pba := rfl
@[simp] theorem State.modDrive_mgmt (s : State) (n : Nat) (f : Drive → Drive) : (s.modDrive n f).mgmt = s.mgmt := rfl
@[simp] theorem State.modDrive_out (s : State) (n : Nat) (f : Drive → Drive) : (s.modDrive n f).out = s.out := rfl
@[simp] theorem State.modDrive_agenda (s : State) (n : Nat) (f : Drive → Drive) : (s.modDrive n f).agenda = s.agenda := rfl
@[simp] theorem State.modDrive_choices (s : State) (n : Nat) (f : Drive → Drive) : (s.modDrive n f).choices = s.choices := rfl
@[simp] theorem State.modDrive_turn (s : State) (n : Nat) (f : Drive → Drive) : (s.modDrive n f).turn = s.turn := rfl
@[simp] theorem State.modDrive_cur (s : State) (n : Nat) (f : Drive → Drive) : (s.modDrive n f).cur = s.cur := rfl
@[simp] theorem State.modDrive_freeCtr (s : State) (n : Nat) (f : Drive → Drive) : (s.modDrive n f).freeCtr = s.freeCtr := rfl
@[simp] theorem State.modDrive_nextId (s : State) (n : Nat) (f : Drive → Drive) : (s.modDrive n f).nextId = s.nextId := rfl
@[simp] theorem State.modDrive_issued (s : State) (n : Nat) (f : Drive → Drive) : (s.modDrive n f).issued = s.issued := rfl

@[simp] theorem State.modWarp_now (s : State) (c w : Nat) (f : Warp → Warp) : (s.modWarp c w f).now = s.now := by unfold State.modWarp; split <;> rfl
@[simp] theorem State.modWarp_mem (s : State) (c w : Nat) (f : Warp → Warp) : (s.modWarp c w f).mem = s.mem := by unfold State.modWarp; split <;> rfl
@[simp] theorem State.modWarp_poison (s : State) (c w : Nat) (f : Warp → Warp) : (s.modWarp c w f).poison = s.poison := by unfold State.modWarp; split <;> rfl
@[simp] theorem State.modWarp_tags (s : State) (c w : Nat) (f : Warp → Warp) : (s.modWarp c w f).tags = s.tags := by unfold State.modWarp; split <;> rfl
@[simp] theorem State.modWarp_cores (s : State) (c w : Nat) (f : Warp → Warp) : (s.modWarp c w f).cores = s.cores := by unfold State.modWarp; split <;> rfl
@[simp] theorem State.modWarp_ctxs (s : State) (c w : Nat) (f : Warp → Warp) : (s.modWarp c w f).ctxs = s.ctxs := by unfold State.modWarp; split <;> rfl
@[simp] theorem State.modWarp_groups (s : State) (c w : Nat) (f : Warp → Warp) : (s.modWarp c w f).groups = s.groups := by unfold State.modWarp; split <;> rfl
@[simp] theorem State.modWarp_clusters (s : State) (c w : Nat) (f : Warp → Warp) : (s.modWarp c w f).clusters = s.clusters := by unfold State.modWarp; split <;> rfl
@[simp] theorem State.modWarp_grids (s : State) (c w : Nat) (f : Warp → Warp) : (s.modWarp c w f).grids = s.grids := by unfold State.modWarp; split <;> rfl
@[simp] theorem State.modWarp_parts (s : State) (c w : Nat) (f : Warp → Warp) : (s.modWarp c w f).parts = s.parts := by unfold State.modWarp; split <;> rfl
@[simp] theorem State.modWarp_stlbs (s : State) (c w : Nat) (f : Warp → Warp) : (s.modWarp c w f).stlbs = s.stlbs := by unfold State.modWarp; split <;> rfl
@[simp] theorem State.modWarp_tickets (s : State) (c w : Nat) (f : Warp → Warp) : (s.modWarp c w f).tickets = s.tickets := by unfold State.modWarp; split <;> rfl
@[simp] theorem State.modWarp_tkreqs (s : State) (c w : Nat) (f : Warp → Warp) : (s.modWarp c w f).tkreqs = s.tkreqs := by unfold State.modWarp; split <;> rfl
@[simp] theorem State.modWarp_ldtWaits (s : State) (c w : Nat) (f : Warp → Warp) : (s.modWarp c w f).ldtWaits = s.ldtWaits := by unfold State.modWarp; split <;> rfl
@[simp] theorem State.modWarp_ringWaits (s : State) (c w : Nat) (f : Warp → Warp) : (s.modWarp c w f).ringWaits = s.ringWaits := by unfold State.modWarp; split <;> rfl
@[simp] theorem State.modWarp_inflight (s : State) (c w : Nat) (f : Warp → Warp) : (s.modWarp c w f).inflight = s.inflight := by unfold State.modWarp; split <;> rfl
@[simp] theorem State.modWarp_pagerQueue (s : State) (c w : Nat) (f : Warp → Warp) : (s.modWarp c w f).pagerQueue = s.pagerQueue := by unfold State.modWarp; split <;> rfl
@[simp] theorem State.modWarp_drives (s : State) (c w : Nat) (f : Warp → Warp) : (s.modWarp c w f).drives = s.drives := by unfold State.modWarp; split <;> rfl
@[simp] theorem State.modWarp_shoots (s : State) (c w : Nat) (f : Warp → Warp) : (s.modWarp c w f).shoots = s.shoots := by unfold State.modWarp; split <;> rfl
@[simp] theorem State.modWarp_colls (s : State) (c w : Nat) (f : Warp → Warp) : (s.modWarp c w f).colls = s.colls := by unfold State.modWarp; split <;> rfl
@[simp] theorem State.modWarp_hostReads (s : State) (c w : Nat) (f : Warp → Warp) : (s.modWarp c w f).hostReads = s.hostReads := by unfold State.modWarp; split <;> rfl
@[simp] theorem State.modWarp_deferred (s : State) (c w : Nat) (f : Warp → Warp) : (s.modWarp c w f).deferred = s.deferred := by unfold State.modWarp; split <;> rfl
@[simp] theorem State.modWarp_refuse (s : State) (c w : Nat) (f : Warp → Warp) : (s.modWarp c w f).refuse = s.refuse := by unfold State.modWarp; split <;> rfl
@[simp] theorem State.modWarp_recWaits (s : State) (c w : Nat) (f : Warp → Warp) : (s.modWarp c w f).recWaits = s.recWaits := by unfold State.modWarp; split <;> rfl
@[simp] theorem State.modWarp_mons (s : State) (c w : Nat) (f : Warp → Warp) : (s.modWarp c w f).mons = s.mons := by unfold State.modWarp; split <;> rfl
@[simp] theorem State.modWarp_msix (s : State) (c w : Nat) (f : Warp → Warp) : (s.modWarp c w f).msix = s.msix := by unfold State.modWarp; split <;> rfl
@[simp] theorem State.modWarp_pba (s : State) (c w : Nat) (f : Warp → Warp) : (s.modWarp c w f).pba = s.pba := by unfold State.modWarp; split <;> rfl
@[simp] theorem State.modWarp_mgmt (s : State) (c w : Nat) (f : Warp → Warp) : (s.modWarp c w f).mgmt = s.mgmt := by unfold State.modWarp; split <;> rfl
@[simp] theorem State.modWarp_out (s : State) (c w : Nat) (f : Warp → Warp) : (s.modWarp c w f).out = s.out := by unfold State.modWarp; split <;> rfl
@[simp] theorem State.modWarp_agenda (s : State) (c w : Nat) (f : Warp → Warp) : (s.modWarp c w f).agenda = s.agenda := by unfold State.modWarp; split <;> rfl
@[simp] theorem State.modWarp_choices (s : State) (c w : Nat) (f : Warp → Warp) : (s.modWarp c w f).choices = s.choices := by unfold State.modWarp; split <;> rfl
@[simp] theorem State.modWarp_turn (s : State) (c w : Nat) (f : Warp → Warp) : (s.modWarp c w f).turn = s.turn := by unfold State.modWarp; split <;> rfl
@[simp] theorem State.modWarp_cur (s : State) (c w : Nat) (f : Warp → Warp) : (s.modWarp c w f).cur = s.cur := by unfold State.modWarp; split <;> rfl
@[simp] theorem State.modWarp_freeCtr (s : State) (c w : Nat) (f : Warp → Warp) : (s.modWarp c w f).freeCtr = s.freeCtr := by unfold State.modWarp; split <;> rfl
@[simp] theorem State.modWarp_nextId (s : State) (c w : Nat) (f : Warp → Warp) : (s.modWarp c w f).nextId = s.nextId := by unfold State.modWarp; split <;> rfl
@[simp] theorem State.modWarp_issued (s : State) (c w : Nat) (f : Warp → Warp) : (s.modWarp c w f).issued = s.issued := by unfold State.modWarp; split <;> rfl

@[simp] theorem State.modGroup_now (s : State) (n : Nat) (f : Group → Group) : (s.modGroup n f).now = s.now := by unfold State.modGroup; split <;> rfl
@[simp] theorem State.modGroup_mem (s : State) (n : Nat) (f : Group → Group) : (s.modGroup n f).mem = s.mem := by unfold State.modGroup; split <;> rfl
@[simp] theorem State.modGroup_poison (s : State) (n : Nat) (f : Group → Group) : (s.modGroup n f).poison = s.poison := by unfold State.modGroup; split <;> rfl
@[simp] theorem State.modGroup_tags (s : State) (n : Nat) (f : Group → Group) : (s.modGroup n f).tags = s.tags := by unfold State.modGroup; split <;> rfl
@[simp] theorem State.modGroup_cores (s : State) (n : Nat) (f : Group → Group) : (s.modGroup n f).cores = s.cores := by unfold State.modGroup; split <;> rfl
@[simp] theorem State.modGroup_warps (s : State) (n : Nat) (f : Group → Group) : (s.modGroup n f).warps = s.warps := by unfold State.modGroup; split <;> rfl
@[simp] theorem State.modGroup_ctxs (s : State) (n : Nat) (f : Group → Group) : (s.modGroup n f).ctxs = s.ctxs := by unfold State.modGroup; split <;> rfl
@[simp] theorem State.modGroup_clusters (s : State) (n : Nat) (f : Group → Group) : (s.modGroup n f).clusters = s.clusters := by unfold State.modGroup; split <;> rfl
@[simp] theorem State.modGroup_grids (s : State) (n : Nat) (f : Group → Group) : (s.modGroup n f).grids = s.grids := by unfold State.modGroup; split <;> rfl
@[simp] theorem State.modGroup_parts (s : State) (n : Nat) (f : Group → Group) : (s.modGroup n f).parts = s.parts := by unfold State.modGroup; split <;> rfl
@[simp] theorem State.modGroup_stlbs (s : State) (n : Nat) (f : Group → Group) : (s.modGroup n f).stlbs = s.stlbs := by unfold State.modGroup; split <;> rfl
@[simp] theorem State.modGroup_tickets (s : State) (n : Nat) (f : Group → Group) : (s.modGroup n f).tickets = s.tickets := by unfold State.modGroup; split <;> rfl
@[simp] theorem State.modGroup_tkreqs (s : State) (n : Nat) (f : Group → Group) : (s.modGroup n f).tkreqs = s.tkreqs := by unfold State.modGroup; split <;> rfl
@[simp] theorem State.modGroup_ldtWaits (s : State) (n : Nat) (f : Group → Group) : (s.modGroup n f).ldtWaits = s.ldtWaits := by unfold State.modGroup; split <;> rfl
@[simp] theorem State.modGroup_ringWaits (s : State) (n : Nat) (f : Group → Group) : (s.modGroup n f).ringWaits = s.ringWaits := by unfold State.modGroup; split <;> rfl
@[simp] theorem State.modGroup_inflight (s : State) (n : Nat) (f : Group → Group) : (s.modGroup n f).inflight = s.inflight := by unfold State.modGroup; split <;> rfl
@[simp] theorem State.modGroup_pagerQueue (s : State) (n : Nat) (f : Group → Group) : (s.modGroup n f).pagerQueue = s.pagerQueue := by unfold State.modGroup; split <;> rfl
@[simp] theorem State.modGroup_drives (s : State) (n : Nat) (f : Group → Group) : (s.modGroup n f).drives = s.drives := by unfold State.modGroup; split <;> rfl
@[simp] theorem State.modGroup_shoots (s : State) (n : Nat) (f : Group → Group) : (s.modGroup n f).shoots = s.shoots := by unfold State.modGroup; split <;> rfl
@[simp] theorem State.modGroup_colls (s : State) (n : Nat) (f : Group → Group) : (s.modGroup n f).colls = s.colls := by unfold State.modGroup; split <;> rfl
@[simp] theorem State.modGroup_hostReads (s : State) (n : Nat) (f : Group → Group) : (s.modGroup n f).hostReads = s.hostReads := by unfold State.modGroup; split <;> rfl
@[simp] theorem State.modGroup_deferred (s : State) (n : Nat) (f : Group → Group) : (s.modGroup n f).deferred = s.deferred := by unfold State.modGroup; split <;> rfl
@[simp] theorem State.modGroup_refuse (s : State) (n : Nat) (f : Group → Group) : (s.modGroup n f).refuse = s.refuse := by unfold State.modGroup; split <;> rfl
@[simp] theorem State.modGroup_recWaits (s : State) (n : Nat) (f : Group → Group) : (s.modGroup n f).recWaits = s.recWaits := by unfold State.modGroup; split <;> rfl
@[simp] theorem State.modGroup_mons (s : State) (n : Nat) (f : Group → Group) : (s.modGroup n f).mons = s.mons := by unfold State.modGroup; split <;> rfl
@[simp] theorem State.modGroup_msix (s : State) (n : Nat) (f : Group → Group) : (s.modGroup n f).msix = s.msix := by unfold State.modGroup; split <;> rfl
@[simp] theorem State.modGroup_pba (s : State) (n : Nat) (f : Group → Group) : (s.modGroup n f).pba = s.pba := by unfold State.modGroup; split <;> rfl
@[simp] theorem State.modGroup_mgmt (s : State) (n : Nat) (f : Group → Group) : (s.modGroup n f).mgmt = s.mgmt := by unfold State.modGroup; split <;> rfl
@[simp] theorem State.modGroup_out (s : State) (n : Nat) (f : Group → Group) : (s.modGroup n f).out = s.out := by unfold State.modGroup; split <;> rfl
@[simp] theorem State.modGroup_agenda (s : State) (n : Nat) (f : Group → Group) : (s.modGroup n f).agenda = s.agenda := by unfold State.modGroup; split <;> rfl
@[simp] theorem State.modGroup_choices (s : State) (n : Nat) (f : Group → Group) : (s.modGroup n f).choices = s.choices := by unfold State.modGroup; split <;> rfl
@[simp] theorem State.modGroup_turn (s : State) (n : Nat) (f : Group → Group) : (s.modGroup n f).turn = s.turn := by unfold State.modGroup; split <;> rfl
@[simp] theorem State.modGroup_cur (s : State) (n : Nat) (f : Group → Group) : (s.modGroup n f).cur = s.cur := by unfold State.modGroup; split <;> rfl
@[simp] theorem State.modGroup_freeCtr (s : State) (n : Nat) (f : Group → Group) : (s.modGroup n f).freeCtr = s.freeCtr := by unfold State.modGroup; split <;> rfl
@[simp] theorem State.modGroup_nextId (s : State) (n : Nat) (f : Group → Group) : (s.modGroup n f).nextId = s.nextId := by unfold State.modGroup; split <;> rfl
@[simp] theorem State.modGroup_issued (s : State) (n : Nat) (f : Group → Group) : (s.modGroup n f).issued = s.issued := by unfold State.modGroup; split <;> rfl

@[simp] theorem State.modGrid_now (s : State) (n : Nat) (f : Grid → Grid) : (s.modGrid n f).now = s.now := by unfold State.modGrid; split <;> rfl
@[simp] theorem State.modGrid_mem (s : State) (n : Nat) (f : Grid → Grid) : (s.modGrid n f).mem = s.mem := by unfold State.modGrid; split <;> rfl
@[simp] theorem State.modGrid_poison (s : State) (n : Nat) (f : Grid → Grid) : (s.modGrid n f).poison = s.poison := by unfold State.modGrid; split <;> rfl
@[simp] theorem State.modGrid_tags (s : State) (n : Nat) (f : Grid → Grid) : (s.modGrid n f).tags = s.tags := by unfold State.modGrid; split <;> rfl
@[simp] theorem State.modGrid_cores (s : State) (n : Nat) (f : Grid → Grid) : (s.modGrid n f).cores = s.cores := by unfold State.modGrid; split <;> rfl
@[simp] theorem State.modGrid_warps (s : State) (n : Nat) (f : Grid → Grid) : (s.modGrid n f).warps = s.warps := by unfold State.modGrid; split <;> rfl
@[simp] theorem State.modGrid_ctxs (s : State) (n : Nat) (f : Grid → Grid) : (s.modGrid n f).ctxs = s.ctxs := by unfold State.modGrid; split <;> rfl
@[simp] theorem State.modGrid_groups (s : State) (n : Nat) (f : Grid → Grid) : (s.modGrid n f).groups = s.groups := by unfold State.modGrid; split <;> rfl
@[simp] theorem State.modGrid_clusters (s : State) (n : Nat) (f : Grid → Grid) : (s.modGrid n f).clusters = s.clusters := by unfold State.modGrid; split <;> rfl
@[simp] theorem State.modGrid_parts (s : State) (n : Nat) (f : Grid → Grid) : (s.modGrid n f).parts = s.parts := by unfold State.modGrid; split <;> rfl
@[simp] theorem State.modGrid_stlbs (s : State) (n : Nat) (f : Grid → Grid) : (s.modGrid n f).stlbs = s.stlbs := by unfold State.modGrid; split <;> rfl
@[simp] theorem State.modGrid_tickets (s : State) (n : Nat) (f : Grid → Grid) : (s.modGrid n f).tickets = s.tickets := by unfold State.modGrid; split <;> rfl
@[simp] theorem State.modGrid_tkreqs (s : State) (n : Nat) (f : Grid → Grid) : (s.modGrid n f).tkreqs = s.tkreqs := by unfold State.modGrid; split <;> rfl
@[simp] theorem State.modGrid_ldtWaits (s : State) (n : Nat) (f : Grid → Grid) : (s.modGrid n f).ldtWaits = s.ldtWaits := by unfold State.modGrid; split <;> rfl
@[simp] theorem State.modGrid_ringWaits (s : State) (n : Nat) (f : Grid → Grid) : (s.modGrid n f).ringWaits = s.ringWaits := by unfold State.modGrid; split <;> rfl
@[simp] theorem State.modGrid_inflight (s : State) (n : Nat) (f : Grid → Grid) : (s.modGrid n f).inflight = s.inflight := by unfold State.modGrid; split <;> rfl
@[simp] theorem State.modGrid_pagerQueue (s : State) (n : Nat) (f : Grid → Grid) : (s.modGrid n f).pagerQueue = s.pagerQueue := by unfold State.modGrid; split <;> rfl
@[simp] theorem State.modGrid_drives (s : State) (n : Nat) (f : Grid → Grid) : (s.modGrid n f).drives = s.drives := by unfold State.modGrid; split <;> rfl
@[simp] theorem State.modGrid_shoots (s : State) (n : Nat) (f : Grid → Grid) : (s.modGrid n f).shoots = s.shoots := by unfold State.modGrid; split <;> rfl
@[simp] theorem State.modGrid_colls (s : State) (n : Nat) (f : Grid → Grid) : (s.modGrid n f).colls = s.colls := by unfold State.modGrid; split <;> rfl
@[simp] theorem State.modGrid_hostReads (s : State) (n : Nat) (f : Grid → Grid) : (s.modGrid n f).hostReads = s.hostReads := by unfold State.modGrid; split <;> rfl
@[simp] theorem State.modGrid_deferred (s : State) (n : Nat) (f : Grid → Grid) : (s.modGrid n f).deferred = s.deferred := by unfold State.modGrid; split <;> rfl
@[simp] theorem State.modGrid_refuse (s : State) (n : Nat) (f : Grid → Grid) : (s.modGrid n f).refuse = s.refuse := by unfold State.modGrid; split <;> rfl
@[simp] theorem State.modGrid_recWaits (s : State) (n : Nat) (f : Grid → Grid) : (s.modGrid n f).recWaits = s.recWaits := by unfold State.modGrid; split <;> rfl
@[simp] theorem State.modGrid_mons (s : State) (n : Nat) (f : Grid → Grid) : (s.modGrid n f).mons = s.mons := by unfold State.modGrid; split <;> rfl
@[simp] theorem State.modGrid_msix (s : State) (n : Nat) (f : Grid → Grid) : (s.modGrid n f).msix = s.msix := by unfold State.modGrid; split <;> rfl
@[simp] theorem State.modGrid_pba (s : State) (n : Nat) (f : Grid → Grid) : (s.modGrid n f).pba = s.pba := by unfold State.modGrid; split <;> rfl
@[simp] theorem State.modGrid_mgmt (s : State) (n : Nat) (f : Grid → Grid) : (s.modGrid n f).mgmt = s.mgmt := by unfold State.modGrid; split <;> rfl
@[simp] theorem State.modGrid_out (s : State) (n : Nat) (f : Grid → Grid) : (s.modGrid n f).out = s.out := by unfold State.modGrid; split <;> rfl
@[simp] theorem State.modGrid_agenda (s : State) (n : Nat) (f : Grid → Grid) : (s.modGrid n f).agenda = s.agenda := by unfold State.modGrid; split <;> rfl
@[simp] theorem State.modGrid_choices (s : State) (n : Nat) (f : Grid → Grid) : (s.modGrid n f).choices = s.choices := by unfold State.modGrid; split <;> rfl
@[simp] theorem State.modGrid_turn (s : State) (n : Nat) (f : Grid → Grid) : (s.modGrid n f).turn = s.turn := by unfold State.modGrid; split <;> rfl
@[simp] theorem State.modGrid_cur (s : State) (n : Nat) (f : Grid → Grid) : (s.modGrid n f).cur = s.cur := by unfold State.modGrid; split <;> rfl
@[simp] theorem State.modGrid_freeCtr (s : State) (n : Nat) (f : Grid → Grid) : (s.modGrid n f).freeCtr = s.freeCtr := by unfold State.modGrid; split <;> rfl
@[simp] theorem State.modGrid_nextId (s : State) (n : Nat) (f : Grid → Grid) : (s.modGrid n f).nextId = s.nextId := by unfold State.modGrid; split <;> rfl
@[simp] theorem State.modGrid_issued (s : State) (n : Nat) (f : Grid → Grid) : (s.modGrid n f).issued = s.issued := by unfold State.modGrid; split <;> rfl

/-! What an accessor reads after an update of its own table. -/

@[simp] theorem State.core_setCore (s : State) (c : Nat) (k : Core) : (s.setCore c k).core c = k := mget_put_same ..
theorem State.core_setCore_ne (s : State) {c d : Nat} (k : Core) (h : c ≠ d) : (s.setCore c k).core d = s.core d := mget_put_ne _ _ _ h
@[simp] theorem State.core_modCore (s : State) (c : Nat) (f : Core → Core) : (s.modCore c f).core c = f (s.core c) := mget_put_same ..
theorem State.core_modCore_ne (s : State) {c d : Nat} (f : Core → Core) (h : c ≠ d) : (s.modCore c f).core d = s.core d :=
  mget_put_ne _ _ _ h
@[simp] theorem State.warp?_setWarp (s : State) (c w : Nat) (x : Warp) : (s.setWarp c w x).warp? c w = some x := mget?_put_same ..
@[simp] theorem State.warp_setWarp (s : State) (c w : Nat) (x : Warp) : (s.setWarp c w x).warp c w = x := mget_put_same ..
theorem State.warps_setWarp_ne (s : State) (c w : Nat) (x : Warp) {n : Nat} (h : n ≠ wkey c w) :
    mget? (s.setWarp c w x).warps n = mget? s.warps n := mget?_put_ne _ _ (Ne.symm h)
theorem State.modWarp_some {s : State} {c w : Nat} {x : Warp} (h : s.warp? c w = some x) (f : Warp → Warp) :
    s.modWarp c w f = s.setWarp c w (f x) := by simp [State.modWarp, h]
theorem State.warp_of_warp? {s : State} {c w : Nat} {x : Warp} (h : s.warp? c w = some x) : s.warp c w = x :=
  mget_eq_of_mget? _ h
@[simp] theorem State.ctx_setCtx (s : State) (c k : Nat) (x : Ctx) : (s.setCtx c k x).ctx c k = x := mget_put_same ..
@[simp] theorem State.ctx_modCtx (s : State) (c k : Nat) (f : Ctx → Ctx) : (s.modCtx c k f).ctx c k = f (s.ctx c k) :=
  mget_put_same ..
@[simp] theorem State.part_setPart (s : State) (n : Nat) (x : Part) : (s.setPart n x).part n = x := mget_put_same ..
@[simp] theorem State.part_modPart (s : State) (n : Nat) (f : Part → Part) : (s.modPart n f).part n = f (s.part n) :=
  mget_put_same ..
theorem State.part_modPart_ne (s : State) {n m : Nat} (f : Part → Part) (h : n ≠ m) : (s.modPart n f).part m = s.part m :=
  mget_put_ne _ _ _ h
@[simp] theorem State.group_setGroup (s : State) (n : Nat) (x : Group) : (s.setGroup n x).group n = x := mget_put_same ..
@[simp] theorem State.grid_setGrid (s : State) (n : Nat) (x : Grid) : (s.setGrid n x).grid n = x := mget_put_same ..
@[simp] theorem State.ticket_setTicket (s : State) (n : Nat) (x : Ticket) : (s.setTicket n x).ticket n = x := mget_put_same ..
@[simp] theorem State.drive_modDrive (s : State) (n : Nat) (f : Drive → Drive) : (s.modDrive n f).drive n = f (s.drive n) :=
  mget_put_same ..

/-! Accessors of tables that an update leaves. -/

@[simp] theorem State.warp?_setCore (s : State) (c : Nat) (k : Core) (d x : Nat) : (s.setCore c k).warp? d x = s.warp? d x := rfl
@[simp] theorem State.warp_setCore (s : State) (c : Nat) (k : Core) (d x : Nat) : (s.setCore c k).warp d x = s.warp d x := rfl
@[simp] theorem State.ctx_setCore (s : State) (c : Nat) (k : Core) (d x : Nat) : (s.setCore c k).ctx d x = s.ctx d x := rfl
@[simp] theorem State.group_setCore (s : State) (c : Nat) (k : Core) (d : Nat) : (s.setCore c k).group d = s.group d := rfl
@[simp] theorem State.cluster_setCore (s : State) (c : Nat) (k : Core) (d : Nat) : (s.setCore c k).cluster d = s.cluster d := rfl
@[simp] theorem State.grid_setCore (s : State) (c : Nat) (k : Core) (d : Nat) : (s.setCore c k).grid d = s.grid d := rfl
@[simp] theorem State.part_setCore (s : State) (c : Nat) (k : Core) (d : Nat) : (s.setCore c k).part d = s.part d := rfl
@[simp] theorem State.ticket_setCore (s : State) (c : Nat) (k : Core) (d : Nat) : (s.setCore c k).ticket d = s.ticket d := rfl

@[simp] theorem State.core_setWarp (s : State) (c w : Nat) (y : Warp) (d : Nat) : (s.setWarp c w y).core d = s.core d := rfl
@[simp] theorem State.ctx_setWarp (s : State) (c w : Nat) (y : Warp) (d x : Nat) : (s.setWarp c w y).ctx d x = s.ctx d x := rfl
@[simp] theorem State.group_setWarp (s : State) (c w : Nat) (y : Warp) (d : Nat) : (s.setWarp c w y).group d = s.group d := rfl
@[simp] theorem State.cluster_setWarp (s : State) (c w : Nat) (y : Warp) (d : Nat) : (s.setWarp c w y).cluster d = s.cluster d := rfl
@[simp] theorem State.grid_setWarp (s : State) (c w : Nat) (y : Warp) (d : Nat) : (s.setWarp c w y).grid d = s.grid d := rfl
@[simp] theorem State.part_setWarp (s : State) (c w : Nat) (y : Warp) (d : Nat) : (s.setWarp c w y).part d = s.part d := rfl
@[simp] theorem State.ticket_setWarp (s : State) (c w : Nat) (y : Warp) (d : Nat) : (s.setWarp c w y).ticket d = s.ticket d := rfl

@[simp] theorem State.core_delWarp (s : State) (c w : Nat) (d : Nat) : (s.delWarp c w).core d = s.core d := rfl
@[simp] theorem State.ctx_delWarp (s : State) (c w : Nat) (d x : Nat) : (s.delWarp c w).ctx d x = s.ctx d x := rfl
@[simp] theorem State.group_delWarp (s : State) (c w : Nat) (d : Nat) : (s.delWarp c w).group d = s.group d := rfl
@[simp] theorem State.cluster_delWarp (s : State) (c w : Nat) (d : Nat) : (s.delWarp c w).cluster d = s.cluster d := rfl
@[simp] theorem State.grid_delWarp (s : State) (c w : Nat) (d : Nat) : (s.delWarp c w).grid d = s.grid d := rfl
@[simp] theorem State.part_delWarp (s : State) (c w : Nat) (d : Nat) : (s.delWarp c w).part d = s.part d := rfl
@[simp] theorem State.ticket_delWarp (s : State) (c w : Nat) (d : Nat) : (s.delWarp c w).ticket d = s.ticket d := rfl

@[simp] theorem State.core_setCtx (s : State) (c k : Nat) (y : Ctx) (d : Nat) : (s.setCtx c k y).core d = s.core d := rfl
@[simp] theorem State.warp?_setCtx (s : State) (c k : Nat) (y : Ctx) (d x : Nat) : (s.setCtx c k y).warp? d x = s.warp? d x := rfl
@[simp] theorem State.warp_setCtx (s : State) (c k : Nat) (y : Ctx) (d x : Nat) : (s.setCtx c k y).warp d x = s.warp d x := rfl
@[simp] theorem State.group_setCtx (s : State) (c k : Nat) (y : Ctx) (d : Nat) : (s.setCtx c k y).group d = s.group d := rfl
@[simp] theorem State.cluster_setCtx (s : State) (c k : Nat) (y : Ctx) (d : Nat) : (s.setCtx c k y).cluster d = s.cluster d := rfl
@[simp] theorem State.grid_setCtx (s : State) (c k : Nat) (y : Ctx) (d : Nat) : (s.setCtx c k y).grid d = s.grid d := rfl
@[simp] theorem State.part_setCtx (s : State) (c k : Nat) (y : Ctx) (d : Nat) : (s.setCtx c k y).part d = s.part d := rfl
@[simp] theorem State.ticket_setCtx (s : State) (c k : Nat) (y : Ctx) (d : Nat) : (s.setCtx c k y).ticket d = s.ticket d := rfl

@[simp] theorem State.core_delCtx (s : State) (c k : Nat) (d : Nat) : (s.delCtx c k).core d = s.core d := rfl
@[simp] theorem State.warp?_delCtx (s : State) (c k : Nat) (d x : Nat) : (s.delCtx c k).warp? d x = s.warp? d x := rfl
@[simp] theorem State.warp_delCtx (s : State) (c k : Nat) (d x : Nat) : (s.delCtx c k).warp d x = s.warp d x := rfl
@[simp] theorem State.group_delCtx (s : State) (c k : Nat) (d : Nat) : (s.delCtx c k).group d = s.group d := rfl
@[simp] theorem State.cluster_delCtx (s : State) (c k : Nat) (d : Nat) : (s.delCtx c k).cluster d = s.cluster d := rfl
@[simp] theorem State.grid_delCtx (s : State) (c k : Nat) (d : Nat) : (s.delCtx c k).grid d = s.grid d := rfl
@[simp] theorem State.part_delCtx (s : State) (c k : Nat) (d : Nat) : (s.delCtx c k).part d = s.part d := rfl
@[simp] theorem State.ticket_delCtx (s : State) (c k : Nat) (d : Nat) : (s.delCtx c k).ticket d = s.ticket d := rfl

@[simp] theorem State.core_setGroup (s : State) (n : Nat) (y : Group) (d : Nat) : (s.setGroup n y).core d = s.core d := rfl
@[simp] theorem State.warp?_setGroup (s : State) (n : Nat) (y : Group) (d x : Nat) : (s.setGroup n y).warp? d x = s.warp? d x := rfl
@[simp] theorem State.warp_setGroup (s : State) (n : Nat) (y : Group) (d x : Nat) : (s.setGroup n y).warp d x = s.warp d x := rfl
@[simp] theorem State.ctx_setGroup (s : State) (n : Nat) (y : Group) (d x : Nat) : (s.setGroup n y).ctx d x = s.ctx d x := rfl
@[simp] theorem State.cluster_setGroup (s : State) (n : Nat) (y : Group) (d : Nat) : (s.setGroup n y).cluster d = s.cluster d := rfl
@[simp] theorem State.grid_setGroup (s : State) (n : Nat) (y : Group) (d : Nat) : (s.setGroup n y).grid d = s.grid d := rfl
@[simp] theorem State.part_setGroup (s : State) (n : Nat) (y : Group) (d : Nat) : (s.setGroup n y).part d = s.part d := rfl
@[simp] theorem State.ticket_setGroup (s : State) (n : Nat) (y : Group) (d : Nat) : (s.setGroup n y).ticket d = s.ticket d := rfl

@[simp] theorem State.core_setGrid (s : State) (n : Nat) (y : Grid) (d : Nat) : (s.setGrid n y).core d = s.core d := rfl
@[simp] theorem State.warp?_setGrid (s : State) (n : Nat) (y : Grid) (d x : Nat) : (s.setGrid n y).warp? d x = s.warp? d x := rfl
@[simp] theorem State.warp_setGrid (s : State) (n : Nat) (y : Grid) (d x : Nat) : (s.setGrid n y).warp d x = s.warp d x := rfl
@[simp] theorem State.ctx_setGrid (s : State) (n : Nat) (y : Grid) (d x : Nat) : (s.setGrid n y).ctx d x = s.ctx d x := rfl
@[simp] theorem State.group_setGrid (s : State) (n : Nat) (y : Grid) (d : Nat) : (s.setGrid n y).group d = s.group d := rfl
@[simp] theorem State.cluster_setGrid (s : State) (n : Nat) (y : Grid) (d : Nat) : (s.setGrid n y).cluster d = s.cluster d := rfl
@[simp] theorem State.part_setGrid (s : State) (n : Nat) (y : Grid) (d : Nat) : (s.setGrid n y).part d = s.part d := rfl
@[simp] theorem State.ticket_setGrid (s : State) (n : Nat) (y : Grid) (d : Nat) : (s.setGrid n y).ticket d = s.ticket d := rfl

@[simp] theorem State.core_setPart (s : State) (n : Nat) (y : Part) (d : Nat) : (s.setPart n y).core d = s.core d := rfl
@[simp] theorem State.warp?_setPart (s : State) (n : Nat) (y : Part) (d x : Nat) : (s.setPart n y).warp? d x = s.warp? d x := rfl
@[simp] theorem State.warp_setPart (s : State) (n : Nat) (y : Part) (d x : Nat) : (s.setPart n y).warp d x = s.warp d x := rfl
@[simp] theorem State.ctx_setPart (s : State) (n : Nat) (y : Part) (d x : Nat) : (s.setPart n y).ctx d x = s.ctx d x := rfl
@[simp] theorem State.group_setPart (s : State) (n : Nat) (y : Part) (d : Nat) : (s.setPart n y).group d = s.group d := rfl
@[simp] theorem State.cluster_setPart (s : State) (n : Nat) (y : Part) (d : Nat) : (s.setPart n y).cluster d = s.cluster d := rfl
@[simp] theorem State.grid_setPart (s : State) (n : Nat) (y : Part) (d : Nat) : (s.setPart n y).grid d = s.grid d := rfl
@[simp] theorem State.ticket_setPart (s : State) (n : Nat) (y : Part) (d : Nat) : (s.setPart n y).ticket d = s.ticket d := rfl

@[simp] theorem State.core_setTicket (s : State) (n : Nat) (y : Ticket) (d : Nat) : (s.setTicket n y).core d = s.core d := rfl
@[simp] theorem State.warp?_setTicket (s : State) (n : Nat) (y : Ticket) (d x : Nat) : (s.setTicket n y).warp? d x = s.warp? d x := rfl
@[simp] theorem State.warp_setTicket (s : State) (n : Nat) (y : Ticket) (d x : Nat) : (s.setTicket n y).warp d x = s.warp d x := rfl
@[simp] theorem State.ctx_setTicket (s : State) (n : Nat) (y : Ticket) (d x : Nat) : (s.setTicket n y).ctx d x = s.ctx d x := rfl
@[simp] theorem State.group_setTicket (s : State) (n : Nat) (y : Ticket) (d : Nat) : (s.setTicket n y).group d = s.group d := rfl
@[simp] theorem State.cluster_setTicket (s : State) (n : Nat) (y : Ticket) (d : Nat) : (s.setTicket n y).cluster d = s.cluster d := rfl
@[simp] theorem State.grid_setTicket (s : State) (n : Nat) (y : Ticket) (d : Nat) : (s.setTicket n y).grid d = s.grid d := rfl
@[simp] theorem State.part_setTicket (s : State) (n : Nat) (y : Ticket) (d : Nat) : (s.setTicket n y).part d = s.part d := rfl

@[simp] theorem State.core_modMgmt (s : State) (f : Mgmt → Mgmt) (d : Nat) : (s.modMgmt f).core d = s.core d := rfl
@[simp] theorem State.warp?_modMgmt (s : State) (f : Mgmt → Mgmt) (d x : Nat) : (s.modMgmt f).warp? d x = s.warp? d x := rfl
@[simp] theorem State.warp_modMgmt (s : State) (f : Mgmt → Mgmt) (d x : Nat) : (s.modMgmt f).warp d x = s.warp d x := rfl
@[simp] theorem State.ctx_modMgmt (s : State) (f : Mgmt → Mgmt) (d x : Nat) : (s.modMgmt f).ctx d x = s.ctx d x := rfl
@[simp] theorem State.group_modMgmt (s : State) (f : Mgmt → Mgmt) (d : Nat) : (s.modMgmt f).group d = s.group d := rfl
@[simp] theorem State.cluster_modMgmt (s : State) (f : Mgmt → Mgmt) (d : Nat) : (s.modMgmt f).cluster d = s.cluster d := rfl
@[simp] theorem State.grid_modMgmt (s : State) (f : Mgmt → Mgmt) (d : Nat) : (s.modMgmt f).grid d = s.grid d := rfl
@[simp] theorem State.part_modMgmt (s : State) (f : Mgmt → Mgmt) (d : Nat) : (s.modMgmt f).part d = s.part d := rfl
@[simp] theorem State.ticket_modMgmt (s : State) (f : Mgmt → Mgmt) (d : Nat) : (s.modMgmt f).ticket d = s.ticket d := rfl

@[simp] theorem State.core_push (s : State) (e : Instr) (d : Nat) : (s.push e).core d = s.core d := rfl
@[simp] theorem State.warp?_push (s : State) (e : Instr) (d x : Nat) : (s.push e).warp? d x = s.warp? d x := rfl
@[simp] theorem State.warp_push (s : State) (e : Instr) (d x : Nat) : (s.push e).warp d x = s.warp d x := rfl
@[simp] theorem State.ctx_push (s : State) (e : Instr) (d x : Nat) : (s.push e).ctx d x = s.ctx d x := rfl
@[simp] theorem State.group_push (s : State) (e : Instr) (d : Nat) : (s.push e).group d = s.group d := rfl
@[simp] theorem State.cluster_push (s : State) (e : Instr) (d : Nat) : (s.push e).cluster d = s.cluster d := rfl
@[simp] theorem State.grid_push (s : State) (e : Instr) (d : Nat) : (s.push e).grid d = s.grid d := rfl
@[simp] theorem State.part_push (s : State) (e : Instr) (d : Nat) : (s.push e).part d = s.part d := rfl
@[simp] theorem State.ticket_push (s : State) (e : Instr) (d : Nat) : (s.push e).ticket d = s.ticket d := rfl

@[simp] theorem State.core_emit (s : State) (o : Out) (d : Nat) : (s.emit o).core d = s.core d := rfl
@[simp] theorem State.warp?_emit (s : State) (o : Out) (d x : Nat) : (s.emit o).warp? d x = s.warp? d x := rfl
@[simp] theorem State.warp_emit (s : State) (o : Out) (d x : Nat) : (s.emit o).warp d x = s.warp d x := rfl
@[simp] theorem State.ctx_emit (s : State) (o : Out) (d x : Nat) : (s.emit o).ctx d x = s.ctx d x := rfl
@[simp] theorem State.group_emit (s : State) (o : Out) (d : Nat) : (s.emit o).group d = s.group d := rfl
@[simp] theorem State.cluster_emit (s : State) (o : Out) (d : Nat) : (s.emit o).cluster d = s.cluster d := rfl
@[simp] theorem State.grid_emit (s : State) (o : Out) (d : Nat) : (s.emit o).grid d = s.grid d := rfl
@[simp] theorem State.part_emit (s : State) (o : Out) (d : Nat) : (s.emit o).part d = s.part d := rfl
@[simp] theorem State.ticket_emit (s : State) (o : Out) (d : Nat) : (s.emit o).ticket d = s.ticket d := rfl

@[simp] theorem State.core_bump (s : State) (d : Nat) : (s.bump).core d = s.core d := rfl
@[simp] theorem State.warp?_bump (s : State) (d x : Nat) : (s.bump).warp? d x = s.warp? d x := rfl
@[simp] theorem State.warp_bump (s : State) (d x : Nat) : (s.bump).warp d x = s.warp d x := rfl
@[simp] theorem State.ctx_bump (s : State) (d x : Nat) : (s.bump).ctx d x = s.ctx d x := rfl
@[simp] theorem State.group_bump (s : State) (d : Nat) : (s.bump).group d = s.group d := rfl
@[simp] theorem State.cluster_bump (s : State) (d : Nat) : (s.bump).cluster d = s.cluster d := rfl
@[simp] theorem State.grid_bump (s : State) (d : Nat) : (s.bump).grid d = s.grid d := rfl
@[simp] theorem State.part_bump (s : State) (d : Nat) : (s.bump).part d = s.part d := rfl
@[simp] theorem State.ticket_bump (s : State) (d : Nat) : (s.bump).ticket d = s.ticket d := rfl

@[simp] theorem State.core_useFree (s : State) (d : Nat) : (s.useFree).core d = s.core d := rfl
@[simp] theorem State.warp?_useFree (s : State) (d x : Nat) : (s.useFree).warp? d x = s.warp? d x := rfl
@[simp] theorem State.warp_useFree (s : State) (d x : Nat) : (s.useFree).warp d x = s.warp d x := rfl
@[simp] theorem State.ctx_useFree (s : State) (d x : Nat) : (s.useFree).ctx d x = s.ctx d x := rfl
@[simp] theorem State.group_useFree (s : State) (d : Nat) : (s.useFree).group d = s.group d := rfl
@[simp] theorem State.cluster_useFree (s : State) (d : Nat) : (s.useFree).cluster d = s.cluster d := rfl
@[simp] theorem State.grid_useFree (s : State) (d : Nat) : (s.useFree).grid d = s.grid d := rfl
@[simp] theorem State.part_useFree (s : State) (d : Nat) : (s.useFree).part d = s.part d := rfl
@[simp] theorem State.ticket_useFree (s : State) (d : Nat) : (s.useFree).ticket d = s.ticket d := rfl

@[simp] theorem State.warp?_modCore (s : State) (c : Nat) (f : Core → Core) (d x : Nat) : (s.modCore c f).warp? d x = s.warp? d x := rfl
@[simp] theorem State.warp_modCore (s : State) (c : Nat) (f : Core → Core) (d x : Nat) : (s.modCore c f).warp d x = s.warp d x := rfl
@[simp] theorem State.ctx_modCore (s : State) (c : Nat) (f : Core → Core) (d x : Nat) : (s.modCore c f).ctx d x = s.ctx d x := rfl
@[simp] theorem State.group_modCore (s : State) (c : Nat) (f : Core → Core) (d : Nat) : (s.modCore c f).group d = s.group d := rfl
@[simp] theorem State.cluster_modCore (s : State) (c : Nat) (f : Core → Core) (d : Nat) : (s.modCore c f).cluster d = s.cluster d := rfl
@[simp] theorem State.grid_modCore (s : State) (c : Nat) (f : Core → Core) (d : Nat) : (s.modCore c f).grid d = s.grid d := rfl
@[simp] theorem State.part_modCore (s : State) (c : Nat) (f : Core → Core) (d : Nat) : (s.modCore c f).part d = s.part d := rfl
@[simp] theorem State.ticket_modCore (s : State) (c : Nat) (f : Core → Core) (d : Nat) : (s.modCore c f).ticket d = s.ticket d := rfl

@[simp] theorem State.core_modCtx (s : State) (c k : Nat) (f : Ctx → Ctx) (d : Nat) : (s.modCtx c k f).core d = s.core d := rfl
@[simp] theorem State.warp?_modCtx (s : State) (c k : Nat) (f : Ctx → Ctx) (d x : Nat) : (s.modCtx c k f).warp? d x = s.warp? d x := rfl
@[simp] theorem State.warp_modCtx (s : State) (c k : Nat) (f : Ctx → Ctx) (d x : Nat) : (s.modCtx c k f).warp d x = s.warp d x := rfl
@[simp] theorem State.group_modCtx (s : State) (c k : Nat) (f : Ctx → Ctx) (d : Nat) : (s.modCtx c k f).group d = s.group d := rfl
@[simp] theorem State.cluster_modCtx (s : State) (c k : Nat) (f : Ctx → Ctx) (d : Nat) : (s.modCtx c k f).cluster d = s.cluster d := rfl
@[simp] theorem State.grid_modCtx (s : State) (c k : Nat) (f : Ctx → Ctx) (d : Nat) : (s.modCtx c k f).grid d = s.grid d := rfl
@[simp] theorem State.part_modCtx (s : State) (c k : Nat) (f : Ctx → Ctx) (d : Nat) : (s.modCtx c k f).part d = s.part d := rfl
@[simp] theorem State.ticket_modCtx (s : State) (c k : Nat) (f : Ctx → Ctx) (d : Nat) : (s.modCtx c k f).ticket d = s.ticket d := rfl

@[simp] theorem State.core_modPart (s : State) (n : Nat) (f : Part → Part) (d : Nat) : (s.modPart n f).core d = s.core d := rfl
@[simp] theorem State.warp?_modPart (s : State) (n : Nat) (f : Part → Part) (d x : Nat) : (s.modPart n f).warp? d x = s.warp? d x := rfl
@[simp] theorem State.warp_modPart (s : State) (n : Nat) (f : Part → Part) (d x : Nat) : (s.modPart n f).warp d x = s.warp d x := rfl
@[simp] theorem State.ctx_modPart (s : State) (n : Nat) (f : Part → Part) (d x : Nat) : (s.modPart n f).ctx d x = s.ctx d x := rfl
@[simp] theorem State.group_modPart (s : State) (n : Nat) (f : Part → Part) (d : Nat) : (s.modPart n f).group d = s.group d := rfl
@[simp] theorem State.cluster_modPart (s : State) (n : Nat) (f : Part → Part) (d : Nat) : (s.modPart n f).cluster d = s.cluster d := rfl
@[simp] theorem State.grid_modPart (s : State) (n : Nat) (f : Part → Part) (d : Nat) : (s.modPart n f).grid d = s.grid d := rfl
@[simp] theorem State.ticket_modPart (s : State) (n : Nat) (f : Part → Part) (d : Nat) : (s.modPart n f).ticket d = s.ticket d := rfl

@[simp] theorem State.core_modWarp (s : State) (c w : Nat) (f : Warp → Warp) (d : Nat) : (s.modWarp c w f).core d = s.core d := by unfold State.modWarp; split <;> rfl
@[simp] theorem State.ctx_modWarp (s : State) (c w : Nat) (f : Warp → Warp) (d x : Nat) : (s.modWarp c w f).ctx d x = s.ctx d x := by unfold State.modWarp; split <;> rfl
@[simp] theorem State.group_modWarp (s : State) (c w : Nat) (f : Warp → Warp) (d : Nat) : (s.modWarp c w f).group d = s.group d := by unfold State.modWarp; split <;> rfl
@[simp] theorem State.cluster_modWarp (s : State) (c w : Nat) (f : Warp → Warp) (d : Nat) : (s.modWarp c w f).cluster d = s.cluster d := by unfold State.modWarp; split <;> rfl
@[simp] theorem State.grid_modWarp (s : State) (c w : Nat) (f : Warp → Warp) (d : Nat) : (s.modWarp c w f).grid d = s.grid d := by unfold State.modWarp; split <;> rfl
@[simp] theorem State.part_modWarp (s : State) (c w : Nat) (f : Warp → Warp) (d : Nat) : (s.modWarp c w f).part d = s.part d := by unfold State.modWarp; split <;> rfl
@[simp] theorem State.ticket_modWarp (s : State) (c w : Nat) (f : Warp → Warp) (d : Nat) : (s.modWarp c w f).ticket d = s.ticket d := by unfold State.modWarp; split <;> rfl
@[simp] theorem State.core_modGroup (s : State) (n : Nat) (f : Group → Group) (d : Nat) : (s.modGroup n f).core d = s.core d := by unfold State.modGroup; split <;> rfl
@[simp] theorem State.warp?_modGroup (s : State) (n : Nat) (f : Group → Group) (d x : Nat) : (s.modGroup n f).warp? d x = s.warp? d x := by unfold State.modGroup; split <;> rfl
@[simp] theorem State.warp_modGroup (s : State) (n : Nat) (f : Group → Group) (d x : Nat) : (s.modGroup n f).warp d x = s.warp d x := by unfold State.modGroup; split <;> rfl
@[simp] theorem State.ctx_modGroup (s : State) (n : Nat) (f : Group → Group) (d x : Nat) : (s.modGroup n f).ctx d x = s.ctx d x := by unfold State.modGroup; split <;> rfl
@[simp] theorem State.cluster_modGroup (s : State) (n : Nat) (f : Group → Group) (d : Nat) : (s.modGroup n f).cluster d = s.cluster d := by unfold State.modGroup; split <;> rfl
@[simp] theorem State.grid_modGroup (s : State) (n : Nat) (f : Group → Group) (d : Nat) : (s.modGroup n f).grid d = s.grid d := by unfold State.modGroup; split <;> rfl
@[simp] theorem State.part_modGroup (s : State) (n : Nat) (f : Group → Group) (d : Nat) : (s.modGroup n f).part d = s.part d := by unfold State.modGroup; split <;> rfl
@[simp] theorem State.ticket_modGroup (s : State) (n : Nat) (f : Group → Group) (d : Nat) : (s.modGroup n f).ticket d = s.ticket d := by unfold State.modGroup; split <;> rfl
@[simp] theorem State.core_modGrid (s : State) (n : Nat) (f : Grid → Grid) (d : Nat) : (s.modGrid n f).core d = s.core d := by unfold State.modGrid; split <;> rfl
@[simp] theorem State.warp?_modGrid (s : State) (n : Nat) (f : Grid → Grid) (d x : Nat) : (s.modGrid n f).warp? d x = s.warp? d x := by unfold State.modGrid; split <;> rfl
@[simp] theorem State.warp_modGrid (s : State) (n : Nat) (f : Grid → Grid) (d x : Nat) : (s.modGrid n f).warp d x = s.warp d x := by unfold State.modGrid; split <;> rfl
@[simp] theorem State.ctx_modGrid (s : State) (n : Nat) (f : Grid → Grid) (d x : Nat) : (s.modGrid n f).ctx d x = s.ctx d x := by unfold State.modGrid; split <;> rfl
@[simp] theorem State.group_modGrid (s : State) (n : Nat) (f : Grid → Grid) (d : Nat) : (s.modGrid n f).group d = s.group d := by unfold State.modGrid; split <;> rfl
@[simp] theorem State.cluster_modGrid (s : State) (n : Nat) (f : Grid → Grid) (d : Nat) : (s.modGrid n f).cluster d = s.cluster d := by unfold State.modGrid; split <;> rfl
@[simp] theorem State.part_modGrid (s : State) (n : Nat) (f : Grid → Grid) (d : Nat) : (s.modGrid n f).part d = s.part d := by unfold State.modGrid; split <;> rfl
@[simp] theorem State.ticket_modGrid (s : State) (n : Nat) (f : Grid → Grid) (d : Nat) : (s.modGrid n f).ticket d = s.ticket d := by unfold State.modGrid; split <;> rfl

end Sys2Proof.Machine
end

