-- ==== Sys2Proof/Laws/Issue.lean ====
section
/-! SUPPORT. What the issue of an instruction and the flight of its results do. -/

namespace Sys2Proof.Machine

/-- A result without a clash joins its core's results in flight, and nothing else changes. -/
theorem State.laterAt_noClash {s : State} {a : Issuer} {due seq : Nat} {w : Write}
    (h : ∀ r ∈ w.regsOf s a, r ∉ (s.core (coreOf a)).varRegs a) :
    s.laterAt a due seq w = s.modCore (coreOf a) fun k => { k with pend := k.pend ++ [⟨a, due, seq, w⟩] } := by
  have h0 : (w.regsOf s a).filter ((s.core (coreOf a)).varRegs a).contains = [] := by
    rw [List.filter_eq_nil_iff]
    intro r hr
    simpa using h r hr
  simp [State.laterAt, h0]

theorem State.later_noClash {s : State} {a : Issuer} {due : Nat} {w : Write}
    (h : ∀ r ∈ w.regsOf s a, r ∉ (s.core (coreOf a)).varRegs a) :
    s.later a due w = (s.modCore (coreOf a) fun k => { k with pend := k.pend ++ [⟨a, due, s.nextId, w⟩] }).bump := by
  rw [State.later, State.laterAt_noClash h]

/-- The registers of a result depend on the warps alone. -/
theorem Write.regsOf_congr {s t : State} (h : t.warps = s.warps) (a : Issuer) (w : Write) : w.regsOf t a = w.regsOf s a := by
  cases w <;> cases a <;> simp [Write.regsOf, State.warp, h]

/-- Results that join those in flight under one issue number, without a clash. -/
theorem State.laterAts_noClash (ws : List Write) {s : State} {a : Issuer} {due n : Nat} (h : NoClash a ws s) :
    ((ws.foldl (fun x w => x.laterAt a due n w) s).core (coreOf a)).pend = (s.core (coreOf a)).pend ++ flying a due n ws ∧
    { (ws.foldl (fun x w => x.laterAt a due n w) s).core (coreOf a) with pend := (s.core (coreOf a)).pend } = s.core (coreOf a) ∧
    (∀ k, k ≠ coreOf a → (ws.foldl (fun x w => x.laterAt a due n w) s).core k = s.core k) ∧
    { ws.foldl (fun x w => x.laterAt a due n w) s with cores := s.cores } = s := by
  induction ws generalizing s with
  | nil => simp [flying]
  | cons w t ih =>
    have hw : ∀ r ∈ w.regsOf s a, r ∉ (s.core (coreOf a)).varRegs a := h w (List.mem_cons_self ..)
    rw [List.foldl_cons, State.laterAt_noClash hw]
    generalize hs : (s.modCore (coreOf a) fun k => { k with pend := k.pend ++ [⟨a, due, n, w⟩] }) = s1
    have hc : NoClash a t s1 := by
      intro x hx r hr
      rw [Write.regsOf_congr (s := s) (by subst hs; rfl)] at hr
      have := h x (List.mem_cons_of_mem _ hx) r hr
      subst hs
      simpa [Core.varRegs] using this
    obtain ⟨h1, h2, h3, h4⟩ := ih hc
    subst hs
    simp only [State.core_modCore] at h1 h2 h3 h4
    refine ⟨?_, ?_, ?_, ?_⟩
    · rw [h1]; simp [flying]
    · rw [Core.mk.injEq] at h2 ⊢; simpa using h2
    · intro k hk; rw [h3 k hk, State.core_modCore_ne _ _ (Ne.symm hk)]
    · rw [State.mk.injEq] at h4 ⊢; simpa using h4

/-- Results of one instruction without a clash. -/
theorem State.laterAll_noClash (ws : List Write) {s : State} {a : Issuer} {due : Nat} (h : NoClash a ws s) :
    ((s.laterAll a due ws).core (coreOf a)).pend = (s.core (coreOf a)).pend ++ flying a due s.nextId ws ∧
    { (s.laterAll a due ws).core (coreOf a) with pend := (s.core (coreOf a)).pend } = s.core (coreOf a) ∧
    (∀ k, k ≠ coreOf a → (s.laterAll a due ws).core k = s.core k) ∧
    { s.laterAll a due ws with cores := s.cores, nextId := s.nextId } = s := by
  obtain ⟨h1, h2, h3, h4⟩ := State.laterAts_noClash ws (due := due) (n := s.nextId) h
  refine ⟨h1, h2, h3, ?_⟩
  have := congrArg (fun u : State => { u with nextId := s.nextId }) h4
  exact this

/-- An effect stands whichever lanes are active. -/
@[simp] theorem helperOnly_ok (v : View) (s t : State) (a : Adv) : helperOnly v s (.ok t a) = .ok t a := by
  unfold helperOnly; split <;> rfl
/-- With a real lane active nothing is suppressed. -/
@[simp] theorem helperOnly_real {v : View} (h : v.real ≠ 0) (s : State) (r : Res) : helperOnly v s r = r := by
  unfold helperOnly
  rw [if_pos (by simpa using h)]

/-- An issue whose word passes its checks is the meaning and its end. -/
theorem runWarp_issues {i : Instr} {h : Hdr} {c w : Nat} {wp : Warp} {e : Entry} {s : State} (hi : Issues i h c w wp e s)
    (body : View → State → Res) :
    runWarp h i body s =
      .next (endIssue c w h i.long (helperOnly (seen h c w wp e s) (begun c w wp s) (body (seen h c w wp e s) (begun c w wp s)))) := by
  have he := hi.early
  simp only [seen, begun] at he
  simp [runWarp, hi.cur, hi.warp, hi.first, hi.word, seen, begun, he]

/-- The end of an issue that leaves the warps as they stood. -/
theorem finishIssue_next {c w : Nat} {h : Hdr} {long : Bool} {s t : State} {wp : Warp}
    (hw : t.warps = (begun c w wp s).warps) (hn : t.now = s.now) :
    OneWarp c w (movedOn h long s.now wp) s (finishIssue c w h long .next t) ∧
    { finishIssue c w h long .next t with warps := s.warps, agenda := s.agenda, freeCtr := s.freeCtr } =
      { t with warps := s.warps, agenda := s.agenda, freeCtr := s.freeCtr } := by
  have h1 : t.warp? c w = some { wp with young := false } := by
    rw [State.warp?, hw]; exact mget?_put_same ..
  have h2 : t.modWarp c w (fun x => (x.advance long).applyCtl h t.now) = t.setWarp c w (movedOn h long s.now wp) := by
    rw [State.modWarp_some h1, hn]; rfl
  have h3 : ∀ u : State, { u.afterMove c w with agenda := s.agenda } = { u with agenda := s.agenda } := by
    intro u
    unfold State.afterMove
    split
    · rfl
    · split <;> rfl
  have h4 : ((t.setWarp c w (movedOn h long s.now wp)).afterMove c w).warps = (t.setWarp c w (movedOn h long s.now wp)).warps := by
    have := congrArg State.warps (h3 (t.setWarp c w (movedOn h long s.now wp)))
    exact this
  have h5 : finishIssue c w h long .next t = ((t.setWarp c w (movedOn h long s.now wp)).afterMove c w).useFree := by
    simp only [finishIssue]; rw [h2]
  constructor
  · constructor
    · rw [h5, State.warp?_useFree, State.warp?, h4]; exact mget?_put_same ..
    · intro n hn'
      rw [h5, State.useFree_warps, h4, State.warps_setWarp_ne _ _ _ _ hn', hw]
      exact State.warps_setWarp_ne _ _ _ _ hn'
  · rw [h5]
    exact congrArg (fun u : State => { u with warps := s.warps, freeCtr := s.freeCtr })
      (h3 (t.setWarp c w (movedOn h long s.now wp)))

/-- The registers of a result are the same for the warp that issues. -/
theorem regsOf_begun {c w : Nat} {wp : Warp} {s : State} (hw : s.warp? c w = some wp) (x : Write) :
    x.regsOf (begun c w wp s) (.warp c w) = x.regsOf s (.warp c w) := by
  have h1 : (begun c w wp s).warp c w = { wp with young := false } := mget_put_same ..
  have h2 : s.warp c w = wp := State.warp_of_warp? hw
  cases x <;> simp only [Write.regsOf, h1, h2]
  rfl

theorem NoClash.begun {c w : Nat} {wp : Warp} {s : State} (hw : s.warp? c w = some wp) {ws : List Write}
    (hc : NoClash (.warp c w) ws s) : NoClash (.warp c w) ws (begun c w wp s) := by
  intro x hx r hr
  rw [regsOf_begun hw] at hr
  exact hc x hx r hr

/-- A fixed-latency instruction whose results have no clash. -/
theorem flies_of_laterAll {h : Hdr} {long : Bool} {c w : Nat} {wp : Warp} {s : State} {lat : Nat} {ws : List Write}
    (hw : s.warp? c w = some wp) (hc : NoClash (.warp c w) ws s) :
    Flies h long c w wp lat ws s (finishIssue c w h long .next ((begun c w wp s).laterAll (.warp c w) (s.now + lat) ws)) ∧
    ((finishIssue c w h long .next ((begun c w wp s).laterAll (.warp c w) (s.now + lat) ws)).core c).f64Free =
      (s.core c).f64Free := by
  obtain ⟨h1, h2, h3, h4⟩ := State.laterAll_noClash ws (due := s.now + lat) (hc.begun hw)
  have hcore : ∀ k, (begun c w wp s).core k = s.core k := fun _ => rfl
  generalize (begun c w wp s).laterAll (.warp c w) (s.now + lat) ws = t at *
  have hwt : t.warps = (begun c w wp s).warps := by have := congrArg State.warps h4; exact this
  have hnt : t.now = s.now := by have := congrArg State.now h4; exact this
  obtain ⟨f1, f2⟩ := finishIssue_next (h := h) (long := long) hwt hnt
  have hct : ∀ k, (finishIssue c w h long .next t).core k = t.core k := by
    intro k
    have := congrArg (fun u : State => u.core k) f2
    exact this
  simp only [coreOf, hcore] at h1 h2 h3
  refine ⟨⟨?_, ⟨?_, ?_⟩, f1, ?_⟩, ?_⟩
  · rw [hct, h1]; rfl
  · rw [hct]
    have := congrArg (fun k : Core => { k with f64Free := (s.core c).f64Free }) h2
    exact this
  · intro k hk; rw [hct]; exact h3 k hk
  · have := congrArg (fun u : State => { u with cores := s.cores, nextId := s.nextId }) f2
    refine Eq.trans this ?_
    have := congrArg (fun u : State => { u with warps := s.warps, agenda := s.agenda, freeCtr := s.freeCtr }) h4
    exact this
  · rw [hct]
    have := congrArg Core.f64Free h2
    exact this

/-- A check of v registers that passes, or that no real lane makes for certain. -/
theorem guardV_pass {regs : List Nat} {body : View → State → Res} {v : View} {s : State}
    (h : v.real = 0 ∨ v.early = true ∨ checkVs s v.wp regs = none) : guardV regs body v s = body v s := by
  unfold guardV
  rcases h with h | h | h
  · simp [h]
  · simp [h]
  · rw [h]; split <;> rfl

/-- A fixed-latency operation on v registers. -/
theorem vecOp_pass {srcs : List Nat} {d k lat : Nat} {f : State → View → Nat → List W32} {v : View} {s : State}
    (h : v.real = 0 ∨ v.early = true ∨ checkVs s v.wp (srcs ++ runRegs d k) = none) :
    vecOp srcs d k lat f v s =
      .ok (if v.act = 0 then s else s.laterAll v.me (s.now + lat) (rowWrites v d k (f s v))) .next := by
  rw [vecOp, guardV_pass h]
  by_cases ha : v.act = 0
  · simp [ha]
  · simp only [beq_iff_eq, if_neg ha]

end Sys2Proof.Machine
end

