-- ==== Sys2Proof/Laws/Memory.lean ====
section
/-! SUPPORT. Laws of device memory: every operation keeps the canonical form, and what a write leaves. -/

namespace Sys2Proof.Machine

/-- The canonical form, said of the list as a whole. -/
theorem wf_iff (m : List Host.Cell) :
    Memory.wf m = true ↔ m.Pairwise (fun a b => a.1 < b.1) ∧ ∀ c ∈ m, c.2 ≠ 0 := by
  induction m with
  | nil => simp [Memory.wf]
  | cons a t ih =>
    cases t with
    | nil => obtain ⟨a, v⟩ := a; simp [Memory.wf]
    | cons b t =>
      obtain ⟨a, v⟩ := a
      obtain ⟨b, w⟩ := b
      simp only [Memory.wf, Bool.and_eq_true, decide_eq_true_eq, bne_iff_ne, ih, List.pairwise_cons, List.mem_cons, forall_eq_or_imp]
      constructor
      · rintro ⟨⟨hv, hab⟩, ⟨hb, ht⟩, hw, hz⟩
        exact ⟨⟨⟨hab, fun c hc => Nat.lt_trans hab (hb c hc)⟩, hb, ht⟩, hv, hw, hz⟩
      · rintro ⟨⟨⟨hab, _⟩, hb, ht⟩, hv, hw, hz⟩
        exact ⟨⟨hv, hab⟩, ⟨hb, ht⟩, hw, hz⟩

theorem pairwise_del {m : List Host.Cell} (n : Nat) (h : m.Pairwise (fun a b => a.1 < b.1)) :
    (mdel m n).Pairwise (fun a b => a.1 < b.1) := by
  induction m with
  | nil => exact h
  | cons a t ih =>
    unfold mdel
    rw [List.pairwise_cons] at h
    split
    · exact ih h.2
    · exact List.pairwise_cons.mpr ⟨fun b hb => h.1 b (mem_of_mem_del hb), ih h.2⟩

theorem pairwise_put {m : List Host.Cell} (n : Nat) (x : Byte) (h : m.Pairwise (fun a b => a.1 < b.1)) :
    (mput m n x).Pairwise (fun a b => a.1 < b.1) := by
  induction m with
  | nil => simp [mput]
  | cons a t ih =>
    obtain ⟨a, v⟩ := a
    unfold mput
    rw [List.pairwise_cons] at h
    split
    · next e => subst e; exact List.pairwise_cons.mpr ⟨h.1, h.2⟩
    · next e =>
      split
      · next l =>
        refine List.pairwise_cons.mpr ⟨?_, List.pairwise_cons.mpr h⟩
        rintro b (_ | ⟨_, hb⟩)
        · exact l
        · exact Nat.lt_trans l (h.1 b hb)
      · next l =>
        refine List.pairwise_cons.mpr ⟨fun b hb => ?_, ih h.2⟩
        rcases mem_of_mem_put hb with hb | hb
        · subst hb; exact Nat.lt_of_le_of_ne (Nat.le_of_not_lt l) e
        · exact h.1 b hb

/-- One byte written keeps the form. -/
theorem wf_mset {m : List Host.Cell} (n : Nat) (x : Byte) (h : Memory.wf m = true) : Memory.wf (mset 0 m n x) = true := by
  rw [wf_iff] at h ⊢
  unfold mset
  split
  · exact ⟨pairwise_del n h.1, fun c hc => h.2 c (mem_of_mem_del hc)⟩
  · next hx =>
    refine ⟨pairwise_put n x h.1, fun c hc => ?_⟩
    rcases mem_of_mem_put hc with hc | hc
    · subst hc; exact hx
    · exact h.2 c hc

theorem wf_writeCells {m : List Host.Cell} (cells : List (Nat × Byte)) (h : Memory.wf m = true) :
    Memory.wf (writeCells m cells) = true := by
  unfold writeCells
  induction cells generalizing m with
  | nil => exact h
  | cons c t ih => exact ih (wf_mset c.1 c.2 h)

theorem wf_filter {m : List Host.Cell} (p : Host.Cell → Bool) (h : Memory.wf m = true) : Memory.wf (m.filter p) = true := by
  rw [wf_iff] at h ⊢
  exact ⟨h.1.filter p, fun c hc => h.2 c ((List.mem_filter.mp hc).1)⟩

/-- The write that every change of device memory goes through keeps the form. -/
theorem wf_memWrite (s : State) (cells : List (Nat × Byte)) (rmw : Bool) (h : Memory.wf s.mem = true) :
    Memory.wf (s.memWrite cells rmw).mem = true := wf_writeCells cells h

theorem wf_wrBytes (s : State) (a : Nat) (bs : List Byte) (h : Memory.wf s.mem = true) : Memory.wf (s.wrBytes a bs).mem = true :=
  wf_memWrite s _ _ h

theorem wf_rmw64 (s : State) (a : Nat) (f : W64 → W64) (h : Memory.wf s.mem = true) : Memory.wf (s.rmw64 a f).mem = true :=
  wf_memWrite s _ _ h

theorem wf_reset : Memory.wf State.reset.mem = true := rfl

/-- A byte that no cell of a write names reads as before. -/
theorem mget_writeCells (m : List Host.Cell) (cells : List (Nat × Byte)) (a : Nat) (h : ∀ c ∈ cells, c.1 ≠ a) :
    mget 0 (writeCells m cells) a = mget 0 m a := by
  unfold writeCells
  induction cells generalizing m with
  | nil => rfl
  | cons c t ih =>
    rw [List.foldl_cons, ih _ fun d hd => h d (List.mem_cons_of_mem _ hd)]
    exact mget_set_ne 0 m c.2 (h c (List.mem_cons_self ..))

theorem rd8_memWrite (s : State) (cells : List (Nat × Byte)) (rmw : Bool) (a : Nat) (h : ∀ c ∈ cells, c.1 ≠ a) :
    (s.memWrite cells rmw).rd8 a = s.rd8 a := mget_writeCells s.mem cells a h

theorem cellsAt_addr {a : Nat} {bs : List Byte} {c : Nat × Byte} (h : c ∈ cellsAt a bs) : a ≤ c.1 ∧ c.1 < a + bs.length := by
  induction bs generalizing a with
  | nil => simp [cellsAt] at h
  | cons b t ih =>
    rcases List.mem_cons.mp h with h | h
    · subst h; simp
    · have := ih h
      simp only [List.length_cons]
      omega

/-- A write of bytes leaves every byte outside them. -/
theorem rd8_wrBytes (s : State) (a : Nat) (bs : List Byte) (x : Nat) (h : x < a ∨ a + bs.length ≤ x) :
    (s.wrBytes a bs).rd8 x = s.rd8 x := by
  refine rd8_memWrite s _ _ x fun c hc => ?_
  have := cellsAt_addr hc
  omega

/-- A written byte reads back. -/
theorem rd8_wrBytes_one (s : State) (a : Nat) (b : Byte) : (s.wrBytes a [b]).rd8 a = b := by
  show mget 0 (writeCells s.mem (cellsAt a [b])) a = b
  simp [writeCells, cellsAt]

end Sys2Proof.Machine
end

