-- ==== Sys2Proof/Laws/Xlat.lean ====
section
/-! SUPPORT. What a translation and the checks of a lane change: the TLBs, and the accessed and dirty bits of leaf entries. -/

namespace Sys2Proof.Machine

/-- Nothing differs but device memory, the shared TLBs and the TLBs of cores. -/
structure XlFrame (s t : State) : Prop where
  rest : { t with mem := s.mem, poison := s.poison, stlbs := s.stlbs, cores := s.cores } = s
  core : ∀ k, { t.core k with tlb := (s.core k).tlb } = s.core k

theorem XlFrame.refl (s : State) : XlFrame s s := ⟨rfl, fun _ => rfl⟩

theorem XlFrame.trans {s t u : State} (h : XlFrame s t) (g : XlFrame t u) : XlFrame s u := by
  constructor
  · have := congrArg (fun x : State => { x with mem := s.mem, poison := s.poison, stlbs := s.stlbs, cores := s.cores }) g.rest
    exact Eq.trans this h.rest
  · intro k
    have := congrArg (fun x : Core => { x with tlb := (s.core k).tlb }) (g.core k)
    exact Eq.trans this (h.core k)

theorem mget_mmap {α : Type} (d : α) (f : Nat → α → α) (m : List (Nat × α)) (n : Nat) :
    mget d (mmap f m) n = (match mget? m n with | some x => f n x | none => d) := by
  induction m with
  | nil => rfl
  | cons a t ih =>
    by_cases h : a.1 = n
    · simp [mmap, mget, mget?, h]
    · simpa [mmap, mget, mget?, h] using ih

theorem mget_eq_getD {α : Type} (d : α) (m : List (Nat × α)) (n : Nat) : mget d m n = (mget? m n).getD d := by
  induction m with
  | nil => rfl
  | cons a t ih => by_cases h : a.1 = n <;> simp [mget, mget?, h, ih]

theorem XlFrame.mapTlbs (s : State) (f : TlbE → Option TlbE) : XlFrame s (s.mapTlbs f) := by
  refine ⟨rfl, fun k => ?_⟩
  simp only [State.core, State.mapTlbs, mget_mmap]
  rw [mget_eq_getD]
  cases mget? s.cores k <;> simp

theorem XlFrame.rmw64 (s : State) (a : Nat) (f : W64 → W64) : XlFrame s (s.rmw64 a f) := ⟨rfl, fun _ => rfl⟩

theorem XlFrame.orPte (s : State) (a : Nat) (b : W64) : XlFrame s (s.orPte a b) :=
  (XlFrame.rmw64 s a _).trans (XlFrame.mapTlbs _ _)

theorem XlFrame.fillTlb (s : State) (c : Nat) (t : TlbE) : XlFrame s (s.fillTlb c t) := by
  refine ⟨rfl, fun k => ?_⟩
  by_cases h : c = k
  · subst h; simp [State.fillTlb, State.core, State.modCore, State.setCore]
  · simp [State.fillTlb, State.core, State.modCore, State.setCore, mget_put_ne _ _ _ h]

theorem XlFrame.xlGrant (s : State) (va : Nat) (need : Need) (t : TlbE) (l : Nat) : XlFrame s (xlGrant s va need t l).2 := by
  unfold Machine.xlGrant
  split
  · exact .refl s
  · simp only
    split
    · exact .orPte ..
    · exact .refl s

theorem XlFrame.xlWalk (s : State) (c n va : Nat) (need : Need) : XlFrame s (xlWalk s c n va need).2 := by
  unfold Machine.xlWalk
  split
  · exact .refl s
  · exact .refl s
  · split
    · exact .refl s
    · refine XlFrame.trans ?_ ((XlFrame.fillTlb _ _ _).trans (.xlGrant ..))
      split
      · exact .refl s
      · exact .orPte ..

/-- A translation changes only TLBs and the accessed and dirty bits. -/
theorem XlFrame.xlate (s : State) (c n va : Nat) (need : Need) : XlFrame s (xlate s c n va need).2 := by
  unfold Machine.xlate
  split
  · exact .xlWalk ..
  · simp only
    split
    · exact (XlFrame.mapTlbs _ _).trans (.xlWalk ..)
    · exact (XlFrame.fillTlb _ _ _).trans (.xlGrant ..)

/-- The same, and collectives may be marked as raced by a store. -/
structure LaneFrame (s t : State) : Prop where
  rest : { t with mem := s.mem, poison := s.poison, stlbs := s.stlbs, cores := s.cores, colls := s.colls } = s
  core : ∀ k, { t.core k with tlb := (s.core k).tlb } = s.core k

theorem LaneFrame.refl (s : State) : LaneFrame s s := ⟨rfl, fun _ => rfl⟩
theorem LaneFrame.of {s t : State} (h : XlFrame s t) : LaneFrame s t :=
  ⟨congrArg (fun x : State => { x with colls := s.colls }) h.rest, h.core⟩
theorem LaneFrame.trans {s t u : State} (h : LaneFrame s t) (g : LaneFrame t u) : LaneFrame s u := by
  constructor
  · have := congrArg (fun x : State =>
      { x with mem := s.mem, poison := s.poison, stlbs := s.stlbs, cores := s.cores, colls := s.colls }) g.rest
    exact Eq.trans this h.rest
  · intro k
    have := congrArg (fun x : Core => { x with tlb := (s.core k).tlb }) (g.core k)
    exact Eq.trans this (h.core k)
theorem LaneFrame.collTouch (s : State) (n va len : Nat) : LaneFrame s (s.collTouch n va len) := by
  unfold State.collTouch
  simp only
  split
  · exact .refl s
  · exact ⟨rfl, fun _ => rfl⟩

/-- The checks of a lane's global access. -/
theorem LaneFrame.laneGlobal (s : State) (c n : Nat) (need : Need) (len al : Nat) (va : W64) :
    LaneFrame s (laneGlobal s c n need len al va).2 := by
  have hx := LaneFrame.of (XlFrame.xlate s c n va.toNat need)
  unfold Machine.laneGlobal
  generalize xlate s c n va.toNat need = p at *
  obtain ⟨x, s'⟩ := p
  simp only at hx ⊢
  repeat' split
  all_goals first | exact .refl s | exact hx

theorem LaneFrame.laneFold (f : State → Nat → LX × State) (hf : ∀ s j, LaneFrame s (f s j).2) (l : List Nat) (s : State) :
    LaneFrame s (laneFold f l s).2 := by
  induction l generalizing s with
  | nil => exact .refl s
  | cons j t ih => exact (hf s j).trans (ih _)

end Sys2Proof.Machine
end

