-- ==== Sys2Proof/Tests/Slice0.lean ====
section
/-! SUPPORT. Decoding and word checks, and for every statement that has hypotheses a state that meets them: a witness takes the
statement and applies it there. The words are those that the manual writes out, or are put
together here field by field from the formats of 13 R296, R300, R301, R308 to R310 and the opcode map of 13 R314. -/

namespace Sys2Proof.Tests

open Sys2Proof Sys2Proof.Machine Sys2Proof.Claims

set_option maxRecDepth 100000
set_option Elab.async false

/-! ### Words of the manual -/

/-- Examples of parts 13, 15 and 16. -/
theorem test_words_of_parts_13_to_16 :
    decodeTableWord 64 0x005C140408423001 = some (.iadd ⟨false, 7, 0x3001⟩ ⟨5, 1, 2, 0x10, 2⟩) ∧
    decodeTableWord 64 0x811C2008C0908000 = some (.ld ⟨false, 7, 0x8000⟩ 4 ⟨8, 2, 1, 4, 0, 1, 4, 0⟩) ∧
    decodeTableWord 64 0x8C1C200811300000 = some (.atom ⟨false, 7, 0⟩ 0 ⟨8, 2, 4, 2, 3, 0, false⟩) ∧
    decodeTableWord 64 0xC040000800030000 = some (.bra ⟨false, 0, 0⟩ ⟨2, 3⟩) ∧
    decodeTableWord 64 0xA01C002000810000 = some (.cpy ⟨false, 7, 0⟩ ⟨0, 8, 0, 1, 0, 1⟩) ∧
    decodeTableWord 64 0x401C1C1981640000 = some (.cvt ⟨false, 7, 0⟩ ⟨7, 6, 12, false, 11, false, 1, false⟩) ∧
    decodeTableWord 64 0xC25C000000000000 = some (.eret ⟨false, 7, 0⟩ ⟨0, 0, 0, 0, false⟩) ∧
    decodeTableWord 64 0xC21C000000000000 = some (.exit ⟨false, 7, 0⟩ ⟨0, 0, 0, 0, false⟩) ∧
    decodeTableWord 64 0x281C2804080C3000 = some (.ffma ⟨false, 7, 0x3000⟩ 0 ⟨10, 1, 2, 3, 0⟩) ∧
    decodeTableWord 64 0xA2DC000000400000 = some (.give ⟨false, 7, 0⟩ ⟨0, 0, 0, false, 0x40⟩) ∧
    decodeTableWord 64 0xE91C020000004000 = some (.hrel ⟨false, 7, 0x4000⟩ ⟨0, 2, 0, 0, 0⟩) ∧
    decodeTableWord 64 0x8B9C102001050000 = some (.ldt ⟨false, 7, 0⟩ ⟨4, 8, 0, 2, 1, 1⟩) ∧
    decodeTableWord 64 0xE89C000000004000 = some (.lngo ⟨false, 7, 0x4000⟩ ⟨0, 0, 0, 0, 0⟩) ∧
    decodeTableWord 64 0xE85C802000004000 = some (.lnset ⟨false, 7, 0x4000⟩ ⟨8, 0, 1, 0, 0⟩) ∧
    decodeTableWord 64 0x031C0C0409800000 = some (.lop ⟨false, 7, 0⟩ ⟨3, 1, 2, 0x60, 0⟩) := by decide

/-- Examples of part 17. -/
theorem test_words_of_part_17 :
    decodeTableWord 64 0x631C280C01000000 = some (.match_ ⟨false, 7, 0⟩ ⟨10, 3, 0, 2, 0, 0⟩) ∧
    decodeTableWord 64 0xA25C00181E0F0000 = some (.mbarv ⟨false, 7, 0⟩ ⟨0, 6, 7, 4, 3, 3⟩) ∧
    decodeTableWord 64 0xE09C54B0A6404000 = some (.mmal ⟨false, 7, 0x4000⟩ ⟨5, 300, 1, 2, 400, false, false⟩) ∧
    decodeTableWord 64 0xE01C54B00640C000 = some (.mma ⟨false, 7, 0xC000⟩ ⟨5, 300, 0, 0, 400, false, false⟩) ∧
    decodeTableWord 64 0x601C502001200000 = some (.mov ⟨false, 7, 0⟩ ⟨20, 8, 0, 0x48, 0⟩) ∧
    decodeTableWord 64 0xC01C000000000000 = some (.nop ⟨false, 7, 0⟩ ⟨0, 0, 0, 0, false⟩) ∧
    decodeTableWord 64 0x629C0C0801380000 = some (.qswz ⟨false, 7, 0⟩ ⟨3, 2, 0, 0x4E, false⟩) ∧
    decodeTableWord 64 0x649C000000400000 = some (.rdsrToG ⟨false, 7, 0⟩ ⟨0, 0, 0, 0x10, false⟩) ∧
    decodeTableWord 64 0xA09CA01001810000 = some (.redeem ⟨false, 7, 0⟩ ⟨40, 4, 0, 3, 0, 1⟩) ∧
    decodeTableWord 64 0xC1DC000000000000 = some (.ret ⟨false, 7, 0⟩ ⟨0, 0, 0, 0, false⟩) ∧
    decodeTableWord 64 0xA55C281000810000 = some (.ringpop ⟨false, 7, 0⟩ ⟨10, 4, 0, 1, 0, 1⟩) := by decide

/-- Examples of parts 18 and 19. -/
theorem test_words_of_parts_18_and_19 :
    decodeTableWord 64 0xE81C300808004000 = some (.sbr ⟨false, 7, 0x4000⟩ ⟨3, 0, 0, 2, 2⟩) ∧
    decodeTableWord 64 0x8B1C0020290F0000 = some (.seal ⟨false, 7, 0⟩ ⟨0, 8, 10, 2, 3, 3⟩) ∧
    decodeTableWord 64 0x621C1C18080E0000 = some (.shfl ⟨false, 7, 0⟩ ⟨7, 6, 2, 0, 3, 2⟩) ∧
    decodeTableWord 64 0xC31C080000140000 = some (.sqrun ⟨false, 7, 0⟩ ⟨2, 0, 0, 5, false⟩) ∧
    decodeTableWord 64 0x829C180800880000 = some (.st ⟨false, 7, 0⟩ 2 ⟨6, 2, 0, 0, 0, 1, 2, 0⟩) ∧
    decodeTableWord 64 0xA35C0013FF000000 = some (.take ⟨false, 7, 0⟩ ⟨0, 4, 0x3FF, false, 0⟩) ∧
    decodeTableWord 64 0xA35C000101000000 = some (.take ⟨false, 7, 0⟩ ⟨0, 0, 257, false, 0⟩) ∧
    decodeTableWord 64 0xE25D464006404000 = some (.tmax ⟨false, 7, 0x4000⟩ ⟨20, 400, 0, 400, false, false⟩) ∧
    decodeTableWord 64 0xE29C064036684000 = some (.tcvt ⟨false, 7, 0x4000⟩ ⟨0, 400, 3, 410, false, false⟩) ∧
    decodeTableWord 64 0xE41CC00056404000 = some (.tld ⟨false, 7, 0x4000⟩ ⟨12, 0, 0, 0, 5, 400, false⟩) ∧
    decodeTableWord 64 0xE61C064006484000 = some (.txp ⟨false, 7, 0x4000⟩ ⟨0, 400, 0, 402, false, false⟩) ∧
    decodeTableWord 64 0xE8DC720000004000 = some (.xlt ⟨false, 7, 0x4000⟩ ⟨7, 2, 0, 0, 0⟩) ∧
    decodeTableWord 64 0x401F030182400000 = some (.cvt ⟨false, 7, 0⟩ ⟨192, 192, 12, false, 18, false, 0, false⟩) ∧
    decodeTableWord 64 0x461F030002400000 = some (.fact ⟨false, 7, 0⟩ 0 ⟨192, 192, 0, 0x90, 0⟩) ∧
    decodeTableWord 64 0xE01C0029B0274000 = some (.mma ⟨false, 7, 0x4000⟩ ⟨0, 10, 3, 3, 9, true, true⟩) ∧
    decodeTableWord 64 0x82DC487801820002 = some (.st ⟨false, 7, 2⟩ 3 ⟨18, 30, 0, 0, 0, 3, 0, 2⟩) ∧
    decodeTableWord 64 0xA51C002052030000 = some (.ringpub ⟨false, 7, 0⟩ ⟨0, 8, 20, 4, 0, 3⟩) := by decide

/-! ### Words put together field by field -/

/-- A word with predicate p7 from OPC [63:54], D [49:42], A [41:34], B [33:26], C [25:18], X [17:16], control [15:0]. -/
def w8 (opc d a b c x : Nat) (ctl : Nat := 0) : Nat :=
  opc * 2 ^ 54 + 7 * 2 ^ 50 + d * 2 ^ 42 + a * 2 ^ 34 + b * 2 ^ 26 + c * 2 ^ 18 + x * 2 ^ 16 + ctl
def h7 : Hdr := ⟨false, 7, 0⟩
/-- Predicate p2, negated: PNEG is bit 53, PN bits [52:50]. -/
def hN : Hdr := ⟨true, 2, 0⟩
def negP2 (w : Nat) : Nat := w + 2 ^ 53 - 5 * 2 ^ 50

/-- The integer group, and both halves of the predicate (13 R296). -/
theorem test_decode_integer :
    decodeTableWord 64 (w8 0x002 4 6 0x10 0xFE 1) = some (.iaddImm h7 ⟨4, 6, 0x10, 0xFE, true⟩) ∧
    decodeTableWord 64 (w8 0x003 4 6 8 0x12 2) = some (.imul h7 ⟨4, 6, 8, 0x12, 2⟩) ∧
    decodeTableWord 64 (w8 0x004 4 6 0x11 3 0) = some (.imulImm h7 ⟨4, 6, 0x11, 3, false⟩) ∧
    decodeTableWord 64 (w8 0x005 4 6 0 0x10 0) = some (.iabs h7 ⟨4, 6, 0, 0x10, 0⟩) ∧
    decodeTableWord 64 (w8 0x006 4 6 8 0x30 0) = some (.ishl h7 ⟨4, 6, 8, 0x30, 0⟩) ∧
    decodeTableWord 64 (w8 0x007 4 6 0x30 31 0) = some (.ishlImm h7 ⟨4, 6, 0x30, 31, false⟩) ∧
    decodeTableWord 64 (w8 0x008 4 6 8 0x10 0) = some (.ishr h7 ⟨4, 6, 8, 0x10, 0⟩) ∧
    decodeTableWord 64 (w8 0x009 4 6 0x10 31 0) = some (.ishrImm h7 ⟨4, 6, 0x10, 31, false⟩) ∧
    decodeTableWord 64 (w8 0x00A 2 6 8 0x12 0) = some (.icmp h7 ⟨2, 6, 8, 0x12, 0⟩) ∧
    decodeTableWord 64 (w8 0x00B 2 6 0x12 9 0) = some (.icmpImm h7 ⟨2, 6, 0x12, 9, false⟩) ∧
    decodeTableWord 64 (w8 0x00D 4 6 0x80 15 0) = some (.lopImm h7 ⟨4, 6, 0x80, 15, false⟩) ∧
    decodeTableWord 64 (w8 0x00E 4 6 8 0x30 0) = some (.bfe h7 ⟨4, 6, 8, 0x30, 0⟩) ∧
    decodeTableWord 64 (w8 0x010 4 6 0 0x40 0) = some (.brev h7 ⟨4, 6, 0, 0x40, 0⟩) ∧
    decodeTableWord 64 (w8 0x011 4 6 0 0x40 0) = some (.clz h7 ⟨4, 6, 0, 0x40, 0⟩) ∧
    decodeTableWord 64 (w8 0x012 4 6 0 0x40 0) = some (.popc h7 ⟨4, 6, 0, 0x40, 0⟩) ∧
    decodeTableWord 64 (w8 0x015 4 6 8 10 0) = some (.bfi h7 true ⟨4, 6, 8, 10, 0⟩) ∧
    decodeTableWord 64 (w8 0x01B 4 6 8 10 0) = some (.imad h7 3 ⟨4, 6, 8, 10, 0⟩) ∧
    decodeTableWord 64 (negP2 (w8 0x001 4 6 8 0x10 0)) = some (.iadd hN ⟨4, 6, 8, 0x10, 0⟩) := by decide

/-- The float, conversion and move groups. -/
theorem test_decode_float_and_moves :
    decodeTableWord 64 (w8 0x081 4 6 8 0x60 0) = some (.fadd h7 1 ⟨4, 6, 8, 0x60, 0⟩) ∧
    decodeTableWord 64 (w8 0x085 4 6 8 0x60 0) = some (.fmul h7 true ⟨4, 6, 8, 0x60, 0⟩) ∧
    decodeTableWord 64 (w8 0x086 4 6 8 0x61 0) = some (.fmex h7 ⟨4, 6, 8, 0x61, 0⟩) ∧
    decodeTableWord 64 (w8 0x087 3 6 8 0x62 0) = some (.fcmp h7 ⟨3, 6, 8, 0x62, 0⟩) ∧
    decodeTableWord 64 (w8 0x088 3 6 8 0x62 0) = some (.fcmpFtz h7 ⟨3, 6, 8, 0x62, 0⟩) ∧
    decodeTableWord 64 (w8 0x114 4 6 0 0x60 0) = some (.sfn h7 4 ⟨4, 6, 0, 0x60, 0⟩) ∧
    decodeTableWord 64 (w8 0x181 4 6 0 0x40 0) = some (.movToG h7 ⟨4, 6, 0, 0x40, 0⟩) ∧
    decodeTableWord 64 (w8 0x182 4 0x12 0x34 2 0) = some (.movi h7 ⟨4, 0x1234, 2⟩) ∧
    decodeTableWord 64 (w8 0x183 4 0x12 0x34 3 0) = some (.moviToG h7 ⟨4, 0x1234, 3⟩) ∧
    decodeTableWord 128 (w8 0x184 4 0 0 0 0 + 0x0123456789ABCDEF * 2 ^ 64) = some (.movl h7 ⟨4, 0x0123456789ABCDEF⟩) ∧
    decodeTableWord 128 (w8 0x185 4 0 0 0 0 + 5 * 2 ^ 64) = some (.movlToG h7 ⟨4, 5⟩) ∧
    decodeTableWord 64 (w8 0x186 4 6 8 0x13 0) = some (.sel h7 ⟨4, 6, 8, 0x13, 0⟩) ∧
    decodeTableWord 64 (w8 0x18B 2 1 0 (1 * 32 + 1) 0) = some (.vote h7 ⟨2, 1, 0, 1, 1, 0⟩) ∧
    decodeTableWord 64 (w8 0x18D 2 6 0 (3 * 32 + 8) 0) = some (.redux h7 ⟨2, 6, 0, 3, 8, 0⟩) ∧
    decodeTableWord 64 (w8 0x190 2 0 1 0x80 0) = some (.plop h7 ⟨2, 0, 1, 0x80, 0⟩) ∧
    decodeTableWord 64 (w8 0x191 4 0 0 0x02 0) = some (.rdsr h7 ⟨4, 0, 0, 2, false⟩) ∧
    decodeTableWord 64 (w8 0x193 0 6 0 0x20 1) = some (.wrsr h7 ⟨0, 6, 0, 0x20, true⟩) := by decide

/-- The memory group: ORD, SCOPE, VEC, TOK and OFS of MEM (13 R304), ATOMF (13 R305). -/
theorem test_decode_memory :
    decodeTableWord 64 (w8 0x20D 4 6 0 (1 * 32 + 31) 0) = some (.stNt h7 1 ⟨4, 6, 0, 0, 0, 1, 31, 0⟩) ∧
    decodeTableWord 64 (w8 0x214 4 6 1 (2 * 32) 0) = some (.lds h7 4 ⟨4, 6, 0, 0, 1, 2, 0, 0⟩) ∧
    decodeTableWord 64 (w8 0x21C 4 6 (1 * 32 + 3 * 4) 0 0) = some (.ldsCl h7 4 ⟨4, 6, 1, 3, 0, 0, 0, 0⟩) ∧
    decodeTableWord 64 (w8 0x222 4 6 0 0 1) = some (.sts h7 2 ⟨4, 6, 0, 0, 0, 0, 0, 1⟩) ∧
    decodeTableWord 64 (w8 0x226 4 6 0 0 0) = some (.stsCl h7 2 ⟨4, 6, 0, 0, 0, 0, 0, 0⟩) ∧
    decodeTableWord 64 (w8 0x228 0 6 (4 * 4) 0 0) = some (.pref h7 ⟨0, 6, 0, 4, 0, 0, 0, 0⟩) ∧
    decodeTableWord 64 (w8 0x229 0 0 (3 * 32 + 4 * 4) 0 0) = some (.fence h7 ⟨0, 0, 3, 4, 0, 0, 0, 0⟩) ∧
    decodeTableWord 64 (w8 0x22A 0 6 8 (1 * 32) 0) = some (.flushr h7 ⟨0, 6, 8, 1, 0, 0⟩) ∧
    decodeTableWord 64 (w8 0x22B 0 6 8 (1 * 32) 0) = some (.invr h7 ⟨0, 6, 8, 1, 0, 0⟩) ∧
    decodeTableWord 64 (w8 0x22D 0 0 0 (1 * 32 + 3) 0) = some (.unseal h7 ⟨0, 0, 0, 1, 3, 0⟩) ∧
    decodeTableWord 64 (w8 0x22F 4 6 0 (1 * 32 + 2) 0) = some (.ldtTry h7 ⟨4, 6, 0, 1, 2, 0⟩) ∧
    decodeTableWord 64 (w8 0x250 4 6 8 0 0) = some (.atomAddFloat h7 false ⟨4, 6, 8, 0, 0, 0, false⟩) ∧
    decodeTableWord 64 (w8 0x253 0 6 8 (2 * 4 * 8 + 1 * 4 + 1) 3) = some (.atomsAddFloat h7 true ⟨0, 6, 8, 2, 1, 3, true⟩) ∧
    decodeTableWord 64 (w8 0x27C 4 6 8 0 0) = some (.atoms h7 28 ⟨4, 6, 8, 0, 0, 0, false⟩) := by decide

/-- The async and synchronisation group: ASY (13 R306), SYS (13 R307), TRADE (13 R309). -/
theorem test_decode_async :
    decodeTableWord 64 (w8 0x281 0 8 0 0 1) = some (.tcpy h7 ⟨0, 8, 0, 0, 0, 1⟩) ∧
    decodeTableWord 64 (w8 0x283 3 4 0 0 1) = some (.redeemS h7 ⟨3, 4, 0, 0, 0, 1⟩) ∧
    decodeTableWord 64 (w8 0x284 0 4 0 0 1) = some (.tkdrop h7 ⟨0, 4, 0, 0, 0, 1⟩) ∧
    decodeTableWord 64 (w8 0x285 0 0 0 6 0) = some (.waitk h7 ⟨0, 0, 0, 6, false⟩) ∧
    decodeTableWord 64 (w8 0x286 0 0 0 0 0) = some (.bar h7 ⟨0, 0, 0, 0, false⟩) ∧
    decodeTableWord 64 (w8 0x287 0 0 0 0 0) = some (.cbar h7 ⟨0, 0, 0, 0, false⟩) ∧
    decodeTableWord 64 (w8 0x288 0 6 7 (5 * 32) 0) = some (.mbinit h7 ⟨0, 6, 7, 5, 0, 0⟩) ∧
    decodeTableWord 64 (w8 0x28A 0 6 0 2 0) = some (.mbwait h7 ⟨0, 6, 0, 0, 2, 0⟩) ∧
    decodeTableWord 64 (w8 0x28C 0 0 0 (1 * 32) 0) = some (.giveFree h7 ⟨0, 0, 0, true, 0⟩) ∧
    decodeTableWord 64 (w8 0x28E 5 0 0 0 0) = some (.takeNew h7 ⟨5, 0, 0, false, 0⟩) ∧
    decodeTableWord 64 (w8 0x28F 5 0 0x40 (1 * 64) 0) = some (.tstat h7 ⟨5, 0, 257, false, 0⟩) ∧
    decodeTableWord 64 (w8 0x290 0 0 0 6 0) = some (.grow h7 ⟨0, 0, 0, 6, false⟩) ∧
    decodeTableWord 64 (w8 0x291 0 0 0 1 0) = some (.shrink h7 ⟨0, 0, 0, 1, false⟩) ∧
    decodeTableWord 64 (w8 0x292 0 16 0 (1 * 32) 1) = some (.coll h7 ⟨0, 16, 0, 1, 0, 1⟩) ∧
    decodeTableWord 64 (w8 0x293 10 4 0 (1 * 32) 1) = some (.ringres h7 ⟨10, 4, 0, 1, 0, 1⟩) := by decide

/-- The control group: BR and FAR (13 R308), SYS. -/
theorem test_decode_control :
    decodeTableWord 128 (0x302 * 2 ^ 54 + 7 * 2 ^ 50 + 9 * 2 ^ 34 + 0x3FFFFFFFF * 2 ^ 64) = some (.braFar h7 ⟨9, -1⟩) ∧
    decodeTableWord 64 (w8 0x303 0 6 0 0 1) = some (.brx h7 ⟨0, 6, 0, 0, true⟩) ∧
    decodeTableWord 64 (0x304 * 2 ^ 54 + 7 * 2 ^ 50 + 9 * 2 ^ 34 + 0x3FFFE * 2 ^ 16) = some (.call h7 ⟨9, -2⟩) ∧
    decodeTableWord 128 (0x305 * 2 ^ 54 + 7 * 2 ^ 50 + 9 * 2 ^ 34 + 4 * 2 ^ 64) = some (.callFar h7 ⟨9, 4⟩) ∧
    decodeTableWord 64 (w8 0x306 0 6 0 0 0) = some (.callx h7 ⟨0, 6, 0, 0, false⟩) ∧
    decodeTableWord 64 (w8 0x30A 0 0 0 0x17 0) = some (.trap h7 ⟨0, 0, 0, 0x17, false⟩) ∧
    decodeTableWord 64 (w8 0x30B 0 0 0 0 0) = some (.bkpt h7 ⟨0, 0, 0, 0, false⟩) ∧
    decodeTableWord 64 (w8 0x30D 0 0 3 0 0) = some (.sqstop h7 ⟨0, 0, 3, 0, false⟩) ∧
    decodeTableWord 64 (w8 0x30E 4 0 1 0 0) = some (.sqwait h7 ⟨4, 0, 1, 0, false⟩) ∧
    decodeTableWord 64 (w8 0x30F 0 0 0 0 0) = some (.syield h7 ⟨0, 0, 0, 0, false⟩) := by decide

/-- The sequencer group (13 R310): MMAF, TVEC and TMEM by their bits; a bundle of six words (05 R92). -/
theorem test_decode_sequencer :
    decodeTableWord 64 (0x381 * 2 ^ 54 + 7 * 2 ^ 50 + 5 * 2 ^ 44 + 300 * 2 ^ 34 + 1 * 2 ^ 31 + 1 * 2 ^ 28 + 400 * 2 ^ 18) =
      some (.mmaSp h7 ⟨5, 300, 1, 1, 400, false, false⟩) ∧
    decodeTableWord 64 (0x383 * 2 ^ 54 + 7 * 2 ^ 50 + 5 * 2 ^ 44 + 300 * 2 ^ 34 + 10 * 2 ^ 28 + 400 * 2 ^ 18) =
      some (.mmalSp h7 ⟨5, 300, 1, 2, 400, false, false⟩) ∧
    decodeTableWord 64 (0x388 * 2 ^ 54 + 7 * 2 ^ 50 + 20 * 2 ^ 44 + 300 * 2 ^ 34 + 7 * 2 ^ 18 + 2 ^ 17) =
      some (.tfmas h7 ⟨20, 300, 0, 7, true, false⟩) ∧
    decodeTableWord 64 (0x38B * 2 ^ 54 + 7 * 2 ^ 50 + 410 * 2 ^ 18) = some (.tzero h7 ⟨0, 0, 0, 410, false, false⟩) ∧
    decodeTableWord 64 (0x391 * 2 ^ 54 + 7 * 2 ^ 50 + 12 * 2 ^ 44 + 8 * 2 ^ 32 + 3 * 2 ^ 28 + 400 * 2 ^ 18) =
      some (.tst h7 ⟨12, 0, 0, 8, 3, 400, false⟩) ∧
    decodeTableWord 64 (0x392 * 2 ^ 54 + 7 * 2 ^ 50 + 12 * 2 ^ 44 + 9 * 2 ^ 40 + 5 * 2 ^ 37 + 5 * 2 ^ 28 + 400 * 2 ^ 18) =
      some (.tgld h7 ⟨12, 9, 5, 0, 5, 400, false⟩) ∧
    decodeTableWord 64 (0x393 * 2 ^ 54 + 7 * 2 ^ 50 + 12 * 2 ^ 44 + 9 * 2 ^ 40 + 5 * 2 ^ 28 + 6 * 2 ^ 18 + 2 ^ 16) =
      some (.tgst h7 ⟨12, 9, 0, 0, 5, 6, true⟩) ∧
    decodeTableWord 384 (1 + 2 <<< 64 + 3 <<< 128 + 4 <<< 192 + 5 <<< 256 + 6 <<< 320) = some (.bundle 1 2 3 4 5 6) := by
  decide

/-- What decodes to nothing: a zero word and gaps of the map (13 R315), bits that a format marks zero (13 R299, R301, R308, R310). -/
theorem test_decode_refuses :
    decodeTableWord 64 0 = none ∧ decodeTableWord 64 (w8 0x00F 0 0 0 0 0) = none ∧ decodeTableWord 64 (w8 0x117 0 0 0 0 0) = none ∧
    decodeTableWord 64 (w8 0x206 0 0 0 0 0) = none ∧ decodeTableWord 64 (w8 0x23E 0 0 0 0 0) = none ∧
    decodeTableWord 64 (w8 0x24F 0 0 0 0 0) = none ∧ decodeTableWord 64 (w8 0x27E 0 0 0 0 0) = none ∧
    decodeTableWord 64 (w8 0x296 0 0 0 0 0) = none ∧ decodeTableWord 64 (w8 0x310 0 0 0 0 0) = none ∧
    decodeTableWord 64 (w8 0x384 0 0 0 0 0) = none ∧ decodeTableWord 64 (w8 0x3A5 0 0 0 0 0) = none ∧
    decodeTableWord 64 (w8 0x002 4 6 0x10 1 2) = none ∧ decodeTableWord 64 (w8 0x100 7 6 (12 * 8 + 1) (11 * 8) 0) = none ∧
    decodeTableWord 64 (w8 0x182 4 0 0 4 0) = none ∧ decodeTableWord 128 (w8 0x184 4 1 0 0 0) = none ∧
    decodeTableWord 64 (w8 0x300 0 0 4 0 0) = none ∧ decodeTableWord 128 (w8 0x302 0 0 0 1 0) = none ∧
    decodeTableWord 128 (0x305 * 2 ^ 54 + 7 * 2 ^ 50 + 2 ^ (64 + 34)) = none ∧ decodeTableWord 64 (w8 0x3A0 0 0 0 1 0) = none ∧
    decodeTableWord 64 (w8 0x390 0 0 0 0 2) = none := by decide

/-! ### The checks of a word -/

/-- One ill-formed term for each check of a warp's word: each is refused. -/
def badWarp : List Instr := [
  .atom h7 14 ⟨4, 6, 8, 0, 0, 0, false⟩,            -- a code of the gaps (13 R315)
  .atom h7 0 ⟨4, 6, 8, 1, 0, 0, false⟩,             -- an ordering without a scope (09 R196)
  .atom h7 0 ⟨4, 6, 8, 4, 2, 0, false⟩,             -- ORD above .acqrel
  .atom h7 0 ⟨4, 6, 8, 0, 7, 0, false⟩,             -- SCOPE above system
  .atom h7 0 ⟨4, 7, 8, 0, 0, 0, false⟩,             -- an odd address pair
  .atom h7 29 ⟨4, 6, 6, 0, 0, 0, false⟩,            -- .cas.b64: four registers from a multiple of 4
  .atom h7 0 ⟨4, 6, 8, 0, 0, 0, true⟩,              -- NR with a destination (13 R305)
  .atom h7 28 ⟨0, 6, 8, 0, 0, 0, true⟩,             -- NR with .cas
  .atom h7 0 ⟨0, 6, 8, 1, 2, 0, true⟩,              -- NR with an acquire
  .atomAddFloat h7 false ⟨4, 7, 8, 0, 0, 0, false⟩,
  .atoms h7 30 ⟨4, 6, 8, 0, 0, 0, false⟩,           -- .b128 on a scratchpad
  .atoms h7 0 ⟨4, 6, 8, 0, 4, 0, false⟩,            -- a scope wider than the cluster
  .atomsAddFloat h7 true ⟨4, 6, 8, 2, 0, 0, false⟩,
  .bar h7 ⟨1, 0, 0, 0, false⟩, .bkpt h7 ⟨0, 1, 0, 0, false⟩, .cbar h7 ⟨0, 0, 1, 0, false⟩, .exit h7 ⟨0, 0, 0, 1, false⟩,
  .nop h7 ⟨0, 0, 0, 0, true⟩, .ret h7 ⟨1, 0, 0, 0, false⟩, .syield h7 ⟨0, 1, 0, 0, false⟩,
  .eret hN ⟨0, 0, 0, 0, false⟩,                     -- a predicate (16 R363)
  .bfe h7 ⟨4, 6, 8, 0x40, 0⟩, .bfe h7 ⟨4, 6, 8, 0x31, 0⟩, .bfe h7 ⟨4, 6, 8, 0x34, 0⟩,
  .bfi h7 true ⟨5, 6, 8, 10, 0⟩,
  .brev h7 ⟨4, 6, 0, 0x30, 0⟩, .brev h7 ⟨4, 6, 1, 0x40, 0⟩, .clz h7 ⟨4, 6, 0, 0x10, 0⟩, .popc h7 ⟨4, 6, 0, 0x40, 2⟩,
  .brx h7 ⟨1, 6, 0, 0, false⟩, .brx h7 ⟨0, 7, 0, 0, false⟩, .callx h7 ⟨0, 64, 0, 0, true⟩,
  .coll h7 ⟨0, 4, 0, 1, 0, 1⟩, .cpy h7 ⟨0, 8, 0, 1, 0, 0⟩, .tcpy h7 ⟨0, 64, 0, 1, 0, 1⟩,
  .cvt h7 ⟨4, 6, 19, false, 12, false, 0, false⟩,   -- a reserved type code (13 R303)
  .fact h7 5 ⟨4, 6, 0, 0x60, 0⟩, .fact h7 0 ⟨4, 6, 0, 0x68, 0⟩, .sfn h7 7 ⟨4, 6, 0, 0x60, 0⟩, .sfn h7 0 ⟨4, 6, 0, 0x61, 0⟩,
  .fadd h7 0 ⟨4, 6, 8, 0x10, 0⟩, .fadd h7 0 ⟨4, 6, 8, 0x6C, 0⟩, .fmul h7 false ⟨5, 6, 8, 0x68, 0⟩,
  .fmex h7 ⟨4, 6, 8, 0x62, 0⟩,
  .fcmp h7 ⟨8, 6, 8, 0x60, 0⟩, .fcmp h7 ⟨2, 6, 8, 0x88, 0⟩, .fcmpFtz h7 ⟨2, 6, 8, 0x68, 0⟩,
  .fence h7 ⟨0, 0, 5, 2, 0, 0, 0, 0⟩, .fence h7 ⟨0, 0, 3, 0, 0, 0, 0, 0⟩, .fence h7 ⟨1, 0, 3, 2, 0, 0, 0, 0⟩,
  .ffma h7 12 ⟨4, 6, 8, 10, 0⟩,                     -- .ftz of .f64 (06 R131)
  .flushr h7 ⟨1, 6, 8, 0, 0, 0⟩, .invr h7 ⟨0, 7, 8, 0, 0, 0⟩,
  .give h7 ⟨0, 0, 257, false, 0x40⟩, .give h7 ⟨0, 0, 0, false, 0x44⟩, .giveFree h7 ⟨0, 0, 0, false, 1⟩,
  .grow h7 ⟨0, 0, 0, 7, false⟩, .shrink h7 ⟨0, 0, 0, 0, false⟩,
  .iabs h7 ⟨4, 6, 0, 0x30, 0⟩,
  .iadd h7 ⟨4, 6, 8, 0x60, 0⟩, .iadd h7 ⟨4, 6, 8, 0x12, 0⟩, .iadd h7 ⟨4, 6, 8, 0x44, 0⟩, .iadd h7 ⟨4, 6, 65, 0x10, 2⟩,
  .iadd h7 ⟨5, 6, 8, 0x18, 0⟩, .iaddImm h7 ⟨4, 64, 0x10, 0, true⟩,
  .icmp h7 ⟨2, 6, 8, 0x16, 0⟩, .icmp h7 ⟨8, 6, 8, 0x10, 0⟩, .icmpImm h7 ⟨2, 6, 0x40, 0, false⟩,
  .imad h7 2 ⟨4, 6, 8, 11, 0⟩,
  .imul h7 ⟨4, 6, 8, 0x13, 0⟩, .imul h7 ⟨4, 6, 8, 0x15, 0⟩, .imul h7 ⟨4, 6, 8, 0x1A, 0⟩, .imulImm h7 ⟨5, 6, 0x12, 0, false⟩,
  .ishl h7 ⟨4, 6, 8, 0x34, 0⟩, .ishlImm h7 ⟨4, 6, 0x31, 0, false⟩, .ishr h7 ⟨4, 6, 8, 0x20, 0⟩, .ishrImm h7 ⟨255, 6, 0x18, 0, false⟩,
  .ld h7 6 ⟨4, 6, 0, 0, 0, 0, 0, 0⟩, .ld h7 4 ⟨4, 6, 0, 0, 3, 0, 0, 0⟩, .ld h7 0 ⟨4, 6, 0, 0, 1, 0, 0, 0⟩,
  .ld h7 4 ⟨6, 6, 0, 0, 2, 0, 0, 0⟩, .ld h7 4 ⟨4, 6, 2, 2, 0, 0, 0, 0⟩, .ld h7 4 ⟨4, 6, 1, 0, 0, 0, 0, 0⟩,
  .lds h7 4 ⟨4, 6, 1, 4, 0, 0, 0, 0⟩, .ldsCl h7 5 ⟨4, 6, 0, 0, 2, 0, 0, 0⟩,
  .ldt h7 ⟨5, 6, 0, 0, 0, 0⟩, .ldtTry h7 ⟨4, 6, 0, 0, 3, 0⟩,
  .lop h7 ⟨4, 6, 8, 0x81, 0⟩, .lopImm h7 ⟨5, 6, 0x88, 0, false⟩,
  .match_ h7 ⟨4, 6, 0, 0, 2, 0⟩, .match_ h7 ⟨4, 7, 0, 0, 1, 0⟩,
  .mbinit h7 ⟨0, 6, 7, 0, 1, 0⟩, .mbarv h7 ⟨0, 6, 7, 0, 8, 0⟩, .mbwait h7 ⟨0, 6, 0, 1, 0, 0⟩,
  .mov h7 ⟨4, 6, 0, 0x10, 0⟩, .mov h7 ⟨4, 6, 1, 0x40, 0⟩, .movToG h7 ⟨64, 6, 0, 0x40, 0⟩, .moviToG h7 ⟨64, 0, 0⟩,
  .movl h7 ⟨5, 0⟩, .movlToG h7 ⟨63, 0⟩,
  .plop h7 ⟨2, 0, 8, 0x80, 0⟩, .plop h7 ⟨2, 0, 1, 0x81, 0⟩,
  .pref h7 ⟨0, 6, 0, 2, 0, 0, 0, 0⟩, .pref h7 ⟨0, 6, 0, 0, 0, 1, 0, 0⟩,
  .qswz h7 ⟨4, 6, 1, 0, false⟩,
  .rdsr h7 ⟨4, 0, 0, 13, false⟩, .rdsr h7 ⟨5, 0, 0, 0x10, false⟩, .rdsrToG h7 ⟨4, 1, 0, 0, false⟩,
  .redeem h7 ⟨40, 4, 0, 0, 0, 0⟩, .redeem h7 ⟨40, 5, 0, 0, 0, 1⟩, .redeemS h7 ⟨64, 4, 0, 0, 0, 1⟩,
  .redux h7 ⟨2, 6, 0, 0, 6, 0⟩, .redux h7 ⟨2, 6, 0, 0, 11, 0⟩,
  .ringpop h7 ⟨9, 4, 0, 0, 0, 1⟩, .ringres h7 ⟨10, 4, 0, 0, 1, 1⟩, .ringpub h7 ⟨0, 4, 7, 0, 0, 3⟩,
  .seal h7 ⟨0, 8, 10, 0, 16, 3⟩, .unseal h7 ⟨0, 1, 0, 0, 0, 0⟩,
  .sel h7 ⟨4, 6, 8, 0x00, 0⟩, .shfl h7 ⟨4, 6, 8, 0, 4, 0⟩, .shfl h7 ⟨4, 6, 8, 0, 0, 1⟩,
  .sqrun h7 ⟨64, 0, 0, 0, false⟩, .sqstop h7 ⟨0, 0, 0, 1, false⟩, .sqwait h7 ⟨3, 0, 0, 0, false⟩,
  .st h7 2 ⟨4, 6, 1, 2, 0, 0, 0, 0⟩, .stNt h7 2 ⟨4, 6, 0, 1, 0, 0, 0, 0⟩, .sts h7 2 ⟨4, 6, 0, 4, 0, 0, 0, 0⟩,
  .stsCl h7 3 ⟨5, 6, 0, 0, 0, 0, 0, 0⟩,
  .take h7 ⟨1, 4, 0x3FF, false, 0⟩, .take h7 ⟨0, 4, 257, false, 0⟩, .takeNew h7 ⟨64, 0, 0, false, 0⟩,
  .tstat h7 ⟨5, 4, 0x3FF, true, 0⟩,
  .tkdrop h7 ⟨0, 4, 0, 1, 0, 1⟩, .trap h7 ⟨1, 0, 0, 0, false⟩,
  .vote h7 ⟨2, 8, 0, 0, 0, 0⟩, .vote h7 ⟨8, 1, 0, 0, 1, 0⟩, .vote h7 ⟨2, 1, 0, 0, 3, 0⟩,
  .waitk h7 ⟨0, 0, 1, 0, false⟩, .wrsr h7 ⟨0, 6, 0, 0x10, false⟩]
theorem test_ill_formed_in_warp : badWarp.all (fun i => !i.wfWarp) = true := by decide +kernel

/-- Operations of group 111 are ill-formed in a warp; what R299 says of them is ILLEGAL_SLOT, of a code of the gaps ILLEGAL_OPCODE, of
MU ILLEGAL_CONTROL, of a bad field ILLEGAL_OPERAND, in the order of 11 R250. -/
theorem test_word_traps :
    wordTrap h7 (.mma h7 ⟨5, 300, 0, 0, 400, false, false⟩) = some 0x02 ∧
    wordTrap h7 (.atom h7 14 ⟨4, 6, 8, 0, 0, 0, false⟩) = some 0x01 ∧
    wordTrap ⟨false, 7, 0x400⟩ (.nop ⟨false, 7, 0x400⟩ ⟨1, 0, 0, 0, false⟩) = some 0x03 ∧
    wordTrap h7 (.nop h7 ⟨1, 0, 0, 0, false⟩) = some 0x08 ∧
    wordTrap h7 (.nop h7 ⟨0, 0, 0, 0, false⟩) = none := by decide

/-- One ill-formed term for each check of a slot's word. -/
def badSlot : List Instr := [
  .mma h7 ⟨5, 300, 6, 6, 400, false, false⟩, .mma h7 ⟨5, 300, 2, 3, 400, false, false⟩, .mma h7 ⟨5, 300, 0, 0, 64, true, false⟩,
  .mma h7 ⟨5, 300, 0, 0, 255, false, false⟩,        -- C is no accumulator tile (04 R82)
  .mmaSp h7 ⟨5, 301, 0, 0, 400, false, false⟩,      -- an odd A of .sp
  .mmal h7 ⟨5, 300, 0, 1, 400, false, false⟩,       -- an odd SA
  .mmalSp h7 ⟨5, 301, 0, 0, 400, false, false⟩,
  .tfmas h7 ⟨4, 400, 1, 400, false, false⟩, .tmax h7 ⟨4, 64, 0, 400, false, true⟩,
  .tcvt h7 ⟨1, 400, 3, 410, false, false⟩, .tcvt h7 ⟨0, 400, 6, 410, false, false⟩, .tcvt h7 ⟨0, 400, 12, 410, false, false⟩,
  .tzero h7 ⟨0, 400, 0, 410, false, false⟩, .txp h7 ⟨0, 400, 0, 768, false, false⟩,
  .tld h7 ⟨12, 1, 0, 0, 5, 400, false⟩, .tst h7 ⟨12, 0, 0, 0, 6, 400, false⟩, .tst h7 ⟨12, 0, 0, 1, 5, 400, false⟩,
  .tgld h7 ⟨12, 1, 0, 16, 5, 400, false⟩, .tgst h7 ⟨12, 1, 0, 0, 5, 64, true⟩,
  .cpy h7 ⟨0, 8, 0, 1, 0, 1⟩, .tcpy h7 ⟨0, 6, 0, 1, 0, 0⟩, .redeem h7 ⟨64, 4, 0, 0, 0, 0⟩, .redeemS h7 ⟨4, 4, 0, 0, 1, 0⟩,
  .sbr h7 ⟨3, 0, 0, 5, 2⟩, .sbr h7 ⟨3, 1, 0, 0, 2⟩, .lnset h7 ⟨6, 0, 0, 0, 0⟩, .lnset h7 ⟨4, 0, 6, 0, 0⟩, .lngo h7 ⟨1, 0, 0, 0, 0⟩,
  .xlt h7 ⟨7, 2, 1, 0, 0⟩, .hrel h7 ⟨1, 2, 0, 0, 0⟩,
  .iadd h7 ⟨4, 6, 8, 0x10, 0⟩, .iadd h7 ⟨4, 6, 8, 0x18, 1⟩, .iaddImm h7 ⟨4, 64, 0x18, 0, false⟩, .ishl h7 ⟨4, 6, 8, 0x30, 0⟩,
  .ishlImm h7 ⟨4, 6, 0x18, 0, true⟩, .lop h7 ⟨4, 6, 8, 0x80, 0⟩, .lopImm h7 ⟨4, 6, 0x80, 0, false⟩,
  .give h7 ⟨0, 0, 300, true, 3⟩, .giveFree h7 ⟨0, 0, 300, false, 3⟩, .take h7 ⟨1, 0, 300, false, 0⟩, .takeNew h7 ⟨4, 0, 300, false, 0⟩,
  .tstat h7 ⟨64, 0, 300, false, 0⟩, .tkdrop h7 ⟨0, 4, 0, 0, 0, 1⟩, .waitk h7 ⟨1, 0, 0, 0, false⟩, .fence h7 ⟨0, 0, 3, 2, 0, 0, 0, 0⟩,
  .sqstop h7 ⟨0, 0, 1, 0, false⟩, .syield h7 ⟨1, 0, 0, 0, false⟩,
  .mov h7 ⟨4, 6, 0, 0x40, 0⟩]                       -- no slot takes it (13 R314)
theorem test_ill_formed_in_slot : badSlot.all (fun i => !i.wfSlot) = true := by decide +kernel

/-- Terms that the checks pass. -/
theorem test_well_formed :
    ([.atom h7 30 ⟨4, 6, 8, 3, 6, 0, false⟩, .atoms h7 28 ⟨4, 6, 8, 1, 1, 0, false⟩, .eret h7 ⟨0, 0, 0, 0, false⟩,
      .ld h7 4 ⟨4, 6, 1, 6, 2, 0, 0, 0⟩, .st h7 3 ⟨4, 6, 2, 1, 1, 0, 0, 0⟩, .ffma h7 8 ⟨4, 6, 8, 10, 0⟩, .grow h7 ⟨0, 0, 0, 6, false⟩,
      .redeem h7 ⟨40, 4, 0, 0, 0, 1⟩, .take h7 ⟨0, 4, 0x3FF, false, 0⟩, .vote h7 ⟨63, 1, 0, 0, 2, 0⟩].all (fun i : Instr => i.wfWarp) &&
     [.mma h7 ⟨5, 300, 0, 1, 400, false, false⟩, .mmalSp h7 ⟨5, 300, 1, 2, 9, true, false⟩, .tcvt h7 ⟨0, 400, 24, 410, false, false⟩,
      .tst h7 ⟨12, 0, 0, 16, 4, 767, false⟩, .iadd h7 ⟨4, 6, 8, 0x18, 0⟩, .take h7 ⟨0, 5, 0x3FF, false, 0⟩, .lnset h7 ⟨8, 0, 5, 0, 0⟩].all
      (fun i : Instr => i.wfSlot)) = true := by decide +kernel

/-! Witnesses: for every statement with hypotheses a concrete state and operands that meet all of them together. Each theorem
`witness_<statement>…` takes the statement as `H` and applies it, so that its hypotheses are the statement's own, word for word, and
every one of them is discharged on the concrete state; its conclusion is what the statement then says of that state. -/

/-- A running warp, placed in group 1 of grid 1 of partition 0, whose turn it is. -/
def wS : State := { placeAgent State.reset false 0 [] with cur := .warp 0 0, turn := .none }
/-- A running context of a sequencer, whose turn it is. -/
def cS : State := { placeAgent State.reset true 0 [] with cur := .ctx 0 0, turn := .none }
def hd (i : Instr) : Hdr := i.hdr?.getD h7
def wpOf (s : State) : Warp := (s.warp? 0 0).getD {}
def eOf (s : State) : Entry := (wpOf s).first.getD {}
def sn (i : Instr) (s : State) : View := seen (hd i) 0 0 (wpOf s) (eOf s) s
def bg (s : State) : State := begun 0 0 (wpOf s) s

/-- Words of v registers: number, lane, value. -/
def withV (s : State) (l : List (Nat × Nat × Nat)) : State :=
  s.modCore 0 fun k => l.foldl (fun k x => k.setWord (x.1 / 32) (x.1 % 32) x.2.1 (BitVec.ofNat 32 x.2.2)) k
/-- v registers with one value in every lane. -/
def withVs (s : State) (l : List (Nat × Nat)) : State := withV s (l.flatMap fun x => (List.range 32).map fun j => (x.1, j, x.2))
def withG (s : State) (l : List (Nat × Nat)) : State :=
  s.modWarp 0 0 fun w => { w with g := l.foldl (fun m x => mset 0 m x.1 (BitVec.ofNat 32 x.2)) w.g }
/-- Little-endian bytes at a virtual address of the placed page. -/
def putVa (s : State) (va n x : Nat) : State := s.wrBytes (0x5000 + va) (leBytes n x)
def ringNum (slot log2n log2sz kind notify resv head st : Nat) : Nat :=
  slot + log2n * 2 ^ 64 + log2sz * 2 ^ 72 + kind * 2 ^ 80 + notify * 2 ^ 82 + resv * 2 ^ 192 + head * 2 ^ 256 + st * 2 ^ 320
def withRing (s : State) (va slot log2n log2sz kind notify resv head st : Nat) : State :=
  putVa s va 64 (ringNum slot log2n log2sz kind notify resv head st)
/-- A fault ring with room. -/
def withFlt (s : State) : State := (withRing s 0xC00 0xD00 2 6 2 2 0 0 0xC80).modPart 0 fun p => { p with fltring := 0xC00 }

def okIssue (i : Instr) (s : State) : Bool :=
  i.hdr? == some (hd i) && s.cur == .warp 0 0 && s.warp? 0 0 == some (wpOf s) && (wpOf s).first == some (eOf s) &&
    (wordTrap (hd i) i == none) && (earlyUses (bg s) (sn i s) i).isNone
theorem issues_of {i : Instr} {s : State} (h : okIssue i s = true) : Issues i (hd i) 0 0 (wpOf s) (eOf s) s := by
  simp [okIssue] at h
  exact ⟨h.1.1.1.1.1, h.1.1.1.1.2, h.1.1.1.2, h.1.1.2, h.1.2, h.2⟩
theorem completes {o : Host.Outcome State Fault Refusal} {P : State → Prop} (h : Answers o P) : ∃ t, o = .next t :=
  let ⟨t, ht, _⟩ := h
  ⟨t, ht⟩
/-- No result clashes with one that is still out. -/
def freeOf (a : Issuer) (ws : List Write) (s : State) : Bool :=
  decide (∀ w ∈ ws, ∀ r ∈ w.regsOf s a, r ∉ (s.core (coreOf a)).varRegs a)
theorem noClash_of {a : Issuer} {ws : List Write} {s : State} (h : freeOf a ws s = true) : NoClash a ws s := by
  unfold NoClash
  exact of_decide_eq_true h

/-- The state of the witnesses of lane operations. -/
def aS : State :=
  (withG (withVs wS [(2, 5), (3, 7), (4, 0x3F800000), (5, 0xC1200000), (6, 0x40000000), (7, 33), (8, 0x305)]) [(2, 5), (4, 123)]).modWarp 0 0
    fun w => { w with preds := [(0, 0xF0F0), (1, 0xFF)] }

def laneReady (f : State → View → Instr → Option LaneOp) (s : State) (i : Instr) : Bool :=
  match f (bg s) (sn i s) i with
  | none => false
  | some o => okIssue i s && decide ((sn i s).real = 0 ∨ checkVs (bg s) (wpOf s) (o.srcs ++ runRegs o.d o.k) = none) &&
      freeOf (.warp 0 0) (rowWrites (sn i s) o.d o.k o.val) s
theorem laneReady_some {f : State → View → Instr → Option LaneOp} {s : State} {i : Instr} (h : laneReady f s i = true) :
    ∃ o, f (bg s) (sn i s) i = some o ∧ Issues i (hd i) 0 0 (wpOf s) (eOf s) s ∧
      ((sn i s).real = 0 ∨ checkVs (bg s) (wpOf s) (o.srcs ++ runRegs o.d o.k) = none) ∧
      NoClash (.warp 0 0) (rowWrites (sn i s) o.d o.k o.val) s := by
  unfold laneReady at h
  split at h
  · cases h
  · rename_i o ho
    simp only [Bool.and_eq_true, decide_eq_true_eq] at h
    exact ⟨o, ho, issues_of h.1.1, h.1.2, noClash_of h.2⟩

/-- Type and variant of a modifier byte. -/
def md (t v : Nat) : BitVec 8 := BitVec.ofNat 8 (t * 8 + v)
/-- Headers of an instruction for every lane, of one for the lanes of p0, and of one for no lane. -/
def heads : List Hdr := [h7, ⟨false, 0, 0x1000⟩, ⟨true, 7, 0⟩]
def ints (h : Hdr) : List Instr := [
  .iadd h ⟨10, 2, 4, md 2 0, 0⟩, .iadd h ⟨10, 2, 4, md 3 1, 0⟩, .iadd h ⟨10, 2, 3, md 6 4, 2⟩, .iaddImm h ⟨10, 2, md 2 0, 0xF0, true⟩,
  .imul h ⟨10, 2, 4, md 2 0, 0⟩, .imul h ⟨10, 2, 4, md 6 2, 0⟩, .imulImm h ⟨10, 4, md 6 2, 0xF0, false⟩, .imad h 0 ⟨10, 2, 4, 8, 0⟩,
  .imad h 7 ⟨10, 2, 4, 8, 0⟩, .iabs h ⟨10, 2, 0, md 3 0, 0⟩, .ishl h ⟨10, 2, 7, md 2 0, 0⟩, .ishlImm h ⟨10, 2, md 3 0, 64, false⟩,
  .ishr h ⟨10, 2, 7, md 2 0, 0⟩, .ishrImm h ⟨10, 2, md 7 0, 63, false⟩]
def bits (h : Hdr) : List Instr := [
  .lop h ⟨10, 2, 4, 0x60, 0⟩, .lopImm h ⟨10, 2, 0x80, 3, false⟩, .bfe h ⟨10, 2, 8, md 6 0, 0⟩, .bfi h false ⟨10, 2, 4, 8, 0⟩,
  .bfi h true ⟨10, 2, 4, 8, 0⟩, .brev h ⟨10, 2, 0, md 9 0, 0⟩, .clz h ⟨10, 2, 0, md 8 0, 0⟩, .popc h ⟨10, 2, 0, md 9 0, 0⟩]
def floats (h : Hdr) : List Instr := [
  .fadd h 0 ⟨10, 4, 6, md 12 0, 0⟩, .fadd h 1 ⟨10, 4, 6, md 13 0, 0⟩, .fmul h true ⟨10, 4, 6, md 12 0, 0⟩, .fmex h ⟨10, 4, 6, md 12 0, 0⟩,
  .ffma h 0 ⟨10, 4, 6, 8, 0⟩, .ffma h 1 ⟨10, 4, 6, 8, 0⟩, .cvt h ⟨10, 4, 12, false, 2, false, 0, false⟩, .cvt h ⟨10, 4, 2, true, 12, false, 3, false⟩,
  .sfn h 0 ⟨10, 4, 0, md 12 0, 0⟩, .fact h 0 ⟨10, 4, 0, md 12 0, 0⟩]
def movs (h : Hdr) : List Instr := [
  .mov h ⟨10, 4, 0, md 8 0, 0⟩, .mov h ⟨10, 4, 0, md 9 0, 1⟩, .movi h ⟨10, 0xF234, 0⟩, .movi h ⟨10, 0xF234, 3⟩, .movl h ⟨10, 0x123456789ABCDEF⟩,
  .sel h ⟨10, 4, 6, md 8 1, 0⟩, .qswz h ⟨10, 4, 0, 0x1B, false⟩, .rdsr h ⟨10, 0, 0, 0, false⟩, .rdsr h ⟨10, 0, 0, 0x22, false⟩]

theorem lane_ops (H : Obligations.LaneOpsComplete) {l : List Instr} (h : ∀ i ∈ l, laneReady laneOp aS i = true) :
    ∀ i ∈ l, ∃ t, exec i aS = .next t := by
  intro i hi
  obtain ⟨o, ho, h1, h2, h3⟩ := laneReady_some (h i hi)
  exact completes (H _ _ _ _ _ _ _ o h1 ho h2 h3)
theorem witness_LaneOpsComplete_integers (H : Obligations.LaneOpsComplete) :
    ∀ i ∈ heads.flatMap fun h => ints h ++ bits h, ∃ t, exec i aS = .next t := lane_ops H (by decide +kernel)
theorem witness_LaneOpsComplete_floats (H : Obligations.LaneOpsComplete) :
    ∀ i ∈ heads.flatMap floats, ∃ t, exec i aS = .next t := lane_ops H (by decide +kernel)
theorem witness_LaneOpsComplete_moves (H : Obligations.LaneOpsComplete) :
    ∀ i ∈ heads.flatMap movs, ∃ t, exec i aS = .next t := lane_ops H (by decide +kernel)

def compares (h : Hdr) : List Instr := [
  .icmp h ⟨3, 2, 4, md 2 1, 0⟩, .icmp h ⟨7, 2, 4, md 6 2, 0⟩, .icmpImm h ⟨3, 2, md 2 0, 5, false⟩, .fcmp h ⟨3, 4, 6, md 12 1, 0⟩,
  .fcmpFtz h ⟨3, 4, 6, md 12 1, 0⟩, .plop h ⟨2, 0, 1, 0x80, 0⟩, .plop h ⟨7, 0, 1, 0x60, 0⟩]
def predOr (i : Instr) (s : State) : PredRow := (predRow (bg s) (sn i s) i).getD ⟨[], 0, 0, fun _ => false⟩
theorem witness_PredicateOpsComplete (H : Obligations.PredicateOpsComplete) :
    ∀ i ∈ heads.flatMap compares, ∃ t, exec i aS = .next t := by
  have hr : ∀ i ∈ heads.flatMap compares, okIssue i aS = true ∧ (predRow (bg aS) (sn i aS) i).isSome = true ∧
      ((sn i aS).real = 0 ∨ checkVs (bg aS) (wpOf aS) (predOr i aS).srcs = none) ∧
      freeOf (.warp 0 0) [.pred (predOr i aS).p ((sn i aS).lanes.map fun j => (j, (predOr i aS).val j))] aS = true := by
    decide +kernel
  intro i hi
  obtain ⟨h1, h2, h3, h4⟩ := hr i hi
  obtain ⟨o, ho⟩ := Option.isSome_iff_exists.mp h2
  have he : predOr i aS = o := by simp [predOr, ho]
  rw [he] at h3 h4
  exact completes (H _ _ _ _ _ _ _ o (issues_of h1) ho h3 (noClash_of h4))

def scalars (h : Hdr) : List Instr := [
  .movToG h ⟨2, 4, 0, md 8 0, 0⟩, .movToG h ⟨2, 4, 0, md 9 0, 1⟩, .moviToG h ⟨2, 0xF234, 3⟩, .movlToG h ⟨2, 0x123456789ABCDEF⟩,
  .rdsrToG h ⟨10, 0, 0, 0, false⟩, .rdsrToG h ⟨10, 0, 0, 0x22, false⟩, .wrsr h ⟨0, 4, 0, 0x22, false⟩, .wrsr h ⟨0, 2, 0, 0x20, true⟩]
def scalarOr (i : Instr) (s : State) : List Nat × List Write := (scalarRow (bg s) (sn i s) i).getD ([], [])
theorem witness_ScalarOpsComplete (H : Obligations.ScalarOpsComplete) :
    ∀ i ∈ heads.flatMap scalars, ∃ t, exec i aS = .next t := by
  have hr : ∀ i ∈ heads.flatMap scalars, okIssue i aS = true ∧
      scalarRow (bg aS) (sn i aS) i = some ((scalarOr i aS).1, (scalarOr i aS).2) ∧
      ((sn i aS).real = 0 ∨ checkVs (bg aS) (wpOf aS) (scalarOr i aS).1 = none) ∧
      freeOf (.warp 0 0) (scalarOr i aS).2 aS = true := by decide +kernel
  intro i hi
  obtain ⟨h1, h2, h3, h4⟩ := hr i hi
  exact completes (H _ _ _ _ _ _ _ _ _ (issues_of h1) h2 h3 (noClash_of h4))

/-- IADD: −1 + 1 and 0 − 1 wrap, INT_MAX + 1 and 0 − 1 under .sat; .b64 sums; IMUL.lo.sat, IMAD and IABS at the end of the range. -/
theorem witness_IntegerValues_arithmetic (H : Obligations.IntegerValues) :
    HoldsInt 2 false (numOf 2 0xFFFFFFFF + numOf 2 1) (iaddVal (md 2 0) 0xFFFFFFFF 1) ∧
    HoldsInt 7 false (numOf 7 0 - numOf 7 1) (iaddVal (md 7 1) 0 1) ∧
    HoldsInt 2 true (numOf 2 0x7FFFFFFF + numOf 2 1) (iaddVal (md 2 4) 0x7FFFFFFF 1) ∧
    HoldsInt 6 true (numOf 6 0 - numOf 6 1) (iaddVal (md 6 5) 0 1) ∧
    HoldsInt 9 false (numOf 9 0 - numOf 9 1) (iaddVal (md 9 1) 0 1) ∧
    HoldsInt 3 true (numOf 3 0x8000000000000000 * numOf 3 2) (imulVal (md 3 4) 0x8000000000000000 2) ∧
    HoldsInt 6 false (numOf 6 0xFFFFFFFF * numOf 6 2) (imulVal (md 6 0) 0xFFFFFFFF 2) ∧
    HoldsInt 3 true (numOf 3 2 * numOf 3 0x4000000000000000 + numOf 3 1) (imadOut 3 true 2 0x4000000000000000 1) ∧
    HoldsInt 2 true |numOf 2 0x80000000| (iabsVal (md 2 4) 0x80000000) ∧ HoldsInt 3 false |numOf 3 0x8000000000000000|
      (iabsVal (md 3 0) 0x8000000000000000) :=
  ⟨H.1 (md 2 0) _ _ (by decide), H.1 (md 7 1) _ _ (by decide), H.1 (md 2 4) _ _ (by decide), H.1 (md 6 5) _ _ (by decide),
    H.1 (md 9 1) _ _ (by decide), H.2.1 (md 3 4) _ _ (by decide) (by decide), H.2.1 (md 6 0) _ _ (by decide) (by decide),
    H.2.2.1 3 true _ _ _ (by decide), H.2.2.2.1 (md 2 4) _ (by decide), H.2.2.2.1 (md 3 0) _ (by decide)⟩
/-- ICMP.lt of −1 and 0 under .s32, and of the same pattern under .u32. -/
theorem witness_IntegerValues_compare (H : Obligations.IntegerValues) :
    (cmpInt 2 (intVal 2 0xFFFFFFFF) (intVal 2 0) = true ↔ numOf 2 0xFFFFFFFF < numOf 2 0) ∧
    (cmpInt 5 (intVal 6 0xFFFFFFFF) (intVal 6 0) = true ↔ numOf 6 0 ≤ numOf 6 0xFFFFFFFF) :=
  ⟨H.2.2.2.2.1 2 2 _ _ (by decide) (by decide), H.2.2.2.2.1 6 5 _ _ (by decide) (by decide)⟩
theorem witness_IntegerValues_products (H : Obligations.IntegerValues) :
    lo32 (imulVal (md 2 1) 0x80000000 2) = hi32 ((lo32 0x80000000).signExtend 64 * (lo32 2).signExtend 64) ∧
    lo32 (imulVal (md 6 1) 0x80000000 2) = hi32 ((lo32 0x80000000).setWidth 64 * (lo32 2).setWidth 64) ∧
    imulVal (md 3 1) 0x8000000000000000 2 =
      ((0x8000000000000000 : W64).signExtend 128 * (2 : W64).signExtend 128).extractLsb' 64 64 ∧
    imulVal (md 7 1) 0x8000000000000000 2 = ((0x8000000000000000 : W64).setWidth 128 * (2 : W64).setWidth 128).extractLsb' 64 64 ∧
    imulVal (md 2 2) 0x80000000 2 = (lo32 0x80000000).signExtend 64 * (lo32 2).signExtend 64 ∧
    imulVal (md 6 2) 0x80000000 2 = (lo32 0x80000000).setWidth 64 * (lo32 2).setWidth 64 :=
  let K := H.2.2.2.2.2.1
  ⟨(K (md 2 1) _ _ (by decide)).1 (by decide) (by decide), (K (md 6 1) _ _ (by decide)).2.1 (by decide) (by decide),
    (K (md 3 1) _ _ (by decide)).2.2.1 (by decide) (by decide), (K (md 7 1) _ _ (by decide)).2.2.2.1 (by decide) (by decide),
    (K (md 2 2) _ _ (by decide)).2.2.2.2.1 (by decide) (by decide), (K (md 6 2) _ _ (by decide)).2.2.2.2.2 (by decide) (by decide)⟩
/-- Shifts by 31, by the width and past it. -/
theorem witness_IntegerValues_shift (H : Obligations.IntegerValues) :
    lo32 (ishlVal 2 31 1) = lo32 1 <<< 31 ∧ ishlVal 9 64 1 = (1 : W64) <<< 64 ∧ lo32 (ishrVal 8 32 0xFFFFFFFF) = lo32 0xFFFFFFFF >>> 32 ∧
    lo32 (ishrVal 2 255 0x80000000) = (lo32 0x80000000).sshiftRight 255 ∧ ishrVal 7 63 0x8000000000000000 = (0x8000000000000000 : W64) >>> 63 ∧
    ishrVal 3 64 0x8000000000000000 = (0x8000000000000000 : W64).sshiftRight 64 :=
  let K := H.2.2.2.2.2.2.1
  ⟨(K 2 31 1).1 (by decide), (K 9 64 1).2.1 (by decide), (K 8 32 _).2.2.1 (by decide), (K 2 255 _).2.2.2.1 (by decide),
    (K 7 63 _).2.2.2.2.1 (by decide), (K 3 64 _).2.2.2.2.2 (by decide)⟩
/-- Bit 63 of LOP, BFI and BREV; CLZ, POPC of 0 and of 1; BFE at the last bit, and of a signed field of one bit. -/
theorem witness_IntegerValues_bits (H : Obligations.IntegerValues) :
    (lopVal 0x60 1 2).getLsbD 63 = (modLut 0x60).getLsbD 0 ∧ (bfiVal 64 5 6 0xFF3F).getLsbD 63 = (5 : W64).getLsbD 0 ∧
    (brevVal 64 1).getLsbD 63 = (1 : W64).getLsbD 0 ∧ (1 : W64).getLsbD (64 - 1 - (clzVal 64 1).toNat) = true ∧
    (1 : W64).getLsbD (64 - 1 - 62) = false ∧ (popcVal 32 0).toNat = ((List.range 32).filter fun i => (0 : W64).getLsbD i).length ∧
    (bfeVal 7 1 0x0100).getLsbD 63 = false ∧ (bfeVal 2 0x80000000 0x011F).getLsbD 31 = true :=
  let K := H.2.2.2.2.2.2.2
  ⟨K.1 _ _ _ 63 (by decide), K.2.1 64 5 6 0xFF3F 63 (by decide) (by decide), K.2.2.1 64 1 63 (by decide) (by decide),
    (K.2.2.2.1 64 1 (by decide)).2.2 (by decide), (K.2.2.2.1 64 1 (by decide)).2.1 62 (by decide), K.2.2.2.2.1 32 0 (by decide),
    (K.2.2.2.2.2 7 1 0x0100 63 (by decide) (by decide)).trans (by decide), (K.2.2.2.2.2 2 _ 0x011F 31 (by decide) (by decide)).trans (by decide)⟩

/-- FADD of −0 and +0 under .rm, FMUL of an infinity and 0, FMEX.max of a NaN and 1, FFMA with ties, FCMP.ltu of a NaN. -/
theorem witness_FloatValues (H : Obligations.FloatValues) :
    Yields 12 2 false false (sumOf 2 (.num true 0) (.num false 0)) (faddVal 0 (md 12 2) 0x80000000 0).toNat ∧
    Yields 10 0 false true (productOf 24 (.inf false) (.num false 0)) (fmulVal false (md 10 4) 0x7C00 1).toNat ∧
    (fmexVal (md 12 1) 0x7FC00001 0x3F800000).toNat = 0x3F800000 ∧
    Yields 12 0 false false (fusedOf 149 0 (readNum 12 false 0x3F800001) (readNum 12 false 0x3F800001) (readNum 12 false 0x80000001))
      (ffmaVal 0 0x3F800001 0x3F800001 0x80000001).toNat ∧
    (fcmpVal (md 12 7) true 0x7FC00000 0 = true ↔ isNaN (layout 12) 0x7FC00000 = true ∨ isNaN (layout 12) 0 = true) :=
  ⟨(H.1 (md 12 2) 0x80000000 0 (by decide) (by decide)).1 0, (H.1 (md 10 4) 0x7C00 1 (by decide) (by decide)).2.1 false,
    (H.1 (md 12 1) 0x7FC00001 0x3F800000 (by decide) (by decide)).2.2.trans (by decide),
    H.2.1 0 0x3F800001 0x3F800001 0x80000001 (by decide) (by decide), H.2.2 (md 12 7) true 0x7FC00000 0 (by decide) (by decide)⟩
/-- Both halves of an FADD of .f16x2, of an FFMA of .bf16x2, of CVT from .f16x2 and to .bf16x2, of ATOM.add of .bf16x2. -/
theorem witness_PackedHalves (H : Obligations.PackedHalves) :
    (halfOf 1 (faddVal 0 (md 17 5) 0x7C003C00 0xFC003C00) = faddVal 0 (md 10 5) (halfOf 1 0x7C003C00) (halfOf 1 0xFC003C00)) ∧
    (∀ v : BitVec 5, ffmaType v = 18 → Yields 11 (v.extractLsb' 0 2).toNat false (ffmaFtz v) (fusedOf (layout 11).low (v.extractLsb' 0 2).toNat
      (readNum 11 (ffmaFtz v) 0x3F80) (readNum 11 (ffmaFtz v) 0x4000) (readNum 11 (ffmaFtz v) 0x8000))
      (halfOf 1 (ffmaVal v 0x3F800000 0x40000000 0x80000000)).toNat) ∧
    (∃ v : BitVec 5, ffmaType v = 18) ∧
    (cvtVal ⟨0, 0, 17, false, 12, false, 0, false⟩ 0x7C003C00 0).length = 2 ∧
    (∃ r, cvtVal ⟨0, 0, 12, false, 18, false, 1, false⟩ 0x3F800000 0xBF800000 = [r]) ∧
    ∃ new, atomCombine 33 4 [0x80, 0x3F, 0, 0] [0x80, 0xBF, 0, 0x80] = some new := by
  refine ⟨(H.1 (md 17 5) (md 10 5) (by decide) (by decide) (by decide) _ _ 1 (by decide)).1 0, fun v hv => ?_, by decide, ?_, ?_, ?_⟩
  · have h := H.2.1 v 0x3F800000 0x40000000 0x80000000 1 (by decide) (.inr hv)
    simp only [hv] at h
    exact h
  · rw [(H.2.2.1 ⟨0, 0, 17, false, 12, false, 0, false⟩ 0x7C003C00 0 (by decide)).1 (by decide)]; rfl
  · exact ((H.2.2.1 ⟨0, 0, 12, false, 18, false, 1, false⟩ 0x3F800000 0xBF800000 (by decide)).2 (by decide)).imp fun r h => h.1
  · exact (H.2.2.2 [0x80, 0x3F, 0, 0] [0x80, 0xBF, 0, 0x80] (by decide) (by decide)).imp fun r h => h.1
/-- Between formats with overflow under .sat; a type to itself; to integers a NaN, an infinity and a number past the range; between integers;
from integers; to L6 infinity, zero and a number; from L6 zero, NaN and the least code. -/
theorem witness_ConversionValues (H : Obligations.ConversionValues) :
    Yields 14 0 true false (rescaled 149 9 (readNum 12 false 0x7F000000)) (cvtElem 12 14 0 true false 0x7F000000).toNat ∧
    (cvtElem 13 13 0 false false 0x7FF0000000000001).toNat = 0x7FF8000000000000 ∧
    (cvtElem 10 10 0 false true 0x8001).toNat = flushed (layout 10) true 0x8001 ∧
    cvtElem 12 2 0 false false 0x7FC00000 = 0 ∧ cvtElem 12 0 0 false false 0xFF800000 = BitVec.ofInt 64 (lowest 0) ∧
    (∃ z, RoundsInt 0 (signed true (3 * 2 ^ 148)) (2 ^ 149) z ∧ cvtElem 12 7 0 false false 0xBFC00000 = BitVec.ofInt 64 (clamped 7 z)) ∧
    numOf 0 (cvtElem 3 0 0 true false 0x8000000000000000) = clamped 0 (numOf 3 0x8000000000000000) ∧
    (numOf 4 (cvtElem 3 4 0 false false 0x1FF) - numOf 3 0x1FF) % 2 ^ typeBits 4 = 0 ∧
    Yields 12 3 false false (.of false (numOf 7 0xFFFFFFFFFFFFFFFF * 2 ^ 149) 1) (cvtElem 7 12 3 false false 0xFFFFFFFFFFFFFFFF).toNat ∧
    cvtElem 12 16 0 true false 0xFF800000 = 0x3F ∧ cvtElem 12 16 0 false false 0x80000000 = 0 ∧
    (cvtElem 16 16 0 false false 0x3F).toNat = 0x3F ∧ cvtElem 16 2 0 false false 0x20 = 0 ∧
    (cvtElem 16 13 3 false false 0).toNat = 0 ∧ (cvtElem 16 14 0 false false 0x20).toNat = 0x7F ∧
    cvtElem 12 16 0 false false 0x3F800000 = 16 ∧ (cvtElem 16 12 3 false false 1).toNat = 0x3D983800 :=
  ⟨(H 12 14 0 true false 0x7F000000 (by decide)).1 (by decide) (by decide) (by decide) (by decide),
    ((H 13 13 0 false false _ (by decide)).2.1 (by decide) (by decide)).1 (by rfl),
    ((H 10 10 0 false true 0x8001 (by decide)).2.1 (by decide) (by decide)).2 (by intro h; cases h),
    ((H 12 2 0 false false _ (by decide)).2.2.1 (by decide) (by decide)).1 (by rfl),
    ((H 12 0 0 false false _ (by decide)).2.2.1 (by decide) (by decide)).2.1 true (by rfl),
    ((H 12 7 0 false false 0xBFC00000 (by decide)).2.2.1 (by decide) (by decide)).2.2 true (3 * 2 ^ 148) (by rfl),
    ((H 3 0 0 true false _ (by decide)).2.2.2.1 (by decide) (by decide)).2.1 (by decide),
    ((H 3 4 0 false false _ (by decide)).2.2.2.1 (by decide) (by decide)).2.2 (by decide),
    (H 7 12 3 false false 0xFFFFFFFFFFFFFFFF (by decide)).2.2.2.2.1 (by decide) (by decide) (by decide),
    ((H 12 16 0 true false _ (by decide)).2.2.2.2.2.1 (by decide) (by decide) (by decide)).2.1 true (by rfl),
    ((H 12 16 0 false false 0x80000000 (by decide)).2.2.2.2.2.1 (by decide) (by decide) (by decide)).2.2.1 true (by rfl),
    ((H 16 16 0 false false _ (by decide)).2.2.2.2.2.2 (by decide)).1 (by decide),
    ((H 16 2 0 false false _ (by decide)).2.2.2.2.2.2 (by decide)).2.1 (by decide) (by decide),
    (((H 16 13 3 false false _ (by decide)).2.2.2.2.2.2 (by decide)).2.2 (by decide) (by decide)).1 (by decide),
    (((H 16 14 0 false false _ (by decide)).2.2.2.2.2.2 (by decide)).2.2 (by decide) (by decide)).2.1 (by decide),
    (((H 12 16 0 false false 0x3F800000 (by decide)).2.2.2.2.2.1 (by decide) (by decide) (by decide)).2.2.2 false (2 ^ 149) 149 (by rfl) (by decide)
      (by decide)).trans (by decide), by have h := (((H 16 12 3 false false 1 (by decide)).2.2.2.2.2.2 (by decide)).2.2 (by decide) (by decide)).2.2 (by decide); revert h; decide⟩
/-- Of 1.0, of a NaN, of zeros, of infinities, of the least subnormal (a power of two), of −1 and 2; .f16 and .bf16 through F32. -/
theorem witness_FunctionValues (H : Obligations.FunctionValues) :
    (unaryVal (md 12 0) (sfnVal 3) 0xFFC00001).toNat = 0x7FC00000 ∧ (unaryVal (md 12 4) (sfnVal 0) 0x80000001).toNat = 0xFF800000 ∧
    (unaryVal (md 12 0) (factVal 3) 0x7F800000).toNat = 0x3F800000 ∧ (unaryVal (md 12 0) (sfnVal 0) 0xFF800000).toNat = 0x80000000 ∧
    (unaryVal (md 12 0) (sfnVal 2) 0xBF800000).toNat = 0x7FC00000 ∧
    Yields 12 0 false false (.of false (((0 : Nat) : Int) * 2 ^ 149 - 149 * 2 ^ 149) 1) (unaryVal (md 12 0) (sfnVal 4) 1).toNat ∧
    Yields 12 0 false false (.quot (2 ^ 149) (2 ^ 1)) (unaryVal (md 12 0) (sfnVal 3) 0xBF800000).toNat ∧
    (unaryVal (md 11 4) (sfnVal 6) 1).toNat = flushed (layout 11) true (cvtElem 12 11 0 false false
      (BitVec.ofNat 64 (fF32.round 0 false false (sfnVal 6 (elemVal 11 true 1))))).toNat :=
  ⟨((H.1 (md 12 0) 0xFFC00001 (by decide)).1 (by rfl) 3).1, ((H.1 (md 12 4) 0x80000001 (by decide)).2.1 true (by rfl)).1,
    ((H.1 (md 12 0) 0x7F800000 (by decide)).2.2.1 (by rfl)).2.2.2.2.2.2.2.2.2.2.1,
    ((H.1 (md 12 0) 0xFF800000 (by decide)).2.2.2.1 (by rfl)).1,
    (((H.1 (md 12 0) 0xBF800000 (by decide)).2.2.2.2 true (2 ^ 149) (by decide) (by rfl)).2.1 rfl).2.1,
    (((H.1 (md 12 0) 1 (by decide)).2.2.2.2 false 1 (by decide) (by rfl)).2.2.1 rfl).2.2.2 0 rfl,
    ((H.1 (md 12 0) 0xBF800000 (by decide)).2.2.2.2 true (2 ^ 149) (by decide) (by rfl)).2.2.2 1 (by decide) (by decide),
    H.2 (md 11 4) 1 (sfnVal 6) (by decide)⟩

def mmaO (fa fb : Nat) : MmaOp := ⟨⟨0, 0, 0, 0, 0, false, false⟩, fa, fb, false, false, false⟩
/-- 64 products of .e4m3 and .e5m2, two groups of eight of .f16, and L6 products with a NaN code beside C at its top. -/
theorem witness_MatrixValues (H : Obligations.MatrixValues) :
    (∃ r, Accumulates ([List.replicate 64 (0x38, 0x3C)].map (groupExact 14 15 false)) 0x7F7FFFFF r) ∧
    (∃ r, Accumulates ([List.replicate 8 (0x3C00, 0xBC00), List.replicate 8 (0x7C00, 0)].map (groupExact 10 10 true)) 0 r) ∧
    ∃ r, Accumulates [l6Exact (-3) (List.replicate 64 (0x20, 1))] 0xFF800000 r :=
  ⟨⟨_, H.1 (mmaO 0 1) 0 0x7F7FFFFF [List.replicate 64 (0x38, 0x3C)] (by decide) (.inl (by decide))⟩,
    ⟨_, H.1 (mmaO 2 2) 0 0 [List.replicate 8 (0x3C00, 0xBC00), List.replicate 8 (0x7C00, 0)] (by decide) (.inr (by decide))⟩,
    ⟨_, H.2 (mmaO 5 5) (-3) 0xFF800000 (List.replicate 64 (0x20, 1)) (by decide) rfl⟩⟩

/-- A view of the warp at issue with both windows on tile 3. -/
def winView : View :=
  let v := sn (.movi h7 ⟨10, 0, 0⟩) aS
  { v with wp := { v.wp with w0 := { v.wp.w0 with valid := true, tile := 3 }, w1 := { v.wp.w1 with valid := true, tile := 3 } } }
theorem witness_RegisterReads (H : Obligations.RegisterReads) :
    readV aS winView 0 2 31 = (aS.core winView.c).tileWord (winView.wp.allot.getD 0 0) 2 31 ∧
    readV aS winView 0 192 0 = (aS.core winView.c).tileWord winView.wp.w0.tile.toNat (192 - 192) 0 ∧
    readV aS winView 0 223 0 = (aS.core winView.c).tileWord winView.wp.w0.tile.toNat (223 - 192) 0 ∧
    readV aS winView 0 255 0 = (aS.core winView.c).tileWord winView.wp.w1.tile.toNat (255 - 224) 0 ∧
    readG aS winView 0 2 = mget 0 winView.wp.g 2 :=
  ⟨H.1 aS winView 0 2 31 (by decide) _ (by decide +kernel) (by decide +kernel),
    H.2.1 aS winView 0 192 0 (by decide) (by decide) (by decide +kernel) (by decide +kernel),
    H.2.1 aS winView 0 223 0 (by decide) (by decide) (by decide +kernel) (by decide +kernel),
    H.2.2.1 aS winView 0 255 0 (by decide) (by decide +kernel) (by decide +kernel),
    H.2.2.2.1 aS winView 0 2 (by decide +kernel)⟩

/-! Control. -/

def sysf (d a : BitVec 8) (i : BitVec 8 := 0) (xa : Bool := false) : SysF := ⟨d, a, 0, i, xa⟩
/-- Aligned pointers in v2:v3, one of two in v4:v5, and in g2:g3; two entries one call deep. -/
def bS : State :=
  (withG (withV wS ((List.range 32).flatMap fun j =>
    [(2, j, 0x100 * j), (3, j, 0x30000 + j), (4, j, 0x100 * (j % 2)), (5, j, 0), (6, j, 7 * j), (7, j, j), (8, j, j % 3)]))
    [(2, 0x40), (3, 0x10000), (9, 2)]).modWarp 0 0 fun w => { w with
      preds := [(0, 0xF0F0), (1, 0xFF)]
      frontier := [{ pc := 0x100, prio := 3, mask := 0xFFFF, depth := 1 }, { pc := 0x40, prio := 9, mask := 0xFFFF0000, depth := 1 }]
      frames := [⟨1, 0xFFFFFFFF, (List.range 32).map fun j => (j, BitVec.ofNat 64 (0x1000 * (j % 3) + 5 * 2 ^ 48))⟩] }

def noneOutB (a : Issuer) (s : State) : Bool := (s.core (coreOf a)).vars.all fun x => x.agent != a
theorem noneOut_of {a : Issuer} {s : State} (h : noneOutB a s = true) : NoneOut a s := by simpa [noneOutB, NoneOut] using h
theorem split_triple {α β γ : Type} {r : α × β × γ} {b : β} (h : r.2.1 = b) : r = (r.1, b, r.2.2) := by subst h; rfl

def palB (s : State) (v : View) : Instr → Bool
  | .brx _ f | .callx _ f => v.realLanes.all fun j => (readR64 s v 0 f.xa f.a.toNat j).extractLsb' 0 3 == 0
  | _ => true
theorem pal_of {s : State} {v : View} {i : Instr} (h : palB s v i = true) : pointersAligned s v i := by
  unfold pointersAligned
  split <;> simp_all [palB]

def branches : List Instr := [.bra h7 ⟨4, 5⟩, .bra h7 ⟨4, 0x3FFFF⟩, .bra ⟨false, 0, 0x1000⟩ ⟨4, 1⟩, .braFar h7 ⟨7, 0x3FFFFFF00⟩,
  .brx ⟨false, 0, 0⟩ (sysf 0 2), .brx h7 (sysf 0 2 0 true)]
def movedOr (i : Instr) (s : State) : List Entry := (branchEntries (bg s) (sn i s) i).getD []
/-- A change of the launch record's bits, as a sum. -/
def withRec (s : State) (n : Nat) : State := s.modGrid 1 fun g => { g with record := g.record + BitVec.ofNat 1024 n }
def lessRec (s : State) (n : Nat) : State := s.modGrid 1 fun g => { g with record := g.record - BitVec.ofNat 1024 n }
/-- A frontier of ten entries, which the BRX of eight lanes fills exactly. -/
def tight : State := withRec bS (2 * 2 ^ 176)
theorem witness_BranchesComplete (H : Obligations.BranchesComplete) : ∀ i ∈ branches, ∃ t, exec i tight = .next t := by
  have hr : ∀ i ∈ branches, okIssue i tight = true ∧ branchEntries (bg tight) (sn i tight) i = some (movedOr i tight) ∧
      (sn i tight).act ≠ 0 ∧ ((sn i tight).real = 0 ∨ checkVs (bg tight) (wpOf tight) (pointerRegs i) = none) ∧
      palB (bg tight) (sn i tight) i = true ∧
      (movedFrontier (sn i tight) i.long (movedOr i tight)).length ≤ (tight.gridOf (wpOf tight).gid).frontier := by decide +kernel
  intro i hi
  obtain ⟨h1, h2, h3, h4, h5, h6⟩ := hr i hi
  exact completes (H _ _ _ _ _ _ _ _ (issues_of h1) h2 h3 h4 (pal_of h5) h6)
theorem frontier_is_full : (movedFrontier (sn (.brx ⟨false, 0, 0⟩ (sysf 0 2)) tight) false (movedOr (.brx ⟨false, 0, 0⟩ (sysf 0 2)) tight)).length =
    (tight.gridOf (wpOf tight).gid).frontier := by decide +kernel

def calls : List Instr := [.call h7 ⟨4, 5⟩, .callFar h7 ⟨7, 0x3FFFFFF00⟩, .callx ⟨false, 0, 0⟩ (sysf 0 2), .callx h7 (sysf 0 2 0 true)]
def calledOr (i : Instr) (s : State) : List Entry := (callEntries (bg s) (sn i s) i).getD []
/-- Two frames of two fit on the chip, and the depth reaches its bound. -/
def deep : State := (lessRec tight (2 * 2 ^ 184)).modWarp 0 0 fun w =>
  { w with frontier := w.frontier.map fun e => { e with depth := 513 } }
theorem witness_CallsComplete (H : Obligations.CallsComplete) : ∀ i ∈ calls, ∃ t, exec i deep = .next t := by
  have hr : ∀ i ∈ calls, okIssue i deep = true ∧ callEntries (bg deep) (sn i deep) i = some (calledOr i deep) ∧
      (sn i deep).act ≠ 0 ∧ ((sn i deep).real = 0 ∨ checkVs (bg deep) (wpOf deep) (pointerRegs i) = none) ∧
      palB (bg deep) (sn i deep) i = true ∧
      (movedFrontier (sn i deep) i.long (calledOr i deep)).length ≤ (deep.gridOf (wpOf deep).gid).frontier ∧
      (eOf deep).depth + 1 ≤ (deep.gridOf (wpOf deep).gid).callDepth + 512 ∧
      (wpOf deep).frames.length < (deep.gridOf (wpOf deep).gid).callDepth := by decide +kernel
  intro i hi
  obtain ⟨h1, h2, h3, h4, h5, h6, h7, h8⟩ := hr i hi
  exact completes (H.1 _ _ _ _ _ _ _ _ (issues_of h1) h2 h3 h4 (pal_of h5) h6 h7 h8)
/-- Both frames on the chip are taken, and frames of depth 1 and 513 lie in memory from the page's byte 0x400 on. -/
def spilling : State := (withRec deep (0x400 * 2 ^ 384)).modWarp 0 0 fun w => { w with
  frames := w.frames ++ [⟨513, 0xFFFFFFFF, (List.range 32).map fun j => (j, 0)⟩], spilled := [600] }
def spillPieces : List (Nat × W64) := (List.range 5).map fun i => (0x5400 + 64 * i, spilling.rd64 0x4000)
theorem witness_CallsComplete_spill (H : Obligations.CallsComplete) : ∀ i ∈ calls, ∃ t, exec i spilling = .next t := by
  have hr : ∀ i ∈ calls, okIssue i spilling = true ∧ callEntries (bg spilling) (sn i spilling) i = some (calledOr i spilling) ∧
      (sn i spilling).act ≠ 0 ∧ ((sn i spilling).real = 0 ∨ checkVs (bg spilling) (wpOf spilling) (pointerRegs i) = none) ∧
      palB (bg spilling) (sn i spilling) i = true ∧
      (movedFrontier (sn i spilling) i.long (calledOr i spilling)).length ≤ (spilling.gridOf (wpOf spilling).gid).frontier ∧
      (eOf spilling).depth + 1 ≤ (spilling.gridOf (wpOf spilling).gid).callDepth + 512 ∧
      (spilling.gridOf (wpOf spilling).gid).callDepth ≤ (wpOf spilling).frames.length ∧
      (wpOf spilling).frames.headD ⟨0, 0, []⟩ ∈ (wpOf spilling).frames ∧
      (∀ g ∈ (wpOf spilling).frames, g ≠ (wpOf spilling).frames.headD ⟨0, 0, []⟩ → ((wpOf spilling).frames.headD ⟨0, 0, []⟩).depth < g.depth) ∧
      (spilling.gridOf (wpOf spilling).gid).spill ≠ 0 ∧
      (framePieces (bg spilling) (sn i spilling) .w (frameAt spilling 0 0 (wpOf spilling).gid
        ((wpOf spilling).frames.headD ⟨0, 0, []⟩).depth)).1 = (List.range 5).zip (spillPieces.map fun p => LX.ok p.1 p.2) := by
    decide +kernel
  intro i hi
  obtain ⟨h1, h2, h3, h4, h5, h6, h7, h8, h9, h10, h11, h12⟩ := hr i hi
  exact completes (H.2.1 _ _ _ _ _ _ _ _ _ _ spillPieces (issues_of h1) h2 h3 h4 (pal_of h5) h6 h7 h8 h9 h10 h11
    (noneOut_of (by decide +kernel)) ⟨Prod.ext h12 rfl, by decide, by decide +kernel⟩)
/-- A frontier of one entry less than the BRX makes; a depth past the bound; both frames taken with SPILL 0. -/
def cramped : State := lessRec tight (2 ^ 176)
def tooDeep : State := deep.modWarp 0 0 fun w => { w with frontier := w.frontier.map fun e => { e with depth := 514 } }
def noSpill : State := lessRec spilling (0x400 * 2 ^ 384)
def iBrx : Instr := .brx ⟨false, 0, 0⟩ (sysf 0 2)
def iCallx : Instr := .callx ⟨false, 0, 0⟩ (sysf 0 2)
def iCall : Instr := .call h7 ⟨4, 5⟩
theorem witness_CallsComplete_traps (H : Obligations.CallsComplete) : (∃ t, exec iBrx cramped = .next t) ∧ (∃ t, exec iCallx cramped = .next t) ∧
    (∃ t, exec iCall tooDeep = .next t) ∧ ∃ t, exec iCall noSpill = .next t :=
  ⟨⟨_, (H.2.2.1 cramped iBrx (hd iBrx) 0 0 (wpOf cramped) (eOf cramped) (movedOr iBrx cramped) (issues_of (by decide +kernel)) (by decide +kernel)
      (by decide +kernel) (pal_of (by decide +kernel))).1 (.inl (by decide +kernel)) (by decide +kernel)⟩,
    ⟨_, (H.2.2.1 cramped iCallx (hd iCallx) 0 0 (wpOf cramped) (eOf cramped) (calledOr iCallx cramped) (issues_of (by decide +kernel))
      (by decide +kernel) (by decide +kernel) (pal_of (by decide +kernel))).1 (.inr (by decide +kernel)) (by decide +kernel)⟩,
    ⟨_, (H.2.2.1 tooDeep iCall (hd iCall) 0 0 (wpOf tooDeep) (eOf tooDeep) (calledOr iCall tooDeep) (issues_of (by decide +kernel))
      (by decide +kernel) (by decide +kernel) (pal_of (by decide +kernel))).2 (by decide +kernel) (by decide +kernel) (.inl (by decide +kernel))⟩,
    ⟨_, (H.2.2.1 noSpill iCall (hd iCall) 0 0 (wpOf noSpill) (eOf noSpill) (calledOr iCall noSpill) (issues_of (by decide +kernel))
      (by decide +kernel) (by decide +kernel) (pal_of (by decide +kernel))).2 (by decide +kernel) (by decide +kernel) (.inr (by decide +kernel))⟩⟩

def iRet : Instr := .ret h7 (sysf 0 0)
def iExit : Instr := .exit h7 (sysf 0 0)
/-- The same warp at depth 0. -/
def flat : State := bS.modWarp 0 0 fun w => { w with frames := [], frontier := w.frontier.map fun e => { e with depth := 0 } }
theorem witness_LanesEnd_return (H : Obligations.LanesEnd) : ∃ t, exec iRet bS = .next t :=
  completes (H.1 bS (hd iRet) (sysf 0 0) 0 0 (wpOf bS) (eOf bS) ((wpOf bS).frames.headD ⟨0, 0, []⟩) (issues_of (by decide +kernel))
    (by decide +kernel) (by decide +kernel) (by decide) (by rfl) (by decide +kernel) (by decide +kernel))
/-- One call above a frame that lies in memory, with the bytes of the other frame. -/
def filling : State :=
  let s := spilling.modWarp 0 0 fun w => { w with
    spilled := [1], frames := [⟨3, 0xFFFFFFFF, []⟩]
    frontier := [{ pc := 0x100, prio := 3, mask := 0xFFFFFFFF, depth := 3 }] }
  s.wrBytes 0x5400 ((wpOf bS).frames.headD ⟨0, 0, []⟩).bytes
def fillPieces : List (Nat × W64) := (List.range 5).map fun i => (0x5400 + 64 * i, filling.rd64 0x4000)
def filled : List Byte × Option Nat × State :=
  loadPieces (.warp 0 0) (wpOf filling).gid fillPieces (framePieces ((begun 0 0 (wpOf filling) filling).modWarp 0 0 fun x => { x with
    frames := (wpOf filling).frames.filter fun x => x.depth != (eOf filling).depth }) (sn iRet filling) .r
    (frameAt filling 0 0 (wpOf filling).gid 1)).2
theorem witness_LanesEnd_fill (H : Obligations.LanesEnd) : ∃ t, exec iRet filling = .next t :=
  completes (H.2.1 filling _ filled.2.2 (hd iRet) (sysf 0 0) 0 0 (wpOf filling) (eOf filling) ((wpOf filling).frames.headD ⟨0, 0, []⟩) fillPieces
    filled.1 (issues_of (by decide +kernel)) (by decide +kernel) (by decide +kernel) (by decide +kernel) (by rfl) (by decide +kernel)
    (by decide +kernel) (by decide +kernel) (by decide +kernel) (noneOut_of (by decide +kernel))
    ⟨Prod.ext (by decide +kernel) rfl, by decide +kernel, by decide +kernel⟩ (split_triple (by decide +kernel)))
/-- The bytes of a frame, read again without lane 0. -/
theorem witness_LanesEnd_frame (H : Obligations.LanesEnd) : (frameOf 1 ((wpOf bS).frames.headD ⟨0, 0, []⟩).bytes 1).mask = 0xFFFFFFFE :=
  (H.2.2.1 ((wpOf bS).frames.headD ⟨0, 0, []⟩) 1 31 (by decide) (by decide +kernel)).1
theorem witness_LanesEnd_exit (H : Obligations.LanesEnd) : ∃ t, exec iExit bS = .next t :=
  completes (H.2.2.2 bS iExit (hd iExit) (sysf 0 0) 0 0 (wpOf bS) (eOf bS) (issues_of (by decide +kernel)) (.inl rfl)
    (by decide +kernel))
theorem witness_LanesEnd_ret_at_depth_0 (H : Obligations.LanesEnd) : ∃ t, exec iRet flat = .next t :=
  completes (H.2.2.2 flat iRet (hd iRet) (sysf 0 0) 0 0 (wpOf flat) (eOf flat) (issues_of (by decide +kernel))
    (.inr ⟨rfl, by decide +kernel, by decide +kernel⟩) (by decide +kernel))

def iNop : Instr := .nop h7 (sysf 0 0)
def iEret : Instr := .eret h7 (sysf 0 0)
/-- An entry of helper lanes alone. -/
def helpers : State := bS.modWarp 0 0 fun w => { w with real := 0 }
def iPref : Instr := .pref h7 ⟨0, 2, 0, 4, 0, 0, 3, 0⟩
theorem witness_NoEffectComplete (H : Obligations.NoEffectComplete) :
    (∃ t, exec iNop bS = .next t) ∧ (∃ t, exec iPref bS = .next t) ∧
    (∃ t, exec (.bra ⟨true, 7, 0⟩ ⟨4, 5⟩) bS = .next t) ∧ ∃ t, exec iEret helpers = .next t :=
  ⟨completes (H bS iNop (hd iNop) 0 0 (wpOf bS) (eOf bS) (issues_of (by decide +kernel)) (.inl ⟨_, rfl⟩)),
    completes (H bS iPref (hd iPref) 0 0 (wpOf bS) (eOf bS) (issues_of (by decide +kernel)) (.inr (.inl ⟨_, rfl, by decide +kernel⟩))),
    completes (H bS (.bra ⟨true, 7, 0⟩ ⟨4, 5⟩) ⟨true, 7, 0⟩ 0 0 (wpOf bS) (eOf bS) (issues_of (by decide +kernel))
      (.inr (.inr (.inl ⟨by decide +kernel, .inl ⟨_, rfl⟩⟩)))),
    completes (H helpers iEret (hd iEret) 0 0 (wpOf helpers) (eOf helpers) (issues_of (by decide +kernel))
      (.inr (.inr (.inr ⟨by decide +kernel, ⟨_, rfl⟩, .inl (by decide +kernel)⟩))))⟩

def iTrap : Instr := .trap h7 (sysf 0 0 9)
def iBkpt : Instr := .bkpt h7 (sysf 0 0)
def handled : State := bS.modPart 0 fun p => { p with traph := 0x4000000000201 }
/-- No handler, and a fault ring with room. -/
def parking : State := (withFlt bS).modPart 0 fun p => { p with traph := 0 }
/-- The warp in handler mode, with all lanes of its entry held. -/
def handler : State := bS.modWarp 0 0 fun w => { w with hmode := true, held := eOf bS, trappc := 0x200 }
/-- No result of the warp is in flight. -/
theorem landed_of {s : State} (h : decide (∀ p ∈ (s.core 0).pend, p.agent ≠ .warp 0 0) = true) : Landed 0 0 s := by
  unfold Landed
  exact of_decide_eq_true h
theorem witness_TrapsTaken_handler (H : Obligations.TrapsTaken) : (∃ t, exec iTrap handled = .next t) ∧ ∃ t, exec iBkpt handled = .next t :=
  ⟨completes (H.1 handled iTrap (hd iTrap) 0 0 (wpOf handled) (eOf handled) 0x40 9 (issues_of (by decide +kernel)) (by decide)
      (by decide +kernel) (by decide +kernel) (landed_of (by decide +kernel)) (by decide +kernel)),
    completes (H.1 handled iBkpt (hd iBkpt) 0 0 (wpOf handled) (eOf handled) 0x41 0 (issues_of (by decide +kernel)) (by decide)
      (by decide +kernel) (by decide +kernel) (landed_of (by decide +kernel)) (by decide +kernel))⟩
/-- No handler, and no fault ring. -/
def unheard : State := bS.modPart 0 fun p => { p with traph := 0 }
theorem witness_TrapsTaken_park (H : Obligations.TrapsTaken) :
    (∃ t, exec iTrap parking = .next t) ∧ ∃ t, exec iTrap unheard = .next t := by
  constructor
  · exact completes ((H.2.1 parking iTrap (hd iTrap) 0 0 (wpOf parking) (eOf parking) 0x40 9 (parking.group (wpOf parking).gid)
      (issues_of (by decide +kernel)) (by decide) (by decide +kernel) (by decide +kernel) (by decide +kernel) (by decide +kernel)
      (landed_of (by decide +kernel))).2 (by decide +kernel))
  · exact completes ((H.2.1 unheard iTrap (hd iTrap) 0 0 (wpOf unheard) (eOf unheard) 0x40 9 (unheard.group (wpOf unheard).gid)
      (issues_of (by decide +kernel)) (by decide) (by decide +kernel) (by decide +kernel) (by decide +kernel) (by decide +kernel)
      (landed_of (by decide +kernel))).1 (by decide +kernel) (unheard.grid (unheard.group (wpOf unheard).gid).grid) (by decide +kernel)
      (by decide +kernel) (by decide +kernel))
theorem witness_TrapsTaken_handler_mode (H : Obligations.TrapsTaken) : ∃ t, exec iBkpt handler = .next t :=
  completes (H.2.2 handler iBkpt (hd iBkpt) 0 0 (wpOf handler) (eOf handler) 0x41 0 (handler.grid (handler.group (wpOf handler).gid).grid)
    (issues_of (by decide +kernel)) (by decide) (by decide +kernel) (by decide +kernel) (by decide +kernel) (by decide +kernel)
    (by decide +kernel))

def iBad : Instr := .iadd ⟨false, 7, 0x400⟩ ⟨10, 2, 4, md 2 0, 0⟩
theorem witness_IssueTraps_word (H : Obligations.IssueTraps) : ∃ t, exec iBad bS = .next t :=
  ⟨_, H.1 bS iBad (hd iBad) 0 0 (wpOf bS) (eOf bS) 0x03 (by decide) (by decide +kernel) (by decide +kernel) (by decide +kernel) (by decide)⟩

theorem witness_HandlerModeTraps (H : Obligations.HandlerModeTraps) :
    ((takeTrap handler 0 0 8 8 [(0, 0)] 0 0 0).grid (handler.group (wpOf handler).gid).grid).status = 4 ∧ ∃ t, exec iBkpt handler = .next t :=
  ⟨(H.1 handler 0 0 8 8 0 0 0 [(0, 0)] (wpOf handler) (eOf handler) (handler.grid (handler.group (wpOf handler).gid).grid) (by decide +kernel)
      (by decide +kernel) (by decide +kernel) (by decide +kernel) (by decide +kernel) (by decide +kernel) (by decide)).2.1,
    ⟨_, H.2 handler iBkpt (hd iBkpt) 0 0 (wpOf handler) (eOf handler) 0x41 0 (issues_of (by decide +kernel)) (by decide) (by decide +kernel)⟩⟩

theorem witness_EretRules_returns (H : Obligations.EretRules) : ∃ t, exec iEret handler = .next t :=
  completes (H.1 handler (hd iEret) (sysf 0 0) 0 0 (wpOf handler) (eOf handler) (issues_of (by decide +kernel)) (by decide +kernel)
    (by decide +kernel) (by decide +kernel) (by decide +kernel))
theorem witness_EretRules_traps (H : Obligations.EretRules) : ∃ t, exec iEret bS = .next t :=
  ⟨_, H.2 bS (hd iEret) (sysf 0 0) 0 0 (wpOf bS) (eOf bS) (issues_of (by decide +kernel)) (by decide +kernel)
    (.inl (by decide +kernel))⟩

theorem witness_FrontierOrder_first (H : Obligations.FrontierOrder) : eOf bS ∈ (wpOf bS).frontier :=
  (H.1 _ _ (by decide +kernel)).1
theorem witness_FrontierOrder_handler (H : Obligations.FrontierOrder) : (wpOf bS).eligible (eOf bS) = true ∧
    ((wpOf handler).eligible (eOf handler) = true ↔ ∀ j, j < 32 → (eOf handler).mask.getLsbD j = true → (wpOf handler).held.mask.getLsbD j = true) :=
  ⟨(H.2.1 _ _).1 (by decide +kernel), (H.2.1 _ _).2 (by decide +kernel)⟩
theorem witness_FrontierOrder_ready (H : Obligations.FrontierOrder) : ∃ x e, wS.warp? 0 0 = some x ∧ x.first = some e :=
  H.2.2.1 wS 0 0 (by decide +kernel)
/-- A word of NOP at the entry's pc. -/
def fetchS : State := putVa wS (eOf wS).pc.toNat 8 ((encode iNop).headD 0).toNat
def fetched : Xl × State := xlate fetchS 0 (fetchS.partOf (fetchS.warp 0 0).gid) (eOf fetchS).pc.toNat .x
def xlPa : Xl → Nat
  | .ok pa _ _ => pa
  | _ => 0
def xlLeaf : Xl → W64
  | .ok _ leaf _ => leaf
  | _ => 0
theorem pair_of {α β : Type} {r : α × β} {a : α} (h : r.1 = a) : r = (a, r.2) := by subst h; rfl
theorem xl_ok {r : Xl} (h : (match r with | .ok .. => true | _ => false) = true) :
    ∃ t, r = .ok (xlPa r) (xlLeaf r) t := by
  cases r <;> simp_all [xlPa, xlLeaf]
theorem witness_FrontierOrder_fetch (H : Obligations.FrontierOrder) : ∃ u, fetchWarp fetchS 0 0 = (iNop, u) := by
  obtain ⟨tl, h1⟩ := xl_ok (r := fetched.1) (by decide +kernel)
  exact ⟨fetched.2, H.2.2.2.1 fetchS fetched.2 0 0 (xlPa fetched.1) (xlLeaf fetched.1) tl (eOf fetchS) iNop (by decide +kernel)
    (by decide +kernel) (pair_of h1) (by decide +kernel) (by decide +kernel) rfl⟩
/-- The same one word on. -/
def oddS : State := (putVa fetchS ((eOf wS).pc.toNat + 8) 8 ((encode iNop).headD 0).toNat).modWarp 0 0 fun w =>
  { w with frontier := w.frontier.map fun e => { e with pc := e.pc + 8 } }
def before : Xl × State := xlate oddS 0 (oddS.partOf (oddS.warp 0 0).gid) ((eOf oddS).pc.toNat - 8) .r
def fetchedOdd : Xl × State := xlate before.2 0 (oddS.partOf (oddS.warp 0 0).gid) (eOf oddS).pc.toNat .x
theorem witness_FrontierOrder_fetch_odd (H : Obligations.FrontierOrder) : ∃ u, fetchWarp oddS 0 0 = (iNop, u) := by
  obtain ⟨tl0, h0⟩ := xl_ok (r := before.1) (by decide +kernel)
  obtain ⟨tl, h1⟩ := xl_ok (r := fetchedOdd.1) (by decide +kernel)
  exact ⟨fetchedOdd.2, H.2.2.2.2.1 oddS fetchedOdd.2 before.2 0 0 (xlPa fetchedOdd.1) (xlPa before.1) (xlLeaf fetchedOdd.1) (xlLeaf before.1) tl tl0
    (eOf oddS) iNop (by decide +kernel) (by decide +kernel) (pair_of h0) (by decide +kernel) (by decide +kernel) (pair_of h1) (by decide +kernel)
    (by decide +kernel) (by decide +kernel) (by decide +kernel)⟩
theorem witness_FrontierOrder_lanes (H : Obligations.FrontierOrder) : (sn iNop bS).e = eOf bS :=
  (H.2.2.2.2.2 bS iNop (hd iNop) 0 0 (wpOf bS) (eOf bS) (issues_of (by decide +kernel))).1

/-! Lanes together, and memory. -/

def oksOf {α : Type} (x : Except Res (List α)) : List α :=
  match x with
  | .ok l => l
  | .error _ => []
def isOk {α : Type} (x : Except Res (List α)) : Bool :=
  match x with
  | .ok _ => true
  | .error _ => false
theorem ok_of {α : Type} {x : Except Res (List α)} (h : isOk x = true) : x = .ok (oksOf x) := by
  cases x <;> simp_all [isOk, oksOf]

/-- Two lanes: lane 0 at the start of the page and lane 31 at its end, data, scalars. -/
def mS : State :=
  (withG (withV wS [(2, 31, 0xFF8), (4, 31, 0xFF0), (6, 0, 5), (6, 31, 7), (7, 0, 31), (7, 31, 0), (8, 0, 2), (20, 0, 0x1010101), (20, 31, 3),
    (22, 31, 5)]) [(2, 0x40), (3, 0), (9, 2), (10, 0x100), (11, 0), (12, 0x20), (13, 3)]).modWarp 0 0
    fun w => { w with preds := [(0, 1), (1, 0xFF)], real := 0x80000001, frontier := [{ mask := 0x80000001 }] }
/-- The same with the placed page at policy 1. -/
def pS : State := mS.wr64 0x4000 (0x5379 ||| BitVec.ofNat 64 (2 ^ 56))

def crosses (h : Hdr) : List Instr := [.shfl h ⟨10, 6, 7, 1, 0, 0⟩, .shfl h ⟨10, 6, 9, 1, 3, 2⟩, .vote h ⟨2, 1, 0, 3, 0, 0⟩,
  .vote h ⟨7, 1, 0, 3, 1, 0⟩, .vote h ⟨4, 1, 0, 3, 2, 0⟩, .match_ h ⟨10, 8, 0, 2, 0, 0⟩, .match_ h ⟨10, 2, 0, 2, 1, 0⟩, .redux h ⟨10, 8, 0, 2, 0, 0⟩,
  .redux h ⟨10, 8, 0, 2, 10, 0⟩]
def crossOr (i : Instr) (s : State) : List Nat × Nat × List Write := (crossRow (bg s) (sn i s) i).getD ([], 0, [])
theorem witness_CrossLaneOpsComplete (H : Obligations.CrossLaneOpsComplete) :
    ∀ i ∈ crosses h7 ++ crosses ⟨false, 0, 0⟩, ∃ t, exec i mS = .next t := by
  have hr : ∀ i ∈ crosses h7 ++ crosses ⟨false, 0, 0⟩, okIssue i mS = true ∧
      crossRow (bg mS) (sn i mS) i = some ((crossOr i mS).1, (crossOr i mS).2.1, (crossOr i mS).2.2) ∧ (sn i mS).real ≠ 0 ∧
      checkVs (bg mS) (wpOf mS) (crossOr i mS).1 = none ∧ noneOutB (.warp 0 0) mS = true := by decide +kernel
  intro i hi
  obtain ⟨h1, h2, h3, h4, h5⟩ := hr i hi
  exact completes (H _ _ _ _ _ _ _ _ _ _ (issues_of h1) h2 (.inl h3) (.inr h4) (noneOut_of h5))
/-- Helper lanes alone, of SHFL and of MATCH. -/
def helpS : State := mS.modWarp 0 0 fun w => { w with real := 0 }
theorem witness_CrossLaneOpsComplete_helpers (H : Obligations.CrossLaneOpsComplete) :
    (∃ t, exec (.shfl h7 ⟨10, 6, 7, 1, 0, 0⟩) helpS = .next t) ∧ ∃ t, exec (.match_ h7 ⟨10, 8, 0, 2, 0, 0⟩) helpS = .next t :=
  ⟨completes (H helpS (.shfl h7 ⟨10, 6, 7, 1, 0, 0⟩) h7 0 0 (wpOf helpS) (eOf helpS) _ _ _ (issues_of (by decide +kernel)) rfl
      (.inr ⟨by decide +kernel, .inl ⟨_, rfl⟩⟩) (.inl (by decide +kernel)) (noneOut_of (by decide +kernel))),
    completes (H helpS (.match_ h7 ⟨10, 8, 0, 2, 0, 0⟩) h7 0 0 (wpOf helpS) (eOf helpS) _ _ _ (issues_of (by decide +kernel)) rfl
      (.inr ⟨by decide +kernel, .inr ⟨_, rfl⟩⟩) (.inl (by decide +kernel)) (noneOut_of (by decide +kernel)))⟩

theorem split_pair {α β : Type} (r : α × β) : r = (r.1, r.2) := rfl
/-- Loads: the first and the last 16 bytes of the page; a scalar byte; a relaxed one of core scope. -/
def loads : List (BitVec 3 × Mem) := [(5, ⟨40, 4, 0, 0, 1, 3, 0, 0⟩), (0, ⟨8, 10, 0, 0, 0, 3, 31, 3⟩), (3, ⟨40, 2, 0, 2, 0, 3, 0, 0⟩)]
def ldI (p : BitVec 3 × Mem) : Instr := .ld h7 p.1 p.2
def ldChk (s : State) (p : BitVec 3 × Mem) : List (Nat × LX) × State :=
  globalChecks .r (memBytes (ldSize p.1) p.2) p.2 (sn (ldI p) s) (loadLanes (sn (ldI p) s) (xB p.2.x)) (bg s)
def ldOks (s : State) (p : BitVec 3 × Mem) : List (Nat × Nat × W64) := oksOf (sortOut (bg s) (sn (ldI p) s).real 0 (ldChk s p).1)
def ldNear (s : State) (p : BitVec 3 × Mem) : List (Nat × Nat × W64) := (ldOks s p).filter (servedByL1 p.2)
def ldOut (s : State) (p : BitVec 3 × Mem) : List (Nat × List Byte) × Option Nat × State :=
  let n := memBytes (ldSize p.1) p.2
  let s1 := (ldChk s p).2
  l1LoadLanes 0 n (wpOf s).real ((ldNear s p).map fun o => (o.1, o.2.1))
    (s1.moved (wpOf s).gid (128 * l1Misses s1 0 ((ldNear s p).flatMap fun o => span o.2.1 n)))
def ldBase (s : State) (p : BitVec 3 × Mem) : Bool :=
  okIssue (ldI p) s && loadLanes (sn (ldI p) s) (xB p.2.x) != [] && checkVs (bg s) (wpOf s) (ldRegs p.1 p.2) == none &&
    noneOutB (.warp 0 0) s && isOk (sortOut (bg s) (sn (ldI p) s).real 0 (ldChk s p).1)
theorem ldBase_spec {s : State} {p : BitVec 3 × Mem} (h : ldBase s p = true) :
    Issues (ldI p) h7 0 0 (wpOf s) (eOf s) s ∧ loadLanes (sn (ldI p) s) (xB p.2.x) ≠ [] ∧ checkVs (bg s) (wpOf s) (ldRegs p.1 p.2) = none ∧
      NoneOut (.warp 0 0) s ∧ sortOut (bg s) (sn (ldI p) s).real 0 (ldChk s p).1 = .ok (ldOks s p) := by
  simp only [ldBase, Bool.and_eq_true, bne_iff_ne, beq_iff_eq] at h
  exact ⟨issues_of h.1.1.1.1, h.1.1.1.2, h.1.1.2, noneOut_of h.1.2, ok_of h.2⟩
theorem load_ok (H : Obligations.LoadsComplete) (s : State) (p : BitVec 3 × Mem) (h1 : ldBase s p = true) (h5 : (ldOut s p).2.1 = none) :
    ∃ t, exec (ldI p) s = .next t := by
  obtain ⟨a, b, c, d, e⟩ := ldBase_spec h1
  have k := H s h7 p.1 p.2 0 0 (wpOf s) (eOf s) (ldChk s p).1 (ldChk s p).2 (ldOut s p).2.2 (ldOks s p) (ldOut s p).1
    a b (.inr c) d (split_pair (ldChk s p)) e (split_triple h5)
  by_cases hf : (ldOks s p).filter (fun o => !servedByL1 p.2 o) = []
  · exact completes (k.1 hf)
  · exact completes (k.2 hf)
/-- All lanes in the L1: ordinary ones, and one relaxed at core scope. -/
theorem witness_LoadsComplete_l1 (H : Obligations.LoadsComplete) : ∀ p ∈ loads, ∃ t, exec (ldI p) mS = .next t := by
  have hr : ∀ p ∈ loads, ldBase mS p = true ∧ (ldOks mS p).all (servedByL1 p.2) = true ∧ (ldOut mS p).2.1 = none := by decide +kernel
  exact fun p hp => load_ok H mS p (hr p hp).1 (hr p hp).2.2
/-- Two pages: the first serves the L1, the second has policy 1, and the lanes of v2:v3 lie one on each. -/
def twoPages : State := withV (mS.wr64 0x4008 (0x6379 ||| BitVec.ofNat 64 (2 ^ 56))) [(2, 31, 0x1000)]
/-- No lane in the L1: ordered, of a scope wider than the core, through a leaf of policy 1; and one lane there, the other not. -/
theorem witness_LoadsComplete_home (H : Obligations.LoadsComplete) :
    (∃ t, exec (ldI (3, ⟨40, 2, 1, 4, 0, 3, 0, 0⟩)) mS = .next t) ∧ (∃ t, exec (ldI (3, ⟨40, 2, 0, 3, 0, 3, 0, 0⟩)) mS = .next t) ∧
    (∃ t, exec (ldI (3, ⟨40, 2, 0, 0, 0, 3, 0, 0⟩)) pS = .next t) ∧ (∃ t, exec (ldI (3, ⟨40, 2, 0, 0, 0, 3, 0, 0⟩)) twoPages = .next t) ∧
    (ldNear twoPages (3, ⟨40, 2, 0, 0, 0, 3, 0, 0⟩)).length = 1 :=
  ⟨load_ok H _ _ (by decide +kernel) (by decide +kernel), load_ok H _ _ (by decide +kernel) (by decide +kernel),
    load_ok H _ _ (by decide +kernel) (by decide +kernel), load_ok H _ _ (by decide +kernel) (by decide +kernel), by decide +kernel⟩

def stores : List (BitVec 2 × Mem) := [(0, ⟨20, 2, 0, 0, 0, 3, 7, 0⟩), (2, ⟨20, 4, 0, 0, 1, 3, 0, 0⟩), (3, ⟨20, 4, 0, 0, 0, 3, 0, 0⟩),
  (2, ⟨20, 10, 0, 0, 1, 3, 31, 1⟩), (2, ⟨12, 10, 0, 0, 0, 3, 2, 3⟩)]
def stI (nt : Bool) (p : BitVec 2 × Mem) : Instr := if nt then .stNt h7 p.1 p.2 else .st h7 p.1 p.2
def stChk (s : State) (p : BitVec 2 × Mem) : List (Nat × LX) × State :=
  globalChecks .w (memBytes (stSize p.1) p.2) p.2 (seen h7 0 0 (wpOf s) (eOf s) s) (seen h7 0 0 (wpOf s) (eOf s) s).realLanes (bg s)
def stOks (s : State) (p : BitVec 2 × Mem) : List (Nat × Nat × W64) :=
  oksOf (sortOut (bg s) (seen h7 0 0 (wpOf s) (eOf s) s).real 1 (stChk s p).1)
def stBase (s : State) (nt : Bool) (p : BitVec 2 × Mem) : Bool :=
  okIssue (stI nt p) s && hd (stI nt p) == h7 && (seen h7 0 0 (wpOf s) (eOf s) s).real != 0 &&
    checkVs (bg s) (wpOf s) (stRegs p.1 p.2) == none && noneOutB (.warp 0 0) s && (wpOf s).carried == [] && s.poison == [] &&
    isOk (sortOut (bg s) (seen h7 0 0 (wpOf s) (eOf s) s).real 1 (stChk s p).1)
theorem stBase_spec {s : State} {nt : Bool} {p : BitVec 2 × Mem} (h : stBase s nt p = true) :
    Issues (stI nt p) h7 0 0 (wpOf s) (eOf s) s ∧ (seen h7 0 0 (wpOf s) (eOf s) s).real ≠ 0 ∧
      checkVs (bg s) (wpOf s) (stRegs p.1 p.2) = none ∧ NoneOut (.warp 0 0) s ∧ (wpOf s).carried = [] ∧ s.poison = [] ∧
      sortOut (bg s) (seen h7 0 0 (wpOf s) (eOf s) s).real 1 (stChk s p).1 = .ok (stOks s p) := by
  simp only [stBase, Bool.and_eq_true, bne_iff_ne, beq_iff_eq] at h
  exact ⟨h.1.1.1.1.1.1.2 ▸ issues_of h.1.1.1.1.1.1.1, h.1.1.1.1.1.2, h.1.1.1.1.2, noneOut_of h.1.1.1.2, h.1.1.2, h.1.2, ok_of h.2⟩
theorem carries_none {h : Hdr} {c w : Nat} {wp : Warp} {e : Entry} {s : State} (hc : wp.carried = []) :
    carriesNothing (seen h c w wp e s) := by
  intro x hx
  have hx : x ∈ wp.carried := hx
  simp [hc] at hx
theorem store_ok (H : Obligations.StoresAllComplete) (s : State) (nt : Bool) (p : BitVec 2 × Mem) (h : stBase s nt p = true) :
    ∃ t, exec (stI nt p) s = .next t := by
  obtain ⟨a, b, c, d, e, n, g⟩ := stBase_spec h
  have k := H s h7 p.1 p.2 0 0 (wpOf s) (eOf s) (stChk s p).1 (stChk s p).2 (stOks s p) nt a b c d (carries_none e) n
    (split_pair (stChk s p)) g
  by_cases hf : (stOks s p).filter (fun o => !storedNow nt p.2 o) = []
  · exact completes (k.1 hf)
  · exact completes (k.2 hf)
theorem witness_StoresAllComplete_now (H : Obligations.StoresAllComplete) :
    (∀ p ∈ (2, ⟨20, 2, 0, 2, 0, 3, 0, 0⟩) :: stores, ∃ t, exec (stI false p) mS = .next t) ∧ ∀ p ∈ stores, ∃ t, exec (stI true p) mS = .next t := by
  have hr : ∀ p ∈ (2, ⟨20, 2, 0, 2, 0, 3, 0, 0⟩) :: stores, stBase mS false p = true ∧ (stOks mS p).all (storedNow false p.2) = true := by
    decide +kernel
  have hn : ∀ p ∈ stores, stBase mS true p = true ∧ (stOks mS p).all (storedNow true p.2) = true := by decide +kernel
  exact ⟨fun p hp => store_ok H mS false p (hr p hp).1, fun p hp => store_ok H mS true p (hn p hp).1⟩
/-- The placed page in the aperture of the host. -/
def hostPage : State := (mS.wr64 0x4000 0x0000100000000379).modPart 0 fun p => { p with pgrant := BitVec.twoPow 64 63 ||| p.pgrant }
def stHost : BitVec 2 × Mem := (2, ⟨20, 2, 0, 0, 0, 3, 0, 0⟩)
/-- ST.nt through the host's aperture; ST that releases at device and at core scope, of cluster scope, through policy 1; one lane now. -/
theorem witness_StoresAllComplete_home (H : Obligations.StoresAllComplete) : (∃ t, exec (stI true stHost) hostPage = .next t) ∧
    (∃ t, exec (stI false (2, ⟨20, 2, 2, 4, 0, 3, 0, 0⟩)) mS = .next t) ∧ (∃ t, exec (stI false (2, ⟨20, 2, 2, 2, 0, 3, 0, 0⟩)) mS = .next t) ∧
    (∃ t, exec (stI false (2, ⟨20, 2, 0, 3, 0, 3, 0, 0⟩)) mS = .next t) ∧
    (∃ t, exec (stI false (2, ⟨20, 2, 0, 0, 0, 3, 0, 0⟩)) pS = .next t) ∧ ∃ t, exec (stI false (2, ⟨20, 2, 0, 0, 0, 3, 0, 0⟩)) twoPages = .next t :=
  ⟨store_ok H _ _ _ (by decide +kernel), store_ok H _ _ _ (by decide +kernel), store_ok H _ _ _ (by decide +kernel),
    store_ok H _ _ _ (by decide +kernel), store_ok H _ _ _ (by decide +kernel), store_ok H _ _ _ (by decide +kernel)⟩


/-- A scratchpad with bytes, and lanes' addresses inside it. -/
def scS : State := (withV mS [(2, 31, 0xFC), (4, 31, 0xFF0)]).scrWrite 1 0x20 [1, 2, 3, 4, 5, 6, 7, 8]
/-- A cluster of two ranks; the issuer's is 0, and scalars and lanes name rank 1. -/
def clS : State :=
  let s := (withRec scS (2 ^ 144 + 2 ^ 64)).setGroup 7 { grid := 1, number := 1, cluster := 1, rank := 1, core := 1, size := 4096 }
  withV (withG { s with clusters := [(1, { grid := 1, groups := [1, 7] })] } [(2, 0x40), (10, 0x1000100)]) [(2, 0, 0x1000040), (2, 31, 0x1000040)]
def scLoads : List (Bool × BitVec 3 × Mem) := [(false, 4, ⟨40, 2, 0, 0, 0, 3, 0, 0⟩), (false, 0, ⟨40, 2, 0, 0, 0, 3, 1, 0⟩),
  (false, 5, ⟨40, 4, 0, 0, 1, 3, 0, 0⟩), (true, 4, ⟨40, 2, 0, 3, 0, 3, 0, 0⟩), (true, 4, ⟨8, 10, 0, 0, 0, 3, 0, 3⟩)]
def ldsI (p : Bool × BitVec 3 × Mem) : Instr := if p.1 then .ldsCl h7 p.2.1 p.2.2 else .lds h7 p.2.1 p.2.2
def ldsChk (s : State) (p : Bool × BitVec 3 × Mem) : Except Res (List (Nat × Nat × W64)) :=
  let v := seen h7 0 0 (wpOf s) (eOf s) s
  sortOut (bg s) v.real 0 (scratchChecks (bg s) v (ldsI p == .ldsCl h7 p.2.1 p.2.2) (memBytes (ldSize p.2.1) p.2.2) p.2.2
    (loadLanes v (xB p.2.2.x)))
def ldsBase (s : State) (p : Bool × BitVec 3 × Mem) : Bool :=
  okIssue (ldsI p) s && hd (ldsI p) == h7 && loadLanes (seen h7 0 0 (wpOf s) (eOf s) s) (xB p.2.2.x) != [] &&
    checkVs (bg s) (wpOf s) (runRegsX (xA p.2.2.x) p.2.2.a.toNat 1 ++ runRegsX (xB p.2.2.x) p.2.2.d.toNat (memRegs (ldSize p.2.1) p.2.2)) == none &&
    noneOutB (.warp 0 0) s && isOk (ldsChk s p)
theorem ldsBase_spec {s : State} {p : Bool × BitVec 3 × Mem} (h : ldsBase s p = true) :
    Issues (ldsI p) h7 0 0 (wpOf s) (eOf s) s ∧ loadLanes (seen h7 0 0 (wpOf s) (eOf s) s) (xB p.2.2.x) ≠ [] ∧
      checkVs (bg s) (wpOf s) (runRegsX (xA p.2.2.x) p.2.2.a.toNat 1 ++
        runRegsX (xB p.2.2.x) p.2.2.d.toNat (memRegs (ldSize p.2.1) p.2.2)) = none ∧
      NoneOut (.warp 0 0) s ∧ ldsChk s p = .ok (oksOf (ldsChk s p)) := by
  simp only [ldsBase, Bool.and_eq_true, bne_iff_ne, beq_iff_eq] at h
  exact ⟨h.1.1.1.1.2 ▸ issues_of h.1.1.1.1.1, h.1.1.1.2, h.1.1.2, noneOut_of h.1.2, ok_of h.2⟩
theorem witness_ScratchAccessesComplete_load (H : Obligations.ScratchAccessesComplete) : ∀ p ∈ scLoads, ∃ t, exec (ldsI p) scS = .next t := by
  have hr : ∀ p ∈ scLoads, ldsBase scS p = true ∧ p.2.2.ord = 0 ∧ (∀ o ∈ oksOf (ldsChk scS p), o.2.1 / 2 ^ 32 = (wpOf scS).gid) ∧
      (ldsI p = .lds h7 p.2.1 p.2.2 ∨ ldsI p = .ldsCl h7 p.2.1 p.2.2) ∧
      ∀ o ∈ oksOf (ldsChk scS p), ∀ a ∈ span o.2.1 (memBytes (ldSize p.2.1) p.2.2), (bg scS).scrPoisoned a = false := by decide +kernel
  intro p hp
  obtain ⟨h1, h2, h3, h4, h5⟩ := hr p hp
  obtain ⟨a, b, c, d, e⟩ := ldsBase_spec h1
  exact completes (H.1 scS (ldsI p) h7 p.2.1 p.2.2 0 0 (wpOf scS) (eOf scS) (oksOf (ldsChk scS p)) a h4 b (.inr c) d h2 e h3 h5)
/-- The checks of the scalar store of v20 to the address in v2. -/
def otherRank : Bool × BitVec 2 × Mem := (true, 2, ⟨20, 2, 0, 3, 0, 3, 0, 0⟩)
theorem witness_ScratchAccessesComplete_other_rank (H : Obligations.ScratchAccessesComplete) :
    ∃ t, exec (.ldsCl h7 4 ⟨40, 2, 0, 3, 0, 3, 0, 0⟩) clS = .next t := by
  have h1 : ldsBase clS (true, 4, ⟨40, 2, 0, 3, 0, 3, 0, 0⟩) = true := by decide +kernel
  obtain ⟨a, b, c, d, e⟩ := ldsBase_spec h1
  exact completes (H.2.2.1 clS h7 4 ⟨40, 2, 0, 3, 0, 3, 0, 0⟩ 0 0 (wpOf clS) (eOf clS) (oksOf (ldsChk clS (true, 4, ⟨40, 2, 0, 3, 0, 3, 0, 0⟩)))
    a b (.inr c) d e (by unfold ownScratch; decide +kernel))

def scStores : List (Bool × BitVec 2 × Mem) := [(false, 2, ⟨20, 2, 0, 0, 0, 3, 0, 0⟩), (false, 0, ⟨20, 2, 0, 0, 0, 3, 1, 0⟩),
  (false, 3, ⟨20, 4, 0, 0, 1, 3, 0, 0⟩), (true, 2, ⟨20, 2, 0, 0, 0, 3, 0, 0⟩), (true, 2, ⟨12, 10, 0, 0, 0, 3, 0, 3⟩)]
def stsI (p : Bool × BitVec 2 × Mem) : Instr := if p.1 then .stsCl h7 p.2.1 p.2.2 else .sts h7 p.2.1 p.2.2
def stsChk (s : State) (p : Bool × BitVec 2 × Mem) : Except Res (List (Nat × Nat × W64)) :=
  let v := seen h7 0 0 (wpOf s) (eOf s) s
  sortOut (bg s) v.real 1 (scratchChecks (bg s) v (stsI p == .stsCl h7 p.2.1 p.2.2) (memBytes (stSize p.2.1) p.2.2) p.2.2 v.realLanes)
theorem witness_ScratchAccessesComplete_store (H : Obligations.ScratchAccessesComplete) :
    ∀ p ∈ scStores, ∃ t, exec (stsI p) scS = .next t := by
  have hr : ∀ p ∈ scStores, okIssue (stsI p) scS = true ∧ hd (stsI p) = h7 ∧ (stsI p = .sts h7 p.2.1 p.2.2 ∨ stsI p = .stsCl h7 p.2.1 p.2.2) ∧
      (seen h7 0 0 (wpOf scS) (eOf scS) scS).real ≠ 0 ∧
      checkVs (bg scS) (wpOf scS) (runRegsX (xA p.2.2.x) p.2.2.a.toNat 1 ++
        runRegsX (xB p.2.2.x) p.2.2.d.toNat (memRegs (stSize p.2.1) p.2.2)) = none ∧
      noneOutB (.warp 0 0) scS = true ∧ p.2.2.ord = 0 ∧ p.2.2.scope = 0 ∧ (wpOf scS).carried = [] ∧ scS.poison = [] ∧
      isOk (stsChk scS p) = true ∧
      ∀ o ∈ oksOf (stsChk scS p), o.2.1 / 2 ^ 32 = (wpOf scS).gid := by decide +kernel
  intro p hp
  obtain ⟨h1, h2, h3, h4, h5, h6, hq, h8, h9, hz, h10, h11⟩ := hr p hp
  exact completes (H.2.1 scS (stsI p) h7 p.2.1 p.2.2 0 0 (wpOf scS) (eOf scS) (oksOf (stsChk scS p)) (h2 ▸ issues_of h1) h3 h4 h5
    (noneOut_of h6) hq h8 (carries_none h9) hz (ok_of h10) h11)
theorem witness_ScratchAccessesComplete_store_other_rank (H : Obligations.ScratchAccessesComplete) :
    ∃ t, exec (stsI otherRank) clS = .next t := by
  have h1 : isOk (stsChk clS otherRank) = true := by decide +kernel
  refine completes (H.2.2.2 clS h7 2 otherRank.2.2 0 0 (wpOf clS) (eOf clS) (oksOf (stsChk clS otherRank))
    (issues_of (i := stsI otherRank) (by decide +kernel)) ?_ ?_ (noneOut_of (by decide +kernel)) ?_ ?_ (ok_of h1) ?_)
  all_goals (try unfold ownScratch); decide +kernel

def atomics : List Instr := [.atom h7 0 ⟨40, 2, 20, 0, 0, 3, false⟩, .atom h7 28 ⟨40, 2, 20, 1, 4, 3, false⟩, .atom h7 24 ⟨0, 2, 20, 0, 0, 3, true⟩,
  .atomAddFloat h7 true ⟨40, 2, 20, 0, 0, 3, false⟩]
def atomChk (i : Instr) (s : State) (p : Nat × Nat × Atomf) : List (Nat × LX) × State :=
  laneFold (fun x j => (atomAperture p.1 (readR64 x (sn i s) 0 false p.2.2.a.toNat j)
      (laneGlobal x (sn i s).c ((bg s).partOf (sn i s).gid) .rw p.2.1 p.2.1 (readR64 x (sn i s) 0 false p.2.2.a.toNat j)).1,
    (laneGlobal x (sn i s).c ((bg s).partOf (sn i s).gid) .rw p.2.1 p.2.1 (readR64 x (sn i s) 0 false p.2.2.a.toNat j)).2))
    (sn i s).realLanes (bg s)
def atomP (i : Instr) : Nat × Nat × Atomf := (atomicOf i).getD (0, 0, ⟨0, 0, 0, 0, 0, 0, false⟩)
def isAtom : Instr → Bool
  | .atom .. | .atomAddFloat .. => true
  | _ => false
/-- Lanes 0 and 31 with aligned addresses of 16 bytes. -/
def atS : State := withV mS [(2, 31, 0xFF0)]
theorem witness_AtomicsComplete_home (H : Obligations.AtomicsComplete) : ∀ i ∈ atomics, ∃ t, exec i atS = .next t := by
  have hr : ∀ i ∈ atomics, okIssue i atS = true ∧ atomicOf i = some ((atomP i).1, (atomP i).2.1, (atomP i).2.2) ∧
      (sn i atS).real ≠ 0 ∧ checkVs (bg atS) (wpOf atS) (atomicRegs 2 (atomP i).1 (atomP i).2.1 (atomP i).2.2) = none ∧
      noneOutB (.warp 0 0) atS = true ∧ (wpOf atS).carried = [] ∧ atS.poison = [] ∧
      isOk (sortOut (bg atS) (sn i atS).real 3 (atomChk i atS (atomP i)).1) = true := by decide +kernel
  have hf : ∀ i ∈ atomics, (∃ t, i = .atom (hd i) t (atomP i).2.2) ∨ ∃ b, i = .atomAddFloat (hd i) b (atomP i).2.2 := by
    intro i hi
    simp only [atomics, List.mem_cons, List.not_mem_nil, or_false] at hi
    rcases hi with rfl | rfl | rfl | rfl
    · exact .inl ⟨_, rfl⟩
    · exact .inl ⟨_, rfl⟩
    · exact .inl ⟨_, rfl⟩
    · exact .inr ⟨_, rfl⟩
  intro i hi
  obtain ⟨h1, h2, h3, h4, h5, h6, h7, h8⟩ := hr i hi
  exact completes (H.1 atS i (hd i) 0 0 (wpOf atS) (eOf atS) (atomP i).1 (atomP i).2.1 (atomP i).2.2 (atomChk i atS (atomP i)).1
    (atomChk i atS (atomP i)).2 _ (issues_of h1) (hf i hi) h2 h3 h4 (noneOut_of h5) h6 h7 (split_pair (atomChk i atS (atomP i))) (ok_of h8))

/-- Every byte 0xFF at the top word of device memory, and an operand that wraps. -/
theorem witness_AtomicUpdates (H : Obligations.AtomicUpdates) :
    (rmwLane 0 0 4 ⟨wS, [], none⟩ ⟨0, memEnd - 4, leBytes 4 0xFFFFFFFF⟩).data = [(0, wS.rdBytes (memEnd - 4) 4)] ∧
    (rmwLane 0 0 4 ⟨wS, [], none⟩ ⟨0, memEnd - 4, leBytes 4 0xFFFFFFFF⟩).s.rd8 (memEnd - 5) = wS.rd8 (memEnd - 5) ∧
    (rmwLane 0 28 4 ⟨wS, [], none⟩ ⟨0, memEnd - 4, leBytes 8 0xFFFFFFFF⟩).s = wS ∧
    atomCombine 3 4 (leBytes 4 0xFFFFFFFF) (leBytes 4 1) =
      some (leBytes 4 ((leNat (leBytes 4 0xFFFFFFFF) + leNat (leBytes 4 1)) % 2 ^ 32)) :=
  ⟨(H.1 0 0 4 wS [] ⟨0, memEnd - 4, leBytes 4 0xFFFFFFFF⟩ (by decide +kernel) (by decide +kernel)).1,
    (H.1 0 0 4 wS [] ⟨0, memEnd - 4, leBytes 4 0xFFFFFFFF⟩ (by decide +kernel) (by decide +kernel)).2.1 (memEnd - 5) (by decide +kernel)
      (by intro bs hbs; have h : atomCombine 0 4 (wS.rdBytes (memEnd - 4) 4) (leBytes 4 0xFFFFFFFF) = some (leBytes 4 0xFFFFFFFF) := by decide +kernel
          rw [h] at hbs; cases hbs; rfl),
    (H.1 0 28 4 wS [] ⟨0, memEnd - 4, leBytes 8 0xFFFFFFFF⟩ (by decide +kernel) (by decide +kernel)).2.2 (by decide +kernel),
    (H.2 (leBytes 4 0xFFFFFFFF) (leBytes 4 1) (by decide) (by decide)).1 3 (by decide)⟩

def scAtomics : List Instr := [.atoms h7 0 ⟨40, 2, 20, 0, 0, 3, false⟩, .atoms h7 28 ⟨40, 2, 20, 0, 2, 3, false⟩, .atoms h7 24 ⟨0, 2, 20, 0, 0, 3, true⟩,
  .atomsAddFloat h7 false ⟨40, 2, 20, 0, 0, 3, false⟩]
def atomsChk (i : Instr) (s : State) (p : Nat × Nat × Atomf) : Except Res (List (Nat × Nat × W64)) :=
  sortOut (bg s) (sn i s).real 3 ((sn i s).realLanes.map fun j =>
    (j, laneScratch (bg s) (sn i s).gid false p.2.1 p.2.1 (readV (bg s) (sn i s) 0 p.2.2.a.toNat j)))
def atomsDone (i : Instr) (s : State) (p : Nat × Nat × Atomf) : Done :=
  (atomicLanes (bg s) (sn i s) p.1 p.2.1 p.2.2 (oksOf (atomsChk i s p))).foldl
    (scratchLane (.warp 0 0) (.rmw p.1 p.2.1 false (!p.2.2.nr)) p.2.1) ⟨bg s, [], none⟩
theorem witness_AtomicsComplete_scratch (H : Obligations.AtomicsComplete) : ∀ i ∈ scAtomics, ∃ t, exec i scS = .next t := by
  have hr : ∀ i ∈ scAtomics, okIssue i scS = true ∧ atomicOf i = some ((atomP i).1, (atomP i).2.1, (atomP i).2.2) ∧
      (sn i scS).real ≠ 0 ∧ checkVs (bg scS) (wpOf scS) (atomicRegs 1 (atomP i).1 (atomP i).2.1 (atomP i).2.2) = none ∧
      noneOutB (.warp 0 0) scS = true ∧ (wpOf scS).carried = [] ∧ scS.poison = [] ∧ (atomP i).2.2.ord = 0 ∧ (atomP i).2.2.scope.toNat ≤ 2 ∧
      isOk (atomsChk i scS (atomP i)) = true ∧ (atomsDone i scS (atomP i)).bad = none := by decide +kernel
  have hf : ∀ i ∈ scAtomics, (∃ t, i = .atoms (hd i) t (atomP i).2.2) ∨ ∃ b, i = .atomsAddFloat (hd i) b (atomP i).2.2 := by
    intro i hi
    simp only [scAtomics, List.mem_cons, List.not_mem_nil, or_false] at hi
    rcases hi with rfl | rfl | rfl | rfl
    · exact .inl ⟨_, rfl⟩
    · exact .inl ⟨_, rfl⟩
    · exact .inl ⟨_, rfl⟩
    · exact .inr ⟨_, rfl⟩
  intro i hi
  obtain ⟨h1, h2, h3, h4, h5, h6, h7, h8, h9, h10, h11⟩ := hr i hi
  exact completes (H.2 scS i (hd i) 0 0 (wpOf scS) (eOf scS) (atomP i).1 (atomP i).2.1 (atomP i).2.2 (oksOf (atomsChk i scS (atomP i)))
    (atomsDone i scS (atomP i)) (issues_of h1) (hf i hi) h2 h3 h4 (noneOut_of h5) h6 h7 h8 h9 (ok_of h10) rfl h11)

/-- What the checks of an instruction's lanes give, and the trap of its first lane. -/
def chkOf (i : Instr) (s : State) : List Nat × List (Nat × LX) := (memChecks (bg s) (sn i s) i).getD ([], [])
def trapAt (l : List (Nat × LX)) : Trap × Nat × W64 :=
  match l.head? with
  | some (_, .trap t l e) => (t, l, e)
  | _ => (⟨0, 0, 0, 0⟩, 0, 0)
def least (v : View) (t : Trap) (x : Nat × LX) : Bool :=
  match x.2 with
  | .trap t' _ _ => !v.real.getLsbD x.1 || t.rank < t'.rank || (t.rank == t'.rank && t.code == t'.code)
  | _ => true
theorem least_of {v : View} {t : Trap} {xs : List (Nat × LX)} (h : xs.all (least v t) = true) (k : Nat) (t' : Trap) (l' : Nat) (e' : W64)
    (hx : (k, LX.trap t' l' e') ∈ xs) (hk : v.real.getLsbD k = true) : t.rank < t'.rank ∨ (t.rank = t'.rank ∧ t.code = t'.code) := by
  have h1 := List.all_eq_true.mp h _ hx
  simpa [least, hk] using h1
/-- Every kind of access: misaligned, past 2^48, missing, past the scratchpad, and of a rank that the cluster lacks. -/
def badMem : List Instr := [.ld h7 4 ⟨40, 6, 0, 0, 0, 3, 0, 0⟩, .ld h7 4 ⟨40, 30, 0, 0, 0, 3, 0, 0⟩, .st h7 2 ⟨20, 32, 0, 0, 0, 3, 0, 0⟩,
  .stNt h7 2 ⟨20, 6, 0, 0, 0, 3, 0, 0⟩, .lds h7 4 ⟨40, 34, 0, 0, 0, 3, 0, 0⟩, .ldsCl h7 4 ⟨40, 34, 0, 0, 0, 3, 0, 0⟩, .sts h7 2 ⟨20, 6, 0, 0, 0, 3, 0, 0⟩,
  .stsCl h7 2 ⟨20, 34, 0, 0, 0, 3, 0, 0⟩, .atom h7 0 ⟨40, 6, 20, 0, 0, 3, false⟩, .atoms h7 0 ⟨40, 34, 20, 0, 0, 3, false⟩]
def trS : State := withVs mS [(31, 0x10000), (32, 0x100000), (34, 0x2000000), (33, 0)]
theorem witness_IssueTraps_memory (H : Obligations.IssueTraps) : ∀ i ∈ badMem, ∃ t, exec i trS = .next t := by
  have hr : ∀ i ∈ badMem, okIssue i trS = true ∧ memChecks (bg trS) (sn i trS) i = some ((chkOf i trS).1, (chkOf i trS).2) ∧
      (sn i trS).real ≠ 0 ∧ checkVs (bg trS) (wpOf trS) (chkOf i trS).1 = none ∧
      (0, LX.trap (trapAt (chkOf i trS).2).1 (trapAt (chkOf i trS).2).2.1 (trapAt (chkOf i trS).2).2.2) ∈ (chkOf i trS).2 ∧
      (sn i trS).real.getLsbD 0 = true ∧ (chkOf i trS).2.all (least (sn i trS) (trapAt (chkOf i trS).2).1) = true := by decide +kernel
  intro i hi
  obtain ⟨h1, h2, h3, h4, h5, h6, h7⟩ := hr i hi
  obtain ⟨_, _, _, _, _, hx, _⟩ := (H.2.2.1 trS i (hd i) 0 0 (wpOf trS) (eOf trS) _ _ (issues_of h1) h2 h3).2 0 _ _ _ h4 h5 h6 (least_of h7)
  exact ⟨_, hx⟩
/-- A register that holds the frontier. -/
theorem witness_IssueTraps_memory_registers (H : Obligations.IssueTraps) :
    ∃ t, exec (.ld h7 4 ⟨191, 2, 0, 0, 0, 3, 0, 0⟩) trS = .next t := by
  have h := ((H.2.2.1 trS (.ld h7 4 ⟨191, 2, 0, 0, 0, 3, 0, 0⟩) h7 0 0 (wpOf trS) (eOf trS) _ _ (issues_of (by decide +kernel)) rfl
    (by decide +kernel)).1)
  exact ⟨_, h ((checkVs (bg trS) (wpOf trS) [2, 3, 191]).getD ⟨0, 0, 0, 0⟩) (by decide +kernel)⟩
theorem witness_IssueTraps_registers (H : Obligations.IssueTraps) :
    checkVs aS (wpOf aS) [1, 190] = none ∧ (∃ t, checkVs aS { wpOf aS with allot := [0] } [31, 32] = some t ∧ t.code = 0x10) ∧
    ∃ t, checkVs aS (wpOf aS) [190, 191] = some t ∧ t.code = 0x08 := by
  refine ⟨(H.2.1 aS (wpOf aS) [1, 190]).2.2 (by decide +kernel), ?_, ?_⟩
  · obtain ⟨t, n, h, hc, _⟩ := (H.2.1 aS { wpOf aS with allot := [0] } [31, 32]).2.1 (by decide +kernel) (by decide +kernel)
    exact ⟨t, h, hc⟩
  · exact (H.2.1 aS (wpOf aS) [190, 191]).1 (by decide +kernel)

/-- The placed page without leave to write; a page of the first level that is missing. -/
def roS : State := wS.wr64 0x4000 0x5359
def roTlb : State := (xlate roS 0 0 0x10 .r).2
def roEntry : TlbE := (roTlb.tlbFind 0 0 0xFFC).getD ⟨0, 0, 0, 0, 0, 0⟩
def badWalk (s : State) (va : Nat) : XFault :=
  match walk s 0 va with
  | .bad f => f
  | _ => ⟨0, 0, 0, 0, 0⟩
/-- Range 0 is SEALED and covers the first page. -/
def sealedPage : State := wS.modPart 0 fun p => { p with seals := [(0, BitVec.ofNat 64 (2 ^ 62 + 1))] }
theorem witness_IssueTraps_global (H : Obligations.IssueTraps) :
    (∃ t l en, (laneGlobal wS 0 0 .r 4 4 (2 ^ 48)).1 = .trap t l en ∧ t.code = 0x22 ∧ t.info = 2 ^ 48) ∧
    (∃ t l en, (laneGlobal wS 0 0 .r 4 4 0xFFFFFFFFFFFE).1 = .trap t l en ∧ t.code = 0x20 ∧ t.info = 0xFFFFFFFFFFFE) ∧
    (∃ t l en, (laneGlobal roTlb 0 0 .w 4 4 0xFFC).1 = .trap t l en ∧ t.code = 0x23 ∧ t.info = 0xFFC) ∧
    (∃ t l en, (laneGlobal wS 0 0 .r 4 4 0x1000).1 = .trap t l en ∧ t.code = (badWalk wS 0x1000).code ∧ t.info = 0x1000) ∧
    (∃ t l en, (laneGlobal roS 0 0 .w 4 4 0).1 = .trap t l en ∧ t.code = 0x23 ∧ t.info = 0) ∧
    ∃ t l en, (laneGlobal sealedPage 0 0 .w 4 4 0xFFC).1 = .trap t l en ∧ t.code = 0x24 ∧ t.info = 0xFFC := by
  have K := H.2.2.2.1
  refine ⟨(K wS 0 0 4 4 .r (2 ^ 48) (by decide)).1 (by decide), (K wS 0 0 4 4 .r 0xFFFFFFFFFFFE (by decide)).2.1 (by decide) (by decide),
    ((K roTlb 0 0 4 4 .w 0xFFC (by decide)).2.2 (by decide) (by decide)).1 roEntry (by decide +kernel) (by decide +kernel),
    (((K wS 0 0 4 4 .r 0x1000 (by decide)).2.2 (by decide) (by decide)).2.1 (by decide +kernel)).1 (badWalk wS 0x1000) (by decide +kernel)
      (by decide +kernel),
    (((K roS 0 0 4 4 .w 0 (by decide)).2.2 (by decide) (by decide)).2.1 (by decide +kernel)).2 0 4096 0x5000 0x4000 0x5359 0
      (by decide +kernel) (by decide +kernel), ?_⟩
  obtain ⟨tl, h1⟩ := xl_ok (r := (xlate sealedPage 0 0 0xFFC .w).1) (by decide +kernel)
  exact ((K sealedPage 0 0 4 4 .w 0xFFC (by decide)).2.2 (by decide) (by decide)).2.2 rfl (by decide +kernel) _ _ tl _ (pair_of h1)
/-- The last word of the scratchpad of 4096 bytes, the one past it, a misaligned address, and a rank that the cluster lacks. -/
theorem witness_IssueTraps_scratchpad (H : Obligations.IssueTraps) :
    (∃ t l en, laneScratch clS 1 false 4 4 0x2 = .trap t l en ∧ t.code = 0x20 ∧ t.info = BitVec.setWidth 64 (0x2 : W32)) ∧
    (∃ t l en, laneScratch clS 1 false 4 4 0x1000 = .trap t l en ∧ t.code = 0x21 ∧ t.info = BitVec.setWidth 64 (0x1000 : W32)) ∧
    (∃ t l en, laneScratch clS 1 true 4 4 0x2000000 = .trap t l en ∧ t.code = 0x21 ∧ t.info = BitVec.setWidth 64 (0x2000000 : W32)) ∧
    laneScratch clS 1 true 4 4 0x1000FFC = .ok (7 * 2 ^ 32 + 0xFFC) 0 ∧ clusterTarget clS 1 0x2000000 ≠ some 1 := by
  have K := H.2.2.2.2.1
  exact ⟨(K clS 1 4 4 false 0x2).1 (by decide), (K clS 1 4 4 false 0x1000).2.1 (by decide) (.inr ⟨1, rfl, by decide +kernel⟩),
    (K clS 1 4 4 true 0x2000000).2.1 (by decide) (.inl (by decide +kernel)),
    (K clS 1 4 4 true 0x1000FFC).2.2.1 (by decide) 7 (by decide +kernel) (by decide +kernel),
    (K clS 1 4 4 true 0x2000000).2.2.2 1 (by decide +kernel)⟩
/-- MBINIT, MBARV to another rank, and MBWAIT of a misaligned gate, or of one past the scratchpad. -/
def gates : List Instr := [.mbinit h7 ⟨0, 6, 8, 0, 0, 0⟩, .mbarv h7 ⟨0, 34, 8, 0, 4, 0⟩, .mbwait h7 ⟨0, 34, 0, 0, 0, 0⟩]
def laneTrap : LX → Trap × Nat × W64
  | .trap t l e => (t, l, e)
  | _ => (⟨0, 0, 0, 0⟩, 0, 0)
def gateOp (i : Instr) : Bool × BitVec 8 × Bool := (gateOperand i).getD (false, 0, false)
def gateX (i : Instr) (s : State) : LX := laneScratch (bg s) (wpOf s).gid (gateOp i).2.2 8 8 (readR (bg s) (sn i s) 0 (gateOp i).1 (gateOp i).2.1.toNat 0)
def gateValueOk (i : Instr) (s : State) : Bool :=
  match gateValue i with
  | some (y, b) => 0 < (readR (bg s) (sn i s) 1 y b.toNat 0).toNat && (readR (bg s) (sn i s) 1 y b.toNat 0).toNat < 2 ^ 20
  | none => true
theorem witness_IssueTraps_gates (H : Obligations.IssueTraps) : ∀ i ∈ gates, ∃ t, exec i trS = .next t := by
  have hr : ∀ i ∈ gates, okIssue i trS = true ∧ gateOperand i = some ((gateOp i).1, (gateOp i).2.1, (gateOp i).2.2) ∧
      (sn i trS).real ≠ 0 ∧ (if (gateValue i).isSome then (sn i trS).realLanes.head? else (sn i trS).lanes.head?) = some 0 ∧
      checkVs (bg trS) (wpOf trS) (runRegsX (gateOp i).1 (gateOp i).2.1.toNat 1 ++
        (match gateValue i with | some (y, b) => runRegsX y b.toNat 1 | none => [])) = none ∧
      gateValueOk i trS = true ∧
      gateX i trS = .trap (laneTrap (gateX i trS)).1 (laneTrap (gateX i trS)).2.1 (laneTrap (gateX i trS)).2.2 := by decide +kernel
  intro i hi
  obtain ⟨h1, h2, h3, h4, h5, h6, h7⟩ := hr i hi
  refine ⟨_, H.2.2.2.2.2.1 trS i (hd i) 0 0 (wpOf trS) (eOf trS) _ _ _ 0 _ _ _ (issues_of h1) h2 h3 h4 h5 ?_ h7⟩
  intro y b hy
  simp only [gateValueOk, hy, Bool.and_eq_true, decide_eq_true_eq] at h6
  exact h6

def iFlush : Instr := .flushr h7 ⟨0, 2, 4, 3, 0, 0⟩
def iInv : Instr := .invr h7 ⟨0, 10, 13, 3, 0, 3⟩
/-- The last 256 bytes of the address space, as a scalar range. -/
def flS : State := withG mS [(10, 0xFFFFFF00), (11, 0xFFFF), (13, 255)]
theorem witness_FlushesAndFences_flushr (H : Obligations.FlushesAndFences) : ∃ t, exec iFlush mS = .next t :=
  completes (H.1 mS iFlush h7 ⟨0, 2, 4, 3, 0, 0⟩ false 0 0 (wpOf mS) (eOf mS) 0 (issues_of (by decide +kernel)) rfl (by decide +kernel)
    (by decide +kernel) (noneOut_of (by decide +kernel)) (by decide +kernel) (by decide +kernel))
theorem witness_FlushesAndFences_invr (H : Obligations.FlushesAndFences) : ∃ t, exec iInv flS = .next t :=
  completes (H.1 flS iInv h7 ⟨0, 10, 13, 3, 0, 3⟩ true 0 0 (wpOf flS) (eOf flS) 0 (issues_of (by decide +kernel)) rfl (by decide +kernel)
    (by decide +kernel) (noneOut_of (by decide +kernel)) (by decide +kernel) (by decide +kernel))
def fence (ord : BitVec 3) (scope : BitVec 3) : Instr := .fence h7 ⟨0, 0, ord, scope, 0, 0, 0, 0⟩
/-- Orders and scopes of FENCE, each order at a narrow and at a wide scope. -/
def fences : List (BitVec 3 × BitVec 3) := [(1, 3), (1, 4), (2, 2), (2, 3), (2, 4), (3, 3), (3, 6), (4, 3), (4, 6)]
theorem witness_FlushesAndFences_fence (H : Obligations.FlushesAndFences) : ∀ p ∈ fences, ∃ t, exec (fence p.1 p.2) mS = .next t := by
  have hr : ∀ p ∈ fences, okIssue (fence p.1 p.2) mS = true ∧ (sn (fence p.1 p.2) mS).act ≠ 0 := by decide +kernel
  intro p hp
  obtain ⟨h1, h2⟩ := hr p hp
  exact completes (H.2 mS h7 ⟨0, 0, p.1, p.2, 0, 0, 0, 0⟩ 0 0 (wpOf mS) (eOf mS) (issues_of (i := fence p.1 p.2) h1) h2
    (noneOut_of (by decide +kernel)) (by decide +kernel))

/-! Tiles, barriers, gates. -/

def B : State := (withG (withV wS [(2, 0, 0x40), (4, 0, 3)]) [(2, 300), (4, 0x40), (5, 0), (6, 3), (7, 0)])
def own (s : State) (t : Nat) (o : Owner) : State := s.modCore 0 fun k => k.setOwner t o
def mine : Owner := { st := .warp, owner := 0, gid := 1 }
/-- Tile 300 is the warp's, in window 0 or in window 1. -/
def inW0 : State := (own B 300 mine).modWarp 0 0 fun w => { w with w0 := { valid := true, tile := 300 } }
def inW1 : State := (own B 767 mine).modWarp 0 0 fun w => { w with w1 := { valid := true, tile := 767 } }
def noTakerB (s : State) (t : Nat) : Bool :=
  (s.warps.all fun x => match x.2.wait with | .take k _ _ => k != t | _ => true) && (s.ctxs.all fun x => x.2.wait != .take t)
theorem noTaker_of {s : State} {t : Nat} (h : noTakerB s t = true) : noTaker s t := by
  simp only [noTakerB, Bool.and_eq_true, List.all_eq_true] at h
  refine ⟨fun x hx b act hw => ?_, fun x hx hw => ?_⟩
  · have := h.1 x hx; simp [hw] at this
  · have := h.2 x hx; simp [hw] at this
theorem witness_Trades_give (H : Obligations.Trades) : ∃ t, exec (.give h7 ⟨0, 0, 0, false, 0x40⟩) inW0 = .next t :=
  completes ((H.1 inW0 h7 ⟨0, 0, 0, false, 0x40⟩ 0 0 (wpOf inW0) (eOf inW0) false (issues_of (i := .give h7 ⟨0, 0, 0, false, 0x40⟩) (by decide +kernel))
    (by decide +kernel) (by decide +kernel) (noneOut_of (by decide +kernel)) (noTaker_of (by decide +kernel))).1 rfl (by decide +kernel))
theorem witness_Trades_give_free (H : Obligations.Trades) : ∃ t, exec (.giveFree h7 ⟨0, 0, 0, true, 0⟩) inW1 = .next t :=
  completes ((H.1 inW1 h7 ⟨0, 0, 0, true, 0⟩ 0 0 (wpOf inW1) (eOf inW1) true (issues_of (i := .giveFree h7 ⟨0, 0, 0, true, 0⟩) (by decide +kernel))
    (by decide +kernel) (by decide +kernel) (noneOut_of (by decide +kernel)) (noTaker_of (by decide +kernel))).2 rfl (by decide +kernel))
/-- Tile 256 or 767 stands offered to the warp. -/
def offered (t : Nat) : State := own B t { st := .offered, owner := 0x40, dst := 0, gid := 1, seq := 1 }
theorem witness_Trades_take (H : Obligations.Trades) :
    (∃ t, exec (.take h7 ⟨0, 0, 256, false, 0⟩) (offered 256) = .next t) ∧ ∃ t, exec (.take h7 ⟨0, 0, 767, true, 0⟩) (offered 767) = .next t := by
  constructor
  · refine completes (H.2.1 (offered 256) h7 ⟨0, 0, 256, false, 0⟩ 0 0 (wpOf (offered 256)) (eOf (offered 256))
      (issues_of (i := .take h7 ⟨0, 0, 256, false, 0⟩) ?_) ?_ ?_ ?_ ?_ ?_ ?_ ?_ ?_ ?_) <;> decide +kernel
  · refine completes (H.2.1 (offered 767) h7 ⟨0, 0, 767, true, 0⟩ 0 0 (wpOf (offered 767)) (eOf (offered 767))
      (issues_of (i := .take h7 ⟨0, 0, 767, true, 0⟩) ?_) ?_ ?_ ?_ ?_ ?_ ?_ ?_ ?_ ?_) <;> decide +kernel
/-- Every accumulator tile is free; 256 is the lowest. -/
theorem witness_Trades_take_new (H : Obligations.Trades) : ∃ t, exec (.takeNew h7 ⟨3, 0, 0, false, 0⟩) B = .next t := by
  refine completes (H.2.2 B h7 ⟨3, 0, 0, false, 0⟩ 0 0 (wpOf B) (eOf B) 256 (issues_of (i := .takeNew h7 ⟨3, 0, 0, false, 0⟩) ?_)
    ?_ ?_ ?_ ?_ ?_ ?_ ?_) <;> decide +kernel
/-- Two tiles, of at most six, of which the launch gave two. -/
def small : State := (lessRec B (4 * 2 ^ 160)).modWarp 0 0 fun w => { w with allot := [0, 1] }
def full : State := lessRec B (4 * 2 ^ 160)
def iGrow (n : BitVec 8) : Instr := .grow h7 (sysf 0 0 n)
def iShrink (n : BitVec 8) : Instr := .shrink h7 (sysf 0 0 n)
theorem witness_AllotmentsComplete_grow (H : Obligations.AllotmentsComplete) :
    (∃ t, exec (iGrow 6) small = .next t) ∧ ∃ t, exec (iGrow 2) small = .next t := by
  constructor
  · refine completes ((H.1 small h7 (sysf 0 0 6) 0 0 (wpOf small) (eOf small) (issues_of (i := iGrow 6) ?_) ?_ ?_).2 ?_ ?_ ?_ ?_ ?_) <;>
      decide +kernel
  · refine completes ((H.1 small h7 (sysf 0 0 2) 0 0 (wpOf small) (eOf small) (issues_of (i := iGrow 2) ?_) ?_ ?_).1 ?_) <;> decide +kernel
theorem witness_AllotmentsComplete_shrink (H : Obligations.AllotmentsComplete) :
    (∃ t, exec (iShrink 2) full = .next t) ∧ ∃ t, exec (iShrink 2) small = .next t := by
  constructor
  · refine completes ((H.2.1 full h7 (sysf 0 0 2) 0 0 (wpOf full) (eOf full) (issues_of (i := iShrink 2) ?_) ?_ ?_).2 ?_ ?_) <;> decide +kernel
  · refine completes ((H.2.1 small h7 (sysf 0 0 2) 0 0 (wpOf small) (eOf small) (issues_of (i := iShrink 2) ?_) ?_ ?_).1 ?_) <;> decide +kernel
theorem witness_AllotmentsComplete_tstat (H : Obligations.AllotmentsComplete) : ∃ t, exec (.tstat h7 ⟨3, 0, 767, false, 0⟩) B = .next t :=
  completes (H.2.2 B h7 ⟨3, 0, 767, false, 0⟩ 0 0 (wpOf B) (eOf B) (issues_of (i := .tstat h7 ⟨3, 0, 767, false, 0⟩) (by decide +kernel)) (by decide +kernel)
    (by decide +kernel) (by decide +kernel) (noClash_of (by decide +kernel)))

/-- Two warps, of which the other stands at the barrier. -/
def twoW : State := (B.modGroup 1 fun g => { g with slots := [0, 1], bar := [1] }).setWarp 0 1 { gid := 1, index := 1, wait := .bar, frontier := [{ mask := 1 }] }
def iBar : Instr := .bar h7 (sysf 0 0)
def iCbar : Instr := .cbar h7 (sysf 0 0)
theorem witness_BarriersComplete_bar (H : Obligations.BarriersComplete) : ∃ t, exec iBar twoW = .next t ∧
    ∃ r, exec (.barComplete (wpOf twoW).gid) t = .next r := by
  have h := H.1 twoW h7 (sysf 0 0) 0 0 (wpOf twoW) (eOf twoW) (twoW.group 1) (issues_of (i := iBar) (by decide +kernel)) (by decide +kernel)
    (noneOut_of (by decide +kernel)) (by decide +kernel) (by decide +kernel) (by decide +kernel) (by decide +kernel)
  obtain ⟨t, h1, h2⟩ := h
  exact ⟨t, h1, completes (h2.2.2.2.2.2.2 (by decide +kernel) (by decide +kernel))⟩
theorem witness_BarriersComplete_cbar (H : Obligations.BarriersComplete) : ∃ t, exec iCbar B = .next t ∧
    ∃ r, exec (.cbarComplete (B.group 1).cluster) t = .next r := by
  have h := H.2 B h7 (sysf 0 0) 0 0 (wpOf B) (eOf B) (B.group 1) (issues_of (i := iCbar) (by decide +kernel)) (by decide +kernel)
    (noneOut_of (by decide +kernel)) (by decide +kernel) (by decide +kernel) (by decide +kernel) (by decide +kernel)
  obtain ⟨t, h1, h2⟩ := h
  refine ⟨t, h1, completes (h2.2.2.2.2 ?_ ?_ ?_ ?_ ?_ ?_ ?_)⟩ <;> decide +kernel

/-- A gate at 0x40 of the issuer's scratchpad: phase 1, five expected. -/
def gated (cur nxt : Nat) : State := B.setGate 1 0x40 { phase := 1, rsvd := 0, expect := 5, cur := cur, nxt := nxt }
/-- The same gate with the second warp waiting on it. -/
def waited : State := ((gated 2 0).modGroup 1 fun g => { g with slots := [0, 1] }).setWarp 0 1 { gid := 1, index := 1, wait := .mbwait 0x40 1, frontier := [{ mask := 1 }] }
def iInit : Instr := .mbinit h7 ⟨0, 2, 4, 3, 0, 0⟩
theorem witness_GatesComplete_init (H : Obligations.GatesComplete) : (∃ t, exec iInit B = .next t) ∧ ∃ t, exec iInit waited = .next t := by
  constructor
  · refine completes ((H.1 B h7 ⟨0, 2, 4, 3, 0, 0⟩ 0 0 (wpOf B) (eOf B) 0 (2 ^ 32 + 0x40) (issues_of (i := iInit) ?_) ?_ ?_
      (noneOut_of ?_) ?_ ?_ ?_).1 ?_) <;> decide +kernel
  · refine completes ((H.1 waited h7 ⟨0, 2, 4, 3, 0, 0⟩ 0 0 (wpOf waited) (eOf waited) 0 (2 ^ 32 + 0x40) (issues_of (i := iInit) ?_) ?_ ?_
      (noneOut_of ?_) ?_ ?_ ?_).2 ?_) <;> decide +kernel
/-- The third arrival of five, which turns the gate; one at the gate of another rank; one at that of a saved group. -/
def iArv : Instr := .mbarv h7 ⟨0, 4, 6, 3, 1, 3⟩
def iArvCl : Instr := .mbarv h7 ⟨0, 2, 6, 3, 5, 3⟩
def clG : State := withG (clS.setGate 7 0x40 { phase := 1, rsvd := 0, expect := 5, cur := 2, nxt := 0 }) [(2, 0x1000040), (6, 3)]
def clSaved : State := clG.modGroup 7 fun g => { g with phase := .saved 2 }
theorem witness_GatesComplete_arrive (H : Obligations.GatesComplete) :
    (∃ t, exec iArv (gated 2 0) = .next t) ∧ (∃ t, exec iArvCl clG = .next t) ∧ ∃ t, exec iArvCl clSaved = .next t := by
  have ph : ∀ s : State, ∀ g, (match (s.group g).phase with | .saved _ => false | _ => true) = true → ∀ r, (s.group g).phase ≠ .saved r := by
    intro s g h r hr
    simp [hr] at h
  refine ⟨?_, ?_, ?_⟩
  · refine completes ((H.2.1 (gated 2 0) h7 ⟨0, 4, 6, 3, 1, 3⟩ 0 0 (wpOf (gated 2 0)) (eOf (gated 2 0)) 0 (2 ^ 32 + 0x40)
      (issues_of (i := iArv) ?_) ?_ ?_ (noneOut_of ?_) ?_ ?_ ?_).1 (ph _ _ ?_) ?_ { phase := 2, rsvd := 0, expect := 5, cur := 0, nxt := 0 } ?_) <;>
      decide +kernel
  · refine completes ((H.2.1 clG h7 ⟨0, 2, 6, 3, 5, 3⟩ 0 0 (wpOf clG) (eOf clG) 0 (7 * 2 ^ 32 + 0x40)
      (issues_of (i := iArvCl) ?_) ?_ ?_ (noneOut_of ?_) ?_ ?_ ?_).1 (ph _ _ ?_) ?_ { phase := 2, rsvd := 0, expect := 5, cur := 0, nxt := 0 } ?_) <;>
      decide +kernel
  · refine completes ((H.2.1 clSaved h7 ⟨0, 2, 6, 3, 5, 3⟩ 0 0 (wpOf clSaved) (eOf clSaved) 0 (7 * 2 ^ 32 + 0x40)
      (issues_of (i := iArvCl) ?_) ?_ ?_ (noneOut_of ?_) ?_ ?_ ?_).2 ⟨2, ?_⟩) <;> decide +kernel
def iWait (ph : BitVec 5) : Instr := .mbwait h7 ⟨0, 4, 0, 0, ph, 1⟩
theorem witness_GatesComplete_wait (H : Obligations.GatesComplete) :
    (∃ t, exec (iWait 0) (gated 2 0) = .next t) ∧ ∃ t, exec (iWait 1) (gated 2 0) = .next t := by
  have hi : ∀ ph ∈ [(0 : BitVec 5), 1], okIssue (iWait ph) (gated 2 0) = true ∧ (sn (iWait ph) (gated 2 0)).lanes.head? = some 0 ∧
      checkVs (bg (gated 2 0)) (wpOf (gated 2 0)) (runRegsX (xA 1) 4 1) = none ∧
      laneScratch (bg (gated 2 0)) 1 false 8 8 (readR (bg (gated 2 0)) (sn (iWait ph) (gated 2 0)) 0 (xA 1) 4 0) = .ok (2 ^ 32 + 0x40) 0 := by
    decide +kernel
  constructor
  · obtain ⟨h1, h2, h3, h4⟩ := hi 0 (by decide)
    exact completes ((H.2.2.1 (gated 2 0) h7 ⟨0, 4, 0, 0, 0, 1⟩ 0 0 (wpOf (gated 2 0)) (eOf (gated 2 0)) 0 (2 ^ 32 + 0x40)
      (issues_of (i := iWait 0) h1) h2 (.inr h3) h4 (by decide +kernel)).1 (by decide +kernel))
  · obtain ⟨h1, h2, h3, h4⟩ := hi 1 (by decide)
    exact completes ((H.2.2.1 (gated 2 0) h7 ⟨0, 4, 0, 0, 1, 1⟩ 0 0 (wpOf (gated 2 0)) (eOf (gated 2 0)) 0 (2 ^ 32 + 0x40)
      (issues_of (i := iWait 1) h1) h2 (.inr h3) h4 (by decide +kernel)).2 (by decide +kernel))
/-- Phase 3 wraps to 0; a count one below, at and past its bound; a phase that fills with the next one full. -/
def g5 (cur nxt : Nat) : Gate := { phase := 3, rsvd := 0, expect := 5, cur := cur, nxt := nxt }
theorem witness_GatesComplete_counts (H : Obligations.GatesComplete) :
    arrive (g5 2 1) 3 2 = some { g5 2 1 with cur := 2 + 2 } ∧ arrive (g5 2 1) 3 3 = some { g5 2 1 with phase := (3 + 1) % 4, cur := 1, nxt := 0 } ∧
    arrive (g5 2 5) 3 3 = some { g5 2 5 with phase := (3 + 2) % 4, cur := 0, nxt := 0 } ∧
    arrive (g5 2 1) 3 4 = none ∧ arrive (g5 2 1) 0 4 = some { g5 2 1 with nxt := 1 + 4 } ∧ arrive (g5 2 1) 0 5 = none ∧ arrive (g5 2 1) 1 1 = none := by
  have f : ∀ n x p, x ∈ [1, 5] → p ∈ [0, 1, 3] → n ∈ [1, 2, 3, 4, 5] → (g5 2 x).phase < 4 ∧ p < 4 ∧ (g5 2 x).cur < (g5 2 x).expect ∧
      (g5 2 x).nxt ≤ (g5 2 x).expect ∧ 0 < n := by
    intro n x p hx hp hn
    simp only [List.mem_cons, List.not_mem_nil, or_false, g5] at *
    omega
  have h := fun n x p hx hp hn => H.2.2.2 (g5 2 x) p n (f n x p hx hp hn).1 (f n x p hx hp hn).2.1 (f n x p hx hp hn).2.2.1
    (f n x p hx hp hn).2.2.2.1 (f n x p hx hp hn).2.2.2.2
  refine ⟨(h 2 1 3 ?_ ?_ ?_).1 ?_ ?_, (h 3 1 3 ?_ ?_ ?_).2.1 ?_ ?_ ?_, (h 3 5 3 ?_ ?_ ?_).2.2.1 ?_ ?_ ?_, (h 4 1 3 ?_ ?_ ?_).2.2.2.1 ?_ ?_,
    (h 4 1 0 ?_ ?_ ?_).2.2.2.2.1 ?_ ?_, (h 5 1 0 ?_ ?_ ?_).2.2.2.2.2.1 ?_ ?_, (h 1 1 1 ?_ ?_ ?_).2.2.2.2.2.2 ?_ ?_⟩ <;> decide

/-! Rings, tickets, seals, contexts, copies. -/

/-- A ring at 0x40 of four slots at 0x100, its states at 0xC0. -/
def R : State := withG (withV wS [(4, 0, 3)]) [(2, 0x40), (3, 0), (4, 0x200), (5, 0), (6, 3), (7, 0)]
def ring (kind notify resv head : Nat) (st : List Nat) : State :=
  (withRing R 0x40 0x100 2 4 kind notify resv head 0xC0).wrBytes 0x50C0 (st.map fun x => BitVec.ofNat 8 x)
def atRing (i : Instr) (f : Asy) (s : State) : LX × State :=
  laneGlobal (bg s) 0 (s.partOf (wpOf s).gid) .rw 64 64 (readR64 (bg s) (sn i s) 0 (xA f.x) f.a.toNat 0)
def lxPa : LX → Nat
  | .ok pa _ => pa
  | _ => 0
def lxLeaf : LX → W64
  | .ok _ leaf => leaf
  | _ => 0
def lxOk : LX → Bool
  | .ok .. => true
  | _ => false
theorem lx_ok {r : LX × State} (h : lxOk r.1 = true) : r = (.ok (lxPa r.1) (lxLeaf r.1), r.2) := by
  obtain ⟨a, b⟩ := r
  cases a <;> simp_all [lxPa, lxLeaf, lxOk]
def prepped (i : Instr) (f : Asy) (s : State) : State := (atRing i f s).2.homePrep 0 (span (lxPa (atRing i f s).1) 64)
def hdrOf (i : Instr) (f : Asy) (s : State) : Nat := (readR64 (bg s) (sn i s) 0 (xA f.x) f.a.toNat 0).toNat
def ringBase (i : Instr) (f : Asy) (s : State) : Bool :=
  okIssue i s && (sn i s).realLanes.head? == some 0 && checkVs (bg s) (wpOf s) (runRegsX (xA f.x) f.a.toNat 2) == none && noneOutB (.warp 0 0) s &&
    lxOk (atRing i f s).1
theorem ringBase_spec {i : Instr} {f : Asy} {s : State} (h : ringBase i f s = true) :
    Issues i (hd i) 0 0 (wpOf s) (eOf s) s ∧ (sn i s).realLanes.head? = some 0 ∧
      checkVs (bg s) (wpOf s) (runRegsX (xA f.x) f.a.toNat 2) = none ∧ NoneOut (.warp 0 0) s ∧ lxOk (atRing i f s).1 = true := by
  simp only [ringBase, Bool.and_eq_true, beq_iff_eq] at h
  exact ⟨issues_of h.1.1.1.1, h.1.1.1.2, h.1.1.2, noneOut_of h.1.2, h.2⟩
def exOk {ε α : Type} (x : Except ε α) (d : α) : α :=
  match x with
  | .ok a => a
  | .error _ => d
def exIs {ε α : Type} (x : Except ε α) : Bool :=
  match x with
  | .ok _ => true
  | .error _ => false
theorem ex_ok {ε α : Type} {r : Except ε α × State} (d : α) (h : exIs r.1 = true) : r = (.ok (exOk r.1 d), r.2) := by
  obtain ⟨a, b⟩ := r
  cases a <;> simp_all [exOk, exIs]
theorem ex_ok2 {ε α β : Type} {r : Except ε (α × β) × State} (d : α × β) (h : exIs r.1 = true) :
    r = (.ok ((exOk r.1 d).1, (exOk r.1 d).2), r.2) := ex_ok d h
def noRing : Nat × RingHdr := (0, ringHdr 0)
theorem ring_res (H : Obligations.RingOpsComplete) (f : Asy) (s : State) (h : ringBase (.ringres h7 f) f s = true)
    (h1 : exIs (ringReserve (prepped (.ringres h7 f) f s) (s.partOf (wpOf s).gid) (hdrOf (.ringres h7 f) f s)).1 = true)
    (h2 : (prepped (.ringres h7 f) f s).ringBusy (s.partOf (wpOf s).gid) (hdrOf (.ringres h7 f) f s) true = false) :
    ∃ t, exec (.ringres h7 f) s = .next t := by
  obtain ⟨a, b, c, d, e⟩ := ringBase_spec h
  exact completes ((H.2 s (.ringres h7 f) h7 f 0 0 (wpOf s) (eOf s) 0 _ _ _ a b c d (lx_ok e)).1 _ _ _ rfl (ex_ok2 noRing h1) h2)
theorem ring_pop (H : Obligations.RingOpsComplete) (f : Asy) (s : State) (h : ringBase (.ringpop h7 f) f s = true)
    (h0 : popKind (prepped (.ringpop h7 f) f s) (s.partOf (wpOf s).gid) (hdrOf (.ringpop h7 f) f s) = true)
    (h1 : exIs (ringTake (prepped (.ringpop h7 f) f s) (s.partOf (wpOf s).gid) (hdrOf (.ringpop h7 f) f s)).1 = true)
    (h2 : (prepped (.ringpop h7 f) f s).ringBusy (s.partOf (wpOf s).gid) (hdrOf (.ringpop h7 f) f s) false = false) :
    ∃ t, exec (.ringpop h7 f) s = .next t := by
  obtain ⟨a, b, c, d, e⟩ := ringBase_spec h
  exact completes ((H.2 s (.ringpop h7 f) h7 f 0 0 (wpOf s) (eOf s) 0 _ _ _ a b c d (lx_ok e)).2.1 _ _ _ rfl h0 (ex_ok2 noRing h1) h2)
theorem ring_pub (H : Obligations.RingOpsComplete) (f : Asy) (s : State) (h : ringBase (.ringpub h7 f) f s = true)
    (h0 : checkVs (bg s) (wpOf s) (runRegsX (xB f.x) f.b.toNat 2) = none)
    (h1 : exIs (ringPublish ((prepped (.ringpub h7 f) f s).drainCore 0) (s.partOf (wpOf s).gid) (hdrOf (.ringpub h7 f) f s)
      (readR64 (prepped (.ringpub h7 f) f s) (sn (.ringpub h7 f) s) 2 (xB f.x) f.b.toNat 0).toNat).1 = true) :
    ∃ t, exec (.ringpub h7 f) s = .next t := by
  obtain ⟨a, b, c, d, e⟩ := ringBase_spec h
  exact completes ((H.2 s (.ringpub h7 f) h7 f 0 0 (wpOf s) (eOf s) 0 _ _ _ a b c d (lx_ok e)).2.2 _ _ rfl h0 (ex_ok (ringHdr 0) h1))
/-- The last free slot of a ring, and a slot whose number wraps. -/
theorem witness_RingOpsComplete_reserve (H : Obligations.RingOpsComplete) :
    ∃ t, exec (.ringres h7 ⟨10, 2, 0, 3, 0, 1⟩) (ring 0 0 5 2 [2, 0, 1, 0]) = .next t :=
  ring_res H _ _ (by decide +kernel) (by decide +kernel) (by decide +kernel)
theorem witness_RingOpsComplete_take (H : Obligations.RingOpsComplete) :
    ∃ t, exec (.ringpop h7 ⟨10, 2, 0, 3, 0, 1⟩) (ring 0 2 4 2 [0, 0, 2, 2]) = .next t :=
  ring_pop H _ _ (by decide +kernel) (by decide +kernel) (by decide +kernel) (by decide +kernel)
theorem witness_RingOpsComplete_publish (H : Obligations.RingOpsComplete) :
    ∃ t, exec (.ringpub h7 ⟨0, 2, 6, 3, 0, 3⟩) (ring 0 2 4 3 [0, 0, 0, 1]) = .next t :=
  ring_pub H _ _ (by decide +kernel) (by decide +kernel) (by decide +kernel)

def opened (s : State) : Except RingErr (RingHdr × Nat) × State := ringOpen s 0 0x40
def rOf (s : State) : RingHdr := (exOk (opened s).1 (ringHdr 0, 0)).1
def stated (s : State) (k : Nat) : Except RingErr (Nat × Nat) × State := ringState (opened s).2 0 (rOf s) k
def ringAtB (s : State) (k : Nat) : Bool :=
  exIs (opened s).1 && exIs (stated s k).1 && (rOf s).resv == (opened s).2.rdNat ((exOk (opened s).1 (ringHdr 0, 0)).2 + 24) 8 &&
    (rOf s).head == (opened s).2.rdNat ((exOk (opened s).1 (ringHdr 0, 0)).2 + 32) 8 &&
    (rOf s).stateBase == (opened s).2.rdNat ((exOk (opened s).1 (ringHdr 0, 0)).2 + 40) 8
theorem ringAt_ok {s : State} {k : Nat} (h : ringAtB s k = true) :
    RingAt s 0 0x40 k (rOf s) (exOk (opened s).1 (ringHdr 0, 0)).2 (exOk (stated s k).1 (0, 0)).1 (exOk (stated s k).1 (0, 0)).2 (stated s k).2 := by
  simp only [ringAtB, Bool.and_eq_true, beq_iff_eq] at h
  exact ⟨(opened s).2, ex_ok2 (ringHdr 0, 0) h.1.1.1.1, ex_ok2 (0, 0) h.1.1.1.2, h.1.1.2, h.1.2, h.2⟩
/-- Of the last free slot, and of a full ring. -/
def lastFree : State := ring 0 0 5 2 [2, 0, 1, 0]
def fullRing : State := ring 0 0 6 2 [2, 0, 1, 0]
theorem witness_RingOpsComplete_reserve_words (H : Obligations.RingOpsComplete) :
    (∃ t, ringReserve lastFree 0 0x40 = (.ok ((rOf lastFree).resv, rOf lastFree), t)) ∧ (ringReserve fullRing 0 0x40).1 = .error .full := by
  have h1 := (H.1 _ _ _ _ _ _ _ _ _ (ringAt_ok (s := lastFree) (k := 5) (by decide +kernel))).1 (by decide +kernel) (by decide +kernel)
  have h2 := (H.1 _ _ _ _ _ _ _ _ _ (ringAt_ok (s := fullRing) (k := 6) (by decide +kernel))).2.1 (by decide +kernel) (by decide +kernel)
  exact ⟨h1.imp fun _ h => h.1, h2⟩
/-- Of a reserved slot, and of one that is published. -/
def reserved : State := ring 0 0 5 2 [1, 0, 2, 2]
theorem witness_RingOpsComplete_publish_words (H : Obligations.RingOpsComplete) :
    (∃ t, ringPublish reserved 0 0x40 4 = (.ok (rOf reserved), t)) ∧ (ringPublish reserved 0 0x40 3).1 = .error .format := by
  have h1 := (H.1 _ _ _ _ _ _ _ _ _ (ringAt_ok (s := reserved) (k := 4) (by decide +kernel))).2.2.1 (by decide +kernel) (by decide +kernel)
    (by decide +kernel)
  have h2 := (H.1 _ _ _ _ _ _ _ _ _ (ringAt_ok (s := reserved) (k := 3) (by decide +kernel))).2.2.2.1 (by decide +kernel)
  exact ⟨h1.imp fun _ h => h.1, h2⟩
/-- Of a published slot before one that is not, and of one that is not published. -/
def published : State := ring 0 2 4 2 [0, 0, 2, 1]
def unpublished : State := ring 0 2 4 3 [0, 0, 0, 1]
theorem witness_RingOpsComplete_take_words (H : Obligations.RingOpsComplete) :
    (∃ t, ringTake published 0 0x40 = (.ok ((rOf published).head, rOf published), t)) ∧ (ringTake unpublished 0 0x40).1 = .error .empty := by
  have h1 := (H.1 _ _ _ _ _ _ _ _ _ (ringAt_ok (s := published) (k := 2) (by decide +kernel))).2.2.2.2.1 (by decide +kernel) (by decide +kernel)
    (by decide +kernel)
  have h2 := (H.1 _ _ _ _ _ _ _ _ _ (ringAt_ok (s := unpublished) (k := 3) (by decide +kernel))).2.2.2.2.2 (by decide +kernel) (.inr (by decide +kernel))
  exact ⟨h1.imp fun _ h => h.1, h2⟩

/-- The last line of the address space, and a line of 512 bytes at 0. -/
def ldS (hi lo : Nat) : State := withG wS [(4, lo), (5, hi)]
theorem witness_Tickets_ldt (H : Obligations.Tickets) :
    (∃ t, exec (.ldt h7 ⟨10, 4, 0, 3, 0, 1⟩) (ldS 0xFFFF 0xFFFFFF80) = .next t) ∧ ∃ t, exec (.ldtTry h7 ⟨10, 4, 0, 3, 2, 1⟩) (ldS 0 0) = .next t :=
  ⟨completes (H.1 (ldS 0xFFFF 0xFFFFFF80) (.ldt h7 ⟨10, 4, 0, 3, 0, 1⟩) h7 ⟨10, 4, 0, 3, 0, 1⟩ 0 0 (wpOf (ldS 0xFFFF 0xFFFFFF80))
      (eOf (ldS 0xFFFF 0xFFFFFF80)) 0 false (issues_of (by decide +kernel)) rfl (by decide +kernel) (by decide +kernel) (noneOut_of (by decide +kernel))
      (by decide +kernel) (by decide +kernel) (by decide +kernel)),
    completes (H.1 (ldS 0 0) (.ldtTry h7 ⟨10, 4, 0, 3, 2, 1⟩) h7 ⟨10, 4, 0, 3, 2, 1⟩ 0 0 (wpOf (ldS 0 0)) (eOf (ldS 0 0)) 0 true
      (issues_of (by decide +kernel)) rfl (by decide +kernel) (by decide +kernel) (noneOut_of (by decide +kernel)) (by decide +kernel)
      (by decide +kernel) (by decide +kernel))⟩

/-- A full ticket of a size, with a value that its slice accepts in g10:g11; a scratchpad offset in g4. -/
def tkS (size lo hi : Nat) : State :=
  let s := wS.modPart 0 fun p => { p with tagKey := 0x123456789 }
  withG { s with tickets := [(tkKey 3 5, { st := .full, gen := 7, part := 0, size := size, va := 0x200, pa := 0x5200,
                                           data := List.replicate (128 * 2 ^ size) 3 })] } [(10, lo), (11, hi), (4, 4096 - 128 * 2 ^ size)]
def tk0 : State := tkS 0 0xFB107E84 0x0C050700
def tkOf (f : Asy) (i : Instr) (s : State) : W64 := pair (readG (bg s) (sn i s) 0 f.a.toNat) (readG (bg s) (sn i s) 0 (f.a.toNat + 1))
def tk0V : W64 := 0x0C050700FB107E84
theorem ex_eq {ε α : Type} {x : Except ε α} {d a : α} (h : exOk x d = a) (k : exIs x = true) : x = .ok a := by
  cases x <;> simp_all [exOk, exIs]
theorem tk0_accepted : sliceCheck (bg tk0) 0 tk0V = .ok (tkKey 3 5) := by
  have h : exOk (sliceCheck (bg tk0) 0 tk0V) 0 = tkKey 3 5 ∧ exIs (sliceCheck (bg tk0) 0 tk0V) = true := by decide +kernel
  exact ex_eq h.1 h.2
theorem tk0_full : FullTicket (bg tk0) 0 tk0V (tkKey 3 5) :=
  ⟨tk0_accepted, by decide +kernel, by decide +kernel, by decide +kernel, by decide +kernel⟩
def tkBase (i : Instr) (f : Asy) (s : State) : Bool :=
  okIssue i s && (sn i s).real != 0 && decide (s.partOf (wpOf s).gid = 0) && decide (tkOf f i s = tk0V) && s.tkreqs == [] &&
    noneOutB (.warp 0 0) s && s.mgmt.power && !s.mgmt.fatal
theorem tkBase_spec {i : Instr} {f : Asy} {s : State} (h : tkBase i f s = true) (k : FullTicket (bg s) 0 tk0V (tkKey 3 5)) :
    Issues i (hd i) 0 0 (wpOf s) (eOf s) s ∧ (sn i s).real ≠ 0 ∧ FullTicket (bg s) (s.partOf (wpOf s).gid) (tkOf f i s) (tkKey 3 5) ∧
      noRequest (.warp 0 0) s ∧ NoneOut (.warp 0 0) s ∧ s.mgmt.power = true ∧ s.mgmt.fatal = false := by
  simp only [tkBase, Bool.and_eq_true, beq_iff_eq, bne_iff_ne, decide_eq_true_eq, Bool.not_eq_true'] at h
  obtain ⟨⟨⟨⟨⟨⟨⟨a, b⟩, c⟩, d⟩, l⟩, m⟩, n⟩, o⟩ := h
  exact ⟨issues_of a, b, by rw [c, d]; exact k, by simp [noRequest, l, mget?], noneOut_of m, n, o⟩
def fR : Asy := ⟨20, 10, 0, 3, 0, 1⟩
def fS : Asy := ⟨4, 10, 0, 3, 0, 1⟩
def fD : Asy := ⟨0, 10, 0, 0, 0, 1⟩
theorem witness_Tickets_redeem (H : Obligations.Tickets) : ∃ t, exec (.redeem h7 fR) tk0 = .next t := by
  obtain ⟨a, b, c, d, e, g, k⟩ := tkBase_spec (i := .redeem h7 fR) (f := fR) (s := tk0) (by decide +kernel) tk0_full
  exact completes (H.2 tk0 (.redeem h7 fR) h7 fR 0 0 (wpOf tk0) (eOf tk0) (tkKey 3 5) a b (by decide) c d e g k
    (.inl ⟨rfl, by decide +kernel, by decide +kernel⟩))
theorem witness_Tickets_redeem_scratch (H : Obligations.Tickets) : ∃ t, exec (.redeemS h7 fS) tk0 = .next t := by
  obtain ⟨a, b, c, d, e, g, k⟩ := tkBase_spec (i := .redeemS h7 fS) (f := fS) (s := tk0) (by decide +kernel) tk0_full
  exact completes (H.2 tk0 (.redeemS h7 fS) h7 fS 0 0 (wpOf tk0) (eOf tk0) (tkKey 3 5) a b (by decide) c d e g k
    (.inr (.inl ⟨rfl, by decide +kernel, by decide +kernel⟩)))
theorem witness_Tickets_drop (H : Obligations.Tickets) : ∃ t, exec (.tkdrop h7 fD) tk0 = .next t := by
  obtain ⟨a, b, c, d, e, g, k⟩ := tkBase_spec (i := .tkdrop h7 fD) (f := fD) (s := tk0) (by decide +kernel) tk0_full
  exact completes (H.2 tk0 (.tkdrop h7 fD) h7 fD 0 0 (wpOf tk0) (eOf tk0) (tkKey 3 5) a b (by decide) c d e g k (.inr (.inr rfl)))

/-- A range that ends at the top of the address space, in register 15. -/
def slS : State := withG wS [(12, 0xFFFE0000), (13, 0xFFFF), (6, 2)]
def unS : State := wS.setSeal 0 15 (sealWord 2 0x20000 3)
def iSeal : Instr := .seal h7 ⟨0, 12, 6, 3, 15, 3⟩
def iUnseal : Instr := .unseal h7 ⟨0, 0, 0, 3, 15, 0⟩
theorem witness_SealsComplete (H : Obligations.SealsComplete) : (∃ t, exec iSeal slS = .next t) ∧ ∃ t, exec iUnseal unS = .next t := by
  constructor
  · refine completes ((H slS h7 ⟨0, 12, 6, 3, 15, 3⟩ 0 0 (wpOf slS) (eOf slS) 0 ?_ (noneOut_of ?_)).1
      (issues_of (i := iSeal) ?_) ?_ ?_ ?_ ?_ ?_ ?_) <;> decide +kernel
  · refine completes ((H unS h7 ⟨0, 0, 0, 3, 15, 0⟩ 0 0 (wpOf unS) (eOf unS) 0 ?_ (noneOut_of ?_)).2 (issues_of (i := iUnseal) ?_) ?_) <;>
      decide +kernel

def ctxIn (st : CState) : State := wS.modCtx 0 0 fun x => { x with state := st, pos := 7, trapcode := 5, hist := [(1, 2)] }
/-- Memory still holds the table of a kernel. -/
def keptB (s : State) (gid : Nat) : Bool :=
  (List.range (s.gridOf gid).entries.length).all fun n => (entryNow s (s.gridOf gid) n).all (· == nth 0 (s.gridOf gid).entries n)
theorem kept_of {s : State} {gid : Nat} (h : keptB s gid = true) : tableKept s gid := by
  intro n hn x hx
  have k := List.all_eq_true.mp h n (List.mem_range.mpr hn)
  rw [hx] at k
  exact beq_iff_eq.mp k
def iSqrun : Instr := .sqrun h7 (sysf 10 0)
theorem witness_ContextControlCompletes_sqrun (H : Obligations.ContextControlCompletes) :
    ∀ st ∈ [CState.stopped, .trapped], ∃ t, exec iSqrun (ctxIn st) = .next t := by
  have hr : ∀ st ∈ [CState.stopped, .trapped], okIssue iSqrun (ctxIn st) = true ∧ (sn iSqrun (ctxIn st)).real ≠ 0 ∧
      ((ctxIn st).group (wpOf (ctxIn st)).gid).ctxs[(sysf 10 0).ctx.toNat]? = some 0 ∧ noneOutB (.warp 0 0) (ctxIn st) = true ∧
      (((ctxIn st).ctx 0 0).state = .stopped ∨ ((ctxIn st).ctx 0 0).state = .trapped) ∧
      (sysf 10 0).imm.toNat < ((ctxIn st).gridOf (wpOf (ctxIn st)).gid).nEntry ∧
      freeOf (.warp 0 0) [.g (sysf 10 0).d.toNat (BitVec.ofNat 32 (0x40 + 0))] (ctxIn st) = true ∧
      keptB (bg (ctxIn st)) (wpOf (ctxIn st)).gid = true ∧ keptB (bg (ctxIn st)) ((ctxIn st).ctx 0 0).gid = true := by decide +kernel
  intro st hs
  obtain ⟨h1, h2, h3, h4, h5, h6, h7', h8, h9⟩ := hr st hs
  exact completes ((H.1 (ctxIn st) h7 (sysf 10 0) 0 0 (wpOf (ctxIn st)) (eOf (ctxIn st)) 0 h2 h3 (noneOut_of h4)).1
    (issues_of (i := iSqrun) h1) h5 h6 (kept_of h8) (kept_of h9) (noClash_of h7'))
def iSqstop : Instr := .sqstop h7 (sysf 0 0)
theorem witness_ContextControlCompletes_sqstop (H : Obligations.ContextControlCompletes) :
    ∀ st ∈ [CState.running, .frozen, .trapped, .stopped], ∃ t, exec iSqstop (ctxIn st) = .next t := by
  have hr : ∀ st ∈ [CState.running, .frozen, .trapped, .stopped], okIssue iSqstop (ctxIn st) = true ∧ (sn iSqstop (ctxIn st)).real ≠ 0 ∧
      ((ctxIn st).group (wpOf (ctxIn st)).gid).ctxs[(sysf 0 0).ctx.toNat]? = some 0 ∧ noneOutB (.warp 0 0) (ctxIn st) = true := by
    decide +kernel
  intro st hs
  obtain ⟨h1, h2, h3, h4⟩ := hr st hs
  exact completes ((H.1 (ctxIn st) h7 (sysf 0 0) 0 0 (wpOf (ctxIn st)) (eOf (ctxIn st)) 0 h2 h3 (noneOut_of h4)).2.1 (issues_of (i := iSqstop) h1))
theorem witness_ContextControlCompletes_sqwait (H : Obligations.ContextControlCompletes) :
    (∃ t, exec (.sqwait h7 (sysf 10 0)) (ctxIn .stopped) = .next t) ∧ ∃ t, exec (.sqwait h7 (sysf 10 0)) (ctxIn .running) = .next t :=
  ⟨completes ((H.1 (ctxIn .stopped) h7 (sysf 10 0) 0 0 (wpOf (ctxIn .stopped)) (eOf (ctxIn .stopped)) 0 (by decide +kernel) (by decide +kernel)
      (noneOut_of (by decide +kernel))).2.2.1 (issues_of (i := .sqwait h7 (sysf 10 0)) (by decide +kernel)) (by decide +kernel)),
    completes ((H.1 (ctxIn .running) h7 (sysf 10 0) 0 0 (wpOf (ctxIn .running)) (eOf (ctxIn .running)) 0 (by decide +kernel) (by decide +kernel)
      (noneOut_of (by decide +kernel))).2.2.2 (issues_of (i := .sqwait h7 (sysf 10 0)) (by decide +kernel)) (by decide +kernel))⟩

/-- Token 7 is raised. -/
def tokS : State := wS.modWarp 0 0 fun w => w.addTok 7
theorem witness_ContextControlCompletes_yield_and_wait (H : Obligations.ContextControlCompletes) :
    (∃ t, exec (.syield h7 (sysf 0 0)) wS = .next t) ∧ (∃ t, exec (.waitk h7 (sysf 0 0 0x7F)) tokS = .next t) ∧
    ∃ t, exec (.waitk h7 (sysf 0 0 0x80)) tokS = .next t :=
  ⟨completes ((H.2 wS h7 (sysf 0 0) 0 0 (wpOf wS) (eOf wS) (by decide +kernel)).1 (issues_of (i := .syield h7 (sysf 0 0)) (by decide +kernel))),
    completes ((H.2 tokS h7 (sysf 0 0 0x7F) 0 0 (wpOf tokS) (eOf tokS) (by decide +kernel)).2.1 (issues_of (i := .waitk h7 (sysf 0 0 0x7F)) (by decide +kernel))
      (by decide +kernel)),
    completes ((H.2 tokS h7 (sysf 0 0 0x80) 0 0 (wpOf tokS) (eOf tokS) (by decide +kernel)).2.2 (issues_of (i := .waitk h7 (sysf 0 0 0x80)) (by decide +kernel))
      ⟨7, by decide +kernel⟩)⟩

/-- A descriptor in g16 to g23. -/
def withDesc (s : State) (d : Nat) : State := withG s ((List.range 8).map fun i => (16 + i, d / 2 ^ (32 * i) % 2 ^ 32))
def fC : Asy := ⟨0, 16, 0, 3, 0, 1⟩
/-- 64 bytes, at once and at time 100. -/
def cpS (time : Nat) : State := withDesc wS (0x100 + 0x40 * 2 ^ 64 + 64 * 2 ^ 128 + time * 2 ^ 192)
/-- A tensor record of two dimensions in the scratchpad. -/
def tcS : State :=
  (withDesc wS (0x40 * 2 ^ 128)).scrWrite 1 0x40 (leBytes 64 (0x100 + 64 * 2 ^ 128 + 2 * 2 ^ 192 + 16 * 2 ^ 200 + 4 * 2 ^ 216 + 4 * 2 ^ 220))
def clwS : State := (withDesc wS (0x100 + 0x200 * 2 ^ 64 + 8 * 2 ^ 128 + 2 * 2 ^ 176 + 2 * 2 ^ 181)).modMgmt fun m =>
  { m with peerMask := 0xFFF, fabid := 0, fabroute := 0x10 }
theorem copy_of (H : Obligations.CopiesComplete) (s : State) (tensor : Bool) (h1 : okIssue (if tensor then .tcpy h7 fC else .cpy h7 fC) s = true)
    (h2 : (seen h7 0 0 (wpOf s) (eOf s) s).real ≠ 0) (h3 : noneOutB (.warp 0 0) s = true)
    (h4 : let d := descG (bg s) (seen h7 0 0 (wpOf s) (eOf s) s) fC.a.toNat
      firstTrap (copyTraps (bg s) (wpOf s).gid false tensor d {} (if tensor then tensorRec (bg s) (wpOf s).gid d else none)) = none)
    (h5 : let d := descG (bg s) (seen h7 0 0 (wpOf s) (eOf s) s) fC.a.toNat
      dTime d = 0 ∨ dTime d ≤ s.now ∨ (s.core 0).timed < 64) :
    ∃ t, exec (if tensor then .tcpy h7 fC else .cpy h7 fC) s = .next t :=
  completes (H.1 s _ h7 fC 0 0 (wpOf s) (eOf s) tensor (by cases tensor <;> exact issues_of h1) rfl h2 (noneOut_of h3) h4 h5)
theorem witness_CopiesComplete_cpy (H : Obligations.CopiesComplete) :
    (∃ t, exec (.cpy h7 fC) (cpS 0) = .next t) ∧ ∃ t, exec (.cpy h7 fC) (cpS 100) = .next t :=
  ⟨copy_of H (cpS 0) false (by decide +kernel) (by decide +kernel) (by decide +kernel) (by decide +kernel) (by decide +kernel),
    copy_of H (cpS 100) false (by decide +kernel) (by decide +kernel) (by decide +kernel) (by decide +kernel) (by decide +kernel)⟩
theorem witness_CopiesComplete_tcpy (H : Obligations.CopiesComplete) : ∃ t, exec (.tcpy h7 fC) tcS = .next t :=
  copy_of H tcS true (by decide +kernel) (by decide +kernel) (by decide +kernel) (by decide +kernel) (by decide +kernel)
theorem witness_CopiesComplete_coll (H : Obligations.CopiesComplete) : ∃ t, exec (.coll h7 fC) clwS = .next t :=
  completes (H.2 clwS h7 fC 0 0 (wpOf clwS) (eOf clwS) (issues_of (i := .coll h7 fC) (by decide +kernel)) (by decide +kernel)
    (noneOut_of (by decide +kernel)) (by decide +kernel))

/-! Slots and bundles. -/

def okSlot (i : Instr) (s : State) : Bool :=
  i.hdr? == some (hd i) && s.cur == .ctx 0 0 && (s.ctx 0 0).bound && (s.ctx 0 0).state == .running && (s.ctx 0 0).wait == .none &&
    i.assigned && i.wfSlot && (hd i).pn == 7 && !(hd i).pneg && (hd i).ctl.getLsbD 14 && (hd i).ctl.extractLsb' 8 6 == 0 &&
    (!(hd i).ctl.getLsbD 15 || slotIndex i == 0) && (s.ctx 0 0).idle (ctlWait (hd i)) && !slotStall s (slotView s 0 0) i &&
    slotTraps s (slotView s 0 0) i == [] && slotPoison s (slotView s 0 0) i == none &&
    (slotPlaces i).1.all (fun n => !aEarly s (slotView s 0 0) n) && (slotPlaces i).2.all fun n => !hEarly s (slotView s 0 0) n
theorem slot_of {i : Instr} {s : State} (h : okSlot i s = true) : SlotIssues i (hd i) 0 0 s := by
  simp only [okSlot, Bool.and_eq_true, beq_iff_eq, Bool.not_eq_true', Bool.or_eq_true, List.all_eq_true] at h
  obtain ⟨⟨⟨⟨⟨⟨⟨⟨⟨⟨⟨⟨⟨⟨⟨⟨⟨a, b⟩, c⟩, d⟩, e⟩, f⟩, g⟩, k⟩, l⟩, m⟩, n⟩, o⟩, p⟩, q⟩, r⟩, t⟩, x⟩, y⟩ := h
  exact ⟨a, b, c, d, e, ⟨f, g, k, l⟩, ⟨m, n, fun z => o.resolve_left (by simp [z])⟩, p, q, r, t, ⟨x, y⟩⟩

/-- Headers of an operation of a slot: enabled, keeping the latch, waiting for every token. -/
def hE : Hdr := ⟨false, 7, 0x4000⟩
def hR : Hdr := ⟨false, 7, 0xC000⟩
def hW : Hdr := ⟨false, 7, 0x40FF⟩
/-- A running context with two general tiles and two accumulator tiles of its group's, 16 KiB of scratchpad, and a registers. -/
def C : State :=
  ((withRec cS (12288 * 2 ^ 192)).modCore 0 fun k =>
    { [300, 301, 400, 410, 600].foldl (fun k t => k.setOwner t { st := .seq, owner := 0x40, gid := 1 }) k with curCtx := 2 }).modCtx 0 0 fun x =>
      { x with a := [(5, 0x40), (6, 0x3F80000040000000), (7, 300), (8, 0x80), (9, 3), (10, 0x123), (11, 0xFFFFFFFFFFFFFFFE), (12, 0x10), (13, 0x20),
                     (14, 0x2345678), (15, 0xF80), (20, 0x3F80), (32, 0x0200000001000000), (33, 5), (34, 7)] }
/-- The same with a latched A operand of format 5. -/
def latched : State := C.modCtx 0 0 fun x => { x with latch := some ⟨5, false, List.replicate 1024 0⟩ }
def matrices : List Instr := [.mma hR ⟨0, 300, 2, 2, 400, false, false⟩, .mma hE ⟨0, 7, 0, 1, 400, false, true⟩, .mmaSp hE ⟨0, 300, 5, 5, 400, false, false⟩,
  .mmal hE ⟨0, 300, 1, 0, 400, false, false⟩, .mmalSp hR ⟨0, 300, 1, 0, 400, false, false⟩]
def tiles : List Instr := [.tfmas hE ⟨6, 300, 0, 400, false, false⟩, .tmax hW ⟨6, 7, 0, 300, false, true⟩, .tzero hE ⟨0, 0, 0, 300, false, false⟩,
  .txp hE ⟨0, 300, 0, 300, false, false⟩, .tcvt hE ⟨0, 400, 3, 410, false, false⟩, .tld hE ⟨8, 0, 0, 4, 3, 300, false⟩,
  .tst hE ⟨8, 0, 0, 0, 4, 7, true⟩]
def matP (i : Instr) : MmaOp × Mmaf := (matrixOf i).getD (mmaOf h7 false false ⟨0, 0, 0, 0, 0, false, false⟩, ⟨0, 0, 0, 0, 0, false, false⟩)
theorem matrix_of (H : Obligations.MatrixOpsComplete) (s : State) (i : Instr) (h1 : okSlot i s = true) (h2 : (matrixOf i).isSome = true)
    (h3 : freeOf (.ctx 0 0) [.tile (slotTile s (slotView s 0 0) 0 (matP i).2.xc (matP i).2.tc) []] s = true) : ∃ t, exec i s = .next t := by
  obtain ⟨o, ho⟩ := Option.isSome_iff_exists.mp h2
  have he : matP i = o := by simp [matP, ho]
  rw [he] at h3
  exact completes (H s i (hd i) 0 0 o.1 o.2 (slot_of h1) ho (noClash_of h3))
theorem witness_MatrixOpsComplete (H : Obligations.MatrixOpsComplete) : ∀ i ∈ matrices, ∃ t, exec i C = .next t := by
  have hr : ∀ i ∈ matrices, okSlot i C = true ∧ (matrixOf i).isSome = true ∧
      freeOf (.ctx 0 0) [.tile (slotTile C (slotView C 0 0) 0 (matP i).2.xc (matP i).2.tc) []] C = true := by decide +kernel
  intro i hi
  exact matrix_of H C i (hr i hi).1 (hr i hi).2.1 (hr i hi).2.2
def tileP (i : Instr) (s : State) : Nat × List Write := (tileOp s (slotView s 0 0) i).getD (0, [])
theorem tile_of (H : Obligations.TileOpsComplete) (s : State) (i : Instr) (h1 : okSlot i s = true)
    (h2 : (tileOp s (slotView s 0 0) i).isSome = true) (h3 : freeOf (.ctx 0 0) (tileP i s).2 s = true)
    (h4 : ∀ f, i = .tst (hd i) f → (overCopies s (.ctx 0 0) 0 (s.ctx 0 0).gid ((readA s (slotView s 0 0) 8 f.ao.toNat).toNat % 2 ^ 32)
      (tileBytes s (slotView s 0 0) f).1.length).1 = []) : ∃ t, exec i s = .next t := by
  obtain ⟨o, ho⟩ := Option.isSome_iff_exists.mp h2
  have he : tileP i s = o := by simp [tileP, ho]
  rw [he] at h3
  exact completes (H s i (hd i) 0 0 o.1 o.2 (slot_of h1) ho (noClash_of h3) h4)
theorem no_copies {s : State} {g a n : Nat} (h : (s.core 0).copies = []) : (overCopies s (.ctx 0 0) 0 g a n).1 = [] := by
  simp [overCopies, coreOf, h]
theorem witness_TileOpsComplete (H : Obligations.TileOpsComplete) : ∀ i ∈ tiles, ∃ t, exec i C = .next t := by
  have hr : ∀ i ∈ tiles, okSlot i C = true ∧ (tileOp C (slotView C 0 0) i).isSome = true ∧ freeOf (.ctx 0 0) (tileP i C).2 C = true := by
    decide +kernel
  intro i hi
  exact tile_of H C i (hr i hi).1 (hr i hi).2.1 (hr i hi).2.2 fun _ _ => no_copies (by decide +kernel)
/-- Handle 3 names the placed page. -/
def hnd : State := C.modCtx 0 0 fun x =>
  { x with h := [(3, { v := true, w := true, rd := true, size := 0, vpn := 0, frame := 0x5000, cp := 0, pte := 0x4000, dirtyDone := false })] }
def fG : Tmem := ⟨8, 3, 2, 4, 3, 300, false⟩
theorem witness_TileGlobalComplete (H : Obligations.TileGlobalComplete) :
    (∃ t, exec (.tgld hE fG) hnd = .next t) ∧ ∃ t, exec (.tgst hE fG) hnd = .next t :=
  ⟨completes ((H hnd (.tgld hE fG) hE fG 0 0 (slot_of (by decide +kernel)) (noneOut_of (by decide +kernel)) (by decide +kernel) (by decide +kernel)).1 rfl),
    completes ((H hnd (.tgst hE fG) hE fG 0 0 (slot_of (by decide +kernel)) (noneOut_of (by decide +kernel)) (by decide +kernel) (by decide +kernel)).2 rfl
      (by decide +kernel))⟩

/-- Levels of a loop nest, three entries, a handle, a page in the core's TLB. -/
def L : State :=
  ((C.modCtx 0 0 fun x => { x with
    h := [(3, { v := true, w := true, rd := true, size := 0, vpn := 0, frame := 0x5000, cp := 0, pte := 0x4000, dirtyDone := false })]
    cur := [(0, { trip := 5, cnt := 2, lstate := 1, stride := [1, 0, 0, 0], areg := [5, 0, 0, 0] }), (1, { trip := 3, start := 0 })]
    shadow := [(0, { trip := 9, cnt := 1 })], pos := 4, hist := [(4, 77)] }).modGrid 1 fun g =>
      { g with entries := [0, 4, 11], khdr := [0, 0x800, 0x0003000000000019, 0, 0, 0, 0, 0] }) |> fun s => putVa s 0 24 (4 * 2 ^ 64 + 11 * 2 ^ 128)
def inTlb : State := L.modCore 0 fun k => { k with tlb := [⟨0, 0, 4096, 0x5000, 0x4000, 0x5379⟩] }
theorem witness_SlotControlComplete_sbr (H : Obligations.SlotControlComplete) :
    (∃ t, exec (.sbr hE ⟨30, 0, 0, 1, 2⟩) L = .next t) ∧ ∃ t, exec (.sbr hE ⟨30, 0, 0, 2, 2⟩) L = .next t :=
  ⟨completes ((H L (.sbr hE ⟨30, 0, 0, 1, 2⟩) hE 0 0 (slot_of (by decide +kernel))).1 _ rfl (kept_of (by decide +kernel))),
    completes ((H L (.sbr hE ⟨30, 0, 0, 2, 2⟩) hE 0 0 (slot_of (by decide +kernel))).1 _ rfl (kept_of (by decide +kernel)))⟩
theorem witness_SlotControlComplete_lngo (H : Obligations.SlotControlComplete) : ∃ t, exec (.lngo hE ⟨0, 0, 0, 0, 0⟩) L = .next t :=
  completes ((H L (.lngo hE ⟨0, 0, 0, 0, 0⟩) hE 0 0 (slot_of (by decide +kernel))).2.1 _ rfl)
def controls : List Instr := [.lnset hE ⟨32, 0, 1, 0, 0⟩, .hrel hE ⟨0, 3, 0, 0, 0⟩, .xlt hE ⟨8, 3, 0, 0, 0⟩, .iadd hE ⟨20, 10, 11, md 3 0, 0⟩,
  .iaddImm hE ⟨5, 5, md 9 1, 0xF0, false⟩, .ishl hE ⟨20, 10, 12, md 9 0, 0⟩, .ishlImm hE ⟨20, 10, md 9 0, 3, false⟩, .lop hE ⟨20, 10, 11, 0x68, 0⟩,
  .lopImm hE ⟨20, 10, 0x68, 0xF3, false⟩]
def controlP (i : Instr) (s : State) : Nat × Write := (controlRow s (slotView s 0 0) i).getD (0, .hrel 0)
theorem control_of (H : Obligations.SlotControlComplete) (s : State) (i : Instr) (h1 : okSlot i s = true)
    (h2 : (controlRow s (slotView s 0 0) i).isSome = true) (h3 : freeOf (.ctx 0 0) [(controlP i s).2] s = true) : ∃ t, exec i s = .next t := by
  obtain ⟨o, ho⟩ := Option.isSome_iff_exists.mp h2
  have he : controlP i s = o := by simp [controlP, ho]
  rw [he] at h3
  exact completes ((H s i (hd i) 0 0 (slot_of h1)).2.2.1 o.1 o.2 ho (noClash_of h3))
theorem witness_SlotControlComplete_results (H : Obligations.SlotControlComplete) : ∀ i ∈ controls, ∃ t, exec i inTlb = .next t := by
  have hr : ∀ i ∈ controls, okSlot i inTlb = true ∧ (controlRow inTlb (slotView inTlb 0 0) i).isSome = true ∧
      freeOf (.ctx 0 0) [(controlP i inTlb).2] inTlb = true := by decide +kernel
  intro i hi
  exact control_of H inTlb i (hr i hi).1 (hr i hi).2.1 (hr i hi).2.2
theorem witness_SlotControlComplete_miss (H : Obligations.SlotControlComplete) : ∃ t, exec (.xlt hE ⟨8, 3, 0, 0, 0⟩) L = .next t :=
  completes ((H L (.xlt hE ⟨8, 3, 0, 0, 0⟩) hE 0 0 (slot_of (by decide +kernel))).2.2.2 _ rfl (by decide +kernel))

/-- Operations in V, L and X under a header whose END names level 0; a bad header; a token that the L slot waits for. -/
def wordOf (i : Instr) : W64 := (encode i).headD 0
def bunW : List W64 := [0, wordOf (.tmax hE ⟨6, 7, 0, 410, false, true⟩), wordOf (.tgst hW ⟨8, 3, 2, 4, 3, 301, false⟩),
  wordOf (.txp hE ⟨0, 600, 0, 600, false, false⟩), 0]
def hd1 : W64 := 0x1000000000
def waiting : State := (L.modCore 0 fun k => { k with vars := [⟨9, .ctx 0 0, 2, 0, 9, [], [], [], .quiet, false⟩] }).modCtx 0 0 fun x => { x with tokens := [(2, 1)] }
def vB (s : State) (h : W64) : SV := ⟨0, 0, (s.ctx 0 0).gid, bundleScope h⟩
def bun (h : W64) : Instr := .bundle h (nth 0 bunW 0) (nth 0 bunW 1) (nth 0 bunW 2) (nth 0 bunW 3) (nth 0 bunW 4)
def plansB (s : State) (h : W64) : List SlotPlan := bundlePlan s 0 0 h [nth 0 bunW 0, nth 0 bunW 1, nth 0 bunW 2, nth 0 bunW 3, nth 0 bunW 4]
def isOff : SlotPlan → Bool
  | .off => true
  | _ => false
theorem off_of {p : SlotPlan} (h : isOff p = true) : p = .off := by cases p <;> simp_all [isOff]
theorem witness_BundlesComplete_bad (H : Obligations.BundlesComplete) : ∃ t, exec (bun (BitVec.allOnes 64)) L = .next t :=
  completes ((H L (BitVec.allOnes 64) (nth 0 bunW 0) (nth 0 bunW 1) (nth 0 bunW 2) (nth 0 bunW 3) (nth 0 bunW 4) 0 0 (by decide +kernel)
    (by decide +kernel) (by decide +kernel) (by decide +kernel)).1 (by decide +kernel))
theorem witness_BundlesComplete_stall (H : Obligations.BundlesComplete) : ∃ t, exec (bun hd1) waiting = .next t :=
  completes ((H waiting hd1 (nth 0 bunW 0) (nth 0 bunW 1) (nth 0 bunW 2) (nth 0 bunW 3) (nth 0 bunW 4) 0 0 (by decide +kernel)
    (by decide +kernel) (by decide +kernel) (by decide +kernel)).2.1 (by decide +kernel) (by decide +kernel))
theorem witness_BundlesComplete_runs (H : Obligations.BundlesComplete) : ∃ t, exec (bun hd1) L = .next t :=
  completes ((H L hd1 (nth 0 bunW 0) (nth 0 bunW 1) (nth 0 bunW 2) (nth 0 bunW 3) (nth 0 bunW 4) 0 0 (by decide +kernel)
    (by decide +kernel) (by decide +kernel) (by decide +kernel)).2.2 (by decide +kernel) (by decide +kernel) (by decide +kernel) (by decide +kernel)
    (by decide +kernel) (kept_of (by decide +kernel)) (by decide +kernel) (by decide +kernel) (off_of (by decide +kernel)))

/-- TFMAS of a tile that is another's, and TLD past the scratchpad, of a bundle that is ready. -/
def okAsks (i : Instr) (s : State) : Bool :=
  i.hdr? == some (hd i) && s.cur == .ctx 0 0 && (s.ctx 0 0).bound && (s.ctx 0 0).state == .running && (s.ctx 0 0).wait == .none &&
    i.assigned && i.wfSlot && (hd i).pn == 7 && !(hd i).pneg && (hd i).ctl.getLsbD 14 && (hd i).ctl.extractLsb' 8 6 == 0 &&
    (!(hd i).ctl.getLsbD 15 || slotIndex i == 0) && (s.ctx 0 0).idle (ctlWait (hd i)) && !slotStall s (slotView s 0 0) i
theorem asks_of {i : Instr} {s : State} (h : okAsks i s = true) : SlotAsks i (hd i) 0 0 s := by
  simp only [okAsks, Bool.and_eq_true, beq_iff_eq, Bool.not_eq_true', Bool.or_eq_true] at h
  obtain ⟨⟨⟨⟨⟨⟨⟨⟨⟨⟨⟨⟨⟨a, b⟩, c⟩, d⟩, e⟩, f⟩, g⟩, k⟩, l⟩, m⟩, n⟩, o⟩, p⟩, q⟩ := h
  exact ⟨a, b, c, d, e, ⟨f, g, k, l⟩, ⟨m, n, fun z => o.resolve_left (by simp [z])⟩, p, q⟩
def badSlots : List Instr := [.tfmas hE ⟨6, 302, 0, 400, false, false⟩, .tld hE ⟨11, 0, 0, 4, 3, 300, false⟩, .tgld hE fG]
theorem witness_IssueTraps_slots (H : Obligations.IssueTraps) : ∀ i ∈ badSlots, ∃ t, exec i C = .next t := by
  have hr : ∀ i ∈ badSlots, okAsks i C = true ∧ (firstTrap (slotTraps C (slotView C 0 0) i)).isSome = true := by decide +kernel
  intro i hi
  obtain ⟨t, ht⟩ := Option.isSome_iff_exists.mp (hr i hi).2
  exact completes (H.2.2.2.2.2.2.1 C i (hd i) 0 0 (asks_of (hr i hi).1) t ht)
def codeOf (i : Instr) (s : State) : Option Nat := (firstTrap (slotTraps s (slotView s 0 0) i)).map (·.code)
def sealedHnd : State := hnd.modPart 0 fun p => { p with seals := [(0, BitVec.ofNat 64 (2 ^ 62 + 1))] }
/-- A tile number past 767; a tile that is not the context's; a misaligned offset and one past the scratchpad; through handle 3 a
misaligned offset, one past the page, and a sealed page. -/
theorem witness_IssueTraps_tiles (H : Obligations.IssueTraps) :
    codeOf (.tgst hE ⟨8, 3, 2, 4, 3, 768, false⟩) hnd = some 0x08 ∧ codeOf (.tld hE ⟨8, 0, 0, 4, 3, 767, false⟩) hnd = some 0x10 ∧
    codeOf (.tst hE ⟨5, 0, 0, 4, 3, 300, false⟩) hnd = some 0x20 ∧ codeOf (.tld hE ⟨20, 0, 0, 4, 5, 300, false⟩) hnd = some 0x21 ∧
    codeOf (.tgld hE ⟨9, 3, 0, 4, 3, 300, false⟩) hnd = some 0x20 ∧
    (∃ t, codeOf (.tgst hE ⟨15, 3, 0, 4, 3, 300, false⟩) hnd = some t) ∧ codeOf (.tgst hE fG) sealedHnd = some 0x24 := by
  have traps := fun (s : State) (f : Tmem) (h : tileEarly s (slotView s 0 0) f.xt f.tt = false ∧ aEarly s (slotView s 0 0) f.ao.toNat = false ∧
    hEarly s (slotView s 0 0) f.h.toNat = false) => H.2.2.2.2.2.2.2 s 0 0 f hE h.1 h.2.1 h.2.2
  refine ⟨((traps hnd ⟨8, 3, 2, 4, 3, 768, false⟩ (by decide +kernel)).1 _ (.inr (.inr (.inr rfl)))).1 (by decide +kernel),
    ((traps hnd ⟨8, 0, 0, 4, 3, 767, false⟩ (by decide +kernel)).1 _ (.inl rfl)).2 (by decide +kernel) (by decide +kernel) (by decide +kernel),
    (((traps hnd ⟨5, 0, 0, 4, 3, 300, false⟩ (by decide +kernel)).2 (by decide +kernel) (by decide +kernel) (by decide +kernel)).1 _
      (.inr rfl)).1 (by decide +kernel),
    (((traps hnd ⟨20, 0, 0, 4, 5, 300, false⟩ (by decide +kernel)).2 (by decide +kernel) (by decide +kernel) (by decide +kernel)).1 _
      (.inl rfl)).2 (by decide +kernel) (by decide +kernel),
    (((traps hnd ⟨9, 3, 0, 4, 3, 300, false⟩ (by decide +kernel)).2 (by decide +kernel) (by decide +kernel) (by decide +kernel)).2.1 _
      (.inl rfl)).1 (by decide +kernel), ?_,
    ((traps sealedHnd fG (by decide +kernel)).2 (by decide +kernel) (by decide +kernel) (by decide +kernel)).2.2 (by decide +kernel)
      (by decide +kernel) (by decide +kernel)⟩
  have h : (handleTrap (readH hnd (slotView hnd 0 0) 3) 3 [((readA hnd (slotView hnd 0 0) 8 15).toNat, 1024)] true).isSome = true := by
    decide +kernel
  obtain ⟨t, ht⟩ := Option.isSome_iff_exists.mp h
  exact ⟨_, (((traps hnd ⟨15, 3, 0, 4, 3, 300, false⟩ (by decide +kernel)).2 (by decide +kernel) (by decide +kernel) (by decide +kernel)).2.1 _
    (.inr rfl)).2 (by decide +kernel) t ht⟩

/-! Events: fetches, results, dispatch. -/

/-- The placed warp or context, between turns. -/
def E : State := { wS with cur := .none }
def F : State := { cS with cur := .none }
theorem live_of {s : State} (h : s.mgmt.power = true ∧ s.mgmt.fatal = false) : Live s := ⟨h.1, h.2⟩
/-- The page is not executable. -/
def noExec : State := wS.wr64 0x4000 0x5339
def trapFetched (s : State) (i : Instr) : Nat := (fetchTrap s 0 (wpOf s) (eOf s) i).getD 0
theorem fetchTrap_of (H : Obligations.FetchEventsComplete) (s : State) (i : Instr)
    (h : s.cur = .warp 0 0 ∧ s.warp? 0 0 = some (wpOf s) ∧ (wpOf s).first = some (eOf s) ∧ fetchTrap s 0 (wpOf s) (eOf s) i = some (trapFetched s i) ∧
      (wpOf s).hmode = false ∧ (s.part (s.partOf (wpOf s).gid)).traph.getLsbD 0 = true)
    (l : decide (∀ p ∈ (s.core 0).pend, p.agent ≠ .warp 0 0) = true) : ∃ t, exec i s = .next t :=
  completes (H.1 s i 0 0 (trapFetched s i) (wpOf s) (eOf s) h.1 h.2.1 h.2.2.1 h.2.2.2.1 (landed_of l) h.2.2.2.2.1 h.2.2.2.2.2)
/-- At an odd word, of a page that lets the even word be read and no word be executed. -/
def oddFetch : State := (wS.wr64 0x4000 0x5339).modWarp 0 0 fun w => { w with frontier := [{ pc := 8, mask := 1 }] }
theorem witness_FetchEventsComplete_traps (H : Obligations.FetchEventsComplete) :
    (∃ t, exec .branchIntoLiteral wS = .next t) ∧ (∃ t, exec (.illegalOpcode 0x400) wS = .next t) ∧
    (∃ t, exec .instructionFetchFault noExec = .next t) ∧ ∃ t, exec .instructionFetchFault oddFetch = .next t :=
  ⟨fetchTrap_of H _ _ (by decide +kernel) (by decide +kernel), fetchTrap_of H _ _ (by decide +kernel) (by decide +kernel),
    fetchTrap_of H _ _ (by decide +kernel) (by decide +kernel), fetchTrap_of H _ _ (by decide +kernel) (by decide +kernel)⟩
/-- The placed page is storage-backed: its entry holds a locator of drive 2, which is on, and there is a bounce region. -/
def stored : State :=
  ((wS.wr64 0x4000 (BitVec.ofNat 64 (2 ^ 54 + 2 * 2 ^ 50 + 5 * 2 ^ 10 + 0x78))).modPart 0 fun p =>
    { p with bounce := BitVec.ofNat 64 (2 ^ 63 + 9 + 2 ^ 21) }).setDrive 2 { cfg := BitVec.ofNat 64 (2 ^ 63 + 9 * 2 ^ 44 + 8), sqb := 0x100000 }
def xlPage : Xl → Nat × Nat × Nat × W64
  | .page k v len loc => (k, v, len, loc)
  | _ => (0, 0, 0, 0)
theorem xl_page {r : Xl} (h : (match r with | .page .. => true | _ => false) = true) :
    r = .page (xlPage r).1 (xlPage r).2.1 (xlPage r).2.2.1 (xlPage r).2.2.2 := by
  cases r <;> simp_all [xlPage]
theorem witness_FetchEventsComplete_page (H : Obligations.FetchEventsComplete) : ∃ t, exec .instructionFetchFault stored = .next t :=
  completes (H.2.1 stored 0 0 _ _ _ _ (wpOf stored) (eOf stored) (by decide +kernel) (by decide +kernel) (by decide +kernel)
    (xl_page (by decide +kernel)))
/-- A context at a position whose index names entry 0 of a dictionary at 0x900. -/
def cF : State := (F.modGrid 1 fun g => { g with khdr := [0, 0x800, 0x0001000100000019, 0x900, 0, 0, 0, 0] }).modCtx 0 0 fun x => { x with quantum := 7 }
def missVa : CtxFetch → Nat
  | .miss va _ => va
  | _ => 0
def missS : CtxFetch → State → State
  | .miss _ s, _ => s
  | _, s => s
def isMiss : CtxFetch → Bool
  | .miss .. => true
  | _ => false
theorem miss_of {r : CtxFetch} (d : State) (h : isMiss r = true) : r = .miss (missVa r) (missS r d) := by
  cases r <;> simp_all [missVa, missS, isMiss]
def readOk : CodeX → Bool
  | .ok .. => true
  | _ => false
theorem read_of {r : CodeX} (h : readOk r = true) : ∃ bs s, r = .ok bs s := by
  cases r <;> simp_all [readOk]
theorem fill_of (H : Obligations.FetchEventsComplete) (s : State) (h : s.mgmt.power = true ∧ s.mgmt.fatal = false) (h1 : (s.ctx 0 0).bound = true)
    (h2 : (s.ctx 0 0).state = .running) (h3 : isMiss (ctxFetch (s.modCtx 0 0 fun x => { x with quantum := 0 }) 0 0) = true)
    (h4 : readOk (codeRead (missS (ctxFetch (s.modCtx 0 0 fun x => { x with quantum := 0 }) 0 0) s) 0 (s.partOf (s.ctx 0 0).gid)
      (missVa (ctxFetch (s.modCtx 0 0 fun x => { x with quantum := 0 }) 0 0)) 48) = true) : ∃ t, exec (.codeFillComplete 0 0) s = .next t := by
  obtain ⟨bs, s2, hr⟩ := read_of h4
  exact completes (H.2.2.1 s _ s2 0 0 _ bs (live_of h) h1 h2 (miss_of s h3) hr)
theorem witness_FetchEventsComplete_fill (H : Obligations.FetchEventsComplete) : ∃ t, exec (.codeFillComplete 0 0) cF = .next t :=
  fill_of H cF (by decide +kernel) (by decide +kernel) (by decide +kernel) (by decide +kernel) (by decide +kernel)
/-- A frozen context whose XLT waits for handle 3, with one write kept aside. -/
def frozen : State := { F with now := 50 }.modCtx 0 0 fun x => { x with state := .frozen, kept := some (0x80, 3), snapshot := [⟨.ctx 0 0, 3, 9, .a 4 5⟩] }
theorem witness_FetchEventsComplete_unfreeze (H : Obligations.FetchEventsComplete) : ∃ t, exec (.contextUnfreeze 0 0) frozen = .next t := by
  obtain ⟨e, h1⟩ := xl_ok (r := (xlate frozen 0 (frozen.partOf (frozen.ctx 0 0).gid) (0x80 : W64).toNat .r).1) (by decide +kernel)
  exact completes (H.2.2.2.1 frozen _ 0 0 3 _ 0x80 _ e (live_of (by decide +kernel)) (by decide +kernel) (by decide +kernel) (by decide +kernel)
    (by decide) (by decide) (noneOut_of (by decide +kernel)) (pair_of h1))
/-- The running context has used its quantum; context 2 is ready. -/
def used : State := (F.modCtx 0 0 fun x => { x with quantum := 4096 }).setCtx 0 2 { bound := true, gid := 1, state := .running }
theorem witness_FetchEventsComplete_yield (H : Obligations.FetchEventsComplete) : ∃ t, exec (.contextQuantumYield 0) used = .next t :=
  completes (H.2.2.2.2.1 used 0 2 (live_of (by decide +kernel)) (by decide +kernel))
def starved : State := E.modWarp 0 0 fun w => { w with waitCount := 256 }
theorem witness_FetchEventsComplete_starved (H : Obligations.FetchEventsComplete) : ∃ t, exec (.warpStarvation 0 0) starved = .next t :=
  completes (H.2.2.2.2.2.1 starved 0 0 (live_of (by decide +kernel)) (by decide +kernel) (by decide +kernel) (by decide +kernel) (by decide +kernel))
def parked : State := E.modWarp 0 0 fun w => { w with wait := .page }
theorem witness_FetchEventsComplete_unpark (H : Obligations.FetchEventsComplete) : ∃ t, exec (.warpUnpark 0 0) parked = .next t :=
  completes (H.2.2.2.2.2.2 parked 0 0 (wpOf parked) (live_of (by decide +kernel)) (by decide +kernel) (by decide +kernel))

/-- One result is due and one is not. -/
def due (a : Issuer) (w : Write) : State := { E with now := 5 }.modCore 0 fun k => { k with pend := [⟨a, 5, 1, w⟩, ⟨.warp 0 1, 6, 2, .g 3 4⟩] }
/-- A result of every kind, at the last register, lane and row. -/
def landings : List (Issuer × Write) := [(.warp 0 0, .row 3 31 [(0, 7), (31, 9)]), (.warp 0 0, .tile 767 (List.replicate 1024 5)), (.warp 0 0, .g 63 77),
  (.warp 0 0, .pred 6 [(0, true), (31, false)]), (.warp 0 0, .sr 0x20 [(31, 2 ^ 32 + 5)]), (.warp 0 0, .sr 0x21 [(0, 4), (31, 6)]),
  (.warp 0 0, .sr 0x22 [(0, 0x80)]), (.ctx 0 0, .a 63 77), (.ctx 0 0, .hnd 15 {}), (.ctx 0 0, .hrel 15), (.ctx 0 0, .lnset 3 {}),
  (.ctx 0 0, .scratch 1 0xFFE [1, 2] [0x3F])]
theorem witness_ResultEventsComplete_lands (H : Obligations.ResultEventsComplete) :
    ∀ p ∈ landings, ∃ t, exec (.fixedResultLands 0) (due p.1 p.2) = .next t := by
  have hr : ∀ p ∈ landings, ((due p.1 p.2).mgmt.power = true ∧ (due p.1 p.2).mgmt.fatal = false) ∧
      dueNow (due p.1 p.2) 0 = [⟨p.1, 5, 1, p.2⟩] ∧ coreOf p.1 = 0 := by decide +kernel
  intro p hp
  exact completes (H.1 (due p.1 p.2) 0 ⟨p.1, 5, 1, p.2⟩ (live_of (hr p hp).1) (hr p hp).2.1 (hr p hp).2.2)
def opOut (ws : List Write) : VarOp := ⟨12, .warp 0 0, 3, 0, 0, [], [], [], .results ws, false⟩
def outS (ws : List Write) : State := (E.modCore 0 fun k => { k with vars := [opOut ws] }).modWarp 0 0 fun w => w.addTok 3
def isTile : Write → Bool
  | .tile .. => true
  | _ => false
def rowFits : Write → Bool
  | .row _ r vals => decide (r < 32) && vals.all fun x => decide (x.1 < 32)
  | _ => true
/-- Two rows of a load, a predicate, two g registers, bytes of scratchpad. -/
def outcomes : List (List Write) := [[.row 3 31 [(31, 9)], .row 4 0 [(0, 7)]], [.pred 6 [(31, true)]], [.g 62 77, .g 63 78],
  [.scratch 1 0xFC0 [1, 2, 3] []]]
theorem witness_ResultEventsComplete_variable (H : Obligations.ResultEventsComplete) :
    ∀ ws ∈ outcomes, ∃ t, exec (.variableResultDone 0 12) (outS ws) = .next t := by
  have hr : ∀ ws ∈ outcomes, ((outS ws).mgmt.power = true ∧ (outS ws).mgmt.fatal = false) ∧
      ((outS ws).core 0).vars.find? (fun v => v.id == 12) = some (opOut ws) ∧ (ws.map placeOf).Nodup ∧ ws.all (fun w => !isTile w) = true ∧
      ws.all rowFits = true := by decide +kernel
  intro ws hw
  obtain ⟨h1, h2, h3, h4, h5⟩ := hr ws hw
  refine completes (H.2.1 (outS ws) 0 12 (opOut ws) ws (live_of h1) h2 rfl (by simp [opOut]) rfl rfl h3 ?_ ?_)
  · rintro w hw t l rfl
    simpa [isTile] using List.all_eq_true.mp h4 _ hw
  · rintro w hw t r vals rfl
    simpa [rowFits] using List.all_eq_true.mp h5 _ hw
def dyingS : State := E.modCore 0 fun k => (k.setOwner 767 { dying := true, gid := 1 }).setWord 767 4 4 9
theorem witness_ResultEventsComplete_freed (H : Obligations.ResultEventsComplete) : ∃ t, exec (.tileFreed 0 767) dyingS = .next t :=
  completes (H.2.2.1 dyingS 0 767 (live_of (by decide +kernel)) (by decide +kernel) (by decide +kernel))
/-- A copy descriptor: source, destination, length, direction, time. -/
def cpd (src dst len dir time : Nat) : BitVec 256 := BitVec.ofNat 256 (src + dst * 2 ^ 64 + len * 2 ^ 128 + dir * 2 ^ 184 + time * 2 ^ 192)
def cop (d : BitVec 256) (started : Bool) : Copy := ⟨12, .warp 0 0, 1, 3, d, none, none, 2, started, 0, false, false, 0, [], []⟩
def copying (x : Copy) : State := ({ E with now := 9 }.modCore 0 fun k => { k with copies := [x] }).modWarp 0 0 fun w => w.addTok 3
def timed : Copy := cop (cpd 0x100 0x40 64 0 9) false
theorem witness_ResultEventsComplete_timed (H : Obligations.ResultEventsComplete) : ∃ t, exec (.timedCopyStart 0 12) (copying timed) = .next t :=
  completes (H.2.2.2.1 (copying timed) 0 12 timed (live_of (by decide +kernel)) (by decide +kernel) rfl (by decide +kernel)
    (by decide +kernel))
def cxDone : CX → Bool
  | .done _ => true
  | _ => false
def cxS : CX → State → State
  | .done s, _ => s
  | .fault s _ _, _ => s
  | _, s => s
theorem done_of {r : CX} (d : State) (h : cxDone r = true) : r = .done (cxS r d) := by cases r <;> simp_all [cxS, cxDone]
/-- The gate that a copy arrives on lets it. -/
def gateTurns (s : State) (x : Copy) : Bool :=
  !dGatev x.desc || match copyDstGroup s x.gid x.desc with
    | some g => (s.gate g (dGate x.desc)).rsvd == 0 &&
      (arrive (s.gate g (dGate x.desc)) (s.gate g (dGate x.desc)).phase (copyWeight x.desc x.tensor)).isSome
    | none => true
theorem copyDone_of (H : Obligations.ResultEventsComplete) (s : State) (x : Copy) (h : s.mgmt.power = true ∧ s.mgmt.fatal = false)
    (h1 : (s.core 0).copies.find? (fun x => x.id == 12) = some x) (h2 : x.started = true) (h3 : x.parked = false) (h4 : copyReady s x = true)
    (h5 : cxDone (copyRun s 0 (s.partOf x.gid) x) = true) (h6 : gateTurns (cxS (copyRun s 0 (s.partOf x.gid) x) s) x = true) :
    ∃ t, exec (.copyComplete 0 12) s = .next t := by
  refine completes (H.2.2.2.2.1 s _ 0 12 x (live_of h) h1 h2 h3 h4 (done_of s h5) ?_)
  intro hg g hd
  simp only [gateTurns, hg, hd, Bool.not_true, Bool.false_or, Bool.and_eq_true, beq_iff_eq] at h6
  exact h6
/-- Into the scratchpad up to its end, out of it, and into it with an arrival on a gate at 0x40. -/
def copyIn : Copy := cop (cpd 0x100 0xFF0 16 0 0) true
def copyOut : Copy := cop (cpd 0x40 0x100 16 1 0) true
def copyGate : Copy := cop (cpd 0x100 0xFF0 16 0 0 + BitVec.ofNat 256 (2 ^ 181 + 0x40 * 2 ^ 160)) true
def gateS : State := (copying copyGate).setGate 1 (dGate copyGate.desc) { phase := 1, rsvd := 0, expect := 50, cur := 2, nxt := 0 }
theorem gate_named : dGatev copyGate.desc = true ∧ copyDstGroup gateS 1 copyGate.desc = some 1 := by decide +kernel
theorem witness_ResultEventsComplete_copied (H : Obligations.ResultEventsComplete) :
    (∃ t, exec (.copyComplete 0 12) (copying copyIn) = .next t) ∧ (∃ t, exec (.copyComplete 0 12) (copying copyOut) = .next t) ∧
    ∃ t, exec (.copyComplete 0 12) gateS = .next t := by
  refine ⟨copyDone_of H (copying copyIn) copyIn ?_ ?_ rfl rfl ?_ ?_ ?_, copyDone_of H (copying copyOut) copyOut ?_ ?_ rfl rfl ?_ ?_ ?_,
    copyDone_of H gateS copyGate ?_ ?_ rfl rfl ?_ ?_ ?_⟩ <;> decide +kernel
/-- A copy to a page that may not be written. -/
def copyBad : Copy := cop (cpd 0x40 0x1000 16 1 0) true
def copyBadS : State := (withFlt (copying copyBad)).wr64 0x4008 0x6359
def cxBad : CX → Bool
  | .fault _ f _ => f.cls == 2
  | _ => false
theorem bad_of {r : CX} (d : State) (h : cxBad r = true) : ∃ f va, r = .fault (cxS r d) f va ∧ f.cls = 2 := by
  cases r <;> simp_all [cxS, cxBad]
theorem copyBad_of (H : Obligations.ResultEventsComplete) (s : State) (x : Copy) (g : Group) (h : s.mgmt.power = true ∧ s.mgmt.fatal = false)
    (h1 : (s.core 0).copies.find? (fun x => x.id == 12) = some x) (h2 : x.started = true) (h3 : x.parked = false) (h4 : copyReady s x = true)
    (h5 : cxBad (copyRun s 0 (s.partOf x.gid) x) = true) (h6 : mget? (cxS (copyRun s 0 (s.partOf x.gid) x) s).groups x.gid = some g)
    (h8 : fltRingOk (cxS (copyRun s 0 (s.partOf x.gid) x) s) ((cxS (copyRun s 0 (s.partOf x.gid) x) s).partOf x.gid) = true) :
    ∃ t, exec (.copyPageFault 0 12) s = .next t := by
  obtain ⟨f, va, hr, hc⟩ := bad_of s h5
  exact completes (H.2.2.2.2.2 s _ 0 12 va x f g (live_of h) h1 h2 h3 h4 hr hc h6 h8)
theorem witness_ResultEventsComplete_fault (H : Obligations.ResultEventsComplete) : ∃ t, exec (.copyPageFault 0 12) copyBadS = .next t :=
  copyBad_of H copyBadS copyBad (copyBadS.group 1) (by decide +kernel) (by decide +kernel) rfl rfl (by decide +kernel) (by decide +kernel)
    (by decide +kernel) (by decide +kernel)

/-! Accesses that are performed. -/

def acc (kind : AccKind) (lanes : List LaneAcc) (dst : LoadDst) : Access := ⟨kind, 0, 4, 0, false, lanes, dst, 0, 1, false, [], []⟩
def accOp (b : VarBody) : VarOp := ⟨12, .warp 0 0, 3, 0, 0, [], [], [], b, false⟩
def accS (s : State) (b : VarBody) : State := (s.modCore 0 fun k => { k with vars := [accOp b] }).modWarp 0 0 fun w => w.addTok 3
def pendingB (s : State) (b : VarBody) : Bool :=
  s.mgmt.power && !s.mgmt.fatal && (s.core 0).vars == [accOp b] && (s.warp? 0 0).isSome && s.poison == []
theorem pending_of {s : State} {b : VarBody} (h : pendingB s b = true) : Pending 0 0 12 (accOp b) s := by
  simp only [pendingB, Bool.and_eq_true, beq_iff_eq, Bool.not_eq_true'] at h
  obtain ⟨⟨⟨⟨h1, h2⟩, h3⟩, h4⟩, h5⟩ := h
  exact ⟨⟨h1, h2⟩, by rw [h3]; rfl, rfl, h4, rfl, by rw [h3]; simp, h5⟩
/-- Words of lanes 0 and 31 at the ends of the page come to v31 while lane 5 takes zero; a scalar byte with its sign. -/
def loadX : Access := acc .load [⟨0, 0x5000, []⟩, ⟨31, 0x5FFC, []⟩] ⟨false, 0, [(3, 31)], 4, 4, false, [5]⟩
def byteX : Access := { acc .load [⟨0, 0x5FFF, []⟩] ⟨true, 63, [], 1, 1, true, []⟩ with ord := 1 }
def storeX : Access := { acc .store [⟨0, 0x5000, [1, 2, 3, 4]⟩, ⟨31, 0x5002, [5, 6, 7, 8]⟩] (noDst 0) with ord := 2, rel := 4 }
def lazyX : Access := { acc .store [⟨0, 0x5000, [1, 2, 3, 4]⟩] (noDst 0) with ord := 2, scope := 3, rel := 3, tag := true }
def rmwX : Access := acc (.rmw 0 4 false true) [⟨0, 0x5FFC, leBytes 4 0xFFFFFFFF⟩, ⟨31, 0x5FFC, [2, 0, 0, 0]⟩] ⟨false, 0, [(3, 31)], 4, 4, false, []⟩
def dirtyS (x : Access) : State := accS (E.l1Store 0 1 [(0x5001, 9)]) (.access x)
theorem fits_of {d : LoadDst} {data : List (Nat × List Byte)}
    (h : ((data.map (·.1) ++ d.zeroLanes).Nodup ∧ ∀ j ∈ data.map (·.1) ++ d.zeroLanes, j < 32) ∧
      ((d.esize = 1 ∨ d.esize = 2) ∧ d.bytes = d.esize ∨ 4 ≤ d.esize ∧ d.bytes % 4 = 0 ∧ 0 < d.bytes) ∧ ∀ x ∈ data, x.2.length = d.bytes) :
    LoadFits d data := ⟨h.1, h.2.1, h.2.2⟩
theorem perform_load (H : Obligations.AccessesPerformed) (x : Access) (h1 : pendingB (dirtyS x) (.access x) = true) (h2 : x.scratch = false)
    (h3 : (∀ l ∈ x.lanes, l.pa < memEnd) ∧ ∀ p ∈ (VarBody.access x).touches.2, p < memEnd) (h4 : x.kind = .load) (h5 : ∀ l ∈ x.lanes, l.bytes = [])
    (h6 : let pas := x.lanes.flatMap fun l => span l.pa x.dst.bytes
      let u := acquireRead (((dirtyS x).moved x.gid (VarBody.access x).touches.2.length).homePrep 0 pas) (.warp 0 0) x x.scope pas
      let data := x.got ++ x.lanes.map fun l => (l.lane, u.rdBytes l.pa x.dst.bytes)
      ((data.map (·.1) ++ x.dst.zeroLanes).Nodup ∧ ∀ j ∈ data.map (·.1) ++ x.dst.zeroLanes, j < 32) ∧
      ((x.dst.esize = 1 ∨ x.dst.esize = 2) ∧ x.dst.bytes = x.dst.esize ∨ 4 ≤ x.dst.esize ∧ x.dst.bytes % 4 = 0 ∧ 0 < x.dst.bytes) ∧
      ∀ x' ∈ data, x'.2.length = x.dst.bytes) : ∃ t, exec (.variableResultDone 0 12) (dirtyS x) = .next t :=
  completes ((H.1 (dirtyS x) 0 0 12 (accOp (.access x)) x (pending_of h1) rfl h2 h3.1 h3.2).1 h4 h5 (fits_of h6))
theorem witness_AccessesPerformed_load (H : Obligations.AccessesPerformed) :
    (∃ t, exec (.variableResultDone 0 12) (dirtyS loadX) = .next t) ∧ ∃ t, exec (.variableResultDone 0 12) (dirtyS byteX) = .next t :=
  ⟨perform_load H loadX (by decide +kernel) rfl (by decide +kernel) rfl (by decide) (by decide +kernel),
    perform_load H byteX (by decide +kernel) rfl (by decide +kernel) rfl (by decide) (by decide +kernel)⟩
theorem perform_store (H : Obligations.AccessesPerformed) (x : Access) (h1 : pendingB (dirtyS x) (.access x) = true) (h2 : x.scratch = false)
    (h3 : (∀ l ∈ x.lanes, l.pa < memEnd) ∧ ∀ p ∈ (VarBody.access x).touches.2, p < memEnd) (h4 : x.kind = .store) (h5 : x.bad = [])
    (h6 : (x.lanes.flatMap fun l => span l.pa l.bytes.length) ≠ []) : ∃ t, exec (.variableResultDone 0 12) (dirtyS x) = .next t :=
  completes ((H.1 (dirtyS x) 0 0 12 (accOp (.access x)) x (pending_of h1) rfl h2 h3.1 h3.2).2.1 h4 h5 h6)
theorem witness_AccessesPerformed_store (H : Obligations.AccessesPerformed) :
    (∃ t, exec (.variableResultDone 0 12) (dirtyS storeX) = .next t) ∧ ∃ t, exec (.variableResultDone 0 12) (dirtyS lazyX) = .next t :=
  ⟨perform_store H storeX (by decide +kernel) rfl (by decide +kernel) rfl rfl (by decide),
    perform_store H lazyX (by decide +kernel) rfl (by decide +kernel) rfl rfl (by decide)⟩
theorem witness_AccessesPerformed_atomic (H : Obligations.AccessesPerformed) : ∃ t, exec (.variableResultDone 0 12) (dirtyS rmwX) = .next t :=
  completes ((H.1 (dirtyS rmwX) 0 0 12 (accOp (.access rmwX)) rmwX (pending_of (by decide +kernel)) rfl rfl (by decide +kernel) (by decide +kernel)).2.2
    0 4 true rfl (by decide) rfl (by decide +kernel))
/-- A word of the scratchpad of rank 1, read and written. -/
def otherX (kind : AccKind) (bs : List Byte) : Access :=
  { acc kind [⟨0, 7 * 2 ^ 32 + 0xFFC, bs⟩] (if bs = [] then ⟨false, 0, [(3, 31)], 4, 4, false, []⟩ else noDst 0) with scratch := true, scope := 3 }
def otherS (x : Access) : State := accS { clS with cur := .none } (.access x)
theorem witness_AccessesPerformed_other_rank (H : Obligations.AccessesPerformed) :
    (∃ t, exec (.variableResultDone 0 12) (otherS (otherX .load [])) = .next t) ∧
    ∃ t, exec (.variableResultDone 0 12) (otherS (otherX .store [1, 2, 3, 4])) = .next t :=
  ⟨completes ((H.2.1 (otherS (otherX .load [])) 0 0 12 (accOp (.access (otherX .load []))) (otherX .load []) (pending_of (by decide +kernel)) rfl rfl
      (by decide +kernel) (by decide) rfl).1 rfl rfl (fits_of (by decide +kernel))),
    completes ((H.2.1 (otherS (otherX .store [1, 2, 3, 4])) 0 0 12 (accOp (.access (otherX .store [1, 2, 3, 4]))) (otherX .store [1, 2, 3, 4])
      (pending_of (by decide +kernel)) rfl rfl (by decide +kernel) (by decide) rfl).2 rfl rfl)⟩
/-- The last rows of tile 767, from and to the page's last bytes. -/
def tileOut (b : VarBody) : VarOp := ⟨12, .ctx 0 0, 3, 0, 0, [], [], [], b, false⟩
def tileS (b : VarBody) : State := (F.modCore 0 fun k => { k with vars := [tileOut b] }).modCtx 0 0 fun x => x.addTok 3
def tgldB : VarBody := .tgld 767 30 0x5F00 256
def tgstB : VarBody := .tgst 0x5F80 (List.replicate 128 7) [] 3
theorem witness_AccessesPerformed_tiles (H : Obligations.AccessesPerformed) :
    (∃ t, exec (.variableResultDone 0 12) (tileS tgldB) = .next t) ∧ ∃ t, exec (.variableResultDone 0 12) (tileS tgstB) = .next t :=
  ⟨completes (H.2.2.1 (tileS tgldB) 0 0 12 767 30 0x5F00 256 (tileOut tgldB) (live_of (by decide +kernel)) (by decide +kernel) rfl rfl
      (by decide +kernel) rfl (by decide) (by decide)),
    completes (H.2.2.2.1 (tileS tgstB) 0 0 12 0x5F80 3 (List.replicate 128 7) (tileOut tgstB) (live_of (by decide +kernel)) (by decide +kernel) rfl rfl
      rfl (by decide))⟩
/-- The last line of the page, dirty in the L1, is invalidated; the one before is only written back. -/
def flushOf (inv : Bool) : State := accS (E.l1Store 0 1 [(0x5F01, 9), (0x5FFF, 8)]) (.flush 0xF00 256 inv)
theorem witness_AccessesPerformed_flush (H : Obligations.AccessesPerformed) :
    ∀ inv, ∃ t, exec (.variableResultDone 0 12) (flushOf inv) = .next t := by
  intro inv
  exact completes (H.2.2.2.2.1 (flushOf inv) 0 0 12 0xF00 256 inv (accOp (.flush 0xF00 256 inv)) (pending_of (by cases inv <;> decide +kernel)) rfl
    (by decide))
theorem flushed_line : walk (flushOf true) ((flushOf true).partOf ((flushOf true).gidOf (.warp 0 0))) (128 * 31) =
    .ok 0 4096 0x5000 0x4000 0x5379 0 := by decide +kernel
def copyingB (s : State) (x : Copy) : Bool :=
  s.mgmt.power && !s.mgmt.fatal && (s.core 0).copies == [x] && x.started && !x.parked && copyReady s x && !dGatev x.desc && x.clash == [] &&
    x.scope == 2 && s.poison == [] && (mget? s.groups x.gid).isSome && x.id == 12
theorem copying_of {s : State} {x : Copy} (h : copyingB s x = true) : Copying 0 12 x s := by
  simp only [copyingB, Bool.and_eq_true, beq_iff_eq, Bool.not_eq_true'] at h
  obtain ⟨⟨⟨⟨⟨⟨⟨⟨⟨⟨⟨h1, h2⟩, h3⟩, h4⟩, h5⟩, h6⟩, h7'⟩, h8⟩, h9⟩, h10⟩, h11⟩, h12⟩ := h
  exact ⟨⟨h1, h2⟩, by rw [h3]; simp [h12], h4, h5, h6, ⟨h7', h8, h9⟩, h10, h11⟩
def pxOk : PX → Bool
  | .ok _ => true
  | _ => false
def pxPa : PX → Nat
  | .ok pa => pa
  | _ => 0
theorem px_ok {r : PX × State} (h : pxOk r.1 = true) : r = (.ok (pxPa r.1), r.2) := by
  obtain ⟨a, b⟩ := r
  cases a <;> simp_all [pxPa, pxOk]
/-- Into the scratchpad and out of it, up to its end and the page's; between ranks, and within one rank side by side. -/
def inX : Copy := cop (cpd 0xFF0 0xFF0 16 0 0) true
def outX : Copy := cop (cpd 0xFF0 0xFF0 16 1 0) true
def rankX : Copy := cop (cpd 0x1000040 0x40 16 2 0) true
def sameX : Copy := cop (cpd 0x30 0x40 16 2 0) true
def rankS (x : Copy) : State := ({ clS with cur := .none }).modCore 0 fun k => { k with copies := [x] }
theorem witness_AccessesPerformed_copy (H : Obligations.AccessesPerformed) :
    (∃ t, exec (.copyComplete 0 12) (copying inX) = .next t) ∧ (∃ t, exec (.copyComplete 0 12) (copying outX) = .next t) ∧
    (∃ t, exec (.copyComplete 0 12) (rankS rankX) = .next t) ∧ ∃ t, exec (.copyComplete 0 12) (rankS sameX) = .next t := by
  have K := H.2.2.2.2.2.1
  refine ⟨?_, ?_, ?_, ?_⟩
  · exact completes ((K (copying inX) 0 12 inX (copying_of (by decide +kernel)) rfl rfl (by decide)).1 _ _ (by decide) (by decide)
      (px_ok (by decide +kernel)) (by decide +kernel))
  · exact completes ((K (copying outX) 0 12 outX (copying_of (by decide +kernel)) rfl rfl (by decide)).2.1 _ _ (by decide) (by decide)
      (px_ok (by decide +kernel)) (by decide +kernel))
  · exact completes ((K (rankS rankX) 0 12 rankX (copying_of (by decide +kernel)) rfl rfl (by decide)).2.2 7 1 (by decide) (by decide +kernel)
      (by decide +kernel) (by decide +kernel) (by decide))
  · exact completes ((K (rankS sameX) 0 12 sameX (copying_of (by decide +kernel)) rfl rfl (by decide)).2.2 1 1 (by decide) (by decide +kernel)
      (by decide +kernel) (by decide +kernel) (by decide))
/-- One line of sixteen .f32 elements, its only piece still to come; and the same line into a block of two rows. -/
def oneLine : BitVec 512 := BitVec.ofNat 512 (0x100 + 64 * 2 ^ 128 + 2 ^ 192 + 16 * 2 ^ 200 + 4 * 2 ^ 216 + 4 * 2 ^ 220)
def tens (d : BitVec 256) : Copy := { cop d true with tensor := some oneLine }
def tIn : Copy := tens (cpd 0 0 0 0 0)
def tOut : Copy := tens (cpd 0 0 0 1 0)
theorem witness_AccessesPerformed_tensor (H : Obligations.AccessesPerformed) :
    (∃ t, exec (.copyComplete 0 12) (copying tIn) = .next t) ∧ ∃ t, exec (.copyComplete 0 12) (copying tOut) = .next t := by
  have K := H.2.2.2.2.2.2.1
  constructor
  · exact completes ((K (copying tIn) _ 0 12 0x100 64 _ tIn oneLine (copying_of (by decide +kernel)) rfl).1 (by decide) ⟨0, by decide +kernel⟩
      (px_ok (by decide +kernel)) (by decide) (by decide +kernel))
  · exact completes ((K (copying tOut) _ 0 12 0x100 64 _ tOut oneLine (copying_of (by decide +kernel)) rfl).2 (List.replicate 64 0) (by decide)
      (by decide +kernel) (px_ok (by decide +kernel)) (by decide) (by decide +kernel))
theorem witness_AccessesPerformed_lines (H : Obligations.AccessesPerformed) :
    tOutLine oneLine (List.replicate 128 5) = (List.replicate 128 (5 : Byte)).take (tElems oneLine * sfmtSize (tTfmt oneLine)) ∧
    nth 0 (tTarget E oneLine (tensorLines oneLine (List.replicate 64 6))) (128 * 31 + 127) = 0 := by
  have h := H.2.2.2.2.2.2.2.2 E oneLine (List.replicate 64 6) 31 127 (by decide) (by decide) (by decide) (by decide) (by decide) (by decide)
    (by decide)
  exact ⟨H.2.2.2.2.2.2.2.1 oneLine (List.replicate 128 5) (by decide) (by decide), h.trans (if_neg (by decide))⟩

/-! Events: dispatch, caches, seals and tickets. -/

/-- A launch record: kernel object, grid size, cluster size; one warp, one tile of at most six, 1 KiB of scratchpad. -/
def launchRec (kobj gx cl : Nat) : Nat :=
  kobj + gx * 2 ^ 64 + 2 ^ 96 + 2 ^ 112 + 32 * 2 ^ 128 + cl * 2 ^ 144 + 2 ^ 160 + 6 * 2 ^ 168 + 8 * 2 ^ 176 + 4 * 2 ^ 184 + 1024 * 2 ^ 192
/-- A record taken from 0x400, a kernel header at 0x200. -/
def takenS (r : Nat) : State :=
  ((putVa E 0x400 128 r).wrBytes 0x5200 (leBytes 64 (0x40 + 0x574B * 2 ^ 496 + 4 * 2 ^ 328 + 8 * 2 ^ 320))).modPart 0 fun p => { p with taken := [(1, 0x400)] }
theorem ux_ok {r : UX × List Byte × State} (h : r.1 = .ok) : r = (.ok, r.2.1, r.2.2) := by
  obtain ⟨a, b, c⟩ := r; cases h; rfl
/-- The read of the slot, the record, the read of the kernel header, the grid. -/
def slotAt (s : State) : UX × List Byte × State :=
  unitRead (s.modPart 0 fun p => { p with ringFails := p.ringFails.filter fun f => f.1 != 1 }) 0 0x400 128
def recAt (s : State) : Grid := { part := 0, ring := 1, record := BitVec.ofNat 1024 (leNat (slotAt s).2.1) }
def hdrAt (s : State) : UX × List Byte × State := unitRead (slotAt s).2.2 0 (recAt s).kobj 64
def kerAt (s : State) : Grid := readGrid 0 1 (leNat (slotAt s).2.1) (hdrAt s).2.1 (hdrAt s).2.2
def liveAt (s : State) : Option State := liveAdd (hdrAt s).2.2 0 (recAt s).kobj true
/-- Ring 1 of partition 0 has taken a record at 0x400, which is read. -/
def takenOk (s : State) : Bool :=
  s.mgmt.power && !s.mgmt.fatal && (s.part 0).state == 1 && mget? (s.part 0).placing 1 == none && !ringBlocked s 0 1 &&
    mget? (s.part 0).taken 1 == some 0x400 && (slotAt s).1 == .ok
theorem taken_of {s : State} (h : takenOk s = true) : Live s ∧ (s.part 0).state = 1 ∧ mget? (s.part 0).placing 1 = none ∧ ringBlocked s 0 1 = false ∧
    mget? (s.part 0).taken 1 = some 0x400 ∧ slotAt s = (.ok, (slotAt s).2.1, (slotAt s).2.2) := by
  simp only [takenOk, Bool.and_eq_true, beq_iff_eq, Bool.not_eq_true'] at h
  exact ⟨⟨h.1.1.1.1.1.1, h.1.1.1.1.1.2⟩, h.1.1.1.1.2, h.1.1.1.2, h.1.1.2, h.1.2, ux_ok h.2⟩
/-- The kernel header has been read, and fits no other rule than the one in question. -/
def kernelOk (s : State) : Bool := takenOk s && !(recAt s).badRecord && (recAt s).kobj % 64 == 0 && (hdrAt s).1 == .ok
theorem launch_of (H : Obligations.DispatchEventsComplete) (s : State) (h : kernelOk s = true)
    (k : (kerAt s).badKernel = true ∨ (kerAt s).badKernel = false ∧ (liveAt s).isSome = true) :
    ∃ t, exec (.dispatcherTakeRecord 0 1) s = .next t := by
  simp only [kernelOk, Bool.and_eq_true, beq_iff_eq, Bool.not_eq_true'] at h
  obtain ⟨a, b, c, d, e, f⟩ := taken_of h.1.1.1
  have j := (H.1 s _ 0 1 0x400 _ a b c d e f).2.2 _ _ h.1.1.2 h.1.2 (ux_ok h.2)
  rcases k with k | ⟨k, l⟩
  · exact completes (j.1 k)
  · obtain ⟨s3, hs⟩ := Option.isSome_iff_exists.mp l
    have j := j.2 s3 k hs
    cases hf : (kerAt s).badFit
    · cases hw : wouldFit s3 0 { kerAt s with counted := true }
      · exact completes (j.2.1 hf hw)
      · exact completes (j.2.2 hf hw)
    · exact completes (j.1 hf)
theorem witness_DispatchEventsComplete_bad (H : Obligations.DispatchEventsComplete) :
    (∃ t, exec (.dispatcherTakeRecord 0 1) (takenS 5) = .next t) ∧ ∃ t, exec (.dispatcherTakeRecord 0 1) (takenS (launchRec 0x208 2 1)) = .next t := by
  constructor
  · obtain ⟨a, b, c, d, e, f⟩ := taken_of (s := takenS 5) (by decide +kernel)
    exact completes ((H.1 (takenS 5) _ 0 1 0x400 _ a b c d e f).1 (by decide +kernel))
  · obtain ⟨a, b, c, d, e, f⟩ := taken_of (s := takenS (launchRec 0x208 2 1)) (by decide +kernel)
    exact completes ((H.1 _ _ 0 1 0x400 _ a b c d e f).2.1 (by decide +kernel) (by decide +kernel))
/-- A record that is launched; one whose frontier of four the header's eight do not fit; one of clusters of two on one core; no header. -/
def launchable : State := takenS (launchRec 0x200 2 1)
def unfit : State := takenS (launchRec 0x200 2 1 - 4 * 2 ^ 176)
def crowded : State := takenS (launchRec 0x200 4 2)
def headless : State := takenS (launchRec 0x240 2 1)
theorem launch_cases : (kerAt headless).badKernel = true ∧ (kerAt unfit).badFit = true ∧
    wouldFit ((liveAt crowded).getD crowded) 0 { kerAt crowded with counted := true } = false ∧
    wouldFit ((liveAt launchable).getD launchable) 0 { kerAt launchable with counted := true } = true := by decide +kernel
theorem witness_DispatchEventsComplete_launch (H : Obligations.DispatchEventsComplete) :
    ∀ s ∈ [launchable, unfit, crowded, headless], ∃ t, exec (.dispatcherTakeRecord 0 1) s = .next t := by
  have hr : ∀ s ∈ [launchable, unfit, crowded, headless], kernelOk s = true ∧
      ((kerAt s).badKernel = true ∨ (kerAt s).badKernel = false ∧ (liveAt s).isSome = true) := by decide +kernel
  intro s hs
  exact launch_of H s (hr s hs).1 (hr s hs).2
/-- Grid 9 in placement, of two clusters of which `n` are placed; its clusters are of `c` groups; co-resident where asked. -/
def placingOf (n c : Nat) (co : Bool) : State :=
  (E.setGrid 9 { part := 0, ring := 1, nextCluster := n, khdr := placedHeader
                 record := BitVec.ofNat 1024 (launchRec 0x200 (2 * c) c + if co then 2 ^ 228 else 0) }).modPart 0 fun p =>
    { p with placing := [(1, 9)] }
theorem placing_spec (s : State) (h : (s.mgmt.power && !s.mgmt.fatal && mget? (s.part 0).placing 1 == some 9 && mget? s.grids 9 == some (s.grid 9) &&
      !(s.grid 9).aborted) = true) :
    Live s ∧ mget? (s.part 0).placing 1 = some 9 ∧ mget? s.grids 9 = some (s.grid 9) ∧ (s.grid 9).aborted = false := by
  simp only [Bool.and_eq_true, beq_iff_eq, Bool.not_eq_true'] at h
  exact ⟨⟨h.1.1.1.1, h.1.1.1.2⟩, h.1.1.2, h.1.2, h.2⟩
theorem witness_DispatchEventsComplete_placed (H : Obligations.DispatchEventsComplete) :
    ∃ t, exec (.placeCluster 0 1) (placingOf 2 1 false) = .next t := by
  obtain ⟨a, b, c, d⟩ := placing_spec (placingOf 2 1 false) (by decide +kernel)
  exact completes ((H.2.1 _ 0 1 9 _ a b c d).1 (by decide +kernel))
def placeable (s : State) : Bool := (s.grid 9).nextCluster < (s.grid 9).nClusters && (s.part 0).state == 1 &&
  ((s.part 0).turn.takeWhile (· != 1)).find? (canPlace s 0) == none
theorem placeable_of {s : State} (h : placeable s = true) : (s.grid 9).nextCluster < (s.grid 9).nClusters ∧ (s.part 0).state = 1 ∧
    ((s.part 0).turn.takeWhile (· != 1)).find? (canPlace s 0) = none := by
  simp only [placeable, Bool.and_eq_true, beq_iff_eq, decide_eq_true_eq] at h
  exact ⟨h.1.1, h.1.2, h.2⟩
/-- The last cluster of two; a co-resident grid; clusters of two groups, for which one core has no room. -/
theorem witness_DispatchEventsComplete_place (H : Obligations.DispatchEventsComplete) :
    (∃ t, exec (.placeCluster 0 1) (placingOf 1 1 false) = .next t) ∧ (∃ t, exec (.placeCluster 0 1) (placingOf 0 1 true) = .next t) ∧
    ∃ t, exec (.placeCluster 0 1) (placingOf 0 2 false) = .next t := by
  refine ⟨?_, ?_, ?_⟩
  · obtain ⟨a, b, c, d⟩ := placing_spec (placingOf 1 1 false) (by decide +kernel)
    obtain ⟨e, f, g⟩ := placeable_of (s := placingOf 1 1 false) (by decide +kernel)
    obtain ⟨cs, hc⟩ := Option.isSome_iff_exists.mp
      (show (chooseCores (placingOf 1 1 false) 0 ((placingOf 1 1 false).grid 9)).isSome = true by decide +kernel)
    exact completes (((H.2.1 _ 0 1 9 _ a b c d).2 (by decide) e f g).1 cs (by decide +kernel) hc)
  · obtain ⟨a, b, c, d⟩ := placing_spec (placingOf 0 1 true) (by decide +kernel)
    obtain ⟨e, f, g⟩ := placeable_of (s := placingOf 0 1 true) (by decide +kernel)
    obtain ⟨u, hu⟩ := Option.isSome_iff_exists.mp (show (placeMany 0 9 (((placingOf 0 1 true).grid 9).nClusters -
      ((placingOf 0 1 true).grid 9).nextCluster) (placingOf 0 1 true)).isSome = true by decide +kernel)
    exact completes (((H.2.1 _ 0 1 9 _ a b c d).2 (by decide) e f g).2.1 u (by decide +kernel) hu)
  · obtain ⟨a, b, c, d⟩ := placing_spec (placingOf 0 2 false) (by decide +kernel)
    obtain ⟨e, f, g⟩ := placeable_of (s := placingOf 0 2 false) (by decide +kernel)
    exact completes (((H.2.1 _ 0 1 9 _ a b c d).2 (by decide) e f g).2.2 (by decide +kernel) (by decide +kernel))
/-- A grid of 128 multiply-accumulates a byte, 2^20 ticks after its first placement. -/
def classS : State := { E with now := 2 ^ 20 + 3 }.modGrid 1 fun g => { g with firstPlaced := some 3, bytes := 1, macs := 128 }
theorem witness_DispatchEventsComplete_class (H : Obligations.DispatchEventsComplete) : ∃ t, exec (.gridClassify 1) classS = .next t :=
  completes (H.2.2.1 classS 1 3 (classS.grid 1) (live_of (by decide +kernel)) (by decide +kernel) (by decide +kernel) (by decide +kernel) (by decide +kernel))
def finished : State := E.modWarp 0 0 fun w => { w with frontier := [] }
theorem witness_DispatchEventsComplete_retire (H : Obligations.DispatchEventsComplete) : ∃ t, exec (.groupRetire 1) finished = .next t :=
  completes (H.2.2.2.1 finished 1 (finished.group 1) (finished.grid 1) (live_of (by decide +kernel)) (by decide +kernel) (by decide +kernel)
    (by decide +kernel) (by decide +kernel))
/-- A retired grid with completion action 0, 1 or 2, a word or a ring at `a`. -/
def retiredS (k a : Nat) : State :=
  withRec (E.modGrid 1 fun g => { g with retired := 1 }) (k * 2 ^ 229 + 6 * 2 ^ 232 + a * 2 ^ 448 + 0x12345600 * 2 ^ 512)
/-- A ring at 0x300 of four slots of 16 bytes at 0x100, with `resv` slots reserved; the grid awaits no LIVE decrement. -/
def retiredRing (resv : Nat) : State := withRing (retiredS 2 0x300) 0x300 0x100 2 4 0 0 resv 2 0xC0
def retiredOk (s : State) : Bool :=
  s.mgmt.power && !s.mgmt.fatal && mget? s.grids 1 == some (s.grid 1) && !(s.grid 1).done && (s.grid 1).retired == (s.grid 1).nGroups
theorem retired_spec {s : State} (h : retiredOk s = true) : Live s ∧ mget? s.grids 1 = some (s.grid 1) ∧ (s.grid 1).done = false ∧
    (s.grid 1).retired = (s.grid 1).nGroups := by
  simp only [retiredOk, Bool.and_eq_true, beq_iff_eq, Bool.not_eq_true'] at h
  exact ⟨⟨h.1.1.1.1, h.1.1.1.2⟩, h.1.1.2, h.1.2, h.2⟩
/-- The same with action 0, of a kernel whose LIVE count the grid has raised. -/
def live : State := (retiredS 0 0).modGrid 1 fun g => { g with counted := true }
def liveFallen : Option State :=
  liveAdd (live.modGrid 1 fun x => { x with done := true, acting := false, slot := none }) (live.grid 1).part (live.grid 1).kobj false
theorem witness_DispatchEventsComplete_completion (H : Obligations.DispatchEventsComplete) :
    (∃ t, exec (.completionAction 1) (retiredS 0 0x300) = .next t) ∧ (∃ t, exec (.completionAction 1) (retiredS 1 0x300) = .next t) ∧
    ∃ t, exec (.completionAction 1) live = .next t ∧ t.mem = (liveFallen.getD live).mem := by
  refine ⟨?_, ?_, ?_⟩
  · obtain ⟨a, b, c, d⟩ := retired_spec (s := retiredS 0 0x300) (by decide +kernel)
    exact completes ((H.2.2.2.2 _ 1 _ a b c (.inr (.inr d))).1 (by decide +kernel))
  · obtain ⟨a, b, c, d⟩ := retired_spec (s := retiredS 1 0x300) (by decide +kernel)
    exact completes ((H.2.2.2.2 _ 1 _ a b c (.inr (.inr d))).2.1 _ (by decide +kernel) (by decide +kernel) (pair_of (by decide +kernel)))
  · obtain ⟨a, b, c, d⟩ := retired_spec (s := live) (by decide +kernel)
    obtain ⟨u, hu⟩ := Option.isSome_iff_exists.mp (show liveFallen.isSome = true by decide +kernel)
    obtain ⟨t, h1, _, h2, _⟩ := (H.2.2.2.2 _ 1 _ a b c (.inr (.inr d))).1 (by decide +kernel)
    exact ⟨t, h1, by rw [hu]; exact h2.2 u (by decide +kernel) hu⟩
def rxIsFull {α : Type} (x : Except RingErr α) : Bool := match x with | .error .full => true | _ => false
theorem rx_full {α : Type} {r : Except RingErr α × State} (h : rxIsFull r.1 = true) : r = (.error .full, r.2) := by
  obtain ⟨a, b⟩ := r
  cases a with
  | ok _ => simp [rxIsFull] at h
  | error e => cases e <;> simp_all [rxIsFull]
/-- The last free slot of a ring, and a full ring. -/
theorem witness_DispatchEventsComplete_ring (H : Obligations.DispatchEventsComplete) :
    (∃ t, exec (.completionAction 1) (retiredRing 5) = .next t) ∧ ∃ t, exec (.completionAction 1) (retiredRing 6) = .next t := by
  have ho : ∀ s ∈ [retiredRing 5, retiredRing 6], retiredOk s = true ∧ (s.grid 1).cmplKind = 2 ∧ (s.grid 1).cmplAddr % 64 = 0 ∧
      (s.grid 1).slot = none ∧ exIs (ringOpen s (s.grid 1).part (s.grid 1).cmplAddr).1 = true ∧
      (exOk (ringOpen s (s.grid 1).part (s.grid 1).cmplAddr).1 (ringHdr 0, 0)).1.kind = 0 ∧
      4 ≤ (exOk (ringOpen s (s.grid 1).part (s.grid 1).cmplAddr).1 (ringHdr 0, 0)).1.log2sz := by decide +kernel
  have hk := fun s hs => H.2.2.2.2 s 1 (s.grid 1) (retired_spec (ho s hs).1).1 (retired_spec (ho s hs).1).2.1 (retired_spec (ho s hs).1).2.2.1
    (.inr (.inr (retired_spec (ho s hs).1).2.2.2))
  constructor
  · obtain ⟨_, b, c, d, e, f, g⟩ := ho (retiredRing 5) (by simp)
    exact completes (((hk (retiredRing 5) (by simp)).2.2 _ _ _ b c d (ex_ok2 (ringHdr 0, 0) e) f g).1 _ _ _ _ (ex_ok2 noRing (by decide +kernel))
      (pair_of (by decide +kernel)))
  · obtain ⟨_, b, c, d, e, f, g⟩ := ho (retiredRing 6) (by simp)
    exact completes (((hk (retiredRing 6) (by simp)).2.2 _ _ _ b c d (ex_ok2 (ringHdr 0, 0) e) f g).2 _ (rx_full (by decide +kernel)))

/-- A tile row's poison; one of the last chunk of a ticket's data; a corrected error. -/
def tickS : State := { E with tickets := [(tkKey 3 5, { st := .full, gen := 7, part := 0, size := 1, data := List.replicate 256 3 })] }
theorem witness_CacheEventsComplete_error (H : Obligations.CacheEventsComplete) :
    (∃ t, exec (.memoryErrorDetected (.tile 0 767 31) true) E = .next t) ∧
    (∃ t, exec (.memoryErrorDetected (.ticket (tkKey 3 5) 3) true) tickS = .next t) ∧ ∃ t, exec (.memoryErrorDetected (.mem 3) false) E = .next t :=
  ⟨completes ((H.1 E (.tile 0 767 31) (live_of (by decide +kernel))).1 fun _ _ => by simp),
    completes ((H.1 tickS (.ticket (tkKey 3 5) 3) (live_of (by decide +kernel))).2.1 _ _ rfl),
    completes (H.1 E (.mem 3) (live_of (by decide +kernel))).2.2⟩
def wcS : State := E.wcStore 0 1 [(0x5004, 3), (0x5107, 4)]
theorem witness_CacheEventsComplete_drain (H : Obligations.CacheEventsComplete) : ∃ t, exec (.wcEntryDrain 0 160) wcS = .next t :=
  completes (H.2.1 wcS 0 160 (((wcS.core 0).wc.filter (fun e => e.1 == 160)).headD (0, [])) (live_of (by decide +kernel)) (by decide +kernel))
def l1S : State := E.l1Store 0 0 [(0x5004, 3), (0x5107, 4)]
/-- A line of core 0 that core 1 forwarded, where core 1 has a dirty byte of it. -/
def fdL1 : State := (E.modCore 0 fun k => { k with l1 := [(160, { fd := some 1, bytes := [(4, ⟨3, true, 0, 0⟩)] })] }).l1Store 1 0 [(0x5008, 7)]
theorem witness_CacheEventsComplete_evict (H : Obligations.CacheEventsComplete) :
    (∃ t, exec (.l1Evict 0 160) l1S = .next t) ∧ ∃ t, exec (.l1Evict 0 160) fdL1 = .next t :=
  ⟨completes ((H.2.2.1 l1S 0 160 (mget {} (l1S.core 0).l1 160) (live_of (by decide +kernel)) (by decide +kernel)).1 (by decide +kernel)),
    completes ((H.2.2.1 fdL1 0 160 (mget {} (fdL1.core 0).l1 160) (live_of (by decide +kernel)) (by decide +kernel)).2 1 (by decide +kernel)
      (by decide))⟩
theorem witness_CacheEventsComplete_promotion (H : Obligations.CacheEventsComplete) : ∃ t, exec (.promotion 0) l1S = .next t :=
  completes (H.2.2.2.1 l1S 0 (live_of (by decide +kernel)))
/-- Two groups of a cluster on two cores; the first core's L1 has a dirty line. -/
def pairS : State :=
  { (E.l1Store 0 0 [(0x5004, 3)]).setGroup 7 { grid := 1, number := 1, cluster := 1, rank := 1, core := 1, size := 4096 } with
    clusters := [(1, { grid := 1, groups := [1, 7] })] }
theorem witness_CacheEventsComplete_forward (H : Obligations.CacheEventsComplete) : ∃ t, exec (.clusterForward 0 1) pairS = .next t := by
  refine completes (H.2.2.2.2.1 pairS 0 1 160 1 (mget {} (pairS.core 0).l1 160) { grid := 1, groups := [1, 7] } 1 7 (pairS.group 1) (pairS.group 7)
    (live_of ?_) ?_ ?_ ?_ ?_ ?_ ?_ ?_ ?_ ?_ ?_ ?_ ?_ ?_ ?_) <;> decide +kernel
/-- Core 1 has a line that core 0 forwarded. -/
def fdS : State := (E.l1Store 0 0 [(0x5004, 3)]).modCore 1 fun k => { k with l1 := [(160, { fd := some 0, bytes := [(4, ⟨3, false, 0, 0⟩)] })] }
theorem witness_CacheEventsComplete_resolve (H : Obligations.CacheEventsComplete) : ∃ t, exec (.fdResolve 1 160) fdS = .next t :=
  completes (H.2.2.2.2.2 fdS 1 160 0 (mget {} (fdS.core 1).l1 160) (live_of (by decide +kernel)) (by decide +kernel) (by decide +kernel))

def sealIn (st : Nat) : State := E.setSeal 0 15 (sealWord st 0x20000 3)
theorem witness_SealAndTicketEventsComplete_seal (H : Obligations.SealAndTicketEventsComplete) :
    (∃ t, exec (.sealComplete 0 15) (sealIn 1) = .next t) ∧ ∃ t, exec (.unsealComplete 0 15) (sealIn 3) = .next t :=
  ⟨completes (H.1 (sealIn 1) 0 15 (live_of (by decide +kernel)) (by unfold settled; decide +kernel) (by decide +kernel) (by decide +kernel)),
    completes (H.2.1 (sealIn 3) 0 15 (live_of (by decide +kernel)) (by decide +kernel))⟩
/-- An LDT at slice 3, whose entry 1 is free; one that a waiting LDT stands before, with room for both. -/
def seg3 : Seg := ⟨3, .fetching, 0x5200, 0⟩
def ldtOp : VarOp := ⟨12, .warp 0 0, 3, 0, 0, [(true, 4), (true, 5)], [], [], .ldt 0x200 0 4 false (some seg3), true⟩
def ldtS : State :=
  { (E.modCore 0 fun k => { k with vars := [ldtOp] }) with tickets := [(tkKey 3 0, { st := .full, part := 2 }), (tkKey 3 1, { st := .free, gen := 9 })] }
def behind : State := { ldtS with ldtWaits := [⟨3, 0, 1, 11⟩, ⟨2, 0, 1, 13⟩, ⟨3, 1, 1, 14⟩] }
theorem witness_SealAndTicketEventsComplete_allocate (H : Obligations.SealAndTicketEventsComplete) :
    (∃ t, exec (.ticketAllocate 0 12) ldtS = .next t) ∧ ∃ t, exec (.ticketAllocate 0 12) behind = .next t := by
  constructor
  · refine completes (H.2.2.1 ldtS 0 12 0 4 ldtOp 0x200 false seg3 (live_of ?_) ?_ rfl ?_ ?_ ?_) <;> decide +kernel
  · refine completes (H.2.2.1 behind 0 12 0 4 ldtOp 0x200 false seg3 (live_of ?_) ?_ rfl ?_ ?_ ?_) <;> decide +kernel
def quotaS : State := { ldtS with ldtWaits := [⟨3, 0, 0, 12⟩] }
theorem witness_SealAndTicketEventsComplete_quota (H : Obligations.SealAndTicketEventsComplete) : ∃ t, exec (.ldtQuotaGrant 3 0) quotaS = .next t := by
  refine completes (H.2.2.2.1 quotaS 3 0 0 4 ⟨3, 0, 0, 12⟩ ldtOp 0x200 false seg3 (live_of ?_) ?_ ?_ ?_ ?_ rfl rfl ?_ ?_) <;> decide +kernel
/-- An entry with the last generation; its lease ends now. -/
def entryS (st : TkState) : State :=
  let s := { E with tickets := [(tkKey 3 1023, { st := st, gen := 255, part := 0, data := [1, 2], clock := 0 })] }
  { s with now := 2 ^ (s.part 0).lease.toNat }
theorem witness_SealAndTicketEventsComplete_fetched (H : Obligations.SealAndTicketEventsComplete) :
    (∃ t, exec (.ticketFetchComplete 3 1023) (entryS .fetching) = .next t) ∧ ∃ t, exec (.ticketFetchComplete 3 1023) (entryS .claimed) = .next t :=
  ⟨completes ((H.2.2.2.2.1 (entryS .fetching) 3 1023 (live_of (by decide +kernel))).1 (by decide +kernel) (by decide +kernel)),
    completes ((H.2.2.2.2.1 (entryS .claimed) 3 1023 (live_of (by decide +kernel))).2 (by decide +kernel))⟩
theorem witness_SealAndTicketEventsComplete_lease (H : Obligations.SealAndTicketEventsComplete) :
    (∃ t, exec (.ticketLeaseEnd 3 1023) (entryS .full) = .next t) ∧ ∃ t, exec (.ticketLeaseEnd 3 1023) (entryS .poisoned) = .next t :=
  ⟨completes (H.2.2.2.2.2.1 (entryS .full) 3 1023 (live_of (by decide +kernel)) (.inl (by decide +kernel)) (by decide +kernel) (by decide +kernel)),
    completes (H.2.2.2.2.2.1 (entryS .poisoned) 3 1023 (live_of (by decide +kernel)) (.inr (by decide +kernel)) (by decide +kernel) (by decide +kernel))⟩
def ringOp : VarOp := ⟨12, .warp 0 0, 3, 0, 0, [(true, 4), (true, 5)], [], [], .ring, false⟩
/-- A reservation waits at a ring that has a slot again. -/
def ringWS : State := { ((withRing E 0x40 0x100 2 4 0 0 3 2 0xC0).modCore 0 fun k => { k with vars := [ringOp] }) with ringWaits := [⟨12, 0, 0x40, true, .warp 0 0⟩] }
theorem served_of (H : Obligations.SealAndTicketEventsComplete) (s : State) (h : s.mgmt.power = true ∧ s.mgmt.fatal = false)
    (h1 : s.ringWaits = [⟨12, 0, 0x40, true, .warp 0 0⟩]) (h2 : exIs (ringReserve s 0 (0x40 : W64).toNat).1 = true)
    (h3 : ((ringReserve s 0 (0x40 : W64).toNat).2.core 0).vars.find? (fun v => v.id == 12) = some ringOp)
    (h4 : ((ringReserve s 0 (0x40 : W64).toNat).2.warp? 0 0).isSome = true) : ∃ t, exec (.ringWaitServed 12) s = .next t :=
  completes (H.2.2.2.2.2.2 s _ 0 0 12 4 _ ⟨12, 0, 0x40, true, .warp 0 0⟩ _ ringOp (live_of h) (by rw [h1]; rfl) rfl (by rw [h1]; rfl) rfl
    (ex_ok2 noRing h2) h3 rfl rfl rfl rfl h4)
theorem witness_SealAndTicketEventsComplete_ring (H : Obligations.SealAndTicketEventsComplete) : ∃ t, exec (.ringWaitServed 12) ringWS = .next t :=
  served_of H ringWS (by decide +kernel) (by decide +kernel) (by decide +kernel) (by decide +kernel) (by decide +kernel)

/-! Events: paging and eviction. -/

/-- A locator in drive 2; a state with a page on a drive at 0x2000, a pool of bounce pages, resident records, and drive 2 on. -/
def loc : W64 := BitVec.ofNat 64 (2 ^ 54 + 2 * 2 ^ 50 + 5 * 2 ^ 10 + 0x78)
def P : State :=
  (((E.wr64 0x4008 0x6379).wr64 0x4010 loc).modPart 0 fun p =>
    { p with bounce := BitVec.ofNat 64 (2 ^ 63 + 9 + 2 ^ 21), reslist := 0x1000, pagercfg := BitVec.ofNat 64 (2 ^ 40) }).setDrive 2
      { cfg := BitVec.ofNat 64 (2 ^ 63 + 9 * 2 ^ 44 + 8), sqb := 0x100000 }
def flightOf (stage left : Nat) (ev : Bool) (ws : List Waiter) (deadline : Nat := 0) : InFlight :=
  { part := 0, va := 0x2000, evict := ev, stage := stage, leaf := loc, oldPte := 0x7379, size := 4096, frame := 0x7000, record := 3, waiters := ws,
    left := left, deadline := deadline, ok := true, area := 0, since := 0 }
def P1 (x : InFlight) : State := { P with inflight := [((0, 0x4010), x)], now := 100 }
def wkLeaf : Walk → W64
  | .ok _ _ _ _ l _ => l
  | .page _ _ _ l _ => l
  | _ => 0
def wkOk : Walk → Bool
  | .ok .. => true
  | _ => false
def wkPage : Walk → Bool
  | .page .. => true
  | _ => false
def wkKey : Walk → Nat
  | .page k _ _ _ _ => k
  | _ => 0
theorem wk_ok {w : Walk} (h : wkOk w = true) : ∃ v len pa pte l, w = .ok v len pa pte (wkLeaf w) l := by
  cases w <;> simp_all [wkOk, wkLeaf]
theorem wk_page {w : Walk} (h : wkPage w = true) : ∃ v len l, w = .page (wkKey w) v len (wkLeaf w) l := by
  cases w <;> simp_all [wkPage, wkLeaf, wkKey]
theorem witness_PagingEventsComplete_walk (H : Obligations.PagingEventsComplete) : ∃ t, exec (.pageWalk 0 0 0x1FFF) P = .next t := by
  obtain ⟨v, len, pa, pte, l, h⟩ := wk_ok (w := walk P 0 (0x1FFF : W64).toNat) (by decide +kernel)
  exact completes (H.1 P 0 0 v len pa pte l 0x1FFF _ (live_of (by decide +kernel)) (by decide) (by decide +kernel) h (by decide +kernel))
/-- No request, or one of pager 0 alone, waits for room. -/
theorem none_queued {p : Nat} {s : State} (h : s.pagerQueue.all (fun q => q.1 != p) = true) : NoneQueued p s := by
  intro q hq
  simpa using List.all_eq_true.mp h q hq
def queuedS : State := { P with pagerQueue := [(0, 0, 0x3000, .warp 0 0, 0)] }
theorem witness_PagingEventsComplete_request (H : Obligations.PagingEventsComplete) :
    (∃ t, exec (.pagerRequest 0 0x2FFF (.warp 0 0)) P = .next t) ∧ ∃ t, exec (.pagerRequest 0 0x2FFF (.warp 0 0)) queuedS = .next t := by
  constructor
  · obtain ⟨v, len, l, h⟩ := wk_page (w := walk P 0 (0x2FFF : W64).toNat) (by decide +kernel)
    exact completes ((H.2.1 P 0 _ v len l 0x2FFF _ (.warp 0 0) (live_of (by decide +kernel)) (by decide) h).1 (by decide +kernel) (by decide +kernel)
      (none_queued (by decide +kernel)))
  · obtain ⟨v, len, l, h⟩ := wk_page (w := walk queuedS 0 (0x2FFF : W64).toNat) (by decide +kernel)
    refine completes ((H.2.1 queuedS 0 _ v len l 0x2FFF _ (.warp 0 0) (live_of (by decide +kernel)) (by decide) h).2.1 (by decide +kernel) (.inr ?_))
    intro hn
    have hp : pagerOf (wkLeaf (walk queuedS 0 (0x2FFF : W64).toNat)) = 0 := by decide +kernel
    rw [hp] at hn
    exact hn (0, 0, 0x3000, .warp 0 0, 0) (by decide +kernel) rfl
def joining : State := P1 (flightOf 1 0 false [.warp 0 0])
theorem witness_PagingEventsComplete_join (H : Obligations.PagingEventsComplete) : ∃ t, exec (.pagerRequest 0 0x2000 (.ctx 0 0)) joining = .next t := by
  obtain ⟨v, len, l, h⟩ := wk_page (w := walk joining 0 (0x2000 : W64).toNat) (by decide +kernel)
  exact completes ((H.2.1 joining 0 _ v len l 0x2000 _ (.ctx 0 0) (live_of (by decide +kernel)) (by decide) h).2.2 (flightOf 1 0 false [.warp 0 0])
    (by decide +kernel))
theorem witness_PagingEventsComplete_start (H : Obligations.PagingEventsComplete) : ∃ t, exec (.pageInStart 0 0x4010) joining = .next t := by
  obtain ⟨r, hr⟩ : ∃ r, freeRecord joining 0 = some (.ok r) := by
    have h : (match freeRecord joining 0 with | some (.ok _) => true | _ => false) = true := by decide +kernel
    revert h
    cases freeRecord joining 0 with
    | none => simp
    | some x => cases x <;> simp
  exact completes (H.2.2.1 joining 0 0x4010 r (flightOf 1 0 false [.warp 0 0]) (live_of (by decide +kernel)) (by decide +kernel) rfl rfl hr (by decide +kernel))
def cmd : Cmd := ⟨7, 2, 1, 1, 0x7000, 0, 0, 0x4010, 0⟩
/-- The last read of a page is out, after another command; the completion queue's head stands at its last entry. -/
def lastS : State := (P1 (flightOf 2 1 false [.warp 0 0])).modDrive 2 fun d => { d with out := [⟨3, 2, 1, 1, 1, 1, 0, 0x99, 5⟩, cmd], cqb := 0x180000, head := 8 }
theorem witness_PagingEventsComplete_completion (H : Obligations.PagingEventsComplete) : ∃ t, exec (.nvmeCompletion 2 7 0) lastS = .next t := by
  refine completes (H.2.2.2.1 lastS 2 7 0 cmd (flightOf 2 1 false [.warp 0 0]) (live_of ?_) ?_ ?_ ?_ ?_ ?_ rfl ?_ ?_ rfl rfl rfl rfl) <;> decide +kernel
/-- The tail stands at the queue's last slot. -/
def submitS : State := P.modDrive 2 fun d => { d with waiting := [cmd], tail := 8 }
theorem witness_PagingEventsComplete_submit (H : Obligations.PagingEventsComplete) : ∃ t, exec (.stqSubmitWaiting 2) submitS = .next t := by
  refine completes (H.2.2.2.2.1 submitS 2 cmd (live_of ?_) ?_ ?_ ?_ ?_) <;> decide +kernel
def readyS : State := P1 (flightOf 2 0 false [.warp 0 0])
theorem witness_PagingEventsComplete_install (H : Obligations.PagingEventsComplete) : ∃ t, exec (.pageInInstall 0 0x4010) readyS = .next t :=
  completes (H.2.2.2.2.2.1 readyS 0 0x4010 0 0 (flightOf 2 0 false [.warp 0 0]) (live_of (by decide +kernel)) (by decide +kernel) rfl rfl rfl rfl rfl
    (by decide +kernel) rfl (none_queued (by decide +kernel)))
/-- The deadline is now; no one waits, or the warp. -/
def lateS (ws : List Waiter) : State := P1 (flightOf 2 1 false ws 100)
theorem witness_PagingEventsComplete_timeout (H : Obligations.PagingEventsComplete) :
    (∃ t, exec (.pageInTimeout 0 0x4010) (lateS []) = .next t) ∧ ∃ t, exec (.pageInTimeout 0 0x4010) (lateS [.warp 0 0]) = .next t := by
  constructor
  · exact completes ((H.2.2.2.2.2.2 (lateS []) 0 0x4010 (flightOf 2 1 false [] 100) (live_of (by decide +kernel)) (by decide +kernel) rfl rfl (by decide)
      (by decide +kernel) (none_queued (by decide +kernel))).1 rfl)
  · exact completes ((H.2.2.2.2.2.2 (lateS [.warp 0 0]) 0 0x4010 (flightOf 2 1 false [.warp 0 0] 100) (live_of (by decide +kernel)) (by decide +kernel) rfl rfl
      (by decide) (by decide +kernel) (none_queued (by decide +kernel))).2 0 0 (wpOf (lateS [.warp 0 0])) ((lateS [.warp 0 0]).grid 1) rfl rfl
      (by decide +kernel) (by decide +kernel) (by decide +kernel) (by decide +kernel))

/-- A resident page at 0x2000 with a record, and a page on its way that lacks one. -/
def sweepS : State :=
  { ((P.wr64 0x4010 0x7379).wrBytes 0x6000 (leBytes 8 0x4011 ++ leBytes 8 loc.toNat)) with
    inflight := [((0, 0x4018), { flightOf 1 0 false [] with va := 0x3000 })] }
def swept : State := sweepS.modPart 0 fun p => { p with sweeping := true, hand := ((sweepS.part 0).hand % resCount (sweepS.part 0) + 1) % resCount p }
def recSwept : W64 × W64 := exOk (resRead swept 0 ((sweepS.part 0).hand % resCount (sweepS.part 0))) (0, 0)
theorem witness_EvictionEventsComplete_sweep (H : Obligations.EvictionEventsComplete) : ∃ t, exec (.sweepStep 0) sweepS = .next t := by
  have hr : resRead swept 0 ((sweepS.part 0).hand % resCount (sweepS.part 0)) = .ok (recSwept.1, recSwept.2) := ex_eq (d := (0, 0)) rfl (by decide +kernel)
  refine completes (H.1 sweepS 0 recSwept.1 recSwept.2 (live_of ?_) ?_ hr ?_ ?_ ?_ ?_ ?_ ?_) <;> decide +kernel
/-- A page on its way out that no one waits for, or a unit, a saved group and an agent of one. -/
def evicted (ws : List Waiter) : State := P1 (flightOf 2 0 true ws)
theorem witness_EvictionEventsComplete_evicted (H : Obligations.EvictionEventsComplete) :
    (∃ t, exec (.evictWriteComplete 0 0x4010) (evicted []) = .next t) ∧
    ∃ t, exec (.evictWriteComplete 0 0x4010) (evicted [.engine 5, .group 1, .away 1 0]) = .next t :=
  ⟨completes (H.2.1 (evicted []) 0 0x4010 (flightOf 2 0 true []) (live_of (by decide +kernel)) (by decide +kernel) rfl rfl rfl rfl
      (by simp [flightOf]) (none_queued (by decide +kernel))),
    completes (H.2.1 (evicted [.engine 5, .group 1, .away 1 0]) 0 0x4010 (flightOf 2 0 true [.engine 5, .group 1, .away 1 0])
      (live_of (by decide +kernel)) (by decide +kernel) rfl rfl rfl rfl (by simp [flightOf]) (none_queued (by decide +kernel)))⟩
/-- A shootdown of the whole of partition 0 that TLBINV began, and one of an eviction. -/
def shootOf (x : Shoot) (fs : List ((Nat × Nat) × InFlight)) : State :=
  { (P.modCore 0 fun k => { k with tlb := [⟨0, 0, 4096, 0x5000, 0x4000, 0x5379⟩, ⟨1, 0, 4096, 0x5000, 0x4000, 0x5379⟩] }).modPart 0 fun p =>
      { p with tlbinv := BitVec.ofNat 64 (2 ^ 63 + 2 ^ 62) } with shoots := [x], inflight := fs }
def shooting : State := shootOf ⟨0, 0, true, false⟩ []
def going (dirty : Bool) : InFlight := { flightOf 0 0 true [] with oldPte := if dirty then 0x7379 else 0x7179 }
def evicting (done dirty : Bool) : State := shootOf ⟨0, 0x2000, false, done⟩ [((0, 0x4010), going dirty)]
theorem resident_of {s : State} (h : (s.groups.all fun g => g.2.phase == .resident) = true) : ∀ g ∈ s.groups, ∀ r, g.2.phase ≠ .saved r := by
  intro g hg r hr
  have := List.all_eq_true.mp h g hg
  simp [hr] at this
theorem witness_EvictionEventsComplete_shootdown (H : Obligations.EvictionEventsComplete) :
    (∃ t, exec (.shootdown 0 (BitVec.allOnes 64)) shooting = .next t) ∧ ∃ t, exec (.shootdown 0 0x2000) (evicting false true) = .next t := by
  constructor
  · exact completes ((H.2.2.1 shooting 0 (BitVec.allOnes 64) ⟨0, 0, true, false⟩ (live_of (by decide +kernel)) (by unfold settled; decide +kernel)
      (resident_of (by decide +kernel)) (by decide +kernel)).1 rfl)
  · exact completes ((H.2.2.1 (evicting false true) 0 0x2000 ⟨0, 0x2000, false, false⟩ (live_of (by decide +kernel)) (by unfold settled; decide +kernel)
      (resident_of (by decide +kernel)) (by decide +kernel)).2 (0, 0x4010) (going true) rfl (by decide +kernel))
def shot : State := shootOf ⟨0, 0, true, true⟩ []
theorem witness_EvictionEventsComplete_complete (H : Obligations.EvictionEventsComplete) : ∃ t, exec (.shootdownComplete 0) shot = .next t :=
  completes (H.2.2.2.1 shot 0 (live_of (by decide +kernel)) ⟨⟨0, 0, true, true⟩, by decide +kernel⟩ (by decide +kernel))
theorem witness_EvictionEventsComplete_write_back (H : Obligations.EvictionEventsComplete) :
    (∃ t, exec (.shootdownComplete 0) (evicting true false) = .next t) ∧ ∃ t, exec (.shootdownComplete 0) (evicting true true) = .next t := by
  constructor
  · exact completes ((H.2.2.2.2.1 (evicting true false) ⟨0, 0x2000, false, true⟩ (0, 0x4010) (going false) (live_of (by decide +kernel)) rfl rfl
      (by decide +kernel) rfl rfl rfl rfl rfl).1 (by decide))
  · exact completes ((H.2.2.2.2.1 (evicting true true) ⟨0, 0x2000, false, true⟩ (0, 0x4010) (going true) (live_of (by decide +kernel)) rfl rfl
      (by decide +kernel) rfl rfl rfl rfl rfl).2 (by decide) (by decide +kernel))
/-- The whole partition, and the largest range. -/
theorem witness_EvictionEventsComplete_tlbinv (H : Obligations.EvictionEventsComplete) :
    (∃ t, exec (.tlbinv 0 0x4000000000000007) P = .next t) ∧ ∃ t, exec (.tlbinv 0 0x0024000000000000) P = .next t :=
  ⟨completes (H.2.2.2.2.2.1 P 0 0x4000000000000007 (live_of (by decide +kernel)) (by decide +kernel) (by decide)),
    completes (H.2.2.2.2.2.1 P 0 0x0024000000000000 (live_of (by decide +kernel)) (by decide +kernel) (by decide))⟩
theorem witness_EvictionEventsComplete_flush (H : Obligations.EvictionEventsComplete) : ∃ t, exec (.stqcfgFlush 2) P = .next t :=
  completes (H.2.2.2.2.2.2 P 2 (live_of (by decide +kernel)) (by decide +kernel) (by decide +kernel))

/-! Events: saving, partitions. The saved groups of the witnesses have no warp slots, which keeps their images to 8 KiB. -/

def rec13 (threads prio : Nat) : BitVec 1024 :=
  BitVec.ofNat 1024 (2 ^ 64 + 2 ^ 96 + 2 ^ 112 + threads * 2 ^ 128 + 2 ^ 144 + 6 * 2 ^ 160 + 6 * 2 ^ 168 + 8 * 2 ^ 176 + 4 * 2 ^ 184 + prio * 2 ^ 224 +
    0x200000 * 2 ^ 320)
/-- The save area of group 1 is the large page at 0x200000. -/
def saveS (threads prio : Nat) (ph : GPhase) (slots : List Nat) : State :=
  ((((E.modPart 0 fun p => { p with pframe := BitVec.ofNat 64 (4 * 2 ^ 32) }).wr64 0x3008 0x400379).modGrid 1 fun g => { g with record := rec13 threads prio }).modGroup 1
    fun g => { g with phase := ph, ctxs := [], slots := slots })
/-- Grid 2 of two warps waits for a place. -/
def grid2 : Grid :=
  { part := 0, ring := 2, record := BitVec.ofNat 1024 (launchRec 0x200 1 1 + 32 * 2 ^ 128 + 228352 * 2 ^ 192), khdr := placedHeader }
/-- Group 1 fills its core and waits for a page; grid 2 waits for a place. -/
def packed (prio : Nat) (wt : Wait) : State :=
  let s := (saveS 32 prio .resident [0]).setGrid 2 grid2
  let s := s.modPart 0 fun p => { p with placing := [(2, 2)], held := [(2, 0)] }
  let s := s.modWarp 0 0 fun w => { w with wait := wt }
  s.modGroup 1 fun g => { g with size := 1310720 }
def swapS : State := packed 0 .page
theorem witness_SaveEventsComplete_begin (H : Obligations.SaveEventsComplete) : ∃ t, exec (.groupSwapOut 1) swapS = .next t :=
  completes ((H.1 swapS 1 (swapS.group 1) (live_of (by decide +kernel)) (by decide +kernel)).1 (by decide +kernel) (by decide +kernel) (by decide +kernel)
    (by decide +kernel) (by decide +kernel))
def savingS : State := saveS 0 0 (.saving 2) []
def savedImage (s : State) (r : Nat) : UX × State :=
  let u := drainCarried ((s.group 1).ctxs.foldl (fun u k => latchCtx u (s.group 1).core k) s) 1
  writePieces (s.partOf 1) (areaVa u 1) ((0, List.replicate (gSize (u.gridOf 1)) (0 : Byte)) :: savePieces u 1 r) u
theorem save_of (H : Obligations.SaveEventsComplete) (s : State) (r : Nat) (h : s.mgmt.power = true ∧ s.mgmt.fatal = false)
    (h1 : mget? s.groups 1 = some (s.group 1)) (h2 : (s.group 1).phase = .saving r) (h3 : saveQuiet s 1 = true) (h4 : (savedImage s r).1 = .ok) :
    ∃ t, exec (.groupSwapOut 1) s = .next t :=
  completes ((H.1 s 1 (s.group 1) (live_of h) h1).2 r (savedImage s r).2 h2 h3 (pair_of h4))
theorem witness_SaveEventsComplete_saved (H : Obligations.SaveEventsComplete) : ∃ t, exec (.groupSwapOut 1) savingS = .next t :=
  save_of H savingS 2 (by decide +kernel) (by decide +kernel) (by decide +kernel) (by decide +kernel) (by decide +kernel)
/-- The record of grid 2 has been held back for 4,096 ticks by a group of lower priority. -/
def preemptS : State := { packed 1 .none with now := 4096 }
theorem saving_of {s : State} (h : (s.groups.all fun g => g.2.phase == .resident) = true) : ∀ g ∈ s.groups, ∀ r, g.2.phase ≠ .saving r := by
  intro g hg r hr
  have := List.all_eq_true.mp h g hg
  simp [hr] at this
theorem witness_SaveEventsComplete_preempt (H : Obligations.SaveEventsComplete) : ∃ t, exec (.priorityPreempt 0 2) preemptS = .next t :=
  completes (H.2.1 preemptS 0 2 2 0 1 1 [] [0] (live_of (by decide +kernel)) (by decide +kernel) (by decide +kernel) (by decide +kernel) (by decide +kernel)
    (by decide +kernel) (saving_of (by decide +kernel)) (by decide +kernel) (by decide +kernel) (by decide +kernel) (by decide +kernel)
    ⟨preemptS.group 1, by decide +kernel⟩)
/-- The group stands saved; its image says so. -/
def restS : State :=
  { ((((saveS 0 0 (.saved 2) []).modCore 0 fun k => { k with owners := [] }))) with
    warps := []
    mem := [(0x1000, 1), (0x1001, 0x20), (0x2000, 1), (0x2001, 0x30), (0x3000, 1), (0x3001, 0x40), (0x3008, 0x79), (0x3009, 3), (0x300A, 0x40),
            (0x400004, 2)] }
def readied (s : State) : State := s.modGroup 1 fun x => { x with ready := true, awaits := [] }
def imageIn (s : State) : UX × List Byte × State := unitRead (readied s) (s.partOf 1) (areaVa (readied s) 1) (gSize (s.gridOf 1))
def rxOk : RX → Bool
  | .ok _ => true
  | _ => false
theorem rx_ok {r : RX} (h : rxOk r = true) : ∃ s, r = .ok s := by cases r <;> simp_all [rxOk]
theorem restore_of (H : Obligations.SaveEventsComplete) (s : State) (h : s.mgmt.power = true ∧ s.mgmt.fatal = false)
    (h1 : mget? s.groups 1 = some (s.group 1)) (h2 : becomesReady s 1 (s.group 1) = true) (h3 : (s.part (s.partOf 1)).state = 1)
    (h4 : noneSaving (readied s) (s.group 1).core = true) (h5 : restoreRoom (readied s) (s.group 1) (s.gridOf 1) = true)
    (h8 : (imageIn s).1 = .ok) (h9 : imageOk (imageIn s).2.2 1 (imageIn s).2.1 = true)
    (ha : imageTiles (s.group 1) (imageIn s).2.1 ≤ (freeGeneral (imageIn s).2.2 (s.group 1).core).length)
    (hc : copyRoom (imageIn s).2.2 (s.group 1) (imageIn s).2.1 = true)
    (hb : rxOk (restoreFrom (imageIn s).2.2 1 (imageIn s).2.1) = true) : ∃ t, exec (.groupRestore 1) s = .next t := by
  obtain ⟨s2, hs⟩ := rx_ok hb
  exact completes (H.2.2.1 s _ s2 1 (s.group 1) _ (live_of h) h1 h2 h3 h4 h5 (ux_ok h8) h9 ha hc hs)
theorem witness_SaveEventsComplete_restore (H : Obligations.SaveEventsComplete) : ∃ t, exec (.groupRestore 1) restS = .next t := by
  apply restore_of H restS <;> decide +kernel
/-- Partition 0 suspended or about to be, with its group saved. -/
def suspS (busy : Bool) (op : Nat) : State :=
  (restS.modPart 0 fun p => { p with state := 2 }).modMgmt fun m => { m with suspBusy := busy, suspOp := op, suspPart := 0, suspTo := 3 }
theorem parts_saved (busy : Bool) (op : Nat) : ∀ g ∈ partGroups (suspS busy op) 0, ∃ r, ((suspS busy op).group g).phase = .saved r := by
  have h : partGroups (suspS busy op) 0 = [1] ∧ ((suspS busy op).group 1).phase = .saved 2 := by cases busy <;> exact ⟨rfl, rfl⟩
  intro g hg
  rw [h.1, List.mem_singleton] at hg
  exact ⟨2, hg ▸ h.2⟩
/-- The partition runs; its group is resident, or saved. -/
def runningS : State := restS
theorem witness_SaveEventsComplete_suspend (H : Obligations.SaveEventsComplete) :
    (∃ t, exec (.partsuspSuspend 0 3) E = .next t) ∧ (∃ t, exec (.partsuspSuspend 0 0) runningS = .next t) ∧
    (suspendServe (suspS true 1)).mgmt.suspBusy = false ∧ (∃ t, exec (.partsuspSuspend 0 3) (suspS true 1) = .next t) ∧
    ∃ t, exec (.partsuspResume 0) (suspS true 1) = .next t := by
  have h := fun s h => H.2.2.2.1 s 0 3 h (by decide)
  refine ⟨completes ((h E (by decide +kernel)).1 (by decide +kernel) (by decide +kernel) fun hs => ?_),
    completes ((H.2.2.2.1 runningS 0 0 (by decide +kernel) (by decide)).2.1 (by decide +kernel) (by decide +kernel) fun g hg => ?_),
    ((h (suspS true 1) (by decide +kernel)).2.2.1 (by decide +kernel) (by decide +kernel) (by decide +kernel) (by decide +kernel) (parts_saved true 1)).1,
    completes ((h (suspS true 1) (by decide +kernel)).2.2.2 (by decide +kernel)).1, completes ((h (suspS true 1) (by decide +kernel)).2.2.2 (by decide +kernel)).2⟩
  · obtain ⟨r, hr⟩ := hs 1 (by decide +kernel)
    have : (E.group 1).phase = .resident := by decide +kernel
    simp [this] at hr
  · have e : partGroups runningS 0 = [1] ∧ (runningS.group 1).phase = .saved 2 := by decide +kernel
    rw [e.1, List.mem_singleton] at hg
    exact ⟨2, hg ▸ e.2⟩
/-- Group 1 stands on a core of partition 0, and belongs to partition 1. -/
def guestS : State := (E.modPart 0 fun p => { p with state := 2 }).modGrid 1 fun g => { g with part := 1 }
def noGuest (s : State) : Bool := s.groups.all fun g => g.2.phase == .gone || !(s.part 0).cores.contains g.2.core || s.partOf g.1 == 0
theorem noGuest_of {s : State} (h : noGuest s = true) : ¬ ∃ g ∈ s.groups, g.2.phase ≠ .gone ∧ g.2.core ∈ (s.part 0).cores ∧ s.partOf g.1 ≠ 0 := by
  rintro ⟨g, hg, h1, h2, h3⟩
  have := List.all_eq_true.mp h g hg
  simp [h1, h2, h3] at this
theorem witness_SaveEventsComplete_resume (H : Obligations.SaveEventsComplete) :
    (∃ t, exec (.partsuspResume 0) guestS = .next t) ∧ (∃ t, exec (.partsuspResume 0) (suspS false 0) = .next t) ∧
    (resumeServe (suspS true 2)).mgmt.suspBusy = false := by
  have h := fun s h => H.2.2.2.2 s 0 h (by decide)
  refine ⟨completes ((h guestS (by decide +kernel)).1 (by decide +kernel) (by decide +kernel) ⟨(1, guestS.group 1), ?_⟩),
    completes ((h (suspS false 0) (by decide +kernel)).2.1 (by decide +kernel) (by decide +kernel) (noGuest_of (by decide +kernel))),
    ((h (suspS true 2) (by decide +kernel)).2.2 (by decide +kernel) (by decide +kernel) (by decide +kernel) (noGuest_of (by decide +kernel))).2.1⟩
  decide +kernel

/-- Group 1 is parked under FID 7. -/
def fidS : State := E.modGroup 1 fun g => { g with fids := [(7, .warp 0 true, false)] }
theorem witness_PartitionRegistersComplete_resume (H : Obligations.PartitionRegistersComplete) : ∃ t, exec (.fltrespResume 0 7) fidS = .next t :=
  completes ((H.1 fidS 0 1 7 (fidS.group 1) (live_of (by decide +kernel)) (by decide +kernel) (by decide +kernel)).1 0 true (fidS.warp 0 0) (by decide +kernel)
    (by decide +kernel) (by decide +kernel))
theorem witness_PartitionRegistersComplete_abort (H : Obligations.PartitionRegistersComplete) : ∃ t, exec (.fltrespAbort 0 7) fidS = .next t :=
  completes ((H.1 fidS 0 1 7 (fidS.group 1) (live_of (by decide +kernel)) (by decide +kernel) (by decide +kernel)).2 (fidS.grid 1) (by decide +kernel)
    (by decide +kernel) (by decide +kernel))
/-- A record of group 1 waits, and there is no fault ring. -/
def dropS : State := { fidS with recWaits := [(0, BitVec.ofNat 512 (7 * 2 ^ 288))] }
theorem witness_PartitionRegistersComplete_ack (H : Obligations.PartitionRegistersComplete) :
    (∃ t, exec (.fltack 0 3) (withFlt E) = .next t) ∧ ∃ t, exec (.fltack 0 3) dropS = .next t := by
  constructor
  · exact completes ((H.2.1 (withFlt E) 0 3 (live_of (by decide +kernel))).1 (by decide +kernel) (by decide +kernel))
  · exact completes ((H.2.1 dropS 0 3 (live_of (by decide +kernel))).2 _ 1 (dropS.grid 1) (by decide +kernel) rfl (by decide +kernel)
      (by decide +kernel) (by decide +kernel) (by decide +kernel))
/-- A lease of 30, every ticket of the slices, ring 3. -/
theorem witness_PartitionRegistersComplete_tickets (H : Obligations.PartitionRegistersComplete) :
    (∃ t, exec (.tkcfgWrite 0 30) E = .next t) ∧ (∃ t, exec (.tkcfgWrite 0 10) E = .next t) ∧ (∃ t, exec (.tkstatWrite 0 0) E = .next t) ∧
    (∃ t, exec (.tkquotaWrite 0 0x40) E = .next t) ∧ ∃ t, exec (.lringWrite 0 3 0xFFFF0000000001FF) E = .next t :=
  ⟨completes ((H.2.2.1 E 0 30 (live_of (by decide +kernel))).1 (by decide) (by decide)),
    completes ((H.2.2.1 E 0 10 (live_of (by decide +kernel))).1 (by decide) (by decide)),
    completes (H.2.2.1 E 0 0 (live_of (by decide +kernel))).2.1,
    completes ((H.2.2.1 E 0 0x40 (live_of (by decide +kernel))).2.2.1 (by decide) (by decide) (by decide +kernel)),
    completes ((H.2.2.1 E 0 0xFFFF0000000001FF (live_of (by decide +kernel))).2.2.2 3 (by decide))⟩
/-- A ring of the host at 0x400: four slots of 64 bytes at 0x500. -/
def hostRing (resv head st : Nat) : State := putVa (withRing E 0x400 0x500 2 6 0 0 resv head 0x480) (0x480 + head % 4) 1 st
def chanS (op : Nat) (s : State) : State := s.setChan 0 3 fun x => { x with lo := withOp op 0x400 }
/-- Every write of the host has been performed; one waits. -/
def laterS : State := { (hostRing 1 0 1) with deferred := [(.hostBar2Write 0 0x40 [1], [])] }
theorem host_reserve (H : Obligations.PartitionRegistersComplete) (s : State) (h : s.mgmt.power = true ∧ s.mgmt.fatal = false) (h1 : (s.part 0).state ≠ 0)
    (h2 : exIs (ringReserve (chanS 1 s) 0 ((0x400 : W64).toNat % 2 ^ 48)).1 = true)
    (h3 : (mget {} (s.part 0).chans 3).done = true) : ∃ t, exec (.hrcmdReserve 0 3 0x400) s = .next t :=
  completes ((H.2.2.2.1 s 0 3 0x400 0 (live_of h) (by decide) h1 (by decide) (by decide) h3).1 _ _ _ (ex_ok2 noRing h2))
theorem host_publish (H : Obligations.PartitionRegistersComplete) (s : State) (slot : W64) (h : s.mgmt.power = true ∧ s.mgmt.fatal = false)
    (h1 : (s.part 0).state ≠ 0) (h3 : s.hostBehind 0 = false) (h2 : exIs (ringPublish (chanS 2 s) 0 ((0x400 : W64).toNat % 2 ^ 48) slot.toNat).1 = true)
    (h4 : (mget {} (s.part 0).chans 3).done = true) :
    ∃ t, exec (.hrcmdPublish 0 3 0x400 slot) s = .next t :=
  completes ((H.2.2.2.1 s 0 3 0x400 slot (live_of h) (by decide) h1 (by decide) (by decide) h4).2.1 _ _ h3 (ex_ok (ringHdr 0) h2))
theorem host_take (H : Obligations.PartitionRegistersComplete) (s : State) (d : RingHdr × Nat) (h : s.mgmt.power = true ∧ s.mgmt.fatal = false)
    (h1 : (s.part 0).state ≠ 0) (h2 : exIs (ringOpen (chanS 3 s) 0 ((0x400 : W64).toNat % 2 ^ 48)).1 = true)
    (h3 : (exOk (ringOpen (chanS 3 s) 0 ((0x400 : W64).toNat % 2 ^ 48)).1 d).1.kind = 0)
    (h4 : exIs (ringTake (chanS 3 s) 0 ((0x400 : W64).toNat % 2 ^ 48)).1 = true)
    (h5 : (mget {} (s.part 0).chans 3).done = true) : ∃ t, exec (.hrcmdTake 0 3 0x400) s = .next t :=
  completes ((H.2.2.2.1 s 0 3 0x400 0 (live_of h) (by decide) h1 (by decide) (by decide) h5).2.2.2 _ _ _ _ _ (ex_ok d h2) h3 (ex_ok2 noRing h4))
theorem witness_PartitionRegistersComplete_host (H : Obligations.PartitionRegistersComplete) :
    (∃ t, exec (.hrcmdReserve 0 3 0x400) (hostRing 1 0 0) = .next t) ∧ (∃ t, exec (.hrcmdPublish 0 3 0x400 0) (hostRing 1 0 1) = .next t) ∧
    (∃ t, exec (.hrcmdTake 0 3 0x400) (hostRing 1 0 2) = .next t) ∧ ∃ t, exec (.hrcmdPublish 0 3 0x400 0) laterS = .next t := by
  refine ⟨host_reserve H _ ?_ ?_ ?_ ?_, host_publish H _ 0 ?_ ?_ ?_ ?_ ?_, host_take H _ (ringHdr 0, 0) ?_ ?_ ?_ ?_ ?_ ?_,
    completes ((H.2.2.2.1 laterS 0 3 0x400 0 (live_of ?_) (by decide) ?_ (by decide) (by decide) ?_).2.2.1 ?_)⟩ <;> decide +kernel
/-- The channel has a command that is not done. -/
def busyChan : State := (hostRing 1 0 0).setChan 0 3 fun x => { x with done := false }
theorem witness_PartitionRegistersComplete_second (H : Obligations.PartitionRegistersComplete) : ∃ t, exec (.hrcmdReserve 0 3 0x400) busyChan = .next t :=
  completes (H.2.2.2.2.1 busyChan 0 3 0x400 (live_of (by decide +kernel)) (by decide) (by decide +kernel) (by decide +kernel))
/-- Partition 15 is not there; its frames are free. -/
def absent : State := E.setPart 15 { pcore := 6, pframe := BitVec.ofNat 64 (2 ^ 33 + 1) }
/-- Every grid of partition 0 is done. -/
def doneS : State := E.modGrid 1 fun g => { g with done := true }
theorem witness_PartitionRegistersComplete_control (H : Obligations.PartitionRegistersComplete) :
    (∃ t, exec (.pctlCreate 15) absent = .next t) ∧ (∃ t, exec (.pctlReset 0) doneS = .next t) ∧ (∃ t, exec (.pctlDestroy 0) doneS = .next t) ∧
    (∃ t, exec (.pcoreWrite 15 false 0xF00) absent = .next t) ∧ ∃ t, exec (.registerWrite (0 + 1) 0x20 0xF07) E = .next t := by
  have h := H.2.2.2.2.2.1
  refine ⟨completes ((h absent 15 (live_of ?_) ?_ ?_).1 ?_ ?_ ?_), completes ((h doneS 0 (live_of ?_) ?_ ?_).2.1 ?_ ?_ ?_ ?_).1,
    completes ((h doneS 0 (live_of ?_) ?_ ?_).2.1 ?_ ?_ ?_ ?_).2, completes ((h absent 15 (live_of ?_) ?_ ?_).2.2.1 0xF00 ?_),
    completes ((h E 0 (live_of ?_) ?_ ?_).2.2.2 0xF07 ?_)⟩ <;> decide +kernel
/-- Vector 63 of the management function is pending and masked; the write unmasks it. -/
def pendingS : State := { E with pba := [(0, BitVec.twoPow 64 63)] }
theorem witness_PartitionRegistersComplete_unmask (H : Obligations.PartitionRegistersComplete) :
    ∃ t, exec (.registerWrite 0 (0x100000 + 16 * 63 + 8) 0x12345678) pendingS = .next t :=
  completes (H.2.2.2.2.2.2 pendingS 63 0x12345678 (by decide +kernel) (by decide) (by decide +kernel) (by decide))

/-! Events: the device, the outside and the collective engine. -/

theorem witness_DeviceEventsComplete_resets (H : Obligations.DeviceEventsComplete) :
    (∃ t, exec (.devreset 0x1D5) E = .next t) ∧ (∃ t, exec (.devreset 0xD4) E = .next t) ∧ (∃ t, exec .attctlReport E = .next t) ∧
    (∃ t, exec (.moncfgSnap 255) E = .next t) ∧ (∃ t, exec (.moncfgClr 0) E = .next t) ∧ (∃ t, exec (.alarmlogWrite 0) E = .next t) ∧
    ∃ t, exec (.tamperLevel2 2) E = .next t := by
  have h := H.1 E
  have p : E.mgmt.power = true := by decide +kernel
  exact ⟨completes ((h 0x1D5 p).1 (by decide)), completes ((h 0xD4 p).2.1 (by decide)), completes (h 0 p).2.2.1, completes ((h 0 p).2.2.2.2.2.1 255),
    completes ((h 0 p).2.2.2.2.2.2.1 0), completes (h 0 p).2.2.2.2.2.2.2.1, completes ((h 0 p).2.2.2.2.2.2.2.2.2 2)⟩
/-- The device has halted already. -/
theorem witness_DeviceEventsComplete_tamper (H : Obligations.DeviceEventsComplete) :
    ∃ t, exec (.tamperLevel2 0) (E.modMgmt fun m => { m with fatal := true }) = .next t :=
  completes ((H.1 (E.modMgmt fun m => { m with fatal := true }) 0 (by decide +kernel)).2.2.2.2.2.2.2.2.2 0)
/-- An alarm while one is logged with none, with 255 and with 254 more; the last in a device that has halted. -/
def alarmed (n : Nat) (halted : Bool) : State := E.modMgmt fun m => { m with alarm := BitVec.ofNat 64 (256 * n + 1), fatal := halted }
theorem witness_DeviceEventsComplete_alarm (H : Obligations.DeviceEventsComplete) :
    ∀ s ∈ [E, alarmed 0 false, alarmed 255 false, alarmed 254 true], ∃ t, exec (.tamperAlarm 2) s = .next t := by
  have hp : ∀ s ∈ [E, alarmed 0 false, alarmed 255 false, alarmed 254 true], s.mgmt.power = true := by decide +kernel
  intro s hs
  exact completes ((H.1 s 0 (hp s hs)).2.2.2.2.2.2.2.2.1 2 (by decide))
theorem witness_DeviceEventsComplete_fatal (H : Obligations.DeviceEventsComplete) :
    (∃ t, exec (.fatalDeviceError 1) E = .next t) ∧ (∃ t, exec (.thermalTrip 3) E = .next t) ∧ ∃ t, exec (.linkDown 12) E = .next t :=
  have h := H.2.1 E 1 3 (live_of (by decide +kernel))
  ⟨completes h.1, completes h.2.1, completes h.2.2⟩
theorem witness_DeviceEventsComplete_links (H : Obligations.DeviceEventsComplete) :
    (∃ t, exec (.flitRetry 11) E = .next t) ∧ (∃ t, exec (.bridgeRetry 3) E = .next t) ∧ (∃ t, exec (.linkDown 11) E = .next t) ∧
    ∃ t, exec (.powerThrottle 900 15) E = .next t :=
  have h := H.2.2.1 E 11 3 900 15 (live_of (by decide +kernel))
  ⟨completes h.1, completes h.2.1, completes (h.2.2.1 (by decide) (by decide +kernel) (by decide +kernel)), completes h.2.2.2⟩
/-- The module lost its power, with its key destroyed. -/
def dark : State := E.modMgmt fun m => { m with power := false, keyGone := true }
theorem witness_DeviceEventsComplete_power (H : Obligations.DeviceEventsComplete) :
    (∃ t, exec .bringUp dark = .next t) ∧ (∃ t, exec .bringUp State.reset = .next t) ∧ ∃ t, exec .modulePowerRemoval E = .next t :=
  ⟨completes (H.2.2.2.1 dark (by decide +kernel)), completes (H.2.2.2.1 State.reset (by decide +kernel)), completes (H.2.2.2.2 E)⟩

def dwIs (d : DW) : Bool := match d with | .done _ => true | _ => false
theorem dw_ok {d : DW} (h : dwIs d = true) : ∃ s, d = .done s := by cases d <;> simp_all [dwIs]
theorem host_write (H : Obligations.OutsideAccessesComplete) (s : State) (bs : List Byte) (h : s.mgmt.power = true) (h1 : s.bar2 0 = true)
    (h2 : s.hostBehind 0 = false) (h3 : dwIs (devWrite s 0 5 (0x40 : W64).toNat bs) = true) : ∃ t, exec (.hostBar2Write 0 0x40 bs) s = .next t :=
  have ⟨s1, h4⟩ := dw_ok h3
  completes (H.1 s s1 0 0x40 bs h h1 h2 h4)
theorem host_read (H : Obligations.OutsideAccessesComplete) (s : State) (h : s.mgmt.power = true) (h1 : s.bar2 0 = true) (h2 : s.hostBehind 0 = false)
    (h3 : (unitPieces 0 .r (piecesOf (0x40 : W64).toNat 6) s.bump).1 = .ok)
    (h4 : ((((unitPieces 0 .r (piecesOf (0x40 : W64).toNat 6) s.bump).2.1.flatMap fun p => span p.1 p.2.2).filter fun a => a < memEnd).find?
      ((unitPieces 0 .r (piecesOf (0x40 : W64).toNat 6) s.bump).2.2.acquireTags 96 6 []
        (((unitPieces 0 .r (piecesOf (0x40 : W64).toNat 6) s.bump).2.1.flatMap fun p => span p.1 p.2.2).filter fun a => a < memEnd)).poisoned) = none) :
    ∃ t, exec (.hostBar2Read 0 0x40 6) s = .next t :=
  have h5 : unitPieces 0 .r (piecesOf (0x40 : W64).toNat 6) s.bump = (.ok, (unitPieces 0 .r (piecesOf (0x40 : W64).toNat 6) s.bump).2.1,
      (unitPieces 0 .r (piecesOf (0x40 : W64).toNat 6) s.bump).2.2) := Prod.ext h3 rfl
  completes (H.2.1 s _ 0 6 0x40 _ h h1 h2 h5 h4)
theorem witness_OutsideAccessesComplete_host (H : Obligations.OutsideAccessesComplete) :
    (∃ t, exec (.hostBar2Write 0 0x40 [1, 2, 3]) E = .next t) ∧ ∃ t, exec (.hostBar2Read 0 0x40 6) E = .next t :=
  ⟨host_write H E _ (by decide +kernel) (by decide +kernel) (by decide +kernel) (by decide +kernel),
    host_read H E (by decide +kernel) (by decide +kernel) (by decide +kernel) (by decide +kernel) (by decide +kernel)⟩
def daIs (d : DA) : Bool := match d with | .done _ _ => true | _ => false
theorem da_ok {d : DA} (h : daIs d = true) : ∃ s old, d = .done s old := by cases d <;> simp_all [daIs]
theorem host_cas (H : Obligations.OutsideAccessesComplete) (s : State) (h : s.mgmt.power = true) (h1 : s.bar2 0 = true) (h2 : s.hostBehind 0 = false)
    (h3 : hostAtomOk .cas 0x40 16 = true)
    (h4 : daIs (devAtomic s 0 5 (0x40 : W64).toNat (hostAtomCode .cas) 16 (leBytes 16 (5 : BitVec 128).toNat ++ leBytes 16 (9 : BitVec 128).toNat)) = true) :
    ∃ t, exec (.hostAtomicop 0 0x40 .cas 16 5 9) s = .next t := by
  obtain ⟨s1, old, h5⟩ := da_ok h4
  exact completes ((H.2.2.1 s 0 16 0x40 .cas 5 9 h).2 s1 old h1 h3 h2 (by rw [if_pos rfl]; exact h5))
/-- A compare and swap of 16 bytes; a misaligned add. -/
theorem witness_OutsideAccessesComplete_atomic (H : Obligations.OutsideAccessesComplete) :
    (∃ t, exec (.hostAtomicop 0 0x40 .cas 16 5 9) E = .next t) ∧ ∃ t, exec (.hostAtomicop 0 0x41 .fetchAdd 4 0 7) E = .next t :=
  ⟨host_cas H E (by decide +kernel) (by decide +kernel) (by decide +kernel) (by decide) (by decide +kernel),
    completes ((H.2.2.1 E 0 4 0x41 .fetchAdd 0 7 (by decide +kernel)).1 (.inr (by decide)))⟩
def hostRd : HostRead := { id := 5, part := 0, va := 0, n := 4, since := 10 }
def overdue : State := { E with hostReads := [hostRd], now := 2 ^ 26 + 10 }
theorem witness_OutsideAccessesComplete_timeout (H : Obligations.OutsideAccessesComplete) : ∃ t, exec (.hostReadTimeout 5) overdue = .next t :=
  completes (H.2.2.2.1 overdue 5 hostRd (live_of (by decide +kernel)) (by decide +kernel) (by decide) rfl)
/-- Partition 0 lets device 2 in under tag 0x55. -/
def peerS : State := (E.modMgmt fun m => { m with peerMask := 0xFFF }).modPart 0 fun p => { p with pgrant := BitVec.ofNat 64 (2 ^ 63 + 0x55 * 2 ^ 32 + 4) }
theorem peer_store (H : Obligations.OutsideAccessesComplete) (s : State) (h : s.mgmt.power = true ∧ s.mgmt.fatal = false)
    (h1 : s.mgmt.peerMask.getLsbD 11 = true) (h2 : s.mgmt.peersDown.contains 11 = false) (h3 : tagParts s 0x55 = [0])
    (h4 : (s.part 0).pgrant.getLsbD 2 = true)
    (h5 : dwIs (devWrite s 0 6 (((s.part 0).pvb * 2 ^ 41 + (0x40 : W64).toNat % 2 ^ 41) % 2 ^ 48) [9, 8]) = true) :
    ∃ t, exec (.peerAccess 11 2 0x55 0x40 (.store [9, 8])) s = .next t :=
  have ⟨s1, h6⟩ := dw_ok h5
  completes (H.2.2.2.2.1 s s1 11 2 0 0x55 0x40 _ (live_of h) (by decide) h1 h2 h3 (by decide) h4 h6)
theorem witness_OutsideAccessesComplete_peer (H : Obligations.OutsideAccessesComplete) :
    ∃ t, exec (.peerAccess 11 2 0x55 0x40 (.store [9, 8])) peerS = .next t :=
  peer_store H peerS (by decide +kernel) (by decide +kernel) (by decide +kernel) (by decide +kernel) (by decide +kernel) (by decide +kernel)
theorem witness_OutsideAccessesComplete_drive (H : Obligations.OutsideAccessesComplete) :
    (∃ t, exec (.driveDma 7 true 0x7000 [9, 8]) E = .next t) ∧ (∃ t, exec (.driveDma 7 false 0x7000 [9, 8]) E = .next t) ∧
    ∃ t, exec (.driveDma 7 true 0x400000 [9, 8]) E = .next t :=
  have l := live_of (s := E) (by decide +kernel)
  have h := (H.2.2.2.2.2.1 E 7 0x7000 [9, 8] l (by decide)).1 (by decide +kernel) (by decide +kernel)
  ⟨completes h.1, completes h.2, completes ((H.2.2.2.2.2.1 E 7 0x400000 [9, 8] l (by decide)).2 (by decide +kernel) (by decide +kernel))⟩
/-- A collective of two devices with one F32 element in a chunk, issued by warp 0; its root is device 0. -/
def coll2 (op : Nat) (chunks : List Nat) : Coll :=
  { id := 4, core := 0, agent := .warp 0 0, tok := 2, part := 0,
    desc := BitVec.ofNat 256 (0x40 + 0x80 * 2 ^ 64 + 2 * 2 ^ 128 + op * 2 ^ 176 + 2 * 2 ^ 181), running := true, issued := 1, chunks := chunks }
def collS (op : Nat) (chunks : List Nat) : State :=
  { E with colls := [coll2 op chunks], now := 2 ^ 31 + 1 }.modMgmt fun m => { m with peerMask := 0xFFF, fabroute := 0x10 }
theorem steps_of {chunk op : Nat} (h1 : chunk < collChunks (coll2 op []).desc) (h2 : collDown (collS op []) (coll2 op []) = false)
    (h3 : (2 ≤ cNdev (coll2 op []).desc ∧ cNdev (coll2 op []).desc ≤ 16 ∧ (collS op []).mgmt.fabid.toNat < cNdev (coll2 op []).desc) ∧
      cFmt (coll2 op []).desc ≠ 3 ∧ 0 < collBytes (coll2 op []).desc) : Steps 4 chunk (coll2 op []) (collS op []) where
  live := live_of (by exact ⟨rfl, rfl⟩)
  found := rfl
  running := ⟨rfl, rfl⟩
  fresh := ⟨List.not_mem_nil, h1, rfl⟩
  linked := h2
  ring := h3.1
  bytes := h3.2
def srcOf (op a : Nat) : UX × List Byte × State := unitRead (collS op []) 0 a 4
/-- The state after the chunk's bytes were read. -/
def readS (op chunk a : Nat) : State :=
  (srcOf op a).2.2.modColl 4 fun z => { z with work := mput z.work chunk ((z.at chunk).1 ++ (srcOf op a).2.1, (z.at chunk).2) }
theorem reduced_written (chunk : Nat) (out : List Byte) (hc : chunk = 0 ∨ chunk = 1) (hl : out.length = 4) :
    dwIs (devWrite (readS 0 chunk (0x40 + chunk * 4)) 0 7 (0x80 + chunk * 4) out) = true := by
  match out, hl with
  | [a, b, c, d], _ => rcases hc with rfl | rfl <;> rfl
/-- All-reduce: the chunk of this device and the other's. -/
theorem witness_OutsideAccessesComplete_reduce (H : Obligations.OutsideAccessesComplete) :
    ∀ chunk, chunk = 0 ∨ chunk = 1 → ∃ t, exec (.collStep 4 chunk [[], [0, 0, 0x80, 0x3F]]) (collS 0 []) = .next t := by
  intro chunk hc
  have h := H.2.2.2.2.2.2.1 (collS 0 []) (srcOf 0 (0x40 + chunk * 4)).2.2 4 chunk [[], [0, 0, 0x80, 0x3F]] (coll2 0 []) (srcOf 0 (0x40 + chunk * 4)).2.1
    (steps_of (by rcases hc with rfl | rfl <;> decide +kernel) (by decide +kernel) (by decide +kernel)) (by decide +kernel)
    (by
      have e : (collS 0 []).mgmt.fabid.toNat = 0 ∧ cNdev (coll2 0 []).desc = 2 := by decide +kernel
      intro i hi hm
      have : i = 1 := by rw [e.2] at hi; rw [e.1] at hm; omega
      subst this
      decide +kernel)
    (by rcases hc with rfl | rfl <;> decide +kernel) (by rcases hc with rfl | rfl <;> decide +kernel)
    (by rcases hc with rfl | rfl <;> exact ux_ok (by decide +kernel))
  obtain ⟨out, hl, -, h2⟩ := h.2 fun e => absurd e (by decide +kernel)
  obtain ⟨s2, h3⟩ := dw_ok (reduced_written chunk out hc hl)
  exact completes (h2 s2 h3)
/-- Reduce-scatter: a chunk that another device keeps. -/
theorem witness_OutsideAccessesComplete_scatter (H : Obligations.OutsideAccessesComplete) :
    ∃ t, exec (.collStep 4 1 [[], [0, 0, 0x80, 0x3F]]) (collS 1 []) = .next t :=
  completes ((H.2.2.2.2.2.2.1 (collS 1 []) (srcOf 1 0x44).2.2 4 1 [[], [0, 0, 0x80, 0x3F]] (coll2 1 []) (srcOf 1 0x44).2.1
    (steps_of (by decide +kernel) (by decide +kernel) (by decide +kernel)) (by decide +kernel)
    (by
      have e : (collS 1 []).mgmt.fabid.toNat = 0 ∧ cNdev (coll2 1 []).desc = 2 := by decide +kernel
      intro i hi hm
      have : i = 1 := by rw [e.2] at hi; rw [e.1] at hm; omega
      subst this
      decide +kernel)
    (by decide +kernel) (by decide +kernel) (ux_ok (by decide +kernel))).1 (by decide +kernel) (by decide +kernel))
theorem coll_own (H : Obligations.OutsideAccessesComplete) (op : Nat) (h : Steps 4 0 (coll2 op []) (collS op [])) (h1 : 2 ≤ cOp (coll2 op []).desc)
    (h2 : (if cOp (coll2 op []).desc = 3 then cDst (coll2 op []).desc else cDst (coll2 op []).desc + 0 * collBytes (coll2 op []).desc) % 4096 +
      collBytes (coll2 op []).desc ≤ 4096)
    (h3 : (if cOp (coll2 op []).desc = 3 then cRoot (coll2 op []).desc else 0) < 16)
    (h4 : (if cOp (coll2 op []).desc = 3 then cRoot (coll2 op []).desc else 0) = (collS op []).mgmt.fabid.toNat)
    (h5 : cSrc (coll2 op []).desc % 4096 + collBytes (coll2 op []).desc ≤ 4096)
    (h6 : (unitRead (collS op []) (coll2 op []).part (cSrc (coll2 op []).desc) (collBytes (coll2 op []).desc)).1 = .ok)
    (h7 : dwIs (devWrite ((unitRead (collS op []) (coll2 op []).part (cSrc (coll2 op []).desc) (collBytes (coll2 op []).desc)).2.2.modColl 4 fun z =>
      { z with work := mput z.work 0 ((z.at 0).1 ++
        (unitRead (collS op []) (coll2 op []).part (cSrc (coll2 op []).desc) (collBytes (coll2 op []).desc)).2.1, (z.at 0).2) }) (coll2 op []).part 7
      (if cOp (coll2 op []).desc = 3 then cDst (coll2 op []).desc else cDst (coll2 op []).desc + 0 * collBytes (coll2 op []).desc)
      (unitRead (collS op []) (coll2 op []).part (cSrc (coll2 op []).desc) (collBytes (coll2 op []).desc)).2.1) = true) :
    ∃ t, exec (.collStep 4 0 []) (collS op []) = .next t :=
  have ⟨s2, h8⟩ := dw_ok h7
  completes ((H.2.2.2.2.2.2.2.1 (collS op []) 4 0 [] (coll2 op []) h h1 h2 h3).1 _ s2 _ h4 h5 (ux_ok h6) h8)
theorem coll_other (H : Obligations.OutsideAccessesComplete) (h : Steps 4 1 (coll2 2 []) (collS 2 [])) (h1 : 2 ≤ cOp (coll2 2 []).desc)
    (h2 : (if cOp (coll2 2 []).desc = 3 then cDst (coll2 2 []).desc else cDst (coll2 2 []).desc + 1 * collBytes (coll2 2 []).desc) % 4096 +
      collBytes (coll2 2 []).desc ≤ 4096)
    (h3 : (if cOp (coll2 2 []).desc = 3 then cRoot (coll2 2 []).desc else 1) < 16)
    (h4 : (if cOp (coll2 2 []).desc = 3 then cRoot (coll2 2 []).desc else 1) ≠ (collS 2 []).mgmt.fabid.toNat)
    (h5 : (nth [] [[], [1, 2, 3, (4 : Byte)]] (if cOp (coll2 2 []).desc = 3 then cRoot (coll2 2 []).desc else 1)).length = collBytes (coll2 2 []).desc)
    (h7 : dwIs (devWrite (collS 2 []) (coll2 2 []).part 7
      (if cOp (coll2 2 []).desc = 3 then cDst (coll2 2 []).desc else cDst (coll2 2 []).desc + 1 * collBytes (coll2 2 []).desc)
      (nth [] [[], [1, 2, 3, (4 : Byte)]] (if cOp (coll2 2 []).desc = 3 then cRoot (coll2 2 []).desc else 1))) = true) :
    ∃ t, exec (.collStep 4 1 [[], [1, 2, 3, 4]]) (collS 2 []) = .next t :=
  have ⟨s2, h8⟩ := dw_ok h7
  completes ((H.2.2.2.2.2.2.2.1 (collS 2 []) 4 1 [[], [1, 2, 3, 4]] (coll2 2 []) h h1 h2 h3).2 s2 h4 h5 h8)
/-- All-gather: this device's chunk and the other's; a broadcast from this device. -/
theorem witness_OutsideAccessesComplete_forward (H : Obligations.OutsideAccessesComplete) :
    (∃ t, exec (.collStep 4 0 []) (collS 2 []) = .next t) ∧ (∃ t, exec (.collStep 4 1 [[], [1, 2, 3, 4]]) (collS 2 []) = .next t) ∧
    ∃ t, exec (.collStep 4 0 []) (collS 3 []) = .next t := by
  refine ⟨coll_own H 2 (steps_of ?_ ?_ ?_) ?_ ?_ ?_ ?_ ?_ ?_ ?_, coll_other H (steps_of ?_ ?_ ?_) ?_ ?_ ?_ ?_ ?_ ?_,
    coll_own H 3 (steps_of ?_ ?_ ?_) ?_ ?_ ?_ ?_ ?_ ?_ ?_⟩ <;> decide +kernel
def collDark : State := (collS 2 []).modMgmt fun m => { m with peersDown := [1] }
theorem witness_OutsideAccessesComplete_end (H : Obligations.OutsideAccessesComplete) :
    (∃ t, exec (.collComplete 4 0) (collS 2 [0, 1]) = .next t) ∧ (∃ t, exec (.collTimeout 4) (collS 2 [0]) = .next t) ∧
    ∃ t, exec (.collComplete 4 2) collDark = .next t := by
  have h := H.2.2.2.2.2.2.2.2
  refine ⟨completes ((h (collS 2 [0, 1]) 4 0 0 (coll2 2 [0, 1]) (live_of ?_) ?_ ?_ rfl ?_ rfl).1 rfl ?_ rfl),
    completes ((h (collS 2 [0]) 4 0 0 (coll2 2 [0]) (live_of ?_) ?_ ?_ rfl ?_ rfl).2.1 rfl ?_ ?_),
    completes ((h collDark 4 0 0 (coll2 2 []) (live_of ?_) ?_ ?_ rfl ?_ rfl).2.2 ?_ ?_)⟩ <;> decide +kernel

/-! The whole machine. -/

theorem witness_RoutesAndMonitors_registers (H : Obligations.RoutesAndMonitors) :
    (∃ t, exec (.registerWrite 0 0x20 0xFFF7) E = .next t) ∧ ∃ t, exec (.registerWrite 0 0x28 0x8888888888888888) E = .next t :=
  ⟨completes (H.1 E 0xFFF7 (by decide +kernel)).1, completes (H.1 E 0x8888888888888888 (by decide +kernel)).2⟩
/-- After reset no port is present, so device 15 has no route and its region is not reached. -/
theorem witness_RoutesAndMonitors_far (H : Obligations.RoutesAndMonitors) :
    (15 < 16 ∧ State.reset.route 15 = none) ∧ State.reset.peerFails 0x3E0000000000 = true :=
  ⟨by decide +kernel, H.2.2.2.2.1 State.reset 0x3E0000000000 15 0 (by decide +kernel) (by decide +kernel)⟩
theorem witness_RoutesAndMonitors_bins (H : Obligations.RoutesAndMonitors) :
    mget 0 (({} : Mon).take 0).live 16 = 1 ∧ mget 0 (({} : Mon).take 1).live 16 = 1 ∧ mget 0 (({} : Mon).take 2).live 17 = 1 ∧
    mget 0 (({} : Mon).take 3).live 17 = 1 ∧ mget 0 (({} : Mon).take 4).live 18 = 1 ∧ mget 0 (({} : Mon).take 0x7FFF).live 30 = 1 ∧
    mget 0 (({} : Mon).take 0x8000).live 31 = 1 ∧ mget 0 (({} : Mon).take 0x8000).live 30 = 0 :=
  ⟨(H.2.2.2.2.2.1 {} 0 0 (by decide)).2.2.2.2, (H.2.2.2.2.2.1 {} 1 0 (by decide)).2.2.2.2, (H.2.2.2.2.2.1 {} 2 1 (by decide)).2.2.2.2,
    (H.2.2.2.2.2.1 {} 3 1 (by decide)).2.2.2.2, (H.2.2.2.2.2.1 {} 4 2 (by decide)).2.2.2.2, (H.2.2.2.2.2.1 {} 0x7FFF 14 (by decide)).2.2.2.2,
    (H.2.2.2.2.2.1 {} 0x8000 15 (by decide)).2.2.2.2, (H.2.2.2.2.2.1 {} 0x8000 14 (by decide)).2.2.2.2⟩

/-- IADD at pc 0, and at pc 8. -/
def evenS : State := { State.reset.withFetchWord 64 0x005C140408423001 with cur := .none }
def oddPcS : State := ((placeAgent State.reset false 8 (leBytes 8 0x005C140408423001)).modWarp 0 0 fun w =>
  { w with frontier := [{ pc := 8, mask := BitVec.allOnes 32 }] })
/-- A bundle whose words are all zero. -/
def bundleS : State := State.reset.withFetchWord 384 0
def agendaS : State := { E with agenda := [.alarmlogWrite 0, .bringUp], turn := .none }
def stepX (s : State) : Xl × State := xlate (warpIssues s 0 0) 0 (s.partOf (s.warp 0 0).gid) (eOf s).pc.toNat .x
def xlHas (r : Xl) : Bool := match r with | .ok .. => true | _ => false
def iAdd : Instr := .iadd ⟨false, 7, 0x3001⟩ ⟨5, 1, 2, 0x10, 2⟩
def decIs (r : Decoded) (i : Instr) : Bool := match r with | .ok j => j == i | .error _ => false
theorem dec_ok {r : Decoded} {i : Instr} (h : decIs r i = true) : r = .ok i := by
  cases r with
  | ok j => simp only [decIs, beq_iff_eq] at h; rw [h]
  | error e => cases h
/-- The state is live and nothing is due in it. -/
def calm (s : State) : Bool := s.mgmt.power && !s.mgmt.fatal && landingCore s == none && (startingCopy s).or (endingLease s) == none
theorem undisturbed_of {s : State} (h : calm s = true) : Undisturbed s := by
  simp only [calm, Bool.and_eq_true, beq_iff_eq, Bool.not_eq_true'] at h
  exact ⟨⟨h.1.1.1, h.1.1.2⟩, h.1.2, h.2⟩
theorem step_even (H : Obligations.StepRunsDecoded) (s : State) (h : calm s = true) (h2 : s.turn = .warp 0 0) (h3 : (s.warp 0 0).first = some (eOf s))
    (h4 : xlHas (stepX s).1 = true) (h5 : xlPa (stepX s).1 < memEnd) (h6 : (span (xlPa (stepX s).1 / 16 * 16) 16).any s.poisoned = false)
    (h7 : (eOf s).pc.getLsbD 3 = false)
    (h8 : decIs (decode (s.rd64 (xlPa (stepX s).1)) (if longOpc (s.rd64 (xlPa (stepX s).1)) then s.rd64 (xlPa (stepX s).1 + 8) else 0)) iAdd = true) :
    step s = exec iAdd (stepX s).2 := by
  obtain ⟨tl, h9⟩ := xl_ok (r := (stepX s).1) h4
  exact (H.2.1 s (stepX s).2 0 0 _ _ tl (eOf s) iAdd (undisturbed_of h) h2 h3 h5 h6).1 h7 (pair_of h9) (dec_ok h8)
/-- The translation of the even word before the pc, and that of the pc after it. -/
def evenX (s : State) : Xl × State := xlate (warpIssues s 0 0) 0 (s.partOf (s.warp 0 0).gid) ((eOf s).pc.toNat - 8) .r
def oddX (s : State) : Xl × State := xlate (evenX s).2 0 (s.partOf (s.warp 0 0).gid) (eOf s).pc.toNat .x
theorem step_odd (H : Obligations.StepRunsDecoded) (s : State) (h : calm s = true) (h2 : s.turn = .warp 0 0) (h3 : (s.warp 0 0).first = some (eOf s))
    (h4 : xlHas (evenX s).1 = true) (h5 : xlPa (evenX s).1 < memEnd) (h6 : xlHas (oddX s).1 = true) (h7 : xlPa (oddX s).1 < memEnd)
    (h8 : (span (xlPa (oddX s).1 / 16 * 16) 16).any s.poisoned = false) (h9 : (eOf s).pc.getLsbD 3 = true)
    (ha : longOpc ((evenX s).2.rd64 (xlPa (evenX s).1)) = false) (hb : longOpc (s.rd64 (xlPa (oddX s).1)) = false)
    (hc : decIs (decode (s.rd64 (xlPa (oddX s).1)) 0) iAdd = true) : step s = exec iAdd (oddX s).2 := by
  obtain ⟨t0, hd⟩ := xl_ok (r := (evenX s).1) h4
  obtain ⟨tl, he⟩ := xl_ok (r := (oddX s).1) h6
  exact (H.2.1 s (oddX s).2 0 0 _ _ tl (eOf s) iAdd (undisturbed_of h) h2 h3 h7 h8).2.1 _ _ t0 (evenX s).2 h9 (pair_of hd) h5 ha (pair_of he) hb
    (dec_ok hc)
/-- The pair of a far branch at pc 0, of which the warp stands at the literal. -/
def litS : State := (placeAgent State.reset false 0 ((encode (.braFar h7 ⟨7, 0x3FFFFFF00⟩)).flatMap fun x => leBytes 8 x.toNat)).modWarp 0 0 fun w =>
  { w with frontier := [{ pc := 8, mask := BitVec.allOnes 32 }] }
theorem witness_StepRunsDecoded_warp (H : Obligations.StepRunsDecoded) : step evenS = exec iAdd (stepX evenS).2 ∧ step oddPcS = exec iAdd (oddX oddPcS).2 := by
  constructor
  · apply step_even H evenS <;> decide +kernel
  · apply step_odd H oddPcS <;> decide +kernel
theorem witness_StepRunsDecoded_literal (H : Obligations.StepRunsDecoded) : step litS = exec .branchIntoLiteral (evenX litS).2 := by
  obtain ⟨tl, h⟩ := xl_ok (r := (evenX litS).1) (by decide +kernel)
  exact (H.2.1 litS (evenX litS).2 0 0 _ _ tl (eOf litS) .branchIntoLiteral (undisturbed_of (by decide +kernel)) (by decide +kernel) (by decide +kernel)
    (by decide +kernel) (by decide +kernel)).2.2 (by decide +kernel) (pair_of h) (by decide +kernel)
def bundleOf (r : CtxFetch) : Option (Nat × Nat) := match r with | .bundle x next _ => some (x, next) | _ => none
theorem bundle_ok {r : CtxFetch} {p : Nat × Nat} (h : bundleOf r = some p) : ∃ u, r = .bundle p.1 p.2 u := by
  cases r <;> simp_all [bundleOf]
  subst h
  simp
theorem step_ctx (H : Obligations.StepRunsDecoded) (s : State) (h : calm s = true) (h2 : s.turn = .ctx 0 0) (h3 : (s.ctx 0 0).bound = true)
    (h4 : bundleOf (ctxFetch (ctxIssues s 0 0) 0 0) = some (0, 25)) : ∃ u, step s = exec (.bundle 0 0 0 0 0 0) u := by
  obtain ⟨u, h5⟩ := bundle_ok h4
  have h6 : ∀ i < 6, bundleWord 0 i = 0 := by decide
  have h7 := (H.2.2.1 s u 0 0 0 25 (undisturbed_of h) h2 h3 h5).1 (by decide)
  simp only [h6 0 (by decide), h6 1 (by decide), h6 2 (by decide), h6 3 (by decide), h6 4 (by decide), h6 5 (by decide)] at h7
  exact ⟨_, h7⟩
theorem witness_StepRunsDecoded_bundle (H : Obligations.StepRunsDecoded) : ∃ u, step bundleS = exec (.bundle 0 0 0 0 0 0) u := by
  apply step_ctx H bundleS <;> decide +kernel
/-- A context's HREL of handle 2, a bundle of one operation. -/
def soleS : State := State.reset.withFetchWord 64 0xE91C020000004000
def soleI : Instr := .hrel ⟨false, 7, 0x4000⟩ ⟨0, 2, 0, 0, 0⟩
def bunX (r : CtxFetch) : Nat := match r with | .bundle x _ _ => x | _ => 0
theorem bun_ok {r : CtxFetch} (h : (bundleOf r).isSome = true) : ∃ next u, r = .bundle (bunX r) next u := by
  cases r <;> simp_all [bundleOf, bunX]
theorem sole_ctx (H : Obligations.StepRunsDecoded) (s : State) (i : Instr) (h : calm s = true) (h2 : s.turn = .ctx 0 0) (h3 : (s.ctx 0 0).bound = true)
    (h4 : (bundleOf (ctxFetch (ctxIssues s 0 0) 0 0)).isSome = true) (h5 : soleOp (bunX (ctxFetch (ctxIssues s 0 0) 0 0)) = some i)
    (h6 : ∀ c k, i ≠ .codeFillComplete c k) : ∃ u, step s = exec i u := by
  obtain ⟨next, u, h7⟩ := bun_ok h4
  exact ⟨_, (H.2.2.1 s u 0 0 _ next (undisturbed_of h) h2 h3 h7).2 i h5 h6⟩
theorem witness_StepRunsDecoded_operation (H : Obligations.StepRunsDecoded) : ∃ u, step soleS = exec soleI u := by
  refine sole_ctx H soleS soleI ?_ ?_ ?_ ?_ ?_ (by intros; exact Instr.noConfusion) <;> decide +kernel
theorem witness_StepRunsDecoded_event (H : Obligations.StepRunsDecoded) : ∃ t, step agendaS = exec (.alarmlogWrite 0) t :=
  ⟨_, H.2.2.2 agendaS _ [.bringUp] (undisturbed_of (by decide +kernel)) (by decide +kernel) (by decide +kernel) (by decide +kernel)⟩
/-- The step after reset is bring-up. -/
theorem witness_StepRunsDecoded_reset (H : Obligations.StepRunsDecoded) : ∃ t, step State.reset = exec .bringUp t :=
  ⟨_, H.1 State.reset _ .bringUp rfl⟩

def iLong : Instr := .braFar h7 ⟨7, 0x3FFFFFF00⟩
theorem witness_EncodingRoundTrip (H : Obligations.EncodingRoundTrip) :
    decode 0x005C140408423001 0xFFFFFFFFFFFFFFFF = .ok iAdd ∧ decode ((encode iLong).getD 0 0) ((encode iLong).getD 1 0) = .ok iLong :=
  ⟨H.1 iAdd 0x005C140408423001 (by decide) (by decide) _, (H.2.1 iLong ((encode iLong).getD 0 0) ((encode iLong).getD 1 0) (by decide) (by decide)).1⟩
theorem witness_DecodedWordsEncode (H : Obligations.DecodedWordsEncode) : encode iAdd = [0x005C140408423001] :=
  (H 0x005C140408423001 0 iAdd (dec_ok (i := iAdd) (by decide))).2.trans (by decide)
/-- A warp exits; memory lists the placed page. -/
def exitS : State := State.reset.withFetchWord 64 0xC21C000000000000
theorem exit_inv : exitS.Inv := show Memory.wf exitS.mem = true by decide +kernel
def answers (o : Out3) : Bool := match o with | .next _ => true | _ => false
theorem answers_next {o : Out3} (h : answers o = true) : ∃ t, o = .next t := by cases o <;> simp_all [answers]
theorem witness_InvariantKept (H : Obligations.InvariantKept) : ∃ t, step exitS = .next t ∧ t.Inv :=
  have ⟨t, h⟩ := answers_next (o := step exitS) (by decide +kernel)
  ⟨t, h, H _ t exit_inv h⟩


end Sys2Proof.Tests
end

section
/-! SUPPORT. What the machine holds after reset: the quadwords of the register pages, the owner fields and the tickets, and the
statements of the organisation chapter. -/

namespace Sys2Proof.Machine

/-! ### The tables after reset: they list nothing, so every key reads as its default -/

@[simp] theorem reset_core (c : Nat) : State.reset.core c = {} := rfl
@[simp] theorem reset_ctx (c k : Nat) : State.reset.ctx c k = {} := rfl
@[simp] theorem reset_part (n : Nat) : State.reset.part n = {} := rfl
@[simp] theorem reset_drive (d : Nat) : State.reset.drive d = {} := rfl
@[simp] theorem reset_ticket (k : Nat) : State.reset.ticket k = {} := rfl

@[simp] theorem ticketsHeld_reset (n : Nat) : ticketsHeld State.reset n = 0 := rfl

/-- Before bring-up no drive and no port is present, so DEVSHAPE shows the fixed counts alone (01 R29). -/
@[simp] theorem devshape_reset : devshape State.reset = 0x00000040080C4060#64 := rfl

/-! ### The arrays of a register page: which entry a quadword reads -/

theorem partReg_lring (s : State) (n : Nat) {k : Nat} (h : k < 4) : partReg s n (0xA0 + 8 * k) = mget 0 (s.part n).lring k := by
  interval_cases k <;> rfl

theorem partReg_seal (s : State) (n : Nat) {k : Nat} (h : k < 16) : partReg s n (0x100 + 8 * k) = (s.part n).seal k := by
  interval_cases k <;> rfl

theorem partReg_chan_low (s : State) (n : Nat) {ch : Nat} (h : ch < 4) :
    partReg s n (0x240 + 16 * ch) = (mget {} (s.part n).chans ch).read false := by
  interval_cases ch <;> rfl

theorem partReg_chan_high (s : State) (n : Nat) {ch : Nat} (h : ch < 4) :
    partReg s n (0x248 + 16 * ch) = (mget {} (s.part n).chans ch).read true := by
  interval_cases ch <;> rfl

/-- CFG of a drive's block; bit 62 is the flush that runs (10 R241). -/
theorem mgmtReg_drive_cfg (s : State) {d : Nat} (h : d < 8) : mgmtReg s (0x810 + 0x20 * d) =
    if (s.drive d).flushing then (s.drive d).cfg ||| BitVec.twoPow 64 62 else (s.drive d).cfg := by
  interval_cases d <;> rfl

theorem mgmtReg_pctl (s : State) {n : Nat} (h : n < 16) : mgmtReg s (0x1000 + 0x100 * n) = pctlRead (s.part n) := by
  interval_cases n <;> rfl

theorem mgmtReg_pframe (s : State) {n : Nat} (h : n < 16) : mgmtReg s (0x1018 + 0x100 * n) = (s.part n).pframe := by
  interval_cases n <;> rfl

theorem mgmtReg_pgrant (s : State) {n : Nat} (h : n < 16) : mgmtReg s (0x1020 + 0x100 * n) = (s.part n).pgrant := by
  interval_cases n <;> rfl

theorem mgmtReg_pquota (s : State) {n : Nat} (h : n < 16) :
    mgmtReg s (0x1030 + 0x100 * n) = BitVec.ofNat 64 (s.part n).quota := by
  interval_cases n <;> rfl

theorem mgmtReg_mon_cfg (s : State) {m : Nat} (h : m < 64) : mgmtReg s (0x4000 + 0x100 * m) = (mget {} s.mons m).cfg := by
  interval_cases m <;> rfl

/-! ### The quadwords after reset -/

/-- A launch ring's quadword is zero (12 R273). -/
theorem partReg_lring_reset (n : Nat) {k : Nat} (h : k < 4) : partReg State.reset n (0xA0 + 8 * k) = 0 := by
  rw [partReg_lring _ _ h, reset_part]; rfl

/-- A seal register is zero: no range is sealed (07 R172). -/
theorem partReg_seal_reset (n : Nat) {k : Nat} (h : k < 16) : partReg State.reset n (0x100 + 8 * k) = 0 := by
  rw [partReg_seal _ _ h, reset_part]; rfl

/-- The low quadword of an idle channel is DONE alone. -/
theorem chan_read_idle : ({} : Chan).read false = BitVec.twoPow 64 63 := by decide

/-- A command channel is idle: DONE stands, its status and its slot are zero (12 R274). -/
theorem partReg_chan_reset (n : Nat) {ch : Nat} (h : ch < 4) :
    partReg State.reset n (0x240 + 16 * ch) = BitVec.twoPow 64 63 ∧ partReg State.reset n (0x248 + 16 * ch) = 0 := by
  rw [partReg_chan_low _ _ h, partReg_chan_high _ _ h, reset_part]
  exact ⟨chan_read_idle, rfl⟩

/-- The quadwords of a register page that hold no array and whose table gives zero: PTROOT, TLBINV, TRAPH, TKSTAT, PAGERCFG, BOUNCE,
INTCFG. -/
theorem partReg_single_reset (n : Nat) :
    ∀ ofs ∈ [0x10, 0x18, 0x20, 0x58, 0x60, 0x88, 0x90], partReg State.reset n ofs = 0 := by
  simp [partReg]

/-- TKCFG holds lease 20, TKQUOTA 64 entries, PARTID the partition's number (08 R192; 12 R272). -/
theorem partReg_nonzero_reset (n : Nat) : partReg State.reset n 0x48 = 20 ∧ partReg State.reset n 0x50 = 64 ∧
    partReg State.reset n 0x08 = BitVec.ofNat 64 n := ⟨rfl, rfl, rfl⟩

theorem partReg_zero_reset (n ofs : Nat)
    (h : ofs ∈ [0x10, 0x18, 0x20, 0x58, 0x60, 0x88, 0x90, 0xA0, 0xA8, 0xB0, 0xB8, 0x100, 0x138, 0x178]) :
    partReg State.reset n ofs = 0 := by
  rcases List.mem_append (s := [0x10, 0x18, 0x20, 0x58, 0x60, 0x88, 0x90]).mp h with h | h
  · exact partReg_single_reset n ofs h
  · simp only [List.mem_cons, List.not_mem_nil, or_false] at h
    have ring := @partReg_lring_reset n
    have sealed := @partReg_seal_reset n
    rcases h with rfl | rfl | rfl | rfl | rfl | rfl | rfl
    · exact ring (k := 0) (by decide)
    · exact ring (k := 1) (by decide)
    · exact ring (k := 2) (by decide)
    · exact ring (k := 3) (by decide)
    · exact sealed (k := 0) (by decide)
    · exact sealed (k := 7) (by decide)
    · exact sealed (k := 15) (by decide)

/-- PCTL of a partition that is absent, with no operation running or done, reads zero. -/
theorem pctlRead_absent : pctlRead {} = 0 := by decide

/-- A partition's block of the management page: absent and not busy, no frames, no grants, a ticket quota of 64 (12 R277). -/
theorem mgmtReg_partition_reset {n : Nat} (h : n < 16) :
    mgmtReg State.reset (0x1000 + 0x100 * n) = 0 ∧ mgmtReg State.reset (0x1018 + 0x100 * n) = 0 ∧
      mgmtReg State.reset (0x1020 + 0x100 * n) = 0 ∧ mgmtReg State.reset (0x1030 + 0x100 * n) = 64 := by
  rw [mgmtReg_pctl _ h, mgmtReg_pframe _ h, mgmtReg_pgrant _ h, mgmtReg_pquota _ h, reset_part]
  exact ⟨pctlRead_absent, rfl, rfl, rfl⟩

theorem mgmtReg_drive_cfg_reset {d : Nat} (h : d < 8) : mgmtReg State.reset (0x810 + 0x20 * d) = 0 := by
  rw [mgmtReg_drive_cfg _ h, reset_drive]; rfl

theorem mgmtReg_mon_cfg_reset {m : Nat} (h : m < 64) : mgmtReg State.reset (0x4000 + 0x100 * m) = 0 := by
  rw [mgmtReg_mon_cfg _ h]; rfl

/-- The device's own quadwords whose table gives zero: DEVSTAT, PARTSUSP, FABID, FABROUTE, ALARMLOG. -/
theorem mgmtReg_device_reset : ∀ ofs ∈ [0x08, 0x18, 0x20, 0x28, 0x40], mgmtReg State.reset ofs = 0 := by
  simp only [List.forall_mem_cons]
  exact ⟨rfl, rfl, rfl, rfl, rfl, List.forall_mem_nil _⟩

theorem mgmtReg_zero_reset (ofs : Nat)
    (h : ofs ∈ [0x08, 0x18, 0x20, 0x28, 0x40, 0x810, 0x1000, 0x1018, 0x1020, 0x1F00, 0x4000]) :
    mgmtReg State.reset ofs = 0 := by
  rcases List.mem_append (s := [0x08, 0x18, 0x20, 0x28, 0x40]).mp h with h | h
  · exact mgmtReg_device_reset ofs h
  · simp only [List.mem_cons, List.not_mem_nil, or_false] at h
    obtain ⟨pctl, pframe, pgrant, _⟩ := mgmtReg_partition_reset (n := 0) (by decide)
    rcases h with rfl | rfl | rfl | rfl | rfl | rfl
    · exact mgmtReg_drive_cfg_reset (d := 0) (by decide)
    · exact pctl
    · exact pframe
    · exact pgrant
    · exact (mgmtReg_partition_reset (n := 15) (by decide)).1
    · exact mgmtReg_mon_cfg_reset (m := 0) (by decide)

/-! ### Tiles after reset -/

/-- Where no result is in flight, no operation outstanding and no snapshot kept, no tile has a pending write (04 R86). -/
theorem pendTo_eq_zero {s : State} {c : Nat} (tile : Nat) (hp : (s.core c).pend = []) (hv : (s.core c).vars = [])
    (hs : ∀ k, k < 4 → (s.ctx c k).snapshot = []) : s.pendTo c tile = 0 := by
  simp [State.pendTo, hp, hv, List.range_succ, hs, sumOf]

/-- An owner field that no trade has touched: FREE, no owner and no destination, outside every allotment (04 R84). -/
theorem word_default : ({} : Owner).word 0 = 0x1FFF8000#32 := rfl

theorem ownerWord_reset (c tile : Nat) :
    ((State.reset.core c).owner tile).word (State.reset.pendTo c tile) = 0x1FFF8000#32 := by
  have idle : State.reset.pendTo c tile = 0 := pendTo_eq_zero tile (by simp) (by simp) (by simp)
  rw [idle, reset_core]
  exact word_default

end Sys2Proof.Machine

namespace Sys2Proof.Claims

open Sys2Proof.Machine

/-- Settles O53: every table is empty after reset, so each quadword reads its table's default. -/
theorem resetValues : Obligations.ResetValues := by
  unfold Obligations.ResetValues
  obtain ⟨-, -, -, quota⟩ := mgmtReg_partition_reset (n := 0) (by decide)
  refine ⟨partReg_zero_reset, fun n => ?_, mgmtReg_zero_reset, devshape_reset, rfl, quota, ownerWord_reset, fun k => by simp,
    fun n => by simp, rfl, rfl, rfl, rfl, rfl⟩
  obtain ⟨tkcfg, tkquota, partid⟩ := partReg_nonzero_reset n
  exact ⟨tkcfg, tkquota, partid, fun _ => partReg_chan_reset n⟩

/-- Settles O55: device memory lists no byte after reset, and the empty list is in the canonical form (log 11). -/
theorem invariantAtReset : Obligations.InvariantAtReset := wf_reset

end Sys2Proof.Claims
end

section
/-! SUPPORT. A result of a special register that the model keeps in no field of its own, against the law of the events that land results. -/

namespace Sys2Proof.Machine

/-- Two results of one operation: of TRAPINFO, and of a special register that the model keeps in no field of its own. -/
def clashingWrites : List Write := [.sr 0x21 [(0, 1)], .sr 5 [(0, 2)]]

/-- The operation of warp 0 of core 0 that holds them. -/
def clashingOp : VarOp :=
  { id := 1, agent := .warp 0 0, tok := 0, issued := 0, seq := 0, regs := [], tiles := [], clash := [], body := .results clashingWrites,
    load := false }

/-- A machine after reset in which that operation is outstanding. -/
def clashingState : State :=
  { State.reset with warps := [(0, {})], cores := [(0, { ({} : Core) with vars := [clashingOp] })] }

/-- Every special register but TRAPCODE and TRAPPC lands in TRAPINFO, so the second result overwrites the first. -/
theorem clashingState_trapinfo :
    exec (.variableResultDone 0 1) clashingState = .next (varDone clashingState 0 1).useFree ∧
      mget 0 ((varDone clashingState 0 1).useFree.warp 0 0).trapinfo 0 = 2 :=
  ⟨rfl, by decide +kernel⟩

end Sys2Proof.Machine

namespace Sys2Proof.Claims
open Sys2Proof.Machine

/-- Refutes O42: results of `sr 0x21` (TRAPINFO) and of `sr 5` have different destinations, yet `State.land` writes both into TRAPINFO, where
the second overwrites lane 0 of the first. -/
theorem not_resultEventsComplete : ¬ Obligations.ResultEventsComplete := by
  unfold Obligations.ResultEventsComplete
  rintro ⟨-, finished, -⟩
  obtain ⟨ran, overwritten⟩ := clashingState_trapinfo
  obtain ⟨t, done, lands, -⟩ := finished clashingState 0 1 clashingOp clashingWrites ⟨rfl, rfl⟩ rfl rfl (by decide) rfl rfl (by decide)
    (by rintro w hw t l rfl; simp [clashingWrites] at hw) (by rintro w hw t r vals rfl; simp [clashingWrites] at hw)
  obtain rfl : (varDone clashingState 0 1).useFree = t := by rw [ran] at done; injection done
  have trapinfo := (lands (.sr 0x21 [(0, 1)]) (by decide) 0 0 rfl rfl).2 rfl (by decide) (0, 1) (by decide)
  rw [overwritten] at trapinfo
  exact absurd trapinfo (by decide)

end Sys2Proof.Claims
end

section
/-! SUPPORT. General tiles and their owner fields: what GROW, its grant, SHRINK and TSTAT do to them. -/

namespace Sys2Proof.Machine

/-! ### What a warp and its core's tiles are after a change of something else -/

/-- The pending writes of a tile rest on the results in flight, the operations and the snapshots alone (04 R86). -/
theorem State.pendTo_congr {s t : State} {c : Nat} (hp : (t.core c).pend = (s.core c).pend) (hv : (t.core c).vars = (s.core c).vars)
    (hk : t.ctxs = s.ctxs) (tile : Nat) : t.pendTo c tile = s.pendTo c tile := by
  have hctx : ∀ k, t.ctx c k = s.ctx c k := fun k => by rw [State.ctx, hk]; rfl
  simp only [State.pendTo, hp, hv, hctx]

theorem freeGeneral_congr {s t : State} {c : Nat} (hp : (t.core c).pend = (s.core c).pend) (hv : (t.core c).vars = (s.core c).vars)
    (hk : t.ctxs = s.ctxs) (ho : (t.core c).owners = (s.core c).owners) : freeGeneral t c = freeGeneral s c := by
  simp only [freeGeneral, Core.owner, ho, State.pendTo_congr hp hv hk]

/-- How a warp's entries advance rests on its frontier and its handler mode alone. -/
theorem Warp.advance_frontier_congr {x y : Warp} (hf : x.frontier = y.frontier) (hm : x.hmode = y.hmode) (hh : x.held = y.held)
    (long : Bool) : (x.advance long).frontier = (y.advance long).frontier := by
  have eligible : x.eligible = y.eligible := by funext e; simp only [Warp.eligible, hm, hh]
  have first : x.first = y.first := by simp only [Warp.first, hf, eligible]
  unfold Warp.advance
  simp only [Warp.replaceFirst, first]
  cases y.first with
  | none => exact hf
  | some e => simp only [hf, eligible]

@[simp] theorem Warp.advance_allot (x : Warp) (long : Bool) : (x.advance long).allot = x.allot := by
  unfold Warp.advance; split <;> rfl

@[simp] theorem Core.owner_setOwner (k : Core) (t : Nat) (o : Owner) : (k.setOwner t o).owner t = o := mget_set_same ..
theorem Core.owner_setOwner_ne (k : Core) {t x : Nat} (o : Owner) (h : t ≠ x) : (k.setOwner t o).owner x = k.owner x :=
  mget_set_ne _ _ _ h

/-! ### An issue that waits at its instruction -/

/-- The end of an issue that blocks: the pc stays, the control field acts, and only the agenda and the model's counter differ besides. -/
theorem finishIssue_hold {c w : Nat} {h : Hdr} {long : Bool} {s : State} {x : Warp} (hw : s.warp? c w = some x) :
    { finishIssue c w h long .hold s with agenda := s.agenda, freeCtr := s.freeCtr } = s.setWarp c w (x.applyCtl h s.now) ∧
    ∀ i ∈ s.agenda, i ∈ (finishIssue c w h long .hold s).agenda := by
  have moved : s.modWarp c w (fun y => y.applyCtl h s.now) = s.setWarp c w (x.applyCtl h s.now) := State.modWarp_some hw _
  have ends : finishIssue c w h long .hold s = ((s.setWarp c w (x.applyCtl h s.now)).afterMove c w).useFree := by
    simp only [finishIssue, moved]
  rw [ends]
  simp only [State.afterMove, State.warp?_setWarp]
  split
  · exact ⟨rfl, fun i hi => by simp [hi]⟩
  · exact ⟨rfl, fun i hi => hi⟩

/-! ### Tiles of an allotment (02 R48) -/

/-- A tile of a warp's allotment, cleared. -/
def Allotted (c w gid x : Nat) (s : State) : Prop :=
  (s.core c).owner x = { st := .warp, owner := w, allot := true, gid := gid } ∧
  ∀ row lane, row < 32 → lane < 32 → (s.core c).tileWord x row lane = 0

/-- A table restricted to the keys that pass a test. -/
theorem mget_filter_key {α : Type} (d : α) (p : Nat → Bool) (m : List (Nat × α)) (n : Nat) :
    mget d (m.filter fun kv => p kv.1) n = if p n then mget d m n else d := by
  induction m with
  | nil => simp [mget]
  | cons a t ih =>
    obtain ⟨k, v⟩ := a
    by_cases hk : k = n
    · subst hk
      cases hp : p k <;> simp [hp, mget, ih]
    · cases hp : p k <;> simp [hp, mget, hk, ih]

theorem Core.tileWord_clearTile (k : Core) {t x row lane : Nat} (hr : row < 32) (hl : lane < 32) :
    (k.clearTile t).tileWord x row lane = if x = t then 0 else k.tileWord x row lane := by
  have place : tileKey x row lane / 1024 = x := by unfold tileKey; omega
  unfold Core.tileWord Core.clearTile
  rw [mget_filter_key 0 (fun n => n / 1024 != t), place]
  by_cases h : x = t <;> simp [h]

/-- A tile joins an allotment cleared, and one that has joined it before stays as it was. -/
theorem Allotted.allotTile {c w gid t x : Nat} {s : State} (h : x = t ∨ Allotted c w gid x s) :
    Allotted c w gid x (allotTile c w gid s t) := by
  have core : (Machine.allotTile c w gid s t).core c =
      ((s.core c).clearTile t).setOwner t { st := .warp, owner := w, allot := true, gid := gid } := State.core_modCore ..
  unfold Allotted
  rw [core]
  refine ⟨?_, fun row lane hr hl => ?_⟩
  · by_cases ht : t = x
    · subst ht; simp
    · rw [Core.owner_setOwner_ne _ _ ht]
      exact (h.resolve_left (Ne.symm ht)).1
  · have word := Core.tileWord_clearTile (s.core c) (t := t) (x := x) hr hl
    refine Eq.trans word ?_
    by_cases ht : x = t
    · simp [ht]
    · simp [ht, (h.resolve_left ht).2 row lane hr hl]

theorem Allotted.foldl {c w gid x : Nat} (ts : List Nat) {s : State} (h : x ∈ ts ∨ Allotted c w gid x s) :
    Allotted c w gid x (ts.foldl (Machine.allotTile c w gid) s) := by
  induction ts generalizing s with
  | nil => simpa using h
  | cons t ts ih =>
    refine ih ?_
    rcases h with h | h
    · rcases List.mem_cons.1 h with h | h
      · exact .inr (.allotTile (.inl h))
      · exact .inl h
    · exact .inr (.allotTile (.inr h))

/-- Tiles that join an allotment leave the warps, the memory and the core's queue as they were. -/
theorem foldl_allotTile_frame (c w gid : Nat) (ts : List Nat) (s : State) :
    let t := ts.foldl (allotTile c w gid) s
    t.warps = s.warps ∧ t.mem = s.mem ∧ t.now = s.now ∧ (t.core c).queue = (s.core c).queue := by
  induction ts generalizing s with
  | nil => simp
  | cons x ts ih =>
    obtain ⟨warps, mem, now, queue⟩ := ih (allotTile c w gid s x)
    refine ⟨warps.trans rfl, mem.trans rfl, now.trans rfl, queue.trans ?_⟩
    simp [allotTile, Core.setOwner, Core.clearTile, State.cleanTile, State.delPoison, State.core]

theorem onceAny_acts {body : View → State → Res} {v : View} {s : State} (h : v.act ≠ 0) : onceAny body v s = body v s := by
  rw [onceAny, if_neg (by simpa using h)]

theorem growBody_within {n : Nat} {v : View} {s : State} (ha : v.act ≠ 0) (hm : n ≤ (s.gridOf v.gid).tileMax)
    (hn : n ≤ v.wp.allot.length) : growBody n v s = .ok s .next := by
  rw [growBody, onceAny_acts ha, if_neg (Nat.not_lt.2 hm), if_pos hn]

theorem State.warp?_modWarp (s : State) (c w : Nat) (f : Warp → Warp) : (s.modWarp c w f).warp? c w = (s.warp? c w).map f := by
  cases h : s.warp? c w with
  | none => simp [State.modWarp, h]
  | some x => rw [State.modWarp_some h, State.warp?_setWarp, Option.map_some]

/-- The state in which a warp has joined its core's queue for tiles and waits (02 R48). -/
def asking (n : Nat) (v : View) (s : State) : State :=
  (blockOn v (.grow n) (s.modCore v.c fun k => { k with queue := k.queue ++ [(v.me, n)] })).push (.growGrant v.c)

theorem growBody_waits {n : Nat} {v : View} {s : State} (ha : v.act ≠ 0) (hm : n ≤ (s.gridOf v.gid).tileMax)
    (hn : v.wp.allot.length < n) : growBody n v s = .ok (asking n v s) .hold := by
  rw [growBody, onceAny_acts ha, if_neg (Nat.not_lt.2 hm), if_neg (Nat.not_le.2 hn)]
  rfl

theorem asking_warp? {n : Nat} {v : View} {s : State} {x : Warp} (h : s.warp? v.c v.w = some x) :
    (asking n v s).warp? v.c v.w = some { x with wait := .grow n, since := s.now } := by
  simp [asking, blockOn, State.warp?_modWarp, h]

@[simp] theorem asking_core (n : Nat) (v : View) (s : State) :
    (asking n v s).core v.c = { s.core v.c with queue := (s.core v.c).queue ++ [(v.me, n)] } := by
  simp [asking, blockOn]

/-- What a request for tiles leaves as it was. -/
theorem asking_frame (n : Nat) (v : View) (s : State) : (asking n v s).ctxs = s.ctxs ∧ (asking n v s).mem = s.mem ∧
    (asking n v s).mgmt = s.mgmt ∧ (asking n v s).now = s.now ∧ .growGrant v.c ∈ (asking n v s).agenda := by
  simp [asking, blockOn]

/-- A warp that has waited goes on past its instruction. -/
theorem State.unblock_warp {s : State} {c w : Nat} {x : Warp} (h : s.warp? c w = some x) :
    ((s.unblock c w).warp c w).allot = x.allot ∧ ((s.unblock c w).warp c w).wait = .none ∧
    ((s.unblock c w).warp c w).frontier = (x.advance false).frontier := by
  rw [State.unblock, State.modWarp_some h, State.warp_setWarp]
  exact ⟨Warp.advance_allot .., rfl, rfl⟩
@[simp] theorem State.unblock_mem (s : State) (c w : Nat) : (s.unblock c w).mem = s.mem := State.modWarp_mem ..
@[simp] theorem State.core_unblock (s : State) (c w d : Nat) : (s.unblock c w).core d = s.core d := State.core_modWarp ..

/-- What a warp has after its GROW has been granted. -/
structure Grown (c w : Nat) (x : Warp) (ts : List Nat) (s t : State) : Prop where
  allot : (t.warp c w).allot = x.allot ++ ts
  wait : (t.warp c w).wait = .none
  frontier : (t.warp c w).frontier = (x.advance false).frontier
  queue : (t.core c).queue = []
  mem : t.mem = s.mem
  tiles : ∀ y ∈ ts, Allotted c w x.gid y t

/-- GROW_GRANT serves the only request of the queue when enough general tiles are free (R48). -/
theorem growGrant_serves {s : State} {c w n : Nat} {x : Warp} (hq : (s.core c).queue = [(.warp c w, n + 1)]) (hw : s.warp? c w = some x)
    (hf : n + 1 - x.allot.length ≤ (freeGeneral s c).length) :
    Grown c w x ((freeGeneral s c).take (n + 1 - x.allot.length)) s (growGrant s c) := by
  generalize hts : (freeGeneral s c).take (n + 1 - x.allot.length) = ts
  obtain ⟨warps, mem, -, queue⟩ := foldl_allotTile_frame c w x.gid ts (s.modCore c fun k => { k with queue := [] })
  have tiles : ∀ y ∈ ts, Allotted c w x.gid y (ts.foldl (allotTile c w x.gid) (s.modCore c fun k => { k with queue := [] })) :=
    fun y hy => .foldl ts (.inl hy)
  generalize hu : ts.foldl (allotTile c w x.gid) (s.modCore c fun k => { k with queue := [] }) = u at *
  have granted : growGrant s c =
      (((u.modWarp c w fun y => { y with allot := y.allot ++ ts }).unblock c w).push (.growGrant c)).push (.takeNewGrant c) := by
    simp only [growGrant, hq, hw, if_neg (Nat.not_lt.2 hf), hts, hu]
  have warp : u.warp? c w = some x := by rw [State.warp?, warps]; exact hw
  have joined : (u.modWarp c w fun y => { y with allot := y.allot ++ ts }).warp? c w = some { x with allot := x.allot ++ ts } := by
    rw [State.warp?_modWarp, warp, Option.map_some]
  obtain ⟨allot, wait, frontier⟩ := State.unblock_warp joined
  rw [granted]
  refine ⟨allot, wait, frontier.trans ?_, ?_, ?_, ?_⟩
  · apply Warp.advance_frontier_congr <;> rfl
  · simpa using queue
  · simpa using mem
  · simpa [Allotted] using tiles

/-! ### SHRINK (18 R431) -/

theorem mput_mput {α : Type} (m : List (Nat × α)) (n : Nat) (x y : α) : mput (mput m n x) n y = mput m n y := by
  induction m with
  | nil => simp [mput]
  | cons a t ih =>
    obtain ⟨k, v⟩ := a
    by_cases hk : k = n
    · simp [mput, hk]
    · by_cases hlt : n < k
      · simp [mput, hk, hlt]
      · simp [mput, hk, hlt, ih]

/-- Tiles without pending writes become FREE at once, and nothing but their owner fields differs. -/
theorem foldl_freeTile {c : Nat} (ts : List Nat) {s : State} (hp : ∀ t ∈ ts, s.pendTo c t = 0) :
    let r := ts.foldl (fun s t => s.freeTile c t) s
    (∀ x, x ∈ ts ∨ (s.core c).owner x = {} → (r.core c).owner x = {}) ∧ { r.core c with owners := (s.core c).owners } = s.core c ∧
    (∀ k, k ≠ c → r.core k = s.core k) ∧ { r with cores := s.cores } = s := by
  induction ts generalizing s with
  | nil => simp
  | cons t ts ih =>
    have free : s.freeTile c t = s.modCore c fun k => k.setOwner t {} := if_pos (hp t List.mem_cons_self)
    have pend : ∀ x, (s.freeTile c t).pendTo c x = s.pendTo c x := by
      rw [free]
      exact State.pendTo_congr (by simp [Core.setOwner]) (by simp [Core.setOwner]) rfl
    obtain ⟨owner, core, others, rest⟩ := ih (s := s.freeTile c t) fun x hx => (pend x).trans (hp x (List.mem_cons_of_mem _ hx))
    rw [List.foldl_cons]
    generalize ts.foldl (fun s t => s.freeTile c t) (s.freeTile c t) = r at *
    rw [free] at owner core others rest
    refine ⟨fun x hx => owner x ?_, ?_, fun k hk => ?_, ?_⟩
    · by_cases ht : t = x
      · exact .inr (by simp [ht])
      · rw [State.core_modCore, Core.owner_setOwner_ne _ _ ht]
        simpa [Ne.symm ht] using hx
    · rw [State.core_modCore] at core
      exact congrArg (fun k : Core => { k with owners := (s.core c).owners }) core
    · rw [others k hk, State.core_modCore_ne _ _ (Ne.symm hk)]
    · exact congrArg (fun u : State => { u with cores := s.cores }) rest

theorem shrinkBody_within {n : Nat} {v : View} {s : State} (ha : v.act ≠ 0) (hm : (s.gridOf v.gid).tileInit ≤ n)
    (hn : v.wp.allot.length ≤ n) : shrinkBody n v s = .ok s .next := by
  rw [shrinkBody, onceAny_acts ha, if_neg (Nat.not_lt.2 hm), if_pos hn]

/-- The state in which a warp has given up the tiles above a count. -/
def shrunk (n : Nat) (v : View) (s : State) : State :=
  (((v.wp.allot.drop n).foldl (fun s t => s.freeTile v.c t) (s.modWarp v.c v.w fun x => { x with allot := x.allot.take n })).push
    (.growGrant v.c)).push (.takeNewGrant v.c)

theorem shrinkBody_frees {n : Nat} {v : View} {s : State} (ha : v.act ≠ 0) (hm : (s.gridOf v.gid).tileInit ≤ n)
    (hn : n < v.wp.allot.length) : shrinkBody n v s = .ok (shrunk n v s) .next := by
  rw [shrinkBody, onceAny_acts ha, if_neg (Nat.not_lt.2 hm), if_neg (Nat.not_le.2 hn)]
  rfl

/-- An operation of warps and contexts that a warp issues. -/
theorem runEither_issues {i : Instr} {h : Hdr} {c w : Nat} {wp : Warp} {e : Entry} {s : State} (hi : Issues i h c w wp e s)
    (body : View → State → Res) :
    runEither h i body s =
      .next (endIssue c w h i.long (helperOnly (seen h c w wp e s) (begun c w wp s) (body (seen h c w wp e s) (begun c w wp s)))) := by
  rw [runEither, hi.cur]
  exact runWarp_issues hi body

/-- TSTAT reads the owner field, and HELD for a tile of another group (18 R441). -/
theorem tstatWord_eq (s : State) (c gid t : Nat) : tstatWord s c gid t =
    if ((s.core c).owner t).st ≠ .free ∧ ((s.core c).owner t).gid ≠ gid then 0x9FFF8000#32
    else ((s.core c).owner t).word (s.pendTo c t) := by
  simp [tstatWord]

theorem tstatBody_reads {f : Trade} {v : View} {s : State} (ha : v.act ≠ 0) (hlo : 256 ≤ tradeNum s v f) (hhi : tradeNum s v f ≤ 767) :
    tstatBody f v s = .ok (s.laterAll v.me (s.now + 4) [.g f.d.toNat (tstatWord s v.c v.gid (tradeNum s v f))]) .next := by
  have acc : accNum (tradeNum s v f) = true := by simp [accNum, hlo, hhi]
  simp only [tstatBody, onceAny_acts ha, acc, Bool.not_true, Bool.false_eq_true, if_false]
  rfl

end Sys2Proof.Machine

namespace Sys2Proof.Claims
open Sys2Proof.Machine

section
variable {s : State} {h : Hdr} {c w : Nat} {wp : Warp} {e : Entry}

/-- An issue that changes nothing but its warp's entry. -/
theorem redirects_next (i : Instr) : Redirects h c w (({ wp with young := false } : Warp).advance i.long) s
    (finishIssue c w h i.long .next (begun c w wp s)) := by
  obtain ⟨warps, rest⟩ := finishIssue_next (h := h) (long := i.long) (t := begun c w wp s) (s := s) rfl rfl
  exact ⟨warps, rest⟩

/-- GROW within the allotment only goes on. -/
theorem grow_within {f : SysF} (hi : Issues (.grow h f) h c w wp e s)
    (ha : (seen h c w wp e s).act ≠ 0) (hm : f.imm.toNat ≤ (s.gridOf wp.gid).tileMax) (hn : f.imm.toNat ≤ wp.allot.length) :
    Answers (exec (.grow h f) s) (Redirects h c w ({ wp with young := false }.advance false) s) := by
  have issue : exec (.grow h f) s = _ := runWarp_issues hi (growBody f.imm.toNat)
  rw [growBody_within (s := begun c w wp s) ha hm hn, helperOnly_ok] at issue
  exact ⟨_, issue, redirects_next (.grow h f)⟩

/-- A warp that has asked for `n` tiles at an empty queue. -/
structure Asked (h : Hdr) (c w n : Nat) (wp : Warp) (s t : State) : Prop where
  warp : t.warp? c w = some (({ wp with young := false, wait := .grow n, since := s.now } : Warp).applyCtl h s.now)
  core : t.core c = { s.core c with queue := [(.warp c w, n)] }
  ctxs : t.ctxs = s.ctxs
  mem : t.mem = s.mem
  mgmt : t.mgmt = s.mgmt
  agenda : .growGrant c ∈ t.agenda

theorem grow_asks {f : SysF} (hi : Issues (.grow h f) h c w wp e s) (ha : (seen h c w wp e s).act ≠ 0)
    (hm : f.imm.toNat ≤ (s.gridOf wp.gid).tileMax) (hn : wp.allot.length < f.imm.toNat) (hq : (s.core c).queue = []) :
    Answers (exec (.grow h f) s) (Asked h c w f.imm.toNat wp s) := by
  have issue : exec (.grow h f) s = _ := runWarp_issues hi (growBody f.imm.toNat)
  rw [growBody_waits (s := begun c w wp s) ha hm hn, helperOnly_ok] at issue
  refine ⟨_, issue, ?_⟩
  have warp : (asking f.imm.toNat (seen h c w wp e s) (begun c w wp s)).warp? c w =
      some { wp with young := false, wait := .grow f.imm.toNat, since := s.now } := asking_warp? (State.warp?_setWarp ..)
  have core := asking_core f.imm.toNat (seen h c w wp e s) (begun c w wp s)
  obtain ⟨ctxs, mem, mgmt, now, agenda⟩ := asking_frame f.imm.toNat (seen h c w wp e s) (begun c w wp s)
  obtain ⟨frame, kept⟩ := finishIssue_hold (h := h) (long := (Instr.grow h f).long) warp
  have core : (endIssue c w h (Instr.grow h f).long (.ok (asking f.imm.toNat (seen h c w wp e s) (begun c w wp s)) .hold)).core c = _ :=
    (congrArg (State.core · c) frame).trans core
  have queue : ((begun c w wp s).core c).queue = [] := hq
  refine ⟨(congrArg (State.warp? · c w) frame).trans ?_, ?_, (congrArg State.ctxs frame).trans ctxs,
    (congrArg State.mem frame).trans mem, (congrArg State.mgmt frame).trans mgmt, kept _ agenda⟩
  · rw [State.warp?_setWarp, now]; rfl
  · rw [core]
    change { s.core c with queue := ((begun c w wp s).core c).queue ++ [(Issuer.warp c w, f.imm.toNat)] } = _
    rw [queue]; rfl

/-- GROW beyond the allotment waits, and GROW_GRANT grants it. -/
theorem grow_granted {n : Nat} {t : State} (asked : Asked h c w n wp s t) (hn : wp.allot.length < n)
    (hf : n - wp.allot.length ≤ (freeGeneral (begun c w wp s) c).length) (hp : s.mgmt.power = true) (ha : s.mgmt.fatal = false) :
    Answers (exec (.growGrant c) t) (Grown c w { wp with young := false }
      ((freeGeneral (begun c w wp s) c).take (n - wp.allot.length)) s) := by
  obtain ⟨warp, core, ctxs, mem, mgmt, -⟩ := asked
  obtain ⟨m, rfl⟩ : ∃ m, n = m + 1 := ⟨n - 1, by omega⟩
  have free : freeGeneral t c = freeGeneral (begun c w wp s) c :=
    freeGeneral_congr (by rw [core]; rfl) (by rw [core]; rfl) ctxs (by rw [core]; rfl)
  have ran : exec (.growGrant c) t = .next (growGrant t c).useFree := by
    simp [exec, execGrowGrant, runEvent, mgmt, hp, ha]
  obtain ⟨allot, wait, frontier, queue', mem', tiles⟩ := growGrant_serves (by rw [core]) warp (free ▸ hf)
  refine ⟨_, ran, allot.trans (by rw [free]; rfl), wait, frontier.trans ?_, queue', mem'.trans mem, by rw [free] at tiles; exact tiles⟩
  apply Warp.advance_frontier_congr <;> rfl

/-- SHRINK to no fewer tiles only goes on. -/
theorem shrink_within {f : SysF} (hi : Issues (.shrink h f) h c w wp e s) (ha : (seen h c w wp e s).act ≠ 0)
    (hm : (s.gridOf wp.gid).tileInit ≤ f.imm.toNat) (hn : wp.allot.length ≤ f.imm.toNat) :
    Answers (exec (.shrink h f) s) (Redirects h c w ({ wp with young := false }.advance false) s) := by
  have issue : exec (.shrink h f) s = _ := runWarp_issues hi (shrinkBody f.imm.toNat)
  rw [shrinkBody_within (s := begun c w wp s) ha hm hn, helperOnly_ok] at issue
  exact ⟨_, issue, redirects_next (.shrink h f)⟩

/-- A warp that begins an issue with fewer tiles. -/
theorem begun_modWarp_allot (n : Nat) : (begun c w wp s).modWarp c w (fun x => { x with allot := x.allot.take n }) =
    begun c w { wp with allot := wp.allot.take n } s := by
  rw [begun, State.modWarp_some (State.warp?_setWarp ..)]
  exact congrArg (fun m => { s with warps := m }) (mput_mput ..)

/-- SHRINK of tiles without pending writes frees them at once. -/
theorem shrink_frees {f : SysF} (hi : Issues (.shrink h f) h c w wp e s) (ha : (seen h c w wp e s).act ≠ 0)
    (hm : (s.gridOf wp.gid).tileInit ≤ f.imm.toNat) (hn : f.imm.toNat < wp.allot.length)
    (hp : ∀ t ∈ wp.allot.drop f.imm.toNat, (begun c w wp s).pendTo c t = 0) :
    Answers (exec (.shrink h f) s) fun r => (∀ t ∈ wp.allot.drop f.imm.toNat, (r.core c).owner t = {}) ∧
      TradeOnly h c w { wp with allot := wp.allot.take f.imm.toNat } s r := by
  have issue : exec (.shrink h f) s = _ := runWarp_issues hi (shrinkBody f.imm.toNat)
  rw [shrinkBody_frees (s := begun c w wp s) ha hm hn, helperOnly_ok] at issue
  refine ⟨_, issue, ?_⟩
  let wp' : Warp := { wp with allot := wp.allot.take f.imm.toNat }
  obtain ⟨owner, core, others, rest⟩ := foldl_freeTile (s := begun c w wp' s) _ hp
  have shrinks : shrunk f.imm.toNat (seen h c w wp e s) (begun c w wp s) =
      ((((wp.allot.drop f.imm.toNat).foldl (fun s t => s.freeTile c t) (begun c w wp' s)).push (.growGrant c)).push
        (.takeNewGrant c)) := by
    rw [← begun_modWarp_allot]; rfl
  rw [shrinks]
  generalize (wp.allot.drop f.imm.toNat).foldl (fun s t => s.freeTile c t) (begun c w wp' s) = r at *
  have table := congrArg State.warps rest
  have clock := congrArg State.now rest
  obtain ⟨warps, ends⟩ := finishIssue_next (c := c) (w := w) (h := h) (long := false) (s := s) (wp := wp')
    (t := (r.push (.growGrant c)).push (.takeNewGrant c)) table clock
  change (∀ t ∈ wp.allot.drop f.imm.toNat, ((finishIssue c w h false .next _).core c).owner t = {}) ∧
    TradeOnly h c w wp' s (finishIssue c w h false .next _)
  generalize finishIssue c w h false .next _ = u at *
  have cores : u.cores = r.cores := (congrArg State.cores ends :)
  have same : ∀ k, u.core k = r.core k := fun k => by rw [State.core, cores]; rfl
  refine ⟨fun t ht => ?_, ?_, fun k hk => ?_, warps, ?_⟩
  · rw [same]; exact owner t (.inl ht)
  · rw [same]; exact core
  · rw [same]; exact others k hk
  · have ends' := congrArg (fun u : State => { u with cores := s.cores, nextId := s.nextId }) ends
    have rest' := congrArg (fun u : State => { u with warps := s.warps, agenda := s.agenda, freeCtr := s.freeCtr, nextId := s.nextId }) rest
    exact ends'.trans rest'

/-! ### TSTAT (18 R441) -/

/-- TSTAT of an accumulator tile puts the tile's owner field in flight to D. -/
theorem tstat_flies {f : Trade} (hi : Issues (.tstat h f) h c w wp e s) (ha : (seen h c w wp e s).act ≠ 0)
    (hlo : 256 ≤ tradeNum (begun c w wp s) (seen h c w wp e s) f) (hhi : tradeNum (begun c w wp s) (seen h c w wp e s) f ≤ 767)
    (hc : NoClash (.warp c w)
      [.g f.d.toNat (tstatWord (begun c w wp s) c wp.gid (tradeNum (begun c w wp s) (seen h c w wp e s) f))] s) :
    Answers (exec (.tstat h f) s) (Flies h false c w wp 4
      [.g f.d.toNat (tstatWord (begun c w wp s) c wp.gid (tradeNum (begun c w wp s) (seen h c w wp e s) f))] s) := by
  have issue : exec (.tstat h f) s = _ := runEither_issues hi (tstatBody f)
  rw [tstatBody_reads (s := begun c w wp s) ha hlo hhi, helperOnly_ok] at issue
  exact ⟨_, issue, (flies_of_laterAll hi.warp hc).1⟩

end

/-- Settles O28: GROW within the allotment, beyond it, its grant; SHRINK that keeps and that frees; TSTAT. -/
theorem allotmentsComplete : Obligations.AllotmentsComplete := by
  unfold Obligations.AllotmentsComplete
  refine ⟨fun s h f c w wp e hi ha hm => ⟨grow_within hi ha hm, fun hn hq hf hp hl => ?_⟩,
    fun s h f c w wp e hi ha hm => ⟨shrink_within hi ha hm, shrink_frees hi ha hm⟩, fun s h f c w wp e hi ha hlo hhi hc => ?_⟩
  · obtain ⟨t, issue, asked⟩ := grow_asks hi ha hm hn hq
    obtain ⟨r, granted, grown⟩ := grow_granted asked hn hf hp hl
    refine ⟨t, issue, by rw [asked.core], ?_, ?_, asked.agenda, r, granted, grown.allot, grown.wait, grown.frontier, grown.queue, grown.mem,
      fun x hx => ?_⟩
    · rw [State.warp_of_warp? asked.warp]; rfl
    · rw [State.warp_of_warp? asked.warp]; rfl
    · obtain ⟨owner, words⟩ := grown.tiles x hx
      rw [owner]
      exact ⟨rfl, rfl, rfl, rfl, words⟩
  · have word : tstatWord (begun c w wp s) c wp.gid (tradeNum (begun c w wp s) (seen h c w wp e s) f) = _ :=
      tstatWord_eq ..
    have flies := tstat_flies (f := f) hi ha hlo hhi
    rw [word] at flies
    exact flies hc

end Sys2Proof.Claims
end

section
/-! SUPPORT. What the operations of the caches, of the rings and of the dispatcher leave as it was. -/

namespace Sys2Proof.Machine

/-! ### A step that goes through folds -/

/-- What a reflexive and transitive relation of states keeps through every element of a list it keeps through a fold. -/
theorem foldl_keeps {β : Type} {R : State → State → Prop} (refl : ∀ s, R s s) (trans : ∀ {s t u}, R s t → R t u → R s u)
    {f : State → β → State} (h : ∀ s b, R s (f s b)) (l : List β) (s : State) : R s (l.foldl f s) := by
  induction l generalizing s with
  | nil => exact refl s
  | cons b l ih => exact trans (h s b) (ih (f s b))

/-! ### The frame of the caches and of the home slices -/

/-- A grid but for its count of bytes (02 R45). -/
def Grid.uncounted (g : Grid) : Grid := { g with bytes := 0 }

/-- Nothing differs but memory, its poison and tags, the cores, the shared TLBs, the marks of collectives, what has left the device, the
agenda, pending vectors and the grids' counts of bytes. -/
structure CacheFrame (s t : State) : Prop where
  rest : { t with mem := s.mem, poison := s.poison, tags := s.tags, cores := s.cores, stlbs := s.stlbs, grids := s.grids, colls := s.colls,
                  out := s.out, agenda := s.agenda, pba := s.pba } = s
  grids : ∀ n, (mget? t.grids n).map Grid.uncounted = (mget? s.grids n).map Grid.uncounted

namespace CacheFrame

theorem refl (s : State) : CacheFrame s s := ⟨rfl, fun _ => rfl⟩

theorem trans {s t u : State} (h : CacheFrame s t) (g : CacheFrame t u) : CacheFrame s u := by
  refine ⟨?_, fun n => (g.grids n).trans (h.grids n)⟩
  have step := congrArg (fun x : State => { x with
    mem := s.mem, poison := s.poison, tags := s.tags, cores := s.cores, stlbs := s.stlbs, grids := s.grids, colls := s.colls,
    out := s.out, agenda := s.agenda, pba := s.pba }) g.rest
  exact step.trans h.rest

theorem foldl {β : Type} {f : State → β → State} (h : ∀ s b, CacheFrame s (f s b)) (l : List β) (s : State) :
    CacheFrame s (l.foldl f s) := foldl_keeps refl trans h l s

theorem ite {c : Prop} [Decidable c] {s t u : State} (h : CacheFrame s t) (g : CacheFrame s u) : CacheFrame s (if c then t else u) := by
  split
  · exact h
  · exact g

theorem modCore (s : State) (c : Nat) (f : Core → Core) : CacheFrame s (s.modCore c f) := ⟨rfl, fun _ => rfl⟩
theorem memWrite (s : State) (cells : List (Nat × Byte)) (rmw : Bool) : CacheFrame s (s.memWrite cells rmw) := ⟨rfl, fun _ => rfl⟩
theorem addPoison (s : State) (l : List ErrLoc) : CacheFrame s (s.addPoison l) := ⟨rfl, fun _ => rfl⟩
theorem push (s : State) (i : Instr) : CacheFrame s (s.push i) := ⟨rfl, fun _ => rfl⟩
theorem emit (s : State) (o : Out) : CacheFrame s (s.emit o) := ⟨rfl, fun _ => rfl⟩

theorem signal (s : State) (fn vec : Nat) : CacheFrame s (s.signal fn vec) := .ite ⟨rfl, fun _ => rfl⟩ (emit ..)

theorem collTouchPa (s : State) (pas : List Nat) : CacheFrame s (s.collTouchPa pas) := .ite (refl s) ⟨rfl, fun _ => rfl⟩

theorem ofXl {s t : State} (h : XlFrame s t) : CacheFrame s t := by
  refine ⟨?_, fun n => ?_⟩
  · exact (congrArg (fun x : State => { x with
      tags := s.tags, grids := s.grids, colls := s.colls, out := s.out, agenda := s.agenda, pba := s.pba }) h.rest :)
  · have same : t.grids = s.grids := (congrArg State.grids h.rest :)
    rw [same]

end CacheFrame

/-! ### Counts of bytes and the L1s -/

theorem mget?_modGrid (s : State) (n k : Nat) (f : Grid → Grid) :
    mget? (s.modGrid n f).grids k = if n = k then (mget? s.grids k).map f else mget? s.grids k := by
  unfold State.modGrid
  by_cases h : n = k
  · subst h
    cases hg : mget? s.grids n <;> simp [hg]
  · cases hg : mget? s.grids n <;> simp [h, mget?_put_ne]

theorem modGrid_frame (s : State) (n : Nat) (f : Grid → Grid) : { s.modGrid n f with grids := s.grids } = s := by
  unfold State.modGrid
  split <;> rfl

namespace CacheFrame

theorem countBytes (s : State) (grid n : Nat) : CacheFrame s (s.countBytes grid n) := by
  refine ⟨?_, fun k => ?_⟩
  · have same := modGrid_frame s grid fun g => if g.classified then g else { g with bytes := g.bytes + n }
    exact (congrArg (fun x : State => { x with
      mem := s.mem, poison := s.poison, tags := s.tags, cores := s.cores, stlbs := s.stlbs, colls := s.colls, out := s.out,
      agenda := s.agenda, pba := s.pba }) same :)
  · rw [State.countBytes, mget?_modGrid]
    by_cases h : grid = k
    · cases mget? s.grids k with
      | none => simp
      | some g => cases hc : g.classified <;> simp [h, hc, Grid.uncounted]
    · simp [h]

theorem countBack (s : State) (c : Nat) (p : Nat → Bool) : CacheFrame s (s.countBack c p) := foldl (fun _ _ => countBytes ..) _ _

theorem countWc (s : State) (bytes : List (Nat × Byte × Nat)) : CacheFrame s (s.countWc bytes) := foldl (fun _ _ => countBytes ..) _ _

theorem writeBack (s : State) (c : Nat) (p : Nat → Bool) : CacheFrame s (s.writeBack c p) := by
  unfold State.writeBack
  refine trans ?_ (modCore ..)
  refine trans ?_ (addPoison ..)
  exact trans (countBack ..) (memWrite ..)

theorem resolveFd (s : State) (c : Nat) (p : Nat → Bool) : CacheFrame s (s.resolveFd c p) := by
  unfold State.resolveFd
  refine trans ?_ (modCore ..)
  exact foldl (fun _ _ => writeBack ..) _ _

theorem wcDrain (s : State) (c : Nat) (p : Nat → Bool) : CacheFrame s (s.wcDrain c p) := by
  unfold State.wcDrain
  refine trans ?_ (modCore ..)
  exact foldl (fun _ _ => trans (countWc ..) (memWrite ..)) _ _

theorem l1Evict (s : State) (c ln : Nat) : CacheFrame s (s.l1Evict c ln) := by
  unfold State.l1Evict
  refine trans ?_ (modCore ..)
  exact trans (resolveFd ..) (writeBack ..)

theorem drainCore (s : State) (c : Nat) : CacheFrame s (s.drainCore c) := (resolveFd ..).trans (writeBack ..)

theorem eager (s : State) (c scope : Nat) : CacheFrame s (s.eager c scope) :=
  .ite (refl s) (.ite ((drainCore s c).trans (wcDrain ..)) (drainCore s c))

theorem dropClean (s : State) (c n : Nat) : CacheFrame s (s.dropClean c n) := by
  unfold State.dropClean
  exact modCore ..

theorem acquireDrop (s : State) (c n scope : Nat) : CacheFrame s (s.acquireDrop c n scope) :=
  .ite (trans (resolveFd s c _) (dropClean ..)) (refl s)

theorem shrinkL1 (s : State) (c : Nat) : CacheFrame s (shrinkL1 s c) := foldl (fun s ln => l1Evict s c ln) _ s

theorem gridRelease (s : State) (gr scope : Nat) : CacheFrame s (gridRelease s gr scope) := foldl (fun s c => eager s c scope) _ s

/-! ### Accesses of units and operations on rings -/

theorem xlateUnit (s : State) (n va : Nat) (need : Need) : CacheFrame s (xlateUnit s n va need).2 := by
  unfold Machine.xlateUnit
  split
  · exact refl s
  · split
    · exact refl s
    · exact refl s
    · split
      · exact refl s
      · exact .ite (refl s) (ofXl (.orPte ..))

theorem unitPieces (n : Nat) (need : Need) (l : List (Nat × Nat × Nat)) (s : State) : CacheFrame s (unitPieces n need l s).2.2 := by
  induction l generalizing s with
  | nil => exact refl s
  | cons p l ih =>
    obtain ⟨a, o, len⟩ := p
    have step := xlateUnit s n a need
    unfold Machine.unitPieces
    split
    · next h =>
      rw [h] at step
      split
      · exact step
      · exact step.trans (ih _)
    · next h => rw [h] at step; exact step
    · next h => rw [h] at step; exact step

theorem homeWrite (s : State) (n pa : Nat) (bs : List Byte) (rmw : Bool) : CacheFrame s (s.homeWrite n pa bs rmw) := by
  have touched := collTouchPa s (span pa bs.length)
  unfold State.homeWrite
  refine touched.trans ?_
  split
  · exact memWrite ..
  · exact emit ..
  · exact emit ..
  · exact refl _

theorem unitWrite (s : State) (n va : Nat) (bs : List Byte) : CacheFrame s (unitWrite s n va bs).2 := by
  have pieces := unitPieces n .w (piecesOf va bs.length) s
  unfold Machine.unitWrite
  split
  · next h => rw [h] at pieces; exact pieces.trans (foldl (fun _ _ => homeWrite ..) _ _)
  · next h => rw [h] at pieces; exact pieces

theorem ringXl (s : State) (n va : Nat) (need : Need) : CacheFrame s (ringXl s n va need).2 := by
  have step := xlateUnit s n va need
  unfold Machine.ringXl
  split <;> (next h => rw [h] at step; exact step)

theorem ringOpen (s : State) (n hdr : Nat) : CacheFrame s (ringOpen s n hdr).2 := by
  have step := ringXl s n hdr .rw
  unfold Machine.ringOpen
  split <;> (next h => rw [h] at step; exact step)

theorem ringState (s : State) (n : Nat) (h : RingHdr) (k : Nat) : CacheFrame s (ringState s n h k).2 := by
  have step := ringXl s n (h.stateVa k) .rw
  unfold Machine.ringState
  split <;> (next h => rw [h] at step; exact step)

theorem ringNotify (s : State) (n hdr : Nat) (h : RingHdr) : CacheFrame s (ringNotify s n hdr h) :=
  .ite (foldl (fun s _ => .ite (push ..) (refl s)) _ s) (.ite (signal ..) (refl s))

theorem ringWake (s : State) (n hdr : Nat) : CacheFrame s (ringWake s n hdr) := foldl (fun s _ => push s _) _ s

/-- A state byte of a ring and its HEAD or RESV are written together. -/
theorem ringBytes (s : State) (pas : List Nat) (a b : List (Nat × Byte)) :
    CacheFrame s (((s.collTouchPa pas).memWrite a true).memWrite b true) :=
  ((collTouchPa s pas).trans (memWrite ..)).trans (memWrite ..)

theorem ringReserve (s : State) (n hdr : Nat) : CacheFrame s (ringReserve s n hdr).2 := by
  have opened := ringOpen s n hdr
  unfold Machine.ringReserve
  split
  · next h => rw [h] at opened; exact opened
  · next hd pa s' h =>
    rw [h] at opened
    have state := ringState s' n hd hd.resv
    split
    · next h => rw [h] at state; exact opened.trans state
    · next h =>
      rw [h] at state
      refine opened.trans (state.trans ?_)
      split
      · exact refl _
      · exact ringBytes ..

theorem ringPublish (s : State) (n hdr slot : Nat) : CacheFrame s (ringPublish s n hdr slot).2 := by
  have opened := ringOpen s n hdr
  unfold Machine.ringPublish
  split
  · next h => rw [h] at opened; exact opened
  · next hd pa s' h =>
    rw [h] at opened
    refine opened.trans ?_
    split
    · exact refl _
    · have state := ringState s' n hd slot
      split
      · next h => rw [h] at state; exact state
      · next h =>
        rw [h] at state
        refine state.trans ?_
        split
        · exact refl _
        · exact ((collTouchPa _ _).trans (memWrite ..)).trans ((CacheFrame.ite (ringNotify ..) (refl _)).trans (ringWake ..))

theorem ringTake (s : State) (n hdr : Nat) : CacheFrame s (ringTake s n hdr).2 := by
  have opened := ringOpen s n hdr
  unfold Machine.ringTake
  split
  · next h => rw [h] at opened; exact opened
  · next hd pa s' h =>
    rw [h] at opened
    have state := ringState s' n hd hd.head
    refine opened.trans ?_
    split
    · next h => rw [h] at state; exact state
    · next sp _ s'' h =>
      rw [h] at state
      refine state.trans ?_
      split
      · exact refl _
      · refine (ringBytes s'' [sp, pa + 32] [(sp, 0)] (cellsAt (pa + 32) (leBytes 8 (hd.head + 1)))).trans ?_
        have next := ringState (((s''.collTouchPa [sp, pa + 32]).memWrite [(sp, 0)] true).memWrite
          (cellsAt (pa + 32) (leBytes 8 (hd.head + 1))) true) n hd (hd.head + 1)
        refine trans ?_ (ringWake ..)
        split
        · next h => rw [h] at next; exact next.trans (.ite (ringNotify ..) (refl _))
        · exact refl _

theorem liveAdd {s t : State} {n kobj : Nat} {up : Bool} (h : liveAdd s n kobj up = some t) : CacheFrame s t := by
  have step := xlateUnit s n (kobj + 0x2C) .rw
  unfold Machine.liveAdd at h
  split at h
  · next hx =>
    rw [hx] at step
    cases h
    exact step.trans (trans (collTouchPa ..) (memWrite ..))
  · cases h

/-! ### What the frame gives for each table -/

section
variable {s t : State} (h : CacheFrame s t)
include h

theorem parts : t.parts = s.parts := (congrArg State.parts h.rest :)
theorem part (n : Nat) : t.part n = s.part n := by rw [State.part, h.parts]; rfl
theorem clusters : t.clusters = s.clusters := (congrArg State.clusters h.rest :)
theorem groups : t.groups = s.groups := (congrArg State.groups h.rest :)
theorem warps : t.warps = s.warps := (congrArg State.warps h.rest :)
theorem recWaits : t.recWaits = s.recWaits := (congrArg State.recWaits h.rest :)
theorem now : t.now = s.now := (congrArg State.now h.rest :)
theorem mgmt : t.mgmt = s.mgmt := (congrArg State.mgmt h.rest :)

/-- A grid stays as it was but for its count of bytes. -/
theorem grid {n : Nat} {g : Grid} (hg : mget? s.grids n = some g) : ∃ b, mget? t.grids n = some { g with bytes := b } := by
  have same := h.grids n
  rw [hg] at same
  cases ht : mget? t.grids n with
  | none => rw [ht] at same; cases same
  | some x =>
    rw [ht] at same
    simp only [Option.map_some, Option.some.injEq] at same
    exact ⟨x.bytes, congrArg some (congrArg (fun y : Grid => { y with bytes := x.bytes }) same :)⟩

end

end CacheFrame

end Sys2Proof.Machine
end

section
/-! SUPPORT. A launch record that is read and checked, up to its grid. -/

namespace Sys2Proof.Machine

theorem mget?_del_same {α : Type} (m : List (Nat × α)) (n : Nat) : mget? (mdel m n) n = none := by
  induction m with
  | nil => rfl
  | cons a t ih =>
    obtain ⟨k, v⟩ := a
    by_cases h : k = n <;> simp [mdel, mget?, h, ih]

theorem mget?_del_ne {α : Type} (m : List (Nat × α)) {n k : Nat} (h : n ≠ k) : mget? (mdel m n) k = mget? m k := by
  induction m with
  | nil => rfl
  | cons a t ih =>
    obtain ⟨j, v⟩ := a
    by_cases hj : j = n
    · subst hj; simp [mdel, mget?, h, ih]
    · by_cases hk : j = k
      · subst hk; simp [mdel, mget?, hj]
      · simp [mdel, mget?, hj, hk, ih]

/-! ### A record that is read and checked (02 R38 to R40) -/

/-- A ring's record is no longer one that has been taken. -/
def untake (n r : Nat) (s : State) : State := s.modPart n fun p => { p with taken := mdel p.taken r }

/-- The grid of a record alone. -/
def recordGrid (n r bits : Nat) : Grid := { part := n, ring := r, record := BitVec.ofNat 1024 bits }

/-- The state in which a ring's record is read: earlier failures of its page-ins are forgotten. -/
def forgetFails (n r : Nat) (s : State) : State := s.modPart n fun p => { p with ringFails := p.ringFails.filter fun f => f.1 != r }

theorem takeRecord_reads {s s1 : State} {n r va : Nat} {bs : List Byte} (hs : (s.part n).state = 1)
    (hp : mget? (s.part n).placing r = none) (hb : ringBlocked s n r = false) (ht : mget? (s.part n).taken r = some va)
    (hr : unitRead (forgetFails n r s) n va 128 = (.ok, bs, s1)) :
    takeRecord s n r = launch ((s.part n).ringFails.filter fun f => f.1 == r) s1 n r (leNat bs) := by
  have go : ((s.part n).state != 1 || (mget? (s.part n).placing r).isSome || ringBlocked s n r) = false := by simp [hs, hp, hb]
  unfold forgetFails at hr
  simp only [takeRecord, go, Bool.false_eq_true, if_false, ht, readSlot, hr]

/-- The grid of a record with its kernel header. -/
def headerGrid (n r bits : Nat) (hb : List Byte) : Grid :=
  let g := { recordGrid n r bits with khdr := (List.range 8).map fun i => BitVec.ofNat 64 (leNat ((hb.drop (8 * i)).take 8)) }
  { g with entry := BitVec.ofNat 64 g.kEntry }

/-- The entry table of a grid's kernel, as the dispatcher reads it (05 R101). -/
def entryTable (n : Nat) (g : Grid) (s : State) : List Nat :=
  (List.range g.nEntry).map fun e => match unitRead s n (g.entTab + 8 * e) 8 with
    | (.ok, bs, _) => leNat (bs.take 4)
    | _ => 0

/-- The state in which a grid has got its number and its ring places it. -/
def startPlacing (n r : Nat) (g : Grid) (s : State) : State :=
  (({ (untake n r s).bump with grids := mput s.grids s.nextId g } : State).modPart n fun p => { p with placing := mput p.placing r s.nextId }).push
    (.placeCluster n r)

/-- The checks of a record whose kernel can be used: LIVE has risen. -/
def checkFit (n r : Nat) (g : Grid) (s : State) : State :=
  if g.badFit then failLaunch (untake n r s) n r g 1
  else if !wouldFit s n g then failLaunch (untake n r s) n r g 3 else startPlacing n r g s

section
variable {lost : List (Nat × Nat × Nat)} {s s2 s3 : State} {n r bits : Nat} {hb : List Byte}

theorem launch_badRecord (h : (recordGrid n r bits).badRecord = true) :
    launch lost s n r bits = failLaunch (untake n r s) n r (recordGrid n r bits) 1 := if_pos h

theorem launch_badKobj (h : (recordGrid n r bits).badRecord = false) (hk : (recordGrid n r bits).kobj % 64 ≠ 0) :
    launch lost s n r bits = failLaunch (untake n r s) n r (recordGrid n r bits) 2 := by
  unfold launch
  rw [if_neg (by simpa [recordGrid] using h), if_pos (by simpa [recordGrid] using hk)]
  rfl

theorem launch_badKernel (h : (recordGrid n r bits).badRecord = false) (hk : (recordGrid n r bits).kobj % 64 = 0)
    (hr : unitRead s n (recordGrid n r bits).kobj 64 = (.ok, hb, s2)) (hbad : (headerGrid n r bits hb).badKernel = true) :
    launch lost s n r bits = failLaunch (untake n r s2) n r (headerGrid n r bits hb) 2 := by
  unfold recordGrid at h hk hr
  unfold launch
  rw [if_neg (by simpa using h), if_neg (by simpa using hk), hr]
  exact if_pos hbad

theorem launch_goodKernel (h : (recordGrid n r bits).badRecord = false) (hk : (recordGrid n r bits).kobj % 64 = 0)
    (hr : unitRead s n (recordGrid n r bits).kobj 64 = (.ok, hb, s2)) (hgood : (headerGrid n r bits hb).badKernel = false)
    (hl : liveAdd s2 n (headerGrid n r bits hb).kobj true = some s3) :
    launch lost s n r bits =
      checkFit n r { headerGrid n r bits hb with counted := true, entries := entryTable n (headerGrid n r bits hb) s2 } s3 := by
  simp only [headerGrid, recordGrid] at h hk hr hgood hl
  simp only [launch, h, hk, hr, hgood, hl, bne_self_eq_false, Bool.false_eq_true, if_false]
  generalize table : List.map _ (List.range (Grid.nEntry _)) = l
  have entries : l = entryTable n (headerGrid n r bits hb) s2 := by
    rw [← table]
    simp only [headerGrid, recordGrid, entryTable] <;>
      exact List.map_congr_left fun e _ => by
        obtain ⟨x, bs, u⟩ := unitRead s2 n _ 8
        cases x <;> rfl
  subst entries
  simp only [checkFit, headerGrid, recordGrid]
  rfl

/-- Where the entry table lies does not depend on the entry that is run. -/
theorem entryTable_entry (g : Grid) (e : W64) : entryTable n { g with entry := e } s = entryTable n g s := rfl

theorem readGrid_entries : (Claims.readGrid n r bits hb s).entries = entryTable n (headerGrid n r bits hb) s := by
  unfold headerGrid
  rw [entryTable_entry]
  simp only [Claims.readGrid, recordGrid, entryTable] <;>
    exact List.map_congr_left fun e _ => by
      obtain ⟨x, bs, u⟩ := unitRead s n _ 8
      cases x <;> rfl

theorem readGrid_eq : Claims.readGrid n r bits hb s = { headerGrid n r bits hb with entries := entryTable n (headerGrid n r bits hb) s } := by
  rw [← readGrid_entries]
  rfl

end

theorem kobj_header (g : Grid) (l : List W64) (e : W64) : Grid.kobj { g with khdr := l, entry := e } = g.kobj := rfl
theorem headerGrid_kobj (n r bits : Nat) (hb : List Byte) : (headerGrid n r bits hb).kobj = (recordGrid n r bits).kobj :=
  kobj_header ..

/-- What a header must be does not depend on the entry table. -/
theorem badKernel_entries (g : Grid) (l : List Nat) : Grid.badKernel { g with entries := l } = g.badKernel := rfl
/-- What a record must be against its header does not depend on LIVE. -/
theorem badFit_counted (g : Grid) (b : Bool) : Grid.badFit { g with counted := b } = g.badFit := rfl

theorem checkFit_bad {n r : Nat} {g : Grid} {s : State} (h : g.badFit = true) : checkFit n r g s = failLaunch (untake n r s) n r g 1 :=
  if_pos h
theorem checkFit_noRoom {n r : Nat} {g : Grid} {s : State} (h : g.badFit = false) (hw : wouldFit s n g = false) :
    checkFit n r g s = failLaunch (untake n r s) n r g 3 := by
  rw [checkFit, if_neg (by simp [h]), if_pos (by simp [hw])]
theorem checkFit_places {n r : Nat} {g : Grid} {s : State} (h : g.badFit = false) (hw : wouldFit s n g = true) :
    checkFit n r g s = startPlacing n r g s := by
  rw [checkFit, if_neg (by simp [h]), if_neg (by simp [hw])]

/-- The state after a launch that has failed. -/
theorem failLaunch_failed {n r : Nat} {g : Grid} {status : BitVec 8} {s : State} (hp : g.part = n) (hr : g.ring = r) :
    Failed n r s.nextId s.grids g status (failLaunch (untake n r s) n r g status).useFree := by
  subst hp hr
  refine ⟨rfl, ?_, ?_, ?_⟩
  · simp [failLaunch, untake, State.part, mget?_del_same]
  · simp [failLaunch, untake, State.fresh]
  · simp [failLaunch]

/-- The state in which a ring has begun to place a grid. -/
theorem startPlacing_places (n r : Nat) (g : Grid) (s : State) :
    let t := (startPlacing n r g s).useFree
    mget? (t.part n).placing r = some s.nextId ∧ mget? (t.part n).taken r = none ∧ t.grid s.nextId = g ∧ .placeCluster n r ∈ t.agenda := by
  simp [startPlacing, untake, State.part, State.grid, mget?_del_same]

/-- An event of a device that has power and has not halted takes effect. -/
theorem runEvent_live {s : State} (h : Claims.Live s) (f : State → State) : runEvent f s = .next (f s).useFree := by
  simp [runEvent, h.power, h.awake]

end Sys2Proof.Machine

namespace Sys2Proof.Claims
open Sys2Proof.Machine

/-- A record of a launch ring that has been taken: its checks, one after the other (02 R38 to R40; 11 R267). -/
theorem dispatcherTakeRecord_checks (s s1 : State) (n r va : Nat) (bs : List Byte) (hlive : Live s) (hs : (s.part n).state = 1)
    (hp : mget? (s.part n).placing r = none) (hb : ringBlocked s n r = false) (ht : mget? (s.part n).taken r = some va)
    (hr : unitRead (forgetFails n r s) n va 128 = (.ok, bs, s1)) :
    let g := recordGrid n r (leNat bs)
    (g.badRecord = true → Answers (exec (.dispatcherTakeRecord n r) s) (Failed n r s1.nextId s1.grids g 1)) ∧
    (g.badRecord = false → g.kobj % 64 ≠ 0 → Answers (exec (.dispatcherTakeRecord n r) s) (Failed n r s1.nextId s1.grids g 2)) ∧
    (∀ hb s2, g.badRecord = false → g.kobj % 64 = 0 → unitRead s1 n g.kobj 64 = (.ok, hb, s2) →
      let g1 := readGrid n r (leNat bs) hb s2
      (g1.badKernel = true → Answers (exec (.dispatcherTakeRecord n r) s)
        (Failed n r s2.nextId s2.grids { g1 with entries := [] } 2)) ∧
      (∀ s3, g1.badKernel = false → liveAdd s2 n g.kobj true = some s3 →
        (g1.badFit = true → Answers (exec (.dispatcherTakeRecord n r) s)
          (Failed n r s3.nextId s3.grids { g1 with counted := true } 1)) ∧
        (g1.badFit = false → wouldFit s3 n { g1 with counted := true } = false → Answers (exec (.dispatcherTakeRecord n r) s)
          (Failed n r s3.nextId s3.grids { g1 with counted := true } 3)) ∧
        (g1.badFit = false → wouldFit s3 n { g1 with counted := true } = true → Answers (exec (.dispatcherTakeRecord n r) s) fun t =>
          mget? (t.part n).placing r = some s3.nextId ∧ mget? (t.part n).taken r = none ∧
          t.grid s3.nextId = { g1 with counted := true } ∧ .placeCluster n r ∈ t.agenda))) := by
  intro g
  have ran : exec (.dispatcherTakeRecord n r) s = .next _ := runEvent_live hlive fun s => takeRecord s n r
  rw [takeRecord_reads hs hp hb ht hr] at ran
  refine ⟨fun h => ?_, fun h hk => ?_, fun header s2 h hk hh => ?_⟩
  · rw [launch_badRecord h] at ran
    exact ⟨_, ran, failLaunch_failed rfl rfl⟩
  · rw [launch_badKobj h hk] at ran
    exact ⟨_, ran, failLaunch_failed rfl rfl⟩
  · rw [readGrid_eq]
    intro g1
    refine ⟨fun hbad => ?_, fun s3 hgood hl => ?_⟩
    · rw [launch_badKernel h hk hh ((badKernel_entries ..).symm.trans hbad)] at ran
      exact ⟨_, ran, failLaunch_failed rfl rfl⟩
    · rw [← headerGrid_kobj n r (leNat bs) header] at hl
      rw [launch_goodKernel h hk hh ((badKernel_entries ..).symm.trans hgood) hl] at ran
      refine ⟨fun hfit => ?_, fun hfit hroom => ?_, fun hfit hroom => ?_⟩
      · rw [checkFit_bad ((badFit_counted g1 true).trans hfit)] at ran
        exact ⟨_, ran, failLaunch_failed rfl rfl⟩
      · rw [checkFit_noRoom ((badFit_counted g1 true).trans hfit) hroom] at ran
        exact ⟨_, ran, failLaunch_failed rfl rfl⟩
      · rw [checkFit_places ((badFit_counted g1 true).trans hfit) hroom] at ran
        exact ⟨_, ran, startPlacing_places ..⟩

end Sys2Proof.Claims
end

section
/-! SUPPORT. The placement of clusters. -/

namespace Sys2Proof.Machine

/-! ### Placement (02 R42 to R44) -/

/-- Events that join the agenda one after the other, and nothing else. -/
theorem foldl_push {β : Type} (f : β → Instr) (l : List β) (s : State) :
    l.foldl (fun s b => s.push (f b)) s = { s with agenda := s.agenda ++ l.map f } := by
  induction l generalizing s with
  | nil => simp
  | cons b l ih => rw [List.foldl_cons, ih]; simp [State.push]

theorem retryPlacement_eq (s : State) (n : Nat) :
    s.retryPlacement n = { s with agenda := s.agenda ++ (s.part n).turn.map fun r => .placeCluster n r } := foldl_push ..

/-- Every ring that places a record has its turn. -/
theorem mem_turn {p : Part} {r : Nat} (hr : r < 4) (h : (mget? p.placing r).isSome = true) : r ∈ p.turn := by
  refine List.mem_filter.2 ⟨List.mem_map.2 ⟨(r + 4 - p.nextRing % 4) % 4, List.mem_range.2 (by omega), by omega⟩, h⟩

/-- What the placement of groups leaves: the partitions, the clusters, and the grids but for their counts of bytes. -/
structure PlaceFrame (s t : State) : Prop where
  parts : t.parts = s.parts
  clusters : t.clusters = s.clusters
  grids : ∀ n, (mget? t.grids n).map Grid.uncounted = (mget? s.grids n).map Grid.uncounted

namespace PlaceFrame

theorem refl (s : State) : PlaceFrame s s := ⟨rfl, rfl, fun _ => rfl⟩
theorem trans {s t u : State} (h : PlaceFrame s t) (g : PlaceFrame t u) : PlaceFrame s u :=
  ⟨g.parts.trans h.parts, g.clusters.trans h.clusters, fun n => (g.grids n).trans (h.grids n)⟩
theorem foldl {β : Type} {f : State → β → State} (h : ∀ s b, PlaceFrame s (f s b)) (l : List β) (s : State) :
    PlaceFrame s (l.foldl f s) := foldl_keeps refl trans h l s
theorem ofCache {s t : State} (h : CacheFrame s t) : PlaceFrame s t := ⟨h.parts, h.clusters, h.grids⟩

theorem allotTile (c w gid : Nat) (s : State) (t : Nat) : PlaceFrame s (allotTile c w gid s t) := ⟨rfl, rfl, fun _ => rfl⟩

theorem setCtx (s : State) (c k : Nat) (x : Ctx) : PlaceFrame s (s.setCtx c k x) := ⟨rfl, rfl, fun _ => rfl⟩

theorem placeWarp (c gid : Nat) (g : Grid) (s : State) (iw : Nat × Nat) : PlaceFrame s (placeWarp c gid g s iw) := by
  unfold Machine.placeWarp
  refine trans (foldl (allotTile c iw.2 gid) ((freeGeneral s c).take g.tileInit) s) ?_
  exact ⟨rfl, rfl, fun _ => rfl⟩

theorem placeGroup (gr number cl rank c : Nat) (s : State) : PlaceFrame s (placeGroup gr number cl rank c s) := by
  unfold Machine.placeGroup
  dsimp only
  refine trans ?_ (foldl (fun _ _ => setCtx ..) _ _)
  refine trans ?_ (foldl (fun _ _ => placeWarp ..) _ _)
  refine trans ?_ (ofCache (.shrinkL1 ..))
  refine trans (t := (keepDict s.bump c).acquireDrop c (s.grid gr).part 3) ?_ ⟨rfl, rfl, fun _ => rfl⟩
  refine trans (t := keepDict s.bump c) ?_ (ofCache (.acquireDrop ..))
  exact ⟨rfl, rfl, fun _ => rfl⟩

/-- A grid stays as it was but for its count of bytes. -/
theorem grid {s t : State} (h : PlaceFrame s t) {n : Nat} {g : Grid} (hg : mget? s.grids n = some g) :
    ∃ b, mget? t.grids n = some { g with bytes := b } := by
  have same := h.grids n
  rw [hg] at same
  cases ht : mget? t.grids n with
  | none => rw [ht] at same; cases same
  | some x =>
    rw [ht] at same
    simp only [Option.map_some, Option.some.injEq] at same
    exact ⟨x.bytes, congrArg some (congrArg (fun y : Grid => { y with bytes := x.bytes }) same :)⟩

end PlaceFrame

/-- A cluster of a grid on chosen cores: the grid's next cluster is the one after it, and its number and groups stand in the table. -/
structure Placed (gr : Nat) (g : Grid) (cores : List Nat) (s t : State) : Prop where
  parts : t.parts = s.parts
  grid : ∃ g', mget? t.grids gr = some g' ∧ g'.nextCluster = g.nextCluster + 1
  cluster : ∃ cl, mget? t.clusters s.nextId = some cl ∧ cl.number = g.nextCluster ∧ cl.groups.length = cores.length

/-- The state in which the next cluster of a grid has its number, before its groups are placed. -/
def numbered (gr : Nat) (g : Grid) (size : Nat) (s : State) : State :=
  let x : Cluster := { grid := gr, number := g.nextCluster, groups := (List.range size).map (s.nextId + 1 + ·), placed := s.now }
  { s.bump with clusters := mput s.clusters s.nextId x }

theorem placeClusterOn_placed {gr : Nat} {g : Grid} (cores : List Nat) {s : State} (hg : mget? s.grids gr = some g) :
    Placed gr g cores s (placeClusterOn gr cores s) := by
  have same : s.grid gr = g := mget_eq_of_mget? _ hg
  unfold placeClusterOn
  dsimp only
  rw [same]
  generalize hu : List.foldl _ _ ((List.range cores.length).zip cores) = u
  have frame : PlaceFrame (numbered gr g cores.length s) u := by
    rw [← hu]
    exact PlaceFrame.foldl (fun _ _ => .placeGroup ..) _ _
  obtain ⟨b, grid⟩ := frame.grid hg
  refine ⟨?_, ?_, ?_⟩
  · rw [State.modGrid_parts, frame.parts]; rfl
  · refine ⟨_, (mget?_modGrid ..).trans (by rw [if_pos rfl, grid, Option.map_some]), rfl⟩
  · rw [State.modGrid_clusters, frame.clusters]
    exact ⟨_, mget?_put_same .., rfl, by simp⟩

theorem placeMany_places {n gr : Nat} {g : Grid} (k : Nat) {s t : State} (hg : mget? s.grids gr = some g) (h : placeMany n gr k s = some t) :
    t.parts = s.parts ∧ ∃ g', mget? t.grids gr = some g' ∧ g'.nextCluster = g.nextCluster + k := by
  induction k generalizing s g with
  | zero => cases h; exact ⟨rfl, g, hg, rfl⟩
  | succ k ih =>
    unfold placeMany at h
    split at h
    · cases h
    · next cs _ =>
      obtain ⟨parts, ⟨g', grid, next⟩, -⟩ := placeClusterOn_placed cs hg
      obtain ⟨parts', g'', grid', next'⟩ := ih grid h
      exact ⟨parts'.trans parts, g'', grid', by omega⟩

/-- A ring that has placed is held back no more, the turn goes to the next one, and the rings try again. -/
def ringServed (n r : Nat) (s : State) : State :=
  (s.modPart n fun p => { p with held := mdel p.held r, nextRing := (r + 1) % 4 }).retryPlacement n

theorem ringServed_serves {s : State} {n r gr : Nat} (hr : r < 4) (hp : mget? (s.part n).placing r = some gr) :
    let t := ringServed n r s
    t.grids = s.grids ∧ t.clusters = s.clusters ∧ .placeCluster n r ∈ t.agenda ∧ mget? (t.part n).held r = none ∧
      (t.part n).nextRing = (r + 1) % 4 := by
  have part : (s.modPart n fun p => { p with held := mdel p.held r, nextRing := (r + 1) % 4 }).part n =
      { s.part n with held := mdel (s.part n).held r, nextRing := (r + 1) % 4 } := State.part_modPart ..
  have turn : r ∈ ((s.modPart n fun p => { p with held := mdel p.held r, nextRing := (r + 1) % 4 }).part n).turn :=
    mem_turn hr (by rw [part, hp]; rfl)
  rw [ringServed, retryPlacement_eq]
  refine ⟨rfl, rfl, List.mem_append_right _ (List.mem_map.2 ⟨r, turn, rfl⟩), ?_, ?_⟩
  · exact (congrArg (fun p : Part => mget? p.held r) part).trans (mget?_del_same ..)
  · exact congrArg Part.nextRing part

section
variable {s : State} {n r gr : Nat} {g : Grid}

/-- A ring whose grid has been placed, or aborted, turns to its next record. -/
def finishRing (n r : Nat) (s : State) : State :=
  (s.modPart n fun p => { p with placing := mdel p.placing r, held := mdel p.held r }).push (.dispatcherTakeRecord n r)

theorem placeCluster_finishes (hp : mget? (s.part n).placing r = some gr) (hg : mget? s.grids gr = some g)
    (h : g.nClusters ≤ g.nextCluster) : placeCluster s n r = finishRing n r s := by
  have same : s.grid gr = g := mget_eq_of_mget? _ hg
  simp [placeCluster, hp, same, h, finishRing]

variable (hp : mget? (s.part n).placing r = some gr) (hg : mget? s.grids gr = some g) (ha : g.aborted = false)
  (hn : g.nextCluster < g.nClusters) (hs : (s.part n).state = 1) (ht : ((s.part n).turn.takeWhile (· != r)).find? (canPlace s n) = none)
include hp hg ha hn hs ht

theorem placeCluster_places {u : State} (h : placeMany n gr (todoOf g) s = some u) : placeCluster s n r = ringServed n r u := by
  have same : s.grid gr = g := mget_eq_of_mget? _ hg
  have going : (g.aborted || decide (g.nClusters ≤ g.nextCluster)) = false := by simp [ha, hn]
  simp only [placeCluster, hp, same, going, hs, ht, h, Bool.false_eq_true, if_false, bne_self_eq_false]
  rfl

theorem placeCluster_holds (h : placeMany n gr (todoOf g) s = none) : placeCluster s n r =
    s.modPart n fun p => { p with held := mput p.held r (mget s.now p.held r) } := by
  have same : s.grid gr = g := mget_eq_of_mget? _ hg
  have going : (g.aborted || decide (g.nClusters ≤ g.nextCluster)) = false := by simp [ha, hn]
  simp only [placeCluster, hp, same, going, hs, ht, h, Bool.false_eq_true, if_false, bne_self_eq_false]

end

end Sys2Proof.Machine
end

section
/-! SUPPORT. Groups that are freed. -/

namespace Sys2Proof.Machine

/-! ### Groups that are freed (02 R57) -/

/-- What the freeing of a group leaves: the grids, and the partitions where no record waits for room in a ring. -/
structure FreeFrame (s t : State) : Prop where
  grids : t.grids = s.grids
  recs : s.recWaits = [] → t.recWaits = [] ∧ t.parts = s.parts

namespace FreeFrame

theorem refl (s : State) : FreeFrame s s := ⟨rfl, fun h => ⟨h, rfl⟩⟩
theorem trans {s t u : State} (h : FreeFrame s t) (g : FreeFrame t u) : FreeFrame s u := by
  refine ⟨g.grids.trans h.grids, fun hs => ?_⟩
  obtain ⟨recs, parts⟩ := h.recs hs
  obtain ⟨recs', parts'⟩ := g.recs recs
  exact ⟨recs', parts'.trans parts⟩
theorem foldl {β : Type} {f : State → β → State} (h : ∀ s b, FreeFrame s (f s b)) (l : List β) (s : State) :
    FreeFrame s (l.foldl f s) := foldl_keeps refl trans h l s
theorem ite {c : Prop} [Decidable c] {s t u : State} (h : FreeFrame s t) (g : FreeFrame s u) : FreeFrame s (if c then t else u) := by
  split
  · exact h
  · exact g

theorem modCore (s : State) (c : Nat) (f : Core → Core) : FreeFrame s (s.modCore c f) := ⟨rfl, fun h => ⟨h, rfl⟩⟩
theorem push (s : State) (i : Instr) : FreeFrame s (s.push i) := ⟨rfl, fun h => ⟨h, rfl⟩⟩
theorem delWarp (s : State) (c w : Nat) : FreeFrame s (s.delWarp c w) := ⟨rfl, fun h => ⟨h, rfl⟩⟩
theorem delCtx (s : State) (c k : Nat) : FreeFrame s (s.delCtx c k) := ⟨rfl, fun h => ⟨h, rfl⟩⟩
theorem freeTile (s : State) (c t : Nat) : FreeFrame s (s.freeTile c t) := .ite (modCore ..) (modCore ..)
theorem withdraw (s : State) (l : List Issuer) : FreeFrame s (s.withdraw l) := ⟨rfl, fun h => ⟨h, rfl⟩⟩

theorem dropRecs (s : State) (n : Nat) (l : List (BitVec 32)) : FreeFrame s (s.dropRecs n l) := by
  unfold State.dropRecs
  dsimp only
  split
  · exact refl s
  · next h => exact ⟨rfl, fun hs => absurd (by simp [hs]) h⟩

end FreeFrame

/-- A group that has been freed. -/
def Group.freed (g : Group) : Group := { g with phase := .gone, scratch := [], fids := [], bar := [], cbar := false, ready := false }

theorem freeGroup_frame (s : State) (gid : Nat) : FreeFrame s (s.freeGroup gid) := by
  unfold State.freeGroup
  extract_lets g c mine resident snaps keepP traded allot s1 s2 s3 s4 s5 s6 alone s7
  have h1 : FreeFrame s s1 := .ite (.modCore ..) (.refl s)
  have h2 : FreeFrame s1 s2 := .foldl (fun _ _ => .freeTile ..) _ _
  have h3 : FreeFrame s2 s3 := .foldl (fun _ _ => .modCore ..) _ _
  have h4 : FreeFrame s3 s4 :=
    .ite (.trans (.foldl (fun _ _ => .delWarp ..) g.slots s3) (.foldl (fun _ _ => .delCtx ..) _ _)) (.refl s3)
  have h5 : FreeFrame s4 s5 := .trans (.ite (.withdraw ..) (.refl s4)) (.dropRecs ..)
  have h6 : FreeFrame s5 s6 := ⟨rfl, fun h => ⟨h, rfl⟩⟩
  have h7 : FreeFrame s6 s7 := .ite (.modCore ..) (.refl s6)
  exact h1.trans (h2.trans (h3.trans (h4.trans (h5.trans (h6.trans (h7.trans (.trans (.push ..) (.push ..))))))))

/-- A field that every step of a fold leaves as it was. -/
theorem foldl_field {α β : Type} (p : State → α) {f : State → β → State} (h : ∀ s b, p (f s b) = p s) (l : List β) (s : State) :
    p (l.foldl f s) = p s :=
  foldl_keeps (R := fun s t => p t = p s) (fun _ => rfl) (fun h g => g.trans h) h l s

theorem State.withdraw_groups (s : State) (l : List Issuer) : (s.withdraw l).groups = s.groups := rfl
theorem State.withdraw_warps (s : State) (l : List Issuer) : (s.withdraw l).warps = s.warps := rfl
theorem State.dropRecs_groups (s : State) (n : Nat) (l : List (BitVec 32)) : (s.dropRecs n l).groups = s.groups := by
  unfold State.dropRecs; dsimp only; split <;> rfl
theorem State.dropRecs_warps (s : State) (n : Nat) (l : List (BitVec 32)) : (s.dropRecs n l).warps = s.warps := by
  unfold State.dropRecs; dsimp only; split <;> rfl
theorem State.freeTile_groups (s : State) (c t : Nat) : (s.freeTile c t).groups = s.groups := by
  unfold State.freeTile; split <;> rfl

theorem freeGroup_groups (s : State) (gid : Nat) : (s.freeGroup gid).groups = mput s.groups gid (s.group gid).freed := by
  unfold State.freeGroup
  extract_lets g c mine resident snaps keepP traded allot s1 s2 s3 s4 s5 s6 alone s7
  have h1 : s1.groups = s.groups := by simp only [s1]; split <;> rfl
  have h2 : s2.groups = s1.groups := foldl_field State.groups (fun s t => s.freeTile_groups c t) _ _
  have h3 : s3.groups = s2.groups := foldl_field State.groups (fun _ _ => State.modCore_groups ..) _ _
  have h4 : s4.groups = s3.groups := by
    simp only [s4]
    split
    · rw [foldl_field State.groups fun s k => State.delCtx_groups s c k, foldl_field State.groups fun s w => State.delWarp_groups s c w]
    · rfl
  have h5 : s5.groups = s4.groups := by
    simp only [s5, State.dropRecs_groups]
    split <;> rfl
  have h6 : s7.groups = mput s5.groups gid g.freed := by
    simp only [s7]
    split <;> rfl
  rw [State.push_groups, State.push_groups, h6, h5, h4, h3, h2, h1]

/-- Warp slots that have been freed stand empty. -/
theorem warp?_foldl_delWarp {c w : Nat} (l : List Nat) {s : State} (h : w ∈ l ∨ s.warp? c w = none) :
    (l.foldl (fun s w => s.delWarp c w) s).warp? c w = none := by
  induction l generalizing s with
  | nil => simpa using h
  | cons x l ih =>
    refine ih ?_
    by_cases hx : x = w
    · exact .inr (hx ▸ mget?_del_same ..)
    · refine Or.imp (fun h => (List.mem_cons.1 h).resolve_left (Ne.symm hx)) (fun h => ?_) h
      exact (mget?_del_ne s.warps (fun e => hx (by unfold wkey at e; omega))).trans h

theorem freeGroup_slots {s : State} {gid w : Nat} (hp : (s.group gid).phase = .resident) (hw : w ∈ (s.group gid).slots) :
    (s.freeGroup gid).warp? (s.group gid).core w = none := by
  unfold State.freeGroup
  extract_lets g c mine resident snaps keepP traded allot s1 s2 s3 s4 s5 s6 alone s7
  have stands : resident = true := by simp only [resident, g, hp]
  have h4 : s4.warp? c w = none := by
    simp only [s4, stands, if_true, State.warp?]
    rw [foldl_field State.warps fun s k => State.delCtx_warps s c k]
    exact warp?_foldl_delWarp g.slots (.inl hw)
  have h5 : s5.warps = s4.warps := by
    simp only [s5, State.dropRecs_warps]
    split <;> rfl
  have h7 : s7.warps = s5.warps := by
    simp only [s7]
    split <;> rfl
  rw [State.warp?_push, State.warp?_push, State.warp?, h7, h5]
  exact h4

end Sys2Proof.Machine
end

section
/-! SUPPORT. Groups that retire. -/

namespace Sys2Proof.Machine

/-! ### Retirement of groups (02 R57) -/

/-- Events join the agenda, and nothing else differs. -/
def Pushes (s t : State) : Prop := ∃ l, t = { s with agenda := s.agenda ++ l }

theorem Pushes.refl (s : State) : Pushes s s := ⟨[], by simp⟩
theorem Pushes.trans {s t u : State} (h : Pushes s t) (g : Pushes t u) : Pushes s u := by
  obtain ⟨l, rfl⟩ := h
  obtain ⟨m, rfl⟩ := g
  exact ⟨l ++ m, by simp⟩
theorem Pushes.push (s : State) (i : Instr) : Pushes s (s.push i) := ⟨[i], rfl⟩
theorem Pushes.retryPlacement (s : State) (n : Nat) : Pushes s (s.retryPlacement n) := ⟨_, retryPlacement_eq s n⟩
theorem Pushes.mem {s t : State} (h : Pushes s t) {i : Instr} (hi : i ∈ s.agenda) : i ∈ t.agenda := by
  obtain ⟨l, rfl⟩ := h
  exact List.mem_append_left _ hi

/-- A fold whose first step changes nothing for any element changes nothing. -/
theorem foldl_still {α β : Type} {f : α → β → α} {a : α} (l : List β) (h : ∀ b ∈ l, f a b = a) : l.foldl f a = a := by
  induction l with
  | nil => rfl
  | cons b l ih => rw [List.foldl_cons, h b List.mem_cons_self, ih fun x hx => h x (List.mem_cons_of_mem _ hx)]

/-- The state in which a group has been freed and counted as retired. -/
def retired (gid grid : Nat) (s : State) : State := (s.freeGroup gid).modGrid grid fun x => { x with retired := x.retired + 1 }

/-- The state in which the retirement has been told to the cluster and, where it is the last, to the grid. -/
def retiredTold (gid : Nat) (g : Group) (gr : Grid) (s : State) : State :=
  let s := (retired gid g.grid s).push (.cbarComplete g.cluster)
  if (s.grid g.grid).retired == gr.nGroups then s.push (.completionAction g.grid) else s

section
variable {s : State} {gid : Nat} {g : Group} {gr : Grid} (hg : mget? s.groups gid = some g) (hr : mget? s.grids g.grid = some gr)
include hr

theorem retired_grid : mget? (retired gid g.grid s).grids g.grid = some { gr with retired := gr.retired + 1 } := by
  rw [retired, mget?_modGrid, if_pos rfl, (freeGroup_frame s gid).grids, hr, Option.map_some]

/-- Pushes of the retirement, and the completion action of a grid whose last group retires. -/
theorem retiredTold_pushes : Pushes (retired gid g.grid s) (retiredTold gid g gr s) ∧
    (gr.retired + 1 = gr.nGroups → .completionAction g.grid ∈ (retiredTold gid g gr s).agenda) := by
  have count : (((retired gid g.grid s).push (.cbarComplete g.cluster)).grid g.grid).retired = gr.retired + 1 := by
    rw [State.grid, State.push_grids, mget_eq_of_mget? _ (retired_grid hr)]
  unfold retiredTold
  simp only [count]
  constructor
  · split
    · exact (Pushes.push ..).trans (.push ..)
    · exact .push ..
  · intro h
    rw [if_pos (by simpa using h)]
    simp

include hg

/-- A group whose contexts have not trapped retires. -/
theorem groupRetire_eq (hd : groupDone s gid = true) (hk : ∀ k ∈ g.ctxs, (s.ctx g.core k).state ≠ .trapped) :
    groupRetire s gid = (retiredTold gid g gr s).parts.foldl (fun s p => s.retryPlacement p.1) (retiredTold gid g gr s) := by
  have same : s.grid g.grid = gr := mget_eq_of_mget? _ hr
  unfold groupRetire
  rw [hg]
  simp only [hd, Bool.not_true, Bool.false_eq_true, if_false, same]
  rw [foldl_still g.ctxs fun k hk' => if_neg (by simpa using hk k hk')]
  rfl

theorem groupRetire_pushes (hd : groupDone s gid = true) (hk : ∀ k ∈ g.ctxs, (s.ctx g.core k).state ≠ .trapped) :
    Pushes (retired gid g.grid s) (groupRetire s gid) ∧
    (gr.retired + 1 = gr.nGroups → .completionAction g.grid ∈ (groupRetire s gid).agenda) := by
  obtain ⟨told, action⟩ := retiredTold_pushes (gid := gid) hr
  rw [groupRetire_eq hg hr hd hk]
  generalize retiredTold gid g gr s = u at *
  have retries : Pushes u (u.parts.foldl (fun s p => s.retryPlacement p.1) u) :=
    foldl_keeps .refl .trans (fun s p => .retryPlacement s p.1) _ _
  exact ⟨told.trans retries, fun h => retries.mem (action h)⟩

end

/-- What a group has left behind when it has retired. -/
theorem retired_leaves {s : State} {gid : Nat} {g : Group} {gr : Grid} (hg : mget? s.groups gid = some g)
    (hr : mget? s.grids g.grid = some gr) (hp : g.phase = .resident) :
    ((retired gid g.grid s).group gid).phase = .gone ∧ ((retired gid g.grid s).grid g.grid).retired = gr.retired + 1 ∧
    ∀ w ∈ g.slots, (retired gid g.grid s).warp? g.core w = none := by
  have same : s.group gid = g := mget_eq_of_mget? _ hg
  refine ⟨?_, ?_, fun w hw => ?_⟩
  · rw [retired, State.group, State.modGrid_groups, freeGroup_groups, mget_put_same]
    rfl
  · rw [State.grid, mget_eq_of_mget? _ (retired_grid hr)]
  · rw [retired, State.warp?_modGrid, ← same]
    exact freeGroup_slots (same ▸ hp) (same ▸ hw)

end Sys2Proof.Machine

namespace Sys2Proof.Claims
open Sys2Proof.Machine

/-- A group that is done retires: its slots stand empty, its grid counts it (02 R57). -/
theorem groupRetire_retires (s : State) (gid : Nat) (g : Group) (gr : Grid) (hlive : Live s) (hg : mget? s.groups gid = some g)
    (hr : mget? s.grids g.grid = some gr) (hd : groupDone s gid = true) (hk : ∀ k ∈ g.ctxs, (s.ctx g.core k).state ≠ .trapped) :
    Answers (exec (.groupRetire gid) s) fun t => (t.group gid).phase = .gone ∧ (t.grid g.grid).retired = gr.retired + 1 ∧
      (∀ w ∈ g.slots, t.warp? g.core w = none) ∧ (gr.retired + 1 = gr.nGroups → .completionAction g.grid ∈ t.agenda) := by
  have ran : exec (.groupRetire gid) s = .next _ := runEvent_live hlive fun s => groupRetire s gid
  have resident : g.phase = .resident := by
    have same : s.group gid = g := mget_eq_of_mget? _ hg
    simp only [groupDone, Bool.and_eq_true, beq_iff_eq, same] at hd
    exact hd.1.1.1.1.1.1
  obtain ⟨⟨l, told⟩, action⟩ := groupRetire_pushes hg hr hd hk
  obtain ⟨phase, count, slots⟩ := retired_leaves hg hr resident
  generalize groupRetire s gid = u at *
  generalize retired gid g.grid s = v at *
  subst told
  exact ⟨_, ran, phase, count, slots, action⟩

end Sys2Proof.Claims
end

section
/-! SUPPORT. Completion actions, classes, and the law of the dispatcher's events. -/

namespace Sys2Proof.Machine

/-! ### Completion actions (02 R41) -/

/-- A grid that is done, before its LIVE count falls. -/
def markDone (gr : Nat) (s : State) : State := s.modGrid gr fun x => { x with done := true, acting := false, slot := none }

/-- The state in which the LIVE count of a grid that is done has fallen, where the grid has raised it (11 R267). -/
def liveFallen (gr : Nat) (g : Grid) (s : State) : State :=
  if g.counted then (liveAdd (markDone gr s) g.part g.kobj false).getD (markDone gr s) else markDone gr s

theorem liveFallen_frame (gr : Nat) (g : Grid) (s : State) : CacheFrame (markDone gr s) (liveFallen gr g s) := by
  unfold liveFallen
  split
  · cases h : liveAdd (markDone gr s) g.part g.kobj false with
    | none => exact .refl _
    | some u => exact .liveAdd h
  · exact .refl _

theorem liveFallen_fallen (gr : Nat) (g : Grid) (s : State) : Fallen gr g s (liveFallen gr g s) := by
  refine ⟨fun h => ?_, fun u h hu => ?_⟩
  · rw [liveFallen, if_neg (by simp [h])]
    exact State.modGrid_mem ..
  · rw [liveFallen, if_pos h]
    exact congrArg (fun o => (Option.getD o (markDone gr s)).mem) hu

section
variable {s : State} {gr : Nat} {g : Grid} (hg : mget? s.grids gr = some g)
include hg

theorem gridDone_eq : gridDone s gr = if !((liveFallen gr g s).part g.part).actWaits.contains gr then liveFallen gr g s
    else ((liveFallen gr g s).modPart g.part fun p => { p with actWaits := p.actWaits.filter fun x => x != gr }).push
      (.dispatcherTakeRecord g.part g.ring) := by
  have same : s.grid gr = g := mget_eq_of_mget? _ hg
  unfold gridDone
  rw [same]
  rfl

/-- A grid that is done: its LIVE count has fallen, and its ring's records go on where they waited. -/
theorem gridDone_done : ((gridDone s gr).grid gr).done = true ∧ Fallen gr g s (gridDone s gr) ∧
    (gr ∈ (s.part g.part).actWaits → .dispatcherTakeRecord g.part g.ring ∈ (gridDone s gr).agenda) := by
  have frame := liveFallen_frame gr g s
  have fallen := liveFallen_fallen gr g s
  have marked : mget? (markDone gr s).grids gr = some { g with done := true, acting := false, slot := none } := by
    rw [markDone, mget?_modGrid, if_pos rfl, hg, Option.map_some]
  obtain ⟨b, grid⟩ := frame.grid marked
  have waits : (liveFallen gr g s).part g.part = s.part g.part := (frame.part _).trans (State.part_modGrid ..)
  rw [gridDone_eq hg, waits]
  generalize liveFallen gr g s = u at *
  split
  · next h =>
    refine ⟨?_, fallen, fun hm => absurd hm (by simpa using h)⟩
    rw [State.grid, mget_eq_of_mget? _ grid]
  · refine ⟨?_, fallen, fun _ => by simp⟩
    rw [State.grid_push, State.grid_modPart, State.grid, mget_eq_of_mget? _ grid]

end

/-- The low 56 bits of sr.devtime. -/
theorem devtime_low (s : State) : bitsN s.devtime.toNat 55 0 = s.now % 2 ^ 56 := by
  simp only [State.devtime, bitsN, BitVec.toNat_ofNat]
  omega

section
variable {s : State} {gr : Nat} {g : Grid} (hg : mget? s.grids gr = some g) (hd : g.done = false)
  (hr : g.aborted = true ∨ g.status ≠ 0 ∨ g.retired = g.nGroups)
include hg hd hr

theorem completionAction_acts : completionAction s gr =
    if g.cmplKind == 1 then actStore s gr g else if g.cmplKind == 2 then actRing s gr g else gridDone s gr := by
  have due : (g.done || !(g.aborted || g.status != 0 || g.retired == g.nGroups)) = false := by
    have acts : (g.aborted || g.status != 0 || g.retired == g.nGroups) = true := by simpa [or_assoc] using hr
    rw [hd, acts]; rfl
  simp only [completionAction, hg, due, Bool.false_eq_true, if_false]

theorem completionAction_none (h : g.cmplKind = 0) : completionAction s gr = gridDone s gr := by
  rw [completionAction_acts hg hd hr, h]; rfl

theorem completionAction_stores {s1 : State} (h : g.cmplKind = 1) (ha : g.cmplAddr % 8 = 0)
    (hw : unitWrite (gridRelease s gr (actScope g)) g.part g.cmplAddr (leBytes 8 (g.cmplVal / 256 * 256 + g.status.toNat)) = (.ok, s1)) :
    completionAction s gr = gridDone s1 gr := by
  rw [completionAction_acts hg hd hr, if_pos (by simpa using h), actStore]
  simp only [ha, bne_self_eq_false, Bool.false_eq_true, if_false, hw]

variable {h : RingHdr} {pa : Nat} {s0 : State} (hk : g.cmplKind = 2) (ha : g.cmplAddr % 64 = 0) (hs : g.slot = none)
  (ho : ringOpen s g.part g.cmplAddr = (.ok (h, pa), s0)) (hkind : h.kind = 0) (hsz : 4 ≤ h.log2sz)
include hk ha hs ho hkind hsz

theorem completionAction_publishes {k : Nat} {h' : RingHdr} {s1 s2 : State} (hv : ringReserve s g.part g.cmplAddr = (.ok (k, h'), s1))
    (hw : unitWrite (gridRelease (s1.modGrid gr fun x => { x with slot := some (BitVec.ofNat 64 k) }) gr (actScope g)) g.part (h'.slotVa k)
      (leBytes 8 g.cmplVal ++ leBytes 8 (g.status.toNat + s.now % 2 ^ 56 * 256)) = (.ok, s2)) :
    completionAction s gr = gridDone (ringPublish s2 g.part g.cmplAddr k).2 gr := by
  have clock : s1.now = s.now := by
    have frame := CacheFrame.ringReserve s g.part g.cmplAddr
    rw [hv] at frame
    exact frame.now
  have small : (h.kind != 0 || decide (h.log2sz < 4)) = false := by simp [hkind, hsz]
  rw [completionAction_acts hg hd hr, if_neg (by simp [hk]), if_pos (by simpa using hk), actRing]
  simp only [ha, bne_self_eq_false, Bool.false_eq_true, if_false, ho, small, hs, hv, devtime_low, State.modGrid_now, clock, hw]

theorem completionAction_waits {s1 : State} (hv : ringReserve s g.part g.cmplAddr = (.error .full, s1)) :
    completionAction s gr = actWait s1 gr none := by
  have small : (h.kind != 0 || decide (h.log2sz < 4)) = false := by simp [hkind, hsz]
  rw [completionAction_acts hg hd hr, if_neg (by simp [hk]), if_pos (by simpa using hk), actRing]
  simp only [ha, bne_self_eq_false, Bool.false_eq_true, if_false, ho, small, hs, hv]

end

theorem mem_insertNat (x : Nat) (l : List Nat) : x ∈ insertNat x l := by
  unfold insertNat
  split
  · next h => simpa using h
  · simp

/-- An action that waits for room in its ring. -/
theorem actWait_waits {s : State} {gr : Nat} {g : Grid} (hg : mget? s.grids gr = some g) :
    ((actWait s gr none).grid gr).done = g.done ∧ ((actWait s gr none).grid gr).acting = true ∧
    gr ∈ ((actWait s gr none).part g.part).actWaits ∧ (actWait s gr none).mem = s.mem := by
  have same : s.grid gr = g := mget_eq_of_mget? _ hg
  have waits : actWait s gr none = (s.modPart g.part fun p => { p with actWaits := insertNat gr p.actWaits }).modGrid gr
      fun x => { x with acting := true } := by
    simp only [actWait, same]
  have grid : mget? (actWait s gr none).grids gr = some { g with acting := true } := by
    rw [waits, mget?_modGrid, if_pos rfl, State.modPart_grids, hg, Option.map_some]
  refine ⟨?_, ?_, ?_, ?_⟩
  · rw [State.grid, mget_eq_of_mget? _ grid]
  · rw [State.grid, mget_eq_of_mget? _ grid]
  · rw [waits, State.part_modGrid, State.part_modPart]
    exact mem_insertNat ..
  · rw [waits]; simp

/-- A grid that is done, seen from before what its action has written: its count of bytes and its slot do not matter. -/
theorem gridDone_after {s : State} {gr : Nat} {g : Grid} {b : Nat} {slot : Option W64}
    (hg : mget? s.grids gr = some { g with bytes := b, slot := slot }) :
    ((gridDone s gr).grid gr).done = true ∧ Fallen gr g s (gridDone s gr) := by
  obtain ⟨done, fallen, -⟩ := gridDone_done hg
  exact ⟨done, fallen⟩

end Sys2Proof.Machine

namespace Sys2Proof.Claims
open Sys2Proof.Machine

/-- The completion action of a grid: none, a store, or a publication (02 R41). -/
theorem completionAction_completes (s : State) (gr : Nat) (g : Grid) (hlive : Live s) (hg : mget? s.grids gr = some g) (hd : g.done = false)
    (hr : g.aborted = true ∨ g.status ≠ 0 ∨ g.retired = g.nGroups) :
    (g.cmplKind = 0 → Answers (exec (.completionAction gr) s) fun t => (t.grid gr).done = true ∧ Fallen gr g s t ∧
      (gr ∈ (s.part g.part).actWaits → .dispatcherTakeRecord g.part g.ring ∈ t.agenda)) ∧
    (∀ s1, g.cmplKind = 1 → g.cmplAddr % 8 = 0 →
      unitWrite (gridRelease s gr (actScope g)) g.part g.cmplAddr (leBytes 8 (g.cmplVal / 256 * 256 + g.status.toNat)) = (.ok, s1) →
      Answers (exec (.completionAction gr) s) fun t => (t.grid gr).done = true ∧ Fallen gr g s1 t) ∧
    (∀ h pa s0, g.cmplKind = 2 → g.cmplAddr % 64 = 0 → g.slot = none → ringOpen s g.part g.cmplAddr = (.ok (h, pa), s0) → h.kind = 0 →
      4 ≤ h.log2sz →
      (∀ k h' s1 s2, ringReserve s g.part g.cmplAddr = (.ok (k, h'), s1) →
        unitWrite (gridRelease (s1.modGrid gr fun x => { x with slot := some (BitVec.ofNat 64 k) }) gr (actScope g)) g.part (h'.slotVa k)
          (leBytes 8 g.cmplVal ++ leBytes 8 (g.status.toNat + s.now % 2 ^ 56 * 256)) = (.ok, s2) →
        Answers (exec (.completionAction gr) s) fun t => (t.grid gr).done = true ∧
          Fallen gr g (ringPublish s2 g.part g.cmplAddr k).2 t) ∧
      (∀ s1, ringReserve s g.part g.cmplAddr = (.error .full, s1) → Answers (exec (.completionAction gr) s) fun t =>
        (t.grid gr).done = false ∧ (t.grid gr).acting = true ∧ gr ∈ (t.part g.part).actWaits ∧ t.mem = s1.mem)) := by
  have ran : exec (.completionAction gr) s = .next _ := runEvent_live hlive fun s => completionAction s gr
  refine ⟨fun hk => ?_, fun s1 hk ha hw => ?_, fun h pa s0 hk ha hs ho hkind hsz => ⟨fun k h' s1 s2 hv hw => ?_, fun s1 hv => ?_⟩⟩
  · rw [completionAction_none hg hd hr hk] at ran
    have done := gridDone_done hg
    generalize gridDone s gr = t at *
    exact ⟨_, ran, done⟩
  · rw [completionAction_stores hg hd hr hk ha hw] at ran
    have write := CacheFrame.unitWrite (gridRelease s gr (actScope g)) g.part g.cmplAddr
      (leBytes 8 (g.cmplVal / 256 * 256 + g.status.toNat))
    rw [hw] at write
    obtain ⟨b, grid⟩ := ((CacheFrame.gridRelease s gr (actScope g)).trans write).grid hg
    have done := gridDone_after (g := g) grid
    generalize gridDone s1 gr = t at *
    exact ⟨_, ran, done⟩
  · rw [completionAction_publishes hg hd hr hk ha hs ho hkind hsz hv hw] at ran
    have reserve := CacheFrame.ringReserve s g.part g.cmplAddr
    rw [hv] at reserve
    obtain ⟨b1, grid1⟩ := reserve.grid hg
    have slotted : mget? (s1.modGrid gr fun x => { x with slot := some (BitVec.ofNat 64 k) }).grids gr =
        some { g with bytes := b1, slot := some (BitVec.ofNat 64 k) } := by
      rw [mget?_modGrid, if_pos rfl, grid1, Option.map_some]
    have write := CacheFrame.unitWrite (gridRelease (s1.modGrid gr fun x => { x with slot := some (BitVec.ofNat 64 k) }) gr (actScope g))
      g.part (h'.slotVa k) (leBytes 8 g.cmplVal ++ leBytes 8 (g.status.toNat + s.now % 2 ^ 56 * 256))
    rw [hw] at write
    obtain ⟨b, grid⟩ := ((CacheFrame.gridRelease _ gr (actScope g)).trans (write.trans (.ringPublish s2 g.part g.cmplAddr k))).grid slotted
    have done := gridDone_after (g := g) grid
    generalize gridDone _ gr = t at *
    exact ⟨_, ran, done⟩
  · rw [completionAction_waits hg hd hr hk ha hs ho hkind hsz hv] at ran
    have reserve := CacheFrame.ringReserve s g.part g.cmplAddr
    rw [hv] at reserve
    obtain ⟨b, grid⟩ := reserve.grid hg
    obtain ⟨done, acting, waits, mem⟩ := actWait_waits grid
    generalize actWait s1 gr none = t at *
    exact ⟨_, ran, done.trans hd, acting, waits, mem⟩

end Sys2Proof.Claims

namespace Sys2Proof.Claims
open Sys2Proof.Machine

/-- GRID_CLASSIFY gives a grid its class from its counts (02 R45). -/
theorem gridClassify_classes (s : State) (gr t0 : Nat) (g : Grid) (hlive : Live s) (hg : mget? s.grids gr = some g)
    (hc : g.classified = false) (hf : g.firstPlaced = some t0) (ht : t0 + 2 ^ 20 ≤ s.now) :
    Answers (exec (.gridClassify gr) s) fun t => (t.grid gr).classified = true ∧
      (t.grid gr).cls = (if g.bytes * 1024 < g.macs then .compute else if g.macs < g.bytes * 128 then .memory else .balanced) := by
  have ran : exec (.gridClassify gr) s = .next _ := runEvent_live hlive fun s => gridClassify s gr
  have waited : (g.classified || decide (s.now < t0 + 2 ^ 20)) = false := by rw [hc, decide_eq_false (Nat.not_lt.2 ht)]; rfl
  have grid : mget? (gridClassify s gr).grids gr = some { g with
      classified := true
      cls := if g.bytes * 1024 < g.macs then .compute else if g.macs < g.bytes * 128 then .memory else .balanced } := by
    rw [gridClassify, mget?_modGrid, if_pos rfl, hg]
    simp only [Option.map_some, hf, waited, Bool.false_eq_true, if_false]
  have same : (gridClassify s gr).grid gr = _ := mget_eq_of_mget? _ grid
  generalize gridClassify s gr = t at *
  exact ⟨_, ran, congrArg Grid.classified same, congrArg Grid.cls same⟩

/-- PLACE_CLUSTER: a ring whose grid has no cluster left, one that places, one that is held back (02 R42 to R44). -/
theorem placeCluster_serves (s : State) (n r gr : Nat) (g : Grid) (hlive : Live s) (hp : mget? (s.part n).placing r = some gr)
    (hg : mget? s.grids gr = some g) (ha : g.aborted = false) :
    (g.nClusters ≤ g.nextCluster → Answers (exec (.placeCluster n r) s) fun t => mget? (t.part n).placing r = none ∧
      .dispatcherTakeRecord n r ∈ t.agenda ∧ t.groups = s.groups) ∧
    (r < 4 → g.nextCluster < g.nClusters → (s.part n).state = 1 → ((s.part n).turn.takeWhile (· != r)).find? (canPlace s n) = none →
      (∀ cs, g.coRes = false → chooseCores s n g = some cs → Answers (exec (.placeCluster n r) s) fun t =>
        (t.grid gr).nextCluster = g.nextCluster + 1 ∧
        (∃ cl, mget? t.clusters s.nextId = some cl ∧ cl.number = g.nextCluster ∧ cl.groups.length = cs.length) ∧
        .placeCluster n r ∈ t.agenda ∧ mget? (t.part n).held r = none ∧ (t.part n).nextRing = (r + 1) % 4) ∧
      (∀ u, g.coRes = true → placeMany n gr (g.nClusters - g.nextCluster) s = some u → Answers (exec (.placeCluster n r) s) fun t =>
        (t.grid gr).nextCluster = g.nClusters ∧ .placeCluster n r ∈ t.agenda ∧ mget? (t.part n).held r = none) ∧
      (g.coRes = false → chooseCores s n g = none → Answers (exec (.placeCluster n r) s) fun t =>
        mget? (t.part n).held r = some (mget s.now (s.part n).held r) ∧ t.groups = s.groups ∧ t.grids = s.grids)) := by
  have ran : exec (.placeCluster n r) s = .next _ := runEvent_live hlive fun s => placeCluster s n r
  have same : s.grid gr = g := mget_eq_of_mget? _ hg
  refine ⟨fun h => ?_, fun hr4 hn hs ht => ⟨fun cs hco hcs => ?_, fun u hco hu => ?_, fun hco hcs => ?_⟩⟩
  · rw [placeCluster_finishes hp hg h] at ran
    refine ⟨_, ran, ?_, ?_, ?_⟩
    · simp [finishRing, mget?_del_same]
    · simp [finishRing]
    · simp [finishRing]
  · have many : placeMany n gr (todoOf g) s = some (placeClusterOn gr cs s) := by
      simp [todoOf, hco, placeMany, same, hcs]
    obtain ⟨parts, ⟨g', grid, next⟩, cluster⟩ := placeClusterOn_placed cs hg
    rw [placeCluster_places hp hg ha hn hs ht many] at ran
    have part : (placeClusterOn gr cs s).part n = s.part n := by rw [State.part, parts]; rfl
    obtain ⟨grids, clusters, again, held, turn⟩ := ringServed_serves hr4 (part ▸ hp)
    have count : ((ringServed n r (placeClusterOn gr cs s)).grid gr).nextCluster = g.nextCluster + 1 := by
      rw [State.grid, grids, mget_eq_of_mget? _ grid, next]
    rw [← clusters] at cluster
    generalize ringServed n r (placeClusterOn gr cs s) = t at *
    exact ⟨_, ran, count, cluster, again, held, turn⟩
  · have many : placeMany n gr (todoOf g) s = some u := by rw [todoOf, hco]; exact hu
    obtain ⟨parts, g', grid, next⟩ := placeMany_places _ hg hu
    rw [placeCluster_places hp hg ha hn hs ht many] at ran
    have part : u.part n = s.part n := by rw [State.part, parts]; rfl
    obtain ⟨grids, -, again, held, -⟩ := ringServed_serves hr4 (part ▸ hp)
    have count : ((ringServed n r u).grid gr).nextCluster = g.nClusters := by
      rw [State.grid, grids, mget_eq_of_mget? _ grid, next]
      omega
    generalize ringServed n r u = t at *
    exact ⟨_, ran, count, again, held⟩
  · have none : placeMany n gr (todoOf g) s = none := by simp [todoOf, hco, placeMany, same, hcs]
    rw [placeCluster_holds hp hg ha hn hs ht none] at ran
    refine ⟨_, ran, ?_, ?_, ?_⟩
    · simp
    · simp
    · simp

end Sys2Proof.Claims

namespace Sys2Proof.Claims
open Sys2Proof.Machine

/-- Settles O44: the checks of a record, the placement of clusters, the class of a grid, retirement, completion actions. -/
theorem dispatchEventsComplete : Obligations.DispatchEventsComplete := by
  unfold Obligations.DispatchEventsComplete
  exact ⟨fun s s1 n r va bs => dispatcherTakeRecord_checks s s1 n r va bs, placeCluster_serves, gridClassify_classes, groupRetire_retires,
    completionAction_completes⟩

end Sys2Proof.Claims
end

section
/-! SUPPORT. RESUME and ABORT of a record of the fault ring. -/

namespace Sys2Proof.Machine

/-! ### RESUME and ABORT of a fault (10 R230; 11 R257) -/

theorem State.dropRecs_frame (s : State) (n : Nat) (l : List (BitVec 32)) :
    { s.dropRecs n l with parts := s.parts, recWaits := s.recWaits } = s := by
  unfold State.dropRecs
  dsimp only
  split <;> rfl

/-- A core's translations of a partition are gone after its walks have been made fresh. -/
theorem freshWalks_tlb (s : State) (c n : Nat) : ∀ e ∈ ((freshWalks s c n).core c).tlb, e.part ≠ n := by
  have tlb : ((freshWalks s c n).core c).tlb = (s.core c).tlb.filter fun t => t.part != n :=
    congrArg Core.tlb (State.core_modCore s c fun k => { k with tlb := k.tlb.filter fun t => t.part != n })
  intro e he
  rw [tlb] at he
  simpa using (List.mem_filter.1 he).2

/-- The state in which a parked warp runs on. -/
def warpResumed (c w : Nat) (skip : Bool) (s : State) : State :=
  s.modWarp c w fun x => { (if skip then x.advance false else x) with nextIssue := max x.nextIssue (s.now + 1) }

/-- A group whose only record is of a warp, and has been resumed, runs on. -/
theorem runOn_warp {s : State} {gid w : Nat} {fid : BitVec 32} {skip : Bool} (hp : (s.group gid).phase = .resident)
    (hf : (s.group gid).fids = [(fid, .warp w skip, true)]) :
    runOn s gid = warpResumed (s.group gid).core w skip
      ((freshWalks s (s.group gid).core (s.partOf gid)).modGroup gid fun x => { x with fids := [] }) := by
  simp only [runOn, hp, hf]
  rfl

theorem mget?_modGroup (s : State) (n k : Nat) (f : Group → Group) :
    mget? (s.modGroup n f).groups k = if n = k then (mget? s.groups k).map f else mget? s.groups k := by
  unfold State.modGroup
  by_cases h : n = k
  · subst h
    cases hg : mget? s.groups n <;> simp [hg]
  · cases hg : mget? s.groups n <;> simp [h, mget?_put_ne]

end Sys2Proof.Machine

namespace Sys2Proof.Machine

/-- A warp runs on, and its group holds no record. -/
theorem warpResumed_modGroup {s : State} {gid c w : Nat} {g : Group} {x : Warp} {skip : Bool} (hg : mget? s.groups gid = some g)
    (hx : s.warp? c w = some x) : warpResumed c w skip (s.modGroup gid fun y => { y with fids := [] }) =
      (s.setGroup gid { g with fids := [] }).setWarp c w
        { (if skip then x.advance false else x) with nextIssue := max x.nextIssue (s.now + 1) } := by
  simp only [warpResumed, State.modGroup, hg]
  exact State.modWarp_some (s := s.setGroup gid { g with fids := [] }) hx _

/-- A record that parks a warp alone is resumed. -/
theorem fltResume_eq {s : State} {n gid w : Nat} {fid : BitVec 32} {g : Group} {skip : Bool} (hf : fidGroup s n fid = some gid)
    (hg : mget? s.groups gid = some g) (hp : g.phase = .resident) (hw : g.fids = [(fid, .warp w skip, false)]) :
    ∃ u, fltResume s n fid = warpResumed g.core w skip ((freshWalks u g.core (s.partOf gid)).modGroup gid fun x => { x with fids := [] }) ∧
      (∃ x, mget? u.groups gid = some x) ∧ u.warps = s.warps ∧ u.now = s.now ∧ u.mem = s.mem := by
  let f : Group → Group := fun x => { x with fids := x.fids.map fun f => if f.1 == fid then (f.1, f.2.1, true) else f }
  have found : mget? (s.dropRecs n [fid]).groups gid = some g := by rw [State.dropRecs_groups, hg]
  have group : ((s.dropRecs n [fid]).modGroup gid f).group gid = f g := by
    rw [State.group, mget_eq_of_mget? _ (by rw [mget?_modGroup, if_pos rfl, found, Option.map_some])]
  have grids : ((s.dropRecs n [fid]).modGroup gid f).grids = s.grids := by
    have h := State.dropRecs_frame s n [fid]
    rw [State.modGroup, found]
    exact (congrArg State.grids h :)
  have part : ((s.dropRecs n [fid]).modGroup gid f).partOf gid = s.partOf gid := by
    rw [State.partOf, State.gridOf, group, State.grid, grids, State.partOf, State.gridOf, State.grid, State.group, mget_eq_of_mget? _ hg]
  refine ⟨(s.dropRecs n [fid]).modGroup gid f, ?_, ⟨f g, by rw [mget?_modGroup, if_pos rfl, found, Option.map_some]⟩, ?_⟩
  · have run := runOn_warp (s := (s.dropRecs n [fid]).modGroup gid f) (gid := gid) (w := w) (fid := fid) (skip := skip)
      (by rw [group]; exact hp) (by rw [group]; simp [f, hw])
    rw [part, group] at run
    simp only [fltResume, hf]
    exact run
  · have h := State.dropRecs_frame s n [fid]
    rw [State.modGroup, found]
    exact ⟨(congrArg State.warps h :), (congrArg State.now h :), (congrArg State.mem h :)⟩

/-- A grid that is aborted is aborted with status 4, and its completion action follows; records that wait come to no other grid. -/
theorem abortGrid_aborts {s : State} {n : Nat} {gr : Grid} (hg : mget? s.grids n = some gr) (ha : gr.aborted = false) (hd : gr.done = false) :
    ((s.abortGrid n).grid n).aborted = true ∧ ((s.abortGrid n).grid n).status = 4 ∧ .completionAction n ∈ (s.abortGrid n).agenda ∧
      (s.recWaits = [] → (s.abortGrid n).recWaits = [] ∧ (s.abortGrid n).parts = s.parts) := by
  have free := FreeFrame.foldl freeGroup_frame ((s.groups.filter fun x => x.2.grid == n && x.2.phase != .gone).map (·.1)) s
  unfold State.abortGrid
  simp only [hg, ha, hd, Bool.or_self, Bool.false_eq_true, if_false, if_true]
  generalize List.foldl _ s _ = u at *
  have aborted : mget? (u.modGrid n fun x => { x with aborted := true, status := 4 }).grids n = some { gr with aborted := true, status := 4 } := by
    rw [mget?_modGrid, if_pos rfl, free.grids, hg, Option.map_some]
  have rest := modGrid_frame u n fun x => { x with aborted := true, status := 4 }
  generalize u.modGrid n _ = v at *
  obtain ⟨l, told⟩ := Pushes.retryPlacement (v.push (.completionAction n)) gr.part
  rw [told]
  have grid : v.grid n = { gr with aborted := true, status := 4 } := mget_eq_of_mget? _ aborted
  refine ⟨congrArg Grid.aborted grid, congrArg Grid.status grid, by simp, fun h => ?_⟩
  obtain ⟨waits, parts⟩ := free.recs h
  exact ⟨(congrArg State.recWaits rest :).trans waits, (congrArg State.parts rest :).trans parts⟩

end Sys2Proof.Machine

namespace Sys2Proof.Claims
open Sys2Proof.Machine

/-- RESUME of a record that parks a warp alone (11 R257). -/
theorem fltrespResume_resumes {s : State} {n gid w : Nat} {fid : BitVec 32} {g : Group} {skip : Bool} {x : Warp} (hlive : Live s)
    (hf : fidGroup s n fid = some gid) (hg : mget? s.groups gid = some g) (hp : g.phase = .resident)
    (hw : g.fids = [(fid, .warp w skip, false)]) (hx : s.warp? g.core w = some x) :
    Answers (exec (.fltrespResume n fid) s) fun t => (t.group gid).fids = [] ∧
      t.warp g.core w = { (if skip then x.advance false else x) with nextIssue := max x.nextIssue (s.now + 1) } ∧ t.mem = s.mem ∧
      ∀ e ∈ (t.core g.core).tlb, e.part ≠ s.partOf gid := by
  have ran : exec (.fltrespResume n fid) s = .next _ := runEvent_live hlive fun s => fltResume s n fid
  obtain ⟨u, resumed, ⟨y, found⟩, warps, now, mem⟩ := fltResume_eq hf hg hp hw
  rw [resumed] at ran
  have warp : (freshWalks u g.core (s.partOf gid)).warp? g.core w = some x := (congrArg (mget? · (wkey g.core w)) warps).trans hx
  have fresh := freshWalks_tlb u g.core (s.partOf gid)
  have later : (freshWalks u g.core (s.partOf gid)).now = s.now := now
  have same : (freshWalks u g.core (s.partOf gid)).mem = s.mem := mem
  rw [warpResumed_modGroup (s := freshWalks u g.core (s.partOf gid)) (gid := gid) found warp] at ran
  generalize freshWalks u g.core (s.partOf gid) = v at *
  refine ⟨_, ran, ?_, ?_, same, fresh⟩
  · exact congrArg Group.fids (mget_put_same _ _ _ _)
  · exact (mget_put_same _ _ _ _).trans (by rw [later])

/-- ABORT of a record's grid (10 R230; 11 R257). -/
theorem fltrespAbort_aborts {s : State} {n gid : Nat} {fid : BitVec 32} {g : Group} {gr : Grid} (hlive : Live s)
    (hf : fidGroup s n fid = some gid) (hg : mget? s.groups gid = some g) (hgr : mget? s.grids g.grid = some gr)
    (ha : gr.aborted = false) (hd : gr.done = false) :
    Answers (exec (.fltrespAbort n fid) s) fun t => (t.grid g.grid).aborted = true ∧ (t.grid g.grid).status = 4 ∧
      .completionAction g.grid ∈ t.agenda := by
  have ran : exec (.fltrespAbort n fid) s = .next _ := runEvent_live hlive fun s => fltAbort s n fid
  have group : s.group gid = g := mget_eq_of_mget? _ hg
  obtain ⟨aborted, status, action, -⟩ := abortGrid_aborts hgr ha hd
  simp only [fltAbort, hf, group] at ran
  exact ⟨_, ran, aborted, status, action⟩

end Sys2Proof.Claims
end

section
/-! SUPPORT. Acknowledgements of the fault ring, and the registers of the ticket tables and of the launch rings. -/

namespace Sys2Proof.Machine

theorem State.part_of_parts {s t : State} (h : t.parts = s.parts) (n : Nat) : t.part n = s.part n := by
  rw [State.part, h]
  rfl

/-- A write to the management page takes effect in a device that has power. -/
theorem runMgmt_power {s : State} (h : s.mgmt.power = true) (f : State → State) : runMgmt f s = .next (f s).useFree := by
  simp [runMgmt, h]

/-! ### FLTACK (10 R231; 11 R257) -/

theorem ackMany_frame (n hdr k : Nat) (s : State) : CacheFrame s (ackMany n hdr k s) := by
  induction k generalizing s with
  | zero => exact .refl s
  | succ k ih =>
    have taken := CacheFrame.ringTake s n hdr
    rw [ackMany]
    split
    · next h => rw [h] at taken; exact taken.trans (ih _)
    · next h => rw [h] at taken; exact taken

theorem fltack_usable {s : State} {n k : Nat} (hok : fltRingOk s n = true) (hrec : s.recWaits = []) :
    fltack s n k = ackMany n (s.part n).fltring.toNat (min k 65536) s := by
  rw [fltack, if_pos hok, (ackMany_frame ..).recWaits, hrec, serveRecs]

/-- Without a usable ring, the one record that waits is dropped and its group's grid aborted. -/
theorem fltack_unusable {s : State} {n k g : Nat} {b : BitVec 512} (hok : fltRingOk s n = false) (hrec : s.recWaits = [(n, b)])
    (hf : fidGroup s n (recFid b) = some g) :
    fltack s n k = (countDrop { s with recWaits := [] } n).abortGrid (s.group g).grid := by
  have found : fidGroup (countDrop { s with recWaits := s.recWaits.erase (n, b) } n) n (recFid b) = some g := hf
  have bad : fltRingOk s n ≠ true := by simp [hok]
  have erased : s.recWaits.erase (n, b) = [] := by simp [hrec]
  rw [fltack, if_neg bad]
  simp only [hrec, serveRecs, bne_self_eq_false, Bool.false_eq_true, if_false, hok, Bool.not_false, if_true]
  rw [hrec] at found
  rw [found]
  simp
  rfl

/-! ### Tickets and launch rings (02 R37; 08 R191, R192) -/

theorem tkcfgSet_lease {s : State} {n : Nat} {v : W64} (hl : 10 ≤ v.toNat % 32) (hu : v.toNat % 32 ≤ 30) :
    tkcfgSet s n v = s.modPart n fun p => { p with lease := v.extractLsb' 0 5 } := by
  have field : bitsN v.toNat 4 0 = v.toNat % 32 := by simp [bitsN]
  have lease : BitVec.ofNat 5 (v.toNat % 32) = v.extractLsb' 0 5 := BitVec.eq_of_toNat_eq (by simp)
  rw [tkcfgSet, field, if_pos (by simp [hl, hu]), lease]

theorem quotaSet_quota {s : State} {n : Nat} {v : W64} (hn : n < 16) (hq : v.toNat % 2048 ≤ 1024)
    (hs : quotaSum s - (s.part n).quota + v.toNat % 2048 ≤ 1024) :
    Pushes (s.modPart n fun p => { p with quota := v.toNat % 2048 }) (quotaSet s n v) := by
  have field : bitsN v.toNat 10 0 = v.toNat % 2048 := by simp [bitsN]
  rw [quotaSet, field]
  dsimp only
  rw [if_pos (by simp [hn, hq, hs])]
  exact ⟨_, foldl_push ..⟩

/-- A launch ring's register holds the bits that are not reserved, and the dispatcher examines the ring where EN is written. -/
theorem lringWrite_ring {s : State} {n r : Nat} (hr : r < 4) (v : W64) :
    mget 0 ((lringWrite s n r v).part n).lring r = v &&& 0x0000FFFFFFFFFFC1#64 ∧
      (v.getLsbD 0 = true → .dispatcherTakeRecord n r ∈ (lringWrite s n r v).agenda) := by
  have enabled : (v &&& 0x0000FFFFFFFFFFC1#64).getLsbD 0 = v.getLsbD 0 := by simp
  rw [lringWrite, if_neg (by omega)]
  dsimp only
  rw [enabled]
  cases v.getLsbD 0 <;> simp [State.push, State.part]

end Sys2Proof.Machine

namespace Sys2Proof.Claims
open Sys2Proof.Machine

/-- An acknowledgement of records of the fault ring (10 R231). -/
theorem fltack_acks {s : State} (n k : Nat) (hlive : Live s) :
    (fltRingOk s n = true → s.recWaits = [] → Answers (exec (.fltack n k) s) fun t =>
      t.mem = (ackMany n (s.part n).fltring.toNat (min k 65536) s).mem ∧ t.warps = s.warps) ∧
    (∀ b g gr, fltRingOk s n = false → s.recWaits = [(n, b)] → fidGroup s n (recFid b) = some g →
      mget? s.grids (s.group g).grid = some gr → gr.aborted = false → gr.done = false → Answers (exec (.fltack n k) s) fun t =>
        t.recWaits = [] ∧ (t.part n).fltstat = (s.part n).fltstat + 1 ∧ (t.grid (s.group g).grid).aborted = true) := by
  have ran : exec (.fltack n k) s = .next _ := runEvent_live hlive fun s => fltack s n k
  refine ⟨fun hok hrec => ?_, fun b g gr hok hrec hf hg ha hd => ?_⟩
  · have warps := (ackMany_frame n (s.part n).fltring.toNat (min k 65536) s).warps
    rw [fltack_usable hok hrec] at ran
    exact ⟨_, ran, rfl, warps⟩
  · rw [fltack_unusable hok hrec hf] at ran
    obtain ⟨aborted, -, -, kept⟩ := abortGrid_aborts (s := countDrop { s with recWaits := [] } n) hg ha hd
    obtain ⟨recs, parts⟩ := kept rfl
    refine ⟨_, ran, recs, ?_, aborted⟩
    exact (congrArg Part.fltstat (State.part_of_parts parts n)).trans (congrArg Part.fltstat (State.part_modPart ..))

/-- The registers of the ticket tables and of the launch rings (02 R37; 08 R191, R192). -/
theorem tkcfg_tkstat_tkquota_lring_write {s : State} (n : Nat) (v : W64) (hlive : Live s) :
    (10 ≤ v.toNat % 32 → v.toNat % 32 ≤ 30 → Answers (exec (.tkcfgWrite n v) s) fun t =>
      t.part n = { s.part n with lease := v.extractLsb' 0 5 }) ∧
    Answers (exec (.tkstatWrite n v) s) (fun t => t.part n = { s.part n with lapsed := 0 }) ∧
    (n < 16 → v.toNat % 2048 ≤ 1024 → quotaSum s - (s.part n).quota + v.toNat % 2048 ≤ 1024 →
      Answers (exec (.tkquotaWrite n v) s) fun t => t.part n = { s.part n with quota := v.toNat % 2048 }) ∧
    (∀ r, r < 4 → Answers (exec (.lringWrite n r v) s) fun t => mget 0 (t.part n).lring r = v &&& 0x0000FFFFFFFFFFC1#64 ∧
      (v.getLsbD 0 = true → .dispatcherTakeRecord n r ∈ t.agenda)) := by
  refine ⟨fun hl hu => ?_, ?_, fun hn hq hs => ?_, fun r hr => ?_⟩
  · have ran : exec (.tkcfgWrite n v) s = .next _ := runEvent_live hlive fun s => tkcfgSet s n v
    rw [tkcfgSet_lease hl hu] at ran
    exact ⟨_, ran, by simp [State.part]⟩
  · have ran : exec (.tkstatWrite n v) s = .next _ := runEvent_live hlive fun s => s.modPart n fun p => { p with lapsed := 0 }
    exact ⟨_, ran, by simp [State.part]⟩
  · have ran : exec (.tkquotaWrite n v) s = .next _ := runMgmt_power hlive.power fun s => quotaSet s n v
    obtain ⟨l, told⟩ := quotaSet_quota hn hq hs
    rw [told] at ran
    exact ⟨_, ran, by simp [State.part]⟩
  · have ran : exec (.lringWrite n r v) s = .next _ := runEvent_live hlive fun s => lringWrite s n r v
    exact ⟨_, ran, lringWrite_ring hr v⟩

end Sys2Proof.Claims
end

section
/-! SUPPORT. The host's commands for a ring. -/

namespace Sys2Proof.Machine

/-! ### Command channels of the host (12 R273, R274) -/

theorem withOp_toNat {op : Nat} (h : op < 4) (lo : W64) : (withOp op lo).toNat = 2 ^ 62 * op + lo.toNat % 2 ^ 62 := by
  have low : (0x3FFFFFFFFFFFFFFF#64).toNat = 2 ^ 62 - 1 := rfl
  have high : op * 2 ^ 62 % 2 ^ 64 = 2 ^ 62 * op := by omega
  rw [withOp, BitVec.toNat_or, BitVec.toNat_and, low, BitVec.toNat_ofNat, high, Nat.and_two_pow_sub_one_eq_mod,
    Nat.two_pow_add_eq_or_of_lt (Nat.mod_lt _ (by decide)), Nat.or_comm]

/-- The fields of a command: its OP, the bits that are zero in one that is no error, and the VA of its header. -/
theorem withOp_fields {op : Nat} (h : op < 4) (lo : W64) : bitsN (withOp op lo).toNat 63 62 = op ∧
    bitsN (withOp op lo).toNat 61 48 = lo.toNat / 2 ^ 48 % 2 ^ 14 ∧ bitsN (withOp op lo).toNat 47 0 = lo.toNat % 2 ^ 48 := by
  rw [withOp_toNat h]
  simp only [bitsN]
  omega

/-- The channel of a partition. -/
def State.chan (s : State) (n ch : Nat) : Chan := mget {} (s.part n).chans ch

@[simp] theorem State.chan_setChan (s : State) (n ch : Nat) (f : Chan → Chan) : (s.setChan n ch f).chan n ch = f (s.chan n ch) := by
  simp [State.chan, State.setChan]

/-- A command whose word is kept starts on its channel. -/
theorem hrcmdBoth_eq {s : State} {n ch op : Nat} {lo : W64} (slot : W64) (hc : ch < 4) (hp : (s.part n).state ≠ 0) (ho : op < 4) (h0 : op ≠ 0) :
    hrcmdBoth s n ch (withOp op lo) slot =
      let u := s.setChan n ch fun x => { x with lo := withOp op lo }
      if (s.chan n ch).done then hrcmd u n ch (withOp op lo) slot
      else u.setChan n ch fun c => { c with done := true, slot := u.free 97200, status := (u.free 97201).extractLsb' 0 8, page := none } := by
  obtain ⟨hop, -, -⟩ := withOp_fields ho lo
  have state : ((s.setChan n ch fun x => { x with lo := withOp op lo }).part n).state = (s.part n).state := by simp [State.setChan]
  have done : (mget {} ((s.setChan n ch fun x => { x with lo := withOp op lo }).part n).chans ch).done = (s.chan n ch).done :=
    (congrArg Chan.done (State.chan_setChan s n ch fun x => { x with lo := withOp op lo }) :)
  simp only [hrcmdBoth, hrcmdStart, hop, state, done]
  rw [if_neg (by simpa [hc] using hp), if_neg (by simpa [h0, hc] using hp)]
  cases (s.chan n ch).done <;> rfl

section
variable {s : State} {n ch hdr : Nat} {cmd slot : W64} (hz : bitsN cmd.toNat 61 48 = 0) (hh : bitsN cmd.toNat 47 0 = hdr)
  (ha : hdr % 64 = 0)
include hz hh ha

theorem hrcmd_reserve {k : Nat} {h : RingHdr} {s1 : State} (hop : bitsN cmd.toNat 63 62 = 1)
    (hr : ringReserve s n hdr = (.ok (k, h), s1)) : hrcmd s n ch cmd slot = chanDone s1 n ch 0 (some k) := by
  simp [hrcmd, hop, hz, hh, ha, hr]

theorem hrcmd_publish {h : RingHdr} {s1 : State} (hop : bitsN cmd.toNat 63 62 = 2) (hb : s.hostBehind n = false)
    (hr : ringPublish s n hdr slot.toNat = (.ok h, s1)) : hrcmd s n ch cmd slot = chanDone s1 n ch 0 none := by
  simp [hrcmd, hop, hz, hh, ha, hb, hr]

theorem hrcmd_publish_waits (hop : bitsN cmd.toNat 63 62 = 2) (hb : s.hostBehind n = true) :
    hrcmd s n ch cmd slot = chanWait s n ch cmd slot none := by
  simp [hrcmd, hop, hz, hh, ha, hb]

theorem hrcmd_take {h : RingHdr × Nat} {s0 : State} {k : Nat} {h' : RingHdr} {s1 : State} (hop : bitsN cmd.toNat 63 62 = 3)
    (ho : ringOpen s n hdr = (.ok h, s0)) (hk : h.1.kind = 0) (hr : ringTake s n hdr = (.ok (k, h'), s1)) :
    hrcmd s n ch cmd slot = chanDone s1 n ch 0 (some k) := by
  simp [hrcmd, hop, hz, hh, ha, ho, hk, hr]

end

/-- A command that has succeeded. -/
theorem chanDone_chan (s : State) (n ch status : Nat) (slot : Option Nat) :
    (chanDone s n ch status slot).chan n ch =
      { s.chan n ch with done := true, status := BitVec.ofNat 8 status, slot := (slot.map (BitVec.ofNat 64)).getD (s.chan n ch).slot,
                         page := none } := by
  rw [chanDone, State.chan_setChan]
  cases slot <;> rfl

end Sys2Proof.Machine

namespace Sys2Proof.Claims
open Sys2Proof.Machine

/-- The host's commands of a channel: they reserve, publish and take (12 R273, R274). -/
theorem hrcmd_commands {s : State} {n ch : Nat} {lo slot : W64} (hlive : Live s) (hc : ch < 4) (hp : (s.part n).state ≠ 0)
    (hz : lo.toNat / 2 ^ 48 % 2 ^ 14 = 0) :
    let hdr := lo.toNat % 2 ^ 48
    let chan := fun (t : State) => mget {} (t.part n).chans ch
    let u := fun (op : Nat) => s.setChan n ch fun x => { x with lo := withOp op lo }
    let ends := fun (t : State) => (chan t).done = true ∧ (chan t).status = 0
    hdr % 64 = 0 → (chan s).done = true →
    (∀ k h s1, ringReserve (u 1) n hdr = (.ok (k, h), s1) → Answers (exec (.hrcmdReserve n ch lo) s) fun t =>
      ends t ∧ (chan t).slot = BitVec.ofNat 64 k ∧ t.mem = s1.mem) ∧
    (∀ h s1, s.hostBehind n = false → ringPublish (u 2) n hdr slot.toNat = (.ok h, s1) →
      Answers (exec (.hrcmdPublish n ch lo slot) s) fun t => ends t ∧ t.mem = s1.mem) ∧
    (s.hostBehind n = true → Answers (exec (.hrcmdPublish n ch lo slot) s) fun t =>
      (chan t).done = false ∧ (chan t).slot = (chan s).slot ∧ t.mem = s.mem) ∧
    (∀ h s0 k h' s1, ringOpen (u 3) n hdr = (.ok h, s0) → h.1.kind = 0 → ringTake (u 3) n hdr = (.ok (k, h'), s1) →
      Answers (exec (.hrcmdTake n ch lo) s) fun t => ends t ∧ (chan t).slot = BitVec.ofNat 64 k ∧ t.mem = s1.mem) := by
  intro hdr chan u ends ha hd
  have starts : ∀ op slot, op < 4 → op ≠ 0 → hrcmdBoth s n ch (withOp op lo) slot = hrcmd (u op) n ch (withOp op lo) slot :=
    fun op slot ho h0 => (hrcmdBoth_eq slot hc hp ho h0).trans (if_pos hd)
  have done : ∀ (s1 : State) slot, ends (chanDone s1 n ch 0 slot).useFree := fun s1 slot =>
    ⟨congrArg Chan.done (chanDone_chan ..), congrArg Chan.status (chanDone_chan ..)⟩
  refine ⟨fun k h s1 hr => ?_, fun h s1 hb hr => ?_, fun hb => ?_, fun h s0 k h' s1 ho hk hr => ?_⟩
  · have ran : exec (.hrcmdReserve n ch lo) s = .next _ := runEvent_live hlive fun s => hrcmdBoth s n ch (withOp 1 lo) 0
    obtain ⟨hop, hzero, hhdr⟩ := withOp_fields (op := 1) (by decide) lo
    rw [starts 1 _ (by decide) (by decide), hrcmd_reserve (s := u 1) (hzero.trans hz) hhdr ha hop hr] at ran
    exact ⟨_, ran, done .., congrArg Chan.slot (chanDone_chan s1 n ch 0 (some k)), rfl⟩
  · have ran : exec (.hrcmdPublish n ch lo slot) s = .next _ := runEvent_live hlive fun s => hrcmdBoth s n ch (withOp 2 lo) slot
    obtain ⟨hop, hzero, hhdr⟩ := withOp_fields (op := 2) (by decide) lo
    rw [starts 2 _ (by decide) (by decide), hrcmd_publish (s := u 2) (hzero.trans hz) hhdr ha hop hb hr] at ran
    exact ⟨_, ran, done .., rfl⟩
  · have ran : exec (.hrcmdPublish n ch lo slot) s = .next _ := runEvent_live hlive fun s => hrcmdBoth s n ch (withOp 2 lo) slot
    obtain ⟨hop, hzero, hhdr⟩ := withOp_fields (op := 2) (by decide) lo
    rw [starts 2 _ (by decide) (by decide), hrcmd_publish_waits (s := u 2) (hzero.trans hz) hhdr ha hop hb] at ran
    have waits : (chanWait (u 2) n ch (withOp 2 lo) slot none).chan n ch = _ := State.chan_setChan ..
    refine ⟨_, ran, congrArg Chan.done waits, (congrArg Chan.slot waits).trans ?_, rfl⟩
    exact (congrArg Chan.slot (State.chan_setChan s n ch fun x => { x with lo := withOp 2 lo }) :)
  · have ran : exec (.hrcmdTake n ch lo) s = .next _ := runEvent_live hlive fun s => hrcmdBoth s n ch (withOp 3 lo) 0
    obtain ⟨hop, hzero, hhdr⟩ := withOp_fields (op := 3) (by decide) lo
    rw [starts 3 _ (by decide) (by decide), hrcmd_take (s := u 3) (hzero.trans hz) hhdr ha hop ho hk hr] at ran
    exact ⟨_, ran, done .., congrArg Chan.slot (chanDone_chan s1 n ch 0 (some k)), rfl⟩

/-- A second command before DONE ends the first (DESIGN CHOICE, log 50). -/
theorem hrcmd_second {s : State} {n ch : Nat} {lo : W64} (hlive : Live s) (hc : ch < 4) (hp : (s.part n).state ≠ 0)
    (hd : (mget {} (s.part n).chans ch).done = false) :
    Answers (exec (.hrcmdReserve n ch lo) s) fun t => (mget {} (t.part n).chans ch).done = true ∧ t.mem = s.mem := by
  have ran : exec (.hrcmdReserve n ch lo) s = .next _ := runEvent_live hlive fun s => hrcmdBoth s n ch (withOp 1 lo) 0
  have done : (s.chan n ch).done = false := hd
  rw [hrcmdBoth_eq 0 hc hp (by decide) (by decide), if_neg (by simp [done])] at ran
  generalize (s.setChan n ch fun x => { x with lo := withOp 1 lo }).free 97200 = slot,
    ((s.setChan n ch fun x => { x with lo := withOp 1 lo }).free 97201).extractLsb' 0 8 = status at ran
  refine ⟨_, ran, ?_, rfl⟩
  exact congrArg Chan.done (State.chan_setChan (s.setChan n ch fun x => { x with lo := withOp 1 lo }) n ch
    fun c => { c with done := true, slot := slot, status := status, page := none })

end Sys2Proof.Claims
end

section
/-! SUPPORT. Signals, and a partition that is made. -/

namespace Sys2Proof.Machine

/-! ### Signals (12 R270, R275) -/

theorem State.signal_signalled (s : State) (fn : Nat) {vec : Nat} (h : vec < 64) : Signalled fn vec s (s.signal fn vec) := by
  constructor <;> intro hm
  · simp [State.signal, hm]
  · simp [State.signal, hm, h]

/-- What counts for a signal of a state before it is what has gone out and the tables of the vectors. -/
theorem Signalled_of_same {fn vec : Nat} {s u t : State} (ho : u.out = s.out) (hm : u.msix = s.msix) (h : Signalled fn vec u t) :
    Signalled fn vec s t := by
  have masked : u.masked fn vec = s.masked fn vec := by rw [State.masked, State.msixWord, hm]; rfl
  rw [Signalled, masked, ho] at h
  exact h

/-! ### The end of a command of PCTL (12 R277) -/

theorem pctlDone_frame (s : State) (n result : Nat) :
    CacheFrame (s.modPart n fun p => { p with busy := false, result := BitVec.ofNat 8 result }) (pctlDone s n result) := .signal ..

theorem pctlDone_part (s : State) (n result : Nat) :
    (pctlDone s n result).part n = { s.part n with busy := false, result := BitVec.ofNat 8 result } :=
  ((pctlDone_frame ..).part n).trans (State.part_modPart ..)

theorem State.signal_mem (s : State) (fn vec : Nat) : (s.signal fn vec).mem = s.mem := by
  unfold State.signal
  split <;> rfl

theorem pctlDone_mem (s : State) (n result : Nat) : (pctlDone s n result).mem = s.mem := State.signal_mem ..

theorem pctlDone_signalled (s : State) (n result : Nat) : Signalled 0 s.mgmt.mgtint.toNat s (pctlDone s n result) :=
  Signalled_of_same (u := s.modPart n fun p => { p with busy := false, result := BitVec.ofNat 8 result }) rfl rfl
    (State.signal_signalled _ 0 s.mgmt.mgtint.isLt)

/-! ### Create (12 R278) -/

theorem emptyTlbs_frame (s : State) (cs : List Nat) : { emptyTlbs s cs with cores := s.cores } = s :=
  foldl_keeps (R := fun s t => { t with cores := s.cores } = s)
    (f := fun s c => s.modCore c fun k => { k with tlb := [] }) (fun _ => rfl)
    (fun {s _ _} h g => (congrArg (fun x : State => { x with cores := s.cores }) g).trans h) (fun _ _ => rfl) cs s

theorem heldElsewhere_modPart {s : State} {n c : Nat} (f : Part → Part) (h : heldElsewhere s n c = false) :
    heldElsewhere (s.modPart n f) n c = false := by
  simp only [heldElsewhere, List.any_eq_false, State.modPart_parts] at h ⊢
  intro q hq
  rcases mem_of_mem_put hq with rfl | hq
  · simp
  · exact h q hq

/-- A partition that is made: its frames are zero, it has a tag key, a page at its reset values and its cores. -/
def created (s : State) (n : Nat) : State :=
  (drawKey (clearFrames (s.modPart n fun p => { p with op := 1 }) (s.part n)) n).modPart n
    fun p => { resetPage p false with state := 1, cores := maskCores p.pcore }

theorem pctlCreate_eq {s : State} {n : Nat} (hn : n < 16) (hb : (s.part n).busy = false) (hs : (s.part n).state = 0)
    (hf : ∀ q ∈ s.parts, q.1 ≠ n → q.2.state ≠ 0 → framesMeet (s.part n) q.2 = false)
    (hc : ∀ c ∈ maskCores (s.part n).pcore, heldElsewhere s n c = false) :
    pctlCreate s n = pctlDone (emptyTlbs (created s n) (maskCores (s.part n).pcore)) n 0 := by
  have apart : ((s.modPart n fun p => { p with op := 1 }).parts.any
      fun q => q.1 != n && q.2.state != 0 && framesMeet (s.part n) q.2) = false := by
    simp only [List.any_eq_false, State.modPart_parts]
    intro q hq
    rcases mem_of_mem_put hq with rfl | hq
    · simp
    · simpa using hf q hq
  have cores : ((maskCores (s.part n).pcore).any (heldElsewhere (s.modPart n fun p => { p with op := 1 }) n)) = false :=
    List.any_eq_false.2 fun c h => by simpa using heldElsewhere_modPart _ (hc c h)
  have off : ¬ (decide (16 ≤ n) || (s.part n).busy) = true := by simp [hb]; omega
  simp only [pctlCreate, hs, apart, cores, if_neg off, bne_self_eq_false, Bool.false_eq_true, if_false]
  rfl

theorem created_part (s : State) (n : Nat) : ((created s n).part n).state = 1 ∧ ((created s n).part n).cores = maskCores (s.part n).pcore ∧
    ((created s n).part n).ptroot = 0 := by
  have part := State.part_modPart (drawKey (clearFrames (s.modPart n fun p => { p with op := 1 }) (s.part n)) n) n
    fun p => { resetPage p false with state := 1, cores := maskCores p.pcore }
  have pcore : ((drawKey (clearFrames (s.modPart n fun p => { p with op := 1 }) (s.part n)) n).part n).pcore = (s.part n).pcore := by
    simp [drawKey, clearFrames, State.part, State.modMgmt, State.modPart, State.setPart]
  exact ⟨congrArg Part.state part, (congrArg Part.cores part).trans (congrArg maskCores pcore), congrArg Part.ptroot part⟩

theorem created_zero (s : State) (n a : Nat) (hb : (s.part n).base ≤ a) (hl : a < (s.part n).limit) : (created s n).rd8 a = 0 := by
  have zero := mget_filter_key (0 : Byte) (fun a => !((s.part n).base ≤ a && a < (s.part n).limit)) s.mem a
  rw [if_neg (by simp [hb, hl])] at zero
  exact zero

end Sys2Proof.Machine

namespace Sys2Proof.Claims
open Sys2Proof.Machine

/-- A partition is made (12 R278). -/
theorem pctlCreate_creates {s : State} {n : Nat} (hlive : Live s) (hn : n < 16) (hb : (s.part n).busy = false) (hs : (s.part n).state = 0)
    (hf : ∀ q ∈ s.parts, q.1 ≠ n → q.2.state ≠ 0 → framesMeet (s.part n) q.2 = false)
    (hc : ∀ c ∈ maskCores (s.part n).pcore, heldElsewhere s n c = false) :
    Answers (exec (.pctlCreate n) s) fun t => (t.part n).state = 1 ∧ (t.part n).result = 0 ∧
      (t.part n).cores = maskCores (s.part n).pcore ∧ (t.part n).ptroot = 0 ∧ Signalled 0 s.mgmt.mgtint.toNat s t ∧
      ∀ a, (s.part n).base ≤ a → a < (s.part n).limit → t.rd8 a = 0 := by
  have ran : exec (.pctlCreate n) s = .next _ := runMgmt_power hlive.power fun s => pctlCreate s n
  rw [pctlCreate_eq hn hb hs hf hc] at ran
  obtain ⟨state, cores, ptroot⟩ := created_part s n
  have zero := created_zero s n
  have out : (created s n).out = s.out := rfl
  have msix : (created s n).msix = s.msix := rfl
  have mgt : (created s n).mgmt.mgtint = s.mgmt.mgtint := rfl
  have emptied := emptyTlbs_frame (created s n) (maskCores (s.part n).pcore)
  generalize created s n = u at *
  generalize emptyTlbs u (maskCores (s.part n).pcore) = v at *
  have part : v.part n = u.part n := State.part_of_parts (congrArg State.parts emptied :) n
  have mem : v.mem = u.mem := (congrArg State.mem emptied :)
  have done := pctlDone_part v n 0
  rw [part] at done
  have told := pctlDone_signalled v n 0
  have vec : v.mgmt.mgtint = s.mgmt.mgtint := Eq.trans (congrArg (fun x : State => x.mgmt.mgtint) emptied :) mgt
  rw [vec] at told
  refine ⟨_, ran, (congrArg Part.state done).trans state, congrArg Part.result done, (congrArg Part.cores done).trans cores,
    (congrArg Part.ptroot done).trans ptroot, ?_, fun a h1 h2 => ?_⟩
  · exact Signalled_of_same ((congrArg State.out emptied :).trans out) ((congrArg State.msix emptied :).trans msix) told
  · exact (congrArg (mget 0 · a) ((pctlDone_mem v n 0).trans mem)).trans (zero a h1 h2)

end Sys2Proof.Claims
end

section
/-! SUPPORT. A partition that is reset or destroyed. -/

namespace Sys2Proof.Machine

/-! ### Reset and destroy (12 R278, R280; 08 R193) -/

/-- What the reset of an idle partition leaves: the partitions, memory, and that none of its page-ins and write-backs are in flight. -/
structure ResetFrame (n : Nat) (s t : State) : Prop where
  parts : t.parts = s.parts
  mem : t.mem = s.mem
  flights : flightsOf s n = false → flightsOf t n = false

namespace ResetFrame
variable {n : Nat}
theorem refl (s : State) : ResetFrame n s s := ⟨rfl, rfl, id⟩
theorem trans {s t u : State} (h : ResetFrame n s t) (g : ResetFrame n t u) : ResetFrame n s u :=
  ⟨g.parts.trans h.parts, g.mem.trans h.mem, g.flights ∘ h.flights⟩
theorem foldl {β : Type} {f : State → β → State} (h : ∀ s b, ResetFrame n s (f s b)) (l : List β) (s : State) :
    ResetFrame n s (l.foldl f s) := foldl_keeps refl trans h l s
end ResetFrame

theorem claimWatch_frame (s : State) (key : Nat) : { claimWatch s key with mons := s.mons } = s := by
  unfold claimWatch
  dsimp only
  split <;> rfl

theorem foldl_claimWatch_frame (l : List (Nat × Ticket)) (s : State) :
    { l.foldl (fun s t => claimWatch s t.1) s with mons := s.mons } = s :=
  foldl_keeps (R := fun s t => { t with mons := s.mons } = s) (fun _ => rfl)
    (fun {s _ _} h g => (congrArg (fun x : State => { x with mons := s.mons }) g).trans h) (fun s t => claimWatch_frame s t.1) l s

theorem admitQueue_nil (pager : Nat) (s : State) : admitQueue pager [] s = s := rfl

theorem any_map_filter {α : Type} {p q : α → Bool} {f : α → α} (hf : ∀ x, p (f x) = p x) {l : List α} (h : l.any p = false) :
    ((l.filter q).map f).any p = false := by
  simp only [List.any_eq_false, List.mem_map, List.mem_filter] at h ⊢
  rintro _ ⟨x, ⟨hx, -⟩, rfl⟩
  rw [hf]
  exact h x hx

/-- The reset of a partition whose grids are done and whose pager requests are alone in waiting. -/
theorem resetPart_eq {s : State} {n : Nat} (hg : ∀ g ∈ s.grids, g.2.part = n → g.2.done = true) (hq : ∀ q ∈ s.pagerQueue, q.2.1 = n) :
    ∃ t, resetPart s n = drawKey (t.modPart n fun p => resetPage p true) n ∧ ResetFrame n s t := by
  have idle : (s.grids.filter fun g => g.2.part == n && !g.2.done) = [] :=
    List.filter_eq_nil_iff.2 fun g h => by simpa using hg g h
  unfold resetPart
  rw [idle]
  extract_lets grids s1 s2 free s3 s4 lose live s5 s6 s7 s8 s9
  refine ⟨s9, rfl, ?_⟩
  have watched : { s3 with mons := s2.mons } = s2 := foldl_claimWatch_frame ..
  have waiting : s4.pagerQueue = s.pagerQueue := (congrArg State.pagerQueue watched :)
  have flying : s4.inflight = s.inflight := (congrArg State.inflight watched :)
  have empty : s5.pagerQueue = [] := List.filter_eq_nil_iff.2 fun q h => by simpa using hq q (waiting ▸ h)
  have h5 : ResetFrame n s s5 := by
    refine ⟨(congrArg State.parts watched :), (congrArg State.mem watched :), fun h => ?_⟩
    have lost : ∀ x, ((lose x).2.part == n) = (x.2.part == n) := fun x => by simp only [lose]; split <;> rfl
    exact any_map_filter (p := fun x : (Nat × Nat) × InFlight => x.2.part == n) lost (by rw [flying]; exact h)
  have h6 : s6 = s5 := by
    simp [s6, empty, admitQueue_nil]
  have h7 : ResetFrame n s6 s7 := .foldl (f := fun s (x : LdtWait) => s.push (.ldtQuotaGrant x.slice x.part)) (fun _ _ => ⟨rfl, rfl, id⟩) ..
  have h8 : ResetFrame n s7 s8 := .foldl (f := fun s r => s.emit (hostReply r none)) (fun _ _ => ⟨rfl, rfl, id⟩) ..
  have h9 : ResetFrame n s8 s9 := ⟨rfl, rfl, id⟩
  rw [h6] at h7
  exact ((h5.trans h7).trans h8).trans h9

theorem drawKey_part (s : State) (n : Nat) : (drawKey s n).part n = { s.part n with tagKey := Config.random s.mgmt.randoms } :=
  State.part_modPart s n fun p => { p with tagKey := Config.random s.mgmt.randoms }

theorem resetEnds_part (s : State) (n : Nat) : (resetEnds s n).part n = { s.part n with busy := false, result := 0 } :=
  ((CacheFrame.signal (pctlDone s n 0) (1 + n) _).part n).trans (pctlDone_part s n 0)

theorem resetEnds_mem (s : State) (n : Nat) : (resetEnds s n).mem = s.mem := (State.signal_mem ..).trans (pctlDone_mem ..)

theorem leaveCores_part (s : State) (n : Nat) (cs : List Nat) :
    (leaveCores s n cs).part n = { s.part n with cores := (s.part n).cores.filter fun c => !cs.contains c } := by
  have frame := CacheFrame.foldl (f := fun s c => ((s.drainCore c).wcDrain c fun _ => true).modCore c fun k =>
    { k with l1 := [], tlb := [], dict := [], stream := [] })
    (fun s c => ((CacheFrame.drainCore s c).trans (.wcDrain ..)).trans (.modCore ..)) cs s
  unfold leaveCores
  dsimp only
  rw [State.part_modPart, frame.part]

/-- A partition that is absent: its page is at its reset values but for what its last command has come to. -/
theorem absent_part (s : State) (n : Nat) : ((absent s n).part n).state = 0 ∧ ((absent s n).part n).busy = (s.part n).busy ∧
    ((absent s n).part n).result = (s.part n).result ∧ ((absent s n).part n).cores = [] := by
  have left := leaveCores_part s n (s.part n).cores
  unfold absent
  dsimp only
  rw [State.part_modPart]
  generalize leaveCores s n (s.part n).cores = u at *
  exact ⟨rfl, (congrArg Part.busy left :), (congrArg Part.result left :), rfl⟩

section
variable {s : State} {n : Nat} (hn : n < 16) (hb : (s.part n).busy = false) (hs : (s.part n).state ≠ 0)
  (hg : ∀ g ∈ s.grids, g.2.part = n → g.2.done = true) (hfl : flightsOf s n = false) (hq : ∀ q ∈ s.pagerQueue, q.2.1 = n)
include hn hb hs hg hfl hq

/-- A command that resets an idle partition has reset it at once. -/
theorem pctlStart_eq (op : BitVec 3) : ∃ u k, pctlStart s n op = pctlServe u n ∧ u.mem = s.mem ∧ flightsOf u n = false ∧
    u.part n = { resetPage { s.part n with op := op, busy := true } true with tagKey := k } := by
  have off : ¬ (decide (16 ≤ n) || (s.part n).busy) = true := by simp [hb]; omega
  obtain ⟨t, reset, frame⟩ :=
    resetPart_eq (s := (s.modPart n fun p => { p with op := op }).modPart n fun p => { p with busy := true }) (n := n) hg hq
  have before : t.part n = { s.part n with op := op, busy := true } := by
    rw [State.part_of_parts frame.parts, State.part_modPart, State.part_modPart]
  have part := drawKey_part (t.modPart n fun p => resetPage p true) n
  rw [State.part_modPart, before] at part
  refine ⟨drawKey (t.modPart n fun p => resetPage p true) n, _, ?_, frame.mem, frame.flights hfl, part⟩
  rw [← reset, pctlStart, if_neg off]
  exact if_neg (by simpa using hs)

theorem pctlReset_eq : ∃ u k, pctlReset s n = resetEnds u n ∧ u.mem = s.mem ∧
    u.part n = { resetPage { s.part n with op := 2, busy := true } true with tagKey := k } := by
  obtain ⟨u, k, started, mem, flights, part⟩ := pctlStart_eq hn hb hs hg hfl hq 2
  refine ⟨u, k, started.trans ?_, mem, part⟩
  simp [pctlServe, part, resetPage, flights]

theorem pctlDestroy_eq : ∃ u k, pctlDestroy s n = absent (resetEnds u n) n ∧
    u.part n = { resetPage { s.part n with op := 3, busy := true } true with tagKey := k } := by
  obtain ⟨u, k, started, -, flights, part⟩ := pctlStart_eq hn hb hs hg hfl hq 3
  refine ⟨u, k, started.trans ?_, part⟩
  simp [pctlServe, part, resetPage, flights]

end

end Sys2Proof.Machine

namespace Sys2Proof.Claims
open Sys2Proof.Machine

/-- An idle partition is reset, or destroyed, at once (12 R278, R280). -/
theorem pctlReset_pctlDestroy {s : State} {n : Nat} (hlive : Live s) (hn : n < 16) (hb : (s.part n).busy = false)
    (hs : (s.part n).state ≠ 0) (hg : ∀ g ∈ s.grids, g.2.part = n → g.2.done = true) (hfl : flightsOf s n = false)
    (hq : ∀ q ∈ s.pagerQueue, q.2.1 = n) :
    Answers (exec (.pctlReset n) s) (fun t => (t.part n).state = (s.part n).state ∧ (t.part n).busy = false ∧ (t.part n).result = 0 ∧
      (t.part n).traph = 0 ∧ (t.part n).ptroot = (s.part n).ptroot ∧ t.mem = s.mem) ∧
    Answers (exec (.pctlDestroy n) s) fun t => (t.part n).state = 0 ∧ (t.part n).busy = false ∧ (t.part n).result = 0 ∧
      (t.part n).cores = [] := by
  constructor
  · have ran : exec (.pctlReset n) s = .next _ := runMgmt_power hlive.power fun s => pctlReset s n
    obtain ⟨u, k, reset, mem, part⟩ := pctlReset_eq hn hb hs hg hfl hq
    rw [reset] at ran
    have ends := resetEnds_part u n
    rw [part] at ends
    exact ⟨_, ran, (congrArg Part.state ends :), congrArg Part.busy ends, congrArg Part.result ends, congrArg Part.traph ends,
      (congrArg Part.ptroot ends :), (resetEnds_mem u n).trans mem⟩
  · have ran : exec (.pctlDestroy n) s = .next _ := runMgmt_power hlive.power fun s => pctlDestroy s n
    obtain ⟨u, k, destroyed, part⟩ := pctlDestroy_eq hn hb hs hg hfl hq
    rw [destroyed] at ran
    have ends := resetEnds_part u n
    obtain ⟨state, busy, result, cores⟩ := absent_part (resetEnds u n) n
    exact ⟨_, ran, state, busy.trans (congrArg Part.busy ends), result.trans (congrArg Part.result ends), cores⟩

end Sys2Proof.Claims
end

section
/-! SUPPORT. Registers that are written through a window, and the law of a partition's registers. -/

namespace Sys2Proof.Machine

/-! ### Registers that are written through a window (12 R270, R272, R278) -/

/-- Bits 63..3 and bit 0: what a register with reserved bits 2..1 holds. -/
theorem maskReg_traph (v : W64) : maskReg v [(63, 3), (0, 0)] = v &&& ~~~6#64 := by
  have sum : maskReg v [(63, 3), (0, 0)] = BitVec.ofNat 64 (2 ^ 3 * (v.toNat / 2 ^ 3) + v.toNat % 2) := by
    simp only [maskReg, bitsN, List.foldl_cons, List.foldl_nil]
    congr 1
    omega
  have six : ∀ i, (6#64).getLsbD i = (decide (i = 1) || decide (i = 2)) := fun i => by
    by_cases h : i < 3
    · interval_cases i <;> rfl
    · have small : 6 < 2 ^ i := Nat.lt_of_lt_of_le (by decide : 6 < 2 ^ 3) (Nat.pow_le_pow_right (by decide) (Nat.le_of_not_lt h))
      rw [BitVec.getLsbD_ofNat, Nat.testBit_lt_two_pow small]
      simp
      omega
  rw [sum]
  refine BitVec.eq_of_getLsbD_eq fun i hi => ?_
  rw [BitVec.getLsbD_ofNat, BitVec.getLsbD_and, BitVec.getLsbD_not, six, Nat.testBit_two_pow_mul_add _ (by omega), BitVec.getLsbD,
    Nat.testBit_div_two_pow, ← Nat.pow_one 2, Nat.testBit_mod_two_pow]
  by_cases h : i < 3
  · interval_cases i <;> simp
  · simp [h, hi, Nat.sub_add_cancel (Nat.le_of_not_lt h)]
    omega

/-- The mask of an entry of an MSI-X table. -/
theorem maskReg_control (v : W64) : (maskReg v [(32, 0)]).getLsbD 32 = v.getLsbD 32 := by
  simp only [maskReg, bitsN, List.foldl_cons, List.foldl_nil]
  rw [BitVec.getLsbD_ofNat, Nat.zero_add, Nat.pow_zero, Nat.div_one, Nat.mul_one, Nat.testBit_mod_two_pow]
  rfl

theorem registerWrite_traph {s : State} {n : Nat} (v : W64) (ha : s.mgmt.fatal = false) (hn : n < 16) (hs : (s.part n).state ≠ 0) :
    registerWrite s (n + 1) 0x20 v = s.modPart n fun p => { p with traph := v &&& ~~~6#64 } := by
  have answers : ¬ (decide (16 ≤ n) || s.mgmt.fatal || (s.part n).state == 0) = true := by simp [ha]; exact ⟨by omega, hs⟩
  have present : ¬ ((s.part n).state == 0) = true := by simpa using hs
  rw [← maskReg_traph]
  simp only [registerWrite, if_neg answers, partWrite, if_neg present]
  rfl

/-- The state in which the control word of a vector's entry of the MSI-X table of function 0 has been written. -/
def controlWritten (s : State) (vec : Nat) (v : W64) : State := { s with msix := mput s.msix (2 * vec + 1) (maskReg v [(32, 0)]) }

theorem controlWritten_masked (s : State) (vec : Nat) (v : W64) : (controlWritten s vec v).masked 0 vec = v.getLsbD 32 := by
  rw [State.masked, State.msixWord, Nat.mul_zero, Nat.zero_add, controlWritten, mget_put_same, maskReg_control]

theorem bar4Write_unmask {s : State} {vec : Nat} {v : W64} (h : vec < 64) (hp : (mget (0 : W64) s.pba 0).getLsbD vec = true)
    (hv : v.getLsbD 32 = false) : bar4Write s 0 (16 * vec + 8) v =
      { controlWritten s vec v with
        pba := mset 0 s.pba 0 (mget 0 s.pba 0 &&& ~~~BitVec.twoPow 64 vec) }.emit (.msix 0 vec) := by
  have odd : (2 * vec + 1) % 2 = 1 := by omega
  have word : (16 * vec + 8) / 8 = 2 * vec + 1 := by omega
  have entry : (16 * vec + 8) / 16 = vec := by omega
  have unmasked : (controlWritten s vec v).masked 0 vec = false := (controlWritten_masked ..).trans hv
  rw [bar4Write, if_neg (by omega)]
  simp only [word, odd, entry, beq_self_eq_true, if_true, Nat.mul_zero, Nat.zero_add]
  rw [controlWritten] at unmasked
  exact if_neg (by simpa [unmasked] using hp)

theorem registerWrite_bar4 (s : State) (vec : Nat) (v : W64) :
    registerWrite s 0 (0x100000 + 16 * vec + 8) v = bar4Write s 0 (16 * vec + 8) v := by
  have aligned : (0x100000 + 16 * vec + 8) % 8 = 0 := by omega
  have within : 0x100000 + 16 * vec + 8 - 0x100000 = 16 * vec + 8 := by omega
  have window : 0x100000 ≤ 0x100000 + 16 * vec + 8 := by omega
  simp only [registerWrite, aligned, within, window, bne_self_eq_false, Bool.false_eq_true, if_false, if_true]

/-- PCORE of an absent partition is only a register. -/
theorem pcoreWrite_absent {s : State} {n : Nat} (v : W64) (hn : n < 16) (hs : (s.part n).state = 0) :
    pcoreWrite s n false v = s.modPart n fun p => { p with pcore := (s.part n).pcore.extractLsb' 64 32 ++ v } := by
  rw [pcoreWrite, if_neg (by omega)]
  simp [hs]

end Sys2Proof.Machine

namespace Sys2Proof.Claims
open Sys2Proof.Machine

/-- PCORE of an absent partition, and a register of one that exists (12 R272, R278). -/
theorem pcoreWrite_registerWrite {s : State} {n : Nat} (hlive : Live s) (hn : n < 16) :
    (∀ v, (s.part n).state = 0 → Answers (exec (.pcoreWrite n false v) s) fun t =>
      (t.part n).pcore.extractLsb' 0 64 = v ∧ (t.part n).pcore.extractLsb' 64 32 = (s.part n).pcore.extractLsb' 64 32 ∧ t.mem = s.mem) ∧
    (∀ v, (s.part n).state ≠ 0 → Answers (exec (.registerWrite (n + 1) 0x20 v) s) fun t =>
      t.part n = { s.part n with traph := v &&& ~~~6#64 } ∧ t.mem = s.mem ∧ t.cores = s.cores) := by
  refine ⟨fun v hs => ?_, fun v hs => ?_⟩
  · have ran : exec (.pcoreWrite n false v) s = .next _ := runMgmt_power hlive.power fun s => pcoreWrite s n false v
    rw [pcoreWrite_absent v hn hs] at ran
    have pcore := congrArg Part.pcore (State.part_modPart s n fun p => { p with pcore := (s.part n).pcore.extractLsb' 64 32 ++ v })
    refine ⟨_, ran, (congrArg (·.extractLsb' 0 64) pcore).trans ?_, (congrArg (·.extractLsb' 64 32) pcore).trans ?_, rfl⟩
    · exact BitVec.extractLsb'_append_eq_right
    · exact BitVec.extractLsb'_append_eq_left
  · have ran : exec (.registerWrite (n + 1) 0x20 v) s = .next _ := runMgmt_power hlive.power fun s => registerWrite s (n + 1) 0x20 v
    rw [registerWrite_traph v hlive.awake hn hs] at ran
    exact ⟨_, ran, State.part_modPart s n fun p => { p with traph := v &&& ~~~6#64 }, rfl, rfl⟩

/-- A vector that is unmasked while it is pending is sent (12 R270; the layout of BAR4 is PRESUMED, log 59). -/
theorem registerWrite_unmasks {s : State} {vec : Nat} {v : W64} (hpow : s.mgmt.power = true) (h : vec < 64)
    (hp : (mget (0 : W64) s.pba 0).getLsbD vec = true) (hv : v.getLsbD 32 = false) :
    Answers (exec (.registerWrite 0 (0x100000 + 16 * vec + 8) v) s) fun t =>
      t.out = s.out ++ [.msix 0 vec] ∧ (mget (0 : W64) t.pba 0).getLsbD vec = false ∧ t.masked 0 vec = false := by
  have ran : exec (.registerWrite 0 (0x100000 + 16 * vec + 8) v) s = .next _ :=
    runMgmt_power hpow fun s => registerWrite s 0 (0x100000 + 16 * vec + 8) v
  rw [registerWrite_bar4, bar4Write_unmask h hp hv] at ran
  refine ⟨_, ran, rfl, ?_, (controlWritten_masked ..).trans hv⟩
  exact (congrArg (BitVec.getLsbD · vec) (mget_set_same ..)).trans (by simp [h])

/-- Settles O50: each write by what its command does to the partition's page; the frame of the caches stands for what ring operations and
leaving cores keep of it. -/
theorem partitionRegistersComplete : Obligations.PartitionRegistersComplete := by
  refine ⟨fun s n gid fid g hlive hf hg => ⟨?_, ?_⟩, fun s n k hlive => fltack_acks n k hlive,
    fun s n v hlive => tkcfg_tkstat_tkquota_lring_write n v hlive,
    fun s n ch lo slot hlive hc hp hz => hrcmd_commands hlive hc hp hz, fun s n ch lo hlive hc hp hd => hrcmd_second hlive hc hp hd,
    fun s n hlive hn hb => ⟨?_, ?_, pcoreWrite_registerWrite hlive hn⟩, fun s vec v hpow h hp hv => registerWrite_unmasks hpow h hp hv⟩
  · exact fun w skip x hp hw hx => fltrespResume_resumes hlive hf hg hp hw hx
  · exact fun gr hgr ha hd => fltrespAbort_aborts hlive hf hg hgr ha hd
  · exact fun hs hm hc => pctlCreate_creates hlive hn hb hs hm hc
  · exact fun hs hg hfl hq => pctlReset_pctlDestroy hlive hn hb hs hg hfl hq

end Sys2Proof.Claims
end

section
/-! SUPPORT. Issues that redirect their warp, branches, and issues without effect. -/

namespace Sys2Proof.Machine

/-! ### A warp that is set and then changed -/

theorem State.setWarp_setWarp (s : State) (c w : Nat) (x y : Warp) : (s.setWarp c w x).setWarp c w y = s.setWarp c w y :=
  congrArg (fun m => { s with warps := m }) (mput_mput ..)

theorem State.setWarp_modWarp (s : State) (c w : Nat) (x : Warp) (f : Warp → Warp) :
    (s.setWarp c w x).modWarp c w f = s.setWarp c w (f x) := by
  rw [State.modWarp_some (State.warp?_setWarp ..), State.setWarp_setWarp]

theorem begun_modWarp (c w : Nat) (wp : Warp) (s : State) (f : Warp → Warp) :
    (begun c w wp s).modWarp c w f = s.setWarp c w (f { wp with young := false }) := State.setWarp_modWarp ..

/-- The end of an issue that has left its warp as `y`, and all else as in `z`. -/
theorem redirects_moved (h : Hdr) (c w : Nat) (long : Bool) (y : Warp) (z : State) :
    Redirects h c w y z (finishIssue c w h long .moved (z.setWarp c w y)) := by
  obtain ⟨ends, -⟩ := finishIssue_hold (h := h) (long := long) (State.warp?_setWarp z c w y)
  change { finishIssue c w h long .moved (z.setWarp c w y) with agenda := z.agenda, freeCtr := z.freeCtr } =
    (z.setWarp c w y).setWarp c w (y.applyCtl h z.now) at ends
  rw [State.setWarp_setWarp] at ends
  generalize finishIssue c w h long .moved (z.setWarp c w y) = t at *
  have table : t.warps = (z.setWarp c w (y.applyCtl h z.now)).warps := (congrArg State.warps ends :)
  refine ⟨⟨?_, fun n hn => ?_⟩, (congrArg (fun u : State => { u with warps := z.warps }) ends :)⟩
  · rw [State.warp?, table]
    exact State.warp?_setWarp ..
  · rw [table]
    exact State.warps_setWarp_ne _ _ _ _ hn

/-! ### Branches (03 R59 to R64) -/

/-- The address of a code pointer is its bits 47..3 (03 R59). -/
theorem ptrPc_eq (p : W64) : ptrPc p = BitVec.ofNat 48 (p.toNat % 2 ^ 48 / 8 * 8) := by
  have bits : p.toNat / 2 ^ 3 % 2 ^ 45 * 8 = p.toNat % 2 ^ 48 / 8 * 8 := by omega
  exact congrArg (BitVec.ofNat 48) bits

theorem laneEntries_map (depth : Nat) (l : List Nat) (p : Nat → W64) : laneEntries depth (l.map fun j => (j, p j)) = l.map fun j =>
    { pc := BitVec.ofNat 48 ((p j).toNat % 2 ^ 48 / 8 * 8), prio := (p j).extractLsb' 48 16, mask := BitVec.twoPow 32 j, depth := depth } := by
  simp only [laneEntries, List.map_map, Function.comp_def, ptrPc_eq, ptrPrio]

theorem mem_lanesOf {m : W32} {j : Nat} : j ∈ lanesOf m ↔ j < 32 ∧ m.getLsbD j = true := by simp [lanesOf]

/-- Code pointers without a low bit set in a real lane raise no trap (03 R59). -/
theorem aligned_filter_nil {v : View} {p : Nat → W64} (h : ∀ j ∈ v.realLanes, (p j).extractLsb' 0 3 = 0) :
    (v.lanes.map fun j => (j, p j)).filter (fun q => v.real.getLsbD q.1 && q.2.extractLsb' 0 3 != 0) = [] := by
  rw [List.filter_eq_nil_iff]
  intro q hq
  obtain ⟨j, hj, rfl⟩ := List.mem_map.1 hq
  cases real : v.real.getLsbD j with
  | false => simp
  | true => simp [h j (mem_lanesOf.2 ⟨(mem_lanesOf.1 hj).1, real⟩)]

theorem pointers_aligned {s : State} {v : View} {f : SysF}
    (h : ∀ j ∈ v.realLanes, (readR64 s v 0 f.xa f.a.toNat j).extractLsb' 0 3 = 0) :
    pointers s v f = .ok (v.lanes.map fun j => (j, readR64 s v 0 f.xa f.a.toNat j)) := by
  simp only [pointers, aligned_filter_nil h, List.isEmpty_nil, if_true]

/-- A branch to entries (03 R62 to R64). -/
def branchTo (long : Bool) (moved : List Entry) (v : View) (s : State) : Res :=
  match moveTo s v long moved with
  | .error r => r
  | .ok f => .ok (setFrontier v f s) .moved

theorem setFrontier_begun (h : Hdr) (c w : Nat) (wp : Warp) (e : Entry) (f : List Entry) (s : State) :
    setFrontier (seen h c w wp e s) f (begun c w wp s) = s.setWarp c w { wp with young := false, frontier := f } := begun_modWarp ..

theorem moveTo_fits {s : State} {v : View} {long : Bool} {moved : List Entry}
    (h : (Claims.movedFrontier v long moved).length ≤ (s.gridOf v.gid).frontier) :
    moveTo s v long moved = .ok (Claims.movedFrontier v long moved) := if_neg (Nat.not_lt.2 h)

theorem moveTo_overflows {s : State} {v : View} {long : Bool} {moved : List Entry}
    (h : (s.gridOf v.gid).frontier < (Claims.movedFrontier v long moved).length) : moveTo s v long moved =
      .error (Res.of s ⟨rkFrontier, 0x13, BitVec.ofNat 64 (Claims.movedFrontier v long moved).length, 8⟩ v.realLanes) := if_pos h

theorem branchTo_fits {s : State} {v : View} {long : Bool} {moved : List Entry}
    (h : (Claims.movedFrontier v long moved).length ≤ (s.gridOf v.gid).frontier) :
    branchTo long moved v s = .ok (setFrontier v (Claims.movedFrontier v long moved) s) .moved := by
  simp only [branchTo, moveTo_fits h]

section
variable {v : View} (ha : v.act ≠ 0) (s : State)
include ha

theorem braBody_acts (long : Bool) (prio : BitVec 16) (off : Int) : braBody long prio off v s =
    branchTo long [{ pc := brTarget v.e.pc off, prio := prio, mask := v.act, depth := v.e.depth }] v s := if_neg (by simpa using ha)

theorem brxBody_acts {f : SysF} (hc : v.real = 0 ∨ v.early = true ∨ checkVs s v.wp (runRegsX f.xa f.a.toNat 2) = none)
    (hp : ∀ j ∈ v.realLanes, (readR64 s v 0 f.xa f.a.toNat j).extractLsb' 0 3 = 0) : brxBody f v s =
      branchTo false (laneEntries v.e.depth (v.lanes.map fun j => (j, readR64 s v 0 f.xa f.a.toNat j))) v s := by
  rw [brxBody, guardV_pass hc, if_neg (by simpa using ha), pointers_aligned hp]
  rfl

end

end Sys2Proof.Machine

namespace Sys2Proof.Claims
open Sys2Proof.Machine

section
variable {s : State} {i : Instr} {h : Hdr} {c w : Nat} {wp : Warp} {e : Entry} {moved : List Entry} (hi : Issues i h c w wp e s)
include hi

/-- An issue ends as its meaning answers. -/
theorem exec_of_body {body : View → State → Res} {r : Res} (hx : exec i s = runWarp h i body s)
    (hb : body (seen h c w wp e s) (begun c w wp s) = r) :
    exec i s = .next (endIssue c w h i.long (helperOnly (seen h c w wp e s) (begun c w wp s) r)) := by
  rw [hx, runWarp_issues hi, hb]

omit hi in
/-- The check of an instruction's code pointers, for its view. -/
theorem pointerCheck (hc : (seen h c w wp e s).real = 0 ∨ checkVs (begun c w wp s) wp (pointerRegs i) = none) {f : SysF}
    (hr : pointerRegs i = runRegsX f.xa f.a.toNat 2) :
    (seen h c w wp e s).real = 0 ∨ (seen h c w wp e s).early = true ∨
      checkVs (begun c w wp s) (seen h c w wp e s).wp (runRegsX f.xa f.a.toNat 2) = none := by
  rw [hr] at hc
  exact hc.imp_right .inr

/-- BRA, BRA.far and BRX with an active lane branch to their entries. -/
theorem exec_branch (hm : branchEntries (begun c w wp s) (seen h c w wp e s) i = some moved) (ha : (seen h c w wp e s).act ≠ 0)
    (hc : (seen h c w wp e s).real = 0 ∨ checkVs (begun c w wp s) wp (pointerRegs i) = none)
    (hp : pointersAligned (begun c w wp s) (seen h c w wp e s) i) :
    exec i s = .next (endIssue c w h i.long (helperOnly (seen h c w wp e s) (begun c w wp s)
      (branchTo i.long moved (seen h c w wp e s) (begun c w wp s)))) := by
  unfold branchEntries at hm
  split at hm
  · next k f =>
    cases hi.hdr; cases hm
    exact exec_of_body hi rfl (braBody_acts ha _ false f.prio f.off.toInt)
  · next k f =>
    cases hi.hdr; cases hm
    exact exec_of_body hi rfl (braBody_acts ha _ true f.prio f.off.toInt)
  · next k f =>
    cases hi.hdr; cases hm
    rw [← laneEntries_map]
    exact exec_of_body hi rfl (brxBody_acts ha _ (pointerCheck hc rfl) hp)
  · cases hm

end

/-- Settles O11: a branch that fits the frontier changes its warp's entries alone. -/
theorem branchesComplete : Obligations.BranchesComplete := by
  intro s i h c w wp e moved hi v u hm ha hc hp hf
  have issue := exec_branch hi hm ha hc hp
  rw [branchTo_fits (v := seen h c w wp e s) (s := begun c w wp s) hf, helperOnly_ok, setFrontier_begun] at issue
  rw [issue]
  exact ⟨_, rfl, redirects_moved h c w i.long _ s⟩

end Sys2Proof.Claims
end

section
/-! SUPPORT. Issues without effect. -/

namespace Sys2Proof.Machine

theorem View.real_of_act {v : View} (h : v.act = 0) : v.real = 0 := by simp [View.real, h]

section
/-! Control flow without an active lane only goes on. -/

variable {v : View} (h : v.act = 0) (s : State)
include h

theorem braBody_idle (long : Bool) (prio : BitVec 16) (off : Int) : braBody long prio off v s = .ok s .next := if_pos (by simp [h])
theorem callBody_idle (long : Bool) (prio : BitVec 16) (off : Int) : callBody long prio off v s = .ok s .next := if_pos (by simp [h])
theorem brxBody_idle (f : SysF) : brxBody f v s = .ok s .next := by
  rw [brxBody, guardV_pass (.inl (View.real_of_act h)), if_pos (by simp [h])]
theorem callxBody_idle (f : SysF) : callxBody f v s = .ok s .next := by
  rw [callxBody, guardV_pass (.inl (View.real_of_act h)), if_pos (by simp [h])]
theorem retBody_idle : retBody v s = .ok s .next := if_pos (by simp [h])
theorem exitBody_idle : exitBody v s = .ok s .next := if_pos (by simp [h])

end

/-- ERET outside handler mode, or by other lanes than the held ones, is an illegal operand (11 R254). -/
theorem eretBody_illegal {v : View} (s : State)
    (h : v.wp.hmode = false ∨ v.e.mask ≠ v.wp.held.mask &&& ~~~v.wp.exited ∨ v.e.depth ≠ v.wp.held.depth) :
    eretBody v s = Res.of s trapOperand (lanesOf v.e.mask) := by
  rw [eretBody]
  cases hm : v.wp.hmode with
  | false => rfl
  | true =>
    have other : (v.e.mask != v.wp.held.mask &&& ~~~v.wp.exited || v.e.depth != v.wp.held.depth) = true := by
      simpa [hm] using h
    simp only [Bool.not_true, Bool.false_eq_true, if_false, other, if_true]

/-- A trap that helper lanes alone would take is suppressed (02 R33). -/
theorem helperOnly_trap {v : View} (h : v.real = 0) (s t : State) (x : Trap) (lanes : List Nat) :
    helperOnly v s (Res.of t x lanes) = .ok s .next := by
  simp [helperOnly, h, Res.of]

end Sys2Proof.Machine

namespace Sys2Proof.Claims
open Sys2Proof.Machine

/-- An issue whose meaning does nothing moves its entry to next_pc. -/
theorem issues_next {s : State} {i : Instr} {h : Hdr} {c w : Nat} {wp : Warp} {e : Entry} (hi : Issues i h c w wp e s)
    {body : View → State → Res} (hx : exec i s = runWarp h i body s)
    (hb : helperOnly (seen h c w wp e s) (begun c w wp s) (body (seen h c w wp e s) (begun c w wp s)) = .ok (begun c w wp s) .next) :
    Answers (exec i s) (Redirects h c w ({ wp with young := false }.advance i.long) s) := by
  rw [hx, runWarp_issues hi, hb]
  exact ⟨_, rfl, redirects_next i⟩

theorem issues_idle {s : State} {i : Instr} {h : Hdr} {c w : Nat} {wp : Warp} {e : Entry} (hi : Issues i h c w wp e s)
    {body : View → State → Res} (hx : exec i s = runWarp h i body s)
    (hb : body (seen h c w wp e s) (begun c w wp s) = .ok (begun c w wp s) .next) :
    Answers (exec i s) (Redirects h c w ({ wp with young := false }.advance i.long) s) :=
  issues_next hi hx (by rw [hb, helperOnly_ok])

/-- Settles O14: each body without effect goes on, and ERET's trap of helper lanes alone is suppressed. -/
theorem noEffectComplete : Obligations.NoEffectComplete := by
  intro s i h c w wp e hi cases'
  rcases cases' with ⟨f, rfl⟩ | ⟨f, rfl, hc⟩ | ⟨ha, branch⟩ | ⟨hr, ⟨f, rfl⟩, bad⟩
  · exact issues_idle hi (body := fun _ s => .ok s .next) rfl rfl
  · exact issues_idle hi (body := guardV (runRegsX (xA f.x) f.a.toNat 2) fun _ s => .ok s .next) rfl
      (guardV_pass (hc.imp_right .inr))
  · rcases branch with ⟨f, rfl⟩ | ⟨f, rfl⟩ | ⟨f, rfl⟩ | ⟨f, rfl⟩ | ⟨f, rfl⟩ | ⟨f, rfl⟩ | ⟨f, rfl⟩ | ⟨f, rfl⟩
    · exact issues_idle hi rfl (braBody_idle ha _ false f.prio f.off.toInt)
    · exact issues_idle hi rfl (braBody_idle ha _ true f.prio f.off.toInt)
    · exact issues_idle hi rfl (brxBody_idle ha _ f)
    · exact issues_idle hi rfl (callBody_idle ha _ false f.prio f.off.toInt)
    · exact issues_idle hi rfl (callBody_idle ha _ true f.prio f.off.toInt)
    · exact issues_idle hi rfl (callxBody_idle ha _ f)
    · exact issues_idle hi rfl (retBody_idle ha _)
    · exact issues_idle hi rfl (exitBody_idle ha _)
  · refine issues_next hi (body := eretBody) rfl ?_
    rw [eretBody_illegal _ bad, helperOnly_trap hr]

end Sys2Proof.Claims
end

section
/-! SUPPORT. Frames of calls: their bytes, and their pieces in memory. -/

namespace Sys2Proof.Machine

/-! ### The bytes of a frame (03 R69) -/

theorem length_leBytes (n x : Nat) : (leBytes n x).length = n := by
  induction n generalizing x with
  | zero => rfl
  | succ n ih => simp [leBytes, ih]

theorem leNat_leBytes (n x : Nat) : leNat (leBytes n x) = x % 256 ^ n := by
  induction n generalizing x with
  | zero => simp [leBytes, leNat, Nat.mod_one]
  | succ n ih =>
    rw [leBytes, leNat, ih, Nat.pow_succ', Nat.mod_mul, BitVec.toNat_ofNat, Nat.mod_mod_of_dvd _ (by decide)]

/-- The `i`-th of pieces of one length that stand one after another. -/
theorem take_drop_flatMap {α β : Type} {f : α → List β} {k : Nat} (hf : ∀ a, (f a).length = k) (tail : List β) (l : List α) {i : Nat}
    (hi : i < l.length) : ((l.flatMap f ++ tail).drop (k * i)).take k = f l[i] := by
  induction l generalizing i with
  | nil => cases hi
  | cons a l ih =>
    rw [List.flatMap_cons, List.append_assoc]
    cases i with
    | zero => rw [Nat.mul_zero, List.drop_zero, List.take_left' (hf a), List.getElem_cons_zero]
    | succ i =>
      rw [Nat.mul_succ, Nat.add_comm, ← List.drop_drop, List.drop_left' (hf a), List.getElem_cons_succ]
      exact ih (Nat.lt_of_succ_lt_succ hi)

theorem length_flatMap_leBytes (n k : Nat) (f : Nat → Nat) : ((List.range k).flatMap fun j => leBytes n (f j)).length = k * n := by
  simp [List.length_flatMap, length_leBytes]

namespace Frame

/-- The word of a lane in a frame: zero where the lane is not of the frame. -/
def word (f : Frame) (j : Nat) : Nat := if f.mask.getLsbD j then (mget 0 f.rets j).toNat else 0

theorem bytes_length (f : Frame) : f.bytes.length = 320 := by
  simp [Frame.bytes, length_leBytes]

theorem bytes_mask (f : Frame) : leNat ((f.bytes.drop 256).take 4) = f.mask.toNat := by
  rw [Frame.bytes, List.append_assoc, List.drop_left' (length_flatMap_leBytes 8 32 _ : _ = 256), List.take_left' (length_leBytes ..), leNat_leBytes]
  exact Nat.mod_eq_of_lt f.mask.isLt

theorem bytes_word (f : Frame) {j : Nat} (h : j < 32) : leNat ((f.bytes.drop (8 * j)).take 8) = f.word j := by
  have lane : j < (List.range 32).length := by simpa using h
  rw [Frame.bytes, List.append_assoc, take_drop_flatMap (fun _ => length_leBytes ..) _ _ lane, List.getElem_range, leNat_leBytes]
  refine Nat.mod_eq_of_lt ?_
  split
  · exact BitVec.isLt _
  · decide

end Frame

theorem mget_map_pair {α : Type} (d : α) (g : Nat → α) {l : List Nat} {j : Nat} (h : j ∈ l) : mget d (l.map fun k => (k, g k)) j = g j := by
  induction l with
  | nil => cases h
  | cons k l ih =>
    by_cases hk : k = j
    · simp [mget, hk]
    · simpa [mget, hk] using ih ((List.mem_cons.1 h).resolve_left (Ne.symm hk))

theorem frameOf_bytes_mask (f : Frame) (exited : W32) : (frameOf f.depth f.bytes exited).mask = f.mask &&& ~~~exited := by
  rw [frameOf, Frame.bytes_mask, BitVec.ofNat_toNat, BitVec.setWidth_eq]

/-- A frame that is read back has the return words of the lanes that have not exited (03 R68, R69). -/
theorem frameOf_bytes_ret (f : Frame) (exited : W32) {j : Nat} (h : j < 32) (hj : (f.mask &&& ~~~exited).getLsbD j = true) :
    mget 0 (frameOf f.depth f.bytes exited).rets j = mget 0 f.rets j := by
  have lane : j ∈ lanesOf (frameOf f.depth f.bytes exited).mask := mem_lanesOf.2 ⟨h, by rw [frameOf_bytes_mask, hj]⟩
  have inFrame : f.mask.getLsbD j = true := by
    rw [BitVec.getLsbD_and, Bool.and_eq_true] at hj
    exact hj.1
  refine (mget_map_pair 0 (fun k => BitVec.ofNat 64 (leNat ((f.bytes.drop (8 * k)).take 8))) lane).trans ?_
  rw [f.bytes_word h, Frame.word, if_pos inFrame, BitVec.ofNat_toNat, BitVec.setWidth_eq]

/-! ### The pieces of a frame in memory (03 R68 to R70) -/

/-- An agent without outstanding operations has nothing to settle. -/
theorem NoneOut.settle {a : Issuer} {s : State} (h : NoneOut a s) (scratch : Bool) (pas : List Nat) : s.settle a scratch pas = s := by
  unfold State.settle State.settleIf
  dsimp only
  rw [List.filter_eq_nil_iff.2 fun x hx => by simp [h x hx], List.foldl_nil]

theorem LaneFrame.noneOut {a : Issuer} {s t : State} (h : LaneFrame s t) (hs : NoneOut a s) : NoneOut a t := by
  have same : (t.core (coreOf a)).vars = (s.core (coreOf a)).vars := (congrArg Core.vars (h.core (coreOf a)) :)
  intro x hx
  rw [same] at hx
  exact hs x hx

theorem LaneFrame.framePieces (s : State) (v : View) (need : Need) (a : Nat) : LaneFrame s (framePieces s v need a).2 :=
  .laneFold _ (fun s i => .laneGlobal s v.c (s.partOf v.gid) need 64 64 (BitVec.ofNat 64 (a + 64 * i))) _ s

/-- Pieces whose translations all succeed. -/
theorem frameFate_ok (s : State) (v : View) (fill : Bool) (a : Nat) {ps : List (Nat × W64)} (h : ps.length = 5) :
    frameFate s v fill a ((List.range 5).zip (ps.map fun p => LX.ok p.1 p.2)) = .ok ps := by
  match ps, h with
  | [_, _, _, _, _], _ => rfl

namespace CacheFrame

theorem ofLane {s t : State} (h : LaneFrame s t) : CacheFrame s t := by
  refine ⟨?_, fun n => ?_⟩
  · exact (congrArg (fun x : State => { x with
      tags := s.tags, grids := s.grids, out := s.out, agenda := s.agenda, pba := s.pba }) h.rest :)
  · have same : t.grids = s.grids := (congrArg State.grids h.rest :)
    rw [same]

theorem delPoison (s : State) (p : ErrLoc → Bool) : CacheFrame s (s.delPoison p) := ⟨rfl, fun _ => rfl⟩

theorem l1Fresh (s : State) (c ln : Nat) (keep : LByte → Bool) : CacheFrame s (s.l1Fresh c ln keep) := .ite (refl s) (delPoison ..)

theorem l1Fit (s : State) (c keep : Nat) : CacheFrame s (s.l1Fit c keep) := by
  unfold State.l1Fit
  refine .ite (refl s) ?_
  split
  · exact l1Evict ..
  · exact refl s

theorem l1Store (s : State) (c grid : Nat) (cells : List (Nat × Byte)) : CacheFrame s (s.l1Store c grid cells) := by
  unfold State.l1Store
  refine trans (delPoison s _) (foldl (fun s ab => ?_) _ _)
  exact (((wcDrain s c _).trans (resolveFd ..)).trans (l1Fresh ..)).trans ((modCore ..).trans (l1Fit ..))

theorem l1Fetch (s : State) (c ln : Nat) : CacheFrame s (s.l1Fetch c ln) :=
  ((resolveFd s c _).trans (l1Fresh ..)).trans ((modCore ..).trans (l1Fit ..))

theorem l1Touch (s : State) (c : Nat) (pas : List Nat) : CacheFrame s (s.l1Touch c pas) :=
  foldl (fun s _ => (wcDrain s c _).trans (.ite (l1Fetch ..) (refl _))) _ s

theorem l1LoadLanes (c size : Nat) (real : W32) (l : List (Nat × Nat)) (s : State) :
    CacheFrame s (l1LoadLanes c size real l s).2.2 := by
  induction l generalizing s with
  | nil => exact refl s
  | cons p l ih => exact (l1Touch s c (span p.2 size)).trans (ih _)

theorem moved (s : State) (gid n : Nat) : CacheFrame s (s.moved gid n) := countBytes ..

/-- Pieces that the L1 serves. -/
theorem loadPieces (a : Issuer) (gid : Nat) {ps : List (Nat × W64)} (h : ∀ p ∈ ps, leafCp p.2 % 2 = 0) (s : State) :
    CacheFrame s (loadPieces a gid ps s).2.2 := by
  induction ps generalizing s with
  | nil => exact refl s
  | cons p ps ih =>
    have served : (leafCp p.2 % 2 == 0) = true := by simpa using h p List.mem_cons_self
    simp only [Machine.loadPieces, served, if_true]
    refine trans ?_ (ih (fun q hq => h q (List.mem_cons_of_mem _ hq)) _)
    exact (moved ..).trans (l1LoadLanes (coreOf a) 64 (BitVec.allOnes 32) [(0, p.1)] _)

end CacheFrame

/-- One piece of a frame's bytes goes through the L1. -/
def pieceStored (c grid : Nat) (bs : List Byte) (s : State) (p : Nat × Nat × W64) : State :=
  (s.collTouchPa (span p.2.1 64)).l1Store c grid (cellsAt p.2.1 ((bs.drop (64 * p.1)).take 64))

theorem CacheFrame.pieceStored (c grid : Nat) (bs : List Byte) (s : State) (p : Nat × Nat × W64) :
    CacheFrame s (pieceStored c grid bs s p) := (CacheFrame.collTouchPa ..).trans (.l1Store ..)

/-- A frame whose pieces the L1 serves. -/
theorem storePieces_l1 (c gid : Nat) (bs : List Byte) {ps : List (Nat × W64)} (h : ∀ p ∈ ps, leafCp p.2 % 2 = 0) (s : State) :
    storePieces c gid bs ps s = ((List.range ps.length).zip ps).foldl (pieceStored c (s.group gid).grid bs) s := by
  have served : ∀ p ∈ (List.range ps.length).zip ps, leafCp p.2.2 % 2 = 0 := fun p hp => h _ (List.of_mem_zip hp).2
  unfold storePieces
  generalize (List.range ps.length).zip ps = l at *
  induction l generalizing s with
  | nil => rfl
  | cons p l ih =>
    have group : (Machine.pieceStored c (s.group gid).grid bs s p).group gid = s.group gid := by
      rw [State.group, (CacheFrame.pieceStored c (s.group gid).grid bs s p).groups]; rfl
    have step : (leafCp p.2.2 % 2 == 0) = true := by simpa using served p List.mem_cons_self
    rw [List.foldl_cons, List.foldl_cons, if_pos step]
    refine (ih _ fun q hq => served q (List.mem_cons_of_mem _ hq)).trans ?_
    exact congrArg (fun g : Group => l.foldl (Machine.pieceStored c g.grid bs) _) group

end Sys2Proof.Machine
end

section
/-! SUPPORT. Calls: the frame that is pushed, the frame that is stored for its place, and the traps. -/

namespace Sys2Proof.Machine

/-! ### The shallowest frame on the chip (03 R68) -/

/-- The shallower of a frame found so far and the next one. -/
def shallower (m : Option Frame) (f : Frame) : Option Frame :=
  match m with
  | none => some f
  | some g => if f.depth < g.depth then some f else some g

/-- The frame that is shallower than every other is found, whether it has come up or is still to come. -/
theorem foldl_shallower {fr : Frame} (l : List Frame) (hmin : ∀ g ∈ l, g ≠ fr → fr.depth < g.depth) (m : Option Frame)
    (h : m = some fr ∨ fr ∈ l ∧ ∀ g ∈ m, fr.depth < g.depth) : l.foldl shallower m = some fr := by
  induction l generalizing m with
  | nil => exact h.resolve_right fun h => by cases h.1
  | cons f l ih =>
    refine ih (fun g hg => hmin g (List.mem_cons_of_mem _ hg)) _ ?_
    have fmin := hmin f List.mem_cons_self
    by_cases hf : f = fr
    · subst hf
      left
      rcases h with rfl | ⟨-, far⟩
      · exact if_neg (Nat.lt_irrefl _)
      · cases m with
        | none => rfl
        | some g => exact if_pos (far g rfl)
    · rcases h with rfl | ⟨mem, far⟩
      · exact .inl (if_neg (Nat.lt_asymm (fmin hf)))
      · refine .inr ⟨(List.mem_cons.1 mem).resolve_left (Ne.symm hf), fun g hg => ?_⟩
        cases m with
        | none => cases hg; exact fmin hf
        | some g' =>
          unfold shallower at hg
          dsimp only at hg
          split at hg
          · cases hg; exact fmin hf
          · cases hg; exact far _ rfl

theorem foldl_shallower_some (l : List Frame) (f : Frame) : ∃ g, l.foldl shallower (some f) = some g := by
  induction l generalizing f with
  | nil => exact ⟨f, rfl⟩
  | cons x l ih =>
    rw [List.foldl_cons, shallower]
    split
    · exact ih x
    · exact ih f

/-! ### A frame that is stored (03 R68 to R70) -/

/-- No frame can be stored where SPILL is 0 (03 R70). -/
theorem spillFrame_noSpill {s0 s : State} {v : View} (hne : (s.warp v.c v.w).frames ≠ []) (hz : (s.gridOf v.gid).spill = 0) :
    spillFrame s0 v s = .error (Res.of s0 ⟨rkSpill, 0x42, 0, 8⟩ v.realLanes) := by
  obtain ⟨f, l, hl⟩ := List.exists_cons_of_ne_nil hne
  obtain ⟨g, hg⟩ := foldl_shallower_some l f
  unfold spillFrame
  dsimp only
  split
  · next none' =>
    rw [hl] at none'
    cases (hg.symm.trans none' :)
  · exact if_pos (by simp [hz])

/-- The frame shallower than the others is stored through the L1. -/
theorem spillFrame_stores {s0 s s1 : State} {v : View} {x : Warp} {fr : Frame} {ps : List (Nat × W64)} (hx : s.warp? v.c v.w = some x)
    (hfr : fr ∈ x.frames) (hmin : ∀ g ∈ x.frames, g ≠ fr → fr.depth < g.depth) (hsp : (s.gridOf v.gid).spill ≠ 0)
    (hno : NoneOut v.me s) (hok : FrameOk s v .w (frameAddr s v fr.depth) ps s1) :
    spillFrame s0 v s = .ok ((((List.range 5).zip ps).foldl (pieceStored v.c (s.group v.gid).grid fr.bytes) s1).setWarp v.c v.w { x with
      frames := x.frames.filter fun g => g.depth != fr.depth
      spilled := insertNat fr.depth x.spilled }) := by
  obtain ⟨pieces, len, served⟩ := hok
  have lanes := LaneFrame.framePieces s v .w (frameAddr s v fr.depth)
  rw [pieces] at lanes
  have shallowest : (s.warp v.c v.w).frames.foldl shallower none = some fr := by
    rw [State.warp_of_warp? hx]
    exact foldl_shallower _ hmin _ (.inr ⟨hfr, by simp⟩)
  have group : s1.group v.gid = s.group v.gid := by rw [State.group, (CacheFrame.ofLane lanes).groups]; rfl
  have stored : storePieces v.c v.gid fr.bytes ps s1 = ((List.range 5).zip ps).foldl (pieceStored v.c (s.group v.gid).grid fr.bytes) s1 := by
    rw [storePieces_l1 _ _ _ served, len, group]
  have frame : CacheFrame s (storePieces v.c v.gid fr.bytes ps s1) := by
    rw [stored]
    exact (CacheFrame.ofLane lanes).trans (.foldl (CacheFrame.pieceStored _ _ _) _ _)
  have warp : (storePieces v.c v.gid fr.bytes ps s1).warp? v.c v.w = some x := by rw [State.warp?, frame.warps]; exact hx
  unfold spillFrame
  dsimp only
  split
  · next none' => cases (shallowest.symm.trans none' :)
  · next f some' =>
    cases (shallowest.symm.trans some' :)
    rw [if_neg (by simpa using hsp), pieces]
    dsimp only
    rw [frameFate_ok s0 v false _ len]
    dsimp only
    rw [(lanes.noneOut hno).settle, State.modWarp_some warp, stored]

/-! ### CALL (15 R349, R350) -/

/-- The frame that a call pushes: next_pc and the old priority for each active lane (03 R66, R67). -/
def callFrame (long : Bool) (v : View) : Frame :=
  ⟨v.e.depth + 1, v.act, v.lanes.map fun j => (j, v.e.prio ++ (v.e.pc + (if long then 16 else 8)))⟩

/-- The state in which a call's frame has a place: with no room on the chip, the shallowest frame is stored first (03 R68). -/
def roomMade (v : View) (s : State) : Except Res State :=
  if (s.gridOf v.gid).callDepth ≤ v.wp.frames.length then spillFrame s v s else .ok s

/-- A warp after a call. -/
def Warp.called (x : Warp) (long : Bool) (v : View) (frontier : List Entry) : Warp :=
  { x with frontier := frontier, spilled := x.spilled.filter fun k => k < v.e.depth + 1, frames := x.frames ++ [callFrame long v] }

section
variable {s : State} {v : View} {long : Bool} {moved : List Entry}

theorem callTo_pushes {z : State} {x : Warp} (hf : (Claims.movedFrontier v long moved).length ≤ (s.gridOf v.gid).frontier)
    (hd : v.e.depth + 1 ≤ (s.gridOf v.gid).callDepth + 512)
    (hs : roomMade v s = .ok (z.setWarp v.c v.w x)) :
    callTo long moved v s = .ok (z.setWarp v.c v.w (x.called long v (Claims.movedFrontier v long moved))) .moved := by
  unfold roomMade at hs
  unfold callTo
  dsimp only
  rw [moveTo_fits hf]
  dsimp only
  rw [if_neg (Nat.not_lt.2 hd), hs]
  dsimp only
  rw [State.setWarp_modWarp, setFrontier, State.setWarp_modWarp]
  rfl

theorem callTo_overflows (hf : (s.gridOf v.gid).frontier < (Claims.movedFrontier v long moved).length) : callTo long moved v s =
    Res.of s ⟨rkFrontier, 0x13, BitVec.ofNat 64 (Claims.movedFrontier v long moved).length, 8⟩ v.realLanes := by
  unfold callTo
  dsimp only
  rw [moveTo_overflows hf]

/-- A call past the depth's bound, or one that has no room for a frame and no memory for the shallowest, is STACK_SPILL_FAULT (03 R70). -/
theorem callTo_spillFault (hf : (Claims.movedFrontier v long moved).length ≤ (s.gridOf v.gid).frontier)
    (h : (s.gridOf v.gid).callDepth + 512 < v.e.depth + 1 ∨
      (s.warp v.c v.w).frames ≠ [] ∧ (s.gridOf v.gid).callDepth ≤ v.wp.frames.length ∧ (s.gridOf v.gid).spill = 0) :
    callTo long moved v s = Res.of s ⟨rkSpill, 0x42, 0, 8⟩ v.realLanes := by
  unfold callTo
  dsimp only
  rw [moveTo_fits hf]
  dsimp only
  by_cases deep : (s.gridOf v.gid).callDepth + 512 < v.e.depth + 1
  · rw [if_pos deep]
  · obtain ⟨hne, full, hz⟩ := h.resolve_left deep
    rw [if_neg deep, if_pos full, spillFrame_noSpill hne hz]

end

section
variable {v : View} (ha : v.act ≠ 0) (s : State)
include ha

theorem callBody_acts (long : Bool) (prio : BitVec 16) (off : Int) : callBody long prio off v s =
    callTo long [{ pc := brTarget v.e.pc off, prio := prio, mask := v.act, depth := v.e.depth + 1 }] v s := if_neg (by simpa using ha)

theorem callxBody_acts {f : SysF} (hc : v.real = 0 ∨ v.early = true ∨ checkVs s v.wp (runRegsX f.xa f.a.toNat 2) = none)
    (hp : ∀ j ∈ v.realLanes, (readR64 s v 0 f.xa f.a.toNat j).extractLsb' 0 3 = 0) : callxBody f v s =
      callTo false (laneEntries (v.e.depth + 1) (v.lanes.map fun j => (j, readR64 s v 0 f.xa f.a.toNat j))) v s := by
  rw [callxBody, guardV_pass hc, if_neg (by simpa using ha), pointers_aligned hp]

end

end Sys2Proof.Machine

namespace Sys2Proof.Claims
open Sys2Proof.Machine

section
variable {s : State} {i : Instr} {h : Hdr} {c w : Nat} {wp : Warp} {e : Entry} {moved : List Entry} (hi : Issues i h c w wp e s)
  (hp : pointersAligned (begun c w wp s) (seen h c w wp e s) i)
include hi hp

/-- CALL, CALL.far and CALLX with an active lane call their entries. -/
theorem exec_call (hm : callEntries (begun c w wp s) (seen h c w wp e s) i = some moved)
    (ha : (seen h c w wp e s).act ≠ 0)
    (hc : (seen h c w wp e s).real = 0 ∨ checkVs (begun c w wp s) wp (pointerRegs i) = none) :
    exec i s = .next (endIssue c w h i.long (helperOnly (seen h c w wp e s) (begun c w wp s)
      (callTo i.long moved (seen h c w wp e s) (begun c w wp s)))) := by
  unfold callEntries at hm
  split at hm
  · next k f =>
    cases hi.hdr; cases hm
    exact exec_of_body hi rfl (callBody_acts ha _ false f.prio f.off.toInt)
  · next k f =>
    cases hi.hdr; cases hm
    exact exec_of_body hi rfl (callBody_acts ha _ true f.prio f.off.toInt)
  · next k f =>
    cases hi.hdr; cases hm
    rw [← laneEntries_map]
    exact exec_of_body hi rfl (callxBody_acts ha _ (pointerCheck hc rfl) hp)
  · cases hm

/-- A call whose frame has a place, or gets one. -/
theorem call_redirects {z : State} {x : Warp}
    (hm : callEntries (begun c w wp s) (seen h c w wp e s) i = some moved) (ha : (seen h c w wp e s).act ≠ 0)
    (hc : (seen h c w wp e s).real = 0 ∨ checkVs (begun c w wp s) wp (pointerRegs i) = none)
    (hf : (movedFrontier (seen h c w wp e s) i.long moved).length ≤ (s.gridOf wp.gid).frontier)
    (hd : e.depth + 1 ≤ (s.gridOf wp.gid).callDepth + 512)
    (hs : roomMade (seen h c w wp e s) (begun c w wp s) = .ok (z.setWarp c w x)) :
    Answers (exec i s) (Redirects h c w
      (x.called i.long (seen h c w wp e s) (movedFrontier (seen h c w wp e s) i.long moved)) z) := by
  have issue := exec_call hi hp hm ha hc
  rw [callTo_pushes (s := begun c w wp s) (v := seen h c w wp e s) hf hd hs, helperOnly_ok] at issue
  rw [issue]
  exact ⟨_, rfl, redirects_moved h c w i.long _ z⟩

omit hi hp in
/-- An issue that comes to a trap of all active real lanes takes it. -/
theorem traps_of_issue {code rank : Nat} {info : W64} {long : Bool} (hr : (seen h c w wp e s).real ≠ 0)
    (issue : exec i s = .next (endIssue c w h long (helperOnly (seen h c w wp e s) (begun c w wp s)
      (Res.of (begun c w wp s) ⟨rank, code, info, 8⟩ (seen h c w wp e s).realLanes)))) :
    exec i s = .next (takeTrap (begun c w wp s) c w code 8 ((seen h c w wp e s).realLanes.map fun j => (j, info))).useFree := by
  rw [issue, helperOnly_real hr]
  rfl

/-- A branch or a call that makes too many entries is FRONTIER_OVERFLOW (03 R64). -/
theorem branch_call_overflows (hr : (seen h c w wp e s).real ≠ 0)
    (hc : checkVs (begun c w wp s) wp (pointerRegs i) = none)
    (hm : branchEntries (begun c w wp s) (seen h c w wp e s) i = some moved ∨
      callEntries (begun c w wp s) (seen h c w wp e s) i = some moved)
    (hf : (s.gridOf wp.gid).frontier < (movedFrontier (seen h c w wp e s) i.long moved).length) :
    exec i s = .next (takeTrap (begun c w wp s) c w 0x13 8 ((seen h c w wp e s).realLanes.map fun j =>
      (j, BitVec.ofNat 64 (movedFrontier (seen h c w wp e s) i.long moved).length))).useFree := by
  have ha : (seen h c w wp e s).act ≠ 0 := fun h0 => hr (View.real_of_act h0)
  rcases hm with hm | hm
  · have issue := exec_branch hi hm ha (.inr hc) hp
    rw [branchTo, moveTo_overflows (s := begun c w wp s) (v := seen h c w wp e s) hf] at issue
    exact traps_of_issue hr issue
  · have issue := exec_call hi hp hm ha (.inr hc)
    rw [callTo_overflows (s := begun c w wp s) (v := seen h c w wp e s) hf] at issue
    exact traps_of_issue hr issue

/-- A call past the depth's bound, or one that has no room for a frame and no memory for the shallowest (03 R70; 15 R349). -/
theorem call_spillFault (hr : (seen h c w wp e s).real ≠ 0)
    (hc : checkVs (begun c w wp s) wp (pointerRegs i) = none)
    (hm : callEntries (begun c w wp s) (seen h c w wp e s) i = some moved)
    (hf : (movedFrontier (seen h c w wp e s) i.long moved).length ≤ (s.gridOf wp.gid).frontier)
    (fault : (s.gridOf wp.gid).callDepth + 512 < e.depth + 1 ∨
      wp.frames ≠ [] ∧ (s.gridOf wp.gid).callDepth ≤ wp.frames.length ∧ (s.gridOf wp.gid).spill = 0) :
    exec i s = .next (takeTrap (begun c w wp s) c w 0x42 8 ((seen h c w wp e s).realLanes.map fun j => (j, 0))).useFree := by
  have warp : (begun c w wp s).warp c w = { wp with young := false } := State.warp_setWarp ..
  have issue := exec_call hi hp hm (fun h0 => hr (View.real_of_act h0)) (.inr hc)
  rw [callTo_spillFault (s := begun c w wp s) (v := seen h c w wp e s) hf
    (fault.imp_right fun ⟨hne, full⟩ => ⟨(congrArg Warp.frames warp).trans_ne hne, full⟩)] at issue
  exact traps_of_issue hr issue

end

/-- Settles O12: a call with room, a call that stores the shallowest frame first, the traps, and the bytes of a frame. -/
theorem callsComplete : Obligations.CallsComplete := by
  refine ⟨?_, ?_, ?_, fun f => ⟨f.bytes_length, f.bytes_mask, fun j hj => f.bytes_word hj⟩⟩
  · intro s i h c w wp e moved hi v u hm ha hc hp hf hd room
    exact call_redirects hi hp hm ha hc hf hd (if_neg (Nat.not_le.2 room))
  · intro s s1 i h c w wp e moved fr ps hi v u hm ha hc hp hf hd full hfr hmin hsp hno hok z
    have warp : u.warp? v.c v.w = some { wp with young := false } := State.warp?_setWarp ..
    have stored := spillFrame_stores (s0 := u) warp hfr hmin hsp hno hok
    exact call_redirects hi hp hm ha hc hf hd ((if_pos full).trans stored)
  · intro s i h c w wp e moved hi v u n traps hr hc hp
    exact ⟨fun hm hf => branch_call_overflows hi hp hr hc hm hf, fun hm hf fault => call_spillFault hi hp hr hc hm hf fault⟩

end Sys2Proof.Claims
end

section
/-! SUPPORT. The end of lanes: RET from a frame, with and without a fill, and EXIT. -/

namespace Sys2Proof.Machine

/-! ### RET from a frame on the chip (03 R67, R68; 17 R420) -/

/-- The entries of the lanes that return: to their return words, one level up (03 R67). -/
def returnEntries (v : View) (fr : Frame) : List Entry := v.lanes.map fun j =>
  { pc := BitVec.ofNat 48 ((mget 0 fr.rets j).toNat % 2 ^ 48 / 8 * 8), prio := (mget 0 fr.rets j).extractLsb' 48 16,
    mask := BitVec.twoPow 32 j, depth := v.e.depth - 1 }

/-- The frames after the active lanes have left one of them; a frame without lanes is popped (03 R67). -/
def framesLeft (v : View) (fr : Frame) (frames : List Frame) : List Frame :=
  if fr.mask &&& ~~~v.act = 0 then frames.filter fun x => x.depth != v.e.depth
  else frames.map fun x => if x.depth == v.e.depth then
    { fr with mask := fr.mask &&& ~~~v.act, rets := fr.rets.filter fun r => !v.act.getLsbD r.1 } else x

/-- A warp that has read frame `k` back from memory (03 R68). -/
def Warp.filled (x : Warp) (k : Nat) (bs : List Byte) : Warp :=
  { x with
    frames := if (frameOf k bs x.exited).mask = 0 then x.frames else x.frames ++ [frameOf k bs x.exited]
    spilled := x.spilled.filter fun d => d != k }

/-- The state in which the active lanes have left frame `fr` of warp `x`, with the frame CALLDEPTH levels up read back where the frame is
popped and that one lies in memory (03 R68). -/
def refilled (s0 : State) (v : View) (fr : Frame) (x : Warp) (s : State) : Except Res State :=
  let left := s.setWarp v.c v.w { x with frames := framesLeft v fr x.frames }
  let k := v.e.depth - (s.gridOf v.gid).callDepth
  if fr.mask &&& ~~~v.act = 0 ∧ (s.gridOf v.gid).callDepth < v.e.depth ∧ k ∈ x.spilled then fillFrame s0 v k left else .ok left

section
variable {v : View} {fr : Frame}

/-- A RET above depth 0 whose frame is on the chip returns from it. -/
theorem retBody_onChip (s : State) (ha : v.act ≠ 0) (hd : 0 < v.e.depth) (hh : ¬(v.wp.hmode = true ∧ v.e.depth = v.wp.held.depth))
    (hfr : v.wp.frames.find? (fun x => x.depth == v.e.depth) = some fr) : retBody v s = retFrom s v s := by
  have depth : fr.depth = v.e.depth := by simpa using List.find?_some hfr
  have here : ¬ (v.wp.spilled.contains v.e.depth && v.wp.frames.all fun f => f.depth != v.e.depth) = true := by
    rw [Bool.and_eq_true, List.all_eq_true]
    rintro ⟨-, none'⟩
    simpa [depth] using none' fr (List.mem_of_find?_eq_some hfr)
  unfold retBody
  dsimp only
  rw [if_neg (by simpa using ha), if_neg (by simpa using hh), if_neg (by simpa using Nat.ne_of_gt hd), if_neg here]

/-- The lanes return once the frames that they leave stand, and the frame CALLDEPTH levels up has been read back. -/
theorem retFrom_returns {s0 s z : State} {x y : Warp} (hx : s.warp? v.c v.w = some x)
    (hfr : x.frames.find? (fun f => f.depth == v.e.depth) = some fr)
    (hp : ∀ j ∈ v.realLanes, (mget 0 fr.rets j).extractLsb' 0 3 = 0)
    (hs : refilled s0 v fr x s = .ok (z.setWarp v.c v.w y)) :
    retFrom s0 v s = .ok (z.setWarp v.c v.w { y with frontier := v.wp.replaceFirst (returnEntries v fr ++ [v.rest false]) }) .moved := by
  have left : s.modWarp v.c v.w (fun y => { y with frames := (if (fr.mask &&& ~~~v.act == 0) = true
      then y.frames.filter (fun g => g.depth != v.e.depth) else y.frames.map fun g => if g.depth == v.e.depth then
        { fr with mask := fr.mask &&& ~~~v.act, rets := fr.rets.filter fun r => !v.act.getLsbD r.1 } else g) }) =
      s.setWarp v.c v.w { x with frames := framesLeft v fr x.frames } := by
    rw [State.modWarp_some hx]
    simp only [framesLeft, beq_iff_eq]
  have fills : ((fr.mask &&& ~~~v.act == 0 && (s.gridOf v.gid).callDepth < v.e.depth &&
      x.spilled.contains (v.e.depth - (s.gridOf v.gid).callDepth)) = true) = (fr.mask &&& ~~~v.act = 0 ∧
      (s.gridOf v.gid).callDepth < v.e.depth ∧ v.e.depth - (s.gridOf v.gid).callDepth ∈ x.spilled) := by
    simp [and_assoc]
  unfold refilled at hs
  unfold retFrom
  dsimp only
  rw [State.warp_of_warp? hx, hfr]
  dsimp only
  rw [aligned_filter_nil hp, if_neg (by simp), left]
  simp only [fills, hs]
  rw [setFrontier, State.setWarp_modWarp, laneEntries_map]
  rfl

/-- A frame whose pieces the L1 serves is read back (03 R68, R69). -/
theorem fillFrame_fills {s0 s s1 s2 : State} {x : Warp} {k : Nat} {ps : List (Nat × W64)} {bs : List Byte}
    (hx : s.warp? v.c v.w = some x) (hno : NoneOut v.me s) (hok : FrameOk s v .r (frameAddr s v k) ps s1)
    (hl : loadPieces v.me v.gid ps s1 = (bs, none, s2)) : fillFrame s0 v k s = .ok (s2.setWarp v.c v.w (x.filled k bs)) := by
  obtain ⟨pieces, len, served⟩ := hok
  have lanes := LaneFrame.framePieces s v .r (frameAddr s v k)
  rw [pieces] at lanes
  have loads := CacheFrame.loadPieces v.me v.gid served s1
  rw [hl] at loads
  have warp : s2.warp? v.c v.w = some x := by rw [State.warp?, ((CacheFrame.ofLane lanes).trans loads).warps]; exact hx
  unfold fillFrame
  dsimp only
  rw [pieces]
  dsimp only
  rw [frameFate_ok s0 v true _ len]
  dsimp only
  rw [(lanes.noneOut hno).settle, hl]
  dsimp only
  rw [State.modWarp_some warp]
  simp only [Warp.filled, beq_iff_eq]

end

/-! ### EXIT (16 R364, R365) -/

/-- A warp whose lanes have exited; handler mode ends with its last held lane (11 R254). -/
theorem Warp.exitLanes_eq (x : Warp) (m : W32) (f : List Entry) : x.exitLanes m f =
    if x.hmode = true ∧ x.held.mask &&& ~~~(x.exited ||| m) = 0 then
      { x with exited := x.exited ||| m, frames := clearLanes m x.frames, hmode := false, held := {},
               frontier := sortEntries (mergeEntries f) }
    else { x with exited := x.exited ||| m, frames := clearLanes m x.frames, frontier := f } := by
  unfold Warp.exitLanes
  dsimp only
  simp only [Bool.and_eq_true, beq_iff_eq]

theorem exitBody_exits {v : View} (s : State) (ha : v.act ≠ 0) : exitBody v s =
    .ok (s.modWarp v.c v.w fun x => x.exitLanes v.act (v.wp.replaceFirst [v.rest false])) .moved := if_neg (by simpa using ha)

/-- RET at depth 0 is EXIT, but in handler mode at the held depth (17 R420). -/
theorem retBody_exits {v : View} (s : State) (ha : v.act ≠ 0) (hd : v.e.depth = 0) (hh : ¬(v.wp.hmode = true ∧ v.wp.held.depth = 0)) :
    retBody v s = exitBody v s := by
  have other : ¬ (v.wp.hmode && v.e.depth == v.wp.held.depth) = true := by
    rw [Bool.and_eq_true, beq_iff_eq, hd]
    exact fun ⟨mode, depth⟩ => hh ⟨mode, depth.symm⟩
  unfold retBody
  dsimp only
  rw [if_neg (by simpa using ha), if_neg other, if_pos (by simpa using hd)]

end Sys2Proof.Machine

namespace Sys2Proof.Claims
open Sys2Proof.Machine

section
variable {s : State} {h : Hdr} {f : SysF} {c w : Nat} {wp : Warp} {e : Entry}

/-- A return from a frame on the chip, after which the warp stands as `y` and all else as in `z`. -/
theorem ret_redirects {fr : Frame} {z : State} {y : Warp} (hi : Issues (.ret h f) h c w wp e s) (ha : (seen h c w wp e s).act ≠ 0)
    (hd : 0 < e.depth) (hh : ¬(wp.hmode = true ∧ e.depth = wp.held.depth))
    (hfr : wp.frames.find? (fun x => x.depth == e.depth) = some fr)
    (hp : ∀ j ∈ (seen h c w wp e s).realLanes, (mget 0 fr.rets j).extractLsb' 0 3 = 0)
    (hs : refilled (begun c w wp s) (seen h c w wp e s) fr { wp with young := false } (begun c w wp s) = .ok (z.setWarp c w y)) :
    Answers (exec (.ret h f) s) (Redirects h c w { y with
      frontier := (seen h c w wp e s).wp.replaceFirst
        (returnEntries (seen h c w wp e s) fr ++ [(seen h c w wp e s).rest false]) } z) := by
  have issue : exec (.ret h f) s = _ := runWarp_issues hi retBody
  rw [retBody_onChip (begun c w wp s) ha hd hh hfr,
    retFrom_returns (s0 := begun c w wp s) (s := begun c w wp s) (v := seen h c w wp e s) (State.warp?_setWarp ..) hfr hp hs, helperOnly_ok] at issue
  rw [issue]
  exact ⟨_, rfl, redirects_moved h c w false _ z⟩

/-- Lanes that end, by EXIT or by RET at depth 0. -/
theorem exit_redirects {i : Instr} (hi : Issues i h c w wp e s) (ha : (seen h c w wp e s).act ≠ 0) {body : View → State → Res}
    (hx : exec i s = runWarp h i body s)
    (hb : body (seen h c w wp e s) (begun c w wp s) = exitBody (seen h c w wp e s) (begun c w wp s)) :
    Answers (exec i s) (Redirects h c w (({ wp with young := false } : Warp).exitLanes (seen h c w wp e s).act
      (wp.replaceFirst [(seen h c w wp e s).rest false])) s) := by
  have issue := hx.trans (runWarp_issues hi body)
  rw [hb, exitBody_exits _ ha, helperOnly_ok, endIssue] at issue
  rw [issue]
  refine ⟨_, rfl, ?_⟩
  have exits := redirects_moved h c w i.long (({ wp with young := false } : Warp).exitLanes (seen h c w wp e s).act
    (wp.replaceFirst [(seen h c w wp e s).rest false])) s
  rw [← begun_modWarp (f := fun x => x.exitLanes (seen h c w wp e s).act (wp.replaceFirst [(seen h c w wp e s).rest false]))] at exits
  exact exits

end

/-- Settles O13: a return without a fill, a return that fills, the bytes of a frame read back, and the lanes that end. -/
theorem lanesEnd : Obligations.LanesEnd := by
  refine ⟨?_, ?_, fun f exited j hj lane => ⟨frameOf_bytes_mask f exited, rfl, frameOf_bytes_ret f exited hj lane⟩, ?_⟩
  · intro s h f c w wp e fr hi v ha hd hh hfr hp nofill
    refine ret_redirects (z := s) hi ha hd hh hfr hp ((if_neg ?_).trans (congrArg _ (State.setWarp_setWarp ..)))
    exact fun ⟨empty, deep, mem⟩ => nofill empty deep mem
  · intro s s1 s2 h f c w wp e fr ps bs hi v k kept u ha hd hh hfr hp empty deep mem hno hok hl g
    have frames : framesLeft v fr wp.frames = kept := if_pos empty
    have warp : u = s.setWarp c w { wp with young := false, frames := kept } := begun_modWarp ..
    have left : (begun c w wp s).setWarp c w { wp with young := false, frames := framesLeft v fr wp.frames } = u := by
      rw [frames, begun, State.setWarp_setWarp, warp]
    have core : u.core c = s.core c := State.core_modWarp ..
    have none' : NoneOut (.warp c w) u := fun x hx => hno x (core ▸ hx)
    have addr : frameAddr u v k = frameAt s c w wp.gid k := by
      simp only [frameAddr, frameAt, State.gridOf, u, State.grid_modWarp, State.group_modWarp]
      rfl
    have fills : fillFrame (begun c w wp s) v k u = .ok (s2.setWarp c w (Warp.filled { wp with young := false, frames := kept } k bs)) :=
      fillFrame_fills (v := v) (warp ▸ State.warp?_setWarp ..) none' (addr ▸ hok) hl
    exact ret_redirects hi ha hd hh hfr hp
      ((if_pos ⟨empty, deep, mem⟩).trans ((congrArg (fillFrame (begun c w wp s) v k) left).trans fills))
  · intro s i h f c w wp e hi ends v x ha
    rcases ends with rfl | ⟨rfl, hd, hh⟩
    · have exits := exit_redirects hi ha (body := exitBody) rfl rfl
      rw [Warp.exitLanes_eq] at exits
      exact exits
    · have exits := exit_redirects hi ha (body := retBody) rfl (retBody_exits _ ha hd hh)
      rw [Warp.exitLanes_eq] at exits
      exact exits

end Sys2Proof.Claims
end

section
/-! SUPPORT. The order of a frontier, and the fetch at its first entry. -/

namespace Sys2Proof.Machine

/-! ### The order of entries (03 R61) -/

/-- An entry comes before another, or ties with it: the deepest first, then the lowest priority, then the lowest pc. -/
abbrev Entry.Leads (e x : Entry) : Prop := x.before e = false

theorem Entry.leads_iff {e x : Entry} : e.Leads x ↔
    x.depth < e.depth ∨ (x.depth = e.depth ∧ (e.prio.toNat < x.prio.toNat ∨ (e.prio = x.prio ∧ e.pc.toNat ≤ x.pc.toNat))) := by
  simp only [Entry.Leads, Entry.before, ← BitVec.toNat_inj, Bool.or_eq_false_iff, Bool.and_eq_false_iff, decide_eq_false_iff_not,
    beq_eq_false_iff_ne, ne_eq]
  omega

theorem Entry.leads_total : Std.Total Entry.Leads := ⟨fun a b => by
  simp only [Entry.leads_iff, ← BitVec.toNat_inj]
  omega⟩

theorem Entry.leads_trans : IsTrans Entry Entry.Leads := ⟨fun a b c hab hbc => by
  simp only [Entry.leads_iff, ← BitVec.toNat_inj] at *
  omega⟩

theorem insertEntry_eq (e : Entry) (l : List Entry) : insertEntry e l = l.orderedInsert Entry.Leads e := by
  induction l with
  | nil => rfl
  | cons x l ih =>
    rw [insertEntry, ih]
    by_cases h : x.before e = true
    · rw [if_pos h, List.orderedInsert_of_not_le _ _ (by simpa using h)]
    · rw [if_neg h, List.orderedInsert_cons_of_le _ _ (by simpa using h)]

theorem sortEntries_eq (l : List Entry) : sortEntries l = l.insertionSort Entry.Leads := by
  induction l with
  | nil => rfl
  | cons x l ih => rw [List.insertionSort_cons, ← ih, ← insertEntry_eq]; rfl

/-- The head of a sorted list leads the list. -/
theorem sortEntries_head {l : List Entry} {e : Entry} (h : (sortEntries l).head? = some e) : e ∈ l ∧ ∀ x ∈ l, e.Leads x := by
  have := Entry.leads_total
  have := Entry.leads_trans
  have sorted := List.pairwise_insertionSort Entry.Leads l
  obtain ⟨t, ht⟩ := List.head?_eq_some_iff.1 (sortEntries_eq l ▸ h)
  have mem : ∀ x, x ∈ e :: t ↔ x ∈ l := fun x => ht ▸ List.mem_insertionSort _
  rw [ht, List.pairwise_cons] at sorted
  refine ⟨(mem e).1 List.mem_cons_self, fun x hx => ?_⟩
  rcases List.mem_cons.1 ((mem x).2 hx) with rfl | ht
  · exact Entry.leads_iff.2 (.inr ⟨rfl, .inr ⟨rfl, Nat.le_refl _⟩⟩)
  · exact sorted.1 x ht

/-- In handler mode an entry may issue where its lanes are held (11 R253). -/
theorem Warp.eligible_handler {x : Warp} (h : x.hmode = true) (e : Entry) :
    x.eligible e = true ↔ ∀ j, j < 32 → e.mask.getLsbD j = true → x.held.mask.getLsbD j = true := by
  have within : x.eligible e = true ↔ e.mask &&& ~~~x.held.mask = 0 := by simp [Warp.eligible, h]
  rw [within]
  constructor
  · intro zero j hj lane
    have bit := congrArg (BitVec.getLsbD · j) zero
    simpa [hj, lane] using bit
  · intro held
    refine BitVec.eq_of_getLsbD_eq fun j hj => ?_
    cases lane : e.mask.getLsbD j with
    | false => simp [lane]
    | true => simp [held j hj lane]

theorem warpReady_first {s : State} {c w : Nat} (h : warpReady s c w = true) : ∃ x e, s.warp? c w = some x ∧ x.first = some e := by
  unfold warpReady at h
  split at h
  · cases h
  · next x hx =>
    split at h
    · cases h
    · next e he => exact ⟨x, e, hx, he⟩

/-! ### The fetch (03 R71; 10 R225; 13 R300) -/

/-- A pc stands on the odd word of a pair where its bit 3 is set (13 R300). -/
theorem evenWord (pc : BitVec 48) : (pc.toNat / 8 % 2 == 0) = !pc.getLsbD 3 := by
  rw [BitVec.getLsbD, Nat.testBit_eq_decide_div_mod_eq]
  rcases Nat.mod_two_eq_zero_or_one (pc.toNat / 8) with h | h <;> simp [h]

section
variable {s u u0 : State} {c n pa pa0 : Nat} {pc : BitVec 48} {leaf leaf0 : W64} {tl tl0 : TlbE}

theorem fetchXl_even (h : pc.getLsbD 3 = false) (hx : xlate s c n pc.toNat .x = (.ok pa leaf tl, u)) :
    fetchXl s c n pc.toNat = (.ok pa leaf tl, false, u) := by
  rw [fetchXl, evenWord, h, if_pos (by decide), hx]

/-- An odd word after an even word that is no first word of a pair. -/
theorem fetchXl_odd (h : pc.getLsbD 3 = true) (hx0 : xlate s c n (pc.toNat - 8) .r = (.ok pa0 leaf0 tl0, u0))
    (h0 : longOpc (u0.rd64 pa0) = false) (hx : xlate u0 c n pc.toNat .x = (.ok pa leaf tl, u)) :
    fetchXl s c n pc.toNat = (.ok pa leaf tl, false, u) := by
  rw [fetchXl, evenWord, h, if_neg (by decide), hx0]
  dsimp only
  rw [h0, Bool.and_false, if_neg (by decide), hx]

/-- The literal of a pair. -/
theorem fetchXl_literal (h : pc.getLsbD 3 = true) (hx0 : xlate s c n (pc.toNat - 8) .r = (.ok pa leaf tl, u)) (hpa : pa < memEnd)
    (h0 : longOpc (u.rd64 pa) = true) : fetchXl s c n pc.toNat = (.ok pa leaf tl, true, u) := by
  rw [fetchXl, evenWord, h, if_neg (by decide), hx0]
  dsimp only
  rw [h0, if_pos (by simpa using hpa)]

end

section
variable {s u : State} {c w pa : Nat} {leaf : W64} {tl : TlbE} {e : Entry} (he : (s.warp c w).first = some e) (hpa : pa < memEnd)
  (hc : (span (pa / 16 * 16) 16).any s.poisoned = false)
include he hpa hc

/-- A warp fetches the instruction that its word decodes to. -/
theorem fetchWarp_word {i : Instr} (hx : fetchXl s c (s.partOf (s.warp c w).gid) e.pc.toNat = (.ok pa leaf tl, false, u))
    (hodd : (e.pc.getLsbD 3 && longOpc (s.rd64 pa)) = false)
    (hd : decode (s.rd64 pa) (if longOpc (s.rd64 pa) then s.rd64 (pa + 8) else 0) = .ok i) : fetchWarp s c w = (i, u) := by
  have word : ¬ noWord s pa = true := by simp only [noWord, hc]; simpa using hpa
  unfold fetchWarp
  rw [he]
  dsimp only
  rw [hx]
  dsimp only
  rw [if_neg word, if_neg (by decide), if_neg (by rw [hodd]; decide), hd]

/-- A warp whose pc stands on the literal of a pair brings that to issue. -/
theorem fetchWarp_literal (hx : fetchXl s c (s.partOf (s.warp c w).gid) e.pc.toNat = (.ok pa leaf tl, true, u)) :
    fetchWarp s c w = (.branchIntoLiteral, u) := by
  have word : ¬ noWord s pa = true := by simp only [noWord, hc]; simpa using hpa
  unfold fetchWarp
  rw [he]
  dsimp only
  rw [hx]
  dsimp only
  rw [if_neg word, if_pos rfl]

theorem fetchWarp_even {i : Instr} (h : e.pc.getLsbD 3 = false)
    (hx : xlate s c (s.partOf (s.warp c w).gid) e.pc.toNat .x = (.ok pa leaf tl, u))
    (hd : decode (s.rd64 pa) (if longOpc (s.rd64 pa) then s.rd64 (pa + 8) else 0) = .ok i) : fetchWarp s c w = (i, u) :=
  fetchWarp_word he hpa hc (fetchXl_even h hx) (by rw [h, Bool.false_and]) hd

theorem fetchWarp_odd {i : Instr} {u0 : State} {pa0 : Nat} {leaf0 : W64} {tl0 : TlbE} (h : e.pc.getLsbD 3 = true)
    (hx0 : xlate s c (s.partOf (s.warp c w).gid) (e.pc.toNat - 8) .r = (.ok pa0 leaf0 tl0, u0)) (h0 : longOpc (u0.rd64 pa0) = false)
    (hx : xlate u0 c (s.partOf (s.warp c w).gid) e.pc.toNat .x = (.ok pa leaf tl, u)) (hl : longOpc (s.rd64 pa) = false)
    (hd : decode (s.rd64 pa) 0 = .ok i) : fetchWarp s c w = (i, u) :=
  fetchWarp_word he hpa hc (fetchXl_odd h hx0 h0 hx) (by rw [hl, Bool.and_false]) (by rw [hl]; exact hd)

end

/-! ### The lanes that act (13 R297) -/

theorem viewOf_lane (s : State) (c w : Nat) (wp : Warp) (e : Entry) (h : Hdr) {j : Nat} (hj : j < 32) :
    (viewOf s c w wp e h).act.getLsbD j = (e.mask.getLsbD j && ((predMask s c w wp h.pn.toNat).getLsbD j != h.pneg)) := by
  have lane : (viewOf s c w wp e h).act.getLsbD j = (e.mask.getLsbD j && (predLanes s c w wp h).getLsbD j) := BitVec.getLsbD_and
  rw [lane, predLanes]
  cases h.pneg <;> simp [hj]

end Sys2Proof.Machine

namespace Sys2Proof.Claims
open Sys2Proof.Machine

/-- Settles O18: the head of the sorted frontier leads it, and the fetch is at its pc. -/
theorem frontierOrder : Obligations.FrontierOrder := by
  refine ⟨fun w e he => ?_, fun w x => ⟨fun h => ?_, fun h => Warp.eligible_handler h x⟩, fun s c w h => warpReady_first h,
    fun s u c w pa leaf tl e i he h hx hpa hc hd => fetchWarp_even he hpa hc h hx hd,
    fun s u u0 c w pa pa0 leaf leaf0 tl tl0 e i he h hx0 _ h0 hx hpa hc hl hd => fetchWarp_odd he hpa hc h hx0 h0 hx hl hd,
    fun s i h c w wp e _ => ⟨rfl, fun j hj => viewOf_lane _ c w _ e h hj⟩⟩
  · obtain ⟨mem, leads⟩ := sortEntries_head he
    obtain ⟨here, may⟩ := List.mem_filter.1 mem
    exact ⟨here, may, fun x hx hm => Entry.leads_iff.1 (leads x (List.mem_filter.2 ⟨hx, hm⟩))⟩
  · rw [Warp.eligible, h]; rfl

end Sys2Proof.Claims
end

section
/-! SUPPORT. What a step runs. -/

namespace Sys2Proof.Machine

theorem step_run {s t : State} {i : Instr} (h : nextMove s = .run i t) : step s = exec i t := by rw [step, h]

theorem warpTurn_run {s u : State} {c w : Nat} {i : Instr} (h : fetchWarp (Claims.warpIssues s c w) c w = (i, u)) :
    warpTurn s c w = .run i u := by
  unfold warpTurn
  rw [Claims.warpIssues] at h
  rw [h]

/-- A context that has a bundle issues what it comes to. -/
theorem ctxTurn_run {s u : State} {c k : Nat} {i : Instr} (h : fetchCtx (Claims.ctxIssues s c k) c k = (i, u))
    (hi : ∀ c k, i ≠ .codeFillComplete c k) : ctxTurn s c k = .run i { u with issued := insertNat (5 * c + 4) u.issued } := by
  rw [Claims.ctxIssues] at h
  unfold ctxTurn
  rw [h]
  split
  · next c k _ fills => cases fills; exact absurd rfl (hi c k)
  · next same => cases same; rfl

section
variable {s : State} (h : Claims.Undisturbed s)
include h

/-- Where nothing is due, the unit that has the turn moves, or what is free to happen. -/
theorem nextMove_warp {c w : Nat} {e : Entry} (ht : s.turn = .warp c w) (he : (s.warp c w).first = some e) :
    nextMove s = warpTurn s c w := by
  simp [nextMove, h.live.power, h.live.awake, h.land, h.due, ht, he]

theorem nextMove_ctx {c k : Nat} (ht : s.turn = .ctx c k) (hb : (s.ctx c k).bound = true) : nextMove s = ctxTurn s c k := by
  simp [nextMove, h.live.power, h.live.awake, h.land, h.due, ht, hb]

theorem nextMove_free (ht : s.turn = .none) : nextMove s = freeMove s := by
  simp [nextMove, h.live.power, h.live.awake, h.land, h.due, ht]

theorem step_warpTurn {c w : Nat} {e : Entry} {i : Instr} {u : State} (ht : s.turn = .warp c w) (he : (s.warp c w).first = some e)
    (hf : fetchWarp (Claims.warpIssues s c w) c w = (i, u)) : step s = exec i u :=
  step_run ((nextMove_warp h ht he).trans (warpTurn_run hf))

theorem step_ctxTurn {c k : Nat} {i : Instr} {u : State} (ht : s.turn = .ctx c k) (hb : (s.ctx c k).bound = true)
    (hf : fetchCtx (Claims.ctxIssues s c k) c k = (i, u)) (hi : ∀ c k, i ≠ .codeFillComplete c k) :
    step s = exec i { u with issued := insertNat (5 * c + 4) u.issued } :=
  step_run ((nextMove_ctx h ht hb).trans (ctxTurn_run hf hi))

theorem step_event {e : Instr} {l : List Instr} (ht : s.turn = .none) (hc : s.choices = []) (ha : s.agenda = e :: l) :
    step s = exec e { s with agenda := l, cur := .none } :=
  step_run ((nextMove_free h ht).trans (by simp [freeMove, agendaMove, ha, hc]))

end

/-- A context's fetch that has a bundle: the operation that stands alone in it, or the bundle. -/
theorem fetchCtx_bundle {s u : State} {c k x next : Nat} (h : ctxFetch s c k = .bundle x next u) : fetchCtx s c k =
    ((soleOp x).getD (.bundle (bundleWord x 0) (bundleWord x 1) (bundleWord x 2) (bundleWord x 3) (bundleWord x 4) (bundleWord x 5)), u) := by
  unfold fetchCtx
  rw [h]
  dsimp only
  cases soleOp x <;> rfl

end Sys2Proof.Machine

namespace Sys2Proof.Claims
open Sys2Proof.Machine

/-- Settles O56: a warp's fetch, a context's fetch and the agenda's first event each become what the step runs. -/
theorem stepRunsDecoded : Obligations.StepRunsDecoded := by
  refine ⟨fun s t i => step_run, ?_, ?_, fun s e l hu ht hc ha => step_event hu ht hc ha⟩
  · intro s u c w pa leaf tl e i hu ht he hpa hc n x
    refine ⟨fun h hx hd => step_warpTurn hu ht he ?_, fun pa0 leaf0 tl0 u0 h hx0 _ h0 hx hl hd => step_warpTurn hu ht he ?_,
      fun h hx0 h0 => step_warpTurn hu ht he ?_⟩
    · exact fetchWarp_even (s := warpIssues s c w) he hpa hc h hx hd
    · exact fetchWarp_odd (s := warpIssues s c w) he hpa hc h hx0 h0 hx hl hd
    · exact fetchWarp_literal (s := warpIssues s c w) he hpa hc (fetchXl_literal h hx0 hpa h0)
  · intro s u c k x next hu ht hb hf u1
    have fetched := fetchCtx_bundle hf
    constructor
    · intro many
      rw [many, Option.getD_none] at fetched
      exact step_ctxTurn hu ht hb fetched fun _ _ => by simp
    · intro i sole hi
      rw [sole, Option.getD_some] at fetched
      exact step_ctxTurn hu ht hb fetched hi

end Sys2Proof.Claims
end

section
/-! SUPPORT. Reads of v registers: the row that a register names, and what a read of it gives. -/

namespace Sys2Proof.Machine

/-! ### The row of a v register (04 R76) -/

theorem Warp.loc_allot {x : Warp} {n t : Nat} (hn : n < 192) (ht : x.allot[n / 32]? = some t) : x.loc n = some (t, n % 32) := by
  rw [Warp.loc, if_pos hn, ht]

theorem Warp.loc_window0 {x : Warp} {n : Nat} (lo : 192 ≤ n) (hi : n < 224) (hv : x.w0.valid = true) :
    x.loc n = some (x.w0.tile.toNat, n - 192) := by
  rw [Warp.loc, if_neg (Nat.not_lt.2 lo), if_pos hi, if_pos hv]

theorem Warp.loc_window1 {x : Warp} {n : Nat} (lo : 224 ≤ n) (hv : x.w1.valid = true) :
    x.loc n = some (x.w1.tile.toNat, n - 224) := by
  rw [Warp.loc, if_neg (by omega), if_neg (Nat.not_lt.2 lo), if_pos hv]

/-- A register without a result in flight reads the row that it names. -/
theorem readV_landed {s : State} {v : View} {n t r : Nat} (hl : v.wp.loc n = some (t, r)) (hp : (s.core v.c).rowPending t r = false)
    (op j : Nat) : readV s v op n j = (s.core v.c).tileWord t r j := by
  simp only [readV, hl, hp, Bool.false_eq_true, if_false]

theorem readG_landed {s : State} {v : View} {n : Nat} (hp : (s.core v.c).gPending v.me n = false) (op : Nat) :
    readG s v op n = mget 0 v.wp.g n := by
  rw [readG, hp, if_neg Bool.false_ne_true]

theorem predMask_seven (s : State) (c w : Nat) (wp : Warp) : predMask s c w wp 7 = BitVec.allOnes 32 := rfl

end Sys2Proof.Machine

namespace Sys2Proof.Claims
open Sys2Proof.Machine

/-- Settles O10: a register of the allotment, of either window, a g register, and p7. -/
theorem registerReads : Obligations.RegisterReads :=
  ⟨fun _ _ op _ j hn _ ht hp => readV_landed (Warp.loc_allot hn ht) hp op j,
    fun _ _ op _ j lo hi hv hp => readV_landed (Warp.loc_window0 lo hi hv) hp op j,
    fun _ _ op _ j lo hv hp => readV_landed (Warp.loc_window1 lo hv) hp op j,
    fun _ _ op _ hp => readG_landed hp op, predMask_seven⟩

end Sys2Proof.Claims
end

section
/-! SUPPORT. Fixed-latency operations whose results are predicates, g registers or trap registers. -/

namespace Sys2Proof.Machine

/-! ### Results that join those in flight -/

/-- The results of an agent's instruction have joined those in flight, and nothing else has changed but the model's own counter. -/
structure Joins (a : Issuer) (due : Nat) (ws : List Write) (s t : State) : Prop where
  pend : (t.core (coreOf a)).pend = (s.core (coreOf a)).pend ++ flying a due s.nextId ws
  core : { t.core (coreOf a) with pend := (s.core (coreOf a)).pend } = s.core (coreOf a)
  others : ∀ k, k ≠ coreOf a → t.core k = s.core k
  rest : { t with cores := s.cores, nextId := s.nextId } = s

theorem Joins.none (a : Issuer) (due : Nat) (s : State) : Joins a due [] s s := ⟨by simp [flying], rfl, fun _ _ => rfl, rfl⟩

theorem Joins.laterAll {a : Issuer} {ws : List Write} {s : State} (hc : NoClash a ws s) (due : Nat) : Joins a due ws s (s.laterAll a due ws) := by
  obtain ⟨pend, core, others, rest⟩ := State.laterAll_noClash ws (due := due) hc
  exact ⟨pend, core, others, rest⟩

/-- Results without a clash join those in flight, where there are any. -/
theorem Joins.ite {a : Issuer} {ws : List Write} {s : State} (due : Nat) {p : Prop} [Decidable p] (hc : ¬p → NoClash a ws s) :
    Joins a due (if p then [] else ws) s (if p then s else s.laterAll a due ws) := by
  split
  · exact .none a due s
  · next some_ => exact .laterAll (hc some_) due

/-- The .f64 datapath of a warp's quarter is taken for four cycles (13 R318). -/
def State.takesF64 (s : State) (c w : Nat) : State := s.modCore c fun k => { k with f64Free := mput k.f64Free (w / 16) (s.now + 4) }

/-- A state after an operation on floating numbers that has left it as `t`: an .f64 one has taken the datapath. -/
def State.afterFloat (t : State) (f64 : Bool) (c w : Nat) : State := if f64 then t.takesF64 c w else t

section
variable {a : Issuer} {c w due : Nat} {ws : List Write} {s t : State}

theorem Joins.now (j : Joins a due ws s t) : t.now = s.now := (congrArg State.now j.rest :)
theorem Joins.warps (j : Joins a due ws s t) : t.warps = s.warps := (congrArg State.warps j.rest :)

/-- The core of an issuer whose results fly, .f64 datapath aside. -/
theorem Joins.afterFloat (j : Joins (.warp c w) due ws s t) (f64 : Bool) :
    ((t.afterFloat f64 c w).core c).pend = (s.core c).pend ++ flying (.warp c w) due s.nextId ws ∧ SameCores c s (t.afterFloat f64 c w) ∧
    ((t.afterFloat f64 c w).core c).f64Free = (if f64 then mput (s.core c).f64Free (w / 16) (s.now + 4) else (s.core c).f64Free) ∧
    { t.afterFloat f64 c w with cores := s.cores, nextId := s.nextId } = s := by
  have core : { t.core c with pend := (s.core c).pend } = s.core c := j.core
  have free : (t.core c).f64Free = (s.core c).f64Free := (congrArg Core.f64Free core :)
  have same := congrArg (fun k : Core => { k with f64Free := (s.core c).f64Free }) core
  cases f64 with
  | false => exact ⟨j.pend, ⟨same, j.others⟩, free, j.rest⟩
  | true =>
    have own : (t.takesF64 c w).core c = { t.core c with f64Free := mput (t.core c).f64Free (w / 16) (t.now + 4) } :=
      State.core_modCore ..
    refine ⟨?_, ⟨?_, fun k hk => ?_⟩, ?_, j.rest⟩
    · rw [State.afterFloat, if_pos rfl, own]; exact j.pend
    · rw [State.afterFloat, if_pos rfl, own]; exact same
    · rw [State.afterFloat, if_pos rfl, State.takesF64, State.core_modCore_ne _ _ (Ne.symm hk)]; exact j.others k hk
    · rw [State.afterFloat, if_pos rfl, own, if_pos rfl, ← free, ← j.now]

end

/-- The end of an issue whose results have joined those in flight. -/
theorem Joins.flies {c w lat : Nat} {ws : List Write} {wp : Warp} {s t : State} (h : Hdr) (long f64 : Bool)
    (j : Joins (.warp c w) (s.now + lat) ws (begun c w wp s) t) :
    Flies h long c w wp lat ws s (finishIssue c w h long .next (t.afterFloat f64 c w)) ∧
    ((finishIssue c w h long .next (t.afterFloat f64 c w)).core c).f64Free =
      if f64 then mput (s.core c).f64Free (w / 16) (s.now + 4) else (s.core c).f64Free := by
  obtain ⟨pend, cores, free, rest⟩ := j.afterFloat f64
  generalize t.afterFloat f64 c w = u at *
  obtain ⟨warps, ends⟩ := finishIssue_next (h := h) (long := long) (t := u) (wp := wp) (s := s) (c := c) (w := w)
    (congrArg State.warps rest :) (congrArg State.now rest :)
  generalize finishIssue c w h long .next u = x at *
  have core : ∀ k, x.core k = u.core k := fun k => (congrArg (fun y : State => y.core k) ends :)
  refine ⟨⟨?_, ⟨?_, fun k hk => ?_⟩, warps, ?_⟩, ?_⟩
  · rw [core]; exact pend
  · rw [core]; exact cores.core
  · rw [core]; exact cores.others k hk
  · have left := congrArg (fun y : State => { y with cores := s.cores, nextId := s.nextId }) ends
    exact left.trans (congrArg (fun y : State => { y with warps := s.warps, agenda := s.agenda, freeCtr := s.freeCtr }) rest :)
  · rw [core]; exact free

/-! ### Comparisons and truth tables (04 R79) -/

/-- The result of an operation in a predicate of the active lanes. -/
def predWrites (v : View) (p : Nat) (val : Nat → Bool) : List Write := [.pred p (v.lanes.map fun j => (j, val j))]

theorem predOp_pass {srcs : List Nat} {p lat : Nat} {f : State → View → Nat → Bool} {v : View} {s : State}
    (h : v.real = 0 ∨ v.early = true ∨ checkVs s v.wp srcs = none) : predOp srcs p lat f v s =
      .ok (if v.act = 0 ∨ p = 7 then s else s.laterAll v.me (s.now + lat) (predWrites v p (f s v))) .next := by
  rw [predOp, guardV_pass h]
  by_cases idle : v.act = 0 ∨ p = 7
  · rw [if_pos idle, if_pos (by simpa using idle)]
  · rw [if_neg idle, if_neg (by simpa using idle)]
    rfl

/-- An operation on a type that leaves a state has the .f64 datapath where the type is .f64. -/
theorem useF64_ok {body : View → State → Res} {v : View} {s t : State} {a : Adv} (n : Nat) (h : body v s = .ok t a) :
    useF64 n body v s = .ok (t.afterFloat (n == 13) v.c v.w) a := by
  rw [useF64, h]
  rfl

/-! ### Results in g registers (04 R78) -/

/-- A meaning goes on with results that join those in flight. -/
def Sends (a : Issuer) (due : Nat) (ws : List Write) (s : State) (r : Res) : Prop := ∃ t, r = .ok t .next ∧ Joins a due ws s t

theorem oneLane_eq (v : View) : Claims.oneLane v = v.lane0.toList := List.take_one

/-- An operation of the lowest active real lane sends what that lane gives. -/
theorem gOp_sends {srcs : List Nat} {d k lat : Nat} {f : State → View → Nat → List W32} {v : View} {s : State} {g : Nat → List Write}
    (h : v.real = 0 ∨ v.early = true ∨ checkVs s v.wp srcs = none) (hg : ∀ j, (List.range k).map (fun i => Write.g (d + i) (nth 0 (f s v j) i)) = g j)
    (hn : NoClash v.me ((Claims.oneLane v).flatMap g) s) :
    Sends v.me (s.now + lat) ((Claims.oneLane v).flatMap g) s (gOp srcs d k lat f v s) := by
  rw [gOp, guardV_pass h]
  rw [oneLane_eq] at hn ⊢
  cases hl : v.lane0 with
  | none => exact ⟨s, rfl, .none ..⟩
  | some j =>
    simp only [hl, Option.toList_some, List.flatMap_singleton] at hn ⊢
    rw [hg j]
    exact ⟨_, rfl, .laterAll hn _⟩

/-- An operation that acts once for its active lanes sends its words. -/
theorem gOnce_sends {d lat : Nat} {f : State → View → List W32} {v : View} {s : State} {ws : List Write}
    (hw : (List.range (f s v).length).map (fun i => Write.g (d + i) (nth 0 (f s v) i)) = ws)
    (hn : NoClash v.me (if v.act = 0 then [] else ws) s) :
    Sends v.me (s.now + lat) (if v.act = 0 then [] else ws) s (gOnce d lat f v s) := by
  refine ⟨if v.act = 0 then s else s.laterAll v.me (s.now + lat) ws, ?_, .ite _ fun acts => by rwa [if_neg acts] at hn⟩
  rw [gOnce]
  by_cases idle : v.act = 0
  · rw [if_pos (by simpa using idle), if_pos idle]
  · rw [if_neg (by simpa using idle), if_neg idle, ← hw]

/-- MOVI's four forms (17 R408). -/
theorem moviVal_eq (f : Wide) (old : W32) : moviVal f old =
    if f.sh = 0 then f.imm.setWidth 32 else if f.sh = 1 then f.imm.signExtend 32 else if f.sh = 2 then f.imm ++ 0#16
    else f.imm ++ old.extractLsb' 0 16 := by
  obtain ⟨d, imm, sh⟩ := f
  fin_cases sh <;> rfl

/-- The words of a value of one register or a pair, in g registers. -/
theorem gWords_eq (wide : Bool) (d : Nat) (x : W64) : (List.range (kOf wide)).map (fun i => Write.g (d + i) (nth 0 (words wide x) i)) =
    if wide then [.g d (lo32 x), .g (d + 1) (hi32 x)] else [.g d (lo32 x)] := by
  cases wide <;> rfl

/-- The lanes whose values WRSR writes (18 R453). -/
def wrsrLanes (f : SysF) (v : View) : List Nat := if f.imm = 0x21 then v.lanes else Claims.oneLane v

theorem wrsrLanes_map (f : SysF) (v : View) (val : Nat → W64) : (if f.imm.toNat == 0x21 then v.lanes.map fun j => (j, val j)
    else v.lane0.toList.map fun j => (j, val j)) = (wrsrLanes f v).map fun j => (j, val j) := by
  have named : (f.imm.toNat == 0x21) = true ↔ f.imm = 0x21 := by
    rw [beq_iff_eq]
    exact ⟨fun h => BitVec.eq_of_toNat_eq h, congrArg BitVec.toNat⟩
  rw [wrsrLanes, ← oneLane_eq]
  by_cases h : f.imm = 0x21
  · rw [if_pos (named.2 h), if_pos h]
  · rw [if_neg (mt named.1 h), if_neg h]

theorem wrsrBody_sends {f : SysF} {v : View} {s : State}
    (h : v.real = 0 ∨ v.early = true ∨ checkVs s v.wp (runRegsX f.xa f.a.toNat (srRegs f.imm.toNat)) = none) {ws : List Write}
    (hw : ws = if wrsrLanes f v = [] then [] else
      [.sr f.imm.toNat ((wrsrLanes f v).map fun j => (j, readT s v 0 f.xa f.a (srWide f.imm.toNat) j))])
    (hn : NoClash v.me ws s) : Sends v.me (s.now + 4) ws s (wrsrBody f v s) := by
  subst hw
  rw [wrsrBody, guardV_pass h]
  dsimp only
  rw [wrsrLanes_map]
  by_cases idle : wrsrLanes f v = []
  · rw [if_pos idle, idle]
    exact ⟨s, rfl, .none ..⟩
  · rw [if_neg idle] at hn ⊢
    rw [if_neg (by simpa using idle)]
    exact ⟨_, rfl, .laterAll hn _⟩

end Sys2Proof.Machine

namespace Sys2Proof.Claims
open Sys2Proof.Machine

section
variable {s : State} {i : Instr} {h : Hdr} {c w : Nat} {wp : Warp} {e : Entry} (hi : Issues i h c w wp e s)
include hi

/-- An issue whose meaning leaves a state and goes on. -/
theorem exec_goes_on {body : View → State → Res} {t : State} (hx : exec i s = runWarp h i body s)
    (hb : body (seen h c w wp e s) (begun c w wp s) = .ok t .next) : exec i s = .next (finishIssue c w h i.long .next t) := by
  rw [exec_of_body hi hx hb, helperOnly_ok]
  rfl

/-- ICMP, FCMP and PLOP: their result joins those in flight, and an .f64 comparison takes its datapath. -/
theorem exec_predRow {o : PredRow} (ho : predRow (begun c w wp s) (seen h c w wp e s) i = some o)
    (hc : (seen h c w wp e s).real = 0 ∨ checkVs (begun c w wp s) wp o.srcs = none) :
    exec i s = .next (finishIssue c w h false .next ((if (seen h c w wp e s).act = 0 ∨ o.p = 7 then begun c w wp s
      else (begun c w wp s).laterAll (.warp c w) (s.now + o.lat) (predWrites (seen h c w wp e s) o.p o.val)).afterFloat (isF64 i) c w)) := by
  unfold predRow at ho
  split at ho
  · next k f =>
    cases hi.hdr; cases ho
    exact exec_goes_on hi rfl (predOp_pass (hc.imp_right .inr))
  · next k f =>
    cases hi.hdr; cases ho
    exact exec_goes_on hi rfl (predOp_pass (hc.imp_right .inr))
  · next k f =>
    cases hi.hdr; cases ho
    exact exec_goes_on hi rfl (useF64_ok (modType f.m) (predOp_pass (hc.imp_right .inr)))
  · next k f =>
    cases hi.hdr; cases ho
    exact exec_goes_on hi rfl (useF64_ok (modType f.m) (predOp_pass (hc.imp_right .inr)))
  · next k f =>
    cases hi.hdr; cases ho
    exact exec_goes_on hi rfl (predOp_pass (.inr (.inr rfl)))
  · cases ho

end

/-- Settles O2: the predicate's result joins those in flight, unless no lane is active or p7 discards it. -/
theorem predicateOpsComplete : Obligations.PredicateOpsComplete := by
  intro s i h c w wp e o hi ho hc hn
  have joins := Joins.ite (s.now + o.lat) (p := (seen h c w wp e s).act = 0 ∨ o.p = 7) fun _ => hn.begun hi.warp
  exact ⟨_, exec_predRow hi ho hc, joins.flies h false (isF64 i)⟩

/-- MOV, MOVI, MOVL and RDSR to g registers, and WRSR: their results join those in flight. -/
theorem exec_scalarRow {s : State} {i : Instr} {h : Hdr} {c w : Nat} {wp : Warp} {e : Entry} {srcs : List Nat} {ws : List Write}
    (hi : Issues i h c w wp e s) (hr : scalarRow (begun c w wp s) (seen h c w wp e s) i = some (srcs, ws))
    (hc : (seen h c w wp e s).real = 0 ∨ checkVs (begun c w wp s) wp srcs = none) (hn : NoClash (.warp c w) ws (begun c w wp s)) :
    ∃ t, exec i s = .next (finishIssue c w h i.long .next t) ∧ Joins (.warp c w) (s.now + 4) ws (begun c w wp s) t := by
  have sent : ∀ {body : View → State → Res}, exec i s = runWarp h i body s →
      Sends (.warp c w) (s.now + 4) ws (begun c w wp s) (body (seen h c w wp e s) (begun c w wp s)) →
      ∃ t, exec i s = .next (finishIssue c w h i.long .next t) ∧ Joins (.warp c w) (s.now + 4) ws (begun c w wp s) t :=
    fun hx ⟨t, hb, joins⟩ => ⟨t, exec_goes_on hi hx hb, joins⟩
  have check := hc.imp_right (Or.inr (a := (seen h c w wp e s).early = true))
  unfold scalarRow at hr
  split at hr
  · next k f =>
    cases hi.hdr; cases hr
    exact sent rfl (gOp_sends check (fun j => by rw [gWords_eq]; cases wT f.m <;> rfl) hn)
  · next k f =>
    cases hi.hdr; cases hr
    exact sent rfl (gOnce_sends (by rw [moviVal_eq]; rfl) hn)
  · next k f =>
    cases hi.hdr; cases hr
    exact sent rfl (gOnce_sends rfl hn)
  · next k f =>
    cases hi.hdr; cases hr
    exact sent rfl (gOp_sends check (fun j => gWords_eq ..) hn)
  · next k f =>
    cases hi.hdr; cases hr
    exact sent rfl (wrsrBody_sends check rfl hn)
  · cases hr

/-- Settles O3: the results of the lanes that the rules name join those in flight. -/
theorem scalarOpsComplete : Obligations.ScalarOpsComplete := by
  intro s i h c w wp e srcs ws hi hr hc hn
  obtain ⟨t, issue, joins⟩ := exec_scalarRow hi hr hc (hn.begun hi.warp)
  exact ⟨_, issue, joins.flies h i.long false⟩

end Sys2Proof.Claims
end

section
/-! SUPPORT. The trap that comes first, and the checks of v registers. -/

namespace Sys2Proof.Machine

/-! ### The first trap of a list (11 R250) -/

theorem firstTrap_isSome {l : List Trap} (h : l ≠ []) : ∃ t, firstTrap l = some t := by
  cases l with
  | nil => exact absurd rfl h
  | cons t l =>
    simp only [firstTrap]
    cases firstTrap l with
    | none => exact ⟨t, rfl⟩
    | some u => exact ⟨if u.rank < t.rank then u else t, (apply_ite some ..).symm⟩

/-- The first trap is one of the list, and none has a place before it. -/
theorem firstTrap_least {l : List Trap} {t : Trap} (h : firstTrap l = some t) : t ∈ l ∧ ∀ u ∈ l, t.rank ≤ u.rank := by
  induction l generalizing t with
  | nil => cases h
  | cons x l ih =>
    rw [firstTrap] at h
    cases hl : firstTrap l with
    | none =>
      have nil : l = [] := by
        by_contra some_
        obtain ⟨u, hu⟩ := firstTrap_isSome some_
        rw [hl] at hu
        cases hu
      subst nil
      cases h
      simp
    | some y =>
      obtain ⟨mem, least⟩ := ih hl
      rw [hl] at h
      dsimp only at h
      split at h
      · next before =>
        cases h
        exact ⟨List.mem_cons_of_mem _ mem, List.forall_mem_cons.2 ⟨Nat.le_of_lt before, least⟩⟩
      · next after =>
        cases h
        exact ⟨List.mem_cons_self, List.forall_mem_cons.2 ⟨Nat.le_refl _, fun u hu => (Nat.not_lt.1 after).trans (least u hu)⟩⟩

/-- The trap of a list that begins with one in the first place. -/
theorem firstTrap_head {t : Trap} {l : List Trap} (h : ∀ u ∈ l, t.rank ≤ u.rank) : firstTrap (t :: l) = some t := by
  rw [firstTrap]
  cases hl : firstTrap l with
  | none => rfl
  | some u => exact if_neg (Nat.not_lt.2 (h u (firstTrap_least hl).1))

/-! ### The checks of v registers (02 R47; 04 R85) -/

section
variable {s : State} {wp : Warp} {n : Nat}

/-- A register is one of the frontier. -/
def inFrontier (s : State) (wp : Warp) (n : Nat) : Prop :=
  (s.gridOf wp.gid).frontierRegs.1 ≤ n ∧ n < (s.gridOf wp.gid).frontierRegs.2

theorem checkV_frontier (h : inFrontier s wp n) : checkV s wp n = some trapOperand :=
  if_pos (by simpa [inFrontier] using h)

theorem checkV_unowned (h : ¬inFrontier s wp n) (hl : wp.loc n = none) :
    checkV s wp n = some ⟨rkNotOwned, 0x10, BitVec.ofNat 64 (0x10000 + n), 8⟩ :=
  (if_neg (by simpa [inFrontier] using h)).trans (if_pos (by rw [hl]; rfl))

theorem checkV_owned (h : ¬inFrontier s wp n) (hl : wp.loc n ≠ none) : checkV s wp n = none :=
  (if_neg (by simpa [inFrontier] using h)).trans (if_neg (by simpa using hl))

theorem mem_checks {ns : List Nat} {t : Trap} : t ∈ ns.filterMap (checkV s wp) ↔ ∃ n ∈ ns, checkV s wp n = some t := List.mem_filterMap

end

section
variable {s : State} {wp : Warp} {ns : List Nat}

theorem checkVs_some {n : Nat} {t : Trap} (hn : n ∈ ns) (h : checkV s wp n = some t) : ∃ u, checkVs s wp ns = some u :=
  firstTrap_isSome (List.ne_nil_of_mem (mem_checks.2 ⟨n, hn, h⟩))

/-- A frontier register comes before one that is not owned. -/
theorem checkVs_frontier (h : ∃ n ∈ ns, inFrontier s wp n) : ∃ t, checkVs s wp ns = some t ∧ t.code = 0x08 := by
  obtain ⟨n, hn, front⟩ := h
  obtain ⟨t, ht⟩ := checkVs_some hn (checkV_frontier front)
  obtain ⟨mem, least⟩ := firstTrap_least ht
  have place : t.rank ≤ rkOperand := least trapOperand (mem_checks.2 ⟨n, hn, checkV_frontier front⟩)
  obtain ⟨m, -, hm⟩ := mem_checks.1 mem
  by_cases fm : inFrontier s wp m
  · rw [checkV_frontier fm] at hm
    cases hm
    exact ⟨_, ht, rfl⟩
  · by_cases own : wp.loc m = none
    · rw [checkV_unowned fm own] at hm
      cases hm
      exact absurd place (show ¬rkNotOwned ≤ rkOperand by decide)
    · rw [checkV_owned fm own] at hm
      cases hm

theorem checkVs_unowned (hf : ∀ n ∈ ns, ¬inFrontier s wp n) (h : ∃ n ∈ ns, wp.loc n = none) :
    ∃ t n, checkVs s wp ns = some t ∧ t.code = 0x10 ∧ n ∈ ns ∧ wp.loc n = none ∧ t.info = BitVec.ofNat 64 (0x10000 + n) := by
  obtain ⟨n, hn, out⟩ := h
  obtain ⟨t, ht⟩ := checkVs_some hn (checkV_unowned (hf n hn) out)
  obtain ⟨m, hm, cm⟩ := mem_checks.1 (firstTrap_least ht).1
  by_cases own : wp.loc m = none
  · rw [checkV_unowned (hf m hm) own] at cm
    cases cm
    exact ⟨_, m, ht, rfl, hm, own, rfl⟩
  · rw [checkV_owned (hf m hm) own] at cm
    cases cm

theorem checkVs_owned (h : ∀ n ∈ ns, ¬inFrontier s wp n ∧ wp.loc n ≠ none) : checkVs s wp ns = none := by
  have none_ : ns.filterMap (checkV s wp) = [] :=
    List.filterMap_eq_nil_iff.2 fun n hn => checkV_owned (h n hn).1 (h n hn).2
  rw [checkVs, none_]
  rfl

end

/-! ### What comes first among lanes (11 R248) -/

theorem lanesOf_ne_nil {m : W32} (h : m ≠ 0) : lanesOf m ≠ [] := by
  intro nil
  refine h (BitVec.eq_of_getLsbD_eq fun j hj => ?_)
  by_contra set_
  exact List.ne_nil_of_mem (mem_lanesOf.2 ⟨hj, by simpa using set_⟩) nil

/-- The lanes of a picked trap are those that raise it at its place. -/
theorem pickTrap_lanes {l : List (Nat × Trap)} (h : l ≠ []) : ∃ t infos, pickTrap l = some (t, infos) ∧ (∃ j, (j, t) ∈ l) ∧
    (∀ x ∈ l, t.rank ≤ x.2.rank) ∧ ∀ k, (∃ va, (k, va) ∈ infos) ↔ ∃ u, (k, u) ∈ l ∧ u.code = t.code ∧ u.rank = t.rank := by
  obtain ⟨t, ht⟩ := firstTrap_isSome (l := l.map (·.2)) (by simpa using h)
  obtain ⟨mem, least⟩ := firstTrap_least ht
  obtain ⟨⟨j, u⟩, hj, rfl⟩ := List.mem_map.1 mem
  refine ⟨u, _, by rw [pickTrap, ht], ⟨j, hj⟩, fun x hx => least _ (List.mem_map_of_mem hx), fun k => ?_⟩
  simp only [List.mem_map, List.mem_filter, Bool.and_eq_true, beq_iff_eq, Prod.exists, Prod.mk.injEq]
  constructor
  · rintro ⟨va, k', u', ⟨hk, hr, hc⟩, rfl, -⟩
    exact ⟨u', hk, hc, hr⟩
  · rintro ⟨u', hk, hc, hr⟩
    exact ⟨_, k, u', ⟨hk, hr, hc⟩, rfl, rfl⟩

/-- The traps of the real lanes. -/
def realTraps (real : W32) (xs : List (Nat × LX)) : List (Nat × Trap) :=
  (xs.filter fun x => real.getLsbD x.1).filterMap fun x => match x.2 with | .trap t _ _ => some (x.1, t) | _ => none

theorem mem_realTraps {real : W32} {xs : List (Nat × LX)} {j : Nat} {t : Trap} :
    (j, t) ∈ realTraps real xs ↔ real.getLsbD j = true ∧ ∃ l en, (j, .trap t l en) ∈ xs := by
  simp only [realTraps, List.mem_filterMap, List.mem_filter, Prod.exists]
  constructor
  · rintro ⟨k, x, ⟨mem, hr⟩, hx⟩
    split at hx
    · next t' l en =>
      cases hx
      exact ⟨hr, l, en, mem⟩
    · cases hx
  · rintro ⟨hr, l, en, mem⟩
    exact ⟨j, .trap t l en, ⟨mem, hr⟩, rfl⟩

theorem sortOut_picked {s0 : State} {real : W32} {access : Nat} {xs : List (Nat × LX)} {t : Trap} {infos : List (Nat × W64)}
    (h : pickTrap (realTraps real xs) = some (t, infos)) :
    ∃ level info, sortOut s0 real access xs = .error (.trap s0 t.code t.cause infos level info access) := by
  unfold sortOut
  dsimp only
  split
  · next u infos' picked =>
    cases picked.symm.trans h
    exact ⟨_, _, rfl⟩
  · next nothing =>
    cases nothing.symm.trans h

/-- Among lanes of which real ones trap, those that raise the first trap are taken. -/
theorem sortOut_trap {s0 : State} {real : W32} {xs : List (Nat × LX)} {j : Nat} {t : Trap} {l : Nat} {en : W64} (access : Nat)
    (mem : (j, .trap t l en) ∈ xs) (hr : real.getLsbD j = true)
    (first : ∀ k t' l' e', (k, .trap t' l' e') ∈ xs → real.getLsbD k = true → t.rank < t'.rank ∨ (t.rank = t'.rank ∧ t.code = t'.code)) :
    ∃ infos cause level info, sortOut s0 real access xs = .error (.trap s0 t.code cause infos level info access) ∧
      ∀ k, (∃ va, (k, va) ∈ infos) ↔ real.getLsbD k = true ∧ ∃ t' l' e', (k, .trap t' l' e') ∈ xs ∧ t'.code = t.code ∧ t'.rank = t.rank := by
  have here : (j, t) ∈ realTraps real xs := mem_realTraps.2 ⟨hr, l, en, mem⟩
  obtain ⟨u, infos, picked, ⟨i, hi⟩, least, lanes⟩ := pickTrap_lanes (List.ne_nil_of_mem here)
  obtain ⟨hri, li, ei, memi⟩ := mem_realTraps.1 hi
  have le : u.rank ≤ t.rank := least _ here
  have same : t.rank = u.rank ∧ t.code = u.code := (first i u li ei memi hri).resolve_left (Nat.not_lt.2 le)
  obtain ⟨level, info, sorted⟩ := sortOut_picked (s0 := s0) (access := access) picked
  refine ⟨infos, u.cause, level, info, by rw [same.2]; exact sorted, fun k => ?_⟩
  rw [lanes, same.1, same.2]
  constructor
  · rintro ⟨t', hk, hc, hrk⟩
    obtain ⟨hreal, l', e', memk⟩ := mem_realTraps.1 hk
    exact ⟨hreal, t', l', e', memk, hc, hrk⟩
  · rintro ⟨hreal, t', l', e', memk, hc, hrk⟩
    exact ⟨t', mem_realTraps.2 ⟨hreal, l', e', memk⟩, hc, hrk⟩

end Sys2Proof.Machine
end

section
/-! SUPPORT. Who issues an instruction: a warp, or a context as a bundle of its own. -/

namespace Sys2Proof.Machine

theorem runEither_warp {h : Hdr} {i : Instr} {body : View → State → Res} {s : State} {c w : Nat} (hc : s.cur = .warp c w) :
    runEither h i body s = runWarp h i body s := by rw [runEither, hc]

theorem runEither_ctx {h : Hdr} {i : Instr} {body : View → State → Res} {s : State} {c k : Nat} (hc : s.cur = .ctx c k) :
    runEither h i body s = runBundle 0 (soleWords i) s := by rw [runEither, hc]

/-- An instruction that no slot takes has one meaning. -/
theorem exec_unslotted {i : Instr} {h : Hdr} (hh : i.hdr? = some h) (hs : i.slots.isEmpty = true) :
    ∃ body, ∀ s, exec i s = runWarp h i body s := by
  cases i with
  | nop h' f => cases hh; exact ⟨fun _ s => .ok s .next, fun _ => rfl⟩
  | _ => cases hh <;> cases hs <;> exact ⟨_, fun _ => rfl⟩

/-- An operation that a slot takes is a warp's instruction or a context's bundle. -/
theorem exec_slotted {i : Instr} {h : Hdr} (hh : i.hdr? = some h) (hs : i.slots.isEmpty = false) :
    ∃ body, ∀ s, exec i s = runEither h i body s := by
  cases i <;> cases hh <;> cases hs <;> exact ⟨_, fun _ => rfl⟩

/-- A word of a warp issues as an instruction. -/
theorem exec_warp {i : Instr} {h : Hdr} {s : State} {c w : Nat} (hh : i.hdr? = some h) (hc : s.cur = .warp c w) :
    ∃ body, exec i s = runWarp h i body s := by
  cases hs : i.slots.isEmpty with
  | true =>
    obtain ⟨body, meaning⟩ := exec_unslotted hh hs
    exact ⟨body, meaning s⟩
  | false =>
    obtain ⟨body, meaning⟩ := exec_slotted hh hs
    exact ⟨body, (meaning s).trans (runEither_warp hc)⟩

theorem wfSlot_unslotted {i : Instr} (hs : i.slots.isEmpty = true) : i.wfSlot = false := by
  cases i <;> cases hs <;> rfl

theorem slots_of_wfSlot {i : Instr} (hw : i.wfSlot = true) : i.slots.isEmpty = false := by
  cases hs : i.slots.isEmpty with
  | true => rw [wfSlot_unslotted hs] at hw; cases hw
  | false => rfl

/-- A word that fails a check traps before anything else (13 R299, R460). -/
theorem runWarp_wordTrap {i : Instr} {h : Hdr} {s : State} {c w code : Nat} {wp : Warp} {e : Entry} (hc : s.cur = .warp c w)
    (hw : s.warp? c w = some wp) (he : wp.first = some e) (ht : wordTrap h i = some code) (body : View → State → Res) :
    runWarp h i body s = .next (takeTrap (begun c w wp s) c w code 8 ((lanesOf e.mask).map fun j => (j, 0))).useFree := by
  simp only [runWarp, hc, hw, he, ht]
  rfl

end Sys2Proof.Machine

namespace Sys2Proof.Claims
open Sys2Proof.Machine

section
variable {s : State} {i : Instr} {h : Hdr} {c w : Nat} {wp : Warp} {e : Entry} (hi : Issues i h c w wp e s)
include hi

/-- An instruction whose effect reaches beyond registers issues only with its guard predicate landed (02 R51). -/
theorem seen_early {u : Uses} (hu : instrUses i = some u) : (seen h c w wp e s).early = false := by
  have landed := hi.early
  rw [earlyUses, hu] at landed
  dsimp only at landed
  split at landed
  · cases landed
  · next settled =>
    simp only [earlyRead, Bool.or_eq_true, not_or, Bool.not_eq_true] at settled
    exact settled.1.1.1

/-- An issue with a real lane whose meaning is a trap takes it. -/
theorem exec_traps {body : View → State → Res} {code cause level info access : Nat} {infos : List (Nat × W64)}
    (hr : (seen h c w wp e s).real ≠ 0) (hx : exec i s = runWarp h i body s)
    (hb : body (seen h c w wp e s) (begun c w wp s) = .trap (begun c w wp s) code cause infos level info access) :
    exec i s = .next (takeTrap (begun c w wp s) c w code cause infos level info access).useFree := by
  rw [exec_of_body hi hx hb, helperOnly_real hr]
  rfl

end

end Sys2Proof.Claims
end

section
/-! SUPPORT. The lanes of memory instructions: what their checks find, and the trap that they come to. -/

namespace Sys2Proof.Machine
open Claims (ldRegs stRegs globalChecks scratchChecks atomicRegs)

/-- A check of v registers that fails where a real lane acts for certain. -/
theorem guardV_trap {regs : List Nat} {body : View → State → Res} {v : View} {s : State} {t : Trap} (hr : v.real ≠ 0)
    (he : v.early = false) (ht : checkVs s v.wp regs = some t) : guardV regs body v s = Res.of s t v.realLanes := by
  rw [guardV, if_neg (by simpa [he] using hr), ht]

/-! ### Memory instructions check their registers, then their lanes (11 R250) -/

/-- A meaning checks v registers; then it ends as what comes first among the checks of its lanes. -/
def Checks (regs : List Nat) (access : Nat) (xs : List (Nat × LX)) (v : View) (s : State) (body : View → State → Res) : Prop :=
  ∃ inner, body = guardV regs inner ∧ ∀ r, sortOut s v.real access xs = .error r → inner v s = r

section
variable (v : View) (s : State)

theorem ldBody_checks (t : BitVec 3) (f : Mem) :
    Checks (ldRegs t f) 0 (globalChecks .r (memBytes (ldSize t) f) f v (loadLanes v (xB f.x)) s).1 v s (ldBody t f) := by
  refine ⟨_, rfl, fun r hr => ?_⟩
  unfold globalChecks at hr
  dsimp only
  rw [hr]

theorem ldsBody_checks (cl : Bool) (t : BitVec 3) (f : Mem) :
    Checks (runRegsX (xA f.x) f.a.toNat 1 ++ runRegsX (xB f.x) f.d.toNat (memRegs (ldSize t) f)) 0
      (scratchChecks s v cl (memBytes (ldSize t) f) f (loadLanes v (xB f.x))) v s (ldsBody cl t f) := by
  refine ⟨_, rfl, fun r hr => ?_⟩
  unfold scratchChecks at hr
  dsimp only
  rw [hr]

section
variable {v : View} (hv : v.real ≠ 0)
include hv

theorem stBody_checks (nt : Bool) (t : BitVec 2) (f : Mem) :
    Checks (stRegs t f) 1 (globalChecks .w (memBytes (stSize t) f) f v v.realLanes s).1 v s (stBody nt t f) := by
  refine ⟨_, rfl, fun r hr => ?_⟩
  unfold globalChecks at hr
  dsimp only
  rw [if_neg (by simpa using hv), hr]

theorem stsBody_checks (cl : Bool) (t : BitVec 2) (f : Mem) :
    Checks (runRegsX (xA f.x) f.a.toNat 1 ++ runRegsX (xB f.x) f.d.toNat (memRegs (stSize t) f)) 1
      (scratchChecks s v cl (memBytes (stSize t) f) f v.realLanes) v s (stsBody cl t f) := by
  refine ⟨_, rfl, fun r hr => ?_⟩
  unfold scratchChecks at hr
  dsimp only
  rw [if_neg (by simpa using hv), hr]

omit hv in
/-- The registers that an atomic checks. -/
theorem atomicRegs_eq (addr code size : Nat) (f : Atomf) : atomicRegs addr code size f = runRegs f.a.toNat addr ++
    runRegs f.b.toNat (if code / 4 == 7 then 2 * size / 4 else size / 4) ++ (if f.nr then [] else runRegs f.d.toNat (size / 4)) := by
  simp only [atomicRegs, Claims.atomicB, beq_iff_eq]

/-- The checks of the lanes of an ATOM (15 R338). -/
theorem atomBody_checks (code size : Nat) (f : Atomf) :
    Checks (atomicRegs 2 code size f) 3 (laneFold (fun x j => (atomAperture code (readR64 x v 0 false f.a.toNat j)
      (laneGlobal x v.c (s.partOf v.gid) .rw size size (readR64 x v 0 false f.a.toNat j)).1,
      (laneGlobal x v.c (s.partOf v.gid) .rw size size (readR64 x v 0 false f.a.toNat j)).2)) v.realLanes s).1 v s
      (atomBody code size f) := by
  rw [atomicRegs_eq]
  refine ⟨_, rfl, fun r hr => ?_⟩
  dsimp only
  rw [if_neg (by simpa using hv), hr]

theorem atomsBody_checks (code size : Nat) (f : Atomf) :
    Checks (atomicRegs 1 code size f) 3
      (v.realLanes.map fun j => (j, laneScratch s v.gid false size size (readV s v 0 f.a.toNat j))) v s (atomsBody code size f) := by
  rw [atomicRegs_eq]
  refine ⟨_, rfl, fun r hr => ?_⟩
  dsimp only
  rw [if_neg (by simpa using hv), hr]

end

end

end Sys2Proof.Machine

namespace Sys2Proof.Claims
open Sys2Proof.Machine

/-- A memory instruction's meaning checks what its row names, and it reads no register too early. -/
theorem exec_memChecks {s : State} {v : View} {i : Instr} {h : Hdr} {regs : List Nat} {xs : List (Nat × LX)} (hh : i.hdr? = some h)
    (hm : memChecks s v i = some (regs, xs)) (hv : v.real ≠ 0) :
    ∃ body access u, (∀ x, exec i x = runWarp h i body x) ∧ Checks regs access xs v s body ∧ instrUses i = some u := by
  cases i with
  | ld k t f => cases hh; cases hm; exact ⟨_, _, _, fun _ => rfl, ldBody_checks v s t f, rfl⟩
  | st k t f => cases hh; cases hm; exact ⟨_, _, _, fun _ => rfl, stBody_checks s hv false t f, rfl⟩
  | stNt k t f => cases hh; cases hm; exact ⟨_, _, _, fun _ => rfl, stBody_checks s hv true t f, rfl⟩
  | lds k t f => cases hh; cases hm; exact ⟨_, _, _, fun _ => rfl, ldsBody_checks v s false t f, rfl⟩
  | ldsCl k t f => cases hh; cases hm; exact ⟨_, _, _, fun _ => rfl, ldsBody_checks v s true t f, rfl⟩
  | sts k t f => cases hh; cases hm; exact ⟨_, _, _, fun _ => rfl, stsBody_checks s hv false t f, rfl⟩
  | stsCl k t f => cases hh; cases hm; exact ⟨_, _, _, fun _ => rfl, stsBody_checks s hv true t f, rfl⟩
  | atom k t f => cases hh; cases hm; exact ⟨_, _, _, fun _ => rfl, atomBody_checks s hv t.toNat (atomSize t) f, rfl⟩
  | atomAddFloat k b f => cases hh; cases hm; exact ⟨_, _, _, fun _ => rfl, atomBody_checks s hv (if b then 33 else 32) 4 f, rfl⟩
  | atoms k t f => cases hh; cases hm; exact ⟨_, _, _, fun _ => rfl, atomsBody_checks s hv t.toNat (atomSize t) f, rfl⟩
  | atomsAddFloat k b f => cases hh; cases hm; exact ⟨_, _, _, fun _ => rfl, atomsBody_checks s hv (if b then 33 else 32) 4 f, rfl⟩
  | _ => cases hm

/-- A memory instruction with a real lane: its v registers' trap, else the first trap of its lanes. -/
theorem exec_memory_traps {s : State} {i : Instr} {h : Hdr} {c w : Nat} {wp : Warp} {e : Entry} {regs : List Nat}
    {xs : List (Nat × LX)} (hi : Issues i h c w wp e s) (hm : memChecks (begun c w wp s) (seen h c w wp e s) i = some (regs, xs))
    (hr : (seen h c w wp e s).real ≠ 0) :
    (∀ t, checkVs (begun c w wp s) wp regs = some t → exec i s =
      .next (takeTrap (begun c w wp s) c w t.code t.cause ((seen h c w wp e s).realLanes.map fun j => (j, t.info))).useFree) ∧
    ∃ access, ∀ code cause infos level info, checkVs (begun c w wp s) wp regs = none →
      sortOut (begun c w wp s) (seen h c w wp e s).real access xs =
        .error (.trap (begun c w wp s) code cause infos level info access) →
      exec i s = .next (takeTrap (begun c w wp s) c w code cause infos level info access).useFree := by
  obtain ⟨body, access, u, meaning, ⟨inner, rfl, ends⟩, uses⟩ := exec_memChecks hi.hdr hm hr
  have early := seen_early hi uses
  refine ⟨fun t ht => exec_traps hi hr (meaning s) ?_, access, fun code cause infos level info pass sorted =>
    exec_traps hi hr (meaning s) ?_⟩
  · exact guardV_trap hr early ht
  · have checked : checkVs (begun c w wp s) (seen h c w wp e s).wp regs = none := pass
    exact (guardV_pass (.inr (.inr checked))).trans (ends _ sorted)

end Sys2Proof.Claims
end

section
/-! SUPPORT. The checks of one lane: global addresses, scratchpad addresses, the addresses of phase gates. -/

namespace Sys2Proof.Machine

/-! ### Global addresses (10 R225, R229; 11 R250) -/

/-- A lane traps with a code, for its address. -/
def LX.Traps (x : LX) (code : Nat) (va : W64) : Prop := ∃ t l en, x = .trap t l en ∧ t.code = code ∧ t.info = va

section
variable {s : State} {c n len align : Nat} {need : Need} {va : W64}

theorem laneGlobal_beyond (h : 2 ^ 48 ≤ va.toNat) : (laneGlobal s c n need len align va).1.Traps 0x22 va :=
  ⟨_, _, _, congrArg Prod.fst (if_pos h), rfl, rfl⟩

section
variable (h : va.toNat < 2 ^ 48)
include h

theorem laneGlobal_misaligned (ha : va.toNat % align ≠ 0) : (laneGlobal s c n need len align va).1.Traps 0x20 va :=
  ⟨_, _, _, congrArg Prod.fst ((if_neg (Nat.not_le.2 h)).trans (if_pos (by simpa using ha))), rfl, rfl⟩

variable (ha : va.toNat % align = 0)
include ha

/-- A translation that ends in a fault of class 2 is the lane's trap, whether or not its range is sealed. -/
theorem laneGlobal_denied {f : XFault} {z : State} (hx : xlate s c n va.toNat need = (.bad f, z)) (hf : f.cls = 2) :
    (laneGlobal s c n need len align va).1.Traps f.code va := by
  have outcome : xlLane va (.bad f) = .trap ⟨if f.code == 0x22 then rkXPage else rkXPerm, f.code, va, f.cause⟩ f.level f.entry :=
    if_pos (by simpa using hf)
  rw [laneGlobal, if_neg (Nat.not_le.2 h), if_neg (by simpa using ha), hx]
  dsimp only
  rw [outcome]
  split
  · exact ⟨_, _, _, rfl, rfl, rfl⟩
  · exact ⟨_, _, _, rfl, rfl, rfl⟩

/-- A write to a sealed range that its translation admits is SEALED_STORE (07 R173). -/
theorem laneGlobal_sealed {pa : Nat} {leaf : W64} {e : TlbE} {z : State} (hw : need.writes = true)
    (hs : (s.part n).sealedAt va.toNat len = true) (hx : xlate s c n va.toNat need = (.ok pa leaf e, z)) :
    (laneGlobal s c n need len align va).1.Traps 0x24 va := by
  rw [laneGlobal, if_neg (Nat.not_le.2 h), if_neg (by simpa using ha), hx]
  dsimp only
  rw [if_pos (by rw [hw, hs]; rfl)]
  exact ⟨_, _, _, rfl, rfl, rfl⟩

end

/-! ### Translations that are refused -/

theorem xlGrant_denied {e : TlbE} (hp : permits e.leaf need = false) (a level : Nat) :
    xlGrant s a need e level = (.bad ⟨2, 0x23, 1, level, e.leaf⟩, s) := if_pos (by rw [hp]; rfl)

theorem xlate_hit_denied {a : Nat} {e : TlbE} (hf : s.tlbFind c n a = some e) (hp : permits e.leaf need = false) :
    xlate s c n a need = (.bad ⟨2, 0x23, 1, levelOf e.len, e.leaf⟩, s.fillTlb c e) := by
  simp only [xlate, hf, hp, Bool.and_false, Bool.false_and, Bool.false_eq_true, if_false]
  exact xlGrant_denied hp ..

theorem xlate_miss_bad {a : Nat} {f : XFault} (hf : s.tlbFind c n a = none) (hw : walk s n a = .bad f) :
    xlate s c n a need = (.bad f, s) := by
  simp only [xlate, hf, xlWalk, hw]

theorem xlate_miss_denied {a p k pa pte level : Nat} {leaf : W64} (hf : s.tlbFind c n a = none)
    (hw : walk s n a = .ok p k pa pte leaf level) (hp : permits leaf need = false) :
    xlate s c n a need = (.bad ⟨2, 0x23, 1, level, leaf⟩, s) := by
  simp only [xlate, hf, xlWalk, hw, hp, Bool.not_false, if_true]

end

/-! ### Scratchpad addresses (07 R152, R153) -/

section
variable {s : State} {gid len align : Nat} {cl : Bool} {a : W32}

/-- The group that a scratchpad address names, and the offset in its scratchpad. -/
def scratchGroup (s : State) (gid : Nat) (cl : Bool) (a : W32) : Option Nat := if cl then clusterTarget s gid a else some gid
def scratchOffset (cl : Bool) (a : W32) : Nat := if cl then a.toNat % 2 ^ 24 else a.toNat

theorem laneScratch_misaligned (h : scratchOffset cl a % align ≠ 0) : (laneScratch s gid cl len align a).Traps 0x20 (a.setWidth 64) :=
  ⟨_, _, _, if_pos (bne_iff_ne.2 h), rfl, rfl⟩

variable (h : scratchOffset cl a % align = 0)
include h

/-- An aligned address lies within its group's scratchpad, or traps. -/
theorem laneScratch_aligned : laneScratch s gid cl len align a =
    (scratchGroup s gid cl a).elim (.trap ⟨rkBounds, 0x21, a.setWidth 64, 8⟩ 0xFF 0) fun g =>
      if scratchOffset cl a + len ≤ (s.gridOf g).scratch then .ok (g * 2 ^ 32 + scratchOffset cl a) 0
      else .trap ⟨rkBounds, 0x21, a.setWidth 64, 8⟩ 0xFF 0 := by
  have aligned : ¬(scratchOffset cl a % align != 0) = true := by simpa using h
  refine (if_neg aligned).trans ?_
  rw [scratchGroup]
  cases (if cl then clusterTarget s gid a else some gid) <;> rfl

theorem laneScratch_nowhere (hg : scratchGroup s gid cl a = none) : (laneScratch s gid cl len align a).Traps 0x21 (a.setWidth 64) := by
  rw [laneScratch_aligned h, hg]
  exact ⟨_, _, _, rfl, rfl, rfl⟩

theorem laneScratch_beyond {g : Nat} (hg : scratchGroup s gid cl a = some g) (hb : (s.gridOf g).scratch < scratchOffset cl a + len) :
    (laneScratch s gid cl len align a).Traps 0x21 (a.setWidth 64) := by
  rw [laneScratch_aligned h, hg]
  exact ⟨_, _, _, if_neg (Nat.not_le.2 hb), rfl, rfl⟩

theorem laneScratch_within {g : Nat} (hg : scratchGroup s gid cl a = some g) (hb : scratchOffset cl a + len ≤ (s.gridOf g).scratch) :
    laneScratch s gid cl len align a = .ok (g * 2 ^ 32 + scratchOffset cl a) 0 := by
  rw [laneScratch_aligned h, hg]
  exact if_pos hb

omit h in
/-- A rank beyond the cluster names no group (07 R152). -/
theorem clusterTarget_beyond (hr : (s.grid (s.group gid).grid).clusterSize ≤ a.toNat / 2 ^ 24 % 16) : clusterTarget s gid a = none :=
  if_pos (by rw [Bool.or_eq_true]; exact .inr (decide_eq_true hr))

end

/-! ### Phase gates (17 R400) -/

theorem trapOnce_real {v : View} (hr : v.real ≠ 0) (s : State) (t : Trap) : trapOnce s v t = Res.of s t v.realLanes :=
  if_neg (by rw [List.isEmpty_iff]; exact lanesOf_ne_nil hr)

theorem onceWarp_real {v : View} (hr : v.real ≠ 0) (body : View → State → Res) (s : State) : onceWarp body v s = body v s :=
  if_neg (by simpa using hr)

/-- A check of registers and of the value of B that passes. -/
theorem guardB_pass {as bs : List Nat} {bad : View → State → Bool} {body : View → State → Res} {v : View} {s : State}
    (hc : checkVs s v.wp (as ++ bs) = none) (hb : bad v s = false) : guardB as bs bad body v s = body v s := by
  rw [guardB, hc]
  dsimp only
  rw [hb]
  exact ite_self _

theorem gateBad_false {f : Asy} {v : View} {s : State} {j : Nat} (hl : v.lane0 = some j)
    (h : 0 < (readR s v 1 (xB f.x) f.b.toNat j).toNat ∧ (readR s v 1 (xB f.x) f.b.toNat j).toNat < 2 ^ 20) : gateBad f v s = false := by
  rw [gateBad, gateVal, hl]
  obtain ⟨pos, small⟩ := h
  simp only [Option.getD_some, Bool.or_eq_false_iff, beq_eq_false_iff_ne, decide_eq_false_iff_not]
  exact ⟨Nat.ne_of_gt pos, Nat.not_le.2 small⟩

section
variable {f : Asy} {v : View} {s : State} {j l : Nat} {t : Trap} {en : W64} (hr : v.real ≠ 0)
include hr

section
variable (hl : v.lane0 = some j) (hc : checkVs s v.wp (runRegsX (xA f.x) f.a.toNat 1 ++ runRegsX (xB f.x) f.b.toNat 1) = none)
  (hb : 0 < (readR s v 1 (xB f.x) f.b.toNat j).toNat ∧ (readR s v 1 (xB f.x) f.b.toNat j).toNat < 2 ^ 20)
include hl hc hb

theorem mbinitBody_traps (hx : laneScratch s v.gid false 8 8 (readR s v 0 (xA f.x) f.a.toNat j) = .trap t l en) :
    mbinitBody f v s = Res.of s t v.realLanes := by
  rw [mbinitBody, onceWarp_real hr, guardB_pass hc (gateBad_false hl hb), hl, Option.getD_some, gateAddr, hx]
  exact trapOnce_real hr s t

theorem mbarvBody_traps (hx : laneScratch s v.gid (f.sub.getLsbD 2) 8 8 (readR s v 0 (xA f.x) f.a.toNat j) = .trap t l en) :
    mbarvBody f v s = Res.of s t v.realLanes := by
  rw [mbarvBody, onceWarp_real hr, guardB_pass hc (gateBad_false hl hb)]
  dsimp only
  rw [hl, Option.getD_some, gateAddr, hx]
  exact trapOnce_real hr s t

end

theorem mbwaitBody_traps (hl : v.lanes.head? = some j) (hc : checkVs s v.wp (runRegsX (xA f.x) f.a.toNat 1) = none)
    (hx : laneScratch s v.gid false 8 8 (readR s v 0 (xA f.x) f.a.toNat j) = .trap t l en) :
    mbwaitBody f v s = Res.of s t v.realLanes := by
  rw [mbwaitBody, guardV_pass (.inr (.inr hc)), hl]
  dsimp only
  rw [gateAddr, hx]
  exact trapOnce_real hr s t

end

end Sys2Proof.Machine
end

section
/-! SUPPORT. The words of slot operations: their reserved bits, and that they decode (13 R301, R308 to R312). -/

namespace Sys2Proof

section
variable (o : BitVec 10) (h : Hdr) (b : BitVec 34)

/-- The control field of a word. -/
theorem ctl_mkWord (k n : Nat) (hi : k + n ≤ 16) : (mkWord o h b).extractLsb' k n = h.ctl.extractLsb' k n := by
  rw [ext_mkWord, ext_lo _ _ hi]

theorem ctlBit_mkWord (k : Nat) (hi : k < 16) : (mkWord o h b).getLsbD k = h.ctl.getLsbD k := by
  rw [lsb_mkWord, lsb_append, if_pos hi]

end

/-! ### Reserved bits of an encoded word are zero -/

@[simp] theorem immBit_mkWord (o : BitVec 10) (h : Hdr) (f : Imm) : (mkWord o h f.bits)[17] = false := by
  rw [← BitVec.getLsbD_eq_getElem]
  simp (disch := omega) only [bodyBit_mkWord, Imm.lsb_bits, lsb_append, Nat.reduceSub, Nat.reduceLT, reduceIte, BitVec.getLsbD_zero]

@[simp] theorem tmemBit_mkWord (o : BitVec 10) (h : Hdr) (f : Tmem) : (mkWord o h f.bits)[17] = false := by
  rw [← BitVec.getLsbD_eq_getElem]
  simp (disch := omega) only [bodyBit_mkWord, Tmem.lsb_bits, lsb_append, Nat.reduceSub, Nat.reduceLT, reduceIte, BitVec.getLsbD_zero]

@[simp] theorem sysZero_mkWord (o : BitVec 10) (h : Hdr) (f : SysF) : sysZero (mkWord o h f.bits) = true := by
  simp (disch := omega) only [sysZero, body_mkWord, bodyBit_mkWord, SysF.ext_bits, SysF.lsb_bits, ext_hi, ext_lo, lsb_append,
    BitVec.extractLsb'_eq_self, Nat.reduceSub, Nat.reduceLT, reduceIte, BitVec.getLsbD_zero]
  decide

@[simp] theorem sctlZero_mkWord (o : BitVec 10) (h : Hdr) (f : Sctl) : (mkWord o h f.bits).extractLsb' 16 10 = 0 := by
  simp (disch := omega) only [body_mkWord, Sctl.ext_bits, ext_lo, BitVec.extractLsb'_eq_self, Nat.reduceSub]
  rfl

/-- What a slot may hold is one word, which decodes to it. -/
theorem decode_slotWord {i : Instr} {h : Hdr} (hh : i.hdr? = some h) (hs : i.slots.isEmpty = false) :
    ∃ o b, encode i = [mkWord o h b] ∧ decode (mkWord o h b) 0 = .ok i := by
  cases i <;> cases hh <;> cases hs <;> refine ⟨_, _, rfl, ?_⟩ <;>
    simp [decode, decodeInt, decodeMem, decodeAsync, decodeControl, decodeSeq, ifZero]

end Sys2Proof
end

section
/-! SUPPORT. A bundle of one operation (05 R92 to R96): its plans, its issue and its trap. -/

namespace Sys2Proof.Machine

/-! ### The plans of its slots -/

/-- The plans of a bundle whose only operation stands in slot `k`. -/
def solePlans (i : Instr) (w : W64) (k : Nat) : List SlotPlan := (List.range 5).map fun j => if j == k then .op i w else .off

theorem mem_solePlans {i : Instr} {w : W64} {k : Nat} {p : SlotPlan} (hp : p ∈ solePlans i w k) : p = .off ∨ p = .op i w := by
  obtain ⟨j, -, rfl⟩ := List.mem_map.1 hp
  split
  · exact .inr rfl
  · exact .inl rfl

theorem op_mem_solePlans (i : Instr) (w : W64) {k : Nat} (hk : k < 5) : .op i w ∈ solePlans i w k :=
  List.mem_map.2 ⟨k, List.mem_range.2 hk, by simp⟩

theorem slotIndex_lt (i : Instr) : slotIndex i < 5 := by
  unfold slotIndex
  split <;> decide

theorem slots_slotIndex {i : Instr} (hs : i.slots.isEmpty = false) : i.slots.contains (slotAt (slotIndex i)) = true := by
  cases i <;> cases hs <;> rfl

theorem hdDelta_zero (i : Nat) : hdDelta 0 i = false := BitVec.getLsbD_zero

theorem slotActs_zero (home : Option Level) (i : Nat) : slotActs 0 home i = true := by
  cases home <;> simp [slotActs, hdFirst, hdLast]

theorem planSlot_zero (x : Ctx) (j : Nat) : planSlot x 0 j 0 = .off := by
  simp [planSlot, hdDelta]

/-- A word that passes the checks of its slot is planned (05 R94, R95). -/
theorem planSlot_op {x : Ctx} {j : Nat} {w : W64} {i : Instr} (valid : w.getLsbD 14 = true) (zero : w.extractLsb' 8 6 = 0)
    (keep : w.getLsbD 15 = true → j = 0) (hd : decode w 0 = .ok i) (hs : i.slots.contains (slotAt j) = true)
    (hp : (hdrOf w).pn = 7) (hn : (hdrOf w).pneg = false) (hw : i.wfSlot = true) : planSlot x 0 j w = .op i w := by
  have kept : (w.getLsbD 15 && j != 0) = false := by
    cases hk : w.getLsbD 15 with
    | false => rfl
    | true => rw [keep hk]; rfl
  have bits : (w.extractLsb' 8 6 != 0) = false := by rw [zero]; rfl
  have number : ((hdrOf w).pn != 7) = false := by rw [hp]; rfl
  simp only [planSlot, hdDelta_zero, valid, kept, bits, hd, hs, number, hn, hw]
  rfl

theorem soleWords_nth (i : Instr) {j : Nat} (hj : j < 5) :
    nth 0 (soleWords i) j = if j == slotIndex i then (encode i).head?.getD 0 else 0 := by
  match j, hj with
  | 0, _ | 1, _ | 2, _ | 3, _ | 4, _ => rfl

/-- The bundle's plans, where the operation's slot plans it. -/
theorem planAll_sole {s : State} {x : Ctx} {i : Instr} {w : W64} (hw : (encode i).head?.getD 0 = w)
    (hp : planSlot x 0 (slotIndex i) w = .op i w) : planAll s x 0 (soleWords i) = solePlans i w (slotIndex i) := by
  refine List.map_congr_left fun j hj => ?_
  rw [slotActs_zero, if_pos rfl, soleWords_nth i (List.mem_range.1 hj)]
  split
  · next here => rw [beq_iff_eq.1 here, hw, hp]
  · exact planSlot_zero x j

/-! ### Its issue -/

theorem idle_zero (x : Ctx) : x.idle 0 = true := by simp [Ctx.idle]

/-- The operation stalls for no reason of its own, and neither does the context. -/
theorem bundleStalls_sole {s : State} {v : SV} {x : Ctx} {i : Instr} {w : W64} {k : Nat} (awake : x.wait = .none)
    (idle : x.idle (w.extractLsb' 0 8) = true) (free : slotStall s v i = false) : bundleStalls s v x (solePlans i w k) = false := by
  have masks : (solePlans i w k).any (fun p => !x.idle p.wait) = false := by
    refine List.any_eq_false.2 fun p hp => ?_
    obtain rfl | rfl := mem_solePlans hp
    · rw [SlotPlan.wait, idle_zero]; decide
    · simp [SlotPlan.wait, idle]
  have ops : ((solePlans i w k).filterMap SlotPlan.op?).any (slotStall s v) = false := by
    refine List.any_eq_false.2 fun o ho => ?_
    obtain ⟨p, hp, is⟩ := List.mem_filterMap.1 ho
    obtain rfl | rfl := mem_solePlans hp
    · cases is
    · cases is; simp [free]
  simp only [bundleStalls, awake, masks, ops, Bool.or_false]

/-- The bundle's trap is the operation's. -/
theorem plansTrap_sole {s : State} {v : SV} {i : Instr} {w : W64} {k : Nat} {t : Trap} (hk : k < 5)
    (ht : firstTrap (slotTraps s v i) = some t) : plansTrap s v (solePlans i w k) = some t.code := by
  cases found : plansTrap s v (solePlans i w k) with
  | none =>
    have absent := List.findSome?_eq_none_iff.1 found _ (op_mem_solePlans i w hk)
    simp [ht] at absent
  | some code =>
    obtain ⟨p, hp, is⟩ := List.exists_of_findSome?_eq_some found
    obtain rfl | rfl := mem_solePlans hp
    · cases is
    · simpa [ht] using is.symm

theorem bundleStep_traps {s : State} {c k code : Nat} {ws : List W64} {ps : List SlotPlan} (plans : planAll s (s.ctx c k) 0 ws = ps)
    (ready : bundleStalls s ⟨c, k, (s.ctx c k).gid, 2⟩ (s.ctx c k) ps = false)
    (trap : plansTrap s ⟨c, k, (s.ctx c k).gid, 2⟩ ps = some code) : bundleStep s c k 0 ws = takeCtxTrap s c k code none 0 := by
  have scope : bundleScope 0 = 2 := by decide
  have good : hdrBad 0 = false := by decide
  simp only [bundleStep, scope, good, plans, ready, trap, Bool.false_eq_true, if_false]

theorem runBundle_running {s : State} {c k : Nat} (hd : W64) (ws : List W64) (cur : s.cur = .ctx c k)
    (bound : (s.ctx c k).bound = true) (running : (s.ctx c k).state = .running) :
    runBundle hd ws s = .next (bundleStep s c k hd ws).useFree := by
  simp only [runBundle, cur, bound, running]
  rfl

/-! ### A context's trap (11 R258) -/

theorem takeCtxTrap_ctx (s : State) (c k code : Nat) (va : W64) :
    ((takeCtxTrap s c k code none va).ctx c k).state = .trapped ∧
    ((takeCtxTrap s c k code none va).ctx c k).trapcode = BitVec.ofNat 8 code ∧
    ((takeCtxTrap s c k code none va).ctx c k).pos = (s.ctx c k).pos := by
  simp only [takeCtxTrap, State.ctx_push, State.ctx_modCtx]
  exact ⟨trivial, trivial, rfl⟩

theorem takeCtxTrap_mem (s : State) (c k code : Nat) (va : W64) : (takeCtxTrap s c k code none va).mem = s.mem := rfl
theorem takeCtxTrap_warps (s : State) (c k code : Nat) (va : W64) : (takeCtxTrap s c k code none va).warps = s.warps := rfl

end Sys2Proof.Machine

namespace Sys2Proof.Claims
open Sys2Proof.Machine

/-- An operation that a context asks for comes to a trap of its checks (05 R96). -/
theorem SlotAsks.traps {s : State} {i : Instr} {h : Hdr} {c k : Nat} (ask : SlotAsks i h c k s) {t : Trap}
    (ht : firstTrap (slotTraps s ⟨c, k, (s.ctx c k).gid, 2⟩ i) = some t) :
    exec i s = .next (takeCtxTrap s c k t.code none 0).useFree := by
  obtain ⟨-, wf, pn, pneg⟩ := ask.word
  obtain ⟨valid, zero, keep⟩ := ask.ctl
  have slotted := slots_of_wfSlot wf
  obtain ⟨body, meaning⟩ := exec_slotted ask.hdr slotted
  obtain ⟨o, b, word, decodes⟩ := decode_slotWord ask.hdr slotted
  have planned : planSlot (s.ctx c k) 0 (slotIndex i) (mkWord o h b) = .op i (mkWord o h b) :=
    planSlot_op (by rwa [ctlBit_mkWord _ _ _ _ (by decide)]) (by rwa [ctl_mkWord _ _ _ _ _ (by decide)])
      (by rwa [ctlBit_mkWord _ _ _ _ (by decide)]) decodes (slots_slotIndex slotted) (by rwa [hdrOf_mkWord])
      (by rwa [hdrOf_mkWord]) wf
  have plans := planAll_sole (s := s) (by rw [word]; rfl) planned
  have idle : (s.ctx c k).idle ((mkWord o h b).extractLsb' 0 8) = true := by
    rw [ctl_mkWord _ _ _ _ _ (by decide)]
    exact ask.idle
  rw [meaning, runEither_ctx ask.cur, runBundle_running _ _ ask.cur ask.bound ask.running,
    bundleStep_traps plans (bundleStalls_sole ask.awake idle ask.free) (plansTrap_sole (slotIndex_lt i) ht)]

end Sys2Proof.Claims
end

section
/-! SUPPORT. The order of the checks of the L slot's operations on tiles (18 R446). -/

namespace Sys2Proof.Machine

section
variable {s : State} {v : SV} {f : Tmem}

theorem accNum_iff (t : Nat) : accNum t = true ↔ 256 ≤ t ∧ t < 768 := by
  simp [accNum, Nat.lt_succ_iff]

/-- The checks of a landed tile field come to one trap at most. -/
theorem fieldChecks_operand {op : Nat} {x : Bool} {t : BitVec 10} (early : tileEarly s v x t = false)
    (out : ¬(256 ≤ slotTile s v op x t ∧ slotTile s v op x t < 768)) : fieldChecks s v op x t = [trapOperand] := by
  rw [← accNum_iff, Bool.not_eq_true] at out
  simp [fieldChecks, early, tileChecks, out]

theorem fieldChecks_unowned {op : Nat} {x : Bool} {t : BitVec 10} (early : tileEarly s v x t = false)
    (acc : 256 ≤ slotTile s v op x t ∧ slotTile s v op x t < 768) (owned : (s.core v.c).owns v.me (slotTile s v op x t) = false) :
    fieldChecks s v op x t = [⟨rkNotOwned, 0x10, BitVec.ofNat 64 (slotTile s v op x t), 8⟩] := by
  rw [← accNum_iff] at acc
  simp [fieldChecks, early, tileChecks, acc, owned]

theorem fieldChecks_owned {op : Nat} {x : Bool} {t : BitVec 10} (early : tileEarly s v x t = false)
    (acc : 256 ≤ slotTile s v op x t ∧ slotTile s v op x t < 768) (owned : (s.core v.c).owns v.me (slotTile s v op x t) = true) :
    fieldChecks s v op x t = [] := by
  rw [← accNum_iff] at acc
  simp [fieldChecks, early, tileChecks, acc, owned]

/-- The checks of a scratchpad range rank after those of a tile field. -/
theorem rank_scrChecks {o len align : Nat} {t : Trap} (ht : t ∈ scrChecks s v o len align) : rkAlign ≤ t.rank := by
  rw [scrChecks, List.mem_append] at ht
  rcases ht with ht | ht
  · split at ht
    · rw [List.mem_singleton.1 ht]
    · cases ht
  · rw [scrRange] at ht
    split at ht
    · rw [List.mem_singleton.1 ht]; exact (by decide : rkAlign ≤ rkBounds)
    · cases ht

theorem firstTrap_scrChecks_misaligned {o len align : Nat} (h : o % align ≠ 0) :
    (firstTrap (scrChecks s v o len align)).map (·.code) = some 0x20 := by
  have mis : (o % align != 0) = true := bne_iff_ne.2 h
  rw [scrChecks, if_pos mis, List.singleton_append, firstTrap_head]
  · rfl
  · intro t ht
    exact rank_scrChecks (s := s) (v := v) (len := len) (align := align) (List.mem_append_right _ ht)

theorem scrChecks_beyond {o len align : Nat} (h : o % align = 0) (beyond : (s.gridOf v.gid).scratch < o + len) :
    scrChecks s v o len align = [⟨rkBounds, 0x21, BitVec.ofNat 64 o, 8⟩] := by
  simp [scrChecks, h, scrRange, beyond]

/-! ### TLD and TST -/

/-- A trap of the tile field comes before those of the range. -/
theorem firstTrap_scrMem_field {t : Trap} (field : fieldChecks s v 9 f.xt f.tt = [t]) (early : t.rank ≤ rkAlign) :
    firstTrap (scrMemTraps s v f) = some t := by
  rw [scrMemTraps, field, List.singleton_append]
  refine firstTrap_head fun u hu => early.trans ?_
  split at hu
  · cases hu
  · exact rank_scrChecks hu

theorem scrMemTraps_owned (field : fieldChecks s v 9 f.xt f.tt = []) (ha : aEarly s v f.ao.toNat = false) :
    scrMemTraps s v f = scrChecks s v (tmemOfs s v f % 2 ^ 32) (128 * tmemRows f) 128 := by
  rw [scrMemTraps, field, ha]
  rfl

/-! ### TGLD and TGST -/

theorem firstTrap_take_one (l : List Trap) : firstTrap (l.take 1) = l.head? := by
  cases l <;> rfl

/-- The head of the checks is their trap. -/
theorem firstTrap_glbMem_field {t : Trap} {write : Bool} (field : fieldChecks s v 9 f.xt f.tt = [t]) :
    firstTrap (glbMemTraps s v write f) = some t := by
  rw [glbMemTraps, field]
  exact firstTrap_take_one _

section
variable {write : Bool} (field : fieldChecks s v 9 f.xt f.tt = []) (ha : aEarly s v f.ao.toNat = false)
  (hh : hEarly s v f.h.toNat = false)
include field ha hh

theorem firstTrap_glbMem_misaligned (mis : (handleVa (readH s v f.h.toNat) + tmemOfs s v f) % 128 ≠ 0) :
    (firstTrap (glbMemTraps s v write f)).map (·.code) = some 0x20 := by
  have offset : (tmemOfs s v f % 128 != 0) = true := by
    rw [bne_iff_ne]; unfold handleVa at mis; omega
  simp only [glbMemTraps, field, ha, hh, copyAlign, offset]
  rfl

/-- An aligned access comes to the checks of the handle, then of seals. -/
theorem firstTrap_glbMem_aligned (mis : (handleVa (readH s v f.h.toNat) + tmemOfs s v f) % 128 = 0) :
    firstTrap (glbMemTraps s v write f) =
      ((handleTrap (readH s v f.h.toNat) f.h.toNat [(tmemOfs s v f, 128 * tmemRows f)] write).toList ++
        (if write && (s.part (s.partOf v.gid)).sealedAt (handleVa (readH s v f.h.toNat) + tmemOfs s v f) (128 * tmemRows f) then
          [(⟨rkSealed, 0x24, BitVec.ofNat 64 (handleVa (readH s v f.h.toNat) + tmemOfs s v f), 8⟩ : Trap)] else [])).head? := by
  have offset : (tmemOfs s v f % 128 != 0) = false := by
    rw [bne_eq_false_iff_eq]; unfold handleVa at mis; omega
  simp only [glbMemTraps, field, ha, hh, copyAlign, offset, firstTrap_take_one]
  rfl

end

end

end Sys2Proof.Machine
end

section
/-! SUPPORT. What traps at issue (O25), clause by clause. -/

namespace Sys2Proof.Claims
open Sys2Proof.Machine

/-- A lane's global address: beyond 2^48, misaligned, refused by its translation, sealed. -/
theorem laneGlobal_traps (s : State) (c n len align : Nat) (need : Need) (va : W64) :
    (2 ^ 48 ≤ va.toNat → (laneGlobal s c n need len align va).1.Traps 0x22 va) ∧
    (va.toNat < 2 ^ 48 → va.toNat % align ≠ 0 → (laneGlobal s c n need len align va).1.Traps 0x20 va) ∧
    (va.toNat < 2 ^ 48 → va.toNat % align = 0 →
      (∀ e, s.tlbFind c n va.toNat = some e → permits e.leaf need = false → (laneGlobal s c n need len align va).1.Traps 0x23 va) ∧
      (s.tlbFind c n va.toNat = none →
        (∀ f, walk s n va.toNat = .bad f → f.cls = 2 → (laneGlobal s c n need len align va).1.Traps f.code va) ∧
        (∀ p k pa pte leaf level, walk s n va.toNat = .ok p k pa pte leaf level → permits leaf need = false →
          (laneGlobal s c n need len align va).1.Traps 0x23 va)) ∧
      (need.writes = true → (s.part n).sealedAt va.toNat len = true →
        ∀ pa leaf e z, xlate s c n va.toNat need = (.ok pa leaf e, z) → (laneGlobal s c n need len align va).1.Traps 0x24 va)) := by
  refine ⟨laneGlobal_beyond, laneGlobal_misaligned, fun h ha => ⟨?hit, fun hf => ⟨?bad, ?miss⟩, ?sealed⟩⟩
  case hit => exact fun e hf hp => laneGlobal_denied h ha (xlate_hit_denied hf hp) rfl
  case bad => exact fun f hw hc => laneGlobal_denied h ha (xlate_miss_bad hf hw) hc
  case miss => exact fun p k pa pte leaf level hw hp => laneGlobal_denied h ha (xlate_miss_denied hf hw hp) rfl
  case sealed => exact fun hw hs pa leaf e z hx => laneGlobal_sealed h ha hw hs hx

/-- A lane's scratchpad address: misaligned, beyond the scratchpad, within it. -/
theorem laneScratch_traps (s : State) (gid len align : Nat) (cl : Bool) (a : W32) :
    (scratchOffset cl a % align ≠ 0 → (laneScratch s gid cl len align a).Traps 0x20 (a.setWidth 64)) ∧
    (scratchOffset cl a % align = 0 → (scratchGroup s gid cl a = none ∨
      ∃ g, scratchGroup s gid cl a = some g ∧ (s.gridOf g).scratch < scratchOffset cl a + len) →
      (laneScratch s gid cl len align a).Traps 0x21 (a.setWidth 64)) ∧
    (scratchOffset cl a % align = 0 → ∀ g, scratchGroup s gid cl a = some g → scratchOffset cl a + len ≤ (s.gridOf g).scratch →
      laneScratch s gid cl len align a = .ok (g * 2 ^ 32 + scratchOffset cl a) 0) ∧
    ∀ k, (s.grid (s.group gid).grid).clusterSize ≤ a.toNat / 2 ^ 24 % 16 → clusterTarget s gid a ≠ some k := by
  refine ⟨laneScratch_misaligned, fun h out => ?_, fun h g hg hb => laneScratch_within h hg hb, fun k hr => ?_⟩
  · rcases out with nowhere | ⟨g, hg, beyond⟩
    · exact laneScratch_nowhere h nowhere
    · exact laneScratch_beyond h hg beyond
  · rw [clusterTarget_beyond hr]
    exact (Option.some_ne_none k).symm

/-- A phase gate whose registers and value pass takes the trap of its address (17 R400). -/
theorem exec_gate_traps {s : State} {i : Instr} {h : Hdr} {c w : Nat} {wp : Warp} {e : Entry} {x : Bool} {a : BitVec 8} {cl : Bool}
    {j : Nat} {t : Trap} {l : Nat} {en : W64} (hi : Issues i h c w wp e s) (hg : gateOperand i = some (x, a, cl))
    (hr : (seen h c w wp e s).real ≠ 0)
    (hj : (if (gateValue i).isSome then (seen h c w wp e s).realLanes.head? else (seen h c w wp e s).lanes.head?) = some j)
    (hc : checkVs (begun c w wp s) wp
      (runRegsX x a.toNat 1 ++ (match gateValue i with | some (y, b) => runRegsX y b.toNat 1 | none => [])) = none)
    (hb : ∀ y b, gateValue i = some (y, b) → 0 < (readR (begun c w wp s) (seen h c w wp e s) 1 y b.toNat j).toNat ∧
      (readR (begun c w wp s) (seen h c w wp e s) 1 y b.toNat j).toNat < 2 ^ 20)
    (hx : laneScratch (begun c w wp s) wp.gid cl 8 8 (readR (begun c w wp s) (seen h c w wp e s) 0 x a.toNat j) = .trap t l en) :
    exec i s = .next (takeTrap (begun c w wp s) c w t.code t.cause
      ((seen h c w wp e s).realLanes.map fun k => (k, t.info))).useFree := by
  have hh := hi.hdr
  cases i with
  | mbinit k f =>
    cases hh; cases hg
    exact exec_traps hi hr rfl (mbinitBody_traps hr hj hc (hb _ _ rfl) hx)
  | mbarv k f =>
    cases hh; cases hg
    exact exec_traps hi hr rfl (mbarvBody_traps hr hj hc (hb _ _ rfl) hx)
  | mbwait k f =>
    cases hh; cases hg
    have checked := (congrArg (checkVs (begun c w wp s) wp) (List.append_nil (runRegsX (xA f.x) f.a.toNat 1)).symm).trans hc
    exact exec_traps hi hr rfl (mbwaitBody_traps hr hj checked hx)
  | _ => cases hg

/-- A context whose operation traps is TRAPPED where it stands. -/
theorem SlotAsks.trapped {s : State} {i : Instr} {h : Hdr} {c k : Nat} (ask : SlotAsks i h c k s) {t : Trap}
    (ht : firstTrap (slotTraps s ⟨c, k, (s.ctx c k).gid, 2⟩ i) = some t) : Answers (exec i s) fun r =>
      (r.ctx c k).state = .trapped ∧ (r.ctx c k).trapcode = BitVec.ofNat 8 t.code ∧ (r.ctx c k).pos = (s.ctx c k).pos ∧
      r.mem = s.mem ∧ r.warps = s.warps := by
  obtain ⟨state, code, pos⟩ := takeCtxTrap_ctx s c k t.code 0
  exact ⟨_, ask.traps ht, state, code, pos, takeCtxTrap_mem s c k t.code 0, takeCtxTrap_warps s c k t.code 0⟩

/-! ### The operations of the L slot on tiles -/

section
variable {s : State} {v : SV} {f : Tmem} {h : Hdr}

/-- A trap of the tile field is the operation's. -/
theorem firstTrap_slot_field {i : Instr} {t : Trap} (hi : i = .tld h f ∨ i = .tst h f ∨ i = .tgld h f ∨ i = .tgst h f)
    (field : fieldChecks s v 9 f.xt f.tt = [t]) (early : t.rank ≤ rkAlign) : firstTrap (slotTraps s v i) = some t := by
  rcases hi with rfl | rfl | rfl | rfl
  · exact firstTrap_scrMem_field field early
  · exact firstTrap_scrMem_field field early
  · exact firstTrap_glbMem_field field
  · exact firstTrap_glbMem_field field

theorem slotTraps_scr {i : Instr} (hi : i = .tld h f ∨ i = .tst h f) : slotTraps s v i = scrMemTraps s v f := by
  rcases hi with rfl | rfl <;> rfl

theorem slotTraps_glb {i : Instr} (hi : i = .tgld h f ∨ i = .tgst h f) :
    slotTraps s v i = glbMemTraps s v (i == .tgst h f) f := by
  rcases hi with rfl | rfl
  · have load : (Instr.tgld h f == .tgst h f) = false := beq_eq_false_iff_ne.2 Instr.noConfusion
    rw [load]; rfl
  · rw [beq_self_eq_true]; rfl

/-- The tile field first, whatever the operation. -/
theorem firstCode_field (early : tileEarly s v f.xt f.tt = false) {i : Instr}
    (hi : i = .tld h f ∨ i = .tst h f ∨ i = .tgld h f ∨ i = .tgst h f) :
    (¬(256 ≤ slotTile s v 9 f.xt f.tt ∧ slotTile s v 9 f.xt f.tt < 768) →
      (firstTrap (slotTraps s v i)).map (·.code) = some 0x08) ∧
    (256 ≤ slotTile s v 9 f.xt f.tt → slotTile s v 9 f.xt f.tt < 768 →
      (s.core v.c).owns v.me (slotTile s v 9 f.xt f.tt) = false → (firstTrap (slotTraps s v i)).map (·.code) = some 0x10) := by
  refine ⟨fun out => ?_, fun low high unowned => ?_⟩
  · rw [firstTrap_slot_field hi (fieldChecks_operand early out) (show rkOperand ≤ rkAlign by decide)]
    rfl
  · rw [firstTrap_slot_field hi (fieldChecks_unowned early ⟨low, high⟩ unowned) (show rkNotOwned ≤ rkAlign by decide)]
    rfl

section
variable (field : fieldChecks s v 9 f.xt f.tt = []) (ha : aEarly s v f.ao.toNat = false)
include field ha

/-- TLD and TST over a tile of their own: alignment, then bounds. -/
theorem firstCode_scr {i : Instr} (hi : i = .tld h f ∨ i = .tst h f) :
    (tmemOfs s v f % 2 ^ 32 % 128 ≠ 0 → (firstTrap (slotTraps s v i)).map (·.code) = some 0x20) ∧
    (tmemOfs s v f % 2 ^ 32 % 128 = 0 → (s.gridOf v.gid).scratch < tmemOfs s v f % 2 ^ 32 + 128 * tmemRows f →
      (firstTrap (slotTraps s v i)).map (·.code) = some 0x21) := by
  rw [slotTraps_scr hi, scrMemTraps_owned field ha]
  refine ⟨firstTrap_scrChecks_misaligned, fun aligned beyond => ?_⟩
  rw [scrChecks_beyond aligned beyond]
  rfl

variable (hh : hEarly s v f.h.toNat = false)
include hh

/-- TGLD and TGST over a tile of their own: alignment, then the handle. -/
theorem firstCode_glb {i : Instr} (hi : i = .tgld h f ∨ i = .tgst h f) :
    ((handleVa (readH s v f.h.toNat) + tmemOfs s v f) % 128 ≠ 0 →
      (firstTrap (slotTraps s v i)).map (·.code) = some 0x20) ∧
    ((handleVa (readH s v f.h.toNat) + tmemOfs s v f) % 128 = 0 →
      ∀ t, handleTrap (readH s v f.h.toNat) f.h.toNat [(tmemOfs s v f, 128 * tmemRows f)] (i == .tgst h f) = some t →
        (firstTrap (slotTraps s v i)).map (·.code) = some t.code) := by
  rw [slotTraps_glb hi]
  refine ⟨firstTrap_glbMem_misaligned field ha hh, fun aligned t ht => ?_⟩
  rw [firstTrap_glbMem_aligned field ha hh aligned, ht]
  rfl

/-- TGST through a handle that admits it, to a sealed range (07 R173). -/
theorem firstCode_sealed (aligned : (handleVa (readH s v f.h.toNat) + tmemOfs s v f) % 128 = 0)
    (ok : handleTrap (readH s v f.h.toNat) f.h.toNat [(tmemOfs s v f, 128 * tmemRows f)] true = none)
    (sealed : (s.part (s.partOf v.gid)).sealedAt (handleVa (readH s v f.h.toNat) + tmemOfs s v f) (128 * tmemRows f) = true) :
    (firstTrap (slotTraps s v (.tgst h f))).map (·.code) = some 0x24 := by
  rw [slotTraps, firstTrap_glbMem_aligned field ha hh aligned, ok, sealed]
  rfl

end

end

/-- Settles O25: each clause is the lemma about its kind of check. -/
theorem issueTraps : Obligations.IssueTraps := by
  refine ⟨?word, ?registers, ?memory, fun s c n len align need va _ => laneGlobal_traps s c n len align need va,
    laneScratch_traps, ?gates, fun _ _ _ _ _ ask _ ht => ask.trapped ht, ?tiles⟩
  case word =>
    intro s i h c w wp e code hh hc hw he ht
    obtain ⟨body, meaning⟩ := exec_warp hh hc
    exact meaning.trans (runWarp_wordTrap hc hw he ht body)
  case registers => exact fun s wp ns => ⟨checkVs_frontier, checkVs_unowned, checkVs_owned⟩
  case memory =>
    intro s i h c w wp e regs xs hi v u hm hr
    obtain ⟨registers, access, lanes⟩ := exec_memory_traps hi hm hr
    refine ⟨registers, fun j t l en pass mem real first => ?_⟩
    obtain ⟨infos, cause, level, info, sorted, trapping⟩ := sortOut_trap (s0 := u) access mem real first
    exact ⟨infos, cause, level, info, access, lanes _ _ _ _ _ pass sorted, trapping⟩
  case gates =>
    intro s i h c w wp e x a cl j t l en hi hg v u hr hj hc hb hx
    exact exec_gate_traps hi hg hr hj hc hb hx
  case tiles =>
    intro s c k f h v tile o len hn first early ha hh
    refine ⟨fun i hi => firstCode_field early hi, fun low high owned => ?_⟩
    have field : fieldChecks s v 9 f.xt f.tt = [] := fieldChecks_owned early ⟨low, high⟩ owned
    exact ⟨fun i hi => firstCode_scr field ha hi, fun i hi => firstCode_glb field ha hh hi, firstCode_sealed field ha hh⟩

end Sys2Proof.Claims
end

section
/-! SUPPORT. The issue of a bundle: its header, its stalls, and what it leaves when no operation stands in slot C. -/

namespace Sys2Proof.Machine

/-! ### END processing without a result of slot C (05 R104) -/

/-- The strides of a level reach the C slot's result only where there is one. -/
theorem ARegs.add_cw {r : ARegs} (h : r.cw = none) (n : Nat) (d : Int) : (r.add n d).cw = none := by
  simp [ARegs.add, h]

theorem foldl_cw {α : Type} {f : ARegs → α → ARegs} (keeps : ∀ r x, r.cw = none → (f r x).cw = none) (l : List α) {r : ARegs}
    (h : r.cw = none) : (l.foldl f r).cw = none :=
  List.foldlRecOn (motive := fun r => r.cw = none) l f h fun r hr x _ => keeps r x hr

theorem applyStrides_cw (l : Level) (n : Int) {r : ARegs} (h : r.cw = none) : (applyStrides l n r).cw = none :=
  foldl_cw (fun r i hr => by split; exacts [ARegs.add_cw hr .., hr]) _ h

theorem endIteration_cw (ls : List (Nat × Level)) (e : Nat) {r : ARegs} (h : r.cw = none) : (endIteration ls e r).2.1.cw = none := by
  unfold endIteration
  dsimp only
  split
  · exact h
  · split <;> exact foldl_cw (fun _ _ hr => applyStrides_cw _ _ hr) _ (applyStrides_cw _ _ h)

/-! ### The count of bundles (02 R55) -/

theorem ckey_inj {c j k : Nat} : ckey c j = ckey c k ↔ j = k := by simp [ckey]

theorem countBundle_ctx (s : State) (c k : Nat) : (countBundle s c k).ctx c k = { s.ctx c k with
    quantum := if (s.core c).curCtx = k then (s.ctx c k).quantum + 1 else 1, waitCount := 0, atPoint := false } := by
  by_cases same : (s.core c).curCtx = k
  · simp [countBundle, same]
  · have kept : (s.modCtx c (s.core c).curCtx fun x => { x with quantum := 0 }).ctx c k = s.ctx c k :=
      mget_put_ne _ _ _ (mt ckey_inj.1 same)
    simp [countBundle, same, kept]

/-- The context that issued before loses its count. -/
theorem countBundle_others (s : State) (c k : Nat) {n : Nat} (hn : n ≠ ckey c k) : mget {} (countBundle s c k).ctxs n =
    if n = ckey c (s.core c).curCtx then { mget ({} : Ctx) s.ctxs n with quantum := 0 } else mget {} s.ctxs n := by
  by_cases same : (s.core c).curCtx = k
  · rw [same, if_neg hn]
    simp only [countBundle, same, beq_self_eq_true, if_true, State.modCtx_ctxs]
    exact mget_put_ne _ _ _ (Ne.symm hn)
  · have differ : ((s.core c).curCtx == k) = false := beq_false_of_ne same
    simp only [countBundle, differ, Bool.false_eq_true, if_false, State.modCtx_ctxs, State.modCore_ctxs]
    refine ((mget_put_ne _ _ _ (Ne.symm hn)).trans (mget_put_ne _ _ _ (Ne.symm hn))).trans ?_
    split
    · next old =>
      rw [old]
      exact mget_put_same ..
    · next old => exact mget_put_ne _ _ _ (Ne.symm old)

theorem countBundle_core (s : State) (c k : Nat) : (countBundle s c k).core c = { s.core c with curCtx := k } := by
  by_cases same : (s.core c).curCtx = k <;> simp [countBundle, same]

theorem countBundle_core_ne (s : State) (k : Nat) {c m : Nat} (hm : m ≠ c) : (countBundle s c k).core m = s.core m := by
  by_cases same : (s.core c).curCtx = k <;> simp [countBundle, same, State.core_modCore_ne _ _ (Ne.symm hm)]

theorem countBundle_rest (s : State) (c k : Nat) : { countBundle s c k with cores := s.cores, ctxs := s.ctxs } = s := by
  by_cases same : (s.core c).curCtx = k <;> simp [countBundle, same]

/-! ### What comes of a bundle at its issue (05 R93, R96; 02 R55; log 35) -/

theorem exec_bundle {s : State} {c k : Nat} (hd m vw l xw cw : W64) (cur : s.cur = .ctx c k) (bound : (s.ctx c k).bound = true)
    (running : (s.ctx c k).state = .running) :
    exec (.bundle hd m vw l xw cw) s = .next (bundleStep s c k hd [m, vw, l, xw, cw]).useFree :=
  runBundle_running hd _ cur bound running

section
variable {s : State} {c k : Nat} {hd : W64} {ws : List W64}

theorem bundleStep_bad (bad : hdrBad hd = true) : bundleStep s c k hd ws = takeCtxTrap s c k 0x04 none 0 := if_pos bad

variable (good : hdrBad hd = false)
include good

theorem bundleStep_stalls (stalls : bundleStalls s ⟨c, k, (s.ctx c k).gid, bundleScope hd⟩ (s.ctx c k) (planAll s (s.ctx c k) hd ws) = true) :
    bundleStep s c k hd ws = (s.modCtx c k fun x => { x with quantum := 0 }).unissue c := by
  simp only [bundleStep, good, stalls, Bool.false_eq_true, if_false, if_true]

theorem bundleStep_issues {v : SV} {ps : List SlotPlan} (hv : v = ⟨c, k, (s.ctx c k).gid, bundleScope hd⟩)
    (plans : planAll s (s.ctx c k) hd ws = ps) (awake : (s.ctx c k).wait = .none)
    (ready : bundleStalls s v (s.ctx c k) ps = false) (clear : plansTrap s v ps = none)
    (takes : takeStall s v (ps.filterMap SlotPlan.op?) = none) (writes : lostWrite s v (ps.filterMap SlotPlan.op?) = none)
    (tickets : bundleTickets s v (ps.filterMap SlotPlan.op?) = [])
    (clean : (ps.filterMap SlotPlan.op?).findSome? (slotPoison s v) = none) :
    bundleStep s c k hd ws = issueBundle s v hd ps [] := by
  subst hv
  simp only [bundleStep, good, plans, awake, ready, clear, takes, writes, tickets, clean, Bool.false_eq_true, if_false, List.getElem?_nil]

end

end Sys2Proof.Machine

namespace Sys2Proof.Claims
open Sys2Proof.Machine

/-- Where software has not written the table, an entry's position is the loaded one (05 R100, R101). -/
theorem entryPos_kept {s : State} {gid : Nat} (kept : tableKept s gid) (e : Nat) :
    entryPos s gid e = nth 0 (s.gridOf gid).entries e := by
  refine if_neg fun changed => ?_
  simp only [Bool.and_eq_true, decide_eq_true_eq, Option.any_eq_true, bne_iff_ne] at changed
  obtain ⟨inside, n, now, other⟩ := changed
  exact other (kept e inside n now)

/-- A bundle that has only changed and counted its context leaves all else as it was. -/
theorem slotFrame_countBundle (u : State) (c k : Nat) (f : Ctx → Ctx) : SlotFrame c k { f (u.ctx c k) with
    quantum := if (u.core c).curCtx = k then (f (u.ctx c k)).quantum + 1 else 1, waitCount := 0, atPoint := false } u
    (countBundle (u.modCtx c k f) c k).useFree where
  ctx := by simp [countBundle_ctx]
  others n hn := by
    have kept : mget {} (u.modCtx c k f).ctxs n = mget {} u.ctxs n := mget_put_ne _ _ _ (Ne.symm hn)
    exact (countBundle_others _ _ _ hn).trans (by rw [kept]; rfl)
  core := by simp [countBundle_core]
  cur := by simp [countBundle_core]
  cores m hm := by simp [countBundle_core_ne _ _ hm]
  rest := congrArg (fun t : State =>
    { t with cores := u.cores, ctxs := u.ctxs, grids := u.grids, agenda := u.agenda, nextId := u.nextId, freeCtr := u.freeCtr })
    (countBundle_rest (u.modCtx c k f) c k)

/-- The loop nest, the a registers and the entry of a back edge after a bundle without an operation in slot C (05 R104). -/
def endOf (s : State) (v : SV) (hd : W64) (u : State) : List (Nat × Level) × ARegs × Option Nat :=
  if hdEnd hd == 0 then (startLevels s (s.ctx v.c v.k), ARegs.mk (u.ctx v.c v.k).a none, none)
  else endIteration (startLevels s (s.ctx v.c v.k)) (hdEnd hd - 1) ⟨(u.ctx v.c v.k).a, none⟩

theorem endOf_cw (s : State) (v : SV) (hd : W64) (u : State) : (endOf s v hd u).2.1.cw = none := by
  unfold endOf
  split
  · rfl
  · exact endIteration_cw _ _ rfl

/-- The context whose data slots have led from `s` to `u`, at its next position (05 R97, R104). -/
def wentOn (s : State) (v : SV) (hd : W64) (ps : List SlotPlan) (u : State) (x : Ctx) : Ctx :=
  let r := endOf s v hd u
  { x with
    a := r.2.1.a
    hist := ((List.range 5).zip ps).foldl (fun t ip => match ip.2 with | .op _ w => mput t ip.1 w | _ => t) (s.ctx v.c v.k).hist
    wait := .none
    pos := BitVec.ofNat 32 (match r.2.2 with | some e => entryPos s v.gid e | none => nextPos s v.c v.k)
    nextIssue := max x.nextIssue (u.now + 1)
    edge := hdEnd hd == 1 && (mget {} (startLevels s (s.ctx v.c v.k)) 0).lstate == 1
    cur := r.1 }

/-- A bundle whose slot C is empty: its data slots, its END, its context's next position. -/
theorem issueBundle_off {s : State} {v : SV} {hd : W64} {ps : List SlotPlan} (off : ps[4]? = some .off) :
    issueBundle s v hd ps [] = countBundle ((dataSlots s v ps).modCtx v.c v.k (wentOn s v hd ps (dataSlots s v ps))) v.c v.k := by
  have ends : issueBundle s v hd ps [] =
      let t := (dataSlots s v ps).modCtx v.c v.k (wentOn s v hd ps (dataSlots s v ps))
      countBundle (match (endOf s v hd (dataSlots s v ps)).2.1.cw with
        | some (n, a) => t.later v.me (t.now + 1) (.a n a)
        | none => t) v.c v.k := by
    unfold issueBundle
    rw [off]
    rfl
  rw [ends, endOf_cw]

/-- Every bundle has five plans, so that of slot C is there. -/
theorem getElem?_of_nth_planAll {s : State} {x : Ctx} {hd : W64} {ws : List W64} (off : nth .off (planAll s x hd ws) 4 = .off) :
    (planAll s x hd ws)[4]? = some .off := congrArg some off

/-- Settles O40: a bad header traps, a stall changes the count alone, and a bundle with an empty slot C goes on after its data slots; its
END has no result of slot C to write, so nothing joins what the data slots put in flight. -/
theorem bundlesComplete : Obligations.BundlesComplete := by
  intro s hd m vw l xw cw c k cur bound running awake i x v ps u r
  have issue : exec i s = .next (bundleStep s c k hd [m, vw, l, xw, cw]).useFree := exec_bundle hd m vw l xw cw cur bound running
  refine ⟨fun bad => ?_, fun good stalls => ?_, fun good ready clear takes writes kept tickets clean off => ?_⟩
  · rw [bundleStep_bad bad] at issue
    obtain ⟨state, code, pos⟩ := takeCtxTrap_ctx s c k 4 0
    exact ⟨_, issue, state, code, pos, rfl, rfl⟩
  · rw [bundleStep_stalls good stalls] at issue
    exact ⟨_, issue, (State.ctx_modCtx s c k fun x => { x with quantum := 0 } :), rfl, rfl, rfl⟩
  · rw [bundleStep_issues good rfl rfl awake ready clear takes writes tickets clean, issueBundle_off (getElem?_of_nth_planAll off)] at issue
    change exec i s = .next (countBundle (u.modCtx c k (wentOn s v hd ps u)) c k).useFree at issue
    have core : (countBundle (u.modCtx c k (wentOn s v hd ps u)) c k).useFree.core c = { u.core c with curCtx := k } := by
      rw [State.core_useFree, countBundle_core, State.core_modCtx]
    have grids := congrArg State.grids (countBundle_rest (u.modCtx c k (wentOn s v hd ps u)) c k)
    have frame := slotFrame_countBundle u c k (wentOn s v hd ps u)
    have ends : endOf s v hd u = r := by simp only [endOf, beq_iff_eq]; rfl
    have entries : ∀ e, entryPos s v.gid e = nth 0 (s.gridOf x.gid).entries e := entryPos_kept kept
    simp only [wentOn, ends, entries] at frame
    exact ⟨_, issue, by rw [core], by rw [core], grids, frame⟩

end Sys2Proof.Claims
end

section
/-! SUPPORT. Contexts that a warp starts, stops and awaits, and warps that yield and wait for their tokens. -/

namespace Sys2Proof.Machine

theorem View.act_of_real {v : View} (h : v.real ≠ 0) : v.act ≠ 0 := mt View.real_of_act h

/-- An agent without outstanding operations has nothing to settle. -/
theorem NoneOut.settleIf {a : Issuer} {s : State} (h : NoneOut a s) (p : VarOp → Bool) : s.settleIf a p = s := by
  unfold State.settleIf
  dsimp only
  rw [List.filter_eq_nil_iff.2 fun x hx => by simp [h x hx], List.foldl_nil]

/-! ### What the meanings of the control instructions come to (05 R122, R123; 18 R432 to R434, R438, R452) -/

section
variable {f : SysF} {v : View} {s : State} {k : Nat}

section
variable (hr : v.real ≠ 0) (hk : (s.group v.gid).ctxs[f.ctx.toNat]? = some k)
include hr hk

theorem sqrunBody_starts (rest : (s.ctx v.c k).state = .stopped ∨ (s.ctx v.c k).state = .trapped)
    (entry : f.imm.toNat < (s.gridOf v.gid).nEntry) (settled : NoneOut v.me s) : sqrunBody f v s =
      .ok ((startCtx s v.c k f.imm.toNat).later v.me (s.now + 4) (.g f.d.toNat (BitVec.ofNat 32 (0x40 + k)))) .next := by
  have idle : ((s.ctx v.c k).state == .running || (s.ctx v.c k).state == .frozen) = false := by
    rcases rest with h | h <;> rw [h] <;> rfl
  rw [sqrunBody, onceWarp_real hr, ctxOf, hk]
  simp only [idle, Bool.false_eq_true, if_false, Nat.not_le.2 entry, State.settleAll, settled.settleIf]
  rfl

theorem sqstopBody_stops : sqstopBody f v s = .ok (stopCtx s v.c k) .next := by
  rw [sqstopBody, onceWarp_real hr, ctxOf, hk]

theorem sqwaitBody_returns (quiet : ctxQuiet s v.c k = true) : sqwaitBody f v s = .ok (s.modWarp v.c v.w fun x => { x with
    wait := .none
    g := mset 0 (mset 0 x.g f.d.toNat (lo32 (ctxStatus (s.ctx v.c k)))) (f.d.toNat + 1) (hi32 (ctxStatus (s.ctx v.c k))) }) .next := by
  rw [sqwaitBody, onceAny_acts (View.act_of_real hr), ctxOf, hk]
  exact if_pos quiet

theorem sqwaitBody_waits (busy : ctxQuiet s v.c k = false) : sqwaitBody f v s = .ok (blockOn v (.sqwait k f.d.toNat) s) .hold := by
  rw [sqwaitBody, onceAny_acts (View.act_of_real hr), ctxOf, hk]
  exact if_neg (by simp [busy])

end

theorem waitkBody_passes {m : BitVec 8} (zero : ∀ t, t < 8 → m.getLsbD t = true → v.wp.tok t = 0) : waitkBody m v s = .ok s .next := by
  have all : (List.range 8).all (fun i => !m.getLsbD i || v.wp.tok i == 0) = true := by
    rw [List.all_eq_true]
    intro t ht
    cases named : m.getLsbD t with
    | false => rfl
    | true => simpa using zero t (List.mem_range.1 ht) named
  exact if_pos (by simp [all])

variable (ha : v.act ≠ 0)
include ha

theorem waitkBody_waits {m : BitVec 8} (raised : ∃ t, t < 8 ∧ m.getLsbD t = true ∧ v.wp.tok t ≠ 0) :
    waitkBody m v s = .ok (blockOn v (.waitk m) s) .hold := by
  obtain ⟨t, ht, named, up⟩ := raised
  have notAll : (List.range 8).all (fun i => !m.getLsbD i || v.wp.tok i == 0) = false :=
    List.all_eq_false.2 ⟨t, List.mem_range.2 ht, by simp [named, up]⟩
  exact if_neg (by simpa [notAll] using ha)

theorem syieldBody_yields : syieldBody v s = .ok (s.modWarp v.c v.w fun x => { x with young := true }) .next := by
  rw [syieldBody, if_neg (by simpa using ha)]

end

/-! ### A context that is stopped (18 R434) -/

/-- What a stop makes of a context, by its state. -/
structure Stopped (x y : Ctx) : Prop where
  running : x.state = .running → y.state = .stopped ∧ y.pos = x.pos
  frozen : x.state = .frozen → y = { x with sqstop := true }
  trapped : x.state = .trapped → y.state = .stopped ∧ y.trapcode = 0
  stopped : x.state = .stopped → y = x

theorem stopCtx_ctx (s : State) (c k : Nat) : Stopped (s.ctx c k) ((stopCtx s c k).ctx c k) where
  running h := by
    simp only [stopCtx, h, State.ctx_push, State.ctx_modCtx]
    exact ⟨trivial, rfl⟩
  frozen h := by simp only [stopCtx, h, State.ctx_modCtx]
  trapped h := by simp [stopCtx, h]
  stopped h := by simp only [stopCtx, h]

/-- The stop of a context leaves the warps, the memory and the clock. -/
theorem stopCtx_frame (s : State) (c k : Nat) :
    (stopCtx s c k).warps = s.warps ∧ (stopCtx s c k).mem = s.mem ∧ (stopCtx s c k).now = s.now := by
  cases state : (s.ctx c k).state <;> simp only [stopCtx, state]
  case stopped => exact ⟨trivial, trivial, trivial⟩
  all_goals exact ⟨rfl, rfl, rfl⟩

/-! ### The start of a context (18 R433) -/

theorem startCtx_ctx (s : State) (c k e : Nat) : (startCtx s c k e).ctx c k = { s.ctx c k with
    pos := BitVec.ofNat 32 (entryPos s (s.ctx c k).gid e), hist := [], cur := idleTable (s.ctx c k).cur, latch := none, trapcode := 0
    quantum := 0, xretry := false, kept := none, wait := .none, sqstop := false, state := .running, nextIssue := s.now + 1
    edge := false } := State.ctx_modCtx ..

/-- A context that starts, with its answer to D in flight. -/
theorem startCtx_later {s : State} {c k w e d : Nat} {x : W32} (free : NoClash (.warp c w) [.g d x] s) :
    (startCtx s c k e).later (.warp c w) (s.now + 4) (.g d x) =
      ((startCtx s c k e).modCore c fun q => { q with pend := q.pend ++ [⟨.warp c w, s.now + 4, s.nextId, .g d x⟩] }).bump :=
  State.later_noClash (s := startCtx s c k e) (a := .warp c w) fun r hr => free _ List.mem_cons_self r hr

/-! ### The end of an issue that has changed its warp -/

theorem finishIssue_advance {h : Hdr} {c w : Nat} {long : Bool} {s : State} {x : Warp} (hw : s.warp? c w = some x) :
    finishIssue c w h long .next s = finishIssue c w h long .moved (s.setWarp c w (x.advance long)) := by
  simp only [finishIssue, State.modWarp_some hw, State.setWarp_modWarp, State.setWarp_now]

end Sys2Proof.Machine

namespace Sys2Proof.Claims
open Sys2Proof.Machine

section
variable {s : State} {i : Instr} {h : Hdr} {c w : Nat} {wp : Warp} {e : Entry} (hi : Issues i h c w wp e s)
include hi

/-- An issue that leaves the warps to its end and goes on. -/
theorem issues_goes_on {body : View → State → Res} {r : State} (hx : exec i s = runWarp h i body s)
    (hb : body (seen h c w wp e s) (begun c w wp s) = .ok r .next) (table : r.warps = (begun c w wp s).warps) (clock : r.now = s.now) :
    ∃ t, exec i s = .next t ∧ OneWarp c w (movedOn h i.long s.now wp) s t ∧ (∀ d k, t.ctx d k = r.ctx d k) ∧
      (∀ d, t.core d = r.core d) ∧ t.mem = r.mem := by
  obtain ⟨warps, ends⟩ := finishIssue_next (h := h) (long := i.long) table clock
  exact ⟨_, exec_goes_on hi hx hb, warps, fun d k => (congrArg (State.ctx · d k) ends :), fun d => (congrArg (State.core · d) ends :),
    (congrArg State.mem ends :)⟩

/-- An issue that changes its warp and goes on. -/
theorem issues_modWarp {body : View → State → Res} {f : Warp → Warp} (hx : exec i s = runWarp h i body s)
    (hb : body (seen h c w wp e s) (begun c w wp s) = .ok ((begun c w wp s).modWarp c w f) .next) :
    Answers (exec i s) (Redirects h c w ((f { wp with young := false }).advance i.long) s) := by
  have issue := exec_of_body hi hx hb
  rw [helperOnly_ok, begun_modWarp, endIssue, finishIssue_advance (State.warp?_setWarp ..), State.setWarp_setWarp] at issue
  exact ⟨_, issue, redirects_moved h c w i.long _ s⟩

/-- An issue that blocks its warp. -/
theorem issues_blockOn {body : View → State → Res} {wt : Wait} (hx : exec i s = runWarp h i body s)
    (hb : body (seen h c w wp e s) (begun c w wp s) = .ok (blockOn (seen h c w wp e s) wt (begun c w wp s)) .hold) :
    Answers (exec i s) (Holds h c w wt (begun c w wp s)) := by
  have blocks : blockOn (seen h c w wp e s) wt (begun c w wp s) =
      (begun c w wp s).setWarp c w { (begun c w wp s).warp c w with wait := wt, since := s.now } := by
    have warp : (begun c w wp s).warp? c w = some { wp with young := false } := State.warp?_setWarp ..
    rw [State.warp_of_warp? warp]
    exact State.modWarp_some warp _
  have issue := exec_of_body hi hx hb
  rw [helperOnly_ok, blocks] at issue
  obtain ⟨warps, rest⟩ := redirects_moved h c w i.long { (begun c w wp s).warp c w with wait := wt, since := s.now } (begun c w wp s)
  exact ⟨_, issue, warps, rest⟩

end

section
variable {s : State} {h : Hdr} {f : SysF} {c w k : Nat} {wp : Warp} {e : Entry} (hr : (seen h c w wp e s).real ≠ 0)
  (hk : (s.group wp.gid).ctxs[f.ctx.toNat]? = some k)
include hr hk

theorem sqrun_starts (hi : Issues (.sqrun h f) h c w wp e s) (settled : NoneOut (.warp c w) s)
    (rest : (s.ctx c k).state = .stopped ∨ (s.ctx c k).state = .trapped) (entry : f.imm.toNat < (s.gridOf wp.gid).nEntry)
    (free : NoClash (.warp c w) [.g f.d.toNat (BitVec.ofNat 32 (0x40 + k))] s) :
    Answers (exec (.sqrun h f) s) fun t => t.ctx c k = (startCtx (begun c w wp s) c k f.imm.toNat).ctx c k ∧
      (t.core c).pend = (s.core c).pend ++ [⟨.warp c w, s.now + 4, s.nextId, .g f.d.toNat (BitVec.ofNat 32 (0x40 + k))⟩] ∧
      OneWarp c w (movedOn h false s.now wp) s t ∧ t.mem = s.mem := by
  have body : sqrunBody f (seen h c w wp e s) (begun c w wp s) = .ok ((startCtx (begun c w wp s) c k f.imm.toNat).later (.warp c w)
      ((begun c w wp s).now + 4) (.g f.d.toNat (BitVec.ofNat 32 (0x40 + k)))) .next := sqrunBody_starts hr hk rest entry settled
  rw [startCtx_later (free.begun hi.warp)] at body
  obtain ⟨t, issue, warps, ctx, core, mem⟩ := issues_goes_on hi rfl body rfl rfl
  have joined := core c
  rw [State.core_bump, State.core_modCore] at joined
  exact ⟨t, issue, ctx c k, congrArg Core.pend joined, warps, mem⟩

theorem sqstop_stops (hi : Issues (.sqstop h f) h c w wp e s) : Answers (exec (.sqstop h f) s) fun t =>
    Stopped (s.ctx c k) (t.ctx c k) ∧ t.mem = s.mem := by
  obtain ⟨table, mem, clock⟩ := stopCtx_frame (begun c w wp s) c k
  obtain ⟨t, issue, -, ctx, -, same⟩ := issues_goes_on hi (runEither_warp hi.cur)
    (sqstopBody_stops (v := seen h c w wp e s) (s := begun c w wp s) hr hk) table clock
  exact ⟨t, issue, ctx c k ▸ stopCtx_ctx (begun c w wp s) c k, same.trans mem⟩

end

/-- Settles O34: each instruction is the answer of its meaning and the end of its issue; the table of the warp's own kernel plays no part, since
a context starts by the table of its own group. -/
theorem contextControlCompletes : Obligations.ContextControlCompletes := by
  refine ⟨?contexts, ?warps⟩
  case contexts =>
    intro s h f c w wp e k v u hr hk settled
    refine ⟨fun hi rest entry _ kept free => ?_, fun hi => ?_, fun hi quiet => ?_, fun hi busy => ?_⟩
    · obtain ⟨t, issue, ctx, pend, warps, mem⟩ := sqrun_starts hr hk hi settled rest entry free
      have position : entryPos u (u.ctx c k).gid f.imm.toNat = _ := entryPos_kept kept _
      refine ⟨t, issue, ctx.trans ?_, pend, warps, mem⟩
      rw [startCtx_ctx, position]
      rfl
    · obtain ⟨t, issue, ⟨running, frozen, trapped, stopped⟩, mem⟩ := sqstop_stops hr hk hi
      exact ⟨t, issue, running, frozen, trapped, stopped, mem⟩
    · exact issues_modWarp hi rfl (sqwaitBody_returns (v := seen h c w wp e s) (s := begun c w wp s) hr hk quiet)
    · exact issues_blockOn hi rfl (sqwaitBody_waits (v := seen h c w wp e s) (s := begun c w wp s) hr hk busy)
  case warps =>
    intro s h f c w wp e ha
    refine ⟨fun hi => ?_, fun hi zero => ?_, fun hi raised => ?_⟩
    · exact issues_modWarp hi (runEither_warp hi.cur) (syieldBody_yields ha)
    · exact issues_idle hi (runEither_warp hi.cur) (waitkBody_passes zero)
    · exact issues_blockOn hi (runEither_warp hi.cur) (waitkBody_waits ha raised)

end Sys2Proof.Claims
end

section
/-! SUPPORT. Integer results: the numbers of 06 R129 against the model's wrapping and clamping, and the bits of the bit operations. -/

namespace Sys2Proof.Claims
open Sys2Proof.Machine

/-! ### Numbers of an integer type -/

theorem typeBits_eq_intWidth {t : Nat} (h : t ≤ 9) : typeBits t = intWidth t := by
  interval_cases t <;> rfl

/-- A type is of one of four widths. -/
theorem intWidth_cases (t : Nat) : intWidth t = 8 ∨ intWidth t = 16 ∨ intWidth t = 32 ∨ intWidth t = 64 := by
  unfold intWidth
  split <;> simp

theorem bmod_eq_sextN (x : Nat) {w : Nat} (h : w ≠ 0) : Int.bmod x (2 ^ w) = sextN x w := by
  obtain ⟨k, rfl⟩ := Nat.exists_eq_succ_of_ne_zero h
  have half : (2 : Nat) ^ (k + 1) = 2 * 2 ^ k := by rw [pow_succ, mul_comm]
  have double : (2 : Int) ^ (k + 1) = 2 * 2 ^ k := by rw [pow_succ, mul_comm]
  simp only [Int.bmod_def, sextN, Nat.succ_eq_add_one, Nat.add_sub_cancel, half, double]
  push_cast
  have : (0 : Int) < 2 ^ k := by positivity
  have same : ((x % (2 * 2 ^ k) : Nat) : Int) = x % (2 * 2 ^ k) := by push_cast; rfl
  have cast : ((2 ^ k : Nat) : Int) = 2 ^ k := by push_cast; rfl
  split <;> split <;> omega

theorem intVal_eq_numOf {t : Nat} (h : t ≤ 9) (x : W64) : intVal t x = numOf t x := by
  have width : intWidth t ≠ 0 := by have := intWidth_cases t; omega
  simp [intVal, numOf, typeBits_eq_intWidth h, intSigned, bmod_eq_sextN _ width]

/-- What the pattern of a wrapped number holds: the number modulo the width, in the type's range. -/
theorem numOf_ofNat_wrapN {t : Nat} (h : t ≤ 9) (e : Int) :
    numOf t (BitVec.ofNat 64 (wrapN (intWidth t) e)) = if t ≤ 3 then Int.bmod e (2 ^ intWidth t) else e % 2 ^ intWidth t := by
  have pattern : ((wrapN (intWidth t) e % 2 ^ 64 : Nat) : Int) = e % 2 ^ intWidth t := by
    rcases intWidth_cases t with w | w | w | w <;> simp only [w, wrapN] <;> omega
  rw [numOf, typeBits_eq_intWidth h, BitVec.toNat_ofNat]
  split
  · rw [pattern]
    exact_mod_cast Int.emod_bmod e (2 ^ intWidth t)
  · rw [Int.natCast_mod, pattern]
    exact_mod_cast Int.emod_emod_of_dvd e dvd_rfl

/-- Each result of the integer lane operations is an exact one wrapped or clamped. -/
theorem holdsInt_intResult {t : Nat} (h : t ≤ 9) (sat : Bool) (e : Int) : HoldsInt t sat e (intResult t sat e) := by
  simp only [HoldsInt, intResult, numOf_ofNat_wrapN h, typeBits_eq_intWidth h, clampI, typeMin, typeMax, intSigned]
  cases sat
  · simp only [Bool.false_eq_true, if_false]
    split
    · rcases intWidth_cases t with w | w | w | w <;> simp only [w, Int.bmod_def] <;> omega
    · rw [Int.emod_sub_emod, sub_self, Int.zero_emod]
  · simp only [if_true, decide_eq_true_eq]
    split
    · rcases intWidth_cases t with w | w | w | w <;> simp only [w, Int.bmod_def] <;> omega
    · rcases intWidth_cases t with w | w | w | w <;> simp only [w] <;> omega

/-! ### Wrapped numbers as words -/

theorem ofNat_wrapN_64 (e : Int) : BitVec.ofNat 64 (wrapN 64 e) = BitVec.ofInt 64 e := by
  apply BitVec.eq_of_toNat_eq
  simp [wrapN]
  omega

theorem lo32_ofNat_wrapN (e : Int) : lo32 (BitVec.ofNat 64 (wrapN 32 e)) = BitVec.ofInt 32 e := by
  apply BitVec.eq_of_toNat_eq
  simp [lo32, wrapN]
  omega

theorem hi32_ofInt (e : Int) : hi32 (BitVec.ofInt 64 e) = BitVec.ofInt 32 (e / 2 ^ 32) := by
  apply BitVec.eq_of_toNat_eq
  simp [hi32, Nat.shiftRight_eq_div_pow]
  omega

theorem extractLsb'_ofInt_128 (e : Int) : (BitVec.ofInt 128 e).extractLsb' 64 64 = BitVec.ofInt 64 (e / 2 ^ 64) := by
  apply BitVec.eq_of_toNat_eq
  simp [Nat.shiftRight_eq_div_pow]
  omega

theorem setWidth_eq_ofInt {w v : Nat} (x : BitVec w) : x.setWidth v = BitVec.ofInt v x.toNat := by
  rw [BitVec.ofInt_natCast, BitVec.ofNat_toNat]

theorem intVal_s32 (x : W64) : intVal 2 x = (lo32 x).toInt := by
  rw [BitVec.toInt_eq_toNat_bmod, bmod_eq_sextN _ (by decide)]
  simp [intVal, intSigned, intWidth, lo32, sextN]

theorem intVal_s64 (x : W64) : intVal 3 x = x.toInt := by
  rw [BitVec.toInt_eq_toNat_bmod, bmod_eq_sextN _ (by decide)]
  rfl

/-- The unsigned and the bit types read the pattern itself. -/
theorem intVal_n32 {t : Nat} (h : t ∈ [6, 8]) (x : W64) : intVal t x = (lo32 x).toNat := by
  fin_cases h <;> simp [intVal, intSigned, intWidth, lo32]

theorem intVal_n64 {t : Nat} (h : t ∈ [7, 9]) (x : W64) : intVal t x = x.toNat := by
  have := x.isLt
  fin_cases h <;> simp [intVal, intSigned, intWidth] <;> omega

/-! ### The clauses of the integer values -/

theorem iaddVal_holds (m : BitVec 8) (a b : W64) (h : modType m ≤ 9) :
    HoldsInt (modType m) (modSF m) (if m.getLsbD 0 then numOf (modType m) a - numOf (modType m) b else
      numOf (modType m) a + numOf (modType m) b) (iaddVal m a b) := by
  simp only [iaddVal, intVal_eq_numOf h]
  exact holdsInt_intResult h _ _

theorem imulVal_low_holds {m : BitVec 8} (a b : W64) (h : modType m ≤ 9) (low : modVar m = 0) :
    HoldsInt (modType m) (modSF m) (numOf (modType m) a * numOf (modType m) b) (imulVal m a b) := by
  simp only [imulVal, low, intVal_eq_numOf h]
  exact holdsInt_intResult h _ _

theorem imadOut_holds {t : Nat} (h : t ≤ 9) (sat : Bool) (a b c : W64) :
    HoldsInt t sat (numOf t a * numOf t b + numOf t c) (imadOut t sat a b c) := by
  simp only [imadOut, intVal_eq_numOf h]
  exact holdsInt_intResult h _ _

theorem iabsVal_holds (m : BitVec 8) (a : W64) (h : modType m ≤ 9) :
    HoldsInt (modType m) (modSF m) |numOf (modType m) a| (iabsVal m a) := by
  simp only [iabsVal, intVal_eq_numOf h, Int.natCast_natAbs]
  exact holdsInt_intResult h _ _

theorem cmpInt_iff (cmp : Nat) (x y : Int) : cmpInt cmp x y = true ↔ match cmp with
    | 0 => x = y
    | 1 => x ≠ y
    | 2 => x < y
    | 3 => x ≤ y
    | 4 => y < x
    | _ => y ≤ x := by
  unfold cmpInt
  split <;> simp

theorem imulVal_high {m : BitVec 8} (high : modVar m = 1) (a b : W64) :
    imulVal m a b = BitVec.ofNat 64 (wrapN (intWidth (modType m))
      (intVal (modType m) a * intVal (modType m) b / 2 ^ intWidth (modType m))) := by
  simp only [imulVal, high]

theorem imulVal_wide {m : BitVec 8} (wide : modVar m = 2) (a b : W64) :
    imulVal m a b = BitVec.ofInt 64 (intVal (modType m) a * intVal (modType m) b) := by
  simp only [imulVal, wide, ofNat_wrapN_64]

theorem imulVal_high32 {m : BitVec 8} (high : modVar m = 1) (w : intWidth (modType m) = 32) (a b : W64) :
    lo32 (imulVal m a b) = hi32 (BitVec.ofInt 64 (intVal (modType m) a) * BitVec.ofInt 64 (intVal (modType m) b)) := by
  rw [imulVal_high high, w, lo32_ofNat_wrapN, ← BitVec.ofInt_mul, hi32_ofInt]

theorem imulVal_high64 {m : BitVec 8} (high : modVar m = 1) (w : intWidth (modType m) = 64) (a b : W64) :
    imulVal m a b =
      (BitVec.ofInt 128 (intVal (modType m) a) * BitVec.ofInt 128 (intVal (modType m) b)).extractLsb' 64 64 := by
  rw [imulVal_high high, w, ofNat_wrapN_64, ← BitVec.ofInt_mul, extractLsb'_ofInt_128]

theorem ishlVal_32 {t : Nat} (w : intWidth t = 32) (n : Nat) (a : W64) : lo32 (ishlVal t n a) = lo32 a <<< n := by
  apply BitVec.eq_of_toNat_eq
  simp [ishlVal, lo32, w, Nat.shiftLeft_eq]

theorem ishlVal_64 {t : Nat} (w : intWidth t = 64) (n : Nat) (a : W64) : ishlVal t n a = a <<< n := by
  apply BitVec.eq_of_toNat_eq
  simp [ishlVal, w, Nat.shiftLeft_eq]

theorem toInt_ediv {w : Nat} (x : BitVec w) (n : Nat) : BitVec.ofInt w (x.toInt / 2 ^ n) = x.sshiftRight n := by
  rw [← BitVec.ofInt_toInt (x := x.sshiftRight n), BitVec.toInt_sshiftRight, Int.shiftRight_eq_div_pow]
  push_cast
  rfl

theorem toNat_ediv {w : Nat} (x : BitVec w) (n : Nat) : BitVec.ofInt w ((x.toNat : Int) / 2 ^ n) = x >>> n := by
  apply BitVec.eq_of_toNat_eq
  rw [BitVec.toNat_ushiftRight, Nat.shiftRight_eq_div_pow, ← Nat.cast_ofNat, ← Nat.cast_pow, ← Int.natCast_ediv,
    BitVec.ofInt_natCast, BitVec.toNat_ofNat, Nat.mod_eq_of_lt]
  exact lt_of_le_of_lt (Nat.div_le_self _ _) x.isLt

theorem ishrVal_32 {t : Nat} (w : intWidth t = 32) (n : Nat) (a : W64) :
    lo32 (ishrVal t n a) = BitVec.ofInt 32 (intVal t a / 2 ^ n) := by
  rw [ishrVal, w, lo32_ofNat_wrapN]

theorem ishrVal_64 {t : Nat} (w : intWidth t = 64) (n : Nat) (a : W64) :
    ishrVal t n a = BitVec.ofInt 64 (intVal t a / 2 ^ n) := by
  rw [ishrVal, w, ofNat_wrapN_64]

theorem lopVal_bit (m : BitVec 8) (a b : W64) {i : Nat} (h : i < 64) :
    (lopVal m a b).getLsbD i = (modLut m).getLsbD ((if a.getLsbD i then 2 else 0) + (if b.getLsbD i then 1 else 0)) := by
  have pick : ∀ (c : Bool) (x : W64), (if c then x else 0#64).getLsbD i = (c && x.getLsbD i) := by
    intro c x
    cases c <;> simp
  simp only [lopVal, lutWord, BitVec.ofNat_eq_ofNat, BitVec.getLsbD_or, pick, BitVec.getLsbD_and, BitVec.getLsbD_not, h, decide_true, Bool.true_and]
  cases a.getLsbD i <;> cases b.getLsbD i <;> simp

/-- The field of `len` bits at `pos`, bit by bit. -/
def inField (pos len i : Nat) : Bool := decide (pos ≤ i ∧ i < pos + len)

theorem fieldMask_bit (len pos : Nat) {i : Nat} (h : i < 64) :
    (BitVec.ofNat 64 ((2 ^ len - 1) * 2 ^ pos)).getLsbD i = inField pos len i := by
  rw [BitVec.getLsbD_ofNat, Nat.testBit_mul_two_pow, Nat.testBit_two_pow_sub_one, inField]
  by_cases low : pos ≤ i
  · simp [low, h]
    omega
  · simp [low]

theorem bfiVal_bit {w : Nat} (a b : W64) (c : W32) {i : Nat} (hw : w ≤ 64) (h : i < w) :
    (bfiVal w a b c).getLsbD i =
      if c.toNat % 256 ≤ i ∧ i < c.toNat % 256 + c.toNat / 256 % 256 then a.getLsbD (i - c.toNat % 256) else b.getLsbD i := by
  have bit : i < 64 := by omega
  have clipped : inField (c.toNat % 256) (min (c.toNat / 256 % 256) (w - c.toNat % 256)) i =
      decide (c.toNat % 256 ≤ i ∧ i < c.toNat % 256 + c.toNat / 256 % 256) := decide_eq_decide.mpr (by omega)
  simp only [bfiVal, BitVec.getLsbD_or, BitVec.getLsbD_and, BitVec.getLsbD_not, fieldMask_bit _ _ bit, clipped]
  rw [BitVec.getLsbD_ofNat, Nat.testBit_mul_two_pow]
  by_cases field : c.toNat % 256 ≤ i ∧ i < c.toNat % 256 + c.toNat / 256 % 256
  · simp [field, bit, BitVec.testBit_toNat]
  · simp [field, bit]

/-- A number summed from weights of bits has those bits. -/
theorem foldl_bits (p : Nat → Bool) (w : Nat) :
    let n := (List.range w).foldl (fun x i => x + if p i then 2 ^ i else 0) 0
    n < 2 ^ w ∧ ∀ i, n.testBit i = (decide (i < w) && p i) := by
  induction w with
  | zero => simp
  | succ w ih =>
    obtain ⟨bound, bits⟩ := ih
    simp only [List.range_succ, List.foldl_append, List.foldl_cons, List.foldl_nil]
    generalize (List.range w).foldl (fun x i => x + if p i then 2 ^ i else 0) 0 = n at bound bits ⊢
    have double : 2 ^ (w + 1) = 2 ^ w + 2 ^ w := by rw [pow_succ]; omega
    cases top : p w with
    | false =>
      refine ⟨by simp; omega, fun i => ?_⟩
      rcases Nat.lt_trichotomy i w with lt | rfl | gt
      · simp [bits, lt, Nat.lt_succ_of_lt lt]
      · simp [bits, top]
      · simp [bits, gt.not_gt, Nat.not_le.mpr gt]
    | true =>
      refine ⟨by simp; omega, fun i => ?_⟩
      simp only [if_true, Nat.add_comm n]
      rcases Nat.lt_trichotomy i w with lt | rfl | gt
      · simp [Nat.testBit_two_pow_add_gt lt, bits, lt, Nat.lt_succ_of_lt lt]
      · simp [Nat.testBit_two_pow_add_eq, bits, top]
      · rw [Nat.testBit_lt_two_pow (lt_of_lt_of_le (by omega : 2 ^ w + n < 2 ^ (w + 1)) (Nat.pow_le_pow_right (by decide) gt))]
        simp
        omega

theorem brevVal_bit {w : Nat} (a : W64) {i : Nat} (hw : w ≤ 64) (h : i < w) :
    (brevVal w a).getLsbD i = a.getLsbD (w - 1 - i) := by
  obtain ⟨-, bits⟩ := foldl_bits (fun i => a.getLsbD (w - 1 - i)) w
  rw [brevVal, BitVec.getLsbD_ofNat, bits]
  simp [h, show i < 64 by omega]

theorem popcVal_toNat {w : Nat} (a : W64) (hw : w ≤ 64) :
    (popcVal w a).toNat = ((List.range w).filter fun i => a.getLsbD i).length := by
  have short := List.length_filter_le (fun i => a.getLsbD i) (List.range w)
  rw [List.length_range] at short
  rw [popcVal, BitVec.toNat_ofNat, Nat.mod_eq_of_lt (by omega)]

/-- CLZ is the place of the first one from the top, or the width where there is none. -/
theorem clzVal_spec {w : Nat} (a : W64) (hw : w ≤ 64) :
    (clzVal w a).toNat ≤ w ∧ (∀ i, i < (clzVal w a).toNat → a.getLsbD (w - 1 - i) = false) ∧
      ((clzVal w a).toNat < w → a.getLsbD (w - 1 - (clzVal w a).toNat) = true) := by
  cases place : (List.range w).find? fun i => a.getLsbD (w - 1 - i) with
  | none =>
    have count : (clzVal w a).toNat = w := by simp [clzVal, place]; omega
    simp only [List.find?_eq_none, List.mem_range, Bool.not_eq_true] at place
    rw [count]
    exact ⟨le_rfl, place, fun h => absurd h (lt_irrefl w)⟩
  | some n =>
    obtain ⟨one, inside, zeros⟩ := List.find?_range_eq_some.mp place
    rw [List.mem_range] at inside
    have count : (clzVal w a).toNat = n := by simp [clzVal, place]; omega
    rw [count]
    exact ⟨inside.le, by simpa using zeros, fun _ => one⟩

/-- A field of a pattern, its top bit extended. -/
theorem sextN_field (a : W64) (pos : Nat) {len : Nat} (h : 0 < len) :
    sextN (a.toNat / 2 ^ pos % 2 ^ len) len = (a.extractLsb' pos len).toInt := by
  rw [BitVec.toInt_eq_toNat_bmod, bmod_eq_sextN _ h.ne', BitVec.extractLsb'_toNat, Nat.shiftRight_eq_div_pow]

theorem ofNat_wrapN_bit {w : Nat} (hw : w ≤ 64) (e : Int) {i : Nat} (h : i < w) :
    (BitVec.ofNat 64 (wrapN w e)).getLsbD i = (BitVec.ofInt w e).getLsbD i := by
  have same : (BitVec.ofInt w e).toNat = wrapN w e := by rw [BitVec.toNat_ofInt, wrapN]; push_cast; rfl
  rw [BitVec.getLsbD_ofNat, ← BitVec.testBit_toNat, same, decide_eq_true (by omega : i < 64), Bool.true_and]

theorem bfeVal_bit {t : Nat} (ht : t ≤ 9) (a : W64) (b : W32) {i : Nat} (h : i < typeBits t) :
    let pos := min (b.toNat % 256) (typeBits t)
    let len := min (b.toNat / 256 % 256) (typeBits t - pos)
    (bfeVal t a b).getLsbD i =
      if i < len then a.getLsbD (pos + i) else decide (t ≤ 3 ∧ 0 < len) && a.getLsbD (pos + len - 1) := by
  rw [typeBits_eq_intWidth ht] at h ⊢
  have width : intWidth t ≤ 64 := by have := intWidth_cases t; omega
  simp only [bfeVal]
  generalize pos_eq : min (b.toNat % 256) (intWidth t) = pos
  generalize len_eq : min (b.toNat / 256 % 256) (intWidth t - pos) = len
  by_cases extended : t ≤ 3 ∧ 0 < len
  · have on : (intSigned t && decide (0 < len)) = true := by simpa [intSigned] using extended
    rw [if_pos on, sextN_field a pos extended.2, ofNat_wrapN_bit width _ h, ← BitVec.signExtend, BitVec.getLsbD_signExtend,
      BitVec.msb_eq_getLsbD_last, BitVec.getLsbD_extractLsb', BitVec.getLsbD_extractLsb']
    have top : len - 1 < len := by omega
    simp only [h, extended, and_self, decide_true, Bool.true_and, top, Nat.add_sub_assoc extended.2]
    by_cases inside : i < len <;> simp [inside]
  · have off : (intSigned t && decide (0 < len)) = false := by simpa [intSigned] using extended
    have bit : i < 64 := by omega
    simp only [off, extended, Bool.false_eq_true, if_false, decide_false, Bool.false_and, BitVec.getLsbD_ofNat, Nat.testBit_mod_two_pow,
      Nat.testBit_div_two_pow, bit, decide_true, Bool.true_and, BitVec.testBit_toNat, Nat.add_comm i]
    by_cases inside : i < len <;> simp [inside]

/-- Settles O4: each clause is the lemma about its operation. -/
theorem integerValues : Obligations.IntegerValues := by
  unfold Obligations.IntegerValues
  have upTo9 : ∀ t, t ∈ [2, 3, 6, 7] → t ≤ 9 := by decide
  refine ⟨?iadd, ?imul, ?imad, ?iabs, ?icmp, ?imulHigh, ?shifts, ?lop, ?bfi, ?brev, ?clz, ?popc, ?bfe⟩
  case iadd =>
    rintro m a b (h | ⟨h, -⟩)
    · exact iaddVal_holds m a b (upTo9 _ h)
    · exact iaddVal_holds m a b (by simp at h; omega)
  case imul => exact fun m a b h low => imulVal_low_holds a b (upTo9 _ h) low
  case imad => exact fun t sat a b c h => imadOut_holds (upTo9 _ h) sat a b c
  case iabs => exact fun m a h => iabsVal_holds m a (by simp at h; omega)
  case icmp =>
    intro t cmp a b h _
    rw [intVal_eq_numOf (upTo9 _ h), intVal_eq_numOf (upTo9 _ h)]
    exact cmpInt_iff cmp _ _
  case imulHigh =>
    intro m a b _
    refine ⟨fun high t => ?_, fun high t => ?_, fun high t => ?_, fun high t => ?_, fun wide t => ?_, fun wide t => ?_⟩
    · rw [imulVal_high32 high (by rw [t]; rfl), t, intVal_s32, intVal_s32]; rfl
    · rw [imulVal_high32 high (by rw [t]; rfl), t, intVal_n32 (by decide), intVal_n32 (by decide), setWidth_eq_ofInt, setWidth_eq_ofInt]
    · rw [imulVal_high64 high (by rw [t]; rfl), t, intVal_s64, intVal_s64]; rfl
    · rw [imulVal_high64 high (by rw [t]; rfl), t, intVal_n64 (by decide), intVal_n64 (by decide), setWidth_eq_ofInt, setWidth_eq_ofInt]
    · rw [imulVal_wide wide, t, intVal_s32, intVal_s32, BitVec.ofInt_mul]; rfl
    · rw [imulVal_wide wide, t, intVal_n32 (by decide), intVal_n32 (by decide), BitVec.ofInt_mul, setWidth_eq_ofInt, setWidth_eq_ofInt]
  case shifts =>
    intro t n a
    have narrow : t ∈ [2, 6, 8] → intWidth t = 32 := fun h => by fin_cases h <;> rfl
    have wide : t ∈ [3, 7, 9] → intWidth t = 64 := fun h => by fin_cases h <;> rfl
    refine ⟨fun h => ishlVal_32 (narrow h) n a, fun h => ishlVal_64 (wide h) n a, fun h => ?_, fun h => ?_, fun h => ?_, fun h => ?_⟩
    · rw [ishrVal_32 (narrow (List.mem_cons_of_mem _ h)), intVal_n32 h, toNat_ediv]
    · rw [ishrVal_32 (by rw [h]; rfl), h, intVal_s32, toInt_ediv]
    · rw [ishrVal_64 (wide (List.mem_cons_of_mem _ h)), intVal_n64 h, toNat_ediv]
    · rw [ishrVal_64 (by rw [h]; rfl), h, intVal_s64, toInt_ediv]
  case lop => exact fun m a b i h => lopVal_bit m a b h
  case bfi => exact fun w a b c i hw h => bfiVal_bit a b c (by omega) h
  case brev => exact fun w a i hw h => brevVal_bit a (by omega) h
  case clz => exact fun w a hw => clzVal_spec a (by omega)
  case popc => exact fun w a hw => popcVal_toNat a (by omega)
  case bfe => exact fun t a b i ht h => bfeVal_bit (upTo9 _ ht) a b h

end Sys2Proof.Claims
end

section
/-! SUPPORT. Rounding: the model's magnitude codes against the numbers that the codes stand for (06 R125, R130). -/

namespace Sys2Proof.Claims
open Sys2Proof.Machine

/-! ### A format of the model and its layout in the statements -/

/-- The parameters of a format as the model and as the table of 06 R125 have them. -/
structure Agrees (f : Fmt) (L : Layout) : Prop where
  eb : f.eb = L.eb
  mb : f.mb = L.mb
  bias : f.bias = L.bias
  maxMag : f.maxMag = L.top
  nan : f.nan = L.nan
  ieee : f.e4m3 = false → f.infMag = L.top + 1 ∧ L.top + 1 = (2 ^ L.eb - 1) * 2 ^ L.mb
  e4m3 : f.e4m3 = true → L.sign = 128 ∧ L.top = 126
  bias_pos : 1 ≤ L.bias
  eb_pos : 1 ≤ L.eb
  mb_pos : 1 ≤ L.mb
  normal : 2 ^ L.mb ≤ L.top
  top_lt : L.top + 1 < L.sign
  nan_lt : L.nan < L.sign
  bits : f.bits ≤ 64

/-- The floating types of the statements. -/
def floatTypes : List Nat := [10, 11, 12, 13, 14, 15]

theorem agrees {t : Nat} (h : t ∈ floatTypes) : Agrees (fmtOf t) (layout t) := by
  unfold floatTypes at h
  fin_cases h <;> constructor <;> decide

theorem e4m3_eq {t : Nat} (h : t ∈ floatTypes) : (fmtOf t).e4m3 = decide (t = 14) := by
  unfold floatTypes at h
  fin_cases h <;> rfl

/-! ### Units of magnitude codes -/

/-- A code of exponent step `k` and significand `u` stands for `u` steps of weight 2^k; a significand may reach the next power of two. -/
theorem units_step (L : Layout) {k u : Nat} (hu : u ≤ 2 ^ (L.mb + 1)) (hk : k = 0 ∨ 2 ^ L.mb ≤ u) :
    L.units (k * 2 ^ L.mb + u) = u * 2 ^ k := by
  have pos : 0 < 2 ^ L.mb := by positivity
  rw [pow_succ] at hu
  generalize hp : 2 ^ L.mb = p at *
  rcases Nat.lt_or_ge u p with low | high
  · obtain rfl : k = 0 := by omega
    simp [Layout.units, hp, Nat.div_eq_of_lt low]
  · obtain ⟨v, rfl⟩ := Nat.exists_eq_add_of_le high
    have code : k * p + (p + v) = v + p * (k + 1) := by ring
    rw [Layout.units, hp, code, Nat.add_mul_div_left _ _ pos, Nat.add_mul_mod_self_left]
    rcases Nat.lt_or_ge v p with inside | carry
    · rw [Nat.div_eq_of_lt inside, Nat.mod_eq_of_lt inside]
      simp
    · obtain rfl : v = p := by omega
      rw [Nat.div_self pos, Nat.mod_self]
      have : 1 + (k + 1) - 1 = k + 1 := by omega
      rw [this, if_neg (by omega), pow_succ]
      ring

/-- One code more is one step of its exponent more. -/
theorem units_succ (L : Layout) (c : Nat) : L.units (c + 1) = L.units c + 2 ^ (c / 2 ^ L.mb - 1) := by
  have pos : 0 < 2 ^ L.mb := by positivity
  have split := Nat.div_add_mod c (2 ^ L.mb)
  have rem := Nat.mod_lt c pos
  have double : 2 ^ (L.mb + 1) = 2 ^ L.mb * 2 := pow_succ _ _
  rcases Nat.eq_zero_or_pos (c / 2 ^ L.mb) with sub | norm
  · rw [sub] at split ⊢
    have here := units_step L (k := 0) (u := c) (by omega) (.inl rfl)
    have next := units_step L (k := 0) (u := c + 1) (by omega) (.inl rfl)
    simp_all
  · obtain ⟨k, hk⟩ := Nat.exists_eq_add_of_lt norm
    rw [hk] at split ⊢
    have here := units_step L (k := k) (u := 2 ^ L.mb + c % 2 ^ L.mb) (by omega) (.inr (by omega))
    have next := units_step L (k := k) (u := 2 ^ L.mb + c % 2 ^ L.mb + 1) (by omega) (.inr (by omega))
    have code : k * 2 ^ L.mb + (2 ^ L.mb + c % 2 ^ L.mb) = c := by
      rw [← split]; simp; ring
    rw [← add_assoc, code] at next
    rw [code] at here
    rw [next, here]
    simp
    ring

theorem units_strictMono (L : Layout) : StrictMono L.units :=
  strictMono_nat_of_lt_succ fun c => by rw [units_succ]; exact Nat.lt_add_of_pos_right (by positivity)

theorem units_zero (L : Layout) : L.units 0 = 0 := by simp [Layout.units]

/-! ### Rounding between two neighbours -/

/-- The rule of 06 R130 for a number `x` that lies from `lo` up to `hi`, of which `lo` has the code `c`. -/
def roundsUp (rnd : Nat) (neg : Bool) (c lo hi x : Nat) : Bool :=
  match rnd with
  | 0 => lo + hi < 2 * x || (lo + hi == 2 * x && c % 2 == 1)
  | 1 => false
  | 2 => neg && lo != x
  | _ => !neg && lo != x

/-- `r` is the code, among `c` and `c + 1`, that the number `x` rounds to, where the codes stand for `v`. -/
structure RoundedAt (v : Nat → Nat) (rnd : Nat) (neg : Bool) (x c r : Nat) : Prop where
  lower : v c ≤ x
  upper : x < v (c + 1)
  choice : r = if roundsUp rnd neg c (v c) (v (c + 1)) x then c + 1 else c

/-- A number that a code stands for rounds to the code. -/
theorem RoundedAt.exact {v : Nat → Nat} {rnd : Nat} {neg : Bool} {x c r k : Nat} (h : RoundedAt v rnd neg x c r) (mono : StrictMono v)
    (hk : x = v k) : r = k := by
  obtain ⟨lower, upper, choice⟩ := h
  subst hk
  obtain rfl : c = k := Nat.le_antisymm (mono.le_iff_le.mp lower) (Nat.lt_succ_iff.mp (mono.lt_iff_lt.mp upper))
  rw [choice, if_neg]
  unfold roundsUp
  split <;> simp
  omega

/-- The quotients of two pairs with one ratio lie alike to their halves. -/
theorem ratio_half {r p y d : Nat} (hp : 0 < p) (hd : 0 < d) (h : r * d = y * p) :
    (r < p ↔ y < d) ∧ (p < 2 * r ↔ d < 2 * y) ∧ (2 * r = p ↔ 2 * y = d) ∧ (r = 0 ↔ y = 0) := by
  have scale : ∀ a b : Nat, (a * r < b * p ↔ a * y < b * d) ∧ (b * p < a * r ↔ b * d < a * y) := fun a b => by
    constructor
    · rw [← Nat.mul_lt_mul_right hd, ← Nat.mul_lt_mul_right (a := p) hp (b := a * y), mul_assoc, h]
      rw [show a * (y * p) = a * y * p by ring, show b * p * d = b * d * p by ring]
    · rw [← Nat.mul_lt_mul_right hd, ← Nat.mul_lt_mul_right (a := p) hp (b := b * d), mul_assoc a, h]
      rw [show a * (y * p) = a * y * p by ring, show b * p * d = b * d * p by ring]
  have whole := scale 1 1
  have half := scale 2 1
  have none := scale 1 0
  simp only [one_mul, zero_mul] at whole half none
  omega

/-- A number of whole units is its own rounding. -/
theorem roundUnits_whole (neg : Bool) (rnd m : Nat) {e q : Int} {x d : Nat} (hd : 0 < d) (whole : q ≤ e)
    (hx : (x : ℚ) = m * 2 ^ (e - q) * d) : RoundedAt (· * d) rnd neg x (m * 2 ^ (e - q).toNat) (roundUnits neg rnd m e q) := by
  have value : x = m * 2 ^ (e - q).toNat * d := by
    have : (e - q) = ((e - q).toNat : Int) := by omega
    rw [this, zpow_natCast] at hx
    exact_mod_cast hx
  refine ⟨value.ge, ?_, ?_⟩
  · rw [value]
    exact Nat.mul_lt_mul_of_pos_right (Nat.lt_succ_self _) hd
  · rw [roundUnits, if_pos whole, if_neg]
    unfold roundsUp
    have : (m * 2 ^ (e - q).toNat + 1) * d = m * 2 ^ (e - q).toNat * d + d := by ring
    split <;> simp <;> omega

/-- The remainder below the units decides as the distance to the lower unit does. -/
theorem roundUnits_part (neg : Bool) (rnd m : Nat) {e q : Int} {x d : Nat} (hd : 0 < d) (part : e < q)
    (hx : (x : ℚ) = m * 2 ^ (e - q) * d) : RoundedAt (· * d) rnd neg x (m / 2 ^ (q - e).toNat) (roundUnits neg rnd m e q) := by
  have value : x * 2 ^ (q - e).toNat = m * d := by
    have : (e - q) = -((q - e).toNat : Int) := by omega
    rw [this, zpow_neg, zpow_natCast] at hx
    have : (x : ℚ) * 2 ^ (q - e).toNat = m * d := by rw [hx]; field_simp
    exact_mod_cast this
  simp only [roundUnits, if_neg (not_le.mpr part)]
  generalize (q - e).toNat = k at value ⊢
  have pos : 0 < 2 ^ k := by positivity
  have split := Nat.div_add_mod m (2 ^ k)
  have rem := Nat.mod_lt m pos
  generalize m / 2 ^ k = u at split ⊢
  generalize m % 2 ^ k = r at split rem ⊢
  have lower : u * d ≤ x := by
    refine Nat.le_of_mul_le_mul_right ?_ pos
    rw [value, ← split]
    nlinarith
  obtain ⟨y, rfl⟩ := Nat.exists_eq_add_of_le lower
  have ratio : r * d = y * 2 ^ k := by
    rw [← split] at value
    nlinarith
  obtain ⟨less, more, tie, none⟩ := ratio_half pos hd ratio
  have step : (u + 1) * d = u * d + d := by ring
  have more' : u * d + (u * d + d) < 2 * (u * d + y) ↔ d < 2 * y := by omega
  have tie' : u * d + (u * d + d) = 2 * (u * d + y) ↔ 2 * y = d := by omega
  refine ⟨lower, by simp only [step]; omega, ?_⟩
  simp only [step]
  match rnd with
  | 0 => simp only [roundsUp, beq_eq_decide, more, tie, more', tie']
  | 1 => rfl
  | 2 | _ + 3 => simp [roundsUp, bne, beq_eq_decide, none]

/-- The model's rounding to whole units: the number is `x` in steps of `d`. -/
theorem roundUnits_roundedAt (neg : Bool) (rnd m : Nat) (e q : Int) {x d : Nat} (hd : 0 < d) (hx : (x : ℚ) = m * 2 ^ (e - q) * d) :
    ∃ u, RoundedAt (· * d) rnd neg x u (roundUnits neg rnd m e q) := by
  rcases le_or_gt q e with whole | part
  · exact ⟨_, roundUnits_whole neg rnd m hd whole hx⟩
  · exact ⟨_, roundUnits_part neg rnd m hd part hx⟩

/-! ### Magnitude codes -/

theorem bitLen_bounds {m : Nat} (h : m ≠ 0) : 2 ^ (bitLen m - 1) ≤ m ∧ m < 2 ^ bitLen m ∧ 1 ≤ bitLen m := by
  rw [bitLen, if_neg h]
  exact ⟨Nat.log2_self_le h, Nat.lt_log2_self, by omega⟩

/-- The whole units of a significand of `b` digits have at most `p` digits. -/
theorem units_lt_of_le {m u b p : Nat} {z : Int} (hm : m < 2 ^ b) (hu : (u : ℚ) ≤ m * 2 ^ z) (hz : b + z ≤ p) : u < 2 ^ p := by
  have bound : (m : ℚ) * 2 ^ z < 2 ^ p := by
    calc (m : ℚ) * 2 ^ z < 2 ^ b * 2 ^ z := by
          gcongr
          exact_mod_cast hm
      _ = 2 ^ ((b : Int) + z) := by rw [zpow_add₀ (by norm_num), zpow_natCast]
      _ ≤ 2 ^ (p : Int) := zpow_le_zpow_right₀ (by norm_num) hz
      _ = 2 ^ p := zpow_natCast _ _
  exact_mod_cast lt_of_le_of_lt hu bound

/-- The whole units of a significand of more than `b` digits have more than `p`. -/
theorem le_units_of_lt {m u b p : Nat} {z : Int} (hm : 2 ^ b ≤ m) (hu : (m : ℚ) * 2 ^ z < (u + 1 : Nat)) (hz : b + z = p) : 2 ^ p ≤ u := by
  have bound : (2 : ℚ) ^ p ≤ m * 2 ^ z := by
    calc (2 : ℚ) ^ p = 2 ^ ((b : Int) + z) := by rw [hz, zpow_natCast]
      _ = 2 ^ b * 2 ^ z := by rw [zpow_add₀ (by norm_num), zpow_natCast]
      _ ≤ m * 2 ^ z := by
          gcongr
          exact_mod_cast hm
  exact Nat.lt_succ_iff.mp (by exact_mod_cast lt_of_le_of_lt bound hu)

/-- The model's magnitude code of a number that is `x / d` units of the format is its rounding. -/
theorem roundMag_roundedAt {f : Fmt} {L : Layout} (A : Agrees f L) (neg : Bool) (rnd : Nat) {m : Nat} (hm : m ≠ 0) (e : Int) {x d : Nat}
    (hd : 0 < d) (hx : (x : ℚ) = m * 2 ^ (e + L.low) * d) :
    ∃ c, RoundedAt (fun c => L.units c * d) rnd neg x c (f.roundMag neg rnd m e) := by
  obtain ⟨lead, next, some⟩ := bitLen_bounds hm
  have mb := A.mb
  have bias := A.bias
  have bias_pos := A.bias_pos
  have mb_pos := A.mb_pos
  simp only [Fmt.roundMag, if_neg hm]
  generalize htop : e + (bitLen m : Int) - 1 = top
  generalize hq : max top (1 - f.bias) - (f.mb : Int) = q
  obtain ⟨k, hk⟩ : ∃ k : Nat, q + f.mb + f.bias - 1 = k := ⟨(q + f.mb + f.bias - 1).toNat, by omega⟩
  have low : e + L.low = (e - q) + k := by
    rw [Layout.low]
    omega
  have scaled : (x : ℚ) = m * 2 ^ (e - q) * (2 ^ k * d : Nat) := by
    rw [hx, low, zpow_add₀ (by norm_num), zpow_natCast]
    push_cast
    ring
  obtain ⟨u, rounded⟩ := roundUnits_roundedAt neg rnd m e q (by positivity) scaled
  obtain ⟨lower, upper, choice⟩ := rounded
  have code : ((k : Int) * 2 ^ f.mb).toNat = k * 2 ^ L.mb := by
    rw [mb]
    exact_mod_cast Int.toNat_natCast (k * 2 ^ L.mb)
  rw [hk, code, choice]
  have positive : (0 : ℚ) < (2 ^ k * d : Nat) := by exact_mod_cast Nat.mul_pos (by positivity) hd
  have small : u < 2 ^ (L.mb + 1) := by
    refine units_lt_of_le next (le_of_mul_le_mul_right ?_ positive) (z := e - q) (by push_cast; omega)
    rw [← scaled]
    exact_mod_cast lower
  have large : k = 0 ∨ 2 ^ L.mb ≤ u := by
    rcases Nat.eq_zero_or_pos k with zero | pos
    · exact .inl zero
    · refine .inr (le_units_of_lt lead (lt_of_mul_lt_mul_right ?_ positive.le) (z := e - q) (by omega))
      rw [← scaled]
      exact_mod_cast upper
  have here : L.units (k * 2 ^ L.mb + u) * d = u * (2 ^ k * d) := by
    rw [units_step L small.le large, mul_assoc]
  have step : L.units (k * 2 ^ L.mb + u + 1) * d = (u + 1) * (2 ^ k * d) := by
    rw [add_assoc, units_step L (by omega) (by omega), mul_assoc]
  have parity : (k * 2 ^ L.mb + u) % 2 = u % 2 := by
    obtain ⟨j, hj⟩ := Nat.exists_eq_add_of_le mb_pos
    rw [hj, pow_add, pow_one, show k * (2 * 2 ^ j) = 2 * (k * 2 ^ j) by ring]
    omega
  refine ⟨k * 2 ^ L.mb + u, here ▸ lower, step ▸ upper, ?_⟩
  have same : roundsUp rnd neg (k * 2 ^ L.mb + u) (u * (2 ^ k * d)) ((u + 1) * (2 ^ k * d)) x =
      roundsUp rnd neg u (u * (2 ^ k * d)) ((u + 1) * (2 ^ k * d)) x := by
    unfold roundsUp
    rw [parity]
  simp only [here, step, same]
  split <;> omega

end Sys2Proof.Claims
end

section
/-! SUPPORT. The model's rounded patterns yield the exact results of the statements (06 R130 to R132, R137, R138). -/

namespace Sys2Proof.Claims
open Sys2Proof.Machine

/-! ### Signed codes -/

/-- The number of units that a sign and a magnitude code stand for, as `Rounds` reads them. -/
def codeValue (L : Layout) (q : Nat) : Int :=
  if q / L.sign % 2 = 1 then -((L.units (q % L.sign) : Nat) : Int) else ((L.units (q % L.sign) : Nat) : Int)

theorem sign_pos (L : Layout) : 0 < L.sign := by unfold Layout.sign; positivity

/-- The parts of a sign and a magnitude code. -/
theorem mk'_parts {f : Fmt} {L : Layout} (A : Agrees f L) (neg : Bool) {r : Nat} (h : r < L.sign) :
    f.mk' neg r % L.sign = r ∧ f.mk' neg r / L.sign % 2 = (if neg then 1 else 0) ∧ f.mk' neg r < 2 * L.sign ∧
      f.mk' neg r % 2 = r % 2 := by
  have sign : 2 ^ (f.eb + f.mb) = L.sign := by rw [A.eb, A.mb, Layout.sign]
  have even : L.sign % 2 = 0 := by
    have := A.mb_pos
    rw [Layout.sign, show L.eb + L.mb = (L.eb + L.mb - 1) + 1 by omega, pow_succ]
    omega
  have pos := sign_pos L
  rw [Fmt.mk', sign]
  cases neg
  · simp [Nat.mod_eq_of_lt h, Nat.div_eq_of_lt h]
    omega
  · simp [Nat.mod_eq_of_lt h, Nat.add_div_left _ pos, Nat.div_eq_of_lt h]
    omega

theorem codeValue_mk' {f : Fmt} {L : Layout} (A : Agrees f L) (neg : Bool) {r : Nat} (h : r < L.sign) :
    codeValue L (f.mk' neg r) = if neg then -((L.units r : Nat) : Int) else ((L.units r : Nat) : Int) := by
  obtain ⟨mag, sign, -⟩ := mk'_parts A neg h
  rw [codeValue, mag, sign]
  cases neg <;> simp

/-- A code that a format holds: a sign and a finite magnitude. -/
def finiteCode (L : Layout) (q : Nat) : Prop := q < 2 * L.sign ∧ q % L.sign ≤ L.top

/-- `Rounds` with its codes' values named. -/
theorem rounds_iff (L : Layout) (rnd : Nat) (n : Int) (d r : Nat) : Rounds L rnd n d r ↔
    finiteCode L r ∧ (r / L.sign % 2 = 1 ↔ n < 0) ∧
    match rnd with
    | 0 => ∀ q, finiteCode L q → (n - codeValue L r * d).natAbs ≤ (n - codeValue L q * d).natAbs ∧
        ((n - codeValue L r * d).natAbs = (n - codeValue L q * d).natAbs → codeValue L q * d ≠ codeValue L r * d → r % 2 = 0)
    | 1 => (codeValue L r * d).natAbs ≤ n.natAbs ∧
        ∀ q, finiteCode L q → (codeValue L q * d).natAbs ≤ n.natAbs → (codeValue L q * d).natAbs ≤ (codeValue L r * d).natAbs
    | 2 => codeValue L r * d ≤ n ∧ ∀ q, finiteCode L q → codeValue L q * d ≤ n → codeValue L q * d ≤ codeValue L r * d
    | _ => n ≤ codeValue L r * d ∧ ∀ q, finiteCode L q → n ≤ codeValue L q * d → codeValue L r * d ≤ codeValue L q * d :=
  Iff.rfl

/-- The value of any finite code, in steps of `d`: a sign and a magnitude, which lies on one side of a step of the magnitudes. -/
theorem codeValue_split (L : Layout) (d q : Nat) : ∃ w : Nat, (codeValue L q * d = w ∨ codeValue L q * d = -(w : Int)) ∧
    w = L.units (q % L.sign) * d := by
  refine ⟨_, ?_, rfl⟩
  unfold codeValue
  split
  · right; push_cast; ring
  · left; push_cast; ring

/-- The choice between two neighbours as a condition on numbers, for each mode. -/
def StepsUp (rnd : Nat) (n : Int) (c lo hi : Nat) : Prop :=
  match rnd with
  | 0 => lo + hi < 2 * n.natAbs ∨ (lo + hi = 2 * n.natAbs ∧ c % 2 = 1)
  | 1 => False
  | 2 => n < 0 ∧ lo ≠ n.natAbs
  | _ => 0 ≤ n ∧ lo ≠ n.natAbs

theorem roundsUp_iff (rnd : Nat) (n : Int) (c lo hi : Nat) :
    roundsUp rnd (decide (n < 0)) c lo hi n.natAbs = true ↔ StepsUp rnd n c lo hi := by
  unfold roundsUp StepsUp
  split <;> simp

/-- Which of two neighbours is chosen, and the magnitude `v` of the choice. -/
def Chosen (up : Prop) (c lo hi r v : Nat) : Prop := up ∧ r = c + 1 ∧ v = hi ∨ ¬up ∧ r = c ∧ v = lo

section
variable {n : Int} {c lo hi r v : Nat} (lower : lo ≤ n.natAbs) (upper : n.natAbs < hi)
include lower upper

/-- A number `y` that does not lie strictly between the neighbours, in magnitude. -/
def Outside (lo hi : Nat) (y : Int) : Prop := y.natAbs ≤ lo ∨ hi ≤ y.natAbs

theorem nearest_of_chosen (h : Chosen (StepsUp 0 n c lo hi) c lo hi r v) {y : Int} (side : Outside lo hi y) :
    (n - if n < 0 then -(v : Int) else v).natAbs ≤ (n - y).natAbs ∧
      ((n - if n < 0 then -(v : Int) else v).natAbs = (n - y).natAbs → y ≠ (if n < 0 then -(v : Int) else v) → r % 2 = 0) := by
  unfold Outside at side
  rcases h with ⟨up, rfl, rfl⟩ | ⟨down, rfl, rfl⟩
  · simp only [StepsUp] at up
    split <;> omega
  · simp only [StepsUp] at down
    split <;> omega

theorem towardZero_of_chosen (h : Chosen (StepsUp 1 n c lo hi) c lo hi r v) {y : Int} (side : Outside lo hi y) :
    (if n < 0 then -(v : Int) else v).natAbs ≤ n.natAbs ∧
      (y.natAbs ≤ n.natAbs → y.natAbs ≤ (if n < 0 then -(v : Int) else v).natAbs) := by
  unfold Outside at side
  rcases h with ⟨up, -⟩ | ⟨-, -, rfl⟩
  · exact up.elim
  · split <;> omega

theorem down_of_chosen (h : Chosen (StepsUp 2 n c lo hi) c lo hi r v) {y : Int} (side : Outside lo hi y) :
    (if n < 0 then -(v : Int) else v) ≤ n ∧ (y ≤ n → y ≤ if n < 0 then -(v : Int) else v) := by
  unfold Outside at side
  rcases h with ⟨up, -, rfl⟩ | ⟨down, -, rfl⟩
  · simp only [StepsUp] at up
    rw [if_pos up.1]
    omega
  · simp only [StepsUp] at down
    split <;> omega

theorem up_of_chosen {k : Nat} (h : Chosen (StepsUp (k + 3) n c lo hi) c lo hi r v) {y : Int} (side : Outside lo hi y) :
    n ≤ (if n < 0 then -(v : Int) else v) ∧ (n ≤ y → (if n < 0 then -(v : Int) else v) ≤ y) := by
  unfold Outside at side
  rcases h with ⟨up, -, rfl⟩ | ⟨down, -, rfl⟩
  · simp only [StepsUp] at up
    rw [if_neg up.1.not_gt]
    omega
  · simp only [StepsUp] at down
    split <;> omega

end

/-- The codes' steps of `d` are in order. -/
theorem steps_mono (L : Layout) (d : Nat) {i j : Nat} (h : i ≤ j) : L.units i * d ≤ L.units j * d :=
  Nat.mul_le_mul_right d ((units_strictMono L).monotone h)

theorem natAbs_codeValue (L : Layout) (q d : Nat) : (codeValue L q * d).natAbs = L.units (q % L.sign) * d := by
  unfold codeValue
  split <;> simp [Int.natAbs_mul]

/-- No code lies strictly between two neighbours. -/
theorem outside_codeValue (L : Layout) (c q d : Nat) : Outside (L.units c * d) (L.units (c + 1) * d) (codeValue L q * d) := by
  rw [Outside, natAbs_codeValue]
  rcases Nat.lt_or_ge c (q % L.sign) with above | below
  · exact .inr (steps_mono L d above)
  · exact .inl (steps_mono L d below)

theorem RoundedAt.chosen {v : Nat → Nat} {rnd c r : Nat} {n : Int} (h : RoundedAt v rnd (decide (n < 0)) n.natAbs c r) :
    Chosen (StepsUp rnd n c (v c) (v (c + 1))) c (v c) (v (c + 1)) r (v r) := by
  obtain ⟨-, -, rfl⟩ := h
  rw [Chosen, ← roundsUp_iff]
  split <;> simp_all

section
variable {f : Fmt} {L : Layout} (A : Agrees f L) {rnd : Nat} {n : Int} {d c r : Nat} (hn : n ≠ 0)

include A in
/-- The step value of a code with the sign of `n`. -/
theorem codeValue_signed (h : r ≤ L.top) :
    codeValue L (f.mk' (decide (n < 0)) r) * d = if n < 0 then -((L.units r * d : Nat) : Int) else ((L.units r * d : Nat) : Int) := by
  rw [codeValue_mk' A _ (by have := A.top_lt; omega)]
  by_cases neg : n < 0 <;> simp [neg]

include A in
theorem finiteCode_mk' (neg : Bool) (h : r ≤ L.top) : finiteCode L (f.mk' neg r) := by
  obtain ⟨mag, -, bound, -⟩ := mk'_parts A neg (by have := A.top_lt; omega : r < L.sign)
  exact ⟨bound, mag.symm ▸ h⟩

include A in
theorem sign_mk' (h : r ≤ L.top) : f.mk' (decide (n < 0)) r / L.sign % 2 = 1 ↔ n < 0 := by
  obtain ⟨-, sign, -⟩ := mk'_parts A (decide (n < 0)) (by have := A.top_lt; omega : r < L.sign)
  rw [sign]
  by_cases neg : n < 0 <;> simp [neg]

include A in
/-- A rounded magnitude that is finite is the rounded number. -/
theorem RoundedAt.rounds (h : RoundedAt (fun c => L.units c * d) rnd (decide (n < 0)) n.natAbs c r) (fits : r ≤ L.top) :
    Rounds L rnd n d (f.mk' (decide (n < 0)) r) := by
  have chosen := h.chosen
  obtain ⟨-, -, -, parity⟩ := mk'_parts A (decide (n < 0)) (by have := A.top_lt; omega : r < L.sign)
  refine (rounds_iff ..).mpr ⟨finiteCode_mk' A _ fits, sign_mk' A fits, ?_⟩
  have side := outside_codeValue L c
  simp only [codeValue_signed A fits, parity]
  match rnd with
  | 0 => exact fun q _ => nearest_of_chosen h.lower h.upper chosen (side q d)
  | 1 => exact ⟨(towardZero_of_chosen h.lower h.upper chosen (side 0 d)).1, fun q _ => (towardZero_of_chosen h.lower h.upper chosen (side q d)).2⟩
  | 2 => exact ⟨(down_of_chosen h.lower h.upper chosen (side 0 d)).1, fun q _ => (down_of_chosen h.lower h.upper chosen (side q d)).2⟩
  | _ + 3 => exact ⟨(up_of_chosen h.lower h.upper chosen (side 0 d)).1, fun q _ => (up_of_chosen h.lower h.upper chosen (side q d)).2⟩

/-- A mode and a sign whose overflow is infinite. -/
def overflowsAway (rnd : Nat) (neg : Bool) : Bool := rnd == 0 || (rnd == 2 && neg) || (rnd == 3 && !neg)

/-- Overflow is a rounded magnitude beyond the largest finite one, in a mode that rounds such a number away from zero. -/
theorem RoundedAt.overflows_iff (h : RoundedAt (fun c => L.units c * d) rnd (decide (n < 0)) n.natAbs c r) (hr : rnd < 4) (hd : 0 < d) :
    Overflows L rnd n d ↔ L.top < r ∧ overflowsAway rnd (decide (n < 0)) = true := by
  have chosen := h.chosen
  obtain ⟨lower, upper, -⟩ := h
  have ulp : L.units (L.top + 1) * d = L.units L.top * d + 2 ^ (L.top / 2 ^ L.mb - 1) * d := by rw [units_succ, Nat.add_mul]
  have place : (c < L.top ∧ L.units (c + 1) * d ≤ L.units L.top * d) ∨ (c = L.top ∧ L.units c * d = L.units L.top * d ∧
      L.units (c + 1) * d = L.units (L.top + 1) * d) ∨ (L.top < c ∧ L.units (L.top + 1) * d ≤ L.units c * d) := by
    rcases Nat.lt_trichotomy c L.top with lt | rfl | gt
    · exact .inl ⟨lt, steps_mono L d lt⟩
    · exact .inr (.inl ⟨rfl, rfl, rfl⟩)
    · exact .inr (.inr ⟨gt, steps_mono L d gt⟩)
  have positive : 0 < 2 ^ (L.top / 2 ^ L.mb - 1) * d := Nat.mul_pos (by positivity) hd
  simp only [Overflows]
  generalize L.units r * d = v at chosen
  generalize L.units c * d = lo at *
  generalize L.units (c + 1) * d = hi at *
  generalize 2 ^ (L.top / 2 ^ L.mb - 1) * d = step at *
  rw [ulp] at place
  generalize L.units L.top * d = largest at *
  unfold Chosen at chosen
  match rnd, hr with
  | 0, _ =>
    simp only [StepsUp] at chosen
    simp only [overflowsAway, beq_self_eq_true, Bool.true_or, and_true]
    omega
  | 1, _ => simp [overflowsAway]
  | 2, _ =>
    simp only [StepsUp] at chosen
    simp [overflowsAway]
    omega
  | 3, _ =>
    simp only [StepsUp] at chosen
    simp [overflowsAway]
    omega

include A in
/-- A rounded magnitude beyond the largest finite one, in a mode that rounds it toward zero, rounds to that one. -/
theorem RoundedAt.rounds_top (h : RoundedAt (fun c => L.units c * d) rnd (decide (n < 0)) n.natAbs c r) (hr : rnd < 4) (past : L.top < r)
    (back : overflowsAway rnd (decide (n < 0)) = false) : Rounds L rnd n d (f.mk' (decide (n < 0)) L.top) := by
  have chosen := h.chosen
  have beyond : L.units L.top * d ≤ n.natAbs := by
    refine le_trans (steps_mono L d ?_) h.lower
    rcases chosen with ⟨-, rfl, -⟩ | ⟨-, rfl, -⟩ <;> omega
  have largest : ∀ q, finiteCode L q → (codeValue L q * d).natAbs ≤ L.units L.top * d := fun q fin => by
    rw [natAbs_codeValue]
    exact steps_mono L d fin.2
  refine (rounds_iff ..).mpr ⟨finiteCode_mk' A _ le_rfl, sign_mk' A le_rfl, ?_⟩
  simp only [codeValue_signed A le_rfl]
  generalize L.units L.top * d = v at beyond largest ⊢
  match rnd, hr with
  | 0, _ => simp [overflowsAway] at back
  | 1, _ =>
    refine ⟨by split <;> omega, fun q fin _ => (largest q fin).trans ?_⟩
    split <;> omega
  | 2, _ =>
    simp [overflowsAway] at back
    rw [if_neg (by omega)]
    exact ⟨by omega, fun q fin _ => by have := largest q fin; omega⟩
  | 3, _ =>
    simp [overflowsAway] at back
    rw [if_pos (by omega)]
    exact ⟨by omega, fun q fin _ => by have := largest q fin; omega⟩

end

end Sys2Proof.Claims
end

section
/-! SUPPORT. Exact values: what the model's values stand for, and what they yield when they are rounded (06 R130 to R134, R137, R138). -/

namespace Sys2Proof.Claims
open Sys2Proof.Machine

/-! ### Exact values of the model and of the statements -/

/-- The number that a sign, a significand and an exponent give. -/
def signedValue (neg : Bool) (m : Nat) (e : Int) : ℚ := (if neg then -1 else 1) * m * 2 ^ e

/-- A value of the model is an exact result in units of 2^-low. -/
inductive Denotes (low : Nat) : FV → Exact → Prop
  | nan : Denotes low .nan .nan
  | inf (neg : Bool) : Denotes low (.inf neg) (.inf neg)
  | zero (neg : Bool) (e : Int) : Denotes low (.num neg 0 e) (.zero neg)
  | quot {neg : Bool} {m : Nat} {e n : Int} {d : Nat} (hd : 0 < d) (hn : n ≠ 0) (value : signedValue neg m e * 2 ^ low = n / d) :
      Denotes low (.num neg m e) (.quot n d)

/-- A value of the model is what a pattern stands for, in units of 2^-low. -/
inductive Stands (low : Nat) : FV → Num → Prop
  | nan : Stands low .nan .nan
  | inf (neg : Bool) : Stands low (.inf neg) (.inf neg)
  | num {neg : Bool} {m u : Nat} {e : Int} (value : (m : ℚ) * 2 ^ e * 2 ^ low = u) : Stands low (.num neg m e) (.num neg u)

theorem Denotes.of {low : Nat} {neg : Bool} {m : Nat} {e n : Int} {d : Nat} (hd : 0 < d) (value : signedValue neg m e * 2 ^ low = n / d)
    {zero : Bool} (sign : m = 0 → neg = zero) : Denotes low (.num neg m e) (.of zero n d) := by
  unfold Exact.of
  split
  · next hn =>
    have none : m = 0 := by
      have : (2 : ℚ) ^ e ≠ 0 := by positivity
      have : (2 : ℚ) ^ low ≠ 0 := by positivity
      have sgn : (if neg then -1 else 1 : ℚ) ≠ 0 := by cases neg <;> simp
      have product : (if neg then -1 else 1 : ℚ) * m * 2 ^ e * 2 ^ low = 0 := by rw [← signedValue, value, hn]; simp
      simp only [mul_eq_zero, *, or_false, false_or] at product
      exact_mod_cast product
    rw [none, ← sign none]
    exact .zero neg e
  · next hn => exact .quot hd hn value

/-- The sign and the magnitude of a nonzero quotient. -/
theorem Denotes.parts {low : Nat} {neg : Bool} {m : Nat} {e n : Int} {d : Nat} (h : Denotes low (.num neg m e) (.quot n d)) :
    0 < d ∧ n ≠ 0 ∧ m ≠ 0 ∧ neg = decide (n < 0) ∧ (n.natAbs : ℚ) = m * 2 ^ (e + low) * d := by
  cases h with | quot hd hn value =>
  have pos : (0 : ℚ) < 2 ^ (e + low) := by positivity
  have hd' : (0 : ℚ) < d := by exact_mod_cast hd
  have number : (n : ℚ) = (if neg then -1 else 1) * (m * 2 ^ (e + low) * d) := by
    rw [signedValue] at value
    rw [zpow_add₀ (by norm_num), zpow_natCast]
    field_simp at value
    linarith
  have some : m ≠ 0 := by
    rintro rfl
    simp at number
    exact hn number
  have mag : (0 : ℚ) < m * 2 ^ (e + low) * d := by positivity
  refine ⟨hd, hn, some, ?_, ?_⟩
  · cases neg
    · have : (0 : ℚ) < n := by simpa [number] using mag
      have : 0 < n := by exact_mod_cast this
      simp [this.le]
    · have : (n : ℚ) < 0 := by simpa [number] using mag
      have : n < 0 := by exact_mod_cast this
      simp [this]
  · rw [Nat.cast_natAbs, Int.cast_abs, number, abs_mul, abs_of_pos mag]
    cases neg <;> simp

/-! ### Rounding an exact value -/

section
variable {t : Nat} (ht : t ∈ floatTypes) {rnd : Nat} (hr : rnd < 4) (sat ftz : Bool)
include ht

theorem round_nan : (fmtOf t).round rnd sat ftz .nan = (layout t).nan := (agrees ht).nan

theorem mk'_eq (neg : Bool) (r : Nat) : (fmtOf t).mk' neg r = (if neg then (layout t).sign else 0) + r := by
  rw [Fmt.mk', (agrees ht).eb, (agrees ht).mb, Layout.sign]

/-- What stands for an infinity: .sat makes it the largest finite value, and .e4m3 has a NaN in its place. -/
def pastPattern (t : Nat) (sat neg : Bool) : Nat :=
  if sat then (if neg then (layout t).sign else 0) + (layout t).top else if t = 14 then (layout t).nan
    else (if neg then (layout t).sign else 0) + (layout t).top + 1

theorem round_inf (neg : Bool) : (fmtOf t).round rnd sat ftz (.inf neg) = pastPattern t sat neg := by
  have A := agrees ht
  simp only [Fmt.round, pastPattern, mk'_eq ht, A.maxMag, e4m3_eq ht, decide_eq_true_eq, A.nan]
  by_cases e4m3 : t = 14
  · simp only [if_pos e4m3]
  · rw [if_neg e4m3, if_neg e4m3, (A.ieee (by rw [e4m3_eq ht]; exact decide_eq_false e4m3)).1, add_assoc]

/-- A zero keeps its sign. -/
theorem round_zero (neg : Bool) (e : Int) : (fmtOf t).round rnd sat ftz (.num neg 0 e) = if neg then (layout t).sign else 0 := by
  simp [Fmt.round, Fmt.roundMag, Fmt.flush, mk'_eq ht]

section
variable {neg : Bool} {m : Nat} {e : Int}

theorem round_fits (fits : (fmtOf t).roundMag neg rnd m e ≤ (layout t).top) : (fmtOf t).round rnd sat ftz (.num neg m e) =
    (fmtOf t).mk' neg ((fmtOf t).flush ftz ((fmtOf t).roundMag neg rnd m e)) := by
  simp only [Fmt.round, (agrees ht).maxMag, if_pos fits]

/-- Beyond the largest finite value, where the mode rounds away from zero. -/
theorem round_away (past : (layout t).top < (fmtOf t).roundMag neg rnd m e) (away : overflowsAway rnd neg = true) :
    (fmtOf t).round rnd sat ftz (.num neg m e) = pastPattern t sat neg := by
  rw [← round_inf ht (rnd := rnd) sat ftz neg]
  simp only [Fmt.round, (agrees ht).maxMag, if_neg past.not_ge]
  rw [overflowsAway] at away
  simp only [away, if_true]

/-- Beyond the largest finite value, where the mode rounds toward zero. -/
theorem round_back (past : (layout t).top < (fmtOf t).roundMag neg rnd m e) (back : overflowsAway rnd neg = false)
    (nearest : 14 ≤ t → rnd = 0) : (fmtOf t).round rnd sat ftz (.num neg m e) = (fmtOf t).mk' neg (layout t).top := by
  have ieee : t ≠ 14 := by
    rintro rfl
    simp [overflowsAway, nearest le_rfl] at back
  rw [overflowsAway] at back
  simp only [Fmt.round, (agrees ht).maxMag, if_neg past.not_ge, e4m3_eq ht, decide_eq_true_eq, if_neg ieee, back, Bool.false_eq_true, if_false,
    ite_self]

end

/-- A flushed magnitude with its sign, as the statements write it. -/
theorem mk'_flush (neg : Bool) {r : Nat} (h : r ≤ (layout t).top) : (fmtOf t).mk' neg ((fmtOf t).flush ftz r) =
    if ftz && (fmtOf t).mk' neg r % (layout t).sign < 2 ^ (layout t).mb then (fmtOf t).mk' neg r / (layout t).sign * (layout t).sign
      else (fmtOf t).mk' neg r := by
  have A := agrees ht
  have lt : r < (layout t).sign := by have := A.top_lt; omega
  obtain ⟨mag, -⟩ := mk'_parts A neg lt
  rw [mag, Fmt.flush, A.mb]
  split
  · rw [mk'_eq ht, mk'_eq ht]
    have pos := sign_pos (layout t)
    cases neg <;> simp [Nat.div_eq_of_lt lt, Nat.add_div_left _ pos]
  · rfl

/-- Rounding an exact value gives what the format holds of it. -/
theorem round_yields (nearest : 14 ≤ t → rnd = 0) {x : FV} {y : Exact} (h : Denotes (layout t).low x y) (hr : rnd < 4) :
    Yields t rnd sat ftz y ((fmtOf t).round rnd sat ftz x) := by
  have A := agrees ht
  cases h with
  | nan => exact round_nan ht sat ftz
  | inf neg => exact round_inf ht sat ftz neg
  | zero neg e => exact round_zero ht sat ftz neg e
  | @quot neg m e n d hd hn value =>
    obtain ⟨-, -, some, rfl, number⟩ := Denotes.parts (.quot hd hn value)
    obtain ⟨c, rounded⟩ := roundMag_roundedAt A (decide (n < 0)) rnd some e hd number
    have overflows := rounded.overflows_iff hr hd
    refine ⟨fun beyond => ?_, fun within => ?_⟩
    · obtain ⟨past, away⟩ := overflows.mp beyond
      exact round_away ht sat ftz past away
    · rcases Nat.lt_or_ge (layout t).top ((fmtOf t).roundMag (decide (n < 0)) rnd m e) with past | fits
      · have back : overflowsAway rnd (decide (n < 0)) = false := by
          rw [← Bool.not_eq_true]
          exact fun away => within (overflows.mpr ⟨past, away⟩)
        refine ⟨_, rounded.rounds_top A hr past back, ?_⟩
        rw [round_back ht sat ftz past back nearest, ← mk'_flush ht ftz _ le_rfl, Fmt.flush, A.mb, if_neg]
        simp [A.normal]
      · exact ⟨_, rounded.rounds A fits, (round_fits ht sat ftz fits).trans (mk'_flush ht ftz _ fits)⟩

/-- A number that a magnitude code stands for rounds to that code. -/
theorem roundMag_units {neg : Bool} {m k : Nat} {e : Int} (h : (m : ℚ) * 2 ^ e * 2 ^ (layout t).low = (layout t).units k) :
    (fmtOf t).roundMag neg rnd m e = k := by
  rcases Nat.eq_zero_or_pos m with rfl | pos
  · have none : (layout t).units k = (layout t).units 0 := by
      rw [units_zero]
      have : ((layout t).units k : ℚ) = 0 := by simpa using h.symm
      exact_mod_cast this
    rw [Fmt.roundMag, if_pos rfl, (units_strictMono _).injective none]
  · have number : (((layout t).units k : Nat) : ℚ) = m * 2 ^ (e + (layout t).low) * (1 : Nat) := by
      rw [zpow_add₀ (by norm_num), zpow_natCast, ← h]
      push_cast
      ring
    obtain ⟨c, rounded⟩ := roundMag_roundedAt (agrees ht) neg rnd pos.ne' e one_pos number
    simp only [mul_one] at rounded
    exact rounded.exact (units_strictMono _) rfl

/-- Every rounded pattern lies in the format's bits. -/
theorem round_lt (x : FV) : (fmtOf t).round rnd sat ftz x < 2 * (layout t).sign := by
  have A := agrees ht
  have top_lt := A.top_lt
  have nan_lt := A.nan_lt
  have coded : ∀ (neg : Bool) (r : Nat), r < (layout t).sign → (fmtOf t).mk' neg r < 2 * (layout t).sign := fun neg r h => by
    obtain ⟨-, -, bound, -⟩ := mk'_parts A neg h
    exact bound
  have infinite : ∀ neg, pastPattern t sat neg < 2 * (layout t).sign := fun neg => by
    unfold pastPattern
    cases neg <;> simp only [Bool.false_eq_true, if_false, if_true] <;> split_ifs <;> omega
  cases x with
  | nan => rw [round_nan ht]; omega
  | inf neg => rw [round_inf ht]; exact infinite neg
  | num neg m e =>
    by_cases fits : (fmtOf t).roundMag neg rnd m e ≤ (layout t).top
    · rw [round_fits ht sat ftz fits]
      refine coded neg _ (lt_of_le_of_lt ?_ (by omega : (layout t).top < _))
      rw [Fmt.flush]
      split <;> omega
    · have infinity := infinite neg
      rw [← round_inf ht (rnd := rnd) sat ftz neg] at infinity
      simp only [Fmt.round, A.maxMag, if_neg fits] at infinity ⊢
      have largest := coded neg (layout t).top (by omega)
      split_ifs at infinity ⊢ <;> assumption

end
end Sys2Proof.Claims
end

section
/-! SUPPORT. Patterns as numbers (06 R125, R126, R131), and exact sums and products (06 R130; 16 R369, R373, R376). -/

namespace Sys2Proof.Claims
open Sys2Proof.Machine

/-! ### Patterns -/

/-- The significand and the exponent that a finite magnitude code holds. -/
def codeSignificand (L : Layout) (c : Nat) : Nat := if c < 2 ^ L.mb then c else 2 ^ L.mb + c % 2 ^ L.mb
def codeExponent (L : Layout) (c : Nat) : Int := (if c < 2 ^ L.mb then 1 else (c / 2 ^ L.mb : Nat)) - L.bias - L.mb

theorem code_units (L : Layout) (hb : 1 ≤ L.bias) (c : Nat) :
    (codeSignificand L c : ℚ) * 2 ^ codeExponent L c * 2 ^ L.low = L.units c := by
  have steps : ∀ k : Int, (2 : ℚ) ^ (k - L.bias - L.mb) * 2 ^ L.low = 2 ^ (k - 1) := fun k => by
    rw [← zpow_natCast, ← zpow_add₀ (by norm_num), Layout.low]
    congr 1
    omega
  rw [codeExponent, mul_assoc, steps, codeSignificand, Layout.units]
  by_cases sub : c < 2 ^ L.mb
  · simp [sub, Nat.div_eq_of_lt sub]
  · have pos : 1 ≤ c / 2 ^ L.mb := (Nat.one_le_div_iff (by positivity)).mpr (not_lt.mp sub)
    obtain ⟨k, hk⟩ := Nat.exists_eq_add_of_le pos
    have exponent : ((1 + k : Nat) : Int) - 1 = k := by omega
    rw [if_neg sub, if_neg sub, hk, exponent, zpow_natCast, if_neg (by omega), Nat.add_sub_cancel_left]
    push_cast
    rfl

section
variable {t : Nat} (ht : t ∈ floatTypes) (ftz : Bool) (x : Nat)
include ht

omit ht in
theorem sign_eq (t : Nat) : (layout t).sign = 2 ^ (layout t).mb * 2 ^ (layout t).eb := by rw [Layout.sign, add_comm, pow_add]

/-- The exponent field of a pattern is that of its magnitude code. -/
theorem exponentBits : bitsN x ((fmtOf t).eb + (fmtOf t).mb - 1) (fmtOf t).mb = x % (layout t).sign / 2 ^ (layout t).mb := by
  have A := agrees ht
  have ebPos := A.eb_pos
  rw [bitsN, sign_eq, Nat.mod_mul_right_div_self, A.mb, A.eb]
  congr 2
  omega

theorem fractionBits : x % 2 ^ (fmtOf t).mb = x % (layout t).sign % 2 ^ (layout t).mb := by
  rw [(agrees ht).mb, sign_eq, Nat.mod_mod_of_dvd _ (Dvd.intro _ rfl)]

theorem signBit : bitN x ((fmtOf t).eb + (fmtOf t).mb) = (x / (layout t).sign % 2 == 1) := by
  rw [bitN, (agrees ht).mb, (agrees ht).eb, Layout.sign]

/-- A finite magnitude code, by its exponent field. -/
theorem dec_finite (neg : Bool) (c : Nat) :
    (if c / 2 ^ (layout t).mb == 0 then
      FV.num neg (if ftz then 0 else c % 2 ^ (layout t).mb) (1 - (fmtOf t).bias - (fmtOf t).mb)
      else .num neg (2 ^ (fmtOf t).mb + c % 2 ^ (layout t).mb) ((c / 2 ^ (layout t).mb : Nat) - (fmtOf t).bias - (fmtOf t).mb)) =
    .num neg (if ftz && decide (c < 2 ^ (layout t).mb) then 0 else codeSignificand (layout t) c) (codeExponent (layout t) c) := by
  have pos : 0 < 2 ^ (layout t).mb := by positivity
  have sub : c / 2 ^ (layout t).mb = 0 ↔ c < 2 ^ (layout t).mb := by rw [Nat.div_eq_zero_iff]; omega
  simp only [beq_iff_eq, sub, codeSignificand, codeExponent, (agrees ht).bias, (agrees ht).mb]
  by_cases low : c < 2 ^ (layout t).mb
  · simp [low, Nat.mod_eq_of_lt low]
  · simp [low]

/-- Beyond the largest finite code the exponent field is all ones, but in .e4m3. -/
theorem exponent_top (other : t ≠ 14) {c : Nat} (bound : c < (layout t).sign) :
    c / 2 ^ (layout t).mb = 2 ^ (fmtOf t).eb - 1 ↔ ¬ c ≤ (layout t).top := by
  have A := agrees ht
  obtain ⟨-, top⟩ := A.ieee (by rw [e4m3_eq ht]; exact decide_eq_false other)
  have pos : 0 < 2 ^ (layout t).mb := by positivity
  rw [sign_eq] at bound
  have below : c / 2 ^ (layout t).mb < 2 ^ (layout t).eb := Nat.div_lt_of_lt_mul bound
  rw [not_le, ← Nat.succ_le_iff, Nat.succ_eq_add_one, top, ← Nat.le_div_iff_mul_le pos, A.eb]
  omega

/-- The infinity is the code after the largest finite one. -/
theorem infinity_code (other : t ≠ 14) {c : Nat} (beyond : c / 2 ^ (layout t).mb = 2 ^ (fmtOf t).eb - 1) :
    c % 2 ^ (layout t).mb = 0 ↔ c = (layout t).top + 1 := by
  have A := agrees ht
  obtain ⟨-, top⟩ := A.ieee (by rw [e4m3_eq ht]; exact decide_eq_false other)
  have parts := Nat.div_add_mod' c (2 ^ (layout t).mb)
  rw [beyond, A.eb, ← top] at parts
  omega

/-- A pattern's parts as the model reads them, in terms of its sign and its magnitude code. -/
theorem dec_eq : (fmtOf t).dec ftz x =
    let L := layout t
    let c := x % L.sign
    let neg := x / L.sign % 2 == 1
    if c ≤ L.top then .num neg (if ftz && decide (c < 2 ^ L.mb) then 0 else codeSignificand L c) (codeExponent L c)
    else if t ≠ 14 ∧ c = L.top + 1 then .inf neg else .nan := by
  have bound := Nat.mod_lt x (sign_pos (layout t))
  simp only [Fmt.dec, exponentBits ht, fractionBits ht, signBit ht]
  generalize hc : x % (layout t).sign = c at bound ⊢
  by_cases e4m3 : t = 14
  · obtain ⟨width, top⟩ := (agrees ht).e4m3 (by rw [e4m3_eq ht]; exact decide_eq_true e4m3)
    have code : x % 128 = c := by rw [← width, hc]
    have special : (decide (t = 14) && c == 127) = decide (¬ c ≤ (layout t).top) := by
      rw [decide_eq_true e4m3, Bool.true_and, beq_eq_decide]
      exact decide_eq_decide.mpr (by omega)
    rw [e4m3_eq ht, code, special]
    by_cases fits : c ≤ (layout t).top
    · rw [if_neg (by simpa using fits), if_neg (by simp [e4m3]), if_pos fits]
      exact dec_finite ht ftz _ _
    · rw [if_pos (by simpa using fits), if_neg fits, if_neg (by simp [e4m3])]
  · have special := exponent_top ht e4m3 bound
    rw [e4m3_eq ht, decide_eq_false e4m3]
    by_cases fits : c ≤ (layout t).top
    · rw [if_neg (by simp), if_neg (by simpa using special.not.mpr (not_not.mpr fits)), if_pos fits]
      exact dec_finite ht ftz _ _
    · rw [if_neg (by simp), if_pos (by simpa using special.mpr fits), if_neg fits]
      simp [infinity_code ht e4m3 (special.mpr fits), e4m3]

/-- The model reads what a pattern stands for. -/
theorem dec_stands : Stands (layout t).low ((fmtOf t).dec ftz x) (readNum t ftz x) := by
  rw [dec_eq ht, readNum]
  simp only
  split
  · next fits =>
    by_cases flush : ftz && decide (x % (layout t).sign < 2 ^ (layout t).mb)
    · rw [if_pos flush, if_pos flush]
      exact .num (by simp)
    · rw [if_neg flush, if_neg flush]
      exact .num (code_units _ (agrees ht).bias_pos _)
  · split
    · exact .inf _
    · exact .nan

end

/-! ### Sums and products -/

theorem scaled_value (neg : Bool) (m : Nat) {e q : Int} (h : q ≤ e) : (scaled neg m e q : ℚ) * 2 ^ q = signedValue neg m e := by
  have exponent : (2 : ℚ) ^ e = 2 ^ (e - q).toNat * 2 ^ q := by
    rw [← zpow_natCast, ← zpow_add₀ (by norm_num)]
    congr 1
    omega
  simp only [scaled, signedValue, exponent]
  cases neg <;> simp <;> ring

theorem signedValue_int (x : Int) (q : Int) : signedValue (decide (x < 0)) x.natAbs q = x * 2 ^ q := by
  rw [signedValue, Nat.cast_natAbs, Int.cast_abs]
  by_cases neg : x < 0
  · have : (x : ℚ) < 0 := by exact_mod_cast neg
    simp [neg, abs_of_neg this]
  · have : (0 : ℚ) ≤ x := by exact_mod_cast not_lt.mp neg
    simp [neg, abs_of_nonneg this]

theorem signedValue_eq_zero {neg : Bool} {m : Nat} {e : Int} : signedValue neg m e = 0 ↔ m = 0 := by
  have : (2 : ℚ) ^ e ≠ 0 := by positivity
  cases neg <;> simp [signedValue, this]

/-- Two numbers of one sign whose sum is zero are zeros. -/
theorem zeros_of_sum_eq_zero {neg : Bool} {m k : Nat} {e g : Int} (h : signedValue neg m e + signedValue neg k g = 0) : m = 0 ∧ k = 0 := by
  have left : (0 : ℚ) ≤ m * 2 ^ e := by positivity
  have right : (0 : ℚ) ≤ k * 2 ^ g := by positivity
  have both : (m : ℚ) * 2 ^ e + k * 2 ^ g = 0 := by
    cases neg <;> simp only [signedValue, Bool.false_eq_true, if_false, if_true] at h <;> linarith
  have hm : (m : ℚ) * 2 ^ e = 0 := by linarith
  have hk : (k : ℚ) * 2 ^ g = 0 := by linarith
  have he : (2 : ℚ) ^ e ≠ 0 := by positivity
  have hg : (2 : ℚ) ^ g ≠ 0 := by positivity
  simpa [he, hg] using And.intro hm hk

/-- The exact sum of two finite values, and the sign of a zero sum (16 R369). -/
theorem add_num (rnd : Nat) (na : Bool) (ma : Nat) (ea : Int) (nb : Bool) (mb : Nat) (eb : Int) : ∃ s m e,
    FV.add rnd (.num na ma ea) (.num nb mb eb) = .num s m e ∧ signedValue s m e = signedValue na ma ea + signedValue nb mb eb ∧
      (m = 0 → s = if na = nb then na else rnd == 2) := by
  simp only [FV.add, beq_iff_eq, Bool.and_eq_true]
  by_cases noA : ma = 0
  · by_cases noB : mb = 0
    · exact ⟨if na = nb then na else rnd == 2, 0, 0, by simp [noA, noB], by simp [signedValue, noA, noB], fun _ => rfl⟩
    · exact ⟨nb, mb, eb, by simp [noA, noB], by simp [signedValue, noA], by simp [noB]⟩
  · by_cases noB : mb = 0
    · exact ⟨na, ma, ea, by simp [noA, noB], by simp [signedValue, noB], by simp [noA]⟩
    · have sum : ((scaled na ma ea (min ea eb) + scaled nb mb eb (min ea eb) : Int) : ℚ) * 2 ^ min ea eb =
          signedValue na ma ea + signedValue nb mb eb := by
        push_cast
        rw [add_mul, scaled_value _ _ (min_le_left _ _), scaled_value _ _ (min_le_right _ _)]
      rw [← sum]
      generalize scaled na ma ea (min ea eb) + scaled nb mb eb (min ea eb) = x at sum ⊢
      by_cases none : x = 0
      · have opposite : na ≠ nb := by
          rintro rfl
          rw [none, Int.cast_zero, zero_mul] at sum
          exact noA (zeros_of_sum_eq_zero sum.symm).1
        exact ⟨rnd == 2, 0, 0, by simp [noA, noB, none], by simp [signedValue, none], fun _ => (if_neg opposite).symm⟩
      · exact ⟨decide (x < 0), x.natAbs, min ea eb, by simp [noA, noB, none], signedValue_int x _, by simp [none]⟩

theorem signed_cast (neg : Bool) (u : Nat) : ((signed neg u : Int) : ℚ) = (if neg then -1 else 1) * u := by
  cases neg <;> simp [signed]

theorem Stands.value {low : Nat} {neg b : Bool} {m u : Nat} {e : Int} (h : Stands low (.num neg m e) (.num b u)) :
    neg = b ∧ signedValue neg m e * 2 ^ low = signed neg u ∧ (m = 0 ↔ u = 0) := by
  cases h with | num value =>
  refine ⟨rfl, ?_, ?_⟩
  · rw [signedValue, signed_cast, ← value]
    ring
  · have : (2 : ℚ) ^ e ≠ 0 := by positivity
    rw [← Nat.cast_inj (R := ℚ), ← Nat.cast_inj (R := ℚ) (n := 0), ← value]
    simp [this]

/-- The sum of two numbers of a format. -/
theorem add_denotes {low rnd : Nat} {x y : FV} {X Y : Num} (hx : Stands low x X) (hy : Stands low y Y) :
    Denotes low (FV.add rnd x y) (sumOf rnd X Y) := by
  cases hx with
  | nan => exact .nan
  | inf a =>
    cases hy with
    | nan => exact .nan
    | inf b => cases a <;> cases b <;> first | exact .nan | exact .inf _
    | num _ => exact .inf a
  | @num a m u e value =>
    cases hy with
    | nan => exact .nan
    | inf b => exact .inf b
    | @num b k w g value' =>
      obtain ⟨s, n, q, sum, total, zero⟩ := add_num rnd a m e b k g
      obtain ⟨-, left, noLeft⟩ := (Stands.num (neg := a) value).value
      obtain ⟨-, right, noRight⟩ := (Stands.num (neg := b) value').value
      rw [sum]
      refine .of one_pos ?_ zero
      rw [total, add_mul, left, right]
      push_cast
      simp

theorem mul_num (na : Bool) (ma : Nat) (ea : Int) (nb : Bool) (mb : Nat) (eb : Int) :
    signedValue (na != nb) (ma * mb) (ea + eb) = signedValue na ma ea * signedValue nb mb eb := by
  simp only [signedValue, zpow_add₀ (by norm_num : (2 : ℚ) ≠ 0)]
  cases na <;> cases nb <;> simp <;> ring

/-- The product of two numbers of a format. -/
theorem mul_denotes {low : Nat} {x y : FV} {X Y : Num} (hx : Stands low x X) (hy : Stands low y Y) :
    Denotes low (FV.mul x y) (productOf low X Y) := by
  cases hx with
  | nan => exact .nan
  | inf a =>
    cases hy with
    | nan => exact .nan
    | inf b => exact .inf _
    | @num b k w g value =>
      obtain ⟨-, -, none⟩ := (Stands.num (neg := b) value).value
      simp only [FV.mul, productOf, beq_iff_eq, none]
      split
      · exact .nan
      · exact .inf _
  | @num a m u e value =>
    obtain ⟨-, left, noLeft⟩ := (Stands.num (neg := a) value).value
    cases hy with
    | nan => exact .nan
    | inf b =>
      simp only [FV.mul, productOf, beq_iff_eq, noLeft]
      split
      · exact .nan
      · exact .inf _
    | @num b k w g value' =>
      obtain ⟨-, right, -⟩ := (Stands.num (neg := b) value').value
      refine .of (by positivity) ?_ fun _ => rfl
      rw [mul_num, signed_cast]
      rw [signed_cast] at left right
      have pos : (2 : ℚ) ^ low ≠ 0 := by positivity
      rw [eq_div_iff (by exact_mod_cast pos)]
      push_cast
      calc signedValue a m e * signedValue b k g * 2 ^ low * 2 ^ low
          = (signedValue a m e * 2 ^ low) * (signedValue b k g * 2 ^ low) := by ring
        _ = (if (a != b) = true then -1 else 1) * (u * w) := by
          rw [left, right]
          cases a <;> cases b <;> simp

/-- A product and a third number added, before the one rounding (16 R373). -/
theorem fused_denotes {low rnd : Nat} {p z : FV} {X Y Z : Num} (hp : Denotes low p (productOf low X Y)) (hz : Stands low z Z) :
    Denotes low (FV.add rnd p z) (fusedOf low rnd X Y Z) := by
  unfold fusedOf
  generalize productOf low X Y = P at hp
  cases hz with
  | nan => cases hp <;> exact .nan
  | inf b =>
    cases hp with
    | nan => exact .nan
    | inf a => cases a <;> cases b <;> first | exact .nan | exact .inf _
    | zero a e => exact .inf b
    | quot hd hn value => exact .inf b
  | @num b k w g value =>
    obtain ⟨-, right, noRight⟩ := (Stands.num (neg := b) value).value
    cases hp with
    | nan => exact .nan
    | inf a => exact .inf a
    | zero a e =>
      obtain ⟨s, n, q, sum, total, zero⟩ := add_num rnd a 0 e b k g
      rw [sum]
      refine .of one_pos ?_ zero
      rw [total, add_mul, right]
      simp [signedValue]
    | @quot a m e n d hd hn product =>
      obtain ⟨-, -, some, -⟩ := Denotes.parts (.quot hd hn product)
      obtain ⟨s, l, q, sum, total, zero⟩ := add_num rnd a m e b k g
      rw [sum]
      refine .of hd ?_ fun none => (zero none).trans (if_neg ?_)
      · have pos : (d : ℚ) ≠ 0 := by exact_mod_cast hd.ne'
        rw [total, add_mul, right, product]
        push_cast
        field_simp
      · rintro rfl
        rw [none] at total
        exact some (zeros_of_sum_eq_zero (total.symm.trans (by simp [signedValue]))).1

end Sys2Proof.Claims
end

section
/-! SUPPORT. The floating lane operations on patterns: one element, its order, its rounding to itself (06 R130 to R132; 16 R369 to R376). -/

namespace Sys2Proof.Claims
open Sys2Proof.Machine

/-! ### Patterns under .ftz -/

theorem flushed_parts (L : Layout) (z : Bool) (x : Nat) : flushed L z x < 2 * L.sign ∧ flushed L z x / L.sign % 2 = x / L.sign % 2 ∧
    flushed L z x % L.sign = if z && decide (x % L.sign < 2 ^ L.mb) then 0 else x % L.sign := by
  have pos := sign_pos L
  have bit : x / L.sign % 2 < 2 := Nat.mod_lt _ (by decide)
  unfold flushed
  split
  · refine ⟨?_, ?_, ?_⟩
    · have := Nat.mul_lt_mul_of_pos_right bit pos
      omega
    · rw [Nat.mul_div_cancel _ pos, Nat.mod_eq_of_lt bit]
    · rw [Nat.mul_mod_left]
  · refine ⟨Nat.mod_lt _ (by omega), ?_, ?_⟩
    · rw [mul_comm 2, Nat.mod_mul_right_div_self, Nat.mod_mod]
    · rw [Nat.mod_mod_of_dvd _ (Dvd.intro_left 2 rfl)]

/-- A pattern is its sign and its code. -/
theorem pattern_eq (L : Layout) {p : Nat} (h : p < 2 * L.sign) : p = (if p / L.sign % 2 == 1 then L.sign else 0) + p % L.sign := by
  have parts := Nat.div_add_mod p L.sign
  have bit : p / L.sign < 2 := Nat.div_lt_of_lt_mul (by omega)
  interval_cases hq : p / L.sign <;> simp_all

section
variable {t : Nat} (ht : t ∈ floatTypes)
include ht

/-- A pattern is read like its flushed form. -/
theorem dec_flushed (z : Bool) (x : Nat) : (fmtOf t).dec z x = (fmtOf t).dec false (flushed (layout t) z x) := by
  obtain ⟨-, sign, code⟩ := flushed_parts (layout t) z x
  have normal := (agrees ht).normal
  have pos : 0 < 2 ^ (layout t).mb := by positivity
  by_cases flush : (z && decide (x % (layout t).sign < 2 ^ (layout t).mb)) = true
  · rw [if_pos flush] at code
    have low : x % (layout t).sign < 2 ^ (layout t).mb := by simp at flush; exact flush.2
    have fits : x % (layout t).sign ≤ (layout t).top := by omega
    simp only [dec_eq ht, sign, code, if_pos flush, if_pos fits, Nat.zero_le, if_true, Bool.false_and, Bool.false_eq_true, if_false,
      codeSignificand, codeExponent, if_pos pos, if_pos low]
  · rw [if_neg flush] at code
    simp only [dec_eq ht, sign, code, if_neg flush, Bool.false_and, Bool.false_eq_true, if_false]

theorem dec_mod (z : Bool) (x : Nat) : (fmtOf t).dec z (x % 2 ^ (fmtOf t).bits) = (fmtOf t).dec z x := by
  have A := agrees ht
  have bits : 2 ^ (fmtOf t).bits = (layout t).sign * 2 := by rw [Fmt.bits, A.eb, A.mb, Layout.sign, pow_succ]
  simp only [dec_eq ht, bits, Nat.mod_mul_right_div_self, Nat.mod_mod, Nat.mod_mod_of_dvd x (Dvd.intro 2 rfl : (layout t).sign ∣ _)]

/-- A number rounds to its own pattern (06 R134). -/
theorem round_dec (rnd : Nat) (z : Bool) {x : Nat} (number : (fmtOf t).dec z x ≠ .nan) :
    (fmtOf t).round rnd false z ((fmtOf t).dec z x) = flushed (layout t) z x := by
  have A := agrees ht
  obtain ⟨bound, -, code⟩ := flushed_parts (layout t) z x
  rw [dec_flushed ht] at number ⊢
  have whole := pattern_eq _ bound
  simp only [dec_eq ht, Bool.false_and, Bool.false_eq_true, if_false] at number ⊢
  generalize flushed (layout t) z x = p at *
  split
  · next fits =>
    have mag := roundMag_units ht (rnd := rnd) (neg := p / (layout t).sign % 2 == 1) (code_units _ A.bias_pos (p % (layout t).sign))
    rw [round_fits ht false z (mag.symm ▸ fits), mag, mk'_eq ht, Fmt.flush, A.mb]
    have kept : (if z && decide (p % (layout t).sign < 2 ^ (layout t).mb) then 0 else p % (layout t).sign) = p % (layout t).sign := by
      refine ite_eq_right_iff.mpr fun low => ?_
      split at code
      · exact code.symm
      · next kept => exact absurd (code ▸ low) kept
    rw [kept, ← whole]
  · next past =>
    rw [if_neg past] at number
    split
    · next inf => rw [round_inf ht, pastPattern, if_neg (by simp), if_neg inf.1, add_assoc, ← inf.2, ← whole]
    · next none => exact absurd (if_neg none) number


/-- A code beyond the infinities' is a NaN. -/
theorem dec_nan_iff (ieee : t ≠ 14) (z : Bool) (x : Nat) : (fmtOf t).dec z x = .nan ↔ isNaN (layout t) (flushed (layout t) z x) = true := by
  rw [dec_flushed ht, dec_eq ht, isNaN]
  simp only [decide_eq_true_eq]
  split
  · simp; omega
  · split
    · simp; omega
    · simp; omega

end

/-! ### Order -/

theorem lt_num {low : Nat} {a b : Bool} {m u k w : Nat} {e g : Int} (hx : Stands low (.num a m e) (.num a u))
    (hy : Stands low (.num b k g) (.num b w)) :
    (FV.lt (.num a m e) (.num b k g) = true ↔ signed a u < signed b w) ∧ (FV.eq (.num a m e) (.num b k g) = true ↔ signed a u = signed b w) := by
  obtain ⟨-, left, -⟩ := hx.value
  obtain ⟨-, right, -⟩ := hy.value
  have step : (0 : ℚ) < 2 ^ min e g := by positivity
  have unit : (0 : ℚ) < 2 ^ low := by positivity
  rw [← scaled_value a m (min_le_left e g)] at left
  rw [← scaled_value b k (min_le_right e g)] at right
  simp only [FV.lt, FV.eq, decide_eq_true_eq, beq_iff_eq]
  constructor
  · rw [← Int.cast_lt (R := ℚ), ← Int.cast_lt (R := ℚ) (m := signed a u), ← left, ← right, mul_lt_mul_iff_left₀ unit, mul_lt_mul_iff_left₀ step]
  · rw [← Int.cast_inj (α := ℚ), ← Int.cast_inj (α := ℚ) (m := signed a u), ← left, ← right, mul_left_inj' unit.ne', mul_left_inj' step.ne']

/-- Units with signs are in the order of codes with signs. -/
theorem signed_units_order (L : Layout) (a b : Bool) (c k : Nat) :
    (signed a (L.units c) < signed b (L.units k) ↔ signed a c < signed b k) ∧
      (signed a (L.units c) = signed b (L.units k) ↔ signed a c = signed b k) := by
  have mono := units_strictMono L
  have less := mono.lt_iff_lt (a := c) (b := k)
  have more := mono.lt_iff_lt (a := k) (b := c)
  have posC := mono.lt_iff_lt (a := 0) (b := c)
  have posK := mono.lt_iff_lt (a := 0) (b := k)
  rw [units_zero] at posC posK
  cases a <;> cases b <;> simp only [signed, Bool.false_eq_true, if_false, if_true] <;> omega

theorem valueKey_eq (L : Layout) (p : Nat) : valueKey L p = signed (p / L.sign % 2 == 1) (p % L.sign) := by
  simp [valueKey, signed]

section
variable {t : Nat} (ht : t ∈ floatTypes) (ieee : t ≠ 14)
include ht ieee

/-- A pattern that is no NaN is finite or an infinity. -/
theorem dec_number {p : Nat} (h : isNaN (layout t) p = false) :
    (p % (layout t).sign ≤ (layout t).top ∧ Stands (layout t).low ((fmtOf t).dec false p)
      (.num (p / (layout t).sign % 2 == 1) ((layout t).units (p % (layout t).sign))) ∧
      ∃ m e, (fmtOf t).dec false p = .num (p / (layout t).sign % 2 == 1) m e) ∨
    (p % (layout t).sign = (layout t).top + 1 ∧ (fmtOf t).dec false p = .inf (p / (layout t).sign % 2 == 1)) := by
  have stands := dec_stands ht false p
  rw [isNaN, decide_eq_false_iff_not] at h
  rcases Nat.lt_or_ge (layout t).top (p % (layout t).sign) with past | fits
  · right
    have code : p % (layout t).sign = (layout t).top + 1 := by omega
    rw [dec_eq ht]
    simp [code, ieee]
  · left
    rw [readNum] at stands
    simp only [if_pos fits, Bool.false_and, Bool.false_eq_true, if_false] at stands
    exact ⟨fits, stands, by rw [dec_eq ht]; simp [fits]⟩

/-- The order of the model's values is the order of codes with equal zeros. -/
theorem dec_order {p q : Nat} (hp : isNaN (layout t) p = false) (hq : isNaN (layout t) q = false) :
    (FV.lt ((fmtOf t).dec false p) ((fmtOf t).dec false q) = true ↔ valueKey (layout t) p < valueKey (layout t) q) ∧
      (FV.eq ((fmtOf t).dec false p) ((fmtOf t).dec false q) = true ↔ valueKey (layout t) p = valueKey (layout t) q) := by
  rw [valueKey_eq, valueKey_eq]
  rcases dec_number ht ieee hp with ⟨fits, stands, m, e, left⟩ | ⟨code, left⟩
  · rcases dec_number ht ieee hq with ⟨fits', stands', k, g, right⟩ | ⟨code', right⟩
    · rw [left] at stands
      rw [right] at stands'
      rw [left, right]
      obtain ⟨less, equal⟩ := lt_num stands stands'
      obtain ⟨less', equal'⟩ := signed_units_order (layout t) (p / (layout t).sign % 2 == 1) (q / (layout t).sign % 2 == 1) (p % (layout t).sign)
        (q % (layout t).sign)
      exact ⟨less.trans less', equal.trans equal'⟩
    · rw [left, right, code']
      generalize (p / (layout t).sign % 2 == 1) = a
      cases a <;> cases hb : (q / (layout t).sign % 2 == 1) <;> simp [FV.lt, FV.eq, signed] <;> omega
  · rcases dec_number ht ieee hq with ⟨fits', stands', k, g, right⟩ | ⟨code', right⟩
    · rw [left, right, code]
      generalize (p / (layout t).sign % 2 == 1) = a
      cases a <;> cases hb : (q / (layout t).sign % 2 == 1) <;> simp [FV.lt, FV.eq, signed] <;> omega
    · rw [left, right, code, code']
      generalize (p / (layout t).sign % 2 == 1) = a
      cases a <;> cases hb : (q / (layout t).sign % 2 == 1) <;> simp [FV.lt, FV.eq, signed] <;> omega

theorem dec_neg {p : Nat} (h : isNaN (layout t) p = false) : FV.neg ((fmtOf t).dec false p) = (p / (layout t).sign % 2 == 1) := by
  rcases dec_number ht ieee h with ⟨-, -, m, e, number⟩ | ⟨-, infinity⟩
  · rw [number]; rfl
  · rw [infinity]; rfl

omit ht ieee in
/-- −0 comes before +0, and otherwise codes are in the order of their numbers. -/
theorem codeKey_eq (L : Layout) (p : Nat) : codeKey L p = valueKey L p - (if p / L.sign % 2 == 1 then 1 else 0) ∧
    (if p / L.sign % 2 == 1 then valueKey L p ≤ 0 else 0 ≤ valueKey L p) := by
  unfold codeKey valueKey
  generalize p % L.sign = c
  by_cases neg : p / L.sign % 2 = 1 <;> simp [neg]

omit ht ieee in
theorem codeKey_inj (L : Layout) {p q : Nat} (bp : p < 2 * L.sign) (bq : q < 2 * L.sign) (h : codeKey L p = codeKey L q) : p = q := by
  rw [pattern_eq L bp, pattern_eq L bq]
  unfold codeKey at h
  by_cases neg : p / L.sign % 2 = 1 <;> by_cases neg' : q / L.sign % 2 = 1 <;> simp only [neg, neg', if_true, if_false] at h <;>
    simp [neg, neg'] <;> omega

omit ht ieee in
theorem least_self (x : FV) : FV.least x x = x ∧ FV.greatest x x = x := by
  constructor
  · unfold FV.least; split_ifs <;> rfl
  · unfold FV.greatest; split_ifs <;> rfl

/-- FMEX of numbers chooses by the order of codes, −0 before +0 (16 R375). -/
theorem least_dec {p q : Nat} (hp : isNaN (layout t) p = false) (hq : isNaN (layout t) q = false)
    (bp : p < 2 * (layout t).sign) (bq : q < 2 * (layout t).sign) :
    FV.least ((fmtOf t).dec false p) ((fmtOf t).dec false q) = (fmtOf t).dec false (if codeKey (layout t) p ≤ codeKey (layout t) q then p else q) ∧
    FV.greatest ((fmtOf t).dec false p) ((fmtOf t).dec false q) = (fmtOf t).dec false (if codeKey (layout t) p ≤ codeKey (layout t) q then q else p) := by
  have less := (dec_order ht ieee hp hq).1
  have more := (dec_order ht ieee hq hp).1
  have neg := dec_neg ht ieee hp
  have numP : FV.isNaN ((fmtOf t).dec false p) = false := by
    rcases dec_number ht ieee hp with ⟨-, -, m, e, number⟩ | ⟨-, infinity⟩ <;> simp [FV.isNaN, *]
  have numQ : FV.isNaN ((fmtOf t).dec false q) = false := by
    rcases dec_number ht ieee hq with ⟨-, -, m, e, number⟩ | ⟨-, infinity⟩ <;> simp [FV.isNaN, *]
  obtain ⟨keyP, sideP⟩ := codeKey_eq (layout t) p
  obtain ⟨keyQ, sideQ⟩ := codeKey_eq (layout t) q
  rcases lt_trichotomy (codeKey (layout t) p) (codeKey (layout t) q) with below | equal | above
  · have first : ¬ valueKey (layout t) q < valueKey (layout t) p ∧
        (valueKey (layout t) p < valueKey (layout t) q ∨ (p / (layout t).sign % 2 == 1) = true) := by
      split_ifs at * <;> simp [*] <;> omega
    rw [← less, ← more] at first
    simp only [FV.least, FV.greatest, numP, numQ, neg, below.le, if_true, Bool.false_eq_true, if_false]
    rcases first with ⟨notMore, lt | sign⟩
    · simp [lt, notMore]
    · simp [notMore, sign]
  · rw [codeKey_inj _ bp bq equal]
    simp [least_self]
  · have second : ¬ valueKey (layout t) p < valueKey (layout t) q ∧
        (valueKey (layout t) q < valueKey (layout t) p ∨ (p / (layout t).sign % 2 == 1) = false) := by
      split_ifs at * <;> simp [*] <;> omega
    rw [← less, ← more] at second
    simp only [FV.least, FV.greatest, numP, numQ, neg, not_le.mpr above, Bool.false_eq_true, if_false]
    rcases second with ⟨notLess, gt | sign⟩
    · simp [gt, notLess]
    · simp [notLess, sign]

end
end Sys2Proof.Claims
end

section
/-! SUPPORT. The values of the floating lane operations, of one element and of packed pairs (06 R130 to R133; 16 R369 to R376). -/

namespace Sys2Proof.Claims
open Sys2Proof.Machine

/-- The types of one element that the lane operations compute in. -/
def laneTypes : List Nat := [10, 11, 12, 13]

theorem laneTypes_float {t : Nat} (h : t ∈ laneTypes) : t ∈ floatTypes ∧ t ≠ 14 ∧ ¬ 14 ≤ t ∧ (t == 17 || t == 18) = false := by
  unfold laneTypes at h
  fin_cases h <;> decide

theorem ftzType_lane {t : Nat} (h : t ∈ laneTypes) {z : Bool} (hz : t = 13 → z = false) : (z && ftzType t) = z := by
  unfold laneTypes at h
  fin_cases h
  · exact Bool.and_true z
  · exact Bool.and_true z
  · exact Bool.and_true z
  · rw [hz rfl]; rfl

theorem pow_bits {t : Nat} (ht : t ∈ floatTypes) : 2 ^ (fmtOf t).bits = 2 * (layout t).sign := by
  rw [Fmt.bits, (agrees ht).eb, (agrees ht).mb, Layout.sign, pow_succ, mul_comm]

/-- A rounded pattern as a word of 64 bits. -/
theorem ofNat_round_toNat {t : Nat} (ht : t ∈ floatTypes) (rnd : Nat) (sat z : Bool) (x : FV) :
    (BitVec.ofNat 64 ((fmtOf t).round rnd sat z x)).toNat = (fmtOf t).round rnd sat z x := by
  rw [BitVec.toNat_ofNat, Nat.mod_eq_of_lt]
  calc (fmtOf t).round rnd sat z x < 2 * (layout t).sign := round_lt ht sat z x
    _ = 2 ^ (fmtOf t).bits := (pow_bits ht).symm
    _ ≤ 2 ^ 64 := Nat.pow_le_pow_right (by decide) (agrees ht).bits

/-- An element at bit `sh` of its operands. -/
theorem floatElem_eq {t : Nat} (ht : t ∈ floatTypes) (rnd : Nat) (z : Bool) (g : List FV → FV) (xs : List W64) (sh : Nat) :
    floatElem t rnd z g xs sh =
      (fmtOf t).round rnd false (z && ftzType t) (g (xs.map fun x => (fmtOf t).dec (z && ftzType t) (x.toNat / 2 ^ sh))) := by
  have width : sh + (fmtOf t).bits - 1 + 1 - sh = (fmtOf t).bits := by rw [Fmt.bits]; omega
  simp only [floatElem, bitsN, width, dec_mod ht]

theorem floatOp_toNat {t : Nat} (h : t ∈ laneTypes) (rnd : Nat) {z : Bool} (hz : t = 13 → z = false) (g : List FV → FV) (xs : List W64) :
    (floatOp t rnd z g xs).toNat = (fmtOf t).round rnd false z (g (xs.map fun x => (fmtOf t).dec z x.toNat)) := by
  obtain ⟨ht, -, -, single⟩ := laneTypes_float h
  simp only [floatOp, single, Bool.false_eq_true, if_false, add_zero, floatElem_eq ht, ftzType_lane h hz, pow_zero, Nat.div_one]
  exact ofNat_round_toNat ht ..

theorem negIf_stands {low : Nat} {x : FV} {X : Num} (h : Stands low x X) (b : Bool) : Stands low (negIf b x) (X.flip b) := by
  cases h with
  | nan => cases b <;> exact .nan
  | inf n => cases b <;> cases n <;> exact .inf _
  | num value => rename_i n m u e; cases b <;> cases n <;> exact .num value

theorem negIf_mul (b : Bool) (x y : FV) : negIf b (FV.mul x y) = FV.mul (negIf b x) y := by
  cases b
  · rfl
  · cases x <;> cases y <;> simp only [negIf, if_true, FV.mul, apply_ite FV.negate] <;> simp [FV.negate]

theorem modVar_lt (m : BitVec 8) : modVar m < 4 := (m.extractLsb' 0 2).isLt

section
variable {m : BitVec 8} (h : modType m ∈ laneTypes) (hz : modType m = 13 → modSF m = false) (a b : W64)
include h hz

theorem faddVal_yields (v : BitVec 2) : Yields (modType m) (modVar m) false (modSF m)
    (sumOf (modVar m) ((readNum (modType m) (modSF m) a.toNat).flip (v.getLsbD 1)) ((readNum (modType m) (modSF m) b.toNat).flip (v.getLsbD 0)))
    (faddVal v m a b).toNat := by
  obtain ⟨ht, -, wide, -⟩ := laneTypes_float h
  rw [faddVal, floatOp_toNat h _ hz]
  exact round_yields ht false _ (fun past => absurd past wide)
    (add_denotes (negIf_stands (dec_stands ht _ _) _) (negIf_stands (dec_stands ht _ _) _)) (modVar_lt m)

theorem fmulVal_yields (neg : Bool) : Yields (modType m) (modVar m) false (modSF m)
    (productOf (layout (modType m)).low ((readNum (modType m) (modSF m) a.toNat).flip neg) (readNum (modType m) (modSF m) b.toNat))
    (fmulVal neg m a b).toNat := by
  obtain ⟨ht, -, wide, -⟩ := laneTypes_float h
  rw [fmulVal, floatOp_toNat h _ hz]
  simp only [List.map_cons, List.map_nil, negIf_mul]
  exact round_yields ht false _ (fun past => absurd past wide)
    (mul_denotes (negIf_stands (dec_stands ht _ _) _) (dec_stands ht _ _)) (modVar_lt m)

theorem fmexVal_toNat : let f := layout (modType m)
    let p := flushed f (modSF m) a.toNat
    let q := flushed f (modSF m) b.toNat
    (fmexVal m a b).toNat = (if isNaN f p then (if isNaN f q then f.nan else q) else if isNaN f q then p
      else if modVar m = 0 then (if codeKey f p ≤ codeKey f q then p else q) else (if codeKey f p ≤ codeKey f q then q else p)) := by
  obtain ⟨ht, ieee, -, -⟩ := laneTypes_float h
  rw [fmexVal, floatOp_toNat h _ hz]
  simp only [List.map_cons, List.map_nil]
  have nanA := dec_nan_iff ht ieee (modSF m) a.toNat
  have nanB := dec_nan_iff ht ieee (modSF m) b.toNat
  have own : ∀ x : W64, isNaN (layout (modType m)) (flushed (layout (modType m)) (modSF m) x.toNat) = false →
      (fmtOf (modType m)).round 0 false (modSF m) ((fmtOf (modType m)).dec (modSF m) x.toNat) =
        flushed (layout (modType m)) (modSF m) x.toNat := fun x number =>
    round_dec ht 0 _ fun nan => by simp [(dec_nan_iff ht ieee _ _).mp nan] at number
  cases hp : isNaN (layout (modType m)) (flushed (layout (modType m)) (modSF m) a.toNat) with
  | true =>
    rw [nanA.mpr hp]
    have other : ∀ y, (if modVar m == 0 then FV.least .nan y else FV.greatest .nan y) = y := fun y => ite_self y
    rw [other]
    cases hq : isNaN (layout (modType m)) (flushed (layout (modType m)) (modSF m) b.toNat) with
    | true => rw [nanB.mpr hq]; exact round_nan ht false _
    | false => exact own b hq
  | false =>
    cases hq : isNaN (layout (modType m)) (flushed (layout (modType m)) (modSF m) b.toNat) with
    | true =>
      have other : ∀ x, (if modVar m == 0 then FV.least x .nan else FV.greatest x .nan) = x := fun x => by
        cases x <;> exact ite_self _
      rw [nanB.mpr hq, other]
      exact own a hp
    | false =>
      obtain ⟨least, greatest⟩ := least_dec ht ieee hp hq (flushed_parts ..).1 (flushed_parts ..).1
      have ownA := own a hp
      have ownB := own b hq
      rw [dec_flushed ht] at ownA ownB
      rw [dec_flushed ht (modSF m) a.toNat, dec_flushed ht (modSF m) b.toNat, least, greatest]
      simp only [beq_iff_eq, Bool.false_eq_true, if_false]
      split_ifs <;> assumption

end

/-- An operation that adds a third operand to a product, of any type of one element (16 R373). -/
theorem floatOp_fused_yields {t : Nat} (h : t ∈ laneTypes) {rnd : Nat} (hr : rnd < 4) {z : Bool} (hz : t = 13 → z = false) {g : List FV → FV}
    (hg : ∀ x y w, g [x, y, w] = FV.add rnd (FV.mul x y) w) (a b c : W64) :
    Yields t rnd false z (fusedOf (layout t).low rnd (readNum t z a.toNat) (readNum t z b.toNat) (readNum t z c.toNat))
      (floatOp t rnd z g [a, b, c]).toNat := by
  obtain ⟨ht, -, wide, -⟩ := laneTypes_float h
  rw [floatOp_toNat h _ hz, List.map_cons, List.map_cons, List.map_cons, List.map_nil, hg]
  exact round_yields ht false _ (fun past => absurd past wide)
    (fused_denotes (mul_denotes (dec_stands ht _ _) (dec_stands ht _ _)) (dec_stands ht _ _)) hr

/-- A comparison with a NaN. -/
theorem cmpFloat_unordered (cmp : Nat) {x y : FV} (h : x = .nan ∨ y = .nan) :
    cmpFloat cmp x y = match cmp with | 0 => false | 1 => true | 2 | 3 | 4 | 5 | 6 => false | _ => true := by
  rcases h with rfl | rfl
  · unfold cmpFloat
    split <;> cases y <;> simp_all [FV.lt, FV.eq, FV.isNaN]
  · unfold cmpFloat
    split <;> cases x <;> simp_all [FV.lt, FV.eq, FV.isNaN]

/-- A comparison of numbers. -/
theorem cmpFloat_ordered (cmp : Nat) {x y : FV} (hx : x ≠ .nan) (hy : y ≠ .nan) :
    cmpFloat cmp x y = match cmp with
      | 0 => x.eq y
      | 1 => !x.eq y
      | 2 => x.lt y
      | 3 => x.lt y || x.eq y
      | 4 => y.lt x
      | 5 => y.lt x || x.eq y
      | 6 => true
      | _ => false := by
  have number : ∀ {v : FV}, v ≠ .nan → v.isNaN = false := fun {v} h => by cases v <;> simp_all [FV.isNaN]
  unfold cmpFloat
  rw [number hx, number hy]
  rfl

/-- FCMP compares with equal zeros, and a NaN is unordered (16 R370). -/
theorem fcmpVal_iff {m : BitVec 8} (h : modType m ∈ laneTypes) (z : Bool) (a b : W64) :
    let f := layout (modType m)
    let p := flushed f z a.toNat
    let q := flushed f z b.toNat
    let nan := isNaN f p ∨ isNaN f q
    (fcmpVal m z a b = true ↔ match modLow3 m with
      | 0 => ¬nan ∧ valueKey f p = valueKey f q
      | 1 => nan ∨ valueKey f p ≠ valueKey f q
      | 2 => ¬nan ∧ valueKey f p < valueKey f q
      | 3 => ¬nan ∧ valueKey f p ≤ valueKey f q
      | 4 => ¬nan ∧ valueKey f q < valueKey f p
      | 5 => ¬nan ∧ valueKey f q ≤ valueKey f p
      | 6 => ¬nan
      | _ => nan) := by
  obtain ⟨ht, ieee, -, -⟩ := laneTypes_float h
  have nanA := dec_nan_iff ht ieee z a.toNat
  have nanB := dec_nan_iff ht ieee z b.toNat
  simp only [fcmpVal, dec_mod ht]
  rw [dec_flushed ht z a.toNat] at nanA ⊢
  rw [dec_flushed ht z b.toNat] at nanB ⊢
  generalize flushed (layout (modType m)) z a.toNat = p at *
  generalize flushed (layout (modType m)) z b.toNat = q at *
  by_cases nan : isNaN (layout (modType m)) p = true ∨ isNaN (layout (modType m)) q = true
  · rw [cmpFloat_unordered _ (nan.imp nanA.mpr nanB.mpr)]
    split <;> simp [nan]
  · obtain ⟨hp, hq⟩ := not_or.mp nan
    obtain ⟨less, equal⟩ := dec_order ht ieee (by simpa using hp) (by simpa using hq)
    obtain ⟨more, -⟩ := dec_order ht ieee (p := q) (q := p) (by simpa using hq) (by simpa using hp)
    rw [cmpFloat_ordered _ (nanA.not.mpr hp) (nanB.not.mpr hq)]
    have atMost : valueKey (layout (modType m)) p ≤ valueKey (layout (modType m)) q ↔ _ ∨ _ := le_iff_lt_or_eq
    have atLeast : valueKey (layout (modType m)) q ≤ valueKey (layout (modType m)) p ↔ _ ∨ _ := le_iff_lt_or_eq.trans (or_congr_right eq_comm)
    have differ := equal.not.symm.trans (Bool.not_eq_true _).to_iff
    split <;> simp [nan, less, more, equal, differ, atMost, atLeast]

/-- Settles O5: the exact result is rounded once; FMEX and FCMP are read off the codes' order. -/
theorem floatValues : Obligations.FloatValues := by
  unfold Obligations.FloatValues
  refine ⟨?twoOperands, ?fused, ?compared⟩
  case twoOperands =>
    intro m a b h hz
    exact ⟨faddVal_yields h hz a b, fmulVal_yields h hz a b, fmexVal_toNat h hz a b⟩
  case fused =>
    intro v a b c h hz
    exact floatOp_fused_yields (List.mem_cons_of_mem _ (List.mem_cons_of_mem _ h)) (v.extractLsb' 0 2).isLt hz (fun _ _ _ => rfl) a b c
  case compared => exact fun m z a b h _ => fcmpVal_iff h z a b

end Sys2Proof.Claims
end

section
/-! SUPPORT. Packed pairs: the halves of an operation's word are the operation's elements (06 R133). -/

namespace Sys2Proof.Claims
open Sys2Proof.Machine

theorem halfOf_toNat (i : Nat) (x : W64) : (halfOf i x).toNat = x.toNat / 2 ^ (16 * i) % 2 ^ 16 := by
  have : x.toNat / 2 ^ (16 * i) % 2 ^ 16 < 2 ^ 64 := lt_of_lt_of_le (Nat.mod_lt _ (by positivity)) (by decide)
  rw [halfOf, BitVec.toNat_setWidth, BitVec.extractLsb'_toNat, Nat.shiftRight_eq_div_pow, Nat.mod_eq_of_lt this]

/-- The halves of a word that is put together of two elements. -/
theorem halfOf_pair {e : Nat → Nat} (small : ∀ j, e j < 65536) {i : Nat} (h : i < 2) :
    halfOf i (BitVec.ofNat 64 (e 0 + 65536 * e 1)) = BitVec.ofNat 64 (e i) := by
  have low := small 0
  have high := small 1
  apply BitVec.eq_of_toNat_eq
  rw [halfOf_toNat, BitVec.toNat_ofNat, BitVec.toNat_ofNat]
  interval_cases i <;> omega

/-- A type of packed pairs and the type of its elements. -/
def Packs (t k : Nat) : Prop := t = 17 ∧ k = 10 ∨ t = 18 ∧ k = 11

theorem Packs.same {t k : Nat} (h : Packs t k) : fmtOf t = fmtOf k ∧ ftzType t = true ∧ ftzType k = true ∧ (t == 17 || t == 18) = true ∧
    k ∈ laneTypes ∧ k ≠ 13 ∧ (fmtOf k).bits = 16 := by
  rcases h with ⟨rfl, rfl⟩ | ⟨rfl, rfl⟩ <;> decide

theorem Packs.round_lt {t k : Nat} (h : Packs t k) (rnd : Nat) (sat z : Bool) (x : FV) : (fmtOf k).round rnd sat z x < 65536 := by
  obtain ⟨-, -, -, -, lane, -, bits⟩ := h.same
  obtain ⟨float, -⟩ := laneTypes_float lane
  have := Claims.round_lt (rnd := rnd) float sat z x
  rwa [← pow_bits float, bits] at this

/-- Element `i` of a packed operation is the operation of element `i` of each operand. -/
theorem halfOf_floatOp {t k : Nat} (h : Packs t k) (rnd : Nat) (z : Bool) (g : List FV → FV) (xs : List W64) {i : Nat} (hi : i < 2) :
    halfOf i (floatOp t rnd z g xs) = floatOp k rnd z g (xs.map (halfOf i)) := by
  obtain ⟨fmt, ftz, ftz', pair, lane, single, bits⟩ := h.same
  obtain ⟨float, -, -, one⟩ := laneTypes_float lane
  have elem : ∀ j, floatElem t rnd z g xs (16 * j) = floatElem k rnd z g (xs.map (halfOf j)) 0 := fun j => by
    have operand : ∀ x : W64, (fmtOf k).dec z (halfOf j x).toNat = (fmtOf k).dec z (x.toNat / 2 ^ (16 * j)) := fun x => by
      rw [halfOf_toNat, ← bits, dec_mod float]
    have asElement : floatElem t rnd z g xs (16 * j) = floatElem k rnd z g xs (16 * j) := by simp only [floatElem, fmt, ftz, ftz']
    rw [asElement, floatElem_eq float, floatElem_eq float]
    simp only [ftz', Bool.and_true, List.map_map, Function.comp_def, pow_zero, Nat.div_one, operand]
  have small : ∀ j, floatElem t rnd z g xs (16 * j) < 65536 := fun j => by
    rw [floatElem, fmt]
    exact h.round_lt ..
  rw [floatOp, pair, if_pos rfl]
  refine (halfOf_pair small hi).trans ?_
  rw [elem, floatOp, one]
  simp

/-- Element `i` of SFN and FACT on a packed pair. -/
theorem halfOf_unaryVal {m k : BitVec 8} (h : Packs (modType m) (modType k)) (ftz : modSF m = modSF k) (g : FV → FV) (a : W64) {i : Nat}
    (hi : i < 2) : halfOf i (unaryVal m g a) = unaryVal k g (halfOf i a) := by
  obtain ⟨fmt, -, -, pair, lane, -, bits⟩ := h.same
  obtain ⟨-, -, -, one⟩ := laneTypes_float lane
  have small : ∀ j, unaryElem (modType m) (modSF m) g (a.toNat / 65536 ^ j) < 65536 := fun j => by
    simp only [unaryElem, fmt]
    exact h.round_lt ..
  have elem : unaryElem (modType m) (modSF m) g (a.toNat / 65536 ^ i) = unaryElem (modType k) (modSF k) g (halfOf i a).toNat := by
    have same : a.toNat / 65536 ^ i % 2 ^ 16 = (halfOf i a).toNat % 2 ^ 16 := by
      rw [halfOf_toNat, Nat.mod_mod, pow_mul]
      norm_num
    simp only [unaryElem, fmt, ftz, bits, same]
  simp only [unaryVal, pair, if_true, one]
  have halves := halfOf_pair small hi
  simp only [pow_zero, Nat.div_one, pow_one] at halves
  rw [halves, elem]
  simp

/-! ### Conversions between pairs of elements and words -/

theorem elemVal_float {t : Nat} (ht : t ∈ floatTypes) (z : Bool) (x : W64) : elemVal t z x = (fmtOf t).dec (z && ftzType t) x.toNat := by
  have range : ¬ t ≤ 7 ∧ (t == 16) = false := by
    unfold floatTypes at ht
    fin_cases ht <;> decide
  rw [elemVal, if_neg range.1, range.2, if_neg (by decide), dec_mod ht]

/-- CVT between two floating formats rounds the source's value. -/
theorem cvtElem_float {st dt : Nat} (hs : st ∈ floatTypes) (hd : dt ∈ floatTypes) (h : st ≠ dt) (rnd : Nat) (sat z : Bool) (x : W64) :
    cvtElem st dt rnd sat z x =
      BitVec.ofNat 64 ((fmtOf dt).round rnd sat (z && ftzType dt) ((fmtOf st).dec (z && ftzType st) x.toNat)) := by
  have range : ∀ t ∈ floatTypes, ¬ t ≤ 7 ∧ t ≠ 16 := by decide
  obtain ⟨highS, -⟩ := range st hs
  obtain ⟨highD, notL6⟩ := range dt hd
  simp [cvtElem, highS, highD, notL6, h, elemVal_float hs]

/-- The halves of a word that is put together of two small ones. -/
theorem halfOf_or_shift {x y : W64} (hx : x.toNat < 65536) (hy : y.toNat < 65536) :
    halfOf 0 ((lo32 (x ||| y <<< 16)).setWidth 64) = x ∧ halfOf 1 ((lo32 (x ||| y <<< 16)).setWidth 64) = y := by
  have joined : (x ||| y <<< 16).toNat = y.toNat * 65536 + x.toNat := by
    rw [BitVec.toNat_or, BitVec.toNat_shiftLeft, Nat.or_comm, Nat.shiftLeft_eq, Nat.mod_eq_of_lt (by omega), ← Nat.shiftLeft_eq y.toNat 16,
      ← Nat.shiftLeft_add_eq_or_of_lt hx, Nat.shiftLeft_eq]
  have word : ((lo32 (x ||| y <<< 16)).setWidth 64).toNat = y.toNat * 65536 + x.toNat := by
    rw [lo32, BitVec.toNat_setWidth, BitVec.extractLsb'_toNat, joined, Nat.shiftRight_zero]
    omega
  constructor
  · apply BitVec.eq_of_toNat_eq
    rw [halfOf_toNat, word]
    omega
  · apply BitVec.eq_of_toNat_eq
    rw [halfOf_toNat, word]
    omega

theorem halfOf_word (i : Nat) (hi : i < 2) (x : W32) : halfOf i (x.setWidth 64) = (x.extractLsb' (16 * i) 16).setWidth 64 := by
  apply BitVec.eq_of_toNat_eq
  have := x.isLt
  rw [halfOf_toNat, BitVec.toNat_setWidth, BitVec.toNat_setWidth, BitVec.extractLsb'_toNat, Nat.shiftRight_eq_div_pow]
  interval_cases i <;> omega

/-! ### The atomic add of a pair -/

theorem leNat_half {l : List Byte} (h : l.length = 4) {i : Nat} (hi : i < 2) :
    leNat ((l.drop (2 * i)).take 2) = leNat l / 2 ^ (16 * i) % 65536 := by
  obtain ⟨a, b, c, d, rfl⟩ : ∃ a b c d, l = [a, b, c, d] := by
    match l, h with
    | [a, b, c, d], _ => exact ⟨a, b, c, d, rfl⟩
  have := a.isLt
  have := b.isLt
  have := c.isLt
  have := d.isLt
  interval_cases i <;> simp [leNat] <;> omega

theorem pair_half {a b : Nat} (ha : a < 65536) (hb : b < 65536) :
    (a + 65536 * b) % 256 ^ 4 / 2 ^ (16 * 0) % 65536 = a ∧ (a + 65536 * b) % 256 ^ 4 / 2 ^ (16 * 1) % 65536 = b := by
  omega

/-- The atomic add of .bf16x2 adds half by half (15 R336). -/
theorem atomCombine_halves {old src : List Byte} (ho : old.length = 4) (hs : src.length = 4) : ∃ new, atomCombine 33 4 old src = some new ∧
    ∀ i, i < 2 → let half := fun (l : List Byte) => leNat ((l.drop (2 * i)).take 2)
      half new = (fmtOf 11).round 0 false false (FV.add 0 ((fmtOf 11).dec false (half old)) ((fmtOf 11).dec false (half src))) := by
  refine ⟨_, rfl, fun i hi => ?_⟩
  have packs : Packs 18 11 := .inr ⟨rfl, rfl⟩
  simp only [leNat_half ho hi, leNat_half hs hi, leNat_half (length_leBytes ..) hi, leNat_leBytes]
  interval_cases i
  · exact (pair_half (packs.round_lt ..) (packs.round_lt ..)).1
  · exact (pair_half (packs.round_lt ..) (packs.round_lt ..)).2

/-! ### The settlement -/

/-- CVT of a packed pair to two words (15 R361). -/
theorem cvtVal_from_pair (f : Cvtf) (lo hi : W32) {k : Nat} (h : Packs f.st.toNat k) :
    cvtVal f lo hi = [0, 1].map fun i => lo32 (cvtElem k 12 f.rnd.toNat f.sat f.ftz (halfOf i (lo.setWidth 64))) := by
  have element : (if f.st.toNat == 17 then 10 else 11) = k := by
    rcases h with ⟨t, rfl⟩ | ⟨t, rfl⟩ <;> simp [t]
  obtain ⟨-, -, -, pair, -⟩ := h.same
  simp only [cvtVal, pair, if_true, element, List.map_cons, List.map_nil]
  rw [halfOf_word 0 (by decide), halfOf_word 1 (by decide)]

/-- CVT of two words to a packed pair (15 R361). -/
theorem cvtVal_to_pair (f : Cvtf) (lo hi : W32) {k : Nat} (h : Packs f.dt.toNat k) (single : f.st.toNat = 12) :
    ∃ r : W32, cvtVal f lo hi = [r] ∧ halfOf 0 (r.setWidth 64) = cvtElem 12 k f.rnd.toNat f.sat f.ftz (lo.setWidth 64) ∧
      halfOf 1 (r.setWidth 64) = cvtElem 12 k f.rnd.toNat f.sat f.ftz (hi.setWidth 64) := by
  have element : (if f.dt.toNat == 17 then 10 else 11) = k := by
    rcases h with ⟨t, rfl⟩ | ⟨t, rfl⟩ <;> simp [t]
  obtain ⟨-, -, -, pair, lane, -⟩ := h.same
  obtain ⟨float, -⟩ := laneTypes_float lane
  have small : ∀ x, (cvtElem 12 k f.rnd.toNat f.sat f.ftz x).toNat < 65536 := fun x => by
    have differ : 12 ≠ k := by rcases h with ⟨-, rfl⟩ | ⟨-, rfl⟩ <;> decide
    rw [cvtElem_float (by decide) float differ, ofNat_round_toNat float]
    exact h.round_lt ..
  refine ⟨_, ?_, halfOf_or_shift (small _) (small _)⟩
  simp only [cvtVal, single, pair, element, if_true, Nat.reduceBEq, Bool.or_self, Bool.false_eq_true, if_false]

/-- The codes of the packed types. -/
theorem packs_code {c : BitVec 5} (h : c = 17 ∨ c = 18) : Packs c.toNat (if c = 17 then 10 else 11) := by
  rcases h with rfl | rfl
  · exact .inl ⟨rfl, rfl⟩
  · exact .inr ⟨rfl, rfl⟩

/-- Settles O6: each operation's word is a pair of elements, and its halves are read back. -/
theorem packedHalves : Obligations.PackedHalves := by
  unfold Obligations.PackedHalves
  refine ⟨?registers, ?fused, ?converted, ?atomic⟩
  case registers =>
    intro m k h var ftz a b i hi
    refine ⟨fun v => ?_, fun neg => ?_, ?_, fun fn => ⟨halfOf_unaryVal h ftz _ a hi, halfOf_unaryVal h ftz _ a hi⟩⟩
    · rw [faddVal, halfOf_floatOp h _ _ _ _ hi, faddVal, var, ftz]; rfl
    · rw [fmulVal, halfOf_floatOp h _ _ _ _ hi, fmulVal, var, ftz]; rfl
    · rw [fmexVal, halfOf_floatOp h _ _ _ _ hi, fmexVal, var, ftz]; rfl
  case fused =>
    intro v a b c i hi h
    have packs : Packs (ffmaType v) (if ffmaType v = 17 then 10 else 11) := by
      rcases h with t | t <;> rw [t]
      · exact .inl ⟨rfl, rfl⟩
      · exact .inr ⟨rfl, rfl⟩
    obtain ⟨-, -, -, -, lane, single, -⟩ := packs.same
    simp only [ffmaVal]
    rw [halfOf_floatOp packs _ _ _ _ hi]
    exact floatOp_fused_yields lane (v.extractLsb' 0 2).isLt (fun f64 => absurd f64 single) (fun _ _ _ => rfl) _ _ _
  case converted =>
    rintro f lo hi (⟨pair, single⟩ | ⟨single, pair⟩)
    · refine ⟨fun _ => cvtVal_from_pair f lo hi (packs_code pair), fun notPair => ?_⟩
      rcases pair with t | t <;> rw [t] at notPair <;> exact absurd notPair (by decide)
    · refine ⟨fun notPair => ?_, fun _ => cvtVal_to_pair f lo hi (packs_code pair) (by rw [single]; rfl)⟩
      rcases pair with t | t <;> rw [t] at notPair <;> exact absurd notPair (by decide)
  case atomic =>
    intro old src ho hs
    obtain ⟨new, some, halves⟩ := atomCombine_halves ho hs
    have bf16 : 11 ∈ floatTypes := by decide
    refine ⟨new, some, fun i hi => ?_⟩
    simp only [halves i hi]
    exact round_yields bf16 false false (by decide) (add_denotes (dec_stands bf16 _ _) (dec_stands bf16 _ _)) (by decide)

end Sys2Proof.Claims
end

section
/-! SUPPORT. Conversions to and from integers (06 R134 to R136; 15 R360). -/

namespace Sys2Proof.Claims
open Sys2Proof.Machine

/-! ### Ranges -/

theorem numOf_range {t : Nat} (h : t ≤ 7) (x : W64) : lowest t ≤ numOf t x ∧ numOf t x ≤ highest t := by
  rw [numOf, lowest, highest, typeBits_eq_intWidth (by omega)]
  split
  · rcases intWidth_cases t with w | w | w | w <;> simp only [w, Int.bmod_def] <;> omega
  · rcases intWidth_cases t with w | w | w | w <;> simp only [w] <;> omega

theorem zero_range {t : Nat} (h : t ≤ 7) : lowest t ≤ 0 ∧ 0 ≤ highest t := by
  simpa [numOf] using numOf_range h 0

theorem typeMin_eq {t : Nat} (h : t ≤ 7) : typeMin t = lowest t ∧ typeMax t = highest t := by
  simp [typeMin, typeMax, lowest, highest, intSigned, typeBits_eq_intWidth (by omega : t ≤ 9)]

theorem clampI_eq {t : Nat} (h : t ≤ 7) (z : Int) : clampI z (typeMin t) (typeMax t) = clamped t z := by
  have order : lowest t ≤ highest t := (zero_range h).1.trans (zero_range h).2
  rw [(typeMin_eq h).1, (typeMin_eq h).2, clampI, clamped]
  omega

theorem clamped_range {t : Nat} (h : t ≤ 7) (z : Int) : lowest t ≤ clamped t z ∧ clamped t z ≤ highest t := by
  have order : lowest t ≤ highest t := (zero_range h).1.trans (zero_range h).2
  rw [clamped]
  omega

/-- A number of a type's range is the number that its pattern holds. -/
theorem numOf_ofInt {t : Nat} (h : t ≤ 7) {z : Int} (low : lowest t ≤ z) (high : z ≤ highest t) : numOf t (BitVec.ofInt 64 z) = z := by
  have pattern : (((BitVec.ofInt 64 z).toNat : Nat) : Int) = z % 2 ^ 64 := by
    rw [BitVec.toNat_ofInt]
    omega
  rw [lowest] at low
  rw [highest] at high
  rw [numOf]
  rw [typeBits_eq_intWidth (by omega)] at *
  split
  · next signed =>
    rw [if_pos signed] at low high
    rw [pattern]
    rcases intWidth_cases t with w | w | w | w <;> simp only [w, Int.bmod_def] at * <;> omega
  · next unsigned =>
    rw [if_neg unsigned] at low high
    rw [Int.natCast_mod, pattern]
    rcases intWidth_cases t with w | w | w | w <;> simp only [w] at * <;> omega

/-- Extension to the registers of an integer keeps a number of the type (15 R360). -/
theorem extInt_ofInt {t : Nat} (h : t ≤ 7) {z : Int} (low : lowest t ≤ z) (high : z ≤ highest t) :
    extInt t (BitVec.ofInt 64 z) = BitVec.ofInt 64 z := by
  rw [extInt, intVal_eq_numOf (by omega), numOf_ofInt h low high]

/-! ### Between integer types -/

theorem cvtElem_int {st dt : Nat} (hs : st ≤ 7) (hd : dt ≤ 7) (rnd : Nat) (sat z : Bool) (x : W64) :
    let r := cvtElem st dt rnd sat z x
    r = BitVec.ofInt 64 (numOf dt r) ∧ (sat = true → numOf dt r = clamped dt (numOf st x)) ∧
      (sat = false → (numOf dt r - numOf st x) % 2 ^ typeBits dt = 0) := by
  have value : cvtElem st dt rnd sat z x = BitVec.ofInt 64 (numOf dt (intResult dt sat (numOf st x))) := by
    simp [cvtElem, hs, hd, extInt, intVal_eq_numOf (by omega : st ≤ 9), intVal_eq_numOf (by omega : dt ≤ 9)]
  obtain ⟨low, high⟩ := numOf_range hd (intResult dt sat (numOf st x))
  have holds := holdsInt_intResult (by omega : dt ≤ 9) sat (numOf st x)
  simp only [value, numOf_ofInt hd low high, true_and]
  rw [HoldsInt] at holds
  constructor
  · rintro rfl
    rw [if_pos rfl] at holds
    rw [holds, clamped, lowest, highest]
    split <;> rfl
  · rintro rfl
    rwa [if_neg (by decide)] at holds

/-! ### To an integer type -/

/-- The model's rounding to a whole number, in the statements' words (06 R130, R135). -/
theorem roundUnits_roundsInt {rnd : Nat} (hr : rnd < 4) {n : Int} {d m : Nat} {e : Int} (hd : 0 < d) (hn : (n.natAbs : ℚ) = m * 2 ^ e * d)
    {neg : Bool} (sign : n ≠ 0 → neg = decide (n < 0)) :
    RoundsInt rnd n d (if neg then -(roundUnits neg rnd m e 0 : Int) else (roundUnits neg rnd m e 0 : Int)) := by
  obtain ⟨u, rounded⟩ := roundUnits_roundedAt neg rnd m e 0 hd (x := n.natAbs) (by rw [sub_zero]; exact hn)
  generalize roundUnits neg rnd m e 0 = r at rounded ⊢
  by_cases zero : n = 0
  · have none := rounded.exact (strictMono_mul_right_of_pos hd) (k := 0) (by simp [zero])
    subst zero none
    match rnd, hr with
    | 0, _ | 1, _ | 2, _ | 3, _ => simp [RoundsInt, hd]
  · obtain rfl := sign zero
    have chosen := rounded.chosen
    have lower := rounded.lower
    have upper := rounded.upper
    beta_reduce at chosen lower upper
    have next : (u + 1) * d = u * d + d := by ring
    have product : ∀ k : Nat, (if decide (n < 0) = true then -(k : Int) else (k : Int)) * d = if n < 0 then -((k * d : Nat) : Int) else ((k * d : Nat) : Int) :=
      fun k => by by_cases neg : n < 0 <;> simp [neg]
    rw [next] at chosen upper
    match rnd, hr with
    | 1, _ =>
      simp only [RoundsInt, product]
      rcases chosen with ⟨up, -⟩ | ⟨-, rfl, -⟩
      · exact up.elim
      by_cases neg : n < 0 <;> simp only [neg, decide_true, decide_false, if_true, if_false, Bool.false_eq_true, Int.natAbs_neg, Int.natAbs_natCast]
      · exact ⟨lower, by omega, mul_nonneg_of_nonpos_of_nonpos (by omega) neg.le⟩
      · exact ⟨lower, by omega, mul_nonneg (by omega) (by omega)⟩
    | 0, _ | 2, _ | 3, _ =>
      simp only [RoundsInt, product]
      simp only [Chosen, StepsUp] at chosen
      generalize r * d = v at chosen ⊢
      generalize u * d = lo at *
      by_cases neg : n < 0 <;> simp only [neg, decide_true, decide_false, if_true, if_false, Bool.false_eq_true] <;> omega

/-- CVT to an integer type, from a value that a pattern stands for (06 R135). -/
theorem toInt_num {dt : Nat} (hd : dt ≤ 7) {rnd : Nat} (hr : rnd < 4) {low : Nat} {neg b : Bool} {m u : Nat} {e : Int}
    (h : Stands low (.num neg m e) (.num b u)) :
    ∃ z, RoundsInt rnd (signed b u) (2 ^ low) z ∧ extInt dt (toInt dt rnd (.num neg m e)) = BitVec.ofInt 64 (clamped dt z) := by
  obtain ⟨rfl, -, -⟩ := h.value
  cases h with | num value =>
  refine ⟨_, roundUnits_roundsInt hr (m := m) (e := e) (neg := neg) (by positivity) ?_ ?_, ?_⟩
  · have : (signed neg u).natAbs = u := by cases neg <;> simp [signed]
    rw [this, ← value]
    push_cast
    rfl
  · intro some
    cases neg <;> simp [signed] at some ⊢
    omega
  · obtain ⟨low, high⟩ := clamped_range hd (if neg = true then -(roundUnits neg rnd m e 0 : Int) else (roundUnits neg rnd m e 0 : Int))
    simp only [toInt, clampI_eq hd]
    exact extInt_ofInt hd low high

theorem cvtElem_to_int {st dt : Nat} (hs : st ∈ floatTypes) (hd : dt ≤ 7) (rnd : Nat) (sat z : Bool) (x : W64) :
    cvtElem st dt rnd sat z x = extInt dt (toInt dt rnd ((fmtOf st).dec (z && ftzType st) x.toNat)) := by
  have range : ¬ st ≤ 7 ∧ st ≠ 16 := by
    unfold floatTypes at hs
    fin_cases hs <;> decide
  simp [cvtElem, range, hd, elemVal_float hs]

theorem cvtElem_float_int {st dt : Nat} (hs : st ∈ floatTypes) (hd : dt ≤ 7) {rnd : Nat} (hr : rnd < 4) (sat ftz : Bool) (x : W64) :
    let r := cvtElem st dt rnd sat ftz x
    let y := readNum st (ftz && ftzType st) x.toNat
    (y = .nan → r = 0) ∧ (∀ neg, y = .inf neg → r = BitVec.ofInt 64 (if neg then lowest dt else highest dt)) ∧
      (∀ neg u, y = .num neg u → ∃ z, RoundsInt rnd (signed neg u) (2 ^ (layout st).low) z ∧ r = BitVec.ofInt 64 (clamped dt z)) := by
  have stands := dec_stands hs (ftz && ftzType st) x.toNat
  obtain ⟨below, above⟩ := zero_range hd
  simp only [cvtElem_to_int hs hd]
  generalize (fmtOf st).dec (ftz && ftzType st) x.toNat = v at stands ⊢
  refine ⟨fun nan => ?_, fun neg inf => ?_, fun neg u num => ?_⟩
  · rw [nan] at stands
    cases stands
    exact extInt_ofInt (z := 0) hd below above
  · rw [inf] at stands
    cases stands
    rw [toInt, (typeMin_eq hd).1, (typeMin_eq hd).2]
    cases neg
    · exact extInt_ofInt hd (below.trans above) le_rfl
    · exact extInt_ofInt hd le_rfl (below.trans above)
  · rw [num] at stands
    cases stands with | num value => exact toInt_num hd hr (.num value)

end Sys2Proof.Claims
end

section
/-! SUPPORT. Conversions to floating formats and to and from L6 (06 R137 to R140; 15 R361). -/

namespace Sys2Proof.Claims
open Sys2Proof.Machine

theorem flushes_eq {t : Nat} (ht : t ∈ floatTypes) (z : Bool) : flushes t z = (z && ftzType t) := by
  unfold floatTypes at ht
  fin_cases ht <;> rfl

/-- The types of CVT that are no integers. -/
theorem floatTypes_range {t : Nat} (ht : t ∈ floatTypes) : ¬ t ≤ 7 ∧ t ≠ 16 := by
  unfold floatTypes at ht
  fin_cases ht <;> decide

/-! ### Between floating formats -/

/-- A whole number of units of 2^-own, in units of 2^-target. -/
theorem Denotes.rescale {own target : Nat} {neg zero : Bool} {m : Nat} {e n : Int} (value : signedValue neg m e * 2 ^ own = n)
    (sign : m = 0 → neg = zero) : Denotes target (.num neg m e) (.of zero (n * 2 ^ (target - own)) (2 ^ (own - target))) := by
  refine .of (by positivity) ?_ sign
  have scale : (2 : ℚ) ^ target * 2 ^ (own - target) = 2 ^ own * 2 ^ (target - own) := by
    rw [← pow_add, ← pow_add]
    congr 1
    omega
  rw [eq_div_iff (by positivity)]
  push_cast
  rw [mul_assoc, scale, ← mul_assoc, value]

/-- What a pattern of one format stands for, in the units of another. -/
theorem rescaled_denotes {own : Nat} {x : FV} {y : Num} (h : Stands own x y) (target : Nat) : Denotes target x (rescaled own target y) := by
  cases h with
  | nan => exact .nan
  | inf neg => exact .inf neg
  | num value => exact .rescale (Stands.num value).value.2.1 fun _ => rfl

theorem cvtElem_float_yields {st dt : Nat} (hs : st ∈ floatTypes) (hd : dt ∈ floatTypes) (h : st ≠ dt) {rnd : Nat} (hr : rnd < 4)
    (nearest : 14 ≤ dt → rnd = 0) (sat ftz : Bool) (x : W64) :
    Yields dt rnd sat (flushes dt ftz) (rescaled (layout st).low (layout dt).low (readNum st (flushes st ftz) x.toNat))
      (cvtElem st dt rnd sat ftz x).toNat := by
  rw [cvtElem_float hs hd h, ofNat_round_toNat hd, flushes_eq hs, flushes_eq hd]
  exact round_yields hd sat _ nearest (rescaled_denotes (dec_stands hs _ _) _) hr

/-- A type to itself returns its operand, a NaN canonical (15 R361). -/
theorem cvtElem_same {t : Nat} (ht : t ∈ floatTypes) (rnd : Nat) (sat ftz : Bool) (x : W64) :
    let y := readNum t (flushes t ftz) x.toNat
    (y = .nan → (cvtElem t t rnd sat ftz x).toNat = (layout t).nan) ∧
      (y ≠ .nan → (cvtElem t t rnd sat ftz x).toNat = flushed (layout t) (flushes t ftz) x.toNat) := by
  obtain ⟨notInt, notL6⟩ := floatTypes_range ht
  have stands := dec_stands ht (flushes t ftz) x.toNat
  have own := round_dec ht rnd (flushes t ftz) (x := x.toNat)
  have whole : (fmtOf t).dec (flushes t ftz) x.toNat = .inf true ∨ (fmtOf t).dec (flushes t ftz) x.toNat = .inf false →
      x.toNat % 2 ^ (fmtOf t).bits = flushed (layout t) (flushes t ftz) x.toNat := fun inf => by
    rw [dec_eq ht] at inf
    have normal := (agrees ht).normal
    have past : ¬ x.toNat % (layout t).sign ≤ (layout t).top := fun fits => by simp [fits] at inf
    rw [flushed, if_neg (by simp; omega), pow_bits ht]
  simp only [cvtElem, notInt, notL6, elemVal_float ht, ← flushes_eq ht, beq_self_eq_true, Bool.true_and, decide_false, Bool.and_self,
    Bool.false_eq_true, if_false, beq_eq_decide]
  generalize readNum t (flushes t ftz) x.toNat = y at stands ⊢
  generalize (fmtOf t).dec (flushes t ftz) x.toNat = v at *
  cases stands with
  | nan => exact ⟨fun _ => (ofNat_round_toNat ht ..).trans (round_nan ht ..), fun number => absurd rfl number⟩
  | inf neg =>
    have fits : x.toNat % 2 ^ (fmtOf t).bits < 2 ^ 64 :=
      lt_of_lt_of_le (Nat.mod_lt _ (by positivity)) (Nat.pow_le_pow_right (by decide) (agrees ht).bits)
    refine ⟨fun nan => (by cases nan), fun _ => ?_⟩
    rw [← whole (by cases neg <;> simp)]
    exact (BitVec.toNat_ofNat ..).trans (Nat.mod_eq_of_lt fits)
  | num value => exact ⟨fun nan => (by cases nan), fun _ => (ofNat_round_toNat ht ..).trans (own (by simp))⟩

/-! ### From integers -/

theorem cvtElem_int_yields {st dt : Nat} (hs : st ≤ 7) (hd : dt ∈ floatTypes) {rnd : Nat} (hr : rnd < 4)
    (nearest : 14 ≤ dt → rnd = 0) (sat ftz : Bool) (x : W64) :
    Yields dt rnd sat (flushes dt ftz) (.of false (numOf st x * 2 ^ (layout dt).low) 1) (cvtElem st dt rnd sat ftz x).toNat := by
  obtain ⟨notInt, notL6⟩ := floatTypes_range hd
  have differ : st ≠ dt := by omega
  have element : cvtElem st dt rnd sat ftz x =
      BitVec.ofNat 64 ((fmtOf dt).round rnd sat (flushes dt ftz) (.num (decide (numOf st x < 0)) (numOf st x).natAbs 0)) := by
    simp [cvtElem, notInt, notL6, differ, elemVal, hs, intVal_eq_numOf (by omega : st ≤ 9), flushes_eq hd]
  rw [element, ofNat_round_toNat hd]
  refine round_yields hd sat _ nearest (.of one_pos ?_ fun none => ?_) hr
  · rw [signedValue_int]
    push_cast
    simp
  · simp [Int.natAbs_eq_zero.mp none]

/-! ### To L6 -/

/-- One number of two forms has one leading place. -/
theorem leading_eq {m u p b : Nat} {z : Int} (number : (u : ℚ) = m * 2 ^ z) (lead : 2 ^ b ≤ m) (next : m < 2 ^ (b + 1)) (lower : 2 ^ p ≤ u)
    (upper : u < 2 ^ (p + 1)) : (b : Int) + z = p := by
  have below : (2 : ℚ) ^ ((b : Int) + z) < 2 ^ ((p + 1 : Nat) : Int) := by
    rw [zpow_add₀ (by norm_num), zpow_natCast, zpow_natCast]
    calc (2 : ℚ) ^ b * 2 ^ z ≤ m * 2 ^ z := by gcongr; exact_mod_cast lead
      _ = u := number.symm
      _ < 2 ^ (p + 1) := by exact_mod_cast upper
  have above : (2 : ℚ) ^ (p : Int) < 2 ^ ((b + 1 : Nat) + z) := by
    rw [zpow_add₀ (by norm_num), zpow_natCast, zpow_natCast]
    calc (2 : ℚ) ^ p ≤ u := by exact_mod_cast lower
      _ = m * 2 ^ z := number
      _ < 2 ^ (b + 1) * 2 ^ z := by gcongr; exact_mod_cast next
  have := (zpow_lt_zpow_iff_right₀ (by norm_num : (1 : ℚ) < 2)).mp below
  have := (zpow_lt_zpow_iff_right₀ (by norm_num : (1 : ℚ) < 2)).mp above
  push_cast at *
  omega

/-- One number of two forms has one place in its binade. -/
theorem fraction_eq {m u p b : Nat} {z : Int} (number : (u : ℚ) = m * 2 ^ z) (place : (b : Int) + z = p) :
    m * 256 / 2 ^ b = 256 * u / 2 ^ p := by
  rcases le_or_gt 0 z with up | down
  · obtain ⟨k, rfl⟩ := Int.eq_ofNat_of_zero_le up
    obtain rfl : p = b + k := by omega
    rw [zpow_natCast] at number
    obtain rfl : u = m * 2 ^ k := by exact_mod_cast number
    rw [pow_add, ← mul_assoc, Nat.mul_div_mul_right _ _ (by positivity), mul_comm]
  · obtain ⟨k, hk⟩ := Int.eq_ofNat_of_zero_le (by omega : 0 ≤ -z)
    obtain rfl : z = -(k : Int) := by omega
    obtain rfl : b = p + k := by omega
    rw [zpow_neg, zpow_natCast] at number
    have whole : (m : ℚ) = u * 2 ^ k := by rw [number]; field_simp
    obtain rfl : m = u * 2 ^ k := by exact_mod_cast whole
    rw [pow_add, mul_right_comm, Nat.mul_div_mul_right _ _ (by positivity), mul_comm]

/-- The exponent and the significand's place in a binade are those of the number, not of its form. -/
theorem leading_place {m u p low : Nat} {e : Int} (hm : m ≠ 0) (value : (m : ℚ) * 2 ^ e * 2 ^ low = u) (lower : 2 ^ p ≤ u)
    (upper : u < 2 ^ (p + 1)) :
    e + (bitLen m : Int) - 1 = p - low ∧ m * 256 / 2 ^ (bitLen m - 1) = 256 * u / 2 ^ p := by
  obtain ⟨lead, next, some⟩ := bitLen_bounds hm
  obtain ⟨b, hb⟩ := Nat.exists_eq_add_of_le' some
  rw [hb] at lead next ⊢
  rw [Nat.add_sub_cancel] at lead ⊢
  have number : (u : ℚ) = m * 2 ^ (e + low) := by rw [← value, zpow_add₀ (by norm_num), zpow_natCast, mul_assoc]
  have place := leading_eq number lead next lower upper
  exact ⟨by push_cast; omega, fraction_eq number place⟩

/-- The code nearest in the logarithm, by the thresholds of 06 R139. -/
theorem toL6_num {low : Nat} {neg : Bool} {m u p : Nat} {e : Int} (h : Stands low (.num neg m e) (.num neg u)) (sat : Bool) (lower : 2 ^ p ≤ u)
    (upper : u < 2 ^ (p + 1)) :
    let top : Int := (p : Int) - low
    let g := 256 * u / 2 ^ p - 256
    let k := 16 + 4 * top + (if g < 24 then 0 else if g < 76 then 1 else if g < 139 then 2 else if g < 214 then 3 else 4)
    BitVec.ofNat 64 (toL6 sat (.num neg m e)) =
      if k < 1 then 0 else if 31 < k then (if sat then (if neg then 0x3F else 0x1F) else 0x20) else BitVec.ofInt 64 (k + if neg then 32 else 0) := by
  obtain ⟨-, -, zero⟩ := h.value
  cases h with | num value =>
  have some : m ≠ 0 := by
    have := Nat.two_pow_pos p
    omega
  obtain ⟨top, place⟩ := leading_place some value lower upper
  simp only [toL6, if_neg some, top, place]
  generalize 16 + 4 * ((p : Int) - low) + _ = k
  split
  · rfl
  · split
    · cases sat <;> cases neg <;> rfl
    · next atLeast atMost =>
      obtain ⟨c, rfl⟩ := Int.eq_ofNat_of_zero_le (by omega : 0 ≤ k)
      rw [Int.toNat_natCast, ← BitVec.ofInt_natCast]
      congr 1
      cases neg <;> simp
      omega

/-- CVT to L6 of a value that stands for a number (06 R139). -/
theorem toL6_value {low : Nat} {v : FV} {n : Num} (h : Stands low v n) (sat : Bool) : let r := BitVec.ofNat 64 (toL6 sat v)
    (n = .nan → r = 0x20) ∧
    (∀ neg, n = .inf neg → r = if sat then (if neg then 0x3F else 0x1F) else 0x20) ∧
    (∀ neg, n = .num neg 0 → r = 0) ∧
    (∀ neg (u p : Nat), n = .num neg u → 2 ^ p ≤ u → u < 2 ^ (p + 1) →
      let e : Int := (p : Int) - low
      let g := 256 * u / 2 ^ p - 256
      let m := 16 + 4 * e + (if g < 24 then 0 else if g < 76 then 1 else if g < 139 then 2 else if g < 214 then 3 else 4)
      r = if m < 1 then 0 else if 31 < m then (if sat then (if neg then 0x3F else 0x1F) else 0x20)
        else BitVec.ofInt 64 (m + if neg then 32 else 0)) := by
  refine ⟨?_, ?_, ?_, ?_⟩
  · rintro rfl
    cases h
    rfl
  · rintro neg rfl
    cases h
    cases sat <;> cases neg <;> rfl
  · rintro neg rfl
    cases h with | num value =>
    obtain ⟨-, -, none⟩ := (Stands.num (neg := neg) value).value
    rw [toL6, if_pos (none.mpr rfl)]
    rfl
  · rintro neg u p rfl lower upper
    cases h with | num value => exact toL6_num (.num value) sat lower upper

/-! ### From L6 (06 R128, R140) -/

/-- Rounding to units depends only on how far the units lie from the number's exponent. -/
theorem roundUnits_shift (neg : Bool) (rnd m : Nat) (e q : Int) : roundUnits neg rnd m e q = roundUnits neg rnd m (e - q) 0 := by
  simp only [roundUnits, sub_zero, sub_nonneg, zero_sub, neg_sub]

theorem bitLen_l6t {j : Nat} (h : j < 4) : l6t j ≠ 0 ∧ bitLen (l6t j) = 16 := by
  interval_cases j <;> decide +kernel

/-- The tabulated significands in each format, rounded to nearest; in .f32 and .f64 they are exact (06 R140). -/
theorem roundUnits_l6t {t : Nat} (ht : t ∈ floatTypes) {rnd : Nat} (exact : t = 12 ∨ t = 13 ∨ rnd = 0) (neg : Bool) {j : Nat} (h : j < 4) :
    roundUnits neg rnd (l6t j) ((layout t).mb - 15) 0 = 2 ^ (layout t).mb + rootFraction t j := by
  rcases exact with rfl | rfl | rfl
  · interval_cases j <;> rfl
  · interval_cases j <;> rfl
  · unfold floatTypes at ht
    fin_cases ht <;> interval_cases j <;> rfl

/-- The magnitudes of L6 are normal numbers of every format. -/
theorem l6_range {t : Nat} (ht : t ∈ floatTypes) : 6 ≤ (layout t).bias ∧ ((layout t).bias + 4) * 2 ^ (layout t).mb ≤ (layout t).top ∧
    ∀ j < 4, rootFraction t j < 2 ^ (layout t).mb := by
  unfold floatTypes at ht
  fin_cases ht <;> decide +kernel

/-- The code of a tabulated magnitude 2^(k / 4). -/
def l6Mag (t : Nat) (k : Int) : Nat :=
  (((layout t).bias + k.fdiv 4) * 2 ^ (layout t).mb).toNat + rootFraction t (k.emod 4).toNat

theorem roundMag_l6t {t : Nat} (ht : t ∈ floatTypes) {rnd : Nat} (exact : t = 12 ∨ t = 13 ∨ rnd = 0) (neg : Bool) {k : Int} (low : -16 ≤ k)
    (high : k < 16) : (fmtOf t).roundMag neg rnd (l6t (k.emod 4).toNat) (k.fdiv 4 - 15) = l6Mag t k ∧
      2 ^ (layout t).mb ≤ l6Mag t k ∧ l6Mag t k ≤ (layout t).top ∧
      (l6Mag t k : Int) = ((layout t).bias + k.fdiv 4) * 2 ^ (layout t).mb + rootFraction t (k.emod 4).toNat := by
  have A := agrees ht
  obtain ⟨bias, top, fractions⟩ := l6_range ht
  have quarter : (k.emod 4).toNat < 4 := by
    change (k % 4).toNat < 4
    omega
  have exponent : k.fdiv 4 = k / 4 := Int.fdiv_eq_ediv_of_nonneg _ (by decide)
  obtain ⟨some, length⟩ := bitLen_l6t quarter
  have fraction := fractions _ quarter
  have units := roundUnits_l6t ht exact neg quarter
  obtain ⟨s, hs⟩ := Int.eq_ofNat_of_zero_le (by omega : 0 ≤ ((layout t).bias : Int) + k.fdiv 4 - 1)
  have code : (((layout t).bias + k.fdiv 4) * 2 ^ (layout t).mb : Int) = ((s + 1) * 2 ^ (layout t).mb : Nat) := by
    push_cast
    rw [← hs]
    ring
  have mag : l6Mag t k = (s + 1) * 2 ^ (layout t).mb + rootFraction t (k.emod 4).toNat := by rw [l6Mag, code, Int.toNat_natCast]
  refine ⟨?_, ?_, ?_, ?_⟩
  · have place : max (k.fdiv 4 - 15 + ((16 : Nat) : Int) - 1) (1 - (fmtOf t).bias) = k.fdiv 4 := by rw [A.bias]; omega
    have step : k.fdiv 4 - (fmtOf t).mb + (fmtOf t).mb + (fmtOf t).bias - 1 = s := by rw [A.bias, ← hs]; ring
    have distance : k.fdiv 4 - 15 - (k.fdiv 4 - (layout t).mb) = (layout t).mb - 15 := by ring
    simp only [Fmt.roundMag, if_neg some, length, place, step]
    rw [A.mb, roundUnits_shift, distance, units, mag]
    have whole : ((s : Int) * 2 ^ (layout t).mb).toNat = s * 2 ^ (layout t).mb := by
      exact_mod_cast Int.toNat_natCast (s * 2 ^ (layout t).mb)
    rw [whole]
    ring
  · rw [mag]
    nlinarith [Nat.two_pow_pos (layout t).mb]
  · rw [mag]
    have : s + 1 + 1 ≤ (layout t).bias + 4 := by omega
    have := Nat.mul_le_mul_right (2 ^ (layout t).mb) this
    have : (s + 1 + 1) * 2 ^ (layout t).mb = (s + 1) * 2 ^ (layout t).mb + 2 ^ (layout t).mb := by ring
    omega
  · rw [code, mag]
    push_cast
    rfl

theorem l6Dec_zero {x : Nat} (h : x % 64 = 0) : l6Dec x = .num false 0 0 := by
  have bit : bitN x 5 = false := by simp [bitN]; omega
  simp [l6Dec, bit, show x % 32 = 0 by omega]

theorem l6Dec_nar {x : Nat} (h : x % 64 = 0x20) : l6Dec x = .nan := by
  have bit : bitN x 5 = true := by simp [bitN]; omega
  simp [l6Dec, bit, show x % 32 = 0 by omega]

theorem l6Dec_num {x : Nat} (h : x % 64 % 32 ≠ 0) : let k : Int := (x % 64 % 32 : Nat) - 16
    l6Dec x = .num (decide (32 ≤ x % 64)) (l6t (k.emod 4).toNat) (k.fdiv 4 - 15) := by
  have bit : bitN x 5 = decide (32 ≤ x % 64) := by
    rw [bitN, beq_eq_decide]
    exact decide_eq_decide.mpr (by omega)
  have code : x % 64 % 32 = x % 32 := by omega
  rw [code] at h ⊢
  have quarter : (x % 32 + 16) % 4 = ((((x % 32 : Nat) : Int) - 16).emod 4).toNat := by
    change _ = ((((x % 32 : Nat) : Int) - 16) % 4).toNat
    omega
  rw [l6Dec, bit, quarter]
  simp [h]

/-- CVT from L6 (06 R134, R135, R140). -/
theorem cvtElem_l6 (dt rnd : Nat) (sat ftz : Bool) (x : W64) : let r := cvtElem 16 dt rnd sat ftz x
    let code := x.toNat % 64
    (dt = 16 → r.toNat = code) ∧
      (dt ≤ 7 → code = 0x20 → r = 0) ∧
      (dt ∈ floatTypes → (dt = 12 ∨ dt = 13 ∨ rnd = 0) →
        (code = 0 → r.toNat = 0) ∧ (code = 0x20 → r.toNat = (layout dt).nan) ∧
        (code % 32 ≠ 0 → let k : Int := (code % 32 : Nat) - 16
          (r.toNat : Int) = (if code < 32 then 0 else (layout dt).sign) + ((layout dt).bias + k.fdiv 4) * 2 ^ (layout dt).mb +
            rootFraction dt (k.emod 4).toNat)) := by
  refine ⟨?_, fun hd nar => ?_, fun hd exact => ?_⟩
  · rintro rfl
    simp [cvtElem]
    omega
  · have value : cvtElem 16 dt rnd sat ftz x = extInt dt (toInt dt rnd (l6Dec x.toNat)) := by
      simp [cvtElem, elemVal, hd, show 16 ≠ dt by omega]
    rw [value, l6Dec_nar nar]
    obtain ⟨below, above⟩ := zero_range hd
    exact extInt_ofInt (z := 0) hd below above
  · obtain ⟨notInt, notL6⟩ := floatTypes_range hd
    have value : cvtElem 16 dt rnd sat ftz x = BitVec.ofNat 64 ((fmtOf dt).round rnd sat (ftz && ftzType dt) (l6Dec x.toNat)) := by
      simp [cvtElem, elemVal, notInt, notL6, Ne.symm notL6]
    simp only [value, ofNat_round_toNat hd]
    refine ⟨fun zero => ?_, fun nar => ?_, fun number => ?_⟩
    · rw [l6Dec_zero zero, round_zero hd]
      rfl
    · rw [l6Dec_nar nar, round_nan hd]
    · have reads := l6Dec_num number
      generalize hk : ((x.toNat % 64 % 32 : Nat) : Int) - 16 = k at reads ⊢
      obtain ⟨mag, normal, fits, code⟩ := roundMag_l6t hd exact (decide (32 ≤ x.toNat % 64)) (k := k) (by omega) (by omega)
      rw [reads, round_fits hd _ _ (mag.symm ▸ fits), mag, Fmt.flush, (agrees hd).mb, if_neg (by simp [normal]), mk'_eq hd, Nat.cast_add, code,
        ← add_assoc]
      by_cases positive : x.toNat % 64 < 32
      · simp [positive, positive.not_ge]
      · simp [positive, not_lt.mp positive]

/-- Settles O7: one lemma for each kind of source and target. -/
theorem conversionValues : Obligations.ConversionValues := by
  unfold Obligations.ConversionValues
  intro st dt rnd sat ftz x hr
  refine ⟨?floats, ?same, ?toInteger, ?integers, ?fromInteger, ?toLog, ?fromLog⟩
  case floats => exact fun hs hd h nearest => cvtElem_float_yields hs hd h hr nearest sat ftz x
  case same =>
    rintro hs rfl
    exact cvtElem_same hs rnd sat ftz x
  case toInteger =>
    intro hs hd
    rw [flushes_eq hs]
    exact cvtElem_float_int hs hd hr sat ftz x
  case integers => exact fun hs hd => cvtElem_int hs hd rnd sat ftz x
  case fromInteger => exact fun hs hd nearest => cvtElem_int_yields hs hd hr nearest sat ftz x
  case toLog =>
    rintro - source rfl
    by_cases whole : st ≤ 7
    · have value : cvtElem st 16 rnd sat ftz x = BitVec.ofNat 64 (toL6 sat (.num (decide (numOf st x < 0)) (numOf st x).natAbs 0)) := by
        simp [cvtElem, elemVal, whole, intVal_eq_numOf (by omega : st ≤ 9), show st ≠ 16 by omega]
      simp only [if_pos whole, value]
      exact toL6_value (low := 0) (.num (by simp)) sat
    · have hs : st ∈ floatTypes := source.resolve_left whole
      obtain ⟨-, notL6⟩ := floatTypes_range hs
      have value : cvtElem st 16 rnd sat ftz x = BitVec.ofNat 64 (toL6 sat ((fmtOf st).dec (flushes st ftz) x.toNat)) := by
        simp [cvtElem, elemVal_float hs, whole, notL6, flushes_eq hs]
      simp only [if_neg whole, value]
      exact toL6_value (dec_stands hs _ _) sat
  case fromLog =>
    rintro rfl
    exact cvtElem_l6 dt rnd sat ftz x

end Sys2Proof.Claims
end

section
/-! SUPPORT. The sums of the matrix unit (06 R141 to R145). -/

namespace Sys2Proof.Claims
open Sys2Proof.Machine

/-! ### Products -/

theorem mul_stands {la lb : Nat} {x y : FV} {X Y : Num} (hx : Stands la x X) (hy : Stands lb y Y) :
    Stands (la + lb) (FV.mul x y) (productNum X Y) := by
  cases hx with
  | nan => exact .nan
  | inf a =>
    cases hy with
    | nan => exact .nan
    | inf b => exact .inf _
    | @num b k w g value =>
      obtain ⟨-, -, none⟩ := (Stands.num (neg := b) value).value
      simp only [FV.mul, productNum, beq_iff_eq, none]
      split
      · exact .nan
      · exact .inf _
  | @num a m u e value =>
    obtain ⟨-, -, noLeft⟩ := (Stands.num (neg := a) value).value
    cases hy with
    | nan => exact .nan
    | inf b =>
      simp only [FV.mul, productNum, beq_iff_eq, noLeft]
      split
      · exact .nan
      · exact .inf _
    | @num b k w g value' =>
      refine .num ?_
      rw [zpow_add₀ (by norm_num), pow_add]
      push_cast
      rw [← value, ← value']
      ring

/-! ### Sums -/

/-- The sum of a list of signed numbers. -/
def total (l : List (Bool × Nat × Int)) : ℚ := (l.map fun x => signedValue x.1 x.2.1 x.2.2).sum

/-- The least exponent of a list of numbers, as the model finds it. -/
def leastExponent (l : List (Bool × Nat × Int)) (q : Int) : Int := l.foldl (fun q x => min q x.2.2) q

theorem leastExponent_le (l : List (Bool × Nat × Int)) (q : Int) : leastExponent l q ≤ q ∧ ∀ x ∈ l, leastExponent l q ≤ x.2.2 := by
  induction l generalizing q with
  | nil => simp [leastExponent]
  | cons y l ih =>
    obtain ⟨start, rest⟩ := ih (min q y.2.2)
    change leastExponent l (min q y.2.2) ≤ _ ∧ _
    refine ⟨start.trans (min_le_left _ _), fun x hx => ?_⟩
    rcases List.mem_cons.mp hx with rfl | hx
    · exact start.trans (min_le_right _ _)
    · exact rest x hx

theorem foldl_scaled (l : List (Bool × Nat × Int)) {q : Int} (h : ∀ x ∈ l, q ≤ x.2.2) (acc : Int) :
    ((l.foldl (fun acc x => acc + scaled x.1 x.2.1 x.2.2 q) acc : Int) : ℚ) * 2 ^ q = acc * 2 ^ q + total l := by
  induction l generalizing acc with
  | nil => simp [total]
  | cons y l ih =>
    have split : total (y :: l) = signedValue y.1 y.2.1 y.2.2 + total l := by rw [total, List.map_cons, List.sum_cons, total]
    rw [List.foldl_cons, ih (fun x hx => h x (List.mem_cons_of_mem _ hx)), split]
    push_cast
    rw [add_mul, scaled_value _ _ (h y List.mem_cons_self), add_assoc]

/-- A product after the truncation of 06 R144, unless it is a zero. -/
def kept (E : Option Int) : FV → Option (Bool × Nat × Int)
  | .num n m e => if m = 0 then none else
      (match E with
        | none => some (n, m, e)
        | some q => if q ≤ e then some (n, m, e) else some (n, m / 2 ^ (q - e).toNat, q))
  | _ => none

/-- The sign of an infinite product. -/
def infSign : FV → Option Bool
  | .inf n => some n
  | _ => none

/-- The exact sum of what is kept, from its least exponent up; an exact zero is +0 (06 R143). -/
def keptSum (l : List (Bool × Nat × Int)) : FV :=
  match l with
  | [] => .num false 0 0
  | _ =>
    let q := leastExponent l ((l.head?.map (·.2.2)).getD 0)
    let x := l.foldl (fun acc x => acc + scaled x.1 x.2.1 x.2.2 q) 0
    if x == 0 then .num false 0 0 else .num (x < 0) x.natAbs q

theorem groupSum_eq (ps : List FV) (E : Option Int) : groupSum ps E =
    if ps.any FV.isNaN then .nan
    else if (ps.filterMap infSign).contains true && (ps.filterMap infSign).contains false then .nan
    else match (ps.filterMap infSign).head? with
      | some n => .inf n
      | none => keptSum (ps.filterMap (kept E)) := rfl

theorem keptSum_value (l : List (Bool × Nat × Int)) :
    ∃ s m e, keptSum l = .num s m e ∧ signedValue s m e = total l ∧ (m = 0 → s = false) := by
  cases l with
  | nil => exact ⟨false, 0, 0, rfl, by simp [signedValue, total], fun _ => rfl⟩
  | cons y l =>
    obtain ⟨-, least⟩ := leastExponent_le (y :: l) (((y :: l).head?.map (·.2.2)).getD 0)
    have value := foldl_scaled (y :: l) least 0
    simp only [keptSum]
    generalize leastExponent (y :: l) (((y :: l).head?.map (·.2.2)).getD 0) = q at value ⊢
    generalize (y :: l).foldl (fun acc x => acc + scaled x.1 x.2.1 x.2.2 q) 0 = x at value ⊢
    rw [Int.cast_zero, zero_mul, zero_add] at value
    rw [← value]
    by_cases none : x = 0
    · exact ⟨false, 0, 0, by simp [none], by simp [signedValue, none], fun _ => rfl⟩
    · exact ⟨decide (x < 0), x.natAbs, q, by simp [none], signedValue_int x q, fun h => absurd (Int.natAbs_eq_zero.mp h) none⟩

/-! ### Truncation (06 R144) -/

/-- `u` units in whole steps of 2^places. -/
def truncated (places u : Nat) : Nat := u / 2 ^ places * 2 ^ places

theorem truncated_zero (u : Nat) : truncated 0 u = u := by simp [truncated]

theorem signedValue_signed (neg : Bool) {m u low : Nat} {e : Int} (h : (m : ℚ) * 2 ^ e * 2 ^ low = u) :
    signedValue neg m e * 2 ^ low = signed neg u :=
  (Stands.num (neg := neg) h).value.2.1

/-- A number that is a multiple of 2^q loses nothing. -/
theorem truncated_of_le {low m u : Nat} {e q : Int} (h : q ≤ e) (value : (m : ℚ) * 2 ^ e * 2 ^ low = u) : truncated (q + low).toNat u = u := by
  rcases le_or_gt (q + low) 0 with below | above
  · rw [Int.toNat_of_nonpos below, truncated_zero]
  · obtain ⟨k, hk⟩ := Int.eq_ofNat_of_zero_le above.le
    obtain ⟨j, hj⟩ := Int.eq_ofNat_of_zero_le (sub_nonneg.mpr h)
    have number : u = m * 2 ^ j * 2 ^ k := by
      have split : (2 : ℚ) ^ e * 2 ^ low = 2 ^ j * 2 ^ k := by
        rw [← zpow_natCast, ← zpow_natCast, ← zpow_natCast, ← zpow_add₀ (by norm_num), ← zpow_add₀ (by norm_num)]
        congr 1
        omega
      rw [mul_assoc, split, ← mul_assoc] at value
      exact_mod_cast value.symm
    rw [hk, Int.toNat_natCast, truncated, number, Nat.mul_div_cancel _ (by positivity)]

/-- The quotient of a significand by the weight of a place is the number of units truncated to that place. -/
theorem truncated_of_gt {low m u : Nat} {e q : Int} (h : e < q) (value : (m : ℚ) * 2 ^ e * 2 ^ low = u) :
    ((m / 2 ^ (q - e).toNat : Nat) : ℚ) * 2 ^ q * 2 ^ low = truncated (q + low).toNat u := by
  obtain ⟨d, hd⟩ := Int.eq_ofNat_of_zero_le (sub_nonneg.mpr h.le)
  have number : (m : ℚ) * 2 ^ (e + low) = u := by rw [zpow_add₀ (by norm_num), zpow_natCast, ← mul_assoc, value]
  rw [hd, Int.toNat_natCast, mul_assoc, ← zpow_natCast, ← zpow_add₀ (by norm_num)]
  rcases le_or_gt 0 (q + low) with above | below
  · obtain ⟨k, hk⟩ := Int.eq_ofNat_of_zero_le above
    have cross : m * 2 ^ k = u * 2 ^ d := by
      have weight : (2 : ℚ) ^ k = 2 ^ (e + low) * 2 ^ d := by
        rw [← zpow_natCast, ← zpow_natCast, ← zpow_add₀ (by norm_num)]
        congr 1
        omega
      have : (m : ℚ) * 2 ^ k = u * 2 ^ d := by rw [weight, ← mul_assoc, number]
      exact_mod_cast this
    have same : u / 2 ^ k = m / 2 ^ d := by
      rw [← Nat.mul_div_mul_right u (2 ^ k) (Nat.two_pow_pos d), ← cross, mul_comm (2 ^ k), Nat.mul_div_mul_right _ _ (Nat.two_pow_pos k)]
    rw [hk, Int.toNat_natCast, truncated, same, zpow_natCast]
    push_cast
    rfl
  · obtain ⟨k, hk⟩ := Int.eq_ofNat_of_zero_le (by omega : 0 ≤ -(q + low))
    have whole : m = u * 2 ^ k * 2 ^ d := by
      have weight : (2 : ℚ) ^ (e + low) * (2 ^ k * 2 ^ d) = 1 := by
        rw [← zpow_natCast, ← zpow_natCast, ← zpow_add₀ (by norm_num), ← zpow_add₀ (by norm_num), ← zpow_zero (2 : ℚ)]
        congr 1
        omega
      have : (m : ℚ) = u * 2 ^ k * 2 ^ d := by rw [← number, mul_assoc, mul_assoc, weight, mul_one]
      exact_mod_cast this
    have weight : (2 : ℚ) ^ k * 2 ^ (q + low) = 1 := by
      rw [← zpow_natCast, ← zpow_add₀ (by norm_num), ← zpow_zero (2 : ℚ)]
      congr 1
      omega
    rw [Int.toNat_of_nonpos below.le, truncated_zero, whole, Nat.mul_div_cancel _ (by positivity)]
    push_cast
    rw [mul_assoc, weight, mul_one]

/-- How many places of the units a truncation to 2^q cuts. -/
def cutPlaces (low : Nat) (E : Option Int) : Nat := match E with | none => 0 | some q => (q + low).toNat

/-- The units of a finite number, and none of what is not finite. -/
def unitsOf : Num → Bool × Nat
  | .num n u => (n, u)
  | _ => (false, 0)

theorem kept_value {low : Nat} {p : FV} {q : Num} (h : Stands low p q) (E : Option Int) :
    total (kept E p).toList * 2 ^ low = signed (unitsOf q).1 (truncated (cutPlaces low E) (unitsOf q).2) := by
  have nothing : ∀ b, signed b (truncated (cutPlaces low E) 0) = 0 := fun b => by cases b <;> simp [signed, truncated]
  cases h with
  | nan => simp [kept, total, unitsOf, nothing]
  | inf neg => simp [kept, total, unitsOf, nothing]
  | @num neg m u e value =>
    obtain ⟨-, -, zero⟩ := (Stands.num (neg := neg) value).value
    by_cases none : m = 0
    · simp [kept, total, unitsOf, none, zero.mp none, nothing]
    · have single : ∀ x : Bool × Nat × Int, total [x] = signedValue x.1 x.2.1 x.2.2 := fun x => by simp [total]
      cases E with
      | none =>
        simp only [kept, if_neg none, Option.toList_some, single, unitsOf, cutPlaces, truncated_zero]
        exact signedValue_signed neg value
      | some q =>
        simp only [kept, if_neg none, unitsOf, cutPlaces]
        split
        · next le =>
          rw [Option.toList_some, single, truncated_of_le le value]
          exact signedValue_signed neg value
        · next gt =>
          rw [Option.toList_some, single]
          exact signedValue_signed neg (truncated_of_gt (not_le.mp gt) value)

/-- The sum of a group's units, each truncated. -/
def unitSum (places : Nat) (qs : List Num) : Int := ((qs.map unitsOf).map fun x => signed x.1 (truncated places x.2)).sum

theorem kept_sum {low : Nat} {ps : List FV} {qs : List Num} (h : List.Forall₂ (Stands low) ps qs) (E : Option Int) :
    total (ps.filterMap (kept E)) * 2 ^ low = unitSum (cutPlaces low E) qs := by
  induction h with
  | nil => simp [total, unitSum]
  | @cons p q ps qs hpq _ ih =>
    have head := kept_value hpq E
    have split : total ((p :: ps).filterMap (kept E)) = total (kept E p).toList + total (ps.filterMap (kept E)) := by
      rw [List.filterMap_cons]
      cases kept E p <;> simp [total]
    rw [split, add_mul, head, ih, unitSum, unitSum, List.map_cons, List.map_cons, List.sum_cons]
    push_cast
    rfl

/-! ### The place of the truncation -/

/-- The greatest leading place of a group's units. -/
def leadingPlace (qs : List Num) : Nat := (qs.map unitsOf).foldl (fun m x => max m (Nat.log2 x.2)) 0

theorem top_log2 {low : Nat} {p : FV} {q : Num} (h : Stands low p q) :
    p.top = if (unitsOf q).2 = 0 then none else some ((Nat.log2 (unitsOf q).2 : Int) - low) := by
  cases h with
  | nan => rfl
  | inf neg => rfl
  | @num neg m u e value =>
    obtain ⟨-, -, zero⟩ := (Stands.num (neg := neg) value).value
    by_cases none : u = 0
    · exact (if_pos (zero.mpr none)).trans (if_pos none).symm
    · refine (if_neg (zero.not.mpr none)).trans (Eq.trans ?_ (if_neg none).symm)
      rw [(leading_place (zero.not.mpr none) value (Nat.log2_self_le none) Nat.lt_log2_self).1]
      rfl

theorem foldl_top {low : Nat} {ps : List FV} {qs : List Num} (h : List.Forall₂ (Stands low) ps qs) (n : Nat) :
    (ps.filterMap FV.top).foldl max ((n : Int) - low) = ((qs.map unitsOf).foldl (fun m x => max m (Nat.log2 x.2)) n : Nat) - (low : Int) := by
  induction h generalizing n with
  | nil => rfl
  | @cons p q ps qs hpq _ ih =>
    rw [List.filterMap_cons, top_log2 hpq, List.map_cons, List.foldl_cons, ← ih]
    split
    · next none =>
      split at none
      · next zero => simp [zero]
      · cases none
    · next top value =>
      split at value
      · cases value
      · cases value
        rw [List.foldl_cons]
        congr 1
        omega

/-- The model truncates at the place that the statements name, 31 places from the leading one. -/
theorem cutPlaces_groupTrunc {low : Nat} {ps : List FV} {qs : List Num} (h : List.Forall₂ (Stands low) ps qs) :
    cutPlaces low (groupTrunc ps) = leadingPlace qs - 30 := by
  have places := foldl_top h 0
  rw [Nat.cast_zero, zero_sub] at places
  change _ = (leadingPlace qs : Int) - low at places
  have low_le : ∀ x ∈ ps.filterMap FV.top, -(low : Int) ≤ x := by
    intro x hx
    obtain ⟨p, hp, top⟩ := List.mem_filterMap.mp hx
    obtain ⟨i, hi, rfl⟩ := List.getElem_of_mem hp
    change (ps.get ⟨i, hi⟩).top = some x at top
    rw [top_log2 ((List.forall₂_iff_get.mp h).2 i hi (by rw [← h.length_eq]; exact hi))] at top
    split at top
    · cases top
    · cases top
      omega
  rw [groupTrunc]
  cases tops : ps.filterMap FV.top with
  | nil =>
    rw [tops, List.foldl_nil] at places
    simp only [cutPlaces]
    omega
  | cons x t =>
    rw [tops] at places low_le
    rw [List.foldl_cons, max_eq_right (low_le x List.mem_cons_self)] at places
    simp only [cutPlaces, places]
    omega

/-! ### A group's sum -/

def Num.isNan : Num → Bool
  | .nan => true
  | _ => false
def Num.isInf (b : Bool) : Num → Bool
  | .inf n => n == b
  | _ => false

/-- The sum of a group in the units of its products, 2^-low, as an exact result of F32 (06 R143, R144). -/
def groupNums (places low : Nat) (qs : List Num) : Exact :=
  if qs.any Num.isNan || (qs.any (Num.isInf true) && qs.any (Num.isInf false)) then .nan
  else if qs.any (Num.isInf true) then .inf true else if qs.any (Num.isInf false) then .inf false
  else .of false (unitSum places qs * 2 ^ (149 - low)) (2 ^ (low - 149))

theorem groupExact_eq (ta tb : Nat) (cut : Bool) (l : List (Nat × Nat)) : groupExact ta tb cut l =
    let qs := l.map fun xy => productNum (readNum ta false xy.1) (readNum tb false xy.2)
    groupNums (if cut then leadingPlace qs - 30 else 0) ((layout ta).low + (layout tb).low) qs := rfl

theorem any_isNaN {low : Nat} {ps : List FV} {qs : List Num} (h : List.Forall₂ (Stands low) ps qs) : ps.any FV.isNaN = qs.any Num.isNan := by
  induction h with
  | nil => rfl
  | cons hpq _ ih =>
    rw [List.any_cons, List.any_cons, ih]
    cases hpq <;> rfl

theorem contains_infSign {low : Nat} {ps : List FV} {qs : List Num} (h : List.Forall₂ (Stands low) ps qs) (b : Bool) :
    (ps.filterMap infSign).contains b = qs.any (Num.isInf b) := by
  induction h with
  | nil => rfl
  | cons hpq _ ih =>
    rw [List.any_cons, ← ih]
    cases hpq with
    | nan => rfl
    | inf n => cases n <;> cases b <;> rfl
    | num value => rfl

/-- The first of infinities of one sign. -/
theorem head?_of_contains (l : List Bool) (h : (l.contains true && l.contains false) = false) :
    l.head? = if l.contains true then some true else if l.contains false then some false else none := by
  cases l with
  | nil => rfl
  | cons x t => cases x <;> simp_all

theorem groupSum_nan {low : Nat} {ps : List FV} {qs : List Num} (h : List.Forall₂ (Stands low) ps qs) (E : Option Int)
    (nan : qs.any Num.isNan = true) : groupSum ps E = .nan := by
  rw [groupSum_eq, any_isNaN h, if_pos nan]

/-- The sum of a group of finite products. -/
theorem groupSum_finite {low : Nat} {ps : List FV} {qs : List Num} (h : List.Forall₂ (Stands low) ps qs) (E : Option Int)
    (number : qs.any Num.isNan = false) (finite : ∀ b, qs.any (Num.isInf b) = false) : ∃ s m e, groupSum ps E = .num s m e ∧
      signedValue s m e * 2 ^ low = unitSum (cutPlaces low E) qs ∧ (m = 0 → s = false) := by
  have signs := head?_of_contains (ps.filterMap infSign)
  rw [contains_infSign h, contains_infSign h, finite, finite] at signs
  obtain ⟨s, m, e, sum, value, zero⟩ := keptSum_value (ps.filterMap (kept E))
  refine ⟨s, m, e, ?_, by rw [value, kept_sum h], zero⟩
  rw [groupSum_eq, any_isNaN h, number, contains_infSign h, contains_infSign h, finite, finite, signs rfl]
  exact sum

theorem groupSum_denotes {low : Nat} {ps : List FV} {qs : List Num} (h : List.Forall₂ (Stands low) ps qs) (E : Option Int) :
    Denotes 149 (groupSum ps E) (groupNums (cutPlaces low E) low qs) := by
  rw [groupNums]
  cases number : qs.any Num.isNan with
  | true =>
    rw [groupSum_nan h E number]
    exact .nan
  | false =>
    have signs := head?_of_contains (ps.filterMap infSign)
    have sum := groupSum_eq ps E
    rw [any_isNaN h, number, contains_infSign h, contains_infSign h] at sum
    rw [contains_infSign h, contains_infSign h] at signs
    cases positive : qs.any (Num.isInf true) with
    | true =>
      cases negative : qs.any (Num.isInf false) with
      | true =>
        rw [sum, positive, negative]
        exact .nan
      | false =>
        rw [sum, signs (by simp [negative]), positive, negative]
        exact .inf true
    | false =>
      cases negative : qs.any (Num.isInf false) with
      | true =>
        rw [sum, signs (by simp [positive]), positive, negative]
        exact .inf false
      | false =>
        obtain ⟨s, m, e, finite, value, zero⟩ := groupSum_finite h E number fun b => by cases b <;> assumption
        rw [finite]
        exact .rescale value zero

end Sys2Proof.Claims
end

section
/-! SUPPORT. An element of C after an MMA: its groups, one after the other (06 R142 to R145). -/

namespace Sys2Proof.Claims
open Sys2Proof.Machine

/-! ### Elements and products -/

theorem elemType_float (c : Nat) : elemType c ∈ floatTypes := by
  unfold elemType
  split <;> decide

theorem sfmtDec_eq {c : Nat} (h : c ≤ 4) (x : Nat) : sfmtDec c x = (fmtOf (elemType c)).dec false x := by
  rw [← dec_mod (elemType_float c)]
  interval_cases c
  · rfl
  · rfl
  · rfl
  · rfl
  · exact (dec_mod (t := 12) (by decide) false x).symm

theorem mmaMul_stands {o : MmaOp} (ha : o.fa ≤ 4) (hb : o.fb ≤ 4) (x y : Nat) :
    Stands ((layout (elemType o.fa)).low + (layout (elemType o.fb)).low) (mmaMul o x y)
      (productNum (readNum (elemType o.fa) false x) (readNum (elemType o.fb) false y)) := by
  rw [mmaMul, if_neg (by simp; omega), sfmtDec_eq ha, sfmtDec_eq hb]
  exact mul_stands (dec_stands (elemType_float _) _ _) (dec_stands (elemType_float _) _ _)

theorem map_stands {α : Type} {low : Nat} {f : α → FV} {g : α → Num} (h : ∀ x, Stands low (f x) (g x)) (l : List α) :
    List.Forall₂ (Stands low) (l.map f) (l.map g) := by
  induction l with
  | nil => exact .nil
  | cons x l ih => exact .cons (h x) ih

/-- The sum of one group of floating products (06 R143, R144). -/
theorem group_denotes {o : MmaOp} (ha : o.fa ≤ 4) (hb : o.fb ≤ 4) (cut : Bool) (l : List (Nat × Nat)) :
    let ps := l.map fun xy => mmaMul o xy.1 xy.2
    Denotes 149 (groupSum ps (if cut then groupTrunc ps else none)) (groupExact (elemType o.fa) (elemType o.fb) cut l) := by
  have stands := map_stands (fun xy : Nat × Nat => mmaMul_stands ha hb xy.1 xy.2) l
  rw [groupExact_eq]
  cases cut with
  | false => exact groupSum_denotes stands none
  | true =>
    simp only [if_true, ← cutPlaces_groupTrunc stands]
    exact groupSum_denotes stands _

/-! ### Accumulation (06 R145) -/

theorem f32_float : 12 ∈ floatTypes := by decide

theorem accumulates_cons {v : FV} {g : Exact} (h : Denotes 149 v g) {c r : Nat} {gs : List Exact}
    (rest : Accumulates gs (addF32 c (fF32.round 0 false false v)) r) : Accumulates (g :: gs) c r :=
  ⟨_, _, round_yields f32_float false false (by decide) h (by decide),
    round_yields f32_float false false (by decide) (add_denotes (dec_stands f32_float _ _) (dec_stands f32_float _ _)) (by decide), rest⟩

theorem accumulates_foldl {α : Type} {v : α → FV} {g : α → Exact} (h : ∀ x, Denotes 149 (v x) (g x)) (l : List α) (c : Nat) :
    Accumulates (l.map g) c (l.foldl (fun c x => addF32 c (fF32.round 0 false false (v x))) c) := by
  induction l generalizing c with
  | nil => rfl
  | cons x l ih => exact accumulates_cons (h x) (ih _)

theorem chunks_flatten {α : Type} {k : Nat} (gs : List (List α)) (h : ∀ g ∈ gs, g.length = k) : chunks k gs.length gs.flatten = gs := by
  induction gs with
  | nil => rfl
  | cons g gs ih =>
    obtain ⟨length, rest⟩ := List.forall_mem_cons.mp h
    rw [List.length_cons, List.flatten_cons, chunks, List.take_left' length, List.drop_left' length, ih rest]

/-- Products cut into groups of a length are the groups' products. -/
theorem chunks_products {α β : Type} {k : Nat} (pos : 0 < k) (f : α → β) (gs : List (List α)) (h : ∀ g ∈ gs, g.length = k) :
    chunks k ((gs.flatten.map f).length / k) (gs.flatten.map f) = gs.map (List.map f) := by
  have groups : ∀ g ∈ gs.map (List.map f), g.length = k := by
    intro g hg
    obtain ⟨l, hl, rfl⟩ := List.mem_map.mp hg
    rw [List.length_map, h l hl]
  have count : (gs.flatten.map f).length / k = (gs.map (List.map f)).length := by
    have lengths : gs.map List.length = gs.map fun _ => k := List.map_congr_left h
    rw [List.length_map, List.length_map, List.length_flatten, lengths, List.map_const', List.sum_replicate, smul_eq_mul, Nat.mul_div_cancel _ pos]
  rw [count, List.map_flatten]
  exact chunks_flatten _ groups

theorem mmaElem_groups {o : MmaOp} (h : o.fa ≤ 4) (scale : Int) (c : Nat) {gs : List (List (Nat × Nat))}
    (lengths : ∀ g ∈ gs, g.length = if o.fa ≤ 1 then 64 else 8) :
    mmaElem o.fa scale c (gs.flatten.map fun xy => mmaMul o xy.1 xy.2) = gs.foldl (fun c g =>
      let ps := g.map fun xy => mmaMul o xy.1 xy.2
      addF32 c (fF32.round 0 false false (groupSum ps (if decide (2 ≤ o.fa) then groupTrunc ps else none)))) c := by
  rw [mmaElem, if_neg (by simp; omega)]
  split
  · next eight =>
    have notCut : decide (2 ≤ o.fa) = false := decide_eq_false (by omega)
    simp only [if_pos eight] at lengths
    rw [chunks_products (by decide) _ gs lengths, List.foldl_map, notCut]
    rfl
  · next wider =>
    have cut : decide (2 ≤ o.fa) = true := decide_eq_true (by omega)
    simp only [if_neg wider] at lengths
    rw [chunks_products (by decide) _ gs lengths, List.foldl_map, cut]
    rfl

/-! ### L6 (06 R142) -/

/-- The units of 2^-23 of a product of L6 codes. -/
def l6Units (x y : Nat) : Nat :=
  let cc : Int := (x % 32 + y % 32 : Nat) - 32
  nth 0 [0x8000, 0x9838, 0xB505, 0xD745] (cc.emod 4).toNat * 2 ^ (cc.fdiv 4 + 8).toNat

/-- What the product of two L6 codes stands for. -/
def l6Num (x y : Nat) : Num :=
  if x % 64 == 0x20 || y % 64 == 0x20 then .nan
  else if x % 32 = 0 ∨ y % 32 = 0 then .num false 0 else .num (x / 32 % 2 != y / 32 % 2) (l6Units x y)

theorem l6t_eq {j : Nat} (h : j < 4) : l6t j = nth 0 [0x8000, 0x9838, 0xB505, 0xD745] j := by
  interval_cases j <;> rfl

theorem l6Mul_stands (x y : Nat) : Stands 23 (l6Mul x y) (l6Num x y) := by
  unfold l6Mul l6Num
  split
  · exact .nan
  · by_cases zero : x % 32 = 0 ∨ y % 32 = 0
    · rw [if_pos (by simpa using zero), if_pos zero]
      exact .num (by simp)
    · have sign : (bitN x 5 != bitN y 5) = (x / 32 % 2 != y / 32 % 2) := by
        rcases Nat.mod_two_eq_zero_or_one (x / 32) with hx | hx <;> rcases Nat.mod_two_eq_zero_or_one (y / 32) with hy | hy <;>
          simp [bitN, hx, hy]
      rw [if_neg (by simpa using zero), if_neg zero, sign]
      simp only [l6Units]
      generalize hcc : ((x % 32 + y % 32 : Nat) : Int) - 32 = cc
      have quarter : (cc.emod 4).toNat < 4 := by
        change (cc % 4).toNat < 4
        omega
      have exponent : cc.fdiv 4 = cc / 4 := Int.fdiv_eq_ediv_of_nonneg _ (by decide)
      refine .num ?_
      rw [l6t_eq quarter, mul_assoc, ← zpow_natCast, ← zpow_add₀ (by norm_num)]
      push_cast
      rw [← zpow_natCast]
      congr 2
      omega

/-- A group of L6 products holds no infinity, and a NaN where a code is the NaR. -/
theorem l6Num_special (l : List (Nat × Nat)) : (∀ b, (l.map fun xy => l6Num xy.1 xy.2).any (Num.isInf b) = false) ∧
    (l.map fun xy => l6Num xy.1 xy.2).any Num.isNan = l.any fun xy => xy.1 % 64 == 0x20 || xy.2 % 64 == 0x20 := by
  have each : ∀ x y, (∀ b, Num.isInf b (l6Num x y) = false) ∧ Num.isNan (l6Num x y) = (x % 64 == 0x20 || y % 64 == 0x20) := fun x y => by
    unfold l6Num
    split
    · next nar => exact ⟨fun _ => rfl, nar.symm⟩
    · next number =>
      rw [Bool.not_eq_true] at number
      rw [number]
      split <;> exact ⟨fun _ => rfl, rfl⟩
  constructor
  · intro b
    rw [List.any_map, List.any_eq_false]
    exact fun xy _ => by simp [(each xy.1 xy.2).1 b]
  · rw [List.any_map]
    congr 1
    funext xy
    exact (each xy.1 xy.2).2

/-- The units of a sum of L6 products, as the statements write them. -/
theorem unitSum_l6 {l : List (Nat × Nat)} (number : (l.any fun xy => xy.1 % 64 == 0x20 || xy.2 % 64 == 0x20) = false) :
    unitSum 0 (l.map fun xy => l6Num xy.1 xy.2) = (l.map fun xy => if xy.1 % 32 = 0 ∨ xy.2 % 32 = 0 then 0 else
      signed (xy.1 / 32 % 2 != xy.2 / 32 % 2) (l6Units xy.1 xy.2)).sum := by
  rw [unitSum, List.map_map, List.map_map]
  congr 1
  refine List.map_congr_left fun xy hxy => ?_
  rw [List.any_eq_false] at number
  have numbers := number xy hxy
  simp only [Function.comp_apply, truncated_zero, l6Num, if_neg numbers]
  split <;> rfl

/-- A sum of L6 products scaled by a power of two, in units of F32 (06 R142). -/
theorem scaled_denotes (scale : Int) {s : Bool} {m : Nat} {e n : Int} (value : signedValue s m e * 2 ^ 23 = n) (zero : m = 0 → s = false) :
    Denotes 149 (.num s m (e + scale)) (.of false (n * 2 ^ (126 + scale).toNat) (2 ^ (-(126 + scale)).toNat)) := by
  refine .of (by positivity) ?_ zero
  have shifted : signedValue s m (e + scale) = signedValue s m e * 2 ^ scale := by
    rw [signedValue, signedValue, zpow_add₀ (by norm_num), mul_assoc _ ((2 : ℚ) ^ e)]
  have weight : (2 : ℚ) ^ scale * 2 ^ 149 * 2 ^ (-(126 + scale)).toNat = 2 ^ 23 * 2 ^ (126 + scale).toNat := by
    simp only [← zpow_natCast]
    rw [← zpow_add₀ (by norm_num), ← zpow_add₀ (by norm_num), ← zpow_add₀ (by norm_num)]
    congr 1
    push_cast
    omega
  rw [eq_div_iff (by positivity), shifted]
  push_cast
  rw [← value, mul_assoc, mul_assoc, ← mul_assoc ((2 : ℚ) ^ scale), weight]
  ring

theorem l6Exact_denotes (scale : Int) (l : List (Nat × Nat)) :
    Denotes 149 (match groupSum (l.map fun xy => l6Mul xy.1 xy.2) none with
      | .num n m e => FV.num n m (e + scale)
      | x => x) (l6Exact scale l) := by
  have stands := map_stands (fun xy : Nat × Nat => l6Mul_stands xy.1 xy.2) l
  obtain ⟨finite, nan⟩ := l6Num_special l
  cases number : l.any fun xy => xy.1 % 64 == 0x20 || xy.2 % 64 == 0x20 with
  | true =>
    rw [groupSum_nan stands none (nan.trans number), l6Exact, if_pos number]
    exact .nan
  | false =>
    obtain ⟨s, m, e, sum, value, zero⟩ := groupSum_finite stands none (nan.trans number) finite
    change _ = ((unitSum 0 _ : Int) : ℚ) at value
    rw [unitSum_l6 number] at value
    rw [sum, l6Exact, number]
    exact scaled_denotes scale value zero

/-- Settles O9: group by group, and for L6 the one sum in its window. -/
theorem matrixValues : Obligations.MatrixValues := by
  unfold Obligations.MatrixValues
  refine ⟨?groups, ?window⟩
  case groups =>
    intro o scale c gs _ formats
    have narrow : o.fa ≤ 4 ∧ o.fb ≤ 4 ∧ ∀ g ∈ gs, g.length = if o.fa ≤ 1 then 64 else 8 := by
      rcases formats with ⟨ha, hb, lengths⟩ | ⟨low, high, same, lengths⟩
      · exact ⟨by omega, by omega, by simpa only [if_pos ha] using lengths⟩
      · exact ⟨high, by omega, by simpa only [if_neg (by omega : ¬ o.fa ≤ 1)] using lengths⟩
    obtain ⟨ha, hb, lengths⟩ := narrow
    rw [mmaElem_groups ha scale c lengths]
    exact accumulates_foldl (fun l => group_denotes ha hb _ l) gs c
  case window =>
    intro o scale c l _ format
    have products : (l.map fun xy => mmaMul o xy.1 xy.2) = l.map fun xy => l6Mul xy.1 xy.2 := by simp [mmaMul, format]
    rw [mmaElem, format, products]
    exact accumulates_cons (l6Exact_denotes scale l) rfl

end Sys2Proof.Claims
end

section
/-! SUPPORT. A context's bundle of one operation of the slots M, V, L and X: it issues, its effect stands, the context goes on (05 R93 to R99). -/

namespace Sys2Proof.Machine

/-! ### The bundle of one operation -/

theorem solePlans_ops (i : Instr) (w : W64) {k : Nat} (hk : k < 5) : (solePlans i w k).filterMap SlotPlan.op? = [i] := by
  interval_cases k <;> rfl

theorem solePlans_off (i : Instr) (w : W64) {k : Nat} (hk : k < 4) : (solePlans i w k)[4]? = some .off := by
  interval_cases k <;> rfl

/-- The operation's word enters its slot's history (05 R97). -/
theorem solePlans_hist (i : Instr) (w : W64) {k : Nat} (hk : k < 5) (hist : List (Nat × W64)) :
    ((List.range 5).zip (solePlans i w k)).foldl (fun t ip => match ip.2 with | .op _ w => mput t ip.1 w | _ => t) hist = mput hist k w := by
  interval_cases k <;> rfl

/-- A bundle whose operation passes its checks has no trap. -/
theorem plansTrap_none {s : State} {v : SV} {i : Instr} (w : W64) (k : Nat) (h : slotTraps s v i = []) :
    plansTrap s v (solePlans i w k) = none := by
  refine List.findSome?_eq_none_iff.2 fun p hp => ?_
  obtain rfl | rfl := mem_solePlans hp
  · rfl
  · simp [h, firstTrap]

/-- An operation that trades no tile, asks for no ticket and writes through no handle. -/
structure Local (i : Instr) : Prop where
  takes : ∀ s v, takeStall s v [i] = none
  writes : ∀ s v, lostWrite s v [i] = none
  tickets : ∀ s v, bundleTickets s v [i] = []

end Sys2Proof.Machine

namespace Sys2Proof.Claims
open Sys2Proof.Machine

theorem dataSlots_sole (s : State) (v : SV) (i : Instr) (w : W64) {k : Nat} (hk : k < 4) :
    dataSlots s v (solePlans i w k) = slotEffect s v [] i s := by
  interval_cases k <;> rfl

/-- The context after the effect of its bundle's only operation has led to `u`. -/
def wentOnAlone (s : State) (c k : Nat) (i : Instr) (u : State) (x : Ctx) : Ctx :=
  { x with
    a := (u.ctx c k).a
    hist := mput (s.ctx c k).hist (slotIndex i) ((encode i).head?.getD 0)
    wait := .none
    pos := BitVec.ofNat 32 (nextPos s c k)
    nextIssue := max x.nextIssue (u.now + 1)
    edge := false
    cur := startLevels s (s.ctx c k) }

theorem wentOn_sole (s : State) (c k : Nat) {i : Instr} {w : W64} (hw : (encode i).head?.getD 0 = w) (u : State) :
    wentOn s (slotView s c k) 0 (solePlans i w (slotIndex i)) u = wentOnAlone s c k i u := by
  subst hw
  funext x
  exact congrArg (fun hist => { wentOnAlone s c k i u x with hist := hist }) (solePlans_hist i _ (slotIndex_lt i) _)

/-- An operation of a data slot that issues alone. -/
theorem SlotIssues.issue {i : Instr} {h : Hdr} {c k : Nat} {s : State} (hi : SlotIssues i h c k s) (data : slotIndex i < 4) (here : Local i) :
    exec i s = .next (countBundle ((slotEffect s (slotView s c k) [] i s).modCtx c k
      (wentOnAlone s c k i (slotEffect s (slotView s c k) [] i s))) c k).useFree := by
  obtain ⟨-, wf, pn, pneg⟩ := hi.word
  obtain ⟨valid, zero, keep⟩ := hi.ctl
  have slotted := slots_of_wfSlot wf
  obtain ⟨body, meaning⟩ := exec_slotted hi.hdr slotted
  obtain ⟨o, b, word, decodes⟩ := decode_slotWord hi.hdr slotted
  have planned : planSlot (s.ctx c k) 0 (slotIndex i) (mkWord o h b) = .op i (mkWord o h b) :=
    planSlot_op (by rwa [ctlBit_mkWord _ _ _ _ (by decide)]) (by rwa [ctl_mkWord _ _ _ _ _ (by decide)])
      (by rwa [ctlBit_mkWord _ _ _ _ (by decide)]) decodes (slots_slotIndex slotted) (by rwa [hdrOf_mkWord])
      (by rwa [hdrOf_mkWord]) wf
  have first : (encode i).head?.getD 0 = mkWord o h b := by rw [word]; rfl
  have idle : (s.ctx c k).idle ((mkWord o h b).extractLsb' 0 8) = true := by
    rw [ctl_mkWord _ _ _ _ _ (by decide)]
    exact hi.idle
  have ops := solePlans_ops i (mkWord o h b) (slotIndex_lt i)
  have step : bundleStep s c k 0 (soleWords i) = issueBundle s (slotView s c k) 0 (solePlans i (mkWord o h b) (slotIndex i)) [] :=
    bundleStep_issues (by decide) rfl (planAll_sole first planned) hi.awake (bundleStalls_sole hi.awake idle hi.free)
      (plansTrap_none _ _ hi.checks) (by rw [ops]; exact here.takes ..) (by rw [ops]; exact here.writes ..)
      (by rw [ops]; exact here.tickets ..) (by rw [ops, List.findSome?_singleton]; exact hi.clean)
  rw [meaning, runEither_ctx hi.cur, runBundle_running _ _ hi.cur hi.bound hi.running, step,
    issueBundle_off (solePlans_off _ _ data), dataSlots_sole _ _ _ _ data, wentOn_sole s c k first]
  rfl

/-- Of a state that an operation's effect leads to, what may differ: its context, its core's results, operations and matrix unit, the
grids' counts, the model's agenda and counters. -/
structure SlotKeeps (c k : Nat) (s u : State) : Prop where
  others : ∀ n, n ≠ ckey c k → mget ({} : Ctx) u.ctxs n = mget {} s.ctxs n
  core : { u.core c with pend := (s.core c).pend, vars := (s.core c).vars, mmaFree := (s.core c).mmaFree } = s.core c
  cores : ∀ m, m ≠ c → u.core m = s.core m
  rest : { u with
    cores := s.cores, ctxs := s.ctxs, grids := s.grids, agenda := s.agenda, nextId := s.nextId, freeCtr := s.freeCtr } = s

theorem SlotKeeps.frame {c k : Nat} {s u t : State} {x : Ctx} (keeps : SlotKeeps c k s u) (hf : SlotFrame c k x u t) : SlotFrame c k x s t where
  ctx := hf.ctx
  others n hn := by
    have current : (u.core c).curCtx = (s.core c).curCtx := (congrArg Core.curCtx keeps.core :)
    rw [hf.others n hn, keeps.others n hn, current]
  core := by
    have current : (u.core c).curCtx = (s.core c).curCtx := (congrArg Core.curCtx keeps.core :)
    have from_u := congrArg (fun q : Core => { q with
      pend := (s.core c).pend, vars := (s.core c).vars, curCtx := (s.core c).curCtx, mmaFree := (s.core c).mmaFree }) hf.core
    have from_s := congrArg (fun q : Core => { q with curCtx := (s.core c).curCtx }) keeps.core
    exact from_u.trans from_s
  cur := hf.cur
  cores m hm := (hf.cores m hm).trans (keeps.cores m hm)
  rest := (congrArg (fun t : State => { t with
    cores := s.cores, ctxs := s.ctxs, grids := s.grids, agenda := s.agenda, nextId := s.nextId, freeCtr := s.freeCtr }) hf.rest).trans keeps.rest

end Sys2Proof.Claims
end

section
/-! SUPPORT. The matrix operations: what an MMA leaves of the state, and the words of its accumulator tile (05 R107, R118; 17 R404 to R406). -/

namespace Sys2Proof.Machine

/-! ### Rows of a table, one after the other -/

theorem flatMap_rows {α : Type} {m : Nat} (pos : 0 < m) (g : Nat → Nat → α) (n : Nat) :
    ((List.range n).flatMap fun r => (List.range m).map (g r)) = (List.range (m * n)).map fun i => g (i / m) (i % m) := by
  induction n with
  | zero => rfl
  | succ n ih =>
    rw [List.range_succ, List.flatMap_append, ih, Nat.mul_succ, List.range_add, List.map_append, List.flatMap_singleton, List.map_map]
    congr 1
    refine List.map_congr_left fun j hj => ?_
    have inside : j < m := List.mem_range.1 hj
    simp [Nat.mul_add_div pos, Nat.div_eq_of_lt inside, Nat.mod_eq_of_lt inside]

theorem nth_map_range {α : Type} (d : α) (f : Nat → α) {n i : Nat} (h : i < n) : nth d ((List.range n).map f) i = f i := by
  induction n generalizing f i with
  | zero => omega
  | succ n ih =>
    rw [List.range_succ_eq_map, List.map_cons, List.map_map]
    cases i with
    | zero => rfl
    | succ i => exact ih _ (by omega)

/-! ### The words of C -/

theorem mmaResult_eq (o : MmaOp) (scale : Int) (a : List W32) (b : List Byte) (c : List W32) :
    mmaResult o scale a b c = (List.range 1024).map fun i =>
      BitVec.ofNat 32 (mmaElem o.fa scale (nth 0 c (32 * (i / 32) + i % 32)).toNat (mmaProducts o (mmaRow o a (i / 32)) b (i % 32))) :=
  flatMap_rows (by decide) _ 32

theorem length_mmaResult (o : MmaOp) (scale : Int) (a : List W32) (b : List Byte) (c : List W32) : (mmaResult o scale a b c).length = 1024 := by
  rw [mmaResult_eq, List.length_map, List.length_range]

/-- Row `r`, column `n` of C (17 R406). -/
theorem nth_mmaResult (o : MmaOp) (scale : Int) (a : List W32) (b : List Byte) (c : List W32) {r n : Nat} (hr : r < 32) (hn : n < 32) :
    nth 0 (mmaResult o scale a b c) (32 * r + n) =
      BitVec.ofNat 32 (mmaElem o.fa scale (nth 0 c (32 * r + n)).toNat (mmaProducts o (mmaRow o a r) b n)) := by
  have row : (32 * r + n) / 32 = r := by omega
  have column : (32 * r + n) % 32 = n := by omega
  rw [mmaResult_eq, nth_map_range _ _ (by omega), row, column]

/-- The bytes of B, the scale and the words that an MMA writes (17 R405, R406). -/
def mmaBytes (s : State) (v : SV) (o : MmaOp) : List Byte :=
  (List.range (mmaB o)).map fun n => mget 0 (s.group v.gid).scratch ((readA s v 2 o.f.ba.toNat).toNat % 2 ^ 32 + n)

def mmaScale (s : State) (v : SV) (o : MmaOp) : Int :=
  if o.scaled then sextN (readA s v 3 (8 * o.f.fa.toNat + o.f.fb.toNat)).toNat 8 +
    sextN (readA s v 4 (8 * o.f.fa.toNat + o.f.fb.toNat + 1)).toNat 8 else 0

def mmaWords (s : State) (v : SV) (o : MmaOp) : List W32 :=
  if mmaUnsettled s v o then (List.range 1024).map fun i => lo32 (s.free (560000 + i))
  else mmaResult o (mmaScale s v o) (mmaA s v o) (mmaBytes s v o) (tileRows s v.c 0 (slotTile s v 0 o.f.xc o.f.tc))

theorem length_mmaWords (s : State) (v : SV) (o : MmaOp) : (mmaWords s v o).length = 1024 := by
  unfold mmaWords
  split
  · rw [List.length_map, List.length_range]
  · exact length_mmaResult ..

/-- No result in flight overlaps the bytes of B. -/
theorem mmaUnsettled_false {s : State} {v : SV} {o : MmaOp} (h : ∀ p ∈ s.flights v.c, ∀ g a l bad, p.w = .scratch g a l bad →
    g ≠ v.gid ∨ (readA s v 2 o.f.ba.toNat).toNat % 2 ^ 32 + mmaB o ≤ a ∨ a + l.length ≤ (readA s v 2 o.f.ba.toNat).toNat % 2 ^ 32) :
    mmaUnsettled s v o = false := by
  refine Bool.and_eq_false_imp.2 fun _ => List.any_eq_false.2 fun p hp => ?_
  split
  · next g a l bad write =>
    have apart := h p hp g a l bad write
    simp only [Bool.and_eq_true, beq_iff_eq, decide_eq_true_eq]
    omega
  · exact Bool.false_ne_true

/-! ### The effect -/

/-- What an MMA does beside its result: the matrix unit is held, its work counted, the A operand latched or dropped (05 R107, R118). -/
def mmaHolds (v : SV) (o : MmaOp) (a : List W32) (s : State) : State :=
  ((s.modCore v.c fun q => { q with mmaFree := s.now + mmaOcc o.fa }).modGrid (s.group v.gid).grid fun g =>
    if g.classified then g else { g with macs := g.macs + 1024 * (128 / sfmtSize o.fa) }).modCtx v.c v.k fun x =>
      { x with latch := if o.keep then some ⟨BitVec.ofNat 4 o.fa, o.sparse, a⟩ else none }

/-- An MMA whose places have landed. -/
theorem mmaEffect_landed {s : State} {v : SV} {o : MmaOp} (bytes : aEarly s v o.f.ba.toNat = false) (tile : tileEarly s v o.f.xc o.f.tc = false) :
    mmaEffect s v o s = mmaHolds v o (mmaA s v o)
      (s.later v.me (s.now + mmaLat o.fa) (.tile (slotTile s v 0 o.f.xc o.f.tc) (mmaWords s v o))) := by
  have dense : mmaK { o with sparse := false } = 128 / sfmtSize o.fa := Nat.mul_one _
  unfold mmaEffect
  simp only [tile, bytes, dense, Bool.false_eq_true, if_false]
  rfl

/-- A core whose pending results have grown by one. -/
def State.joined (s : State) (c : Nat) (p : Pend) : State := (s.modCore c fun q => { q with pend := q.pend ++ [p] }).bump

/-- An MMA whose tile no outstanding operation writes (02 R51). -/
theorem mmaEffect_joined {s : State} {v : SV} {o : MmaOp} (bytes : aEarly s v o.f.ba.toNat = false) (tile : tileEarly s v o.f.xc o.f.tc = false)
    (free : NoClash v.me [.tile (slotTile s v 0 o.f.xc o.f.tc) []] s) :
    mmaEffect s v o s = mmaHolds v o (mmaA s v o)
      (s.joined v.c ⟨v.me, s.now + mmaLat o.fa, s.nextId, .tile (slotTile s v 0 o.f.xc o.f.tc) (mmaWords s v o)⟩) :=
  (mmaEffect_landed bytes tile).trans (congrArg (mmaHolds v o (mmaA s v o))
    (State.later_noClash fun r hr => free _ List.mem_cons_self r hr))

/-- The grids after a change of one depend on the grids alone. -/
theorem modGrid_grids {s t : State} (h : t.grids = s.grids) (n : Nat) (f : Grid → Grid) : (t.modGrid n f).grids = (s.modGrid n f).grids := by
  unfold State.modGrid
  rw [h]
  split
  · exact congrArg (mput · n _) h
  · exact h

section
variable (s : State) (v : SV) (o : MmaOp) (a : List W32) (p : Pend)

theorem mmaHolds_core : (mmaHolds v o a (s.joined v.c p)).core v.c =
    { s.core v.c with pend := (s.core v.c).pend ++ [p], mmaFree := s.now + mmaOcc o.fa } := by
  simp [mmaHolds, State.joined]

theorem mmaHolds_ctx : (mmaHolds v o a (s.joined v.c p)).ctx v.c v.k =
    { s.ctx v.c v.k with latch := if o.keep then some ⟨BitVec.ofNat 4 o.fa, o.sparse, a⟩ else none } := by
  simp [mmaHolds, State.joined]

theorem mmaHolds_grids : (mmaHolds v o a (s.joined v.c p)).grids = (s.modGrid (s.group v.gid).grid fun g =>
    if g.classified then g else { g with macs := g.macs + 1024 * (128 / sfmtSize o.fa) }).grids := by
  unfold mmaHolds
  exact modGrid_grids (by simp [State.joined]) _ _

theorem mmaHolds_now : (mmaHolds v o a (s.joined v.c p)).now = s.now := by simp [mmaHolds, State.joined]

theorem mmaHolds_keeps : Claims.SlotKeeps v.c v.k s (mmaHolds v o a (s.joined v.c p)) where
  others n hn := by
    refine (mget_put_ne _ _ _ (Ne.symm hn)).trans ?_
    simp [State.joined]
  core := by rw [mmaHolds_core]
  cores m hm := by
    have ne := Ne.symm hm
    simp [mmaHolds, State.joined, State.core_modCore_ne _ _ ne]
  rest := by
    unfold mmaHolds State.modGrid
    split <;> rfl

end

end Sys2Proof.Machine

namespace Sys2Proof.Claims
open Sys2Proof.Machine

/-- What the four matrix operations share: their slot, their effect, the registers that say where they act. -/
structure IsMatrix (i : Instr) (h : Hdr) (o : MmaOp) (f : Mmaf) : Prop where
  slot : slotIndex i = 0
  fields : o.f = f
  keep : o.keep = h.ctl.getLsbD 15
  effect : ∀ s v u, slotEffect s v [] i u = mmaEffect s v o u
  places : (slotPlaces i).1 = slotPlaces.tile f.xc f.tc ++ slotPlaces.tile f.xa f.ta ++ [f.ba.toNat]
  here : Local i

theorem isMatrix_of {i : Instr} {h : Hdr} {o : MmaOp} {f : Mmaf} (hdr : i.hdr? = some h) (hm : matrixOf i = some (o, f)) : IsMatrix i h o f := by
  cases i <;> cases hm <;> cases hdr <;>
    exact ⟨rfl, rfl, rfl, fun _ _ _ => rfl, rfl, ⟨fun _ _ => rfl, fun _ _ => rfl, fun _ _ => rfl⟩⟩

theorem tileEarly_false {s : State} {v : SV} {x : Bool} {t : BitVec 10} (h : ∀ n ∈ slotPlaces.tile x t, aEarly s v n = false) :
    tileEarly s v x t = false := by
  cases x with
  | false => rfl
  | true => exact h _ List.mem_cons_self

/-- An element of C where no result in flight overlaps the bytes of B (17 R406). -/
theorem nth_mmaWords {s : State} {v : SV} {o : MmaOp} (settled : mmaUnsettled s v o = false) {r n : Nat} (hr : r < 32) (hn : n < 32) :
    nth 0 (mmaWords s v o) (32 * r + n) = BitVec.ofNat 32 (mmaElem o.fa (mmaScale s v o)
      (nth 0 (tileRows s v.c 0 (slotTile s v 0 o.f.xc o.f.tc)) (32 * r + n)).toNat
      (mmaProducts o (mmaRow o (mmaA s v o) r) (mmaBytes s v o) n)) := by
  rw [mmaWords, settled, if_neg Bool.false_ne_true, nth_mmaResult _ _ _ _ _ hr hn]

/-- The context after an effect that has changed its latch alone, counted. -/
theorem wentOnAlone_latch {s u : State} {c k : Nat} (i : Instr) {latch : Option Latch} (ctx : u.ctx c k = { s.ctx c k with latch := latch })
    (now : u.now = s.now) (current : (u.core c).curCtx = (s.core c).curCtx) :
    { wentOnAlone s c k i u (u.ctx c k) with
      quantum := if (u.core c).curCtx = k then (wentOnAlone s c k i u (u.ctx c k)).quantum + 1 else 1, waitCount := 0, atPoint := false } =
    { bundled s c k i with latch := latch } := by
  rw [wentOnAlone, ctx, now, current]
  rfl

/-- Settles O36: the operation issues alone, its result joins those in flight, and of the context only the latch has changed before its
bundle goes on; the words of C are free or the rows of sums. -/
theorem matrixOpsComplete : Obligations.MatrixOpsComplete := by
  intro s i h c k o f hi hm v tc b bytes scale free
  obtain ⟨slot, fields, keep, effect, places, here⟩ := isMatrix_of hi.hdr hm
  subst fields
  obtain ⟨landed, -⟩ := hi.landed
  rw [places] at landed
  have base : aEarly s v o.f.ba.toNat = false := landed _ (by simp)
  have tile : tileEarly s v o.f.xc o.f.tc = false := tileEarly_false fun n hn => landed n (by simp [hn])
  have issue := hi.issue (by rw [slot]; decide) here
  rw [effect, mmaEffect_joined base tile free] at issue
  let p : Pend := ⟨v.me, s.now + mmaLat o.fa, s.nextId, .tile tc (mmaWords s v o)⟩
  let u := mmaHolds v o (mmaA s v o) (s.joined c p)
  let t := countBundle (u.modCtx c k (wentOnAlone s c k i u)) c k
  have before : u.core c = { s.core c with pend := (s.core c).pend ++ [p], mmaFree := s.now + mmaOcc o.fa } :=
    mmaHolds_core s v o (mmaA s v o) p
  have core : t.useFree.core c = { s.core c with pend := (s.core c).pend ++ [p], mmaFree := s.now + mmaOcc o.fa, curCtx := k } := by
    rw [State.core_useFree, countBundle_core, State.core_modCtx, before]
  have grids : t.useFree.grids = u.grids := (congrArg State.grids (countBundle_rest (u.modCtx c k (wentOnAlone s c k i u)) c k) :)
  have frame := (mmaHolds_keeps s v o (mmaA s v o) p).frame (slotFrame_countBundle u c k (wentOnAlone s c k i u))
  have context := wentOnAlone_latch (c := c) (k := k) i (mmaHolds_ctx s v o (mmaA s v o) p) (mmaHolds_now s v o (mmaA s v o) p)
    (congrArg Core.curCtx before :)
  rw [← keep]
  exact ⟨_, issue, mmaWords s v o, length_mmaWords s v o,
    fun apart r n hr hn => nth_mmaWords (mmaUnsettled_false apart) hr hn, (congrArg Core.pend core :), (congrArg Core.mmaFree core :),
    (congrArg Core.vars core :), grids.trans (mmaHolds_grids s v o (mmaA s v o) p), context ▸ frame⟩

end Sys2Proof.Claims
end

section
/-! SUPPORT. Operations of warps that one event ends: how they start; SEAL and UNSEAL. -/

namespace Sys2Proof.Machine

/-- The operation that an agent starts in a state, with no register to write. -/
def newOp (s : State) (a : Issuer) (tok : Nat) (body : VarBody) : VarOp :=
  { id := s.nextId, agent := a, tok := tok, issued := s.now, seq := s.nextId, regs := [], tiles := [], clash := [], body := body
    load := false }

/-- An operation of a warp that writes no register and that another event ends: its token has risen, and it stands in its core. -/
theorem issueVar_pending (s : State) (c w tok : Nat) (body : VarBody) {x : Warp} (hw : s.warp? c w = some x) :
    s.issueVar (.warp c w) tok [] [] body false = (((s.setWarp c w (x.addTok tok)).modCore c fun k =>
      { k with vars := k.vars ++ [newOp s (.warp c w) tok body] })).bump := by
  have raised : s.addTok (.warp c w) tok = s.setWarp c w (x.addTok tok) := State.modWarp_some hw _
  simp only [State.issueVar, List.filter_nil, List.isEmpty_nil, if_true, raised, List.append_nil, Bool.false_eq_true, if_false]
  rfl

end Sys2Proof.Machine

namespace Sys2Proof.Claims
open Sys2Proof.Machine

/-- An issue that starts an operation which another event ends. -/
theorem issues_pending {s z : State} {i : Instr} {h : Hdr} {c w tok : Nat} {wp : Warp} {e : Entry} {vb : VarBody} {ev : Instr}
    {body : View → State → Res} (hi : Issues i h c w wp e s) (hx : exec i s = runWarp h i body s) (short : i.long = false)
    (hb : body (seen h c w wp e s) (begun c w wp s) = .ok ((z.issueVar (.warp c w) tok [] [] vb false).push ev) .next)
    (table : z.warps = (begun c w wp s).warps) :
    Answers (exec i s) fun t => Starts h c w tok false vb z t ∧ ev ∈ t.agenda := by
  have warp : z.warp? c w = some { wp with young := false } := by rw [State.warp?, table]; exact State.warp?_setWarp ..
  have issue := exec_of_body hi hx hb
  rw [issueVar_pending z c w tok vb warp, helperOnly_ok, short] at issue
  generalize hr : ((((z.setWarp c w (Warp.addTok { wp with young := false } tok)).modCore c fun k =>
    { k with vars := k.vars ++ [newOp z (.warp c w) tok vb] })).bump).push ev = r at issue
  have raised : r.warp? c w = some (Warp.addTok { wp with young := false } tok) := by rw [← hr]; exact State.warp?_setWarp ..
  have ends : finishIssue c w h false .next r =
      finishIssue c w h false .moved (r.setWarp c w ((Warp.addTok { wp with young := false } tok).advance false)) := finishIssue_advance raised
  rw [endIssue, ends] at issue
  obtain ⟨warps, rest⟩ := redirects_moved h c w false ((Warp.addTok { wp with young := false } tok).advance false) r
  obtain ⟨-, kept⟩ := finishIssue_hold (h := h) (long := false)
    (State.warp?_setWarp r c w ((Warp.addTok { wp with young := false } tok).advance false))
  have noted : ev ∈ (finishIssue c w h false .moved
      (r.setWarp c w ((Warp.addTok { wp with young := false } tok).advance false))).agenda := kept ev (by simp [← hr])
  generalize finishIssue c w h false .moved (r.setWarp c w ((Warp.addTok { wp with young := false } tok).advance false)) = t at *
  have core : ∀ k, t.core k = r.core k := fun k => (congrArg (State.core · k) rest :)
  have own : r.core c = { z.core c with vars := (z.core c).vars ++ [newOp z (.warp c w) tok vb] } := by
    rw [← hr, State.core_push, State.core_bump, State.core_modCore, State.core_setWarp]
  refine ⟨t, issue, ⟨⟨newOp z (.warp c w) tok vb, rfl, rfl, rfl, rfl, ?_, nofun⟩, ?_, fun k hk => ?_, ⟨?_, fun n hn => ?_⟩, ?_⟩, noted⟩
  · rw [core, own]
  · rw [core, own]
  · rw [core, ← hr, State.core_push, State.core_bump, State.core_modCore_ne _ _ (Ne.symm hk), State.core_setWarp]
  · have same : z.warp c w = { wp with young := false } := State.warp_of_warp? warp
    have now : r.now = z.now := by rw [← hr]; rfl
    rw [warps.warp, same, now]
    rfl
  · rw [warps.others n hn, ← hr]
    exact State.warps_setWarp_ne _ _ _ _ hn
  · rw [← hr] at rest
    exact (congrArg (fun x : State => { x with cores := z.cores, warps := z.warps, agenda := z.agenda, nextId := z.nextId, freeCtr := z.freeCtr }) rest :)

section
variable {s : State} {v : View} {f : Asy} {j : Nat} (hr : v.real ≠ 0)
include hr

/-- SEAL of a range that its checks accept (18 R427). -/
theorem sealBody_starts (hl : v.lane0 = some j)
    (hc : checkVs s v.wp (runRegsX (xA f.x) f.a.toNat 2 ++ runRegsX (xB f.x) f.b.toNat 1) = none) {base count : Nat}
    (hb : (readR64 s v 0 (xA f.x) f.a.toNat j).toNat = base) (hn : (readR s v 2 (xB f.x) f.b.toNat j).toNat % 65536 = count)
    (aligned : base % 65536 = 0) (within : base + 65536 * count ≤ 2 ^ 48) (canonical : base < 2 ^ 48) (pos : 0 < count)
    (idle : sealState ((s.part (s.partOf v.gid)).seal (f.sub.toNat % 16)) = 0) :
    sealBody f v s = .ok (((s.setSeal (s.partOf v.gid) (f.sub.toNat % 16) (sealWord 1 base count)).issueVar v.me f.tok.toNat [] []
      (.seal (f.sub.toNat % 16)) false).push (.sealComplete (s.partOf v.gid) (f.sub.toNat % 16))) .next := by
  have low : bitsN (readR s v 2 (xB f.x) f.b.toNat j).toNat 15 0 = count := by simpa [bitsN] using hn
  have index : bitsN f.sub.toNat 3 0 = f.sub.toNat % 16 := by simp [bitsN]
  have range : (decide (2 ^ 48 ≤ base) || decide (2 ^ 48 < base + 65536 * count)) = false := by
    simp only [Bool.or_eq_false_iff, decide_eq_false_iff_not]
    omega
  have placed : (base % 65536 != 0 && count != 0) = false := by simp [aligned]
  have free : (count == 0 || sealState ((s.part (s.partOf v.gid)).seal (f.sub.toNat % 16)) != 0) = false := by
    simp [idle, Nat.ne_of_gt pos]
  rw [sealBody, onceWarp_real hr, guardV_pass (.inr (.inr hc))]
  simp only [hl, Option.getD_some, hb, low, index, range, placed, free, Bool.false_eq_true, if_false]

/-- UNSEAL of a sealed range (18 R427). -/
theorem unsealBody_starts (standing : sealState ((s.part (s.partOf v.gid)).seal (f.sub.toNat % 16)) = 2) :
    unsealBody f v s = .ok (((s.setSeal (s.partOf v.gid) (f.sub.toNat % 16) (sealWord 3
      (sealBase ((s.part (s.partOf v.gid)).seal (f.sub.toNat % 16))) (((s.part (s.partOf v.gid)).seal (f.sub.toNat % 16)).toNat % 65536))).issueVar
        v.me f.tok.toNat [] [] (.seal (f.sub.toNat % 16)) false).push (.unsealComplete (s.partOf v.gid) (f.sub.toNat % 16))) .next := by
  have index : bitsN f.sub.toNat 3 0 = f.sub.toNat % 16 := by simp [bitsN]
  have low : bitsN ((s.part (s.partOf v.gid)).seal (f.sub.toNat % 16)).toNat 15 0 =
      ((s.part (s.partOf v.gid)).seal (f.sub.toNat % 16)).toNat % 65536 := by simp [bitsN]
  rw [unsealBody, onceWarp_real hr]
  simp [index, low, standing]

end

/-- Settles O33: both meanings set the register, start an operation that their event ends, and put that event on the agenda. -/
theorem sealsComplete : Obligations.SealsComplete := by
  intro s h f c w wp e j v u n k hl _
  have hr : v.real ≠ 0 := fun idle => by simp [View.realLanes, idle, lanesOf] at hl
  refine ⟨?begins, ?ends⟩
  case begins =>
    intro hi base count hc aligned within canonical pos idle
    exact issues_pending hi rfl rfl (sealBody_starts hr hl hc rfl rfl aligned within canonical pos idle) rfl
  case ends =>
    intro hi standing
    exact issues_pending hi rfl rfl (unsealBody_starts hr standing) rfl

end Sys2Proof.Claims
end

section
/-! SUPPORT. What a write-back, a drain and the resolution of FD lines make of memory and of a core's L1. -/

namespace Sys2Proof.Machine

/-! ### Counts of bytes touch the grids alone -/

/-- Nothing differs but the table of grids. -/
def GridsOnly (s t : State) : Prop := { t with grids := s.grids } = s

namespace GridsOnly

theorem refl (s : State) : GridsOnly s s := rfl

theorem trans {s t u : State} (h : GridsOnly s t) (g : GridsOnly t u) : GridsOnly s u :=
  (congrArg (fun x : State => { x with grids := s.grids }) (g : _ = t) :).trans h

theorem countBytes (s : State) (grid n : Nat) : GridsOnly s (s.countBytes grid n) := modGrid_frame ..

theorem countBack (s : State) (c : Nat) (p : Nat → Bool) : GridsOnly s (s.countBack c p) :=
  foldl_keeps refl trans (fun s g => countBytes s g _) _ s

theorem countWc (s : State) (bytes : List (Nat × Byte × Nat)) : GridsOnly s (s.countWc bytes) :=
  foldl_keeps refl trans (fun s g => countBytes s g _) _ s

theorem moved (s : State) (gid n : Nat) : GridsOnly s (s.moved gid n) := countBytes ..

section
variable {s t : State} (h : GridsOnly s t)
include h

theorem mem : t.mem = s.mem := (congrArg State.mem h :)
theorem poison : t.poison = s.poison := (congrArg State.poison h :)
theorem tags : t.tags = s.tags := (congrArg State.tags h :)
theorem cores : t.cores = s.cores := (congrArg State.cores h :)
theorem core (k : Nat) : t.core k = s.core k := by rw [State.core, h.cores]; rfl

end

end GridsOnly

@[simp] theorem State.core_addPoison (s : State) (l : List ErrLoc) (k : Nat) : (s.addPoison l).core k = s.core k := rfl

/-! ### Dirty bytes -/

/-- An L1 has no dirty byte at an address that passes a test. -/
theorem dirtyCells_eq_nil {l1 : List (Nat × Line)} {p : Nat → Bool} :
    dirtyCells l1 p = [] ↔ ∀ kl ∈ l1, ∀ ob ∈ kl.2.bytes, ob.2.dirty = true → p (128 * kl.1 + ob.1) = false := by
  simp [dirtyCells, List.flatMap_eq_nil_iff, List.filterMap_eq_nil_iff]

/-- The bytes of an L1 after some have become clean. -/
theorem mem_cleanBytes {l1 : List (Nat × Line)} {p : Nat → Bool} {kl : Nat × Line} (h : kl ∈ cleanBytes l1 p) {ob : Nat × LByte}
    (hb : ob ∈ kl.2.bytes) (dirty : ob.2.dirty = true) :
    p (128 * kl.1 + ob.1) = false ∧ ∃ kl' ∈ l1, kl'.1 = kl.1 ∧ ob ∈ kl'.2.bytes := by
  obtain ⟨⟨k, l⟩, hl, rfl⟩ := List.mem_map.1 h
  obtain ⟨⟨o, b⟩, hob, rfl⟩ := List.mem_map.1 hb
  cases hp : p (128 * k + o) with
  | true => simp [hp] at dirty
  | false => exact ⟨rfl, (k, l), hl, rfl, by simpa [hp] using hob⟩

/-- Bytes that have become clean are not dirty. -/
theorem dirtyCells_cleanBytes (l1 : List (Nat × Line)) {p q : Nat → Bool} (h : ∀ a, q a = true → p a = true) :
    dirtyCells (cleanBytes l1 p) q = [] := by
  refine dirtyCells_eq_nil.2 fun kl hl ob hb dirty => ?_
  have other := (mem_cleanBytes hl hb dirty).1
  exact Bool.eq_false_iff.2 fun hq => by rw [h _ hq] at other; cases other

/-! ### Write-backs (07 R156) -/

section
variable (s : State) (c : Nat) (p : Nat → Bool)

theorem writeBack_mem : (s.writeBack c p).mem = writeCells s.mem (dirtyCells (s.core c).l1 p) :=
  congrArg (writeCells · _) (GridsOnly.countBack s c p).mem

theorem writeBack_core : (s.writeBack c p).core c = { s.core c with l1 := cleanBytes (s.core c).l1 p } := by
  have own : (s.countBack c p).core c = s.core c := (GridsOnly.countBack s c p).core c
  exact (State.core_modCore ..).trans (congrArg (fun k : Core => { k with l1 := cleanBytes k.l1 p }) own)

theorem writeBack_core_ne {k : Nat} (h : k ≠ c) : (s.writeBack c p).core k = s.core k :=
  (State.core_modCore_ne _ _ (Ne.symm h)).trans ((GridsOnly.countBack s c p).core k)

end

/-! ### The resolution of FD lines (09 R210) -/

/-- The FD lines of an L1 that pass a test, each with the origin of its forwarded bytes. -/
def fdLines (l1 : List (Nat × Line)) (p : Nat → Bool) : List (Nat × Nat) :=
  l1.filterMap fun kl => if p kl.1 then kl.2.fd.map fun r => (kl.1, r) else none

/-- An L1 whose lines that pass a test have no FD mark. -/
def unmarked (l1 : List (Nat × Line)) (p : Nat → Bool) : List (Nat × Line) :=
  mmap (fun ln l => if p ln then { l with fd := none } else l) l1

theorem resolveFd_eq (s : State) (c : Nat) (p : Nat → Bool) : s.resolveFd c p =
    ((fdLines (s.core c).l1 p).foldl (fun s lr => s.writeBack lr.2 fun a => a / 128 == lr.1) s).modCore c fun k =>
      { k with l1 := unmarked k.l1 p } := rfl

theorem fdLines_one {l1 : List (Nat × Line)} {line : Nat} {ln : Line} (h : l1.filter (fun l => l.1 == line) = [(line, ln)]) :
    fdLines l1 (fun l => l == line) = (ln.fd.map fun r => (line, r)).toList := by
  have only := congrArg (List.filterMap fun kl : Nat × Line => kl.2.fd.map fun r => (kl.1, r)) h
  rw [List.filterMap_filter] at only
  refine only.trans ?_
  cases hf : ln.fd <;> simp [hf]

theorem unmarked_fd (l1 : List (Nat × Line)) {p : Nat → Bool} {line : Nat} (h : p line = true) : (mget {} (unmarked l1 p) line).fd = none := by
  rw [unmarked, mget_mmap]
  cases mget? l1 line <;> simp [h]

/-- FD marks do not bear on the dirty bytes. -/
theorem dirtyCells_unmarked (l1 : List (Nat × Line)) (p q : Nat → Bool) : dirtyCells (unmarked l1 p) q = dirtyCells l1 q := by
  unfold dirtyCells unmarked mmap
  rw [List.flatMap_map]
  refine congrArg (List.flatMap · l1) (funext fun kl => ?_)
  dsimp only
  split <;> rfl

/-- A line whose FD mark goes: its origin, if it has one, writes back its dirty bytes there. -/
theorem resolveFd_line {s : State} {c line : Nat} {ln : Line} (h : (s.core c).l1.filter (fun l => l.1 == line) = [(line, ln)]) :
    s.resolveFd c (fun l => l == line) = (match ln.fd with
      | some r => s.writeBack r fun a => a / 128 == line
      | none => s).modCore c fun k => { k with l1 := unmarked k.l1 fun l => l == line } := by
  rw [resolveFd_eq, fdLines_one h]
  cases ln.fd <;> rfl

/-- A line that leaves an L1 (07 R156). -/
theorem l1Evict_mget? (s : State) (c line : Nat) : mget? ((s.l1Evict c line).core c).l1 line = none := by
  rw [State.l1Evict, State.core_modCore]
  exact mget?_del_same ..

theorem l1Evict_mem_plain {s : State} {c line : Nat} {ln : Line} (h : (s.core c).l1.filter (fun l => l.1 == line) = [(line, ln)])
    (plain : ln.fd = none) :
    (s.l1Evict c line).mem = writeCells s.mem (dirtyCells (s.core c).l1 fun a => a / 128 == line) := by
  rw [State.l1Evict, State.modCore_mem, writeBack_mem, resolveFd_line h, plain, State.modCore_mem, State.core_modCore, dirtyCells_unmarked]

theorem l1Evict_mem_forwarded {s : State} {c line r : Nat} {ln : Line} (h : (s.core c).l1.filter (fun l => l.1 == line) = [(line, ln)])
    (origin : ln.fd = some r) (other : r ≠ c) :
    (s.l1Evict c line).mem = writeCells (writeCells s.mem (dirtyCells (s.core r).l1 fun a => a / 128 == line))
      (dirtyCells (s.core c).l1 fun a => a / 128 == line) := by
  rw [State.l1Evict, State.modCore_mem, writeBack_mem, resolveFd_line h, origin]
  dsimp only
  rw [State.modCore_mem, State.core_modCore, dirtyCells_unmarked, writeBack_mem, writeBack_core_ne _ _ _ (Ne.symm other)]

/-! ### The write-combining buffer (07 R159) -/

/-- The bytes of an entry, at their addresses. -/
def wcCells (e : Nat × List (Nat × Byte × Nat)) : List (Nat × Byte) := e.2.map fun ob => (128 * e.1 + ob.1, ob.2.1)

theorem wcDrain_eq (s : State) (c : Nat) (p : Nat → Bool) : s.wcDrain c p =
    (((s.core c).wc.filter fun e => p e.1).foldl (fun s e => (s.countWc e.2).memWrite (wcCells e)) s).modCore c fun k =>
      { k with wc := k.wc.filter fun e => !p e.1 } := rfl

/-- Drained entries leave every core as it was, until they leave their buffer. -/
theorem foldl_wcWrite_core (k : Nat) (es : List (Nat × List (Nat × Byte × Nat))) (s : State) :
    (es.foldl (fun s e => (s.countWc e.2).memWrite (wcCells e)) s).core k = s.core k :=
  foldl_field (f := fun s (e : Nat × List (Nat × Byte × Nat)) => (s.countWc e.2).memWrite (wcCells e)) (fun s => s.core k) (fun s e => ((GridsOnly.countWc s e.2).core k :)) es s

theorem wcDrain_core (s : State) (c : Nat) (p : Nat → Bool) :
    (s.wcDrain c p).core c = { s.core c with wc := (s.core c).wc.filter fun e => !p e.1 } := by
  rw [wcDrain_eq, State.core_modCore, foldl_wcWrite_core]

theorem wcDrain_core_ne (s : State) {c k : Nat} (p : Nat → Bool) (h : k ≠ c) : (s.wcDrain c p).core k = s.core k := by
  rw [wcDrain_eq, State.core_modCore_ne _ _ (Ne.symm h), foldl_wcWrite_core]

theorem wcDrain_mem_one {s : State} {c : Nat} {p : Nat → Bool} {e : Nat × List (Nat × Byte × Nat)}
    (h : (s.core c).wc.filter (fun e => p e.1) = [e]) : (s.wcDrain c p).mem = writeCells s.mem (wcCells e) := by
  rw [wcDrain_eq, State.modCore_mem, h]
  exact congrArg (writeCells · _) (GridsOnly.countWc s e.2).mem

/-! ### Forwarding within a cluster (09 R210) -/

/-- A byte arrives clean in a line, unless a dirty byte of its own stands there. -/
def arriveByte (bytes : List (Nat × LByte)) (b : Nat × LByte) : List (Nat × LByte) :=
  match mget? bytes b.1 with
  | some y => if y.dirty then bytes else mput bytes b.1 ⟨b.2.val, false, 0, 0⟩
  | none => mput bytes b.1 ⟨b.2.val, false, 0, 0⟩

/-- What stands at the offset of a byte that has arrived. -/
def arrived (old : Option LByte) (b : LByte) : Option LByte :=
  match old with
  | some y => if y.dirty then some y else some ⟨b.val, false, 0, 0⟩
  | none => some ⟨b.val, false, 0, 0⟩

theorem arriveByte_other (bytes : List (Nat × LByte)) {b : Nat × LByte} {o : Nat} (h : b.1 ≠ o) :
    mget? (arriveByte bytes b) o = mget? bytes o := by
  unfold arriveByte
  split
  · split
    · rfl
    · exact mget?_put_ne _ _ h
  · exact mget?_put_ne _ _ h

theorem arriveByte_same (bytes : List (Nat × LByte)) (b : Nat × LByte) :
    mget? (arriveByte bytes b) b.1 = arrived (mget? bytes b.1) b.2 := by
  unfold arriveByte
  cases hb : mget? bytes b.1 with
  | none => exact mget?_put_same ..
  | some y =>
    dsimp only [arrived]
    split
    · exact hb
    · exact mget?_put_same ..

theorem foldl_arriveByte_other {sent : List (Nat × LByte)} {o : Nat} (h : o ∉ sent.map (·.1)) (bytes : List (Nat × LByte)) :
    mget? (sent.foldl arriveByte bytes) o = mget? bytes o := by
  induction sent generalizing bytes with
  | nil => rfl
  | cons x sent ih =>
    simp only [List.map_cons, List.mem_cons, not_or] at h
    exact (ih h.2 _).trans (arriveByte_other bytes (Ne.symm h.1))

theorem foldl_arriveByte {sent : List (Nat × LByte)} (nodup : (sent.map (·.1)).Nodup) (bytes : List (Nat × LByte)) {b : Nat × LByte}
    (h : b ∈ sent) : mget? (sent.foldl arriveByte bytes) b.1 = arrived (mget? bytes b.1) b.2 := by
  induction sent generalizing bytes with
  | nil => cases h
  | cons x sent ih =>
    rw [List.map_cons, List.nodup_cons] at nodup
    obtain ⟨fresh, rest⟩ := nodup
    rcases List.mem_cons.1 h with rfl | h
    · exact (foldl_arriveByte_other fresh _).trans (arriveByte_same bytes b)
    · have other : x.1 ≠ b.1 := fun same => fresh (same ▸ List.mem_map_of_mem h)
      exact (ih rest _ h).trans (congrArg (arrived · b.2) (arriveByte_other bytes other))

/-- The line that forwarded bytes make in the L1 of the core in which they arrive. -/
def forwarded (src : Nat) (ln old : Line) : Line := ⟨(ln.bytes.filter fun ob => ob.2.dirty).foldl arriveByte old.bytes, some src⟩

theorem length_mput_le {α : Type} (m : List (Nat × α)) (n : Nat) (x : α) : (mput m n x).length ≤ m.length + 1 := by
  induction m with
  | nil => simp [mput]
  | cons a t ih =>
    unfold mput
    split
    · simp
    · split
      · simp
      · simpa using ih

theorem l1Fit_room {s : State} {c : Nat} (h : (s.core c).l1.length ≤ (s.core c).l1Cap) (keep : Nat) : s.l1Fit c keep = s := if_pos h

/-- The L1 of the core in which the dirty bytes of one line arrive, where it has room. -/
theorem forward_one {s : State} {src dst line : Nat} {ln : Line}
    (only : (s.core src).l1.filter (fun l => l.2.bytes.any fun b => b.2.dirty) = [(line, ln)])
    (unforwarded : (mget {} (s.core dst).l1 line).fd = none) (room : (s.core dst).l1.length < (s.core dst).l1Cap) :
    let t := s.forward src dst none
    t.mem = s.mem ∧ (∀ k, k ≠ dst → t.core k = s.core k) ∧
      mget {} (t.core dst).l1 line = forwarded src ln (mget {} (s.core dst).l1 line) := by
  have lines : (s.core src).l1.filter (fun kl => kl.2.bytes.any fun ob => ob.2.dirty && true) = [(line, ln)] := by
    simpa only [Bool.and_true] using only
  have fresh : ∀ k, (s.l1Fresh dst line fun _ => true).core k = s.core k := fun k => by unfold State.l1Fresh; split <;> rfl
  have freshMem : (s.l1Fresh dst line fun _ => true).mem = s.mem := by unfold State.l1Fresh; split <;> rfl
  generalize hu : (s.l1Fresh dst line fun _ => true).modCore dst (fun k =>
    { k with l1 := mput k.l1 line (forwarded src ln (mget {} k.l1 line)) }) = u
  have own : u.core dst = { s.core dst with l1 := mput (s.core dst).l1 line (forwarded src ln (mget {} (s.core dst).l1 line)) } := by
    rw [← hu, State.core_modCore, fresh]
  have fits : u.l1Fit dst line = u := l1Fit_room (by
    rw [own]
    exact (length_mput_le ..).trans room) _
  have steps : s.forward src dst none = u.addPoison ((List.range 2).filterMap fun i =>
      if u.l1Poisoned src (128 * line + 64 * i) && (ln.bytes.filter fun ob => ob.2.dirty).any fun ob => ob.1 / 64 == i then
        some (.l1 dst (2 * line + i)) else none) := by
    simp only [State.forward, lines, List.foldl_cons, List.foldl_nil, unforwarded]
    rw [← fits, ← hu]
    rfl
  intro t
  refine ⟨?_, fun k hk => ?_, ?_⟩
  · rw [show t = _ from steps, ← hu]; exact freshMem
  · rw [show t = _ from steps, State.core_addPoison, ← hu, State.core_modCore_ne _ _ (Ne.symm hk), fresh]
  · rw [show t = _ from steps, State.core_addPoison, own]
    exact mget_put_same ..

end Sys2Proof.Machine
end

section
/-! SUPPORT. The law of the events of the caches and of memory errors. -/

namespace Sys2Proof.Machine

/-! ### MEMORY_ERROR_DETECTED (07 R161; 08 R190) -/

/-- Every byte of an entry's chunk is poisoned (08 R190). -/
theorem ticketError_poisoned (s : State) (e k : Nat) {i : Nat} (lo : 64 * k ≤ i) (hi : i < 64 * k + 64) (stored : i < (s.ticket e).data.length) :
    i ∈ ((ticketError s e k).ticket e).poisoned := by
  rw [ticketError, State.ticket_setTicket]
  refine List.mem_append_right _ (List.mem_filterMap.2 ⟨i - 64 * k, List.mem_range.2 (by omega), ?_⟩)
  rw [Nat.add_sub_cancel' lo, if_pos stored]

/-- A double-bit error outside the tickets poisons its place and nothing else. -/
theorem memoryError_double {s : State} {loc : ErrLoc} (h : ∀ e k, loc ≠ .ticket e k) :
    let t := memoryError s loc true
    loc ∈ t.poison ∧ (∀ p ∈ t.poison, p = loc ∨ p ∈ s.poison) ∧ t.mem = s.mem ∧ t.cores = s.cores := by
  have place : memoryError s loc true = if s.poison.contains loc then s else { s with poison := s.poison ++ [loc] } := by
    cases loc with
    | ticket e k => exact absurd rfl (h e k)
    | _ => rfl
  intro t
  rw [show t = _ from place]
  split
  · next known => exact ⟨by simpa using known, fun p hp => .inr hp, rfl, rfl⟩
  · exact ⟨by simp, fun p hp => by simpa [or_comm] using hp, rfl, rfl⟩

/-! ### Cores of one cluster -/

/-- Two cores carry groups of one cluster that have not gone (09 R210). -/
def together (s : State) (src dst : Nat) : Bool := s.clusters.any fun c =>
  let cs := c.2.groups.filterMap fun g => match mget? s.groups g with
    | some x => if x.phase == .gone then none else some x.core
    | none => none
  cs.contains src && cs.contains dst

theorem together_of {s : State} {cl src dst g h : Nat} {k : Cluster} {x y : Group} (hk : (cl, k) ∈ s.clusters) (hg : g ∈ k.groups)
    (hh : h ∈ k.groups) (hx : mget? s.groups g = some x) (hy : mget? s.groups h = some y) (px : x.phase ≠ .gone) (py : y.phase ≠ .gone)
    (cx : x.core = src) (cy : y.core = dst) : together s src dst = true := by
  refine List.any_eq_true.2 ⟨(cl, k), hk, ?_⟩
  rw [Bool.and_eq_true, List.contains_iff_mem, List.contains_iff_mem]
  refine ⟨List.mem_filterMap.2 ⟨g, hg, ?_⟩, List.mem_filterMap.2 ⟨h, hh, ?_⟩⟩
  · simp [hx, px, cx]
  · simp [hy, py, cy]

end Sys2Proof.Machine

namespace Sys2Proof.Claims
open Sys2Proof.Machine

/-! ### Events of the caches in a device that has not halted -/

section
variable {s : State} (live : Live s)
include live

theorem exec_memoryErrorDetected (loc : ErrLoc) (double : Bool) :
    exec (.memoryErrorDetected loc double) s = .next (memoryError s loc double).useFree := runEvent_live live (memoryError · loc double)
theorem exec_wcEntryDrain (c line : Nat) : exec (.wcEntryDrain c line) s = .next (s.wcDrain c fun l => l == line).useFree :=
  runEvent_live live fun s => s.wcDrain c fun l => l == line
theorem exec_l1Evict (c line : Nat) : exec (.l1Evict c line) s = .next (s.l1Evict c line).useFree :=
  runEvent_live live fun s => s.l1Evict c line
theorem exec_fdResolve (c line : Nat) : exec (.fdResolve c line) s = .next (s.resolveFd c fun l => l == line).useFree :=
  runEvent_live live fun s => s.resolveFd c fun l => l == line
theorem exec_promotion (c : Nat) : exec (.promotion c) s = .next ({ s.promote c with
    tags := ((s.promote c).tags.map fun (t : Nat × List (Nat × BitVec 32)) => (t.1, t.2.filter fun (p : Nat × BitVec 32) => p.1 != c)).filter fun t => !t.2.isEmpty }).useFree :=
  runEvent_live live fun s => { s.promote c with
    tags := ((s.promote c).tags.map fun (t : Nat × List (Nat × BitVec 32)) => (t.1, t.2.filter fun p => p.1 != c)).filter fun t => !t.2.isEmpty }
theorem exec_clusterForward {src dst : Nat} (apart : src ≠ dst) (joined : together s src dst = true) :
    exec (.clusterForward src dst) s = .next (s.forward src dst none).useFree := by
  refine (runEvent_live live fun s => if src == dst || !together s src dst then s else s.forward src dst none).trans ?_
  simp only [joined, Bool.not_true, Bool.or_false, beq_iff_eq, if_neg apart]

end

/-- A promoted core: its dirty bytes are written back, and its pairs are gone (09 R208, R209). -/
theorem promotion_answers {s : State} (c : Nat) (live : Live s) : Answers (exec (.promotion c) s) fun t =>
    t.mem = writeCells s.mem (dirtyCells (s.core c).l1 fun _ => true) ∧ dirtyCells (t.core c).l1 (fun _ => true) = [] ∧
    ∀ x ∈ t.tags, ∀ p ∈ x.2, p.1 ≠ c := by
  have own : (s.promote c).core c = _ := writeBack_core s c fun _ => true
  have mem : (s.promote c).mem = _ := writeBack_mem s c fun _ => true
  refine ⟨_, exec_promotion live c, mem, ?_, fun x hx p hp => ?_⟩
  · exact (congrArg (fun k : Core => dirtyCells k.l1 fun _ => true) own).trans (dirtyCells_cleanBytes (p := fun _ => true) _ fun _ h => h)
  · obtain ⟨word, -, rfl⟩ := List.mem_map.1 (List.mem_of_mem_filter hx)
    simpa using (List.mem_filter.1 hp).2

/-- An entry of the write-combining buffer that drains (07 R159). -/
theorem wcEntryDrain_answers {s : State} {c line : Nat} {e : Nat × List (Nat × Byte × Nat)} (live : Live s)
    (only : (s.core c).wc.filter (fun e => e.1 == line) = [e]) : Answers (exec (.wcEntryDrain c line) s) fun t =>
      (t.core c).wc = (s.core c).wc.filter (fun e => !(e.1 == line)) ∧
      t.mem = writeCells s.mem (e.2.map fun b => (128 * line + b.1, b.2.1)) ∧ (t.core c).l1 = (s.core c).l1 := by
  have own := wcDrain_core s c fun l => l == line
  have named : e.1 = line := by
    have listed : e ∈ (s.core c).wc.filter fun e => e.1 == line := by rw [only]; exact List.mem_singleton_self e
    simpa using (List.mem_filter.1 listed).2
  subst named
  exact ⟨_, exec_wcEntryDrain live c e.1, (congrArg Core.wc own :), wcDrain_mem_one (p := fun l => l == e.1) only, (congrArg Core.l1 own :)⟩

/-- Settles O45: each event is one operation of the caches, whose law says what it makes of memory and of the L1s. -/
theorem cacheEventsComplete : Obligations.CacheEventsComplete := by
  refine ⟨fun s loc live => ⟨fun plain => ?double, ?chunk, ?single⟩, fun s c line e live only => wcEntryDrain_answers live only,
    fun s c line ln live only => ⟨fun plain => ?left, fun r origin other => ?leftForwarded⟩, fun s c live => promotion_answers c live,
    ?forwarded, fun s c line r ln live only origin => ?resolved⟩
  case double => exact ⟨_, exec_memoryErrorDetected live loc true, memoryError_double plain⟩
  case chunk =>
    rintro e k rfl
    exact ⟨_, exec_memoryErrorDetected live (.ticket e k) true, fun i lo hi stored => ticketError_poisoned s e k lo hi stored, rfl, rfl, rfl⟩
  case single => exact ⟨_, exec_memoryErrorDetected live loc false, rfl, rfl, rfl, rfl⟩
  case left =>
    refine ⟨_, exec_l1Evict live c line, ?_⟩
    simp only [State.core_useFree, State.useFree_mem]
    exact ⟨l1Evict_mget? s c line, l1Evict_mem_plain only plain⟩
  case leftForwarded =>
    refine ⟨_, exec_l1Evict live c line, ?_⟩
    simp only [State.core_useFree, State.useFree_mem]
    exact ⟨l1Evict_mget? s c line, l1Evict_mem_forwarded only origin other⟩
  case forwarded =>
    intro s src dst line cl ln k g h x y live apart hk hg hh hx hy px py cx cy only unforwarded room nodup
    obtain ⟨mem, others, arrives⟩ := forward_one only unforwarded room
    have sentNodup : ((ln.bytes.filter fun ob => ob.2.dirty).map (·.1)).Nodup := nodup.sublist (List.filter_sublist.map _)
    refine ⟨_, exec_clusterForward live apart (together_of hk hg hh hx hy px py cx cy), mem, others src apart, congrArg Line.fd arrives, fun b hb dirty => ?_⟩
    refine (congrArg (fun l : Line => mget? l.bytes b.1) arrives).trans ?_
    exact foldl_arriveByte sentNodup _ (List.mem_filter.2 ⟨hb, dirty⟩)
  case resolved =>
    refine ⟨_, exec_fdResolve live c line, ?_⟩
    simp only [State.core_useFree, State.useFree_mem, resolveFd_line only, origin, State.core_modCore, State.modCore_mem]
    exact ⟨unmarked_fd _ (beq_self_eq_true line), writeBack_mem s r _⟩

end Sys2Proof.Claims
end

section
/-! SUPPORT. The end of a variable-latency operation: its results land, it leaves its core, its token falls. -/

namespace Sys2Proof.Machine

/-! ### Warps whose token falls -/

theorem Warp.advance_frontier_only (x : Warp) (long : Bool) : { x.advance long with frontier := x.frontier } = x := by
  unfold Warp.advance
  split <;> rfl

/-- A wake changes the wait and the frontier alone (18 R452). -/
theorem Warp.wakeK_only (x : Warp) : { x.wakeK with frontier := x.frontier, wait := x.wait } = x := by
  unfold Warp.wakeK
  split
  · split
    · exact congrArg (fun y : Warp => { y with wait := x.wait }) (Warp.advance_frontier_only x false)
    · rfl
  · rfl

@[simp] theorem Warp.wakeK_g (x : Warp) : x.wakeK.g = x.g := (congrArg Warp.g x.wakeK_only :)
@[simp] theorem Warp.wakeK_tokens (x : Warp) : x.wakeK.tokens = x.tokens := (congrArg Warp.tokens x.wakeK_only :)

section
variable (s : State) (a : Issuer) (t : Nat)

theorem subTok_frame : { s.subTok a t with warps := s.warps, ctxs := s.ctxs } = s := by
  unfold State.subTok
  split
  · unfold State.modWarp
    split <;> rfl
  · rfl
  · rfl

@[simp] theorem core_subTok (k : Nat) : (s.subTok a t).core k = s.core k := (congrArg (State.core · k) (subTok_frame s a t) :)
@[simp] theorem subTok_mem : (s.subTok a t).mem = s.mem := (congrArg State.mem (subTok_frame s a t) :)
@[simp] theorem subTok_tags : (s.subTok a t).tags = s.tags := (congrArg State.tags (subTok_frame s a t) :)
@[simp] theorem subTok_parts : (s.subTok a t).parts = s.parts := (congrArg State.parts (subTok_frame s a t) :)
@[simp] theorem subTok_groups : (s.subTok a t).groups = s.groups := (congrArg State.groups (subTok_frame s a t) :)
@[simp] theorem subTok_ringWaits : (s.subTok a t).ringWaits = s.ringWaits := (congrArg State.ringWaits (subTok_frame s a t) :)

/-- A token that falls leaves the g registers of every warp. -/
@[simp] theorem subTok_g (c w : Nat) : ((s.subTok a t).warp c w).g = (s.warp c w).g := by
  cases a with
  | ctx => rfl
  | none => rfl
  | warp d u =>
    simp only [State.subTok, State.modWarp]
    cases hw : s.warp? d u with
    | none => rfl
    | some x =>
      by_cases same : wkey d u = wkey c w
      · have own : s.warp c w = x := by rw [State.warp, ← same]; exact State.warp_of_warp? hw
        rw [own, State.warp, State.setWarp_warps, same, mget_put_same]
        exact Warp.wakeK_g _
      · rw [State.warp, State.setWarp_warps, mget_put_ne _ _ _ same]
        rfl

end

/-! ### Where results land -/

/-- The results of an operation land one after the other. -/
def State.landAll (s : State) (a : Issuer) (ws : List Write) : State := ws.foldl (fun s w => s.land a w) s

theorem land_modWarp (s : State) (c w : Nat) (f : Warp → Warp) : { s.modWarp c w f with
    cores := s.cores, warps := s.warps, ctxs := s.ctxs, groups := s.groups, poison := s.poison } = s := by
  unfold State.modWarp
  split <;> rfl

/-- Results land in tiles, registers and scratchpads: the rest of the machine stays as it was. -/
theorem land_frame (s : State) (a : Issuer) (w : Write) :
    { s.land a w with cores := s.cores, warps := s.warps, ctxs := s.ctxs, groups := s.groups, poison := s.poison } = s := by
  cases w with
  | row => rfl
  | tile => rfl
  | scratch gid o bs bad =>
    simp only [State.land, State.scrWrite, State.modGroup]
    split <;> split <;> rfl
  | g =>
    cases a with
    | warp => exact land_modWarp ..
    | _ => rfl
  | sr =>
    cases a with
    | warp => exact land_modWarp ..
    | _ => rfl
  | pred =>
    cases a with
    | warp =>
      simp only [State.land]
      split
      · rfl
      · exact land_modWarp ..
    | _ => rfl
  | _ => cases a <;> rfl

theorem landAll_frame (s : State) (a : Issuer) (ws : List Write) :
    { s.landAll a ws with cores := s.cores, warps := s.warps, ctxs := s.ctxs, groups := s.groups, poison := s.poison } = s :=
  foldl_keeps (R := fun s t => { t with cores := s.cores, warps := s.warps, ctxs := s.ctxs, groups := s.groups, poison := s.poison } = s)
    (fun _ => rfl) (fun {s _ _} h g => (congrArg (fun x : State => { x with
      cores := s.cores, warps := s.warps, ctxs := s.ctxs, groups := s.groups, poison := s.poison }) g :).trans h)
    (fun s w => land_frame s a w) ws s

section
variable (s : State) (a : Issuer) (ws : List Write)

@[simp] theorem landAll_mem : (s.landAll a ws).mem = s.mem := (congrArg State.mem (landAll_frame s a ws) :)
@[simp] theorem landAll_tags : (s.landAll a ws).tags = s.tags := (congrArg State.tags (landAll_frame s a ws) :)
@[simp] theorem landAll_ringWaits : (s.landAll a ws).ringWaits = s.ringWaits := (congrArg State.ringWaits (landAll_frame s a ws) :)

end

/-! ### The end of an operation (07 R162) -/

/-- Events have joined the agenda, and nothing else differs. -/
def Grows (s t : State) : Prop := { t with agenda := s.agenda } = s ∧ ∀ i ∈ s.agenda, i ∈ t.agenda

namespace Grows

theorem refl (s : State) : Grows s s := ⟨rfl, fun _ h => h⟩

theorem trans {s t u : State} (h : Grows s t) (g : Grows t u) : Grows s u :=
  ⟨(congrArg (fun x : State => { x with agenda := s.agenda }) g.1 :).trans h.1, fun i hi => g.2 i (h.2 i hi)⟩

theorem push (s : State) (i : Instr) : Grows s (s.push i) := ⟨rfl, fun _ h => List.mem_append_left _ h⟩

theorem ite {c : Prop} [Decidable c] {s t u : State} (h : Grows s t) (g : Grows s u) : Grows s (if c then t else u) := by
  split
  · exact h
  · exact g

theorem foldl {β : Type} {f : State → β → State} (h : ∀ s b, Grows s (f s b)) (l : List β) (s : State) : Grows s (l.foldl f s) :=
  foldl_keeps refl trans h l s

end Grows

/-- An operation whose results have landed has left its core, and its token has fallen. -/
def State.retireOp (s : State) (c : Nat) (v : VarOp) : State :=
  (s.modCore c fun k => { k with vars := k.vars.filter fun u => u.id != v.id }).subTok v.agent v.tok

theorem any_nil_contains (l : List (Bool × Nat)) : l.any ([] : List (Bool × Nat)).contains = false :=
  List.any_eq_false.2 fun _ _ => by simp

/-- Results of an operation whose registers nobody has written meanwhile land as they are. -/
theorem foldl_land_eq (v : VarOp) (ws : List Write) (h : v.clash = [] ∨ ws = []) (s : State) :
    ((List.range ws.length).zip ws).foldl (fun s iw => s.land v.agent
      (if (iw.2.regsOf s v.agent).any v.clash.contains then iw.2.freed s (60000 + 64 * iw.1) v.clash else iw.2)) s = s.landAll v.agent ws := by
  rcases h with h | rfl
  · simp only [h, any_nil_contains, Bool.false_eq_true, if_false]
    have only : ((List.range ws.length).zip ws).map (·.2) = ws := List.map_snd_zip (by simp)
    conv_rhs => rw [State.landAll, ← only, List.foldl_map]
  · rfl

/-- The end of an operation: what it leaves, and the events that may now act. -/
theorem finishVar_grows {v : VarOp} {ws : List Write} (h : v.clash = [] ∨ ws = []) (s : State) (c : Nat) :
    Grows ((s.landAll v.agent ws).retireOp c v) (s.finishVar c v ws) := by
  unfold State.finishVar
  rw [foldl_land_eq v ws h s]
  extract_lets landed left retired offered scratch freed
  have offers : Grows retired offered := .foldl (fun s o => .ite (.push s _) (.refl s)) _ _
  have waits : Grows offered scratch := .ite (.foldl (fun s u => .push s _) _ _) (.refl _)
  have frees : Grows scratch freed := .foldl (fun s t => (Grows.push s _).trans (.push ..)) _ _
  exact ((offers.trans waits).trans frees).trans (.push ..)

end Sys2Proof.Machine
end

section
/-! SUPPORT. Events of sealed ranges. -/

namespace Sys2Proof.Machine

/-- A core reads as one of the table or as one without anything. -/
theorem core_mem_or (s : State) (c : Nat) : s.core c = {} ∨ (∃ k, (k, s.core c) ∈ s.cores) := by
  unfold State.core
  induction s.cores with
  | nil => exact .inl rfl
  | cons a t ih =>
    by_cases h : a.1 = c
    · exact .inr ⟨a.1, by rw [mget, if_pos h]; exact List.mem_cons_self⟩
    · simp only [mget, h, if_false]
      exact ih.imp_right fun ⟨k, hk⟩ => ⟨k, List.mem_cons_of_mem _ hk⟩

/-- Where no access is outstanding none of a range waits to be performed. -/
theorem settleFrames_settled {s : State} (h : Claims.settled s) (p : Nat → Bool) : s.settleFrames p = s := by
  refine foldl_still _ fun ck _ => ?_
  have none : ((s.core ck.1).vars.filter fun v => !v.body.touches.1 && v.body.touches.2.any fun a => p (a / 4096)) = [] := by
    refine List.filter_eq_nil_iff.2 fun v hv => ?_
    rcases core_mem_or s ck.1 with bare | ⟨k, listed⟩
    · rw [bare] at hv; cases hv
    · simp [h _ listed v hv]
  rw [none]
  rfl

theorem seal_setSeal (s : State) (n k : Nat) (r : W64) : ((s.setSeal n k r).part n).seal k = r := by
  rw [State.setSeal, State.part_modPart, Part.seal]
  exact mget_set_same ..

/-- The end of an operation on a seal register leaves the registers. -/
theorem sealToken_parts (s : State) (n k : Nat) : (sealToken s n k).parts = s.parts := by
  unfold sealToken
  dsimp only
  split
  · rfl
  · next c v _ =>
    have ended := (finishVar_grows (v := v) (.inr rfl) s c).1
    exact (congrArg State.parts ended :).trans (subTok_parts ..)

theorem sealToken_seal (s : State) (n k : Nat) (r : W64) : ((sealToken (s.setSeal n k r) n k).part n).seal k = r := by
  rw [State.part, sealToken_parts]
  exact seal_setSeal ..

end Sys2Proof.Machine

namespace Sys2Proof.Claims
open Sys2Proof.Machine

/-- A range without an access or a copy under way becomes SEALED (07 R173). -/
theorem sealComplete_answers {s : State} {n k : Nat} (live : Live s) (idle : settled s) (begun : sealState ((s.part n).seal k) = 1)
    (quiet : sealQuiet s n k = true) : Answers (exec (.sealComplete n k) s) fun t => (t.part n).seal k =
      sealWord 2 (sealBase ((s.part n).seal k)) (((s.part n).seal k).toNat % 65536) := by
  have low : bitsN ((s.part n).seal k).toNat 15 0 = ((s.part n).seal k).toNat % 65536 := by simp [bitsN]
  refine ⟨_, runEvent_live live (Machine.sealComplete · n k), ?_⟩
  simp only [Machine.sealComplete, begun, quiet, bne_self_eq_false, Bool.not_true, Bool.or_false, Bool.false_eq_true, if_false,
    settleFrames_settled idle, low, State.part_useFree]
  exact sealToken_seal ..

/-- An unsealed range becomes IDLE (07 R175). -/
theorem unsealComplete_answers {s : State} {n k : Nat} (live : Live s) (begun : sealState ((s.part n).seal k) = 3) :
    Answers (exec (.unsealComplete n k) s) fun t => (t.part n).seal k = 0 := by
  refine ⟨_, runEvent_live live (Machine.unsealComplete · n k), ?_⟩
  simp only [Machine.unsealComplete, begun, bne_self_eq_false, Bool.false_eq_true, if_false, State.part_useFree]
  exact sealToken_seal ..

end Sys2Proof.Claims
end

section
/-! SUPPORT. Events of tickets: an entry is taken, its data has arrived, its lease ends. -/

namespace Sys2Proof.Machine

/-! ### The ticket's answer (08 R178) -/

/-- The results of an LDT whose ticket is known. -/
def ticketWrites (d : Nat) (t : W64) : VarBody := .results [.g d (lo32 t), .g (d + 1) (hi32 t)]

theorem setBody_mem {s : State} {c id : Nat} {v : VarOp} (h : v ∈ (s.core c).vars) (named : v.id = id) (b : VarBody) :
    { v with body := b } ∈ ((s.setBody c id b).core c).vars := by
  rw [State.setBody, State.core_modCore]
  exact List.mem_map.2 ⟨v, h, by simp [named]⟩

/-- A mask that grows leaves everything but the warps and contexts. -/
theorem addMask_frame (s : State) (a : Issuer) (cs : List Nat) : { s.addMask a cs with warps := s.warps, ctxs := s.ctxs } = s := by
  unfold State.addMask
  split
  · rfl
  · split
    · unfold State.modWarp
      split <;> rfl
    · rfl
    · rfl

/-- The one read of an entry's segment: the entry holds its snapshot, and its data stands to arrive (08 R180). -/
theorem tkRead_frame (s : State) (key : Nat) : { tkRead s key with warps := s.warps, ctxs := s.ctxs, agenda := s.agenda } =
    s.setTicket key { s.ticket key with
      st := .fetching, data := s.rdBytes (s.ticket key).pa (128 * 2 ^ (s.ticket key).size)
      poisoned := (List.range (128 * 2 ^ (s.ticket key).size)).filter fun i => s.poisoned ((s.ticket key).pa + i) } := by
  unfold tkRead
  dsimp only [segBytes]
  split
  · exact (congrArg (fun x : State => { x with agenda := s.agenda }) (addMask_frame ..) :)
  · rfl

theorem tkRead_agenda (s : State) (key : Nat) : (tkRead s key).agenda = s.agenda ++ [.ticketFetchComplete (key / 1024) (key % 1024)] := by
  unfold tkRead
  dsimp only [segBytes]
  split
  · exact congrArg (· ++ _) (congrArg State.agenda (addMask_frame ..) :)
  · rfl

/-! ### An entry that is taken (08 R179 to R181) -/

/-- A choice among free entries finds one. -/
theorem chosen_free {s : State} {slice : Nat} (h : freeTickets s slice ≠ []) (x : Nat) :
    ∃ e, (freeTickets s slice)[x % (freeTickets s slice).length]? = some e ∧ e < 1024 ∧ (s.ticket (tkKey slice e)).st = .free := by
  have inside : x % (freeTickets s slice).length < (freeTickets s slice).length := Nat.mod_lt _ (List.length_pos_iff.2 h)
  have listed := List.getElem_mem inside
  obtain ⟨small, free⟩ := List.mem_filter.1 listed
  exact ⟨_, List.getElem?_eq_getElem inside, List.mem_range.1 small, by simpa using free⟩

/-- An LDT has taken entry `e` of the slice of its segment in state `s`. -/
structure TookEntry (s t : State) (c : Nat) (v : VarOp) (va : W64) (size d : Nat) (seg : Seg) (n e : Nat) : Prop where
  st : (t.ticket (tkKey seg.slice e)).st = seg.st
  va : (t.ticket (tkKey seg.slice e)).va = va
  part : (t.ticket (tkKey seg.slice e)).part = n
  gen : (t.ticket (tkKey seg.slice e)).gen = (s.ticket (tkKey seg.slice e)).gen
  done : .variableResultDone c v.id ∈ t.agenda
  snapshot : seg.st = .fetching → (t.ticket (tkKey seg.slice e)).data = s.rdBytes seg.pa (128 * 2 ^ size) ∧
    .ticketFetchComplete seg.slice e ∈ t.agenda
  result : { v with body := ticketWrites d (ticketVal s seg.slice e (s.ticket (tkKey seg.slice e)).gen n size) } ∈ (t.core c).vars
  waits : t.ldtWaits = s.ldtWaits

/-- The entry that an LDT takes, before its segment is read. -/
def newTicket (s : State) (v : VarOp) (va : W64) (size : Nat) (seg : Seg) (n e : Nat) : Ticket :=
  { st := seg.st, gen := (s.ticket (tkKey seg.slice e)).gen, part := n, size := size, va := va, pa := seg.pa, cause := seg.cause
    clock := s.now, reader := v.agent, readerGid := s.gidOf v.agent }

/-- The state in which an LDT has its entry. -/
def entryTaken (s : State) (v : VarOp) (va : W64) (size : Nat) (seg : Seg) (n e : Nat) : State :=
  let s' := s.setTicket (tkKey seg.slice e) (newTicket s v va size seg n e)
  if seg.st == .fetching then tkRead s' (tkKey seg.slice e) else s'

theorem ldtPlace_takes {s : State} {c : Nat} {v : VarOp} {seg : Seg} (member : v ∈ (s.core c).vars) (free : freeTickets s seg.slice ≠ [])
    (n size d : Nat) (va : W64) : ∃ e, e < 1024 ∧ (s.ticket (tkKey seg.slice e)).st = .free ∧
      TookEntry s (ldtPlace s c v n va size d seg) c v va size d seg n e := by
  obtain ⟨e, chosen, small, was⟩ := chosen_free free (s.free (70000 + v.id)).toNat
  refine ⟨e, small, was, ?_⟩
  have placed : ldtPlace s c v n va size d seg = ldtResult (entryTaken s v va size seg n e) c v d
      (ticketVal (entryTaken s v va size seg n e) seg.slice e (s.ticket (tkKey seg.slice e)).gen n size) := by
    unfold ldtPlace
    dsimp only
    rw [chosen]
    unfold entryTaken newTicket
    dsimp only
  have slice : tkKey seg.slice e / 1024 = seg.slice := by unfold tkKey; omega
  have entry : tkKey seg.slice e % 1024 = e := by unfold tkKey; omega
  have taken : ∃ t : Ticket, (entryTaken s v va size seg n e).ticket (tkKey seg.slice e) = t ∧ t.st = seg.st ∧ t.va = va ∧ t.part = n ∧
      t.gen = (s.ticket (tkKey seg.slice e)).gen ∧ (seg.st = .fetching → t.data = s.rdBytes seg.pa (128 * 2 ^ size) ∧
        .ticketFetchComplete seg.slice e ∈ (entryTaken s v va size seg n e).agenda) := by
    unfold entryTaken
    dsimp only
    by_cases fetching : seg.st = .fetching
    · rw [if_pos (by simpa using fetching)]
      have read := congrArg (State.ticket · (tkKey seg.slice e))
        (tkRead_frame (s.setTicket (tkKey seg.slice e) (newTicket s v va size seg n e)) (tkKey seg.slice e))
      simp only [State.ticket_setTicket] at read
      refine ⟨_, read, fetching.symm, rfl, rfl, rfl, fun _ => ⟨rfl, ?_⟩⟩
      rw [tkRead_agenda, slice, entry]
      exact List.mem_append_right _ (List.mem_singleton_self _)
    · rw [if_neg (by simpa using fetching)]
      exact ⟨_, State.ticket_setTicket .., rfl, rfl, rfl, rfl, fun h => absurd h fetching⟩
  have frame : { entryTaken s v va size seg n e with tickets := s.tickets, warps := s.warps, ctxs := s.ctxs, agenda := s.agenda } = s := by
    unfold entryTaken
    dsimp only
    split
    · exact (congrArg (fun x : State => { x with tickets := s.tickets }) (tkRead_frame ..) :)
    · rfl
  generalize entryTaken s v va size seg n e = u at *
  obtain ⟨t, ticket, st, address, part, gen, snapshot⟩ := taken
  have tag : ∀ g, ticketVal u seg.slice e g n size = ticketVal s seg.slice e g n size := fun g => by
    have same : u.part n = s.part n := (congrArg (State.part · n) frame :)
    simp only [ticketVal, same]
  have vars : v ∈ (u.core c).vars := (congrArg (fun x : State => (x.core c).vars) frame :) ▸ member
  rw [placed, tag]
  refine ⟨?_, ?_, ?_, ?_, ?_, fun h => ⟨?_, ?_⟩, ?_, ?_⟩
  all_goals simp only [ldtResult, State.ticket_push, State.push_agenda]
  · exact ticket ▸ st
  · exact ticket ▸ address
  · exact ticket ▸ part
  · exact ticket ▸ gen
  · simp
  · exact ticket ▸ (snapshot h).1
  · exact List.mem_append_left _ (snapshot h).2
  · exact setBody_mem vars rfl _
  · exact (congrArg State.ldtWaits frame :)

/-- An LDT whose segment is known takes an entry where its partition's quota and the slice allow (08 R181). -/
theorem ldtAllocate_takes {s : State} {c size d : Nat} {v : VarOp} {va : W64} {tr : Bool} {seg : Seg} (body : v.body = .ldt va size d tr (some seg))
    (room : ticketsAt s seg.slice (s.partOf (s.gidOf v.agent)) +
      (if tr then 0 else ldtAhead s seg.slice (s.partOf (s.gidOf v.agent)) v.id) < (s.part (s.partOf (s.gidOf v.agent))).quota)
    (free : freeTickets s seg.slice ≠ []) :
    ldtAllocate s c v = ldtPlace { s with ldtWaits := s.ldtWaits.filter fun x => x.id != v.id } c v (s.partOf (s.gidOf v.agent)) va size d seg := by
  simp only [ldtAllocate, body, ldtAt]
  rw [if_pos]
  rw [Bool.and_eq_true]
  exact ⟨decide_eq_true room, by simpa using free⟩

/-- An LDT that waits at no slice has every one that waits at its own ahead of it. -/
theorem ldtAhead_new {s : State} {id : Nat} (h : ∀ x ∈ s.ldtWaits, x.id ≠ id) (slice n : Nat) :
    ldtAhead s slice n id = (s.ldtWaits.filter fun x => x.slice == slice && x.part == n).length := by
  rw [ldtAhead, List.takeWhile_eq_self_iff.2 fun x hx => by simpa using h x hx]

/-- The first of a partition's LDTs that wait at a slice has none ahead of it. -/
theorem ldtAhead_first {l : List LdtWait} {slice n : Nat} {x : LdtWait} (first : l.find? (fun x => x.slice == slice && x.part == n) = some x)
    (unique : ∀ y ∈ l, y.id = x.id → y = x) :
    (l.takeWhile fun y => y.id != x.id).filter (fun y => y.slice == slice && y.part == n) = [] := by
  induction l with
  | nil => rfl
  | cons y l ih =>
    by_cases named : y.id = x.id
    · simp [named]
    · have other : (y.slice == slice && y.part == n) = false := by
        by_contra here
        rw [List.find?_cons_of_pos (by simpa using here)] at first
        exact named (congrArg LdtWait.id (Option.some.inj first))
      rw [List.find?_cons_of_neg (by simp [other])] at first
      rw [List.takeWhile_cons_of_pos (by simpa using named), List.filter_cons_of_neg (by simp [other])]
      exact ih first fun z hz => unique z (List.mem_cons_of_mem _ hz)

/-! ### The end of a lease (08 R191) -/

/-- A claim of an entry that nobody waits for, which becomes FREE. -/
theorem tkClaim_free {s : State} {key : Nat} (kind : TkClaim) (alone : (s.ticket key).waiters = []) : Grows
    (s.setTicket key { s.ticket key with st := .free, gen := nextGen (s.ticket key).gen, last := kind, waiters := [], data := [] })
    (tkClaim s key kind .free) := by
  simp only [tkClaim, alone, List.foldl_nil, beq_self_eq_true, if_true]
  exact .foldl (fun s p => .push s _) _ _

theorem leaseEnd_frees {s : State} {slice e : Nat} (st : (s.ticket (tkKey slice e)).st = .full ∨ (s.ticket (tkKey slice e)).st = .poisoned)
    (alone : (s.ticket (tkKey slice e)).waiters = [])
    (lapses : (s.ticket (tkKey slice e)).clock + 2 ^ (s.part (s.ticket (tkKey slice e)).part).lease.toNat ≤ s.now) :
    let k := s.ticket (tkKey slice e)
    let t := leaseEnd s slice e
    t.ticket (tkKey slice e) = { k with st := .free, gen := nextGen k.gen, last := .lapsed, waiters := [], data := [] } ∧
      (t.part k.part).lapsed = (s.part k.part).lapsed + 1 := by
  intro k
  have watched := claimWatch_frame s (tkKey slice e)
  have ticket : (claimWatch s (tkKey slice e)).ticket (tkKey slice e) = k := (congrArg (State.ticket · (tkKey slice e)) watched :)
  have parts : (claimWatch s (tkKey slice e)).part k.part = s.part k.part := (congrArg (State.part · k.part) watched :)
  have claimed := (tkClaim_free (s := claimWatch s (tkKey slice e)) (key := tkKey slice e) .lapsed (by rw [ticket]; exact alone)).1
  rw [ticket] at claimed
  have due : ((k.st == .full || k.st == .poisoned) && decide (k.clock + 2 ^ (s.part k.part).lease.toNat ≤ s.now)) = true := by
    rw [Bool.and_eq_true, Bool.or_eq_true, beq_iff_eq, beq_iff_eq, decide_eq_true_iff]
    exact ⟨st, lapses⟩
  generalize hu : tkClaim (claimWatch s (tkKey slice e)) (tkKey slice e) .lapsed .free = u at claimed
  have freed : u.ticket (tkKey slice e) = { k with st := .free, gen := nextGen k.gen, last := .lapsed, waiters := [], data := [] } :=
    (congrArg (State.ticket · (tkKey slice e)) claimed :).trans (State.ticket_setTicket ..)
  have count : (u.part k.part).lapsed = (s.part k.part).lapsed :=
    (congrArg (fun x : State => (x.part k.part).lapsed) claimed :).trans (congrArg Part.lapsed parts)
  have ends : ∃ b : Bool, leaseEnd s slice e = if b then (u.modPart k.part fun p => { p with lapsed := p.lapsed + 1 }).signal (1 + k.part)
      (bitsN (s.part k.part).intcfg.toNat 5 0) else u.modPart k.part fun p => { p with lapsed := p.lapsed + 1 } := by
    refine ⟨(s.part k.part).lapsed == 0, ?_⟩
    rw [← hu]
    exact if_pos due
  obtain ⟨b, ends⟩ := ends
  intro t
  have signalled : t.tickets = u.tickets ∧ t.part k.part = { u.part k.part with lapsed := (u.part k.part).lapsed + 1 } := by
    rw [show t = _ from ends]
    have own : (u.modPart k.part fun p => { p with lapsed := p.lapsed + 1 }).part k.part = _ := State.part_modPart ..
    split
    · unfold State.signal
      split <;> exact ⟨rfl, own⟩
    · exact ⟨rfl, own⟩
  obtain ⟨tickets, part⟩ := signalled
  refine ⟨?_, ?_⟩
  · rw [State.ticket, tickets]; exact freed
  · rw [part, ← count]

end Sys2Proof.Machine

namespace Sys2Proof.Claims
open Sys2Proof.Machine

/-- TICKET_ALLOCATE of an LDT whose segment is known and whose partition has room at the slice (08 R179 to R181). -/
theorem ticketAllocate_answers {s : State} {c id size d : Nat} {v : VarOp} {va : W64} {tr : Bool} {seg : Seg} (live : Live s)
    (found : (s.core c).vars.find? (fun v => v.id == id) = some v) (body : v.body = .ldt va size d tr (some seg))
    (fresh : ∀ x ∈ s.ldtWaits, x.id ≠ id) (free : freeTickets s seg.slice ≠ [])
    (room : ticketsAt s seg.slice (s.partOf (s.gidOf v.agent)) + (if tr then 0 else
      (s.ldtWaits.filter fun x => x.slice == seg.slice && x.part == s.partOf (s.gidOf v.agent)).length) <
        (s.part (s.partOf (s.gidOf v.agent))).quota) :
    ∃ e t, exec (.ticketAllocate c id) s = .next t.useFree ∧ e < 1024 ∧ (s.ticket (tkKey seg.slice e)).st = .free ∧ v.id = id ∧
      TookEntry { s with ldtWaits := s.ldtWaits.filter fun x => x.id != v.id } t c v va size d seg (s.partOf (s.gidOf v.agent)) e := by
  have named : v.id = id := by simpa using List.find?_some found
  have member : v ∈ (s.core c).vars := List.mem_of_find?_eq_some found
  have idle : (s.ldtWaits.any fun x => x.id == id) = false := List.any_eq_false.2 fun x hx => by simpa using fresh x hx
  obtain ⟨e, small, was, took⟩ := ldtPlace_takes (s := { s with ldtWaits := s.ldtWaits.filter fun x => x.id != v.id }) (c := c) member free
    (s.partOf (s.gidOf v.agent)) size d va
  refine ⟨e, _, ?_, small, was, named, took⟩
  rw [← ldtAllocate_takes body (by rw [named, ldtAhead_new fresh]; exact room) free]
  simp only [exec, execTicketAllocate, runEvent_live live, found, idle, Bool.false_eq_true, if_false]

/-- LDT_QUOTA_GRANT: the first waiting LDT of a partition at a slice takes an entry (08 R181). -/
theorem ldtQuotaGrant_answers {s : State} {slice n size d : Nat} {x : LdtWait} {v : VarOp} {va : W64} {tr : Bool} {seg : Seg} (live : Live s)
    (first : s.ldtWaits.find? (fun x => x.slice == slice && x.part == n) = some x) (room : ticketsAt s slice n < (s.part n).quota)
    (unique : ∀ y ∈ s.ldtWaits, y.id = x.id → y = x) (found : (s.core x.core).vars.find? (fun v => v.id == x.id) = some v)
    (body : v.body = .ldt va size d tr (some seg)) (at_ : seg.slice = slice) (owner : s.partOf (s.gidOf v.agent) = n)
    (free : freeTickets s slice ≠ []) :
    Answers (exec (.ldtQuotaGrant slice n) s) fun t => t.ldtWaits = s.ldtWaits.filter (fun y => y.id != x.id) ∧
      .variableResultDone x.core x.id ∈ t.agenda ∧ .ldtQuotaGrant slice n ∈ t.agenda := by
  have named : v.id = x.id := by simpa using List.find?_some found
  have member : v ∈ (s.core x.core).vars := List.mem_of_find?_eq_some found
  subst at_ owner
  obtain ⟨e, -, -, took⟩ := ldtPlace_takes (s := { s with ldtWaits := s.ldtWaits.filter fun y => y.id != v.id }) (c := x.core) member free
    (s.partOf (s.gidOf v.agent)) size d va
  have ahead : ldtAhead s seg.slice (s.partOf (s.gidOf v.agent)) v.id = 0 := by
    rw [ldtAhead, named, ldtAhead_first first unique]; rfl
  have places := ldtAllocate_takes (c := x.core) body (by rw [ahead]; simpa using room) free
  have grants : ldtGrant s seg.slice (s.partOf (s.gidOf v.agent)) =
      (ldtAllocate s x.core v).push (.ldtQuotaGrant seg.slice (s.partOf (s.gidOf v.agent))) := by
    have allowed : (decide ((s.part (s.partOf (s.gidOf v.agent))).quota ≤ ticketsAt s seg.slice (s.partOf (s.gidOf v.agent))) ||
        freeTickets s seg.slice == []) = false := by
      rw [Bool.or_eq_false_iff, decide_eq_false_iff_not]
      exact ⟨Nat.not_le.2 room, by simpa using free⟩
    simp only [ldtGrant, first, allowed, Bool.false_eq_true, if_false, found]
  refine ⟨_, runEvent_live live (ldtGrant · seg.slice (s.partOf (s.gidOf v.agent))), ?_⟩
  rw [grants, places]
  obtain ⟨done, waits⟩ := And.intro took.done took.waits
  generalize ldtPlace _ _ _ _ _ _ _ _ = u at done waits ⊢
  rw [named] at done waits
  exact ⟨waits, List.mem_append_left _ done, List.mem_append_right _ (List.mem_singleton_self _)⟩

end Sys2Proof.Claims
end

section
/-! SUPPORT. A waiting reservation of a ring that is served, and the law of the events of seals, tickets and rings. -/

namespace Sys2Proof.Machine

/-! ### g registers of a warp -/

theorem warp_modWarp {s : State} {c w : Nat} (h : (s.warp? c w).isSome = true) (f : Warp → Warp) :
    (s.modWarp c w f).warp c w = f (s.warp c w) := by
  obtain ⟨x, hx⟩ := Option.isSome_iff_exists.1 h
  rw [State.modWarp_some hx, State.warp_setWarp, State.warp_of_warp? hx]

/-- Two words in a pair of g registers. -/
theorem landAll_pair {s : State} {c w : Nat} (h : (s.warp? c w).isSome = true) (d : Nat) (x y : W32) :
    mget 0 ((s.landAll (.warp c w) [.g d x, .g (d + 1) y]).warp c w).g d = x ∧
    mget 0 ((s.landAll (.warp c w) [.g d x, .g (d + 1) y]).warp c w).g (d + 1) = y := by
  have there : ((s.modWarp c w fun z => { z with g := mset 0 z.g d x }).warp? c w).isSome = true := by
    rw [State.warp?_modWarp, Option.isSome_map]; exact h
  have twice : (s.landAll (.warp c w) [.g d x, .g (d + 1) y]).warp c w =
      { s.warp c w with g := mset 0 (mset 0 (s.warp c w).g d x) (d + 1) y } :=
    (warp_modWarp there _).trans (congrArg (fun z : Warp => { z with g := mset 0 z.g (d + 1) y }) (warp_modWarp h _))
  rw [twice]
  exact ⟨(mget_set_ne _ _ _ (Nat.succ_ne_self d)).trans (mget_set_same ..), mget_set_same ..⟩

/-! ### A waiting operation that ends (17 R422) -/

theorem ringWake_grows (s : State) (n hdr : Nat) : Grows s (ringWake s n hdr) := .foldl (fun s _ => .push s _) _ s

theorem retireOp_vars (s : State) (c : Nat) (v : VarOp) : ∀ x ∈ ((s.retireOp c v).core c).vars, x.id ≠ v.id := by
  intro x hx
  rw [State.retireOp, core_subTok, State.core_modCore] at hx
  simpa using (List.mem_filter.1 hx).2

/-- A waiting operation of a warp ends with its slot number in a pair of g registers. -/
theorem ringEnd_warp {s : State} {r : RingWait} {c w d : Nat} {v : VarOp} (agent : r.agent = .warp c w)
    (found : (s.core c).vars.find? (fun v => v.id == r.id) = some v) (owner : v.agent = .warp c w) (untouched : v.clash = [])
    (regs : v.regs = [(true, d), (true, d + 1)]) (there : (s.warp? c w).isSome = true) (k : W64) :
    let t := ringEnd s r k
    t.ringWaits = s.ringWaits.filter (fun x => x.id != r.id) ∧ mget 0 (t.warp c w).g d = lo32 k ∧ mget 0 (t.warp c w).g (d + 1) = hi32 k ∧
      ∀ x ∈ (t.core c).vars, x.id ≠ r.id := by
  have named : v.id = r.id := by simpa using List.find?_some found
  have first : minOf 0 (v.regs.map (·.2)) = d := by simp [regs, minOf]
  generalize hu : ({ s with ringWaits := s.ringWaits.filter fun x => x.id != r.id } : State) = u
  have waits : u.ringWaits = s.ringWaits.filter fun x => x.id != r.id := by rw [← hu]
  have stands : (u.core c).vars.find? (fun v => v.id == r.id) = some v := by rw [← hu]; exact found
  have warp : (u.warp? c w).isSome = true := by rw [← hu]; exact there
  have ends : ringEnd s r k = ringWake (u.finishVar c v (slotWrites d k)) r.part r.hdr.toNat := by
    simp only [ringEnd, agent, coreOf, hu, stands, first]
  have grown := (finishVar_grows (.inl untouched) u c).trans (ringWake_grows (u.finishVar c v (slotWrites d k)) r.part r.hdr.toNat)
  obtain ⟨low, high⟩ := landAll_pair warp d (lo32 k) (hi32 k)
  obtain ⟨same, -⟩ := grown
  rw [owner, ← ends] at same
  have g : ((ringEnd s r k).warp c w).g = ((u.landAll (.warp c w) (slotWrites d k)).warp c w).g :=
    (congrArg (fun x : State => (x.warp c w).g) same :).trans (subTok_g ..)
  have vars : (ringEnd s r k).core c = ((u.landAll (.warp c w) (slotWrites d k)).retireOp c v).core c := (congrArg (State.core · c) same :)
  refine ⟨?_, ?_, ?_, fun x hx => ?_⟩
  · exact (congrArg State.ringWaits same :).trans ((subTok_ringWaits ..).trans ((landAll_ringWaits ..).trans waits))
  · rw [g]; exact low
  · rw [g]; exact high
  · rw [vars] at hx
    exact named ▸ retireOp_vars _ c v x hx

end Sys2Proof.Machine

namespace Sys2Proof.Claims
open Sys2Proof.Machine

/-- The first waiting reservation of a ring is served (17 R422). -/
theorem exec_ringWaitServed {s s1 : State} {id k : Nat} {r : RingWait} {h : RingHdr} (live : Live s)
    (found : s.ringWaits.find? (fun x => x.id == id) = some r) (reserves : r.res = true)
    (first : (s.ringWaits.find? fun x => x.part == r.part && x.hdr == r.hdr && x.res == true).map (·.id) = some id)
    (slot : ringReserve s r.part r.hdr.toNat = (.ok (k, h), s1)) :
    exec (.ringWaitServed id) s = .next (ringEnd s1 r (BitVec.ofNat 64 k)).useFree := by
  refine (runEvent_live live (ringServe · id)).trans ?_
  simp only [ringServe, found, reserves, first, slot, bne_self_eq_false, Bool.false_eq_true, if_false, if_true]

/-- Settles O46: each event comes to one operation on the registers, entries or waiting lists, whose law says what it leaves. -/
theorem sealAndTicketEventsComplete : Obligations.SealAndTicketEventsComplete := by
  refine ⟨fun s n k live idle begun quiet => sealComplete_answers live idle begun quiet,
    fun s n k live begun => unsealComplete_answers live begun, ?allocated, ?granted, fun s slice e live => ⟨?fetched, ?claimed⟩, ?ended, ?served⟩
  case allocated =>
    intro s c id size d v va tr seg live found body fresh free n ahead room
    obtain ⟨e, t, runs, small, was, named, took⟩ := ticketAllocate_answers live found body fresh free room
    obtain ⟨st, address, part, gen, done, snapshot, result, -⟩ := took
    rw [named] at done
    exact ⟨_, runs, e, small, was, st, address, part, gen, done, snapshot, result⟩
  case granted =>
    intro s slice n size d x v va tr seg live first room unique found body at_ owner free
    exact ldtQuotaGrant_answers live first room unique found body at_ owner free
  case fetched =>
    intro fetching alone
    have full : tkFetched s slice e = s.setTicket (tkKey slice e) { s.ticket (tkKey slice e) with st := .full, cause := 0, clock := s.now } := by
      simp only [tkFetched, fetching, tkSettle, alone]
    refine ⟨_, runEvent_live live (tkFetched · slice e), ?_⟩
    rw [full]
    exact State.ticket_setTicket ..
  case claimed =>
    intro claimed
    have freed : tkFetched s slice e = (s.setTicket (tkKey slice e) { s.ticket (tkKey slice e) with st := .free, data := [] }).slotFreed slice
        (s.ticket (tkKey slice e)).part := by
      simp only [tkFetched, claimed]
    have told : Grows (s.setTicket (tkKey slice e) { s.ticket (tkKey slice e) with st := .free, data := [] }) (tkFetched s slice e) := by
      rw [freed]
      exact .foldl (fun s p => .push s _) _ _
    refine ⟨_, runEvent_live live (tkFetched · slice e), ?_⟩
    exact (congrArg (State.ticket · (tkKey slice e)) told.1 :).trans (State.ticket_setTicket ..)
  case ended =>
    intro s slice e live k st alone lapses
    obtain ⟨ticket, count⟩ := leaseEnd_frees st alone lapses
    refine ⟨_, runEvent_live live (leaseEnd · slice e), ?_⟩
    simp only [State.ticket_useFree, State.part_useFree, ticket]
    exact ⟨trivial, rfl, trivial, count⟩
  case served =>
    intro s s1 c w id d k r h v live found reserves first agent slot stands owner untouched regs _ there
    obtain rfl : r.id = id := by simpa using List.find?_some found
    exact ⟨_, exec_ringWaitServed live found reserves first slot, ringEnd_warp agent stands owner untouched regs there _⟩

end Sys2Proof.Claims
end

section
/-! SUPPORT. What accesses at the home slices leave as it was: of a core all but its L1, its write-combining buffer and its release number. -/

namespace Sys2Proof.Machine

/-- A warp but for its pending mask and the releases that its lanes carry (09 R209; 16 R372). -/
def Warp.unmasked (x : Warp) : Warp := { x with pmask := [], carried := [] }

/-- State `t` with the tables of state `s` that an access may change. -/
def State.accRest (s t : State) : State :=
  { t with mem := s.mem, poison := s.poison, tags := s.tags, cores := s.cores, warps := s.warps, ctxs := s.ctxs, grids := s.grids,
           colls := s.colls, out := s.out, agenda := s.agenda }

/-- What an access at the home slices keeps: the rest of the machine, of a core all but its L1, its write-combining buffer and its release
number, of an agent all but its pending mask and the releases that it carries, and a machine without poison stays so. -/
structure AccFrame (s t : State) : Prop where
  rest : s.accRest t = s
  core : ∀ k, { t.core k with l1 := (s.core k).l1, wc := (s.core k).wc, relNo := (s.core k).relNo } = s.core k
  warp : ∀ c w, (t.warp? c w).map Warp.unmasked = (s.warp? c w).map Warp.unmasked
  ctx : ∀ c k, { t.ctx c k with pmask := (s.ctx c k).pmask } = s.ctx c k
  sound : s.poison = [] → t.poison = []

namespace AccFrame

theorem refl (s : State) : AccFrame s s := ⟨rfl, fun _ => rfl, fun _ _ => rfl, fun _ _ => rfl, id⟩

theorem trans {s t u : State} (h : AccFrame s t) (g : AccFrame t u) : AccFrame s u where
  rest := (congrArg s.accRest g.rest :).trans h.rest
  core k := (congrArg (fun x : Core => { x with l1 := (s.core k).l1, wc := (s.core k).wc, relNo := (s.core k).relNo }) (g.core k) :).trans (h.core k)
  warp c w := (g.warp c w).trans (h.warp c w)
  ctx c k := (congrArg (fun x : Ctx => { x with pmask := (s.ctx c k).pmask }) (g.ctx c k) :).trans (h.ctx c k)
  sound none := g.sound (h.sound none)

theorem ite {c : Prop} [Decidable c] {s t u : State} (h : AccFrame s t) (g : AccFrame s u) : AccFrame s (if c then t else u) := by
  split
  · exact h
  · exact g

theorem foldl {β : Type} {f : State → β → State} (h : ∀ s b, AccFrame s (f s b)) (l : List β) (s : State) : AccFrame s (l.foldl f s) :=
  foldl_keeps refl trans h l s

section
variable {s t : State} (h : AccFrame s t)
include h

theorem groups : t.groups = s.groups := (congrArg State.groups h.rest :)
theorem vars (k : Nat) : (t.core k).vars = (s.core k).vars := (congrArg Core.vars (h.core k) :)
theorem copies (k : Nat) : (t.core k).copies = (s.core k).copies := (congrArg Core.copies (h.core k) :)

theorem isSome (c w : Nat) : (t.warp? c w).isSome = (s.warp? c w).isSome := by
  have same := congrArg Option.isSome (h.warp c w)
  simpa only [Option.isSome_map] using same

/-- A warp's tokens stay as they were (02 R50). -/
theorem tokens (c w : Nat) : (t.warp c w).tokens = (s.warp c w).tokens := by
  have same := congrArg (fun o : Option Warp => (o.map Warp.tokens).getD (({} : Warp).tokens)) (h.warp c w)
  simp only [Option.map_map] at same
  rw [State.warp, State.warp, mget_eq_getD, mget_eq_getD]
  cases ht : mget? t.warps (wkey c w) <;> cases hs : mget? s.warps (wkey c w) <;>
    simp_all [State.warp?, Warp.unmasked]

theorem ctxTokens (c k : Nat) : (t.ctx c k).tokens = (s.ctx c k).tokens := (congrArg Ctx.tokens (h.ctx c k) :)

end

/-! ### Elementary changes -/

theorem memWrite (s : State) (cells : List (Nat × Byte)) (rmw : Bool) : AccFrame s (s.memWrite cells rmw) :=
  ⟨rfl, fun _ => rfl, fun _ _ => rfl, fun _ _ => rfl, fun none => by simp [State.memWrite, none]⟩

theorem addPoison (s : State) {l : List ErrLoc} (h : s.poison = [] → l = []) : AccFrame s (s.addPoison l) :=
  ⟨rfl, fun _ => rfl, fun _ _ => rfl, fun _ _ => rfl, fun none => by simp [State.addPoison, none, h none]⟩

theorem delPoison (s : State) (p : ErrLoc → Bool) : AccFrame s (s.delPoison p) :=
  ⟨rfl, fun _ => rfl, fun _ _ => rfl, fun _ _ => rfl, fun none => by simp [State.delPoison, none]⟩

theorem modCore (s : State) (c : Nat) {f : Core → Core}
    (h : ∀ k : Core, { f k with l1 := k.l1, wc := k.wc, relNo := k.relNo } = k) : AccFrame s (s.modCore c f) := by
  refine ⟨rfl, fun k => ?_, fun _ _ => rfl, fun _ _ => rfl, id⟩
  by_cases hk : c = k
  · subst hk; rw [State.core_modCore]; exact h _
  · rw [State.core_modCore_ne _ _ hk]

theorem emit (s : State) (o : Out) : AccFrame s (s.emit o) := ⟨rfl, fun _ => rfl, fun _ _ => rfl, fun _ _ => rfl, id⟩

theorem setTags (s : State) (l : List (Nat × List (Nat × BitVec 32))) : AccFrame s { s with tags := l } :=
  ⟨rfl, fun _ => rfl, fun _ _ => rfl, fun _ _ => rfl, id⟩

theorem collTouchPa (s : State) (pas : List Nat) : AccFrame s (s.collTouchPa pas) :=
  .ite (refl s) ⟨rfl, fun _ => rfl, fun _ _ => rfl, fun _ _ => rfl, id⟩

theorem ofGrids {s t : State} (h : GridsOnly s t) : AccFrame s t where
  rest := (congrArg s.accRest h :)
  core k := by rw [h.core k]
  warp c w := (congrArg (fun x : State => (x.warp? c w).map Warp.unmasked) h :)
  ctx c k := (congrArg (fun x : State => { x.ctx c k with pmask := (s.ctx c k).pmask }) h :)
  sound none := h.poison.trans none

theorem modWarp (s : State) (c w : Nat) {f : Warp → Warp} (h : ∀ x, (f x).unmasked = x.unmasked) : AccFrame s (s.modWarp c w f) := by
  refine ⟨?_, fun k => by rw [State.core_modWarp], fun d u => ?_, fun _ _ => by rw [State.ctx_modWarp], fun none => by simp [none]⟩
  · unfold State.modWarp
    split <;> rfl
  · unfold State.modWarp
    split
    · next x hx =>
      by_cases same : wkey c w = wkey d u
      · have old : s.warp? d u = some x := by rw [State.warp?, ← same]; exact hx
        rw [old, State.warp?, State.setWarp_warps, same, mget?_put_same, Option.map_some, Option.map_some, h]
      · rw [State.warp?, State.setWarp_warps, mget?_put_ne _ _ same]
        rfl
    · rfl

theorem modCtx (s : State) (c k : Nat) {f : Ctx → Ctx} (h : ∀ x, { f x with pmask := x.pmask } = x) : AccFrame s (s.modCtx c k f) := by
  refine ⟨rfl, fun _ => rfl, fun _ _ => rfl, fun d j => ?_, id⟩
  by_cases same : ckey c k = ckey d j
  · have old : s.ctx d j = s.ctx c k := by rw [State.ctx, ← same]; rfl
    have new : (s.modCtx c k f).ctx d j = f (s.ctx c k) := by
      rw [State.ctx, ← same]
      exact State.ctx_modCtx ..
    rw [old, new]
    exact h _
  · have kept : (s.modCtx c k f).ctx d j = s.ctx d j := mget_put_ne _ _ _ same
    rw [kept]

theorem addMask (s : State) (a : Issuer) (cs : List Nat) : AccFrame s (s.addMask a cs) := by
  refine .ite (refl s) ?_
  cases a with
  | warp c w => exact modWarp s c w fun _ => rfl
  | ctx c k => exact modCtx s c k fun _ => rfl
  | none => exact refl s

theorem uncarry (s : State) (a : Issuer) (lanes : List Nat) : AccFrame s (s.uncarry a lanes) := by
  cases a with
  | warp c w => exact modWarp s c w fun _ => rfl
  | _ => exact refl s

/-! ### Operations of the caches -/

theorem moved (s : State) (gid n : Nat) : AccFrame s (s.moved gid n) := ofGrids (GridsOnly.moved ..)

theorem writeBack (s : State) (c : Nat) (p : Nat → Bool) : AccFrame s (s.writeBack c p) := by
  have carried : s.poison = [] → s.l1Carry c (dirtyCells (s.core c).l1 p) = [] := fun none => by simp [State.l1Carry, none]
  have counted : AccFrame s (s.countBack c p) := ofGrids (GridsOnly.countBack ..)
  have written := counted.trans (memWrite _ (dirtyCells (s.core c).l1 p) false)
  unfold State.writeBack
  refine trans ?_ (modCore _ c fun _ => rfl)
  refine ⟨written.rest, written.core, written.warp, written.ctx, fun none => ?_⟩
  simp [State.addPoison, carried none, written.sound none]

theorem resolveFd (s : State) (c : Nat) (p : Nat → Bool) : AccFrame s (s.resolveFd c p) := by
  unfold State.resolveFd
  refine trans ?_ (modCore _ c fun _ => rfl)
  exact foldl (fun s _ => writeBack s ..) _ s

theorem wcDrain (s : State) (c : Nat) (p : Nat → Bool) : AccFrame s (s.wcDrain c p) := by
  unfold State.wcDrain
  refine trans ?_ (modCore _ c fun _ => rfl)
  exact foldl (fun s _ => (ofGrids (GridsOnly.countWc s _)).trans (memWrite ..)) _ s

theorem homePrep (s : State) (c : Nat) (pas : List Nat) : AccFrame s (s.homePrep c pas) := by
  unfold State.homePrep
  refine trans ?_ (modCore _ c fun _ => rfl)
  exact ((wcDrain s c _).trans (resolveFd ..)).trans (writeBack ..)

theorem l1Evict (s : State) (c ln : Nat) : AccFrame s (s.l1Evict c ln) := by
  unfold State.l1Evict
  refine trans ?_ (modCore _ c fun _ => rfl)
  exact (resolveFd s c _).trans (writeBack ..)

theorem l1Fit (s : State) (c keep : Nat) : AccFrame s (s.l1Fit c keep) := by
  unfold State.l1Fit
  refine .ite (refl s) ?_
  split
  · exact l1Evict ..
  · exact refl s

theorem l1Fresh (s : State) (c ln : Nat) (keep : LByte → Bool) : AccFrame s (s.l1Fresh c ln keep) := .ite (refl s) (delPoison ..)

theorem drainCore (s : State) (c : Nat) : AccFrame s (s.drainCore c) := (resolveFd s c _).trans (writeBack ..)

theorem eager (s : State) (c scope : Nat) : AccFrame s (s.eager c scope) :=
  .ite (refl s) (.ite ((drainCore s c).trans (wcDrain ..)) (drainCore s c))

theorem dropClean (s : State) (c n : Nat) : AccFrame s (s.dropClean c n) := by
  unfold State.dropClean
  exact modCore s c fun _ => rfl

theorem acquireDrop (s : State) (c n scope : Nat) : AccFrame s (s.acquireDrop c n scope) :=
  .ite ((resolveFd s c _).trans (dropClean ..)) (refl s)

theorem flushLines (s : State) (c : Nat) (p : Nat → Bool) (drop : Bool) : AccFrame s (s.flushLines c p drop) := by
  have flushed : AccFrame s (((s.wcDrain c p).resolveFd c p).writeBack c fun a => p (a / 128)) :=
    ((wcDrain s c p).trans (resolveFd ..)).trans (writeBack ..)
  unfold State.flushLines
  refine .ite (flushed.trans ?_) flushed
  exact modCore _ c fun _ => rfl

theorem forward (s : State) (r c : Nat) (n : Option (BitVec 32)) : AccFrame s (s.forward r c n) := by
  unfold State.forward
  refine foldl (fun s kl => ?_) _ s
  extract_lets sent old resolved arrived fitted
  have resolves : AccFrame s resolved := by
    unfold resolved
    split
    · exact .ite (refl s) (resolveFd ..)
    · exact refl s
  have arrives : AccFrame resolved arrived := (l1Fresh resolved c kl.1 _).trans (modCore _ c fun _ => rfl)
  refine ((resolves.trans arrives).trans (l1Fit arrived c kl.1)).trans (addPoison _ fun none => ?_)
  have sound : fitted.poison = [] := none
  exact List.filterMap_eq_nil_iff.2 fun i _ => by simp [State.l1Poisoned, sound]

theorem acquireTags (s : State) (c scope : Nat) (cluster pas : List Nat) : AccFrame s (s.acquireTags c scope cluster pas) := by
  refine foldl (fun s w => ?_) _ s
  exact (foldl (fun s p => .ite (writeBack s ..) (forward s ..)) _ s).trans (setTags ..)

theorem tagWords (s : State) (c : Nat) (pas : List Nat) (rmw : Bool) : AccFrame s (s.tagWords c pas rmw) := setTags ..

theorem bumpRel (s : State) (c : Nat) : AccFrame s (s.bumpRel c) := modCore s c fun _ => rfl

/-! ### Accesses at the home slices (09 R202) -/

theorem acquireRead (s : State) (a : Issuer) (x : Access) (scope : Nat) (pas : List Nat) : AccFrame s (acquireRead s a x scope pas) :=
  .ite ((acquireDrop s ..).trans (acquireTags ..)) (.ite (refl s) (addMask s ..))

theorem outLoad (s : State) (n pa len : Nat) : AccFrame s (s.outLoad n pa len) := by
  unfold State.outLoad
  split
  · exact emit ..
  · exact emit ..
  · exact refl s

theorem homeWrite (s : State) (n pa : Nat) (bs : List Byte) (rmw : Bool) : AccFrame s (s.homeWrite n pa bs rmw) := by
  refine (collTouchPa s (span pa bs.length)).trans ?_
  unfold State.homeWrite
  dsimp only
  split
  · exact memWrite ..
  · exact emit ..
  · exact emit ..
  · exact refl _

end AccFrame

end Sys2Proof.Machine
end

section
/-! SUPPORT. Bytes at addresses, words of bytes, and the results of loads where they land. -/

namespace Sys2Proof.Machine

/-! ### Bytes -/

theorem nth_eq_getD {α : Type} (d : α) (l : List α) (i : Nat) : nth d l i = l.getD i d := by
  induction l generalizing i with
  | nil => rfl
  | cons x l ih =>
    cases i with
    | zero => rfl
    | succ i => exact ih i

/-- A byte that is written reads back. -/
theorem mget_writeCells_cellsAt (m : List Host.Cell) (a : Nat) (bs : List Byte) {i : Nat} (h : i < bs.length) :
    mget 0 (writeCells m (cellsAt a bs)) (a + i) = nth 0 bs i := by
  induction bs generalizing m a i with
  | nil => cases h
  | cons b bs ih =>
    change mget 0 (writeCells (mset 0 m a b) (cellsAt (a + 1) bs)) (a + i) = _
    cases i with
    | zero =>
      refine (mget_writeCells _ _ _ fun c hc => ?_).trans (mget_set_same ..)
      have := cellsAt_addr hc
      omega
    | succ i =>
      have next : a + (i + 1) = a + 1 + i := by omega
      rw [next]
      exact ih _ _ (Nat.lt_of_succ_lt_succ h)

/-- Bytes that are written read back. -/
theorem map_span_writeCells (m : List Host.Cell) (a : Nat) (bs : List Byte) :
    (span a bs.length).map (mget 0 (writeCells m (cellsAt a bs))) = bs := by
  refine List.ext_getElem (by simp [span]) fun i h1 h2 => ?_
  simp only [span, List.map_map, List.getElem_map, List.getElem_range, Function.comp_apply]
  rw [mget_writeCells_cellsAt m a bs h2, nth_eq_getD, List.getD_eq_getElem _ _ h2]

@[simp] theorem length_span (a n : Nat) : (span a n).length = n := by simp [span]
@[simp] theorem length_rdBytes (s : State) (a n : Nat) : (s.rdBytes a n).length = n := by simp [State.rdBytes]

theorem mem_span {a n x : Nat} : x ∈ span a n ↔ a ≤ x ∧ x < a + n := by
  simp only [span, List.mem_map, List.mem_range]
  constructor
  · rintro ⟨i, hi, rfl⟩; omega
  · rintro ⟨lo, hi⟩; exact ⟨x - a, by omega, by omega⟩

/-! ### Words of bytes (13 R304) -/

theorem nth_bytesWords (n : Nat) (bs : List Byte) {i : Nat} (h : i < n) :
    nth 0 (bytesWords n bs) i = BitVec.ofNat 32 (leNat ((bs.drop (4 * i)).take 4)) := by
  induction n generalizing bs i with
  | zero => cases h
  | succ n ih =>
    cases i with
    | zero => rfl
    | succ i =>
      have past : 4 * (i + 1) = 4 + 4 * i := by omega
      refine (ih (bs.drop 4) (Nat.lt_of_succ_lt_succ h)).trans ?_
      rw [List.drop_drop, past]

/-- The word that a loaded element's bytes make in register `i` of a load's destination. -/
def LoadDst.word (d : LoadDst) (bs : List Byte) (i : Nat) : W32 :=
  if d.esize < 4 then (if d.signed then BitVec.ofInt 32 (Int.bmod (leNat bs) (2 ^ (8 * d.esize))) else BitVec.ofNat 32 (leNat bs))
  else BitVec.ofNat 32 (leNat ((bs.drop (4 * i)).take 4))

/-- Registers of a load's destination. -/
def LoadDst.count (d : LoadDst) : Nat := if d.esize < 4 then 1 else d.bytes / 4

theorem nth_loadWords {d : LoadDst} (size : 0 < d.esize) (bs : List Byte) {i : Nat} (h : i < d.count) :
    nth 0 (loadWords d bs) i = d.word bs i := by
  unfold loadWords LoadDst.word
  unfold LoadDst.count at h
  by_cases short : d.esize < 4
  · rw [if_pos short] at h
    obtain rfl : i = 0 := by omega
    rw [if_pos short, if_pos short, Claims.bmod_eq_sextN _ (by omega)]
    rfl
  · rw [if_neg short] at h
    rw [if_neg short, if_neg short]
    exact nth_bytesWords _ _ h

/-! ### Rows of tiles -/

/-- A row of a tile, named by tile and row, with the words of its lanes, as a result. -/
def rowWrite (x : (Nat × Nat) × List (Nat × W32)) : Write := .row x.1.1 x.1.2 x.2

/-- The words of a row lie in it, each in a lane of its own. -/
structure RowFits (x : (Nat × Nat) × List (Nat × W32)) : Prop where
  row : x.1.2 < 32
  nodup : (x.2.map (·.1)).Nodup
  lanes : ∀ v ∈ x.2, v.1 < 32

theorem tileKey_inj {t r l t' r' l' : Nat} (hr : r < 32) (hl : l < 32) (hr' : r' < 32) (hl' : l' < 32) :
    tileKey t r l = tileKey t' r' l' ↔ t = t' ∧ r = r' ∧ l = l' := by
  unfold tileKey
  omega

theorem foldl_setWord_other {t r t' r' j : Nat} (hr : r < 32) (hr' : r' < 32) (hj : j < 32) (vals : List (Nat × W32))
    (lanes : ∀ v ∈ vals, v.1 < 32) (h : (t, r) ≠ (t', r') ∨ j ∉ vals.map (·.1)) (k : Core) :
    (vals.foldl (fun k jv => k.setWord t r jv.1 jv.2) k).tileWord t' r' j = k.tileWord t' r' j := by
  induction vals generalizing k with
  | nil => rfl
  | cons v vals ih =>
    have elsewhere : tileKey t r v.1 ≠ tileKey t' r' j := by
      rw [Ne, tileKey_inj hr (lanes v List.mem_cons_self) hr' hj]
      rcases h with h | h
      · exact fun same => h (Prod.ext same.1 same.2.1)
      · exact fun same => h (by simp [same.2.2])
    refine (ih (fun x hx => lanes x (List.mem_cons_of_mem _ hx)) (h.imp_right fun h => ?_) _).trans (mget_set_ne _ _ _ elsewhere)
    exact fun listed => h (List.mem_cons_of_mem _ listed)

theorem foldl_setWord_same {t r : Nat} {vals : List (Nat × W32)} (hr : r < 32) (nodup : (vals.map (·.1)).Nodup)
    (lanes : ∀ v ∈ vals, v.1 < 32) {v : Nat × W32} (h : v ∈ vals) (k : Core) :
    (vals.foldl (fun k jv => k.setWord t r jv.1 jv.2) k).tileWord t r v.1 = v.2 := by
  induction vals generalizing k with
  | nil => cases h
  | cons x vals ih =>
    rw [List.map_cons, List.nodup_cons] at nodup
    have rest : ∀ y ∈ vals, y.1 < 32 := fun y hy => lanes y (List.mem_cons_of_mem _ hy)
    rcases List.mem_cons.1 h with rfl | h
    · exact (foldl_setWord_other hr hr (lanes v List.mem_cons_self) vals rest (.inr nodup.1) _).trans (mget_set_same ..)
    · exact ih nodup.2 rest h _

/-- A result in a row changes the words of its core's tiles alone. -/
theorem land_row_core (s : State) (a : Issuer) (x : (Nat × Nat) × List (Nat × W32)) :
    (s.land a (rowWrite x)).core (coreOf a) = x.2.foldl (fun k jv => k.setWord x.1.1 x.1.2 jv.1 jv.2) (s.core (coreOf a)) :=
  State.core_modCore s (coreOf a) fun k => x.2.foldl (fun (k : Core) (jv : Nat × W32) => k.setWord x.1.1 x.1.2 jv.1 jv.2) k

theorem landAll_cons (s : State) (a : Issuer) (w : Write) (ws : List Write) : s.landAll a (w :: ws) = (s.land a w).landAll a ws := rfl

theorem landAll_rows_other {l : List ((Nat × Nat) × List (Nat × W32))} (fits : ∀ x ∈ l, RowFits x) {t r j : Nat} (hr : r < 32) (hj : j < 32)
    (h : (t, r) ∉ l.map (·.1)) (s : State) (a : Issuer) :
    ((s.landAll a (l.map rowWrite)).core (coreOf a)).tileWord t r j = (s.core (coreOf a)).tileWord t r j := by
  induction l generalizing s with
  | nil => rfl
  | cons x l ih =>
    simp only [List.map_cons, List.mem_cons, not_or] at h
    obtain ⟨row, -, lanes⟩ := fits x List.mem_cons_self
    rw [List.map_cons, landAll_cons, ih (fun y hy => fits y (List.mem_cons_of_mem _ hy)) h.2, land_row_core]
    exact foldl_setWord_other row hr hj _ lanes (.inl (Ne.symm h.1)) _

/-- Results in distinct rows: each word stands in its lane. -/
theorem landAll_rows {l : List ((Nat × Nat) × List (Nat × W32))} (nodup : (l.map (·.1)).Nodup) (fits : ∀ x ∈ l, RowFits x)
    {x : (Nat × Nat) × List (Nat × W32)} (hx : x ∈ l) {v : Nat × W32} (hv : v ∈ x.2) (s : State) (a : Issuer) :
    ((s.landAll a (l.map rowWrite)).core (coreOf a)).tileWord x.1.1 x.1.2 v.1 = v.2 := by
  induction l generalizing s with
  | nil => cases hx
  | cons y l ih =>
    rw [List.map_cons, List.nodup_cons] at nodup
    have rest : ∀ z ∈ l, RowFits z := fun z hz => fits z (List.mem_cons_of_mem _ hz)
    rw [List.map_cons, landAll_cons]
    rcases List.mem_cons.1 hx with rfl | hx
    · obtain ⟨row, once, lanes⟩ := fits x List.mem_cons_self
      rw [landAll_rows_other rest row (lanes v hv) nodup.1, land_row_core]
      exact foldl_setWord_same row once lanes hv _
    · exact ih nodup.2 rest hx _

/-! ### g registers -/

/-- Words in consecutive g registers. -/
theorem landAll_gs {s : State} {c w : Nat} (h : (s.warp? c w).isSome = true) (first n : Nat) (f : Nat → W32) :
    let t := s.landAll (.warp c w) ((List.range n).map fun i => .g (first + i) (f i))
    (t.warp? c w).isSome = true ∧ ∀ i, i < n → mget 0 (t.warp c w).g (first + i) = f i := by
  induction n with
  | zero => exact ⟨h, fun i hi => absurd hi (Nat.not_lt_zero i)⟩
  | succ n ih =>
    obtain ⟨there, words⟩ := ih
    have last : s.landAll (.warp c w) ((List.range (n + 1)).map fun i => .g (first + i) (f i)) =
        (s.landAll (.warp c w) ((List.range n).map fun i => .g (first + i) (f i))).modWarp c w fun x =>
          { x with g := mset 0 x.g (first + n) (f n) } := by
      rw [List.range_succ, List.map_append, State.landAll, List.foldl_append]
      rfl
    intro t
    rw [show t = _ from last, State.warp?_modWarp, Option.isSome_map, warp_modWarp there]
    refine ⟨there, fun i hi => ?_⟩
    by_cases same : i = n
    · rw [same]; exact mget_set_same ..
    · exact (mget_set_ne _ _ _ (by omega)).trans (words i (by omega))

/-! ### The results of a load (13 R304; 15 R335) -/

/-- The words of the lanes of a load, those whose access failed with none. -/
def landedLanes (d : LoadDst) (data : List (Nat × List Byte)) : List (Nat × List W32) :=
  (data.map fun x => (x.1, loadWords d x.2)) ++ d.zeroLanes.map fun j => (j, [])

/-- The rows of a load's destination with their words. -/
def loadRows (d : LoadDst) (data : List (Nat × List Byte)) : List ((Nat × Nat) × List (Nat × W32)) :=
  (List.range d.rows.length).filterMap fun i => d.rows[i]?.map fun tr => (tr, (landedLanes d data).map fun x => (x.1, nth 0 x.2 i))

theorem loadWrites_rows {d : LoadDst} (h : d.uniform = false) (data : List (Nat × List Byte)) :
    loadWrites d data = (loadRows d data).map rowWrite := by
  unfold loadWrites loadRows
  rw [h, List.map_filterMap]
  simp only [Bool.false_eq_true, if_false, Option.map_map]
  rfl

theorem filterMap_getElem? {α : Type} (l : List α) : (List.range l.length).filterMap (l[·]?) = l := by
  induction l with
  | nil => rfl
  | cons x l ih => simpa [List.range_succ_eq_map, List.filterMap_map, Function.comp_def] using ih

theorem loadRows_places (d : LoadDst) (data : List (Nat × List Byte)) : (loadRows d data).map (·.1) = d.rows := by
  rw [loadRows, List.map_filterMap]
  simp only [Option.map_map, Function.comp_def, Option.map_id']
  exact filterMap_getElem? _

theorem mem_loadRows {d : LoadDst} {i : Nat} {tr : Nat × Nat} (h : d.rows[i]? = some tr) (data : List (Nat × List Byte)) :
    (tr, (landedLanes d data).map fun x => (x.1, nth 0 x.2 i)) ∈ loadRows d data := by
  have inside : i < d.rows.length := (List.getElem?_eq_some_iff.1 h).1
  exact List.mem_filterMap.2 ⟨i, List.mem_range.2 inside, by rw [h]; rfl⟩

theorem landedLanes_lanes (d : LoadDst) (data : List (Nat × List Byte)) (i : Nat) :
    ((landedLanes d data).map fun x => (x.1, nth 0 x.2 i)).map (·.1) = data.map (·.1) ++ d.zeroLanes := by
  simp [landedLanes, Function.comp_def]

/-- Every row of a load's destination fits. -/
theorem loadRows_fits {d : LoadDst} {data : List (Nat × List Byte)} (fits : Claims.LoadFits d data) (rows : ∀ r ∈ d.rows, r.2 < 32) :
    ∀ x ∈ loadRows d data, RowFits x := by
  intro x hx
  obtain ⟨i, -, made⟩ := List.mem_filterMap.1 hx
  obtain ⟨tr, place, rfl⟩ := Option.map_eq_some_iff.1 made
  obtain ⟨nodup, lanes⟩ := fits.lanes
  refine ⟨rows tr (List.mem_of_getElem? place), (landedLanes_lanes d data i).symm ▸ nodup, fun v hv => lanes v.1 ?_⟩
  rw [← landedLanes_lanes d data i]
  exact List.mem_map_of_mem hv

theorem esize_pos {d : LoadDst} {data : List (Nat × List Byte)} (fits : Claims.LoadFits d data) : 0 < d.esize := by
  have := fits.size
  omega

end Sys2Proof.Machine

namespace Sys2Proof.Claims
open Sys2Proof.Machine

/-- The results of a load where they have landed. -/
theorem loaded_landed {c w : Nat} {d : LoadDst} {data : List (Nat × List Byte)} {z t : State} (fits : LoadFits d data)
    (there : (z.warp? c w).isSome = true)
    (tiles : (t.core c).tiles = ((z.landAll (.warp c w) (loadWrites d data)).core c).tiles)
    (g : (t.warp c w).g = ((z.landAll (.warp c w) (loadWrites d data)).warp c w).g) : Loaded c w d data t := by
  have size := esize_pos fits
  have word : ∀ row lane tile, (t.core c).tileWord tile row lane =
      ((z.landAll (.warp c w) (loadWrites d data)).core c).tileWord tile row lane := fun row lane tile => by
    rw [Core.tileWord, tiles]; rfl
  refine ⟨fun vector length nodup rows i tile row place => ?_, fun uniform x first i hi => ?_⟩
  · have inside : i < d.count := by
      have := (List.getElem?_eq_some_iff.1 place).1
      rw [length] at this
      exact this
    have places : ((loadRows d data).map (·.1)).Nodup := (loadRows_places d data).symm ▸ nodup
    have stands := fun (v : Nat × W32) hv =>
      landAll_rows places (loadRows_fits fits rows) (mem_loadRows place data) (v := v) hv z (.warp c w)
    rw [← loadWrites_rows vector data] at stands
    refine ⟨fun x hx => ?_, fun j hj => ?_⟩
    · have landed := stands (x.1, nth 0 (loadWords d x.2) i)
        (List.mem_map.2 ⟨(x.1, loadWords d x.2), List.mem_append_left _ (List.mem_map_of_mem hx), rfl⟩)
      exact (word ..).trans (landed.trans (nth_loadWords size x.2 inside))
    · have landed := stands (j, 0) (List.mem_map.2 ⟨(j, []), List.mem_append_right _ (List.mem_map_of_mem hj), rfl⟩)
      exact (word ..).trans landed
  · have inside : i < d.count := hi
    obtain ⟨rest, rfl⟩ : ∃ rest, data = x :: rest := by
      cases data with
      | nil => cases first
      | cons y rest => exact ⟨rest, congrArg (· :: rest) (Option.some.inj first)⟩
    have writes : loadWrites d (x :: rest) =
        (List.range (max 1 (d.bytes / 4))).map fun i => .g (d.first + i) (nth 0 (loadWords d x.2) i) := if_pos uniform
    have few : i < max 1 (d.bytes / 4) := by
      unfold LoadDst.count at inside
      split at inside <;> omega
    obtain ⟨-, words⟩ := landAll_gs there d.first (max 1 (d.bytes / 4)) fun i => nth 0 (loadWords d x.2) i
    rw [← writes] at words
    rw [g]
    exact (words i few).trans (nth_loadWords size x.2 inside)

end Sys2Proof.Claims
end

section
/-! SUPPORT. The event that ends an operation: what it leaves, given what the operation has performed. -/

namespace Sys2Proof.Machine

/-! ### What is left of the state in which the operation was performed -/

/-- The end of operation `v` of core `c`, performed in `u`: its results land in `z`, which differs from `u` in monitors and in the bodies of
outstanding operations; it has left its core, and its token has fallen. -/
structure Ended (u z t : State) (c : Nat) (v : VarOp) (ws : List Write) : Prop where
  rest : { z with cores := u.cores, mons := u.mons } = u
  core : ∀ k, { z.core k with vars := (u.core k).vars } = u.core k
  retired : { t with agenda := (z.landAll v.agent ws).agenda, freeCtr := z.freeCtr } = { (z.landAll v.agent ws).retireOp c v with
    agenda := (z.landAll v.agent ws).agenda, freeCtr := z.freeCtr }

/-- A result elsewhere than in a scratchpad leaves the groups. -/
theorem land_groups (s : State) (a : Issuer) {w : Write} (h : ∀ gid o bs bad, w ≠ .scratch gid o bs bad) : (s.land a w).groups = s.groups := by
  cases w with
  | scratch gid o bs bad => exact absurd rfl (h gid o bs bad)
  | row => rfl
  | tile => rfl
  | pred n vals =>
    cases a with
    | warp c w =>
      simp only [State.land]
      split
      · rfl
      · exact State.modWarp_groups ..
    | _ => rfl
  | g => cases a with | warp => exact State.modWarp_groups .. | _ => rfl
  | sr => cases a with | warp => exact State.modWarp_groups .. | _ => rfl
  | _ => cases a <;> rfl

theorem landAll_groups {ws : List Write} (h : ∀ w ∈ ws, ∀ gid o bs bad, w ≠ .scratch gid o bs bad) (s : State) (a : Issuer) :
    (s.landAll a ws).groups = s.groups := by
  induction ws generalizing s with
  | nil => rfl
  | cons w ws ih =>
    rw [landAll_cons, ih (fun x hx => h x (List.mem_cons_of_mem _ hx))]
    exact land_groups s a (h w List.mem_cons_self)

/-- Results in rows leave the contexts. -/
theorem landAll_rows_ctxs (l : List ((Nat × Nat) × List (Nat × W32))) (s : State) (a : Issuer) :
    (s.landAll a (l.map rowWrite)).ctxs = s.ctxs := by
  induction l generalizing s with
  | nil => rfl
  | cons x l ih => rw [List.map_cons, landAll_cons, ih]; rfl

/-- A load's results lie in tiles and registers. -/
theorem loadWrites_no_scratch (d : LoadDst) (data : List (Nat × List Byte)) : ∀ w ∈ loadWrites d data, ∀ gid o bs bad, w ≠ .scratch gid o bs bad := by
  intro w hw gid o bs bad
  unfold loadWrites at hw
  dsimp only at hw
  split at hw
  · split at hw
    · cases hw
    · obtain ⟨i, -, rfl⟩ := List.mem_map.1 hw
      nofun
  · obtain ⟨i, -, made⟩ := List.mem_filterMap.1 hw
    obtain ⟨tr, -, rfl⟩ := Option.map_eq_some_iff.1 made
    nofun

theorem ctx_subTok {a : Issuer} {c k : Nat} (h : a = .ctx c k) (s : State) (t : Nat) : (s.subTok a t).ctx c k = (s.ctx c k).subTok t := by
  subst h
  exact State.ctx_modCtx ..

namespace Ended

section
variable {u z t : State} {c : Nat} {v : VarOp} {ws : List Write} (h : Ended u z t c v ws)
include h

theorem mem : t.mem = u.mem :=
  (congrArg State.mem h.retired :).trans ((subTok_mem ..).trans ((landAll_mem ..).trans (congrArg State.mem h.rest :)))

theorem tags : t.tags = u.tags :=
  (congrArg State.tags h.retired :).trans ((subTok_tags ..).trans ((landAll_tags ..).trans (congrArg State.tags h.rest :)))

theorem groups (g : ∀ w ∈ ws, ∀ gid o bs bad, w ≠ .scratch gid o bs bad) : t.groups = u.groups :=
  (congrArg State.groups h.retired :).trans ((subTok_groups ..).trans ((landAll_groups g ..).trans (congrArg State.groups h.rest :)))

theorem core_retired (k : Nat) : t.core k = ((z.landAll v.agent ws).retireOp c v).core k := (congrArg (State.core · k) h.retired :)

/-- The operation has left its core. -/
theorem left : ∀ x ∈ (t.core c).vars, x.id ≠ v.id := by
  rw [h.core_retired]
  exact retireOp_vars (z.landAll v.agent ws) c v

/-- The tiles are those in which the results have landed. -/
theorem tiles (k : Nat) : (t.core k).tiles = ((z.landAll v.agent ws).core k).tiles := by
  rw [h.core_retired, State.retireOp, core_subTok]
  by_cases own : c = k
  · subst own; rw [State.core_modCore]
  · rw [State.core_modCore_ne _ _ own]

/-- The g registers are those in which the results have landed. -/
theorem g (d w : Nat) : (t.warp d w).g = ((z.landAll v.agent ws).warp d w).g :=
  (congrArg (fun x : State => (x.warp d w).g) h.retired :).trans (subTok_g ..)

theorem warp? (d w : Nat) : z.warp? d w = u.warp? d w := (congrArg (State.warp? · d w) h.rest :)

end

section
variable {u z t : State} {c : Nat} {v : VarOp}

/-- An operation without results leaves the cores but for itself. -/
theorem core_quiet (h : Ended u z t c v []) (k : Nat) : { t.core k with vars := (u.core k).vars } = u.core k := by
  have same : { t.core k with vars := (u.core k).vars } = { z.core k with vars := (u.core k).vars } := by
    rw [h.core_retired, State.retireOp, core_subTok]
    by_cases own : c = k
    · subst own; rw [State.core_modCore]; rfl
    · rw [State.core_modCore_ne _ _ own]; rfl
  exact same.trans (h.core k)

/-- The token of a warp's operation without results falls (07 R162). -/
theorem fell_warp {d w : Nat} (h : Ended u z t c v []) (agent : v.agent = .warp d w) (there : (u.warp? d w).isSome = true) :
    (t.warp d w).tok v.tok = (u.warp d w).tok v.tok - 1 := by
  have own : z.warp d w = u.warp d w := (congrArg (State.warp · d w) h.rest :)
  have fallen : t.warp d w = ((z.modCore c fun k => { k with vars := k.vars.filter fun u => u.id != v.id }).modWarp d w fun x =>
      (x.subTok v.tok).wakeK).warp d w := by
    refine (congrArg (State.warp · d w) h.retired :).trans ?_
    rw [State.retireOp, agent]
    rfl
  rw [fallen, warp_modWarp (by exact (congrArg Option.isSome (h.warp? d w)).trans there), Warp.tok, Warp.wakeK_tokens]
  refine (mget_set_same ..).trans ?_
  rw [← own]
  rfl

/-- The token of a context's operation falls, whose results lie in rows of tiles. -/
theorem fell_ctx {d k : Nat} {l : List ((Nat × Nat) × List (Nat × W32))} (h : Ended u z t c v (l.map rowWrite)) (agent : v.agent = .ctx d k) :
    (t.ctx d k).tok v.tok = (u.ctx d k).tok v.tok - 1 := by
  have landed : (z.landAll v.agent (l.map rowWrite)).ctx d k = u.ctx d k := by
    rw [State.ctx, landAll_rows_ctxs]
    exact (congrArg (State.ctx · d k) h.rest :)
  have fallen : t.ctx d k = ((z.landAll v.agent (l.map rowWrite)).ctx d k).subTok v.tok := by
    refine (congrArg (State.ctx · d k) h.retired :).trans ?_
    exact ctx_subTok agent ..
  rw [fallen, landed]
  exact mget_set_same ..

end

end Ended

/-! ### The event (07 R162) -/

theorem find?_setBody {s : State} {c id : Nat} {v : VarOp} (h : (s.core c).vars.find? (fun v => v.id == id) = some v) (b : VarBody) :
    ((s.setBody c id b).core c).vars.find? (fun v => v.id == id) = some { v with body := b } := by
  have named : v.id = id := by simpa using List.find?_some h
  have test : (fun v : VarOp => v.id == id) ∘ (fun v => if v.id == id then { v with body := b } else v) = fun v => v.id == id := by
    funext x
    dsimp only [Function.comp_apply]
    split <;> rfl
  rw [State.setBody, State.core_modCore]
  dsimp only
  rw [List.find?_map, test, h, Option.map_some, if_pos (by simpa using named)]

/-- The end of an operation that has been performed. -/
theorem varDone_ended {s u : State} {c id : Nat} {v : VarOp} {b : VarBody} {ws : List Write}
    (found : (s.core c).vars.find? (fun v => v.id == id) = some v) (clash : v.clash = [] ∨ ws = [])
    (performed : s.performVar c id = u.setBody c id b) (vars : (u.core c).vars = (s.core c).vars)
    (ends : b = .results ws ∨ b = .quiet ∧ ws = []) : ∃ z, Ended u z (varDone s c id) c v ws := by
  have stands := find?_setBody (vars ▸ found) b
  generalize hz : (if v.load then (u.setBody c id b).monitor (dieOf c) 0 ((u.setBody c id b).partOf ((u.setBody c id b).gidOf v.agent)) c
    ((u.setBody c id b).now - v.issued) else u.setBody c id b) = z
  have done : varDone s c id = z.finishVar c v ws := by
    simp only [varDone, found, performed, stands, hz]
    rcases ends with rfl | ⟨rfl, rfl⟩ <;> rfl
  have monitored : { z with mons := u.mons } = { u.setBody c id b with mons := u.mons } := by
    rw [← hz]
    split <;> rfl
  refine ⟨z, (congrArg (fun x : State => { x with cores := u.cores }) monitored :), fun k => ?_, ?_⟩
  · have same : z.core k = (u.setBody c id b).core k := (congrArg (State.core · k) monitored :)
    rw [same, State.setBody]
    by_cases own : c = k
    · subst own; rw [State.core_modCore]
    · rw [State.core_modCore_ne _ _ own]
  · rw [done]
    obtain ⟨same, -⟩ := finishVar_grows (ws := ws) clash z c
    exact (congrArg (fun x : State => { x with agenda := (z.landAll v.agent ws).agenda, freeCtr := z.freeCtr }) same :)

end Sys2Proof.Machine

namespace Sys2Proof.Claims
open Sys2Proof.Machine

/-- The event that ends an operation, by what the operation performs. -/
theorem variableResultDone_answers {s u : State} {c id : Nat} {v : VarOp} {b : VarBody} {ws : List Write} {P : State → Prop} (live : Live s)
    (found : (s.core c).vars.find? (fun v => v.id == id) = some v) (clash : v.clash = [] ∨ ws = [])
    (performed : s.performVar c id = u.setBody c id b) (vars : (u.core c).vars = (s.core c).vars)
    (ends : b = .results ws ∨ b = .quiet ∧ ws = []) (h : ∀ z t, Ended u z t c v ws → P t) :
    Answers (exec (.variableResultDone c id) s) P := by
  obtain ⟨z, rest, core, retired⟩ := varDone_ended found clash performed vars ends
  exact ⟨_, runEvent_live live (varDone · c id), h z _ ⟨rest, core, (congrArg (fun x : State => { x with freeCtr := z.freeCtr }) retired :)⟩⟩

end Sys2Proof.Claims
end

section
/-! SUPPORT. Accesses to device memory, performed at the home slices (09 R202, R208; 15 R336). -/

namespace Sys2Proof.Machine

/-! ### Device memory among the regions (12 R268) -/

theorem regionOf_mem {pa : Nat} (h : pa < memEnd) : regionOf pa = .mem := if_pos h

theorem loadByte_mem {pa : Nat} (h : pa < memEnd) (s : State) (tag : Nat) : loadByte s tag pa = s.rd8 pa := by
  rw [loadByte, regionOf_mem h]

theorem outLoad_mem {pa : Nat} (h : pa < memEnd) (s : State) (n len : Nat) : s.outLoad n pa len = s := by
  rw [State.outLoad, regionOf_mem h]

theorem homeWrite_mem {pa : Nat} (h : pa < memEnd) (s : State) (n : Nat) (bs : List Byte) (rmw : Bool) :
    s.homeWrite n pa bs rmw = (s.collTouchPa (span pa bs.length)).memWrite (cellsAt pa bs) rmw := by
  simp only [State.homeWrite, regionOf_mem h]

/-- A machine without poison has no poisoned byte among some. -/
theorem find?_poisoned {s : State} (h : s.poison = []) (pas : List Nat) : pas.find? s.poisoned = none :=
  List.find?_eq_none.2 fun _ _ => by simp [State.poisoned, h]

/-- The bytes of memory, as a load finds them. -/
theorem map_loadByte {s : State} {pa n : Nat} (h : ∀ p ∈ span pa n, p < memEnd) (tag : Nat → Nat) :
    ((List.range n).map fun i => loadByte s (tag i) (pa + i)) = s.rdBytes pa n := by
  rw [State.rdBytes, span, List.map_map]
  refine List.map_congr_left fun i hi => loadByte_mem (h _ (mem_span.2 ⟨by omega, ?_⟩)) s _
  have := List.mem_range.1 hi
  omega

@[simp] theorem collTouchPa_mem (s : State) (pas : List Nat) : (s.collTouchPa pas).mem = s.mem := by unfold State.collTouchPa; split <;> rfl
@[simp] theorem collTouchPa_tags (s : State) (pas : List Nat) : (s.collTouchPa pas).tags = s.tags := by unfold State.collTouchPa; split <;> rfl
@[simp] theorem collTouchPa_core (s : State) (pas : List Nat) (k : Nat) : (s.collTouchPa pas).core k = s.core k := by
  unfold State.collTouchPa; split <;> rfl

/-! ### Release tags (09 R208) -/

/-- The tags of the words of some cells go. -/
def untagged (tags : List (Nat × List (Nat × BitVec 32))) (cells : List (Nat × Byte)) : List (Nat × List (Nat × BitVec 32)) :=
  cells.foldl (fun t c => mdel t (c.1 / 8)) tags

theorem untagged_none {tags : List (Nat × List (Nat × BitVec 32))} {cells : List (Nat × Byte)} {w : Nat}
    (h : mget [] tags w = [] ∨ ∃ c ∈ cells, c.1 / 8 = w) : mget [] (untagged tags cells) w = [] := by
  induction cells generalizing tags with
  | nil => exact h.elim id fun ⟨c, hc, _⟩ => nomatch hc
  | cons c cells ih =>
    by_cases own : c.1 / 8 = w
    · exact ih (.inl (own ▸ mget_del_same ..))
    · refine ih (h.imp (fun none => (mget_del_ne _ _ own).trans none) ?_)
      rintro ⟨x, hx, rfl⟩
      rcases List.mem_cons.1 hx with rfl | hx
      · exact absurd rfl own
      · exact ⟨x, hx, rfl⟩

/-- A word among some that are given one value holds it. -/
theorem mget_foldl_mput {α : Type} (d x : α) {words : List Nat} {m : List (Nat × α)} {w : Nat} (h : mget d m w = x ∨ w ∈ words) :
    mget d (words.foldl (fun t w => mput t w x) m) w = x := by
  induction words generalizing m with
  | nil => exact h.elim id nofun
  | cons v words ih =>
    by_cases own : v = w
    · exact ih (.inl (own ▸ mget_put_same ..))
    · refine ih (h.imp (fun kept => (mget_put_ne _ _ _ own).trans kept) fun listed => ?_)
      exact (List.mem_cons.1 listed).resolve_left (Ne.symm own)

/-- A lazy release's store tags its words (09 R208). -/
theorem tagWords_store (s : State) (c : Nat) {pas : List Nat} {p : Nat} (h : p ∈ pas) :
    mget [] (s.tagWords c pas false).tags (p / 8) = [(c, (s.core c).relNo)] :=
  mget_foldl_mput _ _ (.inr (List.mem_eraseDups.2 (List.mem_map_of_mem h)))

theorem mem_cellsAt_of_span {pa p : Nat} {bs : List Byte} (h : p ∈ span pa bs.length) : ∃ c ∈ cellsAt pa bs, c.1 = p := by
  obtain ⟨lo, hi⟩ := mem_span.1 h
  clear h
  induction bs generalizing pa with
  | nil => simp only [List.length_nil] at hi; omega
  | cons b bs ih =>
    by_cases first : p = pa
    · exact ⟨(pa, b), List.mem_cons_self, first.symm⟩
    · rw [List.length_cons] at hi
      obtain ⟨c, hc, rfl⟩ := ih (pa := pa + 1) (by omega) (by omega)
      exact ⟨c, List.mem_cons_of_mem _ hc, rfl⟩

/-! ### Stores -/

/-- The stores of lanes at the home slices, in ascending order of lane. -/
def homeStores (n : Nat) (lanes : List LaneAcc) (s : State) : State := lanes.foldl (fun s l => s.homeWrite n l.pa l.bytes false) s

theorem homeStores_frame (n : Nat) (lanes : List LaneAcc) (s : State) : AccFrame s (homeStores n lanes s) :=
  .foldl (fun s _ => .homeWrite s ..) _ s

theorem homeStores_cons {n : Nat} {l : LaneAcc} (h : l.pa < memEnd) (lanes : List LaneAcc) (s : State) : homeStores n (l :: lanes) s =
    homeStores n lanes ((s.collTouchPa (span l.pa l.bytes.length)).memWrite (cellsAt l.pa l.bytes) false) := by
  rw [← homeWrite_mem h s n]
  rfl

section
variable {n : Nat} {lanes : List LaneAcc} (h : ∀ l ∈ lanes, l.pa < memEnd)
include h

theorem homeStores_mem (s : State) : (homeStores n lanes s).mem = lanes.foldl (fun m l => writeCells m (cellsAt l.pa l.bytes)) s.mem := by
  induction lanes generalizing s with
  | nil => rfl
  | cons l lanes ih =>
    rw [homeStores_cons (h l List.mem_cons_self), ih fun x hx => h x (List.mem_cons_of_mem _ hx)]
    exact congrArg (fun m => lanes.foldl (fun m l => writeCells m (cellsAt l.pa l.bytes)) (writeCells m (cellsAt l.pa l.bytes)))
      (collTouchPa_mem ..)

theorem homeStores_core (s : State) (k : Nat) : (homeStores n lanes s).core k = s.core k := by
  induction lanes generalizing s with
  | nil => rfl
  | cons l lanes ih =>
    rw [homeStores_cons (h l List.mem_cons_self), ih fun x hx => h x (List.mem_cons_of_mem _ hx)]
    exact collTouchPa_core ..

/-- A write empties the tags of its words (09 R208). -/
theorem homeStores_tags (s : State) {w : Nat}
    (word : mget [] s.tags w = [] ∨ ∃ p ∈ lanes.flatMap fun l => span l.pa l.bytes.length, p / 8 = w) :
    mget [] (homeStores n lanes s).tags w = [] := by
  induction lanes generalizing s with
  | nil => exact word.elim id fun ⟨p, hp, _⟩ => nomatch hp
  | cons l lanes ih =>
    rw [homeStores_cons (h l List.mem_cons_self)]
    refine ih (fun x hx => h x (List.mem_cons_of_mem _ hx)) _ ?_
    have tags : ((s.collTouchPa (span l.pa l.bytes.length)).memWrite (cellsAt l.pa l.bytes) false).tags =
        untagged s.tags (cellsAt l.pa l.bytes) := congrArg (untagged · _) (collTouchPa_tags ..)
    rw [tags]
    rcases word with kept | ⟨p, hp, rfl⟩
    · exact .inl (untagged_none (.inl kept))
    · rcases List.mem_append.1 (List.flatMap_cons ▸ hp) with own | later
      · obtain ⟨c, hc, rfl⟩ := mem_cellsAt_of_span own
        exact .inl (untagged_none (.inr ⟨c, hc, rfl⟩))
      · exact .inr ⟨p, later, rfl⟩

end

/-! ### Read-modify-writes -/

/-- The state after the write of one lane's read-modify-write. -/
def rmwWritten (s : State) (l : LaneAcc) (size : Nat) (new : List Byte) : State :=
  (s.collTouchPa (span l.pa size)).memWrite (cellsAt l.pa new) true

theorem rmwWritten_mem (s : State) (l : LaneAcc) (size : Nat) (new : List Byte) :
    (rmwWritten s l size new).mem = writeCells s.mem (cellsAt l.pa new) := congrArg (writeCells · _) (collTouchPa_mem ..)

theorem rmwWritten_frame (s : State) (l : LaneAcc) (size : Nat) (new : List Byte) : AccFrame s (rmwWritten s l size new) :=
  (AccFrame.collTouchPa ..).trans (.memWrite ..)

section
variable {d : Done} {l : LaneAcc} (fine : d.bad = none) (sound : d.s.poison = []) (inside : l.pa < memEnd)
include fine sound inside

theorem rmwLane_reads {n code size : Nat} (h : atomCombine code size (d.s.rdBytes l.pa size) l.bytes = none) :
    rmwLane n code size d l = ⟨d.s, d.data ++ [(l.lane, d.s.rdBytes l.pa size)], none⟩ := by
  simp only [rmwLane, fine, regionOf_mem inside, LaneAcc.span, find?_poisoned sound, h, Option.isSome_none, Bool.false_eq_true, if_false]

theorem rmwLane_writes {n code size : Nat} {new : List Byte} (h : atomCombine code size (d.s.rdBytes l.pa size) l.bytes = some new) :
    rmwLane n code size d l = ⟨rmwWritten d.s l size new, d.data ++ [(l.lane, d.s.rdBytes l.pa size)], none⟩ := by
  simp only [rmwLane, fine, regionOf_mem inside, LaneAcc.span, find?_poisoned sound, h, Option.isSome_none, Bool.false_eq_true, if_false]
  rfl

end

/-- The old bytes of a lane, and what its read-modify-write leaves to the next (15 R336). -/
theorem rmwAll_cons (code size : Nat) (l : LaneAcc) (lanes : List LaneAcc) (s : State) :
    Claims.rmwAll code size (l :: lanes) s.mem =
      let r := Claims.rmwAll code size lanes (match atomCombine code size (s.rdBytes l.pa size) l.bytes with
        | some new => writeCells s.mem (cellsAt l.pa new)
        | none => s.mem)
      ((l.lane, s.rdBytes l.pa size) :: r.1, r.2) := rfl

/-- The read-modify-writes of lanes at the home slices come to `rmwAll` on memory (15 R336). -/
theorem foldl_rmwLane {n code size : Nat} {lanes : List LaneAcc} (h : ∀ l ∈ lanes, l.pa < memEnd) (d : Done) (fine : d.bad = none)
    (sound : d.s.poison = []) :
    let e := lanes.foldl (rmwLane n code size) d
    let r := Claims.rmwAll code size lanes d.s.mem
    AccFrame d.s e.s ∧ e.bad = none ∧ e.data = d.data ++ r.1 ∧ e.s.mem = r.2 := by
  induction lanes generalizing d with
  | nil => exact ⟨.refl _, fine, (List.append_nil _).symm, rfl⟩
  | cons l lanes ih =>
    have inside : l.pa < memEnd := h l List.mem_cons_self
    have rest : ∀ x ∈ lanes, x.pa < memEnd := fun x hx => h x (List.mem_cons_of_mem _ hx)
    rw [List.foldl_cons, rmwAll_cons]
    cases combined : atomCombine code size (d.s.rdBytes l.pa size) l.bytes with
    | none =>
      rw [rmwLane_reads fine sound inside combined]
      obtain ⟨frame, fine', data, mem⟩ := ih rest ⟨d.s, d.data ++ [(l.lane, d.s.rdBytes l.pa size)], none⟩ rfl sound
      exact ⟨frame, fine', data.trans (by simp), mem⟩
    | some new =>
      rw [rmwLane_writes fine sound inside combined]
      have wrote := rmwWritten_frame d.s l size new
      have written := rmwWritten_mem d.s l size new
      generalize rmwWritten d.s l size new = w at wrote written ⊢
      obtain ⟨frame, fine', data, mem⟩ := ih rest ⟨w, d.data ++ [(l.lane, d.s.rdBytes l.pa size)], none⟩ rfl (wrote.sound sound)
      simp only [written] at data mem
      exact ⟨wrote.trans frame, fine', data.trans (by simp), mem⟩

/-! ### Accesses that stand in a core -/

theorem AccFrame.casTakes (s : State) (a : Issuer) (x : Access) (data : List (Nat × List Byte)) : AccFrame s (casTakes s a x data) := by
  unfold Machine.casTakes
  split
  · exact .ite (.uncarry ..) (.refl s)
  · exact .refl s

@[simp] theorem casTakes_mem (s : State) (a : Issuer) (x : Access) (data : List (Nat × List Byte)) : (casTakes s a x data).mem = s.mem := by
  unfold casTakes State.uncarry
  split
  · split
    · split
      · exact State.modWarp_mem ..
      · rfl
    · rfl
  · rfl

/-- An access to device memory reaches no peer (09 R214). -/
theorem reach_mem {x : Access} (h : ∀ l ∈ x.lanes, l.pa < memEnd) (scope : Nat) : x.reach scope = scope := by
  have near : (x.lanes.any fun l => match regionOf l.pa with | .peer _ _ => true | _ => false) = false :=
    List.any_eq_false.2 fun l hl => by rw [regionOf_mem (h l hl)]; simp
  have none : x.reach scope = if scope != 0 && (x.lanes.any fun l => match regionOf l.pa with | .peer _ _ => true | _ => false) then
      max scope 5 else scope := rfl
  rw [none, near, Bool.and_false]
  rfl

theorem filter_memEnd {pas : List Nat} (h : ∀ p ∈ pas, p < memEnd) : pas.filter (fun p => p < memEnd) = pas :=
  List.filter_eq_self.2 fun p hp => by simpa using h p hp

/-- A load at the home slices, in a machine without poison. -/
theorem homeLoad_eq {s : State} {x : Access} {size : Nat} (a : Issuer) (h : ∀ l ∈ x.lanes, l.pa < memEnd)
    (inside : ∀ p ∈ x.lanes.flatMap fun l => span l.pa size, p < memEnd) (sound : s.poison = []) :
    let u := acquireRead (s.homePrep (coreOf a) (x.lanes.flatMap fun l => span l.pa size)) a x x.scope (x.lanes.flatMap fun l => span l.pa size)
    homeLoad s a x size = ⟨u, x.lanes.map fun l => (l.lane, u.rdBytes l.pa size), none⟩ := by
  intro u
  have clean : u.poison = [] := ((AccFrame.homePrep ..).trans (.acquireRead ..)).sound sound
  unfold homeLoad
  extract_lets c pas s1 s2 bad data
  have listed : pas = x.lanes.flatMap fun l => span l.pa size := filter_memEnd inside
  have before : s1 = u := by
    unfold s1
    rw [listed]
  have out : s2 = u := (foldl_still _ fun l hl => outLoad_mem (h l hl) ..).trans before
  have fine : ∀ l, bad l = none := fun l => List.find?_eq_none.2 fun _ _ => by simp [out, State.poisoned, clean]
  have bytes : data = x.lanes.map fun l => (l.lane, u.rdBytes l.pa size) := by
    refine List.map_congr_left fun l hl => ?_
    rw [fine, out]
    exact congrArg (l.lane, ·) (map_loadByte (fun p hp => inside p (List.mem_flatMap.2 ⟨l, hl, hp⟩)) _)
  rw [out, bytes, List.findSome?_eq_none_iff.2 fun l _ => fine l]

end Sys2Proof.Machine
end

section
/-! SUPPORT. The law of accesses to device memory where they are performed (09 R202). -/

namespace Sys2Proof.Machine

/-- What a store at the home slices leaves (09 R202, R208). -/
theorem homeStore_law {s : State} {x : Access} (a : Issuer) (h : ∀ l ∈ x.lanes, l.pa < memEnd)
    (inside : ∀ p ∈ x.lanes.flatMap fun l => span l.pa l.bytes.length, p < memEnd) (sound : x.bad = [])
    (some : (x.lanes.flatMap fun l => span l.pa l.bytes.length) ≠ []) :
    let pas := x.lanes.flatMap fun l => span l.pa l.bytes.length
    let u := (s.eager (coreOf a) x.rel).homePrep (coreOf a) pas
    let e := homeStore s a x
    AccFrame s e.s ∧ e.bad = none ∧ e.s.mem = x.lanes.foldl (fun m l => writeCells m (cellsAt l.pa l.bytes)) u.mem ∧
      (∀ p ∈ pas, mget [] e.s.tags (p / 8) = if x.tag then [(coreOf a, (u.core (coreOf a)).relNo)] else []) ∧
      (e.s.core (coreOf a)).relNo = if x.tag then (u.core (coreOf a)).relNo + 1 else (u.core (coreOf a)).relNo := by
  intro pas u e
  have prepared : AccFrame s u := (AccFrame.eager ..).trans (.homePrep ..)
  obtain ⟨z, hz⟩ : ∃ z, z = (homeStores x.part x.lanes u).addPoison (x.bad.map ErrLoc.mem) := ⟨_, rfl⟩
  have written : AccFrame u z := hz ▸ (homeStores_frame ..).trans (.addPoison _ fun _ => by rw [sound]; rfl)
  have mem : z.mem = x.lanes.foldl (fun m l => writeCells m (cellsAt l.pa l.bytes)) u.mem := by rw [hz]; exact homeStores_mem h u
  have core : ∀ k, z.core k = u.core k := fun k => by rw [hz, State.core_addPoison]; exact homeStores_core h u k
  have tags : ∀ p ∈ pas, mget [] z.tags (p / 8) = [] := fun p hp => by rw [hz]; exact homeStores_tags h u (.inr ⟨p, hp, rfl⟩)
  have stored : e = ⟨if x.tag && !pas.isEmpty then (z.tagWords (coreOf a) pas false).bumpRel (coreOf a) else z, [], none⟩ := by
    simp only [e, homeStore, LaneAcc.span, filter_memEnd inside, reach_mem h]
    rw [hz]
    rfl
  have listed : pas.isEmpty = false := List.isEmpty_eq_false_iff.2 some
  rw [stored, listed]
  cases x.tag with
  | false => exact ⟨prepared.trans written, rfl, mem, tags, congrArg Core.relNo (core _)⟩
  | true =>
    refine ⟨(prepared.trans written).trans ((AccFrame.tagWords ..).trans (.bumpRel ..)), rfl, mem, fun p hp => ?_, ?_⟩
    · have tagged := tagWords_store z (coreOf a) hp
      rw [core] at tagged
      exact tagged
    · have bumped : (((z.tagWords (coreOf a) pas false).bumpRel (coreOf a)).core (coreOf a)).relNo = (z.core (coreOf a)).relNo + 1 :=
        congrArg Core.relNo (State.core_modCore ..)
      exact bumped.trans (congrArg (·.relNo + 1) (core _))

/-- What a read-modify-write at the home slices leaves (15 R336, R337). -/
theorem homeRmw_law {s : State} {x : Access} {n : Nat} (a : Issuer) (code : Nat) (h : ∀ l ∈ x.lanes, l.pa < memEnd)
    (inside : ∀ p ∈ x.lanes.flatMap fun l => span l.pa n, p < memEnd) (sound : s.poison = []) (clean : x.bad = []) :
    let pas := x.lanes.flatMap fun l => span l.pa n
    let u := acquireRead ((s.eager (coreOf a) x.rel).homePrep (coreOf a) pas) a x (if x.scope = 0 then 4 else x.scope) pas
    let r := Claims.rmwAll code n x.lanes u.mem
    let e := homeRmw s a x code n
    AccFrame s e.s ∧ e.bad = none ∧ e.data = r.1 ∧ e.s.mem = r.2 := by
  intro pas u r e
  have prepared : AccFrame s u := ((AccFrame.eager ..).trans (.homePrep ..)).trans (.acquireRead ..)
  obtain ⟨frame, fine, data, mem⟩ := foldl_rmwLane (n := x.part) (code := code) (size := n) h ⟨u, [], none⟩ rfl (prepared.sound sound)
  obtain ⟨d, hd⟩ : ∃ d, d = x.lanes.foldl (rmwLane x.part code n) ⟨u, [], none⟩ := ⟨_, rfl⟩
  rw [← hd] at frame fine data mem
  have scope : (if x.scope == 0 then 4 else x.scope) = if x.scope = 0 then 4 else x.scope := by simp only [beq_iff_eq]
  obtain ⟨wrote, changed⟩ : ∃ wrote : List Nat, e = ⟨if x.tag && !wrote.isEmpty then
      ((d.s.addPoison []).tagWords (coreOf a) wrote true).bumpRel (coreOf a) else d.s.addPoison [], d.data, d.bad⟩ := by
    refine ⟨(wroteLanes x code d.data).flatMap fun l => (l.span n).filter fun p => p < memEnd, ?_⟩
    simp only [e, homeRmw, LaneAcc.span, filter_memEnd inside, reach_mem h, scope, clean, List.filter_nil, List.map_nil]
    rw [hd]
    rfl
  have kept : AccFrame d.s (d.s.addPoison []) := .addPoison _ fun _ => rfl
  rw [changed]
  refine ⟨(prepared.trans frame).trans (.ite (kept.trans ((AccFrame.tagWords ..).trans (.bumpRel ..))) kept), fine, data, ?_⟩
  refine Eq.trans ?_ mem
  dsimp only
  split <;> rfl

end Sys2Proof.Machine

namespace Sys2Proof.Claims
open Sys2Proof.Machine

/-! ### An operation that is the only one of its warp -/

section
variable {c w id : Nat} {v : VarOp} {s : State} (h : Pending c w id v s)
include h

/-- No other operation of its warp stands before it (03 R73). -/
theorem Pending.no_other (p : VarOp → Bool) : ∀ u ∈ (s.core c).vars, (u.agent == v.agent && u.seq < v.seq && p u) = false := by
  intro u hu
  by_cases own : u.agent = v.agent
  · obtain rfl := h.alone u hu (own.trans h.agent)
    simp
  · simp [own]

theorem Pending.performVar : s.performVar c id = s.performOne c id := by
  have none : ((s.core c).vars.filter fun u => u.agent == v.agent && u.seq < v.seq && u.body.touches.1) = [] :=
    List.filter_eq_nil_iff.2 fun u hu => by rw [h.no_other (·.body.touches.1) u hu]; simp
  simp only [State.performVar, h.found, none, ite_self, List.foldl_nil]

theorem Pending.scratchFirst : (s.core c).scratchFirst v = true := by
  have none : ((s.core c).vars.any fun u => u.agent == v.agent && u.seq < v.seq && u.body.touches.1 &&
      u.body.touches.2.any v.body.touches.2.contains) = false := by
    refine List.any_eq_false.2 fun u hu => ?_
    have other := h.no_other (fun u => u.body.touches.1 && u.body.touches.2.any v.body.touches.2.contains) u hu
    rw [← Bool.and_assoc] at other
    rw [other]
    simp
  simp only [Core.scratchFirst, none, Bool.not_false, Bool.or_true]

theorem Pending.named : v.id = id := by simpa using List.find?_some h.found

/-- The event that ends an access, by what the access leaves. -/
theorem access_answers {x : Access} (body : v.body = .access x) (ready : x.ready s = true) {d : Done}
    (run : runAccess (if x.scratch then s else s.moved x.gid v.body.touches.2.length) v.agent x = d) (fine : d.bad = none)
    (vars : ((casTakes d.s v.agent x d.data).core c).vars = (s.core c).vars) {P : State → Prop}
    (ends : ∀ z t, Ended (casTakes d.s v.agent x d.data) z t c v (x.results d.data) → P t) :
    Answers (exec (.variableResultDone c id) s) P := by
  refine variableResultDone_answers h.live h.found (.inl h.clash) (h.performVar.trans ?_) vars (.inl rfl) ends
  rw [body] at run
  simp only [State.performOne, h.found, body, ready, h.scratchFirst, Bool.not_true, Bool.or_self, Bool.false_eq_true, if_false, run, fine]

/-- The event that ends an access to device memory. -/
theorem access_mem_answers {x : Access} (body : v.body = .access x) (device : x.scratch = false) {d : Done}
    (run : runAccess (s.moved x.gid v.body.touches.2.length) v.agent x = d) (fine : d.bad = none)
    (frame : AccFrame (s.moved x.gid v.body.touches.2.length) d.s) {P : State → Prop}
    (ends : ∀ u z t, AccFrame s u → u = casTakes d.s v.agent x d.data → Ended u z t c v (x.results d.data) → P t) :
    Answers (exec (.variableResultDone c id) s) P := by
  have whole : AccFrame s (casTakes d.s v.agent x d.data) := ((AccFrame.moved ..).trans frame).trans (.casTakes ..)
  exact access_answers h body (by rw [Access.ready, device]; rfl) (by rw [device]; exact run) fine (whole.vars c) fun z t => ends _ z t whole rfl

end

section
variable {s : State} {c w id : Nat} {v : VarOp} {x : Access} (h : Pending c w id v s) (body : v.body = .access x) (device : x.scratch = false)
  (lanes : ∀ l ∈ x.lanes, l.pa < memEnd)
include h body device lanes

/-- LD (09 R202). -/
theorem load_performed (kind : x.kind = .load) (inside : ∀ p ∈ x.lanes.flatMap fun l => span l.pa x.dst.bytes, p < memEnd) :
    let pas := x.lanes.flatMap fun l => span l.pa x.dst.bytes
    let u := acquireRead ((s.moved x.gid v.body.touches.2.length).homePrep c pas) v.agent x x.scope pas
    let data := x.got ++ x.lanes.map fun l => (l.lane, u.rdBytes l.pa x.dst.bytes)
    LoadFits x.dst data → Answers (exec (.variableResultDone c id) s) fun t =>
      t.mem = u.mem ∧ Loaded c w x.dst data t ∧ ∀ y ∈ (t.core c).vars, y.id ≠ id := by
  intro pas u data fits
  have core : coreOf v.agent = c := by rw [h.agent]; rfl
  have run := homeLoad_eq v.agent lanes inside ((GridsOnly.moved s x.gid v.body.touches.2.length).poison.trans h.sound)
  rw [core] at run
  refine access_mem_answers h body device (d := ⟨u, x.lanes.map fun l => (l.lane, u.rdBytes l.pa x.dst.bytes), none⟩) ?_ rfl
    ((AccFrame.homePrep ..).trans (.acquireRead ..)) fun y z t frame same ended => ?_
  · simp only [runAccess, device, kind]
    exact run
  · have taken : y = u := by rw [same, casTakes, kind]
    subst taken
    have results : x.results (x.lanes.map fun l => (l.lane, u.rdBytes l.pa x.dst.bytes)) = loadWrites x.dst data := by rw [Access.results, kind]
    rw [results] at ended
    have there : (z.warp? c w).isSome = true := by rw [ended.warp?, frame.isSome]; exact h.warp
    have tiles := ended.tiles c
    have g := ended.g c w
    rw [h.agent] at tiles g
    exact ⟨ended.mem, loaded_landed fits there tiles g, h.named ▸ ended.left⟩

/-- ST (09 R202, R208). -/
theorem store_performed (kind : x.kind = .store) (inside : ∀ p ∈ x.lanes.flatMap fun l => span l.pa l.bytes.length, p < memEnd) :
    let pas := x.lanes.flatMap fun l => span l.pa l.bytes.length
    let u := ((s.moved x.gid v.body.touches.2.length).eager c x.rel).homePrep c pas
    x.bad = [] → pas ≠ [] → Answers (exec (.variableResultDone c id) s) fun t =>
      t.mem = x.lanes.foldl (fun m l => writeCells m (cellsAt l.pa l.bytes)) u.mem ∧ (∀ y ∈ (t.core c).vars, y.id ≠ id) ∧
      (∀ p ∈ pas, mget [] t.tags (p / 8) = if x.tag then [(c, (u.core c).relNo)] else []) ∧
      (t.core c).relNo = if x.tag then (u.core c).relNo + 1 else (u.core c).relNo := by
  intro pas u bad some
  have core : coreOf v.agent = c := by rw [h.agent]; rfl
  obtain ⟨frame, fine, mem, tags, relNo⟩ := homeStore_law (s := s.moved x.gid v.body.touches.2.length) v.agent lanes inside bad some
  rw [core] at mem tags relNo
  refine access_mem_answers h body device (d := homeStore (s.moved x.gid v.body.touches.2.length) v.agent x)
    (by simp only [runAccess, device, kind]) fine frame fun y z t _ same ended => ?_
  have taken : y = (homeStore (s.moved x.gid v.body.touches.2.length) v.agent x).s := by rw [same, casTakes, kind]
  subst taken
  have results : x.results (homeStore (s.moved x.gid v.body.touches.2.length) v.agent x).data = [] := by rw [Access.results, kind]
  rw [results] at ended
  refine ⟨ended.mem.trans mem, h.named ▸ ended.left, fun p hp => ?_, (congrArg Core.relNo (ended.core_quiet c) :).trans relNo⟩
  rw [ended.tags]
  exact tags p hp

/-- ATOM (15 R336). -/
theorem rmw_performed {code n : Nat} {ret : Bool} (kind : x.kind = .rmw code n false ret) :
    let pas := x.lanes.flatMap fun l => span l.pa n
    let u := acquireRead (((s.moved x.gid v.body.touches.2.length).eager c x.rel).homePrep c pas) v.agent x (if x.scope = 0 then 4 else x.scope) pas
    let r := rmwAll code n x.lanes u.mem
    x.bad = [] → (∀ p ∈ pas, p < memEnd) → Answers (exec (.variableResultDone c id) s) fun t =>
      t.mem = r.2 ∧ (ret = true → LoadFits x.dst r.1 → Loaded c w x.dst r.1 t) ∧ ∀ y ∈ (t.core c).vars, y.id ≠ id := by
  intro pas u r bad inside
  have core : coreOf v.agent = c := by rw [h.agent]; rfl
  have sound := (GridsOnly.moved s x.gid v.body.touches.2.length).poison.trans h.sound
  obtain ⟨frame, fine, data, mem⟩ := homeRmw_law v.agent code lanes inside sound bad
  rw [core] at data mem
  have data : (homeRmw (s.moved x.gid v.body.touches.2.length) v.agent x code n).data = r.1 := data
  refine access_mem_answers h body device (d := homeRmw (s.moved x.gid v.body.touches.2.length) v.agent x code n)
    (by simp only [runAccess, device, kind]) fine frame fun y z t whole same ended => ?_
  rw [data] at ended
  have there : (z.warp? c w).isSome = true := by rw [ended.warp?, whole.isSome]; exact h.warp
  have tiles := ended.tiles c
  have g := ended.g c w
  rw [h.agent] at tiles g
  refine ⟨ended.mem.trans ?_, fun returns fits => ?_, h.named ▸ ended.left⟩
  · rw [same, casTakes_mem, mem]
  · have results : x.results r.1 = loadWrites x.dst r.1 := by rw [Access.results, kind, returns]; rfl
    rw [results] at tiles g
    exact loaded_landed fits there tiles g

end

end Sys2Proof.Claims
end

section
/-! SUPPORT. Accesses to scratchpads, the rows of TGLD and TGST, and flushes, where they are performed (09 R202; 18 R446, R447; 16 R374, R387). -/

namespace Sys2Proof.Machine

/-! ### Scratchpads -/

/-- A write of a scratchpad touches the groups and the poison alone. -/
theorem scrWrite_frame (s : State) (gid o : Nat) (bs : List Byte) : { s.scrWrite gid o bs with groups := s.groups, poison := s.poison } = s := by
  unfold State.scrWrite State.modGroup
  dsimp only
  split <;> rfl

/-- The loads of lanes from scratchpads without poison. -/
theorem foldl_scratchLane_load {s : State} (sound : s.poison = []) (a : Issuer) (size : Nat) (lanes : List LaneAcc) (got : List (Nat × List Byte)) :
    lanes.foldl (scratchLane a .load size) ⟨s, got, none⟩ = ⟨s, got ++ lanes.map fun l => (l.lane, (span l.pa size).map s.scrByte), none⟩ := by
  have clean : ∀ l : LaneAcc, (l.span size).find? s.scrPoisoned = none := fun l =>
    List.find?_eq_none.2 fun _ _ => by simp [State.scrPoisoned, sound]
  induction lanes generalizing got with
  | nil => simp
  | cons l lanes ih =>
    have one : scratchLane a .load size ⟨s, got, none⟩ l = ⟨s, got ++ [(l.lane, (span l.pa size).map s.scrByte)], none⟩ := by
      simp only [scratchLane, clean, Option.isSome_none, Bool.false_eq_true, if_false, LaneAcc.span]
    rw [List.foldl_cons, one, ih, List.append_assoc]
    rfl

/-- The stores of lanes to scratchpads. -/
theorem foldl_scratchLane_store (s : State) (a : Issuer) (size : Nat) (lanes : List LaneAcc) :
    lanes.foldl (scratchLane a .store size) ⟨s, [], none⟩ =
      ⟨lanes.foldl (fun u l => u.scrWrite (l.pa / 2 ^ 32) (l.pa % 2 ^ 32) l.bytes) s, [], none⟩ := by
  induction lanes generalizing s with
  | nil => rfl
  | cons l lanes ih => exact ih _

/-- An access without order finds the machine as it stands. -/
theorem scratchAccess_plain {s : State} {x : Access} (a : Issuer) (size : Nat) (acquires : x.acquires = false) (rel : x.rel = 0) :
    scratchAccess s a x size = let d := x.lanes.foldl (scratchLane a x.kind size) ⟨s, [], none⟩
      { d with s := d.s.addPoison (x.bad.map fun k => .scratch (64 * k / 2 ^ 32) (64 * k % 2 ^ 32 / 64)) } := by
  simp only [scratchAccess, rel, acquires, Nat.reduceBEq, Bool.false_eq_true, if_false]

end Sys2Proof.Machine

namespace Sys2Proof.Claims
open Sys2Proof.Machine

section
variable {s : State} {c w id : Nat} {v : VarOp} {x : Access} (h : Pending c w id v s) (body : v.body = .access x) (pad : x.scratch = true)
  (ready : x.ready s = true) (acquires : x.acquires = false) (rel : x.rel = 0)
include h body pad ready acquires rel

/-- LDS.cl of another rank (09 R202). -/
theorem scratch_load_performed (kind : x.kind = .load) :
    let data := x.lanes.map fun l => (l.lane, (span l.pa x.dst.bytes).map s.scrByte)
    x.got = [] → LoadFits x.dst data → Answers (exec (.variableResultDone c id) s) fun t =>
      Loaded c w x.dst data t ∧ t.groups = s.groups ∧ t.mem = s.mem := by
  intro data got fits
  have done : runAccess s v.agent x =
      ⟨s.addPoison (x.bad.map fun k => .scratch (64 * k / 2 ^ 32) (64 * k % 2 ^ 32 / 64)), data, none⟩ := by
    simp only [runAccess, pad, kind, scratchAccess_plain _ _ acquires rel, foldl_scratchLane_load h.sound, List.nil_append]
    rfl
  have results : x.results data = loadWrites x.dst data := by rw [Access.results, kind, got]; rfl
  refine access_answers h body ready (d := ⟨s.addPoison (x.bad.map fun k => .scratch (64 * k / 2 ^ 32) (64 * k % 2 ^ 32 / 64)), data, none⟩)
    (by rw [pad]; exact done) rfl (by rw [casTakes, kind]; rfl) fun z t ended => ?_
  rw [results, casTakes, kind] at ended
  have there : (z.warp? c w).isSome = true := (congrArg Option.isSome (ended.warp? c w)).trans h.warp
  have tiles := ended.tiles c
  have g := ended.g c w
  rw [h.agent] at tiles g
  exact ⟨loaded_landed fits there tiles g, ended.groups (loadWrites_no_scratch x.dst data), ended.mem⟩

/-- STS.cl of another rank (09 R202). -/
theorem scratch_store_performed (kind : x.kind = .store) :
    x.bad = [] → Answers (exec (.variableResultDone c id) s) fun t =>
      t.groups = (x.lanes.foldl (fun u l => u.scrWrite (l.pa / 2 ^ 32) (l.pa % 2 ^ 32) l.bytes) s).groups ∧ t.mem = s.mem := by
  intro bad
  generalize hu : x.lanes.foldl (fun u l => u.scrWrite (l.pa / 2 ^ 32) (l.pa % 2 ^ 32) l.bytes) s = u
  have frame : { u with groups := s.groups, poison := s.poison } = s := by
    rw [← hu]
    exact foldl_keeps (R := fun s t => { t with groups := s.groups, poison := s.poison } = s) (fun _ => rfl)
      (fun {s _ _} p q => (congrArg (fun x : State => { x with groups := s.groups, poison := s.poison }) q :).trans p)
      (fun s l => scrWrite_frame s ..) _ s
  have done : runAccess s v.agent x = ⟨u.addPoison [], [], none⟩ := by
    simp only [runAccess, pad, kind, scratchAccess_plain _ _ acquires rel, foldl_scratchLane_store, bad, List.map_nil, hu]
  have vars : ((u.addPoison []).core c).vars = (s.core c).vars := (congrArg (fun x : State => (x.core c).vars) frame :)
  refine access_answers h body ready (d := ⟨u.addPoison [], [], none⟩) (by rw [pad]; exact done) rfl (by rw [casTakes, kind]; exact vars) fun z t ended => ?_
  have results : x.results [] = [] := by rw [Access.results, kind]
  rw [results, casTakes, kind] at ended
  exact ⟨ended.groups nofun, ended.mem.trans (congrArg State.mem frame :)⟩

end

end Sys2Proof.Claims
end

section
/-! SUPPORT. TGLD and TGST where they are performed (18 R446, R447). -/

namespace Sys2Proof.Machine

/-! ### Bytes and words in their places -/

theorem drop_take_span (a n k m : Nat) (h : k + m ≤ n) : ((span a n).drop k).take m = span (a + k) m := by
  refine List.ext_getElem (by simp; omega) fun i h1 h2 => ?_
  simp only [span, List.getElem_take, List.getElem_drop, List.getElem_map, List.getElem_range]
  omega

/-- Bytes among some of memory. -/
theorem drop_take_rdBytes (s : State) (a n k m : Nat) (h : k + m ≤ n) : ((s.rdBytes a n).drop k).take m = s.rdBytes (a + k) m := by
  rw [State.rdBytes, State.rdBytes, ← drop_take_span a n k m h, List.map_take, List.map_drop]

@[simp] theorem length_bytesWords (n : Nat) (bs : List Byte) : (bytesWords n bs).length = n := by
  induction n generalizing bs with
  | zero => rfl
  | succ n ih => exact congrArg (· + 1) (ih _)

/-- The words of a row in their lanes. -/
def laneWords (bs : List Byte) : List (Nat × W32) := (List.range 32).zip (bytesWords 32 bs)

theorem laneWords_lanes (bs : List Byte) : (laneWords bs).map (·.1) = List.range 32 := List.map_fst_zip (by simp)

theorem mem_laneWords {lane : Nat} (h : lane < 32) (bs : List Byte) :
    (lane, BitVec.ofNat 32 (leNat ((bs.drop (4 * lane)).take 4))) ∈ laneWords bs := by
  rw [← nth_bytesWords 32 bs h, nth_eq_getD]
  refine List.mem_iff_getElem.2 ⟨lane, by simpa [laneWords] using h, ?_⟩
  simp [laneWords, h]

/-! ### The rows of a block (18 R446) -/

/-- The rows of a tile that bytes fill, from row `row` on, with their words. -/
def blockRows (tile row : Nat) (bs : List Byte) (n : Nat) : List ((Nat × Nat) × List (Nat × W32)) :=
  (List.range n).map fun i => ((tile, row + i), laneWords ((bs.drop (128 * i)).take 128))

theorem blockRows_fits {tile row n : Nat} (h : row + n ≤ 32) (bs : List Byte) : ∀ x ∈ blockRows tile row bs n, RowFits x := by
  intro x hx
  obtain ⟨i, hi, rfl⟩ := List.mem_map.1 hx
  have := List.mem_range.1 hi
  refine ⟨by show row + i < 32; omega, (laneWords_lanes _).symm ▸ List.nodup_range, fun y hy => ?_⟩
  exact List.mem_range.1 (laneWords_lanes _ ▸ List.mem_map_of_mem hy)

theorem blockRows_places (tile row : Nat) (bs : List Byte) (n : Nat) : ((blockRows tile row bs n).map (·.1)).Nodup := by
  rw [blockRows, List.map_map]
  refine List.Nodup.map (fun i j same => ?_) List.nodup_range
  have rows : row + i = row + j := congrArg Prod.snd same
  omega

/-- Rows that have landed hold the words of their bytes. -/
theorem landAll_blockRows {tile row n i lane : Nat} (h : row + n ≤ 32) (hi : i < n) (hl : lane < 32) (bs : List Byte) (s : State) (a : Issuer) :
    ((s.landAll a ((blockRows tile row bs n).map rowWrite)).core (coreOf a)).tileWord tile (row + i) lane =
      BitVec.ofNat 32 (leNat ((((bs.drop (128 * i)).take 128).drop (4 * lane)).take 4)) :=
  landAll_rows (blockRows_places tile row bs n) (blockRows_fits h bs)
    (List.mem_map.2 ⟨i, List.mem_range.2 hi, rfl⟩ : ((tile, row + i), laneWords ((bs.drop (128 * i)).take 128)) ∈ _)
    (mem_laneWords hl _) s a

/-- The word of a lane in a row of a block of memory. -/
theorem row_word_bytes (s : State) {pa len i lane : Nat} (hi : i < len / 128) (hl : lane < 32) :
    leNat (((((s.rdBytes pa len).drop (128 * i)).take 128).drop (4 * lane)).take 4) = s.rdNat (pa + 128 * i + 4 * lane) 4 := by
  rw [drop_take_rdBytes s pa len _ _ (by omega), drop_take_rdBytes _ _ _ _ _ (by omega)]
  rfl

/-! ### Where they are performed -/

theorem performVar_device {s : State} {c id : Nat} {v : VarOp} (found : (s.core c).vars.find? (fun v => v.id == id) = some v)
    (device : v.body.touches.1 = false) : s.performVar c id = s.performOne c id := by
  simp only [State.performVar, found, device, Bool.false_eq_true, if_false, List.foldl_nil]

@[simp] theorem outLoad_mem_field (s : State) (n pa len : Nat) : (s.outLoad n pa len).mem = s.mem := by
  unfold State.outLoad
  split <;> rfl

theorem addMask_mem (s : State) (a : Issuer) (cs : List Nat) : (s.addMask a cs).mem = s.mem := (congrArg State.mem (addMask_frame s a cs) :)

/-- A write within device memory, be it of no byte. -/
theorem homeWrite_mem_field {pa : Nat} {bs : List Byte} (h : pa + bs.length ≤ memEnd) (s : State) (n : Nat) (rmw : Bool) :
    (s.homeWrite n pa bs rmw).mem = writeCells s.mem (cellsAt pa bs) := by
  by_cases inside : pa < memEnd
  · rw [homeWrite_mem inside]
    exact congrArg (writeCells · _) (collTouchPa_mem ..)
  · obtain rfl : bs = [] := List.length_eq_zero_iff.1 (by omega)
    unfold State.homeWrite
    dsimp only
    split <;> exact collTouchPa_mem ..

/-- No peer lies at the end of device memory. -/
theorem regionOf_not_peer {pa : Nat} (h : pa ≤ memEnd) (d o : Nat) : regionOf pa ≠ .peer d o := by
  have low : ¬ 0x200000000000 ≤ pa := fun far => absurd (far.trans h) (by decide)
  unfold regionOf
  simp only [low, decide_false, Bool.false_and]
  split
  · nofun
  · split
    · nofun
    · split <;> nofun

/-- The state in which a TGLD has read its block. -/
def tgldRead (s : State) (c pa len : Nat) (a : Issuer) : State :=
  let z := ((s.moved (s.gidOf a) len).homePrep c (span pa len)).outLoad (s.partOf (s.gidOf a)) pa len
  if memEnd ≤ pa then z else z.addMask a (tagCores z (span pa len))

theorem tgldRead_frame (s : State) (c pa len : Nat) (a : Issuer) : AccFrame s (tgldRead s c pa len a) := by
  have read := ((AccFrame.moved s (s.gidOf a) len).trans (.homePrep _ c (span pa len))).trans (.outLoad _ (s.partOf (s.gidOf a)) pa len)
  exact .ite read (read.trans (.addMask ..))

theorem tgldRead_mem (s : State) (c pa len : Nat) (a : Issuer) :
    (tgldRead s c pa len a).mem = ((s.moved (s.gidOf a) len).homePrep c (span pa len)).mem := by
  unfold tgldRead
  dsimp only
  split
  · exact outLoad_mem_field ..
  · exact (addMask_mem ..).trans (outLoad_mem_field ..)

theorem performOne_tgld {s : State} {c id tile row pa len : Nat} {v : VarOp}
    (found : (s.core c).vars.find? (fun v => v.id == id) = some v) (body : v.body = .tgld tile row pa len) (sound : s.poison = [])
    (inside : pa + len ≤ memEnd) : s.performOne c id = (tgldRead s c pa len v.agent).setBody c id
      (.results ((blockRows tile row ((tgldRead s c pa len v.agent).rdBytes pa len) (len / 128)).map rowWrite)) := by
  have clean := (((AccFrame.moved s (s.gidOf v.agent) len).trans (.homePrep _ c (span pa len))).trans
    (.outLoad _ (s.partOf (s.gidOf v.agent)) pa len)).sound sound
  have bytes : ((List.range len).map fun i => loadByte (tgldRead s c pa len v.agent) i (pa + i)) = (tgldRead s c pa len v.agent).rdBytes pa len :=
    map_loadByte (fun p hp => Nat.lt_of_lt_of_le (mem_span.1 hp).2 inside) _
  rw [← bytes]
  simp only [State.performOne, found, body, find?_poisoned clean, ite_self, blockRows, List.map_map]
  rfl

/-- The state in which the bytes of a TGST are at their home slices. -/
def tgstHome (s : State) (c pa rel : Nat) (bs : List Byte) (a : Issuer) : State :=
  let z := (s.moved (s.gidOf a) bs.length).eager c rel
  (z.homePrep c (span pa bs.length)).homeWrite (z.partOf (z.gidOf a)) pa bs false

/-- The state in which a TGST has written its block, as a release where it is one. -/
def tgstWritten (s : State) (c pa rel : Nat) (bs : List Byte) (a : Issuer) : State :=
  if rel == 0 || memEnd ≤ pa then tgstHome s c pa rel bs a
  else ((tgstHome s c pa rel bs a).tagWords c (span pa bs.length) false).bumpRel c

theorem tgstWritten_frame (s : State) (c pa rel : Nat) (bs : List Byte) (a : Issuer) : AccFrame s (tgstWritten s c pa rel bs a) := by
  have written : AccFrame s (tgstHome s c pa rel bs a) := (((AccFrame.moved ..).trans (.eager ..)).trans (.homePrep ..)).trans (.homeWrite ..)
  exact .ite written (written.trans ((AccFrame.tagWords ..).trans (.bumpRel ..)))

theorem tgstWritten_mem {s : State} {c pa rel : Nat} {bs : List Byte} (inside : pa + bs.length ≤ memEnd) (a : Issuer) :
    (tgstWritten s c pa rel bs a).mem =
      writeCells (((s.moved (s.gidOf a) bs.length).eager c rel).homePrep c (span pa bs.length)).mem (cellsAt pa bs) := by
  have home : (tgstHome s c pa rel bs a).mem = _ := homeWrite_mem_field inside _ _ false
  refine Eq.trans ?_ home
  unfold tgstWritten
  split <;> rfl

theorem performOne_tgst {s : State} {c id pa rel : Nat} {bs : List Byte} {v : VarOp}
    (found : (s.core c).vars.find? (fun v => v.id == id) = some v) (body : v.body = .tgst pa bs [] rel)
    (inside : pa + bs.length ≤ memEnd) : s.performOne c id = ((tgstWritten s c pa rel bs v.agent).addPoison []).setBody c id .quiet := by
  cases h : regionOf pa with
  | peer d o => exact absurd h (regionOf_not_peer (by omega) d o)
  | _ =>
    simp only [State.performOne, found, body, h, Bool.false_and, Bool.false_eq_true, if_false, List.map_nil]
    rfl

end Sys2Proof.Machine

namespace Sys2Proof.Claims
open Sys2Proof.Machine

/-- The fall of the token of a context's operation, whose results lie in rows. -/
theorem tokenFell_ctx {s u z t : State} {c k : Nat} {v : VarOp} {l : List ((Nat × Nat) × List (Nat × W32))}
    (ended : Ended u z t c v (l.map rowWrite)) (frame : AccFrame s u) (agent : v.agent = .ctx c k) : tokenFell s t v := by
  refine ⟨fun d w own => (nomatch agent.symm.trans own), fun d j own => ?_⟩
  rw [ended.fell_ctx own, Ctx.tok, frame.ctxTokens]
  rfl

/-- TGLD (18 R446). -/
theorem tgld_performed {s : State} {c k id tile row pa len : Nat} {v : VarOp} (live : Live s)
    (found : (s.core c).vars.find? (fun v => v.id == id) = some v) (agent : v.agent = .ctx c k) (clash : v.clash = []) (sound : s.poison = [])
    (body : v.body = .tgld tile row pa len) (inside : pa + len ≤ memEnd) (fits : row + len / 128 ≤ 32) :
    let u := (s.moved (s.gidOf v.agent) len).homePrep c (span pa len)
    Answers (exec (.variableResultDone c id) s) fun t => t.mem = u.mem ∧ tokenFell s t v ∧
      ∀ i lane, i < len / 128 → lane < 32 →
        (t.core c).tileWord tile (row + i) lane = BitVec.ofNat 32 (u.rdNat (pa + 128 * i + 4 * lane) 4) := by
  intro u
  have frame := tgldRead_frame s c pa len v.agent
  have mem : (tgldRead s c pa len v.agent).mem = u.mem := tgldRead_mem s c pa len v.agent
  have performed := (performVar_device found (by rw [body]; rfl)).trans (performOne_tgld found body sound inside)
  generalize tgldRead s c pa len v.agent = y at frame mem performed
  refine variableResultDone_answers live found (.inl clash) performed (frame.vars c) (.inl rfl) fun z t ended =>
    ⟨ended.mem.trans mem, tokenFell_ctx ended frame agent, fun i lane hi hl => ?_⟩
  have landed := landAll_blockRows (tile := tile) fits hi hl (y.rdBytes pa len) z v.agent
  have tiles := ended.tiles c
  rw [agent] at landed tiles
  rw [Core.tileWord, tiles]
  refine landed.trans ?_
  rw [row_word_bytes y hi hl, State.rdNat, State.rdBytes, State.rdNat, State.rdBytes]
  unfold State.rd8
  rw [mem]

/-- TGST (18 R447). -/
theorem tgst_performed {s : State} {c k id pa rel : Nat} {bs : List Byte} {v : VarOp} (live : Live s)
    (found : (s.core c).vars.find? (fun v => v.id == id) = some v) (agent : v.agent = .ctx c k) (clash : v.clash = [])
    (body : v.body = .tgst pa bs [] rel) (inside : pa + bs.length ≤ memEnd) :
    let u := ((s.moved (s.gidOf v.agent) bs.length).eager c rel).homePrep c (span pa bs.length)
    Answers (exec (.variableResultDone c id) s) fun t => t.mem = writeCells u.mem (cellsAt pa bs) ∧ tokenFell s t v := by
  intro u
  have frame := (tgstWritten_frame s c pa rel bs v.agent).trans (.addPoison _ (l := []) fun _ => rfl)
  have mem : ((tgstWritten s c pa rel bs v.agent).addPoison []).mem = writeCells u.mem (cellsAt pa bs) := tgstWritten_mem inside v.agent
  have performed := (performVar_device found (by rw [body]; rfl)).trans (performOne_tgst found body inside)
  generalize (tgstWritten s c pa rel bs v.agent).addPoison [] = y at frame mem performed
  exact variableResultDone_answers live found (.inl clash) performed (frame.vars c) (.inr ⟨rfl, rfl⟩) fun z t ended =>
    ⟨ended.mem.trans mem, tokenFell_ctx (l := []) ended frame agent⟩

end Sys2Proof.Claims
end

section
/-! SUPPORT. FLUSHR and INVR where they are performed (07 R176; 16 R374, R387). -/

namespace Sys2Proof.Machine

/-! ### The lines of a range -/

/-- The line of physical memory that a virtual address lies in, where its walk ends in a page. -/
def lineOf (s : State) (n l : Nat) : Option Nat :=
  match walk s n l with
  | .ok v _ pa _ _ _ => some ((pa + (l - v)) / 128)
  | _ => none

/-- The lines of physical memory of a range of a partition. -/
def flushedLines (s : State) (n va len : Nat) : List Nat :=
  ((List.range ((va + len - 1) / 128 + 1 - va / 128)).map fun i => (va / 128 + i) * 128).filterMap (lineOf s n)

theorem mem_flushedLines {s : State} {n va len l line : Nat} (lo : va / 128 ≤ l) (hi : l ≤ (va + len - 1) / 128)
    (h : lineOf s n (128 * l) = some line) : line ∈ flushedLines s n va len := by
  refine List.mem_filterMap.2 ⟨128 * l, List.mem_map.2 ⟨l - va / 128, List.mem_range.2 (by omega), ?_⟩, h⟩
  rw [Nat.add_sub_cancel' lo, Nat.mul_comm]

/-! ### What a flush leaves in the L1s -/

/-- A core reads as one of the table at its place, or as one without anything. -/
theorem core_listed (s : State) (k : Nat) : s.core k = {} ∨ ∃ x, (k, x) ∈ s.cores := by
  unfold State.core
  induction s.cores with
  | nil => exact .inl rfl
  | cons a t ih =>
    by_cases h : a.1 = k
    · exact .inr ⟨a.2, h ▸ List.mem_cons_self⟩
    · simp only [mget, h, if_false]
      exact ih.imp_right fun ⟨x, hx⟩ => ⟨x, List.mem_cons_of_mem _ hx⟩

/-- Lines that leave an L1 take their bytes with them. -/
theorem dirtyCells_filter {l1 : List (Nat × Line)} {q : Nat → Bool} (p : Nat × Line → Bool) (h : dirtyCells l1 q = []) :
    dirtyCells (l1.filter p) q = [] :=
  dirtyCells_eq_nil.2 fun kl hl => dirtyCells_eq_nil.1 h kl (List.mem_filter.1 hl).1

theorem mget?_filter_out {α : Type} {p : Nat → Bool} {n : Nat} (h : p n = true) (m : List (Nat × α)) :
    mget? (m.filter fun kv => !p kv.1) n = none := by
  induction m with
  | nil => rfl
  | cons a t ih =>
    cases hp : p a.1 with
    | true => simpa [hp] using ih
    | false =>
      have other : a.1 ≠ n := fun same => by rw [same, h] at hp; cases hp
      simpa [hp, mget?, other] using ih

theorem flushLines_drop (s : State) (c : Nat) (p : Nat → Bool) : s.flushLines c p true =
    (((s.wcDrain c p).resolveFd c p).writeBack c fun a => p (a / 128)).modCore c fun k => { k with l1 := k.l1.filter fun kl => !p kl.1 } := rfl

section
variable (s : State) (c : Nat) {p : Nat → Bool} {line : Nat} (h : p line = true)
include h

/-- A write-back of lines leaves them clean. -/
theorem writeBack_clean : dirtyCells ((s.writeBack c fun a => p (a / 128)).core c).l1 (fun a => a / 128 == line) = [] := by
  have covers : ∀ a, (a / 128 == line) = true → p (a / 128) = true := fun a ha => by rw [beq_iff_eq.1 ha]; exact h
  exact (congrArg (fun k : Core => dirtyCells k.l1 fun a => a / 128 == line) (writeBack_core ..)).trans (dirtyCells_cleanBytes _ covers)

theorem flushLines_clean (drop : Bool) : dirtyCells ((s.flushLines c p drop).core c).l1 (fun a => a / 128 == line) = [] := by
  have clean := writeBack_clean ((s.wcDrain c p).resolveFd c p) c h
  cases drop with
  | false => exact clean
  | true =>
    rw [flushLines_drop]
    generalize ((s.wcDrain c p).resolveFd c p).writeBack c (fun a => p (a / 128)) = u at clean ⊢
    rw [State.core_modCore]
    exact dirtyCells_filter _ clean

theorem flushLines_drops : mget? ((s.flushLines c p true).core c).l1 line = none := by
  rw [flushLines_drop]
  generalize ((s.wcDrain c p).resolveFd c p).writeBack c (fun a => p (a / 128)) = u
  rw [State.core_modCore]
  exact mget?_filter_out h _

end

/-! ### The other cores -/

/-- The drain and the write-back of some lines in a core other than `c`. -/
def flushOther (c : Nat) (p : Nat → Bool) (s : State) (ck : Nat × Core) : State :=
  if ck.1 == c then s else (s.wcDrain ck.1 p).writeBack ck.1 fun a => p (a / 128)

theorem flushOther_frame (c : Nat) (p : Nat → Bool) (s : State) (ck : Nat × Core) : AccFrame s (flushOther c p s ck) :=
  .ite (.refl s) ((AccFrame.wcDrain ..).trans (.writeBack ..))

theorem flushOther_core_ne (c : Nat) (p : Nat → Bool) (s : State) (ck : Nat × Core) {k : Nat} (h : k ≠ ck.1) :
    (flushOther c p s ck).core k = s.core k := by
  unfold flushOther
  split
  · rfl
  · rw [writeBack_core_ne _ _ _ h, wcDrain_core_ne _ _ h]

theorem flushOther_own (p : Nat → Bool) (s : State) (ck : Nat × Core) {c : Nat} (h : ck.1 = c) : flushOther c p s ck = s := if_pos (by simp [h])

theorem foldl_flushOther_core (c : Nat) (p : Nat → Bool) (l : List (Nat × Core)) (s : State) : (l.foldl (flushOther c p) s).core c = s.core c := by
  induction l generalizing s with
  | nil => rfl
  | cons ck l ih =>
    refine (ih _).trans ?_
    by_cases own : ck.1 = c
    · rw [flushOther_own p s ck own]
    · exact flushOther_core_ne _ _ _ _ (Ne.symm own)

/-- A line that is clean in a core, or whose core is still to be flushed, ends clean there. -/
theorem foldl_flushOther_clean {c k : Nat} {p : Nat → Bool} {line : Nat} (h : p line = true) (other : k ≠ c) (l : List (Nat × Core)) (s : State)
    (due : dirtyCells (s.core k).l1 (fun a => a / 128 == line) = [] ∨ ∃ x, (k, x) ∈ l) :
    dirtyCells ((l.foldl (flushOther c p) s).core k).l1 (fun a => a / 128 == line) = [] := by
  induction l generalizing s with
  | nil => exact due.elim id fun ⟨_, hx⟩ => nomatch hx
  | cons ck l ih =>
    refine ih _ ?_
    by_cases own : ck.1 = k
    · subst own
      unfold flushOther
      rw [if_neg (by simpa using other)]
      exact .inl (writeBack_clean _ _ h)
    · rw [flushOther_core_ne c p s ck (Ne.symm own)]
      refine due.imp_right fun ⟨x, hx⟩ => ⟨x, (List.mem_cons.1 hx).resolve_left fun same => own ?_⟩
      rw [← same]

theorem flushRange_eq (s : State) (c n va len : Nat) (inv : Bool) : s.flushRange c n va len inv =
    (s.flushLines c (flushedLines s n va len).contains inv).cores.foldl (flushOther c (flushedLines s n va len).contains)
      (s.flushLines c (flushedLines s n va len).contains inv) := rfl

theorem flushRange_frame (s : State) (c n va len : Nat) (inv : Bool) : AccFrame s (s.flushRange c n va len inv) := by
  rw [flushRange_eq]
  exact (AccFrame.flushLines ..).trans (.foldl (fun s ck => flushOther_frame c _ s ck) _ _)

section
variable {s : State} {n va len line : Nat} (h : line ∈ flushedLines s n va len)
include h

/-- No L1 holds a dirty byte of a flushed line (07 R176). -/
theorem flushRange_clean (c : Nat) (inv : Bool) (k : Nat) :
    dirtyCells ((s.flushRange c n va len inv).core k).l1 (fun a => a / 128 == line) = [] := by
  have hit : (flushedLines s n va len).contains line = true := List.contains_iff_mem.2 h
  have own := flushLines_clean s c hit inv
  rw [flushRange_eq]
  generalize s.flushLines c (flushedLines s n va len).contains inv = u at own ⊢
  by_cases same : k = c
  · rw [same, foldl_flushOther_core]
    exact own
  · refine foldl_flushOther_clean hit same _ _ ((core_listed u k).imp_left fun bare => ?_)
    rw [bare]
    rfl

/-- After INVR the core holds none of its lines (07 R176). -/
theorem flushRange_drops (c : Nat) : mget? ((s.flushRange c n va len true).core c).l1 line = none := by
  have dropped := flushLines_drops s c (p := (flushedLines s n va len).contains) (List.contains_iff_mem.2 h)
  rw [flushRange_eq, foldl_flushOther_core]
  exact dropped

end

end Sys2Proof.Machine

namespace Sys2Proof.Claims
open Sys2Proof.Machine

/-- FLUSHR and INVR (07 R176). -/
theorem flush_performed {s : State} {c w id va len : Nat} {inv : Bool} {v : VarOp} (h : Pending c w id v s) (body : v.body = .flush va len inv) :
    Answers (exec (.variableResultDone c id) s) fun t => tokenFell s t v ∧
      ∀ n first pages pa pte leaf level, va / 128 ≤ n → n ≤ (va + len - 1) / 128 →
        walk s (s.partOf (s.gidOf v.agent)) (128 * n) = .ok first pages pa pte leaf level →
        let line := (pa + (128 * n - first)) / 128
        (∀ k, dirtyCells (t.core k).l1 (fun a => a / 128 == line) = []) ∧ (inv = true → mget? (t.core c).l1 line = none) := by
  have frame := flushRange_frame s c (s.partOf (s.gidOf v.agent)) va len inv
  have performed : s.performVar c id = (s.flushRange c (s.partOf (s.gidOf v.agent)) va len inv).setBody c id .quiet := by
    rw [h.performVar, State.performOne, h.found]
    simp only [body]
  refine variableResultDone_answers h.live h.found (.inl h.clash) performed (frame.vars c) (.inr ⟨rfl, rfl⟩) fun z t ended => ⟨?_, ?_⟩
  · refine ⟨fun d u own there => ?_, fun d k own => nomatch h.agent.symm.trans own⟩
    rw [ended.fell_warp own ((frame.isSome d u).trans there), Warp.tok, frame.tokens]
    rfl
  · intro n first pages pa pte leaf level lo hi walked line
    have l1 : ∀ k, (t.core k).l1 = ((s.flushRange c (s.partOf (s.gidOf v.agent)) va len inv).core k).l1 :=
      fun k => (congrArg Core.l1 (ended.core_quiet k) :)
    have listed : line ∈ flushedLines s (s.partOf (s.gidOf v.agent)) va len := mem_flushedLines lo hi (by rw [lineOf, walked])
    refine ⟨fun k => ?_, fun drops => ?_⟩
    · rw [l1]
      exact flushRange_clean listed c inv k
    · rw [l1, drops]
      exact flushRange_drops listed c

end Sys2Proof.Claims
end

section
/-! SUPPORT. The pieces of a copy, read and written (07 R163 to R165). -/

namespace Sys2Proof.Machine

/-! ### A translation poisons nothing -/

section
variable {s : State} (h : s.poison = [])
include h

theorem orPte_sound (a : Nat) (b : W64) : (s.orPte a b).poison = [] := by
  simp [State.orPte, State.rmw64, State.memWrite, State.mapTlbs, h]

theorem xlGrant_sound (va : Nat) (need : Need) (t : TlbE) (l : Nat) : (xlGrant s va need t l).2.poison = [] := by
  unfold xlGrant
  split
  · exact h
  · dsimp only
    split
    · exact orPte_sound h ..
    · exact h

theorem fillTlb_sound (c : Nat) (t : TlbE) : (s.fillTlb c t).poison = [] := h

theorem xlWalk_sound (c n va : Nat) (need : Need) : (xlWalk s c n va need).2.poison = [] := by
  unfold xlWalk
  split
  · exact h
  · exact h
  · split
    · exact h
    · refine xlGrant_sound (fillTlb_sound ?_ ..) ..
      split
      · exact h
      · exact orPte_sound h ..

theorem xlate_sound (c n va : Nat) (need : Need) : (xlate s c n va need).2.poison = [] := by
  unfold xlate
  split
  · exact xlWalk_sound h ..
  · dsimp only
    split
    · exact xlWalk_sound (s := s.mapTlbs _) h ..
    · exact xlGrant_sound (fillTlb_sound h ..) ..

end

/-! ### What the pieces of a copy leave as it was -/

/-- What the pieces of a copy keep: the groups, the copies of every core, the free values, and a machine without poison stays so. -/
structure PieceFrame (s t : State) : Prop where
  groups : t.groups = s.groups
  copies : ∀ k, (t.core k).copies = (s.core k).copies
  free : ∀ k, t.free k = s.free k
  sound : s.poison = [] → t.poison = []

namespace PieceFrame

theorem trans {s t u : State} (h : PieceFrame s t) (g : PieceFrame t u) : PieceFrame s u :=
  ⟨g.groups.trans h.groups, fun k => (g.copies k).trans (h.copies k), fun k => (g.free k).trans (h.free k), fun none => g.sound (h.sound none)⟩

theorem ofAcc {s t : State} (h : AccFrame s t) : PieceFrame s t :=
  ⟨h.groups, h.copies, fun k => (congrArg (State.free · k) h.rest :), h.sound⟩

theorem xlate (s : State) (c n va : Nat) (need : Need) : PieceFrame s (xlate s c n va need).2 where
  groups := (congrArg State.groups (XlFrame.xlate s c n va need).rest :)
  copies k := (congrArg Core.copies ((XlFrame.xlate s c n va need).core k) :)
  free k := (congrArg (State.free · k) (XlFrame.xlate s c n va need).rest :)
  sound none := xlate_sound none ..

theorem copyXl {s s1 : State} {c n a : Nat} {hnd : Option Handle} {need : Need} {x : PX} (h : copyXl s c n hnd need a = (x, s1)) : PieceFrame s s1 := by
  have second : PieceFrame s (Machine.copyXl s c n hnd need a).2 := by
    have walked := PieceFrame.xlate s c n a need
    unfold Machine.copyXl
    cases hnd with
    | some => exact .ofAcc (.refl s)
    | none =>
      dsimp only
      generalize Machine.xlate s c n a need = r at walked ⊢
      obtain ⟨o, u⟩ := r
      cases o <;> exact walked
  rw [h] at second
  exact second

end PieceFrame

/-! ### One piece -/

theorem rdBytes_congr {s t : State} (h : t.mem = s.mem) (a n : Nat) : t.rdBytes a n = s.rdBytes a n := by
  unfold State.rdBytes State.rd8
  rw [h]

/-- Bytes that have been written to memory. -/
theorem rdBytes_written {t : State} {m : List Host.Cell} {a : Nat} {bs : List Byte} (h : t.mem = writeCells m (cellsAt a bs)) :
    t.rdBytes a bs.length = bs := by
  unfold State.rdBytes State.rd8
  rw [h]
  exact map_span_writeCells m a bs

/-- A piece of device memory that a copy reads (07 R165). -/
theorem copyGet_ok {s s1 : State} {c n a len pa : Nat} {x : Copy} (h : copyXl s c n x.hnd .r a = (.ok pa, s1)) (inside : pa + len ≤ memEnd)
    (sound : s.poison = []) : ∃ u, copyGet s c n x a len = (.done u, u.rdBytes pa len) ∧ PieceFrame s u ∧
      u.mem = (copyRead s1 c n pa len).2.2.mem := by
  have found := PieceFrame.copyXl h
  generalize hz : (copyRead s1 c n pa len).2.2 = z
  have read : AccFrame s1 z := by
    rw [← hz]
    exact (((AccFrame.wcDrain ..).trans (.resolveFd ..)).trans (.writeBack ..)).trans (.outLoad ..)
  have clean : z.poison = [] := read.sound (found.sound sound)
  have bytes : copyRead s1 c n pa len = (z.rdBytes pa len, none, z) := by
    rw [← map_loadByte (fun p hp => Nat.lt_of_lt_of_le (mem_span.1 hp).2 inside) id, ← find?_poisoned clean (span pa len), ← hz]
    rfl
  have got : copyGet s c n x a len = (.done (if pa < memEnd then z.addMask x.agent (tagCores z (span pa len)) else z), z.rdBytes pa len) := by
    simp only [copyGet, h, bytes]
  refine ⟨_, got.trans (congrArg (Prod.mk _) ?_), found.trans (.ofAcc (read.trans (.ite (.addMask ..) (.refl z)))), ?_⟩
  · split
    · rw [rdBytes_congr (addMask_mem ..)]
    · rfl
  · split
    · exact addMask_mem ..
    · rfl

/-- A piece of device memory that a copy writes (07 R165). -/
theorem copyPut_ok {s s1 : State} {c n a pa : Nat} {x : Copy} {bs : List Byte} (h : copyXl s c n x.hnd .w a = (.ok pa, s1))
    (inside : pa + bs.length ≤ memEnd) : ∃ u, copyPut s c n x a bs = .done u ∧ PieceFrame s u ∧ u.rdBytes pa bs.length = bs := by
  refine ⟨copyWrite s1 c n pa bs, by simp only [copyPut, h], (PieceFrame.copyXl h).trans (.ofAcc ((AccFrame.flushLines ..).trans (.homeWrite ..))), ?_⟩
  exact rdBytes_written (homeWrite_mem_field inside _ n false)

/-- A range of a scratchpad without poison. -/
theorem scrGet_ok {s : State} (sound : s.poison = []) (gid o len : Nat) :
    scrGet s gid o len = .ok ((span o len).map fun i => mget 0 (s.group gid).scratch i) := by
  have clean : (span (gid * 2 ^ 32 + o) len).find? s.scrPoisoned = none :=
    List.find?_eq_none.2 fun _ _ => by simp [State.scrPoisoned, sound]
  simp only [scrGet, clean]

/-- A range within one page is one piece. -/
theorem piecesOf_one {a len : Nat} (some : 0 < len) (h : a % 4096 + len ≤ 4096) : piecesOf a len = [(a, 0, len)] := by
  have whole : min len (4096 - a % 4096) = len := by omega
  have one : ∀ k, pieces (k + 2) a 0 len = [(a, 0, len)] := fun k => by
    simp only [pieces, whole, Nat.sub_self, beq_self_eq_true, if_true, beq_iff_eq, Nat.pos_iff_ne_zero.1 some, if_false]
  exact one _

/-! ### The copy in its core -/

@[simp] theorem modCopy_mem (s : State) (c id : Nat) (f : Copy → Copy) : (s.modCopy c id f).mem = s.mem := rfl

theorem find?_modCopy {s : State} {c id : Nat} {x : Copy} (h : (s.core c).copies.find? (fun x => x.id == id) = some x) {f : Copy → Copy}
    (keeps : ∀ x, (f x).id = x.id) : ((s.modCopy c id f).core c).copies.find? (fun x => x.id == id) = some (f x) := by
  have named : x.id = id := by simpa using List.find?_some h
  have test : (fun x : Copy => x.id == id) ∘ (fun x => if x.id == id then f x else x) = fun x => x.id == id := by
    funext y
    dsimp only [Function.comp_apply]
    split
    · rw [keeps]
    · rfl
  rw [State.modCopy, State.core_modCore]
  dsimp only
  rw [List.find?_map, test, h, Option.map_some, if_pos (by simpa using named)]

/-- A destination that nothing else writes takes the bytes as they are. -/
theorem copyScrPut_plain {s : State} {c : Nat} {x y : Copy} (h : (s.core c).copies.find? (fun y => y.id == x.id) = some y) (clash : y.clash = [])
    (gid o : Nat) (bs : List Byte) : copyScrPut s c x gid o bs = s.scrWrite gid o bs := by
  simp only [copyScrPut, h, Option.map_some, Option.getD_some, clash, List.isEmpty_nil, if_true]

theorem scrWrite_mem (s : State) (gid o : Nat) (bs : List Byte) : (s.scrWrite gid o bs).mem = s.mem :=
  (congrArg State.mem (scrWrite_frame s gid o bs) :)

/-- The scratchpad of a group that bytes have been written to. -/
theorem scrWrite_scratch {s : State} {gid : Nat} (h : (mget? s.groups gid).isSome = true) (o : Nat) (bs : List Byte) :
    ((s.scrWrite gid o bs).group gid).scratch = writeCells (s.group gid).scratch (cellsAt o bs) := by
  obtain ⟨g, hg⟩ := Option.isSome_iff_exists.1 h
  have was : s.group gid = g := by rw [State.group, mget_eq_getD, hg]; rfl
  rw [was]
  simp only [State.scrWrite, State.modGroup, hg]
  exact congrArg Group.scratch (mget_put_same ..)

/-- The token's fall of a copy at core scope leaves memory and the groups (07 R166). -/
theorem acquireAt_core (s : State) (a : Issuer) (gid : Nat) : ∃ m, acquireAt s a gid 2 = s.setMask a m := by
  have masked : (s.acquireDrop (coreOf a) (s.partOf gid) 2).acquireMask (coreOf a) 2 (clusterCores s gid) (s.pendMask a) = s :=
    foldl_still _ fun r _ => rfl
  refine ⟨s.pendMask a, ?_⟩
  unfold acquireAt
  dsimp only
  rw [masked]
  rfl

theorem setMask_mem (s : State) (a : Issuer) (m : List Nat) : (s.setMask a m).mem = s.mem := by
  cases a with
  | warp c w => exact State.modWarp_mem ..
  | _ => rfl

theorem setMask_groups (s : State) (a : Issuer) (m : List Nat) : (s.setMask a m).groups = s.groups := by
  cases a with
  | warp c w => exact State.modWarp_groups ..
  | _ => rfl

/-- The end of a copy at core scope without a gate leaves memory and the groups (07 R162, R166). -/
theorem copyFinish_plain {x : Copy} (gate : dGatev x.desc = false) (scope : x.scope = 2) (s : State) (c : Nat) :
    (copyFinish s c x).mem = s.mem ∧ (copyFinish s c x).groups = s.groups := by
  unfold copyFinish
  extract_lets arrived gone seen counted fallen
  have still : arrived = s := if_pos (by rw [gate]; rfl)
  have moved : GridsOnly seen counted := .moved ..
  obtain ⟨m, acquired⟩ := acquireAt_core counted x.agent x.gid
  have fell : fallen = (counted.setMask x.agent m).subTok x.agent x.tok := by
    unfold fallen
    rw [scope, acquired]
  refine ⟨?_, ?_⟩
  · calc fallen.mem = counted.mem := by rw [fell, subTok_mem, setMask_mem]
      _ = seen.mem := moved.mem
      _ = s.mem := (congrArg State.mem still :)
  · calc fallen.groups = counted.groups := by rw [fell, subTok_groups, setMask_groups]
      _ = seen.groups := (congrArg State.groups moved :)
      _ = s.groups := (congrArg State.groups still :)

end Sys2Proof.Machine
end

section
/-! SUPPORT. CPY and TCPY where they run to their end (07 R163 to R165, R170). -/

namespace Sys2Proof.Claims
open Sys2Proof.Machine

section
variable {s : State} {c id : Nat} {x : Copy} (h : Copying c id x s)
include h

theorem Copying.named : x.id = id := by simpa using List.find?_some h.found
theorem Copying.own : (s.core c).copies.find? (fun y => y.id == x.id) = some x := h.named ▸ h.found

/-- The event that ends a copy, by what the copy's run leaves in memory and in the scratchpads. -/
theorem copyComplete_answers {z : State} (run : copyRun s c (s.partOf x.gid) x = .done z) {P : State → Prop}
    (ends : ∀ t : State, t.mem = z.mem → t.groups = z.groups → P t) : Answers (exec (.copyComplete c id) s) P := by
  obtain ⟨gate, -, scope⟩ := h.plain
  obtain ⟨mem, groups⟩ := copyFinish_plain gate scope z c
  have done : copyComplete s c id = copyFinish z c x := by
    simp only [copyComplete, h.found, h.started, h.parked, h.ready, run, Bool.not_true, Bool.or_self, Bool.false_eq_true, if_false]
  refine ⟨_, runEvent_live h.live (copyComplete · c id), ends _ ?_ ?_⟩
  · rw [State.useFree_mem, done, mem]
  · exact (congrArg State.groups done :).trans groups

end

/-- A run of a copy ends with a write of its scratchpad destination. -/
theorem scratch_written {s t u : State} {gid o : Nat} {bs : List Byte} (there : (mget? s.groups gid).isSome = true) (kept : u.groups = s.groups)
    (groups : t.groups = (u.scrWrite gid o bs).groups) : (t.group gid).scratch = writeCells (u.group gid).scratch (cellsAt o bs) := by
  have same : t.group gid = (u.scrWrite gid o bs).group gid := congrArg (fun l => mget ({} : Group) l gid) groups
  rw [same]
  exact scrWrite_scratch (kept ▸ there) o bs

/-- A copy at its start within one page has one piece left. -/
theorem pieces_left {x : Copy} {a len : Nat} (start : x.done = 0) (some : 0 < len) (page : a % 4096 + len ≤ 4096) :
    (piecesOf a len).filter (fun p => x.done < p.2.1 + p.2.2) = [(a, 0, len)] := by
  rw [piecesOf_one some page, start]
  exact List.filter_eq_self.2 fun p hp => by rw [List.mem_singleton.1 hp]; simpa using some

section
variable {s s1 : State} {c id pa : Nat} {x : Copy} (h : Copying c id x s)
include h

/-- CPY from memory, within one page (07 R165). -/
theorem copy_in_performed (plain : x.tensor = none) (start : x.done = 0) (some : 0 < dLen x.desc) (dir : dDir x.desc = 0)
    (page : dSrc x.desc % 4096 + dLen x.desc ≤ 4096) (walked : copyXl s c (s.partOf x.gid) x.hnd .r (dSrc x.desc) = (.ok pa, s1))
    (inside : pa + dLen x.desc ≤ memEnd) : Answers (exec (.copyComplete c id) s) fun t =>
      (span (dDst x.desc % 2 ^ 32) (dLen x.desc)).map (fun a => mget 0 (t.group x.gid).scratch a) = t.rdBytes pa (dLen x.desc) ∧
      t.mem = (copyRead s1 c (s.partOf x.gid) pa (dLen x.desc)).2.2.mem := by
  obtain ⟨u, got, frame, mem⟩ := copyGet_ok (len := dLen x.desc) walked inside h.sound
  obtain ⟨-, clash, -⟩ := h.plain
  have put := copyScrPut_plain (s := u) (x := x) (by rw [frame.copies]; exact h.own) clash x.gid (dDst x.desc % 2 ^ 32) (u.rdBytes pa (dLen x.desc))
  have run : copyRun s c (s.partOf x.gid) x = .done ((u.scrWrite x.gid (dDst x.desc % 2 ^ 32) (u.rdBytes pa (dLen x.desc))).modCopy c x.id
      fun y => { y with done := 0 + dLen x.desc }) := by
    rw [← put]
    simp only [copyRun, plain, dir, pieces_left start some page, plainRun, Nat.add_zero, got]
    rfl
  refine copyComplete_answers h run fun t sameMem sameGroups => ?_
  rw [modCopy_mem, scrWrite_mem] at sameMem
  have written := scratch_written h.group frame.groups sameGroups
  rw [rdBytes_congr sameMem, sameMem, written]
  refine ⟨?_, mem⟩
  have bytes := map_span_writeCells (u.group x.gid).scratch (dDst x.desc % 2 ^ 32) (u.rdBytes pa (dLen x.desc))
  rwa [length_rdBytes] at bytes

/-- CPY to memory, within one page (07 R165). -/
theorem copy_out_performed (plain : x.tensor = none) (start : x.done = 0) (some : 0 < dLen x.desc) (dir : dDir x.desc = 1)
    (page : dDst x.desc % 4096 + dLen x.desc ≤ 4096) (walked : copyXl s c (s.partOf x.gid) x.hnd .w (dDst x.desc) = (.ok pa, s1))
    (inside : pa + dLen x.desc ≤ memEnd) : Answers (exec (.copyComplete c id) s) fun t =>
      t.rdBytes pa (dLen x.desc) = (span (dSrc x.desc % 2 ^ 32) (dLen x.desc)).map (fun a => mget 0 (s.group x.gid).scratch a) ∧
      t.groups = s.groups := by
  have length : ((span (dSrc x.desc % 2 ^ 32) (dLen x.desc)).map fun a => mget 0 (s.group x.gid).scratch a).length = dLen x.desc := by simp
  obtain ⟨u, put, frame, bytes⟩ := copyPut_ok (bs := (span (dSrc x.desc % 2 ^ 32) (dLen x.desc)).map fun a => mget 0 (s.group x.gid).scratch a)
    walked (by rw [length]; exact inside)
  have run : copyRun s c (s.partOf x.gid) x = .done (u.modCopy c x.id fun y => { y with done := 0 + dLen x.desc }) := by
    simp only [copyRun, plain, dir, pieces_left start some page, plainRun, scrGet_ok h.sound, Nat.add_zero, put]
    rfl
  refine copyComplete_answers h run fun t mem groups => ⟨?_, groups.trans frame.groups⟩
  rw [length] at bytes
  exact (rdBytes_congr mem ..).trans bytes

/-- CPY between scratchpads of a cluster, whose ranges do not overlap (07 R165). -/
theorem copy_cluster_performed (plain : x.tensor = none) {g g' : Nat} (dir : dDir x.desc = 2)
    (src : clusterTarget s x.gid (BitVec.ofNat 32 (dSrc x.desc)) = some g) (dst : clusterTarget s x.gid (BitVec.ofNat 32 (dDst x.desc)) = some g')
    (there : (mget? s.groups g').isSome = true) (apart : g = g' → dSrc x.desc % 2 ^ 24 + dLen x.desc ≤ dDst x.desc % 2 ^ 24 ∨
      dDst x.desc % 2 ^ 24 + dLen x.desc ≤ dSrc x.desc % 2 ^ 24) : Answers (exec (.copyComplete c id) s) fun t =>
      (span (dDst x.desc % 2 ^ 24) (dLen x.desc)).map (fun a => mget 0 (t.group g').scratch a) =
        (span (dSrc x.desc % 2 ^ 24) (dLen x.desc)).map (fun a => mget 0 (s.group g).scratch a) ∧ t.mem = s.mem := by
  obtain ⟨-, clash, -⟩ := h.plain
  generalize hbs : (span (dSrc x.desc % 2 ^ 24) (dLen x.desc)).map (fun a => mget 0 (s.group g).scratch a) = bs
  have length : bs.length = dLen x.desc := by rw [← hbs]; simp
  have disjoint : (g == g' && dSrc x.desc % 2 ^ 24 < dDst x.desc % 2 ^ 24 + dLen x.desc &&
      dDst x.desc % 2 ^ 24 < dSrc x.desc % 2 ^ 24 + dLen x.desc) = false := by
    by_cases same : g = g'
    · have := apart same
      simp only [same, beq_self_eq_true, Bool.true_and, Bool.and_eq_false_iff, decide_eq_false_iff_not]
      omega
    · simp [same]
  have run : copyRun s c (s.partOf x.gid) x = .done (s.scrWrite g' (dDst x.desc % 2 ^ 24) bs) := by
    rw [← copyScrPut_plain h.own clash]
    simp only [copyRun, plain, dir, clusterRun, src, dst, scrGet_ok h.sound, hbs, disjoint]
    rfl
  refine copyComplete_answers h run fun t mem groups => ⟨?_, mem.trans (scrWrite_mem ..)⟩
  rw [scratch_written there rfl groups, ← length]
  exact map_span_writeCells ..

/-! ### TCPY at its last piece (07 R170) -/

/-- TCPY from memory. -/
theorem tensor_in_performed {r : BitVec 512} {a len o : Nat} (record : x.tensor = some r) (dir : dDir x.desc = 0)
    (last : (tensorPieces r).drop x.done = [(a, o, len)]) (walked : copyXl s c (s.partOf x.gid) x.hnd .r a = (.ok pa, s1))
    (inside : pa + len ≤ memEnd) : Answers (exec (.copyComplete c id) s) fun t =>
      ∀ i, i < (tTarget s r (tensorLines r (x.got ++ t.rdBytes pa len))).length →
        mget 0 (t.group x.gid).scratch (dDst x.desc % 2 ^ 32 + i) = nth 0 (tTarget s r (tensorLines r (x.got ++ t.rdBytes pa len))) i := by
  obtain ⟨u, got, frame, -⟩ := copyGet_ok (len := len) walked inside h.sound
  obtain ⟨-, clash, -⟩ := h.plain
  have mine : (u.core c).copies.find? (fun y => y.id == x.id) = some x := by rw [frame.copies]; exact h.own
  generalize hz : (u.modCopy c x.id fun y => { y with done := y.done + 1, got := y.got ++ u.rdBytes pa len }) = z
  have stands := find?_modCopy mine (f := fun y => { y with done := y.done + 1, got := y.got ++ u.rdBytes pa len }) fun _ => rfl
  rw [hz] at stands
  have run : copyRun s c (s.partOf x.gid) x = .done (z.scrWrite x.gid (dDst x.desc % 2 ^ 32) (tTarget z r (tensorLines r (x.got ++ u.rdBytes pa len)))) := by
    rw [← copyScrPut_plain stands clash]
    simp only [copyRun, record, tensorRun, dir, last, tensorGets, got, hz, stands]
    rfl
  refine copyComplete_answers h run fun t mem groups => ?_
  have read : t.rdBytes pa len = u.rdBytes pa len := by
    refine rdBytes_congr (mem.trans ((scrWrite_mem ..).trans ?_)) pa len
    rw [← hz]
    rfl
  have kept : z.groups = s.groups := by rw [← hz]; exact frame.groups
  have made : tTarget s r (tensorLines r (x.got ++ u.rdBytes pa len)) = tTarget z r (tensorLines r (x.got ++ u.rdBytes pa len)) := by
    have free : ∀ k, z.free k = s.free k := fun k => by rw [← hz]; exact frame.free k
    simp only [tTarget, tSparseLine, free]
  rw [read, made, scratch_written h.group kept groups]
  exact fun i hi => mget_writeCells_cellsAt _ _ _ hi

/-- TCPY to memory. -/
theorem tensor_out_performed {r : BitVec 512} {a : Nat} {bs : List Byte} (record : x.tensor = some r) (dir : dDir x.desc = 1)
    (last : (tensorPuts r ((span (dSrc x.desc % 2 ^ 32) 4096).map fun o => mget 0 (s.group x.gid).scratch o)).drop x.done = [(a, bs)])
    (walked : copyXl s c (s.partOf x.gid) x.hnd .w a = (.ok pa, s1)) (inside : pa + bs.length ≤ memEnd) :
    Answers (exec (.copyComplete c id) s) fun t => t.rdBytes pa bs.length = bs ∧ t.groups = s.groups := by
  obtain ⟨u, put, frame, bytes⟩ := copyPut_ok walked inside
  have run : copyRun s c (s.partOf x.gid) x = .done (u.modCopy c x.id fun y => { y with done := y.done + 1 }) := by
    simp only [copyRun, record, tensorRun, dir, scrGet_ok h.sound, last, copyPuts, put]
    rfl
  exact copyComplete_answers h run fun t mem groups => ⟨(rdBytes_congr mem ..).trans bytes, groups.trans frame.groups⟩

end

end Sys2Proof.Claims
end

section
/-! SUPPORT. The lines of a tensor copy whose formats are one (07 R170), and the law of accesses that are performed. -/

namespace Sys2Proof.Machine

/-! ### Bytes in their places -/

/-- A byte of a part of a list. -/
theorem nth_take_drop {α : Type} (d : α) (l : List α) (n : Nat) {k j : Nat} (h : j < k) : nth d ((l.drop n).take k) j = nth d l (n + j) := by
  rw [nth_eq_getD, nth_eq_getD, List.getD_eq_getElem?_getD, List.getElem?_take_of_lt h, List.getElem?_drop, List.getD_eq_getElem?_getD]

/-- A byte of pieces of one length that stand one after another. -/
theorem nth_flatMap {α β : Type} (d : β) {f : α → List β} {k : Nat} (hf : ∀ a, (f a).length = k) (l : List α) {i j : Nat} (hi : i < l.length)
    (hj : j < k) : nth d (l.flatMap f) (k * i + j) = nth d (f l[i]) j := by
  rw [← take_drop_flatMap hf [] l hi, nth_take_drop d _ _ hj, List.append_nil]

/-- The bytes of the number that bytes make. -/
theorem leBytes_leNat (bs : List Byte) : leBytes bs.length (leNat bs) = bs := by
  induction bs with
  | nil => rfl
  | cons b t ih =>
    have small : b.toNat < 256 := b.isLt
    have low : (b.toNat + 256 * leNat t) % 256 = b.toNat := by omega
    have high : (b.toNat + 256 * leNat t) / 256 = leNat t := by omega
    rw [List.length_cons, leBytes, leNat, low, high, ih, BitVec.ofNat_toNat, BitVec.setWidth_eq]

theorem nth_leBytes_zero (n j : Nat) : nth 0 (leBytes n 0) j = 0 := by
  induction n generalizing j with
  | zero => rfl
  | succ n ih =>
    cases j with
    | zero => rfl
    | succ j => exact ih j

theorem nth_replicate {α : Type} (d : α) (n j : Nat) : nth d (List.replicate n d) j = d := by
  rw [nth_eq_getD, List.getD_eq_getElem?_getD, List.getElem?_replicate]
  split <;> rfl

/-! ### Records whose formats are one (06 R147; 07 R170) -/

section
variable {t : BitVec 512} (same : tSfmt t = tTfmt t) (plain : tTfmt t < 5)
include same plain

theorem tMain_same : tMain t = tElems t * sfmtSize (tTfmt t) := by
  unfold tMain
  split <;> omega

theorem tAuxBytes_same : tAuxBytes t = 0 := by
  unfold tAuxBytes
  split <;> omega

/-- A line goes out as it stands (06 R151). -/
theorem tOutLine_same (row : List Byte) : tOutLine t row = row.take (tElems t * sfmtSize (tTfmt t)) := by
  have line : tOutLine t row = row.take (tMain t) := by
    unfold tOutLine
    split
    · omega
    · omega
    · rfl
  rw [line, tMain_same same plain]

/-- An element is the number that its bytes make. -/
theorem tElem_same (main aux : List Byte) (e : Nat) :
    tElem t main aux e = leNat ((main.drop (sfmtSize (tTfmt t) * e)).take (sfmtSize (tTfmt t))) := by
  have six : (tSfmt t == 6) = false := by simp; omega
  have seven : (tSfmt t == 7) = false := by simp; omega
  have five : (tTfmt t == 5) = false := by simp; omega
  simp only [tElem, six, seven, five, Bool.false_eq_true, if_false]

theorem tTarget_same (s : State) (lines : List (List Byte × List Byte)) : tTarget s t lines = (List.range 32).flatMap fun l =>
    if l < tLines t then tDenseLine t (nth ([], []) lines l).1 (nth ([], []) lines l).2 else List.replicate 128 0 := by
  have dense : tSparse t = false := by unfold tSparse; simp; omega
  simp only [tTarget, dense, Bool.false_eq_true, if_false]

end

theorem sfmtSize_cases (f : Nat) : sfmtSize f = 1 ∨ sfmtSize f = 2 ∨ sfmtSize f = 4 := by
  unfold sfmtSize
  split <;> simp

theorem length_tDenseLine (t : BitVec 512) (main aux : List Byte) : (tDenseLine t main aux).length = 128 := by
  rw [tDenseLine, length_flatMap_leBytes]
  rcases sfmtSize_cases (tTfmt t) with size | size | size <;> rw [size]

section
variable {t : BitVec 512} (same : tSfmt t = tTfmt t) (plain : tTfmt t < 5)
include same plain

/-- A dense line holds the line's bytes and zero beyond them (07 R170). -/
theorem nth_tDenseLine_same {main : List Byte} (aux : List Byte) (length : main.length = tElems t * sfmtSize (tTfmt t)) {i : Nat} (hi : i < 128) :
    nth 0 (tDenseLine t main aux) i = if i < tElems t * sfmtSize (tTfmt t) then nth 0 main i else 0 := by
  obtain ⟨k, hk⟩ : ∃ k, k = sfmtSize (tTfmt t) := ⟨_, rfl⟩
  have pos : 0 < k := by have := sfmtSize_cases (tTfmt t); omega
  have whole : i / k < 128 / k := by
    rcases sfmtSize_cases (tTfmt t) with size | size | size <;> rw [hk, size] <;> omega
  have inside : i % k < k := Nat.mod_lt _ pos
  have place : k * (i / k) + i % k = i := Nat.div_add_mod ..
  have element : nth 0 (tDenseLine t main aux) i = nth 0 (leBytes k (if i / k < tElems t then tElem t main aux (i / k) else 0)) (i % k) := by
    conv_lhs => rw [← place]
    have line := nth_flatMap (0 : Byte) (fun e => length_leBytes k (if e < tElems t then tElem t main aux e else 0)) (List.range (128 / k))
      (i := i / k) (by rw [List.length_range]; exact whole) inside
    rw [List.getElem_range] at line
    rw [tDenseLine, ← hk]
    exact line
  have among : i / k < tElems t ↔ i < tElems t * k := Nat.div_lt_iff_lt_mul pos
  rw [element, ← hk, ← if_congr among rfl rfl]
  by_cases listed : i / k < tElems t
  · have room : k * (i / k) + k ≤ main.length := by
      rw [length, ← hk, ← Nat.mul_succ, Nat.mul_comm]
      exact Nat.mul_le_mul_right k listed
    have bytes : ((main.drop (k * (i / k))).take k).length = k := by rw [List.length_take, List.length_drop]; omega
    have kept := leBytes_leNat ((main.drop (k * (i / k))).take k)
    rw [bytes] at kept
    rw [if_pos listed, if_pos listed, tElem_same same plain, ← hk, kept, nth_take_drop _ _ _ inside, place]
  · rw [if_neg listed, if_neg listed, nth_leBytes_zero]

/-- The bytes of a line that have been read. -/
theorem tensorLines_same (got : List Byte) {l : Nat} (hl : l < tLines t) :
    (nth ([], []) (tensorLines t got) l).1 = (got.drop (l * (tElems t * sfmtSize (tTfmt t)))).take (tElems t * sfmtSize (tTfmt t)) := by
  rw [tensorLines, nth_map_range _ _ hl]
  dsimp only
  rw [tMain_same same plain, tAuxBytes_same same plain, Nat.add_zero]

/-- A block holds the lines' bytes and zero beyond them (07 R170). -/
theorem nth_tTarget_same (s : State) {got : List Byte} (length : got.length = tLines t * tMain t) {l i : Nat} (hl : l < 32) (hi : i < 128) :
    nth 0 (tTarget s t (tensorLines t got)) (128 * l + i) =
      if l < tLines t ∧ i < tElems t * sfmtSize (tTfmt t) then nth 0 got (l * (tElems t * sfmtSize (tTfmt t)) + i) else 0 := by
  have rows : ∀ l, (if l < tLines t then tDenseLine t (nth ([], []) (tensorLines t got) l).1 (nth ([], []) (tensorLines t got) l).2
      else List.replicate 128 (0 : Byte)).length = 128 := fun l => by
    split
    · exact length_tDenseLine ..
    · exact List.length_replicate
  rw [tTarget_same same plain, nth_flatMap _ rows _ (by rwa [List.length_range]) hi, List.getElem_range]
  by_cases used : l < tLines t
  · have bytes := tensorLines_same same plain got used
    have full : (nth ([], []) (tensorLines t got) l).1.length = tElems t * sfmtSize (tTfmt t) := by
      have room : l * tMain t + tMain t ≤ tLines t * tMain t := by
        rw [← Nat.succ_mul]
        exact Nat.mul_le_mul_right _ used
      rw [tMain_same same plain] at room length
      rw [bytes, List.length_take, List.length_drop]
      omega
    rw [if_pos used, nth_tDenseLine_same same plain _ full hi]
    by_cases among : i < tElems t * sfmtSize (tTfmt t)
    · rw [if_pos among, if_pos ⟨used, among⟩, bytes, nth_take_drop _ _ _ among]
    · rw [if_neg among, if_neg fun both => among both.2]
  · rw [if_neg used, if_neg fun both => used both.1, nth_replicate]

end

end Sys2Proof.Machine

namespace Sys2Proof.Claims
open Sys2Proof.Machine

/-- The bytes of lanes are among those that an access touches. -/
theorem touches_inside {b : VarBody} {x : Access} (body : b = .access x) (inside : ∀ p ∈ b.touches.2, p < memEnd) {n : LaneAcc → Nat}
    (h : ∀ l, n l ≤ max l.bytes.length x.dst.bytes) : ∀ p ∈ x.lanes.flatMap fun l => span l.pa (n l), p < memEnd := by
  intro p hp
  subst body
  obtain ⟨l, hl, hp⟩ := List.mem_flatMap.1 hp
  obtain ⟨lo, hi⟩ := mem_span.1 hp
  exact inside p (List.mem_flatMap.2 ⟨l, hl, mem_span.2 ⟨lo, Nat.lt_of_lt_of_le hi (Nat.add_le_add_left (h l) _)⟩⟩)

/-- Settles O43: each operation that stands in its core comes to one law of what it leaves in memory, tags, registers, scratchpads or L1s. -/
theorem accessesPerformed : Obligations.AccessesPerformed := by
  refine ⟨?device, ?scratch, ?tgld, ?tgst, ?flush, ?cpy, ?tcpy, ?line, ?block⟩
  case device =>
    intro s c w id v x h body device lanes inside
    refine ⟨fun kind _ => ?_, fun kind => ?_, fun code n ret kind _ => ?_⟩
    · exact load_performed h body device lanes kind (touches_inside body inside fun l => le_max_right l.bytes.length x.dst.bytes)
    · exact store_performed h body device lanes kind (touches_inside body inside fun l => le_max_left l.bytes.length x.dst.bytes)
    · exact rmw_performed h body device lanes kind
  case scratch =>
    intro s c w id v x h body pad ready acquires rel
    exact ⟨fun kind => scratch_load_performed h body pad ready acquires rel kind, fun kind => scratch_store_performed h body pad ready acquires rel kind⟩
  case tgld =>
    intro s c k id tile row pa len v live found agent clash sound body inside fits
    exact tgld_performed live found agent clash sound body inside fits
  case tgst =>
    intro s c k id pa rel bs v live found agent clash body inside
    exact tgst_performed live found agent clash body inside
  case flush =>
    intro s c w id va len inv v h body _
    exact flush_performed h body
  case cpy =>
    intro s c id x h plain start some
    refine ⟨fun pa s1 dir page walked inside => ?_, fun pa s1 dir page walked inside => ?_, fun g g' dir src dst there apart => ?_⟩
    · exact copy_in_performed h plain start some dir page walked inside
    · exact copy_out_performed h plain start some dir page walked inside
    · exact copy_cluster_performed h plain dir src dst there apart
  case tcpy =>
    intro s s1 c id a len pa x r h record
    refine ⟨fun dir last walked _ inside => ?_, fun bs dir last walked _ inside => ?_⟩
    · obtain ⟨o, last⟩ := last
      exact tensor_in_performed h record dir last walked inside
    · exact tensor_out_performed h record dir last walked inside
  case line =>
    intro t row same plain
    exact tOutLine_same same plain row
  case block =>
    intro s t got l i same plain _ _ length hl hi
    exact nth_tTarget_same same plain s length hl hi

end Sys2Proof.Claims
end
